-- ==== Sys2Proof/Word.lean ====
section
/-! DEFINITION. The plain words of the model: bytes, tables keyed by a number, and the arithmetic of bit fields that every layer shares. -/

namespace Sys2Proof

/-- One byte, the smallest addressable unit of every address space (R19, R24). -/
abbrev Byte := BitVec 8

/-- A table keyed by a number (a room, a ring, a core, a page ...): pairs in rising key order.
An unlisted key stands for the default its reader names. -/
abbrev Tbl (α : Type) := List (Nat × α)

/-- Bits `[hi:lo]` of a number, as the spec writes bit ranges. -/
def bits (w hi lo : Nat) : Nat := (w >>> lo) % 2 ^ (hi + 1 - lo)

/-- Bit `i` of a number. -/
def bit (w i : Nat) : Bool := w.testBit i

/-- A field written back into bits `[hi:lo]` of a number. -/
def setBits (w hi lo v : Nat) : Nat :=
  let m := 2 ^ (hi + 1 - lo)
  w - ((w >>> lo) % m) <<< lo + (v % m) <<< lo

/-- 1 for true, 0 for false, as status bits read. -/
def b2n (b : Bool) : Nat := if b then 1 else 0

/-- A count rounded up: the `ceil(a / b)` of the spec's formulas. -/
def ceilDiv (a b : Nat) : Nat := (a + b - 1) / b

/-- Sign extension of the low `w` bits of a number, read as two's complement. -/
def toSigned (w v : Nat) : Int :=
  let u := v % 2 ^ w
  if 2 * u < 2 ^ w then (u : Int) else (u : Int) - (2 ^ w : Nat)

/-- Two's complement bits of an integer in `w` bits. -/
def ofSigned (w : Nat) (i : Int) : Nat := (i % ((2 ^ w : Nat) : Int)).toNat

/-- A number as `n` bytes, least significant first (R19). -/
def leBytes : Nat → Nat → List Byte
  | 0, _ => []
  | n + 1, v => BitVec.ofNat 8 v :: leBytes n (v / 256)

/-- The number that little-endian bytes spell (R19). -/
def leNat : List Byte → Nat
  | [] => 0
  | b :: bs => b.toNat + 256 * leNat bs

end Sys2Proof
end

