-- ==== Sys2Proof/Syntax.lean ====
section
/-! DEFINITION. The commands the block takes: one constructor per row of the opcode table, with the operands that say what happened outside the block (what the host had stored, what arrived on a port or a pin, what a sensor read, when it happened). -/

namespace Sys2Proof

/-- What the host did to its own memory, or to its IOMMU, before a command that it sends (R303, R314). -/
inductive HostAct where
  /-- Bytes stored from an address on. -/
  | store (addr : Nat) (bytes : List Nat)
  /-- The IOMMU refuses a function's reads, writes or both in a range. -/
  | refuse (fn lo hi : Nat) (reads writes : Bool)
  /-- The IOMMU refuses nothing more to a function. -/
  | allow (fn : Nat)
deriving DecidableEq, Repr

/-- A received or sent Omhel packet, with its payload decrypted (Table 16.2). -/
structure Pkt where
  /-- Port index 8 × site + port of this device, and the IP address at the other end. -/
  port : Nat
  ip : Nat
  proto : Nat
  ptype : Nat
  pflags : Nat
  kgen : Nat
  mgen : Nat
  job : Nat
  incarn : Nat
  src : Nat
  dst : Nat
  flow : Nat
  plen : Nat
  /-- All 64 bits of the field: the sequence number and its RSVD bits. -/
  psn : Nat
  msg : Nat
  off : Nat
  rdig : Nat
  /-- Where a DATA packet's message goes in the receiver's room: the `remote` of its PUT. The header of Table 16.2 has no field for it. -/
  remote : Nat
  /-- Payload bytes that the UDP length leaves. -/
  udp : Nat
  /-- UDP source port, which carries the path value (R395). -/
  sport : Nat
  /-- Whether the tag verifies under the live key that `kgen` names. -/
  auth : Bool
  /-- Whether the packet carries a CE mark. -/
  ce : Bool
  payload : List Nat
deriving DecidableEq, Repr

/-- Who makes a management request, as the client certificate proves it (R448). -/
inductive Who where
  | nobody
  /-- A certificate whose public key has these bytes. -/
  | key (pub : List Nat)
  /-- A certificate that chains to the maker key of a generation. -/
  | maker (gen : Nat) (pub : List Nat)
deriving DecidableEq, Repr

/-- One of the four reads of a fuse word (R456): its data, whether its ECC is clean, and its SEC-DED corrected data. -/
structure FuseRead where
  raw : Nat
  data : Nat
  clean : Bool
  fixed : Nat
deriving DecidableEq, Repr

/-- The four reads of one fuse word: copies A and B at the tight and the loose margin (R456). -/
structure FuseReads where
  word : Nat
  atight : FuseRead
  aloose : FuseRead
  btight : FuseRead
  bloose : FuseRead
deriving DecidableEq, Repr

/-- What a firmware server answered (R371): nothing, a connection that fails authentication, or a file with the verdict on each signature it carries. -/
inductive Served where
  | silent
  | unproven
  | file (bytes : List Nat) (verified : List Bool)
  /-- The next block of a TFTP transfer; one of less than 512 bytes ends it, and `verified` then says which signatures hold. -/
  | block (bytes : List Nat) (verified : List Bool)
deriving DecidableEq, Repr

/-- A steward pair that stops (R369): on an uncorrectable error of its SRAM or on a lockstep mismatch, and the SRAM errors its ECC corrected before. -/
structure PairCrash where
  pair : Nat
  sram : Bool
  corrected : Nat
deriving DecidableEq, Repr

/-- A pair ready to resume (R375), and whether the copy of the image that it took agrees with its digest. -/
structure PairStart where
  pair : Nat
  intact : Bool
deriving DecidableEq, Repr

/-- One entry of the firmware server list (R371). -/
structure Server where
  https : Bool
  addr : Nat
  path : List Nat
deriving DecidableEq, Repr

/-- A received PTP message (R442). Times are in ns of device time; `stamp` is the time the message carries. -/
structure PtpMsg where
  port : Nat
  addr : Nat
  domain : Nat
  seq : Nat
  twoStep : Bool
  stamp : Nat
  received : Nat
  clockClass : Nat
  tlv : Bool
  tlvOk : Bool
deriving DecidableEq, Repr

/-- An error found by a stack's scrub (R238): the frame, the sector in it, the row of its bank, and whether ECC corrected it. -/
structure ScrubHit where
  frame : Nat
  sector : Nat
  row : Nat
  corrected : Bool
deriving DecidableEq, Repr

/-- A lane that shows a CRC error, or that fails its training (R239). -/
structure LaneErr where
  lane : Nat
  training : Bool
deriving DecidableEq, Repr

/-- A reading of the 48 V input: its power and its voltage, averaged over 1 ms (R484). -/
structure InputRead where
  watts : Nat
  millivolts : Nat
deriving DecidableEq, Repr

/-- Readings of a die's hottest sensor and of the coolant at its inlet and outlet, in °C (R487, R490). -/
structure HeatRead where
  hottest : Nat
  inlet : Nat
  outlet : Nat
deriving DecidableEq, Repr

/-- A word in flight on a core, named by the slot it starts at (R97). -/
structure WordRef where
  core : Nat
  slot : Nat
deriving DecidableEq, Repr

/-- How a word ran: the core cycles it took, and the single-bit errors that the core's store corrected in what it read (R52). -/
structure Ran where
  cycles : Nat
  corrected : Nat
deriving DecidableEq, Repr

/-- A detected error of a die's forest engine: of its sampler, or of a branch record that the room owns, and then whether it was corrected (R216). -/
structure EngineErr where
  die : Nat
  record : Option Bool
deriving DecidableEq, Repr

/-- What a read of the cellar met: the package, 16 of them in each half, the single-bit errors that it corrected, and whether an error was uncorrectable
(R282). -/
structure CellarRead where
  package : Nat
  corrected : Nat
  bad : Bool
deriving DecidableEq, Repr

/-- The cellar half that the package lies in. -/
def CellarRead.half (e : CellarRead) : Nat := e.package / 16

/-- A MOVE in flight, named by its core and the slot it starts at, and what its direct reads of the cellar met. -/
structure MoveDone where
  core : Nat
  slot : Nat
  cellar : CellarRead
deriving DecidableEq, Repr

/-- A page copied into a snapshot slot of a room, and what the copy's reading of the cellar met. -/
structure CopyDone where
  room : Nat
  cellar : CellarRead
deriving DecidableEq, Repr

/-- A RESTORE of a ring, and what the reading of its snapshot's stream from the cellar meets. -/
structure RestoreRun where
  ring : Nat
  cellar : CellarRead
deriving DecidableEq, Repr

/-- A command. Each constructor is a row of the opcode table; `at` is the device time of the event in ns. -/
inductive Instr where
  /-- MATRIX (R82). -/
  | matrix (core : Nat)
  /-- ARRAY_IDLE (R61). -/
  | arrayIdle (core : Nat) (array : Nat)
  /-- TILE_VERDICT (R67). -/
  | tileVerdict (word : WordRef) (ran : Ran)
  /-- DETECTED_ERROR (R69). -/
  | detectedError (word : WordRef) (parity : Bool)
  /-- BANK_PARITY_OUTSIDE_WORD (R71). -/
  | bankParityOutsideWord (core : Nat)
  /-- STORE_DOUBLE_BIT_ERROR (R52). -/
  | storeDoubleBitError (core : Nat)
  /-- TILE_WATCHDOG (R96). -/
  | tileWatchdog (core : Nat)
  /-- ADD (R105). -/
  | add (core : Nat)
  /-- SUB (R105). -/
  | sub (core : Nat)
  /-- MUL (R105). -/
  | mul (core : Nat)
  /-- MAX (R105). -/
  | max (core : Nat)
  /-- MIN (R105). -/
  | min (core : Nat)
  /-- AXPB (R105). -/
  | axpb (core : Nat)
  /-- AXPY (R105). -/
  | axpy (core : Nat)
  /-- FUNC (R114). -/
  | func (core : Nat)
  /-- CONVERT (R105). -/
  | convert (core : Nat)
  /-- LNSMUL (R29). -/
  | lnsmul (core : Nat)
  /-- CMPGT (R105). -/
  | cmpgt (core : Nat)
  /-- AND (R105). -/
  | and (core : Nat)
  /-- OR (R105). -/
  | or (core : Nat)
  /-- XOR (R105). -/
  | xor (core : Nat)
  /-- SHIFT (R105). -/
  | shift (core : Nat)
  /-- ROW_SUM (R112). -/
  | rowSum (core : Nat)
  /-- ROW_MAX (R112). -/
  | rowMax (core : Nat)
  /-- ROW_DOT (R112). -/
  | rowDot (core : Nat)
  /-- MEANVAR (R113). -/
  | meanvar (core : Nat)
  /-- NORM_APPLY (R105). -/
  | normApply (core : Nat)
  /-- SMAX_STEP (R118). -/
  | smaxStep (core : Nat)
  /-- ROW_SCALE (R119). -/
  | rowScale (core : Nat)
  /-- ROW_DIV (R119). -/
  | rowDiv (core : Nat)
  /-- SMAX_APPLY (R119). -/
  | smaxApply (core : Nat)
  /-- MOVE (R91). -/
  | move (core : Nat)
  /-- MOVE_COMPLETE (R549). -/
  | moveComplete (word : MoveDone)
  /-- SHAPE (R93). -/
  | shape (core : Nat)
  /-- SHAPE_COMPLETE (R93). -/
  | shapeComplete (word : WordRef)
  /-- STEP_BARRIER (R94). -/
  | stepBarrier (core : Nat)
  /-- SET (R94). -/
  | set (core : Nat)
  /-- SYNC_WAIT (R94). -/
  | syncWait (core : Nat)
  /-- UNFOLD (R150). -/
  | unfold (core : Nat)
  /-- SLOT_START (R353). -/
  | slotStart (entry : Nat) (at_ : Nat)
  /-- SLOT_END (R353). -/
  | slotEnd (entry : Nat) (at_ : Nat)
  /-- CONTEXT_SWITCH (R357). -/
  | contextSwitch (core : Nat)
  /-- NOP (R313). -/
  | nop (ring : Nat)
  /-- LAUNCH (R315). -/
  | launch (ring : Nat)
  /-- COPY (R320). -/
  | copy (ring : Nat)
  /-- FILL (R320). -/
  | fill (ring : Nat)
  /-- SIGNAL (R317). -/
  | signal (ring : Nat)
  /-- WAIT (R317). -/
  | wait (ring : Nat)
  /-- WAIT_TIMEOUT (R317). -/
  | waitTimeout (ring : Nat) (at_ : Nat)
  /-- BARRIER_JOIN (R318). -/
  | barrierJoin (ring : Nat)
  /-- POWER_CAP (R480). -/
  | powerCap (ring : Nat)
  /-- CLOCK_PLAN (R480). -/
  | clockPlan (ring : Nat)
  /-- SHARING_TABLE (R352). -/
  | sharingTable (ring : Nat)
  /-- PRECISION_MODE (R380). -/
  | precisionMode (ring : Nat)
  /-- END (R315). -/
  | endJob (ring : Nat)
  /-- TIMESTAMP (R434). -/
  | timestamp (ring : Nat)
  /-- FORK (R203). -/
  | fork (ring : Nat)
  /-- PRUNE (R210). -/
  | prune (ring : Nat)
  /-- BRANCH_READ (R202). -/
  | branchRead (ring : Nat)
  /-- UNMAP (R251). -/
  | unmap (ring : Nat)
  /-- MAP_AUTO (R251). -/
  | mapAuto (ring : Nat)
  /-- MAP_UPPER (R251). -/
  | mapUpper (ring : Nat)
  /-- MAP_COLD (R251). -/
  | mapCold (ring : Nat)
  /-- MAP_STREAM (R251). -/
  | mapStream (ring : Nat)
  /-- MAP_WINDOW (R251). -/
  | mapWindow (ring : Nat)
  /-- SET_AUTO (R251). -/
  | setAuto (ring : Nat)
  /-- SET_UPPER (R251). -/
  | setUpper (ring : Nat)
  /-- SET_COLD (R251). -/
  | setCold (ring : Nat)
  /-- SET_STREAM (R251). -/
  | setStream (ring : Nat)
  /-- VIEW (R134). -/
  | view (ring : Nat)
  /-- FOREST (R193). -/
  | forest (ring : Nat)
  /-- KERNEL (R228). -/
  | kernel (ring : Nat)
  /-- CLEAR (R193). -/
  | clear (ring : Nat)
  /-- HAUL_PLAN (R266). -/
  | haulPlan (ring : Nat)
  /-- CHECKPOINT (R271). -/
  | checkpoint (ring : Nat)
  /-- RESTORE (R279). -/
  | restore (run : RestoreRun)
  /-- MIRROR_FETCH_TIMEOUT (R279). -/
  | mirrorFetchTimeout (room : Nat) (at_ : Nat)
  /-- DECODE_OPEN (R289). -/
  | decodeOpen (ring : Nat)
  /-- DECODE_FRAME (R289). -/
  | decodeFrame (ring : Nat)
  /-- DECODE_CLOSE (R289). -/
  | decodeClose (ring : Nat)
  /-- DEVELOP_LOAD (R295). -/
  | developLoad (ring : Nat)
  /-- DEVELOP_FRAME (R296). -/
  | developFrame (ring : Nat)
  /-- TOKENIZE_LOAD (R300). -/
  | tokenizeLoad (ring : Nat)
  /-- TOKENIZE_RUN (R301). -/
  | tokenizeRun (ring : Nat)
  /-- AUGMENT (R294). -/
  | augment (ring : Nat)
  /-- PUT (R398). -/
  | put (ring : Nat)
  /-- GET (R398). -/
  | get (ring : Nat)
  /-- CANCEL (R319). -/
  | cancel (ring : Nat)
  /-- DOORBELL (R307). -/
  | doorbell (fn : Nat) (offset : Nat) (size : Nat) (value : Nat) (host : List HostAct)
  /-- DESCRIPTOR_FETCH (R310). -/
  | descriptorFetch (ring : Nat)
  /-- MODERATION_TIMER (R324). -/
  | moderationTimer (ring : Nat) (at_ : Nat)
  /-- VECTOR_UNMASK (R324). -/
  | vectorUnmask (fn : Nat) (vector : Nat)
  /-- RING_RESTART (R323). -/
  | ringRestart
  /-- START (R305). -/
  | start (fn : Nat) (room : Nat) (host : List HostAct)
  /-- COMMIT (R333). -/
  | commit (fn : Nat) (room : Nat)
  /-- TURNOVER (R335). -/
  | turnover (fn : Nat) (room : Nat) (release : Bool)
  /-- FUNCTION_LEVEL_RESET (R338). -/
  | functionLevelReset (fn : Nat)
  /-- VF_ENABLE_CHANGE (R328). -/
  | vfEnableChange (enable : Bool) (num : Nat)
  /-- GATE_CLOSE (R336). -/
  | gateClose (room : Nat)
  /-- DRAIN_LIMIT (R340). -/
  | drainLimit (room : Nat) (unit : Nat) (at_ : Nat)
  /-- ZEROING_COMPLETE (R343). -/
  | zeroingComplete (room : Nat) (at_ : Nat)
  /-- CHECK (R350). -/
  | check (fn : Nat)
  /-- ACTIVATE (R351). -/
  | activate (fn : Nat)
  /-- FRAME_BOUNDARY (R351). -/
  | frameBoundary (at_ : Nat)
  /-- NET_COMMIT (R408). -/
  | netCommit (fn : Nat)
  /-- RINGTAB_SEL (R536). -/
  | ringtabSel (fn : Nat) (value : Nat)
  /-- RINGTAB_RESTART (R537). -/
  | ringtabRestart (fn : Nat) (value : Nat)
  /-- INGEST_SEL (R538). -/
  | ingestSel (fn : Nat) (value : Nat)
  /-- MEM_PROMOTE_HEAT (R540). -/
  | memPromoteHeat (fn : Nat) (room : Nat) (value : Nat)
  /-- TIME_NOW_LO (R434). -/
  | timeNowLo (fn : Nat)
  /-- TIME_TOD_SET (R435). -/
  | timeTodSet (fn : Nat) (value : Nat)
  /-- POWER_CLKGATE (R491). -/
  | powerClkgate (fn : Nat) (group : Nat) (value : Nat)
  /-- POWER_PWRGATE (R491). -/
  | powerPwrgate (fn : Nat) (group : Nat) (value : Nat)
  /-- TENANT_ATTEST (R467). -/
  | tenantAttest (fn : Nat) (room : Nat)
  /-- TENANT (R467). -/
  | tenant (fn : Nat) (room : Nat)
  /-- IMPORT (R467). -/
  | importKey (fn : Nat) (room : Nat) (verified : Bool)
  /-- CONSENT (R470). -/
  | consent (fn : Nat) (room : Nat) (verified : Bool)
  /-- REVOKE (R467). -/
  | revoke (fn : Nat) (room : Nat)
  /-- WIDE_REGISTER_READ (R531). -/
  | wideRegisterRead (fn : Nat) (offset : Nat) (size : Nat)
  /-- REGISTER_WRITE (R530). -/
  | registerWrite (fn : Nat) (offset : Nat) (size : Nat) (value : Nat) (host : List HostAct)
  /-- FORK_CMD (R203). -/
  | forkCmd (room : Nat)
  /-- PRUNE_CMD (R210). -/
  | pruneCmd (room : Nat)
  /-- SAMPLE (R207). -/
  | sample (room : Nat)
  /-- SCORE (R209). -/
  | score (room : Nat)
  /-- SAMPLER_ERROR (R216). -/
  | samplerError (room : Nat) (err : EngineErr)
  /-- DECODE_BATCH (R140). -/
  | decodeBatch (room : Nat) (view : Nat)
  /-- DECODE_BATCH_END (R139). -/
  | decodeBatchEnd (room : Nat) (view : Nat)
  /-- BENCH_RUN (R229). -/
  | benchRun (room : Nat) (kernel : Nat)
  /-- BENCH_RUN_END (R229). -/
  | benchRunEnd (room : Nat) (kernel : Nat)
  /-- BMM (R232). -/
  | bmm (room : Nat) (kernel : Nat)
  /-- BENCH_ADD (R231). -/
  | benchAdd (room : Nat) (kernel : Nat)
  /-- BENCH_SUB (R231). -/
  | benchSub (room : Nat) (kernel : Nat)
  /-- BENCH_MUL (R231). -/
  | benchMul (room : Nat) (kernel : Nat)
  /-- BENCH_MAX (R231). -/
  | benchMax (room : Nat) (kernel : Nat)
  /-- BENCH_MIN (R231). -/
  | benchMin (room : Nat) (kernel : Nat)
  /-- BENCH_AXPB (R231). -/
  | benchAxpb (room : Nat) (kernel : Nat)
  /-- BENCH_AXPY (R231). -/
  | benchAxpy (room : Nat) (kernel : Nat)
  /-- BENCH_CONVERT (R231). -/
  | benchConvert (room : Nat) (kernel : Nat)
  /-- BENCH_EXP (R231). -/
  | benchExp (room : Nat) (kernel : Nat)
  /-- RSUM (R232). -/
  | rsum (room : Nat) (kernel : Nat)
  /-- RMAX (R232). -/
  | rmax (room : Nat) (kernel : Nat)
  /-- RDOT (R232). -/
  | rdot (room : Nat) (kernel : Nat)
  /-- CARRY (R231). -/
  | carry (room : Nat) (kernel : Nat)
  /-- SMERGE (R231). -/
  | smerge (room : Nat) (kernel : Nat)
  /-- BENCH_FILL (R231). -/
  | benchFill (room : Nat) (kernel : Nat)
  /-- BENCH_COPY (R231). -/
  | benchCopy (room : Nat) (kernel : Nat)
  /-- BENCH_TIMEOUT (R234). -/
  | benchTimeout (room : Nat) (kernel : Nat)
  /-- BENCH_ERROR (R240). -/
  | benchError (room : Nat) (site : Nat) (unit : Nat) (parity : Bool)
  /-- WINDOW_FILL (R268). -/
  | windowFill (room : Nat) (window : Nat)
  /-- MIGRATION_EPOCH (R259). -/
  | migrationEpoch (at_ : Nat)
  /-- MIGRATION_SWITCH (R260). -/
  | migrationSwitch (room : Nat) (page : Nat)
  /-- SNAPSHOT_COMPLETE (R274). -/
  | snapshotComplete (room : Nat)
  /-- MIRROR_ACK (R278). -/
  | mirrorAck (room : Nat) (digestOk : Bool)
  /-- COLLECTIVE_EXECUTION (R400). -/
  | collectiveExecution (room : Nat) (index : Nat)
  /-- COLLECTIVE_COMPLETE (R400). -/
  | collectiveComplete (room : Nat) (index : Nat) (parts : List (Nat × List Nat))
  /-- DATA (R391). -/
  | data (p : Pkt)
  /-- ACK (R393). -/
  | ack (p : Pkt)
  /-- NACK (R393). -/
  | nack (p : Pkt)
  /-- GETREQ (R398). -/
  | getreq (p : Pkt)
  /-- REFUSE (R391). -/
  | refuse (p : Pkt)
  /-- BUSY (R393). -/
  | busy (p : Pkt)
  /-- ACK_TIMER (R392). -/
  | ackTimer (room : Nat) (peer : Nat) (flow : Nat) (at_ : Nat)
  /-- NACK_TIMER (R392). -/
  | nackTimer (room : Nat) (peer : Nat) (flow : Nat) (at_ : Nat)
  /-- RETRANSMIT_TIMER (R393). -/
  | retransmitTimer (room : Nat) (peer : Nat) (flow : Nat) (psn : Nat) (at_ : Nat)
  /-- RATE_INCREASE (R395). -/
  | rateIncrease (room : Nat) (peer : Nat) (flow : Nat) (at_ : Nat)
  /-- PATH_RETURN (R395). -/
  | pathReturn (port : Nat) (path : Nat) (at_ : Nat)
  /-- ARP (R387). -/
  | arp (port : Nat) (addr : Nat)
  /-- NEIGHBOUR_DISCOVERY (R387). -/
  | neighbourDiscovery (port : Nat) (addr : Nat)
  /-- ICMP_ECHO (R387). -/
  | icmpEcho (port : Nat) (addr : Nat) (at_ : Nat)
  /-- KEY_OVERLAP_END (R404). -/
  | keyOverlapEnd (link : Bool) (tag : Nat) (at_ : Nat)
  /-- ADMIT (R415). -/
  | admitMember (p : Pkt)
  /-- ADMITTED (R415). -/
  | admitted (p : Pkt)
  /-- REFUSED (R415). -/
  | refused (p : Pkt)
  /-- ADMIT_RETRY (R415). -/
  | admitRetry (at_ : Nat)
  /-- RENEW_TIMER (R416). -/
  | renewTimer (at_ : Nat)
  /-- RENEW (R416). -/
  | renew (p : Pkt)
  /-- GRANT (R416). -/
  | grant (p : Pkt)
  /-- LEASE_EXPIRY (R418). -/
  | leaseExpiry (at_ : Nat)
  /-- LEASE_LAPSE (R416). -/
  | leaseLapse (mid : Nat) (at_ : Nat)
  /-- KEY (R421). -/
  | key (p : Pkt)
  /-- GEN (R417). -/
  | gen (p : Pkt)
  /-- FENCE (R418). -/
  | fence (p : Pkt)
  /-- PROBE (R417). -/
  | probe (p : Pkt)
  /-- PROBE_ACK (R417). -/
  | probeAck (p : Pkt)
  /-- PROBE_TIMEOUT (R417). -/
  | probeTimeout (mid : Nat) (at_ : Nat)
  /-- REPORT (R417). -/
  | report (p : Pkt)
  /-- LEAVE (R416). -/
  | leave (p : Pkt)
  /-- REKEY (R421). -/
  | rekey (p : Pkt)
  /-- JOIN (R419). -/
  | join (p : Pkt)
  /-- ASSEMBLY_TIMEOUT (R419). -/
  | assemblyTimeout (tag : Nat) (at_ : Nat)
  /-- JOB_RECORD_EXPIRY (R419). -/
  | jobRecordExpiry (tag : Nat) (at_ : Nat)
  /-- JOB_START (R421). -/
  | jobStart (p : Pkt)
  /-- MAP (R421). -/
  | map (p : Pkt)
  /-- BAR_JOIN (R423). -/
  | barJoin (room : Nat)
  /-- BAR_JOIN_MESSAGE (R425). -/
  | barJoinMessage (p : Pkt)
  /-- RELEASE (R425). -/
  | release (p : Pkt)
  /-- BAR_LOCAL (R424). -/
  | barLocal (room : Nat) (at_ : Nat)
  /-- BAR_TIMEOUT (R425). -/
  | barTimeout (tag : Nat) (at_ : Nat)
  /-- FAULT (R427). -/
  | fault (p : Pkt)
  /-- ABORT (R427). -/
  | abort (p : Pkt)
  /-- JOB_FAULT (R496). -/
  | jobFault (room : Nat) (code : Nat) (unit : Nat)
  /-- LINK_NONCE (R463). -/
  | linkNonce (mid : Nat) (nonce : List Nat)
  /-- LINK_REPORT (R463). -/
  | linkReport (mid : Nat) (report : List Nat) (verified : Bool)
  /-- LINK_RESEND (R463). -/
  | linkResend (mid : Nat) (at_ : Nat)
  /-- STEWARD_CRASH (R375). -/
  | stewardCrash (crash : PairCrash) (at_ : Nat)
  /-- STEWARD_WATCHDOG (R370). -/
  | stewardWatchdog (pair : Nat) (at_ : Nat)
  /-- STEWARD_RESTART_DONE (R375). -/
  | stewardRestartDone (done : PairStart) (at_ : Nat)
  /-- STEWARD_SLOW (R376). -/
  | stewardSlow (pair : Nat) (at_ : Nat)
  /-- IMAGE_FETCH (R371). -/
  | imageFetch (served : List Served)
  /-- TFTP_RETRANSMIT (R371). -/
  | tftpRetransmit (at_ : Nat)
  /-- FETCH_RETRY (R371). -/
  | fetchRetry (at_ : Nat)
  /-- STANDBY_POWER_GOOD (R516). -/
  | standbyPowerGood (romOk : Bool) (storeOk : Bool) (chainOk : Bool) (reads : List FuseReads)
  /-- STRAP_LATCH (R510). -/
  | strapLatch (straps : Nat)
  /-- MAIN_START (R516). -/
  | mainStart (millivolts : Nat) (at_ : Nat)
  /-- RAIL_STEP (R517). -/
  | railStep (at_ : Nat)
  /-- RAIL_FAIL (R518). -/
  | railFail (at_ : Nat)
  /-- RAIL_RETRY (R518). -/
  | railRetry (at_ : Nat)
  /-- LINK_TRAINING (R519). -/
  | linkTraining (width : Nat) (speed : Nat) (at_ : Nat)
  /-- HOST_RESET (R520). -/
  | hostReset (perst : Bool) (modrst : Bool) (at_ : Nat)
  /-- HOST_RESET_END (R520). -/
  | hostResetEnd (at_ : Nat)
  /-- HOT_RESET (R521). -/
  | hotReset
  /-- SAG_WARNING (R484). -/
  | sagWarning (millivolts : Nat)
  /-- SAG_CLEAR (R484). -/
  | sagClear (millivolts : Nat)
  /-- MAIN_RESET (R486). -/
  | mainReset (surge : Bool) (at_ : Nat)
  /-- STANDBY_LOSS (R524). -/
  | standbyLoss (millivolts : Nat)
  /-- POWER_CONTROL (R485). -/
  | powerControl (input : InputRead) (milliamps : Nat) (at_ : Nat)
  /-- THERMAL_CONTROL (R487). -/
  | thermalControl (die : Nat) (heat : HeatRead) (at_ : Nat)
  /-- JUNCTION_TRIP (R487). -/
  | junctionTrip (die : Nat) (hottest : Nat) (at_ : Nat)
  /-- TRIP_RECOVERY (R488). -/
  | tripRecovery (die : Nat) (at_ : Nat)
  /-- DROOP_TRIP (R482). -/
  | droopTrip (unit : Nat)
  /-- DROOP_RECOVERY (R482). -/
  | droopRecovery (unit : Nat) (cycles : Nat) (long : Bool)
  /-- STACK_BAND_READING (R241). -/
  | stackBandReading (site : Nat) (hottest : Nat) (at_ : Nat)
  /-- STACK_SHUTDOWN (R244). -/
  | stackShutdown (site : Nat) (hottest : Nat) (at_ : Nat)
  /-- STACK_RETURN (R489). -/
  | stackReturn (site : Nat) (at_ : Nat)
  /-- STACK_SCRUB (R238). -/
  | stackScrub (site : Nat) (hits : List ScrubHit)
  /-- CRC_ERROR (R239). -/
  | crcError (unit : Nat) (channel : Nat) (lane : LaneErr) (at_ : Nat)
  /-- SECURITY_FAULT (R472). -/
  | securityFault (unit : Nat)
  /-- FUSE_REREAD (R457). -/
  | fuseReread (reads : List FuseReads)
  /-- CONSENT_EXPIRY (R470). -/
  | consentExpiry (room : Nat) (at_ : Nat)
  /-- DEBUG_WINDOW_END (R469). -/
  | debugWindowEnd (at_ : Nat)
  /-- IDENTITY (R449). -/
  | identity (who : Who)
  /-- ATTEST (R449). -/
  | attest (who : Who) (nonce : List Nat)
  /-- CLAIM (R450). -/
  | claim (token : List Nat) (pub : List Nat) (verified : Bool)
  /-- AUDIT_READ (R449). -/
  | auditRead (who : Who) (first : Nat)
  /-- HEALTH_READ (R499). -/
  | healthRead (who : Who) (first : Nat)
  /-- AUDIT_ACK (R452). -/
  | auditAck (who : Who) (seq : Nat)
  /-- REBOOT (R449). -/
  | reboot (who : Who)
  /-- ROOM_SEC (R467). -/
  | roomSec (who : Who) (room : Nat) (cmd : Nat) (body : List Nat) (verified : Bool)
  /-- SET_NET (R449). -/
  | setNet (who : Who) (body : List Nat)
  /-- SET_SERVERS (R449). -/
  | setServers (who : Who) (servers : List Server)
  /-- SET_CA (R449). -/
  | setCa (who : Who) (certs : List (List Nat))
  /-- SET_CARAVAN (R410). -/
  | setCaravan (who : Who) (body : List Nat)
  /-- CLEAR_LAGGARD (R426). -/
  | clearLaggard (who : Who) (mid : Nat)
  /-- REMOVE_MEMBER (R417). -/
  | removeMember (who : Who) (mid : Nat)
  /-- ADD_OPERATOR (R449). -/
  | addOperator (who : Who) (pub : List Nat)
  /-- DEL_OPERATOR (R449). -/
  | delOperator (who : Who) (index : Nat)
  /-- ADD_INSTALLER (R449). -/
  | addInstaller (who : Who) (pub : List Nat)
  /-- DEL_INSTALLER (R449). -/
  | delInstaller (who : Who) (index : Nat)
  /-- RELEASE_CLAIM (R449). -/
  | releaseClaim (who : Who)
  /-- SVN_COMMIT (R458). -/
  | svnCommit (who : Who) (reads : List FuseReads)
  /-- DEBUG_ALLOW (R449). -/
  | debugAllow (who : Who) (duration : Nat)
  /-- DEBUG (R469). -/
  | debug (who : Who) (rooms : List Nat) (scope : Nat)
  /-- MAKER_REVOKE (R458). -/
  | makerRevoke (who : Who) (generation : Nat) (reads : List FuseReads)
  /-- REPAIR_FUSE (R458). -/
  | repairFuse (who : Who) (words : List (Nat × Nat)) (reads : List FuseReads)
  /-- RETIRE (R458). -/
  | retire (who : Who) (reads : List FuseReads)
  /-- REFERENCE_QUALIFIED (R435). -/
  | referenceQualified (ref : Nat) (at_ : Nat)
  /-- REFERENCE_LOSS (R435). -/
  | referenceLoss (ref : Nat) (at_ : Nat)
  /-- REFERENCE_COMPARISON (R437). -/
  | referenceComparison (extPtp : Int) (extOcxo : Int) (ptpOcxo : Int) (offset : Int) (at_ : Nat)
  /-- LOCK_ACQUIRED (R436). -/
  | lockAcquired (at_ : Nat)
  /-- PPS_EDGE (R435). -/
  | ppsEdge (at_ : Nat)
  /-- SYNC (R442). -/
  | sync (m : PtpMsg)
  /-- FOLLOW_UP (R442). -/
  | followUp (m : PtpMsg)
  /-- DELAY_RESP (R442). -/
  | delayResp (m : PtpMsg)
  /-- ANNOUNCE (R441). -/
  | announce (m : PtpMsg)
  /-- BMB_IDENT (R511). -/
  | bmbIdent
  /-- BMB_STATUS (R511). -/
  | bmbStatus
  /-- BMB_POWER (R511). -/
  | bmbPower
  /-- BMB_THERMAL (R511). -/
  | bmbThermal
  /-- ALERT_RESPONSE (R512). -/
  | alertResponse
  /-- UNFOLD_COMPLETE (R154). -/
  | unfoldComplete (core : Nat) (ran : Ran)
  /-- SNAPSHOT_PAGE_COPIED (R273). -/
  | snapshotPageCopied (copy : CopyDone)
  /-- PROBE_RESEND (R417). -/
  | probeResend (mid : Nat) (at_ : Nat)
  /-- GETREQ_RETRY (R393). -/
  | getreqRetry (room : Nat) (peer : Nat) (flow : Nat) (at_ : Nat)
  /-- PORT_LINK (R508). -/
  | portLink (port : Nat) (up : Bool)
  /-- OTHER_FRAME (R387). -/
  | otherFrame (port : Nat)
  /-- DELAY_REQ (R442). -/
  | delayReq (m : PtpMsg)
  /-- PTP_SYNC_INTERVAL (R442). -/
  | ptpSyncInterval (at_ : Nat)
  /-- PTP_DELAY_REQ_INTERVAL (R442). -/
  | ptpDelayReqInterval (at_ : Nat)
  /-- PTP_ANNOUNCE_INTERVAL (R441). -/
  | ptpAnnounceInterval (at_ : Nat)
deriving DecidableEq, Repr

end Sys2Proof
end

