-- ==== Sys2Proof/Machine/Codes.lean ====
section
/-! DEFINITION. The detail codes of the spec, by name (Tables 23.2 and 23.3 and the tables they point at). -/

namespace Sys2Proof.Machine.Code

def magic : Nat := 0x0101
def version : Nat := 0x0102
def variant : Nat := 0x0103
def jobShape : Nat := 0x0104
def digest : Nat := 0x0105
def imageBounds : Nat := 0x0106
def coreGrant : Nat := 0x0107
def storeSize : Nat := 0x0108
def deepStore : Nat := 0x0109
def commonStore : Nat := 0x010A
def barrierCount : Nat := 0x010B
def badKind : Nat := 0x0110
def reservedValue : Nat := 0x0111
def wordBounds : Nat := 0x0112
def formatRole : Nat := 0x0113
def formatMix : Nat := 0x0114
def plan : Nat := 0x0115
def blockScale : Nat := 0x0116
def packing : Nat := 0x0117
def shapeDecl : Nat := 0x0118
def fold : Nat := 0x0119
def alignment : Nat := 0x011A
def bufferBounds : Nat := 0x011B
def selfOverlap : Nat := 0x011C
def bankState : Nat := 0x011D
def duration : Nat := 0x011E
def moveShape : Nat := 0x011F
def waiver : Nat := 0x0120
def hazard : Nat := 0x0121
def syncBalance : Nat := 0x0122
def inbound : Nat := 0x0123
def unfoldGeometry : Nat := 0x0124
def unfoldHalo : Nat := 0x0125
def coreShared : Nat := 0x0126
def shapeBound : Nat := 0x0130
def viewKind : Nat := 0x0501
def viewFormat : Nat := 0x0502
def viewDims : Nat := 0x0503
def viewSlot : Nat := 0x0504
def viewRange : Nat := 0x0505
def viewWeights : Nat := 0x0506
def viewSource : Nat := 0x0507
def viewCount : Nat := 0x0508
def decodeRange : Nat := 0x0510
def decodeLength : Nat := 0x0511
def decodeControl : Nat := 0x0512
def forestKind : Nat := 0x0801
def forestGeometry : Nat := 0x0802
def forestRange : Nat := 0x0803
def forestGrant : Nat := 0x0804
def forestPilot : Nat := 0x0805
def forestExists : Nat := 0x0806
def forestCmd : Nat := 0x0810
def forestParams : Nat := 0x0811
def forestTree : Nat := 0x0812
def forestPiloted : Nat := 0x0813
def forestNotPilot : Nat := 0x0814
def forestRescore : Nat := 0x0815
def forestLeafRange : Nat := 0x0816
def forestIds : Nat := 0x0820
def forestRoster : Nat := 0x0821
def forestPool : Nat := 0x0822
def forestCheck : Nat := 0x0823
def benchKind : Nat := 0x0901
def benchWords : Nat := 0x0902
def benchRange : Nat := 0x0903
def benchCount : Nat := 0x0904
def benchCtr : Nat := 0x0905
def benchWord : Nat := 0x0906
def benchAddress : Nat := 0x0910
def benchOverlap : Nat := 0x0911
def benchTimeout : Nat := 0x0912
def stackUe : Nat := 0x0918
def stackLane : Nat := 0x0919
def stackThermal : Nat := 0x091A
def benchSpare : Nat := 0x091B
def memUnmapped : Nat := 0x0A01
def memReadonly : Nat := 0x0A02
def memSpecial : Nat := 0x0A03
def memAlign : Nat := 0x0A10
def memHint : Nat := 0x0A11
def memOverlap : Nat := 0x0A12
def memNotmapped : Nat := 0x0A13
def memBusy : Nat := 0x0A14
def memQuota : Nat := 0x0A20
def memMaps : Nat := 0x0A21
def haulParams : Nat := 0x0A30
def haulBusy : Nat := 0x0A31
def haulOrder : Nat := 0x0A32
def snapParams : Nat := 0x0A40
def snapSpace : Nat := 0x0A41
def snapNone : Nat := 0x0A42
def snapDigest : Nat := 0x0A43
def snapShape : Nat := 0x0A44
def snapFetch : Nat := 0x0A45
def snapMirror : Nat := 0x0A46
def snapOversize : Nat := 0x0A47
def cellarUe : Nat := 0x0A50
def ingestAbsent : Nat := 0x0B01
def ingestOp : Nat := 0x0B02
def ingestContext : Nat := 0x0B03
def ingestRing : Nat := 0x0B04
def ingestCalib : Nat := 0x0B05
def ingestAug : Nat := 0x0B06
def ingestNoseed : Nat := 0x0B07
def ingestDict : Nat := 0x0B08
def ingestGeometry : Nat := 0x0B09
def ingestUnsupported : Nat := 0x0B10
def ingestBitstream : Nat := 0x0B11
def ingestNoref : Nat := 0x0B12
def ingestTruncated : Nat := 0x0B13
def descOpcode : Nat := 0x0C01
def descRsvd : Nat := 0x0C02
def descSeq : Nat := 0x0C03
def descOperand : Nat := 0x0C04
def descRing : Nat := 0x0C05
def hostRead : Nat := 0x0C06
def hostWrite : Nat := 0x0C07
def launchBusy : Nat := 0x0C08
def stepLate : Nat := 0x0C09
def stepEnded : Nat := 0x0C0A
def waitTimeout : Nat := 0x0C0B
def ringTable : Nat := 0x0C10
def ringDoorbell : Nat := 0x0C11
def ringFetch : Nat := 0x0C12
def ringRestart : Nat := 0x0C13
def grantState : Nat := 0x0D01
def grantRings : Nat := 0x0D02
def grantCores : Nat := 0x0D03
def grantCommon : Nat := 0x0D04
def grantQuota : Nat := 0x0D05
def grantBranch : Nat := 0x0D06
def grantIngest : Nat := 0x0D07
def grantReserve : Nat := 0x0D08
def schedFrame : Nat := 0x0E01
def schedEntry : Nat := 0x0E02
def schedRoom : Nat := 0x0E03
def schedSlotRoom : Nat := 0x0E04
def schedSlotCores : Nat := 0x0E05
def schedOverlap : Nat := 0x0E06
def schedIngest : Nat := 0x0E07
def schedBusy : Nat := 0x0E08
def schedNotPf : Nat := 0x0E09
def schedPacing : Nat := 0x0E0A
def fwNoserver : Nat := 0x0F01
def fwSize : Nat := 0x0F02
def fwFormat : Nat := 0x0F03
def fwDigest : Nat := 0x0F04
def fwMakerSig : Nat := 0x0F05
def fwExtraSig : Nat := 0x0F06
def fwRollback : Nat := 0x0F07
def stewardSlow : Nat := 0x0F10
def stewardRepeat : Nat := 0x0F11
def stewardFailed : Nat := 0x0F12
def modeKind : Nat := 0x0F20
def modeDuplicate : Nat := 0x0F21
def modeValue : Nat := 0x0F22
def modeAck : Nat := 0x0F23
def modeMismatch : Nat := 0x0F24
def modePending : Nat := 0x0F25
def slowCore : Nat := 0x0F30
def netNojob : Nat := 0x1001
def netFlow : Nat := 0x1002
def netPeerTimeout : Nat := 0x1003
def netEnded : Nat := 0x1004
def netProg : Nat := 0x1005
def netWaiver : Nat := 0x1006
def netMismatch : Nat := 0x1007
def netPeerLost : Nat := 0x1008
def carNomember : Nat := 0x1101
def carRank : Nat := 0x1102
def carVariant : Nat := 0x1103
def carFirmware : Nat := 0x1104
def carIncarn : Nat := 0x1105
def carStep : Nat := 0x1106
def carBusy : Nat := 0x1107
def carLaggard : Nat := 0x1108
def carAssembly : Nat := 0x1109
def barLocal : Nat := 0x1110
def barTimeout : Nat := 0x1111
def endMismatch : Nat := 0x1112
def buddyMismatch : Nat := 0x1113
def memberLost : Nat := 0x1114
def admitDuplicate : Nat := 0x1118
def admitAddress : Nat := 0x1119
def admitAttest : Nat := 0x111A
def admitRole : Nat := 0x111B
def fenceEvicted : Nat := 0x1120
def fenceLease : Nat := 0x1121
def laggard : Nat := 0x1122
def pwrNotPf : Nat := 0x1201
def pwrOverload : Nat := 0x1202
def thermTrip : Nat := 0x1203
def pwrReset : Nat := 0x1204
def pwrPageLost : Nat := 0x1205
def bridgeLane : Nat := 0x1206
def cellarPackage : Nat := 0x1207
def healthOos : Nat := 0x1208
def droopLong : Nat := 0x1209
def coreWatchdog : Nat := 0x1210
def coreRetired : Nat := 0x1211
def coreUe : Nat := 0x1212
def coreParity : Nat := 0x1213
def coreUnfillable : Nat := 0x1214
def stewardNone : Nat := 0x1215
def secRomTest : Nat := 0x1301
def fuseMargin : Nat := 0x1302
def secRetired : Nat := 0x1303
def secKeystore : Nat := 0x1304
def secChainBreak : Nat := 0x1305
def secAuth : Nat := 0x1310
def secClaim : Nat := 0x1311
def secLogFull : Nat := 0x1312
def secFuseProgram : Nat := 0x1313
def secBusy : Nat := 0x1314
def secLastKey : Nat := 0x1315
def secDupKey : Nat := 0x1316
def secConfCores : Nat := 0x1320
def secTenantSet : Nat := 0x1321
def secNoTenant : Nat := 0x1322
def secImportSig : Nat := 0x1323
def secNotConf : Nat := 0x1324
def secNoImport : Nat := 0x1325
def secSealShape : Nat := 0x1326
def secSealAuth : Nat := 0x1327
def secConfHost : Nat := 0x1328
def secConsent : Nat := 0x1330
def secDebugDenied : Nat := 0x1331
def secLockBreach : Nat := 0x1332
def pwrRailFail : Nat := 0x1401
def timeDrift : Nat := 0x1501
def timeDisagree : Nat := 0x1502
def timeLost : Nat := 0x1503
def timeLarge : Nat := 0x1504
def todIgnored : Nat := 0x1505

end Sys2Proof.Machine.Code
end

