-- ==== Sys2Proof/Machine/Table.lean ====
section
/-! DEFINITION. Operations on tables keyed by a number and on plain lists, shared by every unit of the block. -/

namespace Sys2Proof.Machine

/-- The entry of a table, if it is listed. -/
def tfind {α : Type} (t : Tbl α) (k : Nat) : Option α :=
  match t with
  | [] => none
  | (j, v) :: r => if j = k then some v else tfind r k

/-- The entry of a table, or the default of an unlisted key. -/
def tget {α : Type} (d : α) (t : Tbl α) (k : Nat) : α :=
  match tfind t k with
  | some v => v
  | none => d

/-- A table with one entry set; the keys stay in rising order. -/
def tset {α : Type} (t : Tbl α) (k : Nat) (v : α) : Tbl α :=
  match t with
  | [] => [(k, v)]
  | (j, w) :: r =>
    if k < j then (k, v) :: (j, w) :: r
    else if k = j then (k, v) :: r
    else (j, w) :: tset r k v

/-- A table without one key. -/
def tdel {α : Type} (t : Tbl α) (k : Nat) : Tbl α :=
  match t with
  | [] => []
  | (j, w) :: r => if j = k then r else (j, w) :: tdel r k

/-- One entry of a table changed by a function. -/
def tmod {α : Type} (d : α) (t : Tbl α) (k : Nat) (f : α → α) : Tbl α :=
  tset t k (f (tget d t k))

/-- Every listed entry changed by a function of its key and value. -/
def tmap {α : Type} (t : Tbl α) (f : Nat → α → α) : Tbl α :=
  t.map fun p => (p.1, f p.1 p.2)

/-- The entries whose key and value pass a test. -/
def tfilter {α : Type} (t : Tbl α) (p : Nat → α → Bool) : Tbl α :=
  t.filter fun e => p e.1 e.2

/-- The numbers `a`, `a + 1`, ..., `a + n - 1`. -/
def span (a n : Nat) : List Nat := (List.range n).map (a + ·)

/-- The sum of a list of numbers. -/
def sumNat (l : List Nat) : Nat := l.foldl (· + ·) 0

/-- The smallest of a list, or a default where it is empty. -/
def minNat (d : Nat) (l : List Nat) : Nat :=
  match l with
  | [] => d
  | x :: r => r.foldl Nat.min x

/-- The largest of a list, 0 where it is empty. -/
def maxNat (l : List Nat) : Nat := l.foldl Nat.max 0

/-- A list without its repeated members, the first of each kept. -/
def dedup (l : List Nat) : List Nat :=
  (l.foldl (fun acc x => if acc.contains x then acc else x :: acc) []).reverse

/-- Sorted insertion by a key, after equal keys: a stable sort when folded. -/
def insertBy {α : Type} (key : α → Nat) (x : α) : List α → List α
  | [] => [x]
  | y :: r => if key x < key y then x :: y :: r else y :: insertBy key x r

/-- A stable sort by a key, rising. -/
def sortBy {α : Type} (key : α → Nat) (l : List α) : List α :=
  l.foldl (fun acc x => insertBy key x acc) []

/-- Whether two extents of `n` and `m` bytes overlap. -/
def overlaps (a n b m : Nat) : Bool := decide (a < b + m) && decide (b < a + n) && decide (0 < n) && decide (0 < m)

/-- The first member of a list that gives an answer. -/
def firstSome {α β : Type} (f : α → Option β) : List α → Option β
  | [] => none
  | x :: r =>
    match f x with
    | some y => some y
    | none => firstSome f r

end Sys2Proof.Machine
end

