-- ==== Sys2Proof/Machine/Memory.lean ====
section
/-! DEFINITION. Byte memories in one canonical form (addresses rising, no listed zero byte), and the little-endian accesses built on them (R19, R24). -/

namespace Sys2Proof.Machine

/-- A byte memory: listed bytes in rising address order; an unlisted byte reads 0. -/
abbrev Memory := List Host.Cell

/-- The canonical form from an address on. -/
def memWfFrom (lo : Nat) : Memory → Bool
  | [] => true
  | (k, b) :: r => decide (lo ≤ k) && decide (b ≠ 0) && memWfFrom (k + 1) r

/-- The canonical form: addresses strictly rise and no listed byte is 0. -/
def Memory.wf (m : Memory) : Bool := memWfFrom 0 m

/-- One byte; an unlisted address reads 0. -/
def memRead (m : Memory) (a : Nat) : Byte :=
  match m with
  | [] => 0
  | (k, b) :: r => if k = a then b else memRead r a

/-- One byte written; writing 0 removes the entry. -/
def memWrite (m : Memory) (a : Nat) (b : Byte) : Memory :=
  match m with
  | [] => if b = 0 then [] else [(a, b)]
  | (k, c) :: r =>
    if a < k then (if b = 0 then (k, c) :: r else (a, b) :: (k, c) :: r)
    else if a = k then (if b = 0 then r else (a, b) :: r)
    else (k, c) :: memWrite r a b

/-- `n` bytes from an address, lowest first. -/
def memReadN (m : Memory) (a : Nat) : Nat → List Byte
  | 0 => []
  | n + 1 => memRead m a :: memReadN m (a + 1) n

/-- Bytes written from an address on, lowest first. -/
def memWriteN (m : Memory) (a : Nat) : List Byte → Memory
  | [] => m
  | b :: bs => memWriteN (memWrite m a b) (a + 1) bs

/-- A little-endian number of `n` bytes (R19). -/
def memNat (m : Memory) (a n : Nat) : Nat := leNat (memReadN m a n)

/-- A little-endian number of `n` bytes written (R19). -/
def memSetNat (m : Memory) (a n v : Nat) : Memory := memWriteN m a (leBytes n v)

/-- A range of `n` bytes returned to 0. -/
def memZero (m : Memory) (a n : Nat) : Memory := m.filter fun c => decide (c.1 < a) || decide (a + n ≤ c.1)

/-- The listed bytes of a range, at their addresses. -/
def memSlice (m : Memory) (a n : Nat) : Memory := m.filter fun c => decide (a ≤ c.1) && decide (c.1 < a + n)

/-- Listed bytes moved by replacing the base of their address. -/
def memMoveBase (m : Memory) (src dst : Nat) : Memory := m.map fun c => (c.1 - src + dst, c.2)

/-- `n` bytes of one range copied over another (source read first). -/
def memCopy (m : Memory) (src dst n : Nat) : Memory := memWriteN m dst (memReadN m src n)

/-- A range made equal to another range of the same memory, listed bytes only. -/
def memCopyRange (m : Memory) (src dst n : Nat) : Memory :=
  (memSlice m src n).foldl (fun acc c => memWrite acc (c.1 - src + dst) c.2) (memZero m dst n)

/-- A whole range replaced by the same range of another memory. -/
def memRestore (m old : Memory) (a n : Nat) : Memory :=
  (memSlice old a n).foldl (fun acc c => memWrite acc c.1 c.2) (memZero m a n)

end Sys2Proof.Machine
end

