-- ==== Sys2Proof/Machine/Numeric.lean ====
section
/-! DEFINITION. Element formats, exact values and the one conversion procedure that every unit applies (chapter 1: R21 to R45), with the keyed generator of R205. -/

namespace Sys2Proof.Machine

/-! ## Exact magnitudes -/

/-- An exact non-negative magnitude.
`alg a b j den e` is `|a + b * 2^(j/4)| / den * 2^e`, which covers every dyadic and rational number and the quarter octaves of K16;
`lns l` is `2^(l/1024)` (R22); `root num den` is the square root of a rational. -/
inductive Mag where
  | alg (a b : Int) (j den : Nat) (e : Int)
  | lns (l : Int)
  | root (num den : Nat)
deriving DecidableEq, Repr

/-- An exact value: not a number, an infinity, or a sign with a magnitude. -/
inductive XVal where
  | nan
  | inf (neg : Bool)
  | num (neg : Bool) (mag : Mag)
deriving DecidableEq, Repr

/-- The largest `n` below `2 ^ nbits` with `n ^ d ≤ v`, found bit by bit. -/
def irootBits (d v : Nat) : Nat → Nat → Nat
  | 0, acc => acc
  | b + 1, acc =>
    let c := acc + 2 ^ b
    irootBits d v b (if c ^ d ≤ v then c else acc)

/-- The floor of the `d`-th root. -/
def iroot (d v : Nat) : Nat := irootBits d v (Nat.log2 v / d + 1) 0

/-- `n * 2^k` rounded down, and whether it was exact. -/
def shiftFloor (n : Nat) (k : Int) : Nat × Bool :=
  match k with
  | .ofNat s => (n <<< s, true)
  | .negSucc s => (n >>> (s + 1), n % 2 ^ (s + 1) == 0)

/-- `b * 2^(j/4)` rounded down to an integer, for a signed `b`. -/
def quarterFloor (b : Int) (j : Nat) : Int :=
  match b with
  | .ofNat n => (iroot 4 (n ^ 4 * 2 ^ j) : Nat)
  | .negSucc n =>
    let v := (n + 1) ^ 4 * 2 ^ j
    let r := iroot 4 v
    let c := if r ^ 4 = v then r else r + 1
    Int.negSucc c + 1

/-- `mag * 2^k` rounded down, and whether it was exact. -/
def Mag.scaled (m : Mag) (k : Int) : Nat × Bool :=
  match m with
  | .alg a b j den e =>
    let s := e + k
    let up : Nat := s.toNat
    let dn : Nat := (-s).toNat
    let a' := a * 2 ^ up
    let b' := b * 2 ^ up
    let neg := decide (a' + quarterFloor b' j < 0)
    let y := if neg then -a' + quarterFloor (-b') j else a' + quarterFloor b' j
    let d : Int := (den * 2 ^ dn : Nat)
    ((y / d).toNat, (b == 0 || j % 4 == 0) && y % d == 0)
  | .lns l =>
    let t := l + 1024 * k
    if t < 0 then (0, false)
    else (iroot 1024 (2 ^ t.toNat), t % 1024 == 0)
  | .root n d =>
    let v := match k with
      | .ofNat s => (n * 4 ^ s, d)
      | .negSucc s => (n, d * 4 ^ (s + 1))
    let q := v.1 / v.2
    let r := iroot 2 q
    (r, r * r == q && v.1 % v.2 == 0)

/-- Whether a magnitude is zero. -/
def Mag.isZero : Mag → Bool
  | .alg a b _ _ _ => a == 0 && b == 0
  | .lns _ => false
  | .root n _ => n == 0

/-- The floor of the base-2 logarithm of a non-zero magnitude. -/
def Mag.flog2 (m : Mag) : Int :=
  match m with
  | .lns l => l / 1024
  | _ =>
    let z := (m.scaled 0).1
    if 0 < z then (Nat.log2 z : Int)
    else (Nat.log2 ((m.scaled 1400).1) : Int) - 1400

/-- The magnitude of an integer. -/
def Mag.ofNat (n : Nat) : Mag := .alg n 0 0 1 0

/-! ## Dyadic numbers -/

/-- The exact number `m * 2^e`. -/
structure Dy where
  m : Int
  e : Int
deriving DecidableEq, Repr

def Dy.zero : Dy := ⟨0, 0⟩
def Dy.ofInt (i : Int) : Dy := ⟨i, 0⟩
def Dy.add (x y : Dy) : Dy :=
  let e := if x.e ≤ y.e then x.e else y.e
  ⟨x.m * 2 ^ (x.e - e).toNat + y.m * 2 ^ (y.e - e).toNat, e⟩
def Dy.mul (x y : Dy) : Dy := ⟨x.m * y.m, x.e + y.e⟩
def Dy.neg (x : Dy) : Dy := ⟨-x.m, x.e⟩
def Dy.sub (x y : Dy) : Dy := x.add y.neg
def Dy.lt (x y : Dy) : Bool := decide ((x.sub y).m < 0)
def Dy.le (x y : Dy) : Bool := decide ((x.sub y).m ≤ 0)
def Dy.isZero (x : Dy) : Bool := x.m == 0
/-- The floor of a dyadic number. -/
def Dy.floor (x : Dy) : Int :=
  match x.e with
  | .ofNat s => x.m * 2 ^ s
  | .negSucc s => x.m / 2 ^ (s + 1)
/-- The exact value of a dyadic number; `neg0` is the sign a zero takes. -/
def Dy.toX (x : Dy) (neg0 : Bool := false) : XVal :=
  if x.m = 0 then .num neg0 (Mag.ofNat 0)
  else .num (decide (x.m < 0)) (.alg x.m.natAbs 0 0 1 x.e)

/-! ## Element formats (Table 1.1) -/

/-- The shape of a floating-point format: exponent bits, fraction bits, bias, and whether it has infinities and NaNs. -/
structure FloatShape where
  exp : Nat
  frac : Nat
  bias : Nat
  hasInf : Bool
  hasNan : Bool
deriving DecidableEq, Repr

/-- The floating-point formats by code (Table 1.1). -/
def floatShape (f : Nat) : Option FloatShape :=
  match f with
  | 0x0 => some ⟨8, 23, 127, true, true⟩
  | 0x1 => some ⟨8, 10, 127, true, true⟩
  | 0x2 => some ⟨8, 7, 127, true, true⟩
  | 0x3 => some ⟨5, 10, 15, true, true⟩
  | 0x4 => some ⟨4, 3, 7, false, true⟩
  | 0x5 => some ⟨5, 2, 15, true, true⟩
  | 0x6 => some ⟨3, 2, 3, false, false⟩
  | 0x7 => some ⟨2, 3, 1, false, false⟩
  | 0x8 => some ⟨2, 1, 1, false, false⟩
  | _ => none

/-- The integer formats by code: width and whether signed (Table 1.1). -/
def intShape (f : Nat) : Option (Nat × Bool) :=
  match f with
  | 0x9 => some (32, true)
  | 0xA => some (16, true)
  | 0xB => some (8, true)
  | 0xC => some (4, true)
  | 0xD => some (16, false)
  | 0xE => some (8, false)
  | _ => none

/-- Element width in bits (Table 1.1). -/
def fmtWidth (f : Nat) : Nat :=
  match f with
  | 0x0 => 32 | 0x1 => 19 | 0x2 => 16 | 0x3 => 16 | 0x4 => 8 | 0x5 => 8
  | 0x6 => 6 | 0x7 => 6 | 0x8 => 4 | 0x9 => 32 | 0xA => 16 | 0xB => 8
  | 0xC => 4 | 0xD => 16 | 0xE => 8 | _ => 16

def isFloatFmt (f : Nat) : Bool := (floatShape f).isSome
def isIntFmt (f : Nat) : Bool := (intShape f).isSome
def isLnsFmt (f : Nat) : Bool := f == 0xF

/-- The largest finite code of a floating-point format (Table 1.2). -/
def maxFiniteCode (f : Nat) : Nat :=
  match f with
  | 0x0 => 0x7F7FFFFF | 0x1 => 0x3FBFF | 0x2 => 0x7F7F | 0x3 => 0x7BFF | 0x4 => 0x7E
  | 0x5 => 0x7B | 0x6 => 0x1F | 0x7 => 0x1F | _ => 0x7

/-- The canonical NaN code of a format that has one (R33). -/
def canonicalNan (f : Nat) : Option Nat :=
  match f with
  | 0x0 => some 0x7FC00000 | 0x1 => some 0x3FE00 | 0x2 => some 0x7FC0 | 0x3 => some 0x7E00
  | 0x4 => some 0x7F | 0x5 => some 0x7E | 0xF => some 0xC000
  | _ => none

/-- The sign bit of a code. -/
def signCode (f : Nat) (neg : Bool) : Nat := if neg then 2 ^ (fmtWidth f - 1) else 0

/-- The infinity code of a format that has one. -/
def infCode (f : Nat) (neg : Bool) : Nat :=
  match floatShape f with
  | some s => signCode f neg + (2 ^ s.exp - 1) * 2 ^ s.frac
  | none => 0

/-- The exact value of a code (R21, R22). -/
def decodeElem (f c : Nat) : XVal :=
  match floatShape f with
  | some s =>
    let neg := bit c (fmtWidth f - 1)
    let ex := bits c (s.frac + s.exp - 1) s.frac
    let fr := c % 2 ^ s.frac
    let top := 2 ^ s.exp - 1
    if s.hasInf && ex == top then (if fr = 0 then .inf neg else .nan)
    else if s.hasNan && !s.hasInf && ex == top && fr == 2 ^ s.frac - 1 then .nan
    else if ex = 0 then .num neg (.alg fr 0 0 1 (1 - (s.bias : Int) - s.frac))
    else .num neg (.alg (fr + 2 ^ s.frac : Nat) 0 0 1 ((ex : Int) - s.bias - s.frac))
  | none =>
    match intShape f with
    | some (w, sg) =>
      let v : Int := if sg then toSigned w c else ((c % 2 ^ w : Nat) : Int)
      .num (decide (v < 0)) (Mag.ofNat v.natAbs)
    | none =>
      let l := c % 0x8000
      let neg := bit c 15
      if l = 0x4000 then (if neg then .nan else .num false (Mag.ofNat 0))
      else .num neg (.lns (toSigned 15 l))

/-- The dyadic number of a code of a finite float or integer format; 0 for a special code. -/
def dyOf (f c : Nat) : Dy :=
  match decodeElem f c with
  | .num neg (.alg a _ _ _ e) => if neg then ⟨-a, e⟩ else ⟨a, e⟩
  | _ => Dy.zero

/-! ## Conversion (R32) -/

/-- The conversion control byte (Table 1.4). -/
structure Cvt where
  rnd : Nat
  ftz : Bool
  sat : Bool
  bscale : Nat
deriving DecidableEq, Repr

def Cvt.ofByte (b : Nat) : Cvt := ⟨bits b 1 0, bit b 2, bit b 3, bits b 5 4⟩

/-- Whether a `cvt` byte is valid: RSVD 0, no reserved rounding or block-scale code (Table 1.4). -/
def cvtByteOk (b : Nat) : Bool := bits b 7 6 == 0 && bits b 5 4 != 3 && bits b 1 0 != 3

/-- A conversion's code and what it counts: saturations (R35) and dropped NaNs (R34). -/
structure Conv where
  code : Nat
  sat : Nat
  nan : Nat
deriving DecidableEq, Repr

/-- A magnitude rounded to a multiple of `2^q` under `rnd` (R32 step 4, R37); `r` is the 16-bit draw. -/
def roundMag (m : Mag) (q : Int) (rnd r : Nat) : Nat :=
  let f := m.scaled (-q)
  let n := f.1
  match rnd with
  | 0 =>
    let h := m.scaled (1 - q)
    if h.1 % 2 = 0 then n
    else if h.2 then (if n % 2 = 0 then n else n + 1) else n + 1
  | 2 =>
    let d := (m.scaled (16 - q)).1 % 65536
    if r < d then n + 1 else n
  | _ => n

/-- The finite code of `n * 2^q` in a float format, `q` being the exponent of the last place `n` was rounded to. -/
def encodeFloat (s : FloatShape) (n : Nat) (q : Int) : Nat :=
  if n < 2 ^ s.frac then n
  else
    let n' := if n < 2 ^ (s.frac + 1) then n else n / 2
    let q' := if n < 2 ^ (s.frac + 1) then q else q + 1
    (q' + s.frac + s.bias).toNat * 2 ^ s.frac + (n' - 2 ^ s.frac)

/-- The exponent of the last place of a magnitude in a float format. -/
def lastPlace (s : FloatShape) (m : Mag) : Int :=
  let lo : Int := 1 - (s.bias : Int) - s.frac
  if m.isZero then lo
  else
    let q := m.flog2 - s.frac
    if q < lo then lo else q

/-- The code 1,024 × log2 of a magnitude rounded to the nearest integer (Table 1.5). -/
def lnsOf (m : Mag) : Int :=
  match m with
  | .lns l => l
  | .root n d =>
    let k : Int := 2 * m.flog2
    let nn := if 0 ≤ k then n else n * 2 ^ (-k).toNat
    let dd := if 0 ≤ k then d * 2 ^ k.toNat else d
    -- 2048*log2(sqrt v) = 1024*log2 v
    let t := (Nat.log2 (nn ^ 1024 / dd ^ 1024) : Int) + 1024 * k
    (t + 1) / 2
  | .alg a _ _ den e =>
    let n := a.natAbs
    let k : Int := (Nat.log2 n : Int) - Nat.log2 den
    let nn := if 0 ≤ k then n else n * 2 ^ (-k).toNat
    let dd := if 0 ≤ k then den * 2 ^ k.toNat else den
    let up : Nat := if nn < dd then 1 else 0
    let t := (Nat.log2 ((nn * 2 ^ up) ^ 2048 / dd ^ 2048) : Int) - 2048 * up + 2048 * (k + e)
    (t + 1) / 2

/-- A value converted to LNS16 (Table 1.5). -/
def toLns (x : XVal) : Conv :=
  match x with
  | .nan => ⟨0xC000, 0, 0⟩
  | .inf neg => ⟨(if neg then 0x8000 else 0) + 0x3FFF, 1, 0⟩
  | .num neg m =>
    if m.isZero then ⟨0x4000, 0, 0⟩
    else
      let l := lnsOf m
      let s := if neg then 0x8000 else 0
      if 16383 < l then ⟨s + 0x3FFF, 1, 0⟩
      else if l < -16383 then ⟨0x4000, 0, 0⟩
      else ⟨s + ofSigned 15 l, 0, 0⟩

/-- A value converted to an integer format (R32 for an integer destination). -/
def toInt (w : Nat) (sg : Bool) (x : XVal) (rnd r : Nat) : Conv :=
  let hi : Nat := if sg then 2 ^ (w - 1) - 1 else 2 ^ w - 1
  let lo : Nat := if sg then 2 ^ (w - 1) else 0
  match x with
  | .nan => ⟨0, 0, 1⟩
  | .inf neg => ⟨if neg then ofSigned w (-(lo : Int)) else hi, 1, 0⟩
  | .num neg m =>
    let n := if m.isZero then 0 else roundMag m 0 rnd r
    if neg then (if lo < n then ⟨ofSigned w (-(lo : Int)), 1, 0⟩ else ⟨ofSigned w (-(n : Int)), 0, 0⟩)
    else (if hi < n then ⟨hi, 1, 0⟩ else ⟨n, 0, 0⟩)

/-- A value converted to a float format (R32). Table 1.5 calls a widening exact; `ftz` and `sat` act on it too, as Table 1.6 gives every FP32
output its `cvt.ftz` (DEDUCED, log entry 103). -/
def toFloat (f : Nat) (s : FloatShape) (x : XVal) (c : Cvt) (r : Nat) : Conv :=
  let maxc (neg : Bool) : Conv := ⟨signCode f neg + maxFiniteCode f, 1, 0⟩
  match x with
  | .nan =>
    match canonicalNan f with
    | some n => ⟨n, 0, 0⟩
    | none => ⟨0, 0, 1⟩
  | .inf neg => if s.hasInf && !c.sat then ⟨infCode f neg, 0, 0⟩ else maxc neg
  | .num neg m =>
    if m.isZero then ⟨signCode f neg, 0, 0⟩
    else if c.ftz && decide (m.flog2 < 1 - (s.bias : Int)) then ⟨signCode f neg, 0, 0⟩
    else
      let q := lastPlace s m
      let n := roundMag m q c.rnd r
      let mx := dyOf f (maxFiniteCode f)
      if mx.lt ⟨n, q⟩ then
        (if s.hasInf && !c.sat && c.rnd != 1 then ⟨infCode f neg, 0, 0⟩ else maxc neg)
      else ⟨signCode f neg + encodeFloat s n q, 0, 0⟩

/-- R32: an exact value converted to a format under a conversion control; `r` is the draw of R37.
An overflow that gives infinity counts nothing (R35 counts largest-finite and limit results). -/
def convert (x : XVal) (f : Nat) (c : Cvt) (r : Nat) : Conv :=
  match floatShape f with
  | some s => toFloat f s x c r
  | none =>
    match intShape f with
    | some (w, sg) => toInt w sg x c.rnd r
    | none => toLns x

/-- Round to nearest even, subnormals kept, overflow to infinity: `cvt` 0x00. -/
def cvt0 : Cvt := ⟨0, false, false, 0⟩

/-- Conversion of a stored code from one format to another (Table 1.5).
LNS16 to an integer goes by way of FP32; an integer to an integer only saturates. -/
def convertElem (src dst c : Nat) (k : Cvt) (r : Nat) : Conv :=
  let x := decodeElem src c
  if isLnsFmt src && isIntFmt dst then
    let v := convert x 0x0 k r
    let w := convert (decodeElem 0x0 v.code) dst k r
    ⟨w.code, v.sat + w.sat, v.nan + w.nan⟩
  else convert x dst k r

/-! ## FP32 and INT32 arithmetic (R101, R64, R30) -/

/-- An exact value rounded once to FP32, to nearest even. -/
def rne32 (x : XVal) : Nat := (convert x 0x0 cvt0 0).code

/-- The exact value of FP32 bits. -/
def x32 (b : Nat) : XVal := decodeElem 0x0 b

def fnan : Nat := 0x7FC00000
def fneg (b : Nat) : Nat := if bit b 31 then b - 0x80000000 else b + 0x80000000
def isNan32 (b : Nat) : Bool := bits b 30 23 == 255 && b % 0x800000 != 0
def isInf32 (b : Nat) : Bool := bits b 30 23 == 255 && b % 0x800000 == 0
def isZero32 (b : Nat) : Bool := b % 0x80000000 == 0
def sign32 (b : Nat) : Bool := bit b 31
/-- A finite FP32 code as a dyadic number. -/
def dy32 (b : Nat) : Dy := dyOf 0x0 b

/-- The product of two extended values. -/
inductive ExtVal where
  | nan
  | inf (neg : Bool)
  | fin (v : Dy) (neg0 : Bool)
deriving DecidableEq, Repr

/-- FP32 bits, or any code read through `decodeElem`, as an extended dyadic. -/
def ext (f c : Nat) : ExtVal :=
  match decodeElem f c with
  | .nan => .nan
  | .inf n => .inf n
  | .num neg _ => .fin (dyOf f c) neg

def ExtVal.neg? : ExtVal → Bool
  | .nan => false
  | .inf n => n
  | .fin v n0 => if v.m = 0 then n0 else decide (v.m < 0)

def ExtVal.mul (x y : ExtVal) : ExtVal :=
  let s := xor x.neg? y.neg?
  match x, y with
  | .nan, _ => .nan
  | _, .nan => .nan
  | .inf _, .inf _ => .inf s
  | .inf _, .fin v _ => if v.m = 0 then .nan else .inf s
  | .fin v _, .inf _ => if v.m = 0 then .nan else .inf s
  | .fin v _, .fin w _ => .fin (v.mul w) s

/-- The sum; a zero sum is −0 only where both summands are −0 (IEEE 754 under round to nearest). -/
def ExtVal.add (x y : ExtVal) : ExtVal :=
  match x, y with
  | .nan, _ => .nan
  | _, .nan => .nan
  | .inf a, .inf b => if a = b then .inf a else .nan
  | .inf a, .fin _ _ => .inf a
  | .fin _ _, .inf b => .inf b
  | .fin v _, .fin w _ =>
    .fin (v.add w) (v.m == 0 && w.m == 0 && x.neg? && y.neg?)

def ExtVal.toX : ExtVal → XVal
  | .nan => .nan
  | .inf n => .inf n
  | .fin v n0 => v.toX n0

/-- An extended value rounded once to FP32. -/
def ExtVal.round (x : ExtVal) : Nat := rne32 x.toX

def e32 (b : Nat) : ExtVal := ext 0x0 b

def fadd (a b : Nat) : Nat := ((e32 a).add (e32 b)).round
def fsub (a b : Nat) : Nat := ((e32 a).add (e32 (fneg b))).round
def fmul (a b : Nat) : Nat := ((e32 a).mul (e32 b)).round
def ffma (a b c : Nat) : Nat := (((e32 a).mul (e32 b)).add (e32 c)).round

/-- The quotient of two positive dyadics as an exact magnitude. -/
def dyQuot (x y : Dy) : Mag :=
  let e := x.e - y.e
  .alg x.m.natAbs 0 0 y.m.natAbs e

/-- FP32 division, rounded once. -/
def fdiv (a b : Nat) : Nat :=
  let s := xor (sign32 a) (sign32 b)
  if isNan32 a || isNan32 b then fnan
  else if isInf32 a then (if isInf32 b then fnan else infCode 0 s)
  else if isInf32 b then signCode 0 s
  else if isZero32 b then (if isZero32 a then fnan else infCode 0 s)
  else if isZero32 a then signCode 0 s
  else rne32 (.num s (dyQuot (dy32 a) (dy32 b)))

/-- FP32 square root, correctly rounded. -/
def fsqrt (a : Nat) : Nat :=
  if isNan32 a then fnan
  else if isZero32 a then a
  else if sign32 a then fnan
  else if isInf32 a then a
  else
    let d := dy32 a
    let n := d.m.natAbs
    rne32 (.num false (if 0 ≤ d.e then .root (n * 2 ^ d.e.toNat) 1 else .root n (2 ^ (-d.e).toNat)))

/-- Comparison of two FP32 codes that are not NaN. -/
def flt (a b : Nat) : Bool :=
  match e32 a, e32 b with
  | .fin v _, .fin w _ => v.lt w
  | .inf n, .inf k => n && !k
  | .inf n, .fin _ _ => n
  | .fin _ _, .inf k => !k
  | _, _ => false

/-- The maximum of Table 4.2: NaN gives the canonical NaN, max(+0, −0) is +0. -/
def fmax (a b : Nat) : Nat :=
  if isNan32 a || isNan32 b then fnan
  else if isZero32 a && isZero32 b then (if sign32 a then b else a)
  else if flt a b then b else a

/-- The minimum of Table 4.2: NaN gives the canonical NaN, min(+0, −0) is −0. -/
def fmin (a b : Nat) : Nat :=
  if isNan32 a || isNan32 b then fnan
  else if isZero32 a && isZero32 b then (if sign32 a then a else b)
  else if flt b a then b else a

/-- The FP32 code of an unsigned integer, rounded to nearest even. -/
def fofNat (n : Nat) : Nat := rne32 (.num false (Mag.ofNat n))

/-- INT32 saturation (R30): the clamped value and whether it saturated. -/
def satI32 (i : Int) : Int × Nat :=
  if i < -2147483648 then (-2147483648, 1)
  else if 2147483647 < i then (2147483647, 1)
  else (i, 0)

def i32 (b : Nat) : Int := toSigned 32 b
def u32 (i : Int) : Nat := ofSigned 32 i

/-! ## The counter-based generator (R205) -/

/-- The four words of a Philox draw. -/
structure Quad where
  a : Nat
  b : Nat
  c : Nat
  d : Nat
deriving DecidableEq, Repr

/-- The ten rounds of R205. -/
def philoxRounds : Nat → Quad → Nat → Nat → Quad
  | 0, q, _, _ => q
  | n + 1, q, k0, k1 =>
    let p0 := 0xD2511F53 * q.a
    let p1 := 0xCD9E8D57 * q.c
    let q' : Quad :=
      ⟨((p1 >>> 32) ^^^ q.b ^^^ k0) % 2 ^ 32, p1 % 2 ^ 32, ((p0 >>> 32) ^^^ q.d ^^^ k1) % 2 ^ 32, p0 % 2 ^ 32⟩
    philoxRounds n q' ((k0 + 0x9E3779B9) % 2 ^ 32) ((k1 + 0xBB67AE85) % 2 ^ 32)

/-- R205: one draw under a 64-bit seed. -/
def philox (c : Quad) (seed : Nat) : Quad :=
  philoxRounds 10 c (seed % 2 ^ 32) (bits seed 63 32)

/-- The 16-bit draw of keyed stochastic rounding (R37, Table 8.4). -/
def srDraw (seed tag index step : Nat) : Nat :=
  bits (philox ⟨index % 2 ^ 32, step % 2 ^ 32, bits index 63 32, 0x53520000 + tag % 65536⟩ seed).a 31 16

end Sys2Proof.Machine
end

