-- ==== Sys2Proof/Machine/Words.lean ====
section
/-! DEFINITION. The itinerary words of chapters 3, 4 and 6 as structures, read from their bytes (Tables 3.4 to 3.7, 4.1, 6.1), and the packing of elements in memory (R24). -/

namespace Sys2Proof.Machine

/-- The field of `n` bytes at byte offset `o` of a little-endian record held as one number. -/
def fld (w o n : Nat) : Nat := (w >>> (8 * o)) % 2 ^ (8 * n)

/-- A MATRIX word (Table 3.4). -/
structure MatrixWord where
  dep : Bool
  f19 : Bool
  tag : Nat
  fmtA : Nat
  fmtB : Nat
  fmtC : Nat
  bscaleIn : Nat
  cvt : Nat
  la : Nat
  lb : Nat
  ls : Nat
  ta : Bool
  tb : Bool
  bank : Nat
  result : Nat
  init : Nat
  fromSreg : Nat
  m : Nat
  n : Nat
  k : Nat
  mSreg : Nat
  nSreg : Nat
  kSreg : Nat
  gSreg : Nat
  addrA : Nat
  addrB : Nat
  addrC : Nat
  addrI : Nat
  pitchA : Nat
  pitchB : Nat
  pitchC : Nat
  pitchI : Nat
  addrSa : Nat
  addrSb : Nat
  addrSc : Nat
  tA : Nat
  tB : Nat
  tC : Nat
  groups : Nat
  gsA : Nat
  gsB : Nat
  gsC : Nat
  gsI : Nat
  /-- Whether every RSVD field reads 0. -/
  rsvdOk : Bool
deriving DecidableEq, Repr

/-- The fields of a MATRIX word (Table 3.4). -/
def MatrixWord.ofNat (w : Nat) : MatrixWord :=
  let f := fld w
  { dep := bit (f 1 1) 0, f19 := bit (f 1 1) 1, tag := f 2 2,
    fmtA := bits (f 4 1) 3 0, fmtB := bits (f 4 1) 7 4, fmtC := bits (f 5 1) 3 0,
    bscaleIn := bits (f 5 1) 5 4, cvt := f 6 1,
    la := bits (f 7 1) 1 0, lb := bits (f 7 1) 3 2, ls := bits (f 7 1) 5 4,
    ta := bit (f 8 1) 6, tb := bit (f 8 1) 7, bank := bits (f 8 1) 5 4,
    result := bits (f 8 1) 3 2, init := bits (f 8 1) 1 0, fromSreg := bits (f 9 1) 3 0,
    m := f 12 2, n := f 14 2, k := f 16 2,
    mSreg := bits (f 18 1) 3 0, nSreg := bits (f 18 1) 7 4,
    kSreg := bits (f 19 1) 3 0, gSreg := bits (f 19 1) 7 4,
    addrA := f 20 4, addrB := f 24 4, addrC := f 28 4, addrI := f 32 4,
    pitchA := f 36 4, pitchB := f 40 4, pitchC := f 44 4, pitchI := f 48 4,
    addrSa := f 52 4, addrSb := f 56 4, addrSc := f 60 4,
    tA := f 64 4, tB := f 68 4, tC := f 72 4,
    groups := f 76 2, gsA := f 80 4, gsB := f 84 4, gsC := f 88 4, gsI := f 92 4,
    rsvdOk := bits (f 1 1) 7 2 == 0 && bits (f 5 1) 7 6 == 0 && bits (f 7 1) 7 6 == 0 &&
      bits (f 9 1) 7 4 == 0 && f 10 2 == 0 && f 78 2 == 0 }

/-- A VECTOR word (Table 4.1). -/
structure VectorWord where
  dep : Bool
  xb : Bool
  zb : Bool
  first : Bool
  mask : Bool
  rms : Bool
  keep : Bool
  tag : Nat
  op : Nat
  fmtX : Nat
  fmtY : Nat
  fn : Nat
  fmtZ : Nat
  cvt : Nat
  rows : Nat
  cols : Nat
  rSreg : Nat
  cSreg : Nat
  fromSreg : Nat
  la : Nat
  lb : Nat
  bank : Nat
  addrX : Nat
  addrY : Nat
  addrW : Nat
  addrZ : Nat
  addrSi : Nat
  addrSo : Nat
  pitchX : Nat
  pitchY : Nat
  pitchZ : Nat
  imm0 : Nat
  imm1 : Nat
  moff : Nat
  rsvdOk : Bool
deriving DecidableEq, Repr

/-- The fields of a VECTOR word (Table 4.1). -/
def VectorWord.ofNat (w : Nat) : VectorWord :=
  let f := fld w
  { dep := bit (f 1 1) 0, xb := bit (f 1 1) 1, zb := bit (f 1 1) 2, first := bit (f 1 1) 3,
    mask := bit (f 1 1) 4, rms := bit (f 1 1) 5, keep := bit (f 1 1) 6, tag := f 2 2, op := f 4 1,
    fmtX := bits (f 5 1) 3 0, fmtY := bits (f 5 1) 7 4, fmtZ := bits (f 6 1) 3 0, fn := bits (f 6 1) 7 4,
    cvt := f 7 1, rows := f 8 2, cols := f 10 2, cSreg := bits (f 12 1) 3 0, rSreg := bits (f 12 1) 7 4,
    fromSreg := bits (f 13 1) 1 0, la := bits (f 14 1) 1 0, lb := bits (f 14 1) 3 2, bank := bits (f 15 1) 1 0,
    addrX := f 16 4, addrY := f 20 4, addrW := f 24 4, addrZ := f 28 4, addrSi := f 32 4, addrSo := f 36 4,
    pitchX := f 40 4, pitchY := f 44 4, pitchZ := f 48 4, imm0 := f 52 4, imm1 := f 56 4, moff := f 60 4,
    rsvdOk := !bit (f 1 1) 7 && bits (f 13 1) 7 2 == 0 && bits (f 14 1) 7 4 == 0 && bits (f 15 1) 7 2 == 0 }

/-- A MOVE word (Table 3.5). -/
structure MoveWord where
  dep : Bool
  uadd : Bool
  srcSp : Nat
  dstSp : Nat
  ctr : Nat
  afmt : Nat
  peer : Nat
  src : Nat
  dst : Nat
  rowBytes : Nat
  rows : Nat
  srcPitch : Nat
  dstPitch : Nat
  rsvdOk : Bool
deriving DecidableEq, Repr

/-- The fields of a MOVE word (Table 3.5). -/
def MoveWord.ofNat (w : Nat) : MoveWord :=
  let f := fld w
  { dep := bit (f 1 1) 0, uadd := bit (f 1 1) 1, srcSp := bits (f 4 1) 3 0, dstSp := bits (f 4 1) 7 4,
    afmt := bits (f 5 1) 3 0, ctr := bits (f 5 1) 7 4, peer := bits (f 6 2) 7 0,
    src := f 8 8, dst := f 16 8, rowBytes := f 24 4, rows := f 28 4, srcPitch := f 32 4, dstPitch := f 36 4,
    rsvdOk := bits (f 1 1) 7 2 == 0 && f 2 2 == 0 && bits (f 6 2) 15 8 == 0 && f 40 24 == 0 }

/-- A SHAPE word (Table 3.6). -/
structure ShapeWord where
  dep : Bool
  src : Nat
  sreg : Nat
  operand : Nat
  rsvdOk : Bool
deriving DecidableEq, Repr

/-- The fields of a SHAPE word (Table 3.6). -/
def ShapeWord.ofNat (w : Nat) : ShapeWord :=
  let f := fld w
  { dep := bit (f 1 1) 0, src := bits (f 4 1) 7 4, sreg := bits (f 4 1) 3 0, operand := f 8 4,
    rsvdOk := bits (f 1 1) 7 1 == 0 && f 2 2 == 0 && f 5 3 == 0 && f 12 20 == 0 }

/-- A SYNC word (Table 3.7). -/
structure SyncWord where
  dep : Bool
  op : Nat
  ctr : Nat
  peer : Nat
  value : Nat
  rsvdOk : Bool
deriving DecidableEq, Repr

/-- The fields of a SYNC word (Table 3.7). -/
def SyncWord.ofNat (w : Nat) : SyncWord :=
  let f := fld w
  { dep := bit (f 1 1) 0, op := f 4 1, ctr := bits (f 5 1) 3 0, peer := bits (f 6 2) 7 0, value := f 8 4,
    rsvdOk := bits (f 1 1) 7 1 == 0 && f 2 2 == 0 && bits (f 5 1) 7 4 == 0 && bits (f 6 2) 15 8 == 0 && f 12 20 == 0 }

/-! ## Packing (R24) -/

/-- The bytes that `n` elements of a format take in a row, whole groups (R24, R26). -/
def rowBytesOf (f n : Nat) : Nat :=
  match fmtWidth f with
  | 19 => 8 * ceilDiv n 3
  | 6 => 3 * ceilDiv n 4
  | 4 => ceilDiv n 2
  | w => n * (w / 8)

/-- Element `t` of a row that starts at `base` (R24). -/
def readElem (m : Memory) (f base t : Nat) : Nat :=
  match fmtWidth f with
  | 19 => (memNat m (base + 8 * (t / 3)) 8 >>> (19 * (t % 3))) % 2 ^ 19
  | 6 => (memNat m (base + 3 * (t / 4)) 3 >>> (6 * (t % 4))) % 64
  | 4 => (memNat m (base + t / 2) 1 >>> (4 * (t % 2))) % 16
  | w => memNat m (base + t * (w / 8)) (w / 8)

/-- Codes packed `per` to a group of `gb` bytes. -/
def packGroups (per width gb : Nat) : Nat → List Nat → List Byte
  | 0, _ => []
  | fuel + 1, cs =>
    match cs with
    | [] => []
    | _ =>
      let v := ((cs.take per).zipIdx).foldl (fun acc p => acc + (p.1 % 2 ^ width) <<< (width * p.2)) 0
      leBytes gb v ++ packGroups per width gb fuel (cs.drop per)

/-- A row of codes as bytes, the unused elements of a last group +0 (R24, R26). -/
def packRow (f : Nat) (cs : List Nat) : List Byte :=
  match fmtWidth f with
  | 19 => packGroups 3 19 8 (cs.length + 1) cs
  | 6 => packGroups 4 6 3 (cs.length + 1) cs
  | 4 => packGroups 2 4 1 (cs.length + 1) cs
  | w => packGroups 1 w (w / 8) (cs.length + 1) cs

/-- Whether a row of `n` elements holds whole groups (R26); FP19K rows pad their last group. -/
def rowWhole (f n : Nat) : Bool :=
  match fmtWidth f with
  | 6 => n % 4 == 0
  | 4 => n % 2 == 0
  | _ => true

end Sys2Proof.Machine
end

