-- ==== Sys2Proof/Machine/Unfold.lean ====
section
/-! DEFINITION. The UNFOLD word: its fields (Table 6.1), the source of every expanded element (R150), the expanded rows (R151), the geometry the loader requires (R152) and the duration U (R153). -/

namespace Sys2Proof.Machine

/-- An UNFOLD word (Table 6.1). -/
structure UnfoldWord where
  dep : Bool
  umode : Bool
  pmin : Bool
  layout : Nat
  fmt : Nat
  kh : Nat
  kw : Nat
  uy : Nat
  ux : Nat
  sy : Nat
  sx : Nat
  dy : Nat
  dx : Nat
  pt : Nat
  pb : Nat
  pl : Nat
  pr : Nat
  fh : Nat
  fw : Nat
  c : Nat
  iy0 : Nat
  ih : Nat
  ix0 : Nat
  iw : Nat
  oy0 : Nat
  oh : Nat
  ox0 : Nat
  ow : Nat
  addrX : Nat
  pitchX : Nat
  planeX : Nat
  addrZ : Nat
  pitchZ : Nat
  rsvdOk : Bool
deriving DecidableEq, Repr

/-- The fields of an UNFOLD word (Table 6.1). -/
def UnfoldWord.ofNat (w : Nat) : UnfoldWord :=
  let f := fld w
  { dep := bit (f 1 1) 0, umode := bit (f 1 1) 1, pmin := bit (f 1 1) 2,
    fmt := bits (f 4 1) 3 0, layout := bits (f 4 1) 7 4, kh := f 5 1, kw := f 6 1,
    ux := bits (f 7 1) 3 0, uy := bits (f 7 1) 7 4, sy := f 8 1, sx := f 9 1, dy := f 10 1, dx := f 11 1,
    pt := f 12 1, pb := f 13 1, pl := f 14 1, pr := f 15 1, fh := f 16 2, fw := f 18 2, c := f 20 2,
    iy0 := f 24 2, ih := f 26 2, ix0 := f 28 2, iw := f 30 2, oy0 := f 32 2, oh := f 34 2, ox0 := f 36 2, ow := f 38 2,
    addrX := f 40 4, pitchX := f 44 4, planeX := f 48 4, addrZ := f 52 4, pitchZ := f 56 4,
    rsvdOk := bits (f 1 1) 7 3 == 0 && f 2 2 == 0 && f 22 2 == 0 && f 60 4 == 0 }

/-- Bytes of `n` elements (FP19K as 8/3 bytes, R149). -/
def UnfoldWord.bytes (w : UnfoldWord) (n : Nat) : Nat := if w.fmt = 1 then n * 8 / 3 else n * (fmtWidth w.fmt / 8)

/-- The upsampled grid (R150). -/
def UnfoldWord.fhUp (w : UnfoldWord) : Nat := if w.umode then w.fh * w.uy else (w.fh - 1) * w.uy + 1
def UnfoldWord.fwUp (w : UnfoldWord) : Nat := if w.umode then w.fw * w.ux else (w.fw - 1) * w.ux + 1

/-- The output size Ho × Wo (R150). -/
def UnfoldWord.ho (w : UnfoldWord) : Int :=
  ((w.fhUp : Int) + w.pt + w.pb - w.dy * ((w.kh : Int) - 1) - 1) / w.sy + 1
def UnfoldWord.wo (w : UnfoldWord) : Int :=
  ((w.fwUp : Int) + w.pl + w.pr - w.dx * ((w.kw : Int) - 1) - 1) / w.sx + 1

/-- R150: the frame element a kernel position reads, `none` for a FILL element. -/
def UnfoldWord.source (w : UnfoldWord) (oy ox ky kx : Nat) : Option (Nat × Nat) :=
  let yg : Int := (oy * w.sy : Nat) - (w.pt : Int) + (ky * w.dy : Nat)
  let xg : Int := (ox * w.sx : Nat) - (w.pl : Int) + (kx * w.dx : Nat)
  if yg < 0 || (w.fhUp : Int) ≤ yg || xg < 0 || (w.fwUp : Int) ≤ xg then none
  else
    let y := yg.toNat
    let x := xg.toNat
    if !w.umode && (y % w.uy != 0 || x % w.ux != 0) then none else some (y / w.uy, x / w.ux)

/-- The byte address of a held element (Table 6.2). -/
def UnfoldWord.addrOf (w : UnfoldWord) (y x k : Nat) : Nat :=
  let row := w.addrX + (y - w.iy0) * w.pitchX
  match w.layout with
  | 0 => row + w.bytes ((x - w.ix0) * w.c + k)
  | 1 => row + k * w.planeX + w.bytes (x - w.ix0)
  | _ => row + (k / 32) * w.planeX + w.bytes ((x - w.ix0) * 32 + k % 32)

/-- The code of a FILL element (R150). -/
def UnfoldWord.fill (w : UnfoldWord) : Nat :=
  if !w.pmin then 0
  else match w.fmt with
    | 0x4 => 0xFE
    | 0xB => 0x80
    | 0xE => 0
    | f => infCode f true

/-- Elements of one expanded row. -/
def UnfoldWord.kp (w : UnfoldWord) : Nat := w.kh * w.kw * w.c

/-- The kernel positions of one pixel, with the channels, in (ky, kx, k) order (R151). -/
def UnfoldWord.taps (w : UnfoldWord) : List (Nat × Nat × Nat) :=
  (List.range w.kh).flatMap fun ky => (List.range w.kw).flatMap fun kx => (List.range w.c).map fun k => (ky, kx, k)

/-- The output pixel of expanded row `r` (R151). -/
def UnfoldWord.pixel (w : UnfoldWord) (r : Nat) : Nat × Nat := (w.oy0 + r / w.ow, w.ox0 + r % w.ow)

/-- One element's code: read bit for bit from the held input, or FILL. FP19K reads its 19-bit field (R149). -/
def UnfoldWord.elem (w : UnfoldWord) (st : Memory) (r : Nat) (t : Nat × Nat × Nat) : Nat :=
  let p := w.pixel r
  match w.source p.1 p.2 t.1 t.2.1 with
  | none => w.fill
  | some (y, x) =>
    if w.fmt = 1 then readElem st 1 (w.addrX + (y - w.iy0) * w.pitchX) ((x - w.ix0) * w.c + t.2.2)
    else memNat st (w.addrOf y x t.2.2) (fmtWidth w.fmt / 8)

/-- Bytes of a whole expanded row, up to a multiple of 64 (R151). -/
def UnfoldWord.rowLen (w : UnfoldWord) : Nat := ceilDiv (w.bytes w.kp) 64 * 64

/-- R151: every expanded row, padded with zero bytes. -/
def UnfoldWord.run (w : UnfoldWord) (st : Memory) : List (Nat × List Byte) :=
  (List.range (w.oh * w.ow)).map fun r =>
    let row := packRow w.fmt (w.taps.map (w.elem st r))
    (w.addrZ + r * w.pitchZ, row ++ List.replicate (w.rowLen - row.length) 0)

/-- A run of one expanded row: fill, or an address and a byte count (R153). -/
structure UnfoldRun where
  fill : Bool
  addr : Nat
  len : Nat
deriving DecidableEq, Repr

/-- The runs of pixel row `r`: maximal stretches of FILL or of consecutive store addresses. -/
def UnfoldWord.runs (w : UnfoldWord) (r : Nat) : List UnfoldRun :=
  let p := w.pixel r
  let e := w.bytes 1
  (w.taps.foldl (fun (acc : List UnfoldRun) t =>
    let cur : UnfoldRun := match w.source p.1 p.2 t.1 t.2.1 with
      | none => ⟨true, 0, e⟩
      | some (y, x) => ⟨false, w.addrOf y x t.2.2, if w.fmt = 1 then w.bytes (t.2.2 + 1) - w.bytes t.2.2 else e⟩
    match acc with
    | [] => [cur]
    | h :: rest =>
      if h.fill && cur.fill then { h with len := h.len + cur.len } :: rest
      else if !h.fill && !cur.fill && h.addr + h.len == cur.addr then { h with len := h.len + cur.len } :: rest
      else cur :: h :: rest) []).reverse

/-- The duration U (R153). -/
def UnfoldWord.cycles (w : UnfoldWord) : Nat :=
  16 + sumNat ((List.range (w.oh * w.ow)).map fun r =>
    let rs := w.runs r
    let rd := sumNat (rs.map fun x => if x.fill then 0 else ceilDiv (x.addr % 64 + x.len) 64)
    let wr := w.rowLen / 64
    Nat.max (Nat.max (ceilDiv rd 4) (ceilDiv wr 4)) (ceilDiv rs.length 2))

/-- R149: the formats UNFOLD accepts. -/
def UnfoldWord.fmtOk (w : UnfoldWord) : Bool :=
  [0x0, 0x1, 0x2, 0x3, 0x4, 0x5, 0xB, 0xE].contains w.fmt

/-- R152: whether the geometry breaks a rule. -/
def UnfoldWord.badGeometry (w : UnfoldWord) : Bool :=
  let out (v lo hi : Nat) : Bool := decide (v < lo) || decide (hi < v)
  out w.kh 1 16 || out w.kw 1 16 || out w.uy 1 4 || out w.ux 1 4 || out w.sy 1 8 || out w.sx 1 8 ||
  out w.dy 1 8 || out w.dx 1 8 || out w.pt 0 63 || out w.pb 0 63 || out w.pl 0 63 || out w.pr 0 63 ||
  out w.fh 1 16384 || out w.fw 1 16384 || out w.c 1 4096 ||
  w.ih == 0 || w.iw == 0 || w.oh == 0 || w.ow == 0 ||
  decide (w.ho < 1) || decide (w.wo < 1) ||
  decide (w.ho < (w.oy0 + w.oh : Nat)) || decide (w.wo < (w.ox0 + w.ow : Nat)) ||
  decide (w.fh < w.iy0 + w.ih) || decide (w.fw < w.ix0 + w.iw) ||
  decide (65535 < w.kp) || decide (65536 < w.rowLen) || decide (w.pitchZ < w.rowLen) ||
  decide (w.pitchX < w.bytes (w.iw * (match w.layout with | 0 => w.c | 1 => 1 | _ => 32))) ||
  (if w.layout = 0 then w.planeX != 0 else decide (w.planeX < w.ih * w.pitchX)) ||
  (w.fmt == 1 && !(w.layout == 0 && w.c % 3 == 0))

/-- R152: whether some source element of the region lies outside what is held. -/
def UnfoldWord.badHalo (w : UnfoldWord) : Bool :=
  (List.range (w.oh * w.ow)).any fun r =>
    let p := w.pixel r
    w.taps.any fun t =>
      match w.source p.1 p.2 t.1 t.2.1 with
      | none => false
      | some (y, x) => decide (y < w.iy0) || decide (w.iy0 + w.ih ≤ y) || decide (x < w.ix0) || decide (w.ix0 + w.iw ≤ x)

end Sys2Proof.Machine
end

