-- ==== Sys2Proof/Machine/Matrix.lean ====
section
/-! DEFINITION. What a MATRIX tile computes: shapes, plans and passes, the accumulation order of R63, block scales, residence and write-back (R25, R41 to R45, R53 to R57, R82 to R90, R110). Pure functions of the word, the store and the banks. -/

namespace Sys2Proof.Machine

/-- The shape a tile runs with: M, N, K and the group count. -/
structure TileShape where
  m : Nat
  n : Nat
  k : Nat
  g : Nat
deriving DecidableEq, Repr

/-- The declared maxima of a word (R85 to R88). -/
def MatrixWord.decl (w : MatrixWord) : TileShape := ⟨w.m, w.n, w.k, w.groups⟩

/-- The shape read at issue (R86): registers where `from_sreg` says so. -/
def MatrixWord.shapeAt (w : MatrixWord) (sreg : Nat → Nat) : TileShape :=
  ⟨if bit w.fromSreg 0 then sreg w.mSreg else w.m,
   if bit w.fromSreg 1 then sreg w.nSreg else w.n,
   if bit w.fromSreg 2 then sreg w.kSreg else w.k,
   if bit w.fromSreg 3 then sreg w.gSreg else w.groups⟩

def TileShape.empty (s : TileShape) : Bool := s.m == 0 || s.n == 0 || s.k == 0 || s.g == 0

/-- The format an operand is staged in (R25). -/
def MatrixWord.staged (w : MatrixWord) (f : Nat) : Nat := if w.f19 && f == 0 then 1 else f

/-- Block length of a block-scale code (Table 1.7). -/
def blockLen (code : Nat) : Nat := if code = 1 then 32 else 16

/-- Input cycles for `k` reduction elements of an operand format: twice `cpk`, so that 0.5 is 1 (Table 2.4). -/
def cpk2 (f : Nat) : Nat :=
  match f with
  | 0x8 => 1 | 0xC => 1
  | 0x0 => 16
  | 0x1 => 4 | 0x2 => 4 | 0x3 => 4
  | _ => 2

/-- Twice the cycles per k of a pair: that of the wider operand (R56). -/
def MatrixWord.cpk2 (w : MatrixWord) : Nat := Nat.max (Machine.cpk2 (w.staged w.fmtA)) (Machine.cpk2 (w.staged w.fmtB))

/-- The group length g (Table 2.4). -/
def MatrixWord.g (w : MatrixWord) : Nat := if 4 ≤ w.cpk2 then 1 else if w.bscaleIn = 2 then 16 else 32

def MatrixWord.a (w : MatrixWord) : Nat := 2 ^ w.la
def MatrixWord.b (w : MatrixWord) : Nat := 2 ^ w.lb
def MatrixWord.s (w : MatrixWord) : Nat := 2 ^ w.ls

/-- k per split part (R57). -/
def MatrixWord.kq (w : MatrixWord) (k : Nat) : Nat := if w.s = 1 then k else ceilDiv k (w.s * w.g) * w.g

/-- How a fold runs (R89): 0 none, 1 row, 2 column, 3 separate. -/
def MatrixWord.fold (w : MatrixWord) : Nat :=
  if w.groups ≤ 1 then 0 else if w.gsB = 0 then 1 else if w.gsA = 0 then 2 else 3

/-- The folded sizes M' and N' (R89). -/
def MatrixWord.foldedM (w : MatrixWord) (s : TileShape) : Nat := if w.fold = 1 then s.g * s.m else s.m
def MatrixWord.foldedN (w : MatrixWord) (s : TileShape) : Nat := if w.fold = 2 then s.g * s.n else s.n

/-- The pass count of one group under the plan (R55). -/
def MatrixWord.passes1 (w : MatrixWord) (s : TileShape) : Nat :=
  ceilDiv (ceilDiv (w.foldedM s) 32) w.a * ceilDiv (ceilDiv (w.foldedN s) 32) w.b

/-- The pass count P' of a tile (R89). -/
def MatrixWord.passes (w : MatrixWord) (s : TileShape) : Nat :=
  if w.fold = 3 then s.g * w.passes1 s else w.passes1 s

/-- Whether a tile names banks (R85). -/
def MatrixWord.bankNaming (w : MatrixWord) : Bool := w.init == 1 || w.result == 1 || w.result == 2

/-- T of R57 with the issue interval of R85 for `f` free banks; `kq` in half cycles is rounded up. -/
def MatrixWord.cycles (w : MatrixWord) (s : TileShape) (f : Nat) : Nat :=
  let kq := w.kq s.k
  let p := w.passes s
  let d := ceilDiv (kq * w.cpk2) 2
  let i := Nat.max d (ceilDiv (d + 71) f)
  let ne := if kq = 0 then 1 else Nat.min w.s (ceilDiv s.k kq)
  (p - 1) * i + d + 71 + 6 * (ne - 1)

/-! ## Banks (R85, R110) -/

/-- The identity of a residence (R85): a and b, fold count, row blocks, column blocks. -/
structure BankIdent where
  a : Nat
  b : Nat
  g : Nat
  mb : Nat
  nb : Nat
deriving DecidableEq, Repr

/-- One accumulator bank: 32 × 32 words, its shadow, and its residence (R53, R68, R85). Unlisted words are 0. -/
structure Bank where
  words : Tbl Nat
  shadow : Tbl Nat
  resident : Option BankIdent
deriving DecidableEq, Repr

def Bank.free : Bank := ⟨[], [], none⟩

/-- The key of bank `k` of array `arr` on one core. -/
def bankKey (arr k : Nat) : Nat := arr * 4 + k

/-- R110: where element (i, j) of a placed output lies: bank key and word index.
`nb` is the column block count at declared maximum, `run` the first bank of the group's run. -/
def bankPlace (a b nb run i j : Nat) : Nat × Nat :=
  let rb := i / 32
  let cb := j / 32
  (bankKey ((rb % a) * b + cb % b) (run + (rb / a) * ceilDiv nb b + cb / b), (i % 32) * 32 + j % 32)

/-- A word of a bank of a core's banks. -/
def bankWord (banks : Tbl Bank) (p : Nat × Nat) : Nat := tget 0 (tget Bank.free banks p.1).words p.2

/-- The place of element (i, j) of a folded output; `q` is the group of a separate fold, each of which has its own run of banks (R110). -/
def MatrixWord.placeFolded (w : MatrixWord) (q i j : Nat) : Nat × Nat :=
  bankPlace w.a w.b (ceilDiv (w.foldedN w.decl) 32) (if w.fold = 3 then w.bank + q * w.passes1 w.decl else w.bank) i j

/-- The place of output (i, j) of group q of a tile. -/
def MatrixWord.place (w : MatrixWord) (s : TileShape) (q i j : Nat) : Nat × Nat :=
  match w.fold with
  | 1 => w.placeFolded q (q * s.m + i) j
  | 2 => w.placeFolded q i (q * s.n + j)
  | _ => w.placeFolded q i j

/-- The banks a bank-naming tile names, on every array of its plan (R85). -/
def MatrixWord.namedBanks (w : MatrixWord) : List Nat :=
  (List.range (w.a * w.b * w.s)).flatMap fun arr => (span w.bank (w.passes w.decl)).map (bankKey arr)

/-- The residence identifier of a tile (R85). -/
def MatrixWord.ident (w : MatrixWord) : BankIdent :=
  ⟨w.a, w.b, if w.fold = 3 then w.groups else 1, ceilDiv (w.foldedM w.decl) 32, ceilDiv (w.foldedN w.decl) 32⟩

/-! ## Operands (R83) -/

/-- The staged value of an operand element, FP32 rounded to FP19K under `f19` (R25). -/
def MatrixWord.stage (w : MatrixWord) (f c : Nat) : ExtVal :=
  if w.f19 && f == 0 then ext 1 (convertElem 0 1 c cvt0 0).code else ext f c

/-- Element A[i][t] of group q. -/
def MatrixWord.elemA (w : MatrixWord) (st : Memory) (q i t : Nat) : ExtVal :=
  let base := w.addrA + q * w.gsA
  w.stage w.fmtA (if w.ta then readElem st w.fmtA (base + t * w.pitchA) i else readElem st w.fmtA (base + i * w.pitchA) t)

/-- Element B[t][j] of group q. -/
def MatrixWord.elemB (w : MatrixWord) (st : Memory) (q t j : Nat) : ExtVal :=
  let base := w.addrB + q * w.gsB
  w.stage w.fmtB (if w.tb then readElem st w.fmtB (base + j * w.pitchB) t else readElem st w.fmtB (base + t * w.pitchB) j)

/-- The scale byte of block `blk` of row `r` in group q of an operand's scale tensor (R41, R83). Rows of the tensor lie at the stride of the
declared maximum, as its groups do, whatever K is read at issue (DESIGN CHOICE, log entry 105). -/
def scaleByte (st : Memory) (addr rows kDecl len gs q r blk : Nat) : Nat :=
  let per := ceilDiv kDecl len
  memNat st (addr + (if gs = 0 then 0 else q * rows * per) + r * per + blk) 1

/-- The contribution of one group to the accumulator: an exact value, possibly times quarter octaves. -/
inductive GroupSum where
  | plain (v : ExtVal)
  | quart (v : Dy) (j : Nat)
deriving DecidableEq, Repr

/-- The group's exact sum times the two block scales (R43). -/
def MatrixWord.scaled (w : MatrixWord) (e : ExtVal) (sa sb : Nat) : GroupSum :=
  match w.bscaleIn with
  | 1 =>
    if sa = 0xFF || sb = 0xFF then .plain .nan
    else
      let ints := (if w.fmtA = 0xB then 6 else 0) + (if w.fmtB = 0xB then 6 else 0)
      .plain (e.mul (.fin ⟨1, (sa : Int) + sb - 254 - ints⟩ false))
  | 2 =>
    if sa = 0xFF || sb = 0xFF then .plain .nan
    else if sa = 0 || sb = 0 then .plain (.fin Dy.zero false)
    else
      match e with
      | .fin v _ =>
        let x : Int := (sa : Int) + sb - 256
        .quart ⟨v.m, v.e + x / 4⟩ (x % 4).toNat
      | _ => .plain e
  | _ => .plain e

/-- One rounded addition of a group to an FP32 accumulator (R63, R64). -/
def addGroup (acc : Nat) (g : GroupSum) : Nat :=
  match g with
  | .plain e => ((e32 acc).add e).round
  | .quart v j =>
    match e32 acc with
    | .fin d n0 =>
      if v.m = 0 then ((e32 acc).add (.fin Dy.zero false)).round
      else if j = 0 then ((ExtVal.fin d n0).add (.fin v false)).round
      else
        let e := if d.e ≤ v.e then d.e else v.e
        let a := d.m * 2 ^ (d.e - e).toNat
        let b := v.m * 2 ^ (v.e - e).toNat
        rne32 (.num (decide (a + quarterFloor b j < 0)) (.alg a b j 1 e))
    | _ => acc

/-- An integer value of an extended number (integer operands only). -/
def extInt : ExtVal → Int
  | .fin v _ => v.floor
  | _ => 0

/-- The accumulator with its saturation count. -/
structure Acc where
  v : Nat
  sat : Nat
deriving DecidableEq, Repr

/-- One saturating addition to an INT32 accumulator (R30). -/
def addInt (acc : Acc) (e : Int) : Acc :=
  let r := satI32 (i32 acc.v + e)
  ⟨u32 r.1, acc.sat + r.2⟩

/-- The exact sum of one group (R63, R64). -/
def MatrixWord.groupSum (w : MatrixWord) (st : Memory) (q i j k hi : Nat) : ExtVal :=
  if w.g = 1 then (w.elemA st q i k).mul (w.elemB st q k j)
  else (span k (hi - k)).foldl (fun e t => e.add ((w.elemA st q i t).mul (w.elemB st q t j))) (.fin Dy.zero false)

/-- One split part: groups in ascending k (R63). -/
def MatrixWord.partSum (w : MatrixWord) (st : Memory) (q i j : Nat) (start : Acc) (k0 k1 : Nat) : Acc :=
  (List.range (ceilDiv (k1 - k0) w.g)).foldl (fun acc x =>
    let k := k0 + x * w.g
    let e := w.groupSum st q i j k (Nat.min (k + w.g) k1)
    if isIntFmt w.fmtA && w.bscaleIn == 0 then addInt acc (extInt e)
    else
      let len := blockLen w.bscaleIn
      let sa := if w.bscaleIn = 0 then 0 else scaleByte st w.addrSa w.m w.k len w.gsA q i (k / len)
      let sb := if w.bscaleIn = 0 then 0 else scaleByte st w.addrSb w.n w.k len w.gsB q j (k / len)
      ⟨addGroup acc.v (w.scaled e sa sb), acc.sat⟩) start

/-- Whether the tile accumulates in INT32 (R28, R43: block-scaled INT8 accumulates in FP32). -/
def MatrixWord.isIntTile (w : MatrixWord) : Bool := isIntFmt w.fmtA && w.bscaleIn == 0

/-- Element (i, j) of group q as R63 leaves it in the accumulator. -/
def MatrixWord.element (w : MatrixWord) (st : Memory) (banks : Tbl Bank) (s : TileShape) (q i j : Nat) : Acc :=
  let init : Nat :=
    match w.init with
    | 1 => bankWord banks (w.place s q i j)
    | 2 =>
      let c := readElem st w.fmtC (w.addrI + q * w.gsI + i * w.pitchI) j
      (convertElem w.fmtC (if w.isIntTile then 0x9 else 0x0) c cvt0 0).code
    | _ => 0
  let kq := w.kq s.k
  let parts := (List.range w.s).filterMap fun p =>
    let k0 := p * kq
    if k0 < s.k then some (w.partSum st q i j ⟨if p = 0 then init else 0, 0⟩ k0 (Nat.min (k0 + kq) s.k)) else none
  match parts with
  | [] => ⟨init, 0⟩
  | p :: r => r.foldl (fun acc x =>
      if w.isIntTile then { addInt acc (i32 x.v) with sat := (addInt acc (i32 x.v)).sat + x.sat }
      else ⟨fadd acc.v x.v, acc.sat + x.sat⟩) p

/-- The write-back's multiplication of a finished K16 accumulator by the product of the tile scales, once and under round to nearest even (R43);
a tile scale that is not finite and positive makes it NaN (Table 1.7). -/
def MatrixWord.tileScaled (w : MatrixWord) (v : Nat) : Nat :=
  if w.bscaleIn = 2 then
    let ok (t : Nat) : Bool := !isNan32 t && !isInf32 t && !isZero32 t && !sign32 t
    if ok w.tA && ok w.tB then ((e32 v).mul ((e32 w.tA).mul (e32 w.tB))).round else fnan
  else v

/-- What a cell of a computed block beyond M or N holds: its operands are zero, so a ZERO or LOAD tile leaves 0 and a RESIDENT one adds 0 to
what the bank holds (R55). -/
def MatrixWord.edgeWord (w : MatrixWord) (banks : Tbl Bank) (p : Nat × Nat) : Nat :=
  if w.init = 1 then (if w.isIntTile then bankWord banks p else fadd (bankWord banks p) 0) else 0

/-- The cells beyond M and N of the blocks a tile computes at a shape, with their words (R55, R110). -/
def MatrixWord.edgeCells (w : MatrixWord) (banks : Tbl Bank) (s : TileShape) : List ((Nat × Nat) × Nat) :=
  let m := w.foldedM s
  let n := w.foldedN s
  (List.range (if w.fold = 3 then s.g else 1)).flatMap fun q => (List.range (32 * ceilDiv m 32)).flatMap fun i =>
    ((List.range (32 * ceilDiv n 32)).filter fun j => decide (m ≤ i) || decide (n ≤ j)).map fun j =>
      (w.placeFolded q i j, w.edgeWord banks (w.placeFolded q i j))

/-! ## Output (R32, R44, R45, R83, R550) -/

/-- Largest magnitude test on exact values: the larger of two finite magnitudes, with NaN and infinity kept apart by the caller. -/
def xAbs : XVal → Dy
  | .num _ (.alg a _ _ _ e) => ⟨a.natAbs, e⟩
  | _ => Dy.zero

def xSpecial : XVal → Bool
  | .nan => true
  | .inf _ => true
  | _ => false

/-- A quantised block: its scale byte and its codes, with what the conversions count. -/
structure QBlock where
  scale : Nat
  codes : List Nat
  sat : Nat
  nan : Nat
deriving DecidableEq, Repr

/-- The codes of a block converted from exact values, overflow always saturating (R44 step 5, R45 step 3). -/
def quantCodes (f : Nat) (c : Cvt) (draw : Nat → Nat) (xs : List XVal) (scale : Nat) : QBlock :=
  let vs := xs.zipIdx.map fun p => convert p.1 f { c with sat := true } (draw p.2)
  ⟨scale, vs.map (·.code), sumNat (vs.map (·.sat)), sumNat (vs.map (·.nan))⟩

/-- R44: one MX32 block from exact values. -/
def quantMx32 (f : Nat) (c : Cvt) (draw : Nat → Nat) (xs : List XVal) : QBlock :=
  let amax := xs.foldl (fun a x => if a.lt (xAbs x) then xAbs x else a) Dy.zero
  let zeros := xs.map fun _ => 0
  if xs.any xSpecial then ⟨0xFF, zeros, 0, 0⟩
  else if amax.isZero then ⟨0, zeros, 0, 0⟩
  else
    let emax : Int := match f with | 0x4 => 8 | 0x5 => 15 | 0x6 => 4 | 0x7 => 2 | 0x8 => 2 | _ => 0
    let e0 := (Nat.log2 amax.m.natAbs : Int) + amax.e - emax + 127
    let e : Int := if e0 < 0 then 0 else if 254 < e0 then 254 else e0
    let sh : Int := if f = 0xB then 127 - e + 6 else 127 - e
    let ys := xs.map fun x => match x with
      | .num n (.alg a b j den q) => XVal.num n (.alg a b j den (q + sh))
      | y => y
    quantCodes f c draw ys e.toNat

/-- The value of Table 1.2 that R45 divides by: the largest finite value of a K16 element format. -/
def k16Max (f : Nat) : Dy := dyOf f (maxFiniteCode f)

/-- The smallest K16 scale code whose value is at least `num / den` (R45 step 2), 0xFE where none is. -/
def k16Code (num den : Dy) : Nat → Nat → Nat
  | 0, _ => 0xFE
  | fuel + 1, q =>
    -- (num/den)^4 ≤ 2^(q-128)
    let n4 := num.m ^ 4
    let d4 := den.m ^ 4
    if (Dy.le ⟨n4, 4 * num.e⟩ (Dy.mul ⟨d4, 4 * den.e⟩ ⟨1, (q : Int) - 128⟩)) then q else k16Code num den fuel (q + 1)

/-- R45: one K16 block from exact values under tile scale bits `t`. The rule gives the scales of a `t` that is not finite and positive, and not
the elements: they are zero, as beside every other scale 0xFF of the rule (DESIGN CHOICE, log entry 103). -/
def quantK16 (f t : Nat) (c : Cvt) (draw : Nat → Nat) (xs : List XVal) : QBlock :=
  let amax := xs.foldl (fun a x => if a.lt (xAbs x) then xAbs x else a) Dy.zero
  let zeros := xs.map fun _ => 0
  if isNan32 t || isInf32 t || isZero32 t || sign32 t then ⟨0xFF, zeros, 0, 0⟩
  else if xs.any xSpecial then ⟨0xFF, zeros, 0, 0⟩
  else if amax.isZero then ⟨0, zeros, 0, 0⟩
  else
    let td := dy32 t
    let q := k16Code amax ((k16Max f).mul td) 253 1
    let x : Int := 128 - (q : Int)
    let ys := xs.map fun v => match v with
      | .num n (.alg a _ _ den e) =>
        if a = 0 then XVal.num n (Mag.ofNat 0)
        else .num n (.alg 0 a (x % 4).toNat (den * td.m.natAbs) (e - td.e + x / 4))
      | y => y
    quantCodes f c draw ys q

/-- The blocks of one row, cut to length `len`. -/
def chunksOf {α : Type} (len : Nat) : Nat → List α → List (List α)
  | 0, _ => []
  | fuel + 1, l => match l with
    | [] => []
    | _ => l.take len :: chunksOf len fuel (l.drop len)

/-- Bytes to write and what a unit's conversions count. -/
structure RowOut where
  writes : List (Nat × List Byte)
  sat : Nat
  nan : Nat
deriving DecidableEq, Repr

/-- One output row converted and packed: exact values in, bytes at `addr` out; with a block scale, scale bytes at `scaleAddr` too.
`draw j` is the draw of element `j` of the row. -/
def writeRow (f : Nat) (c : Cvt) (t addr scaleAddr : Nat) (draw : Nat → Nat) (xs : List XVal) : RowOut :=
  if c.bscale = 0 then
    let vs := xs.zipIdx.map fun p => convert p.1 f c (if c.rnd = 2 then draw p.2 else 0)
    ⟨[(addr, packRow f (vs.map (·.code)))], sumNat (vs.map (·.sat)), sumNat (vs.map (·.nan))⟩
  else
    let len := blockLen c.bscale
    let qs := (chunksOf len (xs.length + 1) xs).zipIdx.map fun p =>
      let d := fun j => if c.rnd = 2 then draw (p.2 * len + j) else 0
      if c.bscale = 1 then quantMx32 f c d p.1 else quantK16 f t c d p.1
    ⟨[(addr, packRow f (qs.flatMap (·.codes))), (scaleAddr, qs.map fun b => BitVec.ofNat 8 b.scale)],
     sumNat (qs.map (·.sat)), sumNat (qs.map (·.nan))⟩

/-- The exact value of an accumulator word. -/
def accX (isInt : Bool) (v : Nat) : XVal := if isInt then decodeElem 0x9 v else decodeElem 0x0 v

/-- What a tile delivers at its verdict: store writes, bank words, and counts. -/
structure TileOut where
  writes : List (Nat × List Byte)
  banks : List ((Nat × Nat) × Nat)
  accSat : Nat
  cvtSat : Nat
  nanDrop : Nat
deriving DecidableEq, Repr

def TileOut.none : TileOut := ⟨[], [], 0, 0, 0⟩

/-- The whole tile (R63, R82 to R90): every element, its residence and its write-back under control `cvt`,
with the keyed draws of R37 under `seed` and `step`. -/
def MatrixWord.run (w : MatrixWord) (cvt : Nat) (st : Memory) (banks : Tbl Bank) (s : TileShape) (seed step : Nat) : TileOut :=
  if s.empty then TileOut.none
  else
    let c := Cvt.ofByte cvt
    let len := blockLen c.bscale
    let rows := (List.range s.g).flatMap fun q => (List.range s.m).map fun i => (q, i)
    let outs := rows.map fun p =>
      let q := p.1
      let i := p.2
      let acc := (List.range s.n).map fun j => w.element st banks s q i j
      let keep := if w.result = 0 then [] else acc.zipIdx.map fun x => (w.place s q i x.2, x.1.v)
      let sats := sumNat (acc.map (·.sat))
      if w.result = 1 then (⟨[], keep, sats, 0, 0⟩ : TileOut)
      else
        let perRow := ceilDiv w.n len
        let sca := w.addrSc + (if w.gsC = 0 then 0 else q * w.m * perRow) + i * perRow
        let row := writeRow w.fmtC c w.tC (w.addrC + q * w.gsC + i * w.pitchC) sca
          (fun j => srDraw seed w.tag (q * w.m * w.n + i * w.n + j) step)
          (acc.map fun x => accX w.isIntTile (w.tileScaled x.v))
        ⟨row.writes, keep, sats, row.sat, row.nan⟩
    ⟨outs.flatMap (·.writes), outs.flatMap (·.banks) ++ (if w.result = 0 then [] else w.edgeCells banks s), sumNat (outs.map (·.accSat)),
     sumNat (outs.map (·.cvtSat)), sumNat (outs.map (·.nanDrop))⟩

/-- R87: whether a shape read at issue breaks the declared maximum, the block length or the packing rule. -/
def MatrixWord.shapeBound (w : MatrixWord) (s : TileShape) : Bool :=
  decide (w.m < s.m) || decide (w.n < s.n) || decide (w.k < s.k) || decide (w.groups < s.g) ||
  (bit w.fromSreg 2 && w.bscaleIn != 0 && s.k % blockLen w.bscaleIn != 0) ||
  !(rowWhole w.fmtA (if w.ta then s.m else s.k)) || !(rowWhole w.fmtB (if w.tb then s.k else s.n)) ||
  (w.result != 1 && !(rowWhole w.fmtC s.n)) || (w.init == 2 && !(rowWhole w.fmtC s.n))

end Sys2Proof.Machine
end

