-- ==== Sys2Proof/Config.lean ====
section
/-! DEFINITION. What the spec leaves to the part or to an external standard: opaque constants with no body, so that no proof can see a value. Each is named in the assumption log. -/

namespace Sys2Proof.Config

/-- The SFU's choice inside the error bound of Table 4.4, for a function code and the bits of its FP32 argument (R102, R114). -/
opaque sfuChoice : Nat → Nat → Nat

/-- A value the spec does not state, drawn by the free-value counter of the state. -/
opaque freeNat : Nat → Nat

/-- The draw of a conversion under keyed stochastic rounding that Table 1.9 gives no element index: a fixed value of the key it is used with. -/
opaque openDraw : List Nat → Nat

/-- A hash, tag, signature or key computed by a published cryptographic standard over the bytes given (SHA-384, HMAC, AES-GCM, ECDSA ...). -/
opaque crypto : String → List Nat → List Nat

/-- The output of an external video standard (H.264, H.265, AV1) for a coded unit: the decoded picture samples. -/
opaque codec : Nat → List Nat → List Nat

end Sys2Proof.Config
end

