-- ==== Sys2Proof/Machine/Sfu.lean ====
section
/-! DEFINITION. The special-function unit (R102, R114 to R116): each function's exact value to 400 binary places, and a result inside the bound of Table 4.4 whose place in the bound is the free value `Config.sfuChoice`. -/

namespace Sys2Proof.Machine

/-- Binary places carried by the evaluation. -/
def sfuP : Nat := 400

/-- 1 at the working scale. -/
def sfuOne : Nat := 2 ^ sfuP

/-- `2 * atanh(1/k)` style odd series: the sum of `t / (i * k2^j)` with alternating signs when `alt`. -/
def oddSeries (alt : Bool) (k2 : Nat) : Nat → Nat → Nat → Bool → Int → Int
  | 0, _, _, _, acc => acc
  | n + 1, t, i, neg, acc =>
    let term : Int := (t / i : Nat)
    oddSeries alt k2 n (t / k2) (i + 2) (alt && !neg) (if neg then acc - term else acc + term)

/-- `arctan(1/k)` at the working scale. -/
def atanInv (k : Nat) : Int := oddSeries true (k * k) 260 (sfuOne / k) 1 false 0

/-- π at the working scale, by Machin's formula. -/
def sfuPi : Nat := (16 * atanInv 5 - 4 * atanInv 239).toNat

/-- ln 2 at the working scale. -/
def sfuLn2 : Nat := (2 * oddSeries false 9 260 (sfuOne / 3) 1 false 0).toNat

/-- The exponential series for a non-negative argument below 1, at the working scale. -/
def expSeries (x : Nat) : Nat → Nat → Nat → Nat → Nat
  | 0, _, _, acc => acc
  | n + 1, t, i, acc => expSeries x n (t * x / sfuOne / i) (i + 1) (acc + t)

/-- A real approximation `m * 2^e` with a non-negative mantissa. -/
structure Appr where
  m : Nat
  e : Int
deriving DecidableEq, Repr

/-- The magnitude of a dyadic number at the working scale. -/
def dyScale (x : Dy) : Int :=
  match x.e + sfuP with
  | .ofNat s => x.m * 2 ^ s
  | .negSucc s => x.m / 2 ^ (s + 1)

/-- `e^y` for a scaled argument `y`. -/
def expAppr (y : Int) : Appr :=
  let k := y / (sfuLn2 : Int)
  let r := (y - k * sfuLn2).toNat
  ⟨expSeries r 120 sfuOne 1 0, k - sfuP⟩

/-- The natural logarithm of a positive dyadic, scaled. -/
def lnScaled (x : Dy) : Int :=
  let n := x.m.natAbs
  let l := Nat.log2 n
  let u := n * 2 ^ sfuP / 2 ^ l
  let z := (u - sfuOne) * sfuOne / (u + sfuOne)
  let z2 := z * z / sfuOne
  let rec go : Nat → Nat → Nat → Nat → Nat
    | 0, _, _, acc => acc
    | f + 1, t, i, acc => go f (t * z2 / sfuOne) (i + 2) (acc + t / i)
  2 * (go 140 z 1 0 : Nat) + ((l : Int) + x.e) * sfuLn2

/-- The error function of a non-negative scaled argument, scaled: the series with positive terms. -/
def erfScaled (z : Nat) : Nat :=
  let z2 := z * z / sfuOne
  let rec go : Nat → Nat → Nat → Nat → Nat
    | 0, _, _, acc => acc
    | f + 1, t, i, acc => go f (2 * t * z2 / sfuOne / i) (i + 2) (acc + t)
  let s := go 700 z 3 0
  let e := expAppr (-(z2 : Int))
  let ez := (e.m * 2 ^ sfuP) / 2 ^ ((-e.e).toNat)
  let sp := iroot 2 (sfuPi * sfuOne)
  2 * (s * ez / sfuOne) * sfuOne / sp

/-- sin of a scaled non-negative angle below 2, scaled. -/
def sinScaled (t : Nat) : Int :=
  let t2 := t * t / sfuOne
  let rec go : Nat → Nat → Nat → Bool → Int → Int
    | 0, _, _, _, acc => acc
    | f + 1, u, i, neg, acc =>
      go f (u * t2 / sfuOne / ((i + 1) * (i + 2))) (i + 2) (!neg) (if neg then acc - u else acc + u)
  go 90 t 1 false 0

/-- The accuracy of Table 4.4 in units in the last place; 0 is correctly rounded. -/
def sfuUlp (fn : Nat) : Nat :=
  match fn with
  | 0x4 => 0 | 0x6 => 0
  | 0x7 => 2 | 0x8 => 2 | 0x9 => 3 | 0xA => 2 | 0xB => 2 | 0xC => 2 | 0xD => 2
  | _ => 1

/-- The value of a signed count of FP32 codes, the exponent field running on past the largest finite code. -/
def stepVal (n : Int) : Dy :=
  let k := n.natAbs
  let ex := k / 0x800000
  let m : Int := if ex = 0 then k else (k % 0x800000 + 0x800000 : Nat)
  ⟨if n < 0 then -m else m, (Nat.max ex 1 : Nat) - 150⟩

/-- The unit in the last place of an FP32 result, `u` times. -/
def stepUlp (n : Int) (u : Nat) : Dy := ⟨u, (Nat.max (n.natAbs / 0x800000) 1 : Nat) - 150⟩

/-- The distance between two dyadic numbers. -/
def Dy.dist (x y : Dy) : Dy := ⟨(x.sub y).m.natAbs, (x.sub y).e⟩

/-- The FP32 codes, as signed counts, whose distance from a magnitude is at most `u` of their own units in the last place (R114). -/
def sfuSteps (u : Nat) (v : Appr) : List Int :=
  let mag := Mag.alg v.m 0 0 1 v.e
  let s : FloatShape := ⟨8, 23, 127, true, true⟩
  let q := lastPlace s mag
  let f : Int := encodeFloat s (mag.scaled (-q)).1 q
  ((List.range (2 * u + 2)).map fun (i : Nat) => f - (u : Int) + (i : Int)).filter fun n => Dy.le (Dy.dist (stepVal n) ⟨v.m, v.e⟩) (stepUlp n u)

/-- Whether any FP32 code `r` answers SIN or COS under the absolute bound of Table 4.4: below 2^−22, and at most 2^−24 from the exact value. -/
def turnsNear (neg : Bool) (v : Appr) (r : Nat) : Bool :=
  !isNan32 r && !isInf32 r && Dy.lt ⟨(dy32 r).m.natAbs, (dy32 r).e⟩ ⟨1, -22⟩ &&
    Dy.le (Dy.dist (dy32 r) ⟨if neg then -(v.m : Int) else v.m, v.e⟩) ⟨1, -24⟩

/-- A result near `neg, v` within the bound of the function (Table 4.4), chosen among the codes in the bound by the free value; a result
past the largest finite code is an overflow (R115). -/
def sfuNear (fn x : Nat) (neg : Bool) (v : Appr) (c : Cvt) : Conv :=
  let pick := Config.sfuChoice fn x
  if (fn = 0xC ∨ fn = 0xD) ∧ turnsNear neg v (pick % 2 ^ 32) = true then ⟨pick % 2 ^ 32, 0, 0⟩
  else
    let l := sfuSteps (sfuUlp fn) v
    let n := l.getD (pick % l.length) 0
    let sg := signCode 0 (xor neg (decide (n < 0)))
    if n.natAbs < 0x7F800000 then ⟨sg + n.natAbs, 0, 0⟩
    else if c.sat || c.rnd == 1 then ⟨sg + 0x7F7FFFFF, 1, 0⟩
    else ⟨sg + 0x7F800000, 0, 0⟩

/-- Whether a value lies below the smallest FP32 normal (R116). -/
def apprTiny (v : Appr) : Bool := v.m == 0 || decide ((Nat.log2 v.m : Int) + v.e < -126)

/-- Whether a value at the working scale lies within 2^−25 of 1 (R116). -/
def nearOne (v : Nat) : Bool := decide (sfuOne - v ≤ 2 ^ (sfuP - 25))

/-- The logistic function of a scaled argument as an approximation. -/
def sigmoidAppr (y : Int) : Appr :=
  if 0 ≤ y then
    let e := expAppr (-y)
    let ez := if 0 ≤ e.e then e.m * 2 ^ e.e.toNat else e.m * sfuOne / 2 ^ (-e.e).toNat
    ⟨sfuOne * sfuOne / (sfuOne + ez), -sfuP⟩
  else
    let e := expAppr y
    let ez := e.m * sfuOne / 2 ^ (-e.e).toNat
    ⟨e.m * sfuOne / (sfuOne + ez), e.e⟩

/-- The normal distribution function of a scaled argument. -/
def phiAppr (y : Int) : Appr :=
  let r2 := iroot 2 (2 * sfuOne * sfuOne)
  let e := erfScaled (y.natAbs * sfuOne / r2)
  ⟨if 0 ≤ y then (sfuOne + e) / 2 else (sfuOne - e) / 2, -sfuP⟩

def apprMulDy (v : Appr) (x : Dy) : Appr := ⟨v.m * x.m.natAbs, v.e + x.e⟩

/-- The fraction of turns of SIN and COS: sign and magnitude of `sin(2πr)` at the working scale, for `r` at that scale in [−1/2, 1/2]. -/
def sinTurns (r : Int) : Bool × Nat :=
  let n := r.natAbs
  let n' := if sfuOne < 4 * n then sfuOne / 2 - n else n
  (decide (r < 0), (sinScaled (2 * sfuPi * n' / sfuOne)).toNat)

/-- A dyadic number less its nearest integer, scaled. -/
def turnFrac (x : Dy) : Int :=
  let y := dyScale x
  let k := (2 * y + sfuOne) / (2 * (sfuOne : Int))
  y - k * sfuOne

/-- R114 to R116: the SFU result for FP32 argument bits, and the saturation counted where an overflow under the word's `cvt` gives the largest
finite value (R35, R115). -/
def sfuConv (fn x : Nat) (c : Cvt) : Conv :=
  let k (code : Nat) : Conv := ⟨code, 0, 0⟩
  let inf := k (infCode 0 false)
  let neg := sign32 x
  let d := dy32 x
  let one := 0x3F800000
  let atOne := k (signCode 0 neg + one)
  let plain : Cvt := { c with sat := false, rnd := 0 }
  if isNan32 x then k fnan
  else
    match fn with
    | 0x0 =>
      if isInf32 x then (if neg then k 0 else inf)
      else if isZero32 x then sfuNear 0 x false ⟨1, 0⟩ plain
      else if Dy.lt ⟨200, 0⟩ d then inf
      else if d.lt ⟨-200, 0⟩ then k 0
      else
        let v := expAppr (dyScale d)
        if apprTiny v then k 0 else if 128 ≤ (Nat.log2 v.m : Int) + v.e then inf else sfuNear 0 x false v plain
    | 0x1 =>
      if isInf32 x then (if neg then k 0 else inf)
      else if Dy.le ⟨128, 0⟩ d then inf
      else if d.lt ⟨-126, 0⟩ then k 0
      else if (Dy.sub d (Dy.ofInt d.floor)).isZero then k (rne32 (.num false (.alg 1 0 0 1 d.floor)))
      else sfuNear 1 x false (expAppr (dyScale d * sfuLn2 / sfuOne)) plain
    | 0x2 =>
      if isZero32 x then k (infCode 0 true)
      else if neg then k fnan
      else if isInf32 x then inf
      else if x = one then k 0
      else
        let l := lnScaled d
        sfuNear 2 x (decide (l < 0)) ⟨l.natAbs, -sfuP⟩ c
    | 0x3 =>
      if isZero32 x then k (infCode 0 true)
      else if neg then k fnan
      else if isInf32 x then inf
      else
        let n := d.m.natAbs
        if n = 2 ^ Nat.log2 n then k (rne32 ((Dy.ofInt ((Nat.log2 n : Int) + d.e)).toX))
        else
          let l := lnScaled d
          sfuNear 3 x (decide (l < 0)) ⟨l.natAbs * sfuOne / sfuLn2, -sfuP⟩ c
    | 0x4 =>
      if isZero32 x then k (infCode 0 neg)
      else if isInf32 x then k (signCode 0 neg)
      else if Dy.lt ⟨1, 126⟩ ⟨d.m.natAbs, d.e⟩ then k (signCode 0 neg)
      else convert (.num neg (dyQuot ⟨1, 0⟩ d)) 0x0 ⟨0, false, c.sat || c.rnd == 1, 0⟩ 0
    | 0x5 =>
      if isZero32 x then k (infCode 0 neg)
      else if neg then k fnan
      else if isInf32 x then k 0
      else if Dy.lt ⟨1, 252⟩ d then k 0
      else
        let n := d.m.natAbs
        let r := if 0 ≤ d.e then Mag.root 1 (n * 2 ^ d.e.toNat) else Mag.root (2 ^ (-d.e).toNat) n
        sfuNear 5 x false ⟨(r.scaled 400).1, -400⟩ c
    | 0x6 => k (fsqrt x)
    | 0x7 =>
      if isInf32 x then k (if neg then 0 else one)
      else if isZero32 x then sfuNear 7 x false ⟨1, -1⟩ c
      else if d.lt ⟨-200, 0⟩ then k 0
      else
        let v := sigmoidAppr (dyScale (if Dy.lt ⟨400, 0⟩ d then ⟨400, 0⟩ else d))
        if apprTiny v then k 0 else sfuNear 7 x false v c
    | 0x8 =>
      if isInf32 x then (if neg then k (signCode 0 true) else inf)
      else if isZero32 x then k x
      else if d.lt ⟨-200, 0⟩ then k (signCode 0 true)
      else
        let v := apprMulDy (sigmoidAppr (dyScale (if Dy.lt ⟨400, 0⟩ d then ⟨400, 0⟩ else d))) d
        if apprTiny v && d.lt ⟨-1, 0⟩ then k (signCode 0 neg) else sfuNear 8 x neg v c
    | 0x9 =>
      if isInf32 x then (if neg then k (signCode 0 true) else inf)
      else if isZero32 x then k x
      else if d.lt ⟨-16, 0⟩ then k (signCode 0 true)
      else
        let v := apprMulDy (phiAppr (dyScale (if Dy.lt ⟨16, 0⟩ d then ⟨16, 0⟩ else d))) d
        if apprTiny v && d.lt ⟨-1, 0⟩ then k (signCode 0 neg) else sfuNear 9 x neg v c
    | 0xA =>
      if isInf32 x then atOne
      else if isZero32 x then k x
      else if Dy.lt ⟨16, 0⟩ ⟨d.m.natAbs, d.e⟩ then atOne
      else
        let e := expAppr (-2 * (dyScale ⟨d.m.natAbs, d.e⟩))
        let ez := e.m * sfuOne / 2 ^ (-e.e).toNat
        let v := (sfuOne - ez) * sfuOne / (sfuOne + ez)
        if nearOne v then atOne else sfuNear 10 x neg ⟨v, -sfuP⟩ c
    | 0xB =>
      if isInf32 x then atOne
      else if isZero32 x then k x
      else if Dy.lt ⟨5, 0⟩ ⟨d.m.natAbs, d.e⟩ then atOne
      else
        let v := erfScaled ((dyScale ⟨d.m.natAbs, d.e⟩).toNat)
        if nearOne v then atOne else sfuNear 11 x neg ⟨v, -sfuP⟩ c
    | 0xC =>
      if isInf32 x then k fnan
      else
        let r := turnFrac d
        if 2 * r % (sfuOne : Int) = 0 then k 0
        else
          let v := sinTurns r
          sfuNear 12 x v.1 ⟨v.2, -sfuP⟩ c
    | _ =>
      if isInf32 x then k fnan
      else
        let r0 := turnFrac d + sfuOne / 4
        let r := if (sfuOne : Int) < 2 * r0 then r0 - sfuOne else r0
        if 2 * r % (sfuOne : Int) = 0 then k 0
        else
          let v := sinTurns r
          sfuNear 13 x v.1 ⟨v.2, -sfuP⟩ c

/-- The SFU result alone. -/
def sfu (fn x : Nat) (c : Cvt) : Nat := (sfuConv fn x c).code

end Sys2Proof.Machine
end

