-- ==== Sys2Proof/Machine/Vector.lean ====
section
/-! DEFINITION. What a VECTOR word computes (chapter 4: R100 to R119): elementwise operations, fixed-order row reductions, the Welford statistics and the running soft maximum. Pure functions of the word, the store and the banks. -/

namespace Sys2Proof.Machine

/-- The operation codes of Table 4.2 that are listed. -/
def vopListed (op : Nat) : Bool :=
  (decide (1 ≤ op) && decide (op ≤ 0x12)) || op == 0x14 || op == 0x15 || op == 0x18 || op == 0x19 || op == 0x1A || op == 0x1B

/-- Operations whose result names y (Table 4.2). -/
def vopReadsY (op : Nat) : Bool :=
  op == 1 || op == 2 || op == 3 || op == 4 || op == 5 || op == 7 || op == 0xA || op == 0xB || op == 0xC || op == 0xD || op == 0xE ||
  op == 0x12 || op == 0x15

/-- Operations that write z. -/
def vopWritesZ (op : Nat) : Bool := !(op == 0x10 || op == 0x11 || op == 0x12 || op == 0x14)

/-- Operations that write a record per row (R106). -/
def vopWritesRecord (op : Nat) : Bool := op == 0x10 || op == 0x11 || op == 0x12 || op == 0x14 || op == 0x18

/-- Operations that read an incoming record (R106); SMAX_STEP reads one unless `first`. -/
def vopReadsRecord (op : Nat) (first : Bool) : Bool := op == 0x15 || op == 0x19 || op == 0x1A || op == 0x1B || (op == 0x18 && !first)

/-- Cycles per chunk o (Tables 4.2 and 4.4). -/
def vopCycles (op fn fmtX fmtZ : Nat) : Nat :=
  match op with
  | 0x08 => if fn = 0 || fn = 1 || fn = 4 then 2 else 4
  | 0x09 => if fmtX = 0xF || fmtZ = 0xF then 4 else 1
  | 0x14 => 2
  | 0x18 => 2
  | 0x1B => 2
  | _ => 1

/-- The rows and columns of a word at issue (R86). -/
def VectorWord.rowsAt (w : VectorWord) (sreg : Nat → Nat) : Nat := if bit w.fromSreg 0 then sreg w.rSreg else w.rows
def VectorWord.colsAt (w : VectorWord) (sreg : Nat → Nat) : Nat := if bit w.fromSreg 1 then sreg w.cSreg else w.cols

/-- The cycle count V of R107 at a shape. -/
def VectorWord.cycles (w : VectorWord) (r c : Nat) : Nat :=
  let chunks := r * ceilDiv c 64
  let by4 (f : Nat) : Nat := ceilDiv (64 * (if f = 1 then 24 else fmtWidth f)) (8 * 256)
  let rdx := if w.xb then 0 else by4 w.fmtX
  let rd := rdx + (if vopReadsY w.op && w.pitchY != 0 then by4 w.fmtY else 0)
  let wr := if vopWritesZ w.op && !w.zb then by4 w.fmtZ else 0
  let q := Nat.max (Nat.max rd wr) (Nat.max (vopCycles w.op w.fn w.fmtX w.fmtZ) (if w.xb || w.zb then 1 else 0))
  24 + chunks * q + (if vopWritesRecord w.op then 8 else 0) + (if w.op = 0x18 then chunks * Nat.max rdx 1 else 0)

/-- The bank place of element (i, j) of a word in bank mode (R109, R110), at declared maximum. -/
def VectorWord.place (w : VectorWord) (i j : Nat) : Nat × Nat :=
  bankPlace (2 ^ w.la) (2 ^ w.lb) (ceilDiv w.cols 32) w.bank i j

/-- The banks a word in bank mode names (R110). -/
def VectorWord.namedBanks (w : VectorWord) : List Nat :=
  let p := ceilDiv (ceilDiv w.rows 32) (2 ^ w.la) * ceilDiv (ceilDiv w.cols 32) (2 ^ w.lb)
  (List.range (2 ^ w.la * 2 ^ w.lb)).flatMap fun arr => (span w.bank p).map (bankKey arr)

/-- The residence a word writing banks makes (R85, R109). -/
def VectorWord.ident (w : VectorWord) : BankIdent := ⟨2 ^ w.la, 2 ^ w.lb, 1, ceilDiv w.rows 32, ceilDiv w.cols 32⟩

/-- The conversion control that acts on a word's results: none where z goes to banks (Table 4.1). -/
def VectorWord.control (w : VectorWord) : Cvt := if w.zb then cvt0 else Cvt.ofByte w.cvt

/-- A lane value: FP32 bits with the saturations counted. -/
structure Lane where
  v : Nat
  sat : Nat
deriving DecidableEq, Repr

/-- Whether the word works in INT32 (R101): its x is an integer format. -/
def VectorWord.intWork (w : VectorWord) : Bool := isIntFmt w.fmtX

/-- A code converted exactly to the working format (R100, Table 1.5). -/
def toWork (isInt : Bool) (f c : Nat) : Nat := (convertElem f (if isInt then 0x9 else 0x0) c cvt0 0).code

/-- Element (i, j) of x as its own code and format. -/
def VectorWord.xCode (w : VectorWord) (st : Memory) (banks : Tbl Bank) (i j : Nat) : Nat :=
  if w.xb then bankWord banks (w.place i j) else readElem st w.fmtX (w.addrX + i * w.pitchX) j

/-- Element (i, j) of x in the working format. -/
def VectorWord.x (w : VectorWord) (st : Memory) (banks : Tbl Bank) (i j : Nat) : Nat :=
  toWork w.intWork w.fmtX (w.xCode st banks i j)

def VectorWord.yCode (w : VectorWord) (st : Memory) (i j : Nat) : Nat := readElem st w.fmtY (w.addrY + i * w.pitchY) j

/-- Element (i, j) of y in the working format. -/
def VectorWord.y (w : VectorWord) (st : Memory) (i j : Nat) : Nat := toWork w.intWork w.fmtY (w.yCode st i j)

/-- Word `k` of the incoming record of row `i` (Table 4.3). -/
def VectorWord.recIn (w : VectorWord) (st : Memory) (i k : Nat) : Nat := memNat st (w.addrSi + 16 * i + 4 * k) 4

/-- Whether element (i, j) is masked (R117). -/
def VectorWord.masked (w : VectorWord) (i j : Nat) : Bool := w.mask && decide ((i : Int) + i32 w.moff < (j : Int))

/-- LNS16 multiplication (R29): the product code and its saturation count. -/
def lnsMul (a b : Nat) : Lane :=
  if a = 0xC000 || b = 0xC000 then ⟨0xC000, 0⟩
  else if a = 0x4000 || b = 0x4000 then ⟨0x4000, 0⟩
  else
    let l := toSigned 15 a + toSigned 15 b
    let s := if xor (bit a 15) (bit b 15) then 0x8000 else 0
    if 16383 < l then ⟨s + 0x3FFF, 1⟩
    else if l < -16383 then ⟨0x4000, 0⟩
    else ⟨s + ofSigned 15 l, 0⟩

/-- An INT32 result with its saturation (R30, R101). -/
def laneInt (i : Int) : Lane := let r := satI32 i; ⟨u32 r.1, r.2⟩

/-- An elementwise operation on working values (Table 4.2). A SHIFT by more than 31 places, which the table bounds without a rejection, shifts by
`imm0` as given (DESIGN CHOICE, log entry 104). FUNC counts the saturation of its overflow (R115). -/
def vecOp (op : Nat) (isInt : Bool) (fn imm0 imm1 : Nat) (c : Cvt) (x y : Nat) : Lane :=
  let xi := i32 x
  let yi := i32 y
  match op with
  | 0x01 => if isInt then laneInt (xi + yi) else ⟨fadd x y, 0⟩
  | 0x02 => if isInt then laneInt (xi - yi) else ⟨fsub x y, 0⟩
  | 0x03 => if isInt then laneInt (xi * yi) else ⟨fmul x y, 0⟩
  | 0x04 => if isInt then ⟨if xi < yi then y else x, 0⟩ else ⟨fmax x y, 0⟩
  | 0x05 => if isInt then ⟨if yi < xi then y else x, 0⟩ else ⟨fmin x y, 0⟩
  | 0x06 => if isInt then laneInt (xi * i32 imm0 + i32 imm1) else ⟨ffma x imm0 imm1, 0⟩
  | 0x07 => if isInt then laneInt (i32 imm0 * xi + yi) else ⟨ffma imm0 x y, 0⟩
  | 0x08 => let r := sfuConv fn (fmul x imm0) c; ⟨r.code, r.sat⟩
  | 0x0B =>
    if isInt then ⟨b2n (decide (yi < xi)), 0⟩
    else ⟨if !isNan32 x && !isNan32 y && flt y x then 0x3F800000 else 0, 0⟩
  | 0x0C => ⟨x &&& y, 0⟩
  | 0x0D => ⟨x ||| y, 0⟩
  | 0x0E => ⟨x ^^^ y, 0⟩
  | 0x0F =>
    match i32 imm0 with
    | .ofNat k => laneInt (xi * 2 ^ k)
    | .negSucc k => ⟨u32 (xi / 2 ^ (k + 1)), 0⟩
  | _ => ⟨x, 0⟩

/-! ## Row reductions (R112, R113) -/

/-- The pairwise tree of R112 over 64 lanes: `k` halves from 32 to 1. -/
def laneTree {α : Type} (merge : α → α → α) : Nat → List (Option α) → List (Option α)
  | 0, l => l
  | n + 1, l =>
    let k := 2 ^ n
    let lo := l.take k
    let hi := (l.drop k).take k
    laneTree merge n ((lo.zip hi).map fun p =>
      match p.1, p.2 with
      | some a, some b => some (merge a b)
      | some a, none => some a
      | none, o => o)

/-- R112: one row reduced; `none` where the row is empty. -/
def rowReduce {α β : Type} (step : Option α → β → α) (merge : α → α → α) (xs : List β) : Option α :=
  let lanes := (List.range 64).map fun l =>
    (List.range (ceilDiv xs.length 64)).foldl (fun acc c =>
      match xs[64 * c + l]? with
      | some x => some (step acc x)
      | none => acc) (none : Option α)
  match laneTree merge 6 lanes with
  | r :: _ => r
  | [] => none

def addLane (isInt : Bool) (a b : Lane) : Lane :=
  if isInt then let r := laneInt (i32 a.v + i32 b.v); ⟨r.v, a.sat + b.sat + r.sat⟩ else ⟨fadd a.v b.v, 0⟩

/-- The fixed-order sum of a row. -/
def rowSum (isInt : Bool) (xs : List Nat) : Lane :=
  (rowReduce (fun a x => match a with | some l => addLane isInt l ⟨x, 0⟩ | none => ⟨x, 0⟩) (addLane isInt) xs).getD ⟨0, 0⟩

/-- The maximum of a row; `none` where it is empty. -/
def rowMax (isInt : Bool) (xs : List Nat) : Option Nat :=
  let mx (a b : Nat) : Nat := if isInt then (if i32 a < i32 b then b else a) else fmax a b
  rowReduce (fun a x => match a with | some l => mx l x | none => (if !isInt && isNan32 x then fnan else x)) mx xs

/-- A Welford triple (R113). -/
structure Welford where
  n : Nat
  mean : Nat
  m2 : Nat
deriving DecidableEq, Repr

/-- One element into a lane (R113). -/
def welfordStep (rms : Bool) (o : Option Welford) (x : Nat) : Welford :=
  let t := o.getD ⟨0, 0, 0⟩
  let n := t.n + 1
  if rms then ⟨n, 0, fadd t.m2 (fmul x x)⟩
  else
    let d := fsub x t.mean
    let mean := fadd t.mean (fdiv d (fofNat n))
    ⟨n, mean, fadd t.m2 (fmul d (fsub x mean))⟩

/-- Lane b into lane a, both non-empty (R113). -/
def welfordMerge (a b : Welford) : Welford :=
  let n := a.n + b.n
  let d := fsub b.mean a.mean
  let na := fofNat a.n
  let nb := fofNat b.n
  let nf := fofNat n
  ⟨n, fadd a.mean (fdiv (fmul d nb) nf),
   fadd (fadd a.m2 b.m2) (fdiv (fmul (fmul (fmul d d) na) nb) nf)⟩

/-- The MEANVAR record of a row (R113, Table 4.3). -/
def meanVar (rms : Bool) (eps : Nat) (c : Cvt) (xs : List Nat) : List Nat :=
  let t := (rowReduce (welfordStep rms) welfordMerge xs).getD ⟨0, 0, 0⟩
  let var := fdiv t.m2 (fofNat t.n)
  [if rms then 0 else t.mean, sfu 0x5 (fadd var eps) c, var, t.n]

/-- The bytes of a record (Table 4.3). -/
def recordBytes (ws : List Nat) : List Byte := ws.flatMap (leBytes 4)

def negInf : Nat := 0xFF800000

/-- One row's result: the values of z before the output conversion, their codes in the format banks hold, the record, the saturations of the
operation, and what the conversion of CONVERT into that format counts (R34, R35). -/
structure RowRes where
  z : List XVal
  work : List Nat
  record : List Nat
  sat : Nat
  workSat : Nat
  workNan : Nat
deriving DecidableEq, Repr

/-- Whether z is produced as INT32. -/
def VectorWord.intResult (w : VectorWord) : Bool :=
  if w.op = 0x09 then isIntFmt w.fmtZ else w.intWork

/-- R118: one row of SMAX_STEP. -/
def VectorWord.smaxStep (w : VectorWord) (st : Memory) (banks : Tbl Bank) (i c : Nat) : RowRes :=
  let cv := w.control
  let m0 := if w.first then negInf else w.recIn st i 0
  let l0 := if w.first then 0 else w.recIn st i 1
  let js := List.range c
  let s (j : Nat) : Nat := fmul (w.x st banks i j) w.imm0
  let open_ := js.filter fun j => !(w.masked i j)
  let mx := (rowMax false (open_.map s)).getD negInf
  let m1 := fmax m0 mx
  let cc := if m1 = negInf then 0x3F800000 else sfu 0 (fsub m0 m1) cv
  let p (j : Nat) : Nat := if w.masked i j || m1 = negInf then 0 else sfu 0 (fsub (s j) m1) cv
  let l1 := ffma l0 cc (rowSum false (open_.map p)).v
  let ps := js.map p
  ⟨ps.map x32, ps, [m1, l1, cc, 0], 0, 0, 0⟩

/-- One row of any operation (Table 4.2). `draw j` is the draw of element `j`, which LNS16 to an integer uses in both of its steps (Table 1.5). -/
def VectorWord.row (w : VectorWord) (st : Memory) (banks : Tbl Bank) (draw : Nat → Nat) (i c : Nat) : RowRes :=
  let cv := w.control
  let js := List.range c
  let x := w.x st banks i
  let y := w.y st i
  let elem (f : Nat → Nat) : RowRes := let vs := js.map f; ⟨vs.map (accX w.intWork), vs, [], 0, 0, 0⟩
  match w.op with
  | 0x09 =>
    let vs := js.map fun j => w.xCode st banks i j
    let ks := vs.map fun v => convertElem w.fmtX w.fmtZ v cvt0 0
    ⟨vs.zipIdx.map fun p => if isLnsFmt w.fmtX && isIntFmt w.fmtZ then x32 (convertElem 0xF 0x0 p.1 cv (draw p.2)).code else decodeElem w.fmtX p.1,
     ks.map (·.code), [], 0, sumNat (ks.map (·.sat)), sumNat (ks.map (·.nan))⟩
  | 0x0A =>
    let vs := js.map fun j => lnsMul (w.xCode st banks i j) (w.yCode st i j)
    ⟨vs.map fun v => decodeElem 0xF v.v, vs.map (·.v), [], sumNat (vs.map (·.sat)), 0, 0⟩
  | 0x10 => let l := rowSum w.intWork (js.map x); ⟨[], [], [l.v, 0, 0, 0], l.sat, 0, 0⟩
  | 0x11 => ⟨[], [], [(rowMax w.intWork (js.map x)).getD 0, 0, 0, 0], 0, 0, 0⟩
  | 0x12 => let l := rowSum false (js.map fun j => fmul (x j) (y j)); ⟨[], [], [l.v, 0, 0, 0], 0, 0, 0⟩
  | 0x14 => ⟨[], [], meanVar w.rms w.imm0 cv (js.map x), 0, 0, 0⟩
  | 0x15 =>
    let mean := w.recIn st i 0
    let rstd := w.recIn st i 1
    elem fun j => ffma (fmul (fsub (x j) mean) rstd) (y j) (toWork false w.fmtY (readElem st w.fmtY w.addrW j))
  | 0x18 => w.smaxStep st banks i c
  | 0x19 => elem fun j => fmul (x j) (w.recIn st i 2)
  | 0x1A => elem fun j => if isZero32 (w.recIn st i 1) then 0 else fdiv (x j) (w.recIn st i 1)
  | 0x1B =>
    let m := w.recIn st i 0
    let l := w.recIn st i 1
    elem fun j => if w.masked i j || isZero32 l then 0 else fdiv (sfu 0 (fsub (fmul (x j) w.imm0) m) cv) l
  | op =>
    let vs := js.map fun j => vecOp op w.intWork w.fn w.imm0 w.imm1 cv (x j) (if vopReadsY op then y j else 0)
    ⟨vs.map fun v => accX w.intWork v.v, vs.map (·.v), [], sumNat (vs.map (·.sat)), 0, 0⟩

/-- Operations whose saturations are those of a conversion (R29, R35, R115), and not of an INT32 addition (R30). -/
def vopCvtSat (op : Nat) : Bool := op == 0x08 || op == 0x0A

/-- The whole word over `r` rows and `c` columns (R103 to R119): store writes, bank words and counts. A `bscale` in `cvt` acts on nothing, for the
word has no field for a scale tensor (DESIGN CHOICE, log entry 104). -/
def VectorWord.run (w : VectorWord) (cvt : Nat) (st : Memory) (banks : Tbl Bank) (r c seed step : Nat) : TileOut :=
  if r = 0 || c = 0 then TileOut.none
  else
    let cv := Cvt.ofByte cvt
    let outs := (List.range r).map fun i =>
      let draw := fun j => srDraw seed w.tag (i * w.cols + j) step
      let o := w.row st banks (fun j => if cv.rnd = 2 then draw j else 0) i c
      let accSat := if vopCvtSat w.op then 0 else o.sat
      let opSat := if vopCvtSat w.op then o.sat else 0
      let recs := if vopWritesRecord w.op then [(w.addrSo + 16 * i, recordBytes o.record)] else []
      if !(vopWritesZ w.op) then (⟨recs, [], o.sat, 0, 0⟩ : TileOut)
      else if w.zb then
        ⟨recs, o.work.zipIdx.map fun p => (w.place i p.2, p.1), accSat, opSat + o.workSat, o.workNan⟩
      else
        let z := writeRow w.fmtZ { cv with bscale := 0 } 0 (w.addrZ + i * w.pitchZ) 0 draw o.z
        ⟨z.writes ++ recs, [], accSat, z.sat + opSat, z.nan⟩
    ⟨outs.flatMap (·.writes), outs.flatMap (·.banks), sumNat (outs.map (·.accSat)),
     sumNat (outs.map (·.cvtSat)), sumNat (outs.map (·.nanDrop))⟩

/-- R87: whether a shape read at issue breaks the declared maximum or the packing rule. -/
def VectorWord.shapeBound (w : VectorWord) (r c : Nat) : Bool :=
  decide (w.rows < r) || decide (w.cols < c) ||
  (!w.xb && !(rowWhole w.fmtX c)) || (vopReadsY w.op && !(rowWhole w.fmtY c)) ||
  (vopWritesZ w.op && !w.zb && !(rowWhole w.fmtZ c))

end Sys2Proof.Machine
end

