-- ==== Sys2Proof/Machine/Loader.lean ====
section
/-! DEFINITION. The loader (R97 to R99, R548, R152, R355): the Gnoyth image (Tables 3.1, 3.2), every check of Table 3.8 in its order, and the rejection it reports. A pure function of the image bytes and of what the job start gives it. -/

namespace Sys2Proof.Machine

/-- One itinerary word by kind (Table 3.3). -/
inductive Word where
  | matrix (w : MatrixWord)
  | vector (w : VectorWord)
  | move (w : MoveWord)
  | sync (w : SyncWord)
  | shape (w : ShapeWord)
  | unfold (w : UnfoldWord)
deriving DecidableEq, Repr

/-- The length of a word by its kind code; 0 for a reserved kind (Table 3.3). -/
def wordLen (kind : Nat) : Nat :=
  match kind with
  | 1 => 96 | 2 => 64 | 3 => 64 | 4 => 32 | 5 => 32 | 6 => 64
  | _ => 0

/-- The word of a kind from its little-endian bytes. -/
def Word.ofNat (kind w : Nat) : Option Word :=
  match kind with
  | 1 => some (.matrix (MatrixWord.ofNat w))
  | 2 => some (.vector (VectorWord.ofNat w))
  | 3 => some (.move (MoveWord.ofNat w))
  | 4 => some (.sync (SyncWord.ofNat w))
  | 5 => some (.shape (ShapeWord.ofNat w))
  | 6 => some (.unfold (UnfoldWord.ofNat w))
  | _ => none

/-- The word that starts at an address, with its length; none for a reserved kind. -/
def fetchWord (m : Memory) (a : Nat) : Option (Word × Nat) :=
  let kind := memNat m a 1
  match Word.ofNat kind (memNat m a (wordLen kind)) with
  | some w => some (w, wordLen kind)
  | none => none

/-- Whether a word waits for every earlier word: `dep`, and STEP_BARRIER and SET always (R79). -/
def Word.waits : Word → Bool
  | .matrix w => w.dep
  | .vector w => w.dep
  | .move w => w.dep
  | .sync w => w.dep || w.op == 0 || w.op == 1
  | .shape w => w.dep
  | .unfold w => w.dep

/-- The shape registers a word names (R86). -/
def Word.sregs : Word → List Nat
  | .matrix w =>
    (if bit w.fromSreg 0 then [w.mSreg] else []) ++ (if bit w.fromSreg 1 then [w.nSreg] else []) ++
    (if bit w.fromSreg 2 then [w.kSreg] else []) ++ (if bit w.fromSreg 3 then [w.gSreg] else [])
  | .vector w => (if bit w.fromSreg 0 then [w.rSreg] else []) ++ (if bit w.fromSreg 1 then [w.cSreg] else [])
  | _ => []

/-! ## Manifest and entries -/

/-- The manifest (Table 3.1). -/
structure Manifest where
  magic : Nat
  verMinor : Nat
  verMajor : Nat
  variant : Nat
  flags : Nat
  devices : Nat
  rank : Nat
  entries : Nat
  barriers : Nat
  length : Nat
  digest : List Byte
  rsvdOk : Bool
deriving DecidableEq, Repr

def Manifest.read (m : Memory) (a : Nat) : Manifest :=
  { magic := memNat m a 4, verMinor := memNat m (a + 4) 1, verMajor := memNat m (a + 5) 1,
    variant := memNat m (a + 6) 1, flags := memNat m (a + 7) 1, devices := memNat m (a + 8) 4,
    rank := memNat m (a + 12) 4, entries := memNat m (a + 16) 2, barriers := memNat m (a + 18) 2,
    length := memNat m (a + 20) 4, digest := memReadN m (a + 64) 48,
    rsvdOk := memNat m (a + 24) 40 == 0 && memNat m (a + 112) 16 == 0 }

/-- An itinerary entry (Table 3.2). -/
structure Entry where
  core : Nat
  coreRsvd : Nat
  eflags : Nat
  proOff : Nat
  proLen : Nat
  bodyOff : Nat
  bodyLen : Nat
  dataBytes : Nat
  commonBytes : Nat
  rsvd : Nat
deriving DecidableEq, Repr

def Entry.read (m : Memory) (a : Nat) : Entry :=
  let c := memNat m a 2
  { core := c % 256, coreRsvd := c / 256, eflags := memNat m (a + 2) 2, proOff := memNat m (a + 4) 4,
    proLen := memNat m (a + 8) 4, bodyOff := memNat m (a + 12) 4, bodyLen := memNat m (a + 16) 4,
    dataBytes := memNat m (a + 20) 4, commonBytes := memNat m (a + 24) 4, rsvd := memNat m (a + 28) 4 }

/-- The die and the logical core of a core code (Table 3.5). -/
def coreDie (c : Nat) : Nat := c / 128
def coreIdx (c : Nat) : Nat := c % 128
/-- Whether a logical core is a deep-store core (Table 0.2). -/
def coreDeep (c : Nat) : Bool := decide (coreIdx c < 8)
/-- The store size of a logical core (Table 2.1). -/
def storeSize (c : Nat) : Nat := if coreDeep c then 0x1000000 else 0x600000
/-- The largest `data_bytes` of a logical core (R77). -/
def dataLimit (c : Nat) : Nat := if coreDeep c then 16646144 else 6160384

/-- What the job start gives the loader. -/
structure LoadEnv where
  variant : Nat
  devices : Nat
  rank : Nat
  /-- The room's core grant masks (R331). -/
  mask0 : Nat
  mask1 : Nat
  /-- The room's common-store grant in bytes on each die. -/
  common0 : Nat
  common1 : Nat
  /-- `data_bytes` of the contexts other rooms hold resident, by core code (R355). -/
  resident : Tbl (List Nat)
deriving DecidableEq, Repr

def LoadEnv.granted (e : LoadEnv) (c : Nat) : Bool := decide (coreIdx c < 64) && bit (if coreDie c = 0 then e.mask0 else e.mask1) (coreIdx c)
def LoadEnv.common (e : LoadEnv) (c : Nat) : Nat := if coreDie c = 0 then e.common0 else e.common1

/-- A rejection: detail code, core field, slot (R97). -/
structure Reject where
  code : Nat
  core : Nat
  slot : Nat
deriving DecidableEq, Repr

def noSlot : Nat := 0xFFFFFFFF

/-- A word with its slot; `none` where its kind is reserved. A word that the end of its part cuts off (`cut`) is read from the bytes it has. -/
structure Placed where
  slot : Nat
  kind : Nat
  word : Option Word
  cut : Bool
deriving DecidableEq, Repr

/-- The words of one part of an itinerary, in order, from offset `o` of `len` bytes at `base`. -/
def placeWords (m : Memory) (base len slot0 : Nat) : Nat → Nat → List Placed
  | 0, _ => []
  | fuel + 1, o =>
    if len ≤ o then []
    else
      let kind := memNat m (base + o) 1
      let l := wordLen kind
      let slot := slot0 + o / 32
      if l = 0 then [⟨slot, kind, none, false⟩]
      else if len < o + l then [⟨slot, kind, Word.ofNat kind (memNat m (base + o) (len - o)), true⟩]
      else
        ⟨slot, kind, (Word.ofNat kind (memNat m (base + o) l)), false⟩ :: placeWords m base len slot0 fuel (o + l)

/-- An entry with its placed words. -/
structure Itin where
  e : Entry
  pro : List Placed
  body : List Placed
deriving DecidableEq, Repr

def Itin.read (m : Memory) (base : Nat) (e : Entry) : Itin :=
  ⟨e, placeWords m (base + e.proOff) e.proLen 0 (e.proLen / 32) 0,
   placeWords m (base + e.bodyOff) e.bodyLen (e.proLen / 32) (e.bodyLen / 32) 0⟩

/-- The decoded words of a part, with their slots. -/
def placedWords (l : List Placed) : List (Nat × Word) := l.filterMap fun p => p.word.map fun w => (p.slot, w)

/-! ## Extents (R99) -/

/-- Rows of bytes in a space: 0 own store, 1 common store, 2 a peer's store (`key` the peer), 3 device memory, 4 banks. -/
structure Ext where
  sp : Nat
  key : Nat
  addr : Nat
  len : Nat
  rows : Nat
  pitch : Nat
  groups : Nat
  gs : Nat
deriving DecidableEq, Repr

def Ext.flat (sp key addr len : Nat) : Ext := ⟨sp, key, addr, len, 1, 0, 1, 0⟩

/-- The byte runs of an extent. -/
def Ext.runs (x : Ext) : List (Nat × Nat) :=
  (List.range x.groups).flatMap fun q => (List.range x.rows).map fun i => (x.addr + q * x.gs + i * x.pitch, x.len)

/-- The first byte after an extent. -/
def Ext.top (x : Ext) : Nat := x.addr + (x.groups - 1) * x.gs + (x.rows - 1) * x.pitch + x.len

/-- An extent as its own core sees it: a store named as a peer's that is the core's own is the own store (R99). -/
def Ext.onCore (core : Nat) (x : Ext) : Ext := if x.sp = 2 ∧ x.key = core then { x with sp := 0, key := 0 } else x

def Ext.hits (x y : Ext) : Bool :=
  x.sp == y.sp && x.key == y.key && x.runs.any fun r => y.runs.any fun t => overlaps r.1 r.2 t.1 t.2

/-- The extents a MATRIX word reads in the store (R83, R41). -/
def MatrixWord.reads (w : MatrixWord) : List Ext :=
  let a : Ext := ⟨0, 0, w.addrA, rowBytesOf w.fmtA (if w.ta then w.m else w.k), if w.ta then w.k else w.m, w.pitchA, w.groups, w.gsA⟩
  let b : Ext := ⟨0, 0, w.addrB, rowBytesOf w.fmtB (if w.tb then w.k else w.n), if w.tb then w.n else w.k, w.pitchB, w.groups, w.gsB⟩
  let i : List Ext := if w.init = 2 then [⟨0, 0, w.addrI, rowBytesOf w.fmtC w.n, w.m, w.pitchI, w.groups, w.gsI⟩] else []
  let len := blockLen w.bscaleIn
  let sc : List Ext := if w.bscaleIn = 0 then [] else
    [Ext.flat 0 0 w.addrSa (w.m * ceilDiv w.k len * (if w.gsA = 0 then 1 else w.groups)),
     Ext.flat 0 0 w.addrSb (w.n * ceilDiv w.k len * (if w.gsB = 0 then 1 else w.groups))]
  a :: b :: (i ++ sc)

/-- The extents a MATRIX word writes in the store. -/
def MatrixWord.writes (w : MatrixWord) : List Ext :=
  if w.result = 1 then []
  else
    let c : Ext := ⟨0, 0, w.addrC, rowBytesOf w.fmtC w.n, w.m, w.pitchC, w.groups, w.gsC⟩
    let bs := (Cvt.ofByte w.cvt).bscale
    c :: (if bs = 0 then [] else [Ext.flat 0 0 w.addrSc (w.m * ceilDiv w.n (blockLen bs) * (if w.gsC = 0 then 1 else w.groups))])

/-- The bank extents of a list of bank keys (R104). -/
def bankExts (l : List Nat) : List Ext := l.map fun k => Ext.flat 4 0 k 1

/-- The extents a VECTOR word reads and writes in the store. -/
def VectorWord.reads (w : VectorWord) : List Ext :=
  (if w.xb then [] else [⟨0, 0, w.addrX, rowBytesOf w.fmtX w.cols, w.rows, w.pitchX, 1, 0⟩]) ++
  (if vopReadsY w.op then [⟨0, 0, w.addrY, rowBytesOf w.fmtY w.cols, if w.pitchY = 0 then 1 else w.rows, w.pitchY, 1, 0⟩] else []) ++
  (if w.op = 0x15 then [Ext.flat 0 0 w.addrW (rowBytesOf w.fmtY w.cols)] else []) ++
  (if vopReadsRecord w.op w.first then [Ext.flat 0 0 w.addrSi (16 * w.rows)] else [])
def VectorWord.writes (w : VectorWord) : List Ext :=
  (if vopWritesZ w.op && !w.zb then [⟨0, 0, w.addrZ, rowBytesOf w.fmtZ w.cols, w.rows, w.pitchZ, 1, 0⟩] else []) ++
  (if vopWritesRecord w.op then [Ext.flat 0 0 w.addrSo (16 * w.rows)] else [])

/-- The extents of a MOVE. -/
def MoveWord.srcExt (w : MoveWord) : Ext := ⟨w.srcSp, if w.srcSp = 2 then w.peer else 0, w.src, w.rowBytes, w.rows, w.srcPitch, 1, 0⟩
def MoveWord.dstExt (w : MoveWord) : Ext := ⟨w.dstSp, if w.dstSp = 2 then w.peer else 0, w.dst, w.rowBytes, w.rows, w.dstPitch, 1, 0⟩

/-- The held input and the expanded buffer of an UNFOLD word (R152). -/
def UnfoldWord.readExt (w : UnfoldWord) : Ext :=
  ⟨0, 0, w.addrX, w.bytes (w.iw * (match w.layout with | 0 => w.c | 1 => 1 | _ => 32)), w.ih, w.pitchX,
   (match w.layout with | 0 => 1 | 1 => w.c | _ => ceilDiv w.c 32), w.planeX⟩
def UnfoldWord.writeExt (w : UnfoldWord) : Ext := ⟨0, 0, w.addrZ, w.rowLen, w.oh * w.ow, w.pitchZ, 1, 0⟩

def Word.reads : Word → List Ext
  | .matrix w => w.reads ++ (if w.init = 1 then bankExts w.namedBanks else [])
  | .vector w => w.reads ++ (if w.xb then bankExts w.namedBanks else [])
  | .move w => [w.srcExt]
  | .shape w => if w.src = 1 then [Ext.flat 0 0 w.operand 4] else []
  | .unfold w => [w.readExt]
  | .sync _ => []

def Word.writes : Word → List Ext
  | .matrix w => w.writes ++ (if w.bankNaming then bankExts w.namedBanks else [])
  | .vector w => w.writes ++ (if w.zb || (w.xb && !w.keep) then bankExts w.namedBanks else [])
  | .move w => [w.dstExt]
  | .unfold w => [w.writeExt]
  | .shape w => [Ext.flat 5 0 w.sreg 1]
  | .sync _ => []

/-- R99: whether a later word `w` of a core reads or writes what an earlier `v` writes. -/
def conflict (core : Nat) (v w : Word) : Bool :=
  v.writes.any fun x => (w.reads ++ w.writes).any fun y => (x.onCore core).hits (y.onCore core)

/-- R99: whether `w` writes what `v` reads. -/
def conflictRead (core : Nat) (v w : Word) : Bool := v.reads.any fun x => w.writes.any fun y => (x.onCore core).hits (y.onCore core)

/-! ## Word checks (Table 3.8, BAD_KIND to WAIVER, then R152) -/

/-- What a word check needs beside the word. -/
structure WordEnv where
  dataBytes : Nat
  commonBytes : Nat
  /-- `data_bytes` of every entry by core code. -/
  peers : Tbl Nat
  waiveUadd : Bool
  /-- Shape registers written by an earlier SHAPE word. -/
  written : List Nat
  /-- Free banks at the word: the fewest free on any array of its plan. -/
  free : Nat
deriving DecidableEq, Repr

def matrixOperandOk (f : Nat) : Bool := [0x0, 0x1, 0x2, 0x3, 0x4, 0x5, 0x6, 0x7, 0x8, 0xB, 0xC, 0xE].contains f

/-- The element formats of a block-scale code (Table 1.7). -/
def blockFmtOk (code f : Nat) : Bool :=
  if code = 1 then [0x4, 0x5, 0x6, 0x7, 0x8, 0xB].contains f else [0x6, 0x7, 0x8].contains f

def extBound (e : WordEnv) (x : Ext) : Bool :=
  match x.sp with
  | 0 => decide (x.top ≤ e.dataBytes)
  | 1 => decide (x.top ≤ e.commonBytes)
  | 2 => decide (x.top ≤ tget 0 e.peers x.key)
  | _ => true

/-- Whether two groups' output extents of a fold overlap (R89). -/
def foldOverlap (w : MatrixWord) : Bool :=
  w.writes.take 1 |>.any fun x =>
    (List.range w.groups).any fun p => (List.range p).any fun q =>
      Ext.hits { x with groups := 1, addr := x.addr + p * x.gs } { x with groups := 1, addr := x.addr + q * x.gs }

/-- The multiple that a pitch of a format keeps (R84). -/
def pitchUnit (f : Nat) : Nat := if fmtWidth f = 6 then 96 else 32

/-- The first failing check of a MATRIX word. -/
def matrixCheck (e : WordEnv) (w : MatrixWord) : Option Nat :=
  let c := Cvt.ofByte w.cvt
  let reserved := !w.rsvdOk || w.init == 3 || w.result == 3 || w.bscaleIn == 3 || !(cvtByteOk w.cvt) ||
    (w.f19 && w.fmtA != 0 && w.fmtB != 0) ||
    (w.init != 2 && (w.addrI != 0 || w.pitchI != 0 || w.gsI != 0)) ||
    (w.bscaleIn == 0 && (w.addrSa != 0 || w.addrSb != 0)) || (c.bscale == 0 && w.addrSc != 0) ||
    (w.bscaleIn != 2 && (w.tA != 0 || w.tB != 0)) || (c.bscale != 2 && w.tC != 0)
  let role := !(matrixOperandOk w.fmtA) || !(matrixOperandOk w.fmtB) || w.fmtC == 0xF
  let mix := (isFloatFmt w.fmtA != isFloatFmt w.fmtB) ||
    (w.init == 2 && (if w.isIntTile then !(isIntFmt w.fmtC) else !(isFloatFmt w.fmtC)))
  let plan := decide (8 < w.a * w.b * w.s) || (decide (1 < w.s) && decide (w.k ≤ (w.s - 1) * w.kq w.k))
  let block := (w.bscaleIn != 0 && (!(blockFmtOk w.bscaleIn w.fmtA) || !(blockFmtOk w.bscaleIn w.fmtB) || w.k % blockLen w.bscaleIn != 0)) ||
    (c.bscale != 0 && !(blockFmtOk c.bscale w.fmtC))
  let packing := !(rowWhole w.fmtA (if w.ta then w.m else w.k)) || !(rowWhole w.fmtB (if w.tb then w.k else w.n)) ||
    ((w.result != 1 || w.init == 2) && !(rowWhole w.fmtC w.n))
  let shape := w.m == 0 || w.n == 0 || w.k == 0 || w.groups == 0 || (Word.matrix w).sregs.any fun r => !(e.written.contains r)
  let fold := decide (1 < w.groups) && ((w.gsA == 0 && w.gsB == 0) || foldOverlap w)
  let pit (f p : Nat) : Bool := p % pitchUnit f != 0
  let align := [w.addrA, w.addrB, w.addrC, w.addrI, w.gsA, w.gsB, w.gsC, w.gsI].any (fun x => x % 64 != 0) ||
    pit w.fmtA w.pitchA || pit w.fmtB w.pitchB || pit w.fmtC w.pitchC || pit w.fmtC w.pitchI ||
    [w.addrSa, w.addrSb, w.addrSc].any (fun x => x % 16 != 0)
  let bound := (w.reads ++ w.writes).any fun x => !(extBound e x)
  let self := w.writes.any fun x => w.reads.any fun y => x.hits y
  let dur := decide (25600 < w.cycles w.decl (if w.bankNaming then 4 else Nat.max e.free 1) + 21)
  firstSome (fun p : Bool × Nat => if p.1 then some p.2 else none)
    [(reserved, 0x111), (role, 0x113), (mix, 0x114), (plan, 0x115), (block, 0x116), (packing, 0x117), (shape, 0x118),
     (fold, 0x119), (align, 0x11A), (bound, 0x11B), (self, 0x11C), (dur, 0x11E)]

def vopFloatOnly (op : Nat) : Bool := op == 0x08 || op == 0x12 || op == 0x14 || op == 0x15 || op == 0x18 || op == 0x19 || op == 0x1A || op == 0x1B
def vopIntOnly (op : Nat) : Bool := op == 0x0C || op == 0x0D || op == 0x0E || op == 0x0F

/-- Whether a VECTOR word's formats stand in roles that Table 1.3 and Table 4.2 allow (R27, R105, R109): FUNC is held to the SFU's column, LNSMUL to
LNS16, which no other operation but CONVERT takes. A Float or an integer operation whose formats are all of the other class, and a `fmt_z` with `zb`
that is neither FP32 nor INT32, are counted here too (DESIGN CHOICE, log entry 104). -/
def VectorWord.roleBad (w : VectorWord) (fs : List Nat) : Bool :=
  (w.xb && !(w.fmtX == 0 || w.fmtX == 9)) || (w.zb && !(w.fmtZ == 0 || w.fmtZ == 9)) ||
    (if w.op = 0x0A then fs.any (fun f => f != 0xF) else w.op != 0x09 && fs.any isLnsFmt) ||
    (w.op == 0x08 && fs.any fun f => !(f == 0 || f == 2 || f == 3)) ||
    (vopFloatOnly w.op && fs.all isIntFmt) || (vopIntOnly w.op && fs.all isFloatFmt)

/-- The first failing check of a VECTOR word. -/
def vectorCheck (e : WordEnv) (w : VectorWord) : Option Nat :=
  let y := vopReadsY w.op
  let z := vopWritesZ w.op
  let reserved := !w.rsvdOk || !(vopListed w.op) || (!w.zb && !(cvtByteOk w.cvt)) ||
    (if w.op = 8 then decide (0xE ≤ w.fn) else w.fn != 0) ||
    (w.xb && w.addrX != 0) || (!y && w.addrY != 0) || (w.op != 0x15 && w.addrW != 0) ||
    ((w.zb || !z) && w.addrZ != 0) || (!(vopReadsRecord w.op w.first) && w.addrSi != 0) ||
    (!(vopWritesRecord w.op) && w.addrSo != 0) || (!w.mask && w.moff != 0) || (w.op == 0x15 && w.pitchY != 0)
  let fs := [w.fmtX] ++ (if y then [w.fmtY] else []) ++ (if z then [w.fmtZ] else [])
  let role := w.roleBad fs
  let mix := w.op != 0x09 && w.op != 0x0A && fs.any isIntFmt && fs.any isFloatFmt
  let plan := (w.xb || w.zb) && decide (8 < 2 ^ w.la * 2 ^ w.lb)
  let packing := fs.any fun f => !(rowWhole f w.cols)
  let shape := w.rows == 0 || w.cols == 0 || (Word.vector w).sregs.any fun r => !(e.written.contains r)
  let align := [w.addrX, w.addrY, w.addrW, w.addrZ].any (fun x => x % 64 != 0) ||
    w.pitchX % (if w.xb then 32 else pitchUnit w.fmtX) != 0 || w.pitchY % (if y then pitchUnit w.fmtY else 32) != 0 ||
    w.pitchZ % (if z && !w.zb then pitchUnit w.fmtZ else 32) != 0 || w.addrSi % 16 != 0 || w.addrSo % 16 != 0
  let bound := (w.reads ++ w.writes).any fun x => !(extBound e x)
  let self := w.writes.any fun x => w.reads.any fun y => x.hits y
  let dur := decide (25600 < w.cycles w.rows w.cols)
  firstSome (fun p : Bool × Nat => if p.1 then some p.2 else none)
    [(reserved, 0x111), (role, 0x113), (mix, 0x114), (plan, 0x115), (packing, 0x117), (shape, 0x118),
     (align, 0x11A), (bound, 0x11B), (self, 0x11C), (dur, 0x11E)]

/-- The first failing check of a MOVE word. -/
def moveCheck (e : WordEnv) (w : MoveWord) : Option Nat :=
  let reserved := !w.rsvdOk || decide (3 < w.srcSp) || decide (3 < w.dstSp) ||
    (if w.uadd then !([0, 2, 9].contains w.afmt) || w.dstSp != 3 else w.afmt != 0)
  let bound := !(extBound e w.srcExt) || !(extBound e w.dstExt)
  let shape := w.rowBytes % 32 != 0 || decide (w.rowBytes < 32) || w.rows == 0 || decide (4194304 < w.rowBytes * w.rows) ||
    w.srcPitch % 32 != 0 || w.dstPitch % 32 != 0 ||
    (decide (1 < w.rows) && (decide (w.srcPitch < w.rowBytes) || decide (w.dstPitch < w.rowBytes)))
  let waiver := w.uadd && !e.waiveUadd
  firstSome (fun p : Bool × Nat => if p.1 then some p.2 else none)
    [(reserved, 0x111), (bound, 0x11B), (decide (4194304 < w.rowBytes * w.rows), 0x11E), (shape, 0x11F), (waiver, 0x120)]

/-- The first failing check of a SHAPE word. A source 2 with an argument index above 7 is a reserved value (DESIGN CHOICE, log entry 105). -/
def shapeCheck (e : WordEnv) (w : ShapeWord) : Option Nat :=
  if !w.rsvdOk || decide (2 < w.src) || (w.src == 2 && decide (7 < w.operand)) then some 0x111
  else if w.src == 1 && w.operand % 4 != 0 then some 0x11A
  else if w.src == 1 && decide (e.dataBytes < w.operand + 4) then some 0x11B
  else none

/-- The first failing check of a SYNC word. -/
def syncCheck (w : SyncWord) : Option Nat :=
  if !w.rsvdOk || decide (2 < w.op) || (w.op != 1 && w.peer != 0) ||
     (if w.op = 0 then w.value != 0 else w.value == 0 || decide (65535 < w.value)) then some 0x111
  else none

/-- The first failing check of an UNFOLD word (R147 to R153). -/
def unfoldCheck (e : WordEnv) (w : UnfoldWord) : Option Nat :=
  firstSome (fun p : Bool × Nat => if p.1 then some p.2 else none)
    [(!w.rsvdOk || decide (2 < w.layout), 0x111), (!w.fmtOk, 0x113),
     (w.addrX % 64 != 0 || w.pitchX % 32 != 0 || w.planeX % 64 != 0 || w.addrZ % 64 != 0 || w.pitchZ % 64 != 0, 0x11A),
     (!(extBound e w.readExt) || !(extBound e w.writeExt), 0x11B),
     (w.writeExt.hits w.readExt, 0x11C),
     (decide (25600 < w.cycles), 0x11E),
     (w.badGeometry, 0x124), (w.badHalo, 0x125)]

/-- The first failing check of a whole word by its kind; RESERVED_VALUE is the first of each. -/
def Word.check (e : WordEnv) : Word → Option Nat
  | .matrix w => matrixCheck e w
  | .vector w => vectorCheck e w
  | .move w => moveCheck e w
  | .sync w => syncCheck w
  | .shape w => shapeCheck e w
  | .unfold w => unfoldCheck e w

/-- The first failing check of a word in the order of Table 3.8: BAD_KIND, RESERVED_VALUE over the bytes it has, WORD_BOUNDS, the rest. -/
def wordCheck (e : WordEnv) (p : Placed) : Option Nat :=
  match p.word with
  | none => some 0x110
  | some w => if p.cut && w.check e != some 0x111 then some 0x112 else w.check e

/-! ## Bank tracking (R85, R109) -/

/-- The loader's view of the banks: the residence of each resident bank key, and whether its words are INT32 (R85, R109). -/
abbrev BankMap := Tbl (BankIdent × Bool)

/-- The fewest free banks on any array of a plan of `n` arrays. -/
def freeBanks (b : BankMap) (n : Nat) : Nat :=
  minNat 4 ((List.range n).map fun a => ((List.range 4).filter fun k => (tfind b (bankKey a k)).isNone).length)

def setBanks (b : BankMap) (ks : List Nat) (v : Option (BankIdent × Bool)) : BankMap :=
  ks.foldl (fun m k => match v with | some i => tset m k i | none => tdel m k) b

/-- The state after a word, or none where the word breaks R85 or R109. -/
def bankStep (b : BankMap) (w : Word) : Option BankMap :=
  match w with
  | .matrix w =>
    if !w.bankNaming then (if freeBanks b (w.a * w.b * w.s) = 0 then none else some b)
    else if decide (4 < w.bank + w.passes w.decl) then none
    else
      let ks := w.namedBanks
      if w.init = 1 && !(ks.all fun k => (tfind b k).any fun i => i.1 == w.ident) then none
      else some (setBanks b ks (if w.result = 0 then none else some (w.ident, w.isIntTile)))
  | .vector w =>
    if !w.xb && !w.zb then some b
    else
      let ks := w.namedBanks
      let p := ceilDiv (ceilDiv w.rows 32) (2 ^ w.la) * ceilDiv (ceilDiv w.cols 32) (2 ^ w.lb)
      if decide (4 < w.bank + p) then none
      else if w.xb && !(ks.all fun k => tfind b k == some (w.ident, w.fmtX == 9)) then none
      else if w.zb && ks.any (fun k => (tfind b k).any fun i => i.2 != (w.fmtZ == 9)) then none
      else some (setBanks b ks (if w.zb then some (w.ident, w.fmtZ == 9) else if w.keep then some (w.ident, w.fmtX == 9) else none))
  | _ => some b

/-- The first word that breaks the bank rules, or the state after all. -/
def bankRun : BankMap → List (Nat × Word) → Except Nat BankMap
  | b, [] => .ok b
  | b, (slot, w) :: r =>
    match bankStep b w with
    | some b' => bankRun b' r
    | none => .error slot

/-! ## The order of R97 -/

/-- Word checks of one part in order, carrying the shape registers written and the bank states;
`bar` is the count of STEP_BARRIER words met, none in a prologue. -/
def partCheck (env : WordEnv) (man : Manifest) (inBody : Bool) :
    List Placed → List Nat → BankMap → Nat → Except (Nat × Nat) (List Nat × BankMap × Nat)
  | [], wr, b, bar => .ok (wr, b, bar)
  | p :: r, wr, b, bar =>
    let n := match p.word with
      | some (.matrix w) => w.a * w.b * w.s
      | _ => 8
    match wordCheck { env with written := wr, free := freeBanks b n } p with
    | some code => .error (code, p.slot)
    | none =>
      let isBar := match p.word with | some (.sync w) => w.op == 0 | _ => false
      if isBar && (!inBody || decide (man.barriers ≤ bar)) then .error (0x10B, p.slot)
      else
        let wr' := match p.word with | some (.shape w) => w.sreg :: wr | _ => wr
        let b' := match p.word with | some w => (bankStep b w).getD b | none => b
        partCheck env man inBody r wr' b' (if isBar then bar + 1 else bar)

/-- Whether the last word of a list is a STEP_BARRIER. -/
def lastIsBarrier (l : List Placed) : Bool :=
  match l.getLast? with
  | some ⟨_, _, some (.sync w), _⟩ => w.op == 0
  | _ => false

/-- An entry's own checks (R97 step 2). -/
def entryOwn (env : LoadEnv) (man : Manifest) (earlier : List Entry) (e : Entry) : Option Nat :=
  let off (o l : Nat) : Bool := o % 32 != 0 || l % 32 != 0 || decide (man.length < o + l)
  if off e.proOff e.proLen || off e.bodyOff e.bodyLen || e.bodyLen == 0 then some 0x106
  else if e.coreRsvd != 0 || e.eflags / 2 != 0 || e.rsvd != 0 then some 0x111
  else if !(env.granted e.core) || earlier.any (fun x => x.core == e.core) then some 0x107
  else if decide (dataLimit e.core < e.dataBytes) then some 0x108
  else if bit e.eflags 0 && !(coreDeep e.core) then some 0x109
  else if decide (env.common e.core < e.commonBytes) then some 0x10A
  else none

/-- The whole of step 2 for one entry. -/
def entryCheck (env : LoadEnv) (man : Manifest) (peers : Tbl Nat) (earlier : List Entry) (it : Itin) : Option Reject :=
  match entryOwn env man earlier it.e with
  | some c => some ⟨c, it.e.core, noSlot⟩
  | none =>
    let we : WordEnv := ⟨it.e.dataBytes, it.e.commonBytes, peers, bit man.flags 0, [], 4⟩
    match partCheck we man false it.pro [] [] 0 with
    | .error (c, s) => some ⟨c, it.e.core, s⟩
    | .ok (wr, b, _) =>
      match partCheck we man true it.body wr b 0 with
      | .error (c, s) => some ⟨c, it.e.core, s⟩
      | .ok (_, _, bar) =>
        if lastIsBarrier it.body && bar == man.barriers then none
        else some ⟨0x10B, it.e.core, (it.e.proLen + it.e.bodyLen) / 32 - 1⟩

/-- BANK_STATE of one entry (R85, R97). -/
def bankStateCheck (it : Itin) : Option Reject :=
  match bankRun [] (placedWords it.pro) with
  | .error s => some ⟨0x11D, it.e.core, s⟩
  | .ok b =>
    match bankRun b (placedWords it.body) with
    | .error s => some ⟨0x11D, it.e.core, s⟩
    | .ok b' =>
      if b' = b then none
      else some ⟨0x11D, it.e.core, match it.body.getLast? with | some p => p.slot | none => noSlot⟩

/-- Whether some earlier word, back to the nearest waiting one, conflicts with `w` (R99); `back` is newest first. -/
def hazardBack (core : Nat) (w : Word) : List (Nat × Word) → Bool
  | [] => false
  | (_, v) :: r => if conflict core v w || conflictRead core v w then true else if v.waits then false else hazardBack core w r

/-- HAZARD over a sequence, newest-first history carried. -/
def hazardRun (core : Nat) : List (Nat × Word) → List (Nat × Word) → Option Nat
  | _, [] => none
  | back, (slot, w) :: r =>
    if !w.waits && hazardBack core w back then some slot else hazardRun core ((slot, w) :: back) r

/-- HAZARD of one entry: prologue, body, and the body again (R99). -/
def hazardCheck (it : Itin) : Option Reject :=
  (hazardRun it.e.core [] (placedWords it.pro ++ placedWords it.body ++ placedWords it.body)).map fun s => ⟨0x121, it.e.core, s⟩

/-- The segments of an itinerary: the prologue, then the body cut after each STEP_BARRIER (R548). -/
def cutSegments : List (Nat × Word) → List (Nat × Word) → List (List (Nat × Word))
  | [], cur => if cur.isEmpty then [] else [cur.reverse]
  | (s, w) :: r, cur =>
    match w with
    | .sync x => if x.op = 0 then ((s, w) :: cur).reverse :: cutSegments r [] else cutSegments r ((s, w) :: cur)
    | _ => cutSegments r ((s, w) :: cur)

def Itin.segments (it : Itin) : List (List (Nat × Word)) := placedWords it.pro :: cutSegments (placedWords it.body) []

/-- Increments that a list of words makes to counter `c` of core `x` (R548). -/
def increments (x c : Nat) (l : List (Nat × Word)) : Nat :=
  sumNat (l.map fun p => match p.2 with
    | .sync w => if w.op = 1 && w.peer == x && w.ctr == c then w.value else 0
    | .move w => if w.dstSp = 2 && w.peer == x && w.ctr == c then 1 else 0
    | _ => 0)

/-- What a list of words takes from counter `c` by WAIT. -/
def waitsOn (c : Nat) (l : List (Nat × Word)) : Nat :=
  sumNat (l.map fun p => match p.2 with
    | .sync w => if w.op = 2 && w.ctr == c then w.value else 0
    | _ => 0)

/-- The slot that SYNC_BALANCE reports for segment `k` (R97): the prologue's last, or the segment's STEP_BARRIER. A prologue of no words has no
last slot and reports 0xFFFFFFFF (DESIGN CHOICE, log entry 105). -/
def Itin.closingSlot (it : Itin) (k : Nat) : Nat :=
  if k = 0 then (if it.e.proLen = 0 then noSlot else it.e.proLen / 32 - 1)
  else match (it.segments.getD k []).getLast? with | some p => p.1 | none => noSlot

/-- SYNC_BALANCE (R548) for the entry of one core. -/
def syncBalance (its : List Itin) (it : Itin) : Option Reject :=
  let x := it.e.core
  let segs := it.segments
  firstSome (fun k =>
    let bad := (List.range 16).any fun c =>
      let all := sumNat (its.map fun i => increments x c (placedWords i.pro ++ placedWords i.body))
      let inc := sumNat (its.map fun i => increments x c (i.segments.getD k []))
      all != 0 && inc != waitsOn c (segs.getD k [])
    if bad then some ⟨0x122, x, it.closingSlot k⟩ else none) (List.range segs.length)

/-- A SET aimed at a core with no entry is reported at the SET. -/
def orphanSet (its : List Itin) (it : Itin) : Option Reject :=
  firstSome (fun p : Nat × Word => match p.2 with
    | .sync w => if w.op = 1 && !(its.any fun i => i.e.core == w.peer) then some ⟨0x122, it.e.core, p.1⟩ else none
    | _ => none) (placedWords it.pro ++ placedWords it.body)

/-- The peer MOVEs of segment `k` over all entries, in order: entry rank, slot, word. -/
def peerMoves (its : List Itin) (k : Nat) : List (Nat × Nat × MoveWord) :=
  its.zipIdx.flatMap fun p => (p.1.segments.getD k []).filterMap fun q => match q.2 with
    | .move w => if w.dstSp = 2 then some (p.2, q.1, w) else none
    | _ => none

/-- INBOUND: whether word `w` at (entry `n`, slot, segment `k`) breaks R92. -/
def inboundBad (its : List Itin) (n k : Nat) (it : Itin) (before : List (Nat × Word)) (slot : Nat) (w : Word) : Bool :=
  let x := it.e.core
  let mine := (peerMoves its k).filter fun p => p.2.2.peer == x
  let inb (m : MoveWord) : Ext := { m.dstExt with sp := 0, key := 0 }
  let early := mine.any fun p =>
    w.reads.any (fun r => r.hits (inb p.2.2)) &&
    !(before.any fun b => match b.2 with | .sync s => s.op == 2 && s.ctr == p.2.2.ctr | _ => false)
  let wrote := mine.any fun p => w.writes.any fun r => r.hits (inb p.2.2)
  let twice := match w with
    | .move m => m.dstSp == 2 && ((peerMoves its k).any fun p =>
        (decide (p.1 < n) || (p.1 == n && decide (p.2.1 < slot))) && p.2.2.peer == m.peer && p.2.2.dstExt.hits m.dstExt)
    | _ => false
  early || wrote || twice

/-- INBOUND over one segment of an entry. -/
def inboundSeg (its : List Itin) (n k : Nat) (it : Itin) : List (Nat × Word) → List (Nat × Word) → Option Nat
  | _, [] => none
  | before, (slot, w) :: r =>
    if inboundBad its n k it before slot w then some slot else inboundSeg its n k it ((slot, w) :: before) r

/-- INBOUND of one entry (R92, R548). -/
def inboundCheck (its : List Itin) (n : Nat) (it : Itin) : Option Reject :=
  firstSome (fun p : List (Nat × Word) × Nat => (inboundSeg its n p.2 it [] p.1).map fun s => ⟨0x123, it.e.core, s⟩) it.segments.zipIdx

/-- CORE_SHARED of one entry (R355). -/
def sharedCheck (env : LoadEnv) (it : Itin) : Option Reject :=
  let up (n : Nat) : Nat := ceilDiv n 65536 * 65536
  let res := tget [] env.resident it.e.core
  if decide (4 ≤ res.length) || decide (dataLimit it.e.core < up it.e.dataBytes + sumNat (res.map up)) then
    some ⟨0x126, it.e.core, noSlot⟩
  else none

/-- The manifest's checks (R97 step 1). -/
def manifestCheck (m : Memory) (base : Nat) (env : LoadEnv) (man : Manifest) : Option Nat :=
  if man.magic != 0x54594E47 then some 0x101
  else if man.verMajor != 1 || man.verMinor != 0 then some 0x102
  else if man.variant != env.variant then some 0x103
  else if man.devices != env.devices || man.rank != env.rank || decide (man.devices ≤ man.rank) then some 0x104
  else if base % 4096 != 0 || man.length % 32 != 0 || decide (268435456 < man.length) || man.entries == 0 ||
      decide (128 < man.entries) || decide (man.length < 128 + 32 * man.entries) then some 0x106
  else
    let img := memReadN m base 64 ++ List.replicate 48 (0 : Byte) ++ memReadN m (base + 112) (man.length - 112)
    if sha384 img != man.digest then some 0x105
    else if !man.rsvdOk || man.flags / 4 != 0 then some 0x111
    else if man.barriers == 0 || decide (1024 < man.barriers) then some 0x10B
    else none

/-- The entries in the order of R97: ascending core, equal cores in ascending index. -/
def imageItins (m : Memory) (base : Nat) (man : Manifest) : List Itin :=
  sortBy (fun i => i.e.core) ((List.range man.entries).map fun i => Itin.read m base (Entry.read m (base + 128 + 32 * i)))

/-- Step 2 over the entries in order. -/
def entriesCheck (env : LoadEnv) (man : Manifest) (peers : Tbl Nat) : List Entry → List Itin → Option Reject
  | _, [] => none
  | earlier, it :: r =>
    match entryCheck env man peers earlier it with
    | some x => some x
    | none => entriesCheck env man peers (it.e :: earlier) r

/-- The loader (R97): the first failing check, or the accepted itineraries. -/
def loader (m : Memory) (base : Nat) (env : LoadEnv) : Except Reject (Manifest × List Itin) :=
  let man := Manifest.read m base
  match manifestCheck m base env man with
  | some c => .error ⟨c, 0xFFFF, noSlot⟩
  | none =>
    let its := imageItins m base man
    let peers := its.foldl (fun t i => tset t i.e.core i.e.dataBytes) []
    match entriesCheck env man peers [] its with
    | some r => .error r
    | none =>
      let rows : List (Option Reject) :=
        [firstSome bankStateCheck its, firstSome hazardCheck its,
         firstSome (fun i => match syncBalance its i with | some r => some r | none => orphanSet its i) its,
         firstSome (fun p : Itin × Nat => inboundCheck its p.2 p.1) its.zipIdx,
         firstSome (sharedCheck env) its]
      match firstSome id rows with
      | some r => .error r
      | none => .ok (man, its)

end Sys2Proof.Machine
end

