-- ==== Sys2Proof/Machine/HostTypes.lean ====
section
/-! DEFINITION. State of the host interface and of the cores: rings, MSI-X, descriptors in intake, the context sets and banks of a core (chapters 2, 3, 12 and 14). -/

namespace Sys2Proof.Machine

/-- Ring states (Table 12.2). -/
inductive RingSt where
  | disabled
  | active
  | frozen
  | halted
deriving DecidableEq, Repr

/-- A descriptor taken into intake and not yet completed (R312, R313). -/
structure Desc where
  /-- Sequence count modulo 2^32. -/
  seq : Nat
  /-- The 64 bytes of the device's own copy, little-endian. -/
  raw : Nat
  started : Bool
  /-- Device time at which the steward took it in. -/
  taken : Nat
  /-- Bookkeeping of a started descriptor that waits on an engine (a step, a message id, a hold). -/
  tag : Nat
deriving DecidableEq, Repr

/-- A completion record not yet written (Table 12.7): `send` asks for its message without moderation, `reserved` says it holds a slot. -/
structure Held where
  index : Nat
  ring : Nat
  rev : Bool
  send : Bool
  reserved : Bool
  status : Nat
  aux : Nat
  detail : Nat
  result0 : Nat
  result1 : Nat
deriving DecidableEq, Repr

/-- One ring (Tables 12.1, 12.2; R307 to R310, R322, R324). `kind` 1 is a descriptor ring, 2 a completion ring. -/
structure Ring where
  kind : Nat
  st : RingSt
  room : Nat
  ldepth : Nat
  ien : Bool
  vector : Nat
  cq : Nat
  modCount : Nat
  modUs : Nat
  base : Nat
  /-- Descriptors read, or completions written, modulo 2^32. -/
  count : Nat
  /-- The last doorbell value accepted. -/
  bell : Nat
  /-- Completion ring: slots reserved for descriptors in intake. -/
  reserved : Nat
  /-- Completion ring: completions since the last message, and the time of the oldest. -/
  unsent : Nat
  oldest : Nat
  /-- Descriptor ring: descriptors in intake, oldest first. -/
  descs : List Desc
  /-- Descriptor ring: posted counts that a CANCEL ended before they were read. -/
  cancelled : List Nat
  /-- Completion ring: records that wait for a free slot or for the ring's restart, oldest first (R322, R323). -/
  held : List Held
deriving DecidableEq, Repr

def Ring.reset : Ring :=
  ⟨0, .disabled, 0, 0, false, 0, 0, 0, 0, 0, 0, 0, 0, 0, 0, [], [], []⟩

def Ring.depth (r : Ring) : Nat := 2 ^ r.ldepth

/-- One MSI-X vector of a function: mask and pending bits (R324, PCI Express Base 6.0). -/
structure MsixVec where
  addr : Nat
  data : Nat
  masked : Bool
  pending : Bool
deriving DecidableEq, Repr

def MsixVec.reset : MsixVec := ⟨0, 0, true, false⟩

/-- A range of host memory that the host's IOMMU refuses to a function (R303). -/
structure HostRefusal where
  fn : Nat
  lo : Nat
  hi : Nat
  read : Bool
  write : Bool
deriving DecidableEq, Repr

/-! ## Cores -/

/-- What an issued word delivers at its completion. -/
inductive FlightKind where
  | matrix
  | vector
  | move
  | shape
  | unfold
deriving DecidableEq, Repr

/-- A word issued and not yet complete (R79): its outputs wait for its completion (R67). -/
structure Flight where
  kind : FlightKind
  slot : Nat
  /-- Store writes, bank words and counts delivered at completion. -/
  out : TileOut
  /-- Residence changes: bank key and its new residence. -/
  marks : List (Nat × Option BankIdent)
  /-- Banks latched into their shadows at issue (R68, R111). -/
  latched : List Nat
  /-- SHAPE: the register and its value. -/
  sreg : Nat
  value : Nat
  /-- MOVE: the word, the requests it makes in all, the rows whose requests have been made, and the bytes gathered so far of each 64-byte command block it fills, by the block's
  address and by place in the block (R91, R198, R549). -/
  move : Option MoveWord
  requests : Nat
  rows : Nat
  blocks : Tbl (Tbl Nat)
  /-- Device time of its issue. -/
  issued : Nat
  /-- Issue attempts so far: 1, or 2 on the retry (R69). -/
  attempt : Nat
  /-- Nominal cycles of the word under R57, R107 or R153 (R382). -/
  nominal : Nat
  /-- A MATRIX word. -/
  isMatrix : Bool
deriving DecidableEq, Repr

/-- A room's context set on a core (R354). -/
structure Ctx where
  incarnation : Nat
  storeBase : Nat
  dataBytes : Nat
  commonBytes : Nat
  /-- Device addresses and lengths of the prologue and the body in the pinned image. -/
  pro : Nat
  proLen : Nat
  body : Nat
  bodyLen : Nat
  /-- Running the prologue. -/
  inPro : Bool
  /-- Byte offset of the next word in the current part. -/
  pc : Nat
  /-- The step being run (R80). -/
  step : Nat
  /-- Offset in the body at which the first step starts (R80). -/
  startPc : Nat
  /-- Joined the step barrier and waiting for its release. -/
  atBarrier : Bool
  /-- Stopped by a fault, an abort or an end. -/
  stopped : Bool
  flights : List Flight
  shape : Tbl Nat
  sync : Tbl Nat
  /-- Detected errors of the core in this incarnation (R70). -/
  errors : Nat
  /-- Banks saved at a switch (R356). -/
  saved : Option (Tbl Bank)
  /-- Busy and nominal cycles of the current step, and of the last steps newest first (R382). -/
  busy : Nat
  nominal : Nat
  slowness : List (Nat × Nat)
  /-- Device time of the slot start since which no word of this context has issued, for SCHED_LATE (R360). -/
  due : Option Nat
  /-- Device time since which the context has had a ready word, where it has one (R347, R360). -/
  readyAt : Option Nat
  /-- Device time at which the SYNC WAIT it stands at was issued and found unsatisfied (R424). -/
  waitAt : Option Nat
  /-- The last count of each sync counter: its stall cause, 0 for a peer core's, and the nanoseconds before it that a bench operand was being
  promoted (R234, R264). -/
  posters : Tbl (Nat × Nat)
  /-- Device time at which the core joined the barrier it stands at. -/
  joinedAt : Option Nat
deriving DecidableEq, Repr

/-- One logical core (Table 2.1). -/
structure Core where
  store : Memory
  banks : Tbl Bank
  ctxs : Tbl Ctx
  /-- The room whose context set is selected. -/
  sel : Option Nat
  /-- Arrays awake, by number (R61). -/
  awake : List Nat
  /-- Device time of the last switch, from which the holding room's 200 µs count (Table 14.2). -/
  since : Nat
  /-- Device time up to which the selected room's core time has been charged, and the latest at which it was in use (R366). -/
  chargedAt : Nat
  usedAt : Nat
deriving DecidableEq, Repr

def Core.reset : Core := ⟨[], [], [], none, [], 0, 0, 0⟩

/-- Fitness of a physical core (R48, R70, R383). -/
inductive Fitness where
  | fit
  | failed
  | replaced
deriving DecidableEq, Repr

end Sys2Proof.Machine
end

