-- ==== Sys2Proof/Machine/MemTypes.lean ====
section
/-! DEFINITION. State of a room's memory: pages and where they lie, special ranges, haul windows, views, snapshots (chapters 5 and 10). -/

namespace Sys2Proof.Machine

/-- Where an ordinary page lies (R249, R258): the zero state, an upper frame, or a cellar frame. -/
inductive Tier where
  | zero
  | upper (site frame : Nat)
  | cellar (half frame : Nat)
deriving DecidableEq, Repr

/-- A page on its way to another frame (R260): the destination, and the page it is swapped with, if any (R259). -/
structure Moving where
  dst : Tier
  partner : Option Nat
deriving DecidableEq, Repr

/-- One mapped ordinary page. `cls` is its MAP code: 1 AUTO, 2 UPPER, 3 COLD, 4 STREAM (Table 10.2). -/
structure Page where
  cls : Nat
  attr : Nat
  tier : Tier
  heat : Nat
  moving : Option Moving
deriving DecidableEq, Repr

/-- A registered special range (R249, R253): hint 5 window, 0x10 view, 0x11 forest, 0x12 kernel. `raw` is the raw record. -/
structure Special where
  base : Nat
  bytes : Nat
  hint : Nat
  raw : Nat
  /-- Upper frames that back it: offset page, site, frame. -/
  frames : List (Nat × Nat × Nat)
deriving DecidableEq, Repr

/-- A plan attached to a haul window (R266 to R270). -/
structure HaulPlan where
  /-- The HAUL_PLAN operands, for the map record (Table 10.6). -/
  raw : Nat
  list : List (Nat × Nat)
  slots : Nat
  slotBytes : Nat
  mask : Nat
  ctr : Nat
  /-- Fills started in this incarnation, and each consuming core's release count by core code. -/
  started : Nat
  releases : Tbl Nat
deriving DecidableEq, Repr

/-- A registered view with its copy of the weights (R136) and its batch queue (R139). -/
structure ViewSt where
  raw : Nat
  wUk : Memory
  wUv : Memory
  /-- Batches queued, oldest first: first sequence and count. -/
  queue : List (Nat × Nat)
  /-- Whether a batch that has left the queue is running, and the code it will end with (R140, R142). -/
  running : Bool
  code : Option Nat
  /-- The pages of its page run: the first and how many (R132, R136). -/
  run : Nat × Nat
deriving DecidableEq, Repr

def ViewSt.reset : ViewSt := ⟨0, [], [], [], false, none, (0, 0)⟩

/-- One map record of a snapshot (Table 10.6). -/
structure MapRec where
  va : Nat
  pages : Nat
  hint : Nat
  attr : Nat
  raw : Nat
deriving DecidableEq, Repr

/-- A snapshot in a slot (Tables 10.5, R276). -/
structure Snap where
  variant : Nat
  devices : Nat
  rank : Nat
  step : Nat
  seed : Nat
  image : Nat
  args : List Nat
  maps : List MapRec
  /-- The forest section's bytes (R276), empty for no forest. -/
  forest : List Byte
  /-- Page numbers of the page section, and their contents at their device addresses. -/
  pages : List Nat
  data : Memory
  digest : List Byte
  complete : Bool
deriving DecidableEq, Repr

/-- A snapshot plan (R271). -/
structure SnapPlan where
  interval : Nat
  phase : Nat
  buddy : Nat
  snapBytes : Nat
  mirrorBytes : Nat
deriving DecidableEq, Repr

/-- A mirror held for another rank, or being sent (R278). -/
structure Mirror where
  rank : Nat
  snap : Snap
deriving DecidableEq, Repr

/-- The snapshot side of a room (R271 to R279). -/
structure SnapSt where
  plan : Option SnapPlan
  slotA : Option Snap
  slotB : Option Snap
  /-- The slot of the newest complete snapshot, and of the copy in progress: 0 A, 1 B. -/
  newest : Option Nat
  copying : Option Nat
  /-- Pages still pending in the copy, in the order they will be copied (R273). -/
  pending : List Nat
  /-- Whether the older slot has been released (R275). -/
  released : Bool
  /-- A mirror sent and not acknowledged: the slot and the sends made (R278). -/
  mirroring : Option (Nat × Nat)
  /-- The step of the newest snapshot whose mirror is complete. -/
  mirrored : Option Nat
  held : List Mirror
deriving DecidableEq, Repr

def SnapSt.reset : SnapSt := ⟨none, none, none, none, none, [], true, none, none, []⟩

/-- The memory of one room. -/
structure RoomMem where
  pages : Tbl Page
  specials : List Special
  /-- The bytes of ordinary pages and of backed special frames, by device virtual address. -/
  data : Memory
  /-- Pages pinned and mapped read-only for the image (R75). -/
  pinned : List Nat
  windows : Tbl HaulPlan
  views : Tbl ViewSt
  snap : SnapSt
  promoteHeat : Nat
  /-- The threshold written during the running epoch (R540). -/
  promoteNext : Nat
deriving DecidableEq, Repr

def RoomMem.reset : RoomMem := ⟨[], [], [], [], [], [], SnapSt.reset, 64, 64⟩

end Sys2Proof.Machine
end

