-- ==== Sys2Proof/Machine/RoomTypes.lean ====
section
/-! DEFINITION. State of one room: its grant, its job, its forest, its bench kernels, its modes, its ledger and its trust (chapters 8, 9, 13, 14, 15, 16 and 19). -/

namespace Sys2Proof.Machine

/-- The states of a room (Table 13.1). -/
inductive RoomSt where
  | absent
  | vacant
  | committed
  | turnover
deriving DecidableEq, Repr

/-! ## Forest (chapter 8) -/

/-- The record of a live branch (Table 8.1); `layers`, `own` and `shared` are computed from the nodes. -/
structure Branch where
  held : Bool
  scored : Bool
  nan : Bool
  tree : Nat
  parent : Nat
  depth : Nat
  born : Nat
  ord : Nat
  ret : Nat
  disc : Nat
  score : Nat
  value : Nat
  lineage : Nat
  /-- The directory node, if the branch has one. -/
  dir : Option Nat
deriving DecidableEq, Repr

/-- A node of the page tables (R188): its reference count and its entries that are not empty. -/
structure FNode where
  refs : Nat
  entries : Tbl Nat
deriving DecidableEq, Repr

/-- A queued forest command: its slot and the 64 bytes of its record (Table 8.3), or the descriptor that brought it, by ring and sequence count, with
the slot 0xFFFF and no record (R199, R201). -/
structure FCmd where
  slot : Nat
  raw : Nat
  desc : Option (Nat × Nat)
deriving DecidableEq, Repr

/-- A room's forest (R193). `raw` is the forest record (Table 8.2); pages are reference counts of page-pool places. -/
structure Forest where
  base : Nat
  bytes : Nat
  raw : Nat
  branches : Tbl Branch
  /-- Cycle number of each tree (R187). -/
  cycles : Tbl Nat
  /-- The next lineage serial. -/
  serial : Nat
  nodes : Tbl FNode
  pages : Tbl Nat
  /-- Accepted commands in the order they were queued (R199). -/
  queue : List FCmd
  /-- Detected sampler errors of each die's engine in this incarnation (R216). -/
  errs : Tbl Nat
deriving DecidableEq, Repr

/-! ## Bench kernels (chapter 9) -/

/-- A running run of a bench kernel (R229): its arguments, the index of its next word, the time at which its last word ended or it started, and the
nanoseconds for which its operand pages were being promoted (R234). -/
structure BenchRun where
  args : List Nat
  next : Nat
  since : Nat
  promo : Nat
deriving DecidableEq, Repr

/-- A registered bench kernel (R228, R229). `words` are the copied 64-byte words. -/
structure Kernel where
  raw : Nat
  words : List Nat
  queue : List (List Nat)
  run : Option BenchRun
deriving DecidableEq, Repr

/-! ## Jobs -/

/-- A running incarnation, or one being assembled or loaded (R315). -/
structure Job where
  ring : Nat
  seq : Nat
  /-- Whether a RESTORE started it. -/
  restore : Bool
  incarn : Nat
  seed : Nat
  devices : Nat
  rank : Nat
  image : Nat
  args : List Nat
  /-- 0 joining (R419), 1 waiting for its start barrier's release (R422), 2 running. -/
  phase : Nat
  /-- Step of the snapshot restored from: steps begin after it; none for a LAUNCH. -/
  first : Nat
  /-- The step being run. -/
  step : Nat
  /-- Logical cores that hold an itinerary. -/
  cores : List Nat
  waiveAdd : Bool
  waiveLoose : Bool
  /-- Cores that have joined the current barrier, and when the first did (R423). -/
  joined : List Nat
  firstJoin : Option Nat
  /-- The device has joined and waits for the release. -/
  waiting : Bool
  /-- Last released step. -/
  released : Option Nat
  /-- Snapshot set marked at this barrier, and whether the barrier waits for its slot (R273). -/
  marked : Bool
  snapWait : Bool
  /-- A fault withholds every later release (R496). -/
  faulted : Bool
  /-- The job's tag and the current key generation (R421). -/
  tag : Nat
  kgen : Nat
  buddy : Nat
  /-- CTRL count of the JOIN it sent, which START and REFUSED carry back (Table 17.2). -/
  joinSeq : Nat
  /-- ABORT has arrived while its steward was down, with this code (R377). -/
  aborted : Option Nat
  /-- Snapshot step reported with the last BAR_JOIN, plus 1. -/
  reportedSnap : Nat
  /-- Complete snapshot step carried by the last release (R425). -/
  complete : Option Nat
  /-- Detected errors: cores (R70), bench units site*64+unit (R240). -/
  benchErrs : Tbl Nat
  /-- Rank to mid, for a job of several devices (R412). -/
  ranks : Tbl Nat
  /-- RESTORE operands: source and holder, while the snapshot is being fetched. -/
  source : Nat
  holder : Nat
  askStep : Nat
  /-- Device time at which the fetch of a mirror was asked for (R279). -/
  fetchAt : Option Nat
  /-- What the check of a RESTORE meets as it reads its stream from the cellar (R279, R282). -/
  check : CellarRead
deriving DecidableEq, Repr

/-- A mode change in the epoch table (R378, R381). -/
structure ModeChange where
  kind : Nat
  epoch : Nat
  value : Nat
  /-- Precision entries (tag, and, or), for kind 4. -/
  entries : List (Nat × Nat × Nat)
  /-- The value it replaced when it took effect (kinds 1 and 2), for a RESTORE to an earlier step. -/
  prev : Nat
  /-- In the epoch table: it will take effect at its epoch. A job fault takes it out; a RESTORE puts it back. -/
  armed : Bool
  /-- The descriptor that completes when it takes effect, if it still waits. -/
  ring : Nat
  seq : Nat
  waiting : Bool
  applied : Bool
deriving DecidableEq, Repr

/-- A staged CHECKPOINT (R271). -/
structure PlanStage where
  epoch : Nat
  plan : Option SnapPlan
  ring : Nat
  seq : Nat
deriving DecidableEq, Repr

/-- Execution state of one collective record (R400): posted, started, and the number of the next execution. -/
structure CollSt where
  queued : Nat
  running : Bool
  next : Nat
deriving DecidableEq, Repr

/-- A room's ledger record (Table 14.9): the counters kept by number, in table order from `launches` (0) to `slot_late` (14). -/
structure Ledger where
  cls : Nat
  share : Nat
  waiver : Nat
  waiverAny : Nat
  opened : Nat
  closed : Nat
  counts : Tbl Nat
  snapStep : Nat
  snapDigest : List Byte
  stallNs : Tbl Nat
  stallEv : Tbl Nat
deriving DecidableEq, Repr

def Ledger.reset : Ledger := ⟨0, 0, 0, 0, 0, 0, [], 0, [], [], []⟩

/-- The first-fault record of a room (R496). -/
structure FirstFault where
  time : Nat
  code : Nat
  unit : Nat
  incarn : Nat
deriving DecidableEq, Repr

/-- The trust side of a room (chapter 19). Keys are held as the bytes the sealed records gave. -/
structure RoomSec where
  conf : Bool
  /-- Cellar key and import key pair, as draws of the free-value counter; none when no key is held. -/
  cellarKey : Option Nat
  importKey : Option Nat
  tenant : Option (List Nat)
  content : Option Nat
  importGen : Nat
  exports : Nat
  /-- Active consent: sequence, scope, not_after, token bytes. -/
  consent : Option (Nat × Nat × Nat × List Nat)
  consentNext : Nat
  faults : Nat
  rqAddr : Nat
  rqCode : Nat
  rqDone : Bool
deriving DecidableEq, Repr

def RoomSec.reset : RoomSec := ⟨false, none, none, none, none, 0, 0, none, 0, 0, 0, 0, false⟩

/-- The grant registers of Table 13.2, as register values. -/
structure Grant where
  rings : Nat
  cores0 : Nat
  cores1 : Nat
  common : Nat
  upper : Nat
  cellar : Nat
  branch : Nat
  streams : Nat
  devctx : Nat
  dict : Nat
  stackRes : Nat
deriving DecidableEq, Repr

/-- Reset values of the grant registers (Table 13.2). -/
def Grant.reset (room : Nat) : Grant := ⟨256 * 65536 + (256 * room) % 16384, 0, 0, 0, 0, 0, 0, 0, 0, 0, 0⟩

/-- A turnover in progress (Table 13.7). -/
structure Turn where
  start : Nat
  /-- 1 intake stopped, 3 gate closed and scrubbed, waiting for zeroing. -/
  phase : Nat
  release : Bool
  disable : Bool
deriving DecidableEq, Repr

/-- One room. -/
structure Room where
  st : RoomSt
  grant : Grant
  iface : Nat
  rtab : Nat
  startErr : Bool
  postErr : Bool
  grantErr : Nat
  drainForced : Bool
  quarantine : Bool
  turnNs : Nat
  turn : Option Turn
  sems : Tbl Nat
  mem : RoomMem
  forest : Option Forest
  kernels : Tbl Kernel
  job : Option Job
  /-- Seed of the most recent incarnation the loader accepted since the last turnover (R292). -/
  seed : Option Nat
  modes : List ModeChange
  plans : List PlanStage
  /-- Precision mode in force: (tag, and, or) (R380). -/
  precision : List (Nat × Nat × Nat)
  /-- Collective program: copied records, and their execution states (R399, R400). -/
  prog : List Nat
  coll : Tbl CollSt
  progAddr : Nat
  progN : Nat
  postAddr : Nat
  ledger : Ledger
  /-- The last first-fault record, whether the running incarnation has latched one, and later faults counted. -/
  fault : Option FirstFault
  lateFaults : Nat
  stallNs : Tbl Nat
  stallEv : Tbl Nat
  sec : RoomSec
  dbIgnored : Nat
  refused : Nat
deriving DecidableEq, Repr

def Room.reset (r : Nat) : Room :=
  { st := if r = 0 then .vacant else .absent, grant := Grant.reset r, iface := 0, rtab := 0,
    startErr := false, postErr := false, grantErr := 0, drainForced := false, quarantine := false, turnNs := 0,
    turn := none, sems := [], mem := RoomMem.reset, forest := none, kernels := [], job := none, seed := none,
    modes := [], plans := [], precision := [], prog := [], coll := [], progAddr := 0, progN := 0, postAddr := 0,
    ledger := Ledger.reset, fault := none, lateFaults := 0, stallNs := [], stallEv := [], sec := RoomSec.reset,
    dbIgnored := 0, refused := 0 }

end Sys2Proof.Machine
end

