-- ==== Sys2Proof/Machine/Forest.lean ====
section
/-! DEFINITION. The rollout forest as data (chapter 8): the record, the page tables with their reference counts, fork, prune, sampling and scoring. Pure functions of a forest. -/

namespace Sys2Proof.Machine

/-! ## The forest record (Table 8.2) -/

def Forest.fld (f : Forest) (o n : Nat) : Nat := Machine.fld f.raw o n
def Forest.lmax (f : Forest) : Nat := f.fld 2 2
def Forest.pmax (f : Forest) : Nat := f.fld 4 4
def Forest.pilot (f : Forest) : Nat := f.fld 8 2
def Forest.treeMax (f : Forest) : Nat := f.fld 10 2
def Forest.winOff (f : Forest) : Nat := f.fld 16 8
def Forest.nodeOff (f : Forest) : Nat := f.fld 24 8
def Forest.nodeBytes (f : Forest) : Nat := f.fld 32 8
def Forest.pageOff (f : Forest) : Nat := f.fld 40 8
def Forest.pageBytes (f : Forest) : Nat := f.fld 48 8
/-- Bytes of the branch window (R194). -/
def Forest.winBytes (f : Forest) : Nat := 262144 * f.lmax * f.pmax * 65536

def Forest.new (base bytes raw : Nat) : Forest := ⟨base, bytes, raw, [], [], 0, [], [], [], []⟩

/-- R196: the first failing check of a forest record. `granted` and `coreOk` say what the room's grants hold. -/
def Forest.check (f : Forest) (granted pilotOk exists_ : Bool) : Option Nat :=
  let mib2 : Nat := 2097152
  let parts := [(0, mib2), (f.winOff, f.winBytes), (f.nodeOff, f.nodeBytes), (f.pageOff, f.pageBytes)]
  if f.fld 0 1 ≠ 1 ∨ f.fld 1 1 ≠ 0 ∨ f.fld 12 4 ≠ 0 ∨ f.fld 56 8 ≠ 0 then some Code.forestKind
  else if f.lmax = 0 ∨ 256 < f.lmax ∨ f.pmax = 0 ∨ 16384 < f.pmax ∨ 131072 < f.lmax * f.pmax ∨ f.treeMax = 0 ∨ 16384 < f.treeMax then
    some Code.forestGeometry
  else if f.winOff % mib2 ≠ 0 ∨ f.nodeOff % mib2 ≠ 0 ∨ f.nodeBytes % mib2 ≠ 0 ∨ f.nodeBytes < mib2 ∨ f.pageOff % mib2 ≠ 0 ∨
      f.pageBytes % mib2 ≠ 0 ∨ f.pageBytes < mib2 ∨ parts.any (fun p => decide (f.bytes < p.1 + p.2)) ∨
      parts.zipIdx.any (fun p => parts.zipIdx.any fun q => decide (p.2 < q.2) && overlaps p.1.1 p.1.2 q.1.1 q.1.2) then
    some Code.forestRange
  else if !granted then some Code.forestGrant
  else if f.pilot ≠ 0xFFFF ∧ !pilotOk then some Code.forestPilot
  else if exists_ then some Code.forestExists
  else none

/-! ## Reference counts (R188, R191) -/

def Forest.node (f : Forest) (n : Nat) : FNode := tget ⟨0, []⟩ f.nodes n

/-- A page loses a reference; at 0 it returns to its pool. The count of objects returned and entries decremented is kept for the engine's time. -/
def Forest.dropPage (a : Forest × Nat) (p : Nat) : Forest × Nat :=
  let n := tget 0 a.1.pages p
  if n ≤ 1 then ({ a.1 with pages := tdel a.1.pages p }, a.2 + 2) else ({ a.1 with pages := tset a.1.pages p (n - 1) }, a.2 + 1)

/-- A node loses a reference; at 0 it returns to its pool and every object its entries name loses one, `drop` says how (R191). -/
def Forest.dropWith (drop : Forest × Nat → Nat → Forest × Nat) (a : Forest × Nat) (n : Nat) : Forest × Nat :=
  let x := a.1.node n
  if x.refs ≤ 1 then x.entries.foldl (fun b e => drop b e.2) ({ a.1 with nodes := tdel a.1.nodes n }, a.2 + 2)
  else ({ a.1 with nodes := tset a.1.nodes n { x with refs := x.refs - 1 } }, a.2 + 1)

def Forest.dropLeaf : Forest × Nat → Nat → Forest × Nat := Forest.dropWith Forest.dropPage
def Forest.dropRoot : Forest × Nat → Nat → Forest × Nat := Forest.dropWith Forest.dropLeaf
def Forest.dropDir : Forest × Nat → Nat → Forest × Nat := Forest.dropWith Forest.dropRoot

/-- A branch freed: its record goes, its directory loses a reference (R191). The record is no entry, so that first decrement is not among those the
engine's time counts (R213). -/
def Forest.freeBranch (a : Forest × Nat) (b : Nat) : Forest × Nat :=
  match tfind a.1.branches b with
  | none => a
  | some x =>
    let a : Forest × Nat := ({ a.1 with branches := tdel a.1.branches b }, a.2)
    match x.dir with
    | none => a
    | some d => let b := Forest.dropDir a d; (b.1, b.2 - 1)

/-! ## Paths (R188 to R190) -/

/-- The lowest place of a pool that is not in use. -/
def lowestUnused {α : Type} (t : Tbl α) (limit : Nat) : Nat → Nat → Option Nat
  | 0, k => if limit ≤ k then none else some k
  | n + 1, k => if limit ≤ k then none else if (tfind t k).isSome then lowestUnused t limit n (k + 1) else some k

def Forest.allocNode (f : Forest) (entries : Tbl Nat) : Option (Nat × Forest) :=
  (lowestUnused f.nodes (f.nodeBytes / 2048) f.nodes.length 0).map fun n => (n, { f with nodes := tset f.nodes n ⟨1, entries⟩ })

def Forest.allocPage (f : Forest) : Option (Nat × Forest) :=
  (lowestUnused f.pages (f.pageBytes / 65536) f.pages.length 0).map fun p => (p, { f with pages := tset f.pages p 1 })

/-- Every object that a node's entries name gains a reference; `leaf` says the entries name pages. -/
def Forest.bump (f : Forest) (leaf : Bool) (entries : Tbl Nat) : Forest :=
  entries.foldl (fun f e =>
    if leaf then { f with pages := tset f.pages e.2 (tget 0 f.pages e.2 + 1) }
    else { f with nodes := tset f.nodes e.2 { f.node e.2 with refs := (f.node e.2).refs + 1 } }) f

/-- What a path resolution did: node levels not used in place, nodes copied, pages copied, entries incremented (Table 8.6). -/
structure PathWork where
  levels : Nat
  nodes : Nat
  pages : Nat
  bumps : Nat
deriving DecidableEq, Repr

def PathWork.none : PathWork := ⟨0, 0, 0, 0⟩
def PathWork.add (a b : PathWork) : PathWork := ⟨a.levels + b.levels, a.nodes + b.nodes, a.pages + b.pages, a.bumps + b.bumps⟩

/-- Engine cycles of a path resolution (Table 8.6); a level used in place takes none, as the worked example of chapter 8 counts. -/
def PathWork.cycles (a : PathWork) : Nat := 16 * a.levels + 8 * a.nodes + 16 * a.pages + ceilDiv a.bumps 32

/-- A node made the writer's own (R189): used in place at count 1, copied above it, new where there is none. -/
def Forest.ownNode (f : Forest) (n : Option Nat) (leaf : Bool) : Option (Nat × Forest × PathWork) :=
  match n with
  | none => (f.allocNode []).map fun (m, f) => (m, f, ⟨1, 0, 0, 0⟩)
  | some k =>
    let x := f.node k
    if x.refs ≤ 1 then some (k, f, .none)
    else (f.allocNode x.entries).map fun (m, f) =>
      (m, { f.bump leaf x.entries with nodes := tset (f.bump leaf x.entries).nodes k { x with refs := x.refs - 1 } }, ⟨1, 1, 0, x.entries.length⟩)

def Forest.setEntry (f : Forest) (n e v : Nat) : Forest := { f with nodes := tset f.nodes n { f.node n with entries := tset (f.node n).entries e v } }

/-- The page a branch reaches (R187, R190): layer, then bits [13:8] and [7:0] of the page. -/
def Forest.lookup (f : Forest) (b l p : Nat) : Option Nat := do
  let x ← tfind f.branches b
  let d ← x.dir
  let r ← tfind (f.node d).entries l
  let k ← tfind (f.node r).entries (p / 256)
  tfind (f.node k).entries (p % 256)

/-- What the page of a write was before it: itself, a copy of another page, or a new page of zeros. -/
inductive FPage where
  | same
  | copyOf (p : Nat)
  | fresh
deriving DecidableEq, Repr

/-- A resolved path: the page's place, what it was before, the forest with it, and the work done. -/
structure Resolved where
  page : Nat
  how : FPage
  forest : Forest
  work : PathWork

/-- R189: the path of a write resolved. None where a pool is empty. -/
def Forest.resolve (f : Forest) (b l p : Nat) : Option Resolved := do
  let x ← tfind f.branches b
  let (d, f, w0) ← f.ownNode x.dir false
  let f := { f with branches := tset f.branches b { x with dir := some d } }
  let (r, f, w1) ← f.ownNode (tfind (f.node d).entries l) false
  let f := f.setEntry d l r
  let (k, f, w2) ← f.ownNode (tfind (f.node r).entries (p / 256)) true
  let f := f.setEntry r (p / 256) k
  let w := (w0.add w1).add w2
  match tfind (f.node k).entries (p % 256) with
  | none => do
    let (q, f) ← f.allocPage
    pure ⟨q, .fresh, f.setEntry k (p % 256) q, w⟩
  | some o =>
    if tget 0 f.pages o ≤ 1 then pure ⟨o, .same, f, w⟩
    else do
      let (q, f) ← f.allocPage
      let f := { f with pages := tset f.pages o (tget 0 f.pages o - 1) }
      pure ⟨q, .copyOf o, f.setEntry k (p % 256) q, w.add ⟨0, 0, 1, 0⟩⟩

/-- The nodes that a path passes through: directory, layer root, leaf. -/
def Forest.walk (f : Forest) (b l p : Nat) : List Nat :=
  match (tfind f.branches b).bind (·.dir) with
  | none => []
  | some d =>
    match tfind (f.node d).entries l with
    | none => [d]
    | some r => d :: r :: (tfind (f.node r).entries (p / 256)).toList

/-- The pages a branch reaches: layer, page, place in the pool. -/
def Forest.reach (f : Forest) (b : Nat) : List (Nat × Nat × Nat) :=
  match (tfind f.branches b).bind (·.dir) with
  | none => []
  | some d => (f.node d).entries.flatMap fun l => (f.node l.2).entries.flatMap fun r =>
      (f.node r.2).entries.map fun e => (l.1, 256 * r.1 + e.1, e.2)

/-- The 64-byte record of a live branch (Table 8.1). -/
def Forest.record (f : Forest) (b : Nat) (x : Branch) (dirNo : Nat) : List Byte :=
  let mine := f.reach b
  let others := f.branches.flatMap fun y => if y.1 = b then [] else (f.reach y.1).map (·.2.2)
  let shared := (mine.filter fun p => others.contains p.2.2).length
  leBytes 4 b ++ leBytes 1 (if x.held then 2 else 1) ++ leBytes 1 (b2n x.scored + 2 * b2n x.nan) ++ leBytes 2 x.tree ++
    leBytes 4 x.parent ++ leBytes 4 x.depth ++ leBytes 4 x.born ++ leBytes 2 x.ord ++
    leBytes 2 (dedup (mine.map (·.1))).length ++ leBytes 4 x.ret ++ leBytes 4 x.disc ++ leBytes 4 x.score ++ leBytes 4 x.value ++
    leBytes 4 (mine.length - shared) ++ leBytes 4 shared ++ leBytes 8 x.lineage ++ leBytes 8 dirNo

/-! ## Trees -/

/-- The LEAF branches of a tree, ascending (R185). -/
def Forest.leaves (f : Forest) (t : Nat) : List Nat := (f.branches.filter fun b => b.2.tree = t && !b.2.held).map (·.1)
def Forest.live (f : Forest) (t : Nat) : List Nat := (f.branches.filter fun b => b.2.tree = t).map (·.1)
def Forest.cycle (f : Forest) (t : Nat) : Nat := tget 0 f.cycles t

/-- A branch grant (R184): base and count of IDs on each die. -/
structure BGrant where
  base : Nat
  count : Nat
deriving DecidableEq, Repr

/-- FREE IDs of a die's part of the grant, ascending. -/
def Forest.freeIds (f : Forest) (g : BGrant) (die : Nat) : List Nat :=
  (span (131072 * die + g.base) g.count).filter fun b => (tfind f.branches b).isNone

/-- IDs for the children of parents in ascending ID, each parent's children in order: the lowest on its die, else on the other (R203). -/
def childIds : List Nat → Nat → List Nat → List Nat → List (Nat × Nat × Nat)
  | [], _, _, _ => []
  | p :: ps, n, f0, f1 =>
    let here := if p / 131072 = 0 then f0 else f1
    let there := if p / 131072 = 0 then f1 else f0
    let own := here.take n
    let more := there.take (n - own.length)
    let rest (l : List Nat) (k : Nat) := l.drop k
    let f0' := if p / 131072 = 0 then rest f0 own.length else rest f0 more.length
    let f1' := if p / 131072 = 0 then rest f1 more.length else rest f1 own.length
    (own ++ more).zipIdx.map (fun c => (p, c.1, c.2)) ++ childIds ps n f0' f1'

/-- The operands of a FORK or PRUNE (Table 8.3), from a slot or a descriptor. -/
structure FArgs where
  newRoot : Bool
  keep : Bool
  dropHeld : Bool
  tree : Nat
  num : Nat
  parts : Nat
  cap : Nat
  a0 : Nat
deriving DecidableEq, Repr

/-- Why a FORK cannot proceed under R212: FOREST_IDS or FOREST_ROSTER. -/
def Forest.forkFails (f : Forest) (g : BGrant) (a : FArgs) : Option Nat :=
  let n := if a.newRoot then a.num else (f.leaves a.tree).length * a.num
  if (f.freeIds g 0).length + (f.freeIds g 1).length < n then some Code.forestIds
  else if a.a0 ≠ 0 ∧ a.parts * a.cap < n then some Code.forestRoster
  else none

/-- R204: roots created. -/
def Forest.roots (f : Forest) (g : BGrant) (a : FArgs) : Forest :=
  let ids := (f.freeIds g 0 ++ f.freeIds g 1).take a.num
  let f := ids.zipIdx.foldl (fun f b =>
    { f with branches := tset f.branches b.1 { held := false, scored := false, nan := false, tree := a.tree, parent := 0xFFFFFFFF, depth := 0,
                                                born := 0, ord := b.2, ret := 0, disc := 0x3F800000, score := 0, value := 0, lineage := f.serial, dir := none },
              serial := f.serial + 1 }) f
  { f with cycles := tdel f.cycles a.tree }

/-- R203: the leaves of a tree forked. -/
def Forest.forked (f : Forest) (g : BGrant) (a : FArgs) : Forest :=
  let ps := f.leaves a.tree
  let cyc := (f.cycle a.tree + 1) % 2 ^ 32
  let kids := childIds ps a.num (f.freeIds g 0) (f.freeIds g 1)
  let f := { f with cycles := tset f.cycles a.tree cyc }
  let f := kids.foldl (fun f k =>
    match tfind f.branches k.1 with
    | none => f
    | some p =>
      let f := match p.dir with
        | none => f
        | some d => { f with nodes := tset f.nodes d { f.node d with refs := (f.node d).refs + 1 } }
      { f with branches := tset f.branches k.2.1 { p with held := false, scored := false, nan := false, parent := k.1, depth := p.depth + 1,
                                                          born := cyc, ord := k.2.2, lineage := f.serial },
                serial := f.serial + 1 }) f
  ps.foldl (fun f p =>
    if a.keep then { f with branches := tmod ⟨false, false, false, 0, 0, 0, 0, 0, 0, 0, 0, 0, 0, none⟩ f.branches p fun x => { x with held := true } }
    else (Forest.freeBranch (f, 0) p).1) f

/-- R210: whether one score ranks above another; NaN below −infinity, zeros equal. -/
def scoreAbove (x y : Nat) : Bool := if isNan32 x then false else if isNan32 y then true else flt y x

/-- Insertion into a ranking, after everything that ranks at least as high. -/
def rankIn (f : Forest) (b : Nat) : List Nat → List Nat
  | [] => [b]
  | c :: r =>
    if scoreAbove ((tfind f.branches b).map (·.score) |>.getD 0) ((tfind f.branches c).map (·.score) |>.getD 0) then b :: c :: r
    else c :: rankIn f b r

/-- The leaves of a tree by rank: highest score first, then lower ID (R210). -/
def Forest.ranked (f : Forest) (t : Nat) : List Nat := (f.leaves t).foldl (fun acc b => rankIn f b acc) []

/-- R211: the roster, part records then the leaf IDs. -/
def Forest.roster (f : Forest) (a : FArgs) (status : Nat) : List Byte :=
  let ls := f.leaves a.tree
  let n := ls.length
  (List.range a.parts).flatMap (fun j =>
    leBytes 4 (Nat.min a.cap (n - j * a.cap)) ++ leBytes 4 (Nat.min (j * a.cap) n) ++ leBytes 4 n ++ leBytes 4 (f.cycle a.tree) ++
      leBytes 2 status ++ leBytes 2 a.tree ++ List.replicate 44 0) ++ ls.flatMap (leBytes 4)

/-! ## Scoring (R209) -/

/-- A leaf's record after a SCORE. -/
def Branch.scoredBy (x : Branch) (mode : Bool) (gamma r v : Nat) : Branch :=
  if mode then { x with score := v, value := v, scored := true }
  else
    let ret := ffma x.disc r x.ret
    let disc := fmul x.disc gamma
    { x with ret := ret, disc := disc, score := ffma disc v ret, value := v, scored := true }

/-! ## Sampling (R207) -/

/-- The outcome of one token draw: token, log-probability, whether a NaN logit was met. -/
structure Drawn where
  tok : Nat
  lp : Nat
  nan : Bool
deriving DecidableEq, Repr

/-- u = x0[31:8] × 2^−24 as an exact number. -/
def unitDraw (q : Quad) : Dy := ⟨((q.a / 256 : Nat) : Int), -24⟩

/-- The generator's draw for a token (Table 8.4). -/
def tokenDraw (seed tag tree cycle branch j : Nat) : Dy :=
  unitDraw (philox ⟨j, cycle, tree * 2 ^ 18 + branch, 0x534D * 65536 + tag⟩ seed)

/-- Insertion of a candidate ordered by scaled logit descending, then index ascending. -/
def candIn (x : Nat × Nat) : List (Nat × Nat) → List (Nat × Nat)
  | [] => [x]
  | y :: r => if flt y.2 x.2 then x :: y :: r else y :: candIn x r

/-- Running exact sums over the candidates. -/
def exactSums : Dy → List (Nat × Nat) → List (Nat × Nat × Dy)
  | _, [] => []
  | a, (i, p) :: r => let b := a.add (dy32 p); (i, p, b) :: exactSums b r

/-- The candidates up to and including the first whose sum reaches a bound. -/
def cutAt (bound : Dy) : List (Nat × Nat × Dy) → List (Nat × Nat × Dy)
  | [] => []
  | x :: r => if bound.le x.2.2 then [x] else x :: cutAt bound r

/-- R207, the pseudocode: one token from the logits of a row. -/
def sampleRow (z : List Nat) (temp top kt : Nat) (u : Dy) : Drawn :=
  if z.any isNan32 then ⟨0xFFFFFFFF, fnan, true⟩
  else if isZero32 temp then
    let m := z.foldl fmax negInf32
    ⟨z.findIdx (fun x => !flt x m), 0, false⟩
  else
    let it := sfu 4 temp cvt0
    let s := z.zipIdx.map fun x => (x.2, fmul x.1 it)
    let cand := if kt = 0 then s else (s.foldl (fun acc x => candIn x acc) []).take kt
    let m := cand.foldl (fun m x => fmax m x.2) negInf32
    if m = negInf32 then ⟨0xFFFFFFFE, negInf32, false⟩
    else
      let p := cand.map fun x => (x.1, if m = 0x7F800000 then (if x.2 = m then 0x3F800000 else 0) else sfu 0 (fsub x.2 m) cvt0)
      let c := exactSums Dy.zero p
      let zsum := (c.getLast?.map (·.2.2)).getD Dy.zero
      let kept := if flt top 0x3F800000 then cutAt ((dy32 top).mul zsum) c else c
      let zk := (kept.getLast?.map (·.2.2)).getD Dy.zero
      let t := u.mul zk
      match (kept.find? fun x => t.lt x.2.2).orElse fun _ => kept.getLast? with
      | none => ⟨0xFFFFFFFE, negInf32, false⟩
      | some x => ⟨x.1, fsub (sfu 2 x.2.1 cvt0) (sfu 2 (rne32 zk.toX) cvt0), false⟩
where negInf32 : Nat := 0xFF800000

end Sys2Proof.Machine
end

