-- ==== Sys2Proof/Machine/DevTypes.lean ====
section
/-! DEFINITION. State of the device's shared units: stacks, ingest, schedule, stewards, network, caravan, timebase, strongroom, power, health and module (chapters 9, 11, 14 to 22). -/

namespace Sys2Proof.Machine

/-! ## Stacks (chapter 9) -/

/-- A room's tokens at a stack when last used (R362): bytes, thousandths of a sieve access, and the device time. -/
structure Tokens where
  normal : Nat
  sieve : Nat
  at_ : Nat
deriving DecidableEq, Repr

/-- One populated stack site. -/
structure Stack where
  /-- Band of Table 9.4, 1 to 3; 0 while stopped. -/
  band : Nat
  temp : Nat
  stopped : Bool
  /-- While stopped: since when the hottest sensor has read below 85 °C (R489). -/
  coolSince : Option Nat
  /-- Physical bench units out of service (R240). -/
  badUnits : List Nat
  /-- Logical to physical bench unit, where it differs from the identity (R240). -/
  unitMap : Tbl Nat
  /-- Spare lanes used, by channel*2 for data and channel*2+1 for command lanes; times of CRC errors of the last 1 ms, by channel*4096+lane. -/
  lanesUsed : Tbl Nat
  crc : Tbl (List Nat)
  /-- Rows marked for repair (frame, row), corrected errors of the last 24 h (row, sector, time), spare rows used by bank, frames withdrawn (R238). -/
  marked : List (Nat × Nat)
  seen : List (Nat × Nat × Nat)
  rowsUsed : Tbl Nat
  withdrawn : List Nat
  /-- Poisoned 32-byte sectors: frame and sector (R237). -/
  poison : List (Nat × Nat)
  /-- Frames awaiting zeroing on the stack's return: room and frame (R341). -/
  held : List (Nat × Nat)
  /-- Ordinary pages lost with the stack: room and page (R489). -/
  lost : List (Nat × Nat)
  /-- Token buckets by room; an unlisted one is full (R362). -/
  tokens : Tbl Tokens
deriving DecidableEq, Repr

def Stack.reset : Stack := ⟨1, 0, false, none, [], [], [], [], [], [], [], [], [], [], [], []⟩

/-! ## Ingest (chapter 11) -/

/-- A stream context (R289, R290). -/
structure Stream where
  ring : Nat
  codec : Nat
  width : Nat
  height : Nat
  depth : Nat
  refArea : Nat
  refBytes : Nat
  broken : Bool
  /-- The units the decoder has taken since the open, as bytes: its parameter sets and reference pictures are a function of them. -/
  units : List (List Nat)
deriving DecidableEq, Repr

/-- A loaded developer context (R295): its record and the tables copied with it. -/
structure DevCtx where
  ring : Nat
  calib : List Byte
  defects : List (Nat × Nat)
  shading : List Nat
  tone : List Nat
deriving DecidableEq, Repr

/-- A loaded dictionary slot (R300): header fields and entries (string, ID). -/
structure Dict where
  ring : Nat
  maxlen : Nat
  bytefb : Bool
  byteBase : Nat
  bos : Nat
  eos : Nat
  entries : List (List Byte × Nat)
deriving DecidableEq, Repr

structure Ingest where
  streams : Tbl Stream
  devs : Tbl DevCtx
  dicts : Tbl Dict
  sel : Nat
  info : Nat
  /-- Counters of Table 22.6: site*8 + counter. -/
  counts : Tbl Nat
deriving DecidableEq, Repr

def Ingest.reset : Ingest := ⟨[], [], [], 0, 0xF0000, []⟩

/-! ## Scheduling (chapter 14) -/

/-- A schedule: major frame, entries in use, room words and entries (Tables 14.1, 14.3). -/
structure Schedule where
  us : Nat
  nent : Nat
  rooms : Tbl Nat
  entries : Tbl Nat
deriving DecidableEq, Repr

def Schedule.reset : Schedule := ⟨0, 0, [], []⟩

structure Sched where
  staged : Schedule
  active : Schedule
  err : Nat
  passed : Bool
  pending : Bool
  late : Nat
  switches : Nat
  /-- A MODE_STAGE of kind 3 in progress: ring, sequence, pacing room, epoch (R352). -/
  pacing : Option (Nat × Nat × Nat × Nat)
  /-- Slots running: entry numbers (R353). -/
  running : List Nat
  /-- Virtual times: arbiter*64 + room (R347). -/
  vtime : Tbl Nat
  /-- The last descriptor ring of each room that a steward's intake served (Table 14.2). -/
  turns : Tbl Nat
  /-- The rooms that were ready at each arbiter when it last served one (R347). -/
  ready : Tbl (List Nat)
deriving DecidableEq, Repr

def Sched.reset : Sched := ⟨Schedule.reset, Schedule.reset, 0, false, false, 0, 0, none, [], [], [], []⟩

/-! ## Stewards (chapter 15) -/

/-- One steward pair (Table 15.6). -/
structure Pair where
  /-- 0 off, 1 running, 2 restarting, 3 failed. -/
  st : Nat
  restarts : Nat
  lastUs : Nat
  crashAt : Option Nat
  /-- Times of earlier crashes, newest first (R376, Table 15.5). -/
  crashes : List Nat
  /-- STEWARD_SLOW already raised for this restart. -/
  slow : Bool
  /-- Stopped by a gate control (R491). -/
  gated : Bool
  /-- Device time at which the firmware last restarted the watchdog's count, and the rings visited since (R370). -/
  visited : Nat
  seen : List Nat
  /-- The 2 MiB private SRAM (R367); no rule says what the firmware keeps there. -/
  sram : Memory
deriving DecidableEq, Repr

def Pair.reset : Pair := ⟨0, 0, 0, none, [], false, false, 0, [], []⟩

/-- A verified firmware image (Table 15.2). -/
structure Firmware where
  ver : Nat
  iface : Nat
  svn : Nat
  codeDigest : List Byte
  digest : List Byte
deriving DecidableEq, Repr

/-- What the steward image store of a die holds: the verified image and its digest (R374). -/
structure ImageStore where
  image : List Byte
  digest : List Byte
deriving DecidableEq, Repr

structure Stewards where
  pairs : Tbl Pair
  fw : Option Firmware
  /-- The image stores that hold an image, by die (R374, R488). -/
  stores : Tbl ImageStore
  bootCode : Nat
  fetching : Bool
  /-- TFTP: server index and retransmissions in a row, since when; retry wait since when (R371). -/
  server : Nat
  tries : Nat
  asked : Nat
  waitSince : Option Nat
  ready : Bool
  /-- Rooms of steward p served by another after a failure, and the steward with the device duties (R368). -/
  heir : Tbl Nat
  duty : Nat
  /-- Duties that have passed and whose successor has still to rebuild: rooms by steward 0 to 3, 4 the device duties. -/
  handed : List Nat
  /-- The blocks that TFTP has brought of the image, and the code of the last image refused in this pass of the list (R371). -/
  part : List Byte
  failCode : Nat
deriving DecidableEq, Repr

def Stewards.reset : Stewards := ⟨[], none, [], 0, false, 0, 0, 0, none, false, [], 0, [], [], 0⟩

/-! ## Network (chapter 16) -/

/-- One Ethernet port's registers (Table 16.10) and its path losses. -/
structure Port where
  mac : Nat
  cfg : Nat
  ip4 : Nat
  ip6 : Nat
  gw6 : Nat
  gw4 : Nat
  pfx : Nat
  link : Bool
  /-- Echo requests answered in the running second: its start and the count. -/
  echo : Nat × Nat
  /-- Losses by path value: time of the last loss; paths left out: until when (R395). -/
  losses : Tbl Nat
  out : Tbl Nat
deriving DecidableEq, Repr

def Port.reset : Port := ⟨0, 0x80000000, 0, 0, 0, 0, 0, false, (0, 0), [], []⟩

/-- A payload sent and not acknowledged (R393). -/
structure Unacked where
  psn : Nat
  msg : Nat
  off : Nat
  bytes : Nat
  sent : Nat
  tries : Nat
  /-- When the payload was first sent. -/
  first : Nat
  path : Nat
deriving DecidableEq, Repr

/-- A message a flow sends (R394): its source and how far it has been sent. -/
structure SendMsg where
  msg : Nat
  src : Nat
  /-- Where a PUT's bytes go in the peer's room. -/
  remote : Nat
  bytes : Nat
  sent : Nat
  /-- Where the bytes come from: 0 the room's memory, 1 a mirror held, 2 a slot of the room's own snapshots. -/
  kind : Nat
  /-- Collective DATA: the record digest and the `loose` flag (R400, Table 16.2). -/
  rdig : Nat
  loose : Bool
  /-- The descriptor that waits on it: ring and sequence; none for other traffic. -/
  desc : Option (Nat × Nat)
deriving DecidableEq, Repr

/-- A message a flow receives (R391): offsets placed, its length once the last packet has come, whether refused. -/
structure RecvMsg where
  msg : Nat
  placed : List Nat
  bytes : Option Nat
  refused : Bool
  /-- A snapshot stream that is coming in (R278, R279). -/
  data : Memory
deriving DecidableEq, Repr

/-- A GETREQ sent and not yet answered in full (R398): the NET_POST, or none for a mirror fetch. -/
structure GetReq where
  desc : Option (Nat × Nat)
  msg : Nat
  dst : Nat
  remote : Nat
  bytes : Nat
  /-- Whether a byte of the answer has come; the request's PSN, when it was sent, and how often it has been sent again. -/
  answered : Bool
  psn : Nat
  sent : Nat
  tries : Nat
  /-- Device time of the first BUSY in a row, and of the last. -/
  busySince : Option Nat
  busyAt : Option Nat
deriving DecidableEq, Repr

/-- One flow toward one peer (R389 to R395). -/
structure Flow where
  /-- Next PSN by packet type (R389). -/
  psn : Tbl Nat
  /-- The key generation under which a PSN space reached 2^39, once it has. -/
  rekeyed : Option Nat
  /-- Round-robin position of path spreading (R395). -/
  spread : Nat
  unacked : List Unacked
  sends : List SendMsg
  gets : List GetReq
  nextMsg : Nat
  rate : Nat
  tDec : Nat
  /-- Every 20 µs without a decrease counted from here (R395). -/
  tInc : Nat
  /-- Receiver: cumulative PSN, PSNs above it, PSNs seen missing, DATA since the last ACK, time of the first, CE bytes, last NACK. -/
  cum : Nat
  above : List Nat
  since : Nat
  firstUn : Option Nat
  missing : Option Nat
  ceBytes : Nat
  nackAt : Option Nat
  recvs : List RecvMsg
deriving DecidableEq, Repr

def Flow.reset : Flow := ⟨[], none, 0, [], [], [], 0, 0, 0, 0, 0, [], 0, none, none, 0, none, []⟩

/-- Keys of one job or link (R404): live generations, newest first, and when the newest was installed. -/
structure Keys where
  gens : List Nat
  installed : Nat
  /-- The key of each generation, as the wrapped bytes or the agreement gave it. -/
  keys : List (List Nat)
deriving DecidableEq, Repr

structure Net where
  locked : Bool
  udp : Nat
  ports : Tbl Port
  /-- Counters of Table 16.10, 0 to 10. -/
  counts : Tbl Nat
  /-- Flows by room*2^34 + peer*2^16 + flow. -/
  flows : Tbl Flow
  /-- Job keys by job tag. -/
  jobKeys : Tbl Keys
  /-- Malformed packets of a peer, and authentication failures claiming a rank, in the running second (R407): start and count. -/
  faulty : Tbl (Nat × Nat)
  hostile : Tbl (Nat × Nat)
  ctrlIn : Tbl (Nat × Nat)
  /-- Jobs that a turnover took from this device, by tag: the rank it had (R341). -/
  left : Tbl Nat
deriving DecidableEq, Repr

def Net.reset : Net := ⟨false, 0x4F4D, [], [], [], [], [], [], [], []⟩

/-! ## Caravan (chapter 17) -/

/-- A member as its lease giver records it (R416, R417, R426). -/
structure Member where
  expiry : Nat
  /-- Probing: the rank's probes sent and when the first and the last were. -/
  probes : Nat
  probeFirst : Nat
  probeLast : Nat
  /-- Reports of kind 2: reporting member and time. -/
  reports : List (Nat × Nat)
deriving DecidableEq, Repr

/-- A link agreement in progress (R463): who starts it, nonces, datagrams sent. -/
structure LinkTry where
  starter : Bool
  nonceA : List Nat
  nonceB : List Nat
  stage : Nat
  sends : Nat
  last : Nat
  /-- Its own public key, where it has made one, and the datagram it sent last. -/
  eph : List Nat
  gram : List Nat
deriving DecidableEq, Repr

/-- A JOIN held by the head (R419). -/
structure JoinRec where
  mid : Nat
  rank : Nat
  cseq : Nat
deriving DecidableEq, Repr

/-- A join counted at a barrier (R425): who sent it, the members it stands for, the latest join time, and the snapshot step plus 1 (0 for none). -/
structure BarEntry where
  mid : Nat
  members : Nat
  time : Nat
  snap : Nat
deriving DecidableEq, Repr

/-- A barrier being counted (R425): the joins, the digest and end flag of the first one, when it was counted, and the incarnation. -/
structure BarCount where
  epoch : Nat
  entries : List BarEntry
  digest : Nat
  ends : Nat
  first : Nat
  incarn : Nat
deriving DecidableEq, Repr

/-- A job as the head records it (R419, R421). -/
structure HeadJob where
  tag : Nat
  seed : Nat
  devices : Nat
  variant : Nat
  fw : List Nat
  kind : Nat
  incarn : Nat
  step : Nat
  joins : List JoinRec
  firstJoin : Nat
  /-- Highest incarnation started, if any. -/
  started : Option Nat
  running : Bool
  aborting : Bool
  kgen : Nat
  map : Tbl Nat
  bar : Option BarCount
  released : Option Nat
  complete : Nat
  ended : Option Nat
deriving DecidableEq, Repr

structure Caravan where
  /-- The 64-byte caravan record (Table 17.1); 0 for none. -/
  record : Nat
  /-- Member of the caravan: standing, generation, latest granted expiry, last RENEW sent. -/
  member : Bool
  generation : Nat
  expiry : Nat
  renewAt : Nat
  /-- Retry of admission from here (R415, R418). -/
  retryAt : Option Nat
  cseq : Nat
  /-- Link keys by mid, and agreements in progress. -/
  links : Tbl Keys
  tries : Tbl LinkTry
  evicted : List Nat
  /-- Rank maps by job tag, as MAP messages brought them to this device or through it (R421). -/
  maps : Tbl (Tbl Nat)
  /-- Lease giver: members by mid. -/
  members : Tbl Member
  /-- Manager: barriers being counted by job tag. -/
  bars : Tbl BarCount
  /-- Manager: lags of the last released epochs by mid, newest first; members reported, and marked for replacement (R426). -/
  lags : Tbl (List Nat)
  reported : List Nat
  marked : List Nat
  /-- Release times by job tag, newest first, for the mean of R426. -/
  releases : Tbl (List Nat)
  /-- Head: jobs by tag, and the next tag. -/
  jobs : Tbl HeadJob
  nextTag : Nat
deriving DecidableEq, Repr

def Caravan.reset : Caravan :=
  { record := 0, member := false, generation := 0, expiry := 0, renewAt := 0, retryAt := none, cseq := 0, links := [], tries := [],
    evicted := [], maps := [], members := [], bars := [], lags := [], reported := [], marked := [], releases := [], jobs := [], nextTag := 1 }

/-! ## Timebase (chapter 18) -/

/-- Timebase states (Table 18.2). -/
inductive TbSt where
  | freerun
  | acquiring
  | locked
  | holdover
deriving DecidableEq, Repr

structure Timebase where
  /-- Device time in ns, and its 32-bit fraction (R432). -/
  now : Nat
  frac : Nat
  isSet : Bool
  latched : Nat
  st : TbSt
  sel : Nat
  /-- References present and out of tolerance, by number: 0 EXT, 1 PTP, 2 OCXO. -/
  present : List Nat
  oot : List Nat
  /-- Kept usable but unselected after R438. -/
  suspect : Option Nat
  /-- When ACQUIRING or HOLDOVER was entered. -/
  since : Nat
  /-- Agreement runs in seconds, by reference (R438, R439). -/
  agree : Tbl Nat
  /-- Phase error being slewed out, signed ns (R433). -/
  slew : Int
  /-- Device time at which a step of the phase error in `slew` falls due: the whole second of the new time (R433). -/
  stepAt : Option Nat
  todPending : Option Nat
  offset : Int
  ctrl : Nat
  ppsDelay : Nat
  ptp : Nat
  gm : Nat
  /-- W1C alarm bits [4:0] and the PTP_DROP count. -/
  alarms : Nat
  ptpDrop : Nat
  /-- Parent's last clockClass; a two-step Sync waiting for its Follow_Up: sequence and receive time. -/
  parentClass : Nat
  syncRecv : Option (Nat × Nat)
  /-- Receive time less origin time of the last complete Sync; path delay; offset from the parent. -/
  syncDiff : Int
  ptpDelay : Int
  ptpOffset : Int
  /-- Offsets of the consecutive Sync exchanges that passed R442, newest first and at most 16; when the last one came (Table 18.1). -/
  syncs : List Int
  lastSync : Nat
  /-- Send time of the last Delay_Req not yet answered; sequence numbers sent so far, of Delay_Req and of the other messages. -/
  delayReqAt : Option Nat
  delaySeq : Nat
  ptpSeq : Nat
  /-- When the last Sync, Delay_Req and Announce were sent, and when the references were last compared (Table 18.4, R437). -/
  syncSent : Nat
  delayAsked : Nat
  announced : Nat
  compared : Nat
deriving DecidableEq, Repr

def Timebase.reset : Timebase :=
  { now := 0, frac := 0, isSet := false, latched := 0, st := .freerun, sel := 2, present := [2], oot := [],
    suspect := none, since := 0, agree := [], slew := 0, stepAt := none, todPending := none, offset := 0, ctrl := 4, ppsDelay := 0,
    ptp := 0, gm := 0, alarms := 0, ptpDrop := 0, parentClass := 248, syncRecv := none, syncDiff := 0, ptpDelay := 0,
    ptpOffset := 0, syncs := [], lastSync := 0, delayReqAt := none, delaySeq := 0, ptpSeq := 0, syncSent := 0, delayAsked := 0,
    announced := 0, compared := 0 }

/-! ## Strongroom (chapter 19) -/

/-- An audit record (Table 19.2) before its digest. -/
structure Audit where
  seq : Nat
  time : Nat
  atype : Nat
  role : Nat
  slot : Nat
  room : Nat
  code : Nat
  data : List Byte
  prev : List Byte
deriving DecidableEq, Repr

structure Strongroom where
  stage : Nat
  bootCode : Nat
  /-- Fuse cells and the shadows latched at stage 1, by word (R455 to R457). -/
  fuses : Tbl Nat
  shadow : Tbl Nat
  fuseAlarm : Bool
  installers : List (List Nat)
  operators : List (List Nat)
  cas : List (List Nat)
  servers : List Server
  mgmtAddr : List Nat
  /-- Version of the sealed store, on flash and in the standby register (R460). -/
  version : Nat
  versionReg : Nat
  alias_ : Bool
  /-- The device key of the cellar's staging frames, made at each boot (R281, R459). -/
  stagingKey : Option Nat
  log : List Audit
  nextSeq : Nat
  acked : Nat
  logLost : Nat
  lockDenied : Nat
  /-- Time of the last LOCK_DENIED record, by unit (R471). -/
  deniedAt : Tbl Nat
  debugUntil : Option Nat
  /-- Debug sessions: rooms touched and scope. -/
  debug : Option (List Nat × Nat)
  authFailAt : Option Nat
deriving DecidableEq, Repr

/-! ## Power, health and module (chapters 20 and 21) -/

structure Power where
  lastReset : Nat
  trip : List Nat
  throttle : List Nat
  sag : Bool
  vin : Nat
  iin : Nat
  pin : Nat
  events : Nat
  irq : Nat
  cap : Nat
  plan0 : Nat
  plan1 : Nat
  /-- Steps taken by the power controller, and by thermal control on each die (R481). -/
  powerSteps : Nat
  thermSteps0 : Nat
  thermSteps1 : Nat
  tj0 : Nat
  tj1 : Nat
  coolIn : Nat
  coolOut : Nat
  clkCores0 : Nat
  clkCores1 : Nat
  pwrCores0 : Nat
  pwrCores1 : Nat
  clkUnits : Nat
  pwrUnits : Nat
  gateIgnored : Nat
  /-- P above the limit by 5 % with every step at its floor since (R485). -/
  overSince : Option Nat
  /-- Tripped die: since when every sensor has read below 85 °C (R488). -/
  tripCool : Tbl Nat
  /-- Islands whose clock is stretched, by unit (R482). -/
  stretched : List Nat
  /-- Time of the last step of thermal control, by die; time up to which THROTTLE_NS is charged. -/
  thermAt : Tbl Nat
  chargedAt : Nat
  /-- Time of the last comparison of the power controller (R485). -/
  controlAt : Nat
deriving DecidableEq, Repr

def Power.reset (limit : Nat) : Power :=
  { lastReset := 0, trip := [], throttle := [], sag := false, vin := 0, iin := 0, pin := 0,
    events := 0, irq := 0, cap := limit, plan0 := 1600, plan1 := 1600, powerSteps := 0, thermSteps0 := 0,
    thermSteps1 := 0, tj0 := 0, tj1 := 0, coolIn := 0, coolOut := 0, clkCores0 := 0, clkCores1 := 0, pwrCores0 := 0,
    pwrCores1 := 0, clkUnits := 0, pwrUnits := 0, gateIgnored := 0, overSince := none, tripCool := [],
    stretched := [], thermAt := [], chargedAt := 0, controlAt := 0 }

/-- A health record (Table 20.14); its number is its place in the list. -/
structure HealthRec where
  time : Nat
  kind : Nat
  code : Nat
  unit : Nat
  room : Nat
  value : Nat
deriving DecidableEq, Repr

structure Health where
  oosCode : Nat
  oos : Bool
  waiting : List Nat
  alarm : Bool
  bridge0 : Nat
  bridge1 : Nat
  bridgeCrc : Tbl (List Nat)
  cellar : Nat
  marks : Tbl Fitness
  /-- Physical core mapped to logical core die*64+l, where assigned (R48). -/
  coreMap : Tbl Nat
  /-- Counters of Table 20.8: unit*32 + index. -/
  counts : Tbl Nat
  /-- Records on module flash, newest first, and the number written since boot. -/
  records : List HealthRec
  seq : Nat
  /-- Records that wait for the steward with the device duties, oldest first (Table 15.1). -/
  held : List HealthRec
  /-- Corrected errors of the last 24 h by keeper, with their times: a core's store, a steward's SRAM, a cellar package (Table 15.5). -/
  eccSeen : Tbl (List (Nat × Nat))
deriving DecidableEq, Repr

def Health.reset : Health := ⟨0, false, [], false, 8, 8, [], 0, [], [], [], [], 0, [], []⟩

structure Module where
  standby : Bool
  standbyAt : Nat
  straps : Nat
  latched : Bool
  /-- 0 main rails off, 1 to 5 the step under way (Table 21.11), 6 all up. -/
  rail : Nat
  pwrGood : Bool
  pwrGoodAt : Nat
  /-- Failures in a row, held off, when the rails were cut, the code held (R518). -/
  fails : Nat
  heldOff : Bool
  /-- 500 ms have passed since standby power good (R516). -/
  settled : Bool
  cutAt : Nat
  railCode : Nat
  perst : Bool
  modrst : Bool
  resetActive : Bool
  resetEndAt : Nat
  linkUp : Bool
  width : Nat
  speed : Nat
  alertReleased : Bool
  /-- Alert conditions at the last release (R512). -/
  alertSeen : Nat
deriving DecidableEq, Repr

def Module.reset : Module :=
  { standby := false, standbyAt := 0, straps := 0, latched := false, rail := 0, pwrGood := false, pwrGoodAt := 0,
    fails := 0, heldOff := false, settled := false, cutAt := 0, railCode := 0, perst := true, modrst := false, resetActive := false,
    resetEndAt := 0, linkUp := false, width := 0, speed := 0, alertReleased := false, alertSeen := 0 }

/-! ## What the block sends out -/

/-- A message, packet or answer that leaves the block. -/
inductive OutMsg where
  /-- An MSI-X message (R324). -/
  | msix (fn vector addr data : Nat)
  /-- The data a register read returns (R530, R531). -/
  | readData (fn offset size value : Nat)
  | packet (p : Pkt)
  /-- An ARP, neighbour discovery or echo answer of a port to an address (R387): kind 1, 2 or 3. -/
  | answer (kind port addr : Nat)
  /-- A link agreement datagram to a member (R463). -/
  | link (mid stage : Nat) (bytes : List Nat)
  /-- A management response (R448). -/
  | response (code : Nat) (body : List Byte)
  /-- A Block Read response, without its PEC (R511). -/
  | bmb (bytes : List Byte)
  /-- A request of the firmware fetch to a server of the list (R371). -/
  | fetch (server : Nat)
  /-- A PTP message: kind 1 Sync, 2 Follow_Up, 3 Delay_Req, 4 Delay_Resp, 5 Announce; port, sequence, time carried. -/
  | ptp (kind port seq value : Nat)
deriving DecidableEq, Repr

end Sys2Proof.Machine
end

