-- ==== Sys2Proof/Machine/State.lean ====
section
/-! DEFINITION. The state of the block as plain data, with the queue of waiting commands, and its value right after reset. -/

namespace Sys2Proof.Machine

/-- The faults a command can end in. No command of this block faults: every error the spec names is an effect on the state (a completion, a job fault, a counter), so the type has no constructor. -/
inductive Fault where
deriving DecidableEq, Repr

/-- The refusals a command can end in. -/
inductive Refusal where
  /-- Raised by a dispatch arm whose command has no meaning yet. Safe: nothing is claimed of it. -/
  | notModelled (mnemonic : String)
deriving DecidableEq, Repr

/-- The whole block. A table's unlisted key stands for the reset value of its entry. -/
structure State where
  /-- Commands waiting, oldest first. -/
  pending : List Instr
  /-- Counter of the free values drawn so far (the model's own field). -/
  fresh : Nat
  /-- Host memory, as the functions' IOMMU contexts translate it, and the ranges the IOMMU refuses (R303). -/
  host : Memory
  hostRefusals : List HostRefusal
  /-- SR-IOV: VF Enable and NumVFs (R328). -/
  vfEnable : Bool
  numVfs : Nat
  rooms : Tbl Room
  /-- Rings by device-wide ID (Table 12.2). -/
  rings : Tbl Ring
  /-- MSI-X entries: function*32 + vector (R324). -/
  msix : Tbl MsixVec
  /-- A ring restart in progress: room, local index, resume count (R537). -/
  restart : Option (Nat × Nat × Nat)
  restartRejected : Bool
  restartReason : Nat
  ringSel : Nat
  ringInfo0 : Nat
  ringInfo1 : Nat
  badAccess : Nat
  /-- Register snapshots by function: offset, bytes and value (R531). -/
  snaps : Tbl (Nat × Nat × Nat)
  /-- Lower bytes of wide registers held until their highest 4 bytes arrive: function*2^25 + offset (R531). -/
  held : Tbl Nat
  cores : Tbl Core
  /-- Common store by die (R51). -/
  common : Tbl Memory
  stackTbl : Tbl Stack
  migrations : Nat
  swaps : Nat
  ingest : Ingest
  sched : Sched
  stewards : Stewards
  net : Net
  caravan : Caravan
  time : Timebase
  sec : Strongroom
  power : Power
  health : Health
  module : Module
  /-- Everything the block has sent out, oldest first. -/
  out : List OutMsg
deriving DecidableEq, Repr

/-- The fuse cells of the modelled part: lifecycle SHIPPED, variant KN960-L, one maker key generation. The other words read 0. -/
def fusesDelivered : Tbl Nat := [(0, 3), (9, 1), (33, 1), (39, 0x4B4E000000000001), (40, 0x010101010103)]

/-- The strongroom with standby power lost: only flash and fuses keep their content (R460, R472, R522). -/
def Strongroom.reset : Strongroom :=
  { stage := 0, bootCode := 0, fuses := fusesDelivered, shadow := fusesDelivered, fuseAlarm := false, installers := [],
    operators := [], cas := [], servers := [], mgmtAddr := [], version := 0, versionReg := 0, alias_ := false, stagingKey := none,
    log := [], nextSeq := 0, acked := 0, logLost := 0, lockDenied := 0, deniedAt := [], debugUntil := none, debug := none,
    authFailAt := none }

/-- The block with every supply absent: the state in which a full power-up starts (R516, R524). -/
def State.reset : State :=
  { pending := [], fresh := 0, host := [], hostRefusals := [], vfEnable := false, numVfs := 0, rooms := [],
    rings := [], msix := [], restart := none, restartRejected := false, restartReason := 0, ringSel := 0,
    ringInfo0 := 0, ringInfo1 := 0, badAccess := 0, snaps := [], held := [], cores := [], common := [],
    stackTbl := [], migrations := 0, swaps := 0, ingest := Ingest.reset, sched := Sched.reset,
    stewards := Stewards.reset, net := Net.reset, caravan := Caravan.reset, time := Timebase.reset,
    sec := Strongroom.reset, power := Power.reset 3300, health := Health.reset, module := Module.reset, out := [] }

end Sys2Proof.Machine
end

