-- ==== Sys2Proof/Machine/Ops.lean ====
section
/-! DEFINITION. The named operations over the state that every command is written from: one home for each read and write, the counters, the records, the messages to the host. -/

namespace Sys2Proof.Machine

/-! ## Reading and changing the parts of the state -/

def State.room (s : State) (r : Nat) : Room := tget (Room.reset r) s.rooms r
def State.setRoom (s : State) (r : Nat) (x : Room) : State := { s with rooms := tset s.rooms r x }
def State.modRoom (s : State) (r : Nat) (f : Room → Room) : State := s.setRoom r (f (s.room r))
def State.ring (s : State) (q : Nat) : Ring := tget Ring.reset s.rings q
def State.setRing (s : State) (q : Nat) (x : Ring) : State := { s with rings := tset s.rings q x }
def State.modRing (s : State) (q : Nat) (f : Ring → Ring) : State := s.setRing q (f (s.ring q))
def State.core (s : State) (c : Nat) : Core := tget Core.reset s.cores c
def State.setCore (s : State) (c : Nat) (x : Core) : State := { s with cores := tset s.cores c x }
def State.modCore (s : State) (c : Nat) (f : Core → Core) : State := s.setCore c (f (s.core c))
def State.stack (s : State) (k : Nat) : Stack := tget Stack.reset s.stackTbl k
def State.modStack (s : State) (k : Nat) (f : Stack → Stack) : State := { s with stackTbl := tmod Stack.reset s.stackTbl k f }
def State.commonOf (s : State) (die : Nat) : Memory := tget [] s.common die
def State.pair (s : State) (p : Nat) : Pair := tget Pair.reset s.stewards.pairs p
def State.modPair (s : State) (p : Nat) (f : Pair → Pair) : State :=
  { s with stewards := { s.stewards with pairs := tmod Pair.reset s.stewards.pairs p f } }
def State.now (s : State) : Nat := s.time.now
def State.emit (s : State) (m : OutMsg) : State := { s with out := s.out ++ [m] }

/-- What is left of a phase error after some ns of slewing, at 10 ppm of them (R433). -/
def slewed (d : Int) (ns : Nat) : Int := if 0 ≤ d then max 0 (d - ((ns / 100000 : Nat) : Int)) else min 0 (d + ((ns / 100000 : Nat) : Int))

/-- Device time moved on; it never runs backwards. A step that fell due on the way is made where it still may be, else its correction is slewed (R433, Table 18.5). -/
def Timebase.advance (t : Timebase) (may : Bool) (at_ : Nat) : Timebase :=
  let n := Nat.max t.now at_
  match t.stepAt with
  | none => { t with now := n, slew := slewed t.slew (n - t.now) }
  | some a =>
    if n < a then { t with now := n }
    else if may then { t with now := Nat.max n (a + t.slew.toNat), slew := 0, stepAt := none }
    else { t with now := n, stepAt := none }

/-- Whether an incarnation of the room runs, in the sense of R315: from the starting descriptor's hold to its completion. -/
def Room.busy (x : Room) : Bool := x.job.isSome

/-- Whether device time may be stepped: no incarnation runs, and the device is no caravan member (R433). -/
def State.maySteps (s : State) : Bool := !(s.rooms.any fun r => r.2.busy) && !s.caravan.member

/-- Device time moved on to the time of an event. -/
def State.upto (s : State) (t : Nat) : State := { s with time := s.time.advance s.maySteps t }

/-- A value the spec does not state: the next one of the free-value constant. -/
def State.draw (s : State) : Nat × State := (Config.freeNat s.fresh, { s with fresh := s.fresh + 1 })

/-! ## Variant (Tables 0.1, 9.1, 10.7 and 11.1) -/

/-- A fuse word as every unit reads it: from its shadow (R457). -/
def State.fuse (s : State) (w : Nat) : Nat := tget 0 s.sec.shadow w

/-- IDENT_VARIANT: 1 KN960-S, 2 KN960-M, 3 KN960-L (R534). -/
def State.variant (s : State) : Nat := bits (s.fuse 40) 7 0

/-- Populated stack sites (Table 0.1), ascending. -/
def sitesOf (variant : Nat) : List Nat :=
  if variant = 1 then span 0 4 ++ span 8 4 else if variant = 2 then span 0 6 ++ span 8 6 else span 0 16

def State.sites (s : State) : List Nat := sitesOf s.variant

/-- Die beside which a stack site lies (R220). -/
def siteDie (site : Nat) : Nat := site / 8

/-- Frames of one stack: 48 GiB in 2 MiB frames (Table 9.1). -/
def framesPerStack : Nat := 24576

/-- Frames of one cellar half (Table 10.7). -/
def framesPerHalf : Nat := 524288

/-- Sites that hold a network die (R386). -/
def netSites (variant : Nat) : List Nat := if variant = 1 then [0, 1] else [0, 1, 2]

/-- Kind of the I/O die at a site (Table 22.6): 0 network, 1 video-ingest, 2 text-ingest. -/
def ioKind (variant site : Nat) : Nat :=
  if (netSites variant).contains site then 0 else if variant = 3 then 2 else 1

/-- Ingest contexts and slots of a variant: streams, developer contexts, dictionary slots (Table 11.1). -/
def ingestMax (variant : Nat) : Nat × Nat × Nat :=
  if variant = 1 then (256, 128, 0) else if variant = 2 then (128, 64, 0) else (0, 0, 8)

/-- Module power limit of a variant in W (Table 0.1). -/
def powerLimit (variant : Nat) : Nat := if variant = 1 then 2900 else if variant = 2 then 3100 else 3300

/-! ## Counters and records -/

/-- 64-bit saturation (R494). -/
def sat64 (n : Nat) : Nat := Nat.min n (2 ^ 64 - 1)

/-- Counter `i` of a unit raised (R494). -/
def State.count (s : State) (unit i n : Nat) : State :=
  { s with health := { s.health with counts := tmod 0 s.health.counts (unit * 32 + i) fun v => sat64 (v + n) } }

/-- The steward with the device duties (Table 15.1, R368). -/
def State.dutyPair (s : State) : Nat := s.stewards.duty

/-- Whether the steward with the device duties runs. -/
def State.dutyServed (s : State) : Bool := (s.pair s.dutyPair).st = 1

/-- The health records that wait, written once the steward with the device duties runs (Table 15.1). -/
def State.flushHealth (s : State) : State :=
  let h := s.health
  { s with health := if !s.dutyServed then h else { h with
    records := h.held.reverse ++ h.records
    seq := h.seq + h.held.length
    held := [] } }

/-- A health record (R499), written by the steward with the device duties: at once where it runs, else when one does (Table 15.1). -/
def State.healthRecord (s : State) (kind code unit room value : Nat) : State :=
  let one : HealthRec := ⟨s.now, kind, code, unit, room, value⟩
  { s with health := { s.health with held := s.health.held ++ [one] } }.flushHealth

/-- A maintenance alarm (Table 20.9). -/
def State.maintAlarm (s : State) (code unit value : Nat) : State :=
  let s := s.healthRecord 1 code unit 0xFFFF value
  { s with health := { s.health with alarm := true } }

/-- Corrected errors of one keeper counted in ECC_CORR of its unit; more than 1,000 of them within 24 h raise the alarm of Table 15.5. -/
def State.corrected (s : State) (unit keeper n : Nat) : State :=
  if n = 0 then s
  else
    let l := (s.now, n) :: (tget [] s.health.eccSeen keeper).filter fun x => decide (s.now < x.1 + 86400000000000)
    let s := { s.count unit 0 n with health := { (s.count unit 0 n).health with eccSeen := tset s.health.eccSeen keeper l } }
    let m := sumNat (l.map (·.2))
    if 1000 < m then s.maintAlarm 0 unit m else s

/-- The device goes out of service, waiting, on one condition (R493); `reason` numbers the condition. -/
def State.setWaiting (s : State) (reason code : Nat) : State :=
  { s with health := { s.health with waiting := if s.health.waiting.contains reason then s.health.waiting else reason :: s.health.waiting,
                                      oosCode := code } }

def State.clearWaiting (s : State) (reason : Nat) : State :=
  { s with health := { s.health with waiting := s.health.waiting.filter (· ≠ reason) } }

/-- Whether the device accepts a new job (R493). -/
def State.inService (s : State) : Bool := !s.health.oos && s.health.waiting.isEmpty

/-- A network counter of Table 16.10 raised. -/
def State.netCount (s : State) (i : Nat) : State :=
  { s with net := { s.net with counts := tmod 0 s.net.counts i fun v => v + 1 } }

/-- A room's word of the active schedule (SCHED_ROOM_ACT), its share, and whether it is latency-critical (R344, Table 14.1). -/
def State.schedWord (s : State) (r : Nat) : Nat := tget 100 s.sched.active.rooms r
def State.share (s : State) (r : Nat) : Nat := bits (s.schedWord r) 9 0
def State.lc (s : State) (r : Nat) : Bool := bit (s.schedWord r) 16

/-- A room's ledger changed by the stewards: the class and the share of the active schedule are those of this update (Table 14.9). -/
def State.modLedger (s : State) (r : Nat) (f : Ledger → Ledger) : State :=
  s.modRoom r fun x => { x with ledger := { f x.ledger with cls := b2n (s.lc r), share := s.share r } }

/-- A ledger counter raised (Table 14.9), by its place from `launches` (0). -/
def State.charge (s : State) (r i n : Nat) : State :=
  s.modLedger r fun l => { l with counts := tmod 0 l.counts i fun v => sat64 (v + n) }

/-- A determinism waiver recorded in the room's ledger (R11): bit 0 unordered adds, bit 1 loose collectives. -/
def State.waive (s : State) (r b : Nat) : State :=
  s.modLedger r fun l => { l with waiver := l.waiver ||| 2 ^ b, waiverAny := l.waiverAny ||| 2 ^ b }

/-! ## Audit log (R451, R452) -/

/-- The 128 bytes of an audit record (Table 19.2). -/
def Audit.bytes (a : Audit) : List Byte :=
  leBytes 8 a.seq ++ leBytes 8 a.time ++ leBytes 2 a.atype ++ leBytes 1 a.role ++ leBytes 1 a.slot ++ leBytes 2 a.room ++
    leBytes 2 a.code ++ (a.data ++ List.replicate 56 0).take 56 ++ (a.prev ++ List.replicate 48 0).take 48

/-- SHA-384 of the last audit record; zero for an empty chain (R451). -/
def Strongroom.head (x : Strongroom) : List Byte :=
  match x.log with
  | a :: _ => if a.seq + 1 = x.nextSeq then sha384 a.bytes else List.replicate 48 0
  | [] => List.replicate 48 0

/-- Unacknowledged records held (R452). -/
def Strongroom.unacked (x : Strongroom) : Nat := x.nextSeq - x.acked

def Strongroom.logAlarm (x : Strongroom) : Bool := decide (458752 ≤ x.unacked)
def Strongroom.logFull (x : Strongroom) : Bool := decide (507904 ≤ x.unacked)

/-- An audit record written, newest first; where every place is taken the event is only counted (R452). -/
def State.audit (s : State) (atype role slot room code : Nat) (data : List Byte) : State :=
  if 524288 ≤ s.sec.unacked then { s with sec := { s.sec with logLost := s.sec.logLost + 1 } }
  else
    let a : Audit := ⟨s.sec.nextSeq, if s.time.isSet then s.now else 0, atype, role, slot, room, code, data, s.sec.head⟩
    { s with sec := { s.sec with log := a :: s.sec.log, nextSeq := s.sec.nextSeq + 1 } }

/-! ## Host memory (R303) -/

/-- Whether the host's IOMMU lets a function read, or write, a range. -/
def State.hostOk (s : State) (fn a n : Nat) (write : Bool) : Bool :=
  !s.hostRefusals.any fun h => h.fn = fn && (if write then h.write else h.read) && overlaps a n h.lo (h.hi - h.lo)

/-- Bytes of host memory written. -/
def State.hostPut (s : State) (a : Nat) (bs : List Byte) : State := { s with host := memWriteN s.host a bs }

/-- What the host did before a command it sends. -/
def hostAct (s : State) (a : HostAct) : State :=
  match a with
  | .store addr bytes => s.hostPut addr (bytes.map (BitVec.ofNat 8))
  | .refuse f lo hi r w => { s with hostRefusals := ⟨f, lo, hi, r, w⟩ :: s.hostRefusals }
  | .allow f => { s with hostRefusals := s.hostRefusals.filter fun h => h.fn ≠ f }

def State.hostActs (s : State) (l : List HostAct) : State := l.foldl hostAct s

/-- A refused host access counted (Table 22.4). -/
def State.countRefused (s : State) (r : Nat) : State := s.modRoom r fun x => { x with refused := x.refused + 1 }

/-! ## MSI-X messages (R324) -/

/-- A message on a vector of a function, or its pending bit where the vector is masked (R324). -/
def State.sendMsix (s : State) (fn v : Nat) : State :=
  let e := tget MsixVec.reset s.msix (fn * 32 + v)
  if e.masked then { s with msix := tset s.msix (fn * 32 + v) { e with pending := true } }
  else s.emit (.msix fn v e.addr e.data)

/-- A POWER_EVENTS bit set, with its message where POWER_IRQ.EN is 1 (R484, Table 20.12). -/
def State.powerEvent (s : State) (b : Nat) : State :=
  let s := { s with power := { s.power with events := s.power.events ||| 2 ^ b } }
  if bit s.power.irq 5 then s.sendMsix 0 (bits s.power.irq 4 0) else s

/-! ## Completions (R321 to R324) -/

/-- The 16 bytes of a completion record (Table 12.7). -/
def completionBytes (index ring : Nat) (rev phase : Bool) (status aux detail result0 result1 : Nat) : List Byte :=
  leBytes 2 index ++ leBytes 2 (ring % 16384 + 16384 * b2n rev + 32768 * b2n phase) ++ leBytes 1 status ++ leBytes 1 aux ++
    leBytes 2 detail ++ leBytes 4 result0 ++ leBytes 4 result1

/-- Free slots of a completion ring: neither written and unconsumed nor reserved (R322). -/
def Ring.freeSlots (q : Ring) : Nat := q.depth - (q.count + 2 ^ 32 - q.bell) % 2 ^ 32 - q.reserved

/-- A record written into the next slot of a completion ring: the memory write, the count, the moderation and the message (R321, R324).
A write that the host refuses halts the ring, sets POST_ERR and raises the vector once (R323). -/
def State.writeRecord (s : State) (cq : Nat) (h : Held) : State :=
  let q := s.ring cq
  let a := q.base + 16 * (q.count % q.depth)
  if !s.hostOk q.room a 16 true then
    let s := s.setRing cq { q with st := .halted, held := q.held ++ [h] }
    let s := (s.countRefused q.room).modRoom q.room fun x => { x with postErr := true }
    s.sendMsix q.room q.vector
  else
    let s := s.hostPut a (completionBytes h.index h.ring h.rev (q.count / q.depth % 2 = 0) h.status h.aux h.detail h.result0 h.result1)
    let n := q.unsent + 1
    let send := q.ien && (h.send || h.rev || (decide (0 < q.modCount) && decide (q.modCount ≤ n)))
    let s := s.setRing cq { q with
      count := (q.count + 1) % 2 ^ 32, reserved := q.reserved - b2n h.reserved,
      unsent := if send then 0 else n, oldest := if send then 0 else if q.unsent = 0 then s.now else q.oldest }
    if send then s.sendMsix q.room q.vector else s

/-- A record for a completion ring: written, or kept until the ring is restarted or a slot is free (DESIGN CHOICE, log entry 21). -/
def State.postHeld (s : State) (cq : Nat) (h : Held) : State :=
  let q := s.ring cq
  if q.kind ≠ 2 ∨ q.st = .disabled then s
  else if q.st = .halted ∨ !q.held.isEmpty ∨ (h.rev ∧ q.freeSlots = 0) then s.setRing cq { q with held := q.held ++ [h] }
  else s.writeRecord cq h

/-- Kept records written while slots are free. -/
def State.flushHeld (s : State) (cq : Nat) : List Held → State
  | [] => s
  | h :: r =>
    let q := s.ring cq
    if q.st = .halted ∨ (h.rev ∧ q.freeSlots = 0) then s.setRing cq { q with held := q.held ++ (h :: r) }
    else (s.writeRecord cq h).flushHeld cq r

/-- The records a completion ring keeps, tried again. -/
def State.flush (s : State) (cq : Nat) : State := (s.modRing cq fun q => { q with held := [] }).flushHeld cq (s.ring cq).held

def State.post (s : State) (cq index ring : Nat) (rev now_ reserved : Bool) (status aux detail result0 result1 : Nat) : State :=
  s.postHeld cq ⟨index, ring, rev, now_, reserved, status, aux, detail, result0, result1⟩

/-- The first device-wide ring of a room's grant (Table 13.2). -/
def Room.ringBase (x : Room) : Nat := bits x.grant.rings 13 0
/-- Rings granted (Table 13.2). -/
def Room.ringCount (x : Room) : Nat := bits x.grant.rings 26 16

/-- A ring event in the room's initialisation ring (R305, R323). -/
def State.postInit (s : State) (r index ring status detail result0 result1 : Nat) : State :=
  s.post (s.room r).ringBase index ring true true false status 0 detail result0 result1

/-- A descriptor's completion: it leaves intake, its reserved slot is used (R321, R322). -/
def State.complete (s : State) (ring seq status detail result0 result1 aux : Nat) : State :=
  let q := s.ring ring
  match q.descs.find? fun d => d.seq = seq with
  | none => s
  | some d =>
    let s := s.setRing ring { q with descs := q.descs.eraseP fun e => e.seq = seq }
    s.post q.cq (seq % 65536) ring false (bit d.raw 9) true status aux detail result0 result1

/-! ## Completion status codes (Table 23.1) -/

def stOk : Nat := 0
def stCancelled : Nat := 1
def stLoaderReject : Nat := 2
def stBadDescriptor : Nat := 3
def stAccessFault : Nat := 4
def stJobFault : Nat := 5
def stRoomTurnover : Nat := 6
def stVersionRefused : Nat := 7
def stTimeout : Nat := 8
def stSecurityRefused : Nat := 9
def stFenced : Nat := 10
def stResourceExhausted : Nat := 11
def stDataError : Nat := 12

/-! ## Stewards (Table 15.1, R368) -/

/-- The steward pair that serves a room, after any duties that passed (R368). -/
def State.pairOf (s : State) (r : Nat) : Nat := tget (r % 4) s.stewards.heir (r % 4)

/-- The interface level of the running image, as ROOM_FW_IFACE reads it (R374). -/
def State.fwIface (s : State) : Nat :=
  match s.stewards.fw with
  | some f => f.iface
  | none => 0x00010000

/-- An access refused under R528 or R530, counted. -/
def State.badAcc (s : State) : State := { s with badAccess := sat64 (s.badAccess + 1) }

/-- Whether the pair that serves a room runs. -/
def State.served (s : State) (r : Nat) : Bool := (s.pair (s.pairOf r)).st = 1

/-- Whether an incarnation of a room can be ended now: its pair runs, or has failed for good and others end it (R368, R377). -/
def State.ends (s : State) (r : Nat) : Bool := (s.pair (s.pairOf r)).st = 1 || (s.pair (s.pairOf r)).st = 3

/-- The successor of a failed pair: the first running one after it modulo 4, else the first that restarts (R368). -/
def State.successor (s : State) (p : Nat) : Option Nat :=
  let l := [(p + 1) % 4, (p + 2) % 4, (p + 3) % 4]
  (l.find? fun q => (s.pair q).st = 1).or (l.find? fun q => (s.pair q).st = 2)

/-- Rings of the rooms that pass a test, moved from one state to another (R306, R325). -/
def State.thawRings (s : State) (p : Nat → Bool) (a b : RingSt) : State :=
  { s with rings := tmap s.rings fun _ q => if p q.room && q.st == a then { q with st := b } else q }

/-- Whether incarnations run that a failure of a pair takes: those of rooms it serves and, with the device duties, every part of a caravan job (R376). -/
def State.pairBusy (s : State) (p : Nat) : Bool :=
  s.rooms.any fun x => (s.pairOf x.1 == p && x.2.job.isSome) || (s.dutyPair == p && x.2.job.any fun j => decide (1 < j.devices))

/-- The rooms of one failed steward passed to its successor, which has still to rebuild their rings (R368). -/
def State.passRooms (s : State) (k : Nat) : State :=
  let p := tget k s.stewards.heir k
  if (s.pair p).st ≠ 3 ∨ s.pairBusy p then s
  else
    match s.successor p with
    | none => s
    | some q =>
      let s := { s with stewards := { s.stewards with
        heir := tset s.stewards.heir k q
        handed := k :: s.stewards.handed } }
      if (s.pair q).st = 1 then s.thawRings (fun r => r % 4 = k) .frozen .active else s

/-- The device duties of a failed steward passed to steward 2, or to 3 where 2 has failed (R368). -/
def State.passDevice (s : State) : State :=
  let q := if (s.pair 2).st = 3 then 3 else 2
  if (s.pair s.dutyPair).st ≠ 3 ∨ s.pairBusy s.dutyPair ∨ (s.pair q).st = 3 then s
  else
    { s with stewards := { s.stewards with
      duty := q
      handed := 4 :: s.stewards.handed } }.flushHealth

/-- Duties of failed pairs pass once no incarnation that the failure takes runs (R368). -/
def State.passDuties (s : State) : State := ([0, 1, 2, 3].foldl State.passRooms s).passDevice

/-! ## Cores and contexts -/

/-- Whether a core is in a room's grant (Table 13.2). -/
def Room.hasCore (x : Room) (core : Nat) : Bool :=
  decide (coreIdx core < 64) && decide (coreDie core < 2) && bit (if coreDie core = 0 then x.grant.cores0 else x.grant.cores1) (coreIdx core)

def Core.ctx (c : Core) (r : Nat) : Option Ctx := tfind c.ctxs r
def Core.setCtx (c : Core) (r : Nat) (x : Ctx) : Core := { c with ctxs := tset c.ctxs r x }

/-- Changes a room's context on a core, where it holds one. -/
def State.modCtx (s : State) (core r : Nat) (f : Ctx → Ctx) : State :=
  match (s.core core).ctx r with
  | none => s
  | some x => s.modCore core fun c => c.setCtx r (f x)

/-- Stall causes of Table 10.4. -/
def directRead : Nat := 0x03
def windowSlot : Nat := 0x05
def benchOperand : Nat := 0x06
def snapCopy : Nat := 0x07
def snapPending : Nat := 0x08
def engineWait : Nat := 0x0A
def collectiveWait : Nat := 0x0B
def barrierPeer : Nat := 0x0C

/-- One stall of a core of a room: its nanoseconds and its event (R265). Cause 0 is none. -/
def State.stall (s : State) (r cause ns : Nat) : State :=
  if cause = 0 ∨ ns = 0 then s
  else
    let add (n : Nat) (t : Tbl Nat) : Tbl Nat := tmod 0 t (cause - 1) fun v => sat64 (v + n)
    s.modRoom r fun x => { x with
      stallNs := add ns x.stallNs
      stallEv := add 1 x.stallEv }

/-- The stall counters of a room as its ledger shows them from a step barrier on (R265). -/
def State.ledgerStalls (s : State) (r : Nat) : State :=
  s.modLedger r fun l => { l with
    stallNs := (s.room r).stallNs
    stallEv := (s.room r).stallEv }

/-- The physical core a logical core has at delivery (Table 2.2). -/
def deliveredCore (l : Nat) : Nat := if l < 8 then l else l + 2

/-- The unit index of a core's physical core (R494): through the core map, the delivered one where none is set. -/
def State.physUnit (s : State) (core : Nat) : Nat :=
  68 * coreDie core + tget (deliveredCore (coreIdx core)) s.health.coreMap (coreDie core * 64 + coreIdx core)

/-- Whether the physical core of a logical core runs: neither gated nor on a tripped die (R487, R491). -/
def State.coreOn (s : State) (core : Nat) : Bool :=
  let u := s.physUnit core
  let p := u % 68
  let gated := if u / 68 = 0 then s.power.clkCores0 ||| s.power.pwrCores0 else s.power.clkCores1 ||| s.power.pwrCores1
  !bit gated p && !s.power.trip.contains (u / 68)

/-! ## Rooms -/

/-- All rooms by number, those listed first among equals. -/
def allRooms : List Nat := List.range 64

/-- Whether a room's job runs its steps. -/
def Room.running (x : Room) : Bool :=
  match x.job with
  | some j => decide (j.phase = 2) && !j.faulted
  | none => false

/-- Whether any room runs an incarnation. -/
def State.anyJob (s : State) : Bool := s.rooms.any fun p => p.2.busy

end Sys2Proof.Machine
end

