-- ==== Sys2Proof/Machine/Mem.lean ====
section
/-! DEFINITION. Where a room's pages lie: frames, quotas, placement, the zero state and migration (R221, R249 to R260). -/

namespace Sys2Proof.Machine

/-- Bytes of a page (R247). -/
def pageBytes : Nat := 2097152

/-! ## Frames -/

/-- Stack sites beside a die, ascending. -/
def State.dieSites (s : State) (die : Nat) : List Nat := s.sites.filter fun k => siteDie k = die

/-- Upper staging frames a stack site gives its haul engine (R256): 64 per die, round the die's sites, highest-numbered first. -/
def State.stagingAt (s : State) (site : Nat) : Nat :=
  let l := s.dieSites (siteDie site)
  64 / l.length + (if l.idxOf site < 64 % l.length then 1 else 0)

/-- Frames of a site that may hold room pages. -/
def State.usableFrames (s : State) (site : Nat) : Nat := framesPerStack - s.stagingAt site

/-- Frames of a site that a room's pages and special ranges hold, the destinations of moves included. -/
def Tier.upperAt (site : Nat) : Tier → List Nat
  | .upper k f => if k = site then [f] else []
  | _ => []

def Tier.cellarAt (half : Nat) : Tier → List Nat
  | .cellar k f => if k = half then [f] else []
  | _ => []

def Page.tiers (p : Page) : List Tier :=
  match p.moving with
  | some m => [p.tier, m.dst]
  | none => [p.tier]

def RoomMem.upperFrames (m : RoomMem) (site : Nat) : List Nat :=
  m.pages.flatMap (fun p => p.2.tiers.flatMap (Tier.upperAt site)) ++
    m.specials.flatMap fun x => x.frames.filterMap fun f => if f.2.1 = site then some f.2.2 else none

def RoomMem.cellarFrames (m : RoomMem) (half : Nat) : List Nat :=
  m.pages.flatMap fun p => p.2.tiers.flatMap (Tier.cellarAt half)

/-- Frames of a site that no room may be given: held by a room, withdrawn, or awaiting zeroing (R238, R246, R341). -/
def State.takenUpper (s : State) (site : Nat) : List Nat :=
  s.rooms.flatMap (fun p => p.2.mem.upperFrames site) ++ (s.stack site).withdrawn ++ (s.stack site).held.map (·.2)

def State.takenCellar (s : State) (half : Nat) : List Nat := s.rooms.flatMap fun p => p.2.mem.cellarFrames half

/-- The lowest number not in a list, from `k` on, before a limit. -/
def lowestFree (taken : List Nat) (limit : Nat) : Nat → Nat → Option Nat
  | 0, _ => none
  | n + 1, k => if limit ≤ k then none else if taken.contains k then lowestFree taken limit n (k + 1) else some k

/-- A free upper frame of a site: the lowest-numbered (R256, step 4). -/
def State.freeUpper (s : State) (site : Nat) : Option Nat :=
  if (s.stack site).stopped then none
  else let t := s.takenUpper site; lowestFree t (s.usableFrames site) (t.length + 1) 0

/-- A free frame of a cellar half: the lowest-numbered (R257). -/
def State.freeCellar (s : State) (half : Nat) : Option Nat :=
  let t := s.takenCellar half
  lowestFree t (framesPerHalf - 32) (t.length + 1) 0

/-- R256: the frame for a page, from the site list turned to position (v + r) mod n. -/
def State.placeUpper (s : State) (r v attr : Nat) : Option Tier :=
  let l := if bit attr 2 then s.dieSites (b2n (bit attr 3)) else s.sites
  if l.isEmpty then none
  else
    let k := (v + r) % l.length
    firstSome (fun site => (s.freeUpper site).map (Tier.upper site)) (l.drop k ++ l.take k)

/-- R257: the cellar frame for a page. -/
def State.placeCellar (s : State) (v : Nat) : Option Tier :=
  firstSome (fun h => (s.freeCellar h).map (Tier.cellar h)) [v % 2, 1 - v % 2]

/-! ## Charges (R254, Table 22.7) -/

def RoomMem.specialFrames (m : RoomMem) : Nat := sumNat (m.specials.map fun x => x.frames.length)

def RoomMem.classPages (m : RoomMem) (cls : Nat) : Nat := (m.pages.filter fun p => p.2.cls = cls).length

/-- Frames reserved for snapshot slots (R275). -/
def RoomMem.snapReserve (m : RoomMem) : Nat :=
  match m.snap.plan with
  | some p => 2 * (p.snapBytes / pageBytes) + 2 * ceilDiv p.mirrorBytes pageBytes
  | none => 0

def Tier.isUpper : Tier → Bool
  | .upper _ _ => true
  | _ => false

def Tier.isCellar : Tier → Bool
  | .cellar _ _ => true
  | _ => false

/-- Condition 1 of R254. -/
def RoomMem.charge1 (m : RoomMem) : Nat := m.classPages 2 + m.specialFrames
/-- Condition 2 of R254. -/
def RoomMem.charge2 (m : RoomMem) : Nat := m.classPages 4 + m.snapReserve
/-- Condition 3 of R254: MEM_RESERVED. -/
def RoomMem.charge3 (m : RoomMem) : Nat := m.pages.length + m.specialFrames + m.snapReserve

/-- MEM_UPPER_USED (Table 22.7). -/
def RoomMem.upperUsed (m : RoomMem) : Nat :=
  m.charge1 + (m.pages.filter fun p => (p.2.cls = 1 ∨ p.2.cls = 3) && p.2.tier.isUpper).length

/-- MEM_CELLAR_USED (Table 22.7). -/
def RoomMem.cellarUsed (m : RoomMem) : Nat :=
  m.charge2 + (m.pages.filter fun p => (p.2.cls = 1 ∨ p.2.cls = 3) && p.2.tier.isCellar).length

/-- R254: the three conditions on a room's memory under its quotas. -/
def Room.quotaOk (x : Room) (m : RoomMem) : Bool :=
  decide (m.charge1 ≤ x.grant.upper) && decide (m.charge2 ≤ x.grant.cellar) && decide (m.charge3 ≤ x.grant.upper + x.grant.cellar)

/-- Whether the upper quota holds an unused frame (R254). -/
def Room.upperRoom (x : Room) : Bool := decide (x.mem.upperUsed < x.grant.upper)

/-! ## Changing a room's pages -/

def State.modMem (s : State) (r : Nat) (f : RoomMem → RoomMem) : State := s.modRoom r fun x => { x with mem := f x.mem }

def State.setPage (s : State) (r v : Nat) (p : Page) : State := s.modMem r fun m => { m with pages := tset m.pages v p }

/-- Pages of a room that an unmap or a RESTORE frees from the mark of a lost frame (R489). -/
def State.forgetLost (s : State) (r : Nat) (p : Nat → Bool) : State :=
  { s with stackTbl := tmap s.stackTbl fun _ k => { k with lost := k.lost.filter fun x => !(x.1 = r && p x.2) } }

/-- Whether a page stays where the engine put it: an image page (R75), or a page of a registered view's run (R136). -/
def RoomMem.pinnedPage (m : RoomMem) (v : Nat) : Bool :=
  m.pinned.contains v || m.views.any fun x => decide (x.2.run.1 ≤ v) && decide (v < x.2.run.1 + x.2.run.2)

/-- The pages of a room that may be demoted to make room: its upper-resident MAP_COLD, then its MAP_AUTO pages, lowest heat first, then highest page number (R254, R259). -/
def RoomMem.victims (m : RoomMem) : List (Nat × Page) :=
  let of (cls : Nat) := (m.pages.filter fun p => p.2.cls = cls && p.2.tier.isUpper && p.2.moving.isNone && !m.pinnedPage p.1).reverse
  sortBy (fun p => p.2.heat) (of 3) ++ sortBy (fun p => p.2.heat) (of 1)

/-- A frame as it is given to a page or a range: zeroed, so that no sector of it is poisoned (R246). -/
def State.zeroFrame (s : State) (t : Tier) : State :=
  match t with
  | .upper site f => s.modStack site fun k => { k with poison := k.poison.filter fun x => x.1 ≠ f }
  | _ => s

/-- A page seated in a newly allocated frame. -/
def State.seat (s : State) (r v : Nat) (p : Page) (t : Tier) : State :=
  (s.zeroFrame t).setPage r v { p with
    tier := t
    moving := none }

/-- R258: a frame for a page's first write, by its class. -/
def State.firstFrame (s : State) (r v : Nat) (p : Page) : Tier :=
  let up := s.placeUpper r v p.attr
  let down := s.placeCellar v
  let pick : Option Tier :=
    if p.cls = 2 ∨ (s.room r).mem.pinnedPage v then up
    else if p.cls = 1 && (s.room r).upperRoom then (match up with | some t => some t | none => down)
    else down
  pick.getD .zero

/-- The move of a page, and of the page it is swapped with, called off (R260). -/
def RoomMem.cancelMove (m : RoomMem) (v : Nat) : RoomMem :=
  { m with pages := tmap m.pages fun k y =>
      if k = v ∨ y.moving.any (fun z => z.partner = some v) then { y with moving := none } else y }

/-- A page pending a snapshot put at the head of the copy queue (R273). -/
def State.headOfCopy (s : State) (r v : Nat) : State :=
  if (s.room r).mem.snap.pending.contains v then
    s.modMem r fun m => { m with snap := { m.snap with pending := v :: m.snap.pending.filter (· ≠ v) } }
  else s

/-- What a write does to the page it lands on: a move is cancelled (R260), the first write allocates (R258), a page pending a snapshot goes to the head of the copy queue (R273). -/
def State.touchWrite (s : State) (r v : Nat) : State :=
  let s := (s.headOfCopy r v).modMem r fun m => m.cancelMove v
  match tfind (s.room r).mem.pages v with
  | none => s
  | some p => if p.tier = .zero then s.seat r v p (s.firstFrame r v p) else s

/-- The upper site and frame of a page, where it has one. -/
def RoomMem.upperOf (m : RoomMem) (v : Nat) : Option (Nat × Nat) :=
  match tfind m.pages v with
  | some p => (match p.tier with | .upper k f => some (k, f) | _ => none)
  | none => firstSome (fun x => firstSome (fun f => if x.base / pageBytes + f.1 = v then some f.2 else none) x.frames) m.specials

/-- Heat gained by an access of a core, bench unit, view or decode batch: 1 for every 4 KiB, rounded up (R259). -/
def State.heat (s : State) (r v n : Nat) : State :=
  s.modMem r fun m =>
    match tfind m.pages v with
    | some p => { m with pages := tset m.pages v { p with heat := Nat.min 65535 (p.heat + ceilDiv n 4096) } }
    | none => m

/-- The pages an extent of bytes touches, with the bytes of it in each. -/
def pagesOf (va n : Nat) : List (Nat × Nat) :=
  if n = 0 then []
  else (span (va / pageBytes) ((va + n - 1) / pageBytes + 1 - va / pageBytes)).map fun v =>
    (v, Nat.min (va + n) ((v + 1) * pageBytes) - Nat.max va (v * pageBytes))

/-! ## Errors of the cellar (R282) -/

/-- Unit index of a cellar half (R494), and its errors counted: corrected ones in ECC_CORR, an uncorrectable one in ECC_UNCORR. -/
def cellarUnit (half : Nat) : Nat := 156 + half
def State.cellarErrs (s : State) (e : CellarRead) : State :=
  (s.corrected (cellarUnit e.half) (512 + e.package) e.corrected).count (cellarUnit e.half) 1 (b2n e.bad)

/-- Whether a page of a room lies in a cellar half. -/
def RoomMem.inHalf (m : RoomMem) (half v : Nat) : Bool := (tfind m.pages v).any fun p => !(Tier.cellarAt half p.tier).isEmpty

/-! ## Encryption of the cellar (R281) -/

/-- The tweak of a 4 KiB data unit: frame number × 512 + granule. -/
def cellarTweak (frame granule : Nat) : Nat := frame * 512 + granule

/-- What a package holds of a data unit under a key: AES-256-XTS, an external standard. -/
def xtsSeal (key frame granule : Nat) (unit : List Byte) : List Byte :=
  ((Config.crypto "AES-256-XTS" (key :: cellarTweak frame granule :: unit.map BitVec.toNat)).map (BitVec.ofNat 8) ++ List.replicate 4096 0).take 4096

/-- The bytes that the packages hold of a granule of a cellar frame in which a page of some room lies: never its plaintext, and nothing once the room's
key is discarded. Every reader of the room sees the plaintext, which is what `RoomMem.data` holds. -/
def State.packageBytes (s : State) (half frame granule : Nat) : Option (List Byte) :=
  firstSome (fun p : Nat × Room => firstSome (fun q : Nat × Page =>
    if q.2.tier = .cellar half frame then
      p.2.sec.cellarKey.map fun k => xtsSeal k frame granule (memReadN p.2.mem.data (q.1 * pageBytes + 4096 * granule) 4096)
    else none) p.2.mem.pages) s.rooms

/-! ## Poisoned sectors (R237) -/

/-- Whether an extent of a room's pages holds a poisoned sector. -/
def State.poisoned (s : State) (r va n : Nat) : Bool :=
  (pagesOf va n).any fun vp =>
    match (s.room r).mem.upperOf vp.1 with
    | some (site, f) => (s.stack site).poison.any fun x => x.1 = f && overlaps va n (vp.1 * pageBytes + 32 * x.2) 32
    | _ => false

/-- A write replaces whole poisoned sectors (R237). -/
def State.cleanse (s : State) (r va n : Nat) : State :=
  (pagesOf va n).foldl (fun s vp =>
    match (s.room r).mem.upperOf vp.1 with
    | some (site, f) =>
      if (s.stack site).poison.isEmpty then s
      else s.modStack site fun k => { k with poison := k.poison.filter fun x =>
        !(x.1 = f && decide (va ≤ vp.1 * pageBytes + 32 * x.2) && decide (vp.1 * pageBytes + 32 * x.2 + 32 ≤ va + n)) }
    | _ => s) s

/-! ## Address checks (R250, Table 10.1) -/

def RoomMem.specialOf (m : RoomMem) (va : Nat) : Option Special := m.specials.find? fun x => decide (x.base ≤ va) && decide (va < x.base + x.bytes)

/-- The check of one ordinary page (Table 10.1, R489). -/
def State.checkPage (s : State) (r v : Nat) (write : Bool) : Option Nat :=
  let m := (s.room r).mem
  match tfind m.pages v with
  | none => if (m.specialOf (v * pageBytes)).isSome then some Code.memSpecial else some Code.memUnmapped
  | some p =>
    if v = 0 ∨ 2 ^ 31 ≤ v then some Code.memUnmapped
    else if write && (bit p.attr 0 || m.pinned.contains v) then some Code.memReadonly
    else if s.stackTbl.any (fun k => k.2.lost.contains (r, v)) then some Code.pwrPageLost
    else none

/-- The check of an extent of ordinary memory, page by page in ascending order (R250). -/
def State.checkRange (s : State) (r va n : Nat) (write : Bool) : Option Nat :=
  firstSome (fun v => s.checkPage r v.1 write) (pagesOf va n)

/-- Whether an extent lies in mapped ordinary memory. -/
def State.mapped (s : State) (r va n : Nat) : Bool := (s.checkRange r va n false).isNone

/-- Bytes of ordinary memory. -/
def State.readVa (s : State) (r va n : Nat) : List Byte := memReadN (s.room r).mem.data va n

/-- Ordinary memory written: pages touched, sectors replaced, bytes stored. Pages pending a snapshot keep the copy they were marked with. -/
def State.writeVa (s : State) (r va : Nat) (bytes : List Byte) : State :=
  let s := (pagesOf va bytes.length).foldl (fun s v => s.touchWrite r v.1) s
  let s := s.cleanse r va bytes.length
  s.modMem r fun m => { m with data := memWriteN m.data va bytes }

end Sys2Proof.Machine
end

