-- ==== Sys2Proof/Machine/Contexts.lean ====
section
/-! DEFINITION. Who is served next: the arbiters with their shares (R344, R347, R348), the slots of the cyclic table (R349, R353), the tokens of the stacks (R362), and the context sets of a core: whether a word may issue (R79), readiness, core time (R366) and sync counters (R94). -/

namespace Sys2Proof.Machine

/-! ## Arbiters (R347, Table 14.2) -/

/-- The arbiters by number: a core by its code, a steward pair's intake, the two paths of a stack, the bench units of a stack, the forest engine (both
dies' engines serve a room as one, R183), the haul engine of a die, and the decode engines, developer pipelines and tokenizer lanes. -/
def arbIntake (pair : Nat) : Nat := 256 + pair
def arbNormal (site : Nat) : Nat := 260 + site
def arbSieve (site : Nat) : Nat := 276 + site
def arbBench (site : Nat) : Nat := 292 + site
def arbForest : Nat := 308
def arbHaul (die : Nat) : Nat := 310 + die
def arbIngest (kind : Nat) : Nat := 312 + kind
/-- The transmit arbiter of a port (R397). -/
def arbNet (port : Nat) : Nat := 320 + port

/-- The virtual time of a room at an arbiter: v[r]. -/
def State.vt (s : State) (arb r : Nat) : Nat := tget 0 s.sched.vtime (arb * 64 + r)

/-- `pick`: the ready room with the least virtual time, the lower number among equals; latency-critical rooms first where the arbiter's row says so. -/
def State.pick (s : State) (arb : Nat) (lcFirst : Bool) (ready : List Nat) : Option Nat :=
  let among := if lcFirst && ready.any s.lc then ready.filter s.lc else ready
  (sortBy (s.vt arb) (sortBy id among)).head?

/-- `charge`: a room's virtual time moved on by what it used, over its share. -/
def State.spend (s : State) (arb r used : Nat) : State :=
  { s with sched := { s.sched with vtime := tmod 0 s.sched.vtime (arb * 64 + r) (· + used * 1000 / Nat.max 1 (s.share r)) } }

/-- `wake`: a room that becomes ready keeps no credit for idle time; `others` are the rooms ready beside it. -/
def State.wakeOn (s : State) (arb r : Nat) (others : List Nat) : State :=
  match others with
  | [] => s
  | q :: rest =>
    let least := minNat (s.vt arb q) ((q :: rest).map (s.vt arb))
    { s with sched := { s.sched with vtime := tmod 0 s.sched.vtime (arb * 64 + r) (Nat.max least) } }

/-- The rooms ready at an arbiter as it chooses: `wake` runs for each that was not ready when it last served one, the lower number first (log entry 111). -/
def State.arrive (s : State) (arb : Nat) (ready : List Nat) : State :=
  let old := (tget [] s.sched.ready arb).filter ready.contains
  (ready.foldl (fun a r => if a.2.contains r then a else (a.1.wakeOn arb r a.2, r :: a.2)) (s, old)).1

/-- An arbiter's choice: the state in which it serves a room, where that room is the one it picks. -/
def State.serve (s : State) (arb : Nat) (lcFirst : Bool) (ready : List Nat) (r : Nat) : Option State :=
  let s := s.arrive arb ready
  if s.pick arb lcFirst ready = some r then some { s with sched := { s.sched with ready := tset s.sched.ready arb ready } } else none

/-- A service ended: of the rooms that were ready, those that still are stay so. -/
def State.settle (s : State) (arb : Nat) (ready : List Nat) : State :=
  { s with sched := { s.sched with ready := tmod [] s.sched.ready arb fun l => l.filter ready.contains } }

/-! ## Stack tokens (R362) -/

/-- A room's tokens at a stack at a time: bytes of normal path up to 4 KiB, and thousandths of a sieve access up to 32 accesses. -/
def State.tokensAt (s : State) (site r : Nat) : Nat × Nat :=
  let res := (s.room r).grant.stackRes
  let t := tget ⟨4096, 32000, 0⟩ (s.stack site).tokens r
  let ns := s.now - t.at_
  (Nat.min 4096 (t.normal + ns * 10 * bits res 15 0), Nat.min 32000 (t.sieve + ns * bits res 31 16))

/-- An access of a room at a stack: it takes its tokens where its bucket holds them, else its room's shares are charged (R347, R362). -/
def State.stackAccess (s : State) (site r : Nat) (sieve : Bool) (n : Nat) : State :=
  let (a, b) := s.tokensAt site r
  let res := (s.room r).grant.stackRes
  let fits := if sieve then bits res 31 16 != 0 && decide (1000 * n ≤ b) else bits res 15 0 != 0 && decide (n ≤ a)
  let left : Tokens := if !fits then ⟨a, b, s.now⟩ else if sieve then ⟨a, b - 1000 * n, s.now⟩ else ⟨a - n, b, s.now⟩
  let s := if res = 0 then s else s.modStack site fun k => { k with tokens := tset k.tokens r left }
  if fits then s else s.spend (if sieve then arbSieve site else arbNormal site) r n

/-! ## Entries of the cyclic table (Table 14.3) -/

def entStart (e : Nat) : Nat := fld e 0 2
def entLen (e : Nat) : Nat := fld e 2 2
def entRoom (e : Nat) : Nat := fld e 4 1
def entValid (e : Nat) : Bool := bit (fld e 5 1) 0
def entLend (e : Nat) : Bool := bit (fld e 5 1) 1
def entDie (e : Nat) : Nat := bits (fld e 5 1) 2 2
/-- The cores of an entry, by core code. -/
def entCores (e : Nat) : List Nat :=
  ((List.range 64).filter fun c => bit (fld e 8 8) c).map fun c => 128 * entDie e + c

/-- An entry of the active table. -/
def State.entry (s : State) (i : Nat) : Nat := tget 0 s.sched.active.entries i

/-- The frame of the active schedule in ns (R349). -/
def State.frameNs (s : State) : Nat := 1000 * s.sched.active.us

/-- The slots in force: those running, and those that start at this very time, before which no word is issued (R361). -/
def State.slotsNow (s : State) : List Nat :=
  s.sched.running ++ (List.range s.sched.active.nent).filter fun i =>
    entValid (s.entry i) && decide (0 < s.frameNs) && s.now % s.frameNs == 1000 * entStart (s.entry i) && !s.sched.running.contains i

/-- The owner of the running slot that names a core and whether the slot lends it; none where the slot is unclaimed for the core (R353). -/
def State.slotOwner (s : State) (core : Nat) : Option (Nat × Bool) :=
  firstSome (fun i =>
    let e := s.entry i
    if (entCores e).contains core && ((s.core core).ctx (entRoom e)).isSome then some (entRoom e, entLend e) else none) s.slotsNow

/-! ## Whether a word may issue (R79, R353) -/

/-- A word in flight that holds the core against a switch (R357). -/
def Flight.isTile (f : Flight) : Bool := f.kind ≠ .move

/-- Whether a context's position lets a word issue (R79): `dep`, the interlock on shape registers, and the vector unit or the unfold engine free,
each of which runs one word at a time (R108, R154). -/
def Ctx.mayIssue (x : Ctx) (w : Word) : Bool :=
  !(w.waits && !x.flights.isEmpty) &&
    !(x.flights.any fun f => f.kind = .shape && w.sregs.contains f.sreg) &&
    (match w with
      | .unfold _ => !(x.flights.any fun f => f.kind = .unfold)
      | .vector _ => !(x.flights.any fun f => f.kind = .vector)
      | _ => true)

/-- Device address of the next word, and its slot (R97). -/
def Ctx.wordAt (x : Ctx) : Nat × Nat :=
  if x.inPro then (x.pro + x.pc, x.pc / 32) else (x.body + x.pc, x.proLen / 32 + x.pc / 32)

/-- Whether a WAIT that stands next finds its count (R94); any other word waits for no counter. -/
def Ctx.countHeld (x : Ctx) : Word → Bool
  | .sync w => w.op ≠ 2 || decide (w.value ≤ tget 0 x.sync w.ctr)
  | _ => true

/-- Whether a room's context on a core has a ready word. -/
def State.ctxReady (s : State) (core r : Nat) : Bool :=
  match (s.core core).ctx r with
  | none => false
  | some x =>
    !x.stopped && !x.atBarrier && (s.room r).running &&
      (match fetchWord (s.room r).mem.data x.wordAt.1 with
        | some (w, _) => x.mayIssue w && x.countHeld w
        | none => false)

/-- Whether a room may issue words and requests on a core now: outside every claimed slot, in its own, or in one that is lent while its owner has no
ready word (R353, R357, R358). -/
def State.mayServe (s : State) (core r : Nat) : Bool :=
  match s.slotOwner core with
  | none => true
  | some (o, lend) => o == r || (lend && !s.ctxReady core o)

/-- The contexts of a core that have a ready word. -/
def State.readyRooms (s : State) (core : Nat) : List Nat := ((s.core core).ctxs.map (·.1)).filter (s.ctxReady core)

/-- One context's readiness noted: the time from which it is ready, and `wake` where it becomes so (R347, R360). -/
def State.refreshCtx (s : State) (core r : Nat) : State :=
  match (s.core core).ctx r with
  | none => s
  | some x =>
    if !s.ctxReady core r then s.modCtx core r fun x => { x with readyAt := none }
    else if x.readyAt.isSome then s
    else
      (s.modCtx core r fun x => { x with readyAt := some s.now }).wakeOn core r ((s.readyRooms core).filter (· ≠ r))

/-- The readiness of every context of a core noted. -/
def State.refresh (s : State) (core : Nat) : State := ((s.core core).ctxs.map (·.1)).foldl (fun s r => s.refreshCtx core r) s

/-! ## Stalls of a core (R264) -/

/-- The cause of Table 10.4 that the next row of a MOVE waits on, 0 for none: a page pending a snapshot that it writes, a cellar page that it reads. -/
def State.moveCause (s : State) (r : Nat) (f : Flight) : Nat :=
  match f.move with
  | none => 0
  | some w =>
    let m := (s.room r).mem
    let src := w.src + f.rows * w.srcPitch
    let dst := w.dst + f.rows * w.dstPitch
    if w.srcSp = 3 && (pagesOf src w.rowBytes).any fun p => (tfind m.pages p.1).any fun y => y.tier.isCellar then directRead
    else if w.dstSp = 3 && (pagesOf dst w.rowBytes).any fun p => m.snap.pending.contains p.1 then snapCopy
    else 0

/-- The cause that a core is stalled by: words are in flight, each waits on a cause, and the next word may not issue for them; the lowest counts. -/
def State.stalledBy (s : State) (r : Nat) (x : Ctx) : Nat :=
  let causes := x.flights.map (s.moveCause r)
  let stuck := match fetchWord (s.room r).mem.data x.wordAt.1 with
    | some (w, _) => !x.mayIssue w
    | none => true
  if stuck && !causes.contains 0 then minNat 0 causes else 0

/-! ## Core time (R366) -/

/-- Whether a context uses its core: a word of it is in flight, or it waits at a barrier. -/
def Ctx.inUse (x : Ctx) : Bool := !x.flights.isEmpty || x.atBarrier

/-- Core time charged to a room: its ledger and, outside its own slot, its virtual time on the core (R366, Table 14.2). -/
def State.chargeCore (s : State) (core r ns : Nat) : State :=
  let s := s.charge r 5 ns
  if (s.slotOwner core).any fun o => o.1 = r then s else s.spend core r ns

/-- The time since a core's last charge given to the selected room, where that room used the core, and counted as a stall where it was one. -/
def State.account (s : State) (core : Nat) : State :=
  let c := s.core core
  match c.sel.bind fun r => (c.ctx r).map fun x => (r, x) with
  | none => s.setCore core { c with chargedAt := s.now }
  | some (r, x) =>
    if x.inUse then
      ((s.setCore core { c with
        chargedAt := s.now
        usedAt := s.now }).chargeCore core r (s.now - c.chargedAt)).stall r (s.stalledBy r x) (s.now - c.chargedAt)
    else s.setCore core { c with chargedAt := s.now }

/-- The cores that serve a room charged up to now. -/
def State.accountRoom (s : State) (r : Nat) : State :=
  ((s.cores.filter fun c => c.2.sel = some r).map (·.1)).foldl State.account s

/-! ## Sync counters (R94, R354) -/

/-- A count added to a sync counter of a room on a core, as a stream crossing delivers it (R94, R354). `cause` is the stall cause of a core that
waited for it, 0 for a peer core's SET or MOVE, and `promo` the nanoseconds of it that a bench operand was being promoted (R234, R264). -/
def State.postCount (s : State) (r core ctr n cause promo : Nat) : State :=
  if core = 0xFFFF then s
  else
    (s.modCtx core r fun x => { x with
      sync := tmod 0 x.sync ctr fun v => (v + n) % 2 ^ 32
      posters := tset x.posters ctr (cause, promo) }).refreshCtx core r

/-- A count that no promotion held up. -/
def State.postCounter (s : State) (r core ctr n cause : Nat) : State := s.postCount r core ctr n cause 0

end Sys2Proof.Machine
end

