-- ==== Sys2Proof/Machine/Ctrl.lean ====
section
/-! DEFINITION. Caravan control messages as they leave the device (R411, R413, R414): the caravan record, member IDs, and the packets. -/

namespace Sys2Proof.Machine

/-! ## The caravan record (Table 17.1) -/

def Caravan.field (c : Caravan) (o n : Nat) : Nat := (c.record >>> (8 * o)) % 2 ^ (8 * n)
def Caravan.role (c : Caravan) : Nat := c.field 1 1
def Caravan.number (c : Caravan) : Nat := c.field 2 1
def Caravan.ncaravans (c : Caravan) : Nat := c.field 3 1
def Caravan.memberNo (c : Caravan) : Nat := c.field 4 2
def Caravan.lagPolicy (c : Caravan) : Nat := c.field 6 1
def Caravan.lagPct (c : Caravan) : Nat := if c.field 7 1 = 0 then 8 else c.field 7 1
def Caravan.barMs (c : Caravan) : Nat := c.field 8 4
def Caravan.assembleMs (c : Caravan) : Nat := c.field 12 4

/-- Member ID (R411). -/
def Caravan.mid (c : Caravan) : Nat := 16384 * c.number + c.memberNo
/-- The manager of a member's caravan (R411). -/
def managerOf (mid : Nat) : Nat := mid / 16384 * 16384
/-- Whether the device is the convoy's head (R411). -/
def Caravan.isHead (c : Caravan) : Bool := c.role = 2 && c.number = 0
def Caravan.isManager (c : Caravan) : Bool := c.role = 2
/-- The lease giver: a worker's manager, a manager's head (R415). -/
def Caravan.giver (c : Caravan) : Nat := if c.role = 2 then 0 else managerOf c.mid
/-- The address of port `p` of a member (R411). -/
def Caravan.addrOf (c : Caravan) (mid p : Nat) : Nat := (if c.field 36 1 = 1 then c.field 16 16 else c.field 32 4) + 32 * mid + p

/-- Barrier timeout in ns (R424). -/
def Caravan.barrierNs (c : Caravan) : Nat := (if c.role = 1 ∨ c.role = 2 then c.barMs else 60000) * 1000000

/-! ## Control messages (Tables 17.2 and 17.3) -/

/-- Flow 0xFFFE toward a member, in the device's own flow table (R389, R413). -/
def ctrlKey (mid : Nat) : Nat := 64 * 2 ^ 34 + mid * 2 ^ 16 + 0xFFFE

/-! ## Ports and paths (R386, R395) -/

/-- Ports of the network dies, by index 8 × site + port. -/
def State.netPorts (s : State) : List Nat := (netSites s.variant).flatMap fun k => span (8 * k) 8

def State.port (s : State) (q : Nat) : Port := tget Port.reset s.net.ports q

/-- Ports that are enabled and have link. -/
def State.activePorts (s : State) : List Nat := s.netPorts.filter fun q => bit (s.port q).cfg 31 && (s.port q).link

/-- Paths in use: port and path value, those left out by R395 not among them unless every one is. -/
def State.paths (s : State) : List (Nat × Nat) :=
  let all := (List.range 16).flatMap fun e => s.activePorts.map fun q => (q, e)
  let good := all.filter fun x => (tfind (s.port x.1).out x.2).isNone
  if good.isEmpty then all else good

/-- A packet sent on a flow: it takes the next PSN of its type and the flow's next path; with no active port nothing leaves (R389, R395). -/
def State.sendOut (s : State) (key : Nat) (p : Pkt) : State :=
  let f := tget Flow.reset s.net.flows key
  let n := tget 0 f.psn p.ptype
  let l := s.paths
  let s := { s with net := { s.net with flows := tset s.net.flows key { f with psn := tset f.psn p.ptype (n + 1), spread := f.spread + 1 } } }
  match l[f.spread % l.length]? with
  | none => s
  | some (q, e) => s.emit (.packet { p with port := q, sport := 0xC000 + 16 * q + e, psn := n })

/-- Where a member's message to the head goes next: the head itself, or through its manager (R413). -/
def Caravan.upward (c : Caravan) : Nat := if c.role = 2 then 0 else managerOf c.mid

/-- Where a message of the head or a manager to a member goes next (R413). -/
def Caravan.downward (c : Caravan) (mid : Nat) : Nat := if c.isHead && managerOf mid ≠ 0 then managerOf mid else mid

/-- A control message sent over the link to `hop` (R413): header of Table 17.2 and its body. `cseq` none takes the sender's count.
`far` is the member a passing manager takes it to, or brings it from; the header names none (DESIGN CHOICE, log entry 30). -/
def State.ctrlSend (s : State) (hop far ctype cjob cinc : Nat) (cseq : Option Nat) (body : List Byte) : State :=
  let seq := cseq.getD s.caravan.cseq
  let s := if cseq.isSome then s else { s with caravan := { s.caravan with cseq := (s.caravan.cseq + 1) % 2 ^ 32 } }
  let pl := leBytes 2 ctype ++ leBytes 2 0 ++ leBytes 4 cjob ++ leBytes 4 cinc ++ leBytes 4 seq ++ body
  let gen := ((tget ⟨[], 0, []⟩ s.caravan.links hop).gens.head?).getD 0
  s.sendOut (ctrlKey hop)
    { port := 0, ip := s.caravan.addrOf hop 0, proto := 1, ptype := 8, pflags := 1, kgen := gen, mgen := s.caravan.generation,
      job := 0, incarn := 0, src := s.caravan.mid, dst := hop, flow := 0xFFFE, plen := pl.length, psn := 0, msg := 0, off := 0,
      rdig := 0, remote := far, udp := pl.length, sport := 0, auth := true, ce := false, payload := pl.map BitVec.toNat }

/-- A message of this device to the head. -/
def State.ctrlUp (s : State) (ctype cjob cinc : Nat) (cseq : Option Nat) (body : List Byte) : State :=
  s.ctrlSend s.caravan.upward s.caravan.mid ctype cjob cinc cseq body

/-- A message of the head or a manager to a member. -/
def State.ctrlDown (s : State) (mid ctype cjob cinc : Nat) (cseq : Option Nat) (body : List Byte) : State :=
  s.ctrlSend (s.caravan.downward mid) mid ctype cjob cinc cseq body

/-- LEAVE sent to the lease giver, and no RENEW after it (R416). -/
def State.leave (s : State) (code : Nat) : State :=
  if s.caravan.member && !s.caravan.isHead then
    let s := s.ctrlSend s.caravan.giver s.caravan.mid 0x0C 0 0 none (leBytes 2 code)
    { s with caravan := { s.caravan with member := false } }
  else s

/-! ## Service (R493) -/

/-- The device goes out of service until a maker repair (R493), and leaves its caravan (R416). -/
def State.outOfService (s : State) (code : Nat) : State :=
  let s := s.healthRecord 5 code 0xFFFF 0xFFFF 0
  { s with health := { s.health with oos := true, oosCode := code } }.leave code

end Sys2Proof.Machine
end

