-- ==== Sys2Proof/Machine/Job.lean ====
section
/-! DEFINITION. The life of an incarnation: what takes effect at a barrier, how an incarnation ends, and the path of a job fault (R315, R318, R378 to R381, R423 to R427, R495, R496). -/

namespace Sys2Proof.Machine

/-- A completion to be written. -/
structure Done where
  ring : Nat
  seq : Nat
  status : Nat
  detail : Nat
deriving DecidableEq, Repr

/-- Completions written in ascending ring, and within a ring in ascending sequence count (R315). -/
def State.finish (s : State) (l : List Done) : State :=
  (sortBy (fun d => d.ring * 2 ^ 32 + d.seq) l).foldl (fun s d => s.complete d.ring d.seq d.status d.detail 0 0 0) s

/-- Operand bytes of a descriptor (Table 12.5). -/
def Desc.fld (d : Desc) (o n : Nat) : Nat := (d.raw >>> (8 * o)) % 2 ^ (8 * n)
def Desc.opcode (d : Desc) : Nat := d.fld 0 1
def Desc.fence (d : Desc) : Bool := bit d.raw 8

/-- Descriptor rings of a room, in ascending device-wide ID. -/
def State.roomRings (s : State) (r : Nat) : List (Nat × Ring) := s.rings.filter fun q => q.2.room = r && q.2.kind = 1

/-- Started descriptors of a room with one opcode: their rings and themselves. -/
def State.startedOf (s : State) (r opcode : Nat) : List (Nat × Desc) :=
  (s.roomRings r).flatMap fun q => (q.2.descs.filter fun d => d.started && d.opcode = opcode).map fun d => (q.1, d)

/-- The first step of an incarnation (R80): 0, or the step after the snapshot's. -/
def Job.firstStep (j : Job) : Nat := j.first

/-- The epoch of the barrier a job stands at: the start barrier, or the one that ends its step. -/
def Job.epoch (j : Job) : Nat := if j.phase = 2 then j.step else 0xFFFFFFFF

/-- Every unit of the device is at the barrier: every core has joined, or the incarnation waits for its start. -/
def Job.unitsIn (j : Job) : Bool := j.phase == 1 || (j.phase == 2 && j.cores.all fun c => j.joined.contains c)

/-- Whether a step counts as ended (R318). -/
def Room.stepEnded (x : Room) (e : Nat) : Bool :=
  match x.job with
  | none => false
  | some j => decide (0 < j.phase) && e ≠ 0xFFFFFFFF && (decide (e < j.first) || j.released.any fun q => decide (e ≤ q))

/-! ## Mode changes (R378 to R381) -/

/-- The value in force that a change of kind 1 or 2 would replace. -/
def State.modeNow (s : State) (kind : Nat) : Nat :=
  if kind = 1 then s.power.cap else if kind = 2 then s.power.plan0 + s.power.plan1 * 4096 else 0

/-- One mode value applied to the units it touches (R379, R380, R480). -/
def State.setMode (s : State) (r kind value : Nat) (entries : List (Nat × Nat × Nat)) : State :=
  if kind = 1 then { s with power := { s.power with cap := bits value 15 0 } }
  else if kind = 2 then
    let mhz (v : Nat) : Nat := if v = 0 then 1850 else v
    { s with power := { s.power with plan0 := mhz (bits value 11 0), plan1 := mhz (bits value 23 12) } }
  else if kind = 4 then s.modRoom r fun x => { x with precision := entries }
  else s

def State.applyMode (s : State) (r : Nat) (m : ModeChange) : State := s.setMode r m.kind m.value m.entries

/-- The changes of a room due at an epoch. -/
def Room.modesAt (x : Room) (e : Nat) : List ModeChange := x.modes.filter fun m => m.epoch = e && m.armed

/-- Whether a staged END takes effect at an epoch (R315, R425). -/
def Room.endsAt (x : Room) (e : Nat) : Bool := (x.modesAt e).any fun m => m.kind = 5

/-- A snapshot plan in force, or none (R271, R275): a new plan starts at slot A; a disarmed one gives its slots back. -/
def State.setPlan (s : State) (r : Nat) (p : Option SnapPlan) : State :=
  s.modMem r fun m => { m with snap :=
    match p with
    | some q => { m.snap with plan := some q, newest := none, copying := none, pending := [], released := true, mirroring := none }
    | none => SnapSt.reset }

/-- The history entry of a change that has taken effect; one staged to the start of an incarnation is entered before its first step (R381). -/
def ModeChange.taken (m : ModeChange) (first prev : Nat) : ModeChange :=
  { m with epoch := if m.epoch = 0xFFFFFFFF then first - 1 else m.epoch, prev := prev, armed := false, waiting := false, applied := true }

/-- Everything staged to an epoch takes effect (R271, R379): the state, and the completions due. -/
def State.takeEffect (s : State) (r e : Nat) : State × List Done :=
  let x := s.room r
  let ms := x.modesAt e
  let first := match x.job with | some j => j.first | none => 0
  let old := s
  let s := ms.foldl (fun s m => s.applyMode r m) s
  let s := s.modRoom r fun x => { x with modes := x.modes.map fun m => if m.epoch = e && m.armed then m.taken first (old.modeNow m.kind) else m }
  let ps := x.plans.filter fun p => p.epoch = e
  let step (a : State × List Done) (p : PlanStage) : State × List Done :=
    let y := a.1.room r
    let ok := match p.plan with
      | some q => y.quotaOk { y.mem with snap := { y.mem.snap with plan := some q } }
      | none => true
    if ok then (a.1.setPlan r p.plan, ⟨p.ring, p.seq, stOk, 0⟩ :: a.2)
    else (a.1, ⟨p.ring, p.seq, stResourceExhausted, Code.snapSpace⟩ :: a.2)
  let (s, dp) := ps.foldl step (s, [])
  let s := s.modRoom r fun x => { x with plans := x.plans.filter fun p => p.epoch ≠ e }
  (s, (ms.filter (·.waiting)).map (fun m => ⟨m.ring, m.seq, stOk, 0⟩) ++ dp)

/-! ## The end of an incarnation (R315) -/

/-- The cores of a job stop at once: their time is charged, their contexts are freed and words in flight abandoned (R354, R366, R427). -/
def State.freeCores (s : State) (r : Nat) : State :=
  let s := s.accountRoom r
  { s with cores := tmap s.cores fun _ c => { c with
      ctxs := tdel c.ctxs r
      sel := if c.sel = some r then none else c.sel
      banks := if c.sel = some r then [] else c.banks } }

/-- Engine work of a room's job cut (R403, R427, Table 13.8): runs, batches, commands, collectives, flows, fills. -/
def State.cutEngines (s : State) (r : Nat) : State :=
  let s := s.modRoom r fun x => { x with
    kernels := tmap x.kernels fun _ k => { k with queue := [], run := none }
    forest := x.forest.map fun f => { f with queue := f.queue.filter (·.desc.isSome), errs := [] }
    coll := []
    mem := { x.mem with views := tmap x.mem.views fun _ v => { v with queue := [], running := false } } }
  { s with net := { s.net with flows := tfilter s.net.flows fun k _ => k / 2 ^ 34 ≠ r } }

/-- A snapshot copy that is cut never becomes complete (R336, R427). -/
def State.cutSnap (s : State) (r : Nat) : State :=
  s.modMem r fun m => { m with snap :=
    match m.snap.copying with
    | some k => { m.snap with
        copying := none, pending := [], slotA := if k = 0 then none else m.snap.slotA, slotB := if k = 1 then none else m.snap.slotB }
    | none => m.snap }

/-- Descriptors of a room that wait on a step or a peer when its incarnation ends (R318, R398). -/
def State.orphans (s : State) (r : Nat) : List Done :=
  let x := s.room r
  (s.startedOf r 0x06).map (fun q => ⟨q.1, q.2.seq, stCancelled, Code.stepEnded⟩) ++
    (x.modes.filter fun m => m.waiting && m.epoch != 0xFFFFFFFF).map (fun m => ⟨m.ring, m.seq, stCancelled, Code.stepEnded⟩) ++
    (x.plans.filter fun p => p.epoch != 0xFFFFFFFF).map (fun p => ⟨p.ring, p.seq, stCancelled, Code.stepEnded⟩) ++
    (s.startedOf r 0x30).map (fun q => ⟨q.1, q.2.seq, stCancelled, Code.netEnded⟩) ++
    (match s.sched.pacing with
      | some (q, n, p, e) => if p = r ∧ e ≠ 0xFFFFFFFF then [⟨q, n, stCancelled, Code.stepEnded⟩] else []
      | none => [])

/-- The changes and plans that wait on a step of an incarnation that ends, withdrawn (R318, R352). -/
def State.dropWaiters (s : State) (r : Nat) : State :=
  let s := if s.sched.pacing.any fun p => p.2.2.1 = r && p.2.2.2 != 0xFFFFFFFF then { s with sched := { s.sched with pacing := none, pending := false } } else s
  s.modRoom r fun x => { x with
    plans := x.plans.filter fun p => p.epoch = 0xFFFFFFFF
    modes := x.modes.map fun m => if m.epoch = 0xFFFFFFFF then m else { m with waiting := false, armed := false } }

/-- An incarnation ends: `done` completes first with the other descriptors, the starting descriptor last (R315). -/
def State.endJob (s : State) (r status detail : Nat) (done : List Done) (last : Option Nat) : State :=
  match (s.room r).job with
  | none => s
  | some j =>
    let waiting := (s.orphans r).filter fun d => !(done.any fun e => e.ring = d.ring && e.seq = d.seq)
    let s := s.freeCores r
    let s := s.cutEngines r
    let s := if status = stOk then s else s.cutSnap r
    let s := (s.dropWaiters r).modRoom r fun x => { x with
      job := none
      mem := { x.mem with pinned := [] } }
    let s := s.finish (done ++ waiting)
    (s.complete j.ring j.seq status detail (last.getD 0xFFFFFFFF) j.incarn 0).passDuties

/-! ## Slowness (R382, R383) -/

/-- Fractions as pairs: their sum and their order. -/
def fracAdd (a b : Nat × Nat) : Nat × Nat := (a.1 * b.2 + b.1 * a.2, a.2 * b.2)
def fracLt (a b : Nat × Nat) : Bool := decide (a.1 * b.2 < b.1 * a.2)

def insertFrac (x : Nat × Nat) : List (Nat × Nat) → List (Nat × Nat)
  | [] => [x]
  | y :: r => if fracLt x y then x :: y :: r else y :: insertFrac x r

/-- The median of a list of fractions, the mean of the two in the middle where their number is even. -/
def medianFrac (l : List (Nat × Nat)) : Nat × Nat :=
  let t := l.foldl (fun acc x => insertFrac x acc) []
  let n := t.length
  let a := t.getD ((n - 1) / 2) (0, 1)
  let b := t.getD (n / 2) (0, 1)
  let c := fracAdd a b
  (c.1, 2 * c.2)

/-- Cores of one die whose mean slowness over their last 64 steps exceeds 1.08 times the mean of the die's medians over the same steps. -/
def slowOf (l : List (Nat × List (Nat × Nat))) : List Nat :=
  let ratio (x : List (Nat × Nat)) (i : Nat) : Option (Nat × Nat) := match x[i]? with
    | some p => if p.2 = 0 then none else some p
    | none => none
  let meds := (List.range 64).map fun i => medianFrac (l.filterMap fun c => ratio c.2 i)
  (l.filter fun c =>
    let steps := (List.range 64).filter fun i => (ratio c.2 i).isSome
    let own := steps.foldl (fun a i => fracAdd a ((ratio c.2 i).getD (0, 1))) (0, 1)
    let med := steps.foldl (fun a i => fracAdd a (meds.getD i (0, 1))) (0, 1)
    c.2.length = 64 && fracLt (108 * med.1, 100 * med.2) own).map (·.1)

/-- A core reported slow: its physical core is marked replaced, and a spare takes its place at the next job start. -/
def State.markSlow (s : State) (core : Nat) : State :=
  let u := s.physUnit core
  if tget Fitness.fit s.health.marks u ≠ .fit then s
  else
    let s := s.healthRecord 2 Code.slowCore u 0xFFFF core
    { s with health := { s.health with marks := tset s.health.marks u .replaced } }

/-- R383 at a step barrier of a room. -/
def State.slowCores (s : State) (r : Nat) : State :=
  let l := s.cores.filterMap fun c => (c.2.ctx r).map fun x => (c.1, x.slowness)
  [0, 1].foldl (fun s die => (slowOf (l.filter fun c => coreDie c.1 = die)).foldl (fun s c => s.markSlow c) s) s

/-- The wait of every core of a room that stands at the barrier, counted against a cause up to now (R264, R265). -/
def State.stallBarrier (s : State) (r cause : Nat) : State :=
  let s := (s.cores.filterMap fun c => (c.2.ctx r).bind (·.joinedAt)).foldl (fun s t => s.stall r cause (s.now - t)) s
  { s with cores := tmap s.cores fun _ c => { c with ctxs := tmap c.ctxs fun k y =>
      if k = r then { y with joinedAt := y.joinedAt.map fun _ => s.now } else y } }

/-- The barrier that ends a step, or the start barrier, is released (R315, R318, R379, R425). -/
def State.releaseBarrier (s : State) (r : Nat) (complete : Option Nat) : State :=
  match (s.room r).job with
  | none => s
  | some j =>
    if j.faulted then s
    else
      let start := decide (j.phase ≠ 2)
      let e := if start then 0xFFFFFFFF else j.step
      let ending := (s.room r).endsAt e
      let (s, done) := s.takeEffect r e
      let joins := (s.startedOf r 0x06).filter fun q => q.2.fld 12 4 = e && !start
      let done := done ++ joins.map fun q => ⟨q.1, q.2.seq, stOk, 0⟩
      let rel := if start then none else some j.step
      let j' : Job := { j with
        phase := 2, step := if start then j.first else j.step + 1, joined := [], firstJoin := none, waiting := false,
        marked := false, snapWait := false, released := if start then none else some j.step, complete := if complete.isSome then complete else j.complete }
      let s := s.modRoom r fun x => { x with job := some j' }
      let s := (s.stallBarrier r barrierPeer).accountRoom r
      let s := s.ledgerStalls r
      let s := if start then s else s.modLedger r fun l => { l with counts := tset l.counts 4 j.step }
      let s := { s with cores := tmap s.cores fun _ c => { c with ctxs := tmap c.ctxs fun k y =>
        if k = r then { y with
          atBarrier := false, joinedAt := none, step := j'.step,
          slowness := if start then y.slowness else ((y.busy, y.nominal) :: y.slowness).take 64, busy := 0, nominal := 0 } else y } }
      let s := if start then s else s.slowCores r
      let s := (s.cores.map (·.1)).foldl State.refresh s
      if ending then s.endJob r stOk 0 done rel else s.finish done

/-! ## Job faults (R427, R496) -/

/-- The collector latches a fault (R496): the first-fault record, the withheld releases, the ledger's count; the cores stop, engines and a snapshot
under way are cut (R427). -/
def State.latch (s : State) (r code unit : Nat) (j : Job) : State :=
  let s := s.modRoom r fun x => { x with
    fault := some ⟨s.now, code, unit, j.incarn⟩
    job := some { j with faulted := true } }
  (((s.charge r 2 1).healthRecord 6 code unit r j.incarn).freeCores r |>.cutEngines r).cutSnap r

/-- ABORT reaches a room of a job (R427): its part of the incarnation ends; a steward that is down writes the completion after its restart (R377). -/
def State.abortRoom (s : State) (r code : Nat) (last : Option Nat) : State :=
  match (s.room r).job with
  | none => s
  | some j =>
    let s := if j.faulted then s else s.latch r code 0xFFFF j
    if s.ends r then s.endJob r stJobFault code [] last
    else s.modRoom r fun x => { x with job := x.job.map fun j => { j with released := last, aborted := some code } }

/-- Rooms that run one incarnation of a job. -/
def State.roomsOf (s : State) (tag incarn : Nat) : List Nat :=
  allRooms.filter fun r => (s.room r).job.any fun j => decide (1 < j.devices) && decide (0 < j.tag) && j.tag = tag && j.incarn = incarn

/-- The head ends an incarnation: the last released epoch is final, ABORT goes to every device of the job (R427). -/
def State.headAbort (s : State) (tag rank code : Nat) : State :=
  match tfind s.caravan.jobs tag with
  | none => s
  | some h =>
    if h.aborting ∨ !h.running then s.healthRecord 6 code 0xFFFF 0xFFFF rank
    else
      let s := { s with caravan := { s.caravan with jobs := tset s.caravan.jobs tag { h with aborting := true, running := false, bar := none, ended := some s.now } } }
      let last := h.released.getD 0xFFFFFFFF
      let body := leBytes 4 last ++ leBytes 4 rank ++ leBytes 2 code
      let s := h.map.foldl (fun s p => if p.2 = s.caravan.mid then s else s.ctrlDown p.2 0x17 tag h.incarn none body) s
      -- the head's own device ends its part at once
      (s.roomsOf tag h.incarn).foldl (fun s r => s.abortRoom r code h.released) s

/-- A unit raises a job fault in a room: the collector latches the origin, withholds releases, stops the cores (R496, R546). -/
def State.raiseFault (s : State) (r code unit : Nat) : State :=
  let x := s.room r
  match x.job with
  | none => s
  | some j =>
    if x.st = .turnover then s
    else if j.faulted then s.modRoom r fun x => { x with lateFaults := x.lateFaults + 1 }
    else
      let s := s.latch r code unit j
      if j.devices ≤ 1 then (if s.ends r then s.endJob r stJobFault code [] j.released else s)
      else if j.tag = 0 then s
      else if s.caravan.isHead then s.headAbort j.tag j.rank code
      else s.ctrlUp 0x16 j.tag j.incarn none (leBytes 4 j.rank ++ leBytes 4 j.step ++ leBytes 2 code)

/-- A job fault in every running incarnation of the device (R485, R488). -/
def State.faultAll (s : State) (code unit : Nat) : State :=
  (allRooms.filter fun r => (s.room r).busy).foldl (fun s r => s.raiseFault r code unit) s

end Sys2Proof.Machine
end

