-- ==== Sys2Proof/Machine/Tiering.lean ====
section
/-! DEFINITION. Pages that the haul engine moves between the tiers at once: demoted to make room, promoted for a bench unit, put where a new class wants them (R234, R237, R254, R259). -/

namespace Sys2Proof.Machine

/-- Whether NEAR names the other die than the one beside which an upper page lies (R252). -/
def Page.farFrom (p : Page) : Bool :=
  match p.tier with
  | .upper site _ => bit p.attr 2 && siteDie site != b2n (bit p.attr 3)
  | _ => false

/-- A page copied to a frame of the other tier and switched to it: its bytes are haul traffic, the move is counted (R260, Table 22.7). A poisoned sector
of an upper page is consumed by the copy: a job fault, and the page stays where it is (R237, log entry 110). -/
def State.movePage (s : State) (r v : Nat) (t : Tier) : State :=
  match tfind (s.room r).mem.pages v with
  | none => s
  | some p =>
    if s.poisoned r (v * pageBytes) pageBytes then s.raiseFault r Code.stackUe (136 + ((s.room r).mem.upperOf v).elim 0 (·.1))
    else
      let s := (s.seat r v p t).charge r 9 pageBytes
      { s with migrations := s.migrations + 1 }

/-- One page demoted to the cellar (R254). -/
def State.demote (s : State) (r : Nat) (p : Nat × Page) : State :=
  match s.placeCellar p.1 with
  | none => s
  | some t => s.movePage r p.1 t

/-- R254: demotes victims until MEM_UPPER_USED, with `extra` frames more, is within the upper quota. -/
def State.makeRoom (s : State) (r extra : Nat) : List (Nat × Page) → State
  | [] => s
  | v :: rest => if (s.room r).mem.upperUsed + extra ≤ (s.room r).grant.upper then s else (s.demote r v).makeRoom r extra rest

/-- The cellar page that a bench word reads promoted first: into a free frame of the room's quota, or in place of the room's first victim where the quota
is used up; a MAP_STREAM page, which never migrates, is read in place (R234, R259). -/
def State.promote (s : State) (r v : Nat) : State :=
  match tfind (s.room r).mem.pages v with
  | none => s
  | some p =>
    if !p.tier.isCellar || !(p.cls = 1 || p.cls = 3) || (s.room r).mem.pinnedPage v then s
    else
      let s := s.modMem r fun m => m.cancelMove v
      let s := if (s.room r).upperRoom then s
        else match (s.room r).mem.victims with
          | [] => s
          | q :: _ => s.demote r q
      if !(s.room r).upperRoom then s
      else
        match s.placeUpper r v p.attr with
        | some t => s.movePage r v t
        | none => s

/-- Nanoseconds that the promotion of one page takes unloaded: 2 MiB from one half, and the set-up (Table 10.7). -/
def promoteNs : Nat := 2160

/-- Operand pages promoted one after another: the state and the nanoseconds that it took. -/
def State.promoteAll (s : State) (r : Nat) (l : List Nat) : State × Nat :=
  l.foldl (fun a v =>
    let s := a.1.promote r v
    (s, if s.migrations = a.1.migrations then a.2 else a.2 + promoteNs)) (s, 0)

end Sys2Proof.Machine
end

