-- ==== Sys2Proof/Machine/View.lean ====
section
/-! DEFINITION. Views served by bench units (chapter 5): the view record and its checks (Tables 5.1 to 5.3), the merge fold (R126), expansion (R137) and decode-time attention (R140). Pure functions of the record, the slots and the weights. -/

namespace Sys2Proof.Machine

/-- A view record (Table 5.1). -/
structure ViewRec where
  vkind : Nat
  vflags : Nat
  heads : Nat
  fmtLat : Nat
  fmtRope : Nat
  fmtW : Nat
  fmtOut : Nat
  cvt : Nat
  kvh : Nat
  dc : Nat
  dr : Nat
  dn : Nat
  dv : Nat
  ropeOff : Nat
  ctrCore : Nat
  ctr : Nat
  ctrRsvd : Nat
  fmtQ : Nat
  qRsvd : Nat
  layer : Nat
  seqs : Nat
  tcap : Nat
  seqBase : Nat
  wUk : Nat
  wUv : Nat
  scale : Nat
  resOff : Nat
deriving DecidableEq, Repr

/-- The fields of a view record held as one little-endian number. -/
def ViewRec.ofNat (w : Nat) : ViewRec :=
  let f := fld w
  { vkind := f 0 1, vflags := f 1 1, heads := f 2 2, fmtLat := bits (f 4 1) 3 0, fmtRope := bits (f 4 1) 7 4,
    fmtW := bits (f 5 1) 3 0, fmtOut := bits (f 5 1) 7 4, cvt := f 6 1, kvh := f 7 1, dc := f 8 2, dr := f 10 2,
    dn := f 12 2, dv := f 14 2, ropeOff := f 16 2, ctrCore := f 18 2, ctr := bits (f 20 1) 3 0, ctrRsvd := bits (f 20 1) 7 4,
    fmtQ := bits (f 21 1) 3 0, qRsvd := bits (f 21 1) 7 4, layer := f 22 2, seqs := f 24 4, tcap := f 28 4,
    seqBase := f 32 8, wUk := f 40 8, wUv := f 48 8, scale := f 56 4, resOff := f 60 4 }

def ViewRec.plain (v : ViewRec) : Bool := bit v.vflags 1
def ViewRec.forest (v : ViewRec) : Bool := bit v.vflags 0
/-- Bytes of an element of a byte-wide format. -/
def eb (f : Nat) : Nat := fmtWidth f / 8
def up64 (n : Nat) : Nat := ceilDiv n 64 * 64

/-- The heads of an expansion: query heads for latent slots, key-value heads for plain ones (R137). -/
def ViewRec.hExp (v : ViewRec) : Nat := if v.plain then v.kvh else v.heads
/-- The row pitch of an EXPAND view (R137). -/
def ViewRec.rp (v : ViewRec) : Nat := up64 (Nat.max (v.dn + v.dr) v.dv * eb v.fmtOut)
/-- Row strides of MERGE and DECODE views (R138, R139). -/
def ViewRec.rpo (v : ViewRec) : Nat := up64 (v.dv * 4)
def ViewRec.ro (v : ViewRec) : Nat := up64 (v.dv * eb v.fmtOut)
def ViewRec.rq (v : ViewRec) : Nat := up64 ((v.dn + v.dr) * 2)
def ViewRec.qb (v : ViewRec) : Nat := 64 + v.heads * v.rq

/-- The bytes the layout of a view needs (R137 to R139). -/
def ViewRec.need (v : ViewRec) : Nat :=
  match v.vkind with
  | 1 => 2 * (v.seqs * v.hExp * v.tcap * v.rp)
  | 2 => v.resOff + v.seqs * v.heads * v.ro
  | _ => v.resOff + v.seqs * v.ro + v.seqs * 16

/-- The bytes before the result window that a view's layout takes. -/
def ViewRec.before (v : ViewRec) : Nat :=
  match v.vkind with
  | 2 => 65536 + v.seqs * v.qb
  | 3 => v.kvh * v.seqs * (v.rpo + 16)
  | _ => 0

/-- VIEW_KIND (Table 5.2): reserved kind, or a field that must be 0 and is not. -/
def ViewRec.badKind (v : ViewRec) : Bool :=
  let nz (l : List Nat) : Bool := l.any (· != 0)
  v.vkind == 0 || decide (3 < v.vkind) || v.vflags / 4 != 0 || v.ctrRsvd != 0 || v.qRsvd != 0 ||
  (v.vkind == 3 && nz [v.heads, v.fmtLat, v.fmtRope, v.fmtW, v.dc, v.dr, v.dn, v.tcap, v.seqBase, v.wUk, v.wUv, v.scale, v.layer]) ||
  (v.vkind != 2 && nz [v.fmtQ, v.scale]) ||
  (v.vkind != 3 && v.plain && nz [v.dc, v.dr, v.fmtW, v.wUk, v.wUv, v.fmtRope]) ||
  (v.vkind != 3 && !v.plain && v.dr == 0 && v.fmtRope != 0) ||
  (v.forest && v.seqBase != 0) || (!v.forest && v.layer != 0)

/-- VIEW_FORMAT (Table 5.2). -/
def ViewRec.badFormat (v : ViewRec) : Bool :=
  (v.vkind != 3 && !([2, 4, 5].contains v.fmtLat)) ||
  (v.vkind != 3 && !v.plain && !([2, 4, 5].contains v.fmtW)) ||
  (v.vkind != 3 && !v.plain && v.dr != 0 && v.fmtRope != 2) ||
  (v.vkind == 2 && v.fmtQ != 2) || !([0, 2, 3, 4, 5].contains v.fmtOut) || !(cvtByteOk v.cvt)

/-- The bytes of a slot that a head's key, its value, or any of them lies in, as offsets and lengths (R131). -/
def ViewRec.keyPart (v : ViewRec) (h : Nat) : List (Nat × Nat) :=
  if v.plain then [(h * (v.dn + v.dv) * eb v.fmtLat, v.dn * eb v.fmtLat)]
  else (0, v.dc * eb v.fmtLat) :: (if v.dr = 0 then [] else [(v.ropeOff, 2 * v.dr)])
def ViewRec.valPart (v : ViewRec) (h : Nat) : List (Nat × Nat) :=
  if v.plain then [(h * (v.dn + v.dv) * eb v.fmtLat + v.dn * eb v.fmtLat, v.dv * eb v.fmtLat)] else [(0, v.dc * eb v.fmtLat)]
def ViewRec.slotParts (v : ViewRec) : List (Nat × Nat) :=
  if v.plain then [(0, v.kvh * (v.dn + v.dv) * eb v.fmtLat)] else v.keyPart 0

/-- Bytes from the start of a slot to the end of what it holds. -/
def ViewRec.slotUsed (v : ViewRec) : Nat := maxNat (v.slotParts.map fun p => p.1 + p.2)

/-- VIEW_DIMS (Table 5.3). -/
def ViewRec.badDims (v : ViewRec) : Bool :=
  let out (x lo hi : Nat) : Bool := decide (x < lo) || decide (hi < x)
  if v.vkind = 3 then out v.kvh 1 16 || out v.seqs 1 65536 || out v.dv 32 256 || v.dv % 32 != 0
  else
    out v.heads 1 256 || (if v.plain then out v.kvh 1 64 || v.heads % v.kvh != 0 else v.kvh != 1) ||
    out (v.dn + v.dr) 32 256 || v.dn % 32 != 0 || v.dr % 32 != 0 || decide (128 < v.dr) ||
    out v.dv 32 256 || v.dv % 32 != 0 || (!v.plain && (out v.dc 64 1024 || v.dc % 32 != 0 || decide (1024 < up64 v.slotUsed))) ||
    out v.tcap 64 1048576 || v.tcap % 64 != 0 || (if v.forest then v.seqs != 262144 else out v.seqs 1 262144)

/-- VIEW_SLOT (R131). -/
def ViewRec.badSlot (v : ViewRec) : Bool :=
  if v.vkind = 3 then false
  else if v.plain then decide (1024 < up64 v.slotUsed)
  else v.ropeOff % 64 != 0 || (v.dr != 0 && decide (v.ropeOff < v.dc * eb v.fmtLat))

/-- VIEW_RANGE (R135). -/
def ViewRec.badRange (v : ViewRec) (va bytes : Nat) : Bool :=
  va % 2097152 != 0 || decide (bytes < v.need) || (v.vkind != 1 && (v.resOff % 65536 != 0 || decide (v.resOff < v.before)))

/-- Bytes of the key and the value weights (Table 5.1). -/
def ViewRec.ukBytes (v : ViewRec) : Nat := v.heads * v.dc * v.dn * eb v.fmtW
def ViewRec.uvBytes (v : ViewRec) : Nat := v.heads * v.dc * v.dv * eb v.fmtW

/-- Bytes of the page run (R132). -/
def ViewRec.runBytes (v : ViewRec) : Nat := v.seqs * (v.tcap / 64) * 65536

/-- R135: the first failing check; `mapped a n` says whether a range is mapped ordinary memory, `views` the views registered. -/
def ViewRec.check (v : ViewRec) (va bytes views : Nat) (mapped : Nat → Nat → Bool) : Option Nat :=
  let latent := v.vkind != 3 && !v.plain
  firstSome (fun p : Bool × Nat => if p.1 then some p.2 else none)
    [(v.badKind, 0x501), (v.badFormat, 0x502), (v.badDims, 0x503), (v.badSlot, 0x504), (v.badRange va bytes, 0x505),
     (latent && (!(mapped v.wUk v.ukBytes) || !(mapped v.wUv v.uvBytes)), 0x506),
     ((v.vkind == 3 && v.forest) || (v.vkind != 3 && !v.forest && (v.seqBase % 65536 != 0 || !(mapped v.seqBase v.runBytes))), 0x507),
     (decide (64 ≤ views), 0x508)]

/-! ## The merge fold (R126) -/

/-- A partial: its record and its row. -/
structure Partial where
  m : Nat
  l : Nat
  o : List Nat
deriving DecidableEq, Repr

/-- One part folded in (R126). -/
def mergeStep (acc : Partial) (p : Partial) : Partial :=
  if isNan32 acc.m then acc
  else if isNan32 p.m || isNan32 p.l then ⟨fnan, fnan, acc.o.map fun _ => fnan⟩
  else if p.m = negInf then acc
  else
    let mn := fmax acc.m p.m
    let a := sfu 0 (fsub acc.m mn) cvt0
    let b := sfu 0 (fsub p.m mn) cvt0
    ⟨mn, ffma p.l b (fmul acc.l a), (acc.o.zip p.o).map fun q => ffma q.2 b (fmul q.1 a)⟩

/-- R126: the merge of parts in ascending order, `w` columns wide. -/
def mergeParts (w : Nat) (ps : List Partial) : Partial :=
  ps.foldl mergeStep ⟨negInf, 0, List.replicate w 0⟩

/-- The output row of a merge before conversion. -/
def mergeOut (p : Partial) : List Nat :=
  p.o.map fun o => if isNan32 p.m then fnan else if isZero32 p.l then 0 else fdiv o p.l

/-! ## Expansion (R137) -/

/-- A chain of fused products in ascending order, from an accumulator (g = 1). -/
def fmaChain (acc : Nat) (xs : List (Nat × Nat)) : Nat := xs.foldl (fun a p => ffma p.1 p.2 a) acc

/-- A sum in groups of `g`, each group exact (R63 with s = 1). -/
def groupChain (g : Nat) : Nat → Nat → List (ExtVal × ExtVal) → Nat
  | 0, acc, _ => acc
  | fuel + 1, acc, xs =>
    match xs with
    | [] => acc
    | _ =>
      let prods := (xs.take g).map fun p => p.1.mul p.2
      let e := match prods with
        | [p] => if g = 1 then p else (ExtVal.fin Dy.zero false).add p
        | ps => ps.foldl ExtVal.add (.fin Dy.zero false)
      groupChain g fuel (((e32 acc).add e).round) (xs.drop g)

/-- Element `i` of a format in a memory, as FP32 bits. -/
def f32At (m : Memory) (f base i : Nat) : Nat := toWork false f (readElem m f base i)

/-- A row as a view gives it: its bytes padded to a pitch, and what its conversions count (R34, R35). -/
structure ViewRow where
  bytes : List Byte
  sat : Nat
  nan : Nat

/-- FP32 results converted into a row of a view's output format under its `cvt`, whose block-scale code is ignored (log entry 104). -/
def ViewRec.outRow (v : ViewRec) (pitch : Nat) (xs : List XVal) (draw : Nat → Nat) : ViewRow :=
  let cs := xs.zipIdx.map fun p => convert p.1 v.fmtOut { Cvt.ofByte v.cvt with bscale := 0 } (draw p.2)
  let row := packRow v.fmtOut (cs.map (·.code))
  ⟨row ++ List.replicate (pitch - row.length) 0, sumNat (cs.map (·.sat)), sumNat (cs.map (·.nan))⟩

/-- One key or value row of an EXPAND view as output codes (R137); `slot` holds the token's slot from address 0. -/
def ViewRec.expandRow (v : ViewRec) (wk wv : Memory) (slot : Memory) (value : Bool) (h : Nat) (draw : Nat → Nat) : ViewRow :=
  let xs : List Nat :=
    if v.plain then
      let base := h * (v.dn + v.dv) * eb v.fmtLat
      if value then (List.range v.dv).map fun j => f32At slot v.fmtLat base (v.dn + j)
      else (List.range v.dn).map fun j => f32At slot v.fmtLat base j
    else
      let g := if eb v.fmtLat = 1 && eb v.fmtW = 1 then 16 else 1
      let width := if value then v.dv else v.dn
      let ws := if value then wv else wk
      let proj := (List.range width).map fun j =>
        groupChain g v.dc 0 ((List.range v.dc).map fun k =>
          (ext v.fmtLat (readElem slot v.fmtLat 0 k), ext v.fmtW (readElem ws v.fmtW 0 ((h * v.dc + k) * width + j))))
      if value then proj else proj ++ (List.range v.dr).map fun j => f32At slot v.fmtRope v.ropeOff j
  v.outRow v.rp (xs.map x32) draw

/-! ## Decode-time attention (R140) -/

/-- The slot elements of one token that scores use: latent or plain key, then the positional part. -/
def ViewRec.keyOf (v : ViewRec) (slot : Memory) (h : Nat) : List Nat :=
  if v.plain then
    let g := h / (v.heads / v.kvh)
    (List.range v.dn).map fun j => f32At slot v.fmtLat (g * (v.dn + v.dv) * eb v.fmtLat) j
  else (List.range v.dc).map (f32At slot v.fmtLat 0) ++ (List.range v.dr).map (f32At slot v.fmtRope v.ropeOff)

/-- The slot elements that the weights average: latent, or plain values. -/
def ViewRec.valOf (v : ViewRec) (slot : Memory) (h : Nat) : List Nat :=
  if v.plain then
    let g := h / (v.heads / v.kvh)
    (List.range v.dv).map fun j => f32At slot v.fmtLat (g * (v.dn + v.dv) * eb v.fmtLat) (v.dn + j)
  else (List.range v.dc).map (f32At slot v.fmtLat 0)

def toBf16 (x : Nat) : Nat := toWork false 2 (convert (x32 x) 2 cvt0 0).code

/-- One page's partial for one head (R140). -/
def ViewRec.pagePartial (v : ViewRec) (slots : List Memory) (h : Nat) (q : List Nat) : Partial :=
  let s := slots.map fun sl => fmul (fmaChain 0 (q.zip (v.keyOf sl h))) v.scale
  let m := s.foldl fmax negInf
  let p := s.map fun x => sfu 0 (fsub x m) cvt0
  let l := p.foldl fadd 0
  let w := if v.plain then v.dv else v.dc
  let u := (List.range w).map fun c => fmaChain 0 ((p.zip slots).map fun t => (toBf16 t.1, (v.valOf t.2 h).getD c 0))
  ⟨m, l, u⟩

/-- One head's output row for a sequence of `n` tokens (R140); `slot t` is token t's slot. -/
def ViewRec.decodeRow (v : ViewRec) (wk wv : Memory) (slot : Nat → Memory) (n h : Nat) (q : List Nat) (draw : Nat → Nat) : ViewRow :=
  let qn := q.take v.dn
  let qr := q.drop v.dn
  let qt : List Nat :=
    if v.plain then qn
    else ((List.range v.dc).map fun k =>
      toBf16 (fmaChain 0 ((List.range v.dn).map fun j => (f32At wk v.fmtW 0 ((h * v.dc + k) * v.dn + j), qn.getD j 0)))) ++ qr
  let parts := (List.range (ceilDiv n 64)).map fun p =>
    v.pagePartial ((span (64 * p) (Nat.min 64 (n - 64 * p))).map slot) h qt
  let ut := mergeOut (mergeParts (if v.plain then v.dv else v.dc) parts)
  let out := if v.plain then ut else (List.range v.dv).map fun j =>
    fmaChain 0 ((List.range v.dc).map fun k => (ut.getD k 0, f32At wv v.fmtW 0 ((h * v.dc + k) * v.dv + j)))
  v.outRow v.ro (out.map x32) draw

/-- A result row of canonical NaNs converted under `cvt` (R142). -/
def ViewRec.nanRow (v : ViewRec) : ViewRow := v.outRow v.ro (List.replicate v.dv .nan) fun _ => 0

end Sys2Proof.Machine
end

