-- ==== Sys2Proof/Machine/Access.lean ====
section
/-! DEFINITION. Accesses to a room's device range: ordinary pages and the special ranges, each as its governing chapter states (R133, R137 to R139, R189 to R198, R223, R229, R250, R259, R267 to R269, R400). -/

namespace Sys2Proof.Machine

/-! ## Checks -/

/-- R250: whether an access is refused, and otherwise the special range that serves it, if one does. -/
def State.accessCheck (s : State) (r va n : Nat) (write : Bool) : Except Nat (Option Special) :=
  if n = 0 then .ok none
  else
    match (s.room r).mem.specialOf va with
    | none =>
      match s.checkRange r va n write with
      | some c => .error c
      | none => .ok none
    | some x =>
      if va + n ≤ x.base + x.bytes then .ok (some x)
      else if x.hint = 5 && write && decide (pageBytes ≤ va - x.base) then .error Code.memReadonly
      else .error Code.memSpecial

/-- A byte of an unbacked part of a special range: the spec states none. -/
def State.freeByte (s : State) (r va : Nat) : Byte := BitVec.ofNat 8 (Config.freeNat (s.fresh + 2 ^ 64 * (r * 2 ^ 53 + va + 1)))

/-- Bytes of backed memory; a poisoned sector gives STACK_UE (R237). -/
def State.readClean (s : State) (r va n : Nat) : Except Nat (List Byte) :=
  if s.poisoned r va n then .error Code.stackUe else .ok (s.readVa r va n)

/-- The stack that holds an address: its upper frame's site, else the site R256 names first for its page. -/
def State.stackOf (s : State) (r va : Nat) : Nat :=
  match (s.room r).mem.upperOf (va / pageBytes) with
  | some p => p.1
  | none => s.sites.getD ((va / pageBytes + r) % Nat.max 1 s.sites.length) 0

/-! ## The branch grant and the forest's pages -/

/-- The branch grant of a room (R184, Table 13.2). -/
def Room.bgrant (x : Room) : BGrant := ⟨1024 * bits x.grant.branch 15 0, 1024 * bits x.grant.branch 31 16⟩

def BGrant.has (g : BGrant) (b : Nat) : Bool :=
  decide (b < 262144) && decide (g.base ≤ b % 131072) && decide (b % 131072 < g.base + g.count)

/-- Device address of a place of the page pool, and of the node pool. -/
def Forest.pageVa (f : Forest) (q : Nat) : Nat := f.base + f.pageOff + 65536 * q
def Forest.nodeVa (f : Forest) (n : Nat) : Nat := f.base + f.nodeOff + 2048 * n

/-- Branch, layer and page at an offset of the branch window (R194). -/
def Forest.at3 (f : Forest) (o : Nat) : Nat × Nat × Nat :=
  let k := o / 65536
  (k / f.pmax / f.lmax, k / f.pmax % f.lmax, k % f.pmax)

/-- Whether an extent at an offset of the forest's range lies in its branch window. -/
def Forest.inWindow (f : Forest) (o n : Nat) : Bool := decide (f.winOff ≤ o) && decide (o + n ≤ f.winOff + f.winBytes)

/-- Pieces of an extent cut at multiples of `z`: start and length. -/
def cutAtMultiples (z off n : Nat) : List (Nat × Nat) :=
  if n = 0 ∨ z = 0 then []
  else (span (off / z) ((off + n - 1) / z + 1 - off / z)).map fun k =>
    (Nat.max off (k * z), Nat.min (off + n) ((k + 1) * z) - Nat.max off (k * z))

/-- R190: whether a branch can be accessed through the window. -/
def Room.branchOk (x : Room) (f : Forest) (b : Nat) : Bool := x.bgrant.has b && (tfind f.branches b).isSome

/-- Where a piece of the window lies in the page pool, if its branch can be accessed and its path is there (R190). -/
def Room.pieceVa (x : Room) (f : Forest) (o : Nat) : Option Nat :=
  let (b, l, g) := f.at3 o
  (if x.branchOk f b then f.lookup b l g else none).map fun q => f.pageVa q + o % 65536

/-- A read through the branch window, from window offset `o`. -/
def State.windowRead (s : State) (r : Nat) (f : Forest) (o n : Nat) : Except Nat (List Byte) := do
  let parts ← (cutAtMultiples 65536 o n).mapM fun p =>
    match (s.room r).pieceVa f p.1 with
    | none => (.error Code.memSpecial : Except Nat (List Byte))
    | some a => s.readClean r a p.2
  pure parts.flatten

/-- Engine time charged to a room, 1 ns a cycle (R213, R366). -/
def State.chargeForest (s : State) (r cycles : Nat) : State := (s.charge r 7 cycles).spend arbForest r cycles

/-- One piece written through the branch window: the path resolved, the page copied or zeroed, the bytes stored (R189). A page that would be copied from
a poisoned sector stays as it is (R237, log entry 110). -/
def State.windowPiece (s : State) (r b l g within : Nat) (bytes : List Byte) : State × Option Nat :=
  match (s.room r).forest with
  | none => (s, some Code.memSpecial)
  | some f =>
    match f.resolve b l g with
    | none => (s, some Code.forestPool)
    | some x =>
      let to_ := f.pageVa x.page
      let spoilt := match x.how with
        | .copyOf o => s.poisoned r (f.pageVa o) 65536
        | _ => false
      if spoilt then (s, some Code.stackUe)
      else
        let s := (s.modRoom r fun y => { y with forest := some x.forest }).chargeForest r x.work.cycles
        let s := match x.how with
          | .same => s
          | .fresh => (s.cleanse r to_ 65536).modMem r fun m => { m with data := memZero m.data to_ 65536 }
          | .copyOf o => (s.cleanse r to_ 65536).modMem r fun m => { m with data := memCopyRange m.data (f.pageVa o) to_ 65536 }
        (s.writeVa r (to_ + within) bytes, none)

/-- A write through the branch window: every piece checked before the first is written (R190). -/
def State.windowWrite (s : State) (r : Nat) (f : Forest) (o : Nat) (bytes : List Byte) : State × Option Nat :=
  let ps := cutAtMultiples 65536 o bytes.length
  if ps.any fun p => !(s.room r).branchOk f (f.at3 p.1).1 then (s, some Code.memSpecial)
  else ps.foldl (fun a p =>
    match a.2 with
    | some _ => a
    | none =>
      let (b, l, g) := f.at3 p.1
      a.1.windowPiece r b l g (p.1 % 65536) ((bytes.drop (p.1 - o)).take p.2)) (s, none)

/-! ## Reads of views (R131, R132, R137, R138) -/

/-- Device address of the slot of token `t` of sequence `q` of a view (R131, R132). -/
def State.slotVa (s : State) (r : Nat) (v : ViewRec) (q t : Nat) : Except Nat Nat :=
  if v.forest then
    match (s.room r).forest with
    | none => .error Code.memSpecial
    | some f =>
      match if (s.room r).branchOk f q then f.lookup q v.layer (t / 64) else none with
      | none => .error Code.memSpecial
      | some k => .ok (f.pageVa k + 1024 * (t % 64))
  else .ok (v.seqBase + (q * (v.tcap / 64) + t / 64) * 65536 + 1024 * (t % 64))

/-- A slot as a memory from address 0, where none of the parts that are read of it is poisoned (R237). -/
def State.viewSlot (s : State) (r : Nat) (v : ViewRec) (parts : List (Nat × Nat)) (q t : Nat) : Except Nat Memory :=
  match s.slotVa r v q t with
  | .error c => .error c
  | .ok a =>
    if parts.any fun p => s.poisoned r (a + p.1) p.2 then .error Code.stackUe
    else .ok (memMoveBase (memSlice (s.room r).mem.data a 1024) a 0)

/-- The draws of a view's conversions under keyed stochastic rounding: Table 1.9 names no index for them, so each is a fixed value of the record, the
row and the element (R9, log entry 106). -/
def viewDraw (raw row j : Nat) : Nat := Config.openDraw [1, raw, row, j] % 65536

/-- What row `k` of an EXPAND view is: sequence, head, token, and whether it is a value row (R137). -/
def ViewRec.rowIs (v : ViewRec) (k : Nat) : Nat × Nat × Nat × Bool :=
  let half := v.seqs * v.hExp * v.tcap
  let i := k % half
  (i / (v.hExp * v.tcap), i / v.tcap % v.hExp, i % v.tcap, decide (half ≤ k))

/-- The parts of its slot that row `k` is computed from. -/
def ViewRec.rowParts (v : ViewRec) (k : Nat) : List (Nat × Nat) :=
  let (_, h, _, value) := v.rowIs k
  if value then v.valPart h else v.keyPart h

/-- One row of an EXPAND view: key rows, then value rows (R137). -/
def State.expandRowAt (s : State) (r : Nat) (v : ViewRec) (st : ViewSt) (k : Nat) : Except Nat ViewRow := do
  let (q, h, t, value) := v.rowIs k
  let slot ← s.viewSlot r v (v.rowParts k) q t
  pure (v.expandRow st.wUk st.wUv slot value h (viewDraw st.raw k))

/-- The row and the record of each part of result `i` of a MERGE view (R138). -/
def ViewRec.partsAt (v : ViewRec) (base i : Nat) : List (Nat × Nat) :=
  (List.range v.kvh).map fun c => (base + (c * v.seqs + i) * v.rpo, base + v.kvh * v.seqs * v.rpo + (c * v.seqs + i) * 16)

/-- The merge of row `i` of a MERGE view (R126, R138). -/
def State.mergeAt (s : State) (r : Nat) (v : ViewRec) (base i : Nat) : Except Nat Partial :=
  let m := (s.room r).mem.data
  let ps := v.partsAt base i
  if ps.any fun p => s.poisoned r p.1 (4 * v.dv) || s.poisoned r p.2 16 then .error Code.stackUe
  else .ok (mergeParts v.dv (ps.map fun p => ⟨memNat m p.2 4, memNat m (p.2 + 4) 4, (List.range v.dv).map fun j => memNat m (p.1 + 4 * j) 4⟩))

/-- An output row of a MERGE view (R126). -/
def State.mergeRow (s : State) (r : Nat) (v : ViewRec) (raw base i : Nat) : Except Nat ViewRow := do
  let p ← s.mergeAt r v base i
  pure (v.outRow v.ro ((mergeOut p).map x32) (viewDraw raw i))

def State.mergeRecord (s : State) (r : Nat) (v : ViewRec) (base i : Nat) : Except Nat (List Byte) := do
  let p ← s.mergeAt r v base i
  pure (recordBytes [p.m, p.l, 0, 0])

/-! ## Reads of special ranges -/

/-- A part of a special range: its offsets, and how a read of bytes inside it is answered. -/
structure Seg where
  lo : Nat
  hi : Nat
  rd : Nat → Nat → Except Nat (List Byte)

/-- A read over ascending parts; what lies between them is unbacked. -/
def readSegs (free : Nat → Byte) : List Seg → Nat → Nat → Except Nat (List Byte)
  | [], off, n => .ok ((span off n).map free)
  | g :: rest, off, n =>
    if n = 0 then .ok []
    else if g.hi ≤ off then readSegs free rest off n
    else if off + n ≤ g.lo then .ok ((span off n).map free)
    else do
      let a := Nat.max off g.lo
      let m := Nat.min (off + n) g.hi - a
      let bs ← g.rd a m
      let more ← readSegs free rest (a + m) (off + n - (a + m))
      pure ((span off (a - off)).map free ++ bs ++ more)

/-- The rows of one pitch that an extent touches. -/
def rowsIn (pitch off n : Nat) : List Nat := if n = 0 ∨ pitch = 0 then [] else span (off / pitch) ((off + n - 1) / pitch + 1 - off / pitch)

/-- Bytes of rows of one pitch, each row computed whole. -/
def sliceRows (row : Nat → Except Nat (List Byte)) (pitch off n : Nat) : Except Nat (List Byte) := do
  let bs ← (rowsIn pitch off n).mapM row
  pure ((bs.flatten.drop (off % pitch)).take n)

/-- The parts of a view's range (R137 to R139). -/
def State.viewSegs (s : State) (r : Nat) (x : Special) (v : ViewRec) (st : ViewSt) : List Seg :=
  let plain (o n : Nat) : Except Nat (List Byte) := s.readClean r (x.base + o) n
  let rowBytes (e : Except Nat ViewRow) : Except Nat (List Byte) := e.map (·.bytes)
  match v.vkind with
  | 1 => [⟨0, v.need, fun o n => sliceRows (fun k => rowBytes (s.expandRowAt r v st k)) v.rp o n⟩]
  | 2 => [⟨0, 64, plain⟩, ⟨65536, v.before, plain⟩, ⟨v.resOff, v.need, plain⟩]
  | _ =>
    let rows := v.resOff + v.seqs * v.ro
    [⟨0, v.before, plain⟩,
     ⟨v.resOff, rows, fun o n => sliceRows (fun i => rowBytes (s.mergeRow r v x.raw x.base i)) v.ro (o - v.resOff) n⟩,
     ⟨rows, rows + v.seqs * 16, fun o n => sliceRows (s.mergeRecord r v x.base) 16 (o - rows) n⟩]

/-- A read inside a special range. -/
def State.readSpecial (s : State) (r : Nat) (x : Special) (o n : Nat) : Except Nat (List Byte) :=
  match x.hint with
  | 0x05 =>
    readSegs (fun i => s.freeByte r (x.base + i))
      [⟨0, pageBytes, fun _ n => .ok (List.replicate n 0)⟩, ⟨pageBytes, x.bytes, fun o n => s.readClean r (x.base + o) n⟩] o n
  | 0x10 =>
    let v := ViewRec.ofNat x.raw
    readSegs (fun i => s.freeByte r (x.base + i)) (s.viewSegs r x v (tget ViewSt.reset (s.room r).mem.views x.base)) o n
  | 0x11 =>
    match (s.room r).forest with
    | none => .error Code.memSpecial
    | some f =>
      if o + n ≤ 8192 then .ok (List.replicate n 0)
      else if f.inWindow o n then s.windowRead r f (o - f.winOff) n
      else .error Code.memSpecial
  | _ => .ok (List.replicate n 0)

/-- A read of a room's range, checked (R249, R250). -/
def State.readAny (s : State) (r va n : Nat) : Except Nat (List Byte) :=
  match s.accessCheck r va n false with
  | .error c => .error c
  | .ok none => s.readClean r va n
  | .ok (some x) => s.readSpecial r x (va - x.base) n

/-! ## What an access moves at the stacks (R223, R259, R366) -/

/-- The result rows of a view that an extent at an offset of its range touches: EXPAND rows, or the rows and records of a MERGE view. -/
def ViewRec.rowsRead (v : ViewRec) (o n : Nat) : List Nat :=
  let within (lo hi pitch : Nat) : List Nat :=
    let a := Nat.max o lo
    rowsIn pitch (a - lo) (Nat.min (o + n) hi - a)
  match v.vkind with
  | 1 => within 0 v.need v.rp
  | 3 =>
    let rows := v.resOff + v.seqs * v.ro
    dedup (within v.resOff rows v.ro ++ within rows (rows + v.seqs * 16) 16)
  | _ => []

/-- The extents of the room's memory that an access takes: the branch window's pages where they lie in the pool (R190), the slots and the parts that a
view's rows are computed from (R137, R138), else the extent itself. -/
def State.reached (s : State) (r va n : Nat) : List (Nat × Nat) :=
  match (s.room r).mem.specialOf va with
  | none => [(va, n)]
  | some x =>
    let o := va - x.base
    match x.hint with
    | 0x11 =>
      (match (s.room r).forest with
        | some f =>
          if f.inWindow o n then (cutAtMultiples 65536 (o - f.winOff) n).filterMap fun p => ((s.room r).pieceVa f p.1).map fun a => (a, p.2)
          else []
        | none => [])
    | 0x10 =>
      let v := ViewRec.ofNat x.raw
      (match v.vkind with
        | 1 => (v.rowsRead o n).flatMap fun k =>
            let (q, _, t, _) := v.rowIs k
            match s.slotVa r v q t with
            | .ok a => (v.rowParts k).map fun p => (a + p.1, p.2)
            | .error _ => []
        | 3 => (if o < v.before then [(va, n)] else []) ++
            (v.rowsRead o n).flatMap fun i => (v.partsAt x.base i).flatMap fun p => [(p.1, 4 * v.dv), (p.2, 16)]
        | _ => [(va, n)])
    | _ => [(va, n)]

/-- Sieve accesses at the stack that holds an address: one, or one for each atomic add (R223). -/
def State.chargeSieve (s : State) (r va k : Nat) : State :=
  match (s.room r).mem.upperOf (va / pageBytes) with
  | none => s
  | some p => (s.charge r 11 k).stackAccess p.1 r true k

/-- A normal-path access of `n` bytes: whole 256-byte granules at the stack of each page it touches (R223, R366). -/
def State.chargeNormal (s : State) (r va n : Nat) : State :=
  (pagesOf va n).foldl (fun s p =>
    match (s.room r).mem.upperOf p.1 with
    | none => s
    | some u =>
      let b := 256 * ceilDiv (Nat.max va (p.1 * pageBytes) % 256 + p.2) 256
      (s.charge r 10 b).stackAccess u.1 r false b) s

/-- Heat gained by every page of an extent (R259). -/
def State.warm (s : State) (r va n : Nat) : State := (pagesOf va n).foldl (fun s p => s.heat r p.1 p.2) s

/-- The path walks of the forest engine that an access through the branch window takes, one sieve access for each node (R189, R223). -/
def State.chargeWalks (s : State) (r va n : Nat) : State :=
  match (s.room r).mem.specialOf va, (s.room r).forest with
  | some x, some f =>
    if x.hint = 0x11 && f.inWindow (va - x.base) n then
      ((cutAtMultiples 65536 (va - x.base - f.winOff) n).flatMap fun p =>
        let (b, l, g) := f.at3 p.1
        f.walk b l g).foldl (fun s k => s.chargeSieve r (f.nodeVa k) 1) s
    else s
  | _, _ => s

/-- Heat and charges of one normal-path access of the room's cores, bench units, views or batches (R223, R259). -/
def State.touchAccess (s : State) (r va n : Nat) : State :=
  (s.reached r va n).foldl (fun s e => (s.chargeNormal r e.1 e.2).warm r e.1 e.2) (s.chargeWalks r va n)

/-- Heat and charges of one row of a MOVE: a row of exactly 32 or 64 bytes, aligned to its size, takes the sieve path, and so do atomic adds, one for
each element (R223, R236). -/
def State.touchRow (s : State) (r va n adds : Nat) : State :=
  if 0 < adds then (s.chargeSieve r va adds).warm r va n
  else if (n = 32 ∨ n = 64) ∧ va % n = 0 then
    (s.reached r va n).foldl (fun s e => if e.2 = n then (s.chargeSieve r e.1 1).warm r e.1 n else (s.chargeNormal r e.1 e.2).warm r e.1 e.2)
      (s.chargeWalks r va n)
  else s.touchAccess r va n

/-- What the conversions of a view's rows that a read computes count, at the bench units beside the row's source (R34, R35). -/
def State.countView (s : State) (r va n : Nat) : State :=
  match (s.room r).mem.specialOf va with
  | none => s
  | some x =>
    if x.hint ≠ 0x10 then s
    else
      let v := ViewRec.ofNat x.raw
      let row (k : Nat) : Except Nat (Nat × ViewRow) := do
        if v.vkind = 1 then
          let (q, _, t, _) := v.rowIs k
          let a ← s.slotVa r v q t
          let w ← s.expandRowAt r v (tget ViewSt.reset (s.room r).mem.views x.base) k
          pure (a, w)
        else
          let w ← s.mergeRow r v x.raw x.base k
          pure (x.base, w)
      (v.rowsRead (va - x.base) n).foldl (fun s k =>
        match row k with
        | .ok (a, w) => let u := 136 + s.stackOf r a; (s.count u 6 w.sat).count u 7 w.nan
        | .error _ => s) s

/-! ## Writes -/

/-- What a write came to: the state, and the code it fails with. -/
structure Wrote where
  s : State
  code : Option Nat

/-- A write inside a special range that is no command: command slots, release slots and control blocks of kernels take none (R198, R229, R267). -/
def State.writeSpecial (s : State) (r : Nat) (x : Special) (o : Nat) (bytes : List Byte) : Wrote :=
  let n := bytes.length
  let no : Wrote := ⟨s, some Code.memSpecial⟩
  let plain : Wrote := ⟨s.writeVa r (x.base + o) bytes, none⟩
  match x.hint with
  | 0x05 => if pageBytes ≤ o then ⟨s, some Code.memReadonly⟩ else no
  | 0x10 =>
    let v := ViewRec.ofNat x.raw
    match v.vkind with
    | 1 => no
    | 2 => if o + n ≤ 64 || (65536 ≤ o && decide (o + n ≤ v.before)) then plain else no
    | _ => if o + n ≤ v.before then plain else no
  | 0x11 =>
    match (s.room r).forest with
    | none => no
    | some f =>
      if f.inWindow o n then
        let (s, c) := s.windowWrite r f (o - f.winOff) bytes
        ⟨s, c⟩
      else no
  | _ => no

/-- A write of a room's range, checked (R249, R250). -/
def State.writeAny (s : State) (r va : Nat) (bytes : List Byte) : Wrote :=
  match s.accessCheck r va bytes.length true with
  | .error c => ⟨s, some c⟩
  | .ok none => ⟨s.writeVa r va bytes, none⟩
  | .ok (some x) => s.writeSpecial r x (va - x.base) bytes

/-! ## Blocks that a MOVE commands with (R139, R198, R229, R267, R400) -/

/-- A 64-byte block whose whole writing by a core's MOVE is a command. -/
inductive Block where
  /-- The release slot of a core in a haul window (R267). -/
  | release (base slot : Nat)
  /-- The control block of a decode view (R139). -/
  | control (base : Nat)
  /-- A command slot of the room's forest (R198). -/
  | command (slot : Nat)
  /-- The control block of a bench kernel (R229). -/
  | kernel (base : Nat)
  /-- The post word of a collective record (R400). -/
  | post (k : Nat)
deriving DecidableEq, Repr

/-- The block at a 64-byte address, if one lies there. -/
def State.blockAt (s : State) (r a : Nat) : Option Block :=
  let x := s.room r
  match x.mem.specialOf a with
  | none =>
    if x.postAddr ≤ a ∧ (a - x.postAddr) % 64 = 0 ∧ (a - x.postAddr) / 64 < x.prog.length then some (.post ((a - x.postAddr) / 64)) else none
  | some p =>
    let o := a - p.base
    match p.hint with
    | 0x05 => if o < 8192 then some (.release p.base (o / 64)) else none
    | 0x10 => if o = 0 ∧ (ViewRec.ofNat p.raw).vkind = 2 then some (.control p.base) else none
    | 0x11 => if o < 8192 then some (.command (o / 64)) else none
    | _ => if o = 0 then some (.kernel p.base) else none

/-- Whether a block is no memory: it takes only whole writes, and reads as 0. -/
def Block.bare : Block → Bool
  | .release _ _ => true
  | .command _ => true
  | .kernel _ => true
  | _ => false

/-- The 64-byte addresses that an extent touches. -/
def blocksIn (a n : Nat) : List Nat := (rowsIn 64 a n).map (64 * ·)

/-- Whether a MOVE writes a byte of its destination (its rows do not overlap, Table 3.5). -/
def MoveWord.covers (w : MoveWord) (x : Nat) : Bool :=
  decide (w.dst ≤ x) &&
    (if w.rows ≤ 1 then decide (x - w.dst < w.rowBytes)
     else decide ((x - w.dst) / w.dstPitch < w.rows) && decide ((x - w.dst) % w.dstPitch < w.rowBytes))

/-- Whether a MOVE writes a block whole. -/
def MoveWord.whole (w : MoveWord) (a : Nat) : Bool := (List.range 64).all fun i => w.covers (a + i)

/-- Whether an extent lies in blocks that are no memory, and whether some part of it does. -/
def State.allBare (s : State) (r a n : Nat) : Bool := (blocksIn a n).all fun b => (s.blockAt r b).any Block.bare
def State.anyBare (s : State) (r a n : Nat) : Bool := (blocksIn a n).any fun b => (s.blockAt r b).any Block.bare

/-- Places taken in a block's queue (R139, R198, R229, R400). -/
def Room.queueLen (x : Room) : Block → Nat
  | .release _ _ => 0
  | .control base => (tget ViewSt.reset x.mem.views base).queue.length
  | .command slot => match x.forest with
    | some f => (f.queue.filter fun c => c.slot = slot && c.desc.isNone).length
    | none => 0
  | .kernel base => (tget ⟨0, [], [], none⟩ x.kernels base).queue.length
  | .post k => (tget ⟨0, false, 0⟩ x.coll k).queued

/-- A release of a haul window slot (R267, R268): the core is a consumer, the bytes after the count are 0. -/
def State.release (s : State) (r base core slot : Nat) (bytes : List Byte) : Wrote :=
  match tfind (s.room r).mem.windows base with
  | none => ⟨s, some Code.memSpecial⟩
  | some w =>
    if !bit w.mask (64 * coreDie core + coreIdx core) ∨ (bytes.drop 4).any (· ≠ 0) then ⟨s, some Code.memSpecial⟩
    else
      let c := slot / 64 * 128 + slot % 64
      let n := tget 0 w.releases c + leNat (bytes.take 4)
      let s := s.modMem r fun m => { m with windows := tset m.windows base { w with releases := tset w.releases c n } }
      ⟨s, if w.started < n then some Code.haulOrder else none⟩

/-- A command slot written whole (R198, R199): the command queued. -/
def State.slotWrite (s : State) (r slot : Nat) (bytes : List Byte) : Wrote :=
  match (s.room r).forest with
  | none => ⟨s, some Code.memSpecial⟩
  | some f =>
    let raw := leNat bytes
    let cmd := raw % 256
    if cmd = 0 then ⟨s, none⟩
    else if 4 < cmd then ⟨s, some Code.forestCmd⟩
    else if (cmd = 1 ∨ cmd = 2) ∧ (f.pilot = 0xFFFF ∨ slot ≠ 64 * coreDie f.pilot + coreIdx f.pilot) then ⟨s, some Code.forestNotPilot⟩
    else ⟨s.modRoom r fun x => { x with forest := some { f with queue := f.queue ++ [⟨slot, raw, none⟩] } }, none⟩

/-- A bench kernel's control block written whole (R229). -/
def State.kernelWrite (s : State) (r base : Nat) (bytes : List Byte) : Wrote :=
  if leNat (bytes.take 4) = 0 then ⟨s, none⟩
  else
    let args := (List.range 7).map fun i => leNat ((bytes.drop (8 + 8 * i)).take 8)
    ⟨s.modRoom r fun x => { x with kernels := tmod ⟨0, [], [], none⟩ x.kernels base fun k => { k with queue := k.queue ++ [args] } }, none⟩

/-- A decode view's control block written whole (R139). -/
def State.controlWrite (s : State) (r base : Nat) (bytes : List Byte) : Wrote :=
  let st := tget ViewSt.reset (s.room r).mem.views base
  let v := ViewRec.ofNat st.raw
  let first := leNat (bytes.take 4)
  let n := leNat ((bytes.drop 4).take 4)
  if decide (4096 < n) || (bytes.drop 8).any (· ≠ 0) then ⟨s.postCounter r v.ctrCore v.ctr 1 engineWait, some Code.decodeControl⟩
  else if n = 0 then ⟨s, none⟩
  else ⟨s.modMem r fun m => { m with views := tset m.views base { st with queue := st.queue ++ [(first, n)] } }, none⟩

/-- A post word written whole: an execution of its record queued where its first word is not 0 (R400). -/
def State.postWrite (s : State) (r k : Nat) (bytes : List Byte) : Wrote :=
  if leNat (bytes.take 4) = 0 then ⟨s, none⟩
  else ⟨s.modRoom r fun x => { x with coll := tmod ⟨0, false, 0⟩ x.coll k fun c => { c with queued := c.queued + 1 } }, none⟩

/-- What a block does once a core has written it whole. -/
def State.fire (s : State) (r core : Nat) (b : Block) (bytes : List Byte) : Wrote :=
  match b with
  | .release base slot => s.release r base core slot bytes
  | .control base => s.controlWrite r base bytes
  | .command slot => s.slotWrite r slot bytes
  | .kernel base => s.kernelWrite r base bytes
  | .post k => s.postWrite r k bytes

/-- Whether the command of a block has to wait: it would be the fifth of its queue. -/
def State.fifth (s : State) (r core : Nat) (b : Block) (bytes : List Byte) : Bool :=
  decide (4 < ((s.fire r core b bytes).s.room r).queueLen b)

end Sys2Proof.Machine
end

