-- ==== Sys2Proof/Machine/CoreOps.lean ====
section
/-! DEFINITION. What the core commands share: the next word of the selected context and whether it may issue (R79), the spaces a word reaches (R91, R354), issuing, completing, and detected errors (R66 to R71). -/

namespace Sys2Proof.Machine

/-! ## The next word (R79, R80, R354) -/

/-- The word a core's selected context would issue next: room, context, word, its length and slot. -/
structure Next where
  room : Nat
  ctx : Ctx
  word : Word
  len : Nat
  slot : Nat

/-- A position moved over a word: the prologue runs into the body's first word of the first step, the body repeats (R80). -/
def Ctx.advance (x : Ctx) (len : Nat) : Ctx :=
  let pc := x.pc + len
  if x.inPro then (if pc < x.proLen then { x with pc := pc } else { x with inPro := false, pc := x.startPc })
  else if pc < x.bodyLen then { x with pc := pc } else { x with pc := 0 }

/-- The next word of a core, where it may issue: the selected room runs and may be served (R353, R357), no barrier or fault holds the context. -/
def State.nextWord (s : State) (core : Nat) : Option Next :=
  let c := s.core core
  match c.sel with
  | none => none
  | some r =>
    match c.ctx r with
    | none => none
    | some x =>
      if !s.mayServe core r || x.stopped || x.atBarrier || !(s.room r).running || !s.coreOn core then none
      else
        let (a, slot) := x.wordAt
        match fetchWord (s.room r).mem.data a with
        | none => none
        | some (w, len) => if x.mayIssue w then some ⟨r, x, w, len, slot⟩ else none

/-- The step number a word's draws take (R37): every prologue word takes 0xFFFFFFFF. -/
def Ctx.stepNo (x : Ctx) : Nat := if x.inPro then 0xFFFFFFFF else x.step % 2 ^ 32

def Ctx.sregVal (x : Ctx) (i : Nat) : Nat := tget 0 x.shape i

/-- The seed of a room's incarnation. -/
def Room.seedOf (x : Room) : Nat :=
  match x.job with
  | some j => j.seed
  | none => 0

/-- The conversion control of a word under the precision mode in force (R380). -/
def Room.cvtOf (x : Room) (tag cvt : Nat) : Nat :=
  match x.precision.find? fun e => e.1 = tag with
  | some e => (cvt &&& e.2.1) ||| e.2.2
  | none => cvt

/-! ## Stores (R51, R354) -/

/-- A room's own view of a core's store: its region from address 0, so that a word's offsets apply. -/
def State.regionOf (s : State) (core r : Nat) : Memory :=
  let c := s.core core
  match c.ctx r with
  | none => []
  | some x => if x.storeBase = 0 then c.store else memMoveBase (memSlice c.store x.storeBase (storeSize core)) x.storeBase 0

/-- Bytes written into a room's region of a core's store. -/
def State.storeWrite (s : State) (core r a : Nat) (bytes : List Byte) : State :=
  match (s.core core).ctx r with
  | none => s
  | some x => s.modCore core fun c => { c with store := memWriteN c.store (x.storeBase + a) bytes }

/-- The base of a room's part of a die's common store, in bytes (Table 13.2). -/
def Room.commonBase (x : Room) (die : Nat) : Nat :=
  1048576 * (if die = 0 then bits x.grant.common 7 0 else bits x.grant.common 23 16)

/-! ## Issue -/

/-- The ready word that a slot's room owes: the time from which the 40 µs of R360 run, the slot start, or under `lend` the time from which it is ready. -/
def State.dueFrom (s : State) (core : Nat) (x : Ctx) (due : Nat) : Nat :=
  if (s.slotOwner core).any (·.2) then Nat.max due (x.readyAt.getD due) else due

/-- The first word issued after a slot made the context due counts as late beyond 40 µs, below the trip point (R360). -/
def State.slotLate (s : State) (core r : Nat) : State :=
  match (s.core core).ctx r with
  | none => s
  | some x =>
    match x.due with
    | none => s
    | some t =>
      let s := s.modCtx core r fun x => { x with due := none }
      if s.dueFrom core x t + 40000 < s.now ∧ (if coreDie core = 0 then s.power.tj0 else s.power.tj1) < 110 then
        ({ s with sched := { s.sched with late := s.sched.late + 1 } }).charge r 14 1
      else s

/-- The context moved past the word it issues: the core's time up to now is charged, a late issue is counted. -/
def State.passWord (s : State) (core : Nat) (n : Next) : State :=
  ((s.account core).slotLate core n.room).modCtx core n.room fun x => x.advance n.len

/-- A word issued: it is in flight until its completion. -/
def State.issue (s : State) (core : Nat) (n : Next) (f : Flight) : State :=
  ((s.passWord core n).modCtx core n.room fun x => { x with flights := x.flights ++ [{ f with issued := s.now }] }).refresh core

/-- A plain flight of a kind and a slot. -/
def Flight.new (kind : FlightKind) (slot nominal : Nat) : Flight :=
  { kind := kind, slot := slot, out := TileOut.none, marks := [], latched := [], sreg := 0, value := 0,
    move := none, requests := 0, rows := 0, blocks := [], issued := 0, attempt := 1, nominal := nominal, isMatrix := decide (kind = .matrix) }

/-- Residence marks of a tile (R85): KEEP and BOTH leave the named banks resident, WRITE frees them. -/
def MatrixWord.marks (w : MatrixWord) : List (Nat × Option BankIdent) :=
  if !w.bankNaming then []
  else w.namedBanks.map fun k => (k, if w.result = 0 then none else some w.ident)

/-- Residence marks of a VECTOR word in bank mode (R109). -/
def VectorWord.marks (w : VectorWord) : List (Nat × Option BankIdent) :=
  if !w.xb && !w.zb then []
  else w.namedBanks.map fun k =>
    (k, if w.zb || w.keep then some w.ident else none)

/-- Residence marks applied to a core's banks. -/
def Core.mark (c : Core) (l : List (Nat × Option BankIdent)) : Core :=
  { c with banks := l.foldl (fun t m => tmod Bank.free t m.1 fun b => { b with resident := m.2 }) c.banks }

/-- Banks latched into their shadows (R68, R111). -/
def Core.latch (c : Core) (l : List Nat) : Core :=
  { c with banks := l.foldl (fun t k => tmod Bank.free t k fun b => { b with shadow := b.words }) c.banks }

/-- Banks restored from their shadows (R69). -/
def Core.unlatch (c : Core) (l : List Nat) : Core :=
  { c with banks := l.foldl (fun t k => tmod Bank.free t k fun b => { b with words := b.shadow }) c.banks }

/-- The free banks of a tile's issue interval (R85): fewest on any array of the plan. -/
def Core.freeBanks (c : Core) (n : Nat) : Nat :=
  minNat 4 ((List.range n).map fun a => ((List.range 4).filter fun k => (tget Bank.free c.banks (bankKey a k)).resident.isNone).length)

/-! ## Completion -/

/-- Banks and store written by a completed tile; its banks' residence changes (R67, R85). -/
def State.deliver (s : State) (core r : Nat) (f : Flight) : State :=
  let s := f.out.writes.foldl (fun s w => s.storeWrite core r w.1 w.2) s
  let s := s.modCore core fun c =>
    { c with banks := f.out.banks.foldl (fun t w => tmod Bank.free t w.1.1 fun b => { b with words := tset b.words w.1.2 w.2 }) c.banks }
  let s := s.modCore core fun c => c.mark f.marks
  let u := s.physUnit core
  ((s.count u 5 f.out.accSat).count u 6 f.out.cvtSat).count u 7 f.out.nanDrop

/-- The first flight that passes a test taken out of a list. -/
def takeFlight (p : Flight → Bool) : List Flight → Option (Flight × List Flight)
  | [] => none
  | f :: r => if p f then some (f, r) else (takeFlight p r).map fun q => (q.1, f :: q.2)

/-- Busy and nominal cycles of a step (R382). -/
def State.busyCycles (s : State) (core r cycles nominal : Nat) : State :=
  s.modCtx core r fun x => { x with busy := x.busy + cycles, nominal := x.nominal + nominal }

/-- A tile of the selected context completes (R67); the single-bit errors its reads met are counted as corrected (R52). -/
def State.completeTile (s : State) (core : Nat) (ran : Ran) (p : Flight → Bool) : State :=
  match (s.core core).sel with
  | none => s
  | some r =>
    match (s.core core).ctx r with
    | none => s
    | some x =>
      match takeFlight p x.flights with
      | none => s
      | some (f, rest) =>
        let s := ((s.account core).deliver core r f).corrected (s.physUnit core) (s.physUnit core) ran.corrected
        let s := s.modCtx core r fun x => { x with flights := rest }
        (s.busyCycles core r ran.cycles f.nominal).refresh core

/-! ## Detected errors (R66 to R71, R111) -/

/-- A second detected error takes the core out of service (R70). -/
def State.retireCore (s : State) (core r : Nat) : State :=
  let u := s.physUnit core
  let s := { s with health := { s.health with marks := tset s.health.marks u .failed } }
  let s := s.healthRecord 2 Code.coreRetired u r 0
  s.raiseFault r Code.coreRetired u

/-- Whether a flight is a tile of the arrays or the vector unit. -/
def Flight.isWord (f : Flight) : Bool := f.kind = .matrix || f.kind = .vector

/-- A tile of the arrays or the vector unit in flight from a slot. -/
def Flight.wordAt (slot : Nat) (f : Flight) : Bool := f.isWord && decide (f.slot = slot)

/-- The flights with the tile from a slot issued again (R69); its watchdog starts anew (R96). -/
def retried (slot now : Nat) (l : List Flight) : List Flight :=
  l.map fun f => if f.wordAt slot then { f with attempt := f.attempt + 1, issued := now } else f

/-- The banks that the tile from a slot latched. -/
def latchedBy (slot : Nat) (l : List Flight) : List Nat := (l.filter (Flight.wordAt slot)).flatMap (·.latched)

/-- A detected error of the tile in flight from a slot: retried once, the core retired at the second of the incarnation. -/
def State.tileError (s : State) (core slot : Nat) (parity : Bool) : State :=
  match (s.core core).sel with
  | none => s
  | some r =>
    match (s.core core).ctx r with
    | none => s
    | some x =>
      if !(x.flights.any (Flight.wordAt slot)) then s
      else
        let u := s.physUnit core
        let s := s.count u (if parity then 3 else 2) 1
        if 1 ≤ x.errors then s.retireCore core r
        else
          let s := s.modCore core fun c => c.unlatch (latchedBy slot x.flights)
          let s := s.count u 4 1
          s.modCtx core r fun x => { x with errors := x.errors + 1, flights := retried slot s.now x.flights }

/-- The room whose context is selected and running on a core. -/
def State.roomOn (s : State) (core : Nat) : Option Nat :=
  match (s.core core).sel with
  | none => none
  | some r => if ((s.core core).ctx r).isSome && (s.room r).running then some r else none

end Sys2Proof.Machine
end

