-- ==== Sys2Proof/Machine/Operands.lean ====
section
/-! DEFINITION. Descriptor operands: where each opcode's fields stand, which bytes must be 0, and the checks of R312 that need no more than the descriptor (Tables 12.3 to 12.5, 10.2 and 11.7). -/

namespace Sys2Proof.Machine

/-! ## Opcodes and field places -/

/-- The opcodes of Table 12.4. -/
def descOpcodes : List Nat :=
  [0x00, 0x01, 0x02, 0x03, 0x04, 0x05, 0x06, 0x07, 0x08, 0x10, 0x11, 0x12, 0x18, 0x19, 0x1A, 0x1B, 0x20, 0x21, 0x22, 0x23, 0x30, 0x3F]

/-- The operand bytes that Table 12.5 names for an opcode: offset and size. -/
def descNamed (op : Nat) : List (Nat × Nat) :=
  match op with
  | 0x01 => [(8, 8), (16, 8), (24, 4), (28, 4), (32, 32)]
  | 0x02 => [(8, 8), (16, 8), (24, 4), (28, 4), (32, 4), (36, 4), (40, 1), (41, 1), (42, 1), (44, 2), (48, 4)]
  | 0x03 => [(8, 8), (16, 4), (20, 4), (24, 4), (28, 1), (29, 1), (30, 1), (32, 4), (36, 2), (40, 4)]
  | 0x04 => [(8, 2), (16, 8)]
  | 0x05 => [(8, 2), (12, 4), (16, 8)]
  | 0x06 => [(8, 1), (12, 4)]
  | 0x07 => [(8, 1), (12, 4), (16, 8), (24, 8)]
  | 0x10 => [(8, 1), (10, 2), (12, 2), (14, 2), (16, 2), (24, 8)]
  | 0x11 => [(8, 1), (10, 2), (12, 2), (14, 2), (16, 2), (24, 8)]
  | 0x12 => [(8, 1), (10, 2), (12, 4), (16, 4), (20, 4), (24, 8)]
  | 0x18 => [(8, 8), (16, 8), (24, 1), (25, 1), (32, 8)]
  | 0x19 => [(8, 8), (16, 8), (24, 8), (32, 16), (48, 2), (50, 1), (51, 1)]
  | 0x1A => [(8, 1), (12, 4), (16, 2), (18, 2), (20, 4), (24, 8), (32, 8)]
  | 0x1B => [(8, 1), (12, 4), (16, 4), (20, 4), (24, 4), (28, 4)]
  | 0x20 => [(8, 1), (9, 1), (10, 1), (11, 1), (12, 2), (14, 2), (16, 1), (20, 4), (24, 8), (32, 8), (40, 8), (48, 8), (56, 4)]
  | 0x21 => [(8, 1), (9, 1), (10, 1), (11, 1), (12, 2), (14, 2), (16, 1), (20, 4), (24, 8), (32, 4), (40, 8), (48, 8)]
  | 0x22 => [(8, 1), (9, 1), (10, 1), (14, 2), (16, 1), (20, 4), (24, 8), (32, 8), (40, 4), (44, 4), (48, 4), (52, 4), (56, 4)]
  | 0x23 => [(14, 2), (16, 1), (20, 4), (24, 8), (32, 8), (40, 4), (44, 1), (48, 8), (56, 4)]
  | 0x30 => [(8, 1), (10, 2), (12, 4), (16, 8), (24, 8), (32, 8)]
  | 0x3F => [(8, 2), (12, 4)]
  | _ => []

/-- Bits that Table 12.5 reserves inside a named field, as a mask over the descriptor. -/
def descRsvdBits (op : Nat) : Nat :=
  match op with
  | 0x03 => 0xF0 <<< (8 * 28)
  | 0x19 => 0xF0 <<< (8 * 51)
  | 0x20 => 0xFC <<< (8 * 9)
  | 0x21 => 0xF8 <<< (8 * 9)
  | 0x22 => 0xFE <<< (8 * 9)
  | _ => 0

/-- The bits of a descriptor that its opcode names, the header's among them (R311). -/
def descMask (op : Nat) : Nat :=
  0xFFFFFFFF000003FF + sumNat ((descNamed op).map fun p => (2 ^ (8 * p.2) - 1) <<< (8 * p.1)) - descRsvdBits op

/-- DESC_RSVD: a reserved bit or byte of header or operands is not 0 (R312). -/
def Desc.rsvdBad (d : Desc) : Bool := d.raw &&& descMask d.opcode != d.raw % 2 ^ 512

/-! ## Rows of elements in a COPY or FILL -/

/-- Elements of a packing group (R24). -/
def groupElems (f : Nat) : Nat :=
  match fmtWidth f with
  | 19 => 3
  | 6 => 4
  | 4 => 2
  | _ => 1

/-- One side of a COPY or FILL: space, address, format, elements, rows and pitch. -/
structure Side where
  host : Bool
  addr : Nat
  fmt : Nat
  elems : Nat
  rows : Nat
  pitch : Nat

def Side.rowBytes (x : Side) : Nat := rowBytesOf x.fmt x.elems
def Side.at_ (x : Side) (i : Nat) : Nat := x.addr + i * x.pitch

/-- A side within Table 12.5: whole groups, an aligned address, a pitch that covers the row, at most 2^32 bytes in all. -/
def Side.ok (x : Side) : Bool :=
  x.elems % groupElems x.fmt == 0 && x.addr % (if x.host then 4 else 64) == 0 &&
    (x.rows == 1 || decide (x.rowBytes ≤ x.pitch)) && decide ((x.rows - 1) * x.pitch + x.rowBytes ≤ 2 ^ 32)

def Desc.copySrc (d : Desc) : Side := ⟨d.fld 42 1 % 16 = 1, d.fld 8 8, d.fld 40 1 % 16, d.fld 24 4, d.fld 28 4, d.fld 32 4⟩
def Desc.copyDst (d : Desc) : Side := ⟨d.fld 42 1 / 16 = 1, d.fld 16 8, d.fld 40 1 / 16, d.fld 24 4, d.fld 28 4, d.fld 36 4⟩
def Desc.fillDst (d : Desc) : Side := ⟨d.fld 30 1 = 1, d.fld 8 8, d.fld 28 1 % 16, d.fld 16 4, d.fld 20 4, d.fld 24 4⟩

/-- A `cvt` byte of a COPY or FILL: valid, with no block scale (Table 12.5). -/
def copyCvtOk (c : Nat) : Bool := cvtByteOk c && bits c 5 4 == 0

def Desc.copyBad (d : Desc) : Bool :=
  d.fld 24 4 == 0 || d.fld 28 4 == 0 || decide (1 < d.fld 42 1 % 16) || decide (1 < d.fld 42 1 / 16) ||
    (d.copySrc.host && d.copyDst.host) || !(copyCvtOk (d.fld 41 1)) || !d.copySrc.ok || !d.copyDst.ok

def Desc.fillBad (d : Desc) : Bool :=
  d.fld 16 4 == 0 || d.fld 20 4 == 0 || decide (1 < d.fld 30 1) || !(copyCvtOk (d.fld 29 1)) || !d.fillDst.ok

/-! ## Placement hints (Tables 10.2 and 10.9) -/

/-- MAP hints of ordinary pages, and their SET forms. -/
def hintMaps (h : Nat) : Bool := decide (1 ≤ h) && decide (h ≤ 4)
def hintSets (h : Nat) : Bool := decide (8 ≤ h) && decide (h ≤ 0xB)
def hintListed (h : Nat) : Bool := h == 0 || hintMaps h || h == 5 || hintSets h || h == 0x10 || h == 0x11 || h == 0x12 || h == 0x1F

/-- MEM_ALIGN, then MEM_HINT (R251, R252). -/
def Desc.hintBad (d : Desc) : Option Nat :=
  let va := d.fld 8 8
  let n := d.fld 16 8
  let h := d.fld 24 1
  let attr := d.fld 25 1
  if va % 2097152 ≠ 0 ∨ n % 2097152 ≠ 0 ∨ n = 0 ∨ va < 2097152 ∨ 2 ^ 52 < va + n then some Code.memAlign
  else if !hintListed h ∨ 16 ≤ attr ∨ (attr ≠ 0 ∧ !(hintMaps h || hintSets h)) then some Code.memHint
  else none

/-! ## Haulage operands (R266, R271, R279) -/

def Desc.haulBad (d : Desc) : Bool :=
  let e := d.fld 48 2
  let n := d.fld 50 1
  let sb := d.fld 24 8
  e == 0 || decide (4096 < e) || decide (n < 2) || decide (8 < n) || sb == 0 || sb % 2097152 != 0 || decide (17179869184 < sb) ||
    d.fld 16 8 % 64 != 0 || decide (16 ≤ d.fld 51 1)

def Desc.checkpointBad (d : Desc) : Bool :=
  decide (1 < d.fld 8 1) || (d.fld 8 1 == 0 && (d.fld 16 2 == 0 || decide (d.fld 16 2 ≤ d.fld 18 2) || d.fld 24 8 % 2097152 != 0))

/-! ## Ingest operands (R286, Table 12.5) -/

/-- A counter's core as Table 3.5 encodes a peer, or 0xFFFF for none. -/
def ctrCoreOk (c : Nat) : Bool := c == 0xFFFF || (decide (c < 256) && decide (c % 128 < 64))

/-- INGEST_OP, on what the descriptor alone shows. -/
def Desc.ingestBad (d : Desc) : Bool :=
  let op := d.fld 8 1
  let frame := op == 1
  !(ctrCoreOk (d.fld 14 2)) || decide (16 ≤ d.fld 16 1) ||
  match d.opcode with
  | 0x20 =>
    decide (2 < op) ||
      (op == 0 && (decide (2 < d.fld 10 1) || !([8, 10].contains (d.fld 11 1)) || d.fld 24 8 % 64 != 0)) ||
      (frame && (decide (67108864 < d.fld 20 4) || d.fld 56 4 % 64 != 0 || d.fld 32 8 % 64 != 0 || d.fld 40 8 % 64 != 0))
  | 0x21 =>
    decide (1 < op) || (op == 0 && d.fld 24 8 % 64 != 0) ||
      (frame && (!([1, 2, 4, 8].contains (d.fld 10 1)) || decide (1 < d.fld 11 1) || d.fld 20 4 % 64 != 0))
  | 0x22 =>
    decide (1 < op) || (op == 0 && d.fld 24 8 % 64 != 0) ||
      (frame && (decide (268435456 < d.fld 20 4) || d.fld 40 4 == 0 ||
        !(isZero32 (d.fld 44 4) || (!sign32 (d.fld 44 4) && flt (d.fld 44 4) 0x3F800000))))
  | _ =>
    !([0x0, 0x2, 0x3, 0xE].contains (d.fld 44 1)) || bits (d.fld 40 4) 15 0 == 0 || bits (d.fld 40 4) 31 16 == 0 ||
      d.fld 56 4 % 64 != 0 || d.fld 32 8 % 64 != 0

/-- INGEST_ABSENT: the variant has no die for the opcode (R285). -/
def ingestAbsent (opcode variant : Nat) : Bool :=
  if opcode = 0x22 then variant != 3 else if opcode = 0x23 then false else variant == 3

/-! ## The checks of R312 -/

/-- The operand checks of R312 step 4 that need only the descriptor. -/
def Desc.operandBad (d : Desc) (variant : Nat) : Option Nat :=
  let when (b : Bool) (c : Nat) : Option Nat := if b then some c else none
  match d.opcode with
  | 0x02 => when d.copyBad Code.descOperand
  | 0x03 => when d.fillBad Code.descOperand
  | 0x04 => when (decide (255 < d.fld 8 2)) Code.descOperand
  | 0x05 => when (decide (255 < d.fld 8 2)) Code.descOperand
  | 0x06 => when (decide (1 < d.fld 8 1)) Code.descOperand
  | 0x07 => when (decide (d.fld 8 1 = 0) || decide (5 < d.fld 8 1)) Code.modeKind
  | 0x12 => when (decide (1 < d.fld 8 1) || decide (262144 < d.fld 12 4 + d.fld 16 4) || d.fld 24 8 % 64 != 0) Code.descOperand
  | 0x18 => d.hintBad
  | 0x19 => when d.haulBad Code.haulParams
  | 0x1A => when d.checkpointBad Code.snapParams
  | 0x1B => when (decide (1 < d.fld 8 1)) Code.snapParams
  | 0x20 => if ingestAbsent 0x20 variant then some Code.ingestAbsent else when d.ingestBad Code.ingestOp
  | 0x21 => if ingestAbsent 0x21 variant then some Code.ingestAbsent else when d.ingestBad Code.ingestOp
  | 0x22 => if ingestAbsent 0x22 variant then some Code.ingestAbsent else when d.ingestBad Code.ingestOp
  | 0x23 => when d.ingestBad Code.ingestOp
  | _ => none

/-- R312: the first failing check of a descriptor's copy against its slot's count. -/
def Desc.check (d : Desc) (slotSeq variant : Nat) : Option Nat :=
  if d.fld 4 4 ≠ slotSeq then some Code.descSeq
  else if !descOpcodes.contains d.opcode then some Code.descOpcode
  else if d.rsvdBad then some Code.descRsvd
  else d.operandBad variant

end Sys2Proof.Machine
end

