-- ==== Sys2Proof/Machine/Rings.lean ====
section
/-! DEFINITION. Rings: the ring table and START, doorbells, intake, moderation, MSI-X, CANCEL, restart and the RINGTAB block (chapter 12, R536, R537). -/

namespace Sys2Proof.Machine

/-! ## The ring table (Table 12.1) -/

/-- A ring table entry. -/
structure RingEntry where
  kind : Nat
  ldepth : Nat
  ien : Bool
  vector : Nat
  cq : Nat
  modCount : Nat
  base : Nat
  modUs : Nat
  rsvdOk : Bool
deriving DecidableEq, Repr

def RingEntry.ofNat (w : Nat) : RingEntry :=
  let f := fld w
  { kind := f 0 1, ldepth := f 1 1, ien := bit (f 2 1) 0, vector := f 3 1, cq := f 4 2, modCount := f 6 2, base := f 8 8, modUs := f 16 2,
    rsvdOk := f 2 1 / 2 == 0 && f 18 46 == 0 }

/-- Whether an entry passes R305 step 3; `first` and `count` are the grant's, `kinds` the kind of each local ring. -/
def RingEntry.ok (e : RingEntry) (first count : Nat) (kinds : Nat → Nat) : Bool :=
  e.rsvdOk &&
  match e.kind with
  | 0 => true
  | 1 => decide (6 ≤ e.ldepth) && decide (e.ldepth ≤ 16) && e.base % 4096 == 0 && e.vector == 0 && e.modCount == 0 && e.modUs == 0 &&
      decide (first < e.cq) && decide (e.cq < first + count) && kinds (e.cq - first) == 2
  | 2 => decide (6 ≤ e.ldepth) && decide (e.ldepth ≤ 16) && e.base % 4096 == 0 && e.cq == 0 && decide (e.vector < 32)
  | _ => false

/-- The ring an entry describes, with all counts at 0. -/
def RingEntry.ring (e : RingEntry) (room : Nat) : Ring :=
  { Ring.reset with
    kind := e.kind, st := if e.kind = 0 then .disabled else .active, room := room, ldepth := e.ldepth, ien := e.ien, vector := e.vector,
    cq := e.cq, modCount := e.modCount, modUs := e.modUs, base := e.base }

/-- An entry of a room's ring table, where the host lets the device read it. -/
def State.ringEntry (s : State) (r i : Nat) : Option RingEntry :=
  let a := (s.room r).rtab + 64 * i
  if s.hostOk r a 64 false then some (RingEntry.ofNat (memNat s.host a 64)) else none

/-! ## START (R305, R329) -/

def State.startErr (s : State) (r : Nat) : State := s.modRoom r fun x => { x with startErr := true }

/-- The start record in slot 0 of the initialisation ring. -/
def State.startRecord (s : State) (first : Nat) (q0 : Ring) (status detail result0 result1 : Nat) (started : Bool) : State :=
  let s := (s.setRing first q0).writeRecord first ⟨0, first, true, true, false, status, 0, detail, result0, result1⟩
  if started then s else s.setRing first { Ring.reset with room := q0.room }

/-- START as R305 orders it. -/
def State.startRings (s : State) (r : Nat) : State :=
  let x := s.room r
  let first := x.ringBase
  let n := x.ringCount
  if x.st ≠ .committed then s.startErr r
  else if (span first n).any fun q => (s.ring q).st ≠ .disabled then s
  else if n = 0 ∨ x.rtab % 4096 ≠ 0 then s.startErr r
  else if !s.hostOk r x.rtab (64 * n) false then (s.countRefused r).startErr r
  else
    let es := (List.range n).filterMap fun i => s.ringEntry r i
    let kinds (i : Nat) : Nat := ((es[i]?).map (·.kind)).getD 0
    match es with
    | [] => s.startErr r
    | e0 :: rest =>
      if e0.kind ≠ 2 ∨ !e0.ok first n kinds then s.startErr r
      else
        let q0 := e0.ring r
        if x.iface ≠ s.fwIface then s.startRecord first q0 stVersionRefused 0 s.fwIface 0 false
        else
          match rest.findIdx? fun e => !e.ok first n kinds with
          | some i => s.startRecord first q0 stBadDescriptor Code.ringTable (i + 1) 0 false
          | none =>
            let up := (es.filter fun e => e.kind ≠ 0).length
            let s := rest.zipIdx.foldl (fun s p => s.setRing (first + 1 + p.2) (p.1.ring r)) s
            let s := s.modRoom r fun x => { x with sems := [] }
            s.startRecord first q0 stOk 0 s.fwIface up true

/-- START of a room by its own function (Table 13.3). -/
def State.startWrite (s : State) (fn room : Nat) : State :=
  if fn ≠ room ∨ (s.room room).st = .absent then s else s.startRings room

def execStart (fn room : Nat) (host : List HostAct) (s : State) : Host.Outcome State Fault Refusal :=
  .next ((s.hostActs host).startWrite fn room)

/-! ## Doorbells (R307 to R309) -/

def State.dbIgnore (s : State) (r : Nat) : State := s.modRoom r fun x => { x with dbIgnored := x.dbIgnored + 1 }

/-- A descriptor ring halted with its ring-event record (R309, R323). -/
def State.haltRing (s : State) (q status detail : Nat) : State :=
  let x := s.ring q
  (s.setRing q { x with st := .halted }).post x.cq (x.count % 65536) q true true false status 0 detail 0 0

/-- A doorbell write as R308 and R309 take it. `size` is the number of bytes that its byte enables select, so that 4 is the one full write; a read of the
doorbell page changes nothing and returns 0, and no command stands for it. -/
def State.doorbell (s : State) (fn offset size value : Nat) : State :=
  let x := s.room fn
  let q := x.ringBase + offset / 4
  let g := s.ring q
  if x.st ≠ .committed ∨ size ≠ 4 ∨ offset % 4 ≠ 0 ∨ 4 * x.ringCount ≤ offset ∨ g.st = .disabled ∨ g.st = .halted then s.dbIgnore fn
  else if g.kind = 1 then
    if g.depth < (value % 2 ^ 32 + 2 ^ 32 - g.count) % 2 ^ 32 then s.haltRing q stBadDescriptor Code.ringDoorbell
    else s.setRing q { g with bell := value % 2 ^ 32 }
  else if g.depth < (g.count + 2 ^ 32 - value % 2 ^ 32) % 2 ^ 32 then s.dbIgnore fn
  else (s.setRing q { g with bell := value % 2 ^ 32 }).flush q

def execDoorbell (fn offset size value : Nat) (host : List HostAct) (s : State) : Host.Outcome State Fault Refusal :=
  let s := s.hostActs host
  if (s.room fn).st = .absent then .next s else .next (s.doorbell fn offset size value)

/-! ## Intake (R310, R312, R322) -/

/-- Descriptors posted and not read. -/
def Ring.available (q : Ring) : Nat := (q.bell + 2 ^ 32 - q.count) % 2 ^ 32

/-- A FRAME cancelled before an engine started it leaves the stream context that it names broken (R290, R298). -/
def State.breakStream (s : State) (ring : Nat) (d : Desc) : State :=
  let hit (n : Nat) (x : Stream) : Stream := if n = d.fld 12 2 ∧ x.ring = ring then { x with broken := true } else x
  if d.opcode = 0x20 ∧ d.fld 8 1 = 1 then { s with ingest := { s.ingest with streams := tmap s.ingest.streams hit } } else s

/-- One descriptor taken: its slot reserved, its copy checked; a failing or cancelled one completes at once (R312, R319). -/
def State.takeDesc (s : State) (ring : Nat) (raw : Nat) : State :=
  let q := s.ring ring
  let d : Desc := ⟨q.count, raw, false, s.now, 0⟩
  let gone := q.cancelled.contains q.count
  let s := s.setRing ring { q with
    count := (q.count + 1) % 2 ^ 32, descs := q.descs ++ [d], cancelled := q.cancelled.filter (· ≠ q.count) }
  let s := s.modRing q.cq fun c => { c with reserved := c.reserved + 1 }
  if gone then (s.breakStream ring d).complete ring d.seq stCancelled 0 0 0 0
  else
    match d.check q.count s.variant with
    | some c => s.complete ring d.seq stBadDescriptor c 0 0 0
    | none => s

/-- The slots that one read of a ring takes: consecutive ones, at most 1 KiB, while its completion ring has room (R310, R322); 0 where none is read. -/
def State.readable (s : State) (ring : Nat) : Nat :=
  let q := s.ring ring
  let c := s.ring q.cq
  if q.kind ≠ 1 ∨ q.st ≠ .active ∨ q.depth < q.available ∨ !s.served q.room ∨ c.kind ≠ 2 ∨ c.st = .halted ∨ c.st = .disabled then 0
  else Nat.min (Nat.min q.available 16) (Nat.min (q.depth - q.count % q.depth) (c.freeSlots - 1))

/-- One read of consecutive slots (R310). -/
def State.fetch (s : State) (ring : Nat) : State :=
  let q := s.ring ring
  let n := s.readable ring
  let a := q.base + 64 * (q.count % q.depth)
  if !s.hostOk q.room a (64 * n) false then (s.countRefused q.room).haltRing ring stAccessFault Code.ringFetch
  else ((List.range n).map fun i => memNat s.host (a + 64 * i) 64).foldl (fun s w => s.takeDesc ring w) s

/-- The rooms of a pair whose rings have a descriptor to read (Table 14.2). -/
def State.intakeRooms (s : State) (pair : Nat) : List Nat :=
  (s.rooms.map (·.1)).filter fun r => s.pairOf r == pair && (s.roomRings r).any fun q => decide (0 < s.readable q.1)

/-- The ring of a room that is read next: in ascending ID, each in turn (Table 14.2). -/
def State.turnOf (s : State) (r : Nat) : Option Nat :=
  let l := ((s.roomRings r).map (·.1)).filter fun q => decide (0 < s.readable q)
  (l.find? fun q => decide (tget 0 s.sched.turns r ≤ q)).or l.head?

/-- A ring visited by the intake loop of a pair: once every ring that has something to read has been, the watchdog's count restarts (R370). -/
def State.visit (s : State) (p ring : Nat) : State :=
  let seen := ring :: (s.pair p).seen
  let all := s.rings.all fun q => s.pairOf q.2.room != p || s.readable q.1 == 0 || seen.contains q.1
  s.modPair p fun x => if all then { x with
    visited := s.now
    seen := [] } else { x with seen := seen }

/-- One read for a ring, where the intake of its pair chooses its room, and its room the ring: latency-critical rooms first, then by share. Every
descriptor read is charged (R347, R348, log entry 111). -/
def State.intake (s : State) (ring : Nat) : State :=
  let r := (s.ring ring).room
  let p := s.pairOf r
  if s.turnOf r ≠ some ring then s
  else
    match s.serve (arbIntake p) true (s.intakeRooms p) r with
    | none => s
    | some t =>
      let t := (t.fetch ring).spend (arbIntake p) r (s.readable ring)
      let t := { t with sched := { t.sched with turns := tset t.sched.turns r (ring + 1) } }.visit p ring
      t.settle (arbIntake p) (t.intakeRooms p)

def execDescriptorFetch (ring : Nat) (s : State) : Host.Outcome State Fault Refusal := .next (s.intake ring)

/-- The slots of a ring's descriptors that had been read and had not started, read again after a restart of the pair (R325): the copies checked afresh; a
refused read halts the ring, and each such descriptor completes with the code of the halt (log entry 107). -/
def State.reread (s : State) (ring : Nat) : State :=
  let q := s.ring ring
  let todo := q.descs.filter fun d => !d.started
  let at_ (d : Desc) : Nat := q.base + 64 * (d.seq % q.depth)
  if q.kind ≠ 1 ∨ todo.isEmpty then s
  else if todo.all fun d => s.hostOk q.room (at_ d) 64 false then
    todo.foldl (fun s d =>
      let d := { d with raw := memNat s.host (at_ d) 64 }
      let s := s.modRing ring fun q => { q with descs := q.descs.map fun e => if e.seq = d.seq then d else e }
      match d.check d.seq s.variant with
      | some c => s.complete ring d.seq stBadDescriptor c 0 0 0
      | none => s) s
  else todo.foldl (fun s d => s.complete ring d.seq stAccessFault Code.ringFetch 0 0 0)
    ((s.countRefused q.room).haltRing ring stAccessFault Code.ringFetch)

/-! ## Starting descriptors (R313, R316) -/

/-- Descriptors of a room started and not completed, a LAUNCH or RESTORE that holds the room among them from its hold on (R316, log entry 107). -/
def State.inFlight (s : State) (r : Nat) : Nat :=
  sumNat ((s.roomRings r).map fun q =>
    (q.2.descs.filter fun d => d.started || (s.room r).job.any fun j => j.ring == q.1 && j.seq == d.seq).length)

/-- Whether a descriptor starts only after every earlier one of its ring has completed (Table 12.4). -/
def Desc.waitsAll (d : Desc) : Bool := d.fence || d.opcode == 0x04 || (d.opcode == 0x06 && d.fld 8 1 == 1)

/-- Whether a CANCEL that has been taken in names a descriptor: it wins over the start (R319, R361). -/
def State.cancelAhead (s : State) (r ring seq : Nat) : Bool :=
  (s.roomRings r).any fun q => q.2.descs.any fun d => d.opcode == 0x3F && !d.started && d.fld 8 2 == ring && d.fld 12 4 == seq

/-- The one descriptor of a ring that may start now: the first unstarted one, where R313 and R316 let it. -/
def State.canStart (s : State) (ring : Nat) : Option Desc :=
  let q := s.ring ring
  if q.kind ≠ 1 ∨ q.st = .disabled ∨ q.st = .frozen ∨ (s.room q.room).st ≠ .committed ∨ !s.served q.room ∨ 4096 ≤ s.inFlight q.room then none
  else
    match q.descs.find? fun d => !d.started with
    | none => none
    | some d => if (d.waitsAll && q.descs.head? != some d) || s.cancelAhead q.room ring d.seq then none else some d

/-- A descriptor that may start and has one opcode and passes one more test. -/
def State.canStartOp (s : State) (ring opcode : Nat) (p : Desc → Bool) : Option Desc :=
  match s.canStart ring with
  | none => none
  | some d => if d.opcode = opcode && p d then some d else none

def anyDesc (_ : Desc) : Bool := true

/-- Marks a descriptor started. -/
def State.markStarted (s : State) (ring seq : Nat) : State :=
  s.modRing ring fun q => { q with descs := q.descs.map fun d => if d.seq = seq then { d with started := true } else d }

/-- A descriptor that completes on starting. -/
def State.done (s : State) (ring : Nat) (d : Desc) (status detail : Nat) : State := s.complete ring d.seq status detail 0 0 0

/-! ## CANCEL (R319) -/

/-- Whether a FORK or PRUNE that the steward has handed to the engine still waits there (R201). -/
def Forest.waits (f : Forest) (ring seq : Nat) : Bool := f.queue.any fun c => c.desc = some (ring, seq)

/-- What a CANCEL comes to: its outcome, and the state with its target ended. A target that is posted and not read is known for a CANCEL by its slot,
which R312 keeps unchanged (log entry 107). -/
def State.cancelTarget (s : State) (ring target : Nat) : Nat × State :=
  let t := s.ring ring
  let ahead := (target + 2 ^ 32 - t.count) % 2 ^ 32
  let behind := (t.count + 2 ^ 32 - target) % 2 ^ 32
  if t.kind ≠ 1 then (2, s)
  else if ahead < t.available ∧ t.available ≤ t.depth then
    if memNat s.host (t.base + 64 * (target % t.depth)) 1 = 0x3F then (1, s) else (0, s.setRing ring { t with cancelled := target :: t.cancelled })
  else if behind = 0 ∨ t.depth < behind then (2, s)
  else
    match t.descs.find? fun d => d.seq = target with
    | none => (1, s)
    | some d =>
      if (s.room t.room).forest.any fun f => f.waits ring target then
        (0, (s.modRoom t.room fun x => { x with forest := x.forest.map fun f => { f with
          queue := f.queue.filter fun c => c.desc ≠ some (ring, target) } }).complete ring target stCancelled 0 0 0 0)
      else if d.started ∨ d.opcode = 0x3F then (1, s)
      else
        let s := if (s.room t.room).job.any fun j => j.ring = ring && j.seq = target then s.modRoom t.room fun x => { x with job := none } else s
        (0, (s.breakStream ring d).complete ring target stCancelled 0 0 0 0)

/-- CANCEL acts when the steward takes it in, ahead of its ring's order. -/
def execCancel (ring : Nat) (s : State) : Host.Outcome State Fault Refusal :=
  let q := s.ring ring
  let x := s.room q.room
  if q.kind ≠ 1 ∨ q.st = .disabled ∨ q.st = .frozen ∨ x.st ≠ .committed ∨ !s.served q.room then .next s
  else
    match q.descs.find? fun d => d.opcode = 0x3F && !d.started with
    | none => .next s
    | some d =>
      let t := d.fld 8 2
      if t < x.ringBase ∨ x.ringBase + x.ringCount ≤ t then .next (s.done ring d stBadDescriptor Code.descRing)
      else
        let (o, s) := s.cancelTarget t (d.fld 12 4)
        .next (s.complete ring d.seq stOk 0 o 0 0)

/-! ## Moderation and MSI-X (R324) -/

def execModerationTimer (ring at_ : Nat) (s : State) : Host.Outcome State Fault Refusal :=
  let s := s.upto at_
  let q := s.ring ring
  if q.kind = 2 ∧ q.st ≠ .disabled ∧ q.ien ∧ q.modCount ≠ 0 ∧ q.modUs ≠ 0 ∧ q.unsent ≠ 0 ∧ q.oldest + 1000 * q.modUs ≤ s.now then
    .next ((s.setRing ring { q with unsent := 0, oldest := 0 }).sendMsix q.room q.vector)
  else .next s

/-- A vector unmasked: a message that was pending is sent. -/
def State.unmask (s : State) (fn v : Nat) : State :=
  let e := tget MsixVec.reset s.msix (fn * 32 + v)
  let s := { s with msix := tset s.msix (fn * 32 + v) { e with masked := false, pending := false } }
  if e.pending then s.emit (.msix fn v e.addr e.data) else s

def execVectorUnmask (fn vector : Nat) (s : State) : Host.Outcome State Fault Refusal := .next (s.unmask fn vector)

/-! ## Restart of a ring (R323, R537) -/

/-- The restart in progress ends: the entry re-read and checked, the ring ACTIVE at its resume count, the record written. -/
def State.ringRestart (s : State) : State :=
  match s.restart with
  | none => s
  | some (r, i, resume) =>
    let x := s.room r
    let first := x.ringBase
    let q := s.ring (first + i)
    if q.descs.any (·.started) then s
    else
      let s := { s with restart := none }
      let kinds (k : Nat) : Nat := (s.ring (first + k)).kind
      match s.ringEntry r i with
      | none => (s.countRefused r).postInit r 0 (first + i) stBadDescriptor Code.ringTable i 0
      | some e =>
        if e.kind = 0 ∨ !e.ok first x.ringCount kinds then s.postInit r 0 (first + i) stBadDescriptor Code.ringTable i 0
        else
          let s := s.setRing (first + i) { e.ring r with
            count := resume, bell := if e.kind = 1 then q.bell else resume, descs := q.descs, cancelled := q.cancelled,
            reserved := q.reserved, held := q.held }
          let s := if e.kind = 2 then s.flush (first + i) else s
          s.postInit r 0 (first + i) stOk Code.ringRestart 0 0

def execRingRestart (s : State) : Host.Outcome State Fault Refusal := .next s.ringRestart

/-- Why a restart write is ignored (Table 22.5), 0 where it is accepted. -/
def State.restartReason_ (s : State) (r i : Nat) : Nat :=
  let x := s.room r
  let q := s.ring (x.ringBase + i)
  if x.st ≠ .committed ∨ (s.ring x.ringBase).st = .disabled then 1
  else if i = 0 ∨ x.ringCount ≤ i then 2
  else if !(q.st = .halted ∨ (q.st = .disabled ∧ q.kind = 0)) then 3
  else if s.restart.isSome then 4
  else 0

/-- A write of RINGTAB_RESTART (R537). -/
def State.ringtabRestart (s : State) (v : Nat) : State :=
  let r := bits v 21 16
  let i := bits v 9 0
  match s.restartReason_ r i with
  | 0 => { s with restart := some (r, i, bits v 63 32) }
  | n => { s with restartRejected := true, restartReason := n }

def execRingtabRestart (fn value : Nat) (s : State) : Host.Outcome State Fault Refusal :=
  .next (if fn = 0 then s.ringtabRestart value else s.badAcc)

/-! ## RINGTAB_SEL (R536) -/

def RingSt.code : RingSt → Nat
  | .disabled => 0
  | .active => 1
  | .frozen => 2
  | .halted => 3

/-- The room whose grant holds a ring. -/
def State.ringOwner (s : State) (q : Nat) : Option Nat :=
  (s.rooms.find? fun p => (p.2.st = .committed || p.2.st = .turnover) && decide (p.2.ringBase ≤ q) &&
    decide (q < p.2.ringBase + p.2.ringCount)).map (·.1)

/-- RINGTAB_INFO1 of a ring (Table 22.5). -/
def Ring.info1 (q : Ring) (owner : Nat) : Nat :=
  q.kind * 2 ^ 30 + owner * 2 ^ 24 + q.st.code * 2 ^ 21 + (if q.kind = 0 then 0 else q.ldepth) * 2 ^ 16 +
    (if q.kind = 1 then (q.descs.filter (·.started)).length else q.reserved) % 65536

/-- A write of RINGTAB_SEL: the selected ring's state taken into the INFO registers in one cycle. -/
def State.ringtabSel (s : State) (v : Nat) : State :=
  let q := v % 2 ^ 14
  match s.ringOwner q with
  | none => { s with ringSel := q, ringInfo0 := 0, ringInfo1 := 0 }
  | some o =>
    let x := s.ring q
    { s with ringSel := q, ringInfo0 := x.count * 2 ^ 32 + x.bell, ringInfo1 := x.info1 o }

def execRingtabSel (fn value : Nat) (s : State) : Host.Outcome State Fault Refusal :=
  .next (if fn = 0 then s.ringtabSel value else s.badAcc)

end Sys2Proof.Machine
end

