-- ==== Sys2Proof/Machine/ForestCmds.lean ====
section
/-! DEFINITION. The forest engine's commands: FORK, PRUNE, SAMPLE and SCORE from the slots, and their descriptors (R193, R197 to R217). -/

namespace Sys2Proof.Machine

/-! ## Operands and checks (Tables 8.3 and 8.7) -/

/-- FORK and PRUNE operands from a slot's record. -/
def FArgs.ofSlot (w : Nat) : FArgs :=
  let f := fld w
  { newRoot := bit (f 1 1) 0, keep := bit (f 1 1) 1, dropHeld := bit (f 1 1) 2, tree := f 4 2, num := f 10 2,
    parts := f 54 2, cap := f 56 2, a0 := f 24 8 }

/-- FOREST_CMD for FORK and PRUNE: a misaligned roster, a tree out of range, an unused field set. -/
def FArgs.badCmd (a : FArgs) (f : Forest) (fork : Bool) : Bool :=
  decide (f.treeMax ≤ a.tree) || a.a0 % 64 != 0 || (if fork then a.dropHeld else a.newRoot || a.keep) ||
    (a.a0 == 0 && (a.parts != 0 || a.cap != 0))

/-- FOREST_PARAMS for FORK and PRUNE. -/
def FArgs.badParams (a : FArgs) (fork : Bool) : Bool :=
  (fork && (a.num == 0 || decide ((if a.newRoot then 4096 else 256) < a.num))) ||
    (a.a0 != 0 && (a.parts == 0 || decide (128 < a.parts) || a.cap == 0))

/-- The first failing check of a FORK or PRUNE before it runs. -/
def FArgs.check (a : FArgs) (f : Forest) (fork : Bool) : Option Nat :=
  if a.badCmd f fork then some Code.forestCmd
  else if a.badParams fork then some Code.forestParams
  else if fork && (if a.newRoot then !(f.live a.tree).isEmpty else (f.leaves a.tree).isEmpty) then some Code.forestTree
  else none

/-- Fields of a slot's record that its command does not use, or RSVD, and are not 0 (R197). -/
def slotUnused (w : Nat) : Bool :=
  let f := fld w
  let nz (l : List Nat) : Bool := l.any (· != 0)
  nz [f 58 6, f 8 1 / 16, f 9 1 / 16] ||
  match f 0 1 with
  | 1 => nz [f 1 1 / 4, f 2 2, f 9 1, f 12 4, f 16 4, f 20 4, f 32 8, f 40 4, f 44 4, f 48 4, f 52 2]
  | 2 => nz [f 1 1 &&& 0xFB, f 2 2, f 9 1, f 12 4, f 16 4, f 20 4, f 32 8, f 40 4, f 44 4, f 48 4, f 52 2]
  | 3 => nz [f 1 1, f 54 2, f 56 2]
  | _ => nz [f 1 1 &&& 0xF7, f 2 2, f 9 1, f 10 2, f 20 4, f 32 8, f 40 4, f 48 4, f 52 2, f 54 2, f 56 2]

/-! ## The engine's time (Table 8.6) -/

/-- Bytes of a roster (R211). -/
def FArgs.rosterBytes (a : FArgs) (n : Nat) : Nat := if a.a0 = 0 then 0 else 64 * a.parts + 4 * n

/-- `ceil(log2 n)` for n at least 1. -/
def clog2 (n : Nat) : Nat := if n ≤ 1 then 0 else Nat.log2 (n - 1) + 1

/-- Children placed on a die by a FORK. -/
def placedOn (old new_ : Forest) (die : Nat) : Nat :=
  (new_.branches.filter fun b => b.1 / 131072 = die && (match tfind old.branches b.1 with
    | some x => x.lineage != b.2.lineage
    | none => true)).length

/-! ## FORK and PRUNE -/

/-- What a FORK or PRUNE came to. -/
inductive FOut where
  | done
  /-- R212: nothing changed; the code for the roster or the completion. -/
  | short (code : Nat)
  /-- Refused, or its roster could not be written. -/
  | bad (code : Nat)

/-- The roster written at `a0` (R211). -/
def State.writeRoster (s : State) (r : Nat) (f : Forest) (a : FArgs) (status : Nat) : State × Option Nat :=
  if a.a0 = 0 then (s, none)
  else
    let w := s.writeAny r a.a0 (f.roster a status)
    (w.s, w.code)

/-- FORK (R203, R204, R212). -/
def State.runFork (s : State) (r : Nat) (f : Forest) (a : FArgs) : State × FOut :=
  let g := (s.room r).bgrant
  match a.check f true with
  | some c => (s, .bad c)
  | none =>
    match f.forkFails g a with
    | some c => (s, .short c)
    | none =>
      let f' := if a.newRoot then f.roots g a else f.forked g a
      let s := s.modRoom r fun x => { x with forest := some f' }
      let s := s.chargeForest r (24 + Nat.max (ceilDiv (placedOn f f' 0) 2) (ceilDiv (placedOn f f' 1) 2) +
        ceilDiv (a.rosterBytes (f'.leaves a.tree).length) 256)
      match s.writeRoster r f' a 0 with
      | (s, some c) => (s, .bad c)
      | (s, none) => (s, .done)

/-- The branches that a PRUNE frees (R210). -/
def Forest.doomed (f : Forest) (a : FArgs) : List Nat :=
  if a.num = 0 then f.live a.tree
  else (f.ranked a.tree).drop a.num ++
    (if a.dropHeld then (f.live a.tree).filter fun b => !(f.leaves a.tree).contains b else [])

/-- PRUNE (R210). -/
def State.runPrune (s : State) (r : Nat) (f : Forest) (a : FArgs) : State × FOut :=
  match a.check f false with
  | some c => (s, .bad c)
  | none =>
    let gone := f.doomed a
    let free (die : Nat) (p : Forest × Nat) : Forest × Nat := (gone.filter fun b => b / 131072 = die).foldl Forest.freeBranch p
    let (f0, e0) := free 0 (f, 0)
    let (f', e1) := free 1 (f0, 0)
    let n := (f.leaves a.tree).length
    let s := s.modRoom r fun x => { x with forest := some f' }
    let s := s.chargeForest r (24 + ceilDiv n 16 * clog2 (Nat.max n 2) + Nat.max (ceilDiv e0 32) (ceilDiv e1 32) +
      ceilDiv (a.rosterBytes (f'.leaves a.tree).length) 256)
    match s.writeRoster r f' a 0 with
    | (s, some c) => (s, .bad c)
    | (s, none) => (s, .done)

/-! ## The queue (R199) -/

/-- Whether a queued command is a FORK or a PRUNE, behind which nothing starts; a descriptor always is one. -/
def FCmd.fences (c : FCmd) : Bool := c.desc.isSome || c.raw % 256 = 1 || c.raw % 256 = 2

/-- The commands ahead of the first FORK or PRUNE. -/
def openCmds : List FCmd → List FCmd
  | [] => []
  | c :: r => if c.fences then [] else c :: openCmds r

/-- The first open command of a kind that is the first of its slot. -/
def pickCmd (kind : Nat) : List Nat → List FCmd → Option FCmd
  | _, [] => none
  | slots, c :: r => if c.raw % 256 = kind && !slots.contains c.slot then some c else pickCmd kind (c.slot :: slots) r

/-- The next command of a kind that may start: a FORK or PRUNE only at the head of the queue. -/
def Forest.nextCmd (f : Forest) (kind : Nat) : Option FCmd :=
  if kind = 1 ∨ kind = 2 then
    match f.queue with
    | c :: _ => if c.raw % 256 = kind && c.desc.isNone then some c else none
    | [] => none
  else pickCmd kind [] (openCmds f.queue)

/-- A queue without the first occurrence of a command. -/
def dropCmd (c : FCmd) : List FCmd → List FCmd
  | [] => []
  | d :: r => if d = c then r else d :: dropCmd c r

/-- The unit that raises a fault of a slot's command: the engine of the slot's die (R494). -/
def FCmd.unit (c : FCmd) : Nat := 158 + c.slot / 64

/-- The counter of a completed command posted (R200). -/
def State.postCmd (s : State) (r raw : Nat) : State := s.postCounter r (fld raw 6 2) (bits (fld raw 8 1) 3 0) 1 engineWait

/-- Whether a room has a command that the engine may start: the head of its queue, a slot's while the job runs. -/
def Room.forestReady (x : Room) : Bool :=
  match x.forest with
  | some f => (match f.queue with
    | c :: _ => c.desc.isSome || x.running
    | [] => false)
  | none => false

/-- The rooms ready at the forest engine. -/
def State.forestRooms (s : State) : List Nat := (s.rooms.filter fun x => x.2.forestReady).map (·.1)

/-- Work of a room on the forest engine, where it chooses the room: latency-critical rooms first, then by share (R347, R348, log entry 111). -/
def State.onForest (s : State) (r : Nat) (work : State → State) : State :=
  match s.serve arbForest true s.forestRooms r with
  | none => s
  | some s =>
    let s := work s
    s.settle arbForest s.forestRooms

/-- A command taken from its slot's queue and run, with the forest as it then stands. -/
def State.forestCmd (s : State) (r kind : Nat) (run : State → FCmd → Forest → State) : State :=
  if !(s.room r).running then s
  else
    match (s.room r).forest with
    | none => s
    | some f =>
      match f.nextCmd kind with
      | none => s
      | some c =>
        let f := { f with queue := dropCmd c f.queue }
        s.onForest r fun s => run (s.modRoom r fun x => { x with forest := some f }) c f

/-- A FORK or PRUNE from a slot: a failure is a job fault; one that R212 stops writes its roster and posts its counter (R212, R215). -/
def State.treeRun (r kind : Nat) (s : State) (c : FCmd) (f : Forest) : State :=
  let a := FArgs.ofSlot c.raw
  if slotUnused c.raw then s.raiseFault r Code.forestCmd c.unit
  else
    match if kind = 1 then s.runFork r f a else s.runPrune r f a with
    | (s, .done) => s.postCmd r c.raw
    | (s, .bad code) => s.raiseFault r code c.unit
    | (s, .short code) =>
      let s := s.chargeForest r (24 + ceilDiv (a.rosterBytes (f.leaves a.tree).length) 256)
      match s.writeRoster r f a code with
      | (s, some e) => s.raiseFault r e c.unit
      | (s, none) => s.postCmd r c.raw

def State.treeCmd (s : State) (r kind : Nat) : State := s.forestCmd r kind (State.treeRun r kind)

/-! ## SCORE (R209) -/

/-- Fields of SAMPLE and SCORE by name. -/
def FCmd.f (c : FCmd) (o n : Nat) : Nat := fld c.raw o n

/-- Whether FP32 bits lie in (0, 1]. -/
def unitInterval (x : Nat) : Bool := !isNan32 x && !isZero32 x && !sign32 x && !flt 0x3F800000 x

/-- The leaves that a SAMPLE or SCORE names. -/
def FCmd.leaves (c : FCmd) (f : Forest) : List Nat := ((f.leaves (c.f 4 2)).drop (c.f 12 4)).take (c.f 16 4)

/-- The first failing check of a SCORE. -/
def FCmd.scoreCheck (c : FCmd) (f : Forest) : Option Nat :=
  let mode := bit (c.f 1 1) 3
  if slotUnused c.raw ∨ f.treeMax ≤ c.f 4 2 ∨ c.f 24 8 % 64 ≠ 0 then some Code.forestCmd
  else if (if mode then c.f 44 4 != 0 else !(unitInterval (c.f 44 4))) then some Code.forestParams
  else if (f.leaves (c.f 4 2)).length < c.f 12 4 + c.f 16 4 then some Code.forestLeafRange
  else if (c.leaves f).any fun b => (tfind f.branches b).any fun x => x.scored then some Code.forestRescore
  else none

/-- SCORE of one leaf: the `i`-th pair. -/
def Forest.scoreLeaf (mode : Bool) (gamma : Nat) (pairs : List Byte) (f : Forest) (p : Nat × Nat) : Forest :=
  match tfind f.branches p.1 with
  | none => f
  | some x =>
    let r := leNat ((pairs.drop (8 * p.2)).take 4)
    let v := leNat ((pairs.drop (8 * p.2 + 4)).take 4)
    { f with branches := tset f.branches p.1 (x.scoredBy mode gamma r v) }

/-- SCORE (R209). -/
def State.scoreRun (r : Nat) (s : State) (c : FCmd) (f : Forest) : State :=
  match c.scoreCheck f with
  | some code => s.raiseFault r code c.unit
  | none =>
    match s.readAny r (c.f 24 8) (8 * c.f 16 4) with
    | .error code => s.raiseFault r code c.unit
    | .ok pairs =>
      let ls := c.leaves f
      let f' := ls.zipIdx.foldl (Forest.scoreLeaf (bit (c.f 1 1) 3) (c.f 44 4) pairs) f
      let on (d : Nat) : Nat := ceilDiv ((ls.filter fun b => b / 131072 = d).length) 2
      let s := (s.modRoom r fun x => { x with forest := some f' }).chargeForest r (24 + Nat.max (on 0) (on 1))
      s.postCmd r c.raw

def State.scoreCmd (s : State) (r : Nat) : State := s.forestCmd r 4 (State.scoreRun r)

/-! ## SAMPLE (R207, R208) -/

/-- The first failing check of a SAMPLE. -/
def FCmd.sampleCheck (c : FCmd) (f : Forest) : Option Nat :=
  let v := c.f 20 4
  let t := c.f 44 4
  let p := c.f 48 4
  let kt := c.f 52 2
  let fmt := c.f 9 1 % 16
  if slotUnused c.raw ∨ f.treeMax ≤ c.f 4 2 ∨ c.f 24 8 % 64 ≠ 0 ∨ c.f 32 8 % 64 ≠ 0 then some Code.forestCmd
  else if isNan32 t || isInf32 t || (sign32 t && !isZero32 t) || !(unitInterval p) || decide (Nat.min v 1024 < kt) ||
      (flt p 0x3F800000 && kt == 0) || c.f 10 2 == 0 || decide (64 < c.f 10 2) || decide (v < 2) || decide (65536 < v) ||
      !([0x0, 0x2].contains fmt) || c.f 40 4 % 64 != 0 || decide (c.f 40 4 < v * (fmtWidth fmt / 8)) then some Code.forestParams
  else if (f.leaves (c.f 4 2)).length < c.f 12 4 + c.f 16 4 then some Code.forestLeafRange
  else none

/-- A branch's record with its `nan` flag set. -/
def Forest.markNan (b : Nat) (f : Forest) : Forest :=
  match tfind f.branches b with
  | some y => { f with branches := tset f.branches b { y with nan := true } }
  | none => f

/-- One token of a SAMPLE: leaf place `i`, branch `b`, token `j`. A row that cannot be read stops the command. -/
def State.sampleToken (r : Nat) (c : FCmd) (seed cycle : Nat) (a : State × Option Nat) (t : Nat × Nat × Nat) : State × Option Nat :=
  match a.2 with
  | some _ => a
  | none =>
    let (i, b, j) := t
    let s := a.1
    let fmt := c.f 9 1 % 16
    let k := i * c.f 10 2 + j
    let va := c.f 24 8 + k * c.f 40 4
    match s.readAny r va (rowBytesOf fmt (c.f 20 4)) with
    | .error e => (s, some e)
    | .ok bytes =>
      let m : Memory := memWriteN [] 0 bytes
      let z := (List.range (c.f 20 4)).map fun x => toWork false fmt (readElem m fmt 0 x)
      let d := sampleRow z (c.f 44 4) (c.f 48 4) (c.f 52 2) (tokenDraw seed (c.f 2 2) (c.f 4 2) cycle b j)
      let s := if d.nan then s.modRoom r (fun x => { x with forest := x.forest.map (Forest.markNan b) }) else s
      let w := s.writeAny r (c.f 32 8 + 8 * k) (leBytes 4 d.tok ++ leBytes 4 d.lp)
      (w.s, w.code)

/-- The engine cycles of one token (Table 8.6). -/
def FCmd.tokenCost (c : FCmd) : Nat :=
  let chunks := ceilDiv (c.f 20 4) 64
  if isZero32 (c.f 44 4) then chunks + 16
  else if c.f 52 2 = 0 then 3 * chunks + 16
  else chunks + 2 * ceilDiv (c.f 52 2) 16 + 16

/-- The engine cycles of a SAMPLE: per die, the longest of its 8 lanes or its bytes at 1,024 a cycle (R213). -/
def FCmd.sampleTime (c : FCmd) (ls : List Nat) : Nat :=
  let on (d : Nat) : Nat :=
    let n := (ls.filter fun b => b / 131072 = d).length * c.f 10 2
    let row := rowBytesOf (c.f 9 1 % 16) (c.f 20 4)
    let reads := if !(isZero32 (c.f 44 4)) && c.f 52 2 == 0 then 3 else 1
    Nat.max (ceilDiv n 8 * c.tokenCost) (ceilDiv (n * row * reads) 1024)
  24 + Nat.max (on 0) (on 1)

/-- SAMPLE (R207). -/
def State.sampleRun (r : Nat) (s : State) (c : FCmd) (f : Forest) : State :=
  match c.sampleCheck f with
  | some code => s.raiseFault r code c.unit
  | none =>
    let ls := c.leaves f
    let work := ls.zipIdx.flatMap fun b => (List.range (c.f 10 2)).map fun j => (b.2, b.1, j)
    match work.foldl (State.sampleToken r c (s.room r).seedOf (f.cycle (c.f 4 2))) (s, none) with
    | (s, some code) => s.raiseFault r code c.unit
    | (s, none) => (s.chargeForest r (c.sampleTime ls)).postCmd r c.raw

def State.sampleCmd (s : State) (r : Nat) : State := s.forestCmd r 3 (State.sampleRun r)

/-! ## FORK and PRUNE descriptors (R193, R201) -/

/-- FORK and PRUNE operands from a descriptor (Table 12.5). -/
def FArgs.ofDesc (d : Desc) : FArgs :=
  { newRoot := bit (d.fld 8 1) 0, keep := bit (d.fld 8 1) 1, dropHeld := bit (d.fld 8 1) 2, tree := d.fld 12 2, num := d.fld 10 2,
    parts := d.fld 14 2, cap := d.fld 16 2, a0 := d.fld 24 8 }

/-- A FORK or PRUNE descriptor that the engine starts (R201, R212, R215). -/
def State.treeDescRun (r ring : Nat) (d : Desc) (f : Forest) (s : State) : State :=
  let a := FArgs.ofDesc d
  match if d.opcode = 0x10 then s.runFork r f a else s.runPrune r f a with
  | (s, .done) => s.done ring d stOk 0
  | (s, .short c) => (s.chargeForest r 24).done ring d stResourceExhausted c
  | (s, .bad c) => s.done ring d (if c / 256 = 0x08 then stBadDescriptor else stAccessFault) c

/-- The descriptor at the head of a room's forest queue started, where it came from a ring with an opcode and the engine chooses the room. -/
def State.startTree (s : State) (ring opcode : Nat) : State :=
  let r := (s.ring ring).room
  match (s.room r).forest with
  | none => s
  | some f =>
    match f.queue with
    | [] => s
    | c :: rest =>
      match c.desc.bind fun k => if k.1 = ring then (s.ring ring).descs.find? fun d => d.seq = k.2 && d.opcode = opcode else none with
      | none => s
      | some d =>
        let f := { f with queue := rest }
        s.onForest r fun s => State.treeDescRun r ring d f (s.modRoom r fun x => { x with forest := some f })

/-- What refuses a FORK or PRUNE descriptor as the steward hands it to the engine (R193, R201, Table 8.7). -/
def Room.treeRefused (x : Room) (d : Desc) : Option Nat :=
  let a := FArgs.ofDesc d
  let fork := decide (d.opcode = 0x10)
  match x.forest with
  | none => some Code.forestCmd
  | some f =>
    if d.fld 8 1 / 8 ≠ 0 ∨ a.badCmd f fork then some Code.forestCmd
    else if a.badParams fork then some Code.forestParams
    else if f.pilot ≠ 0xFFFF ∧ x.busy then some Code.forestPiloted
    else none

/-- A FORK or PRUNE descriptor: handed to the engine in its ring's order, it takes its place among the room's commands (R199, R201), and starts where it
stands at their head. -/
def State.treeDesc (s : State) (ring opcode : Nat) : State :=
  match s.canStartOp ring opcode anyDesc with
  | none => s.startTree ring opcode
  | some d =>
    let r := (s.ring ring).room
    match (s.room r).treeRefused d with
    | some c => s.done ring d stBadDescriptor c
    | none =>
      ((s.markStarted ring d.seq).modRoom r fun x => { x with
        forest := x.forest.map fun f => { f with queue := f.queue ++ [⟨0xFFFF, 0, some (ring, d.seq)⟩] } }).startTree ring opcode

/-! ## Commands -/

/-- FORK_CMD (R203): the FORK at the head of the room's queue. -/
def execForkCmd (room : Nat) (s : State) : Host.Outcome State Fault Refusal := .next (s.treeCmd room 1)

/-- PRUNE_CMD (R210). -/
def execPruneCmd (room : Nat) (s : State) : Host.Outcome State Fault Refusal := .next (s.treeCmd room 2)

/-- SAMPLE (R207). -/
def execSample (room : Nat) (s : State) : Host.Outcome State Fault Refusal := .next (s.sampleCmd room)

/-- SCORE (R209). -/
def execScore (room : Nat) (s : State) : Host.Outcome State Fault Refusal := .next (s.scoreCmd room)

/-- A detected error of the engine's sampler: the token is computed again with the same bits; the engine's second error of the incarnation is a job
fault (R216). -/
def State.samplerError (s : State) (r die : Nat) : State :=
  match (s.room r).forest with
  | none => s
  | some f =>
    if !(s.room r).running then s
    else
      let n := tget 0 f.errs die + 1
      let s := (s.count (158 + die) 2 1).modRoom r fun x => { x with forest := some { f with errs := tset f.errs die n } }
      if 2 ≤ n then s.raiseFault r Code.forestCheck (158 + die) else s

/-- SAMPLER_ERROR (R216): an error of the sampler, or one in the record of a branch, corrected and counted, or a job fault in the room that owns the
branch. -/
def execSamplerError (room : Nat) (err : EngineErr) (s : State) : Host.Outcome State Fault Refusal :=
  .next (match err.record with
    | none => s.samplerError room err.die
    | some corrected =>
      let u := 158 + err.die
      if corrected then s.count u 0 1 else (s.count u 1 1).raiseFault room Code.forestCheck u)

end Sys2Proof.Machine
end

