-- ==== Sys2Proof/Machine/Descs.lean ====
section
/-! DEFINITION. The descriptors that complete without a job: NOP, COPY and its sealed form, FILL, SIGNAL, WAIT, BARRIER_JOIN, TIMESTAMP, FORK, PRUNE and BRANCH_READ (R201, R202, R313 to R320, R434, R466). -/

namespace Sys2Proof.Machine

/-! ## Plain descriptors -/

/-- NOP completes on starting (Table 12.4). -/
def execNop (ring : Nat) (s : State) : Host.Outcome State Fault Refusal :=
  match s.canStartOp ring 0x00 anyDesc with
  | none => .next s
  | some d => .next (s.done ring d stOk 0)

/-- TIMESTAMP reports the device time of its start (R434, Table 12.8). -/
def execTimestamp (ring : Nat) (s : State) : Host.Outcome State Fault Refusal :=
  match s.canStartOp ring 0x08 anyDesc with
  | none => .next s
  | some d => .next (s.complete ring d.seq stOk 0 (s.now % 2 ^ 32) (bits s.now 63 32) 0)

/-- SIGNAL adds to its semaphore, saturating (R317). -/
def execSignal (ring : Nat) (s : State) : Host.Outcome State Fault Refusal :=
  match s.canStartOp ring 0x04 anyDesc with
  | none => .next s
  | some d =>
    let s := s.modRoom (s.ring ring).room fun x => { x with sems := tmod 0 x.sems (d.fld 8 2) fun v => sat64 (v + d.fld 16 8) }
    .next (s.done ring d stOk 0)

/-- WAIT starts, and completes, once its semaphore is at least its threshold (R317). -/
def execWait (ring : Nat) (s : State) : Host.Outcome State Fault Refusal :=
  match s.canStartOp ring 0x05 fun d => decide (d.fld 16 8 ≤ tget 0 (s.room (s.ring ring).room).sems (d.fld 8 2)) with
  | none => .next s
  | some d => .next (s.done ring d stOk 0)

/-- A WAIT that has not started within its time, counted from its intake, completes with TIMEOUT (R317). -/
def execWaitTimeout (ring at_ : Nat) (s : State) : Host.Outcome State Fault Refusal :=
  let s := s.upto at_
  let q := s.ring ring
  if q.kind ≠ 1 ∨ q.st = .disabled ∨ (s.room q.room).st ≠ .committed then .next s
  else
    match q.descs.find? fun d => d.opcode = 0x05 && !d.started && d.fld 12 4 != 0 && decide (d.taken + 1000 * d.fld 12 4 ≤ s.now) with
    | none => .next s
    | some d => .next (s.done ring d stTimeout Code.waitTimeout)

/-- BARRIER_JOIN: it joins or holds the barrier ending its step; one whose step has ended completes at once (R318). -/
def execBarrierJoin (ring : Nat) (s : State) : Host.Outcome State Fault Refusal :=
  match s.canStartOp ring 0x06 anyDesc with
  | none => .next s
  | some d =>
    if (s.room (s.ring ring).room).stepEnded (d.fld 12 4) then
      .next (if d.fld 8 1 = 0 then s.done ring d stOk 0 else s.done ring d stBadDescriptor Code.stepLate)
    else .next (s.markStarted ring d.seq)

/-! ## Rows of a COPY or FILL (R314, R320) -/

/-- A failed access of a descriptor: its status and detail. -/
abbrev DescErr := Nat × Nat

/-- One row read from a side. -/
def State.sideRead (s : State) (r : Nat) (x : Side) (i : Nat) : Except DescErr (List Byte) :=
  if x.host then
    if s.hostOk r (x.at_ i) x.rowBytes false then .ok (memReadN s.host (x.at_ i) x.rowBytes) else .error (stAccessFault, Code.hostRead)
  else
    match s.readAny r (x.at_ i) x.rowBytes with
    | .ok bs => .ok bs
    | .error c => .error (stAccessFault, c)

/-- Bytes written to host or device memory at an address. -/
def State.put (s : State) (r : Nat) (host : Bool) (a : Nat) (bs : List Byte) : State × Option DescErr :=
  if host then
    if s.hostOk r a bs.length true then (s.hostPut a bs, none)
    else (s.countRefused r, some (stAccessFault, Code.hostWrite))
  else
    let w := (s.chargeNormal r a bs.length).writeAny r a bs
    (w.s, w.code.map fun c => (stAccessFault, c))

/-- The queue engine's unit index (R494). -/
def queueUnit : Nat := 164

/-- Conversions counted against the queue engine (R34, R35). -/
def State.countConv (s : State) (cs : List Conv) : State :=
  (s.count queueUnit 6 (sumNat (cs.map (·.sat)))).count queueUnit 7 (sumNat (cs.map (·.nan)))

/-- One row of a COPY converted; a copy within one integer format moves the bytes. `draw` gives the rounding draw of an element of the row. -/
def copyRow (sf df n : Nat) (c : Cvt) (draw : Nat → Nat) (bs : List Byte) : List Byte × List Conv :=
  if sf = df ∧ isIntFmt sf then (bs, [])
  else
    let m := memWriteN [] 0 bs
    let cs := (List.range n).map fun j => convertElem sf df (readElem m sf 0 j) c (draw j)
    (packRow df (cs.map (·.code)), cs)

/-- The rows of a COPY from row `i` on; it stops at the first failing one (R250). -/
def State.copyRows (s : State) (r : Nat) (src dst : Side) (c : Cvt) (draw : Nat → Nat) : Nat → Nat → State × Option DescErr
  | 0, _ => (s, none)
  | k + 1, i =>
    match s.sideRead r src i with
    | .error e => (if src.host then s.countRefused r else s, some e)
    | .ok bs =>
      let (out, cs) := copyRow src.fmt dst.fmt src.elems c (fun j => draw (i * src.elems + j)) bs
      let s := if src.host then s else s.chargeNormal r (src.at_ i) src.rowBytes
      let s := s.countConv cs
      match s.put r dst.host (dst.at_ i) out with
      | (s, some e) => (s, some e)
      | (s, none) => s.copyRows r src dst c draw k (i + 1)

/-- The rows of a FILL from row `i` on; its one conversion is counted once an element. -/
def State.fillRows (s : State) (r : Nat) (dst : Side) (conv : Nat → Conv) : Nat → Nat → State × Option DescErr
  | 0, _ => (s, none)
  | k + 1, i =>
    let cs := (List.range dst.elems).map fun j => conv (i * dst.elems + j)
    let s := s.countConv cs
    match s.put r dst.host (dst.at_ i) (packRow dst.fmt (cs.map (·.code))) with
    | (s, some e) => (s, some e)
    | (s, none) => s.fillRows r dst conv k (i + 1)

/-- A descriptor's end after its rows. -/
def State.endRows (p : State × Option DescErr) (ring : Nat) (d : Desc) : State :=
  match p.2 with
  | none => p.1.done ring d stOk 0
  | some e => p.1.done ring d e.1 e.2

/-- Whether a keyed rounding has no seed to draw under (Table 12.5). -/
def State.noSeed (s : State) (r cvt : Nat) : Bool := bits cvt 1 0 == 2 && (s.room r).seed.isNone

/-! ## Sealed copies (R466) -/

/-- AES-256-GCM opened: the plaintext, where the tag holds. An external standard: `Config.crypto`. -/
def gcmOpen (key : Nat) (iv aad ct tag : List Byte) : Option (List Byte) :=
  match Config.crypto "AES-256-GCM open" (key :: (iv ++ aad ++ ct ++ tag).map BitVec.toNat) with
  | [] => none
  | l => some ((l.map (BitVec.ofNat 8) ++ List.replicate ct.length 0).take ct.length)

/-- AES-256-GCM sealed: ciphertext and 16-byte tag. -/
def gcmSeal (key : Nat) (iv aad pt : List Byte) : List Byte :=
  ((Config.crypto "AES-256-GCM seal" (key :: (iv ++ aad ++ pt).map BitVec.toNat)).map (BitVec.ofNat 8) ++
    List.replicate (pt.length + 16) 0).take (pt.length + 16)

/-- The additional authenticated data of a chunk: `dir` 1 into the device, 2 out of it. -/
def sealAad (va r dir : Nat) : List Byte := leBytes 8 va ++ leBytes 2 r ++ leBytes 1 dir ++ List.replicate 5 0

/-- Sealed chunks into the device, from chunk `i` on. -/
def State.sealIn (s : State) (r key host va : Nat) : Nat → Nat → State × Option DescErr
  | 0, _ => (s, none)
  | k + 1, i =>
    let a := host + 65568 * i
    let d := va + 65536 * i
    if !s.hostOk r a 65568 false then (s.countRefused r, some (stAccessFault, Code.hostRead))
    else
      let bs := memReadN s.host a 65568
      let iv := bs.take 12
      match if iv.head? = some 1 then gcmOpen key iv (sealAad d r 1) ((bs.drop 12).take 65536) ((bs.drop 65548).take 16) else none with
      | none => (s, some (stDataError, Code.secSealAuth))
      | some pt =>
        match s.put r false d pt with
        | (s, some e) => (s, some e)
        | (s, none) => s.sealIn r key host va k (i + 1)

/-- Sealed chunks out of the device, from chunk `i` on. -/
def State.sealOut (s : State) (r key host va : Nat) : Nat → Nat → State × Option DescErr
  | 0, _ => (s, none)
  | k + 1, i =>
    let a := host + 65568 * i
    let d := va + 65536 * i
    match s.readAny r d 65536 with
    | .error c => (s, some (stAccessFault, c))
    | .ok pt =>
      let iv := leBytes 4 2 ++ leBytes 8 (s.room r).sec.exports
      match s.put r true a (iv ++ gcmSeal key iv (sealAad d r 2) pt ++ List.replicate 4 0) with
      | (s, some e) => (s, some e)
      | (s, none) => (s.modRoom r fun x => { x with sec := { x.sec with exports := x.sec.exports + 1 } }).sealOut r key host va k (i + 1)

/-- A COPY of a confidential room with one side in host space (R465, R466). -/
def State.sealedCopy (s : State) (r : Nat) (d : Desc) : State × Option DescErr :=
  let into := d.copySrc.host
  let dev := if into then d.copyDst.addr else d.copySrc.addr
  let host := if into then d.copySrc.addr else d.copyDst.addr
  let n := d.fld 24 4
  if d.fld 40 1 ≠ 0xEE ∨ d.fld 41 1 ≠ 0 ∨ d.fld 28 4 ≠ 1 ∨ n % 65536 ≠ 0 ∨ dev % 65536 ≠ 0 then (s, some (stSecurityRefused, Code.secSealShape))
  else
    match (s.room r).sec.content with
    | none => (s, some (stSecurityRefused, Code.secNoImport))
    | some key => if into then s.sealIn r key host dev (n / 65536) 0 else s.sealOut r key host dev (n / 65536) 0

/-! ## COPY and FILL -/

/-- COPY (R314, R320, R465). -/
def execCopy (ring : Nat) (s : State) : Host.Outcome State Fault Refusal :=
  match s.canStartOp ring 0x02 anyDesc with
  | none => .next s
  | some d =>
    let r := (s.ring ring).room
    let x := s.room r
    if x.sec.conf && (d.copySrc.host || d.copyDst.host) then .next (State.endRows (s.sealedCopy r d) ring d)
    else if s.noSeed r (d.fld 41 1) then .next (s.done ring d stBadDescriptor Code.descOperand)
    else
      let draw (j : Nat) : Nat := srDraw (x.seed.getD 0) (d.fld 44 2) j (d.fld 48 4)
      .next (State.endRows (s.copyRows r d.copySrc d.copyDst (Cvt.ofByte (d.fld 41 1)) draw (d.fld 28 4) 0) ring d)

/-- FILL (R320). -/
def execFill (ring : Nat) (s : State) : Host.Outcome State Fault Refusal :=
  match s.canStartOp ring 0x03 anyDesc with
  | none => .next s
  | some d =>
    let r := (s.ring ring).room
    let f := d.fld 28 1 % 16
    if s.noSeed r (d.fld 29 1) then .next (s.done ring d stBadDescriptor Code.descOperand)
    else
      let v := decodeElem (if isIntFmt f then 0x9 else 0x0) (d.fld 32 4)
      let conv (j : Nat) : Conv := convert v f (Cvt.ofByte (d.fld 29 1)) (srDraw ((s.room r).seed.getD 0) (d.fld 36 2) j (d.fld 40 4))
      .next (State.endRows (s.fillRows r d.fillDst conv (d.fld 20 4) 0) ring d)

/-! ## FORK, PRUNE and BRANCH_READ descriptors (R201, R202) -/

def execFork (ring : Nat) (s : State) : Host.Outcome State Fault Refusal :=
  .next (s.treeDesc ring 0x10)

def execPrune (ring : Nat) (s : State) : Host.Outcome State Fault Refusal :=
  .next (s.treeDesc ring 0x11)

/-- Records written one after another; the count written, and the first failure. -/
def State.putRecords (s : State) (r : Nat) (host : Bool) (a : Nat) : List (List Byte) → Nat → State × Nat × Option DescErr
  | [], n => (s, n, none)
  | b :: rest, n =>
    match s.put r host (a + 64 * n) b with
    | (s, some e) => (s, n, some e)
    | (s, none) => s.putRecords r host a rest (n + 1)

/-- BRANCH_READ writes the records of the live branches of a span of IDs (R202). -/
def execBranchRead (ring : Nat) (s : State) : Host.Outcome State Fault Refusal :=
  match s.canStartOp ring 0x12 anyDesc with
  | none => .next s
  | some d =>
    let r := (s.ring ring).room
    let x := s.room r
    let host := d.fld 8 1 = 1
    if x.sec.conf ∧ host then .next (s.done ring d stSecurityRefused Code.secConfHost)
    else
      match x.forest with
      | none => .next (s.done ring d stOk 0)
      | some f =>
        let lo := d.fld 12 4
        let hit := f.branches.filter fun b => decide (lo ≤ b.1) && decide (b.1 < lo + d.fld 16 4) && (d.fld 10 2 == 0xFFFF || b.2.tree == d.fld 10 2)
        let (s, n, e) := s.putRecords r host (d.fld 24 8) ((hit.take (d.fld 20 4)).map fun b => f.record b.1 b.2 0) 0
        let s := s.chargeForest r (24 + ceilDiv (64 * n) 256)
        match e with
        | none => .next (s.complete ring d.seq stOk 0 n 0 0)
        | some e => .next (s.complete ring d.seq e.1 e.2 n 0 0)

end Sys2Proof.Machine
end

