-- ==== Sys2Proof/Machine/Bench.lean ====
section
/-! DEFINITION. Bench kernels, their runs and their words (R228 to R235), the time a word takes (R233), and detected errors of bench units (R240). -/

namespace Sys2Proof.Machine

/-! ## Records (Tables 9.5 and 9.6) -/

def Kernel.nwords (k : Kernel) : Nat := fld k.raw 2 2
def Kernel.ctrCore (k : Kernel) : Nat := fld k.raw 4 2
def Kernel.ctr (k : Kernel) : Nat := bits (fld k.raw 6 1) 3 0

/-- A bench word (Table 9.6). -/
structure BenchWord where
  op : Nat
  wait : Bool
  tag : Nat
  fmtA : Nat
  fmtB : Nat
  fmtZ : Nat
  cvt : Nat
  ia : Nat
  ib : Nat
  iz : Nat
  ir : Nat
  rows : Nat
  cols : Nat
  k : Nat
  offA : Nat
  offB : Nat
  offZ : Nat
  offR : Nat
  pitchA : Nat
  pitchB : Nat
  pitchZ : Nat
  imm0 : Nat
  imm1 : Nat
  rsvdOk : Bool
deriving DecidableEq, Repr

def BenchWord.ofNat (w : Nat) : BenchWord :=
  let f := fld w
  { op := f 0 1, wait := bit (f 1 1) 0, tag := f 2 2, fmtA := bits (f 4 1) 3 0, fmtB := bits (f 4 1) 7 4, fmtZ := bits (f 5 1) 3 0,
    cvt := f 6 1, ia := bits (f 8 1) 3 0, ib := bits (f 8 1) 7 4, iz := bits (f 9 1) 3 0, ir := bits (f 9 1) 7 4,
    rows := f 12 4, cols := f 16 4, k := f 20 4, offA := f 24 4, offB := f 28 4, offZ := f 32 4, offR := f 36 4,
    pitchA := f 40 4, pitchB := f 44 4, pitchZ := f 48 4, imm0 := f 52 4, imm1 := f 56 4,
    rsvdOk := bits (f 1 1) 7 1 == 0 && bits (f 5 1) 7 4 == 0 && f 7 1 == 0 && f 10 2 == 0 && f 60 4 == 0 }

/-- The codes of Table 9.7. -/
def benchListed (op : Nat) : Bool :=
  op == 0x01 || (decide (0x10 ≤ op) && decide (op ≤ 0x18)) || op == 0x20 || op == 0x21 || op == 0x22 || op == 0x28 || op == 0x29 ||
    op == 0x30 || op == 0x31

def BenchWord.elementwise (w : BenchWord) : Bool := decide (0x10 ≤ w.op) && decide (w.op ≤ 0x16)
/-- The vector operation of an elementwise code (Table 9.7). -/
def BenchWord.vop (w : BenchWord) : Nat := w.op - 0x0F

def BenchWord.readsA (w : BenchWord) : Bool := w.op != 0x30
def BenchWord.readsB (w : BenchWord) : Bool := w.op == 0x01 || w.op == 0x22 || w.op == 0x28 || (w.elementwise && vopReadsY w.vop)
def BenchWord.writesZ (w : BenchWord) : Bool := !(w.op == 0x20 || w.op == 0x21 || w.op == 0x22)
def BenchWord.writesR (w : BenchWord) : Bool := w.op == 0x20 || w.op == 0x21 || w.op == 0x22

/-- Formats that the bench array takes (Table 1.3). -/
def benchArrayFmt (f : Nat) : Bool := f == 2 || f == 4 || f == 5
/-- Whether a word's formats are allowed (R231). -/
def BenchWord.fmtOk (w : BenchWord) : Bool :=
  let used := (if w.readsA then [w.fmtA] else []) ++ (if w.readsB then [w.fmtB] else []) ++ (if w.writesZ then [w.fmtZ] else [])
  match w.op with
  | 0x01 => benchArrayFmt w.fmtA && benchArrayFmt w.fmtB && w.fmtZ != 0xF
  | 0x17 => w.fmtA != 0xF && w.fmtZ != 0xF
  | 0x18 => isFloatFmt w.fmtA && w.fmtZ != 0xF
  | 0x22 => isFloatFmt w.fmtA && isFloatFmt w.fmtB
  | 0x28 => w.fmtA == 0 && w.fmtB == 0 && w.fmtZ == 0
  | 0x29 => w.fmtA == 0 && isFloatFmt w.fmtZ
  | 0x30 => true
  | 0x31 => w.fmtA == w.fmtZ
  | _ => !(used.any isLnsFmt) && !(used.any isIntFmt && used.any isFloatFmt)

/-- BENCH_WORD (Table 9.9). -/
def BenchWord.bad (w : BenchWord) : Bool :=
  !(benchListed w.op) || !w.rsvdOk || [w.ia, w.ib, w.iz, w.ir].any (fun i => decide (6 < i)) || !w.fmtOk || !(cvtByteOk w.cvt) ||
    [w.offA, w.offB, w.offZ].any (fun o => o % 64 != 0) || w.offR % 16 != 0 ||
    [w.pitchA, w.pitchB, w.pitchZ].any (fun p => p % 32 != 0) || w.rows == 0 || w.cols == 0 ||
    (if w.op = 0x01 then w.k == 0 else if w.op = 0x28 ∨ w.op = 0x29 then w.k == 0 || decide (16 < w.k) else w.k != 0)

/-- The checks of Table 9.9 in order. `mapped` says whether the words are mapped; `count` is how many kernels the room holds. -/
def kernelCheck (raw va bytes count : Nat) (ctrOk mapped : Bool) (words : List Nat) : Option Nat :=
  let n := fld raw 2 2
  firstSome (fun p : Bool × Nat => if p.1 then some p.2 else none)
    [(fld raw 0 1 != 1 || fld raw 1 1 != 0 || bits (fld raw 6 1) 7 4 != 0 || fld raw 7 1 != 0 || fld raw 16 48 != 0, Code.benchKind),
     (n == 0 || decide (1024 < n) || fld raw 8 8 % 64 != 0 || !mapped, Code.benchWords),
     (va % 2097152 != 0 || decide (bytes < 2097152), Code.benchRange),
     (decide (64 ≤ count), Code.benchCount),
     (!ctrOk, Code.benchCtr),
     (words.any fun w => (BenchWord.ofNat w).bad, Code.benchWord)]

/-! ## Operands -/

/-- Operand addresses under a run's arguments (R230). -/
def BenchWord.a (w : BenchWord) (args : List Nat) : Nat := args.getD w.ia 0 + w.offA
def BenchWord.b (w : BenchWord) (args : List Nat) : Nat := args.getD w.ib 0 + w.offB
def BenchWord.z (w : BenchWord) (args : List Nat) : Nat := args.getD w.iz 0 + w.offZ
def BenchWord.r (w : BenchWord) (args : List Nat) : Nat := args.getD w.ir 0 + w.offR

/-- Rows and bytes per row of a. -/
def BenchWord.aShape (w : BenchWord) : Nat × Nat :=
  match w.op with
  | 0x01 => (w.rows, rowBytesOf w.fmtA w.k)
  | 0x28 => (w.k, 4 * w.cols)
  | 0x29 => (w.k * w.rows, 4 * w.cols)
  | _ => (w.rows, rowBytesOf w.fmtA w.cols)

/-- Rows and bytes per row of b as an input. -/
def BenchWord.bShape (w : BenchWord) : Nat × Nat :=
  match w.op with
  | 0x01 => (w.k, rowBytesOf w.fmtB w.cols)
  | 0x28 => (w.k, 4 * w.cols)
  | _ => (if w.pitchB = 0 then 1 else w.rows, rowBytesOf w.fmtB w.cols)

/-- Rows and bytes per row of z. -/
def BenchWord.zShape (w : BenchWord) : Nat × Nat :=
  match w.op with
  | 0x28 => (w.k + 1, 4 * w.cols)
  | _ => (w.rows, rowBytesOf w.fmtZ w.cols)

/-- The extents a word reads (R234). -/
def BenchWord.reads (w : BenchWord) (args : List Nat) : List Ext :=
  let x (addr pitch : Nat) (sh : Nat × Nat) : Ext := ⟨3, 0, addr, sh.2, sh.1, pitch, 1, 0⟩
  (if w.readsA then [x (w.a args) w.pitchA w.aShape] else []) ++ (if w.readsB then [x (w.b args) w.pitchB w.bShape] else []) ++
    (if w.op = 0x28 then [Ext.flat 3 0 (w.r args) (4 * w.cols)] else []) ++
    (if w.op = 0x29 then [Ext.flat 3 0 (w.r args) (16 * w.k * w.rows)] else [])

/-- The extents a word writes. -/
def BenchWord.writes (w : BenchWord) (args : List Nat) : List Ext :=
  (if w.writesZ then [(⟨3, 0, w.z args, w.zShape.2, w.zShape.1, w.pitchZ, 1, 0⟩ : Ext)] else []) ++
    (if w.writesR then [Ext.flat 3 0 (w.r args) (16 * w.rows)] else []) ++
    (if w.op = 0x29 then [Ext.flat 3 0 (w.b args) (16 * w.rows)] else [])

/-- Every input row read: the bytes at their device addresses. -/
def State.gather (s : State) (r : Nat) (xs : List Ext) : Except Nat Memory :=
  (xs.flatMap Ext.runs).foldlM (fun m p => do
    let bs ← s.readAny r p.1 p.2
    pure (memWriteN m p.1 bs)) ([] : Memory)

/-! ## What a word computes (R231, R232) -/

/-- Rows written, at their device addresses, and the counts of each row. -/
structure BenchOut where
  rows : List (Nat × List Byte)
  acc : Nat
  sat : Nat
  nan : Nat

/-- Row `i` of a word with the bench unit's resources (R227): lane arithmetic as R101, EXP with the bits of the SFU, FP32 accumulators; its writes and its
counts. `m` holds the inputs at their device addresses; a block-scale code of `cvt` is ignored (log entry 104). -/
def BenchWord.row (w : BenchWord) (args : List Nat) (m : Memory) (seed step i : Nat) : RowOut × Nat :=
  let a := w.a args
  let b := w.b args
  let z := w.z args
  let r := w.r args
  let c := { Cvt.ofByte w.cvt with bscale := 0 }
  let isInt := isIntFmt w.fmtA
  let js := List.range w.cols
  let ea (j : Nat) : Nat := toWork isInt w.fmtA (readElem m w.fmtA (a + i * w.pitchA) j)
  let eb (j : Nat) : Nat := toWork isInt w.fmtB (readElem m w.fmtB (b + i * w.pitchB) j)
  let out (xs : List XVal) : RowOut :=
    writeRow w.fmtZ c 0 (z + i * w.pitchZ) 0 (fun j => srDraw seed w.tag (i * w.cols + j) step) xs
  let rec_ (v : Nat) : RowOut := ⟨[(r + 16 * i, recordBytes [v, 0, 0, 0])], 0, 0⟩
  match w.op with
  | 0x01 =>
    let g := if fmtWidth w.fmtA = 8 ∧ fmtWidth w.fmtB = 8 then 16 else 1
    (out (js.map fun j => x32 (groupChain g w.k 0 ((List.range w.k).map fun t =>
      (ext w.fmtA (readElem m w.fmtA (a + i * w.pitchA) t), ext w.fmtB (readElem m w.fmtB (b + t * w.pitchB) j))))), 0)
  | 0x17 => (out (js.map fun j => decodeElem w.fmtA (readElem m w.fmtA (a + i * w.pitchA) j)), 0)
  | 0x18 => (out (js.map fun j => x32 (sfu 0 (fmul (ea j) w.imm0) cvt0)), 0)
  | 0x20 => let l := rowSum isInt (js.map ea); (rec_ l.v, l.sat)
  | 0x21 => (rec_ ((rowMax isInt (js.map ea)).getD 0), 0)
  | 0x22 => (rec_ (rowSum false (js.map fun j => fmul (ea j) (eb j))).v, 0)
  | 0x29 =>
    let p := mergeParts w.cols ((List.range w.k).map fun q =>
      let n := q * w.rows + i
      ⟨memNat m (r + 16 * n) 4, memNat m (r + 16 * n + 4) 4, js.map fun j => memNat m (a + n * w.pitchA + 4 * j) 4⟩)
    let o := out ((mergeOut p).map x32)
    ({ o with writes := o.writes ++ [(b + 16 * i, recordBytes [p.m, p.l, 0, 0])] }, 0)
  | 0x30 => (⟨[(z + i * w.pitchZ, packRow w.fmtZ (js.map fun _ => w.imm0))], 0, 0⟩, 0)
  | 0x31 => (⟨[(z + i * w.pitchZ, memReadN m (a + i * w.pitchA) (rowBytesOf w.fmtA w.cols))], 0, 0⟩, 0)
  | _ =>
    let vs := js.map fun j => vecOp w.vop isInt 0 w.imm0 w.imm1 c (ea j) (if vopReadsY w.vop then eb j else 0)
    (out (vs.map fun v => accX isInt v.v), sumNat (vs.map (·.sat)))

/-- The carry fold of R177: rows of states, first the initial one. -/
def carryRows (m : Memory) (a b pa pb cols : Nat) : Nat → Nat → List Nat → List (List Nat)
  | 0, _, s => [s]
  | n + 1, c, s =>
    let next := s.zipIdx.map fun p => fadd (fmul (memNat m (a + c * pa + 4 * p.2) 4) p.1) (memNat m (b + c * pb + 4 * p.2) 4)
    s :: carryRows m a b pa pb cols n (c + 1) next

/-- The whole word. -/
def BenchWord.run (w : BenchWord) (args : List Nat) (m : Memory) (seed step : Nat) : List (RowOut × Nat) :=
  if w.op = 0x28 then
    let s0 := (List.range w.cols).map fun j => memNat m (w.r args + 4 * j) 4
    (carryRows m (w.a args) (w.b args) w.pitchA w.pitchB w.cols w.k 0 s0).zipIdx.map fun p =>
      (⟨[(w.z args + p.2 * w.pitchZ, p.1.flatMap (leBytes 4))], 0, 0⟩, 0)
  else (List.range w.rows).map (w.row args m seed step)

/-! ## Where a word runs and how long it takes (R232, R233) -/

/-- The rows that a word writes: of z, or of records. -/
def BenchWord.outRows (w : BenchWord) : Nat := if w.writesZ then w.zShape.1 else w.rows

/-- The address of output row `i`: its first byte of z, or of its record. -/
def BenchWord.rowVa (w : BenchWord) (args : List Nat) (i : Nat) : Nat := if w.writesZ then w.z args + i * w.pitchZ else w.r args + 16 * i

/-- The stack that computes output row `i` of a word (R232). -/
def State.rowSite (s : State) (r : Nat) (w : BenchWord) (args : List Nat) (i : Nat) : Nat := s.stackOf r (w.rowVa args i)

/-- The bytes that the stack of some output rows reads and writes for them, as address and length: its rows of a, b and r, each once, and what it
writes. The rows of b of a BMM are read once by each stack. -/
def BenchWord.traffic (w : BenchWord) (args : List Nat) (mine : List Nat) : List (Nat × Nat) :=
  let a (i : Nat) : Nat × Nat := (w.a args + i * w.pitchA, w.aShape.2)
  let b (i : Nat) : Nat × Nat := (w.b args + i * w.pitchB, w.bShape.2)
  let z (i : Nat) : List (Nat × Nat) := [(w.rowVa args i, if w.writesZ then w.zShape.2 else 16)]
  match w.op with
  | 0x01 => mine.map a ++ (List.range w.k).map b ++ mine.flatMap z
  | 0x28 =>
    -- row 0 is the row at r; row c + 1 takes row c of a and of b
    mine.flatMap fun i => (if i = 0 then [(w.r args, 4 * w.cols)] else [a (i - 1), b (i - 1)]) ++ z i
  | 0x29 =>
    mine.flatMap fun i => ((List.range w.k).flatMap fun c => [a (c * w.rows + i), (w.r args + (c * w.rows + i) * 16, 16)]) ++ z i ++ [(w.b args + 16 * i, 16)]
  | _ =>
    (if w.readsA then mine.map a else []) ++ (if w.readsB then (if w.pitchB = 0 then [b 0] else mine.map b) else []) ++ mine.flatMap z

/-- Lane cycles of output row `i` of a word (Table 9.7): CARRY takes its two for each part row, so none for row 0 (log entry 108). -/
def BenchWord.laneCycles (w : BenchWord) (i : Nat) : Nat :=
  w.cols * match w.op with
    | 0x01 => 0 | 0x18 => 2 | 0x28 => (if i = 0 then 0 else 2) | 0x29 => 3 * w.k | 0x30 => 0 | 0x31 => 0
    | _ => 1

/-- Internal and external bytes per bench cycle by band (R233). -/
def bandBw (band : Nat) : Nat × Nat := if band ≤ 1 then (12000, 3000) else if band = 2 then (11600, 2900) else (9600, 2400)

/-- The bench cycles of a word on one stack (R233). -/
def State.benchCycles (s : State) (r site : Nat) (w : BenchWord) (args : List Nat) : Nat :=
  let mine := (List.range w.outRows).filter fun i => s.rowSite r w args i = site
  if mine.isEmpty then 0
  else
    let parts := w.traffic args mine
    let bl := sumNat ((parts.filter fun p => s.stackOf r p.1 = site).map (·.2))
    let bx := sumNat ((parts.filter fun p => s.stackOf r p.1 ≠ site).map (·.2))
    let lane := sumNat (mine.map w.laneCycles)
    let mac := if w.op = 0x01 then mine.length * w.cols * w.k else 0
    let rate := if fmtWidth w.fmtA = 8 ∧ fmtWidth w.fmtB = 8 then 16384 else 8192
    let bw := bandBw (s.stack site).band
    40 + Nat.max (Nat.max (ceilDiv lane 1024) (ceilDiv mac rate)) (Nat.max (ceilDiv bl bw.1) (ceilDiv bx bw.2))

/-- The bench-unit time of a word charged to its room: its ledger's 32 units of each stack that computes rows of it, and its virtual time there (R347,
R366). -/
def State.chargeBench (s : State) (r : Nat) (times : List (Nat × Nat)) : State :=
  times.foldl (fun s t => if t.2 = 0 then s else (s.charge r 6 (32 * t.2)).spend (arbBench t.1) r (32 * t.2)) s

/-! ## Runs (R229, R234) -/

/-- A bench word that could not run: MEM_UNMAPPED is reported as BENCH_ADDRESS (Table 9.9). -/
def benchCode (c : Nat) : Nat := if c = Code.memUnmapped then Code.benchAddress else c

/-- The next word of a kernel's running run. -/
def Kernel.nextWord (k : Kernel) : Option (BenchRun × BenchWord) :=
  match k.run with
  | none => none
  | some u => (k.words[u.next]?).map fun w => (u, BenchWord.ofNat w)

def Room.kernel (x : Room) (k : Nat) : Kernel := tget ⟨0, [], [], none⟩ x.kernels k

def State.modKernel (s : State) (r k : Nat) (f : Kernel → Kernel) : State :=
  s.modRoom r fun x => { x with kernels := tmod ⟨0, [], [], none⟩ x.kernels k f }

/-- The outputs of a word stored, row by row; the first row refused stops it. -/
def State.benchStore (s : State) (r : Nat) (outs : List (RowOut × Nat)) : State × Option Nat :=
  outs.foldl (fun a o => o.1.writes.foldl (fun a w =>
    match a.2 with
    | some _ => a
    | none =>
      let b := (a.1.touchAccess r w.1 w.2.length).writeAny r w.1 w.2
      let u := 136 + s.stackOf r w.1
      (((b.s.count u 5 o.2).count u 6 o.1.sat).count u 7 o.1.nan, b.code)) a) (s, none)

/-- The stack that computes a word's first row, where its slices are chosen and its faults are counted. -/
def State.wordSite (s : State) (r : Nat) (u : BenchRun) (w : BenchWord) : Nat := s.rowSite r w u.args 0

/-- One word of a kernel's run: checked when it starts, its cellar operands promoted, its rows computed and written, its units' time charged (R232 to R234).
Its draws take the step that the job runs, also while its cores are in their prologues (log entry 106). -/
def State.runBenchWord (s : State) (r key : Nat) (u : BenchRun) (w : BenchWord) : State :=
  let unit := 136 + s.wordSite r u w
  let ins := w.reads u.args
  if (w.writes u.args).any fun x => ins.any fun y => x.hits y then s.raiseFault r Code.benchOverlap unit
  else
    let (s, promo) := s.promoteAll r (dedup (ins.flatMap fun x => x.runs.flatMap fun p => (pagesOf p.1 p.2).map (·.1)))
    let s := (ins.flatMap Ext.runs).foldl (fun s p => (s.touchAccess r p.1 p.2).countView r p.1 p.2) s
    match s.gather r ins with
    | .error c => s.raiseFault r (benchCode c) unit
    | .ok m =>
      let x := s.room r
      let job := x.job.map fun j => (j.seed, j.step)
      let w' := { w with cvt := x.cvtOf w.tag w.cvt }
      let times := s.sites.map fun k => (k, s.benchCycles r k w u.args)
      match s.benchStore r (w'.run u.args m (job.getD (0, 0)).1 ((job.getD (0, 0)).2 % 2 ^ 32)) with
      | (s, some c) => s.raiseFault r (benchCode c) unit
      | (s, none) =>
        (s.modKernel r key fun k => { k with run := some { u with
          next := u.next + 1
          since := s.now
          promo := u.promo + promo } }).chargeBench r times

/-- The stacks whose bench units a room's next work waits for: those of its kernels' next words and of its queued batches. -/
def State.benchSites (s : State) (r : Nat) : List Nat :=
  (s.room r).kernels.filterMap (fun k => k.2.nextWord.map fun n => s.wordSite r n.1 n.2) ++
    ((s.room r).mem.views.filter fun v => !v.2.running && !v.2.queue.isEmpty).map fun v => s.stackOf r v.1

/-- The rooms ready at the bench units of a stack. -/
def State.benchReady (s : State) (site : Nat) : List Nat :=
  (s.rooms.map (·.1)).filter fun r => (s.room r).running && (s.benchSites r).contains site

/-- Work of a room on the bench units of a stack, where they choose the room (R347, R348). -/
def State.onBench (s : State) (r site : Nat) (work : State → State) : State :=
  match s.serve (arbBench site) true (s.benchReady site) r with
  | none => s
  | some s =>
    let s := work s
    s.settle (arbBench site) (s.benchReady site)

/-- The next word of a run, where it has an operation of the given code. -/
def State.benchCmd (s : State) (r key op : Nat) : State :=
  if !(s.room r).running then s
  else
    match ((s.room r).kernel key).nextWord with
    | none => s
    | some (u, w) => if w.op = op then s.onBench r (s.wordSite r u w) fun s => s.runBenchWord r key u w else s

/-! ## Commands -/

/-- BENCH_RUN (R229): the oldest queued run of a kernel starts, where none is running; its dispatch and posting take 1.5 µs (R233, log entry 108). -/
def execBenchRun (room kernel : Nat) (s : State) : Host.Outcome State Fault Refusal :=
  .next (
    let k := (s.room room).kernel kernel
    match k.run, k.queue with
    | none, a :: rest =>
      if (s.room room).running then
        (s.modKernel room kernel fun k => { k with
          queue := rest
          run := some ⟨a, 0, s.now, 0⟩ }).charge room 6 1500
      else s
    | _, _ => s)

/-- BENCH_RUN_END (R229): the last word has completed and the counter is posted. -/
def execBenchRunEnd (room kernel : Nat) (s : State) : Host.Outcome State Fault Refusal :=
  .next (
    let k := (s.room room).kernel kernel
    match k.run with
    | some u =>
      if k.words.length ≤ u.next ∧ (s.room room).running then
        (s.modKernel room kernel fun k => { k with run := none }).postCount room k.ctrCore k.ctr 1 engineWait u.promo
      else s
    | none => s)

/-- BMM (R232). -/
def execBmm (room kernel : Nat) (s : State) : Host.Outcome State Fault Refusal := .next (s.benchCmd room kernel 0x01)
/-- BENCH_ADD (R231). -/
def execBenchAdd (room kernel : Nat) (s : State) : Host.Outcome State Fault Refusal := .next (s.benchCmd room kernel 0x10)
/-- BENCH_SUB (R231). -/
def execBenchSub (room kernel : Nat) (s : State) : Host.Outcome State Fault Refusal := .next (s.benchCmd room kernel 0x11)
/-- BENCH_MUL (R231). -/
def execBenchMul (room kernel : Nat) (s : State) : Host.Outcome State Fault Refusal := .next (s.benchCmd room kernel 0x12)
/-- BENCH_MAX (R231). -/
def execBenchMax (room kernel : Nat) (s : State) : Host.Outcome State Fault Refusal := .next (s.benchCmd room kernel 0x13)
/-- BENCH_MIN (R231). -/
def execBenchMin (room kernel : Nat) (s : State) : Host.Outcome State Fault Refusal := .next (s.benchCmd room kernel 0x14)
/-- BENCH_AXPB (R231). -/
def execBenchAxpb (room kernel : Nat) (s : State) : Host.Outcome State Fault Refusal := .next (s.benchCmd room kernel 0x15)
/-- BENCH_AXPY (R231). -/
def execBenchAxpy (room kernel : Nat) (s : State) : Host.Outcome State Fault Refusal := .next (s.benchCmd room kernel 0x16)
/-- BENCH_CONVERT (R231). -/
def execBenchConvert (room kernel : Nat) (s : State) : Host.Outcome State Fault Refusal := .next (s.benchCmd room kernel 0x17)
/-- BENCH_EXP (R231). -/
def execBenchExp (room kernel : Nat) (s : State) : Host.Outcome State Fault Refusal := .next (s.benchCmd room kernel 0x18)
/-- RSUM (R232). -/
def execRsum (room kernel : Nat) (s : State) : Host.Outcome State Fault Refusal := .next (s.benchCmd room kernel 0x20)
/-- RMAX (R232). -/
def execRmax (room kernel : Nat) (s : State) : Host.Outcome State Fault Refusal := .next (s.benchCmd room kernel 0x21)
/-- RDOT (R232). -/
def execRdot (room kernel : Nat) (s : State) : Host.Outcome State Fault Refusal := .next (s.benchCmd room kernel 0x22)
/-- CARRY (R177, R231). -/
def execCarry (room kernel : Nat) (s : State) : Host.Outcome State Fault Refusal := .next (s.benchCmd room kernel 0x28)
/-- SMERGE (R126, R231). -/
def execSmerge (room kernel : Nat) (s : State) : Host.Outcome State Fault Refusal := .next (s.benchCmd room kernel 0x29)
/-- BENCH_FILL (R231). -/
def execBenchFill (room kernel : Nat) (s : State) : Host.Outcome State Fault Refusal := .next (s.benchCmd room kernel 0x30)
/-- BENCH_COPY (R231). -/
def execBenchCopy (room kernel : Nat) (s : State) : Host.Outcome State Fault Refusal := .next (s.benchCmd room kernel 0x31)

/-- BENCH_TIMEOUT (R234): the next word of a run has not ended more than 10 ms after it could start. -/
def execBenchTimeout (room kernel : Nat) (s : State) : Host.Outcome State Fault Refusal :=
  .next (if !(s.room room).running then s
    else match ((s.room room).kernel kernel).nextWord with
      | some (u, w) => if u.since + 10000000 < s.now then s.raiseFault room Code.benchTimeout (136 + s.wordSite room u w) else s
      | none => s)

/-- The physical unit of a logical bench unit (R240). -/
def Stack.phys (k : Stack) (l : Nat) : Nat := tget l k.unitMap l

/-- A physical bench unit taken out of service: its logical numbers pass to the lowest fit spare, else to the lowest active unit (R240). -/
def Stack.retireUnit (k : Stack) (p : Nat) : Stack :=
  let bad := if k.badUnits.contains p then k.badUnits else p :: k.badUnits
  let used := (List.range 32).map k.phys
  let spare := (span 32 2).find? fun q => !bad.contains q && !used.contains q
  let new_ := spare.getD (minNat 0 (used.filter fun q => !bad.contains q))
  { k with
    badUnits := bad
    unitMap := (List.range 32).foldl (fun t l => if k.phys l = p then tset t l new_ else t) k.unitMap }

/-- BENCH_ERROR (R240): the slice runs again; the unit's second error of the incarnation takes it out of service. -/
def execBenchError (room site unit : Nat) (parity : Bool) (s : State) : Host.Outcome State Fault Refusal :=
  .next (match (s.room room).job with
    | none => s
    | some j =>
      let n := tget 0 j.benchErrs (site * 64 + unit) + 1
      let s := ((s.count (136 + site) (if parity then 3 else 2) 1).count (136 + site) 4 1)
      let s := s.modRoom room fun x => { x with job := x.job.map fun j => { j with benchErrs := tset j.benchErrs (site * 64 + unit) n } }
      if n < 2 ∨ (s.stack site).badUnits.contains unit then s
      else
        let s := s.modStack site fun k => k.retireUnit unit
        let s := s.count (136 + site) 16 1
        let s := s.healthRecord 4 0 (136 + site) 0xFFFF unit
        if 34 - (s.stack site).badUnits.length < 28 then s.outOfService Code.benchSpare else s)

end Sys2Proof.Machine
end

