-- ==== Sys2Proof/Machine/Engines.lean ====
section
/-! DEFINITION. Decode batches (R139 to R144), window fills (R268), and the migration policy of the haul engine (R259, R260). -/

namespace Sys2Proof.Machine

/-! ## Decode batches -/

def State.viewOf (s : State) (r base : Nat) : ViewSt := tget ViewSt.reset (s.room r).mem.views base

def State.modView (s : State) (r base : Nat) (f : ViewSt → ViewSt) : State :=
  s.modMem r fun m => { m with views := tmod ViewSt.reset m.views base f }

/-- A decode row stored at its place in the result window, its conversions counted at the bench units there (R34, R35). -/
def State.decodeStore (s : State) (r base : Nat) (v : ViewRec) (q h : Nat) (row : ViewRow) : State :=
  let a := base + v.resOff + (q * v.heads + h) * v.ro
  let u := 136 + s.stackOf r a
  ((s.writeVa r a row.bytes).count u 6 row.sat).count u 7 row.nan

/-- The visible tokens and the branch of a sequence's query block, where its rows can be computed (R142). -/
def State.seqHead (s : State) (r base : Nat) (v : ViewRec) (q : Nat) : Option (Nat × Nat) :=
  let m := (s.room r).mem.data
  let hd := base + 65536 + q * v.qb
  let len := memNat m hd 4
  let b := if v.forest then memNat m (hd + 4) 4 else q
  let live := !v.forest || (match (s.room r).forest with | some f => (s.room r).branchOk f b | none => false)
  if v.tcap < len ∨ !live then none else some (len, b)

/-- One sequence of a batch: its rows written, or the code the batch will end with (R140, R142). An address that fails gives its code as the error. -/
def State.decodeSeq (s : State) (r base : Nat) (st : ViewSt) (q : Nat) : Except Nat (State × Option Nat) := do
  let v := ViewRec.ofNat st.raw
  if v.seqs ≤ q then pure (s, some Code.decodeRange)
  else
    let hd := base + 65536 + q * v.qb
    let head ← s.readClean r hd v.qb
    let m := memWriteN [] 0 head
    match s.seqHead r base v q with
    | none => pure ((List.range v.heads).foldl (fun s h => s.decodeStore r base v q h v.nanRow) s, some Code.decodeLength)
    | some (len, b) =>
      let slots ← (List.range len).mapM fun t => s.viewSlot r v v.slotParts b t
      let rows := (List.range v.heads).map fun h =>
        if len = 0 then ⟨List.replicate v.ro 0, 0, 0⟩
        else
          let qs := (List.range (v.dn + v.dr)).map fun i => f32At m 2 (64 + h * v.rq) i
          v.decodeRow st.wUk st.wUv (fun t => slots.getD t []) len h qs (viewDraw st.raw (q * v.heads + h))
      pure (rows.zipIdx.foldl (fun s p => s.decodeStore r base v q p.2 p.1) s, none)

/-- The sequences of a batch from `q` on; the first code stands. -/
def State.decodeSeqs (s : State) (r base : Nat) (st : ViewSt) : Nat → Nat → Option Nat → Except Nat (State × Option Nat)
  | 0, _, c => .ok (s, c)
  | n + 1, q, c =>
    match s.decodeSeq r base st q with
    | .error e => .error e
    | .ok (s, c') => s.decodeSeqs r base st n (q + 1) (if c.isSome then c else c')

/-- The KV pages that a batch's sequences name, in order: the address of the first slot of each, and the tokens of it that are visible. -/
def State.pageUses (s : State) (r base : Nat) (v : ViewRec) (first n : Nat) : List (Nat × Nat) :=
  (span first n).flatMap fun q =>
    match if q < v.seqs then s.seqHead r base v q else none with
    | none => []
    | some (len, b) => (List.range (ceilDiv len 64)).filterMap fun p =>
        match s.slotVa r v b (64 * p) with
        | .ok a => some (a, Nat.min 64 (len - 64 * p))
        | .error _ => none

/-- The pages of a batch, each once with the most tokens that a sequence sees of it: a page shared by sequences is read once (R141). -/
def sharedPages (uses : List (Nat × Nat)) : Tbl Nat := uses.foldl (fun t u => tmod 0 t u.1 (Nat.max u.2)) []

/-- The heat and the charges of a batch's reads of its slots (R223, R259). -/
def State.touchPages (s : State) (r : Nat) (v : ViewRec) (pages : Tbl Nat) : State :=
  pages.foldl (fun s p =>
    let s := (List.range p.2).foldl (fun s t => v.slotParts.foldl (fun s x => s.chargeNormal r (p.1 + 1024 * t + x.1) x.2) s) s
    s.warm r p.1 (1024 * (p.2 - 1) + v.slotUsed)) s

/-- Time of a batch on each stack: the longer of the stack's own bytes, each page once, and its multiply-accumulates, those of the projections spread over
the populated stacks alike (R144, log entry 108). -/
def State.batchTimes (s : State) (r : Nat) (v : ViewRec) (uses : List (Nat × Nat)) (n : Nat) : List (Nat × Nat) :=
  let w := if v.plain then v.dn + v.dv else 2 * v.dc + v.dr
  let proj := if v.plain then 0 else ceilDiv (n * v.heads * (v.dn + v.dv) * v.dc) (Nat.max 1 s.sites.length)
  let at_ (site : Nat) (l : List (Nat × Nat)) : Nat := sumNat ((l.filter fun p => s.stackOf r p.1 = site).map (·.2))
  s.sites.map fun site =>
    (site, Nat.max (ceilDiv (at_ site (sharedPages uses) * sumNat (v.slotParts.map (·.2))) 12800)
      (ceilDiv (at_ site uses * v.heads * w + proj) 8192))

/-- DECODE_BATCH: the oldest queued batch of a view leaves its queue where the bench units of the view's stack choose its room, and its rows are computed
and written; its set-up and posting take 1.5 µs (R139, R140, R144, R348). -/
def execDecodeBatch (room view : Nat) (s : State) : Host.Outcome State Fault Refusal :=
  .next (
    let st := s.viewOf room view
    match st.queue with
    | [] => s
    | b :: rest =>
      if st.running || !(s.room room).running then s
      else s.onBench room (s.stackOf room view) fun s =>
        let s := s.modView room view fun t => { t with
          queue := rest
          running := true
          code := none }
        let v := ViewRec.ofNat st.raw
        let uses := s.pageUses room view v b.1 b.2
        let times := s.batchTimes room v uses b.2
        match s.decodeSeqs room view st b.2 b.1 none with
        | .error e => s.raiseFault room e (136 + s.stackOf room view)
        | .ok (s, c) =>
          ((((s.touchPages room v (sharedPages uses)).modView room view fun t => { t with code := c }).chargeBench room times)).charge room 6 1500)

/-- DECODE_BATCH_END: the counter is posted, then the fault of R142 raised, where there is one (R139, R142). -/
def execDecodeBatchEnd (room view : Nat) (s : State) : Host.Outcome State Fault Refusal :=
  .next (
    let st := s.viewOf room view
    if !st.running || !(s.room room).running then s
    else
      let v := ViewRec.ofNat st.raw
      let s := (s.modView room view fun t => { t with running := false, code := none }).postCounter room v.ctrCore v.ctr 1 engineWait
      match st.code with
      | some c => s.raiseFault room c (136 + s.stackOf room view)
      | none => s)

/-! ## Window fills (R268, R269) -/

/-- The consuming cores of a plan, by core code. -/
def HaulPlan.cores (w : HaulPlan) : List Nat := ((List.range 128).filter fun i => bit w.mask i).map fun i => i / 64 * 128 + i % 64

/-- Whether the next fill may start (R268). -/
def HaulPlan.mayFill (w : HaulPlan) : Bool :=
  decide (w.started < w.slots) || w.cores.all fun c => decide (w.started + 1 ≤ tget 0 w.releases c + w.slots)

/-- Unit index of an event of the haul engine: it has none (R494). -/
def noUnit : Nat := 0xFFFF

/-- Bytes that the haul engine of a page's die moves for a room (R347, R366). -/
def State.chargeHaul (s : State) (r va n : Nat) : State := (s.charge r 9 n).spend (arbHaul (va / pageBytes % 2)) r n

/-- WINDOW_FILL: the next sequence number starts; its slot reads as its entry from then on, and the masked cores' counters are posted (R268, R269). -/
def execWindowFill (room window : Nat) (s : State) : Host.Outcome State Fault Refusal :=
  .next (
    match tfind (s.room room).mem.windows window with
    | none => s
    | some w =>
      if !(s.room room).running || !w.mayFill || w.list.isEmpty then s
      else
        let (src, len) := w.list.getD (w.started % w.list.length) (0, 0)
        let dst := window + pageBytes + w.started % w.slots * w.slotBytes
        match s.checkRange room src len false with
        | some c => s.raiseFault room c noUnit
        | none =>
          if s.poisoned room src len then s.raiseFault room Code.stackUe (136 + s.stackOf room src)
          else
            let s := (s.cleanse room dst w.slotBytes).modMem room fun m => { m with
              data := memCopyRange (memZero m.data dst w.slotBytes) src dst len,
              windows := tset m.windows window { w with started := w.started + 1 } }
            w.cores.foldl (fun s c => s.postCounter room c w.ctr 1 windowSlot) (s.chargeHaul room src len))

/-! ## Migration (R259, R260) -/

/-- Upper frames a room's moves in progress will add. -/
def RoomMem.movingUp (m : RoomMem) : Nat :=
  (m.pages.filter fun p => p.2.tier.isCellar && p.2.moving.any fun x => x.partner.isNone).length

/-- The candidates of a die's engine for promotion, in descending heat, then ascending page number (R259). -/
def RoomMem.candidates (m : RoomMem) (half : Nat) : List (Nat × Page) :=
  let hot (p : Nat × Page) : Bool := match p.2.tier with
    | .cellar h _ => h == half && p.2.moving.isNone && !m.pinnedPage p.1 &&
        ((p.2.cls == 1 && decide (m.promoteHeat ≤ p.2.heat)) || (p.2.cls == 3 && decide (4 * m.promoteHeat ≤ p.2.heat)))
    | _ => false
  sortBy (fun p => 65535 - p.2.heat) (m.pages.filter hot)

/-- Whether a frame may hold a page under its NEAR attribute (R252). -/
def Page.mayLie (p : Page) (t : Tier) : Bool := !({ p with tier := t }).farFrom

/-- One candidate considered: promoted, swapped with a victim, or left (R259); under NEAR the victim's frame lies beside the named die (R252). -/
def State.consider (s : State) (r : Nat) (c : Nat × Page) : State :=
  let x := s.room r
  match (tfind x.mem.pages c.1).map (·.moving) with
  | some none =>
    let up := if x.mem.upperUsed + x.mem.movingUp < x.grant.upper then s.placeUpper r c.1 c.2.attr else none
    match up with
    | some t => s.setPage r c.1 { c.2 with moving := some ⟨t, none⟩ }
    | none =>
      if x.mem.upperUsed + x.mem.movingUp < x.grant.upper then s
      else
        match x.mem.victims.filter fun v => c.2.mayLie v.2.tier with
        | [] => s
        | v :: _ =>
          if 2 * v.2.heat < c.2.heat then
            (s.setPage r c.1 { c.2 with moving := some ⟨v.2.tier, some v.1⟩ }).setPage r v.1 { v.2 with moving := some ⟨c.2.tier, some c.1⟩ }
          else s
  | _ => s

/-- MIGRATION_EPOCH: a new 1 ms epoch. Thresholds written take effect, heat halves, candidates of the rooms that are not in turnover are considered room by
room (R259, R335, R540), and the ledgers take in the stall counters (R265, R366). -/
def execMigrationEpoch (at_ : Nat) (s : State) : Host.Outcome State Fault Refusal :=
  if at_ % 1000000 ≠ 0 ∨ at_ < s.now then .next s
  else
    let s := s.upto at_
    let s := { s with rooms := tmap s.rooms fun _ x => { x with mem := { x.mem with
      promoteHeat := x.mem.promoteNext, pages := tmap x.mem.pages fun _ p => { p with heat := p.heat / 2 } } } }
    let s := allRooms.foldl State.ledgerStalls s
    .next (allRooms.foldl (fun s r =>
      if (s.room r).st ≠ .committed then s
      else [0, 1].foldl (fun s h => ((s.room r).mem.candidates h).foldl (fun s c => s.consider r c) s) s) s)

/-- A page switched to its new frame (R260). -/
def State.switchPage (s : State) (r v : Nat) : State :=
  match tfind (s.room r).mem.pages v with
  | some p =>
    match p.moving with
    | some m =>
      let s := (s.seat r v p m.dst).chargeHaul r (v * pageBytes) pageBytes
      { s with migrations := s.migrations + 1 }
    | none => s
  | none => s

/-- MIGRATION_SWITCH: after its last piece a page takes its new frame, together with the page it is swapped with (R260). A page of which the copy consumed a
poisoned sector stays where it is, and its room's job faults (R237, log entry 110). -/
def execMigrationSwitch (room page : Nat) (s : State) : Host.Outcome State Fault Refusal :=
  .next (
    match (tfind (s.room room).mem.pages page).bind (·.moving) with
    | none => s
    | some m =>
      let both := page :: m.partner.toList
      if (s.room room).st ≠ .committed then s
      else
        match both.find? fun v => s.poisoned room (v * pageBytes) pageBytes with
        | some v => (s.modMem room fun m => m.cancelMove page).raiseFault room Code.stackUe (136 + s.stackOf room (v * pageBytes))
        | none =>
          let s := both.foldl (fun s v => s.switchPage room v) s
          { s with swaps := s.swaps + (both.length - 1) })

end Sys2Proof.Machine
end

