-- ==== Sys2Proof/Machine/Place.lean ====
section
/-! DEFINITION. PLACE_HINT in all its forms and HAUL_PLAN: what a room maps, reclassifies, registers and clears, under its quotas (R134, R193, R228, R251 to R258, R266). -/

namespace Sys2Proof.Machine

/-! ## Ranges -/

def Desc.va (d : Desc) : Nat := d.fld 8 8
def Desc.nbytes (d : Desc) : Nat := d.fld 16 8
def Desc.hint (d : Desc) : Nat := d.fld 24 1
def Desc.attr (d : Desc) : Nat := d.fld 25 1
def Desc.recVa (d : Desc) : Nat := d.fld 32 8

/-- First page and number of pages of a PLACE_HINT. -/
def Desc.firstPage (d : Desc) : Nat := d.va / pageBytes
def Desc.pageCount (d : Desc) : Nat := d.nbytes / pageBytes

/-- Whether some page of a range is mapped, as ordinary memory or in a special range. -/
def RoomMem.anyMapped (m : RoomMem) (va n : Nat) : Bool :=
  m.pages.any (fun p => decide (va / pageBytes ≤ p.1) && decide (p.1 < (va + n) / pageBytes)) ||
    m.specials.any fun x => overlaps va n x.base x.bytes

/-- The ordinary pages of a range. -/
def RoomMem.pagesIn (m : RoomMem) (va n : Nat) : Tbl Page :=
  m.pages.filter fun p => decide (va / pageBytes ≤ p.1) && decide (p.1 < (va + n) / pageBytes)

/-- Whether every page of a range is an ordinary mapped page. -/
def RoomMem.allOrdinary (m : RoomMem) (va n : Nat) : Bool := (m.pagesIn va n).length == n / pageBytes

/-- Whether a range names a page of the forest's node or page pool, which stay pinned (R195, R255; log entry 107). -/
def RoomMem.poolPage (m : RoomMem) (va n : Nat) : Bool :=
  m.specials.any fun x => x.hint == 0x11 && x.frames.any fun f => overlaps va n (x.base + f.1 * pageBytes) pageBytes

/-! ## Transfers in flight (R255) -/

/-- Bytes of an element of a collective's format; 0 for a format it does not take. -/
def collWidth (f : Nat) : Nat := if f = 0 ∨ f = 9 then 4 else if f = 2 ∨ f = 3 then 2 else 0

def collBytes (w : Nat) : Nat := fld w 24 4 * collWidth (fld w 3 1 % 16)

/-- Bytes of the `src` and `dst` buffers at one position (Table 16.7). -/
def collSrcBytes (w : Nat) : Nat := if fld w 0 1 = 2 then fld w 36 4 * collBytes w else collBytes w
def collDstBytes (w : Nat) : Nat := if fld w 0 1 = 3 then fld w 36 4 * collBytes w else collBytes w

/-- The rows of device memory that a MOVE has still to read or write. -/
def Flight.extents (f : Flight) : List (Nat × Nat) :=
  match f.move with
  | none => []
  | some w => (span f.rows (w.rows - f.rows)).flatMap fun i =>
      (if w.srcSp = 3 then [(w.src + i * w.srcPitch, w.rowBytes)] else []) ++ if w.dstSp = 3 then [(w.dst + i * w.dstPitch, w.rowBytes)] else []

/-- Extents of a room's memory that the words of its running bench runs name. -/
def Kernel.extents (k : Kernel) : List (Nat × Nat) :=
  match k.run with
  | none => []
  | some u => (k.words.map BenchWord.ofNat).flatMap fun w => (w.reads u.args ++ w.writes u.args).flatMap Ext.runs

/-- Extents of a room's memory that its network transfers read, or will write. -/
def State.netExtents (s : State) (r : Nat) : List (Nat × Nat) :=
  (s.net.flows.filter fun f => f.1 / 2 ^ 34 = r).flatMap fun f =>
    ((f.2.sends.filter fun m => m.kind = 0).map fun m => (m.src, m.bytes)) ++ f.2.gets.map fun g => (g.dst, g.bytes)

/-- Extents of a room's transfers in flight: its MOVEs, bench runs, network transfers and running collectives. -/
def State.transfers (s : State) (r : Nat) : List (Nat × Nat) :=
  let x := s.room r
  (s.cores.flatMap fun c => match c.2.ctx r with
    | some y => y.flights.flatMap Flight.extents
    | none => []) ++
  x.kernels.flatMap (fun k => k.2.extents) ++ s.netExtents r ++
  (x.coll.filter fun c => c.2.running).flatMap fun c => match x.prog[c.1]? with
    | some w => [(fld w 8 8, collSrcBytes w), (fld w 16 8, collDstBytes w)]
    | none => []

/-- Whether a transfer in flight touches a range, or a decode batch or bench run registered on it runs (R255). -/
def State.inTransit (s : State) (r va n : Nat) : Bool :=
  let x := s.room r
  (s.transfers r).any (fun e => overlaps va n e.1 e.2) || (x.mem.views.any fun v => v.2.running && decide (va ≤ v.1) && decide (v.1 < va + n)) ||
    x.kernels.any fun k => k.2.run.isSome && decide (va ≤ k.1) && decide (k.1 < va + n)

/-- Runs of consecutive pages of one class and attribute (Table 10.6). -/
def pageRuns : Tbl Page → Option (Nat × Nat × Nat) → Nat
  | [], _ => 0
  | (v, p) :: r, last =>
    (if last = some (v, p.cls, p.attr) then 0 else 1) + pageRuns r (some (v + 1, p.cls, p.attr))

/-- The map runs of a room (MEM_MAPS). -/
def RoomMem.mapRuns (m : RoomMem) : Nat := pageRuns m.pages none + m.specials.length

/-! ## Quotas (R254) -/

/-- The three conditions of R254 with charges added. -/
def Room.quotaPlus (x : Room) (c1 c2 c3 : Nat) : Bool :=
  decide (x.mem.charge1 + c1 ≤ x.grant.upper) && decide (x.mem.charge2 + c2 ≤ x.grant.cellar) &&
    decide (x.mem.charge3 + c3 ≤ x.grant.upper + x.grant.cellar)

/-- Ordinary pages added. -/
def RoomMem.addPages (m : RoomMem) (v n cls attr : Nat) : RoomMem :=
  { m with pages := (span v n).foldl (fun t k => tset t k ⟨cls, attr, .zero, 0, none⟩) m.pages }

/-- MAP_AUTO, MAP_UPPER, MAP_COLD, MAP_STREAM (Table 10.2): the first failing check, or the pages mapped in the zero state (R258). -/
def State.mapPages (s : State) (r : Nat) (d : Desc) (cls : Nat) : Except DescErr State :=
  let x := s.room r
  let n := d.pageCount
  let m := x.mem
  if m.anyMapped d.va d.nbytes then .error (stBadDescriptor, Code.memOverlap)
  else if !x.quotaPlus (if cls = 2 then n else 0) (if cls = 4 then n else 0) n then .error (stResourceExhausted, Code.memQuota)
  else
    let m' := m.addPages d.firstPage n cls d.attr
    if 65536 < m'.mapRuns then .error (stResourceExhausted, Code.memMaps)
    else
      let s := s.modMem r fun _ => m'
      .ok (s.makeRoom r 0 (s.room r).mem.victims)

/-- A page of a SET hint put where its class and attributes want it: MAP_UPPER pages in the upper tier, MAP_STREAM pages in the cellar, and under NEAR an
upper page beside the named die, or, where no frame is free there and its class allows it, in the cellar (R252, log entry 107). -/
def State.retier (s : State) (r v : Nat) : State :=
  match tfind (s.room r).mem.pages v with
  | none => s
  | some p =>
    let up := s.placeUpper r v p.attr
    let to_ : Option Tier :=
      if p.cls = 4 then (if p.tier.isUpper then s.placeCellar v else none)
      else if p.cls = 2 && p.tier.isCellar then up
      else if p.farFrom then up.or (if p.cls = 2 then none else s.placeCellar v)
      else none
    match to_ with
    | some t => s.movePage r v t
    | none => s

/-- SET_AUTO to SET_STREAM (Table 10.2, R255). -/
def State.setPages (s : State) (r : Nat) (d : Desc) (cls : Nat) : Except DescErr State :=
  let x := s.room r
  let m := x.mem
  let ps := m.pagesIn d.va d.nbytes
  if m.poolPage d.va d.nbytes then .error (stBadDescriptor, Code.memBusy)
  else if !m.allOrdinary d.va d.nbytes then .error (stBadDescriptor, Code.memNotmapped)
  else if ps.any fun p => m.pinnedPage p.1 then .error (stBadDescriptor, Code.memBusy)
  else
    let m' := { m with pages := ps.foldl (fun t p => tset t p.1 { p.2 with cls := cls, attr := d.attr }) m.pages }
    if !x.quotaOk m' then .error (stResourceExhausted, Code.memQuota)
    else if 65536 < m'.mapRuns then .error (stResourceExhausted, Code.memMaps)
    else
      let s := s.modMem r fun _ => ps.foldl (fun m p => m.cancelMove p.1) m'
      let s := s.makeRoom r 0 ((s.room r).mem.victims)
      .ok (ps.foldl (fun s p => s.retier r p.1) s)

/-- Pages unmapped: their frames released, their bytes gone. -/
def State.dropPages (s : State) (r va n : Nat) : State :=
  let ps := (s.room r).mem.pagesIn va n
  let s := s.forgetLost r fun v => ps.any fun p => p.1 = v
  s.modMem r fun m =>
    let m := ps.foldl (fun m p => m.cancelMove p.1) m
    { m with pages := ps.foldl (fun t p => tdel t p.1) m.pages, data := memZero m.data va n }

/-! ## Special ranges (R253) -/

/-- Upper frames taken for backed pages of a special range, one after another (R256); none where the stacks have no free frame. -/
def State.backPages (s : State) (r base : Nat) : List Nat → Option State
  | [] => some s
  | o :: rest =>
    match s.placeUpper r (base / pageBytes + o) 0 with
    | some (.upper site f) =>
      ((s.zeroFrame (.upper site f)).modMem r fun m => { m with specials := m.specials.map fun x =>
        if x.base = base then { x with frames := x.frames ++ [(o, site, f)] } else x }).backPages r base rest
    | _ => none

/-- The offset pages that byte extents of a range touch, each once. -/
def backedPages (exts : List (Nat × Nat)) : List Nat :=
  dedup (exts.flatMap fun e => (pagesOf e.1 e.2).map (·.1))

/-- A special range registered with its backing frames, under R254: pages of the room are demoted first where the frames take its quota's last. -/
def State.addSpecial (s : State) (r : Nat) (d : Desc) (raw : Nat) (exts : List (Nat × Nat)) : Except DescErr State :=
  let x := s.room r
  let os := backedPages exts
  if !x.quotaPlus os.length 0 os.length then .error (stResourceExhausted, Code.memQuota)
  else if 65536 ≤ x.mem.mapRuns then .error (stResourceExhausted, Code.memMaps)
  else
    let s := s.makeRoom r os.length (s.room r).mem.victims
    let s := s.modMem r fun m => { m with
      specials := m.specials ++ [⟨d.va, d.nbytes, d.hint, raw, []⟩], data := memZero m.data d.va d.nbytes }
    match s.backPages r d.va os with
    | none => .error (stResourceExhausted, Code.memQuota)
    | some s => .ok s

/-- Pages kept in the upper tier, no move of theirs going on: each that lies in the cellar is promoted, victims outside the list demoted first. Pages of an
image in the zero state are promoted too, and its MAP_STREAM pages stay where they lie (R75); of a view's run, every page that has a frame lies in the upper
tier (R136, log entry 107). -/
def State.pinUpper (s : State) (r : Nat) (image : Bool) (all : List Nat) : List Nat → Option State
  | [] => some s
  | v :: rest =>
    let s := s.modMem r fun m => m.cancelMove v
    match tfind (s.room r).mem.pages v with
    | none => s.pinUpper r image all rest
    | some p =>
      if p.tier.isUpper || (!image && p.tier = .zero) || (image && p.cls = 4) then s.pinUpper r image all rest
      else
        let s := if p.cls = 2 || (s.room r).upperRoom then s
          else match (s.room r).mem.victims.filter fun q => !all.contains q.1 with
            | [] => s
            | q :: _ => s.demote r q
        if !(p.cls = 2 || (s.room r).upperRoom) then none
        else
          match s.placeUpper r v p.attr with
          | none => none
          | some t => (if p.tier = .zero then s.seat r v p t else s.movePage r v t).pinUpper r image all rest

/-- The 64-byte registration record that a PLACE_HINT names. -/
def State.regRecord (s : State) (r : Nat) (d : Desc) : Except DescErr Nat :=
  match s.readAny r d.recVa 64 with
  | .ok bs => .ok (leNat bs)
  | .error c => .error (stAccessFault, c)

/-- The parts of a view that are backed: the control block, the windows, and the parts of a MERGE view (R253). -/
def ViewRec.backed (v : ViewRec) : List (Nat × Nat) :=
  match v.vkind with
  | 2 => [(0, 64), (65536, v.before - 65536), (v.resOff, v.need - v.resOff)]
  | 3 => [(0, v.before)]
  | _ => []

/-- A view registered from its record (R134 to R136). -/
def State.addView (s : State) (r : Nat) (d : Desc) (raw : Nat) : Except DescErr State := do
  let v := ViewRec.ofNat raw
  let m := (s.room r).mem
  match v.check d.va d.nbytes (m.specials.filter fun x => x.hint = 0x10).length (s.mapped r) with
  | some c => .error (stBadDescriptor, c)
  | none =>
    let s ← s.addSpecial r d raw v.backed
    let run := if v.vkind = 3 ∨ v.forest then (0, 0)
      else (v.seqBase / pageBytes, (v.seqBase + v.runBytes - 1) / pageBytes + 1 - v.seqBase / pageBytes)
    let w (a n : Nat) : Memory := if v.vkind = 3 ∨ v.plain then [] else memMoveBase (memSlice m.data a n) a 0
    let s := s.modMem r fun m => { m with
      views := tset m.views d.va { ViewSt.reset with raw := raw, wUk := w v.wUk v.ukBytes, wUv := w v.wUv v.uvBytes, run := run } }
    match s.pinUpper r false (span run.1 run.2) (span run.1 run.2) with
    | some s => .ok s
    | none => .error (stResourceExhausted, Code.memQuota)

/-- The room's forest registered from its record (R193 to R196). -/
def State.addForest (s : State) (r : Nat) (d : Desc) (raw : Nat) : Except DescErr State := do
  let x := s.room r
  let f := Forest.new d.va d.nbytes raw
  match f.check (decide (0 < x.bgrant.count)) (x.hasCore f.pilot) x.forest.isSome with
  | some c => .error (stBadDescriptor, c)
  | none =>
    let s ← s.addSpecial r d raw [(f.nodeOff, f.nodeBytes), (f.pageOff, f.pageBytes)]
    .ok (s.modRoom r fun x => { x with forest := some f })

/-- The words that a kernel record points at. -/
def State.kernelWords (s : State) (r raw : Nat) : List Nat :=
  let m := (s.room r).mem.data
  (List.range (fld raw 2 2)).map fun i => memNat m (fld raw 8 8 + 64 * i) 64

/-- A bench kernel registered from its record (R228). -/
def State.addKernel (s : State) (r : Nat) (d : Desc) (raw : Nat) : Except DescErr State := do
  let x := s.room r
  let core := fld raw 4 2
  let mapped := s.mapped r (fld raw 8 8) (64 * fld raw 2 2)
  let ws := if mapped && decide (fld raw 2 2 ≤ 1024) then s.kernelWords r raw else []
  match kernelCheck raw d.va d.nbytes (x.mem.specials.filter fun y => y.hint = 0x12).length (core == 0xFFFF || x.hasCore core) mapped ws with
  | some c => .error (stBadDescriptor, c)
  | none =>
    let s ← s.addSpecial r d raw []
    .ok (s.modRoom r fun x => { x with kernels := tset x.kernels d.va ⟨raw, ws, [], none⟩ })

/-! ## CLEAR -/

/-- A registration ended; its range becomes unmapped (R193, Table 10.2). -/
def State.dropSpecial (s : State) (r : Nat) (x : Special) : State :=
  let s := s.modRoom r fun y => { y with
    forest := if x.hint = 0x11 then none else y.forest
    kernels := tdel y.kernels x.base
    mem := { y.mem with
      specials := y.mem.specials.filter fun z => z.base ≠ x.base
      windows := tdel y.mem.windows x.base
      views := tdel y.mem.views x.base
      data := memZero y.mem.data x.base x.bytes } }
  s

/-- The FORK and PRUNE descriptors handed to the engine and not started, by ring and sequence. -/
def Room.waitingTrees (x : Room) : List (Nat × Nat) :=
  match x.forest with
  | some f => f.queue.filterMap (·.desc)
  | none => []

/-- CLEAR: one registration, its waiting descriptors completing with CANCELLED where it is the forest (R193, Table 10.2). -/
def State.clear (s : State) (r : Nat) (d : Desc) : Except DescErr State :=
  match (s.room r).mem.specials.find? fun x => x.base = d.va && x.bytes = d.nbytes with
  | none => .error (stBadDescriptor, Code.memNotmapped)
  | some x =>
    let s := if x.hint = 0x11 then (s.room r).waitingTrees.foldl (fun s q => s.complete q.1 q.2 stCancelled 0 0 0 0) s else s
    .ok (s.dropSpecial r x)

/-! ## The commands -/

/-- A PLACE_HINT of one hint code: applied whole, or refused with nothing changed (R251). -/
def State.hintCmd (s : State) (ring hint : Nat) (f : State → Nat → Desc → Except DescErr State) : State :=
  match s.canStartOp ring 0x18 fun d => d.hint == hint with
  | none => s
  | some d =>
    match f s (s.ring ring).room d with
    | .ok s => s.done ring d stOk 0
    | .error e => s.done ring d e.1 e.2

/-- A registration: its range must be unmapped, and its record readable. -/
def withRecord (f : State → Nat → Desc → Nat → Except DescErr State) (s : State) (r : Nat) (d : Desc) : Except DescErr State :=
  if (s.room r).mem.anyMapped d.va d.nbytes then .error (stBadDescriptor, Code.memOverlap)
  else
    match s.regRecord r d with
    | .error e => .error e
    | .ok raw => f s r d raw

/-- UNMAP: ordinary pages, not pinned; it waits while a page of the range awaits a snapshot copy, and for every transfer in flight to the range (R255). -/
def execUnmap (ring : Nat) (s : State) : Host.Outcome State Fault Refusal :=
  .next (
    match s.canStartOp ring 0x18 fun d => d.hint == 0x00 with
    | none => s
    | some d =>
      let r := (s.ring ring).room
      let m := (s.room r).mem
      if m.poolPage d.va d.nbytes then s.done ring d stBadDescriptor Code.memBusy
      else if !m.allOrdinary d.va d.nbytes then s.done ring d stBadDescriptor Code.memNotmapped
      else if (m.pagesIn d.va d.nbytes).any fun p => m.pinnedPage p.1 then s.done ring d stBadDescriptor Code.memBusy
      else if m.snap.pending.any fun v => decide (d.firstPage ≤ v) && decide (v < d.firstPage + d.pageCount) then s
      else if s.inTransit r d.va d.nbytes then s
      else (s.dropPages r d.va d.nbytes).done ring d stOk 0)

def execMapAuto (ring : Nat) (s : State) : Host.Outcome State Fault Refusal := .next (s.hintCmd ring 0x01 fun s r d => s.mapPages r d 1)
def execMapUpper (ring : Nat) (s : State) : Host.Outcome State Fault Refusal := .next (s.hintCmd ring 0x02 fun s r d => s.mapPages r d 2)
def execMapCold (ring : Nat) (s : State) : Host.Outcome State Fault Refusal := .next (s.hintCmd ring 0x03 fun s r d => s.mapPages r d 3)
def execMapStream (ring : Nat) (s : State) : Host.Outcome State Fault Refusal := .next (s.hintCmd ring 0x04 fun s r d => s.mapPages r d 4)
def execSetAuto (ring : Nat) (s : State) : Host.Outcome State Fault Refusal := .next (s.hintCmd ring 0x08 fun s r d => s.setPages r d 1)
def execSetUpper (ring : Nat) (s : State) : Host.Outcome State Fault Refusal := .next (s.hintCmd ring 0x09 fun s r d => s.setPages r d 2)
def execSetCold (ring : Nat) (s : State) : Host.Outcome State Fault Refusal := .next (s.hintCmd ring 0x0A fun s r d => s.setPages r d 3)
def execSetStream (ring : Nat) (s : State) : Host.Outcome State Fault Refusal := .next (s.hintCmd ring 0x0B fun s r d => s.setPages r d 4)

/-- MAP_WINDOW: a haul window, every frame of it backed (R253, R267). -/
def State.mapWindow (s : State) (r : Nat) (d : Desc) : Except DescErr State :=
  if (s.room r).mem.anyMapped d.va d.nbytes then .error (stBadDescriptor, Code.memOverlap)
  else if !(s.room r).quotaPlus d.pageCount 0 d.pageCount then .error (stResourceExhausted, Code.memQuota)
  else s.addSpecial r d 0 [(0, d.nbytes)]

def execMapWindow (ring : Nat) (s : State) : Host.Outcome State Fault Refusal := .next (s.hintCmd ring 0x05 State.mapWindow)
def execView (ring : Nat) (s : State) : Host.Outcome State Fault Refusal := .next (s.hintCmd ring 0x10 (withRecord State.addView))
def execForest (ring : Nat) (s : State) : Host.Outcome State Fault Refusal := .next (s.hintCmd ring 0x11 (withRecord State.addForest))
def execKernel (ring : Nat) (s : State) : Host.Outcome State Fault Refusal := .next (s.hintCmd ring 0x12 (withRecord State.addKernel))
/-- CLEAR, once every transfer in flight to the range has ended (R255). -/
def execClear (ring : Nat) (s : State) : Host.Outcome State Fault Refusal :=
  .next (match s.canStartOp ring 0x18 fun d => d.hint == 0x1F with
    | some d => if s.inTransit (s.ring ring).room d.va d.nbytes then s else s.hintCmd ring 0x1F State.clear
    | none => s)

/-! ## HAUL_PLAN (R266, R270) -/

/-- The entries of a list: sources and lengths, and whether every entry keeps R266. -/
def haulEntries (bs : List Byte) (n sb : Nat) (mapped : Nat → Nat → Bool) : List (Nat × Nat) × Bool :=
  let m := memWriteN [] 0 bs
  let es := (List.range n).map fun i => (memNat m (16 * i) 8, memNat m (16 * i + 8) 4, memNat m (16 * i + 12) 4)
  (es.map fun e => (e.1, e.2.1),
   es.all fun e => e.2.1 % 65536 == 0 && decide (e.2.1 ≤ sb) && e.2.2 == 0 && mapped e.1 e.2.1)

/-- HAUL_PLAN: a plan attached to a window (R266). -/
def execHaulPlan (ring : Nat) (s : State) : Host.Outcome State Fault Refusal :=
  .next (
    match s.canStartOp ring 0x19 anyDesc with
    | none => s
    | some d =>
      let r := (s.ring ring).room
      let m := (s.room r).mem
      let n := d.fld 50 1
      let sb := d.fld 24 8
      let e := d.fld 48 2
      match m.specials.find? fun x => x.hint = 5 && x.base = d.fld 8 8 with
      | none => s.done ring d stBadDescriptor Code.haulParams
      | some x =>
        if x.bytes < pageBytes + n * sb then s.done ring d stBadDescriptor Code.haulParams
        else
          match s.readAny r (d.fld 16 8) (16 * e) with
          | .error c => s.done ring d stAccessFault c
          | .ok bs =>
            let (l, ok) := haulEntries bs e sb (s.mapped r)
            if !ok then s.done ring d stBadDescriptor Code.haulParams
            else if (tfind m.windows x.base).isSome ∧ (s.room r).busy then s.done ring d stBadDescriptor Code.haulBusy
            else
              (s.modMem r fun m => { m with windows := tset m.windows x.base ⟨d.raw >>> 64, l, n, sb, d.fld 32 16, d.fld 51 1, 0, []⟩ }).done
                ring d stOk 0)

end Sys2Proof.Machine
end

