-- ==== Sys2Proof/Machine/Snapshots.lean ====
section
/-! DEFINITION. Snapshots (R192, R217, R271 to R279): the set, the byte stream and its digest, taking one at a barrier, and rebuilding a room from one. -/

namespace Sys2Proof.Machine

/-! ## The forest in canonical form (R192, R276) -/

/-- Objects in the order the traversal first reaches them, as place*8 + kind: 1 directory, 2 layer root, 3 leaf, 4 page. -/
def Forest.objects (f : Forest) : List Nat :=
  dedup (f.branches.flatMap fun b =>
    match b.2.dir with
    | none => []
    | some d => (d * 8 + 1) :: (f.node d).entries.flatMap fun l =>
        (l.2 * 8 + 2) :: (f.node l.2).entries.flatMap fun r =>
          (r.2 * 8 + 3) :: (f.node r.2).entries.map fun e => e.2 * 8 + 4)

/-- Bytes of an object: its header, then the numbers of what its entries name, or its page. -/
def Forest.objectBytes (f : Forest) (data : Memory) (objs : List Nat) (o : Nat) : List Byte :=
  let kind := o % 8
  leBytes 4 kind ++ List.replicate 60 (0 : Byte) ++
    (if kind = 4 then memReadN data (f.base + f.pageOff + 65536 * (o / 8)) 65536
     else
      let t := (f.node (o / 8)).entries
      (List.range 256).flatMap fun i => leBytes 4 (match tfind t i with
        | some v => objs.idxOf (v * 8 + kind + 1)
        | none => 0xFFFFFFFF))

/-- Zero bytes up to a multiple of `n`. -/
def padTo (n : Nat) (l : List Byte) : List Byte := l ++ List.replicate (ceilDiv l.length n * n - l.length) 0

/-- The forest section (R276). -/
def Forest.secBytes (f : Forest) (data : Memory) : List Byte :=
  let objs := f.objects
  padTo 64 (leBytes 8 f.serial ++ leBytes 4 f.branches.length ++ leBytes 4 objs.length ++
      (List.range f.treeMax).flatMap fun t => leBytes 4 (f.cycle t)) ++
    f.branches.flatMap (fun b => f.record b.1 b.2 (match b.2.dir with | some d => objs.idxOf (d * 8 + 1) | none => 0xFFFFFFFF)) ++
    objs.flatMap (f.objectBytes data objs)

/-- The record of a branch read back (Table 8.1); `dir` places a directory's object number. -/
def branchOf (w : Nat) (dir : Nat → Nat) : Nat × Branch :=
  (fld w 0 4,
   { held := fld w 4 1 = 2, scored := bit w 40, nan := bit w 41, tree := fld w 6 2, parent := fld w 8 4, depth := fld w 12 4,
     born := fld w 16 4, ord := fld w 20 2, ret := fld w 24 4, disc := fld w 28 4, score := fld w 32 4, value := fld w 36 4,
     lineage := fld w 48 8, dir := if fld w 56 4 = 0xFFFFFFFF then none else some (dir (fld w 56 4)) })

/-- One object of the section: kind, and the offset of its content. -/
def sectionObjects (m : Memory) : Nat → Nat → List (Nat × Nat)
  | 0, _ => []
  | n + 1, o =>
    let kind := memNat m o 4
    (kind, o + 64) :: sectionObjects m n (o + 64 + if kind = 4 then 65536 else 1024)

/-- References that a forest's entries and branches make to a node or a page (R276: counts are recomputed). -/
def countRefs (l : List Nat) (k : Nat) : Nat := (l.filter (· = k)).length

/-- A forest rebuilt from its section, and the pages' bytes at their new places. -/
def forestOf (base bytes raw : Nat) (sec : List Byte) : Forest × Memory :=
  let f := Forest.new base bytes raw
  let m := memWriteN [] 0 sec
  let nb := memNat m 8 4
  let no := memNat m 12 4
  let head := ceilDiv (16 + 4 * f.treeMax) 64 * 64
  let objs := sectionObjects m no (head + 64 * nb)
  let place (i : Nat) : Nat :=
    let page := (objs.getD i (0, 0)).1 = 4
    ((objs.take i).filter fun o => (o.1 = 4) = page).length
  let entriesOf (o : Nat × Nat) : Tbl Nat := (List.range 256).filterMap fun e =>
    let v := memNat m (o.2 + 4 * e) 4
    if v = 0xFFFFFFFF then none else some (e, place v)
  let nodes := objs.zipIdx.filter fun p => p.1.1 ≠ 4
  let pages := objs.zipIdx.filter fun p => p.1.1 = 4
  let branches := (List.range nb).map fun i => branchOf (memNat m (head + 64 * i) 64) place
  let toNodes := branches.filterMap (·.2.dir) ++ nodes.flatMap fun p => if p.1.1 = 3 then [] else (entriesOf p.1).map (·.2)
  let toPages := nodes.flatMap fun p => if p.1.1 = 3 then (entriesOf p.1).map (·.2) else []
  let f := { f with
    serial := memNat m 0 8
    cycles := (List.range f.treeMax).filterMap fun t =>
      let c := memNat m (16 + 4 * t) 4
      if c = 0 then none else some (t, c)
    branches := branches.foldl (fun t b => tset t b.1 b.2) []
    nodes := nodes.map fun p => (place p.2, ⟨countRefs toNodes (place p.2), entriesOf p.1⟩)
    pages := pages.map fun p => (place p.2, countRefs toPages (place p.2)) }
  (f, pages.foldl (fun d p => memWriteN d (base + f.pageOff + 65536 * place p.2) (memReadN m p.1.2 65536)) [])

/-! ## The stream (Tables 10.5 and 10.6, R276, R277) -/

def MapRec.bytes (x : MapRec) : List Byte :=
  leBytes 8 x.va ++ leBytes 4 x.pages ++ leBytes 1 x.hint ++ leBytes 1 x.attr ++ List.replicate 18 0 ++ leBytes 64 x.raw

/-- The 256-byte header with a digest field. -/
def Snap.header (x : Snap) (digest : List Byte) : List Byte :=
  leBytes 4 0x50414E53 ++ leBytes 2 1 ++ leBytes 1 x.variant ++ leBytes 1 0 ++ leBytes 4 x.devices ++ leBytes 4 x.rank ++
    leBytes 8 x.step ++ leBytes 8 x.seed ++ leBytes 8 x.image ++ leBytes 4 x.maps.length ++ leBytes 4 x.pages.length ++
    leBytes 8 x.forest.length ++ leBytes 8 0 ++ (x.args.flatMap (leBytes 4)) ++ digest ++ List.replicate 112 0

def Snap.mapSection (x : Snap) : List Byte := x.maps.flatMap MapRec.bytes

def Snap.page (x : Snap) (v : Nat) : List Byte := memReadN x.data (v * pageBytes) pageBytes

/-- R277: the digest of a snapshot. -/
def Snap.computeDigest (x : Snap) : List Byte :=
  sha384 (x.header (List.replicate 48 0) ++ x.mapSection ++ x.forest ++ x.pages.flatMap fun v => sha384 (x.page v))

/-- R276: the byte stream. -/
def Snap.stream (x : Snap) : List Byte :=
  padTo pageBytes (x.header x.digest ++ x.mapSection ++ x.forest) ++ x.pages.flatMap x.page

/-- Length of the stream, without writing it out. -/
def Snap.bytes (x : Snap) : Nat := ceilDiv (256 + 96 * x.maps.length + x.forest.length) pageBytes * pageBytes + x.pages.length * pageBytes

/-- The ordinary pages that the map section gives a stream's page section: those that are not SCRATCH (R272). -/
def mapPages (l : List MapRec) : List Nat :=
  l.flatMap fun x => if 1 ≤ x.hint ∧ x.hint ≤ 4 ∧ !bit x.attr 1 then span (x.va / pageBytes) x.pages else []

/-- A stream read back; none where its header is not one or its pages do not agree with its map. -/
def Snap.ofStream (m : Memory) : Option Snap :=
  let nmap := memNat m 40 4
  let maps := (List.range nmap).map fun i =>
    let a := 256 + 96 * i
    (⟨memNat m a 8, memNat m (a + 8) 4, memNat m (a + 12) 1, memNat m (a + 13) 1, memNat m (a + 32) 64⟩ : MapRec)
  let pages := mapPages maps
  let fo := 256 + 96 * nmap
  let fb := memNat m 48 8
  let po := ceilDiv (fo + fb) pageBytes * pageBytes
  if memNat m 0 4 ≠ 0x50414E53 ∨ memNat m 4 2 ≠ 1 ∨ memNat m 44 4 ≠ pages.length then none
  else some
    { variant := memNat m 6 1, devices := memNat m 8 4, rank := memNat m 12 4, step := memNat m 16 8, seed := memNat m 24 8,
      image := memNat m 32 8, args := (List.range 8).map fun i => memNat m (64 + 4 * i) 4, maps := maps,
      forest := memReadN m fo fb, pages := pages,
      data := pages.zipIdx.foldl (fun d p => memWriteN d (p.1 * pageBytes) (memReadN m (po + p.2 * pageBytes) pageBytes)) [],
      digest := memReadN m 96 48, complete := true }

/-! ## The snapshot set (R272) -/

/-- Runs of pages with one class and attribute, in ascending page number. -/
def mapRecsOf : Tbl Page → Option MapRec → List MapRec
  | [], none => []
  | [], some x => [x]
  | (v, p) :: r, none => mapRecsOf r (some ⟨v * pageBytes, 1, p.cls, p.attr, 0⟩)
  | (v, p) :: r, some x =>
    if x.va / pageBytes + x.pages = v ∧ x.hint = p.cls ∧ x.attr = p.attr then mapRecsOf r (some { x with pages := x.pages + 1 })
    else x :: mapRecsOf r (some ⟨v * pageBytes, 1, p.cls, p.attr, 0⟩)

/-- The registration record of a special range as the map section holds it: a window's is its HAUL_PLAN operands. -/
def RoomMem.specialRaw (m : RoomMem) (x : Special) : Nat :=
  if x.hint = 5 then (match tfind m.windows x.base with | some w => w.raw | none => 0) else x.raw

/-- The map of every mapped page and special range, in ascending address. -/
def RoomMem.maps (m : RoomMem) : List MapRec :=
  sortBy (·.va) (mapRecsOf m.pages none ++ m.specials.map fun x => ⟨x.base, x.bytes / pageBytes, x.hint, 0, m.specialRaw x⟩)

/-- The ordinary pages that are not SCRATCH. -/
def RoomMem.setPages (m : RoomMem) : List Nat := (m.pages.filter fun p => !bit p.2.attr 1).map (·.1)

/-- The snapshot of a room at the barrier that ends a step, its digest not yet taken. -/
def State.snapOf (s : State) (r : Nat) (j : Job) : Snap :=
  let x := s.room r
  let pages := x.mem.setPages
  { variant := s.variant, devices := j.devices, rank := j.rank, step := j.step, seed := j.seed, image := j.image, args := j.args,
    maps := x.mem.maps, forest := (match x.forest with | some f => f.secBytes x.mem.data | none => []), pages := pages,
    data := x.mem.data.filter fun c => pages.contains (c.1 / pageBytes), digest := [], complete := false }

/-! ## Slots (R275) -/

def SnapSt.slot (x : SnapSt) (k : Nat) : Option Snap := if k = 0 then x.slotA else x.slotB
def SnapSt.setSlot (x : SnapSt) (k : Nat) (v : Option Snap) : SnapSt := if k = 0 then { x with slotA := v } else { x with slotB := v }

/-- The slot of the next snapshot: A first, then the other than the newest. -/
def SnapSt.next (x : SnapSt) : Nat := if x.newest = some 0 then 1 else 0

/-- Whether the next slot is free. -/
def SnapSt.free (x : SnapSt) : Bool := x.copying.isNone && x.released

/-- The step of the newest complete snapshot. -/
def SnapSt.newestStep (x : SnapSt) : Option Nat := (x.newest.bind x.slot).map (·.step)

/-- The step a device reports at its join (R423): the newest complete local snapshot whose mirror, where it has a buddy, is complete. -/
def SnapSt.report (x : SnapSt) : Option Nat :=
  match x.plan with
  | some p => if p.buddy = 0xFFFFFFFF then x.newestStep else x.mirrored
  | none => x.newestStep

/-- The older slot becomes free once the newer snapshot is complete on every device of the job (R275). -/
def SnapSt.completeAt (x : SnapSt) (complete : Nat) : SnapSt :=
  { x with
    released := x.released || x.newestStep.any (fun n => decide (n ≤ complete))
    held := x.held.filter fun h => decide (complete ≤ h.snap.step) || !(x.held.any fun g => g.rank = h.rank && decide (h.snap.step < g.snap.step) && decide (g.snap.step ≤ complete)) }

/-- Whether the plan in force takes a snapshot at the barrier that ends step `t` (R271). -/
def Room.snapDue (x : Room) (t : Nat) : Bool :=
  match x.mem.snap.plan with
  | some p => decide (p.phase ≤ t) && (t - p.phase) % p.interval == 0
  | none => false

/-- R273 step 3: the barrier waits for its slot under SNAP_PENDING, from now on; before, it waited for its units. -/
def State.snapHold (s : State) (r : Nat) : State :=
  if (s.room r).job.any (·.snapWait) then s
  else (s.stallBarrier r barrierPeer).modRoom r fun x => { x with job := x.job.map fun j => { j with snapWait := true } }

/-- The wait for the slot is over: it is counted against SNAP_PENDING (R264). -/
def State.snapWaited (s : State) (r : Nat) : State :=
  if (s.room r).job.any (·.snapWait) then (s.stallBarrier r snapPending).modRoom r fun x => { x with job := x.job.map fun j => { j with snapWait := false } }
  else s

/-- Whether the forest section would take a poisoned sector (R237). -/
def State.forestSpoilt (s : State) (r : Nat) : Bool :=
  (s.room r).forest.any fun f => f.objects.any fun o => o % 8 == 4 && s.poisoned r (f.pageVa (o / 8)) 65536

/-- R273 step 4: the set marked, every page of it pending; a poisoned sector in the forest's pages is a job fault (R237). -/
def State.markSnap (s : State) (r : Nat) (j : Job) : State :=
  let x := s.snapOf r j
  if s.forestSpoilt r then s.raiseFault r Code.stackUe (136 + s.stackOf r (((s.room r).forest.map fun f => f.pageVa 0).getD 0))
  else
  let s := s.modMem r fun m => { m with snap := { (m.snap.setSlot m.snap.next (some x)) with copying := some m.snap.next, pending := x.pages } }
  s.modRoom r fun y => { y with job := y.job.map fun j => { j with marked := true } }

/-- SNAPSHOT_PAGE_COPIED: the first pending page is in the slot (R273). A poisoned sector in it, or an uncorrectable error of the cellar half that it is
read from, is a job fault; corrected errors are counted (R237, R282). -/
def execSnapshotPageCopied (copy : CopyDone) (s : State) : Host.Outcome State Fault Refusal :=
  .next (
    let room := copy.room
    match (s.room room).mem.snap.pending with
    | [] => s
    | v :: rest =>
      let direct := (s.room room).mem.inHalf copy.cellar.half v
      let s := if direct then s.cellarErrs copy.cellar else s
      if s.poisoned room (v * pageBytes) pageBytes then
        (s.cutSnap room).raiseFault room Code.stackUe (136 + ((s.room room).mem.upperOf v).elim 0 (·.1))
      else if direct && copy.cellar.bad then (s.cutSnap room).raiseFault room Code.cellarUe (cellarUnit copy.cellar.half)
      else
        (s.modMem room fun m => { m with snap := { m.snap with pending := rest } }).chargeHaul room (v * pageBytes) pageBytes)

/-! ## Rebuilding a room (R279 step 3) -/

/-- Every page unmapped and every registration ended. -/
def State.clearRoomMem (s : State) (r : Nat) : State :=
  (s.forgetLost r fun _ => true).modRoom r fun x => { x with
    forest := none
    kernels := []
    mem := { x.mem with pages := [], specials := [], data := [], pinned := [], windows := [], views := [] } }

/-- A descriptor that spells a registration, for the checks and effects the PLACE_HINT had. -/
def MapRec.desc (x : MapRec) : Desc :=
  ⟨0, 0x18 + 2 ^ 64 * x.va + 2 ^ 128 * (x.pages * pageBytes) + 2 ^ 192 * x.hint, false, 0, 0⟩

/-- One page given a frame by its class, as its first write would (R256 to R258). -/
def State.seatPage (s : State) (r v : Nat) : State :=
  match tfind (s.room r).mem.pages v with
  | some p => if p.tier = .zero then s.seat r v p (s.firstFrame r v p) else s
  | none => s

/-- A window's plan attached again from its HAUL_PLAN operands. -/
def State.reattach (s : State) (r base raw : Nat) : State :=
  if raw = 0 then s
  else
    let d : Desc := ⟨0, raw <<< 64, false, 0, 0⟩
    let e := d.fld 48 2
    match s.readAny r (d.fld 16 8) (16 * e) with
    | .ok bs =>
      let plan : HaulPlan := ⟨raw, (haulEntries bs e (d.fld 24 8) (fun _ _ => true)).1, d.fld 50 1, d.fld 24 8, d.fld 32 16, d.fld 51 1, 0, []⟩
      s.modMem r fun m => { m with windows := tset m.windows base plan }
    | .error _ => s

/-- One registration applied again. -/
def State.reRegister (s : State) (r : Nat) (sec : List Byte) (x : MapRec) : Except DescErr State :=
  match x.hint with
  | 0x05 => (s.mapWindow r x.desc).map fun s => s.reattach r x.va x.raw
  | 0x10 => s.addView r x.desc x.raw
  | 0x11 => (s.addForest r x.desc x.raw).map fun s =>
      let (f, d) := forestOf x.va (x.pages * pageBytes) x.raw sec
      (s.modRoom r fun y => { y with forest := some f }).modMem r fun m => { m with data := d.foldl (fun t c => memWrite t c.1 c.2) m.data }
  | 0x12 => s.addKernel r x.desc x.raw
  | _ => .ok s

/-- R279 step 3: the room's memory, forest, views, kernels and windows as the snapshot has them. -/
def State.rebuild (s : State) (r : Nat) (x : Snap) : Except DescErr State :=
  let s := ((s.room r).waitingTrees.foldl (fun s q => s.complete q.1 q.2 stCancelled 0 0 0 0) s).clearRoomMem r
  let plain := x.maps.filter fun m => decide (1 ≤ m.hint) && decide (m.hint ≤ 4)
  let s := plain.foldl (fun s m => s.modMem r fun y => y.addPages (m.va / pageBytes) m.pages m.hint m.attr) s
  if !(s.room r).quotaOk (s.room r).mem then .error (stResourceExhausted, Code.memQuota)
  else
    let s := x.pages.foldl (fun s v => s.seatPage r v) s
    let s := s.modMem r fun m => { m with data := x.data.foldl (fun t c => memWrite t c.1 c.2) [] }
    (x.maps.filter fun m => decide (5 ≤ m.hint)).foldl (fun a m => a.bind fun s => s.reRegister r x.forest m) (.ok s)

/-! ## Modes at a RESTORE (R381) -/

/-- The value of a kind in force at a step: what the first later change replaced, else what is in force now. -/
def Room.modeAt (x : Room) (now kind step : Nat) : Nat :=
  match x.modes.find? fun m => m.kind = kind && m.applied && decide (step < m.epoch) with
  | some m => m.prev
  | none => now

/-- The modes in force at the snapshot's step reinstated, and every later change of the history armed again. -/
def State.rearmModes (s : State) (r step : Nat) : State :=
  let x := s.room r
  let s := [1, 2].foldl (fun s k => s.setMode r k (x.modeAt (s.modeNow k) k step) []) s
  let prec := ((x.modes.filter fun m => m.kind = 4 && m.applied && decide (m.epoch ≤ step)).getLast?.map (·.entries)).getD []
  s.modRoom r fun y => { y with
    precision := prec
    modes := y.modes.map fun m => if step < m.epoch ∧ m.epoch ≠ 0xFFFFFFFF then { m with armed := true, applied := false } else m }

end Sys2Proof.Machine
end

