-- ==== Sys2Proof/Machine/JobStart.lean ====
section
/-! DEFINITION. How an incarnation starts: the core map, the pinned image, the loader, the contexts, and the steps of a RESTORE (R48, R49, R75, R80, R97, R270, R279, R315, R318, R354, R399). -/

namespace Sys2Proof.Machine

/-! ## The core map (R48, R49) -/

/-- Whether a physical core is marked fit. -/
def State.fit (s : State) (die p : Nat) : Bool := tget Fitness.fit s.health.marks (68 * die + p) = .fit

/-- Physical cores a logical core may take, in the order of R48. -/
def coreChoices (l : Nat) : List Nat := if l < 8 then [l, 8, 9] else [l + 2, 66, 67, 8, 9]

/-- Logical cores filled in ascending order; those of `kept` keep their physical core. -/
def fillCores (fit : Nat → Bool) (die : Nat) (kept : Tbl Nat) : List Nat → Tbl Nat → Option (Tbl Nat)
  | [], t => some t
  | l :: rest, t =>
    match tfind kept (die * 64 + l) with
    | some _ => fillCores fit die kept rest t
    | none =>
      match (coreChoices l).find? fun p => fit p && !(t.any fun e => e.1 / 64 = die && e.2 = p) with
      | none => none
      | some p => fillCores fit die kept rest (tset t (die * 64 + l) p)

/-- The map of the logical cores that a running incarnation uses: it holds until that incarnation ends. -/
def State.keptCores (s : State) : Tbl Nat :=
  tfilter s.health.coreMap fun k _ => !(s.core (k / 64 * 128 + k % 64)).ctxs.isEmpty

def State.newCoreMap (s : State) : Option (Tbl Nat) := do
  let kept := s.keptCores
  let a ← fillCores (s.fit 0) 0 kept (List.range 64) kept
  fillCores (s.fit 1) 1 kept (List.range 64) a

/-- Spares newly mapped in, counted and recorded (Tables 20.8, 20.14). -/
def State.noteSpares (s : State) (new : Tbl Nat) : State :=
  new.foldl (fun s e =>
    let l := e.1 % 64
    let die := e.1 / 64
    if e.2 = deliveredCore l ∨ tfind s.health.coreMap e.1 = some e.2 then s
    else
      let code := if tget Fitness.fit s.health.marks (68 * die + deliveredCore l) = .replaced then Code.slowCore else Code.coreRetired
      (s.count (68 * die + e.2) 16 1).healthRecord 4 code (68 * die + e.2) 0xFFFF e.1) s

/-! ## Rows (R238) -/

/-- A bank's number over the stack, from the number of a row: 32,768 rows of 1 KiB to a bank, 48 banks to a pseudo-channel (Table 9.1). -/
def bankOfRow (row : Nat) : Nat := row / 32768

/-- One marked row moved to a spare row of its bank, or its frame withdrawn where all 64 are used. -/
def State.repairRow (s : State) (site : Nat) (m : Nat × Nat) : State :=
  let k := s.stack site
  let used := tget 0 k.rowsUsed (bankOfRow m.2)
  let s := s.healthRecord 3 0 (136 + site) 0xFFFF m.2
  if used < 64 then (s.modStack site fun k => { k with rowsUsed := tset k.rowsUsed (bankOfRow m.2) (used + 1) }).count (136 + site) 13 1
  else s.modStack site fun k => { k with withdrawn := if k.withdrawn.contains m.1 then k.withdrawn else m.1 :: k.withdrawn }

/-- Every marked row repaired at a job start. -/
def State.repairRows (s : State) : State :=
  s.sites.foldl (fun s site =>
    let l := (s.stack site).marked
    let s := l.foldl (fun s m => s.repairRow site m) s
    if l.isEmpty then s else s.modStack site fun k => { k with marked := [], seen := k.seen.filter fun x => !(l.any fun m => m.2 = x.1) }) s

/-! ## Collective programs (R399, Table 16.6) -/

/-- Whether a record breaks Table 16.6 for a job's device count and this device's rank. -/
def collBad (w devices rank : Nat) : Bool :=
  let cop := fld w 0 1
  let gbase := fld w 28 4
  let gs := fld w 32 4
  let n := fld w 36 4
  let root := fld w 40 4
  decide (cop = 0) || decide (4 < cop) || decide (4 ≤ fld w 1 1) || decide (2 < fld w 2 1) || (decide (3 ≤ cop) && fld w 2 1 != 0) ||
    decide (16 ≤ fld w 3 1) || collWidth (fld w 3 1) == 0 || !(cvtByteOk (fld w 4 1)) || bits (fld w 4 1) 5 4 != 0 ||
    decide (16 ≤ fld w 5 1) || !(ctrCoreOk (fld w 6 2)) || fld w 6 2 == 0xFFFF || fld w 8 8 % 64 != 0 || fld w 16 8 % 64 != 0 ||
    fld w 24 4 == 0 || decide (2 ^ 32 < collBytes w) || gs == 0 || decide (n < 2) || decide (262144 < n) ||
    (if cop = 4 then decide (n ≤ root) else root != 0) || fld w 44 20 != 0 ||
    decide (devices ≤ gbase + (n - 1) * gs) || decide (rank < gbase) || (rank - gbase) % gs != 0 || decide (n ≤ (rank - gbase) / gs) ||
    (overlaps (fld w 8 8) (collSrcBytes w) (fld w 16 8) (collDstBytes w) && !(cop == 1 && fld w 8 8 == fld w 16 8))

/-- The room's program as the registers name it, checked: the copied records, or the code it fails with. -/
def State.progOf (s : State) (r devices rank : Nat) (waiver : Option Bool) : Except Nat (List Nat) :=
  let x := s.room r
  if x.progN = 0 then .ok []
  else
    match s.readAny r x.progAddr (64 * x.progN) with
    | .error _ => .error Code.netProg
    | .ok bs =>
      let m := memWriteN [] 0 bs
      let ws := (List.range x.progN).map fun i => memNat m (64 * i) 64
      let post := (pagesOf x.postAddr (64 * x.progN)).all fun p => match tfind x.mem.pages p.1 with
        | some p => p.cls == 2
        | none => false
      if (ws.any fun w => collBad w devices rank) || !post then .error Code.netProg
      else if waiver = some false ∧ ws.any fun w => bit (fld w 1 1) 0 then .error Code.netWaiver
      else .ok ws

/-! ## Starting -/

/-- The incarnation ends before it has started: the room is free again, the descriptor completes. -/
def State.failStart (s : State) (r status detail res0 res1 : Nat) : State :=
  match (s.room r).job with
  | none => s
  | some j =>
    let s := s.modRoom r fun x => { x with
      job := none
      mem := { x.mem with pinned := [] } }
    s.complete j.ring j.seq status detail res0 res1 0

/-- The loader has rejected the image: the incarnation ends, and so do the descriptors that wait on its steps (R97, R315, R318). -/
def State.rejectStart (s : State) (r : Nat) (x : Reject) : State :=
  let s := ((s.dropWaiters r).finish (s.orphans r)).charge r 3 1
  s.failStart r stLoaderReject x.code x.core x.slot

/-- The lowest 64 KiB multiple at which a region fits beside the others, below the itinerary window (R354). -/
def storeBaseOf (core n : Nat) (others : List (Nat × Nat)) : Option Nat :=
  let up (k : Nat) : Nat := ceilDiv k 65536 * 65536
  let fits (b : Nat) : Bool := decide (b + up n ≤ dataLimit core) && !(others.any fun o => overlaps b (up n) o.1 (up o.2))
  (sortBy id (0 :: others.map fun o => o.1 + up o.2)).find? fits

/-- Regions of the rooms resident on a core. -/
def Core.regions (c : Core) : List (Nat × Nat) := c.ctxs.map fun x => (x.2.storeBase, x.2.dataBytes)

/-- Where the first step starts in the body (R80): after the barrier of the step before it. -/
def Itin.startOf (it : Itin) (first barriers : Nat) : Nat :=
  if first = 0 ∨ barriers = 0 then 0
  else
    let bars := it.body.filterMap fun p => match p.word with
      | some (.sync w) => if w.op = 0 then some p.slot else none
      | _ => none
    match bars[(first - 1) % barriers]? with
    | some slot => let o := (slot - it.e.proLen / 32) * 32 + 32; if o < it.e.bodyLen then o else 0
    | none => 0

/-- A context set for an accepted itinerary. -/
def Itin.ctx (it : Itin) (j : Job) (base barriers : Nat) : Ctx :=
  let start := it.startOf j.first barriers
  { incarnation := j.incarn, storeBase := base, dataBytes := it.e.dataBytes, commonBytes := it.e.commonBytes,
    pro := j.image + it.e.proOff, proLen := it.e.proLen, body := j.image + it.e.bodyOff, bodyLen := it.e.bodyLen,
    inPro := it.e.proLen != 0, pc := if it.e.proLen = 0 then start else 0, step := j.first, startPc := start,
    atBarrier := false, stopped := false, flights := [], shape := [], sync := [], errors := 0, saved := none,
    busy := 0, nominal := 0, slowness := [], due := none, readyAt := none, waitAt := none, posters := [], joinedAt := none }

/-- The itineraries placed on their cores; none where the regions left free do not take one. -/
def State.placeItins (s : State) (r : Nat) (j : Job) (barriers : Nat) : List Itin → Except Nat State
  | [] => .ok s
  | it :: rest =>
    let s := s.account it.e.core
    let c := s.core it.e.core
    match storeBaseOf it.e.core it.e.dataBytes c.regions with
    | none => .error it.e.core
    | some b =>
      let c := c.setCtx r (it.ctx j b barriers)
      let c := if c.sel.isNone then { c with sel := some r, since := s.now } else c
      (s.setCore it.e.core c).placeItins r j barriers rest

/-- Descriptors that name a step before the first one, as the incarnation starts (R318). -/
def State.lateSteps (s : State) (r first : Nat) : State :=
  let early (e : Nat) : Bool := decide (e < first) && e != 0xFFFFFFFF
  let x := s.room r
  let joins := (s.startedOf r 0x06).filterMap fun q =>
    if !early (q.2.fld 12 4) then none
    else some (if q.2.fld 8 1 = 0 then (⟨q.1, q.2.seq, stOk, 0⟩ : Done) else ⟨q.1, q.2.seq, stBadDescriptor, Code.stepLate⟩)
  let modes := (x.modes.filter fun m => m.waiting && early m.epoch).map fun m => (⟨m.ring, m.seq, stBadDescriptor, Code.stepLate⟩ : Done)
  let plans := (x.plans.filter fun p => early p.epoch).map fun p => (⟨p.ring, p.seq, stBadDescriptor, Code.stepLate⟩ : Done)
  let paced := match s.sched.pacing with
    | some (q, n, k, e) => if k = r ∧ early e then [(⟨q, n, stBadDescriptor, Code.stepLate⟩ : Done)] else []
    | none => []
  let s := s.modRoom r fun x => { x with
    modes := x.modes.filter fun m => !(m.waiting && early m.epoch)
    plans := x.plans.filter fun p => !early p.epoch }
  let s := if paced.isEmpty then s else { s with sched := { s.sched with pacing := none, pending := false } }
  s.finish (joins ++ modes ++ plans ++ paced)

/-- What the job start gives the loader (R97, R355). -/
def State.loadEnv (s : State) (r : Nat) (j : Job) : LoadEnv :=
  let g := (s.room r).grant
  { variant := s.variant, devices := j.devices, rank := j.rank, mask0 := g.cores0, mask1 := g.cores1,
    common0 := 1048576 * bits g.common 15 8, common1 := 1048576 * bits g.common 31 24,
    resident := s.cores.map fun c => (c.1, (c.2.ctxs.filter fun x => x.1 ≠ r).map fun x => x.2.dataBytes) }

/-- Whether a hold of R352 keeps the start of a room's incarnation. -/
def State.heldStart (s : State) (r : Nat) : Bool := s.sched.pacing.any fun p => p.2.2.1 = r && p.2.2.2 = 0xFFFFFFFF

/-- The loader has accepted the image: the incarnation starts (R270, R315, R318, R365). -/
def State.accept (s : State) (r : Nat) (j : Job) (man : Manifest) (its : List Itin) (prog : List Nat) : State :=
  let s := s.markStarted j.ring j.seq
  let counts (t : Tbl Nat) : Tbl Nat := tmod 0 (if j.restore then t else tmod 0 t 0 (· + 1)) 1 (· + 1)
  let s := s.modRoom r fun x => { x with
    seed := some j.seed
    prog := prog
    coll := []
    job := some { j with
      phase := 1, step := j.first, cores := its.map fun i => i.e.core,
      waiveAdd := bit man.flags 0, waiveLoose := bit man.flags 1, fetchAt := none }
    mem := { x.mem with windows := tmap x.mem.windows fun _ w => { w with started := 0, releases := [] } }
    ledger := { x.ledger with waiver := 0, counts := counts x.ledger.counts } }
  let s := if j.restore then s.rearmModes r (j.first - 1) else s
  let s := s.lateSteps r j.first
  if j.devices ≤ 1 ∧ !s.heldStart r then s.releaseBarrier r none else s

/-- Steps 1 to 4 of a start on one device: the core map, the image pinned, the program, the loader (R48, R75, R97, R399). -/
def State.startJob (s : State) (r : Nat) : State :=
  match (s.room r).job with
  | none => s
  | some j =>
    match s.newCoreMap with
    | none => (s.outOfService Code.coreUnfillable).failStart r stResourceExhausted Code.healthOos 0 0
    | some map =>
      let s := (s.noteSpares map).repairRows
      let s := { s with health := { s.health with coreMap := map } }
      match s.checkRange r j.image 128 false with
      | some c => s.failStart r stAccessFault c 0 0
      | none =>
        let man := Manifest.read (s.room r).mem.data j.image
        let n := if man.length % 32 = 0 ∧ 128 ≤ man.length ∧ man.length ≤ 268435456 then man.length else 128
        match s.checkRange r j.image n false with
        | some c => s.failStart r stAccessFault c 0 0
        | none =>
          if s.poisoned r j.image n then s.failStart r stAccessFault Code.stackUe 0 0
          else
            match s.progOf r j.devices j.rank (some (bit man.flags 1)) with
            | .error c => s.failStart r stBadDescriptor c 0 0
            | .ok prog =>
              let pages := (pagesOf j.image n).map (·.1)
              match s.pinUpper r true pages pages with
              | none => s.failStart r stResourceExhausted Code.memQuota 0 0
              | some s =>
                let s := s.modMem r fun m => { m with pinned := pages }
                match loader (s.room r).mem.data j.image (s.loadEnv r j) with
                | .error x => s.rejectStart r x
                | .ok (man, its) =>
                  match s.placeItins r j man.barriers its with
                  | .error c => s.rejectStart r ⟨Code.coreShared, c, noSlot⟩
                  | .ok t => t.accept r j man its prog

/-! ## The steps of a RESTORE (R279) -/

/-- The complete local snapshot of a step, or the latest: its slot and itself. -/
def SnapSt.find (x : SnapSt) (step : Nat) : Option (Nat × Snap) :=
  let l := ([0, 1].filterMap fun k => (x.slot k).map fun v => (k, v)).filter fun p => p.2.complete && (step = 0xFFFFFFFF || p.2.step = step)
  (sortBy (fun p => 2 ^ 64 - p.2.step) l).head?

/-- Steps 2 to 4 on a snapshot for a slot: shape, digest and errors of the cellar, the room rebuilt, the loader run (R279, R282). -/
def State.restoreFrom (s : State) (r k : Nat) (x : Snap) : State :=
  match (s.room r).job with
  | none => s
  | some j =>
    if x.variant ≠ s.variant ∨ x.devices ≠ j.devices ∨ x.rank ≠ j.rank then s.failStart r stDataError Code.snapShape 0 0
    else
      let s := s.cellarErrs j.check
      if j.check.bad ∨ x.computeDigest ≠ x.digest then s.failStart r stDataError Code.snapDigest 0 0
      else
      match s.rebuild r x with
      | .error e => s.failStart r e.1 e.2 0 0
      | .ok s =>
        let s := s.modMem r fun m => { m with snap := { m.snap.setSlot k (some x) with
          newest := some k, copying := none, pending := [], released := true, mirroring := none, mirrored := some x.step } }
        let s := s.modRoom r fun y => { y with job := y.job.map fun j => { j with
          image := x.image, seed := x.seed, args := x.args, first := x.step + 1, step := x.step + 1 } }
        s.startJob r

/-- A RESTORE from the local slot. -/
def State.restoreLocal (s : State) (r : Nat) : State :=
  match (s.room r).job with
  | none => s
  | some j =>
    match (s.room r).mem.snap.find j.askStep with
    | none => s.failStart r stDataError Code.snapNone 0 0
    | some (k, x) => s.restoreFrom r k x

/-- A mirror stream that has arrived whole: the RESTORE carried on with it, in the free local slot once it has passed its checks. -/
def State.restoreFetched (s : State) (r : Nat) (stream : Memory) : State :=
  match Snap.ofStream stream with
  | none => s.failStart r stDataError Code.snapDigest 0 0
  | some x => s.restoreFrom r (s.room r).mem.snap.next x

end Sys2Proof.Machine
end

