-- ==== Sys2Proof/Machine/Caravan.lean ====
section
/-! DEFINITION. Membership of a caravan (R410 to R418): the checks of a control message, admission, leases, eviction and generations, fencing, probes and reports. -/

namespace Sys2Proof

/-! ## A control message (Tables 17.2 and 17.3) -/

/-- A little-endian field of a packet's payload. -/
def Pkt.num (p : Pkt) (o n : Nat) : Nat := leNat (((p.payload.drop o).take n).map (BitVec.ofNat 8))

def Pkt.ctype (p : Pkt) : Nat := p.num 0 2
def Pkt.cjob (p : Pkt) : Nat := p.num 4 4
def Pkt.cinc (p : Pkt) : Nat := p.num 8 4
def Pkt.cseq (p : Pkt) : Nat := p.num 12 4
/-- A field of the body. -/
def Pkt.arg (p : Pkt) (o n : Nat) : Nat := p.num (16 + o) n
def Pkt.body (p : Pkt) : List Byte := (p.payload.drop 16).map (BitVec.ofNat 8)

/-- The reserved body bytes of KEY and BAR_JOIN (Table 17.3); JOIN's carry its sender's laggard mark. -/
def Pkt.bodyRsvd (p : Pkt) : Nat := if p.ctype = 0x06 then p.arg 1 7 else if p.ctype = 0x14 then p.arg 29 3 else 0

end Sys2Proof

namespace Sys2Proof.Machine

/-- Bytes of the body that a type requires (Table 17.3); none for an undefined type. -/
def ctrlBody (p : Pkt) : Option Nat :=
  match p.ctype with
  | 0x01 => some 56
  | 0x02 => some 8
  | 0x03 => some 2
  | 0x04 => some 12
  | 0x05 => some 12
  | 0x06 => some 48
  | 0x07 => some (8 + 4 * p.arg 4 4)
  | 0x08 => some 6
  | 0x09 => some 8
  | 0x0A => some 8
  | 0x0B => some 8
  | 0x0C => some 2
  | 0x0D => some 1
  | 0x10 => some 76
  | 0x11 => some 17
  | 0x12 => some (8 + 4 * p.arg 4 4)
  | 0x14 => some 32
  | 0x15 => some 8
  | 0x16 => some 10
  | 0x17 => some 10
  | _ => none

/-- Whether a packet type is one of Table 16.3. -/
def ptypeOk (t : Nat) : Bool := [1, 2, 3, 4, 5, 6, 8].contains t

/-- The membership generation of one message is newer than another's (modulo 2^32). -/
def newer (a b : Nat) : Bool := decide (0 < (a + 2 ^ 32 - b) % 2 ^ 32) && decide ((a + 2 ^ 32 - b) % 2 ^ 32 < 2 ^ 31)

/-- RENEW sent to the lease giver (R416). -/
def State.sendRenew (s : State) : State :=
  if s.caravan.member && !s.caravan.isHead then
    let s := s.ctrlSend s.caravan.giver s.caravan.mid 0x04 0 0 none (leBytes 4 s.caravan.generation ++ leBytes 8 s.now)
    { s with caravan := { s.caravan with renewAt := s.now } }
  else s

/-- Events counted in a running second: their start and count. -/
def countSecond (now : Nat) (x : Nat × Nat) : Nat × Nat := if x.1 + 1000000000 ≤ now then (now, 1) else (x.1, x.2 + 1)

/-- The checks of R390 on a CTRL packet, as R413 and R414 adapt them. -/
def State.ctrlCheck (s : State) (p : Pkt) : State × Bool :=
  let keys := tfind s.caravan.links p.src
  if p.proto ≠ 1 ∨ p.plen ≠ p.udp ∨ !ptypeOk p.ptype then (s.netCount 0, false)
  else if p.ptype ≠ 8 then (s, false)
  else if p.job ≠ 0 ∨ keys.isNone then (s.netCount 1, false)
  else if !((tget ⟨[], 0, []⟩ s.caravan.links p.src).gens.contains p.kgen) then (s.netCount 2, false)
  else if !p.auth then (s.netCount 3, false)
  else if p.pflags / 4 ≠ 0 ∨ p.psn / 2 ^ 40 ≠ 0 ∨ p.num 2 2 ≠ 0 ∨ p.bodyRsvd ≠ 0 ∨ p.dst ≠ s.caravan.mid then (s.netCount 0, false)
  else if p.ctype ≠ 1 ∧ !((List.range 24).any fun q => s.caravan.addrOf p.src q = p.ip) then (s.netCount 4, false)
  else if p.mgen ≠ s.caravan.generation ∧ p.src ≠ s.caravan.giver ∧ p.ctype ≠ 1 ∧ p.ctype ≠ 4 then
    let s := s.netCount 5
    (if newer p.mgen s.caravan.generation then s.sendRenew else s, false)
  else
    let c := countSecond s.now (tget (s.now, 0) s.net.ctrlIn p.src)
    let s := { s with net := { s.net with ctrlIn := tset s.net.ctrlIn p.src c } }
    if 20000 < c.2 then (s.netCount 7, false)
    else
      match ctrlBody p with
      | none => (s.netCount 0, false)
      | some n => if p.payload.length < 16 + n ∨ 8176 < n then (s.netCount 0, false) else (s, true)

/-- The member a message comes from: its sender, or the one a manager passes it on for. -/
def State.originOf (s : State) (p : Pkt) : Nat := if p.src % 16384 = 0 ∧ p.src ≠ s.caravan.mid then p.remote else p.src

/-- A message that passes its checks, and is of its row's type, has its effect. -/
def State.ctrlRow (s : State) (p : Pkt) (ctype : Nat) (f : State → State) : State :=
  let (s, ok) := s.ctrlCheck p
  if ok && p.ctype == ctype then f s else s

/-- A message of the head or a manager to another member, passed on by its manager (R413). -/
def State.passDown (s : State) (p : Pkt) (body : List Byte) : State :=
  s.ctrlSend p.remote p.remote p.ctype p.cjob p.cinc (some p.cseq) body

/-- A message to the head, passed on by the sender's manager (R413). -/
def State.passUp (s : State) (p : Pkt) (body : List Byte) : State :=
  s.ctrlSend 0 (s.originOf p) p.ctype p.cjob p.cinc (some p.cseq) body

/-- A message from above: passed on by a manager where it is for another member, else acted on; none from elsewhere. -/
def State.fromAbove (s : State) (p : Pkt) (ctype : Nat) (f : State → State) : State :=
  s.ctrlRow p ctype fun s =>
    if s.caravan.isHead ∨ p.src ≠ s.caravan.giver then s
    else if s.caravan.isManager && p.remote != s.caravan.mid then s.passDown p p.body
    else f s

/-- A message for the head: passed up by a manager, acted on at the head. -/
def State.toHead (s : State) (p : Pkt) (ctype : Nat) (f : State → State) : State :=
  s.ctrlRow p ctype fun s =>
    if s.caravan.isHead then f s
    else if s.caravan.isManager && managerOf p.src == s.caravan.mid then s.passUp p p.body
    else s

/-- Whether this device is a member's lease giver (R415). -/
def State.gives (s : State) (mid : Nat) : Bool :=
  s.caravan.isManager && mid != s.caravan.mid && (if mid % 16384 = 0 then s.caravan.isHead else managerOf mid == s.caravan.mid)

/-! ## Job keys (R404, R421) -/

/-- A key generation installed: the last two are kept; one equal to a live generation is refused (R404, R461). -/
def Keys.install (k : Keys) (gen now : Nat) (key : List Nat) : Keys :=
  if k.gens.contains gen then k else ⟨(gen :: k.gens).take 2, now, (key :: k.keys).take 2⟩

/-- A job key installed; its rooms send under it from then on. A generation equal to a live one changes nothing (R404). -/
def State.installJobKey (s : State) (tag gen : Nat) (key : List Nat) : State :=
  if (tget ⟨[], 0, []⟩ s.net.jobKeys tag).gens.contains gen then s
  else
    let s := { s with net := { s.net with jobKeys := tmod ⟨[], 0, []⟩ s.net.jobKeys tag fun k => k.install gen s.now key } }
    (allRooms.filter fun r => (s.room r).job.any fun j => j.tag = tag && decide (0 < tag)).foldl
      (fun s r => s.modRoom r fun x => { x with job := x.job.map fun j => { j with kgen := gen } }) s

/-- The current link key toward a member. -/
def State.linkKey (s : State) (mid : Nat) : List Nat := ((tget ⟨[], 0, []⟩ s.caravan.links mid).keys.head?).getD []

/-- A key wrapped, or unwrapped, under a link key (RFC 3394). -/
def wrapKey (link key : List Nat) : List Byte := ((Config.crypto "RFC 3394 wrap" (link ++ key) ++ List.replicate 40 0).take 40).map (BitVec.ofNat 8)
def unwrapKey (link : List Nat) (w : List Byte) : List Nat := (Config.crypto "RFC 3394 unwrap" (link ++ w.map BitVec.toNat) ++ List.replicate 32 0).take 32

/-- A new generation of a job's key, drawn by the head and installed on the job's members by KEY (R417, R421). -/
def State.newJobKey (s : State) (tag : Nat) : State :=
  match tfind s.caravan.jobs tag with
  | none => s
  | some h =>
    let gen := (h.kgen + 1) % 256
    let (v, s) := s.draw
    let key := (leBytes 32 v).map BitVec.toNat
    let s := { s with caravan := { s.caravan with jobs := tset s.caravan.jobs tag { h with kgen := gen } } }
    (dedup (h.map.map (·.2))).foldl (fun s mid =>
      if mid = s.caravan.mid then s.installJobKey tag gen key
      else s.ctrlDown mid 0x06 tag h.incarn none
        (leBytes 1 gen ++ List.replicate 7 0 ++ wrapKey (s.linkKey (s.caravan.downward mid)) key)) s

/-- KEY: installed, or wrapped again for the member it is for (R421). -/
def execKey (p : Pkt) (s : State) : Host.Outcome State Fault Refusal :=
  .next (s.ctrlRow p 0x06 fun s =>
    if s.caravan.isHead ∨ p.src ≠ s.caravan.giver then s
    else
      let key := unwrapKey (s.linkKey p.src) ((p.body.drop 8).take 40)
      if s.caravan.isManager && p.remote != s.caravan.mid then s.passDown p (p.body.take 8 ++ wrapKey (s.linkKey p.remote) key)
      else s.installJobKey p.cjob (p.arg 0 1) key)

/-- REKEY at the head: the next generation, where the one in use is still the newest (R421). -/
def execRekey (p : Pkt) (s : State) : Host.Outcome State Fault Refusal :=
  .next (s.toHead p 0x0D fun s =>
    if (tfind s.caravan.jobs p.cjob).any fun h => h.kgen = p.arg 0 1 then s.newJobKey p.cjob else s)

/-- The older of two generations is erased 2 s after the newer one was installed (R404). -/
def Keys.overlapEnd (k : Keys) (now : Nat) : Keys :=
  if k.installed + 2000000000 ≤ now then { k with gens := k.gens.take 1, keys := k.keys.take 1 } else k

/-- KEY_OVERLAP_END of a link key (by member) or a job key (by tag). -/
def execKeyOverlapEnd (link : Bool) (tag at_ : Nat) (s : State) : Host.Outcome State Fault Refusal :=
  let s := s.upto at_
  .next (
    if link then
      (match tfind s.caravan.links tag with
      | some k => { s with caravan := { s.caravan with links := tset s.caravan.links tag (k.overlapEnd s.now) } }
      | none => s)
    else
      match tfind s.net.jobKeys tag with
      | some k => { s with net := { s.net with jobKeys := tset s.net.jobKeys tag (k.overlapEnd s.now) } }
      | none => s)

/-! ## Eviction and generations (R417) -/

/-- A list cut into pieces of `n`. -/
def pieces {α : Type} (n : Nat) : Nat → List α → List (List α)
  | 0, _ => []
  | k + 1, l => if l.isEmpty then [] else l.take n :: pieces n k (l.drop n)

/-- GEN messages that carry a generation and a list of evicted members. -/
def genBodies (gen : Nat) (mids : List Nat) : List (List Byte) :=
  let ps := pieces 2042 mids.length mids
  (if ps.isEmpty then [[]] else ps).map fun l => leBytes 4 gen ++ leBytes 4 l.length ++ l.flatMap (leBytes 4)

def State.sendGen (s : State) (mid : Nat) (cseq : Option Nat) (mids : List Nat) : State :=
  (genBodies s.caravan.generation mids).foldl (fun s b => s.ctrlSend mid mid 0x07 0 0 cseq b) s

/-- The head's order on an eviction: aborts, new keys, the next generation (R417). -/
def State.headEvict (s : State) (mids : List Nat) : State :=
  let held := s.caravan.jobs.filterMap fun j =>
    match j.2.map.find? fun p => mids.contains p.2 with
    | some p => if j.2.running then some (j.1, p.1) else none
    | none => none
  let s := held.foldl (fun s p => s.headAbort p.1 p.2 Code.memberLost) s
  let s := { s with caravan := { s.caravan with
    jobs := tmap s.caravan.jobs fun _ h => { h with
      map := tfilter h.map fun _ m => !mids.contains m
      joins := h.joins.filter fun x => !mids.contains x.mid } } }
  let s := held.foldl (fun s p => s.newJobKey p.1) s
  let s := { s with caravan := { s.caravan with
    generation := (s.caravan.generation + 1) % 2 ^ 32
    evicted := dedup (s.caravan.evicted ++ mids) } }
  s.caravan.members.foldl (fun s m => s.sendGen m.1 none mids) s

/-- A lease giver evicts a member; a manager passes the eviction to the head (R417). -/
def State.evict (s : State) (mid : Nat) : State :=
  if (tfind s.caravan.members mid).isNone then s
  else
    let s := { s with caravan := { s.caravan with members := tdel s.caravan.members mid, lags := tdel s.caravan.lags mid } }
    if s.caravan.isHead then s.headEvict (if mid % 16384 = 0 then span mid 16384 else [mid])
    else s.ctrlSend 0 mid 0x0C 0 0 none (leBytes 2 Code.fenceEvicted)

/-- A generation and a list of the evicted applied (R417): the generation if newer, the list added. -/
def State.applyGen (s : State) (g : Nat) (mids : List Nat) : State :=
  { s with caravan := { s.caravan with
    generation := if newer g s.caravan.generation then g else s.caravan.generation
    evicted := dedup (s.caravan.evicted ++ mids) } }

/-- The list a GEN carries (Table 17.3). -/
def genList (p : Pkt) : List Nat := (List.range (p.arg 4 4)).map fun i => p.arg (8 + 4 * i) 4

/-- GEN: the generation applied, its list added, and a manager's members told (R417, Table 17.3). -/
def execGen (p : Pkt) (s : State) : Host.Outcome State Fault Refusal :=
  .next (s.ctrlRow p 0x07 fun s =>
    if s.caravan.isHead ∨ p.src ≠ s.caravan.giver then s
    else s.caravan.members.foldl (fun s m => s.ctrlSend m.1 m.1 0x07 0 0 none p.body) (s.applyGen (p.arg 0 4) (genList p)))

/-- LEAVE: the member is evicted at once; from a manager it passes on an eviction of its caravan (R416, R417). -/
def execLeave (p : Pkt) (s : State) : Host.Outcome State Fault Refusal :=
  .next (s.ctrlRow p 0x0C fun s =>
    let mid := s.originOf p
    if s.gives mid then s.evict mid
    else if s.caravan.isHead && p.src == managerOf mid then s.headEvict [mid]
    else s)

/-! ## Fencing (R418) -/

/-- The device fences: its multi-device incarnations end, its keys and its membership go. -/
def State.fenceOff (s : State) (code : Nat) : State :=
  let rs := allRooms.filter fun r => (s.room r).job.any fun j => decide (1 < j.devices)
  let s := rs.foldl (fun s r => s.endJob r stFenced code [] (((s.room r).job.map (·.released)).getD none)) s
  { s with
    net := { s.net with jobKeys := [], flows := [], left := [] }
    caravan := { s.caravan with
      links := [], tries := [], maps := [], member := false, members := [], bars := [], lags := [], reported := [], marked := [],
      releases := [], retryAt := some s.now } }

/-! ## Admission (R415) -/

/-- The mask of enabled ports that ADMIT carries. -/
def State.portMask (s : State) : Nat := sumNat (s.netPorts.map fun q => if bit (s.port q).cfg 31 then 2 ^ q else 0)

/-- SHA-384 of the running image, as JOIN and ADMIT carry it. -/
def State.fwDigest (s : State) : List Byte :=
  match s.stewards.fw with
  | some f => f.digest
  | none => List.replicate 48 0

/-- Bytes of a nonce: a free value. -/
def State.drawBytes (s : State) (n : Nat) : List Nat × State :=
  let (v, s) := s.draw
  ((leBytes n v).map BitVec.toNat, s)

/-- The device asks for admission: the nonce that opens the link agreement (R415, R463). The head needs none. -/
def State.beginAdmission (s : State) : State :=
  if s.caravan.role ≠ 1 ∧ s.caravan.role ≠ 2 ∨ s.caravan.member ∨ !s.stewards.ready ∨ s.health.oos then s
  else if s.caravan.isHead then { s with caravan := { s.caravan with member := true, retryAt := none } }
  else
    let (n, s) := s.drawBytes 48
    let g := s.caravan.giver
    let t : LinkTry := ⟨true, n, [], 1, 1, s.now, [], n⟩
    let s := { s with caravan := { s.caravan with tries := tset s.caravan.tries g t, retryAt := none } }
    s.emit (.link g 1 n)

/-- ADMIT sent to the lease giver. -/
def State.sendAdmit (s : State) : State :=
  s.ctrlSend s.caravan.giver s.caravan.mid 0x01 0 0 none
    (leBytes 1 s.variant ++ leBytes 1 s.caravan.role ++ leBytes 2 s.caravan.memberNo ++ leBytes 4 s.portMask ++ s.fwDigest)

/-- Why an ADMIT is refused, in the order of R415. -/
def State.admitRefusal (s : State) (p : Pkt) : Option Nat :=
  let mid := p.src
  let c := s.caravan
  if (tfind c.tries mid).any fun t => t.stage = 9 then some Code.admitAttest
  else if p.arg 2 2 ≠ mid % 16384 ∨ p.arg 1 1 ≠ (if mid % 16384 = 0 then 2 else 1) ∨ c.ncaravans ≤ mid / 16384 then some Code.admitRole
  else if (tfind c.members mid).isSome then some Code.admitDuplicate
  else if !((List.range 24).any fun q => bit (p.arg 4 4) q && c.addrOf mid q == p.ip) then some Code.admitAddress
  else none

/-- ADMIT at a lease giver. -/
def execAdmitMember (p : Pkt) (s : State) : Host.Outcome State Fault Refusal :=
  .next (s.ctrlRow p 0x01 fun s =>
    if !s.gives p.src then s
    else
      match s.admitRefusal p with
      | some c => s.ctrlSend p.src p.src 0x03 0 0 (some p.cseq) (leBytes 2 c)
      | none =>
        let m : Member := ⟨s.now + 2000000000, 0, 0, 0, []⟩
        let s := { s with caravan := { s.caravan with
          members := tset s.caravan.members p.src m, tries := tdel s.caravan.tries p.src, evicted := s.caravan.evicted.filter (· ≠ p.src),
          marked := s.caravan.marked.filter (· ≠ p.src), reported := s.caravan.reported.filter (· ≠ p.src), lags := tdel s.caravan.lags p.src } }
        s.ctrlSend p.src p.src 0x02 0 0 (some p.cseq) (leBytes 4 s.caravan.generation ++ leBytes 4 p.src))

/-- ADMITTED: the device becomes a standby member at the current generation. -/
def execAdmitted (p : Pkt) (s : State) : Host.Outcome State Fault Refusal :=
  .next (s.ctrlRow p 0x02 fun s =>
    if s.caravan.isHead ∨ p.src ≠ s.caravan.giver ∨ s.caravan.member then s
    else { s with caravan := { s.caravan with
      member := true, generation := p.arg 0 4, expiry := s.now + 2000000000, renewAt := s.now, retryAt := none } })

/-- A starting descriptor refused at the head: its status by the code (R419, R420). -/
def State.refuseJoin (s : State) (r code : Nat) : State :=
  s.failStart r (if code = Code.carAssembly then stTimeout else if code = Code.snapNone then stDataError else stBadDescriptor) code 0 0

/-- REFUSED: an answer to a JOIN, by its count, or to the ADMIT (R415, R419). -/
def execRefused (p : Pkt) (s : State) : Host.Outcome State Fault Refusal :=
  .next (s.fromAbove p 0x03 fun s =>
    match allRooms.find? fun r => (s.room r).job.any fun j => decide (1 < j.devices) && j.phase = 0 && j.tag = 0 && j.joinSeq = p.cseq with
    | some r => s.refuseJoin r (p.arg 0 2)
    | none => if s.caravan.member then s else { s with caravan := { s.caravan with retryAt := some s.now } })

/-- ADMIT_RETRY: 10 s after a refusal or a fence the device asks again. -/
def execAdmitRetry (at_ : Nat) (s : State) : Host.Outcome State Fault Refusal :=
  let s := s.upto at_
  .next (
    match s.caravan.retryAt with
    | some t => if t + 10000000000 ≤ s.now then s.beginAdmission else s
    | none => s)

/-! ## Leases (R416) -/

def execRenewTimer (at_ : Nat) (s : State) : Host.Outcome State Fault Refusal :=
  let s := s.upto at_
  .next (if s.caravan.renewAt + 250000000 ≤ s.now then s.sendRenew else s)

/-- RENEW at a lease giver: GRANT, GEN or FENCE. -/
def execRenew (p : Pkt) (s : State) : Host.Outcome State Fault Refusal :=
  .next (s.ctrlRow p 0x04 fun s =>
    if !s.gives p.src then s
    else
      match tfind s.caravan.members p.src with
      | none =>
        let s := s.ctrlSend p.src p.src 0x08 0 0 (some p.cseq) (leBytes 4 s.caravan.generation ++ leBytes 2 Code.fenceEvicted)
        { s with caravan := { s.caravan with links := tdel s.caravan.links p.src } }
      | some m =>
        if p.arg 0 4 = s.caravan.generation then
          let e := p.arg 4 8 + 2000000000
          let s := { s with caravan := { s.caravan with members := tset s.caravan.members p.src { m with expiry := Nat.max m.expiry e } } }
          s.ctrlSend p.src p.src 0x05 0 0 (some p.cseq) (leBytes 4 s.caravan.generation ++ leBytes 8 e)
        else s.sendGen p.src (some p.cseq) s.caravan.evicted)

/-- GRANT: the lease runs to the latest expiry granted; an expiry already reached wins (R418, R428). -/
def execGrant (p : Pkt) (s : State) : Host.Outcome State Fault Refusal :=
  .next (s.ctrlRow p 0x05 fun s =>
    if s.caravan.isHead ∨ p.src ≠ s.caravan.giver ∨ !s.caravan.member then s
    else if s.caravan.expiry ≤ s.now then s.fenceOff Code.fenceLease
    else { s with caravan := { s.caravan with expiry := Nat.max s.caravan.expiry (p.arg 4 8) } })

/-- LEASE_LAPSE: 250 ms past a member's latest expiry with no RENEW accepted. -/
def execLeaseLapse (mid at_ : Nat) (s : State) : Host.Outcome State Fault Refusal :=
  let s := s.upto at_
  .next (if (tfind s.caravan.members mid).any fun m => decide (m.expiry + 250000000 ≤ s.now) then s.evict mid else s)

/-! ## Probes and reports (R417, Table 17.5) -/

def State.modMember (s : State) (mid : Nat) (f : Member → Member) : State :=
  match tfind s.caravan.members mid with
  | some m => { s with caravan := { s.caravan with members := tset s.caravan.members mid (f m) } }
  | none => s

/-- PROBE sent to a member, and counted. -/
def State.sendProbe (s : State) (mid : Nat) : State :=
  (s.ctrlSend mid mid 0x09 0 0 none (leBytes 8 s.now)).modMember mid fun m => { m with
    probes := m.probes + 1, probeFirst := if m.probes = 0 then s.now else m.probeFirst, probeLast := s.now }

/-- PROBE, answered. -/
def execProbe (p : Pkt) (s : State) : Host.Outcome State Fault Refusal :=
  .next (s.ctrlRow p 0x09 fun s =>
    if p.src ≠ s.caravan.giver ∨ s.caravan.isHead then s
    else s.ctrlSend p.src s.caravan.mid 0x0A 0 0 (some p.cseq) (p.body.take 8))

/-- PROBE_ACK: the report is recorded instead of an eviction. -/
def execProbeAck (p : Pkt) (s : State) : Host.Outcome State Fault Refusal :=
  .next (s.ctrlRow p 0x0A fun s =>
    match tfind s.caravan.members p.src with
    | some m => if m.probes = 0 then s else (s.modMember p.src fun m => { m with probes := 0 }).healthRecord 8 Code.netPeerLost 0xFFFF 0xFFFF p.src
    | none => s)

/-- PROBE_RESEND: the second and third PROBE, 10 ms apart. -/
def execProbeResend (mid at_ : Nat) (s : State) : Host.Outcome State Fault Refusal :=
  let s := s.upto at_
  .next (if (tfind s.caravan.members mid).any fun m => (m.probes = 1 || m.probes = 2) && decide (m.probeLast + 10000000 ≤ s.now)
    then s.sendProbe mid else s)

/-- PROBE_TIMEOUT: 30 ms after the first PROBE. -/
def execProbeTimeout (mid at_ : Nat) (s : State) : Host.Outcome State Fault Refusal :=
  let s := s.upto at_
  .next (if (tfind s.caravan.members mid).any fun m => m.probes ≠ 0 && decide (m.probeFirst + 30000000 ≤ s.now) then s.evict mid else s)

/-- The member that holds a rank of a job, as a manager or the head knows it. -/
def State.midOfRank (s : State) (tag rank : Nat) : Option Nat :=
  match tfind s.caravan.jobs tag with
  | some h => tfind h.map rank
  | none => tfind (tget [] s.caravan.maps tag) rank

/-- A report about a member, at its lease giver. -/
def State.actReport (s : State) (mid by_ kind : Nat) : State :=
  match tfind s.caravan.members mid with
  | none => s
  | some m =>
    match kind with
    | 1 => if m.probes = 0 then s.sendProbe mid else s
    | 2 =>
      let l := (by_, s.now) :: m.reports.filter fun q => decide (s.now ≤ q.2 + 10000000000) && q.1 != by_
      let s := s.modMember mid fun m => { m with reports := l }
      if 3 ≤ l.length then s.evict mid else s
    | _ => s.healthRecord 8 0 0xFFFF 0xFFFF mid

/-- A report goes to the lease giver of the member it is about: acted on here, or passed on. -/
def State.routeReport (s : State) (tag by_ rank kind flow : Nat) : State :=
  let body := leBytes 4 rank ++ leBytes 2 kind ++ leBytes 2 flow
  match s.midOfRank tag rank with
  | none => if s.caravan.isHead ∨ !s.caravan.isManager then s else s.ctrlSend 0 by_ 0x0B tag 0 none body
  | some mid =>
    if s.gives mid then s.actReport mid by_ kind
    else if s.caravan.isHead then (if mid = s.caravan.mid then s else s.ctrlSend (managerOf mid) by_ 0x0B tag 0 none body)
    else s.ctrlSend 0 by_ 0x0B tag 0 none body

/-- REPORT at a manager. -/
def execReport (p : Pkt) (s : State) : Host.Outcome State Fault Refusal :=
  .next (s.ctrlRow p 0x0B fun s =>
    if s.caravan.isManager then s.routeReport p.cjob (s.originOf p) (p.arg 0 4) (p.arg 4 2) (p.arg 6 2) else s)

/-- This device reports a peer's rank to its manager (R393, R407). -/
def State.reportPeer (s : State) (tag rank kind flow : Nat) : State :=
  if !s.caravan.member then s
  else if s.caravan.isManager then s.routeReport tag s.caravan.mid rank kind flow
  else s.ctrlUp 0x0B tag 0 none (leBytes 4 rank ++ leBytes 2 kind ++ leBytes 2 flow)

end Sys2Proof.Machine
end

