-- ==== Sys2Proof/Machine/Net.lean ====
section
/-! DEFINITION. The Omhel transport (R387 to R398, R404 to R407): sending, receiving, retransmission, congestion, host transfers, and what the ports answer. -/

namespace Sys2Proof.Machine

def noKeys : Keys := ⟨[], 0, []⟩

/-- The table key of a room's flow toward a peer. -/
def flowKey (r peer flow : Nat) : Nat := r * 2 ^ 34 + peer * 2 ^ 16 + flow

def State.flow (s : State) (k : Nat) : Flow := tget Flow.reset s.net.flows k
def State.setFlow (s : State) (k : Nat) (f : Flow) : State := { s with net := { s.net with flows := tset s.net.flows k f } }
def State.modFlow (s : State) (k : Nat) (g : Flow → Flow) : State := s.setFlow k (g (s.flow k))

/-! ## Sending -/

/-- A packet of a job toward a peer: the header of Table 16.2, `psn` and path still open. -/
def State.jobPkt (s : State) (j : Job) (peer flow ptype : Nat) (body : List Byte) : Pkt :=
  { port := 0, ip := s.caravan.addrOf (tget 0 j.ranks peer) 0, proto := 1, ptype := ptype, pflags := 0, kgen := j.kgen, mgen := s.caravan.generation,
    job := j.tag, incarn := j.incarn, src := j.rank, dst := peer, flow := flow, plen := body.length, psn := 0, msg := 0, off := 0, rdig := 0,
    remote := 0, udp := body.length, sport := 0, auth := true, ce := false, payload := body.map BitVec.toNat }

/-- The summed payload rate of the active ports, bytes per second (Table 16.1). -/
def State.lineRate (s : State) : Nat :=
  sumNat (s.activePorts.map fun q =>
    let c := (s.port q).cfg
    if bit c 30 then (if bits c 11 0 = 0 then 98200000000 else 98150000000) else if bits c 11 0 = 0 then 98440000000 else 98390000000)

/-- The bytes of a message from an offset, read from its source at each sending (R394). -/
def State.msgBytes (s : State) (r peer : Nat) (m : SendMsg) (off n : Nat) : Except Nat (List Byte) :=
  let snap := (s.room r).mem.snap
  match m.kind with
  | 0 => s.readAny r (m.src + off) n
  | 1 =>
    match snap.held.find? fun h => h.rank = peer && h.snap.step = m.src with
    | some h => .ok ((h.snap.stream.drop off).take n)
    | none => .error Code.snapNone
  | _ =>
    match snap.slot m.src with
    | some x => .ok ((x.stream.drop off).take n)
    | none => .error Code.snapNone

/-- A PSN space of the flow has reached 2^39 (R389). -/
def Flow.spent (f : Flow) : Bool := f.psn.any fun p => decide (2 ^ 39 ≤ p.2)

/-- Whether the PSN space of a packet type has reached 2^39 and waits for a new key generation (R389). -/
def Flow.blocked (f : Flow) (ptype kgen : Nat) : Bool := decide (2 ^ 39 ≤ tget 0 f.psn ptype) && f.rekeyed == some kgen

/-- REKEY asked for, once, as a PSN space reaches 2^39 (R389, R421). -/
def State.askRekey (s : State) (k : Nat) (j : Job) : State :=
  let f := s.flow k
  if !f.spent ∨ f.rekeyed.isSome then s
  else
    let s := s.setFlow k { f with rekeyed := some j.kgen }
    if s.caravan.isHead then s.newJobKey j.tag else s.ctrlUp 0x0D j.tag j.incarn none (leBytes 1 j.kgen)

/-- A job's packet sent on a flow, unless its PSN space waits for a new key generation. -/
def State.sendJob (s : State) (k : Nat) (j : Job) (p : Pkt) : State :=
  (if (s.flow k).blocked p.ptype j.kgen then s else s.sendOut k p).askRekey k j

/-- One payload of a message sent, with its place in the retransmission list; a source that cannot be read gives its code. -/
def State.sendData (s : State) (r : Nat) (j : Job) (peer flow : Nat) (m : SendMsg) (off tries first : Nat) : State × Option Nat :=
  let n := Nat.min 8192 (m.bytes - off)
  match s.msgBytes r peer m off n with
  | .error c => (s, some c)
  | .ok bs =>
    let k := flowKey r peer flow
    let f := s.flow k
    let l := s.paths
    let path := match l[f.spread % l.length]? with
      | some (q, e) => 16 * q + e
      | none => 0
    let u : Unacked := ⟨tget 0 f.psn 1, m.msg, off, n, s.now, tries, first, path⟩
    let s := if m.kind = 0 then s.chargeNormal r (m.src + off) n else s
    let s := s.sendOut k { s.jobPkt j peer flow 1 bs with
      pflags := b2n (off + n == m.bytes) + 2 * b2n m.loose, msg := m.msg, off := off, rdig := m.rdig, remote := m.remote }
    let s := s.modFlow k fun f => { f with unacked := f.unacked ++ [u], rate := if f.rate = 0 then s.lineRate else f.rate }
    (((s.askRekey k j).charge r 12 n).spend (arbNet (path / 16)) r n, none)

/-- A message given up: its descriptor, or its job, learns the code. -/
def State.dropSend (s : State) (r peer flow : Nat) (m : SendMsg) (status code : Nat) : State :=
  let s := s.modFlow (flowKey r peer flow) fun f => { f with
    sends := f.sends.filter fun x => x.msg ≠ m.msg, unacked := f.unacked.filter fun u => u.msg ≠ m.msg }
  match m.desc with
  | some (q, n) => s.complete q n status code 0 0 0
  | none => if m.kind = 0 && decide (0x8000 ≤ flow) && decide (flow < 0x8100) then s.raiseFault r code 152 else s

/-- Payloads not yet sent leave while the receiver's window of 4,096 PSNs holds them (Table 16.9). -/
def State.pump (s : State) (r peer flow : Nat) : Nat → State
  | 0 => s
  | n + 1 =>
    match (s.room r).job with
    | none => s
    | some j =>
      let f := s.flow (flowKey r peer flow)
      if 4096 ≤ f.unacked.length ∨ f.blocked 1 j.kgen ∨ j.faulted then s
      else
        match f.sends.find? fun m => decide (m.sent < m.bytes) with
        | none => s
        | some m =>
          match s.sendData r j peer flow m m.sent 0 s.now with
          | (s, some c) => (s.dropSend r peer flow m stAccessFault c).pump r peer flow n
          | (s, none) =>
            (s.modFlow (flowKey r peer flow) fun f => { f with
              sends := f.sends.map fun x => if x.msg = m.msg then { x with sent := Nat.min x.bytes (x.sent + 8192) } else x }).pump r peer flow n

/-- A message queued on a flow, and what of it fits sent. -/
def State.sendMsg (s : State) (r peer flow : Nat) (m : SendMsg) : State :=
  (s.modFlow (flowKey r peer flow) fun f => { f with sends := f.sends ++ [m] }).pump r peer flow 4096

/-- The next message number of a flow taken. -/
def State.takeMsg (s : State) (k : Nat) : Nat × State :=
  let n := (s.flow k).nextMsg
  (n, s.modFlow k fun f => { f with nextMsg := f.nextMsg + 1 })

/-- A GETREQ sent, or sent again (R393, R398). -/
def State.sendGet (s : State) (r : Nat) (j : Job) (peer flow : Nat) (g : GetReq) : State :=
  let k := flowKey r peer flow
  let n := tget 0 (s.flow k).psn 4
  let s := s.sendJob k j { s.jobPkt j peer flow 4 (leBytes 8 g.remote ++ leBytes 8 g.bytes) with pflags := 1, msg := g.msg }
  s.modFlow k fun f => { f with gets := { g with psn := n, sent := s.now } :: f.gets.filter fun x => x.msg ≠ g.msg }

/-! ## NET_POST (R398) -/

/-- A NET_POST's checks, those of R398 before that of Table 12.5 (R312), and the transfer begun. -/
def State.netPost (s : State) (ring : Nat) (d : Desc) : State :=
  let r := (s.ring ring).room
  match (s.room r).job with
  | none => s.done ring d stBadDescriptor Code.netNojob
  | some j =>
    let nop := d.fld 8 1
    let flow := d.fld 10 2
    let peer := d.fld 12 4
    let n := d.fld 32 8
    if j.tag = 0 ∨ j.phase = 0 ∨ j.faulted then s.done ring d stBadDescriptor Code.netNojob
    else if 0x7FFF < flow ∨ 1 < nop ∨ j.devices ≤ peer ∨ peer = j.rank then s.done ring d stBadDescriptor Code.netFlow
    else if n = 0 ∨ 2 ^ 32 < n then s.done ring d stBadDescriptor Code.descOperand
    else
      match s.accessCheck r (d.fld 16 8) n (nop == 1) with
      | .error c => s.done ring d stAccessFault c
      | .ok _ =>
        let s := s.markStarted ring d.seq
        let k := flowKey r peer flow
        let (m, s) := s.takeMsg k
        if nop = 0 then
          s.sendMsg r peer flow ⟨m, d.fld 16 8, d.fld 24 8, n, 0, 0, 0, false, some (ring, d.seq)⟩
        else
          s.sendGet r j peer flow ⟨some (ring, d.seq), 2 ^ 31 + m, d.fld 16 8, d.fld 24 8, n, false, 0, s.now, 0, none, none⟩

/-- PUT (R398); a reserved operation is refused here too. -/
def execPut (ring : Nat) (s : State) : Host.Outcome State Fault Refusal :=
  .next (match s.canStartOp ring 0x30 fun d => d.fld 8 1 != 1 with
    | none => s
    | some d => s.netPost ring d)

/-- GET (R398). -/
def execGet (ring : Nat) (s : State) : Host.Outcome State Fault Refusal :=
  .next (match s.canStartOp ring 0x30 fun d => d.fld 8 1 == 1 with
    | none => s
    | some d => s.netPost ring d)

/-! ## Unreachable peers (R393) -/

/-- A peer declared unreachable on a flow. -/
def State.unreachable (s : State) (r peer flow : Nat) : State :=
  match (s.room r).job with
  | none => s
  | some j =>
    let k := flowKey r peer flow
    let f := s.flow k
    let s := s.setFlow k { f with unacked := [], sends := [], gets := [] }
    let s := s.finish ((f.sends.filterMap (·.desc) ++ f.gets.filterMap (·.desc)).map fun d => ⟨d.1, d.2, stTimeout, Code.netPeerTimeout⟩)
    let s := s.reportPeer j.tag peer 1 flow
    if 0x8000 ≤ flow ∧ flow < 0x8100 then s.raiseFault r Code.netPeerLost 152 else s

/-! ## Paths and rate (R395) -/

/-- A packet lost on a path: the second within 1 ms leaves the path out for 100 ms. -/
def State.pathLoss (s : State) (path : Nat) : State :=
  let q := path / 16
  let e := path % 16
  let x := s.port q
  let again := (tfind x.losses e).any fun t => decide (s.now ≤ t + 1000000)
  let x := { x with losses := tset x.losses e s.now, out := if again then tset x.out e (s.now + 100000000) else x.out }
  { s with net := { s.net with ports := tset s.net.ports q x } }

def execPathReturn (port path at_ : Nat) (s : State) : Host.Outcome State Fault Refusal :=
  let s := s.upto at_
  let x := s.port port
  .next (if (tfind x.out path).any fun t => decide (t ≤ s.now)
    then { s with net := { s.net with ports := tset s.net.ports port { x with out := tdel x.out path } } } else s)

/-- `on_ack` of R395. -/
def Flow.onAckRate (f : Flow) (now ce acked : Nat) : Flow :=
  if 0 < ce ∧ f.tDec + 10000 ≤ now then
    { f with rate := Nat.max (if acked = 0 then 0 else f.rate - ceilDiv (f.rate * ce) (2 * acked)) 125000000, tDec := now }
  else f

/-- RATE_INCREASE: 20 µs without a decrease. -/
def execRateIncrease (room peer flow at_ : Nat) (s : State) : Host.Outcome State Fault Refusal :=
  let s := s.upto at_
  let k := flowKey room peer flow
  .next (
    match tfind s.net.flows k with
    | none => s
    | some f =>
      if f.rate = 0 ∨ s.now < Nat.max f.tInc f.tDec + 20000 then s
      else s.setFlow k { f with rate := Nat.min (f.rate + 625000000) s.lineRate, tInc := s.now })

/-! ## Retransmission (R393) -/

/-- A payload sent again under a new PSN. -/
def State.resend (s : State) (r : Nat) (j : Job) (peer flow : Nat) (u : Unacked) : State :=
  let k := flowKey r peer flow
  let s := (s.pathLoss u.path).netCount 9
  let s := s.modFlow k fun f => { f with unacked := f.unacked.filter fun x => x.psn ≠ u.psn }
  match (s.flow k).sends.find? fun m => m.msg = u.msg with
  | none => s
  | some m =>
    match s.sendData r j peer flow m u.off (u.tries + 1) u.first with
    | (s, some c) => s.dropSend r peer flow m stAccessFault c
    | (s, none) => s

/-- The timer of a transmission: 100 µs, doubled with each retransmission up to 12.8 ms. -/
def ladder (tries : Nat) : Nat := 100000 * 2 ^ Nat.min tries 7

def execRetransmitTimer (room peer flow psn at_ : Nat) (s : State) : Host.Outcome State Fault Refusal :=
  let s := s.upto at_
  .next (
    match (s.room room).job with
    | none => s
    | some j =>
      let k := flowKey room peer flow
      let f := s.flow k
      let slow (f : Flow) : Flow := { f with rate := Nat.max (f.rate / 2) 125000000 }
      match f.unacked.find? fun u => u.psn = psn && decide (u.sent + ladder u.tries ≤ s.now) with
      | some u => if 7 ≤ u.tries then s.unreachable room peer flow else (s.modFlow k slow).resend room j peer flow u
      | none =>
        match f.gets.find? fun g => g.psn = psn && !g.answered && g.busyAt.isNone && decide (g.sent + ladder g.tries ≤ s.now) with
        | some g =>
          if 7 ≤ g.tries then s.unreachable room peer flow
          else ((s.modFlow k slow).netCount 9).sendGet room j peer flow { g with tries := g.tries + 1 }
        | none => s)

/-- GETREQ_RETRY: 100 µs after a BUSY the request is sent again. -/
def execGetreqRetry (room peer flow at_ : Nat) (s : State) : Host.Outcome State Fault Refusal :=
  let s := s.upto at_
  .next (
    match (s.room room).job with
    | none => s
    | some j =>
      match (s.flow (flowKey room peer flow)).gets.find? fun g => g.busyAt.any fun t => decide (t + 100000 ≤ s.now) with
      | some g => s.sendGet room j peer flow { g with busyAt := none }
      | none => s)

/-! ## Acknowledging (R392) -/

/-- ACK (2) or NACK (3) of a flow: the cumulative PSN is the lowest not yet received, the bitmap starts at the PSN after it. -/
def State.sendAck (s : State) (r : Nat) (j : Job) (peer flow ptype : Nat) : State :=
  let k := flowKey r peer flow
  let f := s.flow k
  let map := sumNat (f.above.map fun n => if n < f.cum + 129 then 2 ^ (n - f.cum - 1) else 0)
  let s := s.sendJob k j (s.jobPkt j peer flow ptype (leBytes 8 f.cum ++ leBytes 16 map ++ leBytes 4 f.ceBytes ++ leBytes 4 0))
  s.modFlow k fun f => { f with
    since := if ptype = 2 then 0 else f.since, firstUn := if ptype = 2 then none else f.firstUn, ceBytes := 0,
    nackAt := if ptype = 3 then some s.now else f.nackAt }

def execAckTimer (room peer flow at_ : Nat) (s : State) : Host.Outcome State Fault Refusal :=
  let s := s.upto at_
  .next (
    match (s.room room).job with
    | none => s
    | some j =>
      if (s.flow (flowKey room peer flow)).firstUn.any fun t => decide (t + 4000 ≤ s.now) then s.sendAck room j peer flow 2 else s)

def execNackTimer (room peer flow at_ : Nat) (s : State) : Host.Outcome State Fault Refusal :=
  let s := s.upto at_
  .next (
    match (s.room room).job with
    | none => s
    | some j =>
      let f := s.flow (flowKey room peer flow)
      if (f.missing.any fun t => decide (t + 20000 ≤ s.now)) && f.nackAt.all fun t => decide (t + 20000 ≤ s.now)
      then s.sendAck room j peer flow 3 else s)

/-- The PSNs above the cumulative one drawn in while they continue it. -/
def advance (above : List Nat) : Nat → Nat → Nat × List Nat
  | 0, cum => (cum, above)
  | n + 1, cum => if above.contains cum then advance (above.filter (· ≠ cum)) n (cum + 1) else (cum, above)

/-- A DATA packet's PSN received. -/
def Flow.gotPsn (f : Flow) (now psn plen : Nat) (ce : Bool) : Flow :=
  let (cum, above) := if psn < f.cum ∨ f.above.contains psn then (f.cum, f.above) else advance (psn :: f.above) (f.above.length + 1) f.cum
  { f with
    cum := cum, above := above, since := f.since + 1, firstUn := some (f.firstUn.getD now), ceBytes := f.ceBytes + (if ce then plen else 0),
    missing := if above.isEmpty then none else if cum = f.cum then some (f.missing.getD now) else some now }

/-! ## Receiving (Table 16.5) -/

/-- The room to which a job tag is bound. -/
def State.roomOfTag (s : State) (tag : Nat) : Option (Nat × Job) :=
  firstSome (fun r => match (s.room r).job with
    | some j => if j.tag = tag ∧ tag ≠ 0 ∧ 1 < j.devices then some (r, j) else none
    | none => none) allRooms

/-- Bytes a packet's payload must have, by type (Table 16.3). -/
def payloadNeed (ptype : Nat) : Nat :=
  match ptype with
  | 2 => 32
  | 3 => 32
  | 4 => 16
  | 5 => 8
  | _ => 0

/-- RSVD fields of a packet: flags, PSN, and those of its payload. -/
def rsvdSet (p : Pkt) : Bool :=
  p.pflags / 4 != 0 || p.psn / 2 ^ 40 != 0 || ((p.ptype == 2 || p.ptype == 3) && p.num 28 4 != 0) || (p.ptype == 5 && p.num 2 6 != 0)

/-- Flows of Table 16.4 that carry job traffic. -/
def flowOk (flow : Nat) : Bool := decide (flow < 0x8100) || flow == 0xFFF0

/-- An authenticated malformed packet of a peer: counted, reported past 100 in one second (R407). -/
def State.malformed (s : State) (r : Nat) (j : Job) (p : Pkt) : State :=
  let s := s.netCount 0
  let k := r * 2 ^ 18 + p.src
  let c := countSecond s.now (tget (s.now, 0) s.net.faulty k)
  let s := { s with net := { s.net with faulty := tset s.net.faulty k c } }
  if c.2 = 101 then s.reportPeer j.tag p.src 2 p.flow else s

/-- A mirror fetch of a job that a turnover took from this device: after its checks, the answer that no snapshot is held (R341, Table 13.9). -/
def State.onLeft (s : State) (p : Pkt) : State :=
  match tfind s.net.left p.job with
  | none => s.netCount 1
  | some rank =>
    let keys := tget noKeys s.net.jobKeys p.job
    if !keys.gens.contains p.kgen then s.netCount 2
    else if !p.auth then s.netCount 3
    else if rsvdSet p ∨ p.dst ≠ rank ∨ p.payload.length < payloadNeed 4 then s.netCount 0
    else
      let back := tget 0 (tget [] s.caravan.maps p.job) p.src
      if !((List.range 24).any fun q => s.caravan.addrOf back q = p.ip) then s.netCount 4
      else if p.mgen ≠ s.caravan.generation then
        let s := s.netCount 5
        if newer p.mgen s.caravan.generation then s.sendRenew else s
      else
        let body := leBytes 2 Code.snapNone ++ List.replicate 6 0
        s.sendOut ((64 + p.job) * 2 ^ 34 + p.src * 2 ^ 16 + 0xFFF0)
          { port := 0, ip := s.caravan.addrOf back 0, proto := 1, ptype := 5, pflags := 0, kgen := (keys.gens.head?).getD 0,
            mgen := s.caravan.generation, job := p.job, incarn := p.incarn, src := rank, dst := p.src, flow := 0xFFF0, plen := 8, psn := 0,
            msg := p.msg, off := 0, rdig := 0, remote := 0, udp := 8, sport := 0, auth := true, ce := false, payload := body.map BitVec.toNat }

/-- Checks 1 to 8 of Table 16.5 on a packet of a row's type. -/
def State.pktCheck (s : State) (p : Pkt) (ptype : Nat) : State × Option (Nat × Job) :=
  if p.proto ≠ 1 ∨ p.plen ≠ p.udp ∨ !ptypeOk p.ptype then (s.netCount 0, none)
  else if p.ptype ≠ ptype then (s, none)
  else
    match s.roomOfTag p.job with
    | none => (if ptype = 4 ∧ p.flow = 0xFFF0 then s.onLeft p else s.netCount 1, none)
    | some (r, j) =>
      if !((tget noKeys s.net.jobKeys p.job).gens.contains p.kgen) then (s.netCount 2, none)
      else if !p.auth then
        let s := s.netCount 3
        let k := r * 2 ^ 18 + p.src
        let c := countSecond s.now (tget (s.now, 0) s.net.hostile k)
        let s := { s with net := { s.net with hostile := tset s.net.hostile k c } }
        (if c.2 = 1001 then s.reportPeer j.tag p.src 3 p.flow else s, none)
      else if rsvdSet p ∨ p.dst ≠ j.rank ∨ p.payload.length < payloadNeed p.ptype ∨ 8192 < p.plen ∨ p.off % 8192 ≠ 0 ∨ !flowOk p.flow then
        (s.malformed r j p, none)
      else if !((tfind j.ranks p.src).any fun m => (List.range 24).any fun q => s.caravan.addrOf m q = p.ip) then (s.netCount 4, none)
      else if p.mgen ≠ s.caravan.generation then
        let s := s.netCount 5
        (if newer p.mgen s.caravan.generation then s.sendRenew else s, none)
      else if p.incarn ≠ j.incarn ∨ j.faulted then (s.netCount 6, none)
      else (s, some (r, j))

/-- A packet that passes its checks has its effect. -/
def State.pktRow (s : State) (p : Pkt) (ptype : Nat) (f : State → Nat → Job → State) : State :=
  match s.pktCheck p ptype with
  | (s, some (r, j)) => f s r j
  | (s, none) => s

/-- REFUSE, answering a message or a request with a code (R391). -/
def State.sendRefuse (s : State) (r : Nat) (j : Job) (p : Pkt) (code : Nat) : State :=
  s.sendJob (flowKey r p.src p.flow) j { s.jobPkt j p.src p.flow 5 (leBytes 2 code ++ List.replicate 6 0) with msg := p.msg }

/-! ## DATA (R391) -/

/-- CRC-32 of IEEE 802.3, one bit at a time. -/
def crcStep (c : Nat) : Nat := if c % 2 = 1 then (c / 2) ^^^ 0xEDB88320 else c / 2

def crc32 (l : List Byte) : Nat :=
  (l.foldl (fun c b => crcStep (crcStep (crcStep (crcStep (crcStep (crcStep (crcStep (crcStep (c ^^^ b.toNat))))))))) 0xFFFFFFFF) ^^^ 0xFFFFFFFF

/-- The record digest of R400: bytes 0 to 4 and 24 to 43. -/
def recordDigest (w : Nat) : Nat := crc32 (leBytes 5 (w % 2 ^ 40) ++ leBytes 20 (fld w 24 20))

/-- A message's receiving record, and the change of it. -/
def Flow.recv (f : Flow) (msg : Nat) : RecvMsg := (f.recvs.find? fun m => m.msg = msg).getD ⟨msg, [], none, false, []⟩
def Flow.setRecv (f : Flow) (m : RecvMsg) : Flow := { f with recvs := m :: f.recvs.filter fun x => x.msg ≠ m.msg }

/-- Every byte of a message has been placed. -/
def RecvMsg.whole (m : RecvMsg) : Bool := m.bytes.any fun n => decide (ceilDiv n 8192 ≤ m.placed.length)

/-- A mirror stream that has come whole: held, and its digest acknowledged or refused (R278). -/
def State.holdMirror (s : State) (r : Nat) (j : Job) (p : Pkt) (stream : Memory) : State :=
  match Snap.ofStream stream with
  | some x =>
    if x.computeDigest = x.digest then
      (s.modMem r fun m => { m with snap := { m.snap with
        held := ⟨p.src, x⟩ :: (m.snap.held.filter fun h => h.rank ≠ p.src) ++ (m.snap.held.filter fun h => h.rank = p.src).take 1 } }).sendAck r j p.src p.flow 2
    else s.sendRefuse r j p Code.snapDigest
  | none => s.sendRefuse r j p Code.snapDigest

/-- The bytes of a DATA packet placed, by the use of its flow (Table 16.4): the state, and the code of a refusal. -/
def State.placeData (s : State) (r : Nat) (p : Pkt) : State × Option Nat :=
  let k := flowKey r p.src p.flow
  let bs := p.payload.map (BitVec.ofNat 8)
  if p.flow < 0x8000 then
    if 2 ^ 31 ≤ p.msg then
      match (s.flow k).gets.find? fun g => g.msg = p.msg with
      | none => (s, none)
      | some g =>
        let w := (s.chargeNormal r (g.dst + p.off) bs.length).writeAny r (g.dst + p.off) bs
        (w.s.modFlow k fun f => { f with
          gets := f.gets.map fun x => if x.msg = g.msg then { x with answered := true, busySince := none } else x }, w.code)
    else
      match s.checkRange r (p.remote + p.off) bs.length true with
      | some c => (s, some c)
      | none => ((s.chargeNormal r (p.remote + p.off) bs.length).writeVa r (p.remote + p.off) bs, none)
  else if p.flow = 0xFFF0 then
    let m := (s.flow k).recv p.msg
    let s := s.modFlow k fun f => { f with
      gets := f.gets.map fun x => if x.msg = p.msg then { x with answered := true, busySince := none } else x }
    (s.modFlow k fun f => f.setRecv { m with data := memWriteN m.data p.off bs }, none)
  else (s, none)

/-- A GET whose bytes this device's own memory refuses ends with that code (R391, R398). -/
def State.failGet (s : State) (r : Nat) (p : Pkt) (code : Nat) : State :=
  let k := flowKey r p.src p.flow
  match (s.flow k).gets.find? fun g => g.msg = p.msg with
  | none => s
  | some g =>
    let s := s.modFlow k fun f => { f with gets := f.gets.filter fun x => x.msg ≠ g.msg }
    match g.desc with
    | some (q, n) => s.complete q n stAccessFault code 0 0 0
    | none => s

/-- What the last placed byte of a message brings: a GET's completion, a mirror held, a fetched snapshot. -/
def State.wholeMsg (s : State) (r : Nat) (j : Job) (p : Pkt) (m : RecvMsg) : State :=
  let k := flowKey r p.src p.flow
  if p.flow < 0x8000 then
    match (s.flow k).gets.find? fun g => g.msg = p.msg with
    | none => s
    | some g =>
      let s := s.modFlow k fun f => { f with gets := f.gets.filter fun x => x.msg ≠ g.msg }
      match g.desc with
      | some (q, n) => s.complete q n stOk 0 0 0 0
      | none => s
  else if p.flow = 0xFFF0 then
    if 2 ^ 31 ≤ p.msg then
      (s.modFlow k fun f => { f with gets := f.gets.filter fun x => x.msg ≠ p.msg }).restoreFetched r m.data
    else s.holdMirror r j p m.data
  else s

/-- Flows of a peer, or of the device, that hold packets not acknowledged (Table 16.9). -/
def State.busyFlows (s : State) (p : Nat → Bool) : Nat := (s.net.flows.filter fun f => p f.1 && f.2.since != 0).length

/-- A DATA packet that passes check 8 (R391, R392). -/
def State.onData (s : State) (r : Nat) (j : Job) (p : Pkt) : State :=
  let k := flowKey r p.src p.flow
  let f := s.flow k
  let s := if p.ce then s.netCount 10 else s
  if f.cum + 4096 ≤ p.psn then s.netCount 7
  else if f.since = 0 ∧ (256 ≤ s.busyFlows (fun x => x / 2 ^ 16 = k / 2 ^ 16) ∨ 65536 ≤ s.busyFlows fun _ => true) then s.netCount 7
  else
    let s := (s.modFlow k fun f => f.gotPsn s.now p.psn p.plen p.ce).charge r 13 p.plen
    let ack (s : State) : State := if 16 ≤ (s.flow k).since then s.sendAck r j p.src p.flow 2 else s
    let m := f.recv p.msg
    if m.refused ∨ m.placed.contains p.off then ack s
    else if p.flow ≥ 0x8000 ∧ p.flow < 0x8100 ∧ recordDigest ((s.room r).prog.getD (p.flow - 0x8000) 0) ≠ p.rdig then
      s.raiseFault r Code.netMismatch (152 + p.port / 8)
    else if p.flow = 0xFFF0 ∧ p.msg < 2 ^ 31 ∧ (s.room r).mem.snap.plan.all fun q => decide (q.mirrorBytes < p.off + p.plen) then
      s.raiseFault r Code.snapOversize noUnit
    else
      match s.placeData r p with
      | (s, some c) => ack (((s.modFlow k fun f => f.setRecv { m with refused := true }).failGet r p c).sendRefuse r j p c)
      | (s, none) =>
        let m := { (s.flow k).recv p.msg with
          placed := p.off :: m.placed, bytes := if bit p.pflags 0 then some (p.off + p.plen) else m.bytes }
        let s := s.modFlow k fun f => f.setRecv m
        let s := ack s
        if m.whole then s.wholeMsg r j p m else s

def execData (p : Pkt) (s : State) : Host.Outcome State Fault Refusal := .next (s.pktRow p 1 fun s r j => s.onData r j p)

/-! ## ACK and NACK (R393) -/

/-- Messages all of whose bytes are acknowledged: their descriptors complete. -/
def State.finishSends (s : State) (r peer flow : Nat) : State :=
  let k := flowKey r peer flow
  let f := s.flow k
  let ended (m : SendMsg) : Bool := decide (m.bytes ≤ m.sent) && !(f.unacked.any fun u => u.msg = m.msg)
  let s := s.setFlow k { f with sends := f.sends.filter fun m => !ended m }
  s.finish ((f.sends.filter ended).filterMap fun m => m.desc.map fun d => ⟨d.1, d.2, stOk, 0⟩)

/-- What an ACK or NACK shows: acknowledged payloads leave, missing ones are sent again, the rate follows the CE marks. -/
def State.onAck (s : State) (r : Nat) (j : Job) (p : Pkt) : State :=
  let cum := p.num 0 8
  let map := p.num 8 16
  let shown (n : Nat) : Bool := decide (n < cum) || (decide (cum < n) && bit map (n - cum - 1))
  let missing (n : Nat) : Bool := !shown n && map != 0 && decide (n < cum + 1 + map.log2)
  let k := flowKey r p.src p.flow
  let f := s.flow k
  let acked := sumNat ((f.unacked.filter fun u => shown u.psn).map (·.bytes))
  let lost := f.unacked.filter fun u => missing u.psn
  let s := s.setFlow k ({ f with unacked := f.unacked.filter fun u => !shown u.psn }.onAckRate s.now (p.num 24 4) acked)
  let s := lost.foldl (fun s u => s.resend r j p.src p.flow u) s
  (s.finishSends r p.src p.flow).pump r p.src p.flow 4096

def execAck (p : Pkt) (s : State) : Host.Outcome State Fault Refusal := .next (s.pktRow p 2 fun s r j => s.onAck r j p)
def execNack (p : Pkt) (s : State) : Host.Outcome State Fault Refusal := .next (s.pktRow p 3 fun s r j => s.onAck r j p)

/-! ## GETREQ, REFUSE and BUSY (R391, R393, R398) -/

/-- GET requests of a peer being served, over its flows. -/
def State.servedGets (s : State) (r peer : Nat) : Nat :=
  sumNat ((s.net.flows.filter fun f => f.1 / 2 ^ 16 = flowKey r peer 0 / 2 ^ 16).map fun f => (f.2.sends.filter fun m => 2 ^ 31 ≤ m.msg).length)

/-- GETREQ: the bytes sent as one message, BUSY, or REFUSE. On the mirror flow the address is the snapshot's step. -/
def State.onGetreq (s : State) (r : Nat) (j : Job) (p : Pkt) : State :=
  let k := flowKey r p.src p.flow
  let remote := p.num 0 8
  let n := p.num 8 8
  if (s.flow k).sends.any fun m => m.msg = p.msg then s
  else if 16 ≤ s.servedGets r p.src then s.sendJob k j { s.jobPkt j p.src p.flow 6 [] with msg := p.msg }
  else if p.flow = 0xFFF0 then
    match (s.room r).mem.snap.held.find? fun h => h.rank = p.src && h.snap.step = remote with
    | none => s.sendRefuse r j p Code.snapNone
    | some h => s.sendMsg r p.src p.flow ⟨p.msg, remote, 0, h.snap.bytes, 0, 1, 0, false, none⟩
  else
    match s.checkRange r remote n false with
    | some c => s.sendRefuse r j p c
    | none => if n = 0 then s else s.sendMsg r p.src p.flow ⟨p.msg, remote, 0, n, 0, 0, 0, false, none⟩

def execGetreq (p : Pkt) (s : State) : Host.Outcome State Fault Refusal := .next (s.pktRow p 4 fun s r j => s.onGetreq r j p)

/-- REFUSE: the transfer completes with ACCESS_FAULT and the peer's code; a refused mirror fetch ends its RESTORE. -/
def State.onRefuse (s : State) (r : Nat) (p : Pkt) : State :=
  let k := flowKey r p.src p.flow
  let code := p.num 0 2
  match (s.flow k).gets.find? fun g => g.msg = p.msg with
  | some g =>
    let s := s.modFlow k fun f => { f with gets := f.gets.filter fun x => x.msg ≠ g.msg }
    (match g.desc with
    | some (q, n) => s.complete q n stAccessFault code 0 0 0
    | none => s.failStart r stDataError code 0 0)
  | none =>
    if p.flow = 0xFFF0 then s
    else
      match (s.flow k).sends.find? fun m => m.msg = p.msg with
      | some m => s.dropSend r p.src p.flow m stAccessFault code
      | none => s

def execRefuse (p : Pkt) (s : State) : Host.Outcome State Fault Refusal := .next (s.pktRow p 5 fun s r _ => s.onRefuse r p)

/-- BUSY: the request waits 100 µs; 2 s of nothing else and the peer is unreachable. -/
def State.onBusy (s : State) (r : Nat) (p : Pkt) : State :=
  let k := flowKey r p.src p.flow
  match (s.flow k).gets.find? fun g => g.msg = p.msg with
  | none => s
  | some g =>
    let since := g.busySince.getD s.now
    if since + 2000000000 ≤ s.now then s.unreachable r p.src p.flow
    else s.modFlow k fun f => { f with
      gets := f.gets.map fun x => if x.msg = g.msg then { x with busySince := some since, busyAt := some s.now, tries := 0 } else x }

def execBusy (p : Pkt) (s : State) : Host.Outcome State Fault Refusal := .next (s.pktRow p 6 fun s r _ => s.onBusy r p)

/-! ## What the ports answer (R387) -/

/-- An ARP request answered for the device's own address. -/
def execArp (port addr : Nat) (s : State) : Host.Outcome State Fault Refusal :=
  .next (if s.netPorts.contains port ∧ bit (s.port port).cfg 31 ∧ (s.port port).ip4 = addr ∧ addr ≠ 0 then s.emit (.answer 1 port addr) else s)

/-- IPv6 neighbour discovery answered for the device's own address. -/
def execNeighbourDiscovery (port addr : Nat) (s : State) : Host.Outcome State Fault Refusal :=
  .next (if s.netPorts.contains port ∧ bit (s.port port).cfg 31 ∧ (s.port port).ip6 = addr ∧ addr ≠ 0 then s.emit (.answer 2 port addr) else s)

/-- An echo request to one of the port's addresses, answered at most 100 times a second. -/
def execIcmpEcho (port addr at_ : Nat) (s : State) : Host.Outcome State Fault Refusal :=
  let s := s.upto at_
  let x := s.port port
  .next (
    if !s.netPorts.contains port ∨ !bit x.cfg 31 ∨ addr = 0 ∨ (x.ip4 ≠ addr ∧ x.ip6 ≠ addr) then s
    else
      let c := countSecond s.now x.echo
      let s := { s with net := { s.net with ports := tset s.net.ports port { x with echo := c } } }
      if c.2 ≤ 100 then s.emit (.answer 3 port addr) else s)

/-- Anything else that arrives is dropped and counted. -/
def execOtherFrame (port : Nat) (s : State) : Host.Outcome State Fault Refusal :=
  .next (if s.netPorts.contains port then s.netCount 8 else s)

/-- A port gains or loses link (R508, Table 16.10). -/
def execPortLink (port : Nat) (up : Bool) (s : State) : Host.Outcome State Fault Refusal :=
  .next (if s.netPorts.contains port then
    { s with net := { s.net with ports := tset s.net.ports port { s.port port with link := up && bit (s.port port).cfg 31 } } } else s)

end Sys2Proof.Machine
end

