-- ==== Sys2Proof/Machine/Assembly.lean ====
section
/-! DEFINITION. LAUNCH and RESTORE, the assembly of a job at the head, and the path of a job fault between devices (R279, R315, R419 to R422, R427 to R429). -/

namespace Sys2Proof.Machine

/-! ## Messages of the assembly -/

/-- A JOIN as the head takes it. -/
structure JoinMsg where
  mid : Nat
  cseq : Nat
  seed : Nat
  devices : Nat
  rank : Nat
  incarn : Nat
  step : Nat
  kind : Nat
  variant : Nat
  /-- The sender's manager has marked it for replacement (R426). -/
  marked : Bool
  fw : List Nat
deriving DecidableEq, Repr

def JoinMsg.body (m : JoinMsg) : List Byte :=
  leBytes 8 m.seed ++ leBytes 4 m.devices ++ leBytes 4 m.rank ++ leBytes 4 m.incarn ++ leBytes 4 m.step ++ leBytes 1 m.kind ++
    leBytes 1 m.variant ++ leBytes 2 (b2n m.marked) ++ (m.fw.map (BitVec.ofNat 8) ++ List.replicate 48 0).take 48

def JoinMsg.ofPkt (p : Pkt) (mid : Nat) : JoinMsg :=
  ⟨mid, p.cseq, p.arg 0 8, p.arg 8 4, p.arg 12 4, p.arg 16 4, p.arg 20 4, p.arg 24 1, p.arg 25 1, p.arg 26 2 != 0,
    ((p.payload.drop 44).take 48)⟩

/-! ## START on a device (R421) -/

/-- The mirror of a snapshot asked of its holder over Omhel (R279 step 1). -/
def State.fetchMirror (s : State) (r : Nat) : State :=
  match (s.room r).job with
  | none => s
  | some j =>
    let (m, s) := s.takeMsg (flowKey r j.holder 0xFFF0)
    let s := s.modRoom r fun x => { x with job := x.job.map fun j => { j with fetchAt := some s.now } }
    s.sendGet r j j.holder 0xFFF0 ⟨none, 2 ^ 31 + m, 0, j.askStep, 0, false, 0, s.now, 0, none, none⟩

/-- The steps of a RESTORE from its source (R279); a job of one device has no holder to ask. -/
def State.restoreSteps (s : State) (r : Nat) : State :=
  match (s.room r).job with
  | none => s
  | some j =>
    if j.source = 0 then s.restoreLocal r
    else if j.devices ≤ 1 then s.failStart r stDataError Code.snapNone 0 0
    else s.fetchMirror r

/-- START binds the tag to the room and begins the loader or the steps of the RESTORE. -/
def State.startOf (s : State) (tag incarn step buddy kgen cseq : Nat) : State :=
  match allRooms.find? fun r => (s.room r).job.any fun j => decide (1 < j.devices) && j.phase = 0 && j.tag = 0 && j.joinSeq = cseq with
  | none => s
  | some r =>
    let s := s.modRoom r fun x => { x with job := x.job.map fun j => { j with
      tag := tag, incarn := incarn, askStep := step, buddy := buddy, kgen := kgen, ranks := tget [] s.caravan.maps tag } }
    let s := { s with net := { s.net with left := tdel s.net.left tag, flows := tfilter s.net.flows fun k _ => k / 2 ^ 34 ≠ 64 + tag } }
    if (s.room r).job.any (·.restore) then s.restoreSteps r else s.startJob r

/-- A newer generation that START carries is taken (R417, R421). -/
def State.newGeneration (s : State) (g : Nat) : State :=
  if newer g s.caravan.generation then { s with caravan := { s.caravan with generation := g } } else s

/-- JOB_START: START received, or passed on. -/
def execJobStart (p : Pkt) (s : State) : Host.Outcome State Fault Refusal :=
  .next (s.fromAbove p 0x11 fun s =>
    (s.newGeneration (p.arg 4 4)).startOf p.cjob (p.arg 0 4) (p.arg 8 4) (p.arg 12 4) (p.arg 16 1) p.cseq)

/-- Ranks entered into the map of a job. -/
def State.enterMap (s : State) (tag first : Nat) (mids : List Nat) : State :=
  let t := mids.zipIdx.foldl (fun t p => tset t (first + p.2) p.1) (tget [] s.caravan.maps tag)
  { s with caravan := { s.caravan with maps := tset s.caravan.maps tag t } }

/-- MAP: the rank map updated; a manager keeps what passes through it. -/
def execMap (p : Pkt) (s : State) : Host.Outcome State Fault Refusal :=
  .next (s.ctrlRow p 0x12 fun s =>
    if s.caravan.isHead ∨ p.src ≠ s.caravan.giver then s
    else
      let s := s.enterMap p.cjob (p.arg 0 4) ((List.range (p.arg 4 4)).map fun i => p.arg (8 + 4 * i) 4)
      if s.caravan.isManager && p.remote != s.caravan.mid then s.passDown p p.body else s)

/-! ## The head (R419 to R422) -/

/-- Runs of consecutive ranks, at most 2,042 each: first rank and mids. -/
def mapRuns : List (Nat × Nat) → List (Nat × List Nat) → List (Nat × List Nat)
  | [], acc => acc.reverse
  | (k, m) :: rest, [] => mapRuns rest [(k, [m])]
  | (k, m) :: rest, (f, l) :: acc =>
    if f + l.length = k ∧ l.length < 2042 then mapRuns rest ((f, l ++ [m]) :: acc) else mapRuns rest ((k, [m]) :: (f, l) :: acc)

/-- The buddy of a rank (R422). -/
def buddyOf (rank n : Nat) : Nat := (rank + ceilDiv n 2) % n

/-- A refused or failed JOIN answered by the head: on its own device at once. -/
def State.answerJoin (s : State) (mid cseq code : Nat) : State :=
  if mid = s.caravan.mid then
    match allRooms.find? fun r => (s.room r).job.any fun j => decide (1 < j.devices) && j.phase = 0 && j.tag = 0 && j.joinSeq = cseq with
    | some r => s.refuseJoin r code
    | none => s
  else s.ctrlDown mid 0x03 0 0 (some cseq) (leBytes 2 code)

def State.setJob (s : State) (tag : Nat) (h : HeadJob) : State := { s with caravan := { s.caravan with jobs := tset s.caravan.jobs tag h } }

/-- The rules of R419 on a JOIN, in order; `h` is the job's record. -/
def joinRefusal (h : Option HeadJob) (m : JoinMsg) : Option Nat :=
  let joins := (h.map (·.joins)).getD []
  let next := match h.bind (·.started) with
    | some n => n + 1
    | none => 0
  let first (f : HeadJob → Bool) : Bool := h.any f
  if h.any (·.running) then some Code.carBusy
  else if m.devices ≤ m.rank ∨ joins.any fun x => x.rank = m.rank && x.mid ≠ m.mid then some Code.carRank
  else if first fun h => h.variant ≠ m.variant then some Code.carVariant
  else if first fun h => h.fw ≠ m.fw then some Code.carFirmware
  else if m.incarn ≠ next ∨ (m.kind = 0 ∧ (h.bind (·.started)).isSome) ∨ (!joins.isEmpty && first fun h => h.kind ≠ m.kind) then some Code.carIncarn
  else if m.kind = 1 && !joins.isEmpty && first fun h => h.step ≠ m.step then some Code.carStep
  else if m.marked then some Code.carLaggard
  else none

/-- A job assembled: tag, MAP, KEY and START in the order of R421. -/
def State.assemble (s : State) (tag : Nat) : State :=
  match tfind s.caravan.jobs tag with
  | none => s
  | some h =>
    let asked : Option Nat := if h.kind = 0 then some 0 else if h.step = 0xFFFFFFFF then (if h.complete = 0xFFFFFFFF then none else some h.complete) else some h.step
    match asked with
    | none =>
      let s := s.setJob tag { h with joins := [] }
      h.joins.foldl (fun s x => s.answerJoin x.mid x.cseq Code.snapNone) s
    | some step =>
      let new := h.joins.foldl (fun t x => tset t x.rank x.mid) ([] : Tbl Nat)
      let changed := new.filter fun e => tfind h.map e.1 ≠ some e.2
      let s := s.setJob tag { h with
        map := new, joins := [], incarn := (match h.started with | some n => n + 1 | none => 0), running := true, aborting := false, bar := none,
        released := none, ended := none, started := some (match h.started with | some n => n + 1 | none => 0) }
      let incarn := match h.started with | some n => n + 1 | none => 0
      let s := h.joins.foldl (fun s x =>
        let l := mapRuns (if h.map.any fun e => e.2 = x.mid then changed else new) []
        l.foldl (fun s run =>
          if x.mid = s.caravan.mid then s.enterMap tag run.1 run.2
          else s.ctrlDown x.mid 0x12 tag incarn none (leBytes 4 run.1 ++ leBytes 4 run.2.length ++ run.2.flatMap (leBytes 4))) s) s
      let s := s.newJobKey tag
      let kgen := ((tfind s.caravan.jobs tag).map (·.kgen)).getD 0
      h.joins.foldl (fun s x =>
        let buddy := buddyOf x.rank h.devices
        if x.mid = s.caravan.mid then s.startOf tag incarn step buddy kgen x.cseq
        else s.ctrlDown x.mid 0x11 tag incarn (some x.cseq)
          (leBytes 4 incarn ++ leBytes 4 s.caravan.generation ++ leBytes 4 step ++ leBytes 4 buddy ++ leBytes 1 kgen)) s

/-- A JOIN counted at the head, or refused (R419). -/
def State.headJoin (s : State) (m : JoinMsg) : State :=
  let found := s.caravan.jobs.find? fun x => x.2.seed = m.seed && x.2.devices = m.devices
  match joinRefusal (found.map (·.2)) m with
  | some c => s.answerJoin m.mid m.cseq c
  | none =>
    let (tag, h, s) := match found with
      | some x => (x.1, x.2, s)
      | none =>
        let h : HeadJob :=
          { tag := s.caravan.nextTag, seed := m.seed, devices := m.devices, variant := m.variant, fw := m.fw, kind := m.kind, incarn := 0,
            step := m.step, joins := [], firstJoin := s.now, started := none, running := false, aborting := false, kgen := 0, map := [],
            bar := none, released := none, complete := 0xFFFFFFFF, ended := none }
        (s.caravan.nextTag, h, { s with caravan := { s.caravan with nextTag := s.caravan.nextTag % (2 ^ 32 - 1) + 1 } })
    let fresh := h.joins.isEmpty
    let h := { h with
      kind := if fresh then m.kind else h.kind
      step := if fresh then m.step else h.step
      firstJoin := if fresh then s.now else h.firstJoin
      joins := (h.joins.filter fun x => x.mid ≠ m.mid) ++ [⟨m.mid, m.rank, m.cseq⟩] }
    let s := s.setJob tag h
    if h.joins.length = h.devices then s.assemble tag else s

/-- JOIN: counted at the head; a manager passes it on, and says whether it has marked the sender (R413, R426). -/
def execJoin (p : Pkt) (s : State) : Host.Outcome State Fault Refusal :=
  .next (s.ctrlRow p 0x10 fun s =>
    let m := JoinMsg.ofPkt p (s.originOf p)
    if s.caravan.isHead then s.headJoin { m with marked := m.marked || s.caravan.marked.contains m.mid }
    else if s.caravan.isManager && managerOf p.src == s.caravan.mid then
      s.passUp p { m with marked := s.caravan.marked.contains m.mid }.body
    else s)

/-- ASSEMBLY_TIMEOUT: every joined descriptor is told; a job that never started is forgotten. -/
def execAssemblyTimeout (tag at_ : Nat) (s : State) : Host.Outcome State Fault Refusal :=
  let s := s.upto at_
  .next (
    match tfind s.caravan.jobs tag with
    | none => s
    | some h =>
      if h.joins.isEmpty ∨ s.now < h.firstJoin + s.caravan.assembleMs * 1000000 then s
      else
        let s := if h.started.isSome then s.setJob tag { h with joins := [] } else { s with caravan := { s.caravan with jobs := tdel s.caravan.jobs tag } }
        h.joins.foldl (fun s x => s.answerJoin x.mid x.cseq Code.carAssembly) s)

/-- JOB_RECORD_EXPIRY: 10 minutes after the last incarnation's end, and after any JOIN since. -/
def execJobRecordExpiry (tag at_ : Nat) (s : State) : Host.Outcome State Fault Refusal :=
  let s := s.upto at_
  .next (
    match tfind s.caravan.jobs tag with
    | none => s
    | some h =>
      match h.ended with
      | none => s
      | some t =>
        if h.running || !h.joins.isEmpty || decide (s.now < Nat.max t h.firstJoin + 600000000000) then s
        else { s with caravan := { s.caravan with jobs := tdel s.caravan.jobs tag } })

/-! ## LAUNCH and RESTORE (R315, R279) -/

/-- The job that a starting descriptor begins to hold the room with. -/
def newJob (ring : Nat) (d : Desc) (seed : Nat) (check : CellarRead) : Job :=
  let res := d.opcode == 0x1B
  { ring := ring, seq := d.seq, restore := res, incarn := if res then d.fld 20 4 else 0, seed := seed, devices := d.fld 24 4, rank := d.fld 28 4,
    image := if res then 0 else d.fld 8 8, args := if res then [] else (List.range 8).map fun i => d.fld (32 + 4 * i) 4,
    phase := 0, first := 0, step := 0, cores := [], waiveAdd := false, waiveLoose := false, joined := [], firstJoin := none, waiting := false,
    released := none, marked := false, snapWait := false, faulted := false, tag := 0, kgen := 0, buddy := 0, joinSeq := 0, aborted := none, reportedSnap := 0,
    complete := none, benchErrs := [], ranks := [], source := if res then d.fld 8 1 else 0, holder := if res then d.fld 12 4 else 0,
    askStep := if res then d.fld 16 4 else 0, fetchAt := none, check := check }

/-- The seed a RESTORE joins its job with: its local snapshot's, else the room's; otherwise the spec names none. -/
def State.joinSeed (s : State) (r : Nat) (d : Desc) : Nat :=
  match (s.room r).mem.snap.find (d.fld 16 4) with
  | some p => p.2.seed
  | none => (s.room r).seed.getD (Config.freeNat s.fresh % 2 ^ 64)

/-- A starting descriptor holds the room: assembled at the head, or begun at once on one device. -/
def State.holdRoom (s : State) (r ring : Nat) (d : Desc) (check : CellarRead) : State :=
  let seed := if d.opcode = 0x1B then s.joinSeed r d else d.fld 16 8
  let j := newJob ring d seed check
  let s := { s with net := { s.net with flows := tfilter s.net.flows fun k _ => k / 2 ^ 34 ≠ r } }
  let s := s.modRoom r fun x => { x with job := some { j with joinSeq := s.caravan.cseq } }
  if j.devices ≤ 1 then (if j.restore then s.restoreSteps r else s.startJob r)
  else
    let m : JoinMsg := ⟨s.caravan.mid, s.caravan.cseq, seed, j.devices, j.rank, j.incarn, j.askStep, b2n j.restore, s.variant, false, s.fwDigest.map BitVec.toNat⟩
    if s.caravan.isHead then
      { s with caravan := { s.caravan with cseq := (s.caravan.cseq + 1) % 2 ^ 32 } }.headJoin { m with marked := s.caravan.marked.contains m.mid }
    else s.ctrlUp 0x10 0 j.incarn none m.body

/-- The refusals of R315, in order, after the checks of R312; `busy` is the code for a held room. -/
def State.starting (s : State) (ring : Nat) (d : Desc) (busy : Nat) (check : CellarRead) : State :=
  let r := (s.ring ring).room
  if (s.room r).job.any fun j => j.ring = ring && j.seq = d.seq then s
  else
    match s.progOf r (d.fld 24 4) (d.fld 28 4) none with
    | .error c => s.done ring d stBadDescriptor c
    | .ok _ =>
      if (s.room r).busy then s.done ring d stBadDescriptor busy
      else if !s.inService then s.done ring d stResourceExhausted Code.healthOos
      else if 1 < d.fld 24 4 ∧ !s.caravan.member then s.done ring d stBadDescriptor Code.carNomember
      else s.holdRoom r ring d check

/-- LAUNCH (R315). -/
def execLaunch (ring : Nat) (s : State) : Host.Outcome State Fault Refusal :=
  .next (match s.canStartOp ring 0x01 anyDesc with
    | none => s
    | some d => s.starting ring d Code.launchBusy ⟨0, 0, false⟩)

/-- RESTORE (R279, R315). -/
def execRestore (run : RestoreRun) (s : State) : Host.Outcome State Fault Refusal :=
  .next (match s.canStartOp run.ring 0x1B anyDesc with
    | none => s
    | some d => s.starting run.ring d Code.snapParams run.cellar)

/-- MIRROR_FETCH_TIMEOUT: a holder that has not answered within 2 s (R279 step 1). -/
def execMirrorFetchTimeout (room at_ : Nat) (s : State) : Host.Outcome State Fault Refusal :=
  let s := s.upto at_
  .next (
    match (s.room room).job with
    | none => s
    | some j =>
      let silent := (s.flow (flowKey room j.holder 0xFFF0)).gets.all fun g => !g.answered
      if j.phase = 0 && silent && j.fetchAt.any (fun t => decide (t + 2000000000 ≤ s.now)) then s.failStart room stTimeout Code.snapFetch 0 0 else s)

/-! ## Faults between devices (R427) -/

/-- FAULT at the head. -/
def execFault (p : Pkt) (s : State) : Host.Outcome State Fault Refusal :=
  .next (s.toHead p 0x16 fun s =>
    match tfind s.caravan.jobs p.cjob with
    | some h => if h.incarn = p.cinc then s.headAbort p.cjob (p.arg 0 4) (p.arg 8 2) else s.healthRecord 6 (p.arg 8 2) 0xFFFF 0xFFFF (p.arg 0 4)
    | none => s)

/-- The joins a manager has counted for a job, dropped (R427). -/
def State.dropBar (s : State) (tag : Nat) : State := { s with caravan := { s.caravan with bars := tdel s.caravan.bars tag } }

/-- This device's part of an incarnation ends: the last released epoch (none: 0xFFFFFFFF) is final. -/
def State.abortHere (s : State) (tag incarn code last : Nat) : State :=
  (s.roomsOf tag incarn).foldl (fun s r => s.abortRoom r code (if last = 0xFFFFFFFF then none else some last)) s

/-- JOB_FAULT: a unit raises a fault of the room's incarnation (R496). -/
def execJobFault (room code unit : Nat) (s : State) : Host.Outcome State Fault Refusal := .next (s.raiseFault room code unit)

end Sys2Proof.Machine
end

