-- ==== Sys2Proof/Machine/Moves.lean ====
section
/-! DEFINITION. The core's MOVE, SHAPE and SYNC words and the scheduling of cores: slots and context switches (R91 to R94, R236, R353 to R360, R549). -/

namespace Sys2Proof.Machine

/-! ## MOVE (R91, R549) -/

/-- One row read from a space: 0 own store, 1 common store, 2 a peer's store, 3 device memory. -/
def State.rowRead (s : State) (core r : Nat) (w : MoveWord) (a : Nat) : Except Nat (List Byte) :=
  let die := coreDie core
  match w.srcSp with
  | 0 => .ok (memReadN (s.regionOf core r) a w.rowBytes)
  | 1 => .ok (memReadN (s.commonOf die) ((s.room r).commonBase die + a) w.rowBytes)
  | 2 => .ok (memReadN (s.regionOf w.peer r) a w.rowBytes)
  | _ => s.readAny r a w.rowBytes

/-- One unordered atomic add of two elements (R236): the sum and its saturations. -/
def atomicAdd (fmt a b : Nat) : Nat × Nat :=
  match fmt with
  | 0x9 => let q := satI32 (i32 a + i32 b); (u32 q.1, q.2)
  | 0x2 => ((convert (x32 (fadd (toWork false 2 a) (toWork false 2 b))) 0x2 cvt0 0).code, 0)
  | _ => (fadd a b, 0)

/-- A row of atomic adds: the new row and the saturations. -/
def atomicRow (fmt : Nat) (src dst : List Byte) : List Byte × Nat :=
  let k := fmtWidth fmt / 8
  let sums := (List.range (src.length / k)).map fun i =>
    atomicAdd fmt (leNat ((dst.drop (k * i)).take k)) (leNat ((src.drop (k * i)).take k))
  (sums.flatMap fun x => leBytes k x.1, sumNat (sums.map (·.2)))

/-- A MOVE under way: the state, the rows done, the bytes of command blocks gathered so far, and what stopped it: a wait, or the code of a fault. -/
structure MoveRun where
  s : State
  rows : Nat
  blocks : Tbl (Tbl Nat)
  stop : Option (Option Nat)

/-- The bytes of a row put into the blocks it touches, each by its place in the block. -/
def gatherRow (a : Nat) (bytes : List Byte) (blocks : Tbl (Tbl Nat)) : Tbl (Tbl Nat) :=
  bytes.zipIdx.foldl (fun t p => let x := a + p.2; tmod [] t (x / 64 * 64) fun b => tset b (x % 64) p.1.toNat) blocks

/-- The command blocks that stand complete after a row, with their bytes. -/
def State.complete64 (s : State) (r a n : Nat) (blocks : Tbl (Tbl Nat)) : List (Block × List Byte) :=
  (blocksIn a n).filterMap fun b =>
    let got := tget [] blocks b
    if got.length = 64 then (s.blockAt r b).map fun k => (k, got.map fun x => BitVec.ofNat 8 x.2) else none

/-- Blocks fired one after another; the first code stands. -/
def State.fireAll (s : State) (r core : Nat) (l : List (Block × List Byte)) : Wrote :=
  l.foldl (fun a k => match a.code with
    | some _ => a
    | none => a.s.fire r core k.1 k.2) ⟨s, none⟩

/-- A row of a MOVE written in device memory (R139, R198, R229, R267, R273, R400): blocks that are no memory take whole writes only; a fifth command of a
queue waits, and so does a write to a page pending a snapshot, which goes to the head of the copy queue. -/
def State.deviceRow (x : MoveRun) (core r : Nat) (w : MoveWord) (a : Nat) (bytes : List Byte) : MoveRun :=
  let s := x.s
  let n := bytes.length
  let blocks := if (blocksIn a n).any fun b => (s.blockAt r b).isSome then gatherRow a bytes x.blocks else x.blocks
  let fired := s.complete64 r a n blocks
  let bare := s.anyBare r a n
  if bare && !(s.allBare r a n && (blocksIn a n).all w.whole) then { x with stop := some (some Code.memSpecial) }
  else if fired.any fun k => s.fifth r core k.1 k.2 then { x with stop := some none }
  else
    let late := (pagesOf a n).filter fun p => (s.room r).mem.snap.pending.contains p.1
    let wrote : Wrote := if bare then ⟨s, none⟩ else s.writeAny r a bytes
    match wrote.code with
    | some c => { x with
        s := wrote.s
        stop := some (some c) }
    | none =>
      if !late.isEmpty then { x with
        s := late.foldl (fun s p => s.headOfCopy r p.1) s
        stop := some none }
      else
        let b := wrote.s.fireAll r core fired
        { s := b.s
          rows := x.rows + 1
          blocks := blocks
          stop := b.code.map some }

/-- One row written to a space. -/
def State.rowWrite (x : MoveRun) (core r : Nat) (w : MoveWord) (a : Nat) (bytes : List Byte) : MoveRun :=
  let die := coreDie core
  let next (s : State) : MoveRun := { x with
    s := s
    rows := x.rows + 1 }
  match w.dstSp with
  | 0 => next (x.s.storeWrite core r a bytes)
  | 1 => next { x.s with common := tset x.s.common die (memWriteN (x.s.commonOf die) ((x.s.room r).commonBase die + a) bytes) }
  | 2 => next (x.s.storeWrite w.peer r a bytes)
  | _ => State.deviceRow x core r w a bytes

/-- Elements of a row of atomic adds, 0 for a plain row. -/
def MoveWord.adds (w : MoveWord) : Nat := if w.uadd then w.rowBytes / (fmtWidth w.afmt / 8) else 0

/-- The next row of a MOVE, unless it has stopped (R91, R236, R250). -/
def State.moveRow (core r : Nat) (w : MoveWord) (x : MoveRun) : MoveRun :=
  if x.stop.isSome then x
  else
    let src := w.src + x.rows * w.srcPitch
    let dst := w.dst + x.rows * w.dstPitch
    let fail (c : Nat) : MoveRun := { x with stop := some (some c) }
    match x.s.rowRead core r w src with
    | .error c => fail c
    | .ok bytes =>
      let old := if w.uadd then x.s.readAny r dst w.rowBytes else .ok []
      match old with
      | .error c => fail c
      | .ok old =>
        let (put, sat) := if w.uadd then atomicRow w.afmt bytes old else (bytes, 0)
        let y := State.rowWrite x core r w dst put
        if y.rows = x.rows then y
        else
          let s := if w.srcSp = 3 then (y.s.touchRow r src w.rowBytes 0).countView r src w.rowBytes else y.s
          let s := if w.dstSp = 3 then s.touchRow r dst w.rowBytes w.adds else s
          let unit := match (s.room r).mem.upperOf (dst / pageBytes) with
            | some p => 136 + p.1
            | none => 156 + dst / pageBytes % 2
          { y with s := if w.uadd then s.count unit 5 sat else s }

/-- The rows that a MOVE has still to make, as far as it gets. -/
def State.moveRows (s : State) (core r : Nat) (w : MoveWord) (f : Flight) : MoveRun :=
  (List.range (w.rows - f.rows)).foldl (fun x _ => State.moveRow core r w x) ⟨s, f.rows, f.blocks, none⟩

/-- Requests of a MOVE (R549), from its rows' source addresses (log entry 105). -/
def MoveWord.requests (w : MoveWord) : Nat :=
  let sieve (a : Nat) : Bool := (w.rowBytes = 32 || w.rowBytes = 64) && a % w.rowBytes = 0
  sumNat ((List.range w.rows).map fun i =>
    let a := w.src + i * w.srcPitch
    if sieve a then 1 else ceilDiv (a % 256 + w.rowBytes) 256)

/-- MOVE (R91): issued; a MOVE of unordered adds sets the room's waiver bit (R11). -/
def execMove (core : Nat) (s : State) : Host.Outcome State Fault Refusal :=
  .next (match s.nextWord core with
    | some n => (match n.word with
      | .move w =>
        let s := s.issue core n { Flight.new .move n.slot 0 with
          move := some w
          requests := w.requests }
        if w.uadd then s.waive n.room 0 else s
      | _ => s)
    | none => s)

/-- Whether the rows of a MOVE read pages in a cellar half. -/
def State.readsHalf (s : State) (r : Nat) (w : MoveWord) (half : Nat) : Bool :=
  w.srcSp = 3 && (List.range w.rows).any fun i => (pagesOf (w.src + i * w.srcPitch) w.rowBytes).any fun p => (s.room r).mem.inHalf half p.1

/-- A MOVE in flight from a slot. -/
def Flight.moveAt (slot : Nat) (f : Flight) : Bool := decide (f.kind = .move) && decide (f.slot = slot)

/-- MOVE_COMPLETE (R92, R358, R549): the requests of a MOVE of the selected context that may be served are made in row order. The first row that fails stops
the core (R250); where a row waits the MOVE stays in flight (R139, R198, R273); after the last one it completes, and a peer's counter is posted (R92).
Errors of the cellar half that its rows read directly are counted, and an uncorrectable one is a job fault (R282). -/
def execMoveComplete (word : MoveDone) (s : State) : Host.Outcome State Fault Refusal :=
  .next (
    let core := word.core
    match (s.core core).sel with
    | none => s
    | some r =>
      match (s.core core).ctx r with
      | none => s
      | some x =>
        match takeFlight (Flight.moveAt word.slot) x.flights with
        | none => s
        | some (f, rest) =>
          match f.move with
          | none => s
          | some w =>
            if !s.mayServe core r ∨ !(s.room r).running then s
            else
              let direct := s.readsHalf r w word.cellar.half
              let s := if direct then (s.account core).cellarErrs word.cellar else s.account core
              if direct && word.cellar.bad then s.raiseFault r Code.cellarUe (cellarUnit word.cellar.half)
              else
                let y := s.moveRows core r w f
                match y.stop with
                | some (some c) => y.s.raiseFault r c (s.physUnit core)
                | some none => y.s.modCtx core r fun x => { x with flights := x.flights.map fun g => if g.moveAt word.slot then { g with
                    rows := y.rows
                    blocks := y.blocks } else g }
                | none =>
                  let s := (y.s.modCtx core r fun x => { x with flights := rest }).refresh core
                  if w.dstSp = 2 then s.postCounter r w.peer w.ctr 1 0 else s)

/-! ## SHAPE and SYNC (R93, R94) -/

/-- SHAPE (R93): the value is read at issue and is in the register at completion. -/
def execShape (core : Nat) (s : State) : Host.Outcome State Fault Refusal :=
  .next (match s.nextWord core with
    | some n => (match n.word with
      | .shape w =>
        let v := match w.src with
          | 0 => w.operand
          | 1 => memNat (s.regionOf core n.room) w.operand 4
          | _ => (match (s.room n.room).job with
            | some j => j.args.getD w.operand 0
            | none => 0)
        s.issue core n { Flight.new .shape n.slot (if w.src = 1 then 6 else 4) with
          sreg := w.sreg
          value := v }
      | _ => s)
    | none => s)

/-- SHAPE_COMPLETE (R93): the value is in the register. -/
def execShapeComplete (word : WordRef) (s : State) : Host.Outcome State Fault Refusal :=
  .next (match (s.core word.core).sel with
    | none => s
    | some r =>
      match (s.core word.core).ctx r with
      | none => s
      | some x =>
        match takeFlight (fun f => decide (f.kind = .shape) && decide (f.slot = word.slot)) x.flights with
        | none => s
        | some (f, rest) =>
          ((s.account word.core).modCtx word.core r fun x => { x with
            flights := rest
            shape := tset x.shape f.sreg f.value }).refresh word.core)

/-- STEP_BARRIER (R94, R423): the core joins once all its earlier words have completed. -/
def execStepBarrier (core : Nat) (s : State) : Host.Outcome State Fault Refusal :=
  .next (match s.nextWord core with
    | some n => (match n.word with
      | .sync w =>
        if w.op ≠ 0 then s
        else
          let s := ((s.passWord core n).modCtx core n.room fun x => { x with
            atBarrier := true
            joinedAt := some s.now }).refresh core
          s.modRoom n.room fun x => { x with job := x.job.map fun j => { j with
            joined := if j.joined.contains core then j.joined else core :: j.joined
            firstJoin := some (j.firstJoin.getD s.now) } }
      | _ => s)
    | none => s)

/-- SET (R94): adds to a counter of a peer once every earlier word has completed. -/
def execSet (core : Nat) (s : State) : Host.Outcome State Fault Refusal :=
  .next (match s.nextWord core with
    | some n => (match n.word with
      | .sync w => if w.op = 1 then ((s.passWord core n).postCounter n.room w.peer w.ctr w.value 0).refresh core else s
      | _ => s)
    | none => s)

/-- A satisfied WAIT's stall: the time it stood, less what a bench operand was being promoted, against the cause of the last count (R234, R264); a core
that waited on a cause was in use (R366). -/
def State.waited (s : State) (core r ctr : Nat) (x : Ctx) : State :=
  let from_ := Nat.max (x.waitAt.getD s.now) (s.core core).usedAt
  let ns := s.now - from_
  let (cause, promo) := tget (0, 0) x.posters ctr
  if cause = 0 ∨ ns = 0 then s
  else
    let p := Nat.min promo ns
    (((s.stall r benchOperand p).stall r cause (ns - p)).chargeCore core r ns).modCore core fun c => { c with usedAt := s.now }

/-- SYNC_WAIT (R94): passes when the core's own counter holds the value, which it subtracts; the word waits until then (R424). -/
def execSyncWait (core : Nat) (s : State) : Host.Outcome State Fault Refusal :=
  .next (match s.nextWord core with
    | some n => (match n.word with
      | .sync w =>
        let have_ := tget 0 n.ctx.sync w.ctr
        if w.op = 2 ∧ w.value ≤ have_ then
          (((s.passWord core n).waited core n.room w.ctr n.ctx).modCtx core n.room fun x => { x with
            sync := tset x.sync w.ctr (have_ - w.value)
            waitAt := none }).refresh core
        else if w.op = 2 then s.modCtx core n.room fun x => { x with waitAt := some (x.waitAt.getD s.now) }
        else s
      | _ => s)
    | none => s)

/-! ## Slots and switches (R349, R353 to R361) -/

/-- Whether a device time starts a frame of the staged schedule (R351). -/
def Sched.boundary (x : Sched) (t : Nat) : Bool := x.staged.us == 0 || t % (1000 * x.staged.us) == 0

/-- Whether the staged schedule takes effect at a time: PENDING, at a frame's start, and where a room paces it once that room stands at its barrier
(R351, R352); no slot of the old table starts then (R361). -/
def State.frameDue (s : State) (at_ : Nat) : Bool :=
  s.sched.pending && s.sched.boundary at_ &&
    (match s.sched.pacing with
      | none => true
      | some (_, _, r, e) => (s.room r).job.any fun j => decide (j.epoch = e) && j.unitsIn && !j.faulted)

/-- SLOT_START (R349, R353): at its time in a frame a valid entry of the active table hands its cores to its room; the sets of its room on them are due
a word (R360). -/
def execSlotStart (entry at_ : Nat) (s : State) : Host.Outcome State Fault Refusal :=
  .next (
    let e := s.entry entry
    if at_ < s.now ∨ s.frameDue at_ ∨ !entValid e ∨ s.sched.active.nent ≤ entry ∨ s.sched.running.contains entry ∨ s.frameNs = 0 ∨
        at_ % s.frameNs ≠ 1000 * entStart e then s.upto at_
    else
      let s := (entCores e).foldl State.account (s.upto at_)
      let s := { s with sched := { s.sched with running := entry :: s.sched.running } }
      (entCores e).foldl (fun s k => s.modCtx k (entRoom e) fun x => { x with due := some s.now }) s)

/-- SLOT_END (R353): at its end the cores return to arbitration. -/
def execSlotEnd (entry at_ : Nat) (s : State) : Host.Outcome State Fault Refusal :=
  .next (
    let e := s.entry entry
    if at_ < s.now ∨ !s.sched.running.contains entry ∨ s.frameNs = 0 ∨ at_ % s.frameNs ≠ 1000 * (entStart e + entLen e) % s.frameNs then s.upto at_
    else
      let s := (entCores e).foldl State.account (s.upto at_)
      { s with sched := { s.sched with running := s.sched.running.filter (· ≠ entry) } })

/-- The room a core serves next: the owner of its slot, else among the ready rooms by share, once the holding room has held the core for 200 µs or has no
ready word (R347, R353, Table 14.2). -/
def State.pickRoom (s : State) (core : Nat) : Option Nat :=
  let c := s.core core
  let ready := s.readyRooms core
  let held := match c.sel with
    | some o => ready.contains o && decide (s.now < c.since + 200000)
    | none => false
  let shares := if held then none else s.pick core false ready
  match s.slotOwner core with
  | some (o, lend) => if lend && !s.ctxReady core o then shares else some o
  | none => shares

/-- Causeway cycles of a switch into a context, as nanoseconds: with banks to restore, and without (Table 14.6). -/
def switchNs (restores : Bool) : Nat := if restores then 438 else 273

/-- CONTEXT_SWITCH (R356, R357): once the outgoing context has no tile in flight, its banks are saved and the incoming ones restored; the time is the
incoming room's (R366). -/
def execContextSwitch (core : Nat) (s : State) : Host.Outcome State Fault Refusal :=
  .next (
    let c := s.core core
    match s.pickRoom core, (s.pickRoom core).bind c.ctx with
    | some r, some x =>
      let busy : Bool := (c.sel.bind c.ctx).any fun y => y.flights.any Flight.isTile
      if c.sel == some r || busy then s
      else
        let s := s.account core
        let c := s.core core
        let c := match c.sel with
          | some o => (match c.ctx o with
            | some y => c.setCtx o { y with saved := some c.banks }
            | none => c)
          | none => c
        let c := c.setCtx r { x with saved := none }
        let s := s.setCore core { c with
          banks := x.saved.getD []
          sel := some r
          since := s.now }
        (({ s with sched := { s.sched with switches := s.sched.switches + 1 } }).chargeCore core r (switchNs x.saved.isSome)).refresh core
    | _, _ => s)

end Sys2Proof.Machine
end

