-- ==== Sys2Proof/Machine/Schedules.lean ====
section
/-! DEFINITION. The staged schedule: its check, CHECK and ACTIVATE (R344 to R352, Tables 14.1, 14.3 and 14.4). -/

namespace Sys2Proof.Machine

/-! ## The words of a schedule -/

/-- A room's word of a schedule (SCHED_ROOM_STG): share 100 where none is listed. -/
def Schedule.room (x : Schedule) (r : Nat) : Nat := tget 100 x.rooms r
def Schedule.share (x : Schedule) (r : Nat) : Nat := bits (x.room r) 9 0
def Schedule.lc (x : Schedule) (r : Nat) : Bool := bit (x.room r) 16
def Schedule.decRes (x : Schedule) (r : Nat) : Nat := bits (x.room r) 34 30
def Schedule.devRes (x : Schedule) (r : Nat) : Nat := bits (x.room r) 39 35
def Schedule.tokRes (x : Schedule) (r : Nat) : Nat := bits (x.room r) 43 40

/-- The valid entries in use, with their numbers. -/
def Schedule.valid (x : Schedule) : List Nat := ((List.range x.nent).map fun i => tget 0 x.entries i).filter entValid

/-- RSVD fields of an entry (Table 14.3). -/
def entRsvd (e : Nat) : Bool := fld e 5 1 / 8 != 0 || fld e 6 2 != 0

/-! ## The check (R350) -/

/-- Two valid entries that name a common core overlap in time. -/
def entClash (a b : Nat) : Bool :=
  entDie a == entDie b && (fld a 8 8 &&& fld b 8 8) != 0 && overlaps (entStart a) (entLen a) (entStart b) (entLen b)

def anyClash : List Nat → Bool
  | [] => false
  | e :: r => r.any (entClash e) || anyClash r

/-- Rows SCHED_FRAME to SCHED_INGEST of Table 14.4 over the staged schedule. -/
def State.schedCheck (s : State) : Option Nat :=
  let x := s.sched.staged
  let es := x.valid
  let frame := (x.us ≠ 0 ∧ (x.us < 250 ∨ 10000 < x.us)) ∨ 512 < x.nent ∨ (x.nent ≠ 0 ∧ x.us = 0)
  let entry := es.any fun e => entRsvd e || decide (entLen e < 50) || decide (x.us < entStart e + entLen e)
  let room := allRooms.any fun r => x.share r == 0 || decide (1000 < x.share r) ||
    (!x.lc r && (x.decRes r != 0 || x.devRes r != 0 || x.tokRes r != 0))
  let slotRoom := es.any fun e => decide (63 < entRoom e) || !x.lc (entRoom e) || (s.room (entRoom e)).st != .committed
  let slotCores := es.any fun e => (entCores e).isEmpty || (entCores e).any fun c => !(s.room (entRoom e)).hasCore c
  let sum (f : Nat → Nat) : Nat := sumNat (allRooms.map f)
  let ingest := decide (16 < sum x.decRes) || decide (16 < sum x.devRes) || decide (16 < sum x.tokRes) ||
    (if s.variant = 3 then decide (0 < sum x.decRes) || decide (0 < sum x.devRes) else decide (0 < sum x.tokRes))
  firstSome (fun p : Bool × Nat => if p.1 then some p.2 else none)
    [(frame, Code.schedFrame), (entry, Code.schedEntry), (room, Code.schedRoom), (slotRoom, Code.schedSlotRoom),
     (slotCores, Code.schedSlotCores), (anyClash es, Code.schedOverlap), (ingest, Code.schedIngest)]

/-- The result of a check in SCHED_STATUS. -/
def State.schedVerdict (s : State) (c : Option Nat) : State :=
  { s with sched := { s.sched with err := c.getD 0, passed := c.isNone } }

/-- CHECK (R350). -/
def execCheck (fn : Nat) (s : State) : Host.Outcome State Fault Refusal :=
  .next (if fn = 0 then s.schedVerdict s.schedCheck else s.badAcc)

/-- ACTIVATE (R351): the check, then PENDING. -/
def State.schedActivate (s : State) : State :=
  let c := match s.schedCheck with
    | some c => some c
    | none => if s.sched.pending ∨ s.anyJob then some Code.schedBusy else none
  let s := s.schedVerdict c
  if c.isNone then { s with sched := { s.sched with pending := true } } else s

def execActivate (fn : Nat) (s : State) : Host.Outcome State Fault Refusal :=
  .next (if fn = 0 then s.schedActivate else s.badAcc)

/-- The staged schedule becomes the active one; slots of the old table end. Virtual times stay (R347). -/
def State.schedSwitch (s : State) : State :=
  { s with sched := { s.sched with active := s.sched.staged, pending := false, running := [] } }

end Sys2Proof.Machine
end

