-- ==== Sys2Proof/Machine/Barrier.lean ====
section
/-! DEFINITION. The step barrier across devices, its snapshot, and what holds it (R273 to R275, R278, R318, R352, R379, R422 to R426). -/

namespace Sys2Proof.Machine

/-! ## Joining (R423) -/

/-- A BARRIER_JOIN of `bmode` 1 that has not started holds the barrier (R318). -/
def State.joinHeld (s : State) (r e : Nat) : Bool :=
  (s.roomRings r).any fun q => q.2.descs.any fun d => !d.started && d.opcode = 0x06 && d.fld 8 1 = 1 && d.fld 12 4 = e

/-- A pacing hold of R352. -/
def State.paced (s : State) (r e : Nat) : Bool := s.sched.pacing.any fun p => p.2.2.1 = r && p.2.2.2 = e

/-- The waits of R273 step 2, and of R403, are over. -/
def Room.quiet (x : Room) : Bool :=
  (x.kernels.all fun k => k.2.queue.isEmpty && k.2.run.isNone) && (x.mem.views.all fun v => v.2.queue.isEmpty && !v.2.running) &&
    (match x.forest with | some f => f.queue.isEmpty | none => true) && x.coll.all fun c => c.2.queued = 0 && !c.2.running

/-- The digest of the precision mode in force for the step after an epoch (R379). -/
def Room.modeDigest (x : Room) (e : Nat) : Nat :=
  let l := match (x.modesAt e).find? fun m => m.kind = 4 with
    | some m => m.entries
    | none => x.precision
  leNat (((Config.crypto "precision mode digest" (l.flatMap fun t => [t.1, t.2.1, t.2.2])).take 8).map (BitVec.ofNat 8))

/-- The `end` byte of a join: 0, 1 with an END at the epoch, 3 where a snapshot is taken there too. -/
def Room.endByte (x : Room) (j : Job) : Nat :=
  let e := j.epoch
  if x.endsAt e then (if j.phase = 2 && x.snapDue e then 3 else 1) else 0

/-! ## Counting and releasing (R425) -/

/-- The lags of a released epoch recorded, and laggards reported (R426). -/
def State.noteLags (s : State) (tag : Nat) (l : List BarEntry) : State :=
  let first := minNat 0 (l.map (·.time))
  let times := (s.now :: tget [] s.caravan.releases tag).take 65
  let s := { s with caravan := { s.caravan with releases := tset s.caravan.releases tag times } }
  let k := times.length - 1
  let whole := s.now - times.getLastD s.now
  (l.filter fun b => s.gives b.mid && b.members == 1).foldl (fun s b =>
    let lags := ((b.time - first) :: tget [] s.caravan.lags b.mid).take 64
    let s := { s with caravan := { s.caravan with lags := tset s.caravan.lags b.mid lags } }
    if lags.length < 64 ∨ s.caravan.reported.contains b.mid ∨ sumNat lags * 100 * k ≤ s.caravan.lagPct * 64 * whole then s
    else
      let s := (s.healthRecord 8 Code.laggard 0xFFFF 0xFFFF b.mid).audit 0x0F 0 0 0xFFFF Code.laggard (leBytes 4 b.mid ++ leBytes 8 (sumNat lags / 64))
      { s with caravan := { s.caravan with
        reported := b.mid :: s.caravan.reported
        marked := if s.caravan.lagPolicy = 1 then b.mid :: s.caravan.marked else s.caravan.marked } }) s

/-- A RELEASE reaches this device: its barrier is released, and a snapshot that waited for its slot is marked (R273, R275, R425). -/
def State.releaseHere (s : State) (tag incarn epoch : Nat) (complete : Option Nat) : State :=
  (s.roomsOf tag incarn).foldl (fun s r =>
    match (s.room r).job with
    | none => s
    | some j =>
      if !j.waiting ∨ j.epoch ≠ epoch then s
      else
        let s := match complete with
          | some c => s.modMem r fun m => { m with snap := m.snap.completeAt c }
          | none => s
        let s := if j.phase = 2 && (s.room r).snapDue j.step && !j.marked then (s.snapWaited r).markSnap r j else s
        s.releaseBarrier r complete) s

/-- The joins of a barrier with one of them entered, or entered again. -/
def BarCount.enter (b : BarCount) (x : BarEntry) : BarCount := { b with entries := (b.entries.filter fun y => y.mid ≠ x.mid) ++ [x] }
def BarCount.members (b : BarCount) : Nat := sumNat (b.entries.map (·.members))
def BarCount.snap (b : BarCount) : Nat := minNat 0 (b.entries.map (·.snap))
def BarCount.latest (b : BarCount) : Nat := maxNat (b.entries.map (·.time))

/-- What a join that disagrees with the first one raises. -/
def BarCount.clash (b : BarCount) (digest ends : Nat) : Option Nat :=
  if b.digest ≠ digest then some Code.modeMismatch else if b.ends % 2 ≠ ends % 2 then some Code.endMismatch else none

/-- The rank that a member holds in a job's map. -/
def rankOf (map : Tbl Nat) (mid : Nat) : Nat := ((map.find? fun e => e.2 = mid).map (·.1)).getD 0xFFFFFFFF

/-- The head releases a barrier all of whose joins are counted; an END with a snapshot waits until that snapshot is complete, and a restart of steward 0 holds it (R377, R425). -/
def State.headRelease (s : State) (tag : Nat) : State :=
  match tfind s.caravan.jobs tag with
  | none => s
  | some h =>
    match h.bar with
    | none => s
    | some b =>
      let snapCode := b.snap
      if b.members ≠ h.devices ∨ !s.dutyServed ∨ (2 ≤ b.ends ∧ snapCode < b.epoch + 1) then s
      else
        let complete := if snapCode = 0 then 0xFFFFFFFF else snapCode - 1
        let ending := b.ends % 2 = 1
        let s := s.setJob tag { h with
          released := if b.epoch = 0xFFFFFFFF then h.released else some b.epoch
          complete := complete
          bar := none
          running := !ending
          ended := if ending then some s.now else h.ended }
        let s := s.noteLags tag b.entries
        let body := leBytes 4 b.epoch ++ leBytes 4 complete
        let hops := dedup ((h.map.map fun e => s.caravan.downward e.2).filter (· ≠ s.caravan.mid))
        let s := hops.foldl (fun s m => s.ctrlSend m m 0x15 tag h.incarn none body) s
        s.releaseHere tag h.incarn b.epoch (if snapCode = 0 then none else some complete)

/-- A join counted at the head. -/
def State.headCount (s : State) (tag incarn epoch digest ends : Nat) (x : BarEntry) : State :=
  match tfind s.caravan.jobs tag with
  | none => s
  | some h =>
    if !h.running ∨ h.incarn ≠ incarn then s
    else
      let b := h.bar.getD ⟨epoch, [], digest, ends, s.now, incarn⟩
      if b.epoch ≠ epoch then s
      else
        match b.clash digest ends with
        | some c => s.headAbort tag (rankOf h.map x.mid) c
        | none => (s.setJob tag { h with bar := some { b.enter x with ends := Nat.max b.ends ends } }).headRelease tag

/-- The aggregate of a manager, sent once its caravan is counted and the steward of its role runs (R377, R425). -/
def State.managerSend (s : State) (tag : Nat) : State :=
  let want := ((tget [] s.caravan.maps tag).filter fun e => managerOf e.2 = s.caravan.mid).length
  match tfind s.caravan.bars tag with
  | none => s
  | some b =>
    if b.members ≠ want ∨ !s.dutyServed then s
    else
      s.ctrlUp 0x14 tag b.incarn none
        (leBytes 4 b.epoch ++ leBytes 4 b.members ++ leBytes 8 b.digest ++ leBytes 8 b.latest ++
          leBytes 4 ((b.snap + 0xFFFFFFFF) % 2 ^ 32) ++ leBytes 1 b.ends ++ List.replicate 3 0)

/-- A join counted at a manager. -/
def State.managerCount (s : State) (tag incarn epoch digest ends : Nat) (x : BarEntry) : State :=
  let map := tget [] s.caravan.maps tag
  let b := (tfind s.caravan.bars tag).getD ⟨epoch, [], digest, ends, s.now, incarn⟩
  let b := if b.epoch = epoch then b else ⟨epoch, [], digest, ends, s.now, incarn⟩
  match b.clash digest ends with
  | some c => s.ctrlUp 0x16 tag incarn none (leBytes 4 (rankOf map x.mid) ++ leBytes 4 epoch ++ leBytes 2 c)
  | none =>
    let b := { b.enter x with ends := Nat.max b.ends ends }
    { s with caravan := { s.caravan with bars := tset s.caravan.bars tag b } }.managerSend tag

/-- The device's own BAR_JOIN, sent or counted here (R423). -/
def State.sendJoin (s : State) (r : Nat) : State :=
  match (s.room r).job with
  | none => s
  | some j =>
    let x := s.room r
    let e := j.epoch
    let snap := match x.mem.snap.report with
      | some n => n + 1
      | none => 0
    let s := s.modRoom r fun x => { x with job := x.job.map fun j => { j with
      waiting := true
      reportedSnap := snap } }
    let entry : BarEntry := ⟨s.caravan.mid, 1, s.now, snap⟩
    if s.caravan.isHead then s.headCount j.tag j.incarn e (x.modeDigest e) (x.endByte j) entry
    else if s.caravan.isManager then s.managerCount j.tag j.incarn e (x.modeDigest e) (x.endByte j) entry
    else
      s.ctrlUp 0x14 j.tag j.incarn none
        (leBytes 4 e ++ leBytes 4 1 ++ leBytes 8 (x.modeDigest e) ++ leBytes 8 s.now ++ leBytes 4 ((snap + 0xFFFFFFFF) % 2 ^ 32) ++
          leBytes 1 (x.endByte j) ++ List.replicate 3 0)

/-- A device that has joined reports again where its complete snapshot has moved on: the head holds an END for it (R425). -/
def State.reportAgain (s : State) (r : Nat) : State :=
  match (s.room r).job with
  | some j =>
    let snap := match (s.room r).mem.snap.report with
      | some n => n + 1
      | none => 0
    if j.waiting && decide (1 < j.devices) && snap != j.reportedSnap then s.sendJoin r else s
  | none => s

/-- All conditions but the snapshot hold: the device joins. -/
def State.joinNow (s : State) (r : Nat) (j : Job) : State :=
  if j.devices ≤ 1 then s.releaseBarrier r (s.room r).mem.snap.newestStep else s.sendJoin r

/-- R423 and R273: the barrier of the job's epoch joined, once everything it waits for has happened. -/
def State.barJoin (s : State) (r : Nat) : State :=
  match (s.room r).job with
  | none => s
  | some j =>
    let x := s.room r
    let e := j.epoch
    if j.faulted || j.waiting || !j.unitsIn || s.joinHeld r e || s.paced r e then s
    else if j.phase = 2 && x.snapDue e && !j.marked then
      if !x.quiet then s
      else if 1 < j.devices ∧ x.mem.snap.plan.any fun p => p.buddy ≠ buddyOf j.rank j.devices then s.raiseFault r Code.buddyMismatch noUnit
      else if x.mem.snap.plan.any fun p => decide (p.snapBytes < (s.snapOf r j).bytes) then s.raiseFault r Code.snapOversize noUnit
      else if x.mem.snap.free then ((s.snapWaited r).markSnap r j).joinNow r j
      else if 1 < j.devices && x.mem.snap.copying.isNone && x.mem.snap.report == x.mem.snap.newestStep then (s.snapHold r).sendJoin r
      else s.snapHold r
    else s.joinNow r j

/-- BAR_JOIN (R423, R424). -/
def execBarJoin (room : Nat) (s : State) : Host.Outcome State Fault Refusal := .next (s.barJoin room)

/-- BAR_JOIN received at a manager or the head (R425). -/
def execBarJoinMessage (p : Pkt) (s : State) : Host.Outcome State Fault Refusal :=
  .next (s.ctrlRow p 0x14 fun s =>
    let entry : BarEntry := ⟨p.src, p.arg 4 4, p.arg 16 8, (p.arg 24 4 + 1) % 2 ^ 32⟩
    if s.caravan.isHead then s.headCount p.cjob p.cinc (p.arg 0 4) (p.arg 8 8) (p.arg 28 1) entry
    else if s.caravan.isManager && managerOf p.src == s.caravan.mid then
      s.managerCount p.cjob p.cinc (p.arg 0 4) (p.arg 8 8) (p.arg 28 1) entry
    else s)

/-- RELEASE: a manager records its caravan's lags and passes it to its workers; the device releases its barrier (R425, R426). -/
def execRelease (p : Pkt) (s : State) : Host.Outcome State Fault Refusal :=
  .next (s.ctrlRow p 0x15 fun s =>
    if s.caravan.isHead ∨ p.src ≠ s.caravan.giver then s
    else
      let s :=
        if s.caravan.isManager then
          let s := match tfind s.caravan.bars p.cjob with
            | some b => s.noteLags p.cjob b.entries
            | none => s
          let s := { s with caravan := { s.caravan with bars := tdel s.caravan.bars p.cjob } }
          let mine := dedup (((tget [] s.caravan.maps p.cjob).map (·.2)).filter fun m => managerOf m = s.caravan.mid && m != s.caravan.mid)
          mine.foldl (fun s m => s.ctrlSend m m 0x15 p.cjob p.cinc none p.body) s
        else s
      let c := p.arg 4 4
      s.releaseHere p.cjob p.cinc (p.arg 0 4) (if c = 0xFFFFFFFF then none else some c))

/-! ## Timeouts (R424, R425) -/

/-- BAR_LOCAL: a join, an acknowledgement or a WAIT not done within the barrier timeout. -/
def execBarLocal (room at_ : Nat) (s : State) : Host.Outcome State Fault Refusal :=
  let s := s.upto at_
  .next (
    match (s.room room).job with
    | none => s
    | some j =>
      let x := s.room room
      let late (t : Nat) : Bool := decide (t + s.caravan.barrierNs ≤ s.now)
      let waits := s.cores.any fun c => (c.2.ctx room).any fun y => y.waitAt.any late
      if j.faulted then s
      else if waits then s.raiseFault room Code.barLocal noUnit
      else if j.waiting || !j.firstJoin.any late then s
      else
        let ready := j.unitsIn && !s.joinHeld room j.epoch && !s.paced room j.epoch && (j.phase ≠ 2 || !x.snapDue j.epoch || x.quiet)
        s.raiseFault room (if ready && !(x.modesAt j.epoch).isEmpty then Code.modeAck else Code.barLocal) noUnit)

/-- BAR_TIMEOUT at the head: the missing ranks go to its health record (R425). -/
def execBarTimeout (tag at_ : Nat) (s : State) : Host.Outcome State Fault Refusal :=
  let s := s.upto at_
  .next (
    match tfind s.caravan.jobs tag with
    | none => s
    | some h =>
      match h.bar with
      | none => s
      | some b =>
        if s.now < b.first + s.caravan.barrierNs then s
        else
          let by_ (mid : Nat) : Nat := if managerOf mid = 0 then mid else managerOf mid
          let missing := (h.map.filter fun e => !(b.entries.any fun x => x.mid = by_ e.2)).map (·.1)
          let s := missing.foldl (fun s k => s.healthRecord 6 Code.barTimeout 0xFFFF 0xFFFF k) s
          s.headAbort tag (missing.headD 0xFFFFFFFF) Code.barTimeout)

/-! ## Snapshots complete and mirrored (R274, R275, R278) -/

/-- SNAPSHOT_COMPLETE: the last page is in the slot, the digest is recorded, and the stream goes to the buddy. -/
def execSnapshotComplete (room : Nat) (s : State) : Host.Outcome State Fault Refusal :=
  .next (
    let x := s.room room
    match x.mem.snap.copying with
    | none => s
    | some k =>
      match x.mem.snap.slot k with
      | none => s
      | some v =>
        if !x.mem.snap.pending.isEmpty then s
        else
          let v := { v with digest := v.computeDigest, complete := true }
          let far := match x.job with
            | some j => if 1 < j.devices then x.mem.snap.plan.bind fun p => if p.buddy = 0xFFFFFFFF then none else some p.buddy else none
            | none => none
          let alone := x.job.all fun j => decide (j.devices ≤ 1)
          let s := s.modMem room fun m =>
            let n := m.snap.setSlot k (some v)
            { m with snap := { n with
              copying := none, newest := some k, released := alone || (n.slot (1 - k)).isNone,
              mirroring := if far.isSome then some (k, 1) else none } }
          let s := s.modRoom room fun y => { y with ledger := { y.ledger with snapStep := v.step, snapDigest := v.digest } }
          let s := match far with
            | some b =>
              let (n, s) := s.takeMsg (flowKey room b 0xFFF0)
              s.sendMsg room b 0xFFF0 ⟨n, k, 0, v.bytes, 0, 2, 0, false, none⟩
            | none => s
          s.reportAgain room)

/-- MIRROR_ACK: the mirror is complete; on a mismatch the stream is sent once more, and a second mismatch is a job fault. -/
def execMirrorAck (room : Nat) (digestOk : Bool) (s : State) : Host.Outcome State Fault Refusal :=
  .next (
    let x := s.room room
    match x.mem.snap.mirroring with
    | none => s
    | some (k, n) =>
      match x.mem.snap.slot k with
      | none => s
      | some v =>
        if digestOk then
          (s.modMem room fun m => { m with snap := { m.snap with mirroring := none, mirrored := some v.step } }).reportAgain room
        else if n = 1 then
          match x.mem.snap.plan with
          | none => s
          | some p =>
            let s := s.modMem room fun m => { m with snap := { m.snap with mirroring := some (k, 2) } }
            let (i, s) := s.takeMsg (flowKey room p.buddy 0xFFF0)
            s.sendMsg room p.buddy 0xFFF0 ⟨i, k, 0, v.bytes, 0, 2, 0, false, none⟩
        else (s.modMem room fun m => { m with snap := { m.snap with mirroring := none } }).raiseFault room Code.snapMirror noUnit)

/-! ## Frame boundaries (R351, R352) -/

/-- FRAME_BOUNDARY: the armed schedule becomes active; a held barrier of the pacing room is then released, and its MODE_STAGE completes. -/
def execFrameBoundary (at_ : Nat) (s : State) : Host.Outcome State Fault Refusal :=
  if at_ < s.now ∨ !s.frameDue at_ then .next (s.upto at_)
  else
    let s := s.upto at_
    .next (
      match s.sched.pacing with
      | none => s.schedSwitch
      | some (q, n, r, _) =>
        match (s.room r).job with
        | none => s
        | some j =>
            let s := s.schedSwitch
            let s := { s with sched := { s.sched with pacing := none } }
            let s := s.complete q n stOk 0 0 0 0
            if j.devices ≤ 1 then s.barJoin r else s)

/-! ## Duties that have passed (R368) -/

/-- What a successor does with duties that have passed to it: it rebuilds the rings of the rooms (R325), and acts on the barriers held for the role. -/
def State.takeOver (s : State) : State :=
  let l := s.stewards.handed
  let s := { s with stewards := { s.stewards with handed := if s.dutyServed then [] else l.filter (· = 4) } }
  let s := ((s.rings.filter fun q => l.contains (q.2.room % 4)).map (·.1)).foldl (fun s q => s.reread q) s
  if !l.contains 4 ∨ !s.dutyServed then s
  else
    let s := s.caravan.jobs.foldl (fun s j => s.headRelease j.1) s
    s.caravan.bars.foldl (fun s b => s.managerSend b.1) s

/-- FENCE from the lease giver. -/
def execFence (p : Pkt) (s : State) : Host.Outcome State Fault Refusal :=
  .next (s.ctrlRow p 0x08 fun s => if s.caravan.isHead ∨ p.src ≠ s.caravan.giver then s else (s.fenceOff (p.arg 4 2)).takeOver)

/-- Device time reaches the latest granted expiry: the device fences (R418). -/
def execLeaseExpiry (at_ : Nat) (s : State) : Host.Outcome State Fault Refusal :=
  let s := s.upto at_
  .next (if !s.caravan.isHead && (s.caravan.member || !s.caravan.links.isEmpty) && s.caravan.expiry != 0 && decide (s.caravan.expiry ≤ s.now)
    then (s.fenceOff Code.fenceLease).takeOver else s)

/-- ABORT: this device's part of the incarnation ends; a manager passes it on and stops counting. -/
def execAbort (p : Pkt) (s : State) : Host.Outcome State Fault Refusal :=
  .next (s.ctrlRow p 0x17 fun s =>
    if s.caravan.isHead ∨ p.src ≠ s.caravan.giver then s
    else if s.caravan.isManager && p.remote != s.caravan.mid then (s.dropBar p.cjob).passDown p p.body
    else ((s.dropBar p.cjob).abortHere p.cjob p.cinc (p.arg 8 2) (p.arg 0 4)).takeOver)

end Sys2Proof.Machine
end

