-- ==== Sys2Proof/Machine/Rooms.lean ====
section
/-! DEFINITION. Rooms: the grant's check and COMMIT, turnover phase by phase, function resets and the enabling of functions (chapter 13, R328 to R343, and R464). -/

namespace Sys2Proof.Machine

/-! ## COMMIT (R331 to R333, Table 13.6, R464) -/

/-- Whether a room holds its grant: COMMITTED, or still in TURNOVER. -/
def Room.holds (x : Room) : Bool := x.st == .committed || x.st == .turnover

/-- The other rooms that hold a grant. -/
def State.otherHolders (s : State) (r : Nat) : List Room := (s.rooms.filter fun p => p.1 ≠ r && p.2.holds).map (·.2)

/-- A range of a grant word: base in the low half, count in the high half (ROOM_STREAMS, ROOM_DEVCTX, ROOM_DICT). -/
def grantBase (w : Nat) : Nat := bits w 15 0
def grantCount (w : Nat) : Nat := bits w 31 16

/-- Base and size of a room's common-store range on a die, in MiB. -/
def Grant.commonOf (g : Grant) (die : Nat) : Nat × Nat := (bits g.common (16 * die + 7) (16 * die), bits g.common (16 * die + 15) (16 * die + 8))

/-- Two ranges of base and size share a member. -/
def rangeClash (a b : Nat × Nat) : Bool := overlaps a.1 a.2 b.1 b.2

/-- One exclusive range: within a limit, and apart from every other room's. -/
def rangeOk (limit : Nat) (own : Nat × Nat) (others : List (Nat × Nat)) : Bool :=
  decide (own.1 + own.2 ≤ limit) && !others.any (rangeClash own)

/-- Frames of the variant for quotas, less the staging frames and those withdrawn (Table 13.5, R238). -/
def State.totalUpper (s : State) : Nat := sumNat (s.sites.map fun k => s.usableFrames k - (s.stack k).withdrawn.length)
def totalCellar : Nat := 2 * (framesPerHalf - 32)

def sumOf {α : Type} (f : α → Nat) (l : List α) : Nat := sumNat (l.map f)

/-- The first row of Table 13.6 that a COMMIT breaks; then the further conditions of a confidential room (R464). -/
def State.grantCheck (s : State) (r : Nat) : Option Nat :=
  let x := s.room r
  let g := x.grant
  let os := s.otherHolders r
  let gs := os.map (·.grant)
  let word (w : Nat) : Nat × Nat := (grantBase w, grantCount w)
  let (maxS, maxD, maxT) := ingestMax s.variant
  let rings (g : Grant) : Nat × Nat := (bits g.rings 13 0, bits g.rings 26 16)
  let coreClash (y : Room) : Bool := (g.cores0 &&& y.grant.cores0) != 0 || (g.cores1 &&& y.grant.cores1) != 0
  firstSome (fun p : Bool × Nat => if p.1 then some p.2 else none)
    [(x.st != .vacant, Code.grantState),
     (decide (1024 < (rings g).2) || !rangeOk 16384 (rings g) (gs.map rings), Code.grantRings),
     (g.cores0 == 0 && g.cores1 == 0, Code.grantCores),
     ([0, 1].any fun d => !rangeOk 64 (g.commonOf d) (gs.map (·.commonOf d)), Code.grantCommon),
     (decide (s.totalUpper < sumOf (·.upper) (g :: gs)) || decide (totalCellar < sumOf (·.cellar) (g :: gs)), Code.grantQuota),
     (!rangeOk 128 (word g.branch) (gs.map fun h => word h.branch), Code.grantBranch),
     (!rangeOk maxS (word g.streams) (gs.map fun h => word h.streams) || !rangeOk maxD (word g.devctx) (gs.map fun h => word h.devctx) ||
        !rangeOk maxT (word g.dict) (gs.map fun h => word h.dict), Code.grantIngest),
     (decide (240 < sumOf (fun h => bits h.stackRes 15 0) (g :: gs)) || decide (3000 < sumOf (fun h => bits h.stackRes 31 16) (g :: gs)), Code.grantReserve),
     ((x.sec.conf && (bits (s.fuse 0) 2 0 != 3 || os.any coreClash)) || os.any fun y => y.sec.conf && coreClash y, Code.secConfCores)]

/-- A new cellar key, and for a confidential room a new import key pair (R281, R339, R464). -/
def State.newRoomKeys (s : State) (r : Nat) : State :=
  let (v, s) := s.draw
  let s := s.modRoom r fun x => { x with sec := { x.sec with cellarKey := some v } }
  if (s.room r).sec.conf then
    let (v, s) := s.draw
    s.modRoom r fun x => { x with sec := { x.sec with importKey := some v } }
  else s

/-- A successful COMMIT (R333): v[r] is 0 at every arbiter, the room's buckets are full (R347, R362). -/
def State.commitRoom (s : State) (r : Nat) : State :=
  let s := s.newRoomKeys r
  let s := s.modRoom r fun x => { x with
    grantErr := 0
    st := .committed
    ledger := { Ledger.reset with opened := s.now }
    sec := { x.sec with faults := 0 } }
  let s := { s with
    sched := { s.sched with
      vtime := tfilter s.sched.vtime fun k _ => k % 64 ≠ r
      ready := tmap s.sched.ready fun _ l => l.filter (· ≠ r)
      turns := tdel s.sched.turns r }
    stackTbl := tmap s.stackTbl fun _ k => { k with tokens := tdel k.tokens r } }
  if (s.room r).sec.conf then s.audit 0x0A 0 0 r 0 [] else s

/-! ## Turnover, phases 1 and 2 (R335, R336) -/

/-- Completions owed to other rooms' descriptors that wait on this room's barriers. -/
def State.foreignWaiters (s : State) (r : Nat) : List Done :=
  let x := s.room r
  let l := (x.modes.filter (·.waiting)).map (fun m => (⟨m.ring, m.seq, stCancelled, Code.stepEnded⟩ : Done)) ++
    (match s.sched.pacing with
      | some (q, n, p, _) => if p = r then [⟨q, n, stCancelled, Code.stepEnded⟩] else []
      | none => [])
  l.filter fun d => (s.ring d.ring).room ≠ r

/-- Every ring of a room DISABLED; descriptors in intake end without completion (R306, R335). -/
def State.dropRings (s : State) (r : Nat) : State :=
  { s with
    rings := tmap s.rings fun _ q => if q.room = r ∧ q.kind ≠ 0 then { Ring.reset with room := r } else q
    restart := if s.restart.any fun t => t.1 = r then none else s.restart }

/-- The room's words stop at once, their core time charged; its contexts stay resident until the scrub (Table 13.8, R366). -/
def State.stopCores (s : State) (r : Nat) : State :=
  let s := s.accountRoom r
  { s with cores := tmap s.cores fun _ c => { c with
      ctxs := tmap c.ctxs fun k x => if k = r then { x with stopped := true, flights := [], readyAt := none } else x } }

/-- Every move of a room's pages is called off (R260, Table 13.8). -/
def State.cutMoves (s : State) (r : Nat) : State :=
  s.modMem r fun m => { m with pages := tmap m.pages fun _ p => { p with moving := none } }

/-- A debug session that touches a room ends (R469). -/
def State.endDebug (s : State) (r : Nat) : State :=
  match s.sec.debug with
  | some (rs, scope) =>
    if rs.contains r then { s with sec := { s.sec with debug := none } }.audit 0x0C 0 0 r 0 (leBytes 4 scope) else s
  | none => s

/-- The room's job is left to its peers as an absent device leaves it; the PSN spaces of its mirror flows stay for the answers of R341. -/
def State.leaveJob (s : State) (r : Nat) : State :=
  match (s.room r).job with
  | none => s
  | some j =>
    if j.tag = 0 then s
    else
      let kept := s.net.flows.filterMap fun f =>
        if f.1 / 2 ^ 34 = r ∧ f.1 % 2 ^ 16 = 0xFFF0 then some (f.1 % 2 ^ 34, f.2.psn) else none
      { s with net := { s.net with
          left := tset s.net.left j.tag j.rank
          flows := kept.foldl (fun t f => tset t ((64 + j.tag) * 2 ^ 34 + f.1) { Flow.reset with psn := f.2 }) s.net.flows } }

/-- Intake stop and cut of a committed room (Table 13.7, phases 1 and 2), with the duties that pass when its job is gone. `notice` writes the ROOM_TURNOVER ring event (R323). -/
def State.cutHere (s : State) (r : Nat) (release disable notice : Bool) : State :=
  let s := if notice then s.postInit r 0 (s.room r).ringBase stRoomTurnover 0 0 0 else s
  let waiters := s.foreignWaiters r
  let s := if s.sched.pacing.any fun p => p.2.2.1 = r ∨ (s.ring p.1).room = r
    then { s with sched := { s.sched with pacing := none, pending := false } } else s
  let s := s.dropRings r
  let s := s.leaveJob r
  let s := (((s.stopCores r).cutEngines r).cutSnap r).cutMoves r
  let s := (s.modRoom r fun x => { x with
    st := .turnover
    turn := some ⟨s.now, 1, release, disable⟩
    drainForced := false
    job := none
    modes := []
    plans := []
    sec := { x.sec with consent := none } }).endDebug r
  (s.finish waiters).passDuties

/-- The cut, after which a successor takes up the duties that have passed to it (R368). -/
def State.cutRoom (s : State) (r : Nat) (release disable notice : Bool) : State := (s.cutHere r release disable notice).takeOver

/-- A trigger of R338: a committed room starts its turnover, one in turnover takes the trigger's wish with it. -/
def State.startTurnover (s : State) (r : Nat) (release disable notice : Bool) : State :=
  let x := s.room r
  match x.st with
  | .committed => s.cutRoom r release disable notice
  | .turnover => s.modRoom r fun x => { x with turn := x.turn.map fun t => { t with release := t.release || release, disable := t.disable || disable } }
  | _ => s

/-- TURNOVER by the physical function (Table 13.3). -/
def execTurnover (fn room : Nat) (release : Bool) (s : State) : Host.Outcome State Fault Refusal :=
  .next (if fn = 0 then s.startTurnover room release false true else s)

/-! ## Phases 3 and 4 (R336, R337, R340) -/

/-- The scrub of a room's cores: one that holds no other room's context is zeroed, from the others only the room's own context goes (R337). -/
def Core.scrub (c : Core) (r : Nat) : Core :=
  if (c.ctx r).isNone then c
  else if c.ctxs.length = 1 then { Core.reset with awake := c.awake, since := c.since, chargedAt := c.chargedAt, usedAt := c.usedAt }
  else { c with ctxs := tdel c.ctxs r, sel := if c.sel = some r then none else c.sel, banks := if c.sel = some r then [] else c.banks }

/-- Keys of a table outside a grant's range. -/
def outsideGrant {α : Type} (w : Nat) (t : Tbl α) : Tbl α := tfilter t fun k _ => decide (k < grantBase w) || decide (grantBase w + grantCount w ≤ k)

/-- Gate closed and scrub (Table 13.7, phases 3 and 4). -/
def State.scrub (s : State) (r : Nat) : State :=
  let g := (s.room r).grant
  let zero (die : Nat) (m : Memory) : Memory := memZero m ((g.commonOf die).1 * 1048576) ((g.commonOf die).2 * 1048576)
  let s := { s with
    cores := tmap s.cores fun _ c => c.scrub r
    common := tmap s.common zero
    msix := tmap s.msix fun k e => if k / 32 = r then { e with pending := false } else e
    ingest := { s.ingest with
      streams := outsideGrant g.streams s.ingest.streams
      devs := outsideGrant g.devctx s.ingest.devs
      dicts := outsideGrant g.dict s.ingest.dicts } }
  s.modRoom r fun x => { x with
    turn := x.turn.map fun t => { t with phase := 3 }
    sems := []
    iface := 0
    rtab := 0
    startErr := false
    postErr := false
    grantErr := 0
    forest := none
    kernels := []
    prog := []
    coll := []
    progAddr := 0
    progN := 0
    postAddr := 0
    stallNs := []
    stallEv := []
    turnNs := 0
    dbIgnored := 0
    mem := { x.mem with
      promoteHeat := 64
      promoteNext := 64 }
    sec := { x.sec with
      rqAddr := 0
      rqCode := 0
      rqDone := false } }

def Room.phase (x : Room) : Nat := (x.turn.map (·.phase)).getD 0

/-- GATE_CLOSE: every engine is at its cut. -/
def execGateClose (room : Nat) (s : State) : Host.Outcome State Fault Refusal :=
  .next (if (s.room room).st = .turnover ∧ (s.room room).phase = 1 then s.scrub room else s)

/-- DRAIN_LIMIT: 50 µs after phase 1 an engine that has not reached its cut is reset for the room and recorded, each in its turn, and the gate closes (R340). -/
def execDrainLimit (room unit at_ : Nat) (s : State) : Host.Outcome State Fault Refusal :=
  let s := s.upto at_
  .next (
    match (s.room room).turn with
    | some t =>
      if (s.room room).st ≠ .turnover ∨ s.now < t.start + 50000 then s
      else if t.phase = 1 then ((s.modRoom room fun x => { x with drainForced := true }).healthRecord 8 0 unit room 0).scrub room
      else if (s.room room).drainForced then s.healthRecord 8 0 unit room 0
      else s
    | none => s)

/-! ## Phases 5 and 6, and the end (R339, R341, R343) -/

/-- The room's upper frames on one stack. -/
def State.roomFrames (s : State) (r site : Nat) : List Nat := (s.room r).mem.upperFrames site

/-- Frames on stopped stacks wait for the stack's return (R341); poison and lost pages of zeroed frames go. -/
def State.zeroFrames (s : State) (r : Nat) : State :=
  s.sites.foldl (fun s k =>
    let fs := s.roomFrames r k
    s.modStack k fun x => { x with
      held := if x.stopped then x.held ++ fs.map fun f => (r, f) else x.held
      poison := if x.stopped then x.poison else x.poison.filter fun p => !fs.contains p.1
      lost := x.lost.filter fun p => p.1 ≠ r }) s

/-- Whether frames of a room await zeroing on a stopped stack. -/
def State.quarantined (s : State) (r : Nat) : Bool := s.sites.any fun k => (s.stack k).stopped && !(s.roomFrames r k).isEmpty

/-- The end of a turnover: keys discarded, the ledger closed, the state of R339 taken. -/
def State.endTurnover (s : State) (r : Nat) (t : Turn) : State :=
  let q := s.quarantined r
  let s := s.zeroFrames r
  let w := s.sched.active
  let s := s.modRoom r fun x => { x with
    mem := RoomMem.reset
    turn := none
    quarantine := q
    turnNs := s.now - t.start
    seed := none
    precision := []
    fault := none
    lateFaults := 0
    ledger := { x.ledger with closed := s.now, cls := b2n (bit (tget 100 w.rooms r) 16), share := bits (tget 100 w.rooms r) 9 0 }
    sec := { RoomSec.reset with conf := x.sec.conf, faults := x.sec.faults } }
  if t.disable ∨ t.release then
    let s := { s with sched := { s.sched with staged := { s.sched.staged with rooms := tdel s.sched.staged.rooms r } } }
    s.modRoom r fun x => { x with
      st := if t.disable && !(r = 0 || (s.vfEnable && decide (r ≤ s.numVfs))) then .absent else .vacant
      grant := Grant.reset r
      sec := { x.sec with conf := false } }
  else (s.newRoomKeys r).modRoom r fun x => { x with st := .committed }

/-- ZEROING_COMPLETE: the last stack has zeroed the room's frames. -/
def execZeroingComplete (room at_ : Nat) (s : State) : Host.Outcome State Fault Refusal :=
  let s := s.upto at_
  .next (
    match (s.room room).turn with
    | some t => if (s.room room).st = .turnover ∧ t.phase = 3 then s.endTurnover room t else s
    | none => s)

/-! ## Functions (R328, R338) -/

/-- A room whose function is disabled: turned over, or gone at once, with what its registers held, where it holds nothing. -/
def State.disableRoom (s : State) (r : Nat) : State :=
  match (s.room r).st with
  | .vacant => s.modRoom r fun x => { x with
      st := .absent
      grant := Grant.reset r
      iface := 0
      rtab := 0
      startErr := false
      postErr := false
      grantErr := 0
      progAddr := 0
      progN := 0
      postAddr := 0
      sec := { x.sec with conf := false } }
  | .absent => s
  | _ => s.startTurnover r false true false

/-- A room whose function is enabled. -/
def State.enableRoom (s : State) (r : Nat) : State :=
  if (s.room r).st = .absent then s.modRoom r fun x => { x with st := .vacant } else s

/-- VF Enable and NumVFs take new values (R328). -/
def State.setVfs (s : State) (enable : Bool) (num : Nat) : State :=
  let num := Nat.min num 63
  let s := { s with vfEnable := enable, numVfs := num }
  (span 1 63).foldl (fun s r => if enable && decide (r ≤ num) then s.enableRoom r else s.disableRoom r) s

def execVfEnableChange (enable : Bool) (num : Nat) (s : State) : Host.Outcome State Fault Refusal := .next (s.setVfs enable num)

/-- The function's own PCI Express state returns to reset: its vectors, and its register snapshots. -/
def State.resetFunction (s : State) (fn : Nat) : State :=
  { s with
    msix := tfilter s.msix fun k _ => k / 32 ≠ fn
    snaps := tdel s.snaps fn
    held := tfilter s.held fun k _ => k / 2 ^ 25 ≠ fn }

/-- A function-level reset (R338). -/
def State.flr (s : State) (fn : Nat) : State :=
  if fn = 0 then
    let s := s.setVfs false 0
    ((List.range 64).foldl (fun s r => s.resetFunction r) s).startTurnover 0 false false false
  else (s.resetFunction fn).startTurnover fn false false false

def execFunctionLevelReset (fn : Nat) (s : State) : Host.Outcome State Fault Refusal :=
  .next (if (s.room fn).st = .absent then s else s.flr fn)

end Sys2Proof.Machine
end

