-- ==== Sys2Proof/Machine/StewardOps.lean ====
section
/-! DEFINITION. Stewards: crashes, restarts, failures and the passing of duties (R367 to R370, R375 to R377, R325). -/

namespace Sys2Proof.Machine

/-- Unit index of a steward pair (R494). -/
def stewardUnit (p : Nat) : Nat := 160 + p

/-- Rooms whose incarnations a fault of a pair takes: those it serves, and with the device duties every part of a caravan job (R376). -/
def State.pairRooms (s : State) (p : Nat) : List Nat :=
  allRooms.filter fun r => s.pairOf r = p || (s.dutyPair = p && (s.room r).job.any fun j => decide (1 < j.devices))

/-- A job fault over the incarnations of a pair. -/
def State.pairFault (s : State) (p code : Nat) : State :=
  (s.pairRooms p).foldl (fun s r => s.raiseFault r code (stewardUnit p)) s

/-- What a steward that acts again does with the incarnations whose fault ran its path without it (R377). -/
def State.resumeRoom (s : State) (r : Nat) : State :=
  match (s.room r).job with
  | none => s
  | some j =>
    match j.aborted with
    | some c => s.endJob r stJobFault c [] j.released
    | none =>
      if j.faulted && decide (j.devices ≤ 1) then s.endJob r stJobFault (((s.room r).fault.map (·.code)).getD 0) [] j.released else s

/-- A pair marked failed (R376, R368): its fault, the alarm of Table 15.5, the end of the incarnations that waited for it, its duties to a successor, or
the device out of service. -/
def State.failPair (s : State) (p : Nat) : State :=
  let rooms := s.pairRooms p
  let s := s.modPair p fun x => { x with st := 3 }
  let s := rooms.foldl (fun s r => s.raiseFault r Code.stewardFailed (stewardUnit p)) s
  let s := s.maintAlarm Code.stewardFailed (stewardUnit p) p
  let s := rooms.foldl (fun s r => s.resumeRoom r) s
  let s := s.passDuties
  if [0, 1, 2, 3].all fun q => (s.pair q).st = 3 then s.outOfService Code.stewardNone else s.takeOver

/-- A pair that stops: its rings FROZEN, its SRAM lost, its restart begun; a second crash within 10 s is a fault, one during the restart a failure
(R375, R376). -/
def State.crashPair (s : State) (p : Nat) : State :=
  let x := s.pair p
  if x.st = 2 then s.failPair p
  else if x.st ≠ 1 then s
  else
    let s := s.thawRings (fun r => s.pairOf r = p) .active .frozen
    let repeated := x.crashes.head?.any fun t => decide (s.now < t + 10000000000)
    let recent := x.crashes.filter fun t => decide (s.now < t + 3600000000000)
    let s := s.modPair p fun x => { x with
      st := 2
      crashAt := some s.now
      slow := false
      seen := []
      sram := []
      crashes := s.now :: x.crashes }
    let s := s.healthRecord 7 (if repeated then Code.stewardRepeat else 0) (stewardUnit p) 0xFFFF x.restarts
    let s := if repeated then s.pairFault p Code.stewardRepeat else s
    if 2 ≤ recent.length then s.maintAlarm 0 (stewardUnit p) (recent.length + 1) else s

/-- STEWARD_CRASH: a lockstep mismatch, or an uncorrectable error of the pair's SRAM, with the errors that its ECC has corrected there (R367, R369). -/
def execStewardCrash (crash : PairCrash) (at_ : Nat) (s : State) : Host.Outcome State Fault Refusal :=
  let s := s.upto at_
  .next (
    if 4 ≤ crash.pair then s
    else
      let s := s.corrected (stewardUnit crash.pair) (stewardUnit crash.pair) crash.corrected
      (if crash.sram then s.count (stewardUnit crash.pair) 1 1 else s).crashPair crash.pair)

/-- STEWARD_WATCHDOG: 5 ms without a visit to every ring (R370). -/
def execStewardWatchdog (pair at_ : Nat) (s : State) : Host.Outcome State Fault Refusal :=
  let s := s.upto at_
  .next (
    if 4 ≤ pair ∨ (s.pair pair).st ≠ 1 ∨ s.now < (s.pair pair).visited + 5000000 then s
    else (s.count (stewardUnit pair) 15 1).crashPair pair)

/-- 250 ms after the crash without intake: STEWARD_SLOW, once a restart (R376). -/
def State.slowPair (s : State) (p : Nat) : State :=
  let x := s.pair p
  if x.st ≠ 2 ∨ x.slow ∨ s.now < x.crashAt.getD s.now + 250000000 then s
  else
    let s := s.modPair p fun x => { x with slow := true }
    (s.healthRecord 7 Code.stewardSlow (stewardUnit p) 0xFFFF p).pairFault p Code.stewardSlow

/-- A pair resumes intake (R375): counts, its rings ACTIVE and their unstarted descriptors read again, held faults, records and barriers acted on. -/
def State.resumePair (s : State) (p : Nat) : State :=
  let x := s.pair p
  let us := (s.now - x.crashAt.getD s.now) / 1000
  let s := s.modPair p fun x => { x with
    st := 1
    restarts := Nat.min 65535 (x.restarts + 1)
    lastUs := Nat.min (2 ^ 32 - 1) us
    crashAt := none
    visited := s.now
    slow := false }
  let s := s.thawRings (fun r => s.pairOf r = p) .frozen .active
  let s := ((s.rings.filter fun q => s.pairOf q.2.room == p).map (·.1)).foldl (fun s q => s.reread q) s
  let s := (allRooms.filter fun r => s.pairOf r = p).foldl (fun s r => s.resumeRoom r) s
  if s.dutyPair ≠ p then s.passDuties.takeOver
  else { s with stewards := { s.stewards with handed := 4 :: s.stewards.handed } }.flushHealth.passDuties.takeOver

/-- An image store whose image agrees with its digest (R374). -/
def ImageStore.ok (x : ImageStore) : Bool := sha384 (x.image.take (512 + leNat ((x.image.drop 20).take 4))) == x.digest

/-- STEWARD_RESTART_DONE: the pair has copied the image of its die's store, while nothing gates it; a copy that fails its digest marks it failed, and a
restart that took 250 ms is slow (R375, R376). -/
def execStewardRestartDone (done : PairStart) (at_ : Nat) (s : State) : Host.Outcome State Fault Refusal :=
  let s := s.upto at_
  let x := s.pair done.pair
  .next (
    if 4 ≤ done.pair ∨ x.st ≠ 2 ∨ x.gated ∨ s.power.trip.contains (done.pair / 2) then s
    else
      match tfind s.stewards.stores (done.pair / 2) with
      | none => s
      | some y => if done.intact && y.ok then (s.slowPair done.pair).resumePair done.pair else s.failPair done.pair)

/-- STEWARD_SLOW: 250 ms after the crash without intake (R376). -/
def execStewardSlow (pair at_ : Nat) (s : State) : Host.Outcome State Fault Refusal :=
  let s := s.upto at_
  .next (if 4 ≤ pair then s else s.slowPair pair)

end Sys2Proof.Machine
end

