-- ==== Sys2Proof/Machine/Powering.lean ====
section
/-! DEFINITION. Power, heat and wear: ownership locks and gate controls, security faults, set points and their controllers, droop, the 48 V input, trips, stacks and lanes (chapters 9, 19 and 20). -/

namespace Sys2Proof.Machine

/-! ## What a room holds (Table 19.9) -/

/-- Bits of a number that pass a test, below a width. -/
def bitsWhere (n : Nat) (p : Nat → Bool) : Nat := sumNat ((List.range n).map fun i => if p i then 2 ^ i else 0)

/-- Bits set below a width. -/
def popCount (n v : Nat) : Nat := ((List.range n).filter fun i => bit v i).length

/-- The physical core of a logical one on a die. -/
def State.physOf (s : State) (die l : Nat) : Nat := tget (deliveredCore l) s.health.coreMap (die * 64 + l)

/-- Physical cores of a die behind a mask of logical cores. -/
def State.physMask (s : State) (die mask : Nat) : Nat :=
  bitsWhere 68 fun p => (List.range 64).any fun l => bit mask l && s.physOf die l == p

/-- Sites of the contexts and slots of a grant (R285). -/
def Grant.ioSites (g : Grant) (variant : Nat) : List Nat :=
  let has (w lo hi : Nat) : Bool := overlaps (grantBase w) (grantCount w) lo (hi - lo)
  [2, 3].filter fun k =>
    if variant = 1 then (if k = 2 then has g.streams 0 128 || has g.devctx 0 64 else has g.streams 128 65536 || has g.devctx 64 65536)
    else k = 3 && (grantCount g.streams != 0 || grantCount g.devctx != 0 || grantCount g.dict != 0)

/-- Units of a room in the layout of SEC_LOCK_UNITS: those freed by the scrub only where `early` holds. -/
def State.unitMask (s : State) (x : Room) (early : Bool) : Nat :=
  let io := x.grant.ioSites s.variant
  bitsWhere 25 fun i =>
    if i < 16 then !(x.mem.upperFrames i).isEmpty
    else if i < 20 then early && io.contains (i - 16)
    else if i < 22 then !(x.mem.cellarFrames (i - 20)).isEmpty
    else if i < 24 then early && x.forest.isSome
    else true

/-- Whether the scrub of a room's turnover has not ended. -/
def Room.unscrubbed (x : Room) : Bool := x.st == .committed || (x.st == .turnover && x.phase < 3)

/-- Logical cores of a die locked by confidential rooms (SEC_LOCK_CORES). -/
def State.lockCores (s : State) (die : Nat) : Nat :=
  s.rooms.foldl (fun a p => if p.2.sec.conf && p.2.unscrubbed then a ||| (if die = 0 then p.2.grant.cores0 else p.2.grant.cores1) else a) 0

/-- Units locked by confidential rooms (SEC_LOCK_UNITS). -/
def State.lockUnits (s : State) : Nat :=
  s.rooms.foldl (fun a p => if p.2.sec.conf && p.2.holds then a ||| s.unitMask p.2 p.2.unscrubbed else a) 0

/-- Logical cores of a die, and units, that committed rooms hold. -/
def State.heldCores (s : State) (die : Nat) : Nat :=
  s.rooms.foldl (fun a p => if p.2.st = .committed then a ||| (if die = 0 then p.2.grant.cores0 else p.2.grant.cores1) else a) 0

def State.heldUnits (s : State) : Nat :=
  s.rooms.foldl (fun a p => if p.2.st = .committed then a ||| s.unitMask p.2 true else a) 0

/-- Unit index of a bit of SEC_LOCK_UNITS (R494). -/
def unitOfBit (i : Nat) : Nat := if i < 24 then 136 + i else 160

/-- Whether a room holds a unit of Table 19.9, by unit index. -/
def State.holdsUnit (s : State) (x : Room) (u : Nat) : Bool :=
  if u < 136 then x.unscrubbed && bit (s.physMask (u / 68) (if u / 68 = 0 then x.grant.cores0 else x.grant.cores1)) (u % 68)
  else if u < 160 then x.holds && bit (s.unitMask x x.unscrubbed) (u - 136)
  else u < 164 && x.holds

/-! ## Security faults (R472) -/

/-- A security fault of a confidential room: keys zeroised, the record and the count, the turnover. -/
def State.secFault (s : State) (r unit cause : Nat) : State :=
  let x := s.room r
  if !x.sec.conf || !x.holds then s
  else
    let tag := match x.job with
      | some j => j.tag
      | none => 0
    let s := if tag = 0 then s else { s with net := { s.net with jobKeys := tdel s.net.jobKeys tag } }
    let s := s.modRoom r fun x => { x with sec := { x.sec with
      cellarKey := none
      importKey := none
      tenant := none
      content := none
      consent := none
      faults := x.sec.faults + 1 } }
    let s := s.audit 0x0E 0 0 r Code.secLockBreach (leBytes 2 unit ++ leBytes 2 cause)
    (s.endDebug r).startTurnover r false false true

/-- Security faults of every confidential room that holds one of some units. -/
def State.secFaults (s : State) (units : List Nat) (cause : Nat) : State :=
  (s.rooms.filter fun p => p.2.sec.conf && units.any fun u => s.holdsUnit p.2 u).foldl
    (fun s p => s.secFault p.1 ((units.find? fun u => s.holdsUnit p.2 u).getD noUnit) cause) s

/-- SECURITY_FAULT: a unit has lost its state while its gate control shows it enabled. -/
def execSecurityFault (unit : Nat) (s : State) : Host.Outcome State Fault Refusal :=
  .next (s.secFaults [unit] Code.secLockBreach)

/-! ## Gate controls (R471, R491) -/

/-- A word of gate bits written: blocked bits keep their value. -/
def gateBits (n old value blocked : Nat) : Nat := bitsWhere n fun i => if bit blocked i then bit old i else bit value i

/-- Ignored writes of locked units: counted, and one LOCK_DENIED record per unit and second. -/
def State.denyLocked (s : State) (control : Nat) (units : List Nat) : State :=
  units.foldl (fun s u =>
    let s := { s with sec := { s.sec with lockDenied := s.sec.lockDenied + 1 } }
    if (tfind s.sec.deniedAt u).any fun t => decide (s.now < t + 1000000000) then s
    else { s with sec := { s.sec with deniedAt := tset s.sec.deniedAt u s.now } }.audit 0x0D 0 0 0xFFFF 0 (leBytes 2 u ++ leBytes 2 control)) s

/-- Ignored and denied writes of one gate word: changed bits that a committed or a confidential room holds. -/
def State.gateDenied (s : State) (control n old value held locked : Nat) (unit : Nat → Nat) : State :=
  let changed := bitsWhere n fun i => bit old i != bit value i
  let s := { s with power := { s.power with gateIgnored := s.power.gateIgnored + popCount n (changed &&& held) } }
  s.denyLocked control (((List.range n).filter fun i => bit (changed &&& locked) i).map unit)

/-- A core whose physical core is power-gated has lost its state. -/
def State.zeroGated (s : State) (die mask : Nat) : State :=
  { s with cores := tfilter s.cores fun c _ => !(coreDie c = die && bit mask (s.physUnit c % 68)) }

/-- Stewards gated or ungated with bit 24 of either unit control (R376, R491). -/
def State.gateStewards (s : State) : State :=
  let g := bit (s.power.clkUnits ||| s.power.pwrUnits) 24
  [0, 1, 2, 3].foldl (fun s p =>
    let s := if g && (s.pair p).st == 1 then s.crashPair p else s
    s.modPair p fun x => { x with gated := g }) s

/-- A write of a gate word: group 0 and 1 the cores of a die, 2 the other units. -/
def State.gateWrite (s : State) (pwr : Bool) (group value : Nat) : State :=
  let control := group * 2 + b2n pwr
  if group < 2 then
    let old := if group = 0 then (if pwr then s.power.pwrCores0 else s.power.clkCores0) else (if pwr then s.power.pwrCores1 else s.power.clkCores1)
    let held := s.physMask group (s.heldCores group)
    let locked := s.physMask group (s.lockCores group)
    let new := gateBits 68 old value (held ||| locked)
    let s := s.gateDenied control 68 old value held locked fun i => 68 * group + i
    let s := { s with power :=
      match group, pwr with
      | 0, true => { s.power with pwrCores0 := new }
      | 0, false => { s.power with clkCores0 := new }
      | _, true => { s.power with pwrCores1 := new }
      | _, false => { s.power with clkCores1 := new } }
    if pwr then s.zeroGated group new else s
  else if group = 2 then
    let old := if pwr then s.power.pwrUnits else s.power.clkUnits
    let held := s.heldUnits
    let locked := s.lockUnits
    let new := gateBits 25 old value (held ||| locked)
    let s := s.gateDenied control 25 old value held locked unitOfBit
    { s with power := if pwr then { s.power with pwrUnits := new } else { s.power with clkUnits := new } }.gateStewards
  else s

/-- The strongroom brings the units of a confidential room to their enabled state at its COMMIT (R473). -/
def State.enableHeld (s : State) (r : Nat) : State :=
  let g := (s.room r).grant
  let off (old mask : Nat) : Nat := bitsWhere 68 fun i => bit old i && !bit mask i
  let units (old : Nat) : Nat := bitsWhere 25 fun i => bit old i && !bit (s.unitMask (s.room r) true) i
  let s := { s with power := { s.power with
    clkCores0 := off s.power.clkCores0 (s.physMask 0 g.cores0)
    pwrCores0 := off s.power.pwrCores0 (s.physMask 0 g.cores0)
    clkCores1 := off s.power.clkCores1 (s.physMask 1 g.cores1)
    pwrCores1 := off s.power.pwrCores1 (s.physMask 1 g.cores1)
    clkUnits := units s.power.clkUnits
    pwrUnits := units s.power.pwrUnits } }
  s.gateStewards

/-- POWER_CLKGATE: a write of a clock-gate control by the physical function. -/
def execPowerClkgate (fn group value : Nat) (s : State) : Host.Outcome State Fault Refusal :=
  .next (if fn = 0 then s.gateWrite false group value else s.badAcc)

/-- POWER_PWRGATE: a write of a power-gate control by the physical function. -/
def execPowerPwrgate (fn group value : Nat) (s : State) : Host.Outcome State Fault Refusal :=
  .next (if fn = 0 then s.gateWrite true group value else s.badAcc)

/-! ## COMMIT (R333, R464, R473) -/

/-- COMMIT by the physical function; the stewards check it, and units of a confidential room are enabled. -/
def State.commitWrite (s : State) (fn room : Nat) : State :=
  if fn ≠ 0 ∨ 64 ≤ room ∨ !s.stewards.ready then s
  else
    match s.grantCheck room with
    | some c => s.modRoom room fun x => { x with grantErr := c }
    | none => if (s.room room).sec.conf then (s.commitRoom room).enableHeld room else s.commitRoom room

def execCommit (fn room : Nat) (s : State) : Host.Outcome State Fault Refusal := .next (s.commitWrite fn room)

/-! ## Set points (R480, R481) -/

/-- Plan of a die in MHz. -/
def Power.plan (p : Power) (die : Nat) : Nat := if die = 0 then p.plan0 else p.plan1
def Power.thermSteps (p : Power) (die : Nat) : Nat := if die = 0 then p.thermSteps0 else p.thermSteps1

/-- Whether valid active entries name slot cores on a die. -/
def State.slotMask (s : State) (die : Nat) : Nat :=
  bitsWhere 64 fun l => s.sched.active.valid.any fun e => entDie e == die && bit (fld e 8 8) l

/-- The limit in MHz that `k` steps set for a core: 40 steps for the others, then 14 for slot cores, then the bench units. -/
def stepLimit (k : Nat) (slot : Bool) : Nat := if slot then 1850 - 25 * Nat.min 14 (k - 40) else 1850 - 25 * Nat.min 40 k

/-- Steps that lower nothing under a plan. -/
def idleSteps (plan : Nat) : Nat := (1850 - plan) / 25

/-- One step down; 55 is the floor. -/
def stepDown (plan : Nat) (slots : Bool) (k : Nat) : Nat :=
  let a := Nat.max k (idleSteps plan) + 1
  let b := Nat.max (Nat.max k 40) (40 + idleSteps plan) + 1
  if a ≤ 40 then a else if slots && decide (b ≤ 54) then b else 55

/-- One step up. -/
def stepUp (plan : Nat) (slots : Bool) (k : Nat) : Nat :=
  let j := k - 1
  let j := if 40 < j ∧ (!slots ∨ j ≤ 40 + idleSteps plan) then 40 else j
  if j ≤ idleSteps plan then 0 else j

/-- Set point of a physical core (R481). -/
def State.setPoint (s : State) (die p : Nat) : Nat :=
  let slot := bit (s.physMask die (s.slotMask die)) p
  let m := Nat.min (s.power.plan die) (Nat.min (stepLimit s.power.powerSteps slot) (stepLimit (s.power.thermSteps die) slot))
  if slot && !s.power.trip.contains die then Nat.max 1500 m else m

/-- Whether the power controller holds a core below its plan (POWER_STATUS.LIMITED). -/
def State.limited (s : State) : Bool :=
  [0, 1].any fun d =>
    decide (stepLimit s.power.powerSteps false < s.power.plan d) || (s.slotMask d != 0 && decide (stepLimit s.power.powerSteps true < s.power.plan d))

/-- THROTTLE_NS of every core below its plan, charged up to now (R481). -/
def State.chargeThrottle (s : State) : State :=
  let n := s.now - s.power.chargedAt
  let s := if n = 0 then s else
    [0, 1].foldl (fun s d => (List.range 68).foldl (fun s p =>
      if s.setPoint d p < s.power.plan d then s.count (68 * d + p) 10 n else s) s) s
  { s with power := { s.power with chargedAt := s.now } }

/-! ## Power control (R484, R485) -/

/-- The steps that one comparison of power and current leaves (R485). -/
def State.nextPowerSteps (s : State) (watts milliamps : Nat) : Nat :=
  let cap := Nat.min s.power.cap (powerLimit s.variant)
  let plan := Nat.max s.power.plan0 s.power.plan1
  let slots := s.slotMask 0 != 0 || s.slotMask 1 != 0
  if cap < watts ∨ 72000 < milliamps then stepDown plan slots s.power.powerSteps
  else if 100 * watts < 97 * cap ∧ milliamps < 69800 then stepUp plan slots s.power.powerSteps else s.power.powerSteps

/-- Since when power has been over 105 % of the limit at the last step (Table 20.6). -/
def State.nextOverSince (s : State) (watts : Nat) : Option Nat :=
  if 105 * powerLimit s.variant < 100 * watts ∧ s.power.powerSteps = 55 then some (s.power.overSince.getD s.now) else none

/-- One reading of power and current, with the step it takes. -/
def State.powerReading (s : State) (input : InputRead) (milliamps : Nat) : State :=
  { s with power := { s.power with
    pin := input.watts
    iin := milliamps / 10
    vin := input.millivolts / 10
    powerSteps := s.nextPowerSteps input.watts milliamps
    overSince := s.nextOverSince input.watts
    controlAt := s.now } }

/-- Whether an overload has lasted 100 ms. -/
def State.overloaded (s : State) : Bool := s.power.overSince.any fun t => decide (t + 100000000 ≤ s.now)

/-- The job fault of an overload, whose 100 ms begin again (Table 20.6). -/
def State.overloadFault (s : State) : State :=
  ({ s with power := { s.power with overSince := some s.now } }.powerEvent 4).faultAll Code.pwrOverload noUnit

/-- The comparison the power controller makes, once it is due. -/
def State.powerCompare (s : State) (input : InputRead) (milliamps : Nat) : State :=
  let s := s.chargeThrottle.powerReading input milliamps
  if s.overloaded then s.overloadFault else s

/-- POWER_CONTROL: every 100 µs a comparison of the averaged power and current with the active cap and 72 A (R485). -/
def execPowerControl (input : InputRead) (milliamps at_ : Nat) (s : State) : Host.Outcome State Fault Refusal :=
  let s := s.upto at_
  .next (if s.now < s.power.controlAt + 100000 then s else s.powerCompare input milliamps)

/-- SAG_WARNING (R484). -/
def execSagWarning (millivolts : Nat) (s : State) : Host.Outcome State Fault Refusal :=
  .next (if millivolts < 42000 ∧ !s.power.sag then
    { s with power := { s.power with
      sag := true
      vin := millivolts / 10 } }.powerEvent 0 else s)

/-- An alert condition that has gone counts as new when it comes back (R512). -/
def State.forgetAlert (s : State) (b : Nat) : State :=
  if bit s.module.alertSeen b then { s with module := { s.module with alertSeen := s.module.alertSeen - 2 ^ b } } else s

/-- SAG_CLEAR (R484). -/
def execSagClear (millivolts : Nat) (s : State) : Host.Outcome State Fault Refusal :=
  .next (if 43000 < millivolts ∧ s.power.sag then
    { s with power := { s.power with
      sag := false
      vin := millivolts / 10 } }.powerEvent 1 |>.forgetAlert 6 else s)

/-! ## Heat (R487, R488) -/

/-- Steps of thermal control of a die. -/
def State.setTherm (s : State) (die k : Nat) : State :=
  { s with power := { s.power with
      thermSteps0 := if die = 0 then k else s.power.thermSteps0
      thermSteps1 := if die = 0 then s.power.thermSteps1 else k
      thermAt := tset s.power.thermAt die s.now } }

/-- A reading of a die's sensors kept, with the time since when it has been below 85 °C (R488). -/
def State.heatReading (s : State) (die hottest : Nat) : State :=
  { s with power := { s.power with
    tj0 := if die = 0 then hottest else s.power.tj0
    tj1 := if die = 0 then s.power.tj1 else hottest
    tripCool := if hottest < 85 then tset s.power.tripCool die (tget s.now s.power.tripCool die) else tdel s.power.tripCool die } }

/-- Whether the last step of a die's thermal control is `n` ns ago, or there was none. -/
def State.thermDue (s : State) (die n : Nat) : Bool := !((tfind s.power.thermAt die).any fun t => decide (s.now < t + n))

/-- Throttling begins on a die at 100 °C (R487). -/
def State.startThrottle (s : State) (die : Nat) : State := { s with power := { s.power with throttle := die :: s.power.throttle } }.powerEvent 2

/-- Throttling ends on a die below 98 °C. -/
def State.endThrottle (s : State) (die : Nat) : State := { s with power := { s.power with throttle := s.power.throttle.filter (· ≠ die) } }

/-- A step down, and one up, of a die's thermal control. -/
def State.thermDown (s : State) (die : Nat) : State := s.setTherm die (stepDown (s.power.plan die) (s.slotMask die != 0) (s.power.thermSteps die))
def State.thermUp (s : State) (die : Nat) : State := s.setTherm die (stepUp (s.power.plan die) (s.slotMask die != 0) (s.power.thermSteps die))

/-- What a reading of a die's hottest sensor does (R487). -/
def State.thermStep (s : State) (die hottest : Nat) : State :=
  if s.power.trip.contains die then s
  else if 100 ≤ hottest then
    if !s.power.throttle.contains die then (s.startThrottle die).thermDown die
    else if s.thermDue die 100000 then s.thermDown die else s
  else if hottest < 98 then
    if s.power.thermSteps die ≠ 0 ∧ s.thermDue die 1000000 then (s.endThrottle die).thermUp die else s.endThrottle die
  else s

/-- The coolant sensors read into POWER_COOLANT; nothing acts on them (R490). -/
def State.coolant (s : State) (inlet outlet : Nat) : State :=
  { s with power := { s.power with
    coolIn := inlet
    coolOut := outlet } }

/-- THERMAL_CONTROL: a reading of a die's sensors, and a step where one is due. -/
def execThermalControl (die : Nat) (heat : HeatRead) (at_ : Nat) (s : State) : Host.Outcome State Fault Refusal :=
  let s := (s.upto at_).chargeThrottle
  .next (if 2 ≤ die then s else ((s.coolant heat.inlet heat.outlet).heatReading die heat.hottest).thermStep die heat.hottest)

/-- Units of a die, by unit index. -/
def dieUnits (die : Nat) : List Nat := span (68 * die) 68 ++ [156 + die, 158 + die, 160 + 2 * die, 161 + 2 * die]

/-- The stewards of a die lose their supply: their rings FROZEN until they restart. -/
def State.dropPairs (s : State) (die : Nat) : State :=
  [2 * die, 2 * die + 1].foldl (fun s p =>
    if (s.pair p).st = 1 ∨ (s.pair p).st = 2 then
      (s.thawRings (fun r => s.pairOf r = p) .active .frozen).modPair p fun x => { x with
        st := 2
        slow := true
        seen := []
        sram := []
        crashAt := some s.now }
    else s) s

/-- Why the device waits: a stack stopped, by site, or a die tripped. -/
def tripReason (die : Nat) : Nat := 100 + die

/-- The rails of a die are cut: the trip is noted with its reading. -/
def State.tripDie (s : State) (die hottest : Nat) : State :=
  { s with power := { s.power with
    trip := die :: s.power.trip
    tripCool := tdel s.power.tripCool die
    tj0 := if die = 0 then hottest else s.power.tj0
    tj1 := if die = 0 then s.power.tj1 else hottest } }.powerEvent 3

/-- The units of a tripped die lose their state (R488). -/
def State.loseDie (s : State) (die : Nat) : State :=
  { s with
    cores := tfilter s.cores fun c _ => coreDie c ≠ die
    common := tdel s.common die
    stewards := { s.stewards with stores := tdel s.stewards.stores die } }

/-- JUNCTION_TRIP: the rails of a die are cut at 110 °C (R487, R488). -/
def execJunctionTrip (die hottest at_ : Nat) (s : State) : Host.Outcome State Fault Refusal :=
  let s := s.upto at_
  .next (
    if 2 ≤ die ∨ hottest < 110 ∨ s.power.trip.contains die then s
    else
      let s := ((s.faultAll Code.thermTrip noUnit).tripDie die hottest).secFaults (dieUnits die) Code.thermTrip
      (((s.loseDie die).dropPairs die).healthRecord 5 Code.thermTrip noUnit 0xFFFF die).setWaiting (tripReason die) Code.thermTrip)

/-! ## Droop (R482, R483) -/

/-- DROOP_TRIP: the island's clock is stretched. -/
def execDroopTrip (unit : Nat) (s : State) : Host.Outcome State Fault Refusal :=
  .next (if s.power.stretched.contains unit then s else { s with power := { s.power with stretched := unit :: s.power.stretched } })

/-- DROOP_RECOVERY: the nominal period again; the stretched cycles counted, and a long stretch of a core recorded. -/
def execDroopRecovery (unit cycles : Nat) (long : Bool) (s : State) : Host.Outcome State Fault Refusal :=
  .next (
    if !s.power.stretched.contains unit then s
    else
      let s := { s with power := { s.power with stretched := s.power.stretched.filter (· ≠ unit) } }.count unit 8 cycles
      if long && decide (unit < 136) then (s.count unit 9 1).healthRecord 8 Code.droopLong unit 0xFFFF (tget 0 s.health.counts (unit * 32 + 9) + 1) else s)

/-! ## Stacks (R238, R239, R241, R244, R341, R489) -/

/-- Band of a reading (Table 9.4). -/
def bandOf (t : Nat) : Nat := if t ≤ 85 then 1 else if t ≤ 95 then 2 else 3

/-- R241: the band rises at once, and falls only 2 °C below the limit. -/
def nextBand (band t : Nat) : Nat := Nat.max (bandOf t) (Nat.min band (bandOf (t + 2)))

/-- STACK_BAND_READING. -/
def execStackBandReading (site hottest at_ : Nat) (s : State) : Host.Outcome State Fault Refusal :=
  let s := s.upto at_
  .next (
    if !s.sites.contains site then s
    else s.modStack site fun k => { k with
      temp := hottest
      band := if k.stopped then 0 else nextBand k.band hottest
      coolSince := if k.stopped && decide (hottest < 85) then some (k.coolSince.getD s.now) else none })

/-- Ordinary pages of a room whose frames lie on a site. -/
def RoomMem.pagesAt (m : RoomMem) (site : Nat) : List Nat :=
  (m.pages.filter fun p => p.2.tiers.any fun t => !(t.upperAt site).isEmpty).map (·.1)

/-- Pages of a room's special ranges whose frames lie on a site. -/
def RoomMem.specialsAt (m : RoomMem) (site : Nat) : List Nat :=
  m.specials.flatMap fun x => (x.frames.filter fun f => f.2.1 = site).map fun f => x.base / pageBytes + f.1

/-- The contents of a stack lost for one room: its ordinary pages there are marked, every byte there is gone. -/
def State.loseStack (s : State) (site r : Nat) : State :=
  let m := (s.room r).mem
  let ps := m.pagesAt site
  let s := s.modStack site fun k => { k with lost := k.lost ++ (ps.filter fun v => !k.lost.contains (r, v)).map fun v => (r, v) }
  s.modMem r fun m => { m with data := (ps ++ m.specialsAt site).foldl (fun d v => memZero d (v * pageBytes) pageBytes) m.data }

/-- STACK_SHUTDOWN: above 105 °C a stack stops serving; its contents are lost (R244, R489). -/
def execStackShutdown (site hottest at_ : Nat) (s : State) : Host.Outcome State Fault Refusal :=
  let s := s.upto at_
  .next (
    if !s.sites.contains site ∨ (s.stack site).stopped ∨ hottest ≤ 105 then s
    else
      let rooms := allRooms.filter fun r => !((s.room r).mem.upperFrames site).isEmpty
      let s := s.modStack site fun k => { k with
        temp := hottest
        band := 0
        stopped := true
        coolSince := none }
      let s := rooms.foldl (fun s r => s.raiseFault r Code.stackThermal (136 + site)) s
      let s := s.secFaults [136 + site] Code.stackThermal
      let s := rooms.foldl (fun s r => s.loseStack site r) s
      (s.healthRecord 5 Code.stackThermal (136 + site) 0xFFFF hottest).setWaiting site Code.stackThermal)

/-- STACK_RETURN: 60 s below 85 °C; every frame zeroed, frames held under QUARANTINE included (R341, R489). -/
def execStackReturn (site at_ : Nat) (s : State) : Host.Outcome State Fault Refusal :=
  let s := s.upto at_
  let k := s.stack site
  .next (
    if !k.stopped ∨ !(k.coolSince.any fun t => decide (t + 60000000000 ≤ s.now)) then s
    else
      let rooms := k.held.map (·.1)
      let s := s.modStack site fun k => { k with
        stopped := false
        band := 1
        coolSince := none
        poison := []
        held := [] }
      let s := rooms.foldl (fun s r =>
        if s.sites.any fun j => (s.stack j).held.any fun h => h.1 = r then s else s.modRoom r fun x => { x with quarantine := false }) s
      (s.healthRecord 5 0 (136 + site) 0xFFFF 0).clearWaiting site)

/-- The pseudo-channel of a 256-byte granule of a frame (R221). -/
def pseudoChannel (frame granule : Nat) : Nat := (granule % 32) ^^^ (frame % 32)

/-- A hit's row over the whole stack: the pseudo-channel that R221 gives its sector's granule, then the bank and row of the operand. -/
def scrubRow (h : ScrubHit) : Nat := pseudoChannel h.frame (h.sector / 8) * (48 * 32768) + h.row % (48 * 32768)

/-- One sector a scrub found: corrected, or poisoned; its row marked as R238 says. -/
def State.scrubHit (s : State) (site : Nat) (h : ScrubHit) : State :=
  let sector := h.frame * 65536 + h.sector
  let mark (k : Stack) : Stack := if k.marked.any fun m => m.2 = scrubRow h then k else { k with marked := k.marked ++ [(h.frame, scrubRow h)] }
  if h.corrected then
    let s := (s.count (136 + site) 14 1).count (136 + site) 0 1
    let again := (s.stack site).seen.any fun x => x.1 = scrubRow h && x.2.1 != sector
    s.modStack site fun k =>
      let k := { k with seen := k.seen ++ [(scrubRow h, sector, s.now)] }
      if again then mark k else k
  else
    (s.count (136 + site) 1 1).modStack site fun k =>
      mark { k with poison := if k.poison.contains (h.frame, h.sector) then k.poison else k.poison ++ [(h.frame, h.sector)] }

/-- STACK_SCRUB: what one pass found; more than 1,000 corrected errors in 24 h raise the alarm of Table 15.5. -/
def execStackScrub (site : Nat) (hits : List ScrubHit) (s : State) : Host.Outcome State Fault Refusal :=
  .next (
    if !s.sites.contains site ∨ (s.stack site).stopped then s
    else
      let s := s.modStack site fun k => { k with seen := k.seen.filter fun x => decide (s.now < x.2.2 + 86400000000000) }
      let s := hits.foldl (fun s h => s.scrubHit site h) s
      let n := (s.stack site).seen.length
      if 1000 < n then s.maintAlarm 0 (136 + site) n else s)

/-- Times of CRC errors of one lane within the last 1 ms, the present one included. -/
def crcTimes (l : List Nat) (now : Nat) : List Nat := now :: l.filter fun t => decide (now < t + 1000000)

/-- A lane of the bridge past its limit: repaired, or the job fault of Table 20.7. -/
def State.bridgeError (s : State) (dir : Nat) (e : LaneErr) : State :=
  let key := dir * 4096 + e.lane
  let l := crcTimes (tget [] s.health.bridgeCrc key) s.now
  let left := if dir = 0 then s.health.bridge0 else s.health.bridge1
  let put (s : State) (v : List Nat) : State := { s with health := { s.health with bridgeCrc := tset s.health.bridgeCrc key v } }
  if l.length ≤ 16 ∧ !e.training then put s l
  else if left = 0 then ((put s []).faultAll Code.bridgeLane 165).outOfService Code.bridgeLane
  else
    let s := ((put s []).count 165 12 1).healthRecord 3 0 165 0xFFFF e.lane
    { s with health := { s.health with
      bridge0 := if dir = 0 then left - 1 else s.health.bridge0
      bridge1 := if dir = 0 then s.health.bridge1 else left - 1 } }

/-- A lane of a stack's channel past its limit, or one that fails training: repaired onto a spare lane, or the job fault of R239. Lanes from 128 on are command lanes. -/
def State.laneError (s : State) (site channel : Nat) (e : LaneErr) : State :=
  let key := channel * 4096 + e.lane
  let l := crcTimes (tget [] (s.stack site).crc key) s.now
  let cmd := decide (128 ≤ e.lane)
  let used := tget 0 (s.stack site).lanesUsed (channel * 2 + b2n cmd)
  if l.length ≤ 16 ∧ !e.training then s.modStack site fun k => { k with crc := tset k.crc key l }
  else
    let s := s.modStack site fun k => { k with crc := tdel k.crc key }
    if used < (if cmd then 1 else 2) then
      let s := s.modStack site fun k => { k with lanesUsed := tset k.lanesUsed (channel * 2 + b2n cmd) (used + 1) }
      (s.count (136 + site) 12 1).healthRecord 3 0 (136 + site) 0xFFFF key
    else
      let s := (allRooms.filter fun r => !((s.room r).mem.upperFrames site).isEmpty).foldl (fun s r => s.raiseFault r Code.stackLane (136 + site)) s
      s.outOfService Code.stackLane

/-- A cellar package that fails its training at boot: its bit of HEALTH_CELLAR clear, the device out of service (R492). -/
def State.packageFails (s : State) (half package : Nat) : State :=
  let b := 16 * half + package % 16
  let left := if bit s.health.cellar b then s.health.cellar - 2 ^ b else s.health.cellar
  { s with health := { s.health with cellar := left } }.outOfService Code.cellarPackage

/-- CRC_ERROR: a burst replayed and counted; for a stack or the bridge, the lane's errors within 1 ms, or its failed training (R239, R492). -/
def execCrcError (unit channel : Nat) (lane : LaneErr) (at_ : Nat) (s : State) : Host.Outcome State Fault Refusal :=
  let s := s.upto at_
  let seen (s : State) : State := if lane.training then s else s.count unit 11 1
  .next (
    if unit = 165 then (seen s).bridgeError channel lane
    else if 136 ≤ unit ∧ unit < 152 ∧ s.sites.contains (unit - 136) ∧ channel < 16 then (seen s).laneError (unit - 136) channel lane
    else if unit = 156 ∨ unit = 157 then
      if !lane.training then seen s else if s.stewards.ready then s else s.packageFails (unit - 156) lane.lane
    else s)

end Sys2Proof.Machine
end

