-- ==== Sys2Proof/Machine/Boot.lean ====
section
/-! DEFINITION. Coming up and going down: fuses, the boot stages, the firmware fetch, the main rails, the host link, resets and losses of supply (chapters 15, 19, 20 and 21). -/

namespace Sys2Proof

/-! ## Fuses (R454 to R457, Table 19.5) -/

/-- Classes of a fuse word: repair, monotonic security, fixed security. -/
def fuseRepair (w : Nat) : Bool := decide (64 ≤ w) && decide (w ≤ 226)
def fuseMono (w : Nat) : Bool := decide (w ≤ 8)

/-- A clean copy read alike at both margins. -/
def copyGood (a b : FuseRead) : Bool := a.clean && b.clean && a.raw == b.raw

/-- The normal case of R456. -/
def FuseReads.agree (r : FuseReads) : Bool :=
  r.atight.raw == r.aloose.raw && r.atight.raw == r.btight.raw && r.atight.raw == r.bloose.raw && r.atight.clean

/-- R456: the value a word resolves to; none where it fails. -/
def FuseReads.resolve (r : FuseReads) : Option Nat :=
  if r.agree then some r.atight.data
  else if fuseRepair r.word then
    match copyGood r.atight r.aloose, copyGood r.btight r.bloose with
    | true, false => some r.atight.data
    | false, true => some r.btight.data
    | _, _ => none
  else if fuseMono r.word then some (r.atight.fixed ||| r.aloose.fixed ||| r.btight.fixed ||| r.bloose.fixed)
  else none

/-- The content of a FUSE_ALARM record: the word and its four raw reads. -/
def FuseReads.alarmData (r : FuseReads) : List Byte :=
  leBytes 8 r.word ++ leBytes 12 r.atight.raw ++ leBytes 12 r.aloose.raw ++ leBytes 12 r.btight.raw ++ leBytes 12 r.bloose.raw

end Sys2Proof

namespace Sys2Proof.Machine

def State.alarmWord (s : State) (r : FuseReads) : State := s.audit 0x09 0 0 0xFFFF 0 r.alarmData

/-- Words read at stage 1: a word no reads are given for reads as its cells hold it. -/
def bootShadow (cells : Tbl Nat) (reads : List FuseReads) : Tbl Nat :=
  reads.foldl (fun t r => match r.resolve with | some v => tset t r.word v | none => t) cells

/-- One word of a background pass. -/
def State.rereadWord (s : State) (r : FuseReads) : State :=
  if r.agree && r.atight.data == s.fuse r.word then s
  else
    let t := s.alarmWord r
    { t with sec := { t.sec with fuseAlarm := true } }.maintAlarm 0 noUnit r.word

/-- FUSE_REREAD: a background pass; a mismatch with the shadow is recorded, and the shadow stays (R457). -/
def execFuseReread (reads : List FuseReads) (s : State) : Host.Outcome State Fault Refusal :=
  .next (reads.foldl (fun s r => s.rereadWord r) s)

/-- Lifecycle of fuse word 0: 1 TEST, 2 SHIPPED, 3 RETIRED, 0 for any other value. -/
def State.lifecycle (s : State) : Nat :=
  let v := bits (s.fuse 0) 2 0
  if v = 1 then 1 else if v = 3 then 2 else if v = 7 then 3 else 0

/-- The fused security version (words 2 to 7): the index of the highest set bit plus 1. -/
def State.fusedSvn (s : State) : Nat :=
  let v := sumNat ((List.range 6).map fun i => s.fuse (2 + i) * 2 ^ (64 * i))
  if v = 0 then 0 else v.log2 + 1

/-- Whether a maker key generation is provisioned and not revoked (R454). -/
def State.makerLive (s : State) (g : Nat) : Bool := ((List.range 6).any fun i => s.fuse (9 + 6 * g + i) != 0) && !bit (s.fuse 8) g

/-- The current maker key generation. -/
def State.makerGen (s : State) : Option Nat := [0, 1, 2, 3].find? s.makerLive

/-! ## The firmware image (R371 to R374) -/

/-- A fetch starts at the first server of the list. -/
def State.beginFetch (s : State) : State :=
  { s with stewards := { s.stewards with
      fetching := true
      server := 0
      tries := 0
      asked := s.now
      part := []
      failCode := Code.fwNoserver
      waitSince := none } }.emit (.fetch 0)

/-- Stages 6 and 7: with main power good, a claim and a server list, steward 0 fetches (Table 19.4). -/
def State.tryFetch (s : State) : State :=
  if s.sec.stage = 6 && s.module.pwrGood && !s.module.resetActive && !s.sec.installers.isEmpty && !s.sec.servers.isEmpty then
    { s with sec := { s.sec with stage := 7 } }.beginFetch
  else s

/-- One signature of an image: class and key generation. -/
def sigOf (m : Memory) (base i : Nat) : Nat × Nat := (memNat m (base + 128 * i) 1, memNat m (base + 128 * i + 1) 1)

/-- Whether signature `i` verifies (R454): a maker's under the current generation, an installer's under a key held. -/
def State.sigOk (s : State) (sig : Nat × Nat) (verified : Bool) : Bool :=
  verified && ((sig.1 == 1 && s.makerGen == some sig.2) || (sig.1 == 2 && decide (sig.2 < s.sec.installers.length)))

/-- R373: the first row of Table 15.3 that an image breaks. -/
def State.imageRefusal (s : State) (bytes : List Byte) (verified : List Bool) : Option Nat :=
  let m := memWriteN [] 0 bytes
  let n := bytes.length
  let nsig := memNat m 6 2
  let len := memNat m 20 4
  let sigs := (List.range nsig).map fun i => (sigOf m (512 + len) i, verified.getD i false)
  firstSome (fun p : Bool × Nat => if p.1 then some p.2 else none)
    [(decide (25165824 < n) || n != 512 + len + 128 * nsig, Code.fwSize),
     (memNat m 0 4 != 0x534F4D55 || memNat m 4 2 != 1 || nsig == 0 || decide (4 < nsig) || memNat m 72 440 != 0, Code.fwFormat),
     (sha384 ((bytes.drop 512).take len) != (bytes.drop 24).take 48, Code.fwDigest),
     (!(sigs.any fun p => p.1.1 == 1 && s.sigOk p.1 p.2), Code.fwMakerSig),
     (sigs.any fun p => !s.sigOk p.1 p.2, Code.fwExtraSig),
     (decide (memNat m 16 4 < s.fusedSvn), Code.fwRollback)]

/-- A verified image put into both stores; every pair runs it (R374, stages 9 and 10). -/
def State.acceptImage (s : State) (bytes : List Byte) : State :=
  let m := memWriteN [] 0 bytes
  let fw : Firmware := ⟨memNat m 8 4, memNat m 12 4, memNat m 16 4, (bytes.drop 24).take 48, sha384 (bytes.take (512 + memNat m 20 4))⟩
  let s := s.audit 0x06 0 0 0xFFFF 0 fw.codeDigest
  let held : ImageStore := ⟨bytes, fw.digest⟩
  let s := { s with
    sec := { s.sec with
      stage := 10
      bootCode := 0
      alias_ := true }
    stewards := { s.stewards with
      fw := some fw
      stores := [(0, held), (1, held)]
      bootCode := 0
      fetching := false
      waitSince := none
      part := []
      ready := true
      heir := []
      duty := 0
      handed := []
      pairs := [0, 1, 2, 3].map fun p => (p, { Pair.reset with
        st := 1
        visited := s.now }) } }.flushHealth
  let s := s.thawRings (fun _ => true) .frozen .active
  (allRooms.foldl (fun s r => s.resumeRoom r) s).beginAdmission

/-- No server has given an image: the code of the last refusal stands, and the list is tried again in 10 s (R371). -/
def State.fetchFailed (s : State) (code : Nat) : State :=
  { s with
    sec := { s.sec with stage := 7 }
    stewards := { s.stewards with
      bootCode := code
      fetching := false
      part := []
      waitSince := some s.now } }

/-- The server in turn is left: the next of the list is asked, or the list has failed (R371). -/
def State.nextServer (s : State) : State :=
  let w := s.stewards
  if w.server + 1 < s.sec.servers.length then
    { s with stewards := { w with
      server := w.server + 1
      tries := 0
      part := []
      asked := s.now } }.emit (.fetch (w.server + 1))
  else s.fetchFailed w.failCode

/-- An image come whole from the server in turn: taken, or refused and the next server asked (R373). -/
def State.tryImage (s : State) (bs : List Byte) (verified : List Bool) : State :=
  match s.imageRefusal bs verified with
  | none => s.acceptImage bs
  | some c =>
    let s := s.audit 0x07 0 0 0xFFFF c (leBytes 2 c ++ leBytes 1 s.stewards.server)
    { s with stewards := { s.stewards with failCode := c } }.nextServer

/-- One answer of the server in turn. A TFTP block restarts the count of retransmissions; a transfer ends with a short block, or past 24 MiB. -/
def State.serverAnswer (s : State) (a : Served) : State :=
  if !s.stewards.fetching then s
  else
    match a with
    | .silent => s.nextServer
    | .unproven => s.nextServer
    | .file bytes verified => s.tryImage (bytes.map (BitVec.ofNat 8)) verified
    | .block bytes verified =>
      if (s.sec.servers[s.stewards.server]?).any (·.https) ∨ 512 < bytes.length then s
      else
        let part := s.stewards.part ++ bytes.map (BitVec.ofNat 8)
        let s := { s with stewards := { s.stewards with
          part := part
          tries := 0
          asked := s.now } }
        if bytes.length < 512 ∨ 25165824 < part.length then s.tryImage part verified else s.emit (.fetch s.stewards.server)

/-- IMAGE_FETCH: what the servers in turn answered; where the answers end before the list, the fetch goes on with the server it has reached. -/
def execImageFetch (served : List Served) (s : State) : Host.Outcome State Fault Refusal := .next (served.foldl State.serverAnswer s)

/-- TFTP_RETRANSMIT: 1 s without an answer; after five in a row the server is abandoned. -/
def execTftpRetransmit (at_ : Nat) (s : State) : Host.Outcome State Fault Refusal :=
  let s := s.upto at_
  let w := s.stewards
  let tftp := (s.sec.servers[w.server]?).any fun x => !x.https
  .next (
    if !w.fetching ∨ !tftp ∨ s.now < w.asked + 1000000000 then s
    else if w.tries < 5 then
      { s with stewards := { w with
        tries := w.tries + 1
        asked := s.now } }.emit (.fetch w.server)
    else s.nextServer)

/-- FETCH_RETRY: 10 s after the list has failed (R371). -/
def execFetchRetry (at_ : Nat) (s : State) : Host.Outcome State Fault Refusal :=
  let s := s.upto at_
  .next (if s.sec.stage = 7 ∧ s.stewards.waitSince.any fun t => decide (t + 10000000000 ≤ s.now) then s.beginFetch else s)

/-! ## Resets (R486, R520 to R524, Table 22.2) -/

/-- What a stack keeps on module flash: its repair map and its units out of service. -/
def Stack.flash (k : Stack) : Stack :=
  { Stack.reset with
    badUnits := k.badUnits, unitMap := k.unitMap, lanesUsed := k.lanesUsed, rowsUsed := k.rowsUsed, withdrawn := k.withdrawn, marked := k.marked }

/-- What the health record on module flash keeps; `counts` stay through a host reset (Table 22.2). -/
def Health.flash (h : Health) (main : Bool) : Health :=
  { Health.reset with
    oos := h.oos
    oosCode := if h.oos then h.oosCode else 0
    marks := h.marks
    records := h.records
    held := h.held
    counts := if main then [] else h.counts }

/-- The rooms lost at a reset: a SEC_FAULT record for each room that held a grant (R486). -/
def State.loseRooms (s : State) : State :=
  (s.rooms.filter fun p => p.2.holds).foldl (fun s p => s.audit 0x0E 0 0 p.1 Code.pwrReset (leBytes 2 noUnit ++ leBytes 2 Code.pwrReset)) s

/-- Every island but the strongroom and the management port reset; a host reset leaves the timebase too. -/
def State.wipe (s : State) (main : Bool) (cause : Nat) : State :=
  let s := s.loseRooms
  { s with
    vfEnable := false
    numVfs := 0
    rooms := []
    rings := []
    msix := []
    restart := none
    restartRejected := false
    restartReason := 0
    ringSel := 0
    ringInfo0 := 0
    ringInfo1 := 0
    badAccess := 0
    snaps := []
    held := []
    cores := []
    common := []
    stackTbl := tmap s.stackTbl fun _ k => k.flash
    migrations := 0
    swaps := 0
    ingest := Ingest.reset
    sched := Sched.reset
    stewards := Stewards.reset
    net := Net.reset
    caravan := { Caravan.reset with record := s.caravan.record }
    time := if main then Timebase.reset else s.time
    power := { Power.reset (powerLimit s.variant) with lastReset := cause }
    health := s.health.flash main
    sec := { s.sec with
      stage := Nat.min s.sec.stage 6
      alias_ := false
      stagingKey := none
      debug := none
      deniedAt := []
      authFailAt := none }
    module := { s.module with
      linkUp := false
      width := 0
      speed := 0 } }

/-- MAIN_RESET: main power goes within 1 µs (R486, R522, R523). -/
def execMainReset (surge : Bool) (at_ : Nat) (s : State) : Host.Outcome State Fault Refusal :=
  let s := s.upto at_
  .next (
    if s.module.rail = 0 then s
    else
      let settled := s.module.settled || decide (s.module.standbyAt + 500000000 ≤ s.now)
      let cause := if s.module.resetActive then s.power.lastReset else if surge then 2 else 1
      let s := (s.healthRecord 5 Code.pwrReset noUnit 0xFFFF cause).wipe true cause
      { s with module := { s.module with
        settled := settled
        rail := 0
        pwrGood := false
        cutAt := 0 } })

/-- HOST_RESET: PERST# or MOD_RST# asserted for 1 µs; the caravan is left (R416, R520). -/
def execHostReset (perst modrst : Bool) (at_ : Nat) (s : State) : Host.Outcome State Fault Refusal :=
  let s := s.upto at_
  .next (
    let s := { s with module := { s.module with
      perst := s.module.perst || perst
      modrst := s.module.modrst || modrst } }
    if !s.module.pwrGood ∨ s.module.resetActive ∨ !(perst || modrst) then s
    else
      let s := (s.leave 0).wipe false 3
      { s with module := { s.module with resetActive := true } })

/-- The cellar comes up: its packages train, and the staging frames get a new key (Table 10.7, R281, HEALTH_CELLAR). -/
def State.cellarUp (s : State) : State :=
  let (k, s) := s.draw
  { s with
    health := { s.health with cellar := 2 ^ 32 - 1 }
    sec := { s.sec with stagingKey := some k } }

/-- The device comes up to its wait for an image. -/
def State.comeUp (s : State) : State := s.cellarUp.tryFetch

/-- HOST_RESET_END: both inputs deasserted. -/
def execHostResetEnd (at_ : Nat) (s : State) : Host.Outcome State Fault Refusal :=
  let s := s.upto at_
  .next (
    let was := s.module.resetActive
    let s := { s with module := { s.module with
      perst := false
      modrst := false
      resetActive := false
      resetEndAt := if was then s.now else s.module.resetEndAt } }
    if was then s.comeUp else s)

/-- HOT_RESET: as a function-level reset of the physical function (R521). -/
def execHotReset (s : State) : Host.Outcome State Fault Refusal := .next (s.flr 0)

/-- STANDBY_LOSS: every key and all device time are lost; flash, fuses and host memory stay (R472, R524). -/
def execStandbyLoss (millivolts : Nat) (s : State) : Host.Outcome State Fault Refusal :=
  .next (
    if 11000 ≤ millivolts ∨ !s.module.standby then s
    else
      let t := s.wipe true 0
      { t with
        sec := { State.reset.sec with
          fuses := s.sec.fuses
          shadow := s.sec.fuses
          installers := s.sec.installers
          operators := s.sec.operators
          cas := s.sec.cas
          servers := s.sec.servers
          mgmtAddr := s.sec.mgmtAddr
          version := s.sec.version
          log := s.sec.log
          nextSeq := s.sec.nextSeq
          acked := s.sec.acked }
        module := { Module.reset with
          railCode := s.module.railCode
          perst := s.module.perst
          modrst := s.module.modrst } })

/-! ## Power-up (R453, R510, R516 to R519) -/

/-- A chain that does not verify: the record starts a new one, so nothing precedes its first entry (R451). -/
def State.breakChain (s : State) : State :=
  let t := { s with sec := { s.sec with log := [], bootCode := Code.secChainBreak } }
  t.audit 0x12 0 0 0xFFFF 0 (leBytes 8 (s.sec.nextSeq - 1))

/-- The code of the BOOT record: a held rail code, else the boot code (R451, R518). -/
def State.bootRecordCode (s : State) : Nat := if s.module.railCode ≠ 0 then s.module.railCode else s.sec.bootCode

/-- The BOOT record written, with the held rail code as its boot code. -/
def State.bootEntry (s : State) : State :=
  let t := s.audit 0x01 0 0 0xFFFF s.bootRecordCode
    (leBytes 1 s.lifecycle ++ leBytes 2 s.bootRecordCode ++ ((Config.crypto "ROM digest" []).map (BitVec.ofNat 8)).take 32)
  { t with module := { t.module with railCode := 0 } }.forgetAlert 7

/-- Stage 4: the chain verified or broken, and the BOOT record (R451, R518). -/
def State.bootRecord (s : State) (chainOk : Bool) : State := (if chainOk then s else s.breakChain).bootEntry

/-- Stage 3: the key store kept, or emptied where it or the version register does not hold (Table 19.4). -/
def State.loadStore (s : State) (held : Bool) : State :=
  if held then { s with sec := { s.sec with versionReg := s.sec.version } }
  else { s with sec := { s.sec with
    installers := []
    operators := []
    cas := []
    versionReg := s.sec.version
    bootCode := Code.secKeystore } }

/-- Stages 2 to 6, once the shadows are latched (Table 19.4). -/
def State.bootOn (s : State) (storeOk chainOk : Bool) : State :=
  if s.lifecycle ≠ 1 ∧ s.lifecycle ≠ 2 then
    { s with sec := { s.sec with
      stage := 2
      bootCode := Code.secRetired } }
  else
    let t := (s.loadStore (storeOk && (s.sec.versionReg == 0 || s.sec.versionReg == s.sec.version))).bootRecord chainOk
    { t with sec := { t.sec with
      stage := 6
      bootCode := 0 } }

/-- STANDBY_POWER_GOOD: the strongroom runs its stages up to its wait for main power. -/
def execStandbyPowerGood (romOk storeOk chainOk : Bool) (reads : List FuseReads) (s : State) : Host.Outcome State Fault Refusal :=
  .next (
    if s.module.standby then s
    else
      let s := { s with module := { s.module with
        standby := true
        standbyAt := s.now } }
      if !romOk then
        { s with sec := { s.sec with
          stage := 0
          bootCode := Code.secRomTest } }
      else
        let s := (reads.filter fun r => !r.agree).foldl (fun s r => s.alarmWord r) s
        if reads.any fun r => r.resolve.isNone then
          { s with sec := { s.sec with
            stage := 1
            bootCode := Code.fuseMargin } }
        else { s with sec := { s.sec with shadow := bootShadow s.sec.fuses reads } }.bootOn storeOk chainOk)

/-- STRAP_LATCH: the 12 straps, read once (R510). -/
def execStrapLatch (straps : Nat) (s : State) : Host.Outcome State Fault Refusal :=
  .next (if s.module.standby ∧ !s.module.latched then
    { s with module := { s.module with
      straps := straps % 4096
      latched := true } } else s)

/-- MAIN_START: the three conditions of R516. -/
def execMainStart (millivolts at_ : Nat) (s : State) : Host.Outcome State Fault Refusal :=
  let s := s.upto at_
  let m := s.module
  let settled := m.settled || decide (m.standbyAt + 500000000 ≤ s.now)
  .next (if m.standby ∧ m.rail = 0 ∧ m.fails = 0 ∧ !m.heldOff ∧ settled ∧ 43000 ≤ millivolts then
    { s with
      module := { m with
        rail := 1
        settled := true }
      power := { s.power with vin := millivolts / 10 } } else s)

/-- RAIL_STEP: a rail is at 95 %; after the fifth step PWR_GOOD is asserted (R517). -/
def execRailStep (at_ : Nat) (s : State) : Host.Outcome State Fault Refusal :=
  let s := s.upto at_
  let m := s.module
  .next (
    if m.rail = 0 ∨ 6 ≤ m.rail then s
    else if m.rail < 5 then { s with module := { m with rail := m.rail + 1 } }
    else
      { s with module := { m with
        rail := 6
        pwrGood := true
        pwrGoodAt := s.now
        fails := 0 } }.comeUp)

/-- RAIL_FAIL: a rail misses its window; the main rails are cut (R518). -/
def execRailFail (at_ : Nat) (s : State) : Host.Outcome State Fault Refusal :=
  let s := s.upto at_
  let m := s.module
  .next (if m.rail = 0 ∨ 6 ≤ m.rail then s
    else { s with module := { m with
      rail := 0
      fails := m.fails + 1
      heldOff := m.heldOff || decide (1 ≤ m.fails)
      cutAt := s.now
      railCode := Code.pwrRailFail } })

/-- RAIL_RETRY: 1 s after the rails have discharged (R518). -/
def execRailRetry (at_ : Nat) (s : State) : Host.Outcome State Fault Refusal :=
  let s := s.upto at_
  let m := s.module
  .next (if m.rail = 0 ∧ m.fails ≠ 0 ∧ !m.heldOff ∧ m.cutAt + 1000000000 ≤ s.now then { s with module := { m with rail := 1 } } else s)

/-- LINK_TRAINING: PERST# is deasserted, and 100 ms have passed since PWR_GOOD or since the host reset (R519, R520). -/
def execLinkTraining (width speed at_ : Nat) (s : State) : Host.Outcome State Fault Refusal :=
  let s := s.upto at_
  let m := s.module
  .next (if m.pwrGood ∧ !m.resetActive ∧ m.pwrGoodAt + 100000000 ≤ s.now ∧ (m.resetEndAt = 0 ∨ m.resetEndAt + 100000000 ≤ s.now) ∧
      [1, 2, 4, 8, 16].contains width ∧ 1 ≤ speed ∧ speed ≤ 6 then
    { s with module := { m with
      perst := false
      modrst := false
      linkUp := true
      width := width
      speed := speed } } else s)

/-! ## Return of a tripped die (R488) -/

/-- The image store of a returned die refilled from the other's; with neither the image is fetched again. -/
def State.refill (s : State) (die : Nat) : State :=
  match tfind s.stewards.stores (1 - die) with
  | some x => { s with stewards := { s.stewards with stores := tset s.stewards.stores die x } }
  | none =>
  if s.power.trip.isEmpty then
    { s with
      stewards := { s.stewards with
        ready := false
        fw := none
        pairs := [] }
      sec := { s.sec with
        stage := Nat.min s.sec.stage 6
        alias_ := false } }.tryFetch
  else s

/-- A die's trip ends; the alert condition goes with the last one. -/
def State.endTrip (s : State) (die : Nat) : State :=
  let t := { s with power := { s.power with
    trip := s.power.trip.filter (· ≠ die)
    tripCool := tdel s.power.tripCool die } }
  if t.power.trip.isEmpty then t.forgetAlert 5 else t

/-- TRIP_RECOVERY: every sensor below 85 °C for 60 s. -/
def execTripRecovery (die at_ : Nat) (s : State) : Host.Outcome State Fault Refusal :=
  let s := s.upto at_
  .next (
    if !s.power.trip.contains die ∨ !((tfind s.power.tripCool die).any fun t => decide (t + 60000000000 ≤ s.now)) then s
    else (((s.endTrip die).healthRecord 5 0 noUnit 0xFFFF die).clearWaiting (tripReason die)).refill die)

end Sys2Proof.Machine
end

