-- ==== Sys2Proof/Machine/Clock.lean ====
section
/-! DEFINITION. The timebase: references and their selection, drift, time of day, and the IEEE 1588 messages (chapter 18, R432 to R446). -/

namespace Sys2Proof.Machine

/-! ## Alarms and selection (R435, R436, R446) -/

/-- A time alarm: its bit, and its record in the health record. -/
def State.timeAlarm (s : State) (b code : Nat) : State :=
  ({ s with time := { s.time with alarms := s.time.alarms ||| 2 ^ b } }).healthRecord 1 code noUnit 0xFFFF 0

/-- References in the order of TIME_CTRL.PRIO. -/
def Timebase.order (t : Timebase) : List Nat := if bit t.ctrl 0 then [1, 0, 2] else [0, 1, 2]

/-- The highest-priority reference that is present, not marked, and not kept unselected (R436, R438). -/
def Timebase.best (t : Timebase) : Nat := (t.order.find? fun r => t.present.contains r && !t.oot.contains r && t.suspect != some r).getD 2

/-- The state a switch to a reference leads to (Table 18.2). -/
def Timebase.entered (t : Timebase) (ref : Nat) : TbSt :=
  if ref ≠ 2 then .acquiring else match t.st with
    | .freerun => .freerun
    | _ => .holdover

/-- The reference selected anew; a change starts its acquisition, or the holdover on the OCXO. -/
def State.reselect (s : State) : State :=
  let t := s.time
  let b := t.best
  if b = t.sel then s
  else { s with time := { t with
    sel := b
    st := t.entered b
    since := s.now } }

/-- The first time from `now` on at which device time plus `d` is a whole second. -/
def wholeAfter (now d : Nat) : Nat := now + (1000000000 - (now + d) % 1000000000) % 1000000000

/-- A phase correction of `d` ns: where R433 allows one a step forward, at the whole second of the new time, else slewed; a member's large one raises an alarm. -/
def State.correct (s : State) (d : Int) : State :=
  let s := if s.caravan.member && decide (1000000 < d.natAbs) then s.timeAlarm 3 Code.timeLarge else s
  let due := if s.maySteps && decide (0 ≤ d) then some (wholeAfter s.time.now d.toNat) else none
  { s with time := { s.time with slew := d, stepAt := due } }.upto s.time.now

/-- PTP is not a reference of the head (R441). -/
def State.mayPtp (s : State) : Bool := !s.caravan.isHead

/-- A reference present from now on; a third one ends the state that R438 leaves. -/
def State.qualify (s : State) (ref : Nat) : State :=
  { s with time := { s.time with
    present := ref :: s.time.present
    suspect := if s.time.suspect.any fun r => r ≠ ref then none else s.time.suspect } }

/-- A TIME_TOD_SET still waiting gives way to PTP (Table 18.5). -/
def State.dropTod (s : State) : State :=
  if s.time.todPending.isSome then { s with time := { s.time with todPending := none } }.timeAlarm 4 Code.todIgnored else s

/-- PTP brings the time of day (R435). -/
def State.ptpTime (s : State) : State := { s.dropTod with time := { s.dropTod.time with isSet := true } }.correct (-s.time.ptpOffset)

/-- The qualification of PTP: 16 consecutive Sync exchanges that pass R442, their offsets within 100 ns (Table 18.1). -/
def Timebase.ptpFit (t : Timebase) : Bool :=
  decide (16 ≤ t.syncs.length) && t.syncs.all fun a => t.syncs.all fun b => decide ((a - b).natAbs < 100)

/-- REFERENCE_QUALIFIED: EXT or PTP becomes present. -/
def execReferenceQualified (ref at_ : Nat) (s : State) : Host.Outcome State Fault Refusal :=
  let s := s.upto at_
  .next (
    if 2 ≤ ref ∨ s.time.present.contains ref ∨ (ref = 1 ∧ !(s.mayPtp && s.time.ptpFit)) then s
    else (if ref = 1 then (s.qualify ref).ptpTime else s.qualify ref).reselect)

/-- A reference lost (R435). -/
def State.loseReference (s : State) (ref : Nat) : State :=
  if 2 ≤ ref ∨ !s.time.present.contains ref then s
  else
    let was := s.time.sel = ref
    let s := { s with time := { s.time with
      present := s.time.present.filter (· ≠ ref)
      agree := tdel s.time.agree ref
      suspect := if s.time.suspect = some ref then none else s.time.suspect } }
    (if was then s.timeAlarm 2 Code.timeLost else s).reselect

/-- REFERENCE_LOSS: PTP is lost after 3 s with no valid Sync. -/
def execReferenceLoss (ref at_ : Nat) (s : State) : Host.Outcome State Fault Refusal :=
  let s := s.upto at_
  .next (if ref = 1 ∧ s.now < s.time.lastSync + 3000000000 then s else s.loseReference ref)

/-! ## Drift (R437 to R439) -/

/-- Mean frequency differences of one comparison, in ppb. -/
structure FreqDiffs where
  extPtp : Int
  extOcxo : Int
  ptpOcxo : Int

def FreqDiffs.between (f : FreqDiffs) (a b : Nat) : Int :=
  match Nat.min a b, Nat.max a b with
  | 0, 1 => f.extPtp
  | 0, 2 => f.extOcxo
  | _, _ => f.ptpOcxo

/-- Two references differ by more than 50 ppb. -/
def FreqDiffs.apart (f : FreqDiffs) (a b : Nat) : Bool := decide (50 < (f.between a b).natAbs)

/-- With three references present, one that differs from both others is out of tolerance (R437). -/
def FreqDiffs.outlier (f : FreqDiffs) (present : List Nat) (r : Nat) : Bool :=
  present.contains r && decide (3 ≤ present.length) && [0, 1, 2].all fun q => q = r || f.apart r q

/-- Seconds of agreement of a marked or suspect reference with every other present one. -/
def State.countAgree (s : State) (f : FreqDiffs) (r : Nat) : State :=
  let ok := s.time.present.contains r && s.time.present.all fun q => q = r || !f.apart r q
  { s with time := { s.time with agree := if ok then tmod 0 s.time.agree r (· + 1) else tdel s.time.agree r } }

/-- A reference marked out of tolerance is cleared after 256 s of agreement (R439); a suspect one is usable again after 64 s (R438). -/
def State.clearMarks (s : State) (r : Nat) : State :=
  let n := tget 0 s.time.agree r
  let t := s.time
  let t := if t.oot.contains r && decide (256 ≤ n) then { t with
      oot := t.oot.filter (· ≠ r)
      agree := tdel t.agree r } else t
  let t := if t.suspect = some r ∧ 64 ≤ n then { t with
      suspect := none
      agree := tdel t.agree r } else t
  { s with time := t }

/-- One second's comparison (R437, R438). -/
def State.compareRefs (s : State) (f : FreqDiffs) : State :=
  let s := [0, 1].foldl (fun s r =>
    if s.time.oot.contains r || s.time.suspect == some r then (s.countAgree f r).clearMarks r else s) s
  let sel := s.time.sel
  let bad := [0, 1, 2].filter fun r => f.outlier s.time.present r && !s.time.oot.contains r
  let s := { s with time := { s.time with oot := s.time.oot ++ bad } }
  if bad.contains sel && sel != 2 then
    ({ s with time := { s.time with
      st := .holdover
      since := s.now } }.timeAlarm 0 Code.timeDrift).reselect
  else if sel ≠ 2 ∧ s.time.present.length = 2 ∧ f.apart sel 2 then
    { s with time := { s.time with
      st := .holdover
      since := s.now
      sel := 2
      suspect := some sel } }.timeAlarm 1 Code.timeDisagree
  else s.reselect

/-- The phase error against the reference now selected is corrected: against the one compared as measured, against PTP newly selected as its exchanges show it. -/
def State.correctPhase (s : State) (was : Nat) (offset : Int) : State :=
  let d := if s.time.sel = was then offset else if s.time.sel = 1 then s.time.ptpOffset else 0
  if s.time.sel = 2 ∨ d = 0 then s else s.correct (-d)

/-- REFERENCE_COMPARISON: once a second; TIME_OFFSET is taken and the phase error corrected (R437). -/
def execReferenceComparison (extPtp extOcxo ptpOcxo offset : Int) (at_ : Nat) (s : State) : Host.Outcome State Fault Refusal :=
  let s := s.upto at_
  .next (
    if s.now < s.time.compared + 1000000000 then s
    else ({ s with time := { s.time with offset := offset, compared := s.now } }.compareRefs ⟨extPtp, extOcxo, ptpOcxo⟩).correctPhase s.time.sel offset)

/-- LOCK_ACQUIRED: 64 s of acquisition, with the phase within ±50 ns (Table 18.2). -/
def execLockAcquired (at_ : Nat) (s : State) : Host.Outcome State Fault Refusal :=
  let s := s.upto at_
  .next (if s.time.st = .acquiring ∧ s.time.since + 64000000000 ≤ s.now ∧ s.time.offset.natAbs ≤ 50 then
    { s with time := { s.time with
      st := .locked
      slew := 0 } } else s)

/-! ## Time of day (R434, R435) -/

/-- TIME_TOD_SET by the physical function: ignored while PTP is present. -/
def State.todSet (s : State) (v : Nat) : State :=
  if s.time.present.contains 1 then s.timeAlarm 4 Code.todIgnored
  else { s with time := { s.time with todPending := some v } }

def execTimeTodSet (fn value : Nat) (s : State) : Host.Outcome State Fault Refusal := .next (if fn = 0 then s.todSet value else s.badAcc)

/-- The phase of device time at an edge of EXT (R434). -/
def State.ppsPhase (s : State) : State :=
  let d := s.now % 1000000000
  if s.time.present.contains 0 then { s with time := { s.time with offset := if d < 500000000 then (d : Int) else (d : Int) - 1000000000 } } else s

/-- A time of day that has waited takes effect (R434). -/
def State.takeTod (s : State) (v : Nat) : State :=
  { s with time := { s.time with
    todPending := none
    isSet := true } }.correct (((v * 1000000000 : Nat) : Int) - (s.now : Int))

/-- PPS_EDGE: a 1PPS edge of EXT, or with EXT absent a whole second of device time; a waiting time of day takes effect. -/
def execPpsEdge (at_ : Nat) (s : State) : Host.Outcome State Fault Refusal :=
  let s := s.upto at_
  .next (
    if !s.time.present.contains 0 ∧ s.now % 1000000000 ≠ 0 then s
    else
      match s.time.todPending with
      | none => s.ppsPhase
      | some v => s.ppsPhase.takeTod v)

/-- A read of TIME_NOW_LO latches the upper half (R434). -/
def State.latchNow (s : State) : State := { s with time := { s.time with latched := s.time.now / 2 ^ 32 % 2 ^ 32 } }

/-! ## IEEE 1588 (R441, R442) -/

/-- Whether a message comes from the device's parent (R441, R442): a member's by its addresses and its TLV, role 0's by the grandmaster's address. -/
def State.fromParent (s : State) (m : PtpMsg) : Bool :=
  let c := s.caravan
  if c.role = 1 ∨ c.role = 2 then !c.isHead && (List.range 24).any (fun q => c.addrOf c.giver q = m.addr)
  else s.time.gm != 0 && m.addr == s.time.gm

def State.ptpOk (s : State) (m : PtpMsg) : Bool :=
  s.fromParent m && m.domain == s.time.ptp % 256 && (!(s.caravan.role = 1 ∨ s.caravan.role = 2) || (m.tlv && m.tlvOk))

/-- A message dropped under R442; the run of exchanges that pass ends with a dropped one. -/
def State.ptpDrop (s : State) : State := { s with time := { s.time with ptpDrop := Nat.min 65535 (s.time.ptpDrop + 1), syncs := [] } }

/-- A Sync complete with its origin time: the offset from the parent. -/
def State.synced (s : State) (received origin : Nat) : State :=
  let d : Int := (received : Int) - (origin : Int)
  { s with time := { s.time with
    syncRecv := none
    syncDiff := d
    ptpOffset := d - s.time.ptpDelay
    syncs := ((d - s.time.ptpDelay) :: s.time.syncs).take 16
    lastSync := s.time.now } }

/-- SYNC: one-step complete at once, two-step with its Follow_Up. -/
def execSync (m : PtpMsg) (s : State) : Host.Outcome State Fault Refusal :=
  let s := s.upto m.received
  .next (
    if !s.ptpOk m then s.ptpDrop
    else if m.twoStep then { s with time := { s.time with syncRecv := some (m.seq, m.received) } }
    else s.synced m.received m.stamp)

/-- FOLLOW_UP: the origin time of the Sync it follows. -/
def execFollowUp (m : PtpMsg) (s : State) : Host.Outcome State Fault Refusal :=
  .next (
    if !s.ptpOk m then s.ptpDrop
    else
      match s.time.syncRecv with
      | some (q, t) => if q = m.seq then s.synced t m.stamp else s
      | none => s)

/-- DELAY_RESP: the path delay from the four times of an end-to-end exchange. -/
def execDelayResp (m : PtpMsg) (s : State) : Host.Outcome State Fault Refusal :=
  .next (
    if !s.ptpOk m then s.ptpDrop
    else
      match s.time.delayReqAt with
      | some t =>
        if m.seq + 1 ≠ s.time.delaySeq then s
        else
          let delay := (s.time.syncDiff + ((m.stamp : Int) - (t : Int))) / 2
          { s with time := { s.time with
            delayReqAt := none
            ptpDelay := delay
            ptpOffset := s.time.syncDiff - delay } }
      | none => s)

/-- ANNOUNCE: read only for the clockClass of the parent; 248 loses the reference (Table 18.1). -/
def execAnnounce (m : PtpMsg) (s : State) : Host.Outcome State Fault Refusal :=
  .next (
    if !s.fromParent m ∨ m.domain ≠ s.time.ptp % 256 then s
    else
      let s := { s with time := { s.time with parentClass := m.clockClass } }
      if 248 ≤ m.clockClass then s.loseReference 1 else s)

/-- DELAY_REQ: a master answers with the time it received it. -/
def execDelayReq (m : PtpMsg) (s : State) : Host.Outcome State Fault Refusal :=
  .next (if s.caravan.isManager && m.domain == s.time.ptp % 256 then s.emit (.ptp 4 m.port m.seq m.received) else s)

/-- clockClass sent (Table 18.4); Table 18.3 keeps holdover within 1 µs up to 64 s. -/
def State.clockClass (s : State) : Nat :=
  match s.time.st with
  | .locked => if s.time.sel = 0 then 6 else 135
  | .holdover => if s.now ≤ s.time.since + 64000000000 then 7 else 187
  | _ => 248

/-- PTP_SYNC_INTERVAL: a master's Sync and Follow_Up on each of its ports. -/
def execPtpSyncInterval (at_ : Nat) (s : State) : Host.Outcome State Fault Refusal :=
  let s := s.upto at_
  .next (
    if !s.caravan.isManager ∨ s.now < s.time.syncSent + 62500000 then s
    else
      let n := s.time.ptpSeq
      let s := s.activePorts.foldl (fun s q => (s.emit (.ptp 1 q n 0)).emit (.ptp 2 q n s.now)) s
      { s with time := { s.time with ptpSeq := (n + 1) % 65536, syncSent := s.now } })

/-- Whether the device has a parent (R441). -/
def State.hasParent (s : State) : Bool :=
  if s.caravan.role = 1 ∨ s.caravan.role = 2 then !s.caravan.isHead else s.time.gm != 0

/-- PTP_DELAY_REQ_INTERVAL: a slave asks on its one slave port. -/
def execPtpDelayReqInterval (at_ : Nat) (s : State) : Host.Outcome State Fault Refusal :=
  let s := s.upto at_
  .next (
    match s.activePorts with
    | [] => s
    | q :: _ =>
      if !s.hasParent ∨ s.now < s.time.delayAsked + 62500000 then s
      else
        let n := s.time.delaySeq
        { s with time := { s.time with
          delayReqAt := some s.now
          delayAsked := s.now
          delaySeq := n + 1 } }.emit (.ptp 3 q n s.now))

/-- PTP_ANNOUNCE_INTERVAL: Announce with the clockClass on every port. -/
def execPtpAnnounceInterval (at_ : Nat) (s : State) : Host.Outcome State Fault Refusal :=
  let s := s.upto at_
  .next (
    if s.now < s.time.announced + 1000000000 then s
    else
      let n := s.time.ptpSeq
      let s := s.activePorts.foldl (fun s q => s.emit (.ptp 5 q n s.clockClass)) s
      { s with time := { s.time with ptpSeq := (n + 1) % 65536, announced := s.now } })

end Sys2Proof.Machine
end

