-- ==== Sys2Proof/Machine/Collectives.lean ====
section
/-! DEFINITION. Collectives over the network dies: an execution's start, and its reduction along the fixed tree (R400 to R403, Tables 16.6 and 16.7). -/

namespace Sys2Proof.Machine

/-! ## The record's fields (Table 16.6) -/

def collOp (w : Nat) : Nat := fld w 0 1
def collLoose (w : Nat) : Bool := bit (fld w 1 1) 0
def collNarrow (w : Nat) : Bool := bit (fld w 1 1) 1
def collRedop (w : Nat) : Nat := fld w 2 1
def collFmt (w : Nat) : Nat := fld w 3 1
def collSrc (w : Nat) : Nat := fld w 8 8
def collDst (w : Nat) : Nat := fld w 16 8
def collCount (w : Nat) : Nat := fld w 24 4
def collPositions (w : Nat) : Nat := fld w 36 4

/-- The position of a rank, and the rank of a position (R399). -/
def collPos (w rank : Nat) : Nat := (rank - fld w 28 4) / fld w 32 4
def collRank (w i : Nat) : Nat := fld w 28 4 + i * fld w 32 4

/-! ## Combining (R401) -/

/-- An accumulated element in FP32 or INT32, with the saturations counted on the way. -/
structure CollAcc where
  v : Nat
  sat : Nat

/-- A stored element as the accumulator's format holds it. -/
def collIn (w c : Nat) : CollAcc := ⟨if collFmt w = 9 then c else rne32 (decodeElem (collFmt w) c), 0⟩

/-- One combination; `narrow` rounds its result to the record's format. -/
def collCombine (w : Nat) (a b : CollAcc) : CollAcc :=
  if collFmt w = 9 then
    let (v, n) := satI32 (i32 a.v + i32 b.v)
    let x := match collRedop w with
      | 0 => u32 v
      | 1 => if i32 a.v < i32 b.v then b.v else a.v
      | _ => if i32 b.v < i32 a.v then b.v else a.v
    ⟨x, a.sat + b.sat + (if collRedop w = 0 then n else 0)⟩
  else
    let x := match collRedop w with
      | 0 => fadd a.v b.v
      | 1 => fmax a.v b.v
      | _ => fmin a.v b.v
    ⟨if collNarrow w then rne32 (decodeElem (collFmt w) (convert (x32 x) (collFmt w) cvt0 0).code) else x, a.sat + b.sat⟩

/-- One level of the tree: neighbours combined, a last one without a neighbour unchanged. -/
def collLevel (w : Nat) : List CollAcc → List CollAcc
  | a :: b :: r => collCombine w a b :: collLevel w r
  | l => l

/-- The fixed tree over positions, level by level; the fuel is the number of positions. -/
def collTree (w : Nat) : Nat → List CollAcc → Option CollAcc
  | 0, l => l.head?
  | n + 1, l =>
    match l with
    | [a] => some a
    | _ => collTree w n (collLevel w l)

/-- Contributions combined in the order of a list (R402). -/
def collChain (w : Nat) : List CollAcc → Option CollAcc
  | [] => none
  | a :: r => some (r.foldl (collCombine w) a)

/-- One element of a reduction: its contributions in the order they combine, then the one conversion. -/
def collElem (w draw : Nat) (l : List Nat) : Option (Conv × Nat) :=
  let xs := l.map (collIn w)
  let x := if collLoose w then collChain w xs else collTree w xs.length xs
  x.map fun a => (convert (if collFmt w = 9 then decodeElem 9 a.v else x32 a.v) (collFmt w) (Cvt.ofByte (fld w 4 1)) draw, a.sat)

/-! ## Gathering -/

/-- Elements of a buffer's bytes. -/
def collCodes (w : Nat) (bs : List Byte) : List Nat :=
  let k := collWidth (collFmt w)
  let m := memWriteN [] 0 bs
  (List.range (bs.length / k)).map fun i => memNat m (k * i) k

/-- The block of the own contribution that the operation at this position uses. -/
def collOwn (w pos : Nat) (codes : List Nat) : List Nat :=
  if collOp w = 2 then (codes.drop (pos * collCount w)).take (collCount w) else codes.take (collCount w)

/-- The other positions' blocks and the own one in the order they combine: by position, or in the order they came (R402). -/
def collOrder (w pos : Nat) (own : List Nat) (parts : List (Nat × List Nat)) : List (Nat × List Nat) :=
  let l := (pos, own) :: parts.filter fun p => p.1 ≠ pos
  if collLoose w then l else sortBy (fun p => p.1) l

/-- Whether the contributions are those of every position that owes one, each with `count` elements of the format. -/
def collComplete (w pos : Nat) (parts : List (Nat × List Nat)) : Bool :=
  let need := if collOp w = 4 then [fld w 40 4] else List.range (collPositions w)
  let fits (l : List Nat) : Bool := l.length == collCount w && l.all fun v => decide (v < 2 ^ fmtWidth (collFmt w))
  (need.all fun i => i == pos || (parts.filter fun p => p.1 == i).length == 1) && parts.all fun p => need.contains p.1 && fits p.2

/-- The bytes of `dst`, and the saturations and dropped NaNs of the way: additions, conversions, NaNs. -/
def collResult (w pos : Nat) (draw : Nat → Nat) (own : List Nat) (parts : List (Nat × List Nat)) : List Byte × Nat × Nat × Nat :=
  let k := collWidth (collFmt w)
  let all := collOrder w pos own parts
  if collOp w = 3 then (((sortBy (fun p => p.1) all).flatMap (·.2)).flatMap (leBytes k), 0, 0, 0)
  else if collOp w = 4 then
    let root := fld w 40 4
    ((((all.find? fun p => p.1 = root).map (·.2)).getD []).flatMap (leBytes k), 0, 0, 0)
  else
    let es := (List.range (collCount w)).filterMap fun i => collElem w (draw i) (all.map fun p => p.2.getD i 0)
    (es.flatMap fun e => leBytes k e.1.code, sumNat (es.map (·.2)), sumNat (es.map (·.1.sat)), sumNat (es.map (·.1.nan)))

/-! ## The two rows (R400) -/

/-- The unit that a collective's faults and counts name: the first network die. -/
def collUnit : Nat := 152

/-- Whether the position reads its `src`. -/
def collReads (w pos : Nat) : Bool := collOp w != 4 || fld w 40 4 == pos

def State.modColl (s : State) (r k : Nat) (f : CollSt → CollSt) : State := s.modRoom r fun x => { x with coll := tmod ⟨0, false, 0⟩ x.coll k f }

/-- COLLECTIVE_EXECUTION: a queued execution leaves its queue; its first exchange is with the position beside it. -/
def execCollectiveExecution (room index : Nat) (s : State) : Host.Outcome State Fault Refusal :=
  .next (
    let x := s.room room
    match x.job, x.prog[index]? with
    | some j, some w =>
      let c := tget ⟨0, false, 0⟩ x.coll index
      if !x.running ∨ c.queued = 0 ∨ c.running then s
      else
        let s := s.modColl room index fun c => { c with
          queued := c.queued - 1
          running := true }
        let s := if collLoose w then s.waive room 1 else s
        let pos := collPos w j.rank
        match if collReads w pos then s.readAny room (collSrc w) (collSrcBytes w) else .ok [] with
        | .error e => s.raiseFault room e collUnit
        | .ok _ =>
          let peer := if pos % 2 = 0 then pos + 1 else pos - 1
          if collPositions w ≤ peer ∨ !collReads w pos then s
          else s.sendMsg room (collRank w peer) (0x8000 + index)
            ⟨64 * c.next, collSrc w, 0, collSrcBytes w, 0, 0, recordDigest w, collLoose w, none⟩
    | _, _ => s)

/-- The draw of a result element under keyed stochastic rounding: the same at every position, for the job's seed, the record, the execution and the
element of the reduction; Table 1.9 gives a collective no index (log entry 106). -/
def collDraw (w seed index e pos i : Nat) : Nat :=
  Config.openDraw [2, seed, index, e, if collOp w = 2 then pos * collCount w + i else i] % 65536

/-- COLLECTIVE_COMPLETE: `parts` are the contributions of the other positions, for this one, in the order they came; `dst` is written and the counter posted. -/
def execCollectiveComplete (room index : Nat) (parts : List (Nat × List Nat)) (s : State) : Host.Outcome State Fault Refusal :=
  .next (
    let x := s.room room
    match x.job, x.prog[index]? with
    | some j, some w =>
      let pos := collPos w j.rank
      if !x.running ∨ !(tget ⟨0, false, 0⟩ x.coll index).running ∨ !collComplete w pos parts then s
      else
        match if collReads w pos then s.readAny room (collSrc w) (collSrcBytes w) else .ok [] with
        | .error e => s.raiseFault room e collUnit
        | .ok src =>
          let e := (tget ⟨0, false, 0⟩ x.coll index).next
          let draw (i : Nat) : Nat := collDraw w j.seed index e pos i
          let (bs, adds, sats, nans) := collResult w pos draw (collOwn w pos (collCodes w src)) parts
          let s := ((s.count collUnit 5 adds).count collUnit 6 sats).count collUnit 7 nans
          let s := (s.chargeNormal room (collSrc w) src.length).chargeNormal room (collDst w) bs.length
          let o := s.writeAny room (collDst w) bs
          match o.code with
          | some e => o.s.raiseFault room e collUnit
          | none =>
            (o.s.modColl room index fun c => { c with
              running := false
              next := c.next + 1 }).postCounter room (fld w 6 2) (fld w 5 1) 1 collectiveWait
    | _, _ => s)

end Sys2Proof.Machine
end

