-- ==== Sys2Proof/Machine/Develop.lean ====
section
/-! DEFINITION. The arithmetic of the ingest dies: the tensor path (R292, R293), the frame developer (R295 to R297), dictionaries and tokenising (R300, R301). Pure functions of records and pixels. -/

namespace Sys2Proof.Machine

/-! ## Numbers -/

/-- A decimal fraction n/d as FP32. -/
def frat (n d : Nat) : Nat := fdiv (fofNat n) (fofNat d)
def fone : Nat := 0x3F800000
def fhalf : Nat := 0x3F000000
def fabs (a : Nat) : Nat := a % 2 ^ 31
def fge (a b : Nat) : Bool := !isNan32 a && !isNan32 b && !flt a b
def fle (a b : Nat) : Bool := fge b a
/-- The floor of a number, 0 below 0. -/
def ffloor (a : Nat) : Nat := if isNan32 a ∨ isInf32 a then 0 else (dy32 a).floor.toNat
/-- A value kept within [lo, hi]. -/
def fclamp (lo hi a : Nat) : Nat := if flt a lo then lo else if flt hi a then hi else a
/-- Linear interpolation from `a` to `b`; a zero fraction gives `a` itself. -/
def flerp (f a b : Nat) : Nat := if isZero32 f then a else ffma f (fsub b a) a
/-- A fused chain of three products in the order given. -/
def fchain (k0 a k1 b k2 c : Nat) : Nat := ffma k2 c (ffma k1 b (fmul k0 a))

/-- A draw of domain 0x4147 (R292): x0[31:8] × 2^−24, as FP32. -/
def augDraw (seed code c0 c1 c2 : Nat) : Nat := rne32 ((unitDraw (philox ⟨c0, c1, c2, 0x4147 * 65536 + code⟩ seed)).toX)

/-! ## The augmentation block (Table 11.3) -/

/-- The fields of a block as a memory from address 0. -/
def augU (m : Memory) (o n : Nat) : Nat := memNat m o n

/-- A range field: lo and hi. -/
def augR (m : Memory) (o : Nat) : Nat × Nat := (memNat m o 4, memNat m (o + 4) 4)

/-- Whether a block passes R293; `ir` says the path has an IR channel. -/
def augOk (m : Memory) (ir : Bool) : Bool :=
  let r (o : Nat) (ok : Nat → Nat → Bool) : Bool := let (lo, hi) := augR m o; fle lo hi && ok lo hi
  let any (_ _ : Nat) : Bool := true
  let unit (lo hi : Nat) : Bool := fge lo 0 && fle hi fone
  augU m 0 1 == 1 && decide (augU m 1 1 < 8) && decide (1 ≤ augU m 2 2) && decide (augU m 2 2 ≤ 16384) &&
    decide (1 ≤ augU m 4 2) && decide (augU m 4 2 ≤ 16384) && decide (augU m 6 1 ≤ (if ir then 4 else 3)) && decide (augU m 7 1 ≤ 1) &&
    r 16 (fun lo hi => flt 0 lo && fle hi fone) && r 24 unit && r 32 unit && unit (augU m 40 4) (augU m 40 4) && augU m 44 4 == 0 &&
    r 48 any && r 56 (fun lo _ => flt 0 lo) && r 64 (fun lo _ => fge lo 0) && r 72 (fun lo _ => fge lo 0) &&
    [0x0, 0x2, 0x3, 0xE, 0xD].contains (augU m 112 1) && cvtByteOk (augU m 113 1) && bits (augU m 113 1) 5 4 == 0 &&
    augU m 114 14 == 0

def augGeo (m : Memory) : Bool := bit (augU m 1 1) 0
def augPhoto (m : Memory) : Bool := bit (augU m 1 1) 1
def augNoise (m : Memory) : Bool := bit (augU m 1 1) 2

/-- Whether the block needs a draw (R292). -/
def augDraws (m : Memory) : Bool :=
  let d (o : Nat) : Bool := let (lo, hi) := augR m o; flt lo hi
  (augGeo m && (d 16 || d 24 || d 32 || (flt 0 (augU m 40 4) && flt (augU m 40 4) fone))) ||
    (augPhoto m && (d 48 || d 56 || d 64)) || augNoise m

/-- The value a range field takes (R292). -/
def augVal (m : Memory) (seed o code : Nat) : Nat :=
  let (lo, hi) := augR m o
  if !flt lo hi then lo else ffma (augDraw seed code (augU m 8 4) (augU m 12 4) 0) (fsub hi lo) lo

/-! ## The tensor path (R293) -/

/-- A working image: its size, and a channel of a pixel. -/
structure Img where
  w : Nat
  h : Nat
  px : Nat → Nat → Nat → Nat

/-- The source coordinate of an output position: whole part and fraction. -/
def resizeAt (c o x : Nat) : Nat × Nat :=
  if c = o then (x, 0)
  else
    let s := fsub (fmul (fadd (fofNat x) fhalf) (fdiv (fofNat c) (fofNat o))) fhalf
    let s := fclamp 0 (fofNat (c - 1)) s
    let j := ffloor s
    (j, fsub s (fofNat j))

/-- Stages 1 to 3: crop, resize, flip. -/
def augGeometry (m : Memory) (seed : Nat) (g : Img) : Img :=
  let ow := augU m 2 2
  let oh := augU m 4 2
  let side (n : Nat) : Nat := if augGeo m then Nat.max 1 (ffloor (fmul (augVal m seed 16 1) (fofNat n))) else n
  let cw := side g.w
  let ch := side g.h
  let org (o code n c : Nat) : Nat := if augGeo m then ffloor (fmul (augVal m seed o code) (fofNat (n - c))) else 0
  let x0 := org 24 2 g.w cw
  let y0 := org 32 3 g.h ch
  let p := augU m 40 4
  let flip := augGeo m && (fge p fone || (flt 0 p && flt (augDraw seed 4 (augU m 8 4) (augU m 12 4) 0) p))
  { w := ow, h := oh, px := fun x y k =>
      let (jx, fx) := resizeAt cw ow (if flip then ow - 1 - x else x)
      let (jy, fy) := resizeAt ch oh y
      let at_ (i j : Nat) : Nat := g.px (x0 + Nat.min i (cw - 1)) (y0 + Nat.min j (ch - 1)) k
      flerp fy (flerp fx (at_ jx jy) (at_ (jx + 1) jy)) (flerp fx (at_ jx (jy + 1)) (at_ (jx + 1) (jy + 1))) }

def luma709 (r g b : Nat) : Nat := fchain (frat 2126 10000) r (frat 7152 10000) g (frat 722 10000) b

/-- Stages 4 and 5 on one pixel of a room's job seed. -/
def augTone (m : Memory) (seed : Nat) (g : Img) (ch x y k : Nat) : Nat :=
  let b := augVal m seed 48 5
  let c := augVal m seed 56 6
  let s := augVal m seed 64 7
  let lin (k : Nat) : Nat := fmul (fadd (g.px x y k) b) c
  let v := if augPhoto m then
      let l := luma709 (lin 0) (lin 1) (lin 2)
      fadd l (fmul s (fsub (lin k) l))
    else g.px x y k
  if augNoise m ∧ k < ch then
    fadd v (fmul (augVal m seed 72 8) (ffma 0x40000000 (augDraw seed 9 (augU m 8 4) (augU m 12 4) ((y * g.w + x) * 4 + k)) 0xBF800000))
  else v

/-- Output channels of a colour space. -/
def augChannels (cspace : Nat) : Nat := if cspace = 3 then 1 else if cspace = 4 then 4 else 3

/-- Stage 6: one output channel from the working channels. -/
def augColour (cspace k : Nat) (v : Nat → Nat) : Nat :=
  match cspace with
  | 1 => v (2 - k)
  | 2 =>
    let y := luma709 (v 0) (v 1) (v 2)
    if k = 0 then y
    else if k = 1 then fadd (fdiv (fsub (v 2) y) (frat 18556 10000)) fhalf
    else fadd (fdiv (fsub (v 0) y) (frat 15748 10000)) fhalf
  | 3 => luma709 (v 0) (v 1) (v 2)
  | _ => v k

/-- The draw of an output element under keyed stochastic rounding: a fixed value of the job seed, the sample, the epoch and the element, as R284 asks;
Table 1.9 gives these elements no key (log entry 106). -/
def tensorDraw (m : Memory) (seed i : Nat) : Nat := Config.openDraw [3, seed, augU m 8 4, augU m 12 4, i] % 65536

/-- The rows of the output, each with the offset it is written at: stages 1 to 8. -/
def augRows (m : Memory) (seed : Nat) (g : Img) (ch pitch : Nat) : List (Nat × List Byte) × List Conv :=
  let t := augGeometry m seed g
  let cs := augU m 6 1
  let n := augChannels cs
  let fmt := augU m 112 1
  let out (x y k : Nat) : Conv :=
    let v := augColour cs k fun j => augTone m seed t ch x y j
    let v := fmul (fsub v (augU m (80 + 4 * k) 4)) (augU m (96 + 4 * k) 4)
    convert (x32 v) fmt (Cvt.ofByte (augU m 113 1)) (tensorDraw m seed ((y * t.w + x) * n + k))
  let row (l : List Conv) : List Byte := packRow fmt (l.map (·.code))
  let rows : List (Nat × List Conv) :=
    if augU m 7 1 = 0 then (List.range t.h).map fun y => (y * pitch, (List.range t.w).flatMap fun x => (List.range n).map (out x y))
    else (List.range n).flatMap fun k => (List.range t.h).map fun y => ((k * t.h + y) * pitch, (List.range t.w).map fun x => out x y k)
  (rows.map fun r => (r.1, row r.2), rows.flatMap (·.2))

/-! ## Calibration records (Table 11.4) -/

def calPattern (c : Memory) (px py : Nat) : Nat :=
  let b := memNat c (4 + (py * 8 + px) / 2) 1
  if (py * 8 + px) % 2 = 0 then b % 16 else b / 16

def calBits (c : Memory) : Nat := memNat c 1 1
def calPw (c : Memory) : Nat := memNat c 2 1
def calPh (c : Memory) : Nat := memNat c 3 1
def calWhite (c : Memory) : Nat := memNat c 36 2
def calBlack (c : Memory) (k : Nat) : Nat := memNat c (38 + 2 * k) 2
def calNdef (c : Memory) : Nat := memNat c 52 4
def calGw (c : Memory) : Nat := memNat c 64 2
def calGh (c : Memory) : Nat := memNat c 66 2

/-- The classes present in the pattern. -/
def calHas (c : Memory) (k : Nat) : Bool :=
  (List.range (calPh c)).any fun y => (List.range (calPw c)).any fun x => calPattern c x y == k

/-- The tables a record points at: address and bytes. -/
def calTables (c : Memory) : List (Nat × Nat) :=
  [(memNat c 56 8, 4 * calNdef c), (memNat c 72 8, 10 * calGh c * calGw c), (memNat c 164 8, 4100)]

/-- Whether a record passes R295, tables apart. -/
def calOk (c : Memory) : Bool :=
  let pw := calPw c
  let ph := calPh c
  memNat c 0 1 == 1 && [10, 12, 14, 16].contains (calBits c) && decide (1 ≤ pw) && decide (pw ≤ 8) && decide (1 ≤ ph) && decide (ph ≤ 8) &&
    ((List.range 8).all fun y => (List.range 8).all fun x =>
      if x < pw ∧ y < ph then decide (calPattern c x y < 5) else calPattern c x y == 0) &&
    fge (memNat c 48 4) 0 && decide (calNdef c ≤ 65536) && decide (2 ≤ calGw c) && decide (calGw c ≤ 64) && decide (2 ≤ calGh c) &&
    decide (calGh c ≤ 64) && memNat c 68 4 == 0 && fge (memNat c 124 4) 0 && memNat c 172 84 == 0 &&
    calHas c 0 && calHas c 2 && (calHas c 1 || (calHas c 3 && !isZero32 (memNat c 104 4))) &&
    ((List.range 5).all fun k => !calHas c k || decide (calBlack c k < calWhite c)) &&
    (calTables c).all fun t => t.1 % 64 == 0

/-! ## The frame developer (Table 11.5) -/

/-- A loaded calibration with one capture: the record, its tables, the capture's size and raw values. -/
structure Capture where
  cal : Memory
  defects : List (Nat × Nat)
  shading : List Nat
  tone : List Nat
  w : Nat
  h : Nat
  raw : Nat → Nat → Nat

def Capture.cls (c : Capture) (x y : Nat) : Nat := calPattern c.cal (x % calPw c.cal) (y % calPh c.cal)

/-- Stage 1: black level. -/
def Capture.black (c : Capture) (x y : Nat) : Nat :=
  let b := calBlack c.cal (c.cls x y)
  let white := calWhite c.cal
  fmul (fofNat (Nat.min (Nat.max (c.raw x y) b) white - b)) (sfu 4 (fofNat (white - b)) cvt0)

def Capture.listed (c : Capture) (x y : Nat) : Bool := c.defects.contains (x, y)

/-- The mean of values summed in order; 0 for none. -/
def fmean (l : List Nat) : Nat :=
  match l with
  | [] => 0
  | v :: r => fdiv (r.foldl fadd v) (fofNat l.length)

/-- Stage 2, static: a listed defect becomes the mean of its listed-free neighbours in the frame. -/
def Capture.static (c : Capture) (x y : Nat) : Nat :=
  if !c.listed x y then c.black x y
  else
    let pw := calPw c.cal
    let ph := calPh c.cal
    let l := (if pw ≤ x then [(x - pw, y)] else []) ++ (if x + pw < c.w then [(x + pw, y)] else []) ++
      (if ph ≤ y then [(x, y - ph)] else []) ++ (if y + ph < c.h then [(x, y + ph)] else [])
    fmean ((l.filter fun p => !c.listed p.1 p.2).map fun p => c.black p.1 p.2)

/-- Stage 2, dynamic: an unlisted pixel kept near its same-class neighbours. -/
def Capture.fixed (c : Capture) (x y : Nat) : Nat :=
  let t := memNat c.cal 48 4
  if isZero32 t ∨ c.listed x y then c.static x y
  else
    let pw := calPw c.cal
    let ph := calPh c.cal
    let ns := (List.range 9).filterMap fun i =>
      let x' := x + (i % 3) * pw
      let y' := y + (i / 3) * ph
      if i = 4 ∨ x' < pw ∨ y' < ph ∨ c.w ≤ x' - pw ∨ c.h ≤ y' - ph then none else some (c.static (x' - pw) (y' - ph))
    match ns with
    | [] => c.static x y
    | v :: r => fclamp (fsub (r.foldl fmin v) t) (fadd (r.foldl fmax v) t) (c.static x y)

/-- A grid coordinate: node and fraction. -/
def gridAt (x n g : Nat) : Nat × Nat :=
  let p := fdiv (fofNat (x * (g - 1))) (fofNat (n - 1))
  let j := Nat.min (ffloor p) (g - 2)
  (j, fsub p (fofNat j))

/-- Stages 3 and 4: lens shading and white balance. -/
def Capture.v (c : Capture) (x y : Nat) : Nat :=
  let gw := calGw c.cal
  let gh := calGh c.cal
  let k := c.cls x y
  let node (i j : Nat) : Nat := rne32 (decodeElem 0x3 (c.shading.getD ((k * gh + j) * gw + i) 0))
  let (jx, fx) := gridAt x c.w gw
  let (jy, fy) := gridAt y c.h gh
  let g := flerp fy (flerp fx (node jx jy) (node (jx + 1) jy)) (flerp fx (node jx (jy + 1)) (node (jx + 1) (jy + 1)))
  fmul (fmul (c.fixed x y) g) (memNat c.cal (80 + 4 * k) 4)

/-- Stage 5: one class reconstructed at a pixel. -/
def Capture.demosaic (c : Capture) (k x y : Nat) : Nat :=
  if c.cls x y = k then c.v x y
  else
    let e := memNat c.cal 124 4
    let here := c.v x y
    let l := if x = 0 then here else c.v (x - 1) y
    let r := if x + 1 < c.w then c.v (x + 1) y else here
    let u := if y = 0 then here else c.v x (y - 1)
    let d := if y + 1 < c.h then c.v x (y + 1) else here
    let ah := ffma (fabs (fsub l r)) e fone
    let av := ffma (fabs (fsub u d)) e fone
    let pw := calPw c.cal
    let ph := calPh c.cal
    let sq (a b : Nat) : Nat := fofNat ((if a < b then b - a else a - b) ^ 2)
    let pts := (List.range (2 * ph + 1)).flatMap fun j => (List.range (2 * pw + 1)).filterMap fun i =>
      if y + j < ph ∨ x + i < pw ∨ c.h ≤ y + j - ph ∨ c.w ≤ x + i - pw then none
      else if c.cls (x + i - pw) (y + j - ph) = k then some (x + i - pw, y + j - ph) else none
    let (sw, sv) := pts.foldl (fun a p =>
      let w := sfu 4 (ffma (sq p.1 x) ah (fmul (sq p.2 y) av)) cvt0
      (fadd a.1 w, ffma w (c.v p.1 p.2) a.2)) (0, 0)
    if isZero32 sw then 0 else fdiv sv sw

/-- Stage 5 to 6: the pixel after IR removal and the colour matrix; channel 3 is IR. -/
def Capture.rgb (c : Capture) (x y : Nat) : Nat → Nat :=
  let m := c.cal
  let r := c.demosaic 0 x y
  let b := c.demosaic 2 x y
  let g := if calHas m 1 then c.demosaic 1 x y
    else fdiv (fsub (c.demosaic 3 x y) (ffma (memNat m 100 4) r (fmul (memNat m 108 4) b))) (memNat m 104 4)
  let ir := if calHas m 4 then c.demosaic 4 x y else 0
  let less (v o : Nat) : Nat := if calHas m 4 then ffma (fneg (memNat m o 4)) ir v else v
  let r' := less r 112
  let g' := less g 116
  let b' := less b 120
  fun k => if k = 3 then ir else
    let o := 128 + 12 * k
    fchain (memNat m o 4) r' (memNat m (o + 4) 4) g' (memNat m (o + 8) 4) b'

/-- Stage 7: the tone curve. -/
def Capture.toned (c : Capture) (v : Nat) : Nat :=
  let p := fmul (fclamp 0 fone v) (fofNat 1024)
  let j := Nat.min (ffloor p) 1023
  let t (i : Nat) : Nat := c.tone.getD i 0
  ffma (fsub p (fofNat j)) (fsub (t (j + 1)) (t j)) (t j)

/-- A value rounded to nearest even and kept in [0, max], with what the conversion counts (R34, R35). -/
def toCode (v max : Nat) : Conv :=
  let c := convert (x32 v) 0xD cvt0 0
  if max < c.code then { c with
    code := max
    sat := 1 } else c

/-- Rows of converted samples as rows of bytes, `n` a sample; and every sample of them. -/
def sampleRows (n : Nat) (l : List (Nat × List Conv)) : List (Nat × List Byte) := l.map fun r => (r.1, r.2.flatMap fun c => leBytes n c.code)
def samplesOf (l : List (Nat × List Conv)) : List Conv := l.flatMap (·.2)

/-- The rows of the preview (R297). -/
def Capture.preview (c : Capture) (pds pitch : Nat) : List (Nat × List Conv) :=
  let scale := fdiv fone (fofNat (pds * pds))
  (List.range (c.h / pds)).map fun j => (j * pitch, (List.range (c.w / pds)).flatMap fun i => (List.range 3).map fun k =>
    let vs := (List.range (pds * pds)).map fun q => c.toned (c.rgb (i * pds + q % pds) (j * pds + q / pds) k)
    toCode (fmul (fmul ((vs.drop 1).foldl fadd (vs.headD 0)) scale) (fofNat 255)) 255)

/-- Luma and the two chroma values of a toned pixel, under BT.709 or BT.2020. -/
def Capture.ycc (c : Capture) (cmat x y : Nat) : Nat → Nat :=
  let p (k : Nat) : Nat := c.toned (c.rgb x y k)
  let (kr, kg, kb, cb, cr) := if cmat = 0 then (2126, 7152, 722, 18556, 15748) else (2627, 6780, 593, 18814, 14746)
  let l := fchain (frat kr 10000) (p 0) (frat kg 10000) (p 1) (frat kb 10000) (p 2)
  fun k => if k = 0 then l else if k = 1 then fdiv (fsub (p 2) l) (frat cb 10000) else fdiv (fsub (p 0) l) (frat cr 10000)

/-- A coding sample: limited range, 8 or 10 bits. -/
def codeSample (deep : Bool) (chroma : Bool) (v : Nat) : Conv :=
  match deep, chroma with
  | false, false => toCode (fadd (fofNat 16) (fmul (fofNat 219) v)) 255
  | false, true => toCode (fadd (fofNat 128) (fmul (fofNat 224) v)) 255
  | true, false => toCode (fadd (fofNat 64) (fmul (fofNat 876) v)) 1023
  | true, true => toCode (fadd (fofNat 512) (fmul (fofNat 896) v)) 1023

/-- The luma rows and the chroma rows of the coding output (R297). -/
def Capture.coding (c : Capture) (cmat : Nat) (deep : Bool) (pitch : Nat) : List (Nat × List Conv) × List (Nat × List Conv) :=
  let luma := (List.range c.h).map fun y => (y * pitch, (List.range c.w).map fun x => codeSample deep false (c.ycc cmat x y 0))
  let chroma := (List.range (ceilDiv c.h 2)).map fun j => (j * pitch, (List.range (ceilDiv c.w 2)).flatMap fun i => [1, 2].map fun k =>
    let ps := ([(0, 0), (1, 0), (0, 1), (1, 1)].map fun q => (2 * i + q.1, 2 * j + q.2)).filter fun p => decide (p.1 < c.w) && decide (p.2 < c.h)
    codeSample deep true (fmean (ps.map fun p => c.ycc cmat p.1 p.2 k)))
  (luma, chroma)

/-- The image the tensor output starts from. -/
def Capture.image (c : Capture) (toned : Bool) : Img :=
  ⟨c.w, c.h, fun x y k => if toned then c.toned (c.rgb x y k) else c.rgb x y k⟩

/-! ## Dictionaries (R300) -/

/-- Byte-wise order, a prefix first. -/
def strLt : List Byte → List Byte → Bool
  | [], b => !b.isEmpty
  | _ :: _, [] => false
  | x :: a, y :: b => decide (x.toNat < y.toNat) || (x == y && strLt a b)

def strictlyRising : List (List Byte) → Bool
  | [] => true
  | a :: r => (match r with | [] => true | b :: _ => strLt a b) && strictlyRising r

/-- Whether a dictionary header passes Table 11.6. -/
def dictHeadOk (m : Memory) : Bool :=
  memNat m 0 4 == 0x54434944 && decide (1 ≤ memNat m 4 4) && decide (memNat m 4 4 ≤ 262144) && decide (1 ≤ memNat m 8 1) &&
    decide (memNat m 8 1 ≤ 64) && decide (memNat m 9 1 < 2) && memNat m 10 2 == 0 && decide (memNat m 12 4 + 255 < 2 ^ 31) &&
    decide (memNat m 24 8 ≤ 16777216) && memNat m 32 32 == 0

/-- The entries of a dictionary: string, ID and whether the entry itself is in order. -/
def dictEntries (m : Memory) : List (List Byte × Nat × Bool) :=
  let n := memNat m 4 4
  let heap := memNat m 24 8
  (List.range n).map fun i =>
    let a := 64 + 16 * i
    let o := memNat m a 4
    let l := memNat m (a + 8) 1
    (memReadN m (64 + 16 * n + o) l, memNat m (a + 4) 4,
     decide (memNat m (a + 4) 4 < 2 ^ 31) && decide (1 ≤ l) && decide (l ≤ memNat m 8 1) && memNat m (a + 9) 7 == 0 && decide (o + l ≤ heap))

def dictOk (m : Memory) : Bool :=
  let es := dictEntries m
  dictHeadOk m && es.all (·.2.2) && strictlyRising (es.map (·.1)) &&
    (bit (memNat m 9 1) 0 || (List.range 256).all fun b => es.any fun e => e.1 == [BitVec.ofNat 8 b])

/-! ## Tokenising (R301) -/

/-- The length of the UTF-8 sequence a lead byte opens, and the range of its second byte (RFC 3629); 0 for no lead byte. -/
def utf8Lead (b : Nat) : Nat × Nat × Nat :=
  if b < 0x80 then (1, 0, 0)
  else if b < 0xC2 then (0, 0, 0)
  else if b < 0xE0 then (2, 0x80, 0xBF)
  else if b = 0xE0 then (3, 0xA0, 0xBF)
  else if b = 0xED then (3, 0x80, 0x9F)
  else if b < 0xF0 then (3, 0x80, 0xBF)
  else if b = 0xF0 then (4, 0x90, 0xBF)
  else if b < 0xF4 then (4, 0x80, 0xBF)
  else if b = 0xF4 then (4, 0x80, 0x8F)
  else (0, 0, 0)

/-- Continuation bytes at the front of a list, at most `n`, the first within a range. -/
def utf8Tail (lo hi : Nat) : Nat → List Byte → Nat
  | 0, _ => 0
  | _, [] => 0
  | n + 1, b :: r => if lo ≤ b.toNat ∧ b.toNat ≤ hi then 1 + utf8Tail 0x80 0xBF n r else 0

/-- The repaired bytes, each with the input bytes consumed once it is consumed, and the subparts replaced. -/
def utf8Repair : Nat → List Byte → Nat → List (Byte × Nat) × Nat
  | 0, _, _ => ([], 0)
  | _, [], _ => ([], 0)
  | fuel + 1, b :: r, pos =>
    let (n, lo, hi) := utf8Lead b.toNat
    let k := if n ≤ 1 then 0 else utf8Tail lo hi (n - 1) r
    if n ≠ 0 ∧ k = n - 1 then
      let (l, c) := utf8Repair fuel (r.drop k) (pos + n)
      (((b :: r.take k).zipIdx.map fun p => (p.1, pos + p.2 + 1)) ++ l, c)
    else
      let (l, c) := utf8Repair fuel (r.drop k) (pos + 1 + k)
      ([(0xEF, pos), (0xBF, pos), (0xBD, pos + 1 + k)] ++ l, c + 1)

/-- The longest entry at the front of the bytes: its length and ID. -/
def longest (d : Dict) (l : List Byte) : Nat → Option (Nat × Nat)
  | 0 => none
  | n + 1 =>
    if l.length < n + 1 then longest d l n
    else match d.entries.find? fun e => e.1 == l.take (n + 1) with
      | some e => some (n + 1, e.2)
      | none => longest d l n

/-- The matching loop: IDs so far newest first, the input bytes consumed, and whether the output is full. -/
def matchRun (d : Dict) (max : Nat) : Nat → List (Byte × Nat) → List Nat → Nat → List Nat × Nat × Bool
  | 0, _, out, used => (out, used, decide (max ≤ out.length))
  | fuel + 1, l, out, used =>
    if max ≤ out.length then (out, used, true)
    else match l with
      | [] => (out, used, false)
      | b :: r =>
        match longest d (l.map (·.1)) d.maxlen with
        | some (n, id) => matchRun d max fuel (l.drop n) (id :: out) (((l.take n).getLast?.map (·.2)).getD used)
        | none => matchRun d max fuel r ((d.byteBase + b.1.toNat) :: out) b.2

/-- A RUN: IDs with whether each may be masked, input bytes consumed, subparts replaced, and whether it was cut. -/
def tokenize (d : Dict) (bytes : List Byte) (max : Nat) : List (Nat × Bool) × Nat × Nat × Bool :=
  let (rep, bad) := utf8Repair bytes.length bytes 0
  let start := if d.bos = 0xFFFFFFFF then [] else [d.bos]
  let (out, used, full) := matchRun d max (rep.length + 1) rep start 0
  let ids := out.reverse.zipIdx.map fun p => (p.1, decide (start.length ≤ p.2))
  if full then (ids, used, bad, true)
  else
    let ids := if d.eos = 0xFFFFFFFF then ids else ids ++ [(d.eos, false)]
    (ids, used, bad, decide (max ≤ ids.length))

end Sys2Proof.Machine
end

