-- ==== Sys2Proof/Machine/Ingesting.lean ====
section
/-! DEFINITION. The ingest descriptors: DECODE, DEVELOP, TOKENIZE and AUGMENT (R284 to R302). -/

namespace Sys2Proof.Machine

/-! ## What they share -/

/-- How an ingest descriptor ends: status, detail, the two results, `aux`, and the engine time it took (R366). -/
structure IngestEnd where
  status : Nat
  detail : Nat
  result0 : Nat
  result1 : Nat
  aux : Nat
  ns : Nat

def IngestEnd.ok : IngestEnd := ⟨stOk, 0, 0, 0, 0, 0⟩
def IngestEnd.bad (c : Nat) : IngestEnd := ⟨stBadDescriptor, c, 0, 0, 0, 0⟩
def IngestEnd.data (c : Nat) : IngestEnd := ⟨stDataError, c, 0, 0, 0, 0⟩
def IngestEnd.access (c : Nat) : IngestEnd := ⟨stAccessFault, c, 0, 0, 0, 0⟩

/-- A counter of an I/O die site raised (Table 22.6). -/
def State.ingestCount (s : State) (site i n : Nat) : State :=
  { s with ingest := { s.ingest with counts := tmod 0 s.ingest.counts (site * 8 + i) fun v => sat64 (v + n) } }

/-- The site of a context (R285): the second half of a KN960-S's numbers lies on site 3, its first half on site 2. -/
def ingestSite (variant kind n : Nat) : Nat :=
  if variant = 1 ∧ n < (if kind = 0 then 128 else 64) then 2 else 3

/-- Whether a context or slot lies in a room's grant, and within the variant's count (Table 11.1). -/
def State.ingestGranted (s : State) (r kind n : Nat) : Bool :=
  let g := (s.room r).grant
  let w := if kind = 0 then g.streams else if kind = 1 then g.devctx else g.dict
  decide (bits w 15 0 ≤ n) && decide (n < bits w 15 0 + bits w 31 16)

/-- The FP32 seed rule of R292: a block that needs a draw needs a seed. -/
def State.augSeed (s : State) (r : Nat) (draws : Bool) : Except IngestEnd Nat :=
  match (s.room r).seed with
  | some v => .ok v
  | none => if draws then .error (IngestEnd.bad Code.ingestNoseed) else .ok 0

/-- An augmentation block read and checked. -/
def State.augBlock (s : State) (r va : Nat) (ir : Bool) : Except IngestEnd Memory :=
  match s.readAny r va 128 with
  | .error c => .error (IngestEnd.access c)
  | .ok bs =>
    let m := memWriteN [] 0 bs
    if augOk m ir then .ok m else .error (IngestEnd.bad Code.ingestAug)

/-- Rows written one after another from a base address; the first refusal stops them. -/
def State.putRows (s : State) (r base : Nat) : List (Nat × List Byte) → State × Option Nat
  | [] => (s, none)
  | x :: rest =>
    let w := (s.chargeNormal r (base + x.1) x.2.length).writeAny r (base + x.1) x.2
    match w.code with
    | some c => (w.s, some c)
    | none => w.s.putRows r base rest

/-- Bytes of a list of rows. -/
def rowsBytes (l : List (Nat × List Byte)) : Nat := sumNat (l.map fun x => x.2.length)

/-- Conversions counted against an ingest die (R34, R35). -/
def State.ingestConv (s : State) (site : Nat) (cs : List Conv) : State :=
  (s.count (152 + site) 6 (sumNat (cs.map (·.sat)))).count (152 + site) 7 (sumNat (cs.map (·.nan)))

/-- A tensor output: the path of R293, its rows written. -/
def State.tensorOut (s : State) (r : Nat) (m : Memory) (seed : Nat) (g : Img) (ch dst pitch site : Nat) : State × Option Nat :=
  let (rows, cs) := augRows m seed g ch pitch
  let (s, e) := (s.ingestConv site cs).putRows r dst rows
  (if e.isNone then s.ingestCount site 2 (rowsBytes rows) else s, e)

/-! ### Which room an ingest die serves (R344, R347, R348) -/

/-- The units of a die that serve descriptors of an opcode (Table 11.1): decode engines, developer pipelines, tokenizer lanes, augmentation pipelines. -/
def ingestUnits (variant opcode : Nat) : Nat := if opcode = 0x23 ∧ variant = 3 then 4 else 16

/-- The units of that kind that a room has reserved on each die (Table 14.1). -/
def State.ingestHeld (s : State) (variant r opcode : Nat) : Nat :=
  let w := s.schedWord r
  match opcode with
  | 0x20 => bits w 34 30
  | 0x22 => bits w 43 40
  | _ => if variant = 3 then 0 else bits w 39 35

/-- The arbiter of the units of a die: AUGMENT shares the developer pipelines. -/
def ingestArb (site opcode : Nat) : Nat := arbIngest (4 * (site % 2) + (if opcode = 0x20 then 0 else if opcode = 0x22 then 2 else 1))

/-- Whether a descriptor takes an engine: a FRAME, a RUN or an AUGMENT (R291, R294, R297, R301). -/
def Desc.onIngest (d : Desc) : Bool := d.opcode == 0x23 || ([0x20, 0x21, 0x22].contains d.opcode && d.fld 8 1 == 1)

/-- The site whose units serve a descriptor (R285): that of its context; the one die that serves AUGMENT, the second where there are two. -/
def Desc.ingestDie (d : Desc) (variant : Nat) : Nat :=
  match d.opcode with
  | 0x20 => ingestSite variant 0 (d.fld 12 2)
  | 0x21 => ingestSite variant 1 (d.fld 12 2)
  | _ => 3

/-- The rooms with a descriptor that the units of an arbiter may start. -/
def State.ingestReady (s : State) (arb : Nat) : List Nat :=
  (s.rooms.map (·.1)).filter fun r => (s.roomRings r).any fun q =>
    match s.canStart q.1 with
    | some d => d.onIngest && ingestArb (d.ingestDie s.variant) d.opcode == arb
    | none => false

/-- The state in which an ingest die serves a descriptor: on a unit that the room has reserved, or on another unit where the arbiter picks the room. -/
def State.onIngest (s : State) (r : Nat) (d : Desc) : Option State :=
  if !d.onIngest ∨ 0 < s.ingestHeld s.variant r d.opcode then some s
  else if ingestUnits s.variant d.opcode ≤ sumNat (s.rooms.map fun x => s.ingestHeld s.variant x.1 d.opcode) then none
  else
    let arb := ingestArb (d.ingestDie s.variant) d.opcode
    s.serve arb true (s.ingestReady arb) r

/-- Engine time charged: to the ledger and, on a unit that is not reserved, to the room's virtual time. -/
def State.chargeIngest (s : State) (r : Nat) (d : Desc) (ns : Nat) : State :=
  let s := s.charge r 8 ns
  if !d.onIngest ∨ 0 < s.ingestHeld s.variant r d.opcode then s
  else
    let arb := ingestArb (d.ingestDie s.variant) d.opcode
    (s.spend arb r ns).settle arb (s.ingestReady arb)

/-- The end of an ingest descriptor: its outputs written, the counter posted, the completion (R286). -/
def State.ingestEnd (s : State) (ring site : Nat) (d : Desc) (e : IngestEnd) : State :=
  let r := (s.ring ring).room
  let s := if e.status = stOk then (s.postCounter r (d.fld 14 2) (d.fld 16 1) 1 engineWait).ingestCount site 0 1 else s
  let s := if e.status = stDataError then s.ingestCount site 3 1 else s
  (s.complete ring d.seq e.status e.detail e.result0 e.result1 e.aux).chargeIngest r d e.ns

/-- Runs the ring's next descriptor where it is of one opcode and operation, and an engine that it needs serves its room. -/
def State.ingestCmd (s : State) (ring opcode : Nat) (p : Desc → Bool) (f : State → Nat → Desc → State × IngestEnd) : State :=
  match s.canStartOp ring opcode p with
  | none => s
  | some d =>
    match s.onIngest (s.ring ring).room d with
    | none => s
    | some s =>
      let (s, e) := f s (s.ring ring).room d
      s.ingestEnd ring (d.ingestDie s.variant) d e

/-- Turns an outcome with an error into a state and an end; the state is the one before it. -/
def endOr (s : State) (x : Except IngestEnd (State × IngestEnd)) : State × IngestEnd :=
  match x with
  | .ok y => y
  | .error e => (s, e)

/-- A read of device memory that ends the descriptor where it fails. -/
def State.ingestRead (s : State) (r va n : Nat) : Except IngestEnd (List Byte) :=
  match s.readAny r va n with
  | .ok bs => .ok bs
  | .error c => .error (IngestEnd.access c)

/-! ## DECODE (R288 to R291) -/

/-- The stream context a descriptor names, where its ring may use it. -/
def State.streamFor (s : State) (ring r n : Nat) : Except IngestEnd Stream :=
  if !s.ingestGranted r 0 n then .error (IngestEnd.bad Code.ingestContext)
  else
    match tfind s.ingest.streams n with
    | none => .error (IngestEnd.bad Code.ingestContext)
    | some x => if x.ring = ring then .ok x else .error (IngestEnd.bad Code.ingestRing)

/-- Bytes a reference area needs (R289). -/
def refNeed (codec w h depth : Nat) : Nat :=
  65536 * (if codec = 2 then 9 else 17) * ((131071 + w * h * 3 * (if depth = 8 then 1 else 2)) / 131072)

/-- The largest picture of a codec (Table 11.2). -/
def largestPicture (codec : Nat) : Nat × Nat := if codec = 0 then (4096, 2304) else if codec = 1 then (8192, 4320) else (8192, 4352)

def State.decodeOpen (s : State) (ring r : Nat) (d : Desc) : Except IngestEnd (State × IngestEnd) := do
  let n := d.fld 12 2
  let w := d.fld 20 2
  let h := d.fld 22 2
  let codec := d.fld 10 1
  if !s.ingestGranted r 0 n ∨ (tfind s.ingest.streams n).isSome then .error (IngestEnd.bad Code.ingestContext)
  else if w = 0 ∨ h = 0 ∨ (largestPicture codec).1 < w ∨ (largestPicture codec).2 < h ∨ (codec = 0 ∧ d.fld 11 1 = 10) ∨
      d.fld 32 8 < refNeed codec w h (d.fld 11 1) then .error (IngestEnd.bad Code.ingestOp)
  else
    match s.checkRange r (d.fld 24 8) (d.fld 32 8) true with
    | some c => .error (IngestEnd.access c)
    | none =>
      let st : Stream := ⟨ring, codec, w, h, d.fld 11 1, d.fld 24 8, d.fld 32 8, false, []⟩
      .ok ({ s with ingest := { s.ingest with streams := tset s.ingest.streams n st } }, IngestEnd.ok)

def execDecodeOpen (ring : Nat) (s : State) : Host.Outcome State Fault Refusal :=
  .next (s.ingestCmd ring 0x20 (fun d => d.fld 8 1 == 0) fun s r d => endOr s (s.decodeOpen ring r d))

/-- What the codec's standard makes of a unit after the units before it: a verdict (0 a picture, 1 unsupported, 2 a syntax or semantic error),
whether it is a random access point, the output order, width, height, depth, chroma (0 4:0:0, 1 4:2:0, 2 4:2:2, 3 4:4:4), matrix (0 none, 1 BT.601,
2 BT.709, 3 BT.2020), full range, the coded luma samples of every picture of the unit, and the samples: luma rows, then Cb rows, then Cr rows. -/
structure Picture where
  verdict : Nat
  rap : Bool
  order : Nat
  w : Nat
  h : Nat
  depth : Nat
  chroma : Nat
  matrix : Nat
  full : Bool
  coded : Nat
  samples : List Nat

/-- The external standard's answer for a codec, the grain operand, the units taken since the open, and a unit. -/
def pictureOf (codec grain : Nat) (units : List (List Nat)) (unit : List Nat) : Picture :=
  let l := Config.codec codec (grain :: (units ++ [unit]).flatMap fun u => u.length :: u)
  let g (i : Nat) : Nat := l.getD i 0
  { verdict := g 0 % 3, rap := g 1 != 0, order := g 2 % 2 ^ 32, w := g 3, h := g 4, depth := g 5, chroma := g 6 % 4, matrix := g 7 % 4,
    full := g 8 != 0, coded := g 9, samples := l.drop 10 }

/-- Whether a picture's bit depth and chroma format lie within Table 11.2; the standard's verdict says so of profile, level and tools. -/
def Picture.listed (p : Picture) (codec : Nat) : Bool :=
  if codec = 0 then p.depth == 8 && decide (p.chroma ≤ 1)
  else [8, 10].contains p.depth && (p.chroma == 1 || (codec == 2 && p.chroma == 0))

def Picture.luma (p : Picture) (x y : Nat) : Nat := p.samples.getD (y * p.w + x) 0
/-- Chroma sample: plane 0 Cb, 1 Cr. -/
def Picture.c (p : Picture) (k x y : Nat) : Nat :=
  let cw := ceilDiv p.w 2
  p.samples.getD (p.w * p.h + k * (cw * ceilDiv p.h 2) + y * cw + x) 0

/-- Working RGB of a decoded pixel (R291). -/
def Picture.rgb (p : Picture) (x y : Nat) : Nat → Nat :=
  let sc := 2 ^ (p.depth - 8)
  let lumaOf (v : Nat) : Nat := if p.full then frat v (2 ^ p.depth - 1) else fdiv (fsub (fofNat v) (fofNat (16 * sc))) (fofNat (219 * sc))
  let chromaOf (v : Nat) : Nat :=
    fdiv (fsub (fofNat v) (fofNat (128 * sc))) (fofNat (if p.full then 2 ^ p.depth - 1 else 224 * sc))
  let l := lumaOf (p.luma x y)
  if p.chroma = 0 then fun _ => fclamp 0 fone l
  else
    let (kr, kg, kb) := match p.matrix with
      | 1 => (2990, 5870, 1140)
      | 3 => (2627, 6780, 593)
      | _ => (2126, 7152, 722)
    let cb := chromaOf (p.c 0 (x / 2) (y / 2))
    let cr := chromaOf (p.c 1 (x / 2) (y / 2))
    let r := ffma (frat (2 * (10000 - kr)) 10000) cr l
    let b := ffma (frat (2 * (10000 - kb)) 10000) cb l
    let g := fdiv (ffma (fneg (frat kb 10000)) b (ffma (fneg (frat kr 10000)) r l)) (frat kg 10000)
    fun k => fclamp 0 fone (if k = 0 then r else if k = 1 then g else b)

/-- The rows of the native planes (R291). -/
def Picture.native (p : Picture) (pitch : Nat) : List (Nat × List Byte) × List (Nat × List Byte) :=
  let n := if p.depth = 8 then 1 else 2
  ((List.range p.h).map fun y => (y * pitch, (List.range p.w).flatMap fun x => leBytes n (p.luma x y)),
   if p.chroma = 0 then [] else (List.range (ceilDiv p.h 2)).map fun y =>
     (y * pitch, (List.range (ceilDiv p.w 2)).flatMap fun x => leBytes n (p.c 0 x y) ++ leBytes n (p.c 1 x y)))

/-- A stream's record changed. -/
def State.setStream (s : State) (n : Nat) (x : Stream) : State := { s with ingest := { s.ingest with streams := tset s.ingest.streams n x } }

/-- The outputs of a decoded picture, native or tensor; rows written before a refused one stay (R250). -/
def State.decodeOut (s : State) (r site : Nat) (d : Desc) (p : Picture) : State × IngestEnd :=
  let done (s : State) (e : Option Nat) : State × IngestEnd :=
    match e with
    | some e => (s, IngestEnd.access e)
    | none => (s, { IngestEnd.ok with result0 := p.order })
  if !bit (d.fld 9 1) 1 then
    let (l, c) := p.native (d.fld 56 4)
    let (s, e) := s.putRows r 0 (l.map (fun x => (d.fld 32 8 + x.1, x.2)) ++ c.map fun x => (d.fld 40 8 + x.1, x.2))
    done (if e.isNone then s.ingestCount site 2 (rowsBytes l + rowsBytes c) else s) e
  else
    endOr s (do
      let m ← s.augBlock r (d.fld 48 8) false
      let seed ← s.augSeed r (augDraws m)
      let (s, e) := s.tensorOut r m seed ⟨p.w, p.h, p.rgb⟩ 3 (d.fld 32 8) (d.fld 56 4) site
      pure (done s e))

/-- The reference pictures written to the context's area (R289): bytes whose layout the spec leaves to the part, a function of what the decoder took. -/
def State.storeRefs (s : State) (r : Nat) (x : Stream) : State × Option Nat :=
  let n := refNeed x.codec x.width x.height x.depth
  match s.checkRange r x.refArea n true with
  | some c => (s, some c)
  | none =>
    let l := Config.codec (16 + x.codec) (x.units.flatMap fun u => u.length :: u)
    ((s.chargeNormal r x.refArea n).writeVa r x.refArea ((List.range n).map fun i => BitVec.ofNat 8 (l.getD i 0)), none)

/-- One unit decoded (R288 to R291): what the standard's answer brings. -/
def State.decodeUnit (s : State) (r site n : Nat) (d : Desc) (x : Stream) (unit : List Nat) (p : Picture) : State × IngestEnd :=
  let x := { x with units := x.units ++ [unit] }
  let (s, e) := (s.setStream n x).storeRefs r x
  match e with
  | some c => (s, IngestEnd.access c)
  | none =>
    if p.verdict = 1 then (s, IngestEnd.data Code.ingestUnsupported)
    else if p.verdict = 2 then (s.setStream n { x with broken := true }, IngestEnd.data Code.ingestBitstream)
    else if !p.listed x.codec then (s, IngestEnd.data Code.ingestUnsupported)
    else if x.width < p.w ∨ x.height < p.h ∨ x.depth < p.depth then (s, IngestEnd.data Code.ingestGeometry)
    else (s.setStream n { x with broken := false }).decodeOut r site d p

/-- DECODE FRAME (R289): its unit read and decoded; on a broken context only a random access point is (R290). The unit takes its engine for the coded
luma samples of every picture in it (R291). -/
def State.decodeFrame (s : State) (ring r : Nat) (d : Desc) : State × IngestEnd :=
  let n := d.fld 12 2
  let site := ingestSite s.variant 0 n
  endOr s (do
    let x ← s.streamFor ring r n
    let unit := (← s.ingestRead r (d.fld 24 8) (d.fld 20 4)).map BitVec.toNat
    let s := (s.ingestCount site 1 (d.fld 20 4)).chargeNormal r (d.fld 24 8) (d.fld 20 4)
    let p := pictureOf x.codec (b2n (bit (d.fld 9 1) 0)) x.units unit
    if x.broken ∧ !p.rap then pure (s, IngestEnd.data Code.ingestNoref)
    else
      let (s, e) := s.decodeUnit r site n d x unit p
      pure (s, { e with ns := ceilDiv (p.coded * 1000000000) 497664000 }))

def execDecodeFrame (ring : Nat) (s : State) : Host.Outcome State Fault Refusal :=
  .next (s.ingestCmd ring 0x20 (fun d => d.fld 8 1 == 1) fun s r d => s.decodeFrame ring r d)

def execDecodeClose (ring : Nat) (s : State) : Host.Outcome State Fault Refusal :=
  .next (s.ingestCmd ring 0x20 (fun d => d.fld 8 1 == 2) fun s r d => endOr s (do
    let n := d.fld 12 2
    let _ ← s.streamFor ring r n
    pure ({ s with ingest := { s.ingest with streams := tdel s.ingest.streams n } }, IngestEnd.ok)))

/-! ## DEVELOP (R295 to R297) -/

/-- A calibration table read for its copy: an unmapped one fails the record, any other refusal the descriptor (R295, R302). -/
def State.calTable (s : State) (r : Nat) (t : Nat × Nat) : Except IngestEnd Memory :=
  match s.readAny r t.1 t.2 with
  | .ok bs => .ok (memWriteN [] 0 bs)
  | .error c => .error (if c = Code.memUnmapped then IngestEnd.bad Code.ingestCalib else IngestEnd.access c)

/-- DEVELOP LOAD: the record checked and copied with its tables (R295). -/
def State.developLoad (s : State) (ring r : Nat) (d : Desc) : Except IngestEnd (State × IngestEnd) := do
  let n := d.fld 12 2
  if !s.ingestGranted r 1 n then .error (IngestEnd.bad Code.ingestContext)
  else if (tfind s.ingest.devs n).any fun x => x.ring ≠ ring then .error (IngestEnd.bad Code.ingestRing)
  else
    let rec_ ← s.ingestRead r (d.fld 24 8) 256
    let c := memWriteN [] 0 rec_
    if !calOk c then .error (IngestEnd.bad Code.ingestCalib)
    else
      let tables ← (calTables c).mapM (s.calTable r)
      let table (k : Nat) : Memory := tables.getD k []
      let defects := (List.range (calNdef c)).map fun i => (memNat (table 0) (4 * i) 2, memNat (table 0) (4 * i + 2) 2)
      let shading := (List.range (5 * calGh c * calGw c)).map fun i => memNat (table 1) (2 * i) 2
      let tone := (List.range 1025).map fun i => memNat (table 2) (4 * i) 4
      let s := (calTables c).foldl (fun s t => s.chargeNormal r t.1 t.2) (s.chargeNormal r (d.fld 24 8) 256)
      .ok ({ s with ingest := { s.ingest with devs := tset s.ingest.devs n ⟨ring, rec_, defects, shading, tone⟩ } }, IngestEnd.ok)

def execDevelopLoad (ring : Nat) (s : State) : Host.Outcome State Fault Refusal :=
  .next (s.ingestCmd ring 0x21 (fun d => d.fld 8 1 == 0) fun s r d => endOr s (s.developLoad ring r d))

/-- A raw value of a captured row (R296). -/
def rawAt (packed : Bool) (b : Nat) (row : Memory) (x : Nat) : Nat :=
  if packed then (memNat row (x * b / 8) 4 >>> (x * b % 8)) % 2 ^ b else memNat row (2 * x) 2 % 2 ^ b

/-- The developer context that a frame of a ring names (R296, Table 11.7). -/
def State.devFor (s : State) (ring r n : Nat) : Except IngestEnd DevCtx :=
  if !s.ingestGranted r 1 n then .error (IngestEnd.bad Code.ingestContext)
  else
    match tfind s.ingest.devs n with
    | none => .error (IngestEnd.bad Code.ingestContext)
    | some x => if x.ring = ring then .ok x else .error (IngestEnd.bad Code.ingestRing)

/-- The augmentation block of a frame, where it has a tensor output. -/
def State.frameAug (s : State) (r t va : Nat) (ir : Bool) : Except IngestEnd Memory :=
  if t = 0 then .ok [] else s.augBlock r va ir

/-- The seed of a frame's augmentation, where it has a tensor output. -/
def State.frameSeed (s : State) (r t : Nat) (m : Memory) : Except IngestEnd Nat :=
  if t = 0 then .ok 0 else s.augSeed r (augDraws m)

/-- The outputs of a frame that passed its checks (R297): preview, coding planes and tensor, each where its address is not 0. -/
def State.frameOut (s : State) (r site : Nat) (d : Desc) (c : Capture) (outs m : Memory) (seed rowBytes : Nat) : State × IngestEnd :=
  let p := memNat outs 0 8
  let cy := memNat outs 16 8
  let cc := memNat outs 24 8
  let t := memNat outs 32 8
  let flags := d.fld 9 1
  let deep := bit flags 2
  let prev := if p = 0 then [] else c.preview (d.fld 10 1) (memNat outs 8 4)
  let planes := c.coding (d.fld 11 1) deep (memNat outs 12 4)
  let luma := if cy = 0 then [] else planes.1
  let chroma := if cc = 0 then [] else planes.2
  let s := (s.ingestCount site 1 (c.h * rowBytes)).ingestConv site (samplesOf prev ++ samplesOf luma ++ samplesOf chroma)
  let wide := if deep then 2 else 1
  let all := (sampleRows 1 prev).map (fun q => (p + q.1, q.2)) ++ (sampleRows wide luma).map (fun q => (cy + q.1, q.2)) ++
    (sampleRows wide chroma).map (fun q => (cc + q.1, q.2))
  match s.putRows r 0 all with
  | (s, some e) => (s, IngestEnd.access e)
  | (s, none) =>
    let u := if t = 0 then (s, none)
      else s.tensorOut r m seed (c.image (bit flags 1)) (if calHas c.cal 4 then 4 else 3) t (memNat outs 40 4) site
    match u.2 with
    | some e => (u.1, IngestEnd.access e)
    | none => (u.1.ingestCount site 2 (rowsBytes all), { IngestEnd.ok with ns := 400 + c.w * c.h / 2 })

/-- Whether the output record of a frame has every unused byte 0 and every address and pitch a multiple of 64 (R297). -/
def outsOk (outs : Memory) : Bool :=
  memNat outs 44 20 == 0 && [(0, 8), (8, 4), (12, 4), (16, 8), (24, 8), (32, 8), (40, 4)].all fun f => memNat outs f.1 f.2 % 64 == 0

/-- Whether a capture's geometry is one that R296 allows. -/
def captureOk (cal : Memory) (w h : Nat) : Bool :=
  w % calPw cal == 0 && h % calPh cal == 0 && decide (2 * calPw cal ≤ w) && decide (2 * calPh cal ≤ h) && decide (w ≤ 16384) && decide (h ≤ 16384)

/-- DEVELOP FRAME (R296, R297). -/
def State.developFrame (s : State) (ring r : Nat) (d : Desc) : State × IngestEnd :=
  let n := d.fld 12 2
  endOr s (do
    let x ← s.devFor ring r n
    let cal := memWriteN [] 0 x.calib
    let out ← s.ingestRead r (d.fld 40 8) 64
    let outs := memWriteN [] 0 out
    let w := d.fld 32 2
    let h := d.fld 34 2
    if !outsOk outs then .error (IngestEnd.bad Code.ingestOp)
    else
      let m ← s.frameAug r (memNat outs 32 8) (d.fld 48 8) (calHas cal 4)
      let seed ← s.frameSeed r (memNat outs 32 8) m
      if !captureOk cal w h then .error (IngestEnd.bad Code.ingestGeometry)
      else
        let packed := bit (d.fld 9 1) 0
        let rowBytes := if packed then ceilDiv (w * calBits cal) 8 else 2 * w
        let rows ← (List.range h).mapM fun y => s.ingestRead r (d.fld 24 8 + y * d.fld 20 4) rowBytes
        let mems := rows.map fun l => memWriteN [] 0 l
        let c : Capture := { cal := cal, defects := x.defects, shading := x.shading, tone := x.tone, w := w, h := h,
                             raw := fun i j => rawAt packed (calBits cal) (mems.getD j []) i }
        let s := (List.range h).foldl (fun s y => s.chargeNormal r (d.fld 24 8 + y * d.fld 20 4) rowBytes) s
        pure (s.frameOut r (ingestSite s.variant 1 n) d c outs m seed rowBytes))

def execDevelopFrame (ring : Nat) (s : State) : Host.Outcome State Fault Refusal :=
  .next (s.ingestCmd ring 0x21 (fun d => d.fld 8 1 == 1) fun s r d => s.developFrame ring r d)

/-! ## TOKENIZE (R300, R301) -/

def State.tokenizeLoad (s : State) (ring r : Nat) (d : Desc) : Except IngestEnd (State × IngestEnd) := do
  let n := d.fld 10 1
  if !s.ingestGranted r 2 n then .error (IngestEnd.bad Code.ingestContext)
  else if (tfind s.ingest.dicts n).any fun x => x.ring ≠ ring then .error (IngestEnd.bad Code.ingestRing)
  else
    let va := d.fld 24 8
    let head := memWriteN [] 0 (← s.ingestRead r va 64)
    if !dictHeadOk head then .error (IngestEnd.bad Code.ingestDict)
    else
      let len := 64 + 16 * memNat head 4 4 + memNat head 24 8
      let m := memWriteN [] 0 (← s.ingestRead r va len)
      if !dictOk m then .error (IngestEnd.bad Code.ingestDict)
      else
        let x : Dict := ⟨ring, memNat m 8 1, bit (memNat m 9 1) 0, memNat m 12 4, memNat m 16 4, memNat m 20 4, (dictEntries m).map fun e => (e.1, e.2.1)⟩
        .ok ({ s.chargeNormal r va len with ingest := { s.ingest with dicts := tset s.ingest.dicts n x } }, IngestEnd.ok)

def execTokenizeLoad (ring : Nat) (s : State) : Host.Outcome State Fault Refusal :=
  .next (s.ingestCmd ring 0x22 (fun d => d.fld 8 1 == 0) fun s r d => endOr s (s.tokenizeLoad ring r d))

def State.tokenizeRun (s : State) (ring r : Nat) (d : Desc) : State × IngestEnd :=
  endOr s (do
    let n := d.fld 10 1
    if !s.ingestGranted r 2 n then .error (IngestEnd.bad Code.ingestContext)
    else
      let x ← match tfind s.ingest.dicts n with
        | none => (.error (IngestEnd.bad Code.ingestContext) : Except IngestEnd Dict)
        | some x => if x.ring = ring then .ok x else .error (IngestEnd.bad Code.ingestRing)
      let maskP := d.fld 44 4
      let seed ← s.augSeed r (!isZero32 maskP)
      let bytes ← s.ingestRead r (d.fld 24 8) (d.fld 20 4)
      let (ids, used, bad, cut) := tokenize x bytes (d.fld 40 4)
      let id16 := bit (d.fld 9 1) 0
      let ids := ids.zipIdx.map fun p =>
        if p.1.2 && !isZero32 maskP && flt (augDraw seed 0x10 (d.fld 52 4) (d.fld 56 4) p.2) maskP then d.fld 48 4 else p.1.1
      let wide := if id16 then (ids.filter fun v => decide (65536 ≤ v)).length else 0
      let out := ids.flatMap fun v => if id16 then leBytes 2 (Nat.min v 65535) else leBytes 4 v
      let s := ((s.ingestCount 3 1 bytes.length).ingestCount 3 2 out.length).chargeNormal r (d.fld 24 8) bytes.length
      let w := (s.chargeNormal r (d.fld 32 8) out.length).writeAny r (d.fld 32 8) out
      match w.code with
      | some c => pure (w.s, IngestEnd.access c)
      | none =>
        pure (w.s, ⟨stOk, if cut then Code.ingestTruncated else 0, ids.length, used, Nat.min wide 15 * 16 + Nat.min bad 15,
          200 + bytes.length + ids.length⟩))

def execTokenizeRun (ring : Nat) (s : State) : Host.Outcome State Fault Refusal :=
  .next (s.ingestCmd ring 0x22 (fun d => d.fld 8 1 == 1) fun s r d => s.tokenizeRun ring r d)

/-! ## AUGMENT (R294) -/

def State.augment (s : State) (r : Nat) (d : Desc) : State × IngestEnd :=
  let w := d.fld 40 2
  let h := d.fld 42 2
  let f := d.fld 44 1
  endOr s (do
    let m ← s.augBlock r (d.fld 48 8) false
    let seed ← s.augSeed r (augDraws m)
    let rows ← (List.range h).mapM fun y => s.ingestRead r (d.fld 24 8 + y * d.fld 20 4) (rowBytesOf f (3 * w))
    let mems := rows.map fun l => memWriteN [] 0 l
    let px (x y k : Nat) : Nat :=
      let c := readElem (mems.getD y []) f 0 (3 * x + k)
      if f = 0xE then frat c 255 else rne32 (decodeElem f c)
    let s := (List.range h).foldl (fun s y => s.chargeNormal r (d.fld 24 8 + y * d.fld 20 4) (rowBytesOf f (3 * w)))
      (s.ingestCount 3 1 (rowsBytes (rows.map fun l => (0, l))))
    match s.tensorOut r m seed ⟨w, h, px⟩ 3 (d.fld 32 8) (d.fld 56 4) 3 with
    | (s, some e) => pure (s, IngestEnd.access e)
    | (s, none) => pure (s, { IngestEnd.ok with ns := 300 + ceilDiv (w * h) 4 + ceilDiv (augU m 2 2 * augU m 4 2) 4 }))

def execAugment (ring : Nat) (s : State) : Host.Outcome State Fault Refusal :=
  .next (s.ingestCmd ring 0x23 anyDesc fun s r d => s.augment r d)

end Sys2Proof.Machine
end

