-- ==== Sys2Proof/Machine/Modes.lean ====
section
/-! DEFINITION. MODE_STAGE in its five kinds and CHECKPOINT (R271, R315, R318, R352, R378 to R381, R480). -/

namespace Sys2Proof.Machine

/-! ## Values (R380, R480) -/

/-- The entries of a precision table (R380): tag, and, or. -/
def precisionEntries (bs : List Byte) (n : Nat) : List (Nat × Nat × Nat) :=
  let m := memWriteN [] 0 bs
  (List.range n).map fun i => (memNat m (4 * i) 2, memNat m (4 * i + 2) 1, memNat m (4 * i + 3) 1)

/-- Whether a precision table passes R380. -/
def precisionOk (l : List (Nat × Nat × Nat)) : Bool :=
  decide ((dedup (l.map (·.1))).length = l.length) &&
  l.all fun e =>
    let a := e.2.1
    let o := e.2.2
    bits a 5 4 == 3 && bits o 7 4 == 0 && bits o 1 0 != 3 && !(bits o 1 0 == 1 && bit a 1) && !(bits o 1 0 == 2 && bit a 0)

/-- A set point of a clock plan: 850 to 1,850 MHz in steps of 25, or 0. -/
def setPointOk (v : Nat) : Bool := v == 0 || (decide (850 ≤ v) && decide (v ≤ 1850) && v % 25 == 0)

/-- Whether the value of a kind 1, 2 or 5 change is in range (R480). -/
def State.modeValueOk (s : State) (kind mval maddr : Nat) : Bool :=
  match kind with
  | 1 => decide (1500 ≤ bits mval 15 0) && decide (bits mval 15 0 ≤ powerLimit s.variant) && mval / 2 ^ 22 == 0 && maddr == 0 &&
      (s.room (bits mval 21 16)).st == .committed
  | 2 => setPointOk (bits mval 11 0) && setPointOk (bits mval 23 12) && mval / 2 ^ 30 == 0 && maddr == 0 &&
      (s.room (bits mval 29 24)).st == .committed
  | _ => mval == 0 && maddr == 0

def Desc.epoch (d : Desc) : Nat := d.fld 12 4
def Desc.mval (d : Desc) : Nat := d.fld 16 8
def Desc.maddr (d : Desc) : Nat := d.fld 24 8

/-- The room whose barriers time a change: the pacing room of kinds 1 and 2, else the descriptor's own. -/
def pacingOf (kind mval room : Nat) : Nat := if kind = 1 then bits mval 21 16 else if kind = 2 then bits mval 29 24 else room

/-- The value of a change: the table it names for kind 4 (R380), or the code it is refused with. -/
def State.modeValue (s : State) (r kind : Nat) (d : Desc) : Except DescErr (List (Nat × Nat × Nat)) :=
  if kind ≠ 4 then (if s.modeValueOk kind d.mval d.maddr then .ok [] else .error (stBadDescriptor, Code.modeValue))
  else
    let n := bits d.mval 8 0
    if d.mval / 512 ≠ 0 ∨ 256 < n then .error (stBadDescriptor, Code.modeValue)
    else
      match s.readAny r d.maddr (4 * n) with
      | .error c => .error (stAccessFault, c)
      | .ok bs =>
        let l := precisionEntries bs n
        if precisionOk l then .ok l else .error (stBadDescriptor, Code.modeValue)

/-- R378 for kinds 1, 2, 4 and 5: the checks in order, then the epoch table. -/
def State.stageMode (s : State) (ring kind : Nat) (d : Desc) : State :=
  let own := (s.ring ring).room
  let r := pacingOf kind d.mval own
  let x := s.room r
  let staged := x.modes.filter (·.armed)
  if kind ≤ 2 ∧ own ≠ 0 then s.done ring d stBadDescriptor Code.pwrNotPf
  else if x.stepEnded d.epoch then s.done ring d stBadDescriptor Code.stepLate
  else if staged.any fun m => m.kind = kind && m.epoch = d.epoch then s.done ring d stBadDescriptor Code.modeDuplicate
  else if 8 ≤ staged.length then s.done ring d stResourceExhausted Code.modePending
  else
    match s.modeValue own kind d with
    | .error e => s.done ring d e.1 e.2
    | .ok l =>
      (s.markStarted ring d.seq).modRoom r fun x => { x with modes := x.modes ++
        [⟨kind, d.epoch, d.mval, l, 0, true, ring, d.seq, true, false⟩] }

/-- A MODE_STAGE of one kind. -/
def State.modeCmd (s : State) (ring kind : Nat) : State :=
  match s.canStartOp ring 0x07 fun d => d.fld 8 1 == kind with
  | none => s
  | some d => s.stageMode ring kind d

/-- POWER_CAP: MODE_STAGE of kind 1 (R480). -/
def execPowerCap (ring : Nat) (s : State) : Host.Outcome State Fault Refusal := .next (s.modeCmd ring 1)
/-- CLOCK_PLAN: MODE_STAGE of kind 2 (R480). -/
def execClockPlan (ring : Nat) (s : State) : Host.Outcome State Fault Refusal := .next (s.modeCmd ring 2)
/-- PRECISION_MODE: MODE_STAGE of kind 4 (R380). -/
def execPrecisionMode (ring : Nat) (s : State) : Host.Outcome State Fault Refusal := .next (s.modeCmd ring 4)
/-- END: MODE_STAGE of kind 5 (R315). -/
def execEndJob (ring : Nat) (s : State) : Host.Outcome State Fault Refusal := .next (s.modeCmd ring 5)

/-- R352: the checks of a MODE_STAGE of kind 3, in the order of Table 14.4. -/
def State.sharingCheck (s : State) (own : Nat) (d : Desc) : Option Nat :=
  let p := s.room (d.mval % 64)
  match s.schedCheck with
  | some c => some c
  | none =>
    if s.sched.pending then some Code.schedBusy
    else if own ≠ 0 then some Code.schedNotPf
    else if p.st ≠ .committed ∨ (!p.busy ∧ d.epoch ≠ 0xFFFFFFFF) then some Code.schedPacing
    else none

/-- SHARING_TABLE: MODE_STAGE of kind 3 (R352). -/
def execSharingTable (ring : Nat) (s : State) : Host.Outcome State Fault Refusal :=
  .next (
    match s.canStartOp ring 0x07 fun d => d.fld 8 1 == 3 with
    | none => s
    | some d =>
      if d.mval / 64 ≠ 0 ∨ d.maddr ≠ 0 then s.done ring d stBadDescriptor Code.descOperand
      else if (s.room (d.mval % 64)).stepEnded d.epoch then s.done ring d stBadDescriptor Code.stepLate
      else
        let c := s.sharingCheck (s.ring ring).room d
        let s := s.schedVerdict c
        match c with
        | some c => s.done ring d stBadDescriptor c
        | none =>
          let s := s.markStarted ring d.seq
          { s with sched := { s.sched with pending := true, pacing := some (ring, d.seq, d.mval % 64, d.epoch) } })

/-- CHECKPOINT: a snapshot plan armed or disarmed at a step epoch (R271, R318). -/
def execCheckpoint (ring : Nat) (s : State) : Host.Outcome State Fault Refusal :=
  .next (
    match s.canStartOp ring 0x1A anyDesc with
    | none => s
    | some d =>
      let r := (s.ring ring).room
      if (s.room r).stepEnded d.epoch then s.done ring d stBadDescriptor Code.stepLate
      else
        let plan : Option SnapPlan := if d.fld 8 1 = 1 then none else some ⟨d.fld 16 2, d.fld 18 2, d.fld 20 4, d.fld 24 8, d.fld 32 8⟩
        (s.markStarted ring d.seq).modRoom r fun x => { x with plans := x.plans ++ [⟨d.epoch, plan, ring, d.seq⟩] })

end Sys2Proof.Machine
end

