-- ==== Sys2Proof/Machine/Trust.lean ====
section
/-! DEFINITION. The strongroom toward the outside: attestation, tenant commands, consent, debug, fuse programming, the management requests and the link agreement (chapter 19, R447 to R475). -/

namespace Sys2Proof.Machine

/-! ## Reports (R462, Table 19.7) -/

/-- Bytes of a list of numbers. -/
def toBytes (l : List Nat) : List Byte := l.map (BitVec.ofNat 8)

/-- A list cut, or filled with zeros, to `n` bytes. -/
def fitBytes (n : Nat) (l : List Byte) : List Byte := (l ++ List.replicate n 0).take n

/-- The grant registers 0x020 to 0x05F as bytes. -/
def Grant.bytes (g : Grant) : List Byte :=
  leBytes 8 g.rings ++ leBytes 8 g.cores0 ++ leBytes 8 g.cores1 ++ leBytes 8 g.common ++ leBytes 4 g.upper ++ leBytes 4 g.cellar ++
    leBytes 4 g.branch ++ leBytes 4 g.streams ++ leBytes 4 g.devctx ++ leBytes 4 g.dict ++ leBytes 8 g.stackRes

/-- Whether a debug session touches a room. -/
def State.debugging (s : State) (r : Nat) : Bool := Option.any (fun d => d.1.contains r) s.sec.debug

/-- rflags of a report. -/
def State.reportFlags (s : State) (room : Option Nat) : Nat :=
  let un := 32 * b2n s.sec.installers.isEmpty
  match room with
  | none => un
  | some r =>
    let x := (s.room r).sec
    b2n x.conf + 2 * b2n x.tenant.isSome + 4 * b2n x.content.isSome + 8 * b2n x.consent.isSome + 16 * b2n (s.debugging r) + un

/-- The digest of a list that may be absent: zero then. -/
def digestOf : Option (List Nat) → List Byte
  | some l => sha384 (toBytes l)
  | none => List.replicate 48 0

/-- Bytes 0 to 607 of an attestation report. -/
def State.reportBody (s : State) (room : Option Nat) (nonce cnonce eph : List Nat) : List Byte :=
  let fw := s.stewards.fw
  let sec : RoomSec := match room with
    | some r => (s.room r).sec
    | none => RoomSec.reset
  let f (g : Firmware → Nat) : Nat := match fw with
    | some x => g x
    | none => 0
  leBytes 4 0x54544152 ++ leBytes 2 1 ++ leBytes 1 s.variant ++ leBytes 1 s.lifecycle ++ leBytes 8 (s.fuse 39) ++ leBytes 8 (s.fuse 40) ++
    leBytes 4 (f (·.ver)) ++ leBytes 4 (f (·.svn)) ++ leBytes 4 s.fusedSvn ++ leBytes 4 (f (·.iface)) ++ leBytes 2 (room.getD 0xFFFF) ++
    leBytes 1 (s.reportFlags room) ++ leBytes 1 (s.makerGen.getD 0) ++ leBytes 4 sec.faults ++ leBytes 8 s.now ++ leBytes 8 0 ++
    fitBytes 48 (toBytes nonce) ++ fitBytes 48 (toBytes cnonce) ++ s.fwDigest ++
    sha384 (((List.range 41).filter fun w => w < 33 || 38 < w).flatMap fun w => leBytes 8 (s.fuse w)) ++
    digestOf sec.tenant ++ digestOf (sec.consent.map (·.2.2.2)) ++
    (match room with
      | some r => sha384 ((s.room r).grant.bytes ++ leBytes 4 (b2n sec.conf))
      | none => List.replicate 48 0) ++
    fitBytes 96 (toBytes eph) ++ leBytes 8 s.sec.nextSeq ++ leBytes 8 0 ++ s.sec.head ++ List.replicate 48 0

/-- The signature of the alias key, or of the identity key before stage 9. -/
def State.signature (s : State) (body : List Byte) : List Byte :=
  fitBytes 96 (toBytes (Config.crypto (if s.sec.alias_ then "alias ECDSA P-384" else "identity ECDSA P-384") (body.map BitVec.toNat)))

/-- The certificate chain of the signer, at most 8 KiB. -/
def State.chain (s : State) : List Byte := (toBytes (Config.crypto (if s.sec.alias_ then "alias chain" else "identity chain") [])).take 8192

/-- A report of the device or of a room over a nonce, and its chain. -/
def State.report (s : State) (room : Option Nat) (nonce cnonce eph : List Nat) : List Byte :=
  let b := s.reportBody room nonce cnonce eph
  b ++ s.signature b

/-- The import public key of a room. -/
def State.importPub (s : State) (r : Nat) : List Nat :=
  match (s.room r).sec.importKey with
  | some k => Config.crypto "P-384 public key" [k]
  | none => []

/-- A report with a fresh cnonce. -/
def State.freshReport (s : State) (room : Option Nat) (nonce eph : List Nat) : List Byte × State :=
  let (c, s) := s.drawBytes 48
  (s.report room nonce c eph, s)

/-! ## Tenant commands (R461, R467, R470) -/

/-- A consent ends, and with it the session that rests on it (R469, R470). -/
def State.endConsent (s : State) (r : Nat) : State :=
  match (s.room r).sec.consent with
  | none => s
  | some c =>
    let s := s.modRoom r fun x => { x with sec := { x.sec with consent := none } }
    (s.audit 0x0B 0 0 r 0 (sha384 (toBytes c.2.2.2) ++ leBytes 4 c.2.1)).endDebug r

/-- Whether an IMPORT record is signed, and for this room of this device. -/
def State.importOk (s : State) (r : Nat) (m : Memory) (verified : Bool) : Bool :=
  verified && memNat m 1 7 == 0 && memNat m 144 8 == s.fuse 39 && memNat m 152 2 == r && memNat m 154 6 == 0

/-- Whether a consent token passes R470. -/
def State.consentOk (s : State) (r : Nat) (body : List Nat) (verified : Bool) : Bool :=
  let m := memWriteN [] 0 (toBytes body)
  let x := (s.room r).sec
  verified && memNat m 0 4 == 0x544E4F43 && memNat m 4 2 == 1 && memNat m 6 2 == r && memNat m 8 8 == s.fuse 39 &&
    decide (x.consentNext ≤ memNat m 16 4) && memNat m 20 4 / 32 == 0 && s.time.isSet && decide (s.now < memNat m 24 8) &&
    memReadN m 80 48 == digestOf x.tenant && memNat m 128 32 == 0 && !bit (s.fuse 1) 1

/-- A tenant command by its CMD: its code, its answer, and the state (R467). `body` is what it reads. -/
def State.tenantCmd (s : State) (r cmd : Nat) (body : List Nat) (verified : Bool) : Nat × List Byte × State :=
  let x := s.room r
  let m := memWriteN [] 0 (toBytes body)
  let no (c : Nat) : Nat × List Byte × State := (c, [], s)
  if x.st ≠ .committed ∨ !x.sec.conf then no Code.secNotConf
  else
    match cmd with
    | 1 =>
      let (b, s) := s.freshReport (some r) (body.take 48) (s.importPub r)
      (0, b, s)
    | 2 =>
      if x.sec.tenant.isSome then no Code.secTenantSet
      else
        let key := body.take 96
        let s := s.modRoom r fun x => { x with sec := { x.sec with
          tenant := some key
          importGen := 0
          consentNext := 0 } }
        (0, [], s.audit 0x0A 4 0 r 0 (sha384 (toBytes key)))
    | 3 =>
      let gen := memNat m 0 1
      if x.sec.tenant.isNone then no Code.secNoTenant
      else if !s.importOk r m verified then no Code.secImportSig
      else if gen ≤ x.sec.importGen then no Code.secDupKey
      else
        let key := leNat ((toBytes (Config.crypto "KN960 IMPORT" (x.sec.importKey.getD 0 :: body))).take 32)
        let s := s.modRoom r fun x => { x with sec := { x.sec with
          content := some key
          importGen := gen
          exports := 0 } }
        (0, [], s.audit 0x0A 4 0 r 0 (leBytes 1 gen))
    | 4 =>
      if x.sec.tenant.isNone then no Code.secNoTenant
      else if !s.consentOk r body verified then no Code.secConsent
      else
        let s := s.endConsent r
        let token := body.take 256
        let s := s.modRoom r fun x => { x with sec := { x.sec with
          consent := some (memNat m 16 4, memNat m 20 4, memNat m 24 8, token)
          consentNext := memNat m 16 4 + 1 } }
        (0, [], s.audit 0x0B 4 0 r 0 (sha384 (toBytes token) ++ leBytes 4 (memNat m 20 4)))
    | _ => (0, [], s.endConsent r)

/-- Bytes a tenant command reads. -/
def cmdBytes (cmd : Nat) : Nat := match cmd with
  | 1 => 48
  | 2 => 96
  | 3 => 256
  | 4 => 256
  | _ => 0

/-- A command of the request window, completed in SEC_RQ_STATUS (Table 19.11). -/
def State.requestWindow (s : State) (fn r cmd : Nat) (verified : Bool) : State :=
  let done (s : State) (code : Nat) : State := s.modRoom r fun x => { x with sec := { x.sec with
    rqCode := code
    rqDone := true } }
  if fn ≠ 0 then s.badAcc
  else if 64 ≤ r ∨ cmd = 0 ∨ 5 < cmd ∨ (s.room r).phase = 3 then s
  else
    let a := (s.room r).sec.rqAddr
    if !s.hostOk 0 a (cmdBytes cmd) false then done (s.countRefused 0) Code.hostRead
    else
      let body := (memReadN s.host a (cmdBytes cmd)).map BitVec.toNat
      let (code, out, s) := s.tenantCmd r cmd body verified
      if cmd ≠ 1 ∨ code ≠ 0 then done s code
      else
        let chain := s.chain
        if !s.hostOk 0 (a + 64) (768 + chain.length) true then done (s.countRefused 0) Code.hostWrite
        else
          done (((s.hostPut (a + 64) out).hostPut (a + 768) (leBytes 4 chain.length)).hostPut (a + 832) chain) 0

/-- TENANT_ATTEST: the room's report, written to host memory. -/
def execTenantAttest (fn room : Nat) (s : State) : Host.Outcome State Fault Refusal := .next (s.requestWindow fn room 1 false)
/-- TENANT: the tenant key. -/
def execTenant (fn room : Nat) (s : State) : Host.Outcome State Fault Refusal := .next (s.requestWindow fn room 2 false)
/-- IMPORT: a content key. -/
def execImportKey (fn room : Nat) (verified : Bool) (s : State) : Host.Outcome State Fault Refusal := .next (s.requestWindow fn room 3 verified)
/-- CONSENT: a consent token. -/
def execConsent (fn room : Nat) (verified : Bool) (s : State) : Host.Outcome State Fault Refusal := .next (s.requestWindow fn room 4 verified)
/-- REVOKE: the active consent ends. -/
def execRevoke (fn room : Nat) (s : State) : Host.Outcome State Fault Refusal := .next (s.requestWindow fn room 5 false)

/-- CONSENT_EXPIRY: device time has reached not_after. -/
def execConsentExpiry (room at_ : Nat) (s : State) : Host.Outcome State Fault Refusal :=
  let s := s.upto at_
  .next (if (s.room room).sec.consent.any fun c => decide (c.2.2.1 ≤ s.now) then s.endConsent room else s)

/-! ## Debug (R469) -/

/-- A session ends, whatever it touches. -/
def State.closeDebug (s : State) : State :=
  match s.sec.debug with
  | some (rs, scope) => { s with sec := { s.sec with debug := none } }.audit 0x0C 0 0 (rs.headD 0xFFFF) 0 (leBytes 4 scope ++ leBytes 2 (rs.headD 0xFFFF))
  | none => s

/-- DEBUG_WINDOW_END. -/
def execDebugWindowEnd (at_ : Nat) (s : State) : Host.Outcome State Fault Refusal :=
  let s := s.upto at_
  .next (if s.sec.debugUntil.any fun t => decide (t ≤ s.now) then { s with sec := { s.sec with debugUntil := none } }.closeDebug else s)

def State.windowOpen (s : State) : Bool := s.sec.debugUntil.any fun t => decide (s.now < t)

/-- Whether a session may touch a room: a consent active for a confidential one covers the scope and names the debugger. -/
def State.debugRoomOk (s : State) (pub : List Nat) (scope r : Nat) : Bool :=
  !(s.room r).sec.conf || (s.room r).sec.consent.any fun c =>
    (scope &&& c.2.1) == scope && toBytes ((c.2.2.2.drop 32).take 48) == sha384 (toBytes pub)

/-! ## Roles and responses (R448 to R452) -/

def State.respond (s : State) (code : Nat) (body : List Byte) : State := s.emit (.response code body)

/-- A request refused where the spec names no detail code: the code is a free value. -/
def State.refuseFree (s : State) : State :=
  let (c, s) := s.draw
  s.respond c []

/-- The role a client proves, and its key's place: 1 operator, 2 installer, 3 maker, 0 none. -/
def State.roleOf (s : State) (w : Who) : Nat × Nat :=
  match w with
  | .nobody => (0, 0)
  | .key pub =>
    match s.sec.installers.findIdx? fun k => k = pub with
    | some i => (2, i)
    | none =>
      match s.sec.operators.findIdx? fun k => k = pub with
      | some i => (1, i)
      | none => (0, 0)
  | .maker g _ => if s.makerGen = some g then (3, 0) else (0, 0)

/-- The digest of the client's key, as AUTH_FAIL carries it. -/
def whoDigest (w : Who) : List Byte :=
  match w with
  | .nobody => List.replicate 48 0
  | .key pub => sha384 (toBytes pub)
  | .maker _ pub => sha384 (toBytes pub)

/-- A request refused for its role: the record at most once a second. -/
def State.authFail (s : State) (w : Who) : State :=
  let s := s.respond Code.secAuth []
  if s.sec.authFailAt.any fun t => decide (s.now < t + 1000000000) then s
  else { s with sec := { s.sec with authFailAt := some s.now } }.audit 0x10 0 0 0xFFFF Code.secAuth (whoDigest w)

/-- A management request: served while standby power is good; its role checked, then the log's state (R448 to R452). -/
def State.request (s : State) (w : Who) (roles : List Nat) (reads : Bool) (f : State → Nat → Nat → State) : State :=
  if !s.module.standby then s
  else
    let (role, slot) := s.roleOf w
    if s.sec.installers.isEmpty || !roles.contains role then s.authFail w
    else if s.sec.logFull && !reads then s.respond Code.secLogFull []
    else f s role slot

/-- The key store written: its version raised, on flash and in the standby register (R460). -/
def State.storeWritten (s : State) : State :=
  { s with sec := { s.sec with
      version := s.sec.version + 1
      versionReg := s.sec.version + 1 } }

/-! ## Requests of everyone (R449, R450) -/

/-- IDENTITY: the certificate chain. -/
def execIdentity (_who : Who) (s : State) : Host.Outcome State Fault Refusal :=
  .next (if s.module.standby then s.respond 0 s.chain else s)

/-- ATTEST: the device's report over the requester's nonce, and the chain. -/
def execAttest (_who : Who) (nonce : List Nat) (s : State) : Host.Outcome State Fault Refusal :=
  .next (
    if !s.module.standby then s
    else
      let (b, s) := s.freshReport none nonce []
      s.respond 0 (b ++ s.chain))

/-- Whether a claim token passes R450. -/
def State.claimOk (s : State) (token pub : List Nat) (verified : Bool) : Bool :=
  let m := memWriteN [] 0 (toBytes token)
  s.sec.installers.isEmpty && verified && memNat m 0 8 == s.fuse 39 && memReadN m 8 48 == sha384 (toBytes pub) &&
    s.makerGen == some (memNat m 64 1) && (!s.time.isSet || decide (s.now ≤ memNat m 56 8))

/-- CLAIM: the first installer key (R450). -/
def execClaim (token pub : List Nat) (verified : Bool) (s : State) : Host.Outcome State Fault Refusal :=
  .next (
    if !s.module.standby then s
    else if s.sec.logFull then s.respond Code.secLogFull []
    else if !s.claimOk token pub verified then s.respond Code.secClaim []
    else
      let s := { s with sec := { s.sec with installers := [pub] } }.storeWritten
      ((s.audit 0x02 2 0 0xFFFF 0 (sha384 (toBytes pub))).respond 0 []).tryFetch)

/-- The 64 bytes of a health record numbered from the oldest (Table 20.14). -/
def HealthRec.bytes (h : HealthRec) (n : Nat) : List Byte :=
  leBytes 8 n ++ leBytes 8 h.time ++ leBytes 2 h.kind ++ leBytes 2 h.code ++ leBytes 2 h.unit ++ leBytes 2 h.room ++ leBytes 8 h.value ++
    List.replicate 32 0

/-- AUDIT_READ: the records from a sequence number on. -/
def execAuditRead (who : Who) (first : Nat) (s : State) : Host.Outcome State Fault Refusal :=
  .next (s.request who [1, 2, 3] true fun s _ _ =>
    s.respond 0 (((s.sec.log.filter fun a => decide (first ≤ a.seq)).reverse).flatMap Audit.bytes))

/-- HEALTH_READ: the health records from a number on. -/
def execHealthRead (who : Who) (first : Nat) (s : State) : Host.Outcome State Fault Refusal :=
  .next (s.request who [1, 2, 3] true fun s _ _ =>
    s.respond 0 ((s.health.records.reverse.zipIdx.filter fun p => decide (first ≤ p.2)).flatMap fun p => p.1.bytes p.2))

/-- AUDIT_ACK: the log is exported through a sequence number (R452). -/
def execAuditAck (who : Who) (seq : Nat) (s : State) : Host.Outcome State Fault Refusal :=
  .next (s.request who [2] true fun s role slot =>
    let s := { s with sec := { s.sec with acked := Nat.max s.sec.acked (Nat.min (seq + 1) s.sec.nextSeq) } }
    (s.audit 0x11 role slot 0xFFFF 0 (leBytes 8 seq)).respond 0 [])

/-- REBOOT: the caravan is left, every incarnation ends, and the device starts again from stage 6 (R416, R449). -/
def execReboot (who : Who) (s : State) : Host.Outcome State Fault Refusal :=
  .next (s.request who [1, 2] false fun s _ _ =>
    let up := s.module.pwrGood && !s.module.resetActive
    let s := ((s.respond 0 []).leave 0).wipe false 4
    if up then s.comeUp else s)

/-- ROOM_SEC: a tenant's command relayed over the management port. -/
def execRoomSec (who : Who) (room cmd : Nat) (body : List Nat) (verified : Bool) (s : State) : Host.Outcome State Fault Refusal :=
  .next (s.request who [1, 2] false fun s _ _ =>
    if 64 ≤ room ∨ cmd = 0 ∨ 5 < cmd then s.refuseFree
    else
      let (code, out, s) := s.tenantCmd room cmd body verified
      s.respond code (if cmd = 1 ∧ code = 0 then out ++ s.chain else out))

/-! ## Configuration by the installer (R410, R417, R426, R449) -/

/-- A CONFIG record of a new content. -/
def State.config (s : State) (role slot : Nat) (body : List Byte) : State := s.audit 0x05 role slot 0xFFFF 0 (sha384 body)

/-- SET_NET: the management address. -/
def execSetNet (who : Who) (body : List Nat) (s : State) : Host.Outcome State Fault Refusal :=
  .next (s.request who [2] false fun s role slot =>
    ({ s with sec := { s.sec with mgmtAddr := body } }.config role slot (toBytes body)).respond 0 [])

def serverBytes (x : Server) : List Byte := leBytes 1 (b2n x.https) ++ leBytes 16 x.addr ++ toBytes x.path

/-- SET_SERVERS: the firmware server list, up to four entries. -/
def execSetServers (who : Who) (servers : List Server) (s : State) : Host.Outcome State Fault Refusal :=
  .next (s.request who [2] false fun s role slot =>
    let l := servers.take 4
    ((({ s with sec := { s.sec with servers := l } }).config role slot (l.flatMap serverBytes)).respond 0 []).tryFetch)

/-- Whether a list repeats a member. -/
def repeats : List (List Nat) → Bool
  | [] => false
  | x :: r => r.contains x || repeats r

/-- SET_CA: the HTTPS CA certificates, up to four. -/
def execSetCa (who : Who) (certs : List (List Nat)) (s : State) : Host.Outcome State Fault Refusal :=
  .next (s.request who [2] false fun s role slot =>
    let l := certs.take 4
    if repeats l then s.respond Code.secDupKey []
    else ((({ s with sec := { s.sec with cas := l } }).storeWritten).config role slot (l.flatMap toBytes)).respond 0 [])

/-- SET_CARAVAN: a new caravan record; a member leaves first (R410). -/
def execSetCaravan (who : Who) (body : List Nat) (s : State) : Host.Outcome State Fault Refusal :=
  .next (s.request who [2] false fun s role slot =>
    let was := s.caravan.member
    let s := if was then ((s.leave 0).fenceOff Code.fenceEvicted).takeOver else s
    let s := { s with caravan := { s.caravan with record := leNat ((toBytes body).take 64) } }
    let s := (s.config role slot (toBytes body)).respond 0 []
    if was then s else s.beginAdmission)

/-- CLEAR_LAGGARD: a member's mark for replacement taken back (R426). -/
def execClearLaggard (who : Who) (mid : Nat) (s : State) : Host.Outcome State Fault Refusal :=
  .next (s.request who [2] false fun s role slot =>
    let s := { s with caravan := { s.caravan with
      marked := s.caravan.marked.filter (· ≠ mid)
      reported := s.caravan.reported.filter (· ≠ mid) } }
    (s.config role slot (leBytes 4 mid)).respond 0 [])

/-- REMOVE_MEMBER: the lease giver evicts a member (R417). -/
def execRemoveMember (who : Who) (mid : Nat) (s : State) : Host.Outcome State Fault Refusal :=
  .next (s.request who [2] false fun s role slot =>
    ((if s.gives mid then s.evict mid else s).config role slot (leBytes 4 mid)).respond 0 [])

/-! ## Keys of the roles (R449, R461) -/

/-- A KEY_CHANGE record: the key's digest, its list and its index. -/
def State.keyChange (s : State) (role slot : Nat) (key : List Nat) (list index : Nat) : State :=
  s.storeWritten.audit 0x04 role slot 0xFFFF 0 (sha384 (toBytes key) ++ leBytes 1 list ++ leBytes 1 index)

/-- ADD_OPERATOR: up to eight keys. -/
def execAddOperator (who : Who) (pub : List Nat) (s : State) : Host.Outcome State Fault Refusal :=
  .next (s.request who [2] false fun s role slot =>
    if s.sec.operators.contains pub then s.respond Code.secDupKey []
    else if 8 ≤ s.sec.operators.length then s.refuseFree
    else (({ s with sec := { s.sec with operators := s.sec.operators ++ [pub] } }).keyChange role slot pub 1 s.sec.operators.length).respond 0 [])

/-- DEL_OPERATOR. -/
def execDelOperator (who : Who) (index : Nat) (s : State) : Host.Outcome State Fault Refusal :=
  .next (s.request who [2] false fun s role slot =>
    match s.sec.operators[index]? with
    | none => s.refuseFree
    | some k => (({ s with sec := { s.sec with operators := s.sec.operators.eraseIdx index } }).keyChange role slot k 1 index).respond 0 [])

/-- ADD_INSTALLER: up to four keys. -/
def execAddInstaller (who : Who) (pub : List Nat) (s : State) : Host.Outcome State Fault Refusal :=
  .next (s.request who [2] false fun s role slot =>
    if s.sec.installers.contains pub then s.respond Code.secDupKey []
    else if 4 ≤ s.sec.installers.length then s.refuseFree
    else (({ s with sec := { s.sec with installers := s.sec.installers ++ [pub] } }).keyChange role slot pub 2 s.sec.installers.length).respond 0 [])

/-- DEL_INSTALLER: never the last key. -/
def execDelInstaller (who : Who) (index : Nat) (s : State) : Host.Outcome State Fault Refusal :=
  .next (s.request who [2] false fun s role slot =>
    match s.sec.installers[index]? with
    | none => s.refuseFree
    | some k =>
      if s.sec.installers.length ≤ 1 then s.respond Code.secLastKey []
      else (({ s with sec := { s.sec with installers := s.sec.installers.eraseIdx index } }).keyChange role slot k 2 index).respond 0 [])

/-- RELEASE_CLAIM: the key store is erased; an unclaimed device fetches nothing. -/
def execReleaseClaim (who : Who) (s : State) : Host.Outcome State Fault Refusal :=
  .next (s.request who [2] false fun s role slot =>
    let s := ({ s with sec := { s.sec with
      installers := []
      operators := []
      cas := [] } }.storeWritten).audit 0x03 role slot 0xFFFF 0 []
    let s := if s.sec.stage = 7 then { s with
        sec := { s.sec with stage := 6 }
        stewards := { s.stewards with
          fetching := false
          waitSince := none } } else s
    s.respond 0 [])

/-! ## Fuse programming (R458) -/

/-- One word programmed: bits set in its cells, resolved, latched into its shadow. Answers whether it resolved to the value requested. -/
def State.programWord (s : State) (reads : List FuseReads) (w v : Nat) : Bool × State :=
  let cell := tget 0 s.sec.fuses w ||| v
  let s := { s with sec := { s.sec with fuses := tset s.sec.fuses w cell } }
  match reads.find? fun r => r.word = w with
  | none => (true, { s with sec := { s.sec with shadow := tset s.sec.shadow w cell } })
  | some r =>
    let s := if r.agree then s else s.alarmWord r
    match r.resolve with
    | some u => (u == cell, { s with sec := { s.sec with shadow := tset s.sec.shadow w u } })
    | none => (false, s)

/-- Words programmed one after another, and the FUSE_PROGRAM record. -/
def State.programFuses (s : State) (role slot : Nat) (words : List (Nat × Nat)) (reads : List FuseReads) : State :=
  let (ok, s) := words.foldl (fun a p => let b := a.2.programWord reads p.1 p.2; (a.1 && b.1, b.2)) (true, s)
  let first := (words.head?.map (·.1)).getD 0
  let s := s.audit 0x08 role slot 0xFFFF (if ok then 0 else Code.secFuseProgram) (leBytes 2 first ++ leBytes 2 words.length ++ leBytes 8 (s.fuse first))
  s.respond (if ok then 0 else Code.secFuseProgram) []

/-- A programming request: refused while an incarnation runs. -/
def State.fuseRequest (s : State) (f : State → State) : State := if s.anyJob then s.respond Code.secBusy [] else f s

/-- SVN_COMMIT: the fused security version raised to that of the running image. -/
def execSvnCommit (who : Who) (reads : List FuseReads) (s : State) : Host.Outcome State Fault Refusal :=
  .next (s.request who [2] false fun s role slot => s.fuseRequest fun s =>
    match s.stewards.fw with
    | none => s.refuseFree
    | some f =>
      if 384 < f.svn then s.refuseFree
      else s.programFuses role slot ((List.range 6).map fun i => (2 + i, 2 ^ Nat.min 64 (f.svn - 64 * i) - 1)) reads)

/-- MAKER_REVOKE: by a certificate of a later live generation; never the last one. -/
def execMakerRevoke (who : Who) (generation : Nat) (reads : List FuseReads) (s : State) : Host.Outcome State Fault Refusal :=
  .next (
    match who with
    | .maker g _ =>
      if !s.module.standby then s
      else if s.sec.installers.isEmpty || !s.makerLive g || decide (4 ≤ g) || decide (g ≤ generation) then s.authFail who
      else if s.sec.logFull then s.respond Code.secLogFull []
      else s.fuseRequest fun s =>
        if !([0, 1, 2, 3].any fun k => k != generation && s.makerLive k) then s.respond Code.secLastKey []
        else s.programFuses 3 0 [(8, 2 ^ generation)] reads
    | _ => if s.module.standby then s.authFail who else s)

/-- REPAIR_FUSE: repair words, and DEBUG_OFF, inside an open window with no room committed. -/
def execRepairFuse (who : Who) (words : List (Nat × Nat)) (reads : List FuseReads) (s : State) : Host.Outcome State Fault Refusal :=
  .next (s.request who [3] false fun s role slot => s.fuseRequest fun s =>
    if !s.windowOpen then s.respond Code.secDebugDenied []
    else if s.rooms.any fun p => p.2.holds then s.respond Code.secBusy []
    else if words.isEmpty || words.any fun p => !(fuseRepair p.1 || p.1 == 1) then s.refuseFree
    else s.programFuses role slot words reads)

/-- RETIRE: lifecycle RETIRED. -/
def execRetire (who : Who) (reads : List FuseReads) (s : State) : Host.Outcome State Fault Refusal :=
  .next (s.request who [2, 3] false fun s role slot => s.fuseRequest fun s =>
    (s.audit 0x03 role slot 0xFFFF 0 []).programFuses role slot [(0, 7)] reads)

/-! ## Debug requests (R449, R469) -/

/-- DEBUG_ALLOW: a window of up to 24 h; the duration in seconds. -/
def execDebugAllow (who : Who) (duration : Nat) (s : State) : Host.Outcome State Fault Refusal :=
  .next (s.request who [2] false fun s _ _ =>
    { s with sec := { s.sec with debugUntil := some (s.now + Nat.min duration 86400 * 1000000000) } }.respond 0 [])

/-- DEBUG: a read-only session inside an open window. -/
def execDebug (who : Who) (rooms : List Nat) (scope : Nat) (s : State) : Host.Outcome State Fault Refusal :=
  .next (s.request who [3] false fun s role slot =>
    let pub := match who with
      | .maker _ pub => pub
      | _ => []
    if !s.windowOpen || bit (s.fuse 1) 0 || !(rooms.all fun r => s.debugRoomOk pub scope r) then s.respond Code.secDebugDenied []
    else
      let s := s.closeDebug
      let s := { s with sec := { s.sec with debug := some (rooms, scope) } }
      (s.audit 0x0C role slot (rooms.headD 0xFFFF) 0 (leBytes 4 scope ++ leBytes 2 (rooms.headD 0xFFFF))).respond 0 [])

/-! ## The link agreement (R463) -/

/-- Link key generation 0 of two members: the nonces and both public keys, the starter's first. -/
def linkKeyOf (a b : Nat) (nonceA nonceB ephA ephB : List Nat) : List Nat :=
  (Config.crypto "KN960 LINK" (Nat.min a b :: Nat.max a b :: nonceA ++ nonceB ++ ephA ++ ephB) ++ List.replicate 32 0).take 32

/-- What each side requires of the other's report, over the nonce it is to carry. -/
def State.peerOk (s : State) (m : Memory) (nonce : List Nat) (verified : Bool) : Bool :=
  verified && memReadN m 64 48 == fitBytes 48 (toBytes nonce) && memNat m 7 1 == 2 && memReadN m 160 48 == s.fwDigest &&
    decide (s.fusedSvn ≤ memNat m 32 4)

/-- LINK_NONCE at a lease giver: answered with its own report. -/
def execLinkNonce (mid : Nat) (nonce : List Nat) (s : State) : Host.Outcome State Fault Refusal :=
  .next (
    if !s.gives mid ∨ !s.stewards.ready then s
    else
      let (nb, s) := s.drawBytes 48
      let (e, s) := s.drawBytes 96
      let gram := (s.report none nonce nb e ++ s.chain).map BitVec.toNat
      let t : LinkTry := ⟨false, nonce, nb, 2, 1, s.now, e, gram⟩
      { s with caravan := { s.caravan with tries := tset s.caravan.tries mid t } }.emit (.link mid 2 gram))

/-- A link key of generation 0 installed with a member. -/
def State.installLink (s : State) (mid : Nat) (key : List Nat) : State :=
  { s with caravan := { s.caravan with links := tset s.caravan.links mid ⟨[0], s.now, [key]⟩ } }

/-- LINK_REPORT at the device that asks: the giver's report checked and answered, the key derived, ADMIT sent. -/
def State.starterReport (s : State) (mid : Nat) (t : LinkTry) (m : Memory) (verified : Bool) : State :=
  if !s.peerOk m t.nonceA verified then
    { s with caravan := { s.caravan with
      tries := tdel s.caravan.tries mid
      retryAt := some s.now } }
  else
    let nb := (memReadN m 112 48).map BitVec.toNat
    let ephB := (memReadN m 400 96).map BitVec.toNat
    let (e, s) := s.drawBytes 96
    let gram := (s.report none nb t.nonceA e ++ s.chain).map BitVec.toNat
    let u : LinkTry := { t with nonceB := nb, stage := 3, eph := e, gram := gram, last := s.now }
    let s := { s with caravan := { s.caravan with tries := tset s.caravan.tries mid u } }
    ((s.installLink mid (linkKeyOf s.caravan.mid mid t.nonceA nb e ephB)).emit (.link mid 3 gram)).sendAdmit

/-- LINK_REPORT at the giver: the device's report checked, the key derived; a failure refuses its ADMIT (ADMIT_ATTEST). -/
def State.giverReport (s : State) (mid : Nat) (t : LinkTry) (m : Memory) (verified : Bool) : State :=
  if !s.peerOk m t.nonceB verified || memReadN m 112 48 != fitBytes 48 (toBytes t.nonceA) then
    { s with caravan := { s.caravan with tries := tset s.caravan.tries mid { t with stage := 9 } } }
  else
    let ephA := (memReadN m 400 96).map BitVec.toNat
    let s := s.installLink mid (linkKeyOf s.caravan.mid mid t.nonceA t.nonceB ephA t.eph)
    { s with caravan := { s.caravan with tries := tdel s.caravan.tries mid } }

/-- LINK_REPORT. -/
def execLinkReport (mid : Nat) (report : List Nat) (verified : Bool) (s : State) : Host.Outcome State Fault Refusal :=
  .next (
    let m := memWriteN [] 0 (toBytes report)
    match tfind s.caravan.tries mid with
    | none => s
    | some t =>
      if t.starter && t.stage == 1 then s.starterReport mid t m verified
      else if t.starter && t.stage == 3 then s.emit (.link mid 3 t.gram)
      else if !t.starter && t.stage == 2 then s.giverReport mid t m verified
      else s)

/-- LINK_RESEND: 1 s without an answer; after five resends the agreement is abandoned. -/
def execLinkResend (mid at_ : Nat) (s : State) : Host.Outcome State Fault Refusal :=
  let s := s.upto at_
  .next (
    match tfind s.caravan.tries mid with
    | none => s
    | some t =>
      if 3 ≤ t.stage ∨ s.now < t.last + 1000000000 then s
      else if t.sends ≤ 5 then
        let u : LinkTry := { t with sends := t.sends + 1, last := s.now }
        { s with caravan := { s.caravan with tries := tset s.caravan.tries mid u } }.emit (.link mid t.stage t.gram)
      else
        { s with caravan := { s.caravan with
          tries := tdel s.caravan.tries mid
          retryAt := if t.starter then some s.now else s.caravan.retryAt } })

end Sys2Proof.Machine
end

