-- ==== Sys2Proof/Machine/Flags.lean ====
section
/-! DEFINITION. Every status word, flag and count that the set-up registers and the board management bus show, computed from the state (Tables 12.2, 13.2, 13.4, 14.1, 14.9, 15.6, 16.10, 18.6, 19.11, 20.12, 20.13, 21.8, 22.3 to 22.7). -/

namespace Sys2Proof.Machine

/-- A word from its fields: lowest bit, width, value. -/
def flds (l : List (Nat × Nat × Nat)) : Nat := sumNat (l.map fun f => f.2.2 % 2 ^ f.2.1 * 2 ^ f.1)

/-! ## IDENT (Table 22.3) -/

def identFamily : Nat := 0x4B4E
/-- IDENT_REV: the revisions of fuse word 40. -/
def State.identRev (s : State) : Nat := bits (s.fuse 40) 47 8 * 256
/-- IDENT_STRAPS, as latched (R510). -/
def State.identStraps (s : State) : Nat := if s.module.latched then s.module.straps % 4096 else 0
/-- IDENT_FUNC of a function. -/
def identFunc (fn : Nat) : Nat := flds [(6, 1, b2n (fn != 0)), (0, 6, fn)]

/-! ## HOST and RINGTAB (Tables 22.4 and 22.5) -/

/-- HOST_LINK; Flit mode is in use at 64.0 GT/s (DESIGN CHOICE for the lower speeds). -/
def State.hostLink (s : State) : Nat :=
  if s.module.linkUp then flds [(16, 8, s.module.width), (8, 8, s.module.speed), (1, 1, b2n (s.module.speed == 6)), (0, 1, 1)] else 0

/-- RINGTAB_STATUS. -/
def State.ringtabStatus (s : State) : Nat :=
  flds [(8, 8, s.restartReason), (1, 1, b2n s.restartRejected), (0, 1, b2n s.restart.isSome)]

/-! ## ROOM (Table 13.4) -/

def Room.status (x : Room) : Nat :=
  flds [(16, 16, x.grantErr), (6, 1, b2n x.quarantine), (5, 1, b2n x.drainForced), (4, 1, b2n x.turn.isSome), (3, 1, b2n (x.st == .committed)),
    (1, 1, b2n x.postErr), (0, 1, b2n x.startErr)]

/-! ## SCHED and the ledger (Tables 14.1 and 14.9) -/

def Sched.status (x : Sched) : Nat := flds [(16, 16, x.err), (1, 1, b2n x.passed), (0, 1, b2n x.pending)]

/-- Twelve counters of the stall causes, in order. -/
def stallBytes (t : Tbl Nat) : List Byte := (List.range 12).flatMap fun i => leBytes 8 (tget 0 t i)

/-- The ledger record of a room; class and share are the active ones while it is open. -/
def State.ledgerBytes (s : State) (r : Nat) : List Byte :=
  let x := s.room r
  let l := x.ledger
  let n (i : Nat) : Nat := tget 0 l.counts i
  if !x.holds && l.closed == 0 then List.replicate 512 0
  else
    leBytes 2 1 ++ leBytes 1 r ++ leBytes 1 l.cls ++ leBytes 2 l.share ++ leBytes 1 l.waiver ++ leBytes 1 l.waiverAny ++ leBytes 8 l.opened ++
      leBytes 8 l.closed ++ [0, 1, 2, 3].flatMap (fun i => leBytes 4 (n i)) ++ (span 4 11).flatMap (fun i => leBytes 8 (n i)) ++
      leBytes 8 l.snapStep ++ fitBytes 48 l.snapDigest ++ stallBytes l.stallNs ++ stallBytes l.stallEv ++ List.replicate 136 0

/-! ## TIME (Table 18.6) -/

def TbSt.code : TbSt → Nat
  | .freerun => 0
  | .acquiring => 1
  | .locked => 2
  | .holdover => 3

def Timebase.status (t : Timebase) : Nat :=
  flds [(9, 3, bitsWhere 3 fun i => t.oot.contains i), (6, 3, bitsWhere 3 fun i => t.present.contains i), (4, 2, t.sel), (3, 1, b2n t.isSet), (0, 3, t.st.code)]

def Timebase.alarmWord (t : Timebase) : Nat := flds [(16, 16, t.ptpDrop), (0, 5, t.alarms)]

/-! ## POWER (Table 20.12) -/

def State.powerStatus (s : State) : Nat :=
  let p := s.power
  flds [(24, 8, p.lastReset), (4, 2, bitsWhere 2 fun d => p.trip.contains d), (2, 2, bitsWhere 2 fun d => p.throttle.contains d),
    (1, 1, b2n s.limited), (0, 1, b2n p.sag)]

/-- POWER_STACK of a site. -/
def State.powerStack (s : State) (k : Nat) : Nat :=
  if s.sites.contains k then flds [(8, 2, if (s.stack k).stopped then 0 else (s.stack k).band), (0, 8, (s.stack k).temp)] else 0

/-! ## HEALTH (Table 20.13) -/

def Health.status (h : Health) : Nat :=
  flds [(16, 16, if h.oos || !h.waiting.isEmpty then h.oosCode else 0), (2, 1, b2n h.alarm), (1, 1, b2n (!h.waiting.isEmpty)), (0, 1, b2n h.oos)]

def Fitness.code : Fitness → Nat
  | .fit => 0
  | .failed => 1
  | .replaced => 2

/-- HEALTH_CORE of physical core `p` of a die. -/
def State.healthCore (s : State) (die p : Nat) : Nat :=
  let l := s.health.coreMap.find? fun e => e.1 / 64 = die && e.2 = p
  flds [(8, 2, (tget Fitness.fit s.health.marks (68 * die + p)).code), (7, 1, b2n l.isSome), (0, 7, (l.map fun e => e.1 % 64).getD 0)]

/-- HEALTH_STACK of a site: spare data lanes left of its 32, and fit bench units of its 34. -/
def State.healthStack (s : State) (k : Nat) : Nat :=
  let x := s.stack k
  flds [(8, 6, 32 - sumNat ((List.range 32).map fun c => tget 0 x.lanesUsed (2 * c))), (0, 6, 34 - x.badUnits.length)]

/-- HEALTH_FAULT of a room. -/
def Room.faultWord (x : Room) : Nat :=
  match x.fault with
  | some f => flds [(0, 64, f.time), (64, 16, f.code), (80, 16, f.unit), (96, 32, f.incarn)]
  | none => 0

/-! ## NET (Table 16.10) -/

def State.netStatus (s : State) : Nat := bitsWhere 24 fun q => s.netPorts.contains q && (s.port q).link

/-! ## INGEST (Table 22.6) -/

/-- INGEST_SITES of a variant. -/
def ingestSites (variant : Nat) : Nat := flds ((List.range 4).map fun k => (4 * k, 4, ioKind variant k))

/-- Whether a descriptor names a context or slot of a kind (R287). -/
def Desc.namesIngest (d : Desc) (kind n : Nat) : Bool :=
  match kind with
  | 0 => d.opcode == 0x20 && d.fld 12 2 == n
  | 1 => d.opcode == 0x21 && d.fld 12 2 == n
  | _ => d.opcode == 0x22 && d.fld 10 1 == n

/-- INGEST_INFO of a selected number (R538). -/
def State.ingestInfo (s : State) (v : Nat) : Nat :=
  let kind := bits v 17 16
  let n := bits v 15 0
  let (a, b, c) := ingestMax s.variant
  if (match kind with | 0 => a | 1 => b | 2 => c | _ => 0) ≤ n then 0xF0000
  else
    let owner := (s.rooms.find? fun p => p.2.holds && s.ingestGranted p.1 kind n).map (·.1)
    let held : Option (Nat × Nat × Nat) := match kind with
      | 0 => (tfind s.ingest.streams n).map fun x => (x.ring, if x.broken then 2 else 1, x.codec)
      | 1 => (tfind s.ingest.devs n).map fun x => (x.ring, 1, 0xF)
      | _ => (tfind s.ingest.dicts n).map fun x => (x.ring, 1, 0xF)
    let (ring, st, codec) := held.getD (0, 0, 0xF)
    let queued := match owner with
      | some r => sumNat ((s.roomRings r).map fun q => (q.2.descs.filter fun d => d.namesIngest kind n).length)
      | none => 0
    flds [(34, 14, ring), (32, 2, st), (26, 1, b2n owner.isSome), (20, 6, owner.getD 0), (16, 4, codec), (0, 16, queued)]

/-! ## MEM (Table 22.7) -/

/-- MEM_STACK_FREE of a site. -/
def State.stackFree (s : State) (k : Nat) : Nat :=
  if s.sites.contains k && !(s.stack k).stopped then s.usableFrames k - (dedup (s.takenUpper k)).length else 0

/-- MEM_CELLAR_FREE of a half. -/
def State.cellarFree (s : State) (h : Nat) : Nat := framesPerHalf - 32 - (s.takenCellar h).length

/-- MEM_SNAP of a room. -/
def Room.snapWord (x : Room) : Nat :=
  let p := x.mem.snap
  flds [(3, 1, b2n p.copying.isSome), (2, 1, p.newest.getD 0), (0, 2, if p.plan.isSome then 2 else if x.plans.isEmpty then 0 else 1)]

/-! ## SEC (Table 19.11) -/

def State.secStatus (s : State) : Nat :=
  flds [(16, 16, if 5 < s.sec.stage then 0 else s.sec.bootCode), (12, 4, s.sec.stage), (10, 2, s.lifecycle), (4, 1, b2n s.sec.logFull),
    (3, 1, b2n s.sec.logAlarm), (2, 1, b2n s.sec.fuseAlarm), (1, 1, b2n (!s.sec.installers.isEmpty)), (0, 1, b2n (s.sec.stage == 10))]

def State.secMaker (s : State) : Nat := flds [(4, 4, bits (s.fuse 8) 3 0), (0, 4, s.makerGen.getD 0)]

/-- SEC_RQ_STATUS of a room: a command runs to its end within the write that starts it. -/
def RoomSec.rqStatus (x : RoomSec) : Nat := flds [(16, 16, x.rqCode), (1, 1, b2n x.rqDone)]

def RoomSec.flags (x : RoomSec) : Nat :=
  flds [(4, 1, b2n x.consent.isSome), (3, 1, b2n x.content.isSome), (2, 1, b2n x.tenant.isSome), (0, 1, b2n x.conf)]

/-! ## STEWARD (Table 15.6) -/

def State.stewardStatus (s : State) : Nat :=
  flds [(16, 16, s.stewards.bootCode), (4, 4, bitsWhere 4 fun p => (s.pair p).st == 1), (1, 1, b2n s.stewards.fetching), (0, 1, b2n s.stewards.ready)]

def Pair.word (x : Pair) : Nat := flds [(48, 16, Nat.min 0xFFFF x.restarts), (16, 32, Nat.min 0xFFFFFFFF x.lastUs), (0, 4, x.st)]

/-- A field of the running image. -/
def Stewards.image (x : Stewards) (f : Firmware → Nat) : Nat :=
  match x.fw with
  | some i => f i
  | none => 0

/-! ## The status outputs and the board management bus (R511, R512, Table 21.8) -/

/-- Flags of BMB_STATUS. -/
def State.bmbFlags (s : State) : Nat :=
  flds [(0, 1, b2n s.module.pwrGood), (1, 1, b2n s.module.resetActive), (2, 1, b2n s.stewards.ready), (3, 1, b2n s.health.oos),
    (4, 1, b2n (!s.health.waiting.isEmpty)), (5, 1, b2n (!s.power.trip.isEmpty)), (6, 1, b2n s.power.sag), (7, 1, b2n s.limited)]

/-- Conditions that assert ALERT#: flags 3, 5 and 6 of BMB_STATUS, and a held power detail code as bit 7. -/
def State.alertConditions (s : State) : Nat :=
  flds [(3, 1, b2n s.health.oos), (5, 1, b2n (!s.power.trip.isEmpty)), (6, 1, b2n s.power.sag), (7, 1, b2n (s.module.railCode != 0))]

/-- ALERT# asserted: a condition that was not there when it was last released. -/
def State.alert (s : State) : Bool :=
  s.alertConditions != 0 && !(s.module.alertReleased && (s.alertConditions ||| s.module.alertSeen) == s.module.alertSeen)

/-- THERM_TRIP# asserted. -/
def State.thermTrip (s : State) : Bool := !s.power.trip.isEmpty || s.sites.any fun k => (s.stack k).stopped

/-- A signed 8-bit temperature of a main island. -/
def State.bmbTemp (s : State) (t : Nat) : Nat := if s.module.pwrGood then Nat.min t 127 else 0x80

/-- The hottest stack sensor. -/
def State.hottestStack (s : State) : Nat := maxNat (s.sites.map fun k => (s.stack k).temp)

/-! ## The timebase outputs (R444) -/

/-- Whether the 1PPS and 10 MHz outputs are driven: enabled, and not squelched in FREERUN or ACQUIRING. -/
def State.timeOutputs (s : State) : Bool :=
  bit s.time.ctrl 1 && !(bit s.time.ctrl 2 && (s.time.st = .freerun || s.time.st = .acquiring))

/-- The level of the 1PPS output: high for 100 µs from TIME_PPS_DELAY before each whole second of device time, so that the edge leaves the cable at the second (DEDUCED, entry 22). -/
def State.ppsOut (s : State) : Bool := s.timeOutputs && decide ((s.time.now + s.time.ppsDelay) % 1000000000 < 100000)

/-- The level of the 10 MHz output: a rising edge every 100 ns from each 1PPS edge, high for half of them. -/
def State.mhzOut (s : State) : Bool := s.timeOutputs && decide ((s.time.now + s.time.ppsDelay) % 100 < 50)

end Sys2Proof.Machine
end

