-- ==== Sys2Proof/Machine/Registers.lean ====
section
/-! DEFINITION. BAR0: the map of the set-up registers, their access codes, snapshots of reads and held lower bytes of writes (chapter 22, R527 to R540, and the maps of chapters 13 to 20). -/

namespace Sys2Proof.Machine

/-- A register, or an array of them: its offset in the physical function's BAR0, the distance between members, how many, its bytes, its value by
function and member, and what a write of the whole of it does; none for a register that no write changes. -/
structure RegDef where
  off : Nat
  stride : Nat
  count : Nat
  bytes : Nat
  val : State → Nat → Nat → Nat
  put : Option (State → Nat → Nat → Nat → State)

/-- The member of an array that an offset lies in. -/
def RegDef.hit (d : RegDef) (o : Nat) : Option Nat :=
  if d.off ≤ o ∧ (o - d.off) / d.stride < d.count ∧ (o - d.off) % d.stride < d.bytes then some ((o - d.off) / d.stride) else none

def RegDef.base (d : RegDef) (i : Nat) : Nat := d.off + d.stride * i

/-! ## Kinds of registers -/

/-- One read-only register. -/
def ro (off bytes : Nat) (v : State → Nat) : RegDef := ⟨off, bytes, 1, bytes, fun s _ _ => v s, none⟩
/-- An array of read-only registers. -/
def roArr (off stride count bytes : Nat) (v : State → Nat → Nat) : RegDef := ⟨off, stride, count, bytes, fun s _ i => v s i, none⟩
/-- One register that a write changes. -/
def rw (off bytes : Nat) (v : State → Nat) (p : State → Nat → State) : RegDef :=
  ⟨off, bytes, 1, bytes, fun s _ _ => v s, some fun s _ _ w => p s w⟩
/-- An array of registers that writes change. -/
def rwArr (off stride count bytes : Nat) (v : State → Nat → Nat) (p : State → Nat → Nat → State) : RegDef :=
  ⟨off, stride, count, bytes, fun s _ i => v s i, some fun s _ i w => p s i w⟩

def zeroReg (_ : State) : Nat := 0
def zeroArr (_ : State) (_ : Nat) : Nat := 0

/-- Whether a room's own registers take writes: it exists, and its turnover has not begun (R533, Table 13.1). -/
def State.roomOpen (s : State) (r : Nat) : Bool := (s.room r).st != .absent && (s.room r).st != .turnover

/-- A room's own register written. -/
def State.putRoom (s : State) (r : Nat) (f : Room → Room) : State := if s.roomOpen r then s.modRoom r f else s

/-! ## IDENT, HOST and RINGTAB (Tables 22.3 to 22.5) -/

def identRegs : List RegDef :=
  [ro 0x000000 4 fun _ => identFamily, ro 0x000004 4 State.variant, ro 0x000008 8 State.identRev, ro 0x000010 4 State.identStraps,
   ⟨0x000014, 4, 1, 4, fun _ fn _ => identFunc fn, none⟩]

def hostRegs : List RegDef :=
  [ro 0x001000 4 State.hostLink, ro 0x001008 8 (·.badAccess), roArr 0x001100 8 64 8 fun s r => (s.room r).dbIgnored,
   roArr 0x001300 8 64 8 fun s r => (s.room r).refused]

def ringtabRegs : List RegDef :=
  [rw 0x010000 8 zeroReg State.ringtabRestart,
   rw 0x010008 4 State.ringtabStatus fun s v => if bit v 1 then { s with restartRejected := false } else s,
   rw 0x010010 4 (·.ringSel) State.ringtabSel, ro 0x010018 8 (·.ringInfo0), ro 0x010020 8 (·.ringInfo1)]

/-! ## ROOM (Tables 13.2 to 13.4) -/

/-- A write of ROOM_CTRL (Table 13.3): bits [3:1] from a virtual function, and more than one of COMMIT, TURNOVER and START, have no effect. -/
def State.roomCtrl (s : State) (fn r v : Nat) : State :=
  if 1 < popCount 3 v then s
  else if bit v 0 then s.startWrite fn r
  else if fn ≠ 0 then s
  else if bit v 1 then s.commitWrite 0 r
  else if bit v 2 then s.startTurnover r (bit v 3) false true
  else s

/-- A grant register written: by the physical function, while the room is VACANT (R330). -/
def grantReg (off bytes : Nat) (get : Grant → Nat) (set_ : Grant → Nat → Grant) : RegDef :=
  ⟨0x020000 + off, 0x400, 64, bytes, fun s _ r => get (s.room r).grant,
   some fun s fn r v => if fn = 0 ∧ (s.room r).st = .vacant then s.modRoom r fun x => { x with grant := set_ x.grant v } else s⟩

def grantRegs : List RegDef :=
  [grantReg 0x020 4 (·.rings) fun g v => { g with rings := v &&& 0x07FF3FFF },
   grantReg 0x028 8 (·.cores0) fun g v => { g with cores0 := v },
   grantReg 0x030 8 (·.cores1) fun g v => { g with cores1 := v },
   grantReg 0x038 4 (·.common) fun g v => { g with common := v },
   grantReg 0x040 4 (·.upper) fun g v => { g with upper := v },
   grantReg 0x044 4 (·.cellar) fun g v => { g with cellar := v },
   grantReg 0x048 4 (·.branch) fun g v => { g with branch := v },
   grantReg 0x04C 4 (·.streams) fun g v => { g with streams := v },
   grantReg 0x050 4 (·.devctx) fun g v => { g with devctx := v },
   grantReg 0x054 4 (·.dict) fun g v => { g with dict := v },
   grantReg 0x058 4 (·.stackRes) fun g v => { g with stackRes := v }]

def roomRegs : List RegDef :=
  [⟨0x020000, 0x400, 64, 4, fun _ _ _ => 0, some State.roomCtrl⟩,
   rwArr 0x020004 0x400 64 4 (fun s r => (s.room r).status) (fun s r v => s.putRoom r fun x => { x with
     postErr := x.postErr && !bit v 1
     startErr := x.startErr && !bit v 0 }),
   rwArr 0x020008 0x400 64 4 (fun s r => (s.room r).iface) (fun s r v => s.putRoom r fun x => { x with iface := v }),
   roArr 0x02000C 0x400 64 4 fun s _ => s.fwIface,
   rwArr 0x020010 0x400 64 8 (fun s r => (s.room r).rtab) (fun s r v => s.putRoom r fun x => { x with rtab := v })] ++
  grantRegs ++ [roArr 0x020060 0x400 64 8 fun s r => (s.room r).turnNs]

/-! ## SCHED (Table 14.1) -/

/-- The staged schedule written: ignored while a schedule is pending (R345). -/
def State.putStaged (s : State) (f : Schedule → Schedule) : State :=
  if s.sched.pending then s else { s with sched := { s.sched with staged := f s.sched.staged } }

/-- Bits of SCHED_ROOM_STG that take writes. -/
def schedRoomMask : Nat := 0xF * 2 ^ 40 + 0x1F * 2 ^ 35 + 0x1F * 2 ^ 30 + 2 ^ 16 + 0x3FF

def State.schedCtrl (s : State) (v : Nat) : State := if bit v 0 then s.schedActivate else if bit v 1 then s.schedVerdict s.schedCheck else s

def schedRegs : List RegDef :=
  [rw 0x030000 4 zeroReg State.schedCtrl, ro 0x030004 4 (·.sched.status),
   rw 0x030008 4 (·.sched.staged.us) (fun s v => s.putStaged fun x => { x with us := v % 2 ^ 14 }),
   rw 0x03000C 4 (·.sched.staged.nent) (fun s v => s.putStaged fun x => { x with nent := v % 2 ^ 10 }),
   ro 0x030010 4 (·.sched.active.us), ro 0x030014 4 (·.sched.active.nent), ro 0x030018 8 (·.sched.late), ro 0x030020 8 (·.sched.switches),
   rwArr 0x030100 8 64 8 (fun s r => s.sched.staged.room r)
     (fun s r v => if (s.room r).st = .turnover then s else s.putStaged fun x => { x with rooms := tset x.rooms r (v &&& schedRoomMask) }),
   roArr 0x030300 8 64 8 fun s r => s.sched.active.room r,
   rwArr 0x031000 16 512 16 (fun s i => tget 0 s.sched.staged.entries i) (fun s i v => s.putStaged fun x => { x with entries := tset x.entries i v }),
   roArr 0x033000 16 512 16 fun s i => tget 0 s.sched.active.entries i,
   roArr 0x038000 0x200 64 512 fun s r => leNat (s.ledgerBytes r)]

/-! ## TIME (Table 18.6) -/

def State.putTime (s : State) (f : Timebase → Timebase) : State := { s with time := f s.time }

def timeRegs : List RegDef :=
  [ro 0x040000 4 fun s => s.time.now % 2 ^ 32, ro 0x040004 4 (·.time.latched), ro 0x040008 4 (·.time.status),
   rw 0x04000C 4 (·.time.ctrl) (fun s v => (s.putTime fun t => { t with ctrl := v % 8 }).reselect),
   rw 0x040010 8 zeroReg State.todSet, ro 0x040018 8 fun s => ofSigned 64 s.time.offset,
   rw 0x040020 4 (·.time.ppsDelay) (fun s v => s.putTime fun t => { t with ppsDelay := v % 2 ^ 16 }),
   rw 0x040024 4 (·.time.ptp) (fun s v => s.putTime fun t => { t with ptp := v % 2 ^ 8 }),
   rw 0x040030 16 (·.time.gm) (fun s v => s.putTime fun t => { t with gm := v }),
   rw 0x040040 4 (·.time.alarmWord) fun s v => s.putTime fun t => { t with alarms := gateBits 5 t.alarms 0 (t.alarms &&& (v ^^^ 31)) }]

/-! ## POWER and HEALTH (Tables 20.12 and 20.13) -/

def State.putPower (s : State) (f : Power → Power) : State := { s with power := f s.power }

def powerRegs : List RegDef :=
  [ro 0x050000 4 State.powerStatus, ro 0x050004 4 (·.power.vin % 65536), ro 0x050008 4 (·.power.iin % 65536), ro 0x05000C 4 (·.power.pin % 65536),
   rw 0x050010 4 (·.power.events) (fun s v => s.putPower fun p => { p with events := gateBits 5 p.events 0 (v ^^^ 31) }),
   rw 0x050014 4 (·.power.irq) (fun s v => s.putPower fun p => { p with irq := v % 64 }),
   ro 0x050018 4 (·.power.cap), ro 0x05001C 4 (fun s => flds [(12, 12, s.power.plan1), (0, 12, s.power.plan0)]),
   ro 0x050020 4 (fun s => flds [(8, 8, s.power.tj1), (0, 8, s.power.tj0)]),
   ro 0x050024 4 (fun s => flds [(8, 8, s.power.coolOut), (0, 8, s.power.coolIn)]),
   roArr 0x050040 4 16 4 State.powerStack,
   rwArr 0x050080 16 2 16 (fun s d => if d = 0 then s.power.clkCores0 else s.power.clkCores1) (fun s d v => s.gateWrite false d v),
   rwArr 0x0500A0 16 2 16 (fun s d => if d = 0 then s.power.pwrCores0 else s.power.pwrCores1) (fun s d v => s.gateWrite true d v),
   rw 0x0500C0 4 (·.power.clkUnits) (fun s v => s.gateWrite false 2 v),
   rw 0x0500C4 4 (·.power.pwrUnits) (fun s v => s.gateWrite true 2 v),
   ro 0x0500C8 8 (·.power.gateIgnored), roArr 0x050100 4 136 4 fun s i => s.setPoint (i / 68) (i % 68)]

def healthRegs : List RegDef :=
  [rw 0x060000 4 (·.health.status) (fun s v => { s with health := { s.health with alarm := s.health.alarm && !bit v 2 } }),
   ro 0x060008 4 (fun s => flds [(4, 4, s.health.bridge1), (0, 4, s.health.bridge0)]), ro 0x06000C 4 (·.health.cellar),
   roArr 0x060100 4 136 4 (fun s i => s.healthCore (i / 68) (i % 68)), roArr 0x060400 4 16 4 State.healthStack,
   roArr 0x060800 0x20 64 32 (fun s r => (s.room r).faultWord),
   roArr 0x061000 8 5312 8 fun s i => tget 0 s.health.counts i]

/-! ## NET (Table 16.10) -/

/-- NET_CTRL.COMMIT: the port configuration and the UDP port lock (R408). -/
def State.netLock (s : State) : State := { s with net := { s.net with locked := true } }

/-- A field of a port: where the site holds a network die, and while unlocked. -/
def portReg (off bytes : Nat) (get : Port → Nat) (set_ : Port → Nat → Port) : RegDef :=
  rwArr (0x070100 + off) 0x40 24 bytes (fun s p => if s.netPorts.contains p then get (s.port p) else 0) (fun s p v =>
    if s.net.locked || !s.netPorts.contains p then s
    else { s with net := { s.net with ports := tset s.net.ports p (set_ (s.port p) v) } })

/-- A room's collective registers: written while no incarnation of it runs. -/
def State.putProg (s : State) (r : Nat) (f : Room → Room) : State := if (s.room r).busy then s else s.putRoom r f

def netRegs : List RegDef :=
  [rw 0x070000 4 zeroReg (fun s v => if bit v 0 then s.netLock else s), ro 0x070004 4 State.netStatus,
   rw 0x070008 4 (·.net.udp) (fun s v => if s.net.locked then s else { s with net := { s.net with udp := v % 2 ^ 16 } }),
   portReg 0x00 8 (·.mac) (fun x v => { x with mac := v % 2 ^ 48 }),
   portReg 0x08 4 (·.cfg) (fun x v => { x with cfg := v &&& 0xC003FFFF }),
   portReg 0x0C 4 (·.ip4) (fun x v => { x with ip4 := v }),
   portReg 0x10 16 (·.ip6) (fun x v => { x with ip6 := v }),
   portReg 0x20 16 (·.gw6) (fun x v => { x with gw6 := v }),
   portReg 0x30 4 (·.gw4) (fun x v => { x with gw4 := v }),
   portReg 0x34 4 (·.pfx) (fun x v => { x with pfx := v % 2 ^ 16 }),
   rwArr 0x071000 0x20 64 8 (fun s r => (s.room r).progAddr) (fun s r v => s.putProg r fun x => { x with progAddr := v }),
   rwArr 0x071008 0x20 64 4 (fun s r => (s.room r).progN) (fun s r v => s.putProg r fun x => { x with progN := v % 2 ^ 9 }),
   rwArr 0x071010 0x20 64 8 (fun s r => (s.room r).postAddr) (fun s r v => s.putProg r fun x => { x with postAddr := v }),
   roArr 0x071800 8 11 8 fun s i => tget 0 s.net.counts i]

/-! ## INGEST and MEM (Tables 22.6 and 22.7) -/

/-- A write of INGEST_SEL, with the snapshot of INGEST_INFO (R538). -/
def State.ingestSel (s : State) (v : Nat) : State :=
  { s with ingest := { s.ingest with
    sel := v % 2 ^ 18
    info := s.ingestInfo v } }

def ingestRegs : List RegDef :=
  [ro 0x080000 4 (fun s => ingestSites s.variant), rw 0x080008 4 (·.ingest.sel) State.ingestSel, ro 0x080010 8 (·.ingest.info),
   roArr 0x080100 8 32 8 fun s i => if i % 8 < 5 ∧ ioKind s.variant (i / 8) ≠ 0 then tget 0 s.ingest.counts i else 0]

/-- A write of MEM_PROMOTE_HEAT: 0 is ignored, any other takes effect at the next epoch (R540). -/
def State.promoteHeat (s : State) (r v : Nat) : State :=
  if v % 2 ^ 16 = 0 then s
  else s.putRoom r fun x => { x with mem := { x.mem with promoteNext := v % 2 ^ 16 } }

def memRegs : List RegDef :=
  [ro 0x090000 4 (fun s => framesPerStack * s.sites.length), ro 0x090004 4 (fun _ => 2 * framesPerHalf), ro 0x090008 4 (fun _ => flds [(16, 16, 32), (0, 16, 64)]),
   ro 0x09000C 4 (fun s => sumNat (s.sites.map fun k => (s.stack k).withdrawn.length)), ro 0x090010 8 (·.migrations), ro 0x090018 8 (·.swaps),
   roArr 0x090040 4 16 4 State.stackFree, roArr 0x090080 4 2 4 State.cellarFree,
   rwArr 0x098000 0x200 64 4 (fun s r => (s.room r).mem.promoteNext) State.promoteHeat,
   roArr 0x098008 0x200 64 4 (fun s r => (s.room r).mem.upperUsed), roArr 0x09800C 0x200 64 4 (fun s r => (s.room r).mem.cellarUsed),
   roArr 0x098010 0x200 64 4 (fun s r => (s.room r).snapWord), roArr 0x098014 0x200 64 4 (fun s r => (s.room r).mem.charge3)] ++
  (List.range 12).map (fun i => roArr (0x098040 + 8 * i) 0x200 64 8 fun s r => tget 0 (s.room r).stallNs i) ++
  (List.range 12).map fun i => roArr (0x0980A0 + 8 * i) 0x200 64 8 fun s r => tget 0 (s.room r).stallEv i

/-! ## SEC and STEWARD (Tables 19.11 and 15.6) -/

/-- A CMD written: whether a signed record verifies is the strongroom's finding, a free value here. -/
def State.rqCtrl (s : State) (r v : Nat) : State :=
  let cmd := v % 256
  if cmd = 3 ∨ cmd = 4 then
    let (f, s) := s.draw
    s.requestWindow 0 r cmd (f % 2 = 1)
  else s.requestWindow 0 r cmd false

def secRegs : List RegDef :=
  [ro 0x0A0000 4 State.secStatus, ro 0x0A0004 4 State.secMaker, ro 0x0A0008 4 State.fusedSvn, ro 0x0A0010 8 (·.fuse 39), ro 0x0A0018 8 (·.sec.nextSeq),
   ro 0x0A0020 48 (fun s => leNat s.sec.head), ro 0x0A0050 8 (·.sec.logLost), ro 0x0A0058 8 (·.sec.lockDenied),
   ro 0x0A0060 8 (·.lockCores 0), ro 0x0A0068 8 (·.lockCores 1), ro 0x0A0070 4 State.lockUnits,
   rwArr 0x0A1000 0x40 64 8 (fun s r => (s.room r).sec.rqAddr) (fun s r v => s.putRoom r fun x => { x with sec := { x.sec with rqAddr := v } }),
   rwArr 0x0A1008 0x40 64 4 zeroArr (fun s r v => if s.roomOpen r then s.rqCtrl r v else s),
   rwArr 0x0A100C 0x40 64 4 (fun s r => (s.room r).sec.rqStatus)
     (fun s r v => s.putRoom r fun x => { x with sec := { x.sec with rqDone := x.sec.rqDone && !bit v 1 } }),
   rwArr 0x0A1010 0x40 64 4 (fun s r => (s.room r).sec.flags)
     (fun s r v => if (s.room r).st = .vacant then s.modRoom r fun x => { x with sec := { x.sec with conf := bit v 0 } } else s),
   roArr 0x0A1014 0x40 64 4 fun s r => (s.room r).sec.faults]

def stewardRegs : List RegDef :=
  [ro 0x0F0000 4 State.stewardStatus, ro 0x0F0004 4 (fun s => s.stewards.image (·.ver)), ro 0x0F0008 4 (fun s => s.stewards.image (·.svn)),
   ro 0x0F0010 48 (fun s => leNat s.fwDigest), roArr 0x0F0040 0x10 4 8 (fun s p => (s.pair p).word), ro 0x0F0080 8 (·.health.seq)]

/-! ## MSI-X structures (R528, PCI Express Base 6.0) -/

def State.msixOf (s : State) (fn i : Nat) : MsixVec := tget MsixVec.reset s.msix (32 * fn + i)

def State.putMsix (s : State) (fn i : Nat) (f : MsixVec → MsixVec) : State := { s with msix := tset s.msix (32 * fn + i) (f (s.msixOf fn i)) }

/-- One word of a table entry. -/
def msixReg (off : Nat) (get : MsixVec → Nat) (set_ : State → Nat → Nat → Nat → State) : RegDef :=
  ⟨0x1000000 + off, 16, 32, 4, fun s fn i => get (s.msixOf fn i), some set_⟩

def msixRegs : List RegDef :=
  [msixReg 0 (fun e => e.addr % 2 ^ 32) (fun s fn i v => s.putMsix fn i fun e => { e with addr := e.addr / 2 ^ 32 * 2 ^ 32 + v }),
   msixReg 4 (fun e => e.addr / 2 ^ 32) (fun s fn i v => s.putMsix fn i fun e => { e with addr := v * 2 ^ 32 + e.addr % 2 ^ 32 }),
   msixReg 8 (·.data) (fun s fn i v => s.putMsix fn i fun e => { e with data := v }),
   msixReg 12 (fun e => b2n e.masked) (fun s fn i v => if bit v 0 then s.putMsix fn i fun e => { e with masked := true } else s.unmask fn i),
   ⟨0x1001000, 8, 1, 8, fun s fn _ => bitsWhere 32 fun i => (s.msixOf fn i).pending, none⟩]

/-! ## The space (Table 22.1) -/

/-- Every register of BAR0. -/
def regMap : List RegDef :=
  identRegs ++ hostRegs ++ ringtabRegs ++ roomRegs ++ schedRegs ++ timeRegs ++ powerRegs ++ healthRegs ++ netRegs ++ ingestRegs ++ memRegs ++
    secRegs ++ stewardRegs ++ msixRegs

/-- Where a function's offset lies in the physical function's map; none where the function does not see it (R528). -/
def seenAt (fn o : Nat) : Option Nat :=
  if 0x2000000 ≤ o then none
  else if fn = 0 ∨ o < 0x1000 ∨ (0x1000000 ≤ o ∧ o < 0x1000200) ∨ (0x1001000 ≤ o ∧ o < 0x1001008) then some o
  else if 0x020000 ≤ o ∧ o < 0x020400 then some (o + 0x400 * fn)
  else none

/-- The register at a place of the map, and its member. -/
def regAt (o : Nat) : Option (RegDef × Nat) := firstSome (fun d => (d.hit o).map fun i => (d, i)) regMap

/-- Whether a function of the device answers (R328). -/
def State.answers (s : State) (fn : Nat) : Bool := fn == 0 || (s.vfEnable && decide (fn ≤ s.numVfs))

/-- Whether an access is one that the device serves (R528, R530). -/
def accessOk (fn o n : Nat) : Bool := (n == 4 || n == 8) && o % n == 0 && (seenAt fn o).isSome && (seenAt fn (o + n - 4)).isSome

/-! ## Reads (R530, R531) -/

/-- Word `j` of a wide value. -/
def wordOf (v j : Nat) : Nat := v / 2 ^ (32 * j) % 2 ^ 32

/-- Four bytes read at a place of the map. -/
def State.readWord (s : State) (fn o : Nat) : Nat × State :=
  match regAt o with
  | none => (0, s)
  | some (d, i) =>
    let b := d.base i
    if o = b then
      let s := if o = 0x040000 then s.latchNow else s
      let v := d.val s fn i
      (v % 2 ^ 32, { s with snaps := tset s.snaps fn (b, d.bytes, v) })
    else
      let v := match tfind s.snaps fn with
        | some (c, _, w) => if c = b then w else d.val s fn i
        | none => d.val s fn i
      (wordOf v ((o - b) / 4), s)

/-- A read of BAR0 by a function, and the data it returns. -/
def State.readReg (s : State) (fn o n : Nat) : State :=
  if !accessOk fn o n then s.badAcc.emit (.readData fn o n 0)
  else
    let a := (seenAt fn o).getD 0
    let (lo, s) := s.readWord fn a
    if n = 4 then s.emit (.readData fn o n lo)
    else
      let (hi, s) := s.readWord fn (a + 4)
      s.emit (.readData fn o n (lo + hi * 2 ^ 32))

/-- WIDE_REGISTER_READ, and every other read of BAR0. -/
def execWideRegisterRead (fn offset size : Nat) (s : State) : Host.Outcome State Fault Refusal :=
  .next (if s.answers fn then s.readReg fn offset size else s)

/-- TIME_NOW_LO read (R434). -/
def execTimeNowLo (fn : Nat) (s : State) : Host.Outcome State Fault Refusal :=
  .next (if s.answers fn then s.readReg fn 0x040000 4 else s)

/-! ## Writes (R530, R531) -/

/-- Key of a held word of a function. -/
def heldKey (fn o : Nat) : Nat := fn * 2 ^ 25 + o

/-- The whole value of a wide register: the words held, those not written as they read, and its highest word. -/
def State.wholeOf (s : State) (fn b bytes cur v : Nat) : Nat :=
  sumNat ((List.range (bytes / 4)).map fun j =>
    (if j + 1 = bytes / 4 then v else tget (wordOf cur j) s.held (heldKey fn (b + 4 * j))) * 2 ^ (32 * j))

/-- Four bytes written at a place of the map: lower bytes of a wide register are held until its highest four come. -/
def State.writeWord (s : State) (fn o v : Nat) : State :=
  match regAt o with
  | none => s
  | some (d, i) =>
    match d.put with
    | none => s
    | some f =>
      let b := d.base i
      if o + 4 = b + d.bytes then
        let w := s.wholeOf fn b d.bytes (d.val s fn i) v
        f { s with held := tfilter s.held fun k _ => !(decide (heldKey fn b ≤ k) && decide (k < heldKey fn b + d.bytes)) } fn i w
      else { s with held := tset s.held (heldKey fn o) v }

/-- A write of BAR0 by a function: an 8-byte one acts on its words in ascending order. -/
def State.writeReg (s : State) (fn o n v : Nat) : State :=
  if !accessOk fn o n then s.badAcc
  else
    let a := (seenAt fn o).getD 0
    let s := s.writeWord fn a (v % 2 ^ 32)
    if n = 4 then s else s.writeWord fn (a + 4) (v / 2 ^ 32 % 2 ^ 32)

/-- REGISTER_WRITE (R530). -/
def execRegisterWrite (fn offset size value : Nat) (host : List HostAct) (s : State) : Host.Outcome State Fault Refusal :=
  let s := s.hostActs host
  .next (if s.answers fn then s.writeReg fn offset size value else s)

/-! ## Registers with a row of their own -/

/-- NET_COMMIT (R408). -/
def execNetCommit (fn : Nat) (s : State) : Host.Outcome State Fault Refusal := .next (if fn = 0 then s.netLock else s.badAcc)

/-- INGEST_SEL (R538). -/
def execIngestSel (fn value : Nat) (s : State) : Host.Outcome State Fault Refusal := .next (if fn = 0 then s.ingestSel value else s.badAcc)

/-- MEM_PROMOTE_HEAT (R540). -/
def execMemPromoteHeat (fn room value : Nat) (s : State) : Host.Outcome State Fault Refusal :=
  .next (if fn ≠ 0 then s.badAcc else if room < 64 then s.promoteHeat room value else s)

/-! ## The board management bus (R511, R512, Table 21.8) -/

/-- A Block Read answered: by the standby domain, once the straps give the address. -/
def State.bmb (s : State) (b : List Byte) : State := if s.module.standby then s.emit (.bmb b) else s

/-- BMB_IDENT. -/
def execBmbIdent (s : State) : Host.Outcome State Fault Refusal :=
  let st := s.identStraps
  .next (s.bmb (leBytes 2 identFamily ++ leBytes 1 s.variant ++ leBytes 1 0 ++ leBytes 8 (s.fuse 39) ++ leBytes 1 (bits st 5 0) ++
    leBytes 1 (flds [(0, 2, bits st 7 6), (2, 1, bits st 8 8), (3, 3, bits st 11 9)]) ++ leBytes 2 0))

/-- BMB_STATUS. -/
def execBmbStatus (s : State) : Host.Outcome State Fault Refusal :=
  .next (s.bmb (leBytes 1 s.sec.stage ++ leBytes 1 s.bmbFlags ++ leBytes 1 s.power.lastReset ++ leBytes 1 0 ++ leBytes 2 s.module.railCode ++ leBytes 2 0))

/-- BMB_POWER; the standby voltage is a measurement that no command gives: a free value. -/
def execBmbPower (s : State) : Host.Outcome State Fault Refusal :=
  .next (
    if !s.module.standby then s
    else
      let (v, s) := s.draw
      s.bmb (leBytes 2 s.power.vin ++ leBytes 2 s.power.iin ++ leBytes 2 s.power.pin ++ leBytes 2 v))

/-- BMB_THERMAL. -/
def execBmbThermal (s : State) : Host.Outcome State Fault Refusal :=
  .next (s.bmb (leBytes 1 (s.bmbTemp s.power.tj0) ++ leBytes 1 (s.bmbTemp s.power.tj1) ++ leBytes 1 (s.bmbTemp s.power.coolIn) ++
    leBytes 1 (s.bmbTemp s.power.coolOut) ++ leBytes 1 (s.bmbTemp s.hottestStack) ++ leBytes 3 0))

/-- ALERT_RESPONSE: the module answers with its address and releases ALERT# (R510, R512). -/
def execAlertResponse (s : State) : Host.Outcome State Fault Refusal :=
  .next (
    if !s.module.standby || !s.alert then s
    else
      { s with module := { s.module with
        alertReleased := true
        alertSeen := s.alertConditions } }.emit (.bmb (leBytes 1 (2 * (0x58 + bits s.identStraps 7 6)))))

end Sys2Proof.Machine
end

