-- ==== Sys2Proof/Machine/Tiles.lean ====
section
/-! DEFINITION. The commands of a core's arrays, vector unit and unfold engine: issue, verdict and detected errors (chapters 2, 4 and 6). A command issues the word that stands next in the selected context, where that word is of its kind and R79 lets it issue; otherwise nothing happens. -/

namespace Sys2Proof.Machine

/-- MATRIX issued (R60, R68, R82 to R89): a shape over its maximum is a job fault, an empty tile completes at issue. -/
def State.issueMatrix (s : State) (core : Nat) (n : Next) (w : MatrixWord) : State :=
  let sh := w.shapeAt n.ctx.sregVal
  let x := s.room n.room
  if w.shapeBound sh then s.raiseFault n.room Code.shapeBound (s.physUnit core)
  else if sh.empty then ((s.passWord core n).modCore core fun c => c.mark w.marks).refresh core
  else
    let c := s.core core
    let out := w.run (x.cvtOf w.tag w.cvt) (s.regionOf core n.room) c.banks sh x.seedOf n.ctx.stepNo
    let arrays := w.a * w.b * w.s
    let latched := if w.init = 1 then w.namedBanks else []
    let f : Flight := { Flight.new .matrix n.slot (w.cycles sh (if w.bankNaming then 4 else Nat.max 1 (c.freeBanks arrays))) with
      out := out, marks := w.marks, latched := latched, value := arrays }
    let s := s.modCore core fun c => { c.latch latched with
      awake := (List.range arrays).foldl (fun l a => if l.contains a then l else a :: l) c.awake }
    s.issue core n f

/-- VECTOR issued (R87, R103 to R119). -/
def State.issueVector (s : State) (core : Nat) (n : Next) (w : VectorWord) : State :=
  let r := w.rowsAt n.ctx.sregVal
  let c := w.colsAt n.ctx.sregVal
  let x := s.room n.room
  if w.shapeBound r c then s.raiseFault n.room Code.shapeBound (s.physUnit core)
  else if r = 0 ∨ c = 0 then ((s.passWord core n).modCore core fun k => k.mark w.marks).refresh core
  else
    let w := { w with cvt := x.cvtOf w.tag w.cvt }
    let out := w.run w.cvt (s.regionOf core n.room) (s.core core).banks r c x.seedOf n.ctx.stepNo
    let latched := if w.xb && w.zb then w.namedBanks else []
    let f : Flight := { Flight.new .vector n.slot (w.cycles r c) with out := out, marks := w.marks, latched := latched }
    (s.modCore core fun k => k.latch latched).issue core n f

/-- The VECTOR word of one operation, where it stands next. -/
def State.vectorCmd (s : State) (core op : Nat) : State :=
  match s.nextWord core with
  | some n => (match n.word with
    | .vector w => if w.op = op then s.issueVector core n w else s
    | _ => s)
  | none => s

/-- MATRIX (R82). -/
def execMatrix (core : Nat) (s : State) : Host.Outcome State Fault Refusal :=
  .next (match s.nextWord core with
    | some n => (match n.word with
      | .matrix w => s.issueMatrix core n w
      | _ => s)
    | none => s)

/-- ARRAY_IDLE: an array that admitted nothing for 512 cycles is clock-gated (R61). -/
def execArrayIdle (core array : Nat) (s : State) : Host.Outcome State Fault Refusal :=
  .next (if (s.core core).ctxs.any fun x => x.2.flights.any fun f => f.kind = .matrix && decide (array < f.value) then s
    else s.modCore core fun c => { c with awake := c.awake.filter (· ≠ array) })

/-- TILE_VERDICT: a MATRIX or VECTOR word in flight passes its last check and completes (R67); words complete in any order (R79). -/
def execTileVerdict (word : WordRef) (ran : Ran) (s : State) : Host.Outcome State Fault Refusal :=
  .next (s.completeTile word.core ran (Flight.wordAt word.slot))

/-- DETECTED_ERROR (R66, R69, R70, R111). -/
def execDetectedError (word : WordRef) (parity : Bool) (s : State) : Host.Outcome State Fault Refusal :=
  .next (s.tileError word.core word.slot parity)

/-- BANK_PARITY_OUTSIDE_WORD (R71). -/
def execBankParityOutsideWord (core : Nat) (s : State) : Host.Outcome State Fault Refusal :=
  .next (match s.roomOn core with
    | none => s
    | some r =>
      let u := s.physUnit core
      let s := s.count u 3 1
      match (s.core core).ctx r with
      | some x =>
        if 1 ≤ x.errors then s.retireCore core r
        else (s.modCtx core r fun x => { x with errors := x.errors + 1 }).raiseFault r Code.coreParity u
      | none => s)

/-- STORE_DOUBLE_BIT_ERROR: read by a word in flight (R52). -/
def execStoreDoubleBitError (core : Nat) (s : State) : Host.Outcome State Fault Refusal :=
  .next (match s.roomOn core with
    | none => s
    | some r =>
      match (s.core core).ctx r with
      | some x =>
        if x.flights.isEmpty then s
        else (s.count (s.physUnit core) 1 1).raiseFault r Code.coreUe (s.physUnit core)
      | none => s)

/-- Nanoseconds of core cycles under the clock plan in force, rounded up (R480). -/
def State.coreNs (s : State) (core cycles : Nat) : Nat :=
  ceilDiv (cycles * 1000) (Nat.max 1 (if coreDie core = 0 then s.power.plan0 else s.power.plan1))

/-- TILE_WATCHDOG: a word that has not completed after 102,400 core cycles (R96); for a MOVE it pauses while the room may not be served (R358) and
while the MOVE waits under a cause that R264 names. -/
def execTileWatchdog (core : Nat) (s : State) : Host.Outcome State Fault Refusal :=
  .next (match s.roomOn core with
    | none => s
    | some r =>
      match (s.core core).ctx r with
      | some x =>
        if x.flights.any fun f => decide (f.issued + s.coreNs core 102400 ≤ s.now) && !(f.kind = .move && (!s.mayServe core r || s.moveCause r f = directRead)) then
          (s.count (s.physUnit core) 15 1).raiseFault r Code.coreWatchdog (s.physUnit core)
        else s
      | none => s)

/-- ADD (R105). -/
def execAdd (core : Nat) (s : State) : Host.Outcome State Fault Refusal := .next (s.vectorCmd core 0x01)
/-- SUB (R105). -/
def execSub (core : Nat) (s : State) : Host.Outcome State Fault Refusal := .next (s.vectorCmd core 0x02)
/-- MUL (R105). -/
def execMul (core : Nat) (s : State) : Host.Outcome State Fault Refusal := .next (s.vectorCmd core 0x03)
/-- MAX (R105). -/
def execMax (core : Nat) (s : State) : Host.Outcome State Fault Refusal := .next (s.vectorCmd core 0x04)
/-- MIN (R105). -/
def execMin (core : Nat) (s : State) : Host.Outcome State Fault Refusal := .next (s.vectorCmd core 0x05)
/-- AXPB (R105). -/
def execAxpb (core : Nat) (s : State) : Host.Outcome State Fault Refusal := .next (s.vectorCmd core 0x06)
/-- AXPY (R105). -/
def execAxpy (core : Nat) (s : State) : Host.Outcome State Fault Refusal := .next (s.vectorCmd core 0x07)
/-- FUNC (R114). -/
def execFunc (core : Nat) (s : State) : Host.Outcome State Fault Refusal := .next (s.vectorCmd core 0x08)
/-- CONVERT (R105). -/
def execConvert (core : Nat) (s : State) : Host.Outcome State Fault Refusal := .next (s.vectorCmd core 0x09)
/-- LNSMUL (R29). -/
def execLnsmul (core : Nat) (s : State) : Host.Outcome State Fault Refusal := .next (s.vectorCmd core 0x0A)
/-- CMPGT (R105). -/
def execCmpgt (core : Nat) (s : State) : Host.Outcome State Fault Refusal := .next (s.vectorCmd core 0x0B)
/-- AND (R105). -/
def execAnd (core : Nat) (s : State) : Host.Outcome State Fault Refusal := .next (s.vectorCmd core 0x0C)
/-- OR (R105). -/
def execOr (core : Nat) (s : State) : Host.Outcome State Fault Refusal := .next (s.vectorCmd core 0x0D)
/-- XOR (R105). -/
def execXor (core : Nat) (s : State) : Host.Outcome State Fault Refusal := .next (s.vectorCmd core 0x0E)
/-- SHIFT (R105). -/
def execShift (core : Nat) (s : State) : Host.Outcome State Fault Refusal := .next (s.vectorCmd core 0x0F)
/-- ROW_SUM (R112). -/
def execRowSum (core : Nat) (s : State) : Host.Outcome State Fault Refusal := .next (s.vectorCmd core 0x10)
/-- ROW_MAX (R112). -/
def execRowMax (core : Nat) (s : State) : Host.Outcome State Fault Refusal := .next (s.vectorCmd core 0x11)
/-- ROW_DOT (R112). -/
def execRowDot (core : Nat) (s : State) : Host.Outcome State Fault Refusal := .next (s.vectorCmd core 0x12)
/-- MEANVAR (R113). -/
def execMeanvar (core : Nat) (s : State) : Host.Outcome State Fault Refusal := .next (s.vectorCmd core 0x14)
/-- NORM_APPLY (R105). -/
def execNormApply (core : Nat) (s : State) : Host.Outcome State Fault Refusal := .next (s.vectorCmd core 0x15)
/-- SMAX_STEP (R118). -/
def execSmaxStep (core : Nat) (s : State) : Host.Outcome State Fault Refusal := .next (s.vectorCmd core 0x18)
/-- ROW_SCALE (R119). -/
def execRowScale (core : Nat) (s : State) : Host.Outcome State Fault Refusal := .next (s.vectorCmd core 0x19)
/-- ROW_DIV (R119). -/
def execRowDiv (core : Nat) (s : State) : Host.Outcome State Fault Refusal := .next (s.vectorCmd core 0x1A)
/-- SMAX_APPLY (R119). -/
def execSmaxApply (core : Nat) (s : State) : Host.Outcome State Fault Refusal := .next (s.vectorCmd core 0x1B)

/-- UNFOLD (R150): one word at a time; its rows are written when it completes. -/
def execUnfold (core : Nat) (s : State) : Host.Outcome State Fault Refusal :=
  .next (match s.nextWord core with
    | some n => (match n.word with
      | .unfold w =>
        s.issue core n { Flight.new .unfold n.slot w.cycles with out := { TileOut.none with writes := w.run (s.regionOf core n.room) } }
      | _ => s)
    | none => s)

/-- UNFOLD_COMPLETE (R154). -/
def execUnfoldComplete (core : Nat) (ran : Ran) (s : State) : Host.Outcome State Fault Refusal :=
  .next (s.completeTile core ran fun f => f.kind = .unfold)

end Sys2Proof.Machine
end

