-- ==== Sys2Proof/Machine/Dispatch.lean ====
section
/-! DEFINITION. One arm per command: each calls its meaning. -/

namespace Sys2Proof.Machine

/-- The effect of a command on everything but the queue. -/
def exec (i : Instr) (s : State) : Host.Outcome State Fault Refusal :=
  match i with
  | .matrix core => Sys2Proof.Machine.execMatrix core s
  | .arrayIdle core array => Sys2Proof.Machine.execArrayIdle core array s
  | .tileVerdict word ran => Sys2Proof.Machine.execTileVerdict word ran s
  | .detectedError word parity => Sys2Proof.Machine.execDetectedError word parity s
  | .bankParityOutsideWord core => Sys2Proof.Machine.execBankParityOutsideWord core s
  | .storeDoubleBitError core => Sys2Proof.Machine.execStoreDoubleBitError core s
  | .tileWatchdog core => Sys2Proof.Machine.execTileWatchdog core s
  | .add core => Sys2Proof.Machine.execAdd core s
  | .sub core => Sys2Proof.Machine.execSub core s
  | .mul core => Sys2Proof.Machine.execMul core s
  | .max core => Sys2Proof.Machine.execMax core s
  | .min core => Sys2Proof.Machine.execMin core s
  | .axpb core => Sys2Proof.Machine.execAxpb core s
  | .axpy core => Sys2Proof.Machine.execAxpy core s
  | .func core => Sys2Proof.Machine.execFunc core s
  | .convert core => Sys2Proof.Machine.execConvert core s
  | .lnsmul core => Sys2Proof.Machine.execLnsmul core s
  | .cmpgt core => Sys2Proof.Machine.execCmpgt core s
  | .and core => Sys2Proof.Machine.execAnd core s
  | .or core => Sys2Proof.Machine.execOr core s
  | .xor core => Sys2Proof.Machine.execXor core s
  | .shift core => Sys2Proof.Machine.execShift core s
  | .rowSum core => Sys2Proof.Machine.execRowSum core s
  | .rowMax core => Sys2Proof.Machine.execRowMax core s
  | .rowDot core => Sys2Proof.Machine.execRowDot core s
  | .meanvar core => Sys2Proof.Machine.execMeanvar core s
  | .normApply core => Sys2Proof.Machine.execNormApply core s
  | .smaxStep core => Sys2Proof.Machine.execSmaxStep core s
  | .rowScale core => Sys2Proof.Machine.execRowScale core s
  | .rowDiv core => Sys2Proof.Machine.execRowDiv core s
  | .smaxApply core => Sys2Proof.Machine.execSmaxApply core s
  | .move core => Sys2Proof.Machine.execMove core s
  | .moveComplete word => Sys2Proof.Machine.execMoveComplete word s
  | .shape core => Sys2Proof.Machine.execShape core s
  | .shapeComplete word => Sys2Proof.Machine.execShapeComplete word s
  | .stepBarrier core => Sys2Proof.Machine.execStepBarrier core s
  | .set core => Sys2Proof.Machine.execSet core s
  | .syncWait core => Sys2Proof.Machine.execSyncWait core s
  | .unfold core => Sys2Proof.Machine.execUnfold core s
  | .slotStart entry t => Sys2Proof.Machine.execSlotStart entry t s
  | .slotEnd entry t => Sys2Proof.Machine.execSlotEnd entry t s
  | .contextSwitch core => Sys2Proof.Machine.execContextSwitch core s
  | .nop ring => Sys2Proof.Machine.execNop ring s
  | .launch ring => Sys2Proof.Machine.execLaunch ring s
  | .copy ring => Sys2Proof.Machine.execCopy ring s
  | .fill ring => Sys2Proof.Machine.execFill ring s
  | .signal ring => Sys2Proof.Machine.execSignal ring s
  | .wait ring => Sys2Proof.Machine.execWait ring s
  | .waitTimeout ring t => Sys2Proof.Machine.execWaitTimeout ring t s
  | .barrierJoin ring => Sys2Proof.Machine.execBarrierJoin ring s
  | .powerCap ring => Sys2Proof.Machine.execPowerCap ring s
  | .clockPlan ring => Sys2Proof.Machine.execClockPlan ring s
  | .sharingTable ring => Sys2Proof.Machine.execSharingTable ring s
  | .precisionMode ring => Sys2Proof.Machine.execPrecisionMode ring s
  | .endJob ring => Sys2Proof.Machine.execEndJob ring s
  | .timestamp ring => Sys2Proof.Machine.execTimestamp ring s
  | .fork ring => Sys2Proof.Machine.execFork ring s
  | .prune ring => Sys2Proof.Machine.execPrune ring s
  | .branchRead ring => Sys2Proof.Machine.execBranchRead ring s
  | .unmap ring => Sys2Proof.Machine.execUnmap ring s
  | .mapAuto ring => Sys2Proof.Machine.execMapAuto ring s
  | .mapUpper ring => Sys2Proof.Machine.execMapUpper ring s
  | .mapCold ring => Sys2Proof.Machine.execMapCold ring s
  | .mapStream ring => Sys2Proof.Machine.execMapStream ring s
  | .mapWindow ring => Sys2Proof.Machine.execMapWindow ring s
  | .setAuto ring => Sys2Proof.Machine.execSetAuto ring s
  | .setUpper ring => Sys2Proof.Machine.execSetUpper ring s
  | .setCold ring => Sys2Proof.Machine.execSetCold ring s
  | .setStream ring => Sys2Proof.Machine.execSetStream ring s
  | .view ring => Sys2Proof.Machine.execView ring s
  | .forest ring => Sys2Proof.Machine.execForest ring s
  | .kernel ring => Sys2Proof.Machine.execKernel ring s
  | .clear ring => Sys2Proof.Machine.execClear ring s
  | .haulPlan ring => Sys2Proof.Machine.execHaulPlan ring s
  | .checkpoint ring => Sys2Proof.Machine.execCheckpoint ring s
  | .restore run => Sys2Proof.Machine.execRestore run s
  | .mirrorFetchTimeout room t => Sys2Proof.Machine.execMirrorFetchTimeout room t s
  | .decodeOpen ring => Sys2Proof.Machine.execDecodeOpen ring s
  | .decodeFrame ring => Sys2Proof.Machine.execDecodeFrame ring s
  | .decodeClose ring => Sys2Proof.Machine.execDecodeClose ring s
  | .developLoad ring => Sys2Proof.Machine.execDevelopLoad ring s
  | .developFrame ring => Sys2Proof.Machine.execDevelopFrame ring s
  | .tokenizeLoad ring => Sys2Proof.Machine.execTokenizeLoad ring s
  | .tokenizeRun ring => Sys2Proof.Machine.execTokenizeRun ring s
  | .augment ring => Sys2Proof.Machine.execAugment ring s
  | .put ring => Sys2Proof.Machine.execPut ring s
  | .get ring => Sys2Proof.Machine.execGet ring s
  | .cancel ring => Sys2Proof.Machine.execCancel ring s
  | .doorbell fn offset size value host => Sys2Proof.Machine.execDoorbell fn offset size value host s
  | .descriptorFetch ring => Sys2Proof.Machine.execDescriptorFetch ring s
  | .moderationTimer ring t => Sys2Proof.Machine.execModerationTimer ring t s
  | .vectorUnmask fn vector => Sys2Proof.Machine.execVectorUnmask fn vector s
  | .ringRestart => Sys2Proof.Machine.execRingRestart s
  | .start fn room host => Sys2Proof.Machine.execStart fn room host s
  | .commit fn room => Sys2Proof.Machine.execCommit fn room s
  | .turnover fn room release => Sys2Proof.Machine.execTurnover fn room release s
  | .functionLevelReset fn => Sys2Proof.Machine.execFunctionLevelReset fn s
  | .vfEnableChange enable num => Sys2Proof.Machine.execVfEnableChange enable num s
  | .gateClose room => Sys2Proof.Machine.execGateClose room s
  | .drainLimit room unit t => Sys2Proof.Machine.execDrainLimit room unit t s
  | .zeroingComplete room t => Sys2Proof.Machine.execZeroingComplete room t s
  | .check fn => Sys2Proof.Machine.execCheck fn s
  | .activate fn => Sys2Proof.Machine.execActivate fn s
  | .frameBoundary t => Sys2Proof.Machine.execFrameBoundary t s
  | .netCommit fn => Sys2Proof.Machine.execNetCommit fn s
  | .ringtabSel fn value => Sys2Proof.Machine.execRingtabSel fn value s
  | .ringtabRestart fn value => Sys2Proof.Machine.execRingtabRestart fn value s
  | .ingestSel fn value => Sys2Proof.Machine.execIngestSel fn value s
  | .memPromoteHeat fn room value => Sys2Proof.Machine.execMemPromoteHeat fn room value s
  | .timeNowLo fn => Sys2Proof.Machine.execTimeNowLo fn s
  | .timeTodSet fn value => Sys2Proof.Machine.execTimeTodSet fn value s
  | .powerClkgate fn group value => Sys2Proof.Machine.execPowerClkgate fn group value s
  | .powerPwrgate fn group value => Sys2Proof.Machine.execPowerPwrgate fn group value s
  | .tenantAttest fn room => Sys2Proof.Machine.execTenantAttest fn room s
  | .tenant fn room => Sys2Proof.Machine.execTenant fn room s
  | .importKey fn room verified => Sys2Proof.Machine.execImportKey fn room verified s
  | .consent fn room verified => Sys2Proof.Machine.execConsent fn room verified s
  | .revoke fn room => Sys2Proof.Machine.execRevoke fn room s
  | .wideRegisterRead fn offset size => Sys2Proof.Machine.execWideRegisterRead fn offset size s
  | .registerWrite fn offset size value host => Sys2Proof.Machine.execRegisterWrite fn offset size value host s
  | .forkCmd room => Sys2Proof.Machine.execForkCmd room s
  | .pruneCmd room => Sys2Proof.Machine.execPruneCmd room s
  | .sample room => Sys2Proof.Machine.execSample room s
  | .score room => Sys2Proof.Machine.execScore room s
  | .samplerError room err => Sys2Proof.Machine.execSamplerError room err s
  | .decodeBatch room view => Sys2Proof.Machine.execDecodeBatch room view s
  | .decodeBatchEnd room view => Sys2Proof.Machine.execDecodeBatchEnd room view s
  | .benchRun room kernel => Sys2Proof.Machine.execBenchRun room kernel s
  | .benchRunEnd room kernel => Sys2Proof.Machine.execBenchRunEnd room kernel s
  | .bmm room kernel => Sys2Proof.Machine.execBmm room kernel s
  | .benchAdd room kernel => Sys2Proof.Machine.execBenchAdd room kernel s
  | .benchSub room kernel => Sys2Proof.Machine.execBenchSub room kernel s
  | .benchMul room kernel => Sys2Proof.Machine.execBenchMul room kernel s
  | .benchMax room kernel => Sys2Proof.Machine.execBenchMax room kernel s
  | .benchMin room kernel => Sys2Proof.Machine.execBenchMin room kernel s
  | .benchAxpb room kernel => Sys2Proof.Machine.execBenchAxpb room kernel s
  | .benchAxpy room kernel => Sys2Proof.Machine.execBenchAxpy room kernel s
  | .benchConvert room kernel => Sys2Proof.Machine.execBenchConvert room kernel s
  | .benchExp room kernel => Sys2Proof.Machine.execBenchExp room kernel s
  | .rsum room kernel => Sys2Proof.Machine.execRsum room kernel s
  | .rmax room kernel => Sys2Proof.Machine.execRmax room kernel s
  | .rdot room kernel => Sys2Proof.Machine.execRdot room kernel s
  | .carry room kernel => Sys2Proof.Machine.execCarry room kernel s
  | .smerge room kernel => Sys2Proof.Machine.execSmerge room kernel s
  | .benchFill room kernel => Sys2Proof.Machine.execBenchFill room kernel s
  | .benchCopy room kernel => Sys2Proof.Machine.execBenchCopy room kernel s
  | .benchTimeout room kernel => Sys2Proof.Machine.execBenchTimeout room kernel s
  | .benchError room site unit parity => Sys2Proof.Machine.execBenchError room site unit parity s
  | .windowFill room window => Sys2Proof.Machine.execWindowFill room window s
  | .migrationEpoch t => Sys2Proof.Machine.execMigrationEpoch t s
  | .migrationSwitch room page => Sys2Proof.Machine.execMigrationSwitch room page s
  | .snapshotComplete room => Sys2Proof.Machine.execSnapshotComplete room s
  | .mirrorAck room digestOk => Sys2Proof.Machine.execMirrorAck room digestOk s
  | .collectiveExecution room index => Sys2Proof.Machine.execCollectiveExecution room index s
  | .collectiveComplete room index parts => Sys2Proof.Machine.execCollectiveComplete room index parts s
  | .data p => Sys2Proof.Machine.execData p s
  | .ack p => Sys2Proof.Machine.execAck p s
  | .nack p => Sys2Proof.Machine.execNack p s
  | .getreq p => Sys2Proof.Machine.execGetreq p s
  | .refuse p => Sys2Proof.Machine.execRefuse p s
  | .busy p => Sys2Proof.Machine.execBusy p s
  | .ackTimer room peer flow t => Sys2Proof.Machine.execAckTimer room peer flow t s
  | .nackTimer room peer flow t => Sys2Proof.Machine.execNackTimer room peer flow t s
  | .retransmitTimer room peer flow psn t => Sys2Proof.Machine.execRetransmitTimer room peer flow psn t s
  | .rateIncrease room peer flow t => Sys2Proof.Machine.execRateIncrease room peer flow t s
  | .pathReturn port path t => Sys2Proof.Machine.execPathReturn port path t s
  | .arp port addr => Sys2Proof.Machine.execArp port addr s
  | .neighbourDiscovery port addr => Sys2Proof.Machine.execNeighbourDiscovery port addr s
  | .icmpEcho port addr t => Sys2Proof.Machine.execIcmpEcho port addr t s
  | .keyOverlapEnd link tag t => Sys2Proof.Machine.execKeyOverlapEnd link tag t s
  | .admitMember p => Sys2Proof.Machine.execAdmitMember p s
  | .admitted p => Sys2Proof.Machine.execAdmitted p s
  | .refused p => Sys2Proof.Machine.execRefused p s
  | .admitRetry t => Sys2Proof.Machine.execAdmitRetry t s
  | .renewTimer t => Sys2Proof.Machine.execRenewTimer t s
  | .renew p => Sys2Proof.Machine.execRenew p s
  | .grant p => Sys2Proof.Machine.execGrant p s
  | .leaseExpiry t => Sys2Proof.Machine.execLeaseExpiry t s
  | .leaseLapse mid t => Sys2Proof.Machine.execLeaseLapse mid t s
  | .key p => Sys2Proof.Machine.execKey p s
  | .gen p => Sys2Proof.Machine.execGen p s
  | .fence p => Sys2Proof.Machine.execFence p s
  | .probe p => Sys2Proof.Machine.execProbe p s
  | .probeAck p => Sys2Proof.Machine.execProbeAck p s
  | .probeTimeout mid t => Sys2Proof.Machine.execProbeTimeout mid t s
  | .report p => Sys2Proof.Machine.execReport p s
  | .leave p => Sys2Proof.Machine.execLeave p s
  | .rekey p => Sys2Proof.Machine.execRekey p s
  | .join p => Sys2Proof.Machine.execJoin p s
  | .assemblyTimeout tag t => Sys2Proof.Machine.execAssemblyTimeout tag t s
  | .jobRecordExpiry tag t => Sys2Proof.Machine.execJobRecordExpiry tag t s
  | .jobStart p => Sys2Proof.Machine.execJobStart p s
  | .map p => Sys2Proof.Machine.execMap p s
  | .barJoin room => Sys2Proof.Machine.execBarJoin room s
  | .barJoinMessage p => Sys2Proof.Machine.execBarJoinMessage p s
  | .release p => Sys2Proof.Machine.execRelease p s
  | .barLocal room t => Sys2Proof.Machine.execBarLocal room t s
  | .barTimeout tag t => Sys2Proof.Machine.execBarTimeout tag t s
  | .fault p => Sys2Proof.Machine.execFault p s
  | .abort p => Sys2Proof.Machine.execAbort p s
  | .jobFault room code unit => Sys2Proof.Machine.execJobFault room code unit s
  | .linkNonce mid nonce => Sys2Proof.Machine.execLinkNonce mid nonce s
  | .linkReport mid report verified => Sys2Proof.Machine.execLinkReport mid report verified s
  | .linkResend mid t => Sys2Proof.Machine.execLinkResend mid t s
  | .stewardCrash crash t => Sys2Proof.Machine.execStewardCrash crash t s
  | .stewardWatchdog pair t => Sys2Proof.Machine.execStewardWatchdog pair t s
  | .stewardRestartDone done t => Sys2Proof.Machine.execStewardRestartDone done t s
  | .stewardSlow pair t => Sys2Proof.Machine.execStewardSlow pair t s
  | .imageFetch served => Sys2Proof.Machine.execImageFetch served s
  | .tftpRetransmit t => Sys2Proof.Machine.execTftpRetransmit t s
  | .fetchRetry t => Sys2Proof.Machine.execFetchRetry t s
  | .standbyPowerGood romOk storeOk chainOk reads => Sys2Proof.Machine.execStandbyPowerGood romOk storeOk chainOk reads s
  | .strapLatch straps => Sys2Proof.Machine.execStrapLatch straps s
  | .mainStart millivolts t => Sys2Proof.Machine.execMainStart millivolts t s
  | .railStep t => Sys2Proof.Machine.execRailStep t s
  | .railFail t => Sys2Proof.Machine.execRailFail t s
  | .railRetry t => Sys2Proof.Machine.execRailRetry t s
  | .linkTraining width speed t => Sys2Proof.Machine.execLinkTraining width speed t s
  | .hostReset perst modrst t => Sys2Proof.Machine.execHostReset perst modrst t s
  | .hostResetEnd t => Sys2Proof.Machine.execHostResetEnd t s
  | .hotReset => Sys2Proof.Machine.execHotReset s
  | .sagWarning millivolts => Sys2Proof.Machine.execSagWarning millivolts s
  | .sagClear millivolts => Sys2Proof.Machine.execSagClear millivolts s
  | .mainReset surge t => Sys2Proof.Machine.execMainReset surge t s
  | .standbyLoss millivolts => Sys2Proof.Machine.execStandbyLoss millivolts s
  | .powerControl input milliamps t => Sys2Proof.Machine.execPowerControl input milliamps t s
  | .thermalControl die heat t => Sys2Proof.Machine.execThermalControl die heat t s
  | .junctionTrip die hottest t => Sys2Proof.Machine.execJunctionTrip die hottest t s
  | .tripRecovery die t => Sys2Proof.Machine.execTripRecovery die t s
  | .droopTrip unit => Sys2Proof.Machine.execDroopTrip unit s
  | .droopRecovery unit cycles long => Sys2Proof.Machine.execDroopRecovery unit cycles long s
  | .stackBandReading site hottest t => Sys2Proof.Machine.execStackBandReading site hottest t s
  | .stackShutdown site hottest t => Sys2Proof.Machine.execStackShutdown site hottest t s
  | .stackReturn site t => Sys2Proof.Machine.execStackReturn site t s
  | .stackScrub site hits => Sys2Proof.Machine.execStackScrub site hits s
  | .crcError unit channel lane t => Sys2Proof.Machine.execCrcError unit channel lane t s
  | .securityFault unit => Sys2Proof.Machine.execSecurityFault unit s
  | .fuseReread reads => Sys2Proof.Machine.execFuseReread reads s
  | .consentExpiry room t => Sys2Proof.Machine.execConsentExpiry room t s
  | .debugWindowEnd t => Sys2Proof.Machine.execDebugWindowEnd t s
  | .identity who => Sys2Proof.Machine.execIdentity who s
  | .attest who nonce => Sys2Proof.Machine.execAttest who nonce s
  | .claim token pub verified => Sys2Proof.Machine.execClaim token pub verified s
  | .auditRead who first => Sys2Proof.Machine.execAuditRead who first s
  | .healthRead who first => Sys2Proof.Machine.execHealthRead who first s
  | .auditAck who seq => Sys2Proof.Machine.execAuditAck who seq s
  | .reboot who => Sys2Proof.Machine.execReboot who s
  | .roomSec who room cmd body verified => Sys2Proof.Machine.execRoomSec who room cmd body verified s
  | .setNet who body => Sys2Proof.Machine.execSetNet who body s
  | .setServers who servers => Sys2Proof.Machine.execSetServers who servers s
  | .setCa who certs => Sys2Proof.Machine.execSetCa who certs s
  | .setCaravan who body => Sys2Proof.Machine.execSetCaravan who body s
  | .clearLaggard who mid => Sys2Proof.Machine.execClearLaggard who mid s
  | .removeMember who mid => Sys2Proof.Machine.execRemoveMember who mid s
  | .addOperator who pub => Sys2Proof.Machine.execAddOperator who pub s
  | .delOperator who index => Sys2Proof.Machine.execDelOperator who index s
  | .addInstaller who pub => Sys2Proof.Machine.execAddInstaller who pub s
  | .delInstaller who index => Sys2Proof.Machine.execDelInstaller who index s
  | .releaseClaim who => Sys2Proof.Machine.execReleaseClaim who s
  | .svnCommit who reads => Sys2Proof.Machine.execSvnCommit who reads s
  | .debugAllow who duration => Sys2Proof.Machine.execDebugAllow who duration s
  | .debug who rooms scope => Sys2Proof.Machine.execDebug who rooms scope s
  | .makerRevoke who generation reads => Sys2Proof.Machine.execMakerRevoke who generation reads s
  | .repairFuse who words reads => Sys2Proof.Machine.execRepairFuse who words reads s
  | .retire who reads => Sys2Proof.Machine.execRetire who reads s
  | .referenceQualified ref t => Sys2Proof.Machine.execReferenceQualified ref t s
  | .referenceLoss ref t => Sys2Proof.Machine.execReferenceLoss ref t s
  | .referenceComparison extPtp extOcxo ptpOcxo offset t => Sys2Proof.Machine.execReferenceComparison extPtp extOcxo ptpOcxo offset t s
  | .lockAcquired t => Sys2Proof.Machine.execLockAcquired t s
  | .ppsEdge t => Sys2Proof.Machine.execPpsEdge t s
  | .sync m => Sys2Proof.Machine.execSync m s
  | .followUp m => Sys2Proof.Machine.execFollowUp m s
  | .delayResp m => Sys2Proof.Machine.execDelayResp m s
  | .announce m => Sys2Proof.Machine.execAnnounce m s
  | .bmbIdent => Sys2Proof.Machine.execBmbIdent s
  | .bmbStatus => Sys2Proof.Machine.execBmbStatus s
  | .bmbPower => Sys2Proof.Machine.execBmbPower s
  | .bmbThermal => Sys2Proof.Machine.execBmbThermal s
  | .alertResponse => Sys2Proof.Machine.execAlertResponse s
  | .unfoldComplete core ran => Sys2Proof.Machine.execUnfoldComplete core ran s
  | .snapshotPageCopied copy => Sys2Proof.Machine.execSnapshotPageCopied copy s
  | .probeResend mid t => Sys2Proof.Machine.execProbeResend mid t s
  | .getreqRetry room peer flow t => Sys2Proof.Machine.execGetreqRetry room peer flow t s
  | .portLink port up => Sys2Proof.Machine.execPortLink port up s
  | .otherFrame port => Sys2Proof.Machine.execOtherFrame port s
  | .delayReq m => Sys2Proof.Machine.execDelayReq m s
  | .ptpSyncInterval t => Sys2Proof.Machine.execPtpSyncInterval t s
  | .ptpDelayReqInterval t => Sys2Proof.Machine.execPtpDelayReqInterval t s
  | .ptpAnnounceInterval t => Sys2Proof.Machine.execPtpAnnounceInterval t s

end Sys2Proof.Machine
end

