-- ==== Sys2Proof/Machine/Idle.lean ====
section
/-! DEFINITION. What the block does while no command waits. -/

namespace Sys2Proof.Machine

/-- With no command waiting, device time advances by 1 ns (R432; DESIGN CHOICE, log entry 4). -/
def idle (s : State) : State := s.upto (s.now + 1)

end Sys2Proof.Machine
end

