-- ==== Sys2Proof/Safety.lean ====
section
/-! DEFINITION. What counts as a safe step of the block, the canonical form of all its byte memories, and the notions the statements are written in. -/

namespace Sys2Proof.Machine

/-- The outcome is a next state. -/
def answersNext (o : Host.Outcome State Fault Refusal) : Prop := ∃ t, o = .next t

/-- Every addressed memory of the state is in canonical form: host memory, every room's device range, every core store and every common store. -/
structure State.MemoryWf (s : State) : Prop where
  host : Memory.wf s.host = true
  rooms : ∀ p ∈ s.rooms, Memory.wf p.2.mem.data = true
  cores : ∀ p ∈ s.cores, Memory.wf p.2.store = true
  common : ∀ p ∈ s.common, Memory.wf p.2 = true

end Sys2Proof.Machine

namespace Sys2Proof.Obl

open Sys2Proof Sys2Proof.Machine

/-- A context without what only notes its readiness for the arbiter and for SCHED_LATE (R347, R360). -/
def plainCtx (x : Ctx) : Ctx := { x with due := none, readyAt := none }

/-- A room's context on a core, so seen. -/
def ctxOn (s : State) (core r : Nat) : Option Ctx := ((s.core core).ctx r).map plainCtx

/-- What accounting alone may change beside a command's own effect (R264, R347, R360, R366): ledgers, stall counters, the arbiters' virtual times and the
count of late slots. -/
def Booked (s t : State) : Prop :=
  (∀ r, ∃ g n e, t.room r = { s.room r with ledger := g, stallNs := n, stallEv := e }) ∧
  t = { s with cores := t.cores, rooms := t.rooms, sched := { s.sched with late := t.sched.late, vtime := t.sched.vtime } }

/-- A word issued on a core (R79): its context has moved past it and holds it in flight after the earlier ones, since now; the store, the bank words, the residence, the other contexts and the other cores are as they were, and elsewhere only accounting leaves a trace. -/
def Issued (s t : State) (core : Nat) (n : Next) (f : Flight) : Prop :=
  ctxOn t core n.room = some (plainCtx { n.ctx.advance n.len with flights := n.ctx.flights ++ [f] }) ∧ f.issued = s.time.now ∧
  (t.core core).store = (s.core core).store ∧ (t.core core).sel = (s.core core).sel ∧
  (∀ k, (tget Bank.free (t.core core).banks k).words = (tget Bank.free (s.core core).banks k).words ∧
    (tget Bank.free (t.core core).banks k).resident = (tget Bank.free (s.core core).banks k).resident) ∧
  (∀ r, r ≠ n.room → ctxOn t core r = ctxOn s core r) ∧ (∀ c, c ≠ core → t.core c = s.core c) ∧ Booked s t

/-- The VECTOR operations by their code in the word (Table 4.2). -/
def vectorOps (core : Nat) : List (Nat × Instr) :=
  [(0x01, .add core), (0x02, .sub core), (0x03, .mul core), (0x04, .max core), (0x05, .min core), (0x06, .axpb core),
   (0x07, .axpy core), (0x08, .func core), (0x09, .convert core), (0x0A, .lnsmul core), (0x0B, .cmpgt core), (0x0C, .and core),
   (0x0D, .or core), (0x0E, .xor core), (0x0F, .shift core), (0x10, .rowSum core), (0x11, .rowMax core), (0x12, .rowDot core),
   (0x14, .meanvar core), (0x15, .normApply core), (0x18, .smaxStep core), (0x19, .rowScale core), (0x1A, .rowDiv core),
   (0x1B, .smaxApply core)]

/-- A flight that is the first of a context's to pass a test, with those before and after it. -/
def OldestOf (p : Flight → Bool) (l a : List Flight) (f : Flight) (b : List Flight) : Prop :=
  l = a ++ f :: b ∧ p f = true ∧ ∀ g ∈ a, p g = false

/-- A counter of a unit in the catalogue of R494. -/
def unitCount (s : State) (unit i : Nat) : Nat := tget 0 s.health.counts (unit * 32 + i)

/-- The row writes of an output made in their order at a base address. -/
def rowsWritten (m : Memory) (base : Nat) (l : List (Nat × List Byte)) : Memory := l.foldl (fun m w => memWriteN m (base + w.1) w.2) m

/-- The bank words of an output written: bank and word, then the code. -/
def bankWords (t : Tbl Bank) (l : List ((Nat × Nat) × Nat)) : Tbl Bank :=
  l.foldl (fun t w => tmod Bank.free t w.1.1 fun b => { b with words := tset b.words w.1.2 w.2 }) t

/-- The slot of a completion ring that its next record goes to (R321). -/
def slotAddr (c : Ring) : Nat := c.base + 16 * (c.count % c.depth)

/-- A completion ring that takes the next record at once: running, with no earlier record kept, and the host lets the device write the slot (R322, R323). -/
def TakesRecord (s : State) (cq : Nat) : Prop :=
  (s.ring cq).kind = 2 ∧ (s.ring cq).st ≠ .disabled ∧ (s.ring cq).st ≠ .halted ∧ (s.ring cq).held = [] ∧
  s.hostOk (s.ring cq).room (slotAddr (s.ring cq)) 16 true = true

/-- Two states equal but for the arbiters' own notes: virtual times and who was ready (R347). -/
def UpToShares (u t : State) : Prop := t = { u with sched := { u.sched with vtime := t.sched.vtime, ready := t.sched.ready } }

/-- The outcome is one state, but for the arbiters' own notes. -/
def RunsTo (o : Host.Outcome State Fault Refusal) (u : State) : Prop := ∃ t, o = .next t ∧ UpToShares u t

/-- A room's turn at the forest engine (R347, R348). -/
def ForestTurn (s : State) (r : Nat) : Prop := (s.serve arbForest true s.forestRooms r).isSome = true

/-- The PLACE_HINT forms that map or reclassify ordinary pages (Table 10.2): command, hint code, class, and whether it maps. -/
def pageHints (ring : Nat) : List (Instr × Nat × Nat × Bool) :=
  [(.mapAuto ring, 0x01, 1, true), (.mapUpper ring, 0x02, 2, true), (.mapCold ring, 0x03, 3, true), (.mapStream ring, 0x04, 4, true),
   (.setAuto ring, 0x08, 1, false), (.setUpper ring, 0x09, 2, false), (.setCold ring, 0x0A, 3, false), (.setStream ring, 0x0B, 4, false)]

/-- The PLACE_HINT forms that register a special range (Table 10.2): command, hint code, operation. -/
def rangeHints (ring : Nat) : List (Instr × Nat × (State → Nat → Desc → Except DescErr State)) :=
  [(.mapWindow ring, 0x05, State.mapWindow), (.view ring, 0x10, withRecord State.addView), (.forest ring, 0x11, withRecord State.addForest),
   (.kernel ring, 0x12, withRecord State.addKernel)]

/-- A startable PLACE_HINT of one hint code. -/
def Hinted (s : State) (ring hint : Nat) (d : Desc) : Prop := s.canStartOp ring 0x18 (fun d => d.hint == hint) = some d

/-- A room with an unbacked special range more, at the descriptor's place. -/
def ranged (m : RoomMem) (d : Desc) (raw : Nat) : RoomMem :=
  { m with specials := m.specials ++ [⟨d.va, d.nbytes, d.hint, raw, []⟩], data := memZero m.data d.va d.nbytes }

/-- An ingest descriptor that may start and that its die's units serve now, in the state that it then works on (R286, R344, R347). -/
def IngestServed (s v : State) (ring opcode : Nat) (p : Desc → Bool) (d : Desc) : Prop :=
  s.canStartOp ring opcode p = some d ∧ s.onIngest (s.ring ring).room d = some v

/-- A word of gate bits: the clock or the power controls of the cores of a die (groups 0 and 1) or of the other units (Table 20.12). -/
def gateWord (p : Power) (pwr : Bool) (group : Nat) : Nat :=
  match group, pwr with
  | 0, false => p.clkCores0
  | 0, true => p.pwrCores0
  | 1, false => p.clkCores1
  | 1, true => p.pwrCores1
  | _, false => p.clkUnits
  | _, true => p.pwrUnits

/-- That word changed. -/
def withGate (p : Power) (pwr : Bool) (group w : Nat) : Power :=
  match group, pwr with
  | 0, false => { p with clkCores0 := w }
  | 0, true => { p with pwrCores0 := w }
  | 1, false => { p with clkCores1 := w }
  | 1, true => { p with pwrCores1 := w }
  | _, false => { p with clkUnits := w }
  | _, true => { p with pwrUnits := w }

/-- Changed bits of a gate write that held units keep (R491). -/
def ignoredBits (n old value held : Nat) : Nat := popCount n (bitsWhere n (fun i => bit old i != bit value i) &&& held)

/-- The request window of a room as its command leaves it: done, with a code (Table 19.11). -/
def windowDone (x : RoomSec) (code : Nat) : RoomSec := { x with rqCode := code, rqDone := true }

/-- The bytes that a command of the window reads. -/
def windowBody (s : State) (room cmd : Nat) : List Nat := (memReadN s.host (s.room room).sec.rqAddr (cmdBytes cmd)).map BitVec.toNat

/-- The commands of the request window with their CMD codes and whether their record verifies. -/
def windowCmds (fn room : Nat) (verified : Bool) : List (Instr × Nat × Bool) :=
  [(.tenantAttest fn room, 1, false), (.tenant fn room, 2, false), (.importKey fn room verified, 3, verified), (.consent fn room verified, 4, verified),
   (.revoke fn room, 5, false)]

/-- The bench operations by their code in the word (Table 9.6). -/
def benchOps (room kernel : Nat) : List (Instr × Nat) :=
  [(.bmm room kernel, 0x01), (.benchAdd room kernel, 0x10), (.benchSub room kernel, 0x11), (.benchMul room kernel, 0x12), (.benchMax room kernel, 0x13),
   (.benchMin room kernel, 0x14), (.benchAxpb room kernel, 0x15), (.benchAxpy room kernel, 0x16), (.benchConvert room kernel, 0x17),
   (.benchExp room kernel, 0x18), (.rsum room kernel, 0x20), (.rmax room kernel, 0x21), (.rdot room kernel, 0x22), (.carry room kernel, 0x28),
   (.smerge room kernel, 0x29), (.benchFill room kernel, 0x30), (.benchCopy room kernel, 0x31)]

/-- The state in which a bench word reads its operands, and the time their promotion took: their pages promoted, their use counted (R230, R234, R259). -/
def benchTouched (s : State) (room : Nat) (ins : List Ext) : State × Nat :=
  let p := s.promoteAll room (dedup (ins.flatMap fun x => x.runs.flatMap fun p => (pagesOf p.1 p.2).map (·.1)))
  ((ins.flatMap Ext.runs).foldl (fun s q => (s.touchAccess room q.1 q.2).countView room q.1 q.2) p.1, p.2)

/-- The stores of a bench word over the operands gathered in `m`, with its job's seed and step (R231 to R234, R239). -/
def benchStored (s : State) (room : Nat) (u : BenchRun) (w : BenchWord) (m : Memory) : State × Option Nat :=
  let job := ((s.room room).job.map fun j => (j.seed, j.step)).getD (0, 0)
  s.benchStore room (({ w with cvt := (s.room room).cvtOf w.tag w.cvt }).run u.args m job.1 (job.2 % 2 ^ 32))

/-- A bench word done: its run at the next word since now, and its units' time charged on every stack that computed rows of it (R233, R366). -/
def benchDone (t v : State) (room kernel : Nat) (u : BenchRun) (w : BenchWord) (promo : Nat) : State :=
  (v.modKernel room kernel fun k => { k with run := some { u with next := u.next + 1, since := v.time.now, promo := u.promo + promo } }).chargeBench room
    (t.sites.map fun k => (k, t.benchCycles room k w u.args))

/-- A forest command taken from its slot's queue: the room with the rest of the queue. -/
def cmdTaken (s : State) (room : Nat) (f : Forest) (c : FCmd) : State :=
  s.setRoom room { s.room room with forest := some { f with queue := dropCmd c f.queue } }

/-- Entry and place of the next fill of a window (R268): source, length and destination. -/
def nextFill (window : Nat) (w : HaulPlan) : Nat × Nat × Nat :=
  ((w.list.getD (w.started % w.list.length) (0, 0)).1, (w.list.getD (w.started % w.list.length) (0, 0)).2, window + pageBytes + w.started % w.slots * w.slotBytes)

/-- One of the counters of dropped packets raised by 1 (Table 16.10). -/
def netCounted (s : State) (i : Nat) : State := { s with net := { s.net with counts := tmod 0 s.net.counts i fun v => v + 1 } }

/-- A packet that every check of Table 16.5 lets through to its row: the room its job is bound to, and that job. -/
def PacketPasses (s : State) (p : Pkt) (ptype r : Nat) (j : Job) : Prop :=
  p.proto = 1 ∧ p.plen = p.udp ∧ ptypeOk p.ptype = true ∧ p.ptype = ptype ∧ s.roomOfTag p.job = some (r, j) ∧
  (tget noKeys s.net.jobKeys p.job).gens.contains p.kgen = true ∧ p.auth = true ∧ rsvdSet p = false ∧ p.dst = j.rank ∧
  payloadNeed p.ptype ≤ p.payload.length ∧ p.plen ≤ 8192 ∧ p.off % 8192 = 0 ∧ flowOk p.flow = true ∧
  (∃ m, tfind j.ranks p.src = some m ∧ ∃ q, q < 24 ∧ s.caravan.addrOf m q = p.ip) ∧ p.mgen = s.caravan.generation ∧ p.incarn = j.incarn ∧ j.faulted = false

/-- The commands of the packets of a job with their types (Table 16.3). -/
def packetRows (p : Pkt) : List (Instr × Nat) := [(.data p, 1), (.ack p, 2), (.nack p, 3), (.getreq p, 4), (.refuse p, 5), (.busy p, 6)]

/-- The state in which a control message that passes its checks acts: it is counted in its sender's second (R414). -/
def ctrlSeen (s : State) (p : Pkt) : State :=
  { s with net := { s.net with ctrlIn := tset s.net.ctrlIn p.src (countSecond s.time.now (tget (s.time.now, 0) s.net.ctrlIn p.src)) } }

/-- A control message that passes every check, of one type (R390, R413, R414). -/
def CtrlPasses (s : State) (p : Pkt) (ctype : Nat) : Prop :=
  p.proto = 1 ∧ p.plen = p.udp ∧ p.ptype = 8 ∧ p.job = 0 ∧ (∃ k, tfind s.caravan.links p.src = some k ∧ k.gens.contains p.kgen = true) ∧ p.auth = true ∧
  p.pflags < 4 ∧ p.psn < 2 ^ 40 ∧ p.num 2 2 = 0 ∧ p.bodyRsvd = 0 ∧ p.dst = s.caravan.mid ∧ (ctype = 1 ∨ ∃ q, q < 24 ∧ s.caravan.addrOf p.src q = p.ip) ∧
  (p.mgen = s.caravan.generation ∨ p.src = s.caravan.giver ∨ ctype = 1 ∨ ctype = 4) ∧
  (countSecond s.time.now (tget (s.time.now, 0) s.net.ctrlIn p.src)).2 ≤ 20000 ∧
  (∃ n, ctrlBody p = some n ∧ 16 + n ≤ p.payload.length ∧ n ≤ 8176) ∧ p.ctype = ctype

/-- A message from the lease giver to this member itself. -/
def FromGiver (s : State) (p : Pkt) (ctype : Nat) : Prop :=
  CtrlPasses s p ctype ∧ s.caravan.isHead = false ∧ p.src = s.caravan.giver ∧ (s.caravan.isManager = false ∨ p.remote = s.caravan.mid)

/-- The commands of the control messages with their types (Table 17.3). -/
def ctrlRows (p : Pkt) : List (Instr × Nat) :=
  [(.admitMember p, 0x01), (.admitted p, 0x02), (.refused p, 0x03), (.renew p, 0x04), (.grant p, 0x05), (.key p, 0x06), (.gen p, 0x07), (.fence p, 0x08),
   (.probe p, 0x09), (.probeAck p, 0x0A), (.report p, 0x0B), (.leave p, 0x0C), (.rekey p, 0x0D), (.join p, 0x10), (.jobStart p, 0x11), (.map p, 0x12),
   (.barJoinMessage p, 0x14), (.release p, 0x15), (.fault p, 0x16), (.abort p, 0x17)]

/-- A fenced device (R418): no keys, no flows, no membership, no incarnation of several devices, and admission to be asked for again. -/
def Fenced (t : State) (now : Nat) : Prop :=
  t.net.jobKeys = [] ∧ t.net.flows = [] ∧ t.caravan.links = [] ∧ t.caravan.member = false ∧ t.caravan.members = [] ∧ t.caravan.maps = [] ∧
  t.caravan.bars = [] ∧ t.caravan.retryAt = some now ∧ ∀ r j, r < 64 → (t.room r).job = some j → j.devices ≤ 1

/-- A message that passes its checks at the lease giver of its sender (R415). -/
def FromMember (s : State) (p : Pkt) (ctype : Nat) : Prop := CtrlPasses s p ctype ∧ s.gives p.src = true
/-- The ranks whose joins a barrier lacks at its timeout: a manager's join speaks for its caravan (R425). -/
def missingRanks (h : HeadJob) (b : BarCount) : List Nat :=
  (h.map.filter fun e => !(b.entries.any fun x => x.mid = (if managerOf e.2 = 0 then e.2 else managerOf e.2))).map (·.1)

/-- Whether a WAIT of a core of a room has lasted the barrier timeout (R424). -/
def waitsLate (s : State) (room : Nat) : Bool :=
  s.cores.any fun c => (c.2.ctx room).any fun y => y.waitAt.any fun t => decide (t + s.caravan.barrierNs ≤ s.time.now)

/-- What holds a barrier of a job back (R318, R352, R423). -/
def BarHeld (s : State) (room : Nat) (j : Job) : Prop :=
  j.faulted = true ∨ j.waiting = true ∨ j.unitsIn = false ∨ s.joinHeld room j.epoch = true ∨ s.paced room j.epoch = true
/-- The management requests that check a role: who asks, the roles that may (1 operator, 2 installer, 3 maker), and whether a full log lets them through (R449, R452). -/
def requestOf : Instr → Option (Who × List Nat × Bool)
  | .auditRead w _ => some (w, [1, 2, 3], true)
  | .healthRead w _ => some (w, [1, 2, 3], true)
  | .auditAck w _ => some (w, [2], true)
  | .reboot w => some (w, [1, 2], false)
  | .roomSec w _ _ _ _ => some (w, [1, 2], false)
  | .setNet w _ => some (w, [2], false)
  | .setServers w _ => some (w, [2], false)
  | .setCa w _ => some (w, [2], false)
  | .setCaravan w _ => some (w, [2], false)
  | .clearLaggard w _ => some (w, [2], false)
  | .removeMember w _ => some (w, [2], false)
  | .addOperator w _ => some (w, [2], false)
  | .delOperator w _ => some (w, [2], false)
  | .addInstaller w _ => some (w, [2], false)
  | .delInstaller w _ => some (w, [2], false)
  | .releaseClaim w => some (w, [2], false)
  | .svnCommit w _ => some (w, [2], false)
  | .repairFuse w _ _ => some (w, [3], false)
  | .retire w _ => some (w, [2, 3], false)
  | .debugAllow w _ => some (w, [2], false)
  | .debug w _ _ => some (w, [3], false)
  | _ => none

/-- A request that the strongroom serves: standby power, a claimed device, a role that may, and room in the log (R448 to R452). -/
def RequestServed (s : State) (c : Instr) (w : Who) : Prop :=
  ∃ roles reads, requestOf c = some (w, roles, reads) ∧ s.module.standby = true ∧ s.sec.installers ≠ [] ∧ (s.roleOf w).1 ∈ roles ∧ (s.sec.logFull = false ∨ reads = true)

/-- A request answered with one code and body. -/
def Answered (s t : State) (code : Nat) (body : List Byte) : Prop := t.out = s.out ++ [.response code body] ∧ t.rooms = s.rooms

end Sys2Proof.Obl
end

