-- ==== Sys2Proof/Certificates/Slice0/Obligations.lean ====
section
/-! DEFINITION. The statements about the block that the provers prove: each names the rule of the spec or the section it rests on. -/

section

open Sys2Proof Sys2Proof.Machine Sys2Proof.Obl

/-- For every command c, every state s and every rest of the queue: the step of s with c at the front of its queue is exec of c on s with that rest as its queue. The per-command statements reach a run through this one. (Derived from spec/95_what_each_step_holds.md.) -/
def Obligations.StepRunsTheFrontCommand : Prop :=
  ∀ (c : Instr) (rest : List Instr) (s : State), step { s with pending := c :: rest } = exec c { s with pending := rest }

/-- With no command waiting a step answers a next state that agrees with the state in every part but the timebase, which has moved on by a tick: device time is later, by one nanosecond exactly unless a step of the time falls due (R433), and what is left of a phase error goes on being slewed. The tick is the model's own choice (DESIGN CHOICE, log entry 4): the spec gives the device a time in nanoseconds (R432) and no command for its passing. (Derived from R432, R433.) -/
def Obligations.EmptyQueueTicks : Prop :=
  ∀ s : State, s.pending = [] →
    ∃ t, step s = .next t ∧ s.time.now < t.time.now ∧ (s.time.stepAt = none → t.time.now = s.time.now + 1) ∧
      t = { s with time := { s.time with now := t.time.now, slew := t.time.slew, stepAt := t.time.stepAt } }

/-- For every command and every state exec answers a next state, and so does every step; no command ends in a fault or a refusal. Every error that the spec names is an effect on the state (a completion record, a job fault, a counter, an alarm). (Derived from spec/23_status_and_fault_codes.md, spec/95_what_each_step_holds.md.) -/
def Obligations.EveryCommandAnswers : Prop :=
  (∀ (c : Instr) (s : State), ∃ t, exec c s = .next t) ∧ ∀ s : State, ∃ t, step s = .next t

/-- Whatever the command, if a step answers a next state, that state's queue is the queue without its first command (an empty queue stays empty): commands are taken first in, first out, and no command adds to, drops from or reorders the queue. (Derived from spec/95_what_each_step_holds.md.) -/
def Obligations.StepTakesExactlyOneCommand : Prop :=
  ∀ s t : State, step s = .next t → t.pending = s.pending.drop 1

/-- If host memory, the device memory of every room, the store of every core and the common store of every die are in canonical form (addresses strictly rising, no entry equal to what an unlisted address reads as), and a step answers a next state, then they all are in that state too. So equal memory contents are equal data in every run. (Derived from spec/10_memory_tiers_and_haulage.md, R51, R303.) -/
def Obligations.StepKeepsTheMemoriesCanonical : Prop :=
  ∀ s t : State, s.MemoryWf → step s = .next t → t.MemoryWf

/-- State.reset has its memories in canonical form, an empty queue, no VF counted, and an empty audit log whose sequence number is 0. (Derived from R451, R328.) -/
def Obligations.ResetMeetsTheInvariants : Prop :=
  State.reset.MemoryWf ∧ State.reset.pending = [] ∧ State.reset.numVfs ≤ 63 ∧ State.reset.sec.log = [] ∧ State.reset.sec.nextSeq = 0

/-- If a step answers a next state, whatever the command (a fuse request, a boot, a reset or the loss of standby power): every fuse bit that is 1 is 1 in that state; the sequence number of the next audit record is at least what it was, so that no number is used a second time; and a NumVFs of at most 63 stays at most 63. (Derived from R328, R451, R455, R458.) -/
def Obligations.FlashAndFusesNeverGoBack : Prop :=
  ∀ s t : State, step s = .next t →
    (∀ w i, bit (tget 0 s.sec.fuses w) i = true → bit (tget 0 t.sec.fuses w) i = true) ∧
    s.sec.nextSeq ≤ t.sec.nextSeq ∧ (s.numVfs ≤ 63 → t.numVfs ≤ 63)

/-- A core's next word is n exactly when: the selected room is n's room and holds the context n.ctx; the room may be served on the core; the context is neither stopped nor at the barrier; the room runs its steps and the physical core runs; the word and its length are the ones fetched from the pinned image at the context's position; no earlier word is in flight where the word waits for all of them; no SHAPE in flight writes a shape register that the word names; and neither an UNFOLD issues over an UNFOLD in flight nor a VECTOR word over a VECTOR word. Of SYNC words, those with dep, STEP_BARRIER and SET are the ones that wait for every earlier word. A room may be served on a core where no slot that is in force claims the core, where the slot is its own, or where the slot lends and its owner has no ready word. (Derived from R79, R80, R86, R108, R353, R427.) -/
def Obligations.NextWordIsTheOneThatMayIssue : Prop :=
  (∀ (s : State) (core : Nat) (n : Next), s.nextWord core = some n ↔
    (s.core core).sel = some n.room ∧ (s.core core).ctx n.room = some n.ctx ∧ s.mayServe core n.room = true ∧
    n.ctx.stopped = false ∧ n.ctx.atBarrier = false ∧ (s.room n.room).running = true ∧ s.coreOn core = true ∧
    n.slot = n.ctx.wordAt.2 ∧ fetchWord (s.room n.room).mem.data n.ctx.wordAt.1 = some (n.word, n.len) ∧
    (n.word.waits = true → n.ctx.flights = []) ∧
    (∀ f ∈ n.ctx.flights, f.kind = .shape → f.sreg ∉ n.word.sregs) ∧
    (∀ w, n.word = .unfold w → ∀ f ∈ n.ctx.flights, f.kind ≠ .unfold) ∧
    ∀ w, n.word = .vector w → ∀ f ∈ n.ctx.flights, f.kind ≠ .vector) ∧
  (∀ w : SyncWord, (Word.sync w).waits = true ↔ w.dep = true ∨ w.op = 0 ∨ w.op = 1) ∧
  ∀ (s : State) (core r : Nat), s.mayServe core r = true ↔
    s.slotOwner core = none ∨ ∃ o lend, s.slotOwner core = some (o, lend) ∧ (o = r ∨ (lend = true ∧ s.ctxReady core o = false))

/-- Where a MATRIX word stands next on a core and the shape read at issue is within its declared maximum and not empty, MATRIX answers a next state in which the word is in flight with the outputs of the tile at that shape, under the precision mode in force, on the store and banks at issue; every array of its plan is awake; and each bank the tile starts as RESIDENT has its words latched into its shadow. Its outputs, and its banks' residence, wait for the verdict: store, bank words and residence are as they were, the other contexts and cores are as they were, and elsewhere only accounting leaves a trace (ledgers, stall counters, virtual times, the count of late slots). (Derived from R67, R68, R79, R82, R86, R360, R380.) -/
def Obligations.MatrixWordIssues : Prop :=
  ∀ (s : State) (core : Nat) (n : Next) (w : MatrixWord), s.nextWord core = some n → n.word = .matrix w →
    w.shapeBound (w.shapeAt n.ctx.sregVal) = false → (w.shapeAt n.ctx.sregVal).empty = false →
    ∃ t f, exec (.matrix core) s = .next t ∧ Issued s t core n f ∧ f.kind = .matrix ∧ f.slot = n.slot ∧ f.marks = w.marks ∧
      f.attempt = 1 ∧
      f.out = w.run ((s.room n.room).cvtOf w.tag w.cvt) (s.regionOf core n.room) (s.core core).banks (w.shapeAt n.ctx.sregVal)
        (s.room n.room).seedOf n.ctx.stepNo ∧
      (∀ a, a < w.a * w.b * w.s → a ∈ (t.core core).awake) ∧
      ∀ k, w.init = 1 → k ∈ w.namedBanks → (tget Bank.free (t.core core).banks k).shadow = (tget Bank.free (s.core core).banks k).words

/-- For every VECTOR operation of Table 4.2: where a VECTOR word of that operation stands next on a core and the rows and columns read at issue are within the declared maximum and neither is 0, the operation's command answers a next state in which the word is in flight with the outputs of that operation, under the precision mode in force, on the store and banks at issue; a word that reads and writes banks has them latched into their shadows. Store, bank words and residence are as they were, and elsewhere only accounting leaves a trace. (Derived from R67, R79, R86, R103, R111, R380.) -/
def Obligations.VectorWordsIssue : Prop :=
  ∀ (s : State) (core : Nat) (n : Next) (w : VectorWord) (c : Instr), s.nextWord core = some n → n.word = .vector w →
    (w.op, c) ∈ vectorOps core → w.shapeBound (w.rowsAt n.ctx.sregVal) (w.colsAt n.ctx.sregVal) = false →
    0 < w.rowsAt n.ctx.sregVal → 0 < w.colsAt n.ctx.sregVal →
    ∃ t f, exec c s = .next t ∧ Issued s t core n f ∧ f.kind = .vector ∧ f.slot = n.slot ∧ f.marks = w.marks ∧ f.attempt = 1 ∧
      f.out = { w with cvt := (s.room n.room).cvtOf w.tag w.cvt }.run ((s.room n.room).cvtOf w.tag w.cvt) (s.regionOf core n.room)
        (s.core core).banks (w.rowsAt n.ctx.sregVal) (w.colsAt n.ctx.sregVal) (s.room n.room).seedOf n.ctx.stepNo ∧
      ∀ k, w.xb = true → w.zb = true → k ∈ w.namedBanks →
        (tget Bank.free (t.core core).banks k).shadow = (tget Bank.free (s.core core).banks k).words

/-- Where an UNFOLD word stands next on a core, UNFOLD answers a next state with the word in flight, its row writes computed on the store at issue. Where a SHAPE word stands next, SHAPE answers a next state with the word in flight, holding its register and its value: the operand (source 0), the u32 of the room's store at the operand (source 1), or the launch argument of that number (source 2). Store, banks and shape registers are as they were, and elsewhere only accounting leaves a trace. (Derived from R79, R93, R150, R155.) -/
def Obligations.UnfoldAndShapeWordsIssue : Prop :=
  (∀ (s : State) (core : Nat) (n : Next) (w : UnfoldWord), s.nextWord core = some n → n.word = .unfold w →
    ∃ t f, exec (.unfold core) s = .next t ∧ Issued s t core n f ∧ f.kind = .unfold ∧
      f.out = { TileOut.none with writes := w.run (s.regionOf core n.room) }) ∧
  ∀ (s : State) (core : Nat) (n : Next) (w : ShapeWord) (j : Job), s.nextWord core = some n → n.word = .shape w →
    (s.room n.room).job = some j →
    ∃ t f, exec (.shape core) s = .next t ∧ Issued s t core n f ∧ f.kind = .shape ∧ f.sreg = w.sreg ∧
      (w.src = 0 → f.value = w.operand) ∧ (w.src = 1 → f.value = memNat (s.regionOf core n.room) w.operand 4) ∧
      (w.src = 2 → f.value = j.args.getD w.operand 0)

/-- Where a MATRIX or a VECTOR word stands next and a shape value read at issue breaks its declared maximum (or the block length or packing rule of R87), the command answers the state in which only the job fault SHAPE_BOUND has been raised in the core's room, at its physical core's unit: the word is not issued. Where the shape is within bounds but empty, the word completes at issue: the context has moved past it and its residence marks are applied, and no word is in flight for it. (Derived from R87, R86.) -/
def Obligations.ShapeBoundStopsTheWord : Prop :=
  ∀ (s : State) (core : Nat) (n : Next), s.nextWord core = some n →
    (∀ w, n.word = .matrix w →
      (w.shapeBound (w.shapeAt n.ctx.sregVal) = true → exec (.matrix core) s = .next (s.raiseFault n.room Code.shapeBound (s.physUnit core))) ∧
      (w.shapeBound (w.shapeAt n.ctx.sregVal) = false → (w.shapeAt n.ctx.sregVal).empty = true →
        exec (.matrix core) s = .next (((s.passWord core n).modCore core fun c => c.mark w.marks).refresh core))) ∧
    ∀ w c, n.word = .vector w → (w.op, c) ∈ vectorOps core →
      (w.shapeBound (w.rowsAt n.ctx.sregVal) (w.colsAt n.ctx.sregVal) = true → exec c s = .next (s.raiseFault n.room Code.shapeBound (s.physUnit core))) ∧
      (w.shapeBound (w.rowsAt n.ctx.sregVal) (w.colsAt n.ctx.sregVal) = false → (w.rowsAt n.ctx.sregVal = 0 ∨ w.colsAt n.ctx.sregVal = 0) →
        exec c s = .next (((s.passWord core n).modCore core fun c => c.mark w.marks).refresh core))

/-- Where f is the first MATRIX or VECTOR word from a slot (for TILE_VERDICT), or the first UNFOLD word (for UNFOLD_COMPLETE), in flight in a core's selected context, the command answers a next state in which: f is no longer in flight and the other words are, in their order; the room's region of the store holds f's writes, made in their order at the context's base; the banks hold f's bank words and then its residence marks; busy and nominal cycles are added to the context's step; the unit's saturation and NaN-drop counters rise by f's counts, and its corrected-error counter by the single-bit errors that the word's reads met; and the room is charged the core's time since its last charge. No other core and no other context changes, and elsewhere only accounting and the record of corrected errors leave a trace. (Derived from R52, R67, R79, R85, R154, R366, R382, R384, R494.) -/
def Obligations.WordsCompleteWithTheirWrites : Prop :=
  ∀ (s : State) (core slot r : Nat) (ran : Ran) (x : Ctx) (c : Instr) (p : Flight → Bool) (a b : List Flight) (f : Flight),
    (c, p) ∈ [(Instr.tileVerdict ⟨core, slot⟩ ran, Flight.wordAt slot), (.unfoldComplete core ran, fun f => f.kind = .unfold)] →
    (s.core core).sel = some r → (s.core core).ctx r = some x → OldestOf p x.flights a f b →
    ∃ t, exec c s = .next t ∧
      ctxOn t core r = some (plainCtx { x with flights := a ++ b, busy := x.busy + ran.cycles, nominal := x.nominal + f.nominal }) ∧
      (t.core core).store = rowsWritten (s.core core).store x.storeBase f.out.writes ∧
      (t.core core).banks = ({ s.core core with banks := bankWords (s.core core).banks f.out.banks }.mark f.marks).banks ∧
      (∀ q, q ≠ r → ctxOn t core q = ctxOn s core q) ∧ (∀ q, q ≠ core → t.core q = s.core q) ∧
      unitCount t (s.physUnit core) 5 = sat64 (unitCount s (s.physUnit core) 5 + f.out.accSat) ∧
      unitCount t (s.physUnit core) 6 = sat64 (unitCount s (s.physUnit core) 6 + f.out.cvtSat) ∧
      unitCount t (s.physUnit core) 7 = sat64 (unitCount s (s.physUnit core) 7 + f.out.nanDrop) ∧
      (0 < ran.corrected → unitCount t (s.physUnit core) 0 = sat64 (unitCount s (s.physUnit core) 0 + ran.corrected)) ∧
      tget 0 (t.room r).ledger.counts 5 = sat64 (tget 0 (s.room r).ledger.counts 5 + (s.time.now - (s.core core).chargedAt)) ∧
      ∃ u, u = s.corrected (s.physUnit core) (s.physUnit core) ran.corrected ∧
        Booked { u with cores := t.cores, health := { u.health with counts := t.health.counts } } t

/-- Where f is the first SHAPE word from a slot in flight in a core's selected context, SHAPE_COMPLETE answers a next state in which f is no longer in flight and its register holds its value; nothing else changes but what accounting notes. Where f is the first MOVE word from a slot in flight there, its room runs and may be served on the core, and its rows read no cellar page of the half named, MOVE_COMPLETE makes the rows that f has still to make, in their order, as far as they get: a row that fails has its code raised as a job fault of the core's unit; where a row waits, f stays in flight with the rows done; after the last row f is no longer in flight and, for a MOVE into another core's store, the counter it names on that core's context of the room rises by 1. A one-row MOVE from the own store to the own store, or to another core that holds a context of the room, writes exactly the row's bytes, as the room's region held them, and no other byte; the other core's counter then has risen by 1 modulo 2^32. Errors of a cellar half that the rows read are counted, and an uncorrectable one is the job fault CELLAR_UE. (Derived from R91, R92, R93, R198, R250, R282, R358, R549.) -/
def Obligations.ShapeAndMoveComplete : Prop :=
  (∀ (s : State) (core slot r : Nat) (x : Ctx) (a b : List Flight) (f : Flight), (s.core core).sel = some r → (s.core core).ctx r = some x →
    OldestOf (fun f => decide (f.kind = .shape) && decide (f.slot = slot)) x.flights a f b →
    ∃ t, exec (.shapeComplete ⟨core, slot⟩) s = .next t ∧
      ctxOn t core r = some (plainCtx { x with flights := a ++ b, shape := tset x.shape f.sreg f.value }) ∧
      (∀ q, q ≠ r → ctxOn t core q = ctxOn s core q) ∧ (t.core core).store = (s.core core).store ∧ (t.core core).banks = (s.core core).banks ∧
      (∀ q, q ≠ core → t.core q = s.core q) ∧ Booked s t) ∧
  (∀ (s : State) (core slot r : Nat) (e : CellarRead) (x : Ctx) (a b : List Flight) (f : Flight) (w : MoveWord) (y : MoveRun),
    (s.core core).sel = some r → (s.core core).ctx r = some x → OldestOf (Flight.moveAt slot) x.flights a f b → f.move = some w →
    s.mayServe core r = true → (s.room r).running = true →
    (s.readsHalf r w e.half = false → y = (s.account core).moveRows core r w f →
      (∀ c, y.stop = some (some c) → exec (.moveComplete ⟨core, slot, e⟩) s = .next (y.s.raiseFault r c (s.physUnit core))) ∧
      (y.stop = some none → exec (.moveComplete ⟨core, slot, e⟩) s = .next (y.s.modCtx core r fun x => { x with
        flights := x.flights.map fun g => if g.moveAt slot then { g with rows := y.rows, blocks := y.blocks } else g })) ∧
      (y.stop = none → w.dstSp ≠ 2 → exec (.moveComplete ⟨core, slot, e⟩) s =
        .next ((y.s.modCtx core r fun x => { x with flights := a ++ b }).refresh core)) ∧
      (y.stop = none → w.dstSp = 2 → exec (.moveComplete ⟨core, slot, e⟩) s =
        .next (((y.s.modCtx core r fun x => { x with flights := a ++ b }).refresh core).postCounter r w.peer w.ctr 1 0))) ∧
    (s.readsHalf r w e.half = true → e.bad = true → exec (.moveComplete ⟨core, slot, e⟩) s =
      .next (((s.account core).cellarErrs e).raiseFault r Code.cellarUe (cellarUnit e.half)))) ∧
  ∀ (s : State) (core slot r : Nat) (e : CellarRead) (x : Ctx) (a b : List Flight) (f : Flight) (w : MoveWord), (s.core core).sel = some r →
    (s.core core).ctx r = some x → OldestOf (Flight.moveAt slot) x.flights a f b → f.move = some w → s.mayServe core r = true →
    (s.room r).running = true → w.srcSp = 0 → w.uadd = false → w.rows = 1 → f.rows = 0 →
    (w.dstSp = 0 → ∃ t, exec (.moveComplete ⟨core, slot, e⟩) s = .next t ∧
      (t.core core).store = memWriteN (s.core core).store (x.storeBase + w.dst) (memReadN (s.regionOf core r) w.src w.rowBytes) ∧
      ctxOn t core r = some (plainCtx { x with flights := a ++ b }) ∧ (∀ q, q ≠ core → t.core q = s.core q) ∧ Booked s t) ∧
    (w.dstSp = 2 → w.peer ≠ core → w.peer < 256 → ∀ y, (s.core w.peer).ctx r = some y → ∃ t, exec (.moveComplete ⟨core, slot, e⟩) s = .next t ∧
      (t.core core).store = (s.core core).store ∧ ctxOn t core r = some (plainCtx { x with flights := a ++ b }) ∧
      (t.core w.peer).store = memWriteN (s.core w.peer).store (y.storeBase + w.dst) (memReadN (s.regionOf core r) w.src w.rowBytes) ∧
      ctxOn t w.peer r = some (plainCtx { y with
        sync := tset y.sync w.ctr ((tget 0 y.sync w.ctr + 1) % 2 ^ 32)
        posters := tset y.posters w.ctr (0, 0) }) ∧
      (∀ q, q ≠ core → q ≠ w.peer → t.core q = s.core q) ∧ Booked s t)

/-- Where a MOVE word stands next on a core, MOVE answers a next state in which the word is in flight with its rows still to make and its requests by R549, no byte of any memory has changed, and, where its writes are unordered adds, the room's waiver bit for them is set. A row of a MOVE reads the bytes of its source, row after row by the source pitch, and writes them at its destination by the destination pitch; a row between core stores and common stores always gets made. (Derived from R11, R79, R91, R549.) -/
def Obligations.MoveWordsRun : Prop :=
  (∀ (s : State) (core : Nat) (n : Next) (w : MoveWord), s.nextWord core = some n → n.word = .move w →
    ∃ t f, exec (.move core) s = .next t ∧ Issued s t core n f ∧ f.kind = .move ∧ f.slot = n.slot ∧ f.move = some w ∧ f.rows = 0 ∧
      f.requests = w.requests ∧ (w.uadd = true → bit (t.room n.room).ledger.waiver 0 = true)) ∧
  ∀ (core r : Nat) (w : MoveWord) (x : MoveRun), x.stop = none → w.srcSp < 3 → w.dstSp < 3 → w.uadd = false →
    ∃ bytes, x.s.rowRead core r w (w.src + x.rows * w.srcPitch) = .ok bytes ∧ bytes.length = w.rowBytes ∧
      (State.moveRow core r w x).stop = none ∧ (State.moveRow core r w x).rows = x.rows + 1 ∧
      (w.dstSp = 0 → (State.moveRow core r w x).s.cores = (x.s.storeWrite core r (w.dst + x.rows * w.dstPitch) bytes).cores) ∧
      (w.dstSp = 2 → (State.moveRow core r w x).s.cores = (x.s.storeWrite w.peer r (w.dst + x.rows * w.dstPitch) bytes).cores) ∧
      (w.dstSp = 1 → (State.moveRow core r w x).s.commonOf (coreDie core) =
        memWriteN (x.s.commonOf (coreDie core)) ((x.s.room r).commonBase (coreDie core) + (w.dst + x.rows * w.dstPitch)) bytes)

/-- Where f is the one MATRIX or VECTOR word from a slot in flight in a core's selected context: if the context has no detected error yet, DETECTED_ERROR answers the state in which each bank f latched has its shadow's words back, every other bank word and the store are as they were, f is in flight with one attempt more and its watchdog's time from now, the context has one detected error, and the unit's residue (2) or parity (3) counter and its retry counter (4) have risen by 1; nothing else changes: no other word in flight is retried. If the context has one already, the physical core is marked failed, a health record is written and the job fault CORE_RETIRED is raised. (Derived from R66, R69, R70, R96, R111, R494.) -/
def Obligations.FirstDetectedErrorRetriesTheTile : Prop :=
  ∀ (s : State) (core slot r : Nat) (parity : Bool) (x : Ctx) (a b : List Flight) (f : Flight), (s.core core).sel = some r →
    (s.core core).ctx r = some x → OldestOf (Flight.wordAt slot) x.flights a f b → (∀ g ∈ b, g.wordAt slot = false) →
    (x.errors = 0 → ∃ t, exec (.detectedError ⟨core, slot⟩ parity) s = .next t ∧
      (t.core core).ctx r = some { x with errors := 1, flights := a ++ { f with attempt := f.attempt + 1, issued := s.time.now } :: b } ∧
      (∀ k, k ∈ f.latched → (tget Bank.free (t.core core).banks k).words = (tget Bank.free (s.core core).banks k).shadow) ∧
      (∀ k, k ∉ f.latched → tget Bank.free (t.core core).banks k = tget Bank.free (s.core core).banks k) ∧
      (t.core core).store = (s.core core).store ∧ (∀ q, q ≠ r → (t.core core).ctx q = (s.core core).ctx q) ∧
      (∀ q, q ≠ core → t.core q = s.core q) ∧
      unitCount t (s.physUnit core) (if parity then 3 else 2) = sat64 (unitCount s (s.physUnit core) (if parity then 3 else 2) + 1) ∧
      unitCount t (s.physUnit core) 4 = sat64 (unitCount s (s.physUnit core) 4 + 1) ∧
      t = { s with cores := t.cores, health := { s.health with counts := t.health.counts } }) ∧
    (0 < x.errors → exec (.detectedError ⟨core, slot⟩ parity) s =
      .next ((({ s.count (s.physUnit core) (if parity then 3 else 2) 1 with health :=
        { (s.count (s.physUnit core) (if parity then 3 else 2) 1).health with marks := tset s.health.marks (s.physUnit core) .failed } }).healthRecord
          2 Code.coreRetired (s.physUnit core) r 0).raiseFault r Code.coreRetired (s.physUnit core)))

/-- On a core whose selected context's room runs its steps: BANK_PARITY_OUTSIDE_WORD, as the incarnation's first detected error, counts it at the unit and in the context and raises CORE_PARITY; as its second it takes the core out of service (marked failed, CORE_RETIRED). STORE_DOUBLE_BIT_ERROR, with a word in flight, counts it and raises CORE_UE. TILE_WATCHDOG, with a word in flight that was issued 102,400 core cycles ago or more, other than a MOVE whose room may not be served or that waits on a direct read of the cellar, counts it and raises CORE_WATCHDOG; with no such word it changes nothing. Each answers exactly that state. (Derived from R52, R70, R71, R96, R358, R494.) -/
def Obligations.CoreFaultsOutsideAVerdict : Prop :=
  ∀ (s : State) (core r : Nat) (x : Ctx), s.roomOn core = some r → (s.core core).ctx r = some x →
    (x.errors = 0 → exec (.bankParityOutsideWord core) s =
      .next (((s.count (s.physUnit core) 3 1).setCore core ((s.core core).setCtx r { x with errors := 1 })).raiseFault r Code.coreParity (s.physUnit core))) ∧
    (0 < x.errors → exec (.bankParityOutsideWord core) s = .next ((s.count (s.physUnit core) 3 1).retireCore core r)) ∧
    (x.flights ≠ [] → exec (.storeDoubleBitError core) s =
      .next ((s.count (s.physUnit core) 1 1).raiseFault r Code.coreUe (s.physUnit core))) ∧
    ((∃ f ∈ x.flights, f.issued + s.coreNs core 102400 ≤ s.time.now ∧
        (f.kind = .move → s.mayServe core r = true ∧ s.moveCause r f ≠ directRead)) → exec (.tileWatchdog core) s =
      .next ((s.count (s.physUnit core) 15 1).raiseFault r Code.coreWatchdog (s.physUnit core))) ∧
    ((∀ f ∈ x.flights, s.time.now < f.issued + s.coreNs core 102400) → exec (.tileWatchdog core) s = .next s)

/-- Where a SYNC word stands next: as STEP_BARRIER it answers a state in which the context has moved past it and stands at the barrier since the time of the command, and the job has the core among those joined and the time of its first join. As SET to a peer's context it has moved past the word and added the value, modulo 2^32, to the peer's counter. As WAIT whose counter holds at least the value, it has moved past the word and subtracted the value; whose counter holds less, the context stays at the word and holds the time at which the wait began. (Derived from R79, R94, R264, R423, R424.) -/
def Obligations.SyncWordsJoinCountAndWait : Prop :=
  ∀ (s : State) (core : Nat) (n : Next) (w : SyncWord) (j : Job), s.nextWord core = some n → n.word = .sync w →
    (s.room n.room).job = some j →
    (w.op = 0 → ∃ t k, exec (.stepBarrier core) s = .next t ∧
      ctxOn t core n.room = some (plainCtx { n.ctx.advance n.len with atBarrier := true, joinedAt := some s.now }) ∧
      (t.room n.room).job = some k ∧ core ∈ k.joined ∧ (∀ c, c ∈ k.joined ↔ c = core ∨ c ∈ j.joined) ∧
      k.firstJoin = some (j.firstJoin.getD s.now) ∧ k = { j with joined := k.joined, firstJoin := k.firstJoin } ∧
      (∀ q, q ≠ n.room → ctxOn t core q = ctxOn s core q) ∧ (t.core core).store = (s.core core).store ∧ (t.core core).banks = (s.core core).banks ∧
      (∀ c, c ≠ core → t.core c = s.core c) ∧ Booked (s.setRoom n.room { s.room n.room with job := some k }) t) ∧
    (w.op = 1 → exec (.set core) s = .next (((s.passWord core n).postCounter n.room w.peer w.ctr w.value 0).refresh core)) ∧
    (w.op = 1 → ∀ y, w.peer < 256 → w.peer ≠ core → (s.core w.peer).ctx n.room = some y → ∃ t, exec (.set core) s = .next t ∧
      ctxOn t w.peer n.room = some (plainCtx { y with
        sync := tset y.sync w.ctr ((tget 0 y.sync w.ctr + w.value) % 2 ^ 32), posters := tset y.posters w.ctr (0, 0) }) ∧
      ctxOn t core n.room = some (plainCtx (n.ctx.advance n.len)) ∧ (∀ c, c ≠ core → c ≠ w.peer → t.core c = s.core c) ∧ Booked s t) ∧
    (w.op = 2 → w.value ≤ tget 0 n.ctx.sync w.ctr → ∃ t, exec (.syncWait core) s = .next t ∧
      ctxOn t core n.room = some (plainCtx { n.ctx.advance n.len with
        sync := tset n.ctx.sync w.ctr (tget 0 n.ctx.sync w.ctr - w.value), waitAt := none }) ∧
      (∀ q, q ≠ n.room → ctxOn t core q = ctxOn s core q) ∧ (∀ c, c ≠ core → t.core c = s.core c) ∧ Booked s t) ∧
    (w.op = 2 → tget 0 n.ctx.sync w.ctr < w.value → exec (.syncWait core) s =
      .next (s.setCore core ((s.core core).setCtx n.room { n.ctx with waitAt := some (n.ctx.waitAt.getD s.now) })))

/-- SLOT_START of a valid entry within the active table that is not running, at its start in a frame and not before a staged schedule that falls due, answers a state in which the entry runs, device time has moved on to the slot's start, and the contexts of the entry's room on exactly the cores of the entry are due a word from then. SLOT_END of a running entry, at its end in a frame, answers a state in which the entry no longer runs. Both charge the entry's cores up to then, and change no store, bank or other core. At another time they change nothing but device time. ARRAY_IDLE of an array that no MATRIX word in flight on the core uses answers the state in which that array alone is no longer awake. (Derived from R61, R349, R353, R360, R361, R366.) -/
def Obligations.SlotsHandCoresToTheirRoom : Prop :=
  (∀ (s : State) (entry at_ e : Nat), e = s.entry entry → s.time.now ≤ at_ → s.frameDue at_ = false → entValid e = true →
    entry < s.sched.active.nent → entry ∉ s.sched.running → 0 < s.frameNs → at_ % s.frameNs = 1000 * entStart e →
    ∃ t, exec (.slotStart entry at_) s = .next t ∧ t.sched.running = entry :: s.sched.running ∧ t.time = (s.upto at_).time ∧
      (∀ c ∈ entCores e, ∀ x, (s.core c).ctx (entRoom e) = some x → (t.core c).ctx (entRoom e) = some { x with due := some t.time.now }) ∧
      (∀ c ∈ entCores e, (t.core c).store = (s.core c).store ∧ (t.core c).banks = (s.core c).banks ∧ (t.core c).sel = (s.core c).sel ∧
        ∀ q, q ≠ entRoom e → (t.core c).ctx q = (s.core c).ctx q) ∧
      (∀ c, c ∉ entCores e → t.core c = s.core c) ∧
      Booked { s with time := t.time, sched := { s.sched with running := t.sched.running } } t) ∧
  (∀ (s : State) (entry at_ e : Nat), e = s.entry entry → s.time.now ≤ at_ → entry ∈ s.sched.running → 0 < s.frameNs →
    at_ % s.frameNs = 1000 * (entStart e + entLen e) % s.frameNs →
    ∃ t, exec (.slotEnd entry at_) s = .next t ∧ (∀ i, i ∈ t.sched.running ↔ i ∈ s.sched.running ∧ i ≠ entry) ∧ t.time = (s.upto at_).time ∧
      (∀ c, (t.core c).store = (s.core c).store ∧ (t.core c).banks = (s.core c).banks ∧ (t.core c).ctxs = (s.core c).ctxs) ∧
      (∀ c, c ∉ entCores e → t.core c = s.core c) ∧
      Booked { s with time := t.time, sched := { s.sched with running := t.sched.running } } t) ∧
  (∀ (s : State) (entry at_ : Nat),
    ((at_ < s.time.now ∨ entry ∈ s.sched.running ∨ at_ % s.frameNs ≠ 1000 * entStart (s.entry entry)) → exec (.slotStart entry at_) s = .next (s.upto at_)) ∧
    ((at_ < s.time.now ∨ entry ∉ s.sched.running ∨ at_ % s.frameNs ≠ 1000 * (entStart (s.entry entry) + entLen (s.entry entry)) % s.frameNs) →
      exec (.slotEnd entry at_) s = .next (s.upto at_))) ∧
  ∀ (s : State) (core array : Nat), (∀ x ∈ (s.core core).ctxs, ∀ f ∈ x.2.flights, f.kind = .matrix → f.value ≤ array) →
    ∃ t, exec (.arrayIdle core array) s = .next t ∧ (∀ a, a ∈ (t.core core).awake ↔ a ∈ (s.core core).awake ∧ a ≠ array) ∧
      t = { s with cores := tset s.cores core { s.core core with awake := (t.core core).awake } }

/-- On a core that serves room o and whose arbitration picks room r, whose outgoing context has no word in flight other than MOVE words, CONTEXT_SWITCH answers a next state in which the core serves r since the time of the command; its banks are those saved in r's context (free banks where none are saved); o's context holds the banks the core had; r's context holds no saved banks; r is charged the switch's time (438 ns where banks are restored, 273 where not) and the switch is counted. The store, every other context and every other core are as they were. Arbitration picks the owner of the slot in force, unless the slot lends and its owner has no ready word; with no slot, a room that held the core for less than 200 us keeps it while it has a ready word, and otherwise a ready room of least virtual time gets it. (Derived from R347, R353, R354, R356, R357, R366.) -/
def Obligations.ContextSwitchSavesAndRestores : Prop :=
  (∀ (s : State) (core o r : Nat) (x y : Ctx), (s.core core).sel = some o → o ≠ r → (s.core core).ctx o = some x → (s.core core).ctx r = some y →
    s.pickRoom core = some r → (∀ f ∈ x.flights, f.kind = .move) →
    ∃ t, exec (.contextSwitch core) s = .next t ∧ (t.core core).sel = some r ∧ (t.core core).since = s.now ∧
      (t.core core).banks = y.saved.getD [] ∧ (t.core core).store = (s.core core).store ∧
      ctxOn t core o = some (plainCtx { x with saved := some (s.core core).banks }) ∧ ctxOn t core r = some (plainCtx { y with saved := none }) ∧
      (∀ q, q ≠ o → q ≠ r → ctxOn t core q = ctxOn s core q) ∧ (∀ q, q ≠ core → t.core q = s.core q) ∧
      tget 0 (t.room r).ledger.counts 5 = sat64 (tget 0 (s.room r).ledger.counts 5 + if y.saved.isSome then 438 else 273) ∧
      Booked { s with sched := { s.sched with switches := s.sched.switches + 1 } } t) ∧
  (∀ (s : State) (core o : Nat) (lend : Bool), s.slotOwner core = some (o, lend) → (lend = false ∨ s.ctxReady core o = true) → s.pickRoom core = some o) ∧
  (∀ (s : State) (core o : Nat), s.slotOwner core = none → (s.core core).sel = some o → o ∈ s.readyRooms core → s.now < (s.core core).since + 200000 →
    s.pickRoom core = none) ∧
  ∀ (s : State) (core r : Nat), s.slotOwner core = none → (s.core core).since + 200000 ≤ s.now → s.pickRoom core = some r →
    r ∈ s.readyRooms core ∧ ∀ q ∈ s.readyRooms core, s.vt core r < s.vt core q ∨ (s.vt core r = s.vt core q ∧ r ≤ q)

/-- Ring q has a startable descriptor d exactly when: it is a descriptor ring, neither DISABLED nor FROZEN, of a COMMITTED room whose steward pair runs and that has fewer than 4,096 descriptors started, a LAUNCH or RESTORE that holds the room among them; d is the first descriptor in intake not started; and if d waits for every earlier one (its fence bit, a SIGNAL, a BARRIER_JOIN that holds), no earlier one is still in intake; and no CANCEL in intake names it. A command for one opcode acts on that descriptor where it has the opcode and passes the command's own test. (Derived from R313, R316, R306, R319, R368.) -/
def Obligations.StartableDescriptor : Prop :=
  ∀ (s : State) (ring op : Nat) (p : Desc → Bool) (d : Desc), s.canStartOp ring op p = some d ↔
    (s.ring ring).kind = 1 ∧ (s.ring ring).st ≠ .disabled ∧ (s.ring ring).st ≠ .frozen ∧ (s.room (s.ring ring).room).st = .committed ∧
    s.served (s.ring ring).room = true ∧ s.inFlight (s.ring ring).room < 4096 ∧
    (∃ a b, (s.ring ring).descs = a ++ d :: b ∧ (∀ e ∈ a, e.started = true) ∧ d.started = false ∧ (d.waitsAll = true → a = [])) ∧
    s.cancelAhead (s.ring ring).room ring d.seq = false ∧
    d.opcode = op ∧ p d = true

/-- Where descriptor d is in intake on a ring and its completion ring is running, keeps no earlier record and the host lets it write the slot: completing d takes it out of intake (the others stay, in their order); host memory holds the record's 16 bytes (sequence count, ring and phase, status, aux, detail, result0, result1) at the completion ring's base plus 16 times its count modulo its depth, and reads as before at every other address; the completion ring's count has risen by 1 modulo 2^32 and its reserved slots fallen by 1; only rings, host memory, the pending bits of MSI-X and what is sent out change. (Derived from R321, R322, R324.) -/
def Obligations.CompletionWritesOneRecord : Prop :=
  ∀ (s : State) (ring cq : Nat) (d : Desc) (a b : List Desc) (status detail result0 result1 aux : Nat),
    (s.ring ring).descs = a ++ d :: b → (∀ e ∈ a, e.seq ≠ d.seq) → cq = (s.ring ring).cq → cq ≠ ring → TakesRecord s cq →
    ∃ t, s.complete ring d.seq status detail result0 result1 aux = t ∧ t.ring ring = { s.ring ring with descs := a ++ b } ∧
      t.host = memWriteN s.host (slotAddr (s.ring cq))
        (completionBytes (d.seq % 65536) ring false ((s.ring cq).count / (s.ring cq).depth % 2 = 0) status aux detail result0 result1) ∧
      (Memory.wf s.host = true → ∀ i, (i < slotAddr (s.ring cq) ∨ slotAddr (s.ring cq) + 16 ≤ i) → memRead t.host i = memRead s.host i) ∧
      (t.ring cq).count = ((s.ring cq).count + 1) % 2 ^ 32 ∧ (t.ring cq).reserved = (s.ring cq).reserved - 1 ∧
      (∀ q, q ≠ ring → q ≠ cq → t.ring q = s.ring q) ∧ t = { s with rings := t.rings, host := t.host, msix := t.msix, out := t.out }

/-- Where d is the startable descriptor of its opcode on a ring: NOP completes it with OK and zero results; TIMESTAMP with OK, result0 the low and result1 the high 32 bits of device time; SIGNAL adds its value to its semaphore, saturating at 64 bits, and completes it with OK; WAIT, whose semaphore is at least its threshold, completes it with OK and leaves the semaphore; BARRIER_JOIN marks it started where its step has not ended, and where it has, completes it with OK (join) or BAD_DESCRIPTOR with STEP_LATE (hold). WAIT_TIMEOUT completes the first WAIT in intake that is not started and whose time since intake has passed with TIMEOUT and WAIT_TIMEOUT. Each answers exactly that state. (Derived from R313, R317, R318, R434.) -/
def Obligations.PlainDescriptorsComplete : Prop :=
  (∀ (s : State) (ring : Nat) (d : Desc),
    (s.canStartOp ring 0x00 anyDesc = some d → exec (.nop ring) s = .next (s.complete ring d.seq stOk 0 0 0 0)) ∧
    (s.canStartOp ring 0x08 anyDesc = some d →
      exec (.timestamp ring) s = .next (s.complete ring d.seq stOk 0 (s.time.now % 2 ^ 32) (s.time.now / 2 ^ 32 % 2 ^ 32) 0)) ∧
    (s.canStartOp ring 0x04 anyDesc = some d → ∃ x, x = s.room (s.ring ring).room ∧
      exec (.signal ring) s = .next ((s.setRoom (s.ring ring).room { x with
        sems := tset x.sems (d.fld 8 2) (Nat.min (tget 0 x.sems (d.fld 8 2) + d.fld 16 8) (2 ^ 64 - 1)) }).complete ring d.seq stOk 0 0 0 0)) ∧
    (s.canStartOp ring 0x05 anyDesc = some d → d.fld 16 8 ≤ tget 0 (s.room (s.ring ring).room).sems (d.fld 8 2) →
      exec (.wait ring) s = .next (s.complete ring d.seq stOk 0 0 0 0)) ∧
    (s.canStartOp ring 0x06 anyDesc = some d →
      ((s.room (s.ring ring).room).stepEnded (d.fld 12 4) = false → exec (.barrierJoin ring) s = .next (s.markStarted ring d.seq)) ∧
      ((s.room (s.ring ring).room).stepEnded (d.fld 12 4) = true → d.fld 8 1 = 0 →
        exec (.barrierJoin ring) s = .next (s.complete ring d.seq stOk 0 0 0 0)) ∧
      ((s.room (s.ring ring).room).stepEnded (d.fld 12 4) = true → d.fld 8 1 = 1 →
        exec (.barrierJoin ring) s = .next (s.complete ring d.seq stBadDescriptor Code.stepLate 0 0 0)))) ∧
  ∀ (s : State) (ring at_ : Nat) (a b : List Desc) (d : Desc), (s.ring ring).kind = 1 → (s.ring ring).st ≠ .disabled →
    (s.room (s.ring ring).room).st = .committed → (s.ring ring).descs = a ++ d :: b →
    (∀ e ∈ a, ¬ (e.opcode = 0x05 ∧ e.started = false ∧ e.fld 12 4 ≠ 0 ∧ e.taken + 1000 * e.fld 12 4 ≤ (s.upto at_).time.now)) →
    d.opcode = 0x05 → d.started = false → d.fld 12 4 ≠ 0 → d.taken + 1000 * d.fld 12 4 ≤ (s.upto at_).time.now →
    exec (.waitTimeout ring at_) s = .next ((s.upto at_).complete ring d.seq stTimeout Code.waitTimeout 0 0 0)

/-- Where d is the startable COPY of a room that is not confidential (or has both sides in device space) and has the seed its rounding needs: COPY answers the state after its rows, read, converted and written in order up to the first that fails, and the descriptor's completion with OK or that failure's status and detail. FILL does so with its rows of the one converted value. A COPY of a confidential room with a side in host space moves sealed chunks instead. A keyed rounding in a room without a seed completes with BAD_DESCRIPTOR and DESC_OPERAND and moves nothing. (Derived from R250, R314, R320, R465, R466.) -/
def Obligations.CopyAndFillMoveTheirRows : Prop :=
  ∀ (s u : State) (ring r : Nat) (d : Desc) (e : Option DescErr), r = (s.ring ring).room →
    (s.canStartOp ring 0x02 anyDesc = some d →
      ((s.room r).sec.conf = false ∨ (d.copySrc.host = false ∧ d.copyDst.host = false) →
        (s.noSeed r (d.fld 41 1) = true → exec (.copy ring) s = .next (s.complete ring d.seq stBadDescriptor Code.descOperand 0 0 0)) ∧
        (s.noSeed r (d.fld 41 1) = false →
          s.copyRows r d.copySrc d.copyDst (Cvt.ofByte (d.fld 41 1)) (fun j => srDraw ((s.room r).seed.getD 0) (d.fld 44 2) j (d.fld 48 4)) (d.fld 28 4) 0 = (u, e) →
          exec (.copy ring) s = .next (u.complete ring d.seq ((e.map (·.1)).getD stOk) ((e.map (·.2)).getD 0) 0 0 0))) ∧
      ((s.room r).sec.conf = true → (d.copySrc.host = true ∨ d.copyDst.host = true) → s.sealedCopy r d = (u, e) →
        exec (.copy ring) s = .next (u.complete ring d.seq ((e.map (·.1)).getD stOk) ((e.map (·.2)).getD 0) 0 0 0))) ∧
    (s.canStartOp ring 0x03 anyDesc = some d →
      (s.noSeed r (d.fld 29 1) = true → exec (.fill ring) s = .next (s.complete ring d.seq stBadDescriptor Code.descOperand 0 0 0)) ∧
      (s.noSeed r (d.fld 29 1) = false →
        s.fillRows r d.fillDst (fun j => convert (decodeElem (if isIntFmt (d.fld 28 1 % 16) then 0x9 else 0x0) (d.fld 32 4)) (d.fld 28 1 % 16)
          (Cvt.ofByte (d.fld 29 1)) (srDraw ((s.room r).seed.getD 0) (d.fld 36 2) j (d.fld 40 4))) (d.fld 20 4) 0 = (u, e) →
        exec (.fill ring) s = .next (u.complete ring d.seq ((e.map (·.1)).getD stOk) ((e.map (·.2)).getD 0) 0 0 0)))

/-- For a 4-byte DOORBELL at local ring k (offset 4k) of a COMMITTED room with no host act before it, on a ring that is neither DISABLED nor HALTED: on a descriptor ring, if the value is at most the depth ahead of the ring's read count, modulo 2^32, the ring's doorbell becomes the value and nothing else changes; if it is further ahead, the ring is HALTED. On a completion ring a value at most the depth behind the written count becomes its doorbell, and records kept for want of a slot are tried again; one further behind only counts in the room's ignored doorbells. (Derived from R307, R308, R309, R322.) -/
def Obligations.DoorbellMovesItsCount : Prop :=
  ∀ (s : State) (fn k value : Nat) (g : Ring), (s.room fn).st = .committed → k < (s.room fn).ringCount → value < 2 ^ 32 →
    g = s.ring ((s.room fn).ringBase + k) → g.st ≠ .disabled → g.st ≠ .halted → g.count < 2 ^ 32 →
    (g.kind = 1 → (value + 2 ^ 32 - g.count) % 2 ^ 32 ≤ g.depth →
      exec (.doorbell fn (4 * k) 4 value []) s = .next (s.setRing ((s.room fn).ringBase + k) { g with bell := value })) ∧
    (g.kind = 1 → g.depth < (value + 2 ^ 32 - g.count) % 2 ^ 32 →
      exec (.doorbell fn (4 * k) 4 value []) s = .next ((s.setRing ((s.room fn).ringBase + k) { g with st := .halted }).post
        g.cq (g.count % 65536) ((s.room fn).ringBase + k) true true false stBadDescriptor 0 Code.ringDoorbell 0 0)) ∧
    (g.kind = 2 → (g.count + 2 ^ 32 - value) % 2 ^ 32 ≤ g.depth →
      exec (.doorbell fn (4 * k) 4 value []) s =
        .next ((s.setRing ((s.room fn).ringBase + k) { g with bell := value }).flush ((s.room fn).ringBase + k))) ∧
    (g.kind = 2 → g.depth < (g.count + 2 ^ 32 - value) % 2 ^ 32 →
      exec (.doorbell fn (4 * k) 4 value []) s = .next (s.setRoom fn { s.room fn with dbIgnored := (s.room fn).dbIgnored + 1 }))

/-- On an ACTIVE descriptor ring of a room whose steward pair runs and whose completion ring runs, with n the least of 16, the descriptors posted, the slots to the ring's end and the completion ring's free slots less one, and n not 0: where the pair's intake chooses the room and the room's turn is the ring's, DESCRIPTOR_FETCH takes the n 64-byte slots from the read count on, in order, where the host lets the device read them; where it refuses, the refusal is counted and the ring is HALTED with ACCESS_FAULT and RING_FETCH. Beside that only the arbiter's and the watchdog's own state changes, and the room is charged n descriptors' worth of its share. A descriptor taken that no CANCEL ended and that passes the checks of R312 is in intake after the earlier ones, not started, with its sequence count and the time; the read count has risen by 1 modulo 2^32 and one slot more is reserved; nothing else changes. The intake chooses a room that alone has a descriptor to read. (Derived from R310, R312, R319, R322, R323, R347, R348, R370.) -/
def Obligations.DescriptorsAreReadInOrder : Prop :=
  (∀ (s : State) (ring n a : Nat) (q c : Ring), q = s.ring ring → c = s.ring q.cq → q.kind = 1 → q.st = .active → q.available ≤ q.depth →
    s.served q.room = true → c.kind = 2 → c.st ≠ .halted → c.st ≠ .disabled →
    n = Nat.min (Nat.min q.available 16) (Nat.min (q.depth - q.count % q.depth) (c.freeSlots - 1)) → 0 < n → a = q.base + 64 * (q.count % q.depth) →
    s.turnOf q.room = some ring → (s.serve (arbIntake (s.pairOf q.room)) true (s.intakeRooms (s.pairOf q.room)) q.room).isSome = true →
    ∃ t u, exec (.descriptorFetch ring) s = .next t ∧ t = { u with sched := t.sched, stewards := t.stewards } ∧
      (s.hostOk q.room a (64 * n) false = true → u = ((List.range n).map fun i => memNat s.host (a + 64 * i) 64).foldl (fun s w => s.takeDesc ring w) s) ∧
      (s.hostOk q.room a (64 * n) false = false → u = (s.countRefused q.room).haltRing ring stAccessFault Code.ringFetch) ∧
      tget 0 t.sched.turns q.room = ring + 1 ∧
      ∀ p, p / 64 ≠ arbIntake (s.pairOf q.room) → tget 0 t.sched.vtime p = tget 0 s.sched.vtime p) ∧
  (∀ (s : State) (r : Nat), s.intakeRooms (s.pairOf r) = [r] → (s.serve (arbIntake (s.pairOf r)) true (s.intakeRooms (s.pairOf r)) r).isSome = true) ∧
  ∀ (s : State) (ring raw : Nat) (q c : Ring) (d : Desc), q = s.ring ring → c = s.ring q.cq → q.cq ≠ ring → q.count ∉ q.cancelled →
    d = ⟨q.count, raw, false, s.time.now, 0⟩ → d.check q.count s.variant = none →
    s.takeDesc ring raw = (s.setRing ring { q with count := (q.count + 1) % 2 ^ 32, descs := q.descs ++ [d] }).setRing q.cq { c with reserved := c.reserved + 1 }

/-- Where d is the first unstarted CANCEL in intake on a ring of a COMMITTED room whose steward runs, and its target ring is in the room's grant, CANCEL ends the target as R319 says and completes d with OK and the outcome in result0. A target posted but unread is noted, so that it completes CANCELLED when it is read, with outcome 0; one whose slot holds a CANCEL is left, with outcome 1. A target in intake that has not started (and is no CANCEL) completes with CANCELLED at once, with outcome 0: a FRAME's stream is left broken, and where it is the starting descriptor of an incarnation that is held, that is given up; a FORK or PRUNE that still waits in the forest engine's queue leaves it. A started or already completed target is left as it is, with outcome 1, and a number that the ring never held, with outcome 2. A target ring outside the grant completes d with BAD_DESCRIPTOR and DESC_RING. (Derived from R201, R290, R312, R319.) -/
def Obligations.CancelEndsWhatHasNotStarted : Prop :=
  ∀ (s : State) (ring r t n : Nat) (d : Desc) (a b : List Desc), (s.ring ring).kind = 1 → (s.ring ring).st ≠ .disabled → (s.ring ring).st ≠ .frozen →
    r = (s.ring ring).room → (s.room r).st = .committed → s.served r = true → (s.ring ring).descs = a ++ d :: b →
    d.opcode = 0x3F → d.started = false → (∀ e ∈ a, ¬ (e.opcode = 0x3F ∧ e.started = false)) → t = d.fld 8 2 → n = d.fld 12 4 →
    (t < (s.room r).ringBase ∨ (s.room r).ringBase + (s.room r).ringCount ≤ t →
      exec (.cancel ring) s = .next (s.complete ring d.seq stBadDescriptor Code.descRing 0 0 0)) ∧
    ((s.room r).ringBase ≤ t → t < (s.room r).ringBase + (s.room r).ringCount → (s.ring t).kind ≠ 1 →
      exec (.cancel ring) s = .next (s.complete ring d.seq stOk 0 2 0 0)) ∧
    ((s.room r).ringBase ≤ t → t < (s.room r).ringBase + (s.room r).ringCount → (s.ring t).kind = 1 → (s.ring t).available ≤ (s.ring t).depth →
      ((n + 2 ^ 32 - (s.ring t).count) % 2 ^ 32 < (s.ring t).available →
        (memNat s.host ((s.ring t).base + 64 * (n % (s.ring t).depth)) 1 ≠ 0x3F → exec (.cancel ring) s =
          .next ((s.setRing t { s.ring t with cancelled := n :: (s.ring t).cancelled }).complete ring d.seq stOk 0 0 0 0)) ∧
        (memNat s.host ((s.ring t).base + 64 * (n % (s.ring t).depth)) 1 = 0x3F → exec (.cancel ring) s = .next (s.complete ring d.seq stOk 0 1 0 0))) ∧
      ((s.ring t).available ≤ (n + 2 ^ 32 - (s.ring t).count) % 2 ^ 32 →
        ((((s.ring t).count + 2 ^ 32 - n) % 2 ^ 32 = 0 ∨ (s.ring t).depth < ((s.ring t).count + 2 ^ 32 - n) % 2 ^ 32) →
          exec (.cancel ring) s = .next (s.complete ring d.seq stOk 0 2 0 0)) ∧
        (0 < ((s.ring t).count + 2 ^ 32 - n) % 2 ^ 32 → ((s.ring t).count + 2 ^ 32 - n) % 2 ^ 32 ≤ (s.ring t).depth →
          (∀ e x y, (s.ring t).descs = x ++ e :: y → e.seq = n → (∀ f ∈ x, f.seq ≠ n) →
            (((s.room (s.ring t).room).forest.any fun f => f.waits t n) = false → e.started = false → e.opcode ≠ 0x3F →
              ((∀ j, (s.room (s.ring t).room).job = some j → ¬ (j.ring = t ∧ j.seq = n)) →
                exec (.cancel ring) s = .next (((s.breakStream t e).complete t n stCancelled 0 0 0 0).complete ring d.seq stOk 0 0 0 0)) ∧
              (∀ j, (s.room (s.ring t).room).job = some j → j.ring = t → j.seq = n → exec (.cancel ring) s =
                .next ((((s.setRoom (s.ring t).room { s.room (s.ring t).room with job := none }).breakStream t e).complete t n stCancelled 0 0 0 0).complete
                  ring d.seq stOk 0 0 0 0))) ∧
            (∀ f, (s.room (s.ring t).room).forest = some f → f.waits t n = true → exec (.cancel ring) s =
              .next (((s.setRoom (s.ring t).room { s.room (s.ring t).room with forest := some { f with
                queue := f.queue.filter fun c => c.desc ≠ some (t, n) } }).complete t n stCancelled 0 0 0 0).complete ring d.seq stOk 0 0 0 0)) ∧
            (((s.room (s.ring t).room).forest.any fun f => f.waits t n) = false → (e.started = true ∨ e.opcode = 0x3F) →
              exec (.cancel ring) s = .next (s.complete ring d.seq stOk 0 1 0 0))) ∧
          ((∀ e ∈ (s.ring t).descs, e.seq ≠ n) → exec (.cancel ring) s = .next (s.complete ring d.seq stOk 0 1 0 0)))))

/-- For START of a room by its own function, with no host act before it, of a room that exists: where the room is not COMMITTED, the start error bit is set and nothing else changes; where it is COMMITTED and a ring of it is not DISABLED, nothing changes. With every ring DISABLED: where the room has no ring or a misaligned table, the start error bit is set; where the host refuses the table, the refusal is counted too. With the table's entries read: where the first is not a valid completion ring, the start error bit is set; where the interface level is not the running image's, the start record says VERSION_REFUSED with that image's level; where another entry fails its checks, it says BAD_DESCRIPTOR with RING_TABLE and the entry's index; and where all pass, every other ring of the table is set up as its entry says with all counts 0, the room's semaphores are zeroed and the start record says OK with the interface level and the number of rings in use. (Derived from R305, R374.) -/
def Obligations.StartBringsUpTheRingTable : Prop :=
  ∀ (s : State) (r : Nat) (x : Room), x = s.room r → x.st ≠ .absent →
    (x.st ≠ .committed → exec (.start r r []) s = .next (s.setRoom r { x with startErr := true })) ∧
    (x.st = .committed → (∃ q ∈ span x.ringBase x.ringCount, (s.ring q).st ≠ .disabled) → exec (.start r r []) s = .next s) ∧
    (x.st = .committed → (∀ q ∈ span x.ringBase x.ringCount, (s.ring q).st = .disabled) → (x.ringCount = 0 ∨ x.rtab % 4096 ≠ 0) →
      exec (.start r r []) s = .next (s.setRoom r { x with startErr := true })) ∧
    (x.st = .committed → (∀ q ∈ span x.ringBase x.ringCount, (s.ring q).st = .disabled) → 0 < x.ringCount → x.rtab % 4096 = 0 →
      (s.hostOk r x.rtab (64 * x.ringCount) false = false → exec (.start r r []) s = .next (s.setRoom r { x with refused := x.refused + 1, startErr := true })) ∧
      ∀ (e0 : RingEntry) (rest : List RingEntry), s.hostOk r x.rtab (64 * x.ringCount) false = true →
        ((List.range x.ringCount).filterMap fun i => s.ringEntry r i) = e0 :: rest →
        let kinds := fun i => (((e0 :: rest)[i]?).map (·.kind)).getD 0
        ((e0.kind ≠ 2 ∨ e0.ok x.ringBase x.ringCount kinds = false) → exec (.start r r []) s = .next (s.setRoom r { x with startErr := true })) ∧
        (e0.kind = 2 → e0.ok x.ringBase x.ringCount kinds = true →
          (x.iface ≠ s.fwIface → exec (.start r r []) s = .next (s.startRecord x.ringBase (e0.ring r) stVersionRefused 0 s.fwIface 0 false)) ∧
          (x.iface = s.fwIface →
            (∀ i, (rest.findIdx? fun e => !e.ok x.ringBase x.ringCount kinds) = some i →
              exec (.start r r []) s = .next (s.startRecord x.ringBase (e0.ring r) stBadDescriptor Code.ringTable (i + 1) 0 false)) ∧
            ((∀ e ∈ rest, e.ok x.ringBase x.ringCount kinds = true) → exec (.start r r []) s =
              .next (((rest.zipIdx.foldl (fun s p => s.setRing (x.ringBase + 1 + p.2) (p.1.ring r)) s).modRoom r fun y => { y with sems := [] }).startRecord
                x.ringBase (e0.ring r) stOk 0 s.fwIface ((e0 :: rest).filter fun e => e.kind ≠ 0).length true)))))

/-- MODERATION_TIMER on a completion ring whose oldest completion has waited its time clears the ring's count of unsent completions and sends its message (or sets the pending bit of a masked vector). VECTOR_UNMASK clears mask and pending of the vector and sends the message that was pending. RINGTAB_RESTART by the physical function, where Table 22.5 accepts it, stages room, local ring and resume count, and where it does not, sets the rejected bit and its reason. RING_RESTART of a staged restart with no started descriptor left, whose re-read entry passes its checks and is a descriptor ring, sets the ring up as the entry says at the resume count, keeping its doorbell and its descriptors in intake, and writes the restart record. RINGTAB_SEL by the physical function selects a ring and takes its counts into the INFO registers, 0 for a ring of no grant. (Derived from R323, R324, R536, R537.) -/
def Obligations.RingRestartAndMessages : Prop :=
  (∀ (s : State) (ring at_ : Nat) (q : Ring), q = s.ring ring → q.kind = 2 → q.st ≠ .disabled → q.ien = true → q.modCount ≠ 0 → q.modUs ≠ 0 →
    q.unsent ≠ 0 → q.oldest + 1000 * q.modUs ≤ Nat.max s.time.now at_ →
    exec (.moderationTimer ring at_) s = .next (((s.upto at_).setRing ring { q with unsent := 0, oldest := 0 }).sendMsix q.room q.vector)) ∧
  (∀ (s : State) (fn v : Nat) (e : MsixVec), e = tget MsixVec.reset s.msix (fn * 32 + v) →
    exec (.vectorUnmask fn v) s = .next { s with
      msix := tset s.msix (fn * 32 + v) { e with masked := false, pending := false }
      out := if e.pending then s.out ++ [.msix fn v e.addr e.data] else s.out }) ∧
  (∀ (s : State) (value : Nat),
    (s.restartReason_ (bits value 21 16) (bits value 9 0) = 0 → exec (.ringtabRestart 0 value) s =
      .next { s with restart := some (bits value 21 16, bits value 9 0, bits value 63 32) }) ∧
    (0 < s.restartReason_ (bits value 21 16) (bits value 9 0) → exec (.ringtabRestart 0 value) s =
      .next { s with restartRejected := true, restartReason := s.restartReason_ (bits value 21 16) (bits value 9 0) })) ∧
  (∀ (s : State) (r i resume n : Nat) (e : RingEntry) (q : Ring), s.restart = some (r, i, resume) → n = (s.room r).ringBase + i → q = s.ring n →
    (∀ d ∈ q.descs, d.started = false) → s.ringEntry r i = some e → e.kind = 1 →
    e.ok (s.room r).ringBase (s.room r).ringCount (fun k => (s.ring ((s.room r).ringBase + k)).kind) = true →
    exec .ringRestart s = .next (({ s with restart := none }.setRing n { e.ring r with
      count := resume
      bell := q.bell
      descs := q.descs
      cancelled := q.cancelled
      reserved := q.reserved
      held := q.held }).postInit r 0 n stOk Code.ringRestart 0 0)) ∧
  ∀ (s : State) (value q : Nat), q = value % 2 ^ 14 →
    (∀ o, s.ringOwner q = some o → exec (.ringtabSel 0 value) s = .next { s with
      ringSel := q
      ringInfo0 := (s.ring q).count * 2 ^ 32 + (s.ring q).bell
      ringInfo1 := (s.ring q).info1 o }) ∧
    (s.ringOwner q = none → exec (.ringtabSel 0 value) s = .next { s with ringSel := q, ringInfo0 := 0, ringInfo1 := 0 })

/-- Where d is the startable FORK or PRUNE descriptor of a ring: it completes with BAD_DESCRIPTOR and FOREST_CMD in a room with no forest or with a malformed operand, with FOREST_PARAMS where a count is out of range, and with FOREST_PILOTED where a core pilots the forest while a job runs. Otherwise it is started and takes its place behind the commands that the room's queue holds; at the head of an empty queue, where the engine serves the room, it runs: a tree that is not as the command needs completes it with BAD_DESCRIPTOR and FOREST_TREE, a FORK without IDs or roster places completes with RESOURCE_EXHAUSTED, and one that writes no roster leaves the forest forked, rooted or pruned as R203, R204 and R210 say and completes with OK. BRANCH_READ writes the records of the live branches it asks for in order of branch ID and completes with their number in result0, or with the first failure after the number written; to a host destination of a confidential room it completes with SECURITY_REFUSED and SEC_CONF_HOST. (Derived from R193, R199, R201, R202, R203, R204, R210, R212, R347, R465.) -/
def Obligations.ForestDescriptorsRun : Prop :=
  (∀ (s : State) (ring r : Nat) (d : Desc) (a : FArgs) (fork : Bool) (c : Instr), r = (s.ring ring).room → a = FArgs.ofDesc d →
    (c, fork) ∈ [(Instr.fork ring, true), (.prune ring, false)] → s.canStartOp ring (if fork then 0x10 else 0x11) anyDesc = some d →
    ((s.room r).forest = none → exec c s = .next (s.complete ring d.seq stBadDescriptor Code.forestCmd 0 0 0)) ∧
    ∀ f, (s.room r).forest = some f →
      ((8 ≤ d.fld 8 1 ∨ a.badCmd f fork = true) → exec c s = .next (s.complete ring d.seq stBadDescriptor Code.forestCmd 0 0 0)) ∧
      (d.fld 8 1 < 8 → a.badCmd f fork = false →
        (a.badParams fork = true → exec c s = .next (s.complete ring d.seq stBadDescriptor Code.forestParams 0 0 0)) ∧
        (a.badParams fork = false →
          (f.pilot ≠ 0xFFFF → (s.room r).busy = true → exec c s = .next (s.complete ring d.seq stBadDescriptor Code.forestPiloted 0 0 0)) ∧
          ((f.pilot = 0xFFFF ∨ (s.room r).busy = false) →
            (∀ k q, f.queue = k :: q → k.desc = none → exec c s = .next ((s.markStarted ring d.seq).modRoom r fun x => { x with
              forest := some { f with queue := f.queue ++ [⟨0xFFFF, 0, some (ring, d.seq)⟩] } })) ∧
            ∀ m g : State, m = (s.markStarted ring d.seq).modRoom r (fun x => { x with
                forest := some { f with queue := [⟨0xFFFF, 0, some (ring, d.seq)⟩] } }) →
              g = m.modRoom r (fun x => { x with forest := some f }) →
              f.queue = [] → (∀ e ∈ (s.ring ring).descs, e.seq = d.seq → e = d) → ForestTurn m r →
              (∀ k, a.check f fork = some k → ∃ t, exec c s = .next t ∧ UpToShares (g.complete ring d.seq stBadDescriptor k 0 0 0) t) ∧
              (∀ k, a.check f fork = none → fork = true → f.forkFails (s.room r).bgrant a = some k → ∃ t, exec c s = .next t ∧
                UpToShares ((g.chargeForest r 24).complete ring d.seq stResourceExhausted k 0 0 0) t) ∧
              (a.check f fork = none → (fork = true → f.forkFails (s.room r).bgrant a = none) → a.a0 = 0 →
                ∃ u : State, exec c s = .next (u.complete ring d.seq stOk 0 0 0 0) ∧ u.ring ring = m.ring ring ∧
                  (fork = true → (u.room r).forest = some (if a.newRoot then f.roots (s.room r).bgrant a else f.forked (s.room r).bgrant a)) ∧
                  (fork = false → (u.room r).forest = some (((f.doomed a).filter fun b => b / 131072 = 1).foldl Forest.freeBranch
                    ((((f.doomed a).filter fun b => b / 131072 = 0).foldl Forest.freeBranch (f, 0)).1, 0)).1)))))) ∧
  ∀ (s : State) (ring r a : Nat) (d : Desc), r = (s.ring ring).room → a = d.fld 24 8 → s.canStartOp ring 0x12 anyDesc = some d →
    ((s.room r).sec.conf = true → d.fld 8 1 = 1 → exec (.branchRead ring) s = .next (s.complete ring d.seq stSecurityRefused Code.secConfHost 0 0 0)) ∧
    (((s.room r).sec.conf = false ∨ d.fld 8 1 ≠ 1) → ∀ (f : Forest) (recs : List (List Byte)), (s.room r).forest = some f →
      recs = (((f.branches.filter fun b => decide (d.fld 12 4 ≤ b.1) && decide (b.1 < d.fld 12 4 + d.fld 16 4) &&
        (d.fld 10 2 == 0xFFFF || b.2.tree == d.fld 10 2)).take (d.fld 20 4)).map fun b => f.record b.1 b.2 0) →
      (∀ u n e, s.putRecords r (d.fld 8 1 = 1) a recs 0 = (u, n, e) → exec (.branchRead ring) s =
        .next ((u.chargeForest r (24 + ceilDiv (64 * n) 256)).complete ring d.seq ((e.map (·.1)).getD stOk) ((e.map (·.2)).getD 0) n 0 0)) ∧
      (d.fld 8 1 = 1 → (∀ i < recs.length, s.hostOk r (a + 64 * i) 64 true = true) → exec (.branchRead ring) s =
        .next (({ s with host := rowsWritten s.host a (recs.zipIdx.map fun (p : List Byte × Nat) => (64 * p.2, p.1)) }.chargeForest r
          (24 + ceilDiv (64 * recs.length) 256)).complete ring d.seq stOk 0 recs.length 0 0)))

/-- PLACE_HINT and HAUL_PLAN are applied whole or refused with nothing changed but the completion. MAP_AUTO, MAP_UPPER, MAP_COLD and MAP_STREAM of an unmapped range within the quotas and the map limit map every page of it in the zero state with its class and attributes, demote pages where the upper quota needs it, and complete with OK; over a mapped page they complete with MEM_OVERLAP, over quota with MEM_QUOTA, over 65,536 map runs with MEM_MAPS. SET of ordinary, unpinned pages within the quotas gives each of them its class and attributes and completes with OK; else it completes with MEM_NOTMAPPED, MEM_BUSY, MEM_QUOTA or MEM_MAPS. MAP_WINDOW, VIEW, FOREST and KERNEL of an unmapped range, whose record passes its checks and whose frames there are, register the range and complete with OK, and with the first failing check's status and code otherwise. CLEAR of a registered range ends it once no transfer to it is in flight. UNMAP of a range of ordinary pages, none pinned, none awaiting a snapshot copy, with no transfer in flight to it, drops the pages and completes with OK; else it completes with MEM_NOTMAPPED or MEM_BUSY and drops none, or waits. HAUL_PLAN of a mapped window with room for its slots, with entries that keep R266, attaches the plan to the window and completes with OK; otherwise it changes nothing but the completion. (Derived from R134, R193, R228, R251, R252, R253, R254, R255, R258, R266, R270.) -/
def Obligations.PlaceHintsAreOneChange : Prop :=
  (∀ (s : State) (ring hint cls r : Nat) (c : Instr) (d : Desc) (m m' : RoomMem), (c, hint, cls, true) ∈ pageHints ring → Hinted s ring hint d →
    r = (s.ring ring).room → m = (s.room r).mem → m' = m.addPages d.firstPage d.pageCount cls d.attr →
    (m.anyMapped d.va d.nbytes = true → exec c s = .next (s.complete ring d.seq stBadDescriptor Code.memOverlap 0 0 0)) ∧
    (m.anyMapped d.va d.nbytes = false →
      ((s.room r).quotaPlus (if cls = 2 then d.pageCount else 0) (if cls = 4 then d.pageCount else 0) d.pageCount = false →
        exec c s = .next (s.complete ring d.seq stResourceExhausted Code.memQuota 0 0 0)) ∧
      ((s.room r).quotaPlus (if cls = 2 then d.pageCount else 0) (if cls = 4 then d.pageCount else 0) d.pageCount = true →
        (65536 < m'.mapRuns → exec c s = .next (s.complete ring d.seq stResourceExhausted Code.memMaps 0 0 0)) ∧
        (m'.mapRuns ≤ 65536 → ∃ u : State, exec c s = .next (u.complete ring d.seq stOk 0 0 0 0) ∧
          u = (s.setRoom r { s.room r with mem := m' }).makeRoom r 0 m'.victims ∧
          ∀ k, d.firstPage ≤ k → k < d.firstPage + d.pageCount → tfind (u.room r).mem.pages k = some ⟨cls, d.attr, .zero, 0, none⟩)))) ∧
  (∀ (s : State) (ring hint cls r : Nat) (c : Instr) (d : Desc) (m m' : RoomMem), (c, hint, cls, false) ∈ pageHints ring → Hinted s ring hint d →
    r = (s.ring ring).room → m = (s.room r).mem →
    m' = { m with pages := (m.pagesIn d.va d.nbytes).foldl (fun t p => tset t p.1 { p.2 with cls := cls, attr := d.attr }) m.pages } →
    (m.poolPage d.va d.nbytes = true → exec c s = .next (s.complete ring d.seq stBadDescriptor Code.memBusy 0 0 0)) ∧
    (m.poolPage d.va d.nbytes = false →
      (m.allOrdinary d.va d.nbytes = false → exec c s = .next (s.complete ring d.seq stBadDescriptor Code.memNotmapped 0 0 0)) ∧
      (m.allOrdinary d.va d.nbytes = true →
        ((∃ p ∈ m.pagesIn d.va d.nbytes, m.pinnedPage p.1 = true) → exec c s = .next (s.complete ring d.seq stBadDescriptor Code.memBusy 0 0 0)) ∧
        ((∀ p ∈ m.pagesIn d.va d.nbytes, m.pinnedPage p.1 = false) →
          ((s.room r).quotaOk m' = false → exec c s = .next (s.complete ring d.seq stResourceExhausted Code.memQuota 0 0 0)) ∧
          ((s.room r).quotaOk m' = true → 65536 < m'.mapRuns → exec c s = .next (s.complete ring d.seq stResourceExhausted Code.memMaps 0 0 0)) ∧
          ((s.room r).quotaOk m' = true → m'.mapRuns ≤ 65536 → ∃ u : State, exec c s = .next (u.complete ring d.seq stOk 0 0 0 0) ∧
            ∀ p ∈ m.pagesIn d.va d.nbytes, (tfind (u.room r).mem.pages p.1).map (fun q => (q.cls, q.attr)) = some (cls, d.attr)))))) ∧
  (∀ (s : State) (ring hint r : Nat) (c : Instr) (f : State → Nat → Desc → Except DescErr State) (d : Desc) (m : RoomMem),
    (c, hint, f) ∈ rangeHints ring → Hinted s ring hint d → r = (s.ring ring).room → m = (s.room r).mem →
    (m.anyMapped d.va d.nbytes = true → exec c s = .next (s.complete ring d.seq stBadDescriptor Code.memOverlap 0 0 0)) ∧
    (∀ e, f s r d = .error e → exec c s = .next (s.complete ring d.seq e.1 e.2 0 0 0)) ∧
    (m.anyMapped d.va d.nbytes = false →
      (∀ os u, hint = 0x05 → os = backedPages [(0, d.nbytes)] → (s.room r).quotaPlus d.pageCount 0 d.pageCount = true →
        (s.room r).quotaPlus os.length 0 os.length = true → m.mapRuns < 65536 →
        (((s.makeRoom r os.length m.victims).modMem r fun m => ranged m d 0).backPages r d.va os) = some u →
        exec c s = .next (u.complete ring d.seq stOk 0 0 0 0)) ∧
      ∀ raw, s.regRecord r d = .ok raw →
        (∀ v k, hint = 0x10 → v = ViewRec.ofNat raw → v.check d.va d.nbytes (m.specials.filter fun x => x.hint = 0x10).length (s.mapped r) = some k →
          exec c s = .next (s.complete ring d.seq stBadDescriptor k 0 0 0)) ∧
        (∀ v os u, hint = 0x10 → v = ViewRec.ofNat raw → v.check d.va d.nbytes (m.specials.filter fun x => x.hint = 0x10).length (s.mapped r) = none →
          os = backedPages v.backed → (s.room r).quotaPlus os.length 0 os.length = true → m.mapRuns < 65536 →
          (((s.makeRoom r os.length m.victims).modMem r fun m => ranged m d raw).backPages r d.va os) = some u →
          (v.vkind = 3 → exec c s =
            .next ((u.modMem r fun m => { m with views := tset m.views d.va { ViewSt.reset with raw := raw } }).complete ring d.seq stOk 0 0 0 0)) ∧
          ∀ run u', v.vkind ≠ 3 → v.plain = true → v.forest = false →
            run = (v.seqBase / pageBytes, (v.seqBase + v.runBytes - 1) / pageBytes + 1 - v.seqBase / pageBytes) →
            (u.modMem r fun m => { m with views := tset m.views d.va { ViewSt.reset with raw := raw, run := run } }).pinUpper r false
              (span run.1 run.2) (span run.1 run.2) = some u' → exec c s = .next (u'.complete ring d.seq stOk 0 0 0 0)) ∧
        (∀ f' k, hint = 0x11 → f' = Forest.new d.va d.nbytes raw →
          f'.check (decide (0 < (s.room r).bgrant.count)) ((s.room r).hasCore f'.pilot) (s.room r).forest.isSome = some k →
          exec c s = .next (s.complete ring d.seq stBadDescriptor k 0 0 0)) ∧
        (∀ f' os u, hint = 0x11 → f' = Forest.new d.va d.nbytes raw →
          f'.check (decide (0 < (s.room r).bgrant.count)) ((s.room r).hasCore f'.pilot) (s.room r).forest.isSome = none →
          os = backedPages [(f'.nodeOff, f'.nodeBytes), (f'.pageOff, f'.pageBytes)] → (s.room r).quotaPlus os.length 0 os.length = true →
          m.mapRuns < 65536 → (((s.makeRoom r os.length m.victims).modMem r fun m => ranged m d raw).backPages r d.va os) = some u →
          exec c s = .next ((u.modRoom r fun x => { x with forest := some f' }).complete ring d.seq stOk 0 0 0 0)) ∧
        (∀ ws, hint = 0x12 → s.mapped r (fld raw 8 8) (64 * fld raw 2 2) = true → fld raw 2 2 ≤ 1024 → ws = s.kernelWords r raw →
          kernelCheck raw d.va d.nbytes (m.specials.filter fun y => y.hint = 0x12).length (fld raw 4 2 == 0xFFFF || (s.room r).hasCore (fld raw 4 2)) true ws = none →
          (s.room r).quotaPlus 0 0 0 = true → m.mapRuns < 65536 → exec c s =
            .next ((((s.makeRoom r 0 m.victims).modMem r fun m => ranged m d raw).modRoom r fun x => { x with
              kernels := tset x.kernels d.va ⟨raw, ws, [], none⟩ }).complete ring d.seq stOk 0 0 0 0)))) ∧
  (∀ (s : State) (ring r : Nat) (d : Desc) (m : RoomMem), r = (s.ring ring).room → m = (s.room r).mem → Hinted s ring 0x1F d →
    s.inTransit r d.va d.nbytes = false →
    ((∀ x ∈ m.specials, ¬ (x.base = d.va ∧ x.bytes = d.nbytes)) → exec (.clear ring) s = .next (s.complete ring d.seq stBadDescriptor Code.memNotmapped 0 0 0)) ∧
    ∀ x, (m.specials.find? fun x => x.base = d.va && x.bytes = d.nbytes) = some x → (x.hint ≠ 0x11 ∨ (s.room r).waitingTrees = []) →
      exec (.clear ring) s = .next ((s.dropSpecial r x).complete ring d.seq stOk 0 0 0 0) ∧
      (∀ z ∈ ((s.dropSpecial r x).room r).mem.specials, z.base ≠ x.base)) ∧
  (∀ (s : State) (ring r : Nat) (d : Desc) (m : RoomMem), r = (s.ring ring).room → m = (s.room r).mem → Hinted s ring 0x00 d →
    (m.poolPage d.va d.nbytes = true → exec (.unmap ring) s = .next (s.complete ring d.seq stBadDescriptor Code.memBusy 0 0 0)) ∧
    (m.poolPage d.va d.nbytes = false → m.allOrdinary d.va d.nbytes = false →
      exec (.unmap ring) s = .next (s.complete ring d.seq stBadDescriptor Code.memNotmapped 0 0 0)) ∧
    (m.poolPage d.va d.nbytes = false → m.allOrdinary d.va d.nbytes = true → (∃ p ∈ m.pagesIn d.va d.nbytes, m.pinnedPage p.1 = true) →
      exec (.unmap ring) s = .next (s.complete ring d.seq stBadDescriptor Code.memBusy 0 0 0)) ∧
    (m.poolPage d.va d.nbytes = false → m.allOrdinary d.va d.nbytes = true → (∀ p ∈ m.pagesIn d.va d.nbytes, m.pinnedPage p.1 = false) →
      ((∃ v ∈ m.snap.pending, d.firstPage ≤ v ∧ v < d.firstPage + d.pageCount) → exec (.unmap ring) s = .next s) ∧
      ((∀ v ∈ m.snap.pending, v < d.firstPage ∨ d.firstPage + d.pageCount ≤ v) → s.inTransit r d.va d.nbytes = false →
        exec (.unmap ring) s = .next ((s.dropPages r d.va d.nbytes).complete ring d.seq stOk 0 0 0 0)))) ∧
  ∀ (s : State) (ring r : Nat) (d : Desc) (m : RoomMem) (bs : List Byte) (l : List (Nat × Nat)) (x : Special), r = (s.ring ring).room →
    m = (s.room r).mem → s.canStartOp ring 0x19 anyDesc = some d → (m.specials.find? fun x => x.hint = 5 && x.base = d.fld 8 8) = some x →
    s.readAny r (d.fld 16 8) (16 * d.fld 48 2) = .ok bs → haulEntries bs (d.fld 48 2) (d.fld 24 8) (s.mapped r) = (l, true) →
    pageBytes + d.fld 50 1 * d.fld 24 8 ≤ x.bytes →
    ((tfind m.windows x.base = none ∨ (s.room r).busy = false) → exec (.haulPlan ring) s =
      .next ((s.setRoom r { s.room r with mem := { m with
        windows := tset m.windows x.base ⟨d.raw >>> 64, l, d.fld 50 1, d.fld 24 8, d.fld 32 16, d.fld 51 1, 0, []⟩ } }).complete ring d.seq stOk 0 0 0 0)) ∧
    (tfind m.windows x.base ≠ none → (s.room r).busy = true →
      exec (.haulPlan ring) s = .next (s.complete ring d.seq stBadDescriptor Code.haulBusy 0 0 0))

/-- JOB_FAULT in a room that runs an incarnation without a fault, not in turnover, of a job on one device, whose steward can end it, answers a next state in which the first-fault record holds the time, code, unit and incarnation; a health record of it is written, or held for the steward with the device duties; no core serves the room; the room is free of its job; and every other room's job is as it was. In a job of several devices with a tag, on a device that is not the head, the fault is latched and FAULT is sent up. A fault of a job already faulted only counts in the late faults; one in a room without an incarnation, or in turnover, changes nothing. (Derived from R315, R427, R495, R499, R496, R546.) -/
def Obligations.JobFaultLatchesItsOrigin : Prop :=
  (∀ (s : State) (room code unit : Nat) (j : Job), (s.room room).job = some j →
    ((s.room room).st ≠ .turnover → j.faulted = false → j.devices ≤ 1 → s.ends room = true →
      ∃ t, exec (.jobFault room code unit) s = .next t ∧ (t.room room).fault = some ⟨s.time.now, code, unit, j.incarn⟩ ∧
        (⟨s.time.now, 6, code, unit, room, j.incarn⟩ : HealthRec) ∈ t.health.held ++ t.health.records ∧
        (∀ c, (t.core c).sel ≠ some room) ∧
        (t.room room).job = none ∧ ∀ r, r ≠ room → (t.room r).job = (s.room r).job) ∧
    ((s.room room).st ≠ .turnover → j.faulted = false → 1 < j.devices → j.tag ≠ 0 → s.caravan.isHead = false →
      exec (.jobFault room code unit) s = .next ((s.latch room code unit j).ctrlUp 0x16 j.tag j.incarn none
        (leBytes 4 j.rank ++ leBytes 4 j.step ++ leBytes 2 code))) ∧
    ((s.room room).st ≠ .turnover → j.faulted = true →
      exec (.jobFault room code unit) s = .next (s.setRoom room { s.room room with lateFaults := (s.room room).lateFaults + 1 })) ∧
    ((s.room room).st = .turnover → exec (.jobFault room code unit) s = .next s)) ∧
  ∀ (s : State) (room code unit : Nat), (s.room room).job = none → exec (.jobFault room code unit) s = .next s

/-- Where d is the startable LAUNCH or RESTORE of a ring and no job of the room is its own: a program that fails its checks completes it with BAD_DESCRIPTOR and that code; else a room that is held with BAD_DESCRIPTOR and LAUNCH_BUSY (RESTORE: SNAP_PARAMS); else a device out of service with RESOURCE_EXHAUSTED and HEALTH_OOS; else a job of several devices on a device that is no caravan member with BAD_DESCRIPTOR and CAR_NOMEMBER; and otherwise the command answers the state in which the descriptor's incarnation holds the room: started at once on one device, and on several, away from the head, waiting for its job to be assembled. MIRROR_FETCH_TIMEOUT of an incarnation that is still fetching, with no fetch answered 2 s after it began, gives the room up and completes the descriptor with TIMEOUT and SNAP_FETCH. Each answers exactly that state. (Derived from R279, R315, R399.) -/
def Obligations.StartingDescriptorHoldsTheRoom : Prop :=
  (∀ (s : State) (ring r busy : Nat) (e : CellarRead) (d : Desc) (c : Instr),
    (c, d.opcode, busy, e) ∈ [(Instr.launch ring, 0x01, Code.launchBusy, ⟨0, 0, false⟩), (.restore ⟨ring, e⟩, 0x1B, Code.snapParams, e)] →
    s.canStartOp ring d.opcode anyDesc = some d → r = (s.ring ring).room → (∀ j, (s.room r).job = some j → ¬ (j.ring = ring ∧ j.seq = d.seq)) →
    (∀ k, s.progOf r (d.fld 24 4) (d.fld 28 4) none = .error k → exec c s = .next (s.complete ring d.seq stBadDescriptor k 0 0 0)) ∧
    ∀ l, s.progOf r (d.fld 24 4) (d.fld 28 4) none = .ok l →
      ((s.room r).job ≠ none → exec c s = .next (s.complete ring d.seq stBadDescriptor busy 0 0 0)) ∧
      ((s.room r).job = none → s.inService = false → exec c s = .next (s.complete ring d.seq stResourceExhausted Code.healthOos 0 0 0)) ∧
      ((s.room r).job = none → s.inService = true → 1 < d.fld 24 4 → s.caravan.member = false →
        exec c s = .next (s.complete ring d.seq stBadDescriptor Code.carNomember 0 0 0)) ∧
      ((s.room r).job = none → s.inService = true → (d.fld 24 4 ≤ 1 ∨ s.caravan.member = true) → exec c s = .next (s.holdRoom r ring d e)) ∧
      ((s.room r).job = none → s.inService = true → 1 < d.fld 24 4 → s.caravan.member = true → s.caravan.isHead = false →
        ∃ t j, exec c s = .next t ∧ (t.room r).job = some j ∧ j.ring = ring ∧ j.seq = d.seq ∧ j.phase = 0 ∧ j.devices = d.fld 24 4 ∧ j.rank = d.fld 28 4 ∧
          (∀ q, q ≠ r → t.room q = s.room q) ∧ t.rings = s.rings ∧ t.cores = s.cores)) ∧
  ∀ (s : State) (room at_ b : Nat) (j : Job), (s.room room).job = some j → j.phase = 0 → j.fetchAt = some b →
    b + 2000000000 ≤ Nat.max s.time.now at_ → (∀ g ∈ (s.flow (flowKey room j.holder 0xFFF0)).gets, g.answered = false) →
    exec (.mirrorFetchTimeout room at_) s = .next (((s.upto at_).setRoom room { s.room room with
      job := none
      mem := { (s.room room).mem with pinned := [] } }).complete j.ring j.seq stTimeout Code.snapFetch 0 0 0)

/-- Where d is the startable MODE_STAGE of kind 1, 2, 4 or 5, in the room whose barriers pace it: a kind 1 or 2 not from room 0 completes with PWR_NOT_PF; a step that has ended with STEP_LATE; a change of that kind already armed to the epoch with MODE_DUPLICATE; a ninth armed change with RESOURCE_EXHAUSTED and MODE_PENDING; a value out of range with its error; and otherwise d is started and the change stands armed at the end of the room's modes. A kind 3 that passes the schedule's checks sets PENDING and the pacing room; one that fails completes with that check's code. A CHECKPOINT is started and its plan stands at the end of the room's plans, or completes with STEP_LATE. (Derived from R271, R315, R318, R352, R378, R480.) -/
def Obligations.ModeChangesAreStagedToAStep : Prop :=
  (∀ (s : State) (ring kind r : Nat) (c : Instr) (d : Desc), (c, kind) ∈ [(Instr.powerCap ring, 1), (.clockPlan ring, 2), (.precisionMode ring, 4), (.endJob ring, 5)] →
    s.canStartOp ring 0x07 (fun d => d.fld 8 1 == kind) = some d → r = pacingOf kind d.mval (s.ring ring).room →
    (kind ≤ 2 → (s.ring ring).room ≠ 0 → exec c s = .next (s.complete ring d.seq stBadDescriptor Code.pwrNotPf 0 0 0)) ∧
    ((2 < kind ∨ (s.ring ring).room = 0) →
      ((s.room r).stepEnded d.epoch = true → exec c s = .next (s.complete ring d.seq stBadDescriptor Code.stepLate 0 0 0)) ∧
      ((s.room r).stepEnded d.epoch = false → (∃ m ∈ (s.room r).modes, m.armed = true ∧ m.kind = kind ∧ m.epoch = d.epoch) →
        exec c s = .next (s.complete ring d.seq stBadDescriptor Code.modeDuplicate 0 0 0)) ∧
      ((s.room r).stepEnded d.epoch = false → (∀ m ∈ (s.room r).modes, m.armed = true → ¬ (m.kind = kind ∧ m.epoch = d.epoch)) →
        (8 ≤ ((s.room r).modes.filter (·.armed)).length → exec c s = .next (s.complete ring d.seq stResourceExhausted Code.modePending 0 0 0)) ∧
        (((s.room r).modes.filter (·.armed)).length < 8 →
          (∀ e, s.modeValue (s.ring ring).room kind d = .error e → exec c s = .next (s.complete ring d.seq e.1 e.2 0 0 0)) ∧
          ∀ l, s.modeValue (s.ring ring).room kind d = .ok l → exec c s = .next ((s.markStarted ring d.seq).setRoom r { s.room r with
            modes := (s.room r).modes ++ [⟨kind, d.epoch, d.mval, l, 0, true, ring, d.seq, true, false⟩] }))))) ∧
  (∀ (s : State) (ring : Nat) (d : Desc), s.canStartOp ring 0x07 (fun d => d.fld 8 1 == 3) = some d → d.mval < 64 → d.maddr = 0 →
    (s.room d.mval).stepEnded d.epoch = false →
    (s.sharingCheck (s.ring ring).room d = none → ∃ t, exec (.sharingTable ring) s = .next t ∧
      t.sched.pending = true ∧ t.sched.pacing = some (ring, d.seq, d.mval, d.epoch) ∧ t.sched.err = 0 ∧ t.sched.passed = true ∧
      t = { s.markStarted ring d.seq with sched := { s.sched with pending := true, pacing := t.sched.pacing, err := 0, passed := true } }) ∧
    ∀ k, s.sharingCheck (s.ring ring).room d = some k → exec (.sharingTable ring) s =
      .next ({ s with sched := { s.sched with err := k, passed := false } }.complete ring d.seq stBadDescriptor k 0 0 0)) ∧
  ∀ (s : State) (ring r : Nat) (d : Desc), s.canStartOp ring 0x1A anyDesc = some d → r = (s.ring ring).room →
    ((s.room r).stepEnded d.epoch = true → exec (.checkpoint ring) s = .next (s.complete ring d.seq stBadDescriptor Code.stepLate 0 0 0)) ∧
    ((s.room r).stepEnded d.epoch = false → exec (.checkpoint ring) s = .next ((s.markStarted ring d.seq).setRoom r { s.room r with
      plans := (s.room r).plans ++ [⟨d.epoch, if d.fld 8 1 = 1 then none else some ⟨d.fld 16 2, d.fld 18 2, d.fld 20 4, d.fld 24 8, d.fld 32 8⟩, ring, d.seq⟩] }))

/-- A write of ACTIVATE by the physical function runs the check: if it passes while no room runs an incarnation and none is pending, PENDING is set and nothing else changes but the check's result; if it fails, its code is in SCHED_STATUS and PENDING is as it was. At the next device time that is a whole multiple of the staged US, with no pacing room, the staged schedule is copied to the active one and PENDING is cleared. (R351) -/
def Obligations.ScheduleActivatesAtAFrame : Prop :=
  ∀ s : State,
    (s.schedCheck = none → s.sched.pending = false → (∀ p ∈ s.rooms, p.2.job = none) →
      exec (.activate 0) s = .next { s with sched := { s.sched with pending := true, err := 0, passed := true } }) ∧
    (∀ k, s.schedCheck = some k → exec (.activate 0) s = .next { s with sched := { s.sched with err := k, passed := false } }) ∧
    (exec (.check 0) s = .next { s with sched := { s.sched with err := s.schedCheck.getD 0, passed := s.schedCheck.isNone } }) ∧
    ∀ at_, s.sched.pending = true → s.sched.pacing = none → s.time.now ≤ at_ → at_ % (1000 * s.sched.staged.us) = 0 → 0 < s.sched.staged.us →
      ∃ t, exec (.frameBoundary at_) s = .next t ∧ t.sched.active = s.sched.staged ∧ t.sched.pending = false ∧
        t = { s with
          time := (s.upto at_).time
          sched := { s.sched with active := s.sched.staged, pending := false, running := [] } }

/-- Where d is the startable descriptor of a ring for one of the ingest commands and its die's units serve the room, the command runs its work and ends it as R286 says: with status OK, the counter the descriptor names is raised by 1 as a count (none for 0xFFFF), the site's count of ended work is raised, and the completion is posted last; with DATA_ERROR, the site's count of data errors is raised; the engine time is charged. DECODE_OPEN within the grant, of a context not open, with a picture size of Table 11.2 and a writable reference area of the size of R289, opens the stream. DECODE_FRAME of an open stream of its ring, whose unit can be read and is a listed picture within the stream's geometry, writes the planes or the tensor and completes with the picture's output order. DECODE_CLOSE removes the stream that its ring opened. DEVELOP_LOAD of a record that passes R295 with readable tables keeps record and tables; DEVELOP_FRAME of a loaded context runs the frame of R296 and R297. TOKENIZE_LOAD of a dictionary that passes R300 keeps it, and TOKENIZE_RUN writes the IDs that the loaded dictionary makes of the bytes. AUGMENT with a valid block writes its tensor. A DECODE of a context outside the room's grant completes with INGEST_CONTEXT. A write of INGEST_SEL by the physical function selects the context and takes the snapshot of INGEST_INFO. (Derived from R285, R286, R288, R289, R290, R291, R294, R295, R297, R300, R301, R538.) -/
def Obligations.IngestDescriptorsEndWithTheirCompletion : Prop :=
  (∀ (u : State) (ring site r : Nat) (d : Desc) (e : IngestEnd), r = (u.ring ring).room →
    (e.status = stOk → u.ingestEnd ring site d e =
      (((u.postCounter r (d.fld 14 2) (d.fld 16 1) 1 engineWait).ingestCount site 0 1).complete ring d.seq stOk e.detail e.result0 e.result1 e.aux).chargeIngest
        r d e.ns) ∧
    (e.status = stDataError → u.ingestEnd ring site d e =
      ((u.ingestCount site 3 1).complete ring d.seq stDataError e.detail e.result0 e.result1 e.aux).chargeIngest r d e.ns) ∧
    (e.status ≠ stOk → e.status ≠ stDataError → u.ingestEnd ring site d e =
      (u.complete ring d.seq e.status e.detail e.result0 e.result1 e.aux).chargeIngest r d e.ns)) ∧
  (∀ (s v u : State) (ring op : Nat) (c : Instr) (p : Desc → Bool) (d : Desc) (e : IngestEnd), IngestServed s v ring op p d →
    (c, op, p, u, e) ∈
      [(Instr.decodeOpen ring, 0x20, (fun d => d.fld 8 1 == 0), endOr v (v.decodeOpen ring (s.ring ring).room d)),
       (.decodeFrame ring, 0x20, (fun d => d.fld 8 1 == 1), v.decodeFrame ring (s.ring ring).room d),
       (.developLoad ring, 0x21, (fun d => d.fld 8 1 == 0), endOr v (v.developLoad ring (s.ring ring).room d)),
       (.developFrame ring, 0x21, (fun d => d.fld 8 1 == 1), v.developFrame ring (s.ring ring).room d),
       (.tokenizeLoad ring, 0x22, (fun d => d.fld 8 1 == 0), endOr v (v.tokenizeLoad ring (s.ring ring).room d)),
       (.tokenizeRun ring, 0x22, (fun d => d.fld 8 1 == 1), v.tokenizeRun ring (s.ring ring).room d),
       (.augment ring, 0x23, anyDesc, v.augment (s.ring ring).room d)] →
    exec c s = .next (u.ingestEnd ring (d.ingestDie s.variant) d e)) ∧
  (∀ (s : State) (ring k : Nat) (c : Instr) (d : Desc), (c, k) ∈ [(Instr.decodeOpen ring, 0), (.decodeClose ring, 2)] →
    s.canStartOp ring 0x20 (fun d => d.fld 8 1 == k) = some d → s.ingestGranted (s.ring ring).room 0 (d.fld 12 2) = false →
    exec c s = .next (s.ingestEnd ring (d.ingestDie s.variant) d (IngestEnd.bad Code.ingestContext))) ∧
  (∀ (s : State) (ring n w h codec r : Nat) (d : Desc), s.canStartOp ring 0x20 (fun d => d.fld 8 1 == 0) = some d → r = (s.ring ring).room →
    n = d.fld 12 2 → w = d.fld 20 2 → h = d.fld 22 2 → codec = d.fld 10 1 → s.ingestGranted r 0 n = true → tfind s.ingest.streams n = none →
    0 < w → 0 < h → w ≤ (largestPicture codec).1 → h ≤ (largestPicture codec).2 → (codec = 0 → d.fld 11 1 ≠ 10) →
    refNeed codec w h (d.fld 11 1) ≤ d.fld 32 8 → s.checkRange r (d.fld 24 8) (d.fld 32 8) true = none →
    exec (.decodeOpen ring) s = .next ({ s with ingest := { s.ingest with
      streams := tset s.ingest.streams n ⟨ring, codec, w, h, d.fld 11 1, d.fld 24 8, d.fld 32 8, false, []⟩ } }.ingestEnd ring
        (ingestSite s.variant 0 n) d IngestEnd.ok)) ∧
  (∀ (s v u : State) (ring n r site : Nat) (d : Desc) (x : Stream) (bs : List Byte) (p : Picture), IngestServed s v ring 0x20 (fun d => d.fld 8 1 == 1) d →
    r = (s.ring ring).room → n = d.fld 12 2 → site = ingestSite s.variant 0 n → v.ingestGranted r 0 n = true → tfind v.ingest.streams n = some x →
    x.ring = ring → v.readAny r (d.fld 24 8) (d.fld 20 4) = .ok bs →
    p = pictureOf x.codec (b2n (bit (d.fld 9 1) 0)) x.units (bs.map BitVec.toNat) →
    u = (v.ingestCount site 1 (d.fld 20 4)).chargeNormal r (d.fld 24 8) (d.fld 20 4) →
    (x.broken = true → p.rap = false → exec (.decodeFrame ring) s = .next (u.ingestEnd ring site d (IngestEnd.data Code.ingestNoref))) ∧
    ((x.broken = false ∨ p.rap = true) → ∀ z : Stream, z = { x with units := x.units ++ [bs.map BitVec.toNat] } →
      ∀ u' : State, (u.setStream n z).storeRefs r z = (u', none) →
      (p.verdict = 1 → exec (.decodeFrame ring) s = .next (u'.ingestEnd ring site d { IngestEnd.data Code.ingestUnsupported with
        ns := ceilDiv (p.coded * 1000000000) 497664000 })) ∧
      (p.verdict = 2 → exec (.decodeFrame ring) s = .next ((u'.setStream n { z with broken := true }).ingestEnd ring site d
        { IngestEnd.data Code.ingestBitstream with ns := ceilDiv (p.coded * 1000000000) 497664000 })) ∧
      (p.verdict = 0 → p.listed x.codec = true → p.w ≤ x.width → p.h ≤ x.height → p.depth ≤ x.depth → bit (d.fld 9 1) 1 = false →
        ∀ l q u'', p.native (d.fld 56 4) = (l, q) → (u'.setStream n { z with broken := false }).putRows r 0 (l.map (fun y => (d.fld 32 8 + y.1, y.2)) ++
          q.map fun y => (d.fld 40 8 + y.1, y.2)) = (u'', none) →
        exec (.decodeFrame ring) s = .next ((u''.ingestCount site 2 (rowsBytes l + rowsBytes q)).ingestEnd ring site d
          { IngestEnd.ok with result0 := p.order, ns := ceilDiv (p.coded * 1000000000) 497664000 })))) ∧
  (∀ (s : State) (ring : Nat) (d : Desc) (x : Stream), s.canStartOp ring 0x20 (fun d => d.fld 8 1 == 2) = some d →
    s.ingestGranted (s.ring ring).room 0 (d.fld 12 2) = true → tfind s.ingest.streams (d.fld 12 2) = some x →
    (x.ring ≠ ring → exec (.decodeClose ring) s = .next (s.ingestEnd ring (d.ingestDie s.variant) d (IngestEnd.bad Code.ingestRing))) ∧
    (x.ring = ring → exec (.decodeClose ring) s = .next ({ s with ingest := { s.ingest with
      streams := tdel s.ingest.streams (d.fld 12 2) } }.ingestEnd ring (d.ingestDie s.variant) d IngestEnd.ok))) ∧
  (∀ (s : State) (ring n r : Nat) (d : Desc) (bs : List Byte) (tables : List Memory), s.canStartOp ring 0x21 (fun d => d.fld 8 1 == 0) = some d →
    r = (s.ring ring).room → n = d.fld 12 2 → s.ingestGranted r 1 n = true → (∀ x, tfind s.ingest.devs n = some x → x.ring = ring) →
    s.readAny r (d.fld 24 8) 256 = .ok bs → calOk (memWriteN [] 0 bs) = true → (calTables (memWriteN [] 0 bs)).mapM (s.calTable r) = .ok tables →
    ∃ t u : State, exec (.developLoad ring) s = .next t ∧ t = u.ingestEnd ring (ingestSite s.variant 1 n) d IngestEnd.ok ∧
      (tfind t.ingest.devs n).map (fun x => (x.ring, x.calib)) = some (ring, bs) ∧ u.rings = s.rings) ∧
  (∀ (s v u : State) (ring n r w h site nb seed : Nat) (d : Desc) (x : DevCtx) (ob : List Byte) (m : Memory) (rows : List (List Byte)) (e : IngestEnd) (c : Capture),
    IngestServed s v ring 0x21 (fun d => d.fld 8 1 == 1) d → r = (s.ring ring).room → n = d.fld 12 2 → w = d.fld 32 2 → h = d.fld 34 2 →
    site = ingestSite s.variant 1 n → v.ingestGranted r 1 n = true → tfind v.ingest.devs n = some x → x.ring = ring →
    v.readAny r (d.fld 40 8) 64 = .ok ob → outsOk (memWriteN [] 0 ob) = true →
    v.frameAug r (memNat (memWriteN [] 0 ob) 32 8) (d.fld 48 8) (calHas (memWriteN [] 0 x.calib) 4) = .ok m →
    v.frameSeed r (memNat (memWriteN [] 0 ob) 32 8) m = .ok seed → captureOk (memWriteN [] 0 x.calib) w h = true →
    nb = (if bit (d.fld 9 1) 0 then ceilDiv (w * calBits (memWriteN [] 0 x.calib)) 8 else 2 * w) →
    (List.range h).mapM (fun y => v.ingestRead r (d.fld 24 8 + y * d.fld 20 4) nb) = .ok rows →
    c = ⟨memWriteN [] 0 x.calib, x.defects, x.shading, x.tone, w, h,
      fun i j => rawAt (bit (d.fld 9 1) 0) (calBits (memWriteN [] 0 x.calib)) ((rows.map fun l => memWriteN [] 0 l).getD j []) i⟩ →
    ((List.range h).foldl (fun s y => s.chargeNormal r (d.fld 24 8 + y * d.fld 20 4) nb) v).frameOut r site d c (memWriteN [] 0 ob) m seed nb = (u, e) →
    exec (.developFrame ring) s = .next (u.ingestEnd ring site d e)) ∧
  (∀ (s : State) (ring n r : Nat) (d : Desc) (hd bs : List Byte), s.canStartOp ring 0x22 (fun d => d.fld 8 1 == 0) = some d → r = (s.ring ring).room →
    n = d.fld 10 1 → s.ingestGranted r 2 n = true → (∀ x, tfind s.ingest.dicts n = some x → x.ring = ring) →
    s.readAny r (d.fld 24 8) 64 = .ok hd → dictHeadOk (memWriteN [] 0 hd) = true →
    s.readAny r (d.fld 24 8) (64 + 16 * memNat (memWriteN [] 0 hd) 4 4 + memNat (memWriteN [] 0 hd) 24 8) = .ok bs → dictOk (memWriteN [] 0 bs) = true →
    ∃ t u : State, exec (.tokenizeLoad ring) s = .next t ∧ t = u.ingestEnd ring 3 d IngestEnd.ok ∧ u.rings = s.rings ∧
      (tfind t.ingest.dicts n).map (fun x => (x.ring, x.entries)) = some (ring, (dictEntries (memWriteN [] 0 bs)).map fun e => (e.1, e.2.1))) ∧
  (∀ (s v : State) (ring n r used bad : Nat) (d : Desc) (x : Dict) (bs out : List Byte) (ids : List (Nat × Bool)) (cut : Bool) (w : Wrote),
    IngestServed s v ring 0x22 (fun d => d.fld 8 1 == 1) d → r = (s.ring ring).room → n = d.fld 10 1 → v.ingestGranted r 2 n = true →
    tfind v.ingest.dicts n = some x → x.ring = ring → isZero32 (d.fld 44 4) = true → v.readAny r (d.fld 24 8) (d.fld 20 4) = .ok bs →
    tokenize x bs (d.fld 40 4) = (ids, used, bad, cut) →
    out = (ids.flatMap fun p => if bit (d.fld 9 1) 0 then leBytes 2 (Nat.min p.1 65535) else leBytes 4 p.1) →
    w = ((((v.ingestCount 3 1 bs.length).ingestCount 3 2 out.length).chargeNormal r (d.fld 24 8) bs.length).chargeNormal r (d.fld 32 8) out.length).writeAny
      r (d.fld 32 8) out → w.code = none →
    ∃ aux, exec (.tokenizeRun ring) s = .next (w.s.ingestEnd ring 3 d
      ⟨stOk, if cut then Code.ingestTruncated else 0, ids.length, used, aux, 200 + bs.length + ids.length⟩)) ∧
  (∀ (s v u : State) (ring r seed : Nat) (d : Desc) (m : Memory) (rows : List (List Byte)), IngestServed s v ring 0x23 anyDesc d → r = (s.ring ring).room →
    v.augBlock r (d.fld 48 8) false = .ok m → v.augSeed r (augDraws m) = .ok seed →
    (List.range (d.fld 42 2)).mapM (fun y => v.ingestRead r (d.fld 24 8 + y * d.fld 20 4) (rowBytesOf (d.fld 44 1) (3 * d.fld 40 2))) = .ok rows →
    ((List.range (d.fld 42 2)).foldl (fun s y => s.chargeNormal r (d.fld 24 8 + y * d.fld 20 4) (rowBytesOf (d.fld 44 1) (3 * d.fld 40 2)))
      (v.ingestCount 3 1 (rowsBytes (rows.map fun l => (0, l))))).tensorOut r m seed ⟨d.fld 40 2, d.fld 42 2, fun a b k =>
        let q := readElem ((rows.map fun l => memWriteN [] 0 l).getD b []) (d.fld 44 1) 0 (3 * a + k)
        if d.fld 44 1 = 0xE then frat q 255 else rne32 (decodeElem (d.fld 44 1) q)⟩ 3 (d.fld 32 8) (d.fld 56 4) 3 = (u, none) →
    exec (.augment ring) s = .next (u.ingestEnd ring 3 d { IngestEnd.ok with
      ns := 300 + ceilDiv (d.fld 40 2 * d.fld 42 2) 4 + ceilDiv (augU m 2 2 * augU m 4 2) 4 })) ∧
  ∀ (s : State) (fn v : Nat),
    exec (.ingestSel 0 v) s = .next { s with ingest := { s.ingest with sel := v % 2 ^ 18, info := s.ingestInfo v } } ∧
    (fn ≠ 0 → exec (.ingestSel fn v) s = .next { s with badAccess := sat64 (s.badAccess + 1) })

/-- A COMMIT by the physical function, while every steward runs, writes the first failing check's code to GRANT_ERR and nothing else, of a room that is not VACANT too, or commits the room; a virtual function's COMMIT and TURNOVER change nothing. A TURNOVER cuts a committed room: TURNOVER, phase 1 from now, no incarnation, no changes, no plans, no consent, no page on the move; one in TURNOVER only takes the wishes of the trigger with it. GATE_CLOSE in phase 1, and DRAIN_LIMIT 50 us after its start, run the scrub and bring phase 3: no semaphore, forest, kernel or program is left, the heat thresholds read 64, and the state word is unchanged; the limit sets DRAIN_FORCED. A DRAIN_LIMIT earlier than that, or in phase 3 where none was forced, only moves the time on. ZEROING_COMPLETE ends phase 3: the room's memory is reset, its turnover and its fault record gone, its seed unset, and the room is VACANT with no grant where release was asked for, and otherwise COMMITTED with its grant as it was. (Derived from R331, R333, R335, R336, R337, R338, R339, R340, R343.) -/
def Obligations.RoomsAreCommittedAndTurnedOver : Prop :=
  ∀ (s : State) (room : Nat),
    (∀ fn, fn ≠ 0 → exec (.commit fn room) s = .next s ∧ ∀ b, exec (.turnover fn room b) s = .next s) ∧
    (room < 64 → s.stewards.ready = true →
      ((s.room room).st ≠ .vacant → s.grantCheck room = some Code.grantState) ∧
      (∀ k, s.grantCheck room = some k → exec (.commit 0 room) s = .next (s.setRoom room { s.room room with grantErr := k })) ∧
      (s.grantCheck room = none → (s.room room).sec.conf = false → exec (.commit 0 room) s = .next (s.commitRoom room) ∧
        ((s.commitRoom room).room room).st = .committed ∧ ((s.commitRoom room).room room).grant = (s.room room).grant)) ∧
    (∀ release, (s.room room).st = .committed → exec (.turnover 0 room release) s = .next (s.cutRoom room release false true) ∧
      ∃ t, exec (.turnover 0 room release) s = .next t ∧ (t.room room).st = .turnover ∧ (t.room room).turn = some ⟨s.time.now, 1, release, false⟩ ∧
        (t.room room).job = none ∧ (t.room room).modes = [] ∧ (t.room room).plans = [] ∧ (t.room room).sec.consent = none ∧
        (t.room room).grant = (s.room room).grant ∧ ∀ p ∈ (t.room room).mem.pages, p.2.moving = none) ∧
    (∀ release u, (s.room room).st = .turnover → (s.room room).turn = some u →
      exec (.turnover 0 room release) s = .next (s.setRoom room { s.room room with turn := some { u with release := u.release || release } })) ∧
    (∀ u, (s.room room).st = .turnover → (s.room room).turn = some u → u.phase = 1 →
      ∃ t, exec (.gateClose room) s = .next t ∧ (t.room room).st = .turnover ∧ (t.room room).turn = some { u with phase := 3 } ∧
        (t.room room).sems = [] ∧ (t.room room).forest = none ∧ (t.room room).kernels = [] ∧ (t.room room).prog = [] ∧
        (t.room room).mem.promoteHeat = 64 ∧ (t.room room).mem.promoteNext = 64 ∧ (∀ r, r ≠ room → t.room r = s.room r)) ∧
    (∀ u unit at_, (s.room room).st = .turnover → (s.room room).turn = some u →
      (u.phase = 1 → u.start + 50000 ≤ (s.upto at_).time.now →
        ∃ t, exec (.drainLimit room unit at_) s = .next t ∧ (t.room room).drainForced = true ∧ (t.room room).turn = some { u with phase := 3 } ∧
          t.health.seq + t.health.held.length = s.health.seq + s.health.held.length + 1 ∧ (∀ r, r ≠ room → t.room r = s.room r)) ∧
      ((s.upto at_).time.now < u.start + 50000 ∨ (u.phase = 3 ∧ (s.room room).drainForced = false) →
        exec (.drainLimit room unit at_) s = .next (s.upto at_))) ∧
    ∀ u at_, (s.room room).st = .turnover → (s.room room).turn = some u → u.phase = 3 → u.disable = false →
      ∃ t, exec (.zeroingComplete room at_) s = .next t ∧ (t.room room).mem = RoomMem.reset ∧ (t.room room).turn = none ∧ (t.room room).fault = none ∧
        (t.room room).seed = none ∧ (t.room room).turnNs = (s.upto at_).time.now - u.start ∧
        (u.release = true → (t.room room).st = .vacant ∧ (t.room room).grant = Grant.reset room) ∧
        (u.release = false → (t.room room).st = .committed ∧ (t.room room).grant = (s.room room).grant ∧ (t.room room).sec.cellarKey ≠ none)

/-- In every state where the physical function exists, the next state of HOT_RESET is the next state of FUNCTION_LEVEL_RESET of function 0. In it every room that was COMMITTED, or already in TURNOVER, is in TURNOVER, VF Enable and NumVFs are 0 and a virtual function's VACANT room is ABSENT. It is no host reset: the module's supplies, pins, straps and link, the cause of the last reset and device time are as they were, and so is the power state on a device that counts no caravan barrier. (R521) -/
def Obligations.HotResetIsAFunctionResetOfThePhysicalFunction : Prop :=
  ∀ s : State, (s.room 0).st ≠ .absent → ∃ t, exec .hotReset s = .next t ∧ exec (.functionLevelReset 0) s = .next t ∧
    (∀ r, r ≤ 63 → ((s.room r).st = .committed ∨ (s.room r).st = .turnover) → (t.room r).st = .turnover) ∧
    (∀ r, 1 ≤ r → r ≤ 63 → (s.room r).st = .vacant → (t.room r).st = .absent) ∧
    t.vfEnable = false ∧ t.numVfs = 0 ∧ t.module = s.module ∧ t.power.lastReset = s.power.lastReset ∧ (s.caravan.jobs = [] → t.power = s.power) ∧ t.time = s.time

/-- After VF_ENABLE_CHANGE to enable with NumVFs n at most 63, every room from 1 to n that was ABSENT is VACANT and every other of them is as it was; every room from n + 1 to 63, and with VF Enable 0 every room from 1 to 63, is ABSENT if it was VACANT, with no grant and its own registers at 0, and in TURNOVER if it was COMMITTED; room 0 is as it was. A FUNCTION_LEVEL_RESET of an existing virtual function takes its interrupt vectors and register snapshots back to reset, then turns its committed room over, and leaves every other room's state word as it was; one of a function that does not exist changes nothing. One of the physical function turns every committed room over and disables every virtual function. (Derived from R328, R338.) -/
def Obligations.FunctionsAreEnabledAndReset : Prop :=
  (∀ (s : State) (en : Bool) (n : Nat), n ≤ 63 → ∃ t, exec (.vfEnableChange en n) s = .next t ∧ t.vfEnable = en ∧ t.numVfs = n ∧
    (t.room 0).st = (s.room 0).st ∧ t.module = s.module ∧ t.time = s.time ∧
    (∀ r, 1 ≤ r → r ≤ n → en = true → (t.room r).st = if (s.room r).st = .absent then .vacant else (s.room r).st) ∧
    ∀ r, 1 ≤ r → r ≤ 63 → (en = false ∨ n < r) →
      ((s.room r).st = .committed ∨ (s.room r).st = .turnover → (t.room r).st = .turnover) ∧
      ((s.room r).st = .vacant ∨ (s.room r).st = .absent → (t.room r).st = .absent) ∧
      ((s.room r).st = .vacant → (t.room r).grant = Grant.reset r ∧ (t.room r).iface = 0 ∧ (t.room r).rtab = 0 ∧ (t.room r).startErr = false ∧
        (t.room r).grantErr = 0)) ∧
  (∀ (s : State) (fn : Nat), ((s.room fn).st = .absent → exec (.functionLevelReset fn) s = .next s) ∧
    (fn ≠ 0 → (s.room fn).st ≠ .absent → ∃ t, exec (.functionLevelReset fn) s = .next t ∧ t = (s.resetFunction fn).startTurnover fn false false false ∧
      (s.resetFunction fn).snaps = tdel s.snaps fn ∧ (∀ k, k / 32 = fn → tfind (s.resetFunction fn).msix k = none) ∧
      ((s.room fn).st = .committed → (t.room fn).st = .turnover) ∧ (∀ r, r ≠ fn → (t.room r).st = (s.room r).st) ∧
      t.vfEnable = s.vfEnable ∧ t.numVfs = s.numVfs ∧ t.module = s.module ∧ t.time = s.time)) ∧
  ∀ s : State, (s.room 0).st ≠ .absent → ∃ t, exec (.functionLevelReset 0) s = .next t ∧ t.vfEnable = false ∧ t.numVfs = 0 ∧
    ∀ r, r ≤ 63 → (s.room r).st = .committed → (t.room r).st = .turnover

/-- For a function that answers, an access that the device does not serve returns 0, writes nothing and adds 1 to HOST_BAD_ACCESS. A 4-byte read at the first bytes of a register returns its low 32 bits and takes the snapshot of the whole; a later 4-byte read inside the same register returns that snapshot's word. A read of TIME_NOW_LO by the physical function returns the low 32 bits of device time and latches the high 32. After what the host did, a 4-byte write at the last bytes of a register that takes writes gives the register the whole value, of the words held for it, the words it reads and the word written, and clears its held words; one at its other bytes is held and changes nothing else; one of a register that no write changes does nothing. A function that does not answer is neither read nor written. Then NET_COMMIT locks the port configuration, and a TIME_TOD_SET is kept for the next edge where PTP is absent. (Derived from R17, R408, R434, R528, R530, R531.) -/
def Obligations.RegistersAreReadAndWritten : Prop :=
  (∀ (s : State) (fn o n v : Nat) (host : List HostAct),
    (s.answers fn = false → exec (.wideRegisterRead fn o n) s = .next s) ∧
    ((s.hostActs host).answers fn = false → exec (.registerWrite fn o n v host) s = .next (s.hostActs host)) ∧
    (s.answers fn = true → accessOk fn o n = false → exec (.wideRegisterRead fn o n) s =
      .next { s with badAccess := sat64 (s.badAccess + 1), out := s.out ++ [.readData fn o n 0] }) ∧
    ((s.hostActs host).answers fn = true → accessOk fn o n = false → exec (.registerWrite fn o n v host) s =
      .next { s.hostActs host with badAccess := sat64 ((s.hostActs host).badAccess + 1) })) ∧
  (∀ (s : State) (fn o a : Nat) (d : RegDef) (i : Nat), s.answers fn = true → accessOk fn o 4 = true → seenAt fn o = some a → regAt a = some (d, i) →
    (a = d.base i → a ≠ 0x040000 → exec (.wideRegisterRead fn o 4) s =
      .next { s with snaps := tset s.snaps fn (a, d.bytes, d.val s fn i), out := s.out ++ [.readData fn o 4 (d.val s fn i % 2 ^ 32)] }) ∧
    (a ≠ d.base i → ∀ k w, tfind s.snaps fn = some (d.base i, k, w) → exec (.wideRegisterRead fn o 4) s =
      .next { s with out := s.out ++ [.readData fn o 4 (w / 2 ^ (32 * ((a - d.base i) / 4)) % 2 ^ 32)] })) ∧
  (∀ s : State, ∃ t, exec (.timeNowLo 0) s = .next t ∧ t.time.latched = s.time.now / 2 ^ 32 % 2 ^ 32 ∧
    t.out = s.out ++ [.readData 0 0x040000 4 (s.time.now % 2 ^ 32)] ∧
    t = { s with time := { s.time with latched := t.time.latched }, snaps := t.snaps, out := t.out }) ∧
  (∀ (s u : State) (fn o a v : Nat) (host : List HostAct) (d : RegDef) (i : Nat), u = s.hostActs host → u.answers fn = true → v < 2 ^ 32 →
    accessOk fn o 4 = true → seenAt fn o = some a → regAt a = some (d, i) →
    (d.put = none → exec (.registerWrite fn o 4 v host) s = .next u) ∧
    ∀ f, d.put = some f →
      (a + 4 = d.base i + d.bytes → exec (.registerWrite fn o 4 v host) s = .next (f { u with held := tfilter u.held fun k _ =>
        !(decide (heldKey fn (d.base i) ≤ k) && decide (k < heldKey fn (d.base i) + d.bytes)) } fn i (u.wholeOf fn (d.base i) d.bytes (d.val u fn i) v))) ∧
      (a + 4 ≠ d.base i + d.bytes → exec (.registerWrite fn o 4 v host) s = .next { u with held := tset u.held (heldKey fn a) v })) ∧
  ∀ (s : State) (fn v : Nat),
    exec (.netCommit 0) s = .next { s with net := { s.net with locked := true } } ∧
    (1 ∉ s.time.present → exec (.timeTodSet 0 v) s = .next { s with time := { s.time with todPending := some v } }) ∧
    (fn ≠ 0 → exec (.netCommit fn) s = .next { s with badAccess := sat64 (s.badAccess + 1) } ∧
      exec (.timeTodSet fn v) s = .next { s with badAccess := sat64 (s.badAccess + 1) })

/-- For POWER_CLKGATE and POWER_PWRGATE by the physical function, on the cores of a die and on the other units (a word that gates no steward): each bit of the word takes the value written, unless a committed room holds its unit or a confidential room locks it, where it keeps its value. GATE_IGNORED grows by the number of changed bits of held units. No other word of the power block changes. A power-gated core loses its state, and no other core's changes. After a write to the other units every steward pair is marked gated as bit 24 of the two words stands, and none runs that is. By a virtual function, nothing is written and HOST_BAD_ACCESS grows by 1. (Derived from R376, R471, R491.) -/
def Obligations.GateWritesStopAtHeldUnits : Prop :=
  (∀ (s : State) (pwr : Bool) (g value : Nat) (c : Instr), (c, pwr) ∈ [(Instr.powerClkgate 0 g value, false), (.powerPwrgate 0 g value, true)] → g < 2 →
    ∃ t w, exec c s = .next t ∧
      t.power = withGate { s.power with
        gateIgnored := s.power.gateIgnored + ignoredBits 68 (gateWord s.power pwr g) value (s.physMask g (s.heldCores g)) } pwr g w ∧
      (∀ i, i < 68 → bit w i = if bit (s.physMask g (s.heldCores g)) i || bit (s.physMask g (s.lockCores g)) i then bit (gateWord s.power pwr g) i else bit value i) ∧
      (∀ k, (pwr = false ∨ coreDie k ≠ g) → t.core k = s.core k) ∧ t.rooms = s.rooms ∧ t.host = s.host) ∧
  (∀ (s : State) (pwr : Bool) (value : Nat) (c : Instr), (c, pwr) ∈ [(Instr.powerClkgate 0 2 value, false), (.powerPwrgate 0 2 value, true)] →
    bit value 24 = false → bit (gateWord s.power false 2) 24 = false → bit (gateWord s.power true 2) 24 = false →
    ∃ t w, exec c s = .next t ∧
      t.power = withGate { s.power with
        gateIgnored := s.power.gateIgnored + ignoredBits 25 (gateWord s.power pwr 2) value s.heldUnits } pwr 2 w ∧
      (∀ i, i < 25 → bit w i = if bit s.heldUnits i || bit s.lockUnits i then bit (gateWord s.power pwr 2) i else bit value i) ∧
      t.cores = s.cores ∧ t.rooms = s.rooms ∧ t.host = s.host) ∧
  (∀ (s : State) (pwr : Bool) (value : Nat) (c : Instr), (c, pwr) ∈ [(Instr.powerClkgate 0 2 value, false), (.powerPwrgate 0 2 value, true)] →
    ∃ t w, exec c s = .next t ∧ gateWord t.power pwr 2 = w ∧ gateWord t.power (!pwr) 2 = gateWord s.power (!pwr) 2 ∧
      (∀ i, i < 25 → bit w i = if bit s.heldUnits i || bit s.lockUnits i then bit (gateWord s.power pwr 2) i else bit value i) ∧
      ∀ p, p < 4 → (t.pair p).gated = bit (t.power.clkUnits ||| t.power.pwrUnits) 24 ∧
        (bit (t.power.clkUnits ||| t.power.pwrUnits) 24 = true → (t.pair p).st ≠ 1)) ∧
  ∀ (s : State) (fn g value : Nat), fn ≠ 0 →
    exec (.powerClkgate fn g value) s = .next { s with badAccess := sat64 (s.badAccess + 1) } ∧
    exec (.powerPwrgate fn g value) s = .next { s with badAccess := sat64 (s.badAccess + 1) }

/-- A write of a multiple of 2^16 (the 16-bit value 0) to MEM_PROMOTE_HEAT is ignored. Any value from 1 to 65,535 written by the physical function for a room that exists and is not in turnover, whether or not it runs an incarnation, is held for the next epoch and changes nothing else; by a virtual function it is a refused access. At a MIGRATION_EPOCH, a device time that is a whole multiple of 1 ms and not past, every room's threshold becomes the value held, and of every room only the threshold, the page table with its heat and moves, and the ledger change: no byte of its memory, no window, no view. Nothing else of the device changes but its time. (R540) -/
def Obligations.HeatThresholdTakesEffectAtTheEpoch : Prop :=
  (∀ (s : State) (room v : Nat), room < 64 →
    (v % 2 ^ 16 = 0 → exec (.memPromoteHeat 0 room v) s = .next s) ∧
    (1 ≤ v → v ≤ 65535 → (s.room room).st ≠ .absent → (s.room room).st ≠ .turnover → exec (.memPromoteHeat 0 room v) s =
      .next (s.setRoom room { s.room room with mem := { (s.room room).mem with promoteNext := v } })) ∧
    ∀ fn, fn ≠ 0 → exec (.memPromoteHeat fn room v) s = .next { s with badAccess := sat64 (s.badAccess + 1) }) ∧
  ∀ (s : State) (at_ : Nat), at_ % 1000000 = 0 → s.time.now ≤ at_ → ∃ t, exec (.migrationEpoch at_) s = .next t ∧
    (∀ r, ∃ p g, t.room r = { s.room r with ledger := g, mem := { (s.room r).mem with promoteHeat := (s.room r).mem.promoteNext, pages := p } }) ∧
    t = { s with rooms := t.rooms, time := (s.upto at_).time }

/-- A command of the window by a virtual function is a refused access. By the physical function, for a room whose turnover is not in phase 3 and with its record readable: in a room that is not COMMITTED and confidential every command ends with SEC_NOT_CONF. TENANT sets the first 96 bytes read as the tenant key, with no import and no consent yet, or ends with SEC_TENANT_SET. IMPORT without a tenant ends with SEC_NO_TENANT, with a bad record with SEC_IMPORT_SIG, of a generation not above the last with SEC_DUP_KEY; with a good record of a generation above the last it sets the content key, the generation and an export count of 0. CONSENT without a tenant ends with SEC_NO_TENANT and with a token that does not pass with SEC_CONSENT; a good token replaces the consent, and only later sequence numbers are taken after it. REVOKE leaves no consent. TENANT_ATTEST writes its report at 64 bytes past the address of the window and ends with code 0. Each sets the done bit, only the named fields of that room change, and outside the room only the audit log, the debug session and, for TENANT_ATTEST, host memory and drawn values. A record that the host refuses ends with HOST_READ. A consent whose time has come ends, and one whose time has not come stays; with DEBUG_WINDOW_END's time the window and its session end. (Derived from R461, R467, R469, R470.) -/
def Obligations.TenantWindowCommandsActOnTheirRoom : Prop :=
  (∀ (s : State) (fn room cmd : Nat) (v w : Bool) (c : Instr), (c, cmd, w) ∈ windowCmds fn room v →
    (fn ≠ 0 → exec c s = .next { s with badAccess := sat64 (s.badAccess + 1) }) ∧
    (fn = 0 → room < 64 → (s.room room).phase ≠ 3 →
      (s.hostOk 0 (s.room room).sec.rqAddr (cmdBytes cmd) false = false → ∃ t, exec c s = .next t ∧ (t.room room).sec = windowDone (s.room room).sec Code.hostRead) ∧
      (s.hostOk 0 (s.room room).sec.rqAddr (cmdBytes cmd) false = true → ((s.room room).st ≠ .committed ∨ (s.room room).sec.conf = false) →
        exec c s = .next (s.setRoom room { s.room room with sec := windowDone (s.room room).sec Code.secNotConf })))) ∧
  (∀ (s : State) (room : Nat), room < 64 → (s.room room).st = .committed → (s.room room).sec.conf = true → (s.room room).phase ≠ 3 →
    (s.hostOk 0 (s.room room).sec.rqAddr 48 false = true → s.hostOk 0 ((s.room room).sec.rqAddr + 64) (768 + s.chain.length) true = true →
      ∃ t, exec (.tenantAttest 0 room) s = .next t ∧ (t.room room).sec = windowDone (s.room room).sec 0 ∧
        t.host = memWriteN (memWriteN (memWriteN s.host ((s.room room).sec.rqAddr + 64)
          (s.freshReport (some room) ((windowBody s room 1).take 48) (s.importPub room)).1)
          ((s.room room).sec.rqAddr + 768) (leBytes 4 s.chain.length)) ((s.room room).sec.rqAddr + 832) s.chain ∧
        t = { s with fresh := t.fresh, host := t.host, rooms := t.rooms }) ∧
    (s.hostOk 0 (s.room room).sec.rqAddr 96 false = true →
      ((s.room room).sec.tenant ≠ none → exec (.tenant 0 room) s = .next (s.setRoom room { s.room room with sec := windowDone (s.room room).sec Code.secTenantSet })) ∧
      ((s.room room).sec.tenant = none → ∃ t, exec (.tenant 0 room) s = .next t ∧
        t.room room = { s.room room with sec := windowDone { (s.room room).sec with tenant := some ((windowBody s room 2).take 96), importGen := 0, consentNext := 0 } 0 } ∧
        t = { s with rooms := t.rooms, sec := { s.sec with log := t.sec.log, nextSeq := t.sec.nextSeq, logLost := t.sec.logLost } })) ∧
    (s.hostOk 0 (s.room room).sec.rqAddr 256 false = true → ∀ verified,
      ((s.room room).sec.tenant = none →
        exec (.importKey 0 room verified) s = .next (s.setRoom room { s.room room with sec := windowDone (s.room room).sec Code.secNoTenant }) ∧
        exec (.consent 0 room verified) s = .next (s.setRoom room { s.room room with sec := windowDone (s.room room).sec Code.secNoTenant })) ∧
      ((s.room room).sec.tenant ≠ none → ∀ m, m = memWriteN [] 0 (toBytes (windowBody s room 3)) →
        (s.importOk room m verified = false →
          exec (.importKey 0 room verified) s = .next (s.setRoom room { s.room room with sec := windowDone (s.room room).sec Code.secImportSig })) ∧
        (s.importOk room m verified = true → memNat m 0 1 ≤ (s.room room).sec.importGen →
          exec (.importKey 0 room verified) s = .next (s.setRoom room { s.room room with sec := windowDone (s.room room).sec Code.secDupKey })) ∧
        (s.consentOk room (windowBody s room 4) verified = false →
          exec (.consent 0 room verified) s = .next (s.setRoom room { s.room room with sec := windowDone (s.room room).sec Code.secConsent })) ∧
        (s.importOk room m verified = true → (s.room room).sec.importGen < memNat m 0 1 → ∃ t k, exec (.importKey 0 room verified) s = .next t ∧
          t.room room = { s.room room with sec := windowDone { (s.room room).sec with content := some k, importGen := memNat m 0 1, exports := 0 } 0 } ∧
          t = { s with rooms := t.rooms, sec := { s.sec with log := t.sec.log, nextSeq := t.sec.nextSeq, logLost := t.sec.logLost } }) ∧
        (s.consentOk room (windowBody s room 4) verified = true → ∃ t, exec (.consent 0 room verified) s = .next t ∧
          t.room room = { s.room room with sec := windowDone { (s.room room).sec with
            consent := some (memNat m 16 4, memNat m 20 4, memNat m 24 8, (windowBody s room 4).take 256), consentNext := memNat m 16 4 + 1 } 0 } ∧
          t = { s with rooms := t.rooms, sec := { s.sec with log := t.sec.log, nextSeq := t.sec.nextSeq, logLost := t.sec.logLost, debug := t.sec.debug } }))) ∧
    (s.hostOk 0 (s.room room).sec.rqAddr 0 false = true → ∃ t, exec (.revoke 0 room) s = .next t ∧
      t.room room = { s.room room with sec := windowDone { (s.room room).sec with consent := none } 0 } ∧
      t = { s with rooms := t.rooms, sec := { s.sec with log := t.sec.log, nextSeq := t.sec.nextSeq, logLost := t.sec.logLost, debug := t.sec.debug } })) ∧
  (∀ (s : State) (room at_ : Nat) (c : Nat × Nat × Nat × List Nat), (s.room room).sec.consent = some c →
    (c.2.2.1 ≤ (s.upto at_).time.now → ∃ t, exec (.consentExpiry room at_) s = .next t ∧ t.room room = { s.room room with sec := { (s.room room).sec with consent := none } }) ∧
    ((s.upto at_).time.now < c.2.2.1 → exec (.consentExpiry room at_) s = .next (s.upto at_))) ∧
  ∀ (s : State) (at_ u : Nat), s.sec.debugUntil = some u →
    (u ≤ (s.upto at_).time.now → ∃ t, exec (.debugWindowEnd at_) s = .next t ∧ t.sec.debugUntil = none ∧ t.sec.debug = none ∧ t.rooms = s.rooms) ∧
    ((s.upto at_).time.now < u → exec (.debugWindowEnd at_) s = .next (s.upto at_))

/-- In a running room that the forest engine serves and whose forest's next command of a kind is c, FORK_CMD and PRUNE_CMD take c from the queue and run it on the forest as it stands: done, its counter is posted; a failed check or a refused store faults the job with the code, at the engine of the slot's die; where R212 stops it, its roster with the code is written, its time charged and its counter posted. SCORE with a failing check or unreadable pairs faults the job; otherwise each leaf named takes its score and value, and the counter is posted. SAMPLE with a failing check faults; otherwise its tokens are drawn and written leaf by leaf, and the counter is posted. SAMPLER_ERROR counts the engine's error of its sampler; the engine's second of the incarnation faults the job with FOREST_CHECK, the first leaves everything else as it was. Of a branch record, a corrected error is counted and nothing else happens, an uncorrectable one is counted and faults the job. (Derived from R199, R200, R203, R207, R209, R210, R212, R215, R216, R347.) -/
def Obligations.ForestCommandsRunFromTheirQueue : Prop :=
  (∀ (s t v : State) (room k : Nat) (c : Instr) (f g : Forest) (q : FCmd) (o : FOut), (c, k) ∈ [(Instr.forkCmd room, 1), (.pruneCmd room, 2)] →
    (s.room room).running = true → s.serve arbForest true s.forestRooms room = some v → (s.room room).forest = some f → f.nextCmd k = some q → g = { f with queue := dropCmd q f.queue } →
    (slotUnused q.raw = true → RunsTo (exec c s) ((cmdTaken v room f q).raiseFault room Code.forestCmd q.unit)) ∧
    (slotUnused q.raw = false → (t, o) = (if k = 1 then (cmdTaken v room f q).runFork room g (FArgs.ofSlot q.raw) else (cmdTaken v room f q).runPrune room g (FArgs.ofSlot q.raw)) →
      (o = .done → RunsTo (exec c s) (t.postCounter room (fld q.raw 6 2) (bits (fld q.raw 8 1) 3 0) 1 engineWait)) ∧
      (∀ e, o = .bad e → RunsTo (exec c s) (t.raiseFault room e q.unit)) ∧
      (∀ e u, o = .short e → u = (t.chargeForest room (24 + ceilDiv ((FArgs.ofSlot q.raw).rosterBytes (g.leaves (FArgs.ofSlot q.raw).tree).length) 256)).writeRoster room g (FArgs.ofSlot q.raw) e →
        (u.2 = none → RunsTo (exec c s) (u.1.postCounter room (fld q.raw 6 2) (bits (fld q.raw 8 1) 3 0) 1 engineWait)) ∧
        (∀ x, u.2 = some x → RunsTo (exec c s) (u.1.raiseFault room x q.unit))))) ∧
  (∀ (s v : State) (room : Nat) (f g : Forest) (q : FCmd), (s.room room).running = true → s.serve arbForest true s.forestRooms room = some v → (s.room room).forest = some f → f.nextCmd 4 = some q →
    g = { f with queue := dropCmd q f.queue } →
    (∀ e, q.scoreCheck g = some e → RunsTo (exec (.score room) s) ((cmdTaken v room f q).raiseFault room e q.unit)) ∧
    (q.scoreCheck g = none →
      (∀ e, (cmdTaken v room f q).readAny room (q.f 24 8) (8 * q.f 16 4) = .error e → RunsTo (exec (.score room) s) ((cmdTaken v room f q).raiseFault room e q.unit)) ∧
      ∀ pairs, (cmdTaken v room f q).readAny room (q.f 24 8) (8 * q.f 16 4) = .ok pairs → ∃ n, RunsTo (exec (.score room) s) ((((cmdTaken v room f q).modRoom room fun x => { x with
          forest := some ((q.leaves g).zipIdx.foldl (Forest.scoreLeaf (bit (q.f 1 1) 3) (q.f 44 4) pairs) g) }).chargeForest room n).postCounter
            room (fld q.raw 6 2) (bits (fld q.raw 8 1) 3 0) 1 engineWait))) ∧
  (∀ (s v : State) (room : Nat) (f g : Forest) (q : FCmd), (s.room room).running = true → s.serve arbForest true s.forestRooms room = some v → (s.room room).forest = some f → f.nextCmd 3 = some q →
    g = { f with queue := dropCmd q f.queue } →
    (∀ e, q.sampleCheck g = some e → RunsTo (exec (.sample room) s) ((cmdTaken v room f q).raiseFault room e q.unit)) ∧
    ∀ u, q.sampleCheck g = none → u = ((q.leaves g).zipIdx.flatMap fun b => (List.range (q.f 10 2)).map fun j => (b.2, b.1, j)).foldl
        (State.sampleToken room q (s.room room).seedOf (g.cycle (q.f 4 2))) (cmdTaken v room f q, none) →
      (u.2 = none → RunsTo (exec (.sample room) s) ((u.1.chargeForest room (q.sampleTime (q.leaves g))).postCounter
        room (fld q.raw 6 2) (bits (fld q.raw 8 1) 3 0) 1 engineWait)) ∧
      ∀ e, u.2 = some e → RunsTo (exec (.sample room) s) (u.1.raiseFault room e q.unit)) ∧
  ∀ (s : State) (room die : Nat),
    exec (.samplerError room ⟨die, some true⟩) s = .next (s.count (158 + die) 0 1) ∧
    exec (.samplerError room ⟨die, some false⟩) s = .next ((s.count (158 + die) 1 1).raiseFault room Code.forestCheck (158 + die)) ∧
    ((s.room room).running = false → exec (.samplerError room ⟨die, none⟩) s = .next s) ∧
    ∀ (f : Forest), (s.room room).running = true → (s.room room).forest = some f → ∃ t,
      t = (s.count (158 + die) 2 1).setRoom room { s.room room with forest := some { f with errs := tset f.errs die (tget 0 f.errs die + 1) } } ∧
      (tget 0 f.errs die = 0 → exec (.samplerError room ⟨die, none⟩) s = .next t) ∧
      (tget 0 f.errs die ≠ 0 → exec (.samplerError room ⟨die, none⟩) s = .next (t.raiseFault room Code.forestCheck (158 + die)))

/-- BENCH_RUN in a running room takes the oldest queued run of a kernel that runs none, from now on. Where the next word of a kernel's run has the operation's code and the bench units of its stack serve the room, for each of the 17 bench operations: an output that meets an input faults the job with BENCH_OVERLAP; operands that cannot be gathered, and a row that cannot be stored, fault it with the code of the access; otherwise the rows computed from the operands are stored, the run moves to its next word and the units' time is charged. BENCH_RUN_END after the last word frees the kernel and posts its counter. BENCH_TIMEOUT of a word that could start more than 10 ms ago faults the job at its stack. BENCH_ERROR counts the error of the unit; its second of the incarnation takes it out of service with a health record, and with fewer than 28 units left on the stack the device is out of service. (Derived from R229, R230, R231, R232, R233, R234, R239, R240, R347.) -/
def Obligations.BenchWordsRunInOrder : Prop :=
  (∀ (s : State) (room kernel : Nat) (a : List Nat) (l : List (List Nat)), (s.room room).running = true → ((s.room room).kernel kernel).run = none →
    ((s.room room).kernel kernel).queue = a :: l → ∃ t, exec (.benchRun room kernel) s = .next t ∧
      (t.room room).kernel kernel = { (s.room room).kernel kernel with queue := l, run := some ⟨a, 0, s.time.now, 0⟩ } ∧
        (t.room room).mem = (s.room room).mem ∧ t = { s with rooms := t.rooms }) ∧
  (∀ (s z : State) (room kernel op : Nat) (c : Instr) (u : BenchRun) (w : BenchWord), (c, op) ∈ benchOps room kernel → (s.room room).running = true →
    ((s.room room).kernel kernel).nextWord = some (u, w) → w.op = op → s.serve (arbBench (s.wordSite room u w)) true (s.benchReady (s.wordSite room u w)) room = some z →
    (((w.writes u.args).any fun x => (w.reads u.args).any fun y => x.hits y) = true →
      RunsTo (exec c s) (z.raiseFault room Code.benchOverlap (136 + s.wordSite room u w))) ∧
    (((w.writes u.args).any fun x => (w.reads u.args).any fun y => x.hits y) = false → ∀ t promo, (t, promo) = benchTouched z room (w.reads u.args) →
      (∀ e, t.gather room (w.reads u.args) = .error e → RunsTo (exec c s) (t.raiseFault room (benchCode e) (136 + s.wordSite room u w))) ∧
      ∀ m v e, t.gather room (w.reads u.args) = .ok m → benchStored t room u w m = (v, e) →
        (∀ k, e = some k → RunsTo (exec c s) (v.raiseFault room (benchCode k) (136 + s.wordSite room u w))) ∧
        (e = none → RunsTo (exec c s) (benchDone t v room kernel u w promo)))) ∧
  (∀ (s : State) (room kernel : Nat) (u : BenchRun), (s.room room).running = true → ((s.room room).kernel kernel).run = some u →
    (((s.room room).kernel kernel).words.length ≤ u.next → exec (.benchRunEnd room kernel) s =
      .next ((s.modKernel room kernel fun k => { k with run := none }).postCount room ((s.room room).kernel kernel).ctrCore
        ((s.room room).kernel kernel).ctr 1 engineWait u.promo)) ∧
    ∀ w, ((s.room room).kernel kernel).nextWord = some (u, w) →
      (u.since + 10000000 < s.time.now → exec (.benchTimeout room kernel) s = .next (s.raiseFault room Code.benchTimeout (136 + s.wordSite room u w))) ∧
      (s.time.now ≤ u.since + 10000000 → exec (.benchTimeout room kernel) s = .next s)) ∧
  ∀ (s : State) (room site unit : Nat) (parity : Bool) (j : Job), (s.room room).job = some j → ∃ t,
    t = ((s.count (136 + site) (if parity then 3 else 2) 1).count (136 + site) 4 1).setRoom room { s.room room with
      job := some { j with benchErrs := tset j.benchErrs (site * 64 + unit) (tget 0 j.benchErrs (site * 64 + unit) + 1) } } ∧
    (tget 0 j.benchErrs (site * 64 + unit) = 0 → exec (.benchError room site unit parity) s = .next t) ∧
    (tget 0 j.benchErrs (site * 64 + unit) ≠ 0 → (s.stack site).badUnits.contains unit = false → ∃ v, exec (.benchError room site unit parity) s = .next v ∧
      unit ∈ (v.stack site).badUnits ∧ v.room room = t.room room)

/-- DECODE_BATCH in a running room that the bench units of the view's stack serve takes a view's oldest queued batch: an address that fails faults the job at the view's stack; otherwise its rows are written, the code it will end with stands and its time is charged. DECODE_BATCH_END posts the view's counter and then raises that code, if there is one. WINDOW_FILL, where the next fill may start, faults on a source that cannot be read or is poisoned; otherwise it fills the slot, zeros behind the entry, raises the count of fills and adds 1 to every consuming core's counter. MIGRATION_SWITCH gives a page that moves its new frame and counts the migration; a page in a swap takes its partner with it and counts the swap; no byte of memory changes; with a poisoned sector in either page both stay and the job faults. SNAPSHOT_PAGE_COPIED takes the next pending page; a poisoned one, or one with an uncorrectable error of the cellar half it lies in, cuts the snapshot and faults the job. SNAPSHOT_COMPLETE of a one-device job, with no page pending, makes the snapshot complete with its digest, newest, and its step and digest stand in the ledger. MIRROR_ACK with the digest right marks the mirror complete; a second wrong one faults the job with SNAP_MIRROR. (Derived from R139, R142, R144, R237, R260, R268, R273, R274, R275, R278, R282, R348.) -/
def Obligations.BatchesFillsMovesAndCopiesProceed : Prop :=
  (∀ (s z y : State) (room view site : Nat) (v : ViewRec) (b : Nat × Nat) (l : List (Nat × Nat)), (s.room room).running = true →
    (s.viewOf room view).queue = b :: l → (s.viewOf room view).running = false → site = s.stackOf room view →
    s.serve (arbBench site) true (s.benchReady site) room = some z → v = ViewRec.ofNat (s.viewOf room view).raw →
    y = z.modView room view (fun x => { x with queue := l, running := true, code := none }) →
    (∀ e, y.decodeSeqs room view (s.viewOf room view) b.2 b.1 none = .error e → RunsTo (exec (.decodeBatch room view) s) (y.raiseFault room e (136 + y.stackOf room view))) ∧
    ∀ u c, y.decodeSeqs room view (s.viewOf room view) b.2 b.1 none = .ok (u, c) → RunsTo (exec (.decodeBatch room view) s)
      ((((u.touchPages room v (sharedPages (y.pageUses room view v b.1 b.2))).modView room view fun x => { x with code := c }).chargeBench room
        (y.batchTimes room v (y.pageUses room view v b.1 b.2) b.2)).charge room 6 1500)) ∧
  (∀ (s t : State) (room view : Nat), (s.room room).running = true → (s.viewOf room view).running = true →
    t = (s.modView room view fun x => { x with running := false, code := none }).postCounter room (ViewRec.ofNat (s.viewOf room view).raw).ctrCore
      (ViewRec.ofNat (s.viewOf room view).raw).ctr 1 engineWait →
    ((s.viewOf room view).code = none → exec (.decodeBatchEnd room view) s = .next t) ∧
    (∀ c, (s.viewOf room view).code = some c → exec (.decodeBatchEnd room view) s = .next (t.raiseFault room c (136 + t.stackOf room view)))) ∧
  (∀ (s : State) (room window : Nat) (w : HaulPlan), (s.room room).running = true → tfind (s.room room).mem.windows window = some w → w.mayFill = true → w.list ≠ [] →
    ∀ src len dst, (src, len, dst) = nextFill window w →
    (∀ c, s.checkRange room src len false = some c → exec (.windowFill room window) s = .next (s.raiseFault room c noUnit)) ∧
    (s.checkRange room src len false = none →
      (s.poisoned room src len = true → exec (.windowFill room window) s = .next (s.raiseFault room Code.stackUe (136 + s.stackOf room src))) ∧
      (s.poisoned room src len = false → exec (.windowFill room window) s = .next (w.cores.foldl (fun t c => t.postCounter room c w.ctr 1 windowSlot)
        (((s.cleanse room dst w.slotBytes).modMem room fun m => { m with
          data := memCopyRange (memZero m.data dst w.slotBytes) src dst len
          windows := tset m.windows window { w with started := w.started + 1 } }).chargeHaul room src len))))) ∧
  (∀ (s : State) (room page : Nat) (p : Page) (m : Moving), tfind (s.room room).mem.pages page = some p → p.moving = some m → (s.room room).st = .committed →
    (∀ v, ((page :: m.partner.toList).find? fun v => s.poisoned room (v * pageBytes) pageBytes) = some v → exec (.migrationSwitch room page) s =
      .next ((s.setRoom room { s.room room with mem := (s.room room).mem.cancelMove page }).raiseFault room Code.stackUe (136 + s.stackOf room (v * pageBytes)))) ∧
    ((∀ v ∈ page :: m.partner.toList, s.poisoned room (v * pageBytes) pageBytes = false) →
      (m.partner = none → ∃ t, exec (.migrationSwitch room page) s = .next t ∧ tfind (t.room room).mem.pages page = some { p with tier := m.dst, moving := none } ∧
        (t.room room).mem.data = (s.room room).mem.data ∧ t.migrations = s.migrations + 1 ∧ t.swaps = s.swaps) ∧
      (∀ q p' m', m.partner = some q → q ≠ page → tfind (s.room room).mem.pages q = some p' → p'.moving = some m' → ∃ t, exec (.migrationSwitch room page) s = .next t ∧
        tfind (t.room room).mem.pages page = some { p with tier := m.dst, moving := none } ∧ tfind (t.room room).mem.pages q = some { p' with tier := m'.dst, moving := none } ∧
        (t.room room).mem.data = (s.room room).mem.data ∧ t.migrations = s.migrations + 2 ∧ t.swaps = s.swaps + 1))) ∧
  (∀ (s u : State) (copy : CopyDone) (v : Nat) (l : List Nat) (direct : Bool), (s.room copy.room).mem.snap.pending = v :: l →
    direct = (s.room copy.room).mem.inHalf copy.cellar.half v → u = (if direct then s.cellarErrs copy.cellar else s) →
    (u.poisoned copy.room (v * pageBytes) pageBytes = true → exec (.snapshotPageCopied copy) s =
      .next ((u.cutSnap copy.room).raiseFault copy.room Code.stackUe (136 + ((s.room copy.room).mem.upperOf v).elim 0 (·.1)))) ∧
    (u.poisoned copy.room (v * pageBytes) pageBytes = false →
      (direct = true → copy.cellar.bad = true → exec (.snapshotPageCopied copy) s =
        .next ((u.cutSnap copy.room).raiseFault copy.room Code.cellarUe (cellarUnit copy.cellar.half))) ∧
      (direct = false ∨ copy.cellar.bad = false → exec (.snapshotPageCopied copy) s =
        .next ((u.modMem copy.room fun m => { m with snap := { m.snap with pending := l } }).chargeHaul copy.room (v * pageBytes) pageBytes)))) ∧
  (∀ (s : State) (room k : Nat) (v : Snap), (∀ j, (s.room room).job = some j → j.devices ≤ 1) → (s.room room).mem.snap.copying = some k →
    (s.room room).mem.snap.slot k = some v → (s.room room).mem.snap.pending = [] → ∃ t, exec (.snapshotComplete room) s = .next t ∧
      (t.room room).mem.snap.slot k = some { v with digest := v.computeDigest, complete := true } ∧ (t.room room).mem.snap.newest = some k ∧
      (t.room room).mem.snap.copying = none ∧ (t.room room).mem.snap.released = true ∧ (t.room room).ledger.snapStep = v.step ∧
      (t.room room).ledger.snapDigest = v.computeDigest ∧ t = { s with rooms := t.rooms }) ∧
  ∀ (s : State) (room k n : Nat) (v : Snap), (s.room room).mem.snap.mirroring = some (k, n) → (s.room room).mem.snap.slot k = some v →
    exec (.mirrorAck room true) s = .next ((s.modMem room fun m => { m with snap := { m.snap with mirroring := none, mirrored := some v.step } }).reportAgain room) ∧
    (n ≠ 1 → exec (.mirrorAck room false) s = .next ((s.modMem room fun m => { m with snap := { m.snap with mirroring := none } }).raiseFault room Code.snapMirror noUnit))

/-- Where d is a ring's startable NET_POST, PUT and GET end it with NET_NOJOB unless its room runs a job of several devices that has its tag, has started and is not faulted; with NET_FLOW for a flow above 0x7FFF, a reserved operation, or a peer that is not another rank; after these with DESC_OPERAND for a length of 0 or above 4 GiB; with ACCESS_FAULT and the access's code; otherwise d is started and the next message of the flow is queued (PUT) or its GETREQ sent with message number plus 2^31 (GET). COLLECTIVE_EXECUTION in a running room with a queued execution of a record and none running takes it from the queue; a source that cannot be read faults the job; otherwise its first partial goes to the position beside it where there is one. COLLECTIVE_COMPLETE of a running execution whose parts are all there writes its result, counts its additions, saturations and NaNs, ends the execution and posts its counter; a refused read or store faults the job. (Derived from R312, R393, R398, R399, R400, R401, R402, R403.) -/
def Obligations.TransfersAndCollectivesStartAndEnd : Prop :=
  (∀ (s : State) (ring : Nat) (c : Instr) (d : Desc) (p : Desc → Bool), (c, p) ∈ [(Instr.put ring, fun d : Desc => d.fld 8 1 != 1), (.get ring, fun d : Desc => d.fld 8 1 == 1)] →
    s.canStartOp ring 0x30 p = some d →
    ((∀ j, (s.room (s.ring ring).room).job = some j → j.tag = 0 ∨ j.phase = 0 ∨ j.faulted = true) →
      exec c s = .next (s.complete ring d.seq stBadDescriptor Code.netNojob 0 0 0)) ∧
    ∀ j, (s.room (s.ring ring).room).job = some j → j.tag ≠ 0 → j.phase ≠ 0 → j.faulted = false →
      ((0x7FFF < d.fld 10 2 ∨ 1 < d.fld 8 1 ∨ j.devices ≤ d.fld 12 4 ∨ d.fld 12 4 = j.rank) →
        exec c s = .next (s.complete ring d.seq stBadDescriptor Code.netFlow 0 0 0)) ∧
      (d.fld 10 2 ≤ 0x7FFF → d.fld 8 1 ≤ 1 → d.fld 12 4 < j.devices → d.fld 12 4 ≠ j.rank → (d.fld 32 8 = 0 ∨ 2 ^ 32 < d.fld 32 8) →
        exec c s = .next (s.complete ring d.seq stBadDescriptor Code.descOperand 0 0 0)) ∧
      (d.fld 10 2 ≤ 0x7FFF → d.fld 8 1 ≤ 1 → d.fld 12 4 < j.devices → d.fld 12 4 ≠ j.rank → d.fld 32 8 ≠ 0 → d.fld 32 8 ≤ 2 ^ 32 →
        (∀ e, s.accessCheck (s.ring ring).room (d.fld 16 8) (d.fld 32 8) (d.fld 8 1 == 1) = .error e →
          exec c s = .next (s.complete ring d.seq stAccessFault e 0 0 0)) ∧
        ∀ x k m, s.accessCheck (s.ring ring).room (d.fld 16 8) (d.fld 32 8) (d.fld 8 1 == 1) = .ok x →
          k = flowKey (s.ring ring).room (d.fld 12 4) (d.fld 10 2) → m = (s.flow k).nextMsg →
          (d.fld 8 1 = 0 → exec (.put ring) s = .next (((s.markStarted ring d.seq).modFlow k fun f => { f with nextMsg := m + 1 }).sendMsg (s.ring ring).room
            (d.fld 12 4) (d.fld 10 2) ⟨m, d.fld 16 8, d.fld 24 8, d.fld 32 8, 0, 0, 0, false, some (ring, d.seq)⟩)) ∧
          (d.fld 8 1 = 1 → exec (.get ring) s = .next (((s.markStarted ring d.seq).modFlow k fun f => { f with nextMsg := m + 1 }).sendGet (s.ring ring).room j
            (d.fld 12 4) (d.fld 10 2) ⟨some (ring, d.seq), 2 ^ 31 + m, d.fld 16 8, d.fld 24 8, d.fld 32 8, false, 0, s.time.now, 0, none, none⟩)))) ∧
  (∀ (s : State) (room index w pos : Nat) (j : Job) (t : State), (s.room room).running = true → (s.room room).job = some j → (s.room room).prog[index]? = some w →
    (tget ⟨0, false, 0⟩ (s.room room).coll index).queued ≠ 0 → (tget ⟨0, false, 0⟩ (s.room room).coll index).running = false → pos = collPos w j.rank →
    t = (if collLoose w then State.waive (s.modColl room index fun c => { c with queued := c.queued - 1, running := true }) room 1
      else s.modColl room index fun c => { c with queued := c.queued - 1, running := true }) →
    (∀ e, collReads w pos = true → t.readAny room (collSrc w) (collSrcBytes w) = .error e →
      exec (.collectiveExecution room index) s = .next (t.raiseFault room e collUnit)) ∧
    (collReads w pos = false → exec (.collectiveExecution room index) s = .next t) ∧
    ∀ b q, collReads w pos = true → t.readAny room (collSrc w) (collSrcBytes w) = .ok b → q = (if pos % 2 = 0 then pos + 1 else pos - 1) →
      (collPositions w ≤ q → exec (.collectiveExecution room index) s = .next t) ∧
      (q < collPositions w → exec (.collectiveExecution room index) s = .next (t.sendMsg room (collRank w q) (0x8000 + index)
        ⟨64 * (tget ⟨0, false, 0⟩ (s.room room).coll index).next, collSrc w, 0, collSrcBytes w, 0, 0, recordDigest w, collLoose w, none⟩))) ∧
  ∀ (s t : State) (room index w pos : Nat) (j : Job) (parts : List (Nat × List Nat)), (s.room room).running = true →
    (s.room room).job = some j → (s.room room).prog[index]? = some w → (tget ⟨0, false, 0⟩ (s.room room).coll index).running = true → pos = collPos w j.rank →
    collComplete w pos parts = true →
    (∀ e, collReads w pos = true → s.readAny room (collSrc w) (collSrcBytes w) = .error e →
      exec (.collectiveComplete room index parts) s = .next (s.raiseFault room e collUnit)) ∧
    ∀ (src bs : List Byte) (a b c : Nat), (if collReads w pos then s.readAny room (collSrc w) (collSrcBytes w) else .ok []) = .ok src →
      (bs, a, b, c) = collResult w pos (collDraw w j.seed index (tget ⟨0, false, 0⟩ (s.room room).coll index).next pos) (collOwn w pos (collCodes w src)) parts →
      t = ((((s.count collUnit 5 a).count collUnit 6 b).count collUnit 7 c).chargeNormal room (collSrc w) src.length).chargeNormal room (collDst w) bs.length →
      (∀ e, (t.writeAny room (collDst w) bs).code = some e →
        exec (.collectiveComplete room index parts) s = .next ((t.writeAny room (collDst w) bs).s.raiseFault room e collUnit)) ∧
      ((t.writeAny room (collDst w) bs).code = none → exec (.collectiveComplete room index parts) s =
        .next (((t.writeAny room (collDst w) bs).s.modColl room index fun c => { c with running := false, next := c.next + 1 }).postCounter room
          (fld w 6 2) (fld w 5 1) 1 collectiveWait))

/-- For each of the six packet types: a bad header adds 1 to NET_DROP_MALFORMED, an unknown job (but for a mirror fetch of one whose room was turned over) to NET_DROP_JOB, a key generation that is not live to NET_DROP_NOKEY, and nothing else changes. A packet that passes every check: DATA 4,096 PSNs or more past the cumulative one adds 1 to NET_DROP_LIMIT; an unplaced payload of a PUT that the room may write is received, charged and written at its destination plus its offset. ACK and NACK with no payload missing take the shown payloads from the list, adapt the rate, complete the messages that are whole and send what now fits. GETREQ of a message already being served changes nothing; with 16 served it draws BUSY; an unreadable range draws REFUSE; otherwise its bytes are queued. REFUSE of a GET ends its descriptor with ACCESS_FAULT and the peer's code. BUSY makes a request wait. A port answers ARP, neighbour discovery and, up to 100 times a second, echo requests for its own addresses; other frames are counted; a link change is kept. (Derived from R387, R390, R391, R392, R393, R395, R398, R508.) -/
def Obligations.PacketsAreCheckedThenServed : Prop :=
  (∀ (s : State) (p : Pkt) (c : Instr) (k : Nat), (c, k) ∈ packetRows p →
    ((p.proto ≠ 1 ∨ p.plen ≠ p.udp ∨ ptypeOk p.ptype = false) → exec c s = .next (netCounted s 0)) ∧
    (p.proto = 1 → p.plen = p.udp → ptypeOk p.ptype = true → p.ptype = k →
      (s.roomOfTag p.job = none → (k = 4 → p.flow = 0xFFF0 → tfind s.net.left p.job = none) → exec c s = .next (netCounted s 1)) ∧
      ∀ r j, s.roomOfTag p.job = some (r, j) → (tget noKeys s.net.jobKeys p.job).gens.contains p.kgen = false → exec c s = .next (netCounted s 2))) ∧
  (∀ (s u : State) (p : Pkt) (r k : Nat) (j : Job), PacketPasses s p 1 r j → k = flowKey r p.src p.flow → u = (if p.ce then netCounted s 10 else s) →
    ((s.flow k).cum + 4096 ≤ p.psn → exec (.data p) s = .next (netCounted u 7)) ∧
    (p.psn < (s.flow k).cum + 4096 → (s.flow k).since ≠ 0 → (s.flow k).since < 15 → p.flow < 0x8000 → p.msg < 2 ^ 31 → bit p.pflags 0 = false →
      (s.flow k).recv p.msg = ⟨p.msg, [], none, false, []⟩ → ∀ v, v = (u.modFlow k fun f => f.gotPsn s.time.now p.psn p.plen p.ce).charge r 13 p.plen →
      v.checkRange r (p.remote + p.off) p.payload.length true = none →
      ∀ w, w = (v.chargeNormal r (p.remote + p.off) p.payload.length).writeVa r (p.remote + p.off) (p.payload.map (BitVec.ofNat 8)) → w.flow k = v.flow k →
      exec (.data p) s = .next (w.modFlow k fun f => f.setRecv ⟨p.msg, [p.off], none, false, []⟩))) ∧
  (∀ (s : State) (p : Pkt) (r k ptype : Nat) (j : Job) (c : Instr) (shown : Nat → Bool) (f : Flow), (c, ptype) ∈ [(Instr.ack p, 2), (.nack p, 3)] →
    PacketPasses s p ptype r j → k = flowKey r p.src p.flow → f = s.flow k →
    shown = (fun n => decide (n < p.num 0 8) || (decide (p.num 0 8 < n) && bit (p.num 8 16) (n - p.num 0 8 - 1))) →
    (∀ u ∈ f.unacked, shown u.psn = false → p.num 8 16 = 0 ∨ p.num 0 8 + 1 + (p.num 8 16).log2 ≤ u.psn) →
    exec c s = .next (((s.setFlow k (Flow.onAckRate { f with unacked := f.unacked.filter fun u => !shown u.psn } s.time.now (p.num 24 4)
      (sumNat ((f.unacked.filter fun u => shown u.psn).map (·.bytes))))).finishSends r p.src p.flow).pump r p.src p.flow 4096)) ∧
  (∀ (s : State) (p : Pkt) (r k : Nat) (j : Job), PacketPasses s p 4 r j → k = flowKey r p.src p.flow →
    ((∃ m ∈ (s.flow k).sends, m.msg = p.msg) → exec (.getreq p) s = .next s) ∧
    ((∀ m ∈ (s.flow k).sends, m.msg ≠ p.msg) →
      (16 ≤ s.servedGets r p.src → exec (.getreq p) s = .next (s.sendJob k j { s.jobPkt j p.src p.flow 6 [] with msg := p.msg })) ∧
      (s.servedGets r p.src < 16 → p.flow ≠ 0xFFF0 →
        (∀ c, s.checkRange r (p.num 0 8) (p.num 8 8) false = some c → exec (.getreq p) s = .next (s.sendRefuse r j p c)) ∧
        (s.checkRange r (p.num 0 8) (p.num 8 8) false = none → p.num 8 8 ≠ 0 →
          exec (.getreq p) s = .next (s.sendMsg r p.src p.flow ⟨p.msg, p.num 0 8, 0, p.num 8 8, 0, 0, 0, false, none⟩))))) ∧
  (∀ (s : State) (p : Pkt) (r k : Nat) (j : Job) (g : GetReq), k = flowKey r p.src p.flow → (s.flow k).gets.find? (fun g => g.msg = p.msg) = some g →
    (PacketPasses s p 5 r j → ∀ q n, g.desc = some (q, n) → exec (.refuse p) s =
      .next ((s.modFlow k fun f => { f with gets := f.gets.filter fun x => x.msg ≠ g.msg }).complete q n stAccessFault (p.num 0 2) 0 0 0)) ∧
    (PacketPasses s p 6 r j →
      (g.busySince.getD s.time.now + 2000000000 ≤ s.time.now → exec (.busy p) s = .next (s.unreachable r p.src p.flow)) ∧
      (s.time.now < g.busySince.getD s.time.now + 2000000000 → exec (.busy p) s = .next (s.modFlow k fun f => { f with
        gets := f.gets.map fun x => if x.msg = g.msg then { x with busySince := some (g.busySince.getD s.time.now), busyAt := some s.time.now, tries := 0 } else x })))) ∧
  ∀ (s : State) (port addr : Nat), port ∈ s.netPorts →
    (bit (s.port port).cfg 31 = true → addr ≠ 0 →
      ((s.port port).ip4 = addr → exec (.arp port addr) s = .next (s.emit (.answer 1 port addr))) ∧
      ((s.port port).ip4 ≠ addr → exec (.arp port addr) s = .next s) ∧
      ((s.port port).ip6 = addr → exec (.neighbourDiscovery port addr) s = .next (s.emit (.answer 2 port addr))) ∧
      ((s.port port).ip6 ≠ addr → exec (.neighbourDiscovery port addr) s = .next s) ∧
      ∀ at_ n, ((s.port port).ip4 = addr ∨ (s.port port).ip6 = addr) → n = countSecond ((s.upto at_).time.now) (s.port port).echo →
        ∃ t, exec (.icmpEcho port addr at_) s = .next t ∧ (t.port port).echo = n ∧ t.out = (if n.2 ≤ 100 then s.out ++ [.answer 3 port addr] else s.out)) ∧
    exec (.otherFrame port) s = .next (netCounted s 8) ∧
    ∀ up, exec (.portLink port up) s = .next { s with net := { s.net with ports := tset s.net.ports port { s.port port with link := up && bit (s.port port).cfg 31 } } }

/-- At the device time of the event, in a room that runs a job: 4 us after the first unacknowledged packet a flow sends its ACK and holds none unacknowledged; 20 us after a packet was first missing, and 20 us after the last NACK, it sends a NACK and remembers when. A payload whose timer of 100 us, doubled with each sending up to 12.8 ms, has run out is sent again under half the rate, at least 1 Gb/s, and after 7 retransmissions the peer is unreachable; a GET request in the same way. A GETREQ put off by BUSY is sent again after 100 us. A flow that knows its rate and has neither raised nor lowered it for 20 us raises it by 5 Gb/s, up to the line rate. A path left out returns when its time is over. Before the time, only device time moves. (Derived from R392, R393, R395.) -/
def Obligations.TransportTimersFire : Prop :=
  (∀ (s u : State) (room peer flow at_ k : Nat) (j : Job), (s.room room).job = some j → k = flowKey room peer flow → u = s.upto at_ →
    (∀ t, (s.flow k).firstUn = some t →
      (t + 4000 ≤ (s.upto at_).time.now → exec (.ackTimer room peer flow at_) s = .next (u.sendAck room j peer flow 2) ∧
        ((u.sendAck room j peer flow 2).flow k).firstUn = none ∧ ((u.sendAck room j peer flow 2).flow k).since = 0) ∧
      ((s.upto at_).time.now < t + 4000 → exec (.ackTimer room peer flow at_) s = .next u)) ∧
    (∀ t, (s.flow k).missing = some t →
      (t + 20000 ≤ (s.upto at_).time.now → (∀ n, (s.flow k).nackAt = some n → n + 20000 ≤ (s.upto at_).time.now) →
        exec (.nackTimer room peer flow at_) s = .next (u.sendAck room j peer flow 3) ∧ ((u.sendAck room j peer flow 3).flow k).nackAt = some ((s.upto at_).time.now)) ∧
      (((s.upto at_).time.now < t + 20000 ∨ ∃ n, (s.flow k).nackAt = some n ∧ (s.upto at_).time.now < n + 20000) →
        exec (.nackTimer room peer flow at_) s = .next u)) ∧
    (∀ psn x, (s.flow k).unacked.find? (fun x => x.psn = psn && decide (x.sent + ladder x.tries ≤ (s.upto at_).time.now)) = some x →
      (7 ≤ x.tries → exec (.retransmitTimer room peer flow psn at_) s = .next (u.unreachable room peer flow)) ∧
      (x.tries < 7 → exec (.retransmitTimer room peer flow psn at_) s =
        .next ((u.modFlow k fun f => { f with rate := Nat.max (f.rate / 2) 125000000 }).resend room j peer flow x))) ∧
    (∀ psn g, (∀ x ∈ (s.flow k).unacked, x.psn ≠ psn) →
      (s.flow k).gets.find? (fun g => g.psn = psn && !g.answered && g.busyAt.isNone && decide (g.sent + ladder g.tries ≤ (s.upto at_).time.now)) = some g →
      (7 ≤ g.tries → exec (.retransmitTimer room peer flow psn at_) s = .next (u.unreachable room peer flow)) ∧
      (g.tries < 7 → exec (.retransmitTimer room peer flow psn at_) s =
        .next (((u.modFlow k fun f => { f with rate := Nat.max (f.rate / 2) 125000000 }).netCount 9).sendGet room j peer flow { g with tries := g.tries + 1 }))) ∧
    (∀ g, (s.flow k).gets.find? (fun g => g.busyAt.any fun t => decide (t + 100000 ≤ (s.upto at_).time.now)) = some g →
      exec (.getreqRetry room peer flow at_) s = .next (u.sendGet room j peer flow { g with busyAt := none }))) ∧
  (∀ (s : State) (room peer flow at_ k : Nat) (f : Flow), k = flowKey room peer flow → tfind s.net.flows k = some f →
    (f.rate ≠ 0 → Nat.max f.tInc f.tDec + 20000 ≤ (s.upto at_).time.now → exec (.rateIncrease room peer flow at_) s =
      .next ((s.upto at_).setFlow k { f with rate := Nat.min (f.rate + 625000000) s.lineRate, tInc := (s.upto at_).time.now })) ∧
    ((f.rate = 0 ∨ (s.upto at_).time.now < Nat.max f.tInc f.tDec + 20000) → exec (.rateIncrease room peer flow at_) s = .next (s.upto at_))) ∧
  ∀ (s : State) (port path at_ t : Nat), tfind (s.port port).out path = some t →
    (t ≤ (s.upto at_).time.now → ∃ v, exec (.pathReturn port path at_) s = .next v ∧ v.port port = { s.port port with out := tdel (s.port port).out path } ∧
      v = { s with time := v.time, net := v.net }) ∧
    ((s.upto at_).time.now < t → exec (.pathReturn port path at_) s = .next (s.upto at_))

/-- Every control row drops a message with a bad header into NET_DROP_MALFORMED and one over no link into NET_DROP_JOB, and changes nothing else. A message of the lease giver that passes, at a device that is not the head: ADMITTED makes it a standby member at the generation carried, with 2 s of lease; REFUSED ends a start that waits for it, or sets the time of the next try; GRANT raises the expiry, or fences a member whose lease is already over; KEY is installed; GEN applies a newer generation and its list; PROBE is answered with its own count; FENCE fences with the code it carries. LEASE_EXPIRY at or past the expiry fences; duties that a failed steward held till then pass in the same step. A fenced device, which is no head and so holds no assembled job, has no keys, flows, links, members, barriers or incarnations of several devices, and asks for admission again. RENEW_TIMER 250 ms after the last renewal sends RENEW. ADMIT_RETRY after 10 s opens the link agreement with a fresh nonce. KEY_OVERLAP_END erases the older of two generations 2 s after the newer. (Derived from R404, R413, R414, R415, R416, R417, R418, R421, R463.) -/
def Obligations.MembersJoinRenewAndFence : Prop :=
  (∀ (s : State) (p : Pkt) (c : Instr) (k : Nat), (c, k) ∈ ctrlRows p →
    ((p.proto ≠ 1 ∨ p.plen ≠ p.udp ∨ ptypeOk p.ptype = false) → exec c s = .next (netCounted s 0)) ∧
    (p.proto = 1 → p.plen = p.udp → p.ptype = 8 → tfind s.caravan.links p.src = none → exec c s = .next (netCounted s 1))) ∧
  (∀ (s u : State) (p : Pkt), u = ctrlSeen s p →
    (FromGiver s p 0x02 → s.caravan.member = false → exec (.admitted p) s = .next { u with caravan := { u.caravan with
      member := true, generation := p.arg 0 4, expiry := s.time.now + 2000000000, renewAt := s.time.now, retryAt := none } }) ∧
    (FromGiver s p 0x02 → s.caravan.member = true → exec (.admitted p) s = .next u) ∧
    (FromGiver s p 0x03 → (∀ r j, r < 64 → (s.room r).job = some j → ¬ (1 < j.devices ∧ j.phase = 0 ∧ j.tag = 0 ∧ j.joinSeq = p.cseq)) → s.caravan.member = false →
      exec (.refused p) s = .next { u with caravan := { u.caravan with retryAt := some s.time.now } }) ∧
    (FromGiver s p 0x05 → s.caravan.member = true →
      (s.time.now < s.caravan.expiry → exec (.grant p) s = .next { u with caravan := { u.caravan with expiry := Nat.max s.caravan.expiry (p.arg 4 8) } }) ∧
      (s.caravan.expiry ≤ s.time.now → ∃ t, exec (.grant p) s = .next t ∧ Fenced t t.time.now)) ∧
    (FromGiver s p 0x06 → exec (.key p) s = .next (u.installJobKey p.cjob (p.arg 0 1) (unwrapKey (s.linkKey p.src) ((p.body.drop 8).take 40)))) ∧
    (FromGiver s p 0x07 → s.caravan.members = [] → exec (.gen p) s = .next (u.applyGen (p.arg 0 4) (genList p))) ∧
    (FromGiver s p 0x08 → ∃ t, exec (.fence p) s = .next t ∧ t = (u.fenceOff (p.arg 4 2)).takeOver ∧ (s.caravan.jobs = [] → Fenced t t.time.now)) ∧
    (FromGiver s p 0x09 → exec (.probe p) s = .next (u.ctrlSend p.src s.caravan.mid 0x0A 0 0 (some p.cseq) (p.body.take 8)))) ∧
  (∀ (s : State) (at_ : Nat), s.caravan.isHead = false → s.caravan.member = true →
    (s.caravan.expiry ≠ 0 → s.caravan.expiry ≤ (s.upto at_).time.now → ∃ t, exec (.leaseExpiry at_) s = .next t ∧
      t = ((s.upto at_).fenceOff Code.fenceLease).takeOver ∧ (s.caravan.jobs = [] → Fenced t t.time.now)) ∧
    ((s.upto at_).time.now < s.caravan.expiry → exec (.leaseExpiry at_) s = .next (s.upto at_)) ∧
    (s.caravan.renewAt + 250000000 ≤ (s.upto at_).time.now → ∃ t, exec (.renewTimer at_) s = .next t ∧ t.caravan.renewAt = (s.upto at_).time.now ∧
      t.caravan.cseq = (s.caravan.cseq + 1) % 2 ^ 32 ∧ t.rooms = s.rooms) ∧
    ((s.upto at_).time.now < s.caravan.renewAt + 250000000 → exec (.renewTimer at_) s = .next (s.upto at_))) ∧
  (∀ (s : State) (at_ t : Nat), s.caravan.retryAt = some t → (s.caravan.role = 1 ∨ s.caravan.role = 2) → s.caravan.isHead = false → s.caravan.member = false →
    s.stewards.ready = true → s.health.oos = false →
    (t + 10000000000 ≤ (s.upto at_).time.now → ∃ v n x, exec (.admitRetry at_) s = .next v ∧ v.caravan.retryAt = none ∧ tfind v.caravan.tries s.caravan.giver = some x ∧
      x.starter = true ∧ x.stage = 1 ∧ v.out = s.out ++ [.link s.caravan.giver 1 n]) ∧
    ((s.upto at_).time.now < t + 10000000000 → exec (.admitRetry at_) s = .next (s.upto at_))) ∧
  (∀ (s : State) (g : Nat) (l : List Nat), s.applyGen g l = { s with caravan := { s.caravan with
      generation := if newer g s.caravan.generation then g else s.caravan.generation
      evicted := dedup (s.caravan.evicted ++ l) } }) ∧
  ∀ (s : State) (tag at_ : Nat) (k : Keys),
    (tfind s.caravan.links tag = some k → ∃ t, exec (.keyOverlapEnd true tag at_) s = .next t ∧
      tfind t.caravan.links tag = some (if k.installed + 2000000000 ≤ (s.upto at_).time.now then { k with gens := k.gens.take 1, keys := k.keys.take 1 } else k)) ∧
    (tfind s.net.jobKeys tag = some k → ∃ t, exec (.keyOverlapEnd false tag at_) s = .next t ∧
      tfind t.net.jobKeys tag = some (if k.installed + 2000000000 ≤ (s.upto at_).time.now then { k with gens := k.gens.take 1, keys := k.keys.take 1 } else k))

/-- ADMIT of a member its lease giver knows of is answered REFUSED with the first reason of R415, or the sender is a member of the table with a lease of 2 s, no longer listed as evicted. RENEW of an unknown member is answered FENCE and its link keys go; of a member at the current generation the lease runs to the time carried plus 2 s, never back; of another generation it is answered GEN. LEASE_LAPSE 250 ms past a member's expiry, LEAVE, and PROBE_TIMEOUT 30 ms after an unanswered first PROBE evict; before their time they do nothing. PROBE_RESEND 10 ms after the last of one or two PROBEs sends the next; PROBE_ACK clears the count and records a lost peer once. Eviction takes the member from the table; a manager reports it to the head; the head opens the next generation and lists it. REKEY gives a job whose newest generation it names its next key. REPORT goes its way from a manager. (Derived from R404, R413, R415, R416, R417, R421.) -/
def Obligations.LeaseGiversAdmitRenewProbeAndEvict : Prop :=
  (∀ (s u : State) (p : Pkt), u = ctrlSeen s p →
    (FromMember s p 0x01 → (∀ c, s.admitRefusal p = some c → exec (.admitMember p) s = .next (u.ctrlSend p.src p.src 0x03 0 0 (some p.cseq) (leBytes 2 c))) ∧
      (s.admitRefusal p = none → ∃ t, exec (.admitMember p) s = .next t ∧ tfind t.caravan.members p.src = some ⟨s.time.now + 2000000000, 0, 0, 0, []⟩ ∧
        p.src ∉ t.caravan.evicted ∧ t.caravan.generation = s.caravan.generation ∧ (∀ m, m ≠ p.src → tfind t.caravan.members m = tfind s.caravan.members m) ∧
        t.rooms = s.rooms)) ∧
    (FromMember s p 0x04 → (tfind s.caravan.members p.src = none → ∃ t, exec (.renew p) s = .next t ∧ t.caravan.links = tdel s.caravan.links p.src ∧
        t.caravan.members = s.caravan.members ∧ t.rooms = s.rooms) ∧
      (∀ m, tfind s.caravan.members p.src = some m → (p.arg 0 4 = s.caravan.generation → ∃ t, exec (.renew p) s = .next t ∧
          tfind t.caravan.members p.src = some { m with expiry := Nat.max m.expiry (p.arg 4 8 + 2000000000) } ∧
          (∀ k, k ≠ p.src → tfind t.caravan.members k = tfind s.caravan.members k) ∧ t.caravan.generation = s.caravan.generation ∧ t.rooms = s.rooms) ∧
        (p.arg 0 4 ≠ s.caravan.generation → exec (.renew p) s = .next (u.sendGen p.src (some p.cseq) s.caravan.evicted)))) ∧
    (CtrlPasses s p 0x0C → s.gives (s.originOf p) = true → exec (.leave p) s = .next (u.evict (s.originOf p))) ∧
    (CtrlPasses s p 0x0A → ∀ m, tfind s.caravan.members p.src = some m →
      (m.probes = 0 → exec (.probeAck p) s = .next u) ∧
      (m.probes ≠ 0 → exec (.probeAck p) s = .next ({ u with caravan := { u.caravan with members := tset s.caravan.members p.src { m with probes := 0 } } }.healthRecord
        8 Code.netPeerLost 0xFFFF 0xFFFF p.src))) ∧
    (CtrlPasses s p 0x0D → s.caravan.isHead = true → ∀ h, tfind s.caravan.jobs p.cjob = some h →
      exec (.rekey p) s = .next (if h.kgen = p.arg 0 1 then u.newJobKey p.cjob else u)) ∧
    (CtrlPasses s p 0x0B → exec (.report p) s = .next (if s.caravan.isManager = true then u.routeReport p.cjob (s.originOf p) (p.arg 0 4) (p.arg 4 2) (p.arg 6 2) else u))) ∧
  (∀ (s : State) (mid at_ : Nat) (m : Member), tfind s.caravan.members mid = some m →
    exec (.leaseLapse mid at_) s = .next (if m.expiry + 250000000 ≤ (s.upto at_).time.now then (s.upto at_).evict mid else s.upto at_) ∧
    exec (.probeTimeout mid at_) s = .next (if m.probes ≠ 0 ∧ m.probeFirst + 30000000 ≤ (s.upto at_).time.now then (s.upto at_).evict mid else s.upto at_) ∧
    ((m.probes = 1 ∨ m.probes = 2) → m.probeLast + 10000000 ≤ (s.upto at_).time.now → ∃ t, exec (.probeResend mid at_) s = .next t ∧
      tfind t.caravan.members mid = some { m with probes := m.probes + 1, probeLast := (s.upto at_).time.now } ∧ t.rooms = s.rooms) ∧
    (¬ ((m.probes = 1 ∨ m.probes = 2) ∧ m.probeLast + 10000000 ≤ (s.upto at_).time.now) → exec (.probeResend mid at_) s = .next (s.upto at_))) ∧
  ∀ (s : State) (mid : Nat) (m : Member), tfind s.caravan.members mid = some m →
    (s.caravan.isHead = false → (s.evict mid).caravan.members = tdel s.caravan.members mid ∧ (s.evict mid).caravan.generation = s.caravan.generation ∧ (s.evict mid).rooms = s.rooms) ∧
    (s.caravan.isHead = true → s.caravan.jobs = [] → ∃ l, mid ∈ l ∧ (s.evict mid).caravan.members = tdel s.caravan.members mid ∧
      (s.evict mid).caravan.generation = (s.caravan.generation + 1) % 2 ^ 32 ∧ (s.evict mid).caravan.evicted = dedup (s.caravan.evicted ++ l) ∧ (s.evict mid).rooms = s.rooms)

/-- JOIN at the head is answered with the first reason of R419, or counted: the first one of a new job takes the next tag and opens a record that holds it. A manager passes the JOIN of its caravan up and says whether it has marked the sender. MAP enters its ranks in order and leaves the others. START binds the waiting room of that JOIN to tag, incarnation, step, buddy, key generation and map, and starts it; one for another member goes down. FAULT at the head aborts the incarnation it names; of an older one it is only recorded. ABORT ends this device's part, and duties that a failed steward held till then pass in the same step. ASSEMBLY_TIMEOUT tells every device that joined and empties the record, or forgets a job that never started. JOB_RECORD_EXPIRY forgets an ended job 10 minutes after its end and its last JOIN. Before their time the timers do nothing. (Derived from R279, R413, R419, R421, R422, R368, R427, R428, R429.) -/
def Obligations.JobsAreAssembledAndFaultsEndThem : Prop :=
  (∀ (s u : State) (p : Pkt) (m : JoinMsg), u = ctrlSeen s p → CtrlPasses s p 0x10 → m = JoinMsg.ofPkt p (s.originOf p) →
    (s.caravan.isHead = false → s.caravan.isManager = true → managerOf p.src = s.caravan.mid →
      exec (.join p) s = .next (u.passUp p { m with marked := s.caravan.marked.contains m.mid }.body)) ∧
    (s.caravan.isHead = true → ∀ (k : Bool) (f : Option (Nat × HeadJob)), k = (m.marked || s.caravan.marked.contains m.mid) →
      f = s.caravan.jobs.find? (fun x => x.2.seed = m.seed && x.2.devices = m.devices) →
      (∀ c, joinRefusal (f.map (·.2)) { m with marked := k } = some c → exec (.join p) s = .next (u.answerJoin m.mid m.cseq c)) ∧
      (joinRefusal (f.map (·.2)) { m with marked := k } = none → f = none → m.devices ≠ 1 → ∃ t h, exec (.join p) s = .next t ∧
        tfind t.caravan.jobs s.caravan.nextTag = some h ∧ h.joins = [⟨m.mid, m.rank, m.cseq⟩] ∧ h.seed = m.seed ∧ h.devices = m.devices ∧ h.firstJoin = s.time.now ∧
        h.running = false ∧ t.caravan.nextTag = s.caravan.nextTag % (2 ^ 32 - 1) + 1 ∧ t.rooms = s.rooms))) ∧
  (∀ (h : HeadJob) (m : JoinMsg), (h.running = true → joinRefusal (some h) m = some Code.carBusy) ∧
    (h.running = false → m.devices ≤ m.rank → joinRefusal (some h) m = some Code.carRank) ∧
    (h.running = false → m.rank < m.devices → h.joins = [] → h.variant = m.variant → h.fw = m.fw → h.started = none → m.kind = 0 → m.incarn = 0 →
      joinRefusal (some h) m = if m.marked = true then some Code.carLaggard else none)) ∧
  (∀ (s u : State) (p : Pkt), u = ctrlSeen s p →
    (FromGiver s p 0x12 → exec (.map p) s = .next (u.enterMap p.cjob (p.arg 0 4) ((List.range (p.arg 4 4)).map fun i => p.arg (8 + 4 * i) 4))) ∧
    (FromGiver s p 0x11 → exec (.jobStart p) s = .next ((u.newGeneration (p.arg 4 4)).startOf
      p.cjob (p.arg 0 4) (p.arg 8 4) (p.arg 12 4) (p.arg 16 1) p.cseq)) ∧
    (CtrlPasses s p 0x11 → s.caravan.isHead = false → p.src = s.caravan.giver → s.caravan.isManager = true → p.remote ≠ s.caravan.mid →
      exec (.jobStart p) s = .next (u.passDown p p.body)) ∧
    (CtrlPasses s p 0x16 → s.caravan.isHead = true → ∀ h, tfind s.caravan.jobs p.cjob = some h →
      exec (.fault p) s = .next (if h.incarn = p.cinc then u.headAbort p.cjob (p.arg 0 4) (p.arg 8 2) else u.healthRecord 6 (p.arg 8 2) 0xFFFF 0xFFFF (p.arg 0 4))) ∧
    (FromGiver s p 0x17 → exec (.abort p) s = .next ((u.dropBar p.cjob).abortHere p.cjob p.cinc (p.arg 8 2) (p.arg 0 4)).takeOver)) ∧
  (∀ (s : State) (tag first : Nat) (l : List Nat), (∀ i m, l[i]? = some m → tfind (tget [] (s.enterMap tag first l).caravan.maps tag) (first + i) = some m) ∧
    (∀ k, (k < first ∨ first + l.length ≤ k) → tfind (tget [] (s.enterMap tag first l).caravan.maps tag) k = tfind (tget [] s.caravan.maps tag) k)) ∧
  ∀ (s : State) (tag at_ : Nat) (h : HeadJob), tfind s.caravan.jobs tag = some h →
    (h.joins ≠ [] → h.firstJoin + s.caravan.assembleMs * 1000000 ≤ (s.upto at_).time.now →
      exec (.assemblyTimeout tag at_) s = .next (h.joins.foldl (fun v x => v.answerJoin x.mid x.cseq Code.carAssembly)
        (if h.started.isSome = true then (s.upto at_).setJob tag { h with joins := [] } else { s.upto at_ with caravan := { s.caravan with jobs := tdel s.caravan.jobs tag } }))) ∧
    ((h.joins = [] ∨ (s.upto at_).time.now < h.firstJoin + s.caravan.assembleMs * 1000000) → exec (.assemblyTimeout tag at_) s = .next (s.upto at_)) ∧
    (∀ t, h.ended = some t → h.running = false → h.joins = [] → Nat.max t h.firstJoin + 600000000000 ≤ (s.upto at_).time.now →
      exec (.jobRecordExpiry tag at_) s = .next { s.upto at_ with caravan := { s.caravan with jobs := tdel s.caravan.jobs tag } }) ∧
    ((h.ended = none ∨ h.running = true ∨ h.joins ≠ [] ∨ (s.upto at_).time.now < h.firstJoin + 600000000000) → exec (.jobRecordExpiry tag at_) s = .next (s.upto at_))

/-- BAR_JOIN does nothing while its barrier is held. With no snapshot due a job of one device releases its barrier at once; a job of several devices sends its join. With a snapshot due it waits until the room is quiet, faults where the plan names another buddy or too few bytes, else marks the snapshot into a free slot and joins; with no slot free it waits for one under SNAP_PENDING, and a device of several whose complete snapshot the head knows joins while it waits. BAR_JOIN as a message is counted at the head and at the sender's manager: the first join opens the count of its epoch; one with another mode digest, or that disagrees about an end, aborts the job; one of another incarnation or epoch changes nothing. RELEASE releases the waiting room of its job and epoch. BAR_LOCAL faults the room for a WAIT or a join that has lasted the barrier timeout, with the mode code where only a mode entry's acknowledgement is missing. BAR_TIMEOUT records every missing rank and aborts the job with the first. (Derived from R273, R275, R318, R352, R379, R423, R424, R425.) -/
def Obligations.BarriersAreJoinedCountedAndReleased : Prop :=
  (∀ (s : State) (room : Nat) (j : Job) (x : Room), (s.room room).job = some j → x = s.room room →
    (BarHeld s room j → exec (.barJoin room) s = .next s) ∧
    (¬ BarHeld s room j → ¬ (j.phase = 2 ∧ x.snapDue j.epoch = true ∧ j.marked = false) →
      exec (.barJoin room) s = .next (if j.devices ≤ 1 then s.releaseBarrier room x.mem.snap.newestStep else s.sendJoin room)) ∧
    (¬ BarHeld s room j → j.phase = 2 → x.snapDue j.epoch = true → j.marked = false →
      (x.quiet = false → exec (.barJoin room) s = .next s) ∧
      (x.quiet = true →
        (∀ p, x.mem.snap.plan = some p → 1 < j.devices → p.buddy ≠ buddyOf j.rank j.devices → exec (.barJoin room) s = .next (s.raiseFault room Code.buddyMismatch noUnit)) ∧
        (∀ p, x.mem.snap.plan = some p → (j.devices ≤ 1 ∨ p.buddy = buddyOf j.rank j.devices) →
          (p.snapBytes < (s.snapOf room j).bytes → exec (.barJoin room) s = .next (s.raiseFault room Code.snapOversize noUnit)) ∧
          ((s.snapOf room j).bytes ≤ p.snapBytes → x.mem.snap.free = true →
            exec (.barJoin room) s = .next (((s.snapWaited room).markSnap room j).joinNow room j)) ∧
          ((s.snapOf room j).bytes ≤ p.snapBytes → x.mem.snap.free = false → exec (.barJoin room) s = .next (
            if 1 < j.devices ∧ x.mem.snap.copying = none ∧ x.mem.snap.report = x.mem.snap.newestStep then (s.snapHold room).sendJoin room else s.snapHold room)))))) ∧
  (∀ (s : State) (room : Nat) (j : Job), room < 64 → (s.room room).job = some j → s.caravan.isHead = false → s.caravan.isManager = false →
    ∃ n, ((s.sendJoin room).room room).job = some { j with waiting := true, reportedSnap := n } ∧ (s.sendJoin room).caravan.cseq = (s.caravan.cseq + 1) % 2 ^ 32) ∧
  (∀ (s u : State) (p : Pkt), u = ctrlSeen s p → CtrlPasses s p 0x14 →
    (s.caravan.isHead = true → exec (.barJoinMessage p) s = .next (u.headCount p.cjob p.cinc (p.arg 0 4) (p.arg 8 8) (p.arg 28 1) ⟨p.src, p.arg 4 4, p.arg 16 8, (p.arg 24 4 + 1) % 2 ^ 32⟩)) ∧
    (s.caravan.isHead = false → s.caravan.isManager = true → managerOf p.src = s.caravan.mid →
      exec (.barJoinMessage p) s = .next (u.managerCount p.cjob p.cinc (p.arg 0 4) (p.arg 8 8) (p.arg 28 1) ⟨p.src, p.arg 4 4, p.arg 16 8, (p.arg 24 4 + 1) % 2 ^ 32⟩))) ∧
  (∀ (s : State) (tag incarn epoch digest ends : Nat) (x : BarEntry) (h : HeadJob), tfind s.caravan.jobs tag = some h →
    ((h.running = false ∨ h.incarn ≠ incarn) → s.headCount tag incarn epoch digest ends x = s) ∧
    (h.running = true → h.incarn = incarn → h.bar = none → x.members ≠ h.devices →
      tfind (s.headCount tag incarn epoch digest ends x).caravan.jobs tag = some { h with bar := some ⟨epoch, [x], digest, ends, s.time.now, incarn⟩ }) ∧
    (∀ b, h.running = true → h.incarn = incarn → h.bar = some b →
      (b.epoch ≠ epoch → s.headCount tag incarn epoch digest ends x = s) ∧
      (b.epoch = epoch → b.digest ≠ digest → s.headCount tag incarn epoch digest ends x = s.headAbort tag (rankOf h.map x.mid) Code.modeMismatch) ∧
      (b.epoch = epoch → b.digest = digest → b.ends % 2 ≠ ends % 2 → s.headCount tag incarn epoch digest ends x = s.headAbort tag (rankOf h.map x.mid) Code.endMismatch))) ∧
  (∀ (s : State) (p : Pkt), FromGiver s p 0x15 → s.caravan.isManager = false →
    exec (.release p) s = .next ((ctrlSeen s p).releaseHere p.cjob p.cinc (p.arg 0 4) (if p.arg 4 4 = 0xFFFFFFFF then none else some (p.arg 4 4)))) ∧
  (∀ (s u : State) (room at_ : Nat) (j : Job), (s.room room).job = some j → u = s.upto at_ →
    ((j.faulted = true ∨ (waitsLate u room = false ∧ (j.waiting = true ∨ j.firstJoin = none))) → exec (.barLocal room at_) s = .next u) ∧
    (j.faulted = false → waitsLate u room = true → exec (.barLocal room at_) s = .next (u.raiseFault room Code.barLocal noUnit)) ∧
    (∀ t, j.faulted = false → waitsLate u room = false → j.waiting = false → j.firstJoin = some t →
      (u.time.now < t + s.caravan.barrierNs → exec (.barLocal room at_) s = .next u) ∧
      (t + s.caravan.barrierNs ≤ u.time.now → (j.unitsIn = false ∨ (s.room room).modesAt j.epoch = []) → exec (.barLocal room at_) s = .next (u.raiseFault room Code.barLocal noUnit)))) ∧
  ∀ (s : State) (tag at_ : Nat) (h : HeadJob) (b : BarCount), tfind s.caravan.jobs tag = some h → h.bar = some b →
    ((s.upto at_).time.now < b.first + s.caravan.barrierNs → exec (.barTimeout tag at_) s = .next (s.upto at_)) ∧
    (b.first + s.caravan.barrierNs ≤ (s.upto at_).time.now → exec (.barTimeout tag at_) s =
      .next (((missingRanks h b).foldl (fun v k => v.healthRecord 6 Code.barTimeout 0xFFFF 0xFFFF k) (s.upto at_)).headAbort tag ((missingRanks h b).headD 0xFFFFFFFF) Code.barTimeout))

/-- LINK_NONCE at a lease giver with a running steward is answered with a report and opens a try; elsewhere it does nothing. A report that fails its checks ends the asking device's try, to be begun again, and marks the giver's try as failed; one that passes installs a link key at generation 0. LINK_RESEND sends the last datagram again after 1 s without an answer, at most five times, then abandons the try. IMAGE_FETCH takes what the servers answer in list order, one answer after another: the first acceptable image is accepted; a refused one is audited and its code kept; a server that is silent or unproven is left for the next; a TFTP block is added and the next asked for, up to the short one that ends the image; after the last server the fetch has failed with the last refusal's code. An image over 24 MiB is refused for its size. TFTP_RETRANSMIT asks again after 1 s, up to five times, then the next server. FETCH_RETRY starts over 10 s after the list failed. A crash of a running pair freezes its rings and records it; of a restarting pair it is a failure. STEWARD_WATCHDOG 5 ms after the firmware last restarted its count counts and crashes. STEWARD_RESTART_DONE resumes a pair whose die holds its image and is not tripped, and marks it failed where its copy, or the image held, does not agree with the digest. STEWARD_SLOW 250 ms after the crash is recorded once and faults its incarnations. (Derived from R367, R370, R371, R373, R374, R375, R376, R463.) -/
def Obligations.LinksAreAgreedImagesFetchedAndStewardsRestart : Prop :=
  (∀ (s : State) (mid : Nat) (nonce : List Nat),
    ((s.gives mid = false ∨ s.stewards.ready = false) → exec (.linkNonce mid nonce) s = .next s) ∧
    (s.gives mid = true → s.stewards.ready = true → ∃ t x, exec (.linkNonce mid nonce) s = .next t ∧ tfind t.caravan.tries mid = some x ∧ x.starter = false ∧ x.stage = 2 ∧
      x.nonceA = nonce ∧ x.sends = 1 ∧ x.last = s.time.now ∧ t.out = s.out ++ [.link mid 2 x.gram] ∧ t.caravan.links = s.caravan.links ∧ t.rooms = s.rooms)) ∧
  (∀ (s : State) (mid : Nat) (report : List Nat) (verified : Bool) (m : Memory), m = memWriteN [] 0 (toBytes report) →
    (tfind s.caravan.tries mid = none → exec (.linkReport mid report verified) s = .next s) ∧
    (∀ x, tfind s.caravan.tries mid = some x → x.starter = true → x.stage = 1 →
      (s.peerOk m x.nonceA verified = false → exec (.linkReport mid report verified) s = .next { s with caravan := { s.caravan with tries := tdel s.caravan.tries mid, retryAt := some s.time.now } }) ∧
      (s.peerOk m x.nonceA verified = true → ∃ t y key, exec (.linkReport mid report verified) s = .next t ∧ tfind t.caravan.tries mid = some y ∧ y.stage = 3 ∧
        t.caravan.links = tset s.caravan.links mid ⟨[0], s.time.now, [key]⟩ ∧ t.rooms = s.rooms)) ∧
    (∀ x, tfind s.caravan.tries mid = some x → x.starter = true → x.stage = 3 → exec (.linkReport mid report verified) s = .next (s.emit (.link mid 3 x.gram))) ∧
    (∀ x, tfind s.caravan.tries mid = some x → x.starter = false → x.stage = 2 →
      ((s.peerOk m x.nonceB verified = false ∨ memReadN m 112 48 ≠ fitBytes 48 (toBytes x.nonceA)) →
        exec (.linkReport mid report verified) s = .next { s with caravan := { s.caravan with tries := tset s.caravan.tries mid { x with stage := 9 } } }) ∧
      (s.peerOk m x.nonceB verified = true → memReadN m 112 48 = fitBytes 48 (toBytes x.nonceA) → exec (.linkReport mid report verified) s =
        .next { s with caravan := { s.caravan with
          tries := tdel s.caravan.tries mid
          links := tset s.caravan.links mid ⟨[0], s.time.now, [linkKeyOf s.caravan.mid mid x.nonceA x.nonceB ((memReadN m 400 96).map BitVec.toNat) x.eph]⟩ } }))) ∧
  (∀ (s : State) (mid at_ : Nat) (x : LinkTry), tfind s.caravan.tries mid = some x →
    ((3 ≤ x.stage ∨ (s.upto at_).time.now < x.last + 1000000000) → exec (.linkResend mid at_) s = .next (s.upto at_)) ∧
    (x.stage < 3 → x.last + 1000000000 ≤ (s.upto at_).time.now →
      (x.sends ≤ 5 → ∃ t, exec (.linkResend mid at_) s = .next t ∧ tfind t.caravan.tries mid = some { x with sends := x.sends + 1, last := (s.upto at_).time.now } ∧
        t.out = s.out ++ [.link mid x.stage x.gram]) ∧
      (5 < x.sends → ∃ t, exec (.linkResend mid at_) s = .next t ∧ t.caravan.tries = tdel s.caravan.tries mid ∧ t.out = s.out ∧
        t.caravan.retryAt = if x.starter = true then some ((s.upto at_).time.now) else s.caravan.retryAt))) ∧
  (∀ (s u : State) (served : List Served) (a : Served), (s.stewards.fetching = false → exec (.imageFetch served) s = .next s) ∧
    (exec (.imageFetch [a]) s = .next u → exec (.imageFetch (a :: served)) s = exec (.imageFetch served) u) ∧
    (s.stewards.fetching = true →
      ((a = .silent ∨ a = .unproven) → s.stewards.server + 1 < s.sec.servers.length → exec (.imageFetch [a]) s = .next { s with
        stewards := { s.stewards with server := s.stewards.server + 1, tries := 0, part := [], asked := s.time.now }
        out := s.out ++ [.fetch (s.stewards.server + 1)] }) ∧
      ((a = .silent ∨ a = .unproven) → s.sec.servers.length ≤ s.stewards.server + 1 → exec (.imageFetch [a]) s = .next (s.fetchFailed s.stewards.failCode)) ∧
      (∀ bytes verified bs, a = .file bytes verified → bs = bytes.map (BitVec.ofNat 8) →
        (∀ c, s.imageRefusal bs verified = some c → u = s.audit 0x07 0 0 0xFFFF c (leBytes 2 c ++ leBytes 1 s.stewards.server) →
          exec (.imageFetch [a]) s = .next { u with stewards := { s.stewards with failCode := c } }.nextServer) ∧
        (s.imageRefusal bs verified = none → exec (.imageFetch [a]) s = .next (s.acceptImage bs) ∧ (s.acceptImage bs).stewards.ready = true ∧
          (s.acceptImage bs).stewards.fetching = false ∧ (s.acceptImage bs).stewards.bootCode = 0)) ∧
      ∀ bytes verified x part, a = .block bytes verified → s.sec.servers[s.stewards.server]? = some x → x.https = false → bytes.length ≤ 512 →
        part = s.stewards.part ++ bytes.map (BitVec.ofNat 8) → u = { s with stewards := { s.stewards with part := part, tries := 0, asked := s.time.now } } →
        (bytes.length = 512 → part.length ≤ 25165824 → exec (.imageFetch [a]) s = .next { u with out := s.out ++ [.fetch s.stewards.server] }) ∧
        ((bytes.length < 512 ∨ 25165824 < part.length) → exec (.imageFetch [a]) s = .next (u.tryImage part verified)))) ∧
  (∀ (s : State) (bytes : List Byte) (verified : List Bool), 25165824 < bytes.length → s.imageRefusal bytes verified = some Code.fwSize) ∧
  (∀ (s : State) (at_ : Nat) (v : Server), s.stewards.fetching = true → s.sec.servers[s.stewards.server]? = some v → v.https = false →
    ((s.upto at_).time.now < s.stewards.asked + 1000000000 → exec (.tftpRetransmit at_) s = .next (s.upto at_)) ∧
    (s.stewards.asked + 1000000000 ≤ (s.upto at_).time.now →
      (s.stewards.tries < 5 → exec (.tftpRetransmit at_) s = .next { s.upto at_ with
        stewards := { s.stewards with tries := s.stewards.tries + 1, asked := (s.upto at_).time.now }
        out := s.out ++ [.fetch s.stewards.server] }) ∧
      (5 ≤ s.stewards.tries → s.stewards.server + 1 < s.sec.servers.length → exec (.tftpRetransmit at_) s = .next { s.upto at_ with
        stewards := { s.stewards with server := s.stewards.server + 1, tries := 0, part := [], asked := (s.upto at_).time.now }
        out := s.out ++ [.fetch (s.stewards.server + 1)] }) ∧
      (5 ≤ s.stewards.tries → s.sec.servers.length ≤ s.stewards.server + 1 → exec (.tftpRetransmit at_) s = .next ((s.upto at_).fetchFailed s.stewards.failCode)))) ∧
  (∀ (s : State) (at_ t : Nat), s.stewards.waitSince = some t →
    (s.sec.stage = 7 → t + 10000000000 ≤ (s.upto at_).time.now → exec (.fetchRetry at_) s = .next (s.upto at_).beginFetch) ∧
    ((s.sec.stage ≠ 7 ∨ (s.upto at_).time.now < t + 10000000000) → exec (.fetchRetry at_) s = .next (s.upto at_))) ∧
  (∀ (w : State) (pair : Nat) (x : Pair), pair < 4 → x = w.pair pair →
    (x.st = 2 → w.crashPair pair = w.failPair pair) ∧ (x.st ≠ 1 → x.st ≠ 2 → w.crashPair pair = w) ∧
    (x.st = 1 → x.crashes = [] → w.crashPair pair = ((w.thawRings (fun r => w.pairOf r = pair) .active .frozen).modPair pair fun y => { y with
      st := 2, crashAt := some w.time.now, slow := false, seen := [], sram := [], crashes := w.time.now :: y.crashes }).healthRecord
        7 0 (stewardUnit pair) 0xFFFF x.restarts) ∧
    ((w.resumePair pair).pair pair).st = 1) ∧
  ∀ (s u v : State) (pair at_ : Nat) (x : Pair), pair < 4 → u = s.upto at_ → x = s.pair pair →
    (∀ sram n, v = (if sram then (u.corrected (stewardUnit pair) (stewardUnit pair) n).count (stewardUnit pair) 1 1
      else u.corrected (stewardUnit pair) (stewardUnit pair) n) → exec (.stewardCrash ⟨pair, sram, n⟩ at_) s = .next (v.crashPair pair)) ∧
    (x.st = 1 → x.visited + 5000000 ≤ u.time.now → exec (.stewardWatchdog pair at_) s = .next ((u.count (stewardUnit pair) 15 1).crashPair pair)) ∧
    ((x.st ≠ 1 ∨ u.time.now < x.visited + 5000000) → exec (.stewardWatchdog pair at_) s = .next u) ∧
    (∀ y intact, x.st = 2 → x.gated = false → s.power.trip.contains (pair / 2) = false → tfind s.stewards.stores (pair / 2) = some y →
      (intact = true → y.ok = true → exec (.stewardRestartDone ⟨pair, intact⟩ at_) s = .next ((u.slowPair pair).resumePair pair)) ∧
      (intact = false ∨ y.ok = false → exec (.stewardRestartDone ⟨pair, intact⟩ at_) s = .next (u.failPair pair))) ∧
    (∀ intact, (x.st ≠ 2 ∨ x.gated = true ∨ tfind s.stewards.stores (pair / 2) = none ∨ s.power.trip.contains (pair / 2) = true) →
      exec (.stewardRestartDone ⟨pair, intact⟩ at_) s = .next u) ∧
    (∀ t, x.st = 2 → x.crashAt = some t → (x.slow = true ∨ u.time.now < t + 250000000) → u.slowPair pair = u ∧ exec (.stewardSlow pair at_) s = .next u) ∧
    (∀ t, x.st = 2 → x.crashAt = some t → x.slow = false → t + 250000000 ≤ u.time.now → exec (.stewardSlow pair at_) s =
      .next (((u.modPair pair fun y => { y with slow := true }).healthRecord 7 Code.stewardSlow (stewardUnit pair) 0xFFFF pair).pairFault pair Code.stewardSlow))

/-- STANDBY_POWER_GOOD with a failed ROM test stops at stage 0, with a fuse word that resolves to nothing at stage 1, in a lifecycle other than TEST and SHIPPED at stage 2; else it waits for main power at stage 6 with boot code 0, its shadow as the words resolve and its key store kept only where it and the version register hold. STRAP_LATCH takes the 12 straps once. MAIN_START needs standby power, 500 ms of settling, no failure held and 43 V. RAIL_STEP raises the rails one by one, and at the fifth asserts PWR_GOOD. RAIL_FAIL cuts the rails and holds them off at the second failure; RAIL_RETRY 1 s after a cut starts them again. LINK_TRAINING 100 ms after PWR_GOOD and after the host reset brings the link up. FUSE_REREAD records each word that disagrees with the shadow or between its reads, and the shadow stays. (Derived from R453, R456, R457, R510, R516, R517, R518, R519, R520.) -/
def Obligations.PowerUpRunsItsStagesAndRails : Prop :=
  (∀ (s : State) (romOk storeOk chainOk : Bool) (reads : List FuseReads),
    (s.module.standby = true → exec (.standbyPowerGood romOk storeOk chainOk reads) s = .next s) ∧
    (s.module.standby = false → ∃ t, exec (.standbyPowerGood romOk storeOk chainOk reads) s = .next t ∧ t.module.standby = true ∧ t.module.standbyAt = s.time.now ∧ t.rooms = s.rooms ∧
      (romOk = false → t.sec.stage = 0 ∧ t.sec.bootCode = Code.secRomTest ∧ t.sec.shadow = s.sec.shadow) ∧
      (romOk = true → (∃ r ∈ reads, r.resolve = none) → t.sec.stage = 1 ∧ t.sec.bootCode = Code.fuseMargin ∧ t.sec.shadow = s.sec.shadow) ∧
      (romOk = true → (∀ r ∈ reads, r.resolve ≠ none) → t.sec.shadow = bootShadow s.sec.fuses reads ∧
        (t.lifecycle ≠ 1 → t.lifecycle ≠ 2 → t.sec.stage = 2 ∧ t.sec.bootCode = Code.secRetired) ∧
        ((t.lifecycle = 1 ∨ t.lifecycle = 2) → t.sec.stage = 6 ∧ t.sec.bootCode = 0 ∧ t.module.railCode = 0 ∧ t.sec.versionReg = s.sec.version ∧
          (storeOk = true → (s.sec.versionReg = 0 ∨ s.sec.versionReg = s.sec.version) → t.sec.installers = s.sec.installers ∧ t.sec.operators = s.sec.operators ∧ t.sec.cas = s.sec.cas) ∧
          ((storeOk = false ∨ (s.sec.versionReg ≠ 0 ∧ s.sec.versionReg ≠ s.sec.version)) → t.sec.installers = [] ∧ t.sec.operators = [] ∧ t.sec.cas = []))))) ∧
  (∀ (s : State) (straps : Nat), exec (.strapLatch straps) s = .next (if s.module.standby = true ∧ s.module.latched = false then
    { s with module := { s.module with straps := straps % 4096, latched := true } } else s)) ∧
  (∀ (s u : State) (millivolts at_ : Nat), u = s.upto at_ →
    (s.module.standby = true → s.module.rail = 0 → s.module.fails = 0 → s.module.heldOff = false → (s.module.settled = true ∨ s.module.standbyAt + 500000000 ≤ u.time.now) → 43000 ≤ millivolts →
      exec (.mainStart millivolts at_) s = .next { u with module := { s.module with rail := 1, settled := true }, power := { s.power with vin := millivolts / 10 } }) ∧
    ((s.module.standby = false ∨ s.module.rail ≠ 0 ∨ s.module.fails ≠ 0 ∨ s.module.heldOff = true ∨ millivolts < 43000 ∨ (s.module.settled = false ∧ u.time.now < s.module.standbyAt + 500000000)) →
      exec (.mainStart millivolts at_) s = .next u)) ∧
  (∀ (s u : State) (at_ : Nat), u = s.upto at_ →
    ((s.module.rail = 0 ∨ 6 ≤ s.module.rail) → exec (.railStep at_) s = .next u ∧ exec (.railFail at_) s = .next u) ∧
    (0 < s.module.rail → s.module.rail < 5 → exec (.railStep at_) s = .next { u with module := { s.module with rail := s.module.rail + 1 } }) ∧
    (s.module.rail = 5 → exec (.railStep at_) s = .next { u with module := { s.module with rail := 6, pwrGood := true, pwrGoodAt := u.time.now, fails := 0 } }.comeUp) ∧
    (0 < s.module.rail → s.module.rail < 6 → exec (.railFail at_) s = .next { u with module := { s.module with
      rail := 0, fails := s.module.fails + 1, heldOff := s.module.heldOff || decide (1 ≤ s.module.fails), cutAt := u.time.now, railCode := Code.pwrRailFail } }) ∧
    exec (.railRetry at_) s = .next (if s.module.rail = 0 ∧ s.module.fails ≠ 0 ∧ s.module.heldOff = false ∧ s.module.cutAt + 1000000000 ≤ u.time.now then
      { u with module := { s.module with rail := 1 } } else u)) ∧
  (∀ (s u : State) (width speed at_ : Nat), u = s.upto at_ →
    (s.module.pwrGood = true → s.module.resetActive = false → s.module.pwrGoodAt + 100000000 ≤ u.time.now → (s.module.resetEndAt = 0 ∨ s.module.resetEndAt + 100000000 ≤ u.time.now) →
      width ∈ [1, 2, 4, 8, 16] → 1 ≤ speed → speed ≤ 6 → exec (.linkTraining width speed at_) s =
        .next { u with module := { s.module with perst := false, modrst := false, linkUp := true, width := width, speed := speed } }) ∧
    ((s.module.pwrGood = false ∨ s.module.resetActive = true ∨ u.time.now < s.module.pwrGoodAt + 100000000) → exec (.linkTraining width speed at_) s = .next u)) ∧
  ∀ (s : State) (reads : List FuseReads), ∃ t, exec (.fuseReread reads) s = .next t ∧ t.sec.shadow = s.sec.shadow ∧ t.rooms = s.rooms ∧
    ((∀ r ∈ reads, r.agree = true ∧ r.atight.data = s.fuse r.word) → t = s) ∧
    (∀ r ∈ reads, (r.agree = false ∨ r.atight.data ≠ s.fuse r.word) → t.sec.fuseAlarm = true ∧ t.health.alarm = true)

/-- HOST_RESET while PWR_GOOD and not already in a host reset clears rooms, rings, cores, buffers and counters of the islands, keeps device time, fuses, key store, host memory, health marks and counts, and records cause 3; otherwise it only latches its inputs. HOST_RESET_END ends it and the device comes up. MAIN_RESET with a rail up also loses device time and counts, records PWR_RESET with its cause (at once, or when a steward with the device duties runs again), and takes the rails and PWR_GOOD down; with no rail up it does nothing. STANDBY_LOSS under 11 V loses time, rooms and every volatile key, and keeps flash, fuses, audit log and host memory. The four board-bus reads answer one block in the standby domain and change nothing; without standby power they answer nothing. The alert response releases ALERT# for the conditions present and gives the bus address; with no alert it does nothing. (Derived from R472, R486, R511, R512, R520, R522, R524.) -/
def Obligations.ResetsKeepWhatTheyMustAndBusReadsChangeNothing : Prop :=
  (∀ (s u : State) (perst modrst : Bool) (at_ : Nat), u = s.upto at_ →
    (s.module.pwrGood = true → s.module.resetActive = false → (perst = true ∨ modrst = true) → ∃ t, exec (.hostReset perst modrst at_) s = .next t ∧
      t.rooms = [] ∧ t.rings = [] ∧ t.cores = [] ∧ t.net = Net.reset ∧ t.ingest = Ingest.reset ∧ t.time = u.time ∧ t.health.counts = s.health.counts ∧ t.health.marks = s.health.marks ∧
      t.health.oos = s.health.oos ∧ t.health.records = s.health.records ∧ t.sec.fuses = s.sec.fuses ∧ t.sec.installers = s.sec.installers ∧ t.sec.operators = s.sec.operators ∧ t.sec.stage = Nat.min s.sec.stage 6 ∧ t.host = s.host ∧
      t.power.lastReset = 3 ∧ t.module.resetActive = true ∧ t.module.linkUp = false ∧ t.module.rail = s.module.rail ∧ t.caravan.record = s.caravan.record) ∧
    ((s.module.pwrGood = false ∨ s.module.resetActive = true ∨ (perst = false ∧ modrst = false)) → exec (.hostReset perst modrst at_) s =
      .next { u with module := { s.module with perst := s.module.perst || perst, modrst := s.module.modrst || modrst } }) ∧
    (s.module.resetActive = true → exec (.hostResetEnd at_) s = .next { u with module := { s.module with perst := false, modrst := false, resetActive := false, resetEndAt := u.time.now } }.comeUp) ∧
    (s.module.resetActive = false → exec (.hostResetEnd at_) s = .next { u with module := { s.module with perst := false, modrst := false } })) ∧
  (∀ (s u : State) (surge : Bool) (at_ : Nat), u = s.upto at_ →
    (s.module.rail = 0 → exec (.mainReset surge at_) s = .next u) ∧
    (s.module.rail ≠ 0 → ∃ t, exec (.mainReset surge at_) s = .next t ∧ t.rooms = [] ∧ t.rings = [] ∧ t.cores = [] ∧ t.time = Timebase.reset ∧ t.health.counts = [] ∧ t.health.marks = s.health.marks ∧
      (s.module.resetActive = false → t.health.held.reverse ++ t.health.records = ⟨u.time.now, 5, Code.pwrReset, noUnit, 0xFFFF, if surge = true then 2 else 1⟩ :: (s.health.held.reverse ++ s.health.records) ∧ t.power.lastReset = if surge = true then 2 else 1) ∧
      t.sec.fuses = s.sec.fuses ∧ t.sec.installers = s.sec.installers ∧ t.host = s.host ∧ t.module.rail = 0 ∧ t.module.pwrGood = false ∧ t.module.standby = s.module.standby)) ∧
  (∀ (s : State) (millivolts : Nat),
    ((11000 ≤ millivolts ∨ s.module.standby = false) → exec (.standbyLoss millivolts) s = .next s) ∧
    (millivolts < 11000 → s.module.standby = true → ∃ t, exec (.standbyLoss millivolts) s = .next t ∧ t.module.standby = false ∧ t.module.pwrGood = false ∧ t.module.rail = 0 ∧ t.rooms = [] ∧ t.rings = [] ∧
      t.time = Timebase.reset ∧ t.net = Net.reset ∧ t.sec.fuses = s.sec.fuses ∧ t.sec.shadow = s.sec.fuses ∧ t.sec.installers = s.sec.installers ∧ t.sec.operators = s.sec.operators ∧
      t.sec.servers = s.sec.servers ∧ t.host = s.host ∧ t.caravan.record = s.caravan.record ∧ t.sec.log = s.sec.log)) ∧
  (∀ (s : State) (c : Instr), c ∈ [Instr.bmbIdent, .bmbStatus, .bmbPower, .bmbThermal] →
    (s.module.standby = true → ∃ t b, exec c s = .next t ∧ t = { s with out := s.out ++ [.bmb b], fresh := t.fresh }) ∧
    (s.module.standby = false → exec c s = .next s)) ∧
  ∀ (s : State), (s.module.standby = true → s.alert = true → exec .alertResponse s = .next { s with
      module := { s.module with alertReleased := true, alertSeen := s.alertConditions }
      out := s.out ++ [.bmb (leBytes 1 (2 * (0x58 + bits s.identStraps 7 6)))] }) ∧
    ((s.module.standby = false ∨ s.alert = false) → exec .alertResponse s = .next s)

/-- SAG_WARNING under 42 V and SAG_CLEAR over 43 V set and clear the sag condition once. POWER_CONTROL, once 100 us have passed since the last comparison, keeps the reading and lowers one step over the cap or 72 A, raises one under 97 % of the cap and 69.8 A, else holds; a draw over 105 % of the limit at the last step for 100 ms faults every incarnation. A step down moves the count up unless it is at 55, and never past it; a step up moves it down. THERMAL_CONTROL keeps the coolant's readings and steps a die down from 100 °C, at once when throttling begins and then every 100 µs, and up below 98 °C every 1 ms; at a tripped die it only keeps the readings. JUNCTION_TRIP at 110 °C stops the die: its cores' contexts are gone and the device waits out of service. TRIP_RECOVERY after 60 s below 85 °C ends that wait and refills the die's image store. DROOP_TRIP marks an island stretched; DROOP_RECOVERY clears it, counts its cycles and records a long stretch of a core. (Derived from R481, R482, R483, R484, R485, R487, R488, R490.) -/
def Obligations.PowerAndHeatControlStepTripAndRecover : Prop :=
  (∀ (s : State) (mv : Nat),
    exec (.sagWarning mv) s = .next (if mv < 42000 ∧ s.power.sag = false then { s with power := { s.power with sag := true, vin := mv / 10 } }.powerEvent 0 else s) ∧
    exec (.sagClear mv) s = .next (if 43000 < mv ∧ s.power.sag = true then ({ s with power := { s.power with sag := false, vin := mv / 10 } }.powerEvent 1).forgetAlert 6 else s)) ∧
  (∀ (s : State) (input : InputRead) (milliamps at_ : Nat), (s.upto at_).time.now < s.power.controlAt + 100000 →
    exec (.powerControl input milliamps at_) s = .next (s.upto at_)) ∧
  (∀ (s u : State) (input : InputRead) (milliamps at_ cap plan k : Nat) (slots : Bool), u = (s.upto at_).chargeThrottle → cap = Nat.min s.power.cap (powerLimit s.variant) →
    plan = Nat.max s.power.plan0 s.power.plan1 → slots = (s.slotMask 0 != 0 || s.slotMask 1 != 0) → k = s.power.powerSteps → s.power.controlAt + 100000 ≤ (s.upto at_).time.now →
    (100 * input.watts ≤ 105 * powerLimit s.variant ∨ k ≠ 55 ∨ ∀ b, s.power.overSince = some b → (s.upto at_).time.now < b + 100000000) →
    ∃ t, exec (.powerControl input milliamps at_) s = .next t ∧
      t = { u with power := { u.power with pin := input.watts, iin := milliamps / 10, vin := input.millivolts / 10, controlAt := (s.upto at_).time.now,
                                           powerSteps := t.power.powerSteps, overSince := t.power.overSince } } ∧
      ((cap < input.watts ∨ 72000 < milliamps) → t.power.powerSteps = stepDown plan slots k) ∧
      (input.watts ≤ cap → 100 * input.watts < 97 * cap → milliamps < 69800 → t.power.powerSteps = stepUp plan slots k) ∧
      (input.watts ≤ cap → milliamps ≤ 72000 → (97 * cap ≤ 100 * input.watts ∨ 69800 ≤ milliamps) → t.power.powerSteps = k)) ∧
  (∀ (s : State) (input : InputRead) (milliamps at_ since : Nat), 105 * powerLimit s.variant < 100 * input.watts → s.power.powerSteps = 55 → s.power.overSince = some since →
    since + 100000000 ≤ (s.upto at_).time.now → s.power.controlAt + 100000 ≤ (s.upto at_).time.now →
    ∃ v : State, exec (.powerControl input milliamps at_) s = .next (v.faultAll Code.pwrOverload noUnit) ∧ v.rooms = s.rooms ∧ v.power.pin = input.watts) ∧
  (∀ (plan k : Nat) (slots : Bool), k ≤ 55 → stepDown plan slots k ≤ 55 ∧ (k < 55 → k < stepDown plan slots k) ∧ stepUp plan slots k ≤ k ∧ (0 < k → stepUp plan slots k < k)) ∧
  (∀ (s : State) (die hottest inlet outlet at_ : Nat), die < 2 → ∃ t, exec (.thermalControl die ⟨hottest, inlet, outlet⟩ at_) s = .next t ∧
    t.rooms = s.rooms ∧ t.power.coolIn = inlet ∧ t.power.coolOut = outlet ∧ (die = 0 → t.power.tj0 = hottest) ∧ (die = 1 → t.power.tj1 = hottest) ∧
    (s.power.trip.contains die = true → t.power.thermSteps die = s.power.thermSteps die) ∧
    (s.power.trip.contains die = false → 98 ≤ hottest → hottest < 100 → t.power.thermSteps die = s.power.thermSteps die) ∧
    (s.power.trip.contains die = false → 100 ≤ hottest → s.power.throttle.contains die = false →
      t.power.throttle = die :: s.power.throttle ∧ t.power.thermSteps die = stepDown (s.power.plan die) (s.slotMask die != 0) (s.power.thermSteps die)) ∧
    (s.power.trip.contains die = false → 100 ≤ hottest → s.power.throttle.contains die = true → ∀ l, tfind s.power.thermAt die = some l →
      t.power.thermSteps die = if (s.upto at_).time.now < l + 100000 then s.power.thermSteps die else stepDown (s.power.plan die) (s.slotMask die != 0) (s.power.thermSteps die)) ∧
    (s.power.trip.contains die = false → hottest < 98 → ∀ l, tfind s.power.thermAt die = some l → die ∉ t.power.throttle ∧
      t.power.thermSteps die = if s.power.thermSteps die = 0 ∨ (s.upto at_).time.now < l + 1000000 then s.power.thermSteps die else stepUp (s.power.plan die) (s.slotMask die != 0) (s.power.thermSteps die))) ∧
  (∀ (s : State) (die hottest at_ : Nat),
    ((2 ≤ die ∨ hottest < 110 ∨ s.power.trip.contains die = true) → exec (.junctionTrip die hottest at_) s = .next (s.upto at_)) ∧
    (die < 2 → 110 ≤ hottest → s.power.trip.contains die = false → ∃ t, exec (.junctionTrip die hottest at_) s = .next t ∧
      t.health.oosCode = Code.thermTrip ∧ tripReason die ∈ t.health.waiting ∧ (∀ c ∈ t.cores, coreDie c.1 ≠ die)) ∧
    (∀ l, s.power.trip.contains die = true → tfind s.power.tripCool die = some l → l + 60000000000 ≤ (s.upto at_).time.now → ∃ v : State, exec (.tripRecovery die at_) s = .next (v.refill die) ∧
      v.power.trip = s.power.trip.filter (· ≠ die) ∧ tripReason die ∉ v.health.waiting ∧ v.rooms = s.rooms) ∧
    (∀ l, s.power.trip.contains die = true → tfind s.power.tripCool die = some l → (s.upto at_).time.now < l + 60000000000 → exec (.tripRecovery die at_) s = .next (s.upto at_)) ∧
    (s.power.trip.contains die = false → exec (.tripRecovery die at_) s = .next (s.upto at_))) ∧
  ∀ (s : State) (unit cycles : Nat) (long : Bool),
    exec (.droopTrip unit) s = .next (if s.power.stretched.contains unit = true then s else { s with power := { s.power with stretched := unit :: s.power.stretched } }) ∧
    (s.power.stretched.contains unit = false → exec (.droopRecovery unit cycles long) s = .next s) ∧
    (s.power.stretched.contains unit = true → ∃ t, exec (.droopRecovery unit cycles long) s = .next t ∧ t.power.stretched = s.power.stretched.filter (· ≠ unit) ∧ t.rooms = s.rooms ∧
      (long = true → unit < 136 → ∃ n, t.health.held.reverse ++ t.health.records =
        ⟨s.time.now, 8, Code.droopLong, unit, 0xFFFF, n⟩ :: (s.health.held.reverse ++ s.health.records)) ∧
      ((long = false ∨ 136 ≤ unit) → t.health.records = s.health.records))

/-- STACK_BAND_READING keeps the reading and raises the band at once, lowering it only 2 °C below the limit; a stopped stack stays at band 0 and notes since when it has been below 85 °C. STACK_SHUTDOWN at 105 °C or below, of a stopped stack or of a site the variant lacks does nothing; above, the device waits out of service, and with no room on the stack nothing else changes but the stack. STACK_RETURN after 60 s below 85 °C starts it again at band 1 without poison. STACK_SCRUB of a serving stack counts each corrected sector and poisons each other one. CRC_ERROR counts; more than 16 of one lane of the bridge or of a stack's channel in 1 ms, or its failed training, use a spare lane, and with none left fault the jobs and take the device out of service; a cellar package that fails its training before the stewards run takes it out of service. SECURITY_FAULT of a unit that no confidential room holds changes nothing; a committed confidential room enters TURNOVER with its keys gone, another room does not change. (Derived from R238, R239, R241, R244, R341, R472, R489, R492, R493.) -/
def Obligations.StacksLanesAndSecurityFaultsAct : Prop :=
  (∀ (s u : State) (site hottest at_ : Nat), u = s.upto at_ →
    (site ∉ s.sites → exec (.stackBandReading site hottest at_) s = .next u ∧ exec (.stackShutdown site hottest at_) s = .next u) ∧
    (site ∈ s.sites → (s.stack site).stopped = false → exec (.stackBandReading site hottest at_) s =
      .next (u.modStack site fun k => { k with temp := hottest, band := nextBand (s.stack site).band hottest, coolSince := none })) ∧
    (site ∈ s.sites → (s.stack site).stopped = true → exec (.stackBandReading site hottest at_) s =
      .next (u.modStack site fun k => { k with temp := hottest, band := 0, coolSince := if hottest < 85 then some ((s.stack site).coolSince.getD u.time.now) else none }))) ∧
  (∀ (b t : Nat), 1 ≤ b → b ≤ 3 → (t ≤ 83 → nextBand b t = 1) ∧ (84 ≤ t → t ≤ 85 → nextBand b t = Nat.min b 2) ∧ (86 ≤ t → t ≤ 93 → nextBand b t = 2) ∧
    (94 ≤ t → t ≤ 95 → nextBand b t = Nat.max 2 b) ∧ (96 ≤ t → nextBand b t = 3)) ∧
  (∀ (s u : State) (site hottest at_ : Nat), u = s.upto at_ →
    (((s.stack site).stopped = true ∨ hottest ≤ 105) → exec (.stackShutdown site hottest at_) s = .next u) ∧
    (site ∈ s.sites → (s.stack site).stopped = false → 105 < hottest → ∃ t, exec (.stackShutdown site hottest at_) s = .next t ∧ t.health.oosCode = Code.stackThermal ∧ site ∈ t.health.waiting ∧
      ((∀ r, r < 64 → (s.room r).mem.upperFrames site = []) → (∀ p ∈ s.rooms, p.2.sec.conf = false) → t =
        ((u.modStack site fun k => { k with temp := hottest, band := 0, stopped := true, coolSince := none }).healthRecord 5 Code.stackThermal (136 + site) 0xFFFF hottest).setWaiting site Code.stackThermal)) ∧
    (∀ c, (s.stack site).stopped = true → (s.stack site).coolSince = some c → c + 60000000000 ≤ u.time.now → ∃ t, exec (.stackReturn site at_) s = .next t ∧ (t.stack site).stopped = false ∧
      (t.stack site).band = 1 ∧ (t.stack site).poison = [] ∧ (t.stack site).held = [] ∧ site ∉ t.health.waiting) ∧
    (((s.stack site).stopped = false ∨ (s.stack site).coolSince = none) → exec (.stackReturn site at_) s = .next u) ∧
    (∀ c, (s.stack site).coolSince = some c → u.time.now < c + 60000000000 → exec (.stackReturn site at_) s = .next u)) ∧
  (∀ (s : State) (site : Nat), (s.stack site).stopped = true ∨ site ∉ s.sites → ∀ hits, exec (.stackScrub site hits) s = .next s) ∧
  (∀ (s : State) (site : Nat) (hits : List ScrubHit), site ∈ s.sites → (s.stack site).stopped = false → ∃ t, exec (.stackScrub site hits) s = .next t ∧ t.rooms = s.rooms ∧
    (∀ h ∈ hits, h.corrected = false → (h.frame, h.sector) ∈ (t.stack site).poison) ∧ (∀ p ∈ (s.stack site).poison, p ∈ (t.stack site).poison) ∧
    (∀ k, k ≠ site → t.stack k = s.stack k)) ∧
  (∀ (s u v : State) (unit channel at_ : Nat) (e : LaneErr), u = s.upto at_ → v = (if e.training then u else u.count unit 11 1) →
    (unit = 156 ∨ unit = 157 →
      (e.training = false → exec (.crcError unit channel e at_) s = .next v) ∧
      (e.training = true → s.stewards.ready = true → exec (.crcError unit channel e at_) s = .next u) ∧
      (e.training = true → s.stewards.ready = false → ∃ t, exec (.crcError unit channel e at_) s = .next t ∧ t.rooms = s.rooms ∧ t.health.oos = true ∧
        t.health.oosCode = Code.cellarPackage ∧ bit t.health.cellar (16 * (unit - 156) + e.lane % 16) = false)) ∧
    (unit = 165 → exec (.crcError unit channel e at_) s = .next (v.bridgeError channel e)) ∧
    (136 ≤ unit → unit < 152 → unit - 136 ∈ s.sites → channel < 16 → exec (.crcError unit channel e at_) s = .next (v.laneError (unit - 136) channel e))) ∧
  (∀ (s : State) (dir : Nat) (e : LaneErr) (l : List Nat), l = crcTimes (tget [] s.health.bridgeCrc (dir * 4096 + e.lane)) s.time.now →
    (l.length ≤ 16 → e.training = false → (s.bridgeError dir e).health.bridge0 = s.health.bridge0 ∧ (s.bridgeError dir e).health.bridge1 = s.health.bridge1 ∧
      (s.bridgeError dir e).rooms = s.rooms) ∧
    ((16 < l.length ∨ e.training = true) → 0 < (if dir = 0 then s.health.bridge0 else s.health.bridge1) →
      (s.bridgeError dir e).health.bridge0 = (if dir = 0 then s.health.bridge0 - 1 else s.health.bridge0) ∧
      (s.bridgeError dir e).health.bridge1 = (if dir = 0 then s.health.bridge1 else s.health.bridge1 - 1) ∧ (s.bridgeError dir e).rooms = s.rooms) ∧
    ((16 < l.length ∨ e.training = true) → (if dir = 0 then s.health.bridge0 else s.health.bridge1) = 0 →
      ∃ v : State, s.bridgeError dir e = (v.faultAll Code.bridgeLane 165).outOfService Code.bridgeLane ∧ v.rooms = s.rooms)) ∧
  (∀ (s : State) (site channel used : Nat) (e : LaneErr) (l : List Nat), l = crcTimes (tget [] (s.stack site).crc (channel * 4096 + e.lane)) s.time.now →
    used = tget 0 (s.stack site).lanesUsed (channel * 2 + if 128 ≤ e.lane then 1 else 0) →
    (l.length ≤ 16 → e.training = false → s.laneError site channel e = s.modStack site fun k => { k with crc := tset k.crc (channel * 4096 + e.lane) l }) ∧
    ((16 < l.length ∨ e.training = true) → used < (if 128 ≤ e.lane then 1 else 2) →
      ((s.laneError site channel e).stack site).lanesUsed = tset (s.stack site).lanesUsed (channel * 2 + if 128 ≤ e.lane then 1 else 0) (used + 1) ∧
      (s.laneError site channel e).rooms = s.rooms) ∧
    ((16 < l.length ∨ e.training = true) → (if 128 ≤ e.lane then 1 else 2) ≤ used → (s.laneError site channel e).health.oos = true ∧
      (s.laneError site channel e).health.oosCode = Code.stackLane)) ∧
  ∀ (s : State) (unit : Nat), exec (.securityFault unit) s = .next (s.secFaults [unit] Code.secLockBreach) ∧
    ((∀ p ∈ s.rooms, p.2.sec.conf = true → s.holdsUnit p.2 unit = false) → exec (.securityFault unit) s = .next s) ∧
    ∀ (r cause : Nat), (((s.room r).sec.conf = false ∨ (s.room r).holds = false) → s.secFault r unit cause = s) ∧
      ((s.room r).sec.conf = true → (s.room r).st = .committed → ((s.secFault r unit cause).room r).st = .turnover ∧
        (∀ q, q ≠ r → ((s.secFault r unit cause).room q).st = (s.room q).st))

/-- Without standby power nothing is answered. A request of a client whose role may not make it, or at an unclaimed device, is refused with SEC_AUTH; one that writes while the log is full with SEC_LOG_FULL. Served: AUDIT_READ and HEALTH_READ give records from a number on; AUDIT_ACK frees the log through a number; REBOOT clears the rooms with cause 4; ROOM_SEC runs a tenant's command; the SET requests store their content, and SET_CARAVAN of a member leaves first; marks and members are taken back; keys are added up to 8 and 4, never twice, and removed, never the last installer; RELEASE_CLAIM erases the key store; the fuse requests are refused while an incarnation runs and otherwise set bits and never clear one; DEBUG_ALLOW opens a window of at most 24 h, DEBUG a session inside it. IDENTITY, ATTEST and CLAIM need no role, and CLAIM of a bad token is refused. (Derived from R410, R417, R448, R449, R450, R451, R452, R454, R458, R469.) -/
def Obligations.ManagementRequestsAreCheckedThenServed : Prop :=
  (∀ (s : State) (c : Instr) (w : Who) (roles : List Nat) (reads : Bool), requestOf c = some (w, roles, reads) →
    (s.module.standby = false → exec c s = .next s) ∧
    (s.module.standby = true → (s.sec.installers = [] ∨ (s.roleOf w).1 ∉ roles) → exec c s = .next (s.authFail w)) ∧
    (s.module.standby = true → s.sec.installers ≠ [] → (s.roleOf w).1 ∈ roles → s.sec.logFull = true → reads = false → exec c s = .next (s.respond Code.secLogFull []))) ∧
  (∀ (s : State) (w : Who) (n : Nat),
    (RequestServed s (.auditRead w n) w → exec (.auditRead w n) s = .next (s.respond 0 ((s.sec.log.filter fun a => decide (n ≤ a.seq)).reverse.flatMap Audit.bytes))) ∧
    (RequestServed s (.healthRead w n) w → exec (.healthRead w n) s =
      .next (s.respond 0 ((s.health.records.reverse.zipIdx.filter fun p => decide (n ≤ p.2)).flatMap fun p => p.1.bytes p.2))) ∧
    (RequestServed s (.auditAck w n) w → ∃ t, exec (.auditAck w n) s = .next t ∧ Answered s t 0 [] ∧ t.sec.acked = Nat.max s.sec.acked (Nat.min (n + 1) s.sec.nextSeq)) ∧
    (RequestServed s (.reboot w) w → ∃ t, exec (.reboot w) s = .next t ∧ t.rooms = [] ∧ t.rings = [] ∧ t.cores = [] ∧ t.power.lastReset = 4 ∧ t.time = s.time ∧ t.sec.installers = s.sec.installers) ∧
    (RequestServed s (.clearLaggard w n) w → ∃ t, exec (.clearLaggard w n) s = .next t ∧ Answered s t 0 [] ∧ n ∉ t.caravan.marked ∧ n ∉ t.caravan.reported) ∧
    (RequestServed s (.removeMember w n) w → exec (.removeMember w n) s =
      .next (((if s.gives n = true then s.evict n else s).config (s.roleOf w).1 (s.roleOf w).2 (leBytes 4 n)).respond 0 [])) ∧
    (RequestServed s (.debugAllow w n) w → exec (.debugAllow w n) s =
      .next ({ s with sec := { s.sec with debugUntil := some (s.time.now + Nat.min n 86400 * 1000000000) } }.respond 0 []))) ∧
  (∀ (s : State) (w : Who) (room cmd : Nat) (body : List Nat) (verified : Bool), RequestServed s (.roomSec w room cmd body verified) w →
    (room < 64 → 0 < cmd → cmd ≤ 5 → exec (.roomSec w room cmd body verified) s = .next ((s.tenantCmd room cmd body verified).2.2.respond (s.tenantCmd room cmd body verified).1
      (if cmd = 1 ∧ (s.tenantCmd room cmd body verified).1 = 0 then (s.tenantCmd room cmd body verified).2.1 ++ (s.tenantCmd room cmd body verified).2.2.chain else (s.tenantCmd room cmd body verified).2.1))) ∧
    ((64 ≤ room ∨ cmd = 0 ∨ 5 < cmd) → exec (.roomSec w room cmd body verified) s = .next s.refuseFree)) ∧
  (∀ (s : State) (w : Who) (l : List Nat) (certs : List (List Nat)) (servers : List Server),
    (RequestServed s (.setNet w l) w → ∃ t, exec (.setNet w l) s = .next t ∧ Answered s t 0 [] ∧ t.sec.mgmtAddr = l) ∧
    (RequestServed s (.setServers w servers) w → ∃ t, exec (.setServers w servers) s = .next t ∧ t.sec.servers = servers.take 4 ∧ t.rooms = s.rooms) ∧
    (RequestServed s (.setCa w certs) w → (repeats (certs.take 4) = true → exec (.setCa w certs) s = .next (s.respond Code.secDupKey [])) ∧
      (repeats (certs.take 4) = false → ∃ t, exec (.setCa w certs) s = .next t ∧ Answered s t 0 [] ∧ t.sec.cas = certs.take 4 ∧ t.sec.version = s.sec.version + 1 ∧ t.sec.versionReg = s.sec.version + 1)) ∧
    (RequestServed s (.setCaravan w l) w → ∃ t, exec (.setCaravan w l) s = .next t ∧ t.caravan.record = leNat ((toBytes l).take 64) ∧ (s.caravan.member = true → t.caravan.member = false ∧ t.caravan.links = []))) ∧
  (∀ (s : State) (w : Who) (k : List Nat) (i : Nat),
    (RequestServed s (.addOperator w k) w → (s.sec.operators.contains k = true → exec (.addOperator w k) s = .next (s.respond Code.secDupKey [])) ∧
      (s.sec.operators.contains k = false → 8 ≤ s.sec.operators.length → exec (.addOperator w k) s = .next s.refuseFree) ∧
      (s.sec.operators.contains k = false → s.sec.operators.length < 8 → ∃ t, exec (.addOperator w k) s = .next t ∧ Answered s t 0 [] ∧ t.sec.operators = s.sec.operators ++ [k] ∧ t.sec.version = s.sec.version + 1)) ∧
    (RequestServed s (.addInstaller w k) w → (s.sec.installers.contains k = true → exec (.addInstaller w k) s = .next (s.respond Code.secDupKey [])) ∧
      (s.sec.installers.contains k = false → 4 ≤ s.sec.installers.length → exec (.addInstaller w k) s = .next s.refuseFree) ∧
      (s.sec.installers.contains k = false → s.sec.installers.length < 4 → ∃ t, exec (.addInstaller w k) s = .next t ∧ Answered s t 0 [] ∧ t.sec.installers = s.sec.installers ++ [k] ∧ t.sec.version = s.sec.version + 1)) ∧
    (RequestServed s (.delOperator w i) w → (i < s.sec.operators.length → ∃ t, exec (.delOperator w i) s = .next t ∧ Answered s t 0 [] ∧ t.sec.operators = s.sec.operators.eraseIdx i) ∧
      (s.sec.operators.length ≤ i → exec (.delOperator w i) s = .next s.refuseFree)) ∧
    (RequestServed s (.delInstaller w i) w → (i < s.sec.installers.length → s.sec.installers.length ≤ 1 → exec (.delInstaller w i) s = .next (s.respond Code.secLastKey [])) ∧
      (i < s.sec.installers.length → 1 < s.sec.installers.length → ∃ t, exec (.delInstaller w i) s = .next t ∧ Answered s t 0 [] ∧ t.sec.installers = s.sec.installers.eraseIdx i)) ∧
    (RequestServed s (.releaseClaim w) w → ∃ t, exec (.releaseClaim w) s = .next t ∧ Answered s t 0 [] ∧ t.sec.installers = [] ∧ t.sec.operators = [] ∧ t.sec.cas = [])) ∧
  (∀ (s : State) (w : Who) (reads : List FuseReads) (words : List (Nat × Nat)) (g generation : Nat) (pub : List Nat),
    (RequestServed s (.svnCommit w reads) w → (s.anyJob = true → exec (.svnCommit w reads) s = .next (s.respond Code.secBusy [])) ∧
      (∀ f, s.anyJob = false → s.stewards.fw = some f → f.svn ≤ 384 → exec (.svnCommit w reads) s =
        .next (s.programFuses (s.roleOf w).1 (s.roleOf w).2 ((List.range 6).map fun i => (2 + i, 2 ^ Nat.min 64 (f.svn - 64 * i) - 1)) reads))) ∧
    (RequestServed s (.repairFuse w words reads) w → (s.anyJob = true → exec (.repairFuse w words reads) s = .next (s.respond Code.secBusy [])) ∧
      (s.anyJob = false → s.windowOpen = false → exec (.repairFuse w words reads) s = .next (s.respond Code.secDebugDenied [])) ∧
      (s.anyJob = false → s.windowOpen = true → (∀ p ∈ s.rooms, p.2.holds = false) → words ≠ [] → (∀ p ∈ words, fuseRepair p.1 = true ∨ p.1 = 1) →
        exec (.repairFuse w words reads) s = .next (s.programFuses (s.roleOf w).1 (s.roleOf w).2 words reads))) ∧
    (RequestServed s (.retire w reads) w → (s.anyJob = true → exec (.retire w reads) s = .next (s.respond Code.secBusy [])) ∧
      (s.anyJob = false → exec (.retire w reads) s = .next ((s.audit 0x03 (s.roleOf w).1 (s.roleOf w).2 0xFFFF 0 []).programFuses (s.roleOf w).1 (s.roleOf w).2 [(0, 7)] reads))) ∧
    (s.module.standby = true → s.sec.installers ≠ [] → s.makerLive g = true → g < 4 → generation < g → s.sec.logFull = false → s.anyJob = false →
      exec (.makerRevoke (.maker g pub) generation reads) s = .next (s.programFuses 3 0 [(8, 2 ^ generation)] reads)) ∧
    (s.module.standby = true → (s.makerLive g = false ∨ g ≤ generation) → exec (.makerRevoke (.maker g pub) generation reads) s = .next (s.authFail (.maker g pub)))) ∧
  (∀ (s : State) (reads : List FuseReads) (w v : Nat), (s.programWord reads w v).2.sec.fuses = tset s.sec.fuses w (tget 0 s.sec.fuses w ||| v) ∧ (s.programWord reads w v).2.rooms = s.rooms ∧
    (reads = [] → (s.programWord reads w v).1 = true ∧ (s.programWord reads w v).2.sec.shadow = tset s.sec.shadow w (tget 0 s.sec.fuses w ||| v))) ∧
  (∀ (s : State) (g scope : Nat) (pub : List Nat) (rooms : List Nat), RequestServed s (.debug (.maker g pub) rooms scope) (.maker g pub) →
    ((s.windowOpen = false ∨ bit (s.fuse 1) 0 = true ∨ ∃ r ∈ rooms, s.debugRoomOk pub scope r = false) → exec (.debug (.maker g pub) rooms scope) s = .next (s.respond Code.secDebugDenied [])) ∧
    (s.windowOpen = true → bit (s.fuse 1) 0 = false → (∀ r ∈ rooms, s.debugRoomOk pub scope r = true) → ∃ t, exec (.debug (.maker g pub) rooms scope) s = .next t ∧ Answered s t 0 [] ∧ t.sec.debug = some (rooms, scope))) ∧
  ∀ (s : State) (w : Who) (nonce token pub : List Nat) (verified : Bool), (s.module.standby = false → exec (.identity w) s = .next s ∧ exec (.attest w nonce) s = .next s ∧ exec (.claim token pub verified) s = .next s) ∧
    (s.module.standby = true → exec (.identity w) s = .next (s.respond 0 s.chain) ∧
      (∃ n f, exec (.attest w nonce) s = .next ({ s with fresh := f }.respond 0 (s.report none nonce n [] ++ s.chain))) ∧
      (s.sec.logFull = false → s.claimOk token pub verified = false → exec (.claim token pub verified) s = .next (s.respond Code.secClaim [])) ∧
      (s.sec.logFull = false → s.claimOk token pub verified = true → ∃ t, exec (.claim token pub verified) s = .next t ∧ t.sec.installers = [pub] ∧ t.sec.version = s.sec.version + 1 ∧ t.rooms = s.rooms))

/-- REFERENCE_QUALIFIED makes EXT, or PTP after 16 exchanges within 100 ns, present and selects anew; the head takes no PTP, and PTP takes the place of a waiting time of day. REFERENCE_LOSS removes one (PTP only after 3 s without a Sync), raises the loss alarm when it was selected, and another is selected. REFERENCE_COMPARISON, once a second, marks a selected reference that differs from both others, and with two present that differ by over 50 ppb goes to holdover on the OCXO; it then corrects the phase against the reference selected. A correction only slews while a job runs or on a member, steps forward at a whole second of the new time elsewhere, and never steps time back. LOCK_ACQUIRED after 64 s within 50 ns. PPS_EDGE takes the phase of EXT and sets a waiting time of day. A Sync, Follow_Up or Delay_Resp not from the parent or of another domain is dropped and counted; accepted ones give offset and delay. ANNOUNCE keeps the parent's clockClass, and 248 or more loses PTP. DELAY_REQ is answered by a manager. The interval timers send Sync and Follow_Up and Delay_Req every 62.5 ms and Announce every second, and count their sequence. (Derived from R432, R433, R434, R435, R436, R437, R438, R441, R442.) -/
def Obligations.TheTimebaseFollowsItsReferences : Prop :=
  (∀ (s u : State) (ref at_ : Nat), u = s.upto at_ →
    ((2 ≤ ref ∨ s.time.present.contains ref = true ∨ (ref = 1 ∧ (s.caravan.isHead = true ∨ s.time.ptpFit = false))) → exec (.referenceQualified ref at_) s = .next u) ∧
    (s.time.present.contains 0 = false → exec (.referenceQualified 0 at_) s = .next (u.qualify 0).reselect) ∧
    (s.time.present.contains 1 = false → s.caravan.isHead = false → s.time.ptpFit = true → ∃ t, exec (.referenceQualified 1 at_) s = .next t ∧ t.time.present = 1 :: s.time.present ∧ t.time.isSet = true ∧
      t.time.todPending = none ∧ t.rooms = s.rooms) ∧
    ((2 ≤ ref ∨ s.time.present.contains ref = false ∨ (ref = 1 ∧ u.time.now < s.time.lastSync + 3000000000)) → exec (.referenceLoss ref at_) s = .next u) ∧
    (ref < 2 → s.time.present.contains ref = true → (ref = 0 ∨ s.time.lastSync + 3000000000 ≤ u.time.now) → ∃ t, exec (.referenceLoss ref at_) s = .next t ∧
      t.time.present = s.time.present.filter (· ≠ ref) ∧ t.time.sel ≠ ref ∧ (s.time.sel = ref → t.time.alarms = s.time.alarms ||| 4) ∧ t.rooms = s.rooms)) ∧
  (∀ (s u : State) (a b c offset : Int) (at_ : Nat), u = s.upto at_ →
    (u.time.now < s.time.compared + 1000000000 → exec (.referenceComparison a b c offset at_) s = .next u) ∧
    (s.time.compared + 1000000000 ≤ u.time.now → exec (.referenceComparison a b c offset at_) s =
      .next ((({ u with time := { u.time with offset := offset, compared := u.time.now } } : State).compareRefs ⟨a, b, c⟩).correctPhase s.time.sel offset))) ∧
  (∀ (s : State) (was : Nat) (offset : Int), (s.time.sel = 2 → s.correctPhase was offset = s) ∧
    (s.time.sel = was → was ≠ 2 → offset ≠ 0 → s.correctPhase was offset = s.correct (-offset)) ∧
    (s.time.sel = 1 → was ≠ 1 → s.time.ptpOffset ≠ 0 → s.correctPhase was offset = s.correct (-s.time.ptpOffset))) ∧
  (∀ (s : State) (f : FreqDiffs), s.time.oot = [] → s.time.suspect = none → s.time.sel < 2 →
    (f.outlier s.time.present s.time.sel = true → s.time.sel ∈ (s.compareRefs f).time.oot ∧ (s.compareRefs f).time.alarms = s.time.alarms ||| 1) ∧
    (s.time.present.length = 2 → f.apart s.time.sel 2 = true → (s.compareRefs f).time.st = .holdover ∧ (s.compareRefs f).time.sel = 2 ∧ (s.compareRefs f).time.suspect = some s.time.sel ∧
      (s.compareRefs f).time.alarms = s.time.alarms ||| 2)) ∧
  (∀ (s : State) (d : Int), s.time.now ≤ (s.correct d).time.now ∧ (s.correct d).rooms = s.rooms ∧
    (s.maySteps = false → (s.correct d).time.now = s.time.now ∧ (s.correct d).time.slew = d ∧ (s.correct d).time.stepAt = none) ∧
    (s.maySteps = true → 0 ≤ d → s.time.now < wholeAfter s.time.now d.toNat → (s.correct d).time.now = s.time.now ∧ (s.correct d).time.stepAt = some (wholeAfter s.time.now d.toNat)) ∧
    (s.maySteps = true → 0 ≤ d → wholeAfter s.time.now d.toNat = s.time.now → (s.correct d).time.now = s.time.now + d.toNat)) ∧
  (∀ (s u : State) (at_ : Nat), u = s.upto at_ →
    exec (.lockAcquired at_) s = .next (if s.time.st = .acquiring ∧ s.time.since + 64000000000 ≤ u.time.now ∧ s.time.offset.natAbs ≤ 50 then { u with time := { u.time with st := .locked, slew := 0 } } else u) ∧
    (s.time.present.contains 0 = false → u.time.now % 1000000000 ≠ 0 → exec (.ppsEdge at_) s = .next u) ∧
    (s.time.present.contains 0 = true → s.time.todPending = none → ∃ t, exec (.ppsEdge at_) s = .next t ∧ t.time.now = u.time.now ∧
      t.time.offset = (if u.time.now % 1000000000 < 500000000 then ((u.time.now % 1000000000 : Nat) : Int) else ((u.time.now % 1000000000 : Nat) : Int) - 1000000000) ∧ t.rooms = s.rooms) ∧
    (∀ v, (s.time.present.contains 0 = true ∨ u.time.now % 1000000000 = 0) → s.time.todPending = some v → ∃ t, exec (.ppsEdge at_) s = .next t ∧ t.time.todPending = none ∧ t.time.isSet = true ∧ t.rooms = s.rooms)) ∧
  (∀ (s u : State) (m : PtpMsg), u = s.upto m.received →
    (s.ptpOk m = false → exec (.sync m) s = .next u.ptpDrop ∧ exec (.followUp m) s = .next s.ptpDrop ∧ exec (.delayResp m) s = .next s.ptpDrop) ∧
    (s.ptpOk m = true → exec (.sync m) s = .next (if m.twoStep = true then { u with time := { u.time with syncRecv := some (m.seq, m.received) } } else u.synced m.received m.stamp)) ∧
    (∀ q t, s.ptpOk m = true → s.time.syncRecv = some (q, t) → exec (.followUp m) s = .next (if q = m.seq then s.synced t m.stamp else s)) ∧
    (∀ t, s.ptpOk m = true → s.time.delayReqAt = some t → m.seq + 1 = s.time.delaySeq → ∃ v, exec (.delayResp m) s = .next v ∧ v.time.delayReqAt = none ∧
      v.time.ptpDelay = (s.time.syncDiff + ((m.stamp : Int) - (t : Int))) / 2 ∧ v.time.ptpOffset = s.time.syncDiff - v.time.ptpDelay) ∧
    (s.fromParent m = true → m.domain = s.time.ptp % 256 → exec (.announce m) s =
      .next (if 248 ≤ m.clockClass then ({ s with time := { s.time with parentClass := m.clockClass } } : State).loseReference 1 else { s with time := { s.time with parentClass := m.clockClass } })) ∧
    ((s.fromParent m = false ∨ m.domain ≠ s.time.ptp % 256) → exec (.announce m) s = .next s) ∧
    (s.caravan.isManager = true → m.domain = s.time.ptp % 256 → exec (.delayReq m) s = .next { s with out := s.out ++ [.ptp 4 m.port m.seq m.received] }) ∧
    ((s.caravan.isManager = false ∨ m.domain ≠ s.time.ptp % 256) → exec (.delayReq m) s = .next s)) ∧
  (∀ (s : State) (received origin : Nat), (s.synced received origin).time.ptpOffset = (received : Int) - (origin : Int) - s.time.ptpDelay ∧ (s.synced received origin).time.syncRecv = none ∧
    (s.synced received origin).time.lastSync = s.time.now ∧ (s.synced received origin).time.syncs.length ≤ 16) ∧
  ∀ (s u : State) (at_ : Nat), u = s.upto at_ →
    ((s.caravan.isManager = false ∨ u.time.now < s.time.syncSent + 62500000) → exec (.ptpSyncInterval at_) s = .next u) ∧
    (s.caravan.isManager = true → s.time.syncSent + 62500000 ≤ u.time.now → exec (.ptpSyncInterval at_) s = .next { u with
      time := { u.time with ptpSeq := (s.time.ptpSeq + 1) % 65536, syncSent := u.time.now }
      out := s.out ++ u.activePorts.flatMap fun q => [.ptp 1 q s.time.ptpSeq 0, .ptp 2 q s.time.ptpSeq u.time.now] }) ∧
    (u.time.now < s.time.announced + 1000000000 → exec (.ptpAnnounceInterval at_) s = .next u) ∧
    (s.time.announced + 1000000000 ≤ u.time.now → exec (.ptpAnnounceInterval at_) s = .next { u with
      time := { u.time with ptpSeq := (s.time.ptpSeq + 1) % 65536, announced := u.time.now }
      out := s.out ++ u.activePorts.map fun q => .ptp 5 q s.time.ptpSeq u.clockClass }) ∧
    ((u.activePorts = [] ∨ u.hasParent = false ∨ u.time.now < s.time.delayAsked + 62500000) → exec (.ptpDelayReqInterval at_) s = .next u) ∧
    (∀ q l, u.activePorts = q :: l → u.hasParent = true → s.time.delayAsked + 62500000 ≤ u.time.now → exec (.ptpDelayReqInterval at_) s = .next { u with
      time := { u.time with delayReqAt := some u.time.now, delayAsked := u.time.now, delaySeq := s.time.delaySeq + 1 }
      out := s.out ++ [.ptp 3 q s.time.delaySeq u.time.now] })

end
end

