-- ==== Sys2Proof/Laws/Memory.lean ====
section
/-! SUPPORT. Byte memories: a read after a write, and every memory operation keeps the canonical form. -/

namespace Sys2Proof.Machine

theorem memWfFrom_cons {lo k : Nat} {b : Byte} {r : Memory} :
    memWfFrom lo ((k, b) :: r) = true ↔ lo ≤ k ∧ b ≠ 0 ∧ memWfFrom (k + 1) r = true := by
  rw [memWfFrom, Bool.and_eq_true, Bool.and_eq_true, decide_eq_true_iff, decide_eq_true_iff, and_assoc]

theorem memWfFrom_mono {m : Memory} {a b : Nat} (h : memWfFrom b m = true) (hab : a ≤ b) : memWfFrom a m = true := by
  cases m with
  | nil => rfl
  | cons p r =>
    obtain ⟨k, c⟩ := p
    obtain ⟨h1, h2, h3⟩ := memWfFrom_cons.mp h
    exact memWfFrom_cons.mpr ⟨by omega, h2, h3⟩

theorem memWfFrom_write {m : Memory} {lo a : Nat} (b : Byte) (h : memWfFrom lo m = true) (ha : lo ≤ a) :
    memWfFrom lo (memWrite m a b) = true := by
  induction m generalizing lo with
  | nil =>
    rw [memWrite]
    split
    · rfl
    · rename_i hb
      exact memWfFrom_cons.mpr ⟨ha, hb, rfl⟩
  | cons p r ih =>
    obtain ⟨k, c⟩ := p
    obtain ⟨hk, hc, hr⟩ := memWfFrom_cons.mp h
    rw [memWrite]
    split
    · split
      · exact h
      · rename_i hlt hb
        exact memWfFrom_cons.mpr ⟨ha, hb, memWfFrom_cons.mpr ⟨hlt, hc, hr⟩⟩
    · split
      · rename_i hak
        subst hak
        split
        · exact memWfFrom_mono hr (by omega)
        · rename_i hb
          exact memWfFrom_cons.mpr ⟨ha, hb, hr⟩
      · exact memWfFrom_cons.mpr ⟨hk, hc, ih hr (by omega)⟩

/-- A write keeps the canonical form. -/
theorem wf_memWrite {m : Memory} (h : Memory.wf m = true) (a : Nat) (b : Byte) : Memory.wf (memWrite m a b) = true :=
  memWfFrom_write b h (Nat.zero_le a)

theorem wf_nil : Memory.wf [] = true := rfl

theorem wf_memWriteN {m : Memory} (h : Memory.wf m = true) (a : Nat) (bs : List Byte) : Memory.wf (memWriteN m a bs) = true := by
  induction bs generalizing m a with
  | nil => exact h
  | cons b r ih => exact ih (wf_memWrite h a b) (a + 1)

theorem wf_memSetNat {m : Memory} (h : Memory.wf m = true) (a n v : Nat) : Memory.wf (memSetNat m a n v) = true :=
  wf_memWriteN h a _

theorem memWfFrom_filter {m : Memory} {lo : Nat} (p : Host.Cell → Bool) (h : memWfFrom lo m = true) :
    memWfFrom lo (m.filter p) = true := by
  induction m generalizing lo with
  | nil => rfl
  | cons q r ih =>
    obtain ⟨k, c⟩ := q
    obtain ⟨hk, hc, hr⟩ := memWfFrom_cons.mp h
    rw [List.filter_cons]
    split
    · exact memWfFrom_cons.mpr ⟨hk, hc, ih hr⟩
    · exact memWfFrom_mono (ih hr) (by omega)

theorem wf_memZero {m : Memory} (h : Memory.wf m = true) (a n : Nat) : Memory.wf (memZero m a n) = true :=
  memWfFrom_filter _ h

theorem wf_memSlice {m : Memory} (h : Memory.wf m = true) (a n : Nat) : Memory.wf (memSlice m a n) = true :=
  memWfFrom_filter _ h

/-- A chain of writes keeps the canonical form. -/
theorem wf_foldWrites {α : Type} {m : Memory} (h : Memory.wf m = true) (f : α → Nat) (g : α → Byte) (l : List α) :
    Memory.wf (l.foldl (fun acc c => memWrite acc (f c) (g c)) m) = true := by
  induction l generalizing m with
  | nil => exact h
  | cons c r ih => exact ih (wf_memWrite h _ _)

theorem wf_memCopyRange {m : Memory} (h : Memory.wf m = true) (src dst n : Nat) : Memory.wf (memCopyRange m src dst n) = true :=
  wf_foldWrites (wf_memZero h dst n) _ _ _

theorem wf_memRestore {m : Memory} (h : Memory.wf m = true) (old : Memory) (a n : Nat) : Memory.wf (memRestore m old a n) = true :=
  wf_foldWrites (wf_memZero h a n) _ _ _

theorem wf_memCopy {m : Memory} (h : Memory.wf m = true) (src dst n : Nat) : Memory.wf (memCopy m src dst n) = true :=
  wf_memWriteN h dst _

/-- Cells listed from an address on with the base replaced keep the canonical form, where no cell lies below the base. -/
theorem memWfFrom_moveBase {m : Memory} {lo src dst : Nat} (h : memWfFrom lo m = true) (hs : src ≤ lo) :
    memWfFrom (lo - src + dst) (memMoveBase m src dst) = true := by
  induction m generalizing lo with
  | nil => rfl
  | cons q r ih =>
    obtain ⟨k, c⟩ := q
    obtain ⟨hk, hc, hr⟩ := memWfFrom_cons.mp h
    have h1 := ih hr (by omega)
    have h2 : k + 1 - src + dst = k - src + dst + 1 := by omega
    rw [h2] at h1
    exact memWfFrom_cons.mpr ⟨by omega, hc, h1⟩

theorem memRead_of_wfFrom {m : Memory} {lo a : Nat} (h : memWfFrom lo m = true) (ha : a < lo) : memRead m a = 0 := by
  induction m generalizing lo with
  | nil => rfl
  | cons q r ih =>
    obtain ⟨k, c⟩ := q
    obtain ⟨hk, hc, hr⟩ := memWfFrom_cons.mp h
    have : k ≠ a := by omega
    simp only [memRead, this, if_false]
    exact ih hr (by omega)

theorem memRead_writeFrom {m : Memory} {lo : Nat} (a x : Nat) (b : Byte) (h : memWfFrom lo m = true) :
    memRead (memWrite m a b) x = if x = a then b else memRead m x := by
  induction m generalizing lo with
  | nil =>
    simp only [memWrite]
    split
    · rename_i hb
      subst hb
      split <;> rfl
    · by_cases hx : x = a
      · simp [memRead, hx]
      · simp [memRead, hx, Ne.symm hx]
  | cons q r ih =>
    obtain ⟨k, c⟩ := q
    obtain ⟨hk, hc, hr⟩ := memWfFrom_cons.mp h
    simp only [memWrite]
    split
    · rename_i hlt
      split
      · rename_i hb
        subst hb
        split
        · rename_i hx
          subst hx
          have h1 : k ≠ x := by omega
          simp only [memRead, h1, if_false]
          exact memRead_of_wfFrom hr (by omega)
        · rfl
      · by_cases hx : x = a
        · simp [memRead, hx]
        · simp [memRead, hx, Ne.symm hx]
    · split
      · rename_i hak
        subst hak
        split
        · rename_i hb
          subst hb
          by_cases hx : x = a
          · subst hx
            simpa using memRead_of_wfFrom hr (by omega)
          · simp [memRead, hx, Ne.symm hx]
        · by_cases hx : x = a
          · simp [memRead, hx]
          · simp [memRead, hx, Ne.symm hx]
      · by_cases hx : k = x
        · subst hx
          have : k ≠ a := by omega
          simp [memRead, this]
        · simp only [memRead, hx, if_false]
          exact ih hr

/-- A byte read after a write: the byte written there, else what was there. -/
theorem memRead_memWrite {m : Memory} (h : Memory.wf m = true) (a x : Nat) (b : Byte) :
    memRead (memWrite m a b) x = if x = a then b else memRead m x :=
  memRead_writeFrom a x b h

/-- A byte outside a written range is as before. -/
theorem memRead_memWriteN_out {m : Memory} (h : Memory.wf m = true) {a x : Nat} (bs : List Byte) (hx : x < a ∨ a + bs.length ≤ x) :
    memRead (memWriteN m a bs) x = memRead m x := by
  induction bs generalizing m a with
  | nil => rfl
  | cons b r ih =>
    simp only [List.length_cons] at hx
    simp only [memWriteN]
    rw [ih (wf_memWrite h a b) (by omega), memRead_memWrite h]
    have : x ≠ a := by omega
    simp [this]

/-- A byte inside a written range is the byte written there. -/
theorem memRead_memWriteN_in {m : Memory} (h : Memory.wf m = true) {a i : Nat} (bs : List Byte) (hi : i < bs.length) :
    memRead (memWriteN m a bs) (a + i) = bs[i] := by
  induction bs generalizing m a i with
  | nil => simp at hi
  | cons b r ih =>
    simp only [memWriteN]
    cases i with
    | zero =>
      rw [Nat.add_zero, memRead_memWriteN_out (wf_memWrite h a b) r (by omega), memRead_memWrite h]
      simp
    | succ i =>
      have := ih (wf_memWrite h a b) (a := a + 1) (i := i) (by simpa using hi)
      simpa [Nat.add_assoc, Nat.add_comm 1 i] using this

/-- The written bytes are read back. -/
theorem memReadN_memWriteN {m : Memory} (h : Memory.wf m = true) (a : Nat) (bs : List Byte) :
    memReadN (memWriteN m a bs) a bs.length = bs := by
  induction bs generalizing m a with
  | nil => rfl
  | cons b r ih =>
    have h0 := memRead_memWriteN_in h (a := a) (i := 0) (b :: r) (by simp)
    simp only [Nat.add_zero, List.getElem_cons_zero] at h0
    rw [List.length_cons, memReadN, h0, memWriteN, ih (wf_memWrite h a b)]

end Sys2Proof.Machine
end

