-- ==== Sys2Proof/Laws/Table.lean ====
section
/-! SUPPORT. What tables answer: an entry read after it is set, other entries untouched, and facts about every listed entry. -/

namespace Sys2Proof.Machine

@[simp] theorem tfind_nil {α : Type} (k : Nat) : tfind ([] : Tbl α) k = none := rfl

@[simp] theorem tfind_tset_self {α : Type} (t : Tbl α) (k : Nat) (v : α) : tfind (tset t k v) k = some v := by
  induction t with
  | nil => simp [tset, tfind]
  | cons p r ih =>
    obtain ⟨j, w⟩ := p
    simp only [tset]
    split
    · simp [tfind]
    · split
      · simp [tfind]
      · have : j ≠ k := by omega
        simp [tfind, this, ih]

@[simp] theorem tfind_tset_ne {α : Type} (t : Tbl α) {k i : Nat} (v : α) (h : i ≠ k) : tfind (tset t k v) i = tfind t i := by
  induction t with
  | nil => simp [tset, tfind, Ne.symm h]
  | cons p r ih =>
    obtain ⟨j, w⟩ := p
    simp only [tset]
    split
    · simp [tfind, Ne.symm h]
    · split
      · rename_i h2
        subst h2
        simp [tfind, Ne.symm h]
      · simp [tfind, ih]

@[simp] theorem tget_tset_self {α : Type} (d : α) (t : Tbl α) (k : Nat) (v : α) : tget d (tset t k v) k = v := by
  simp [tget]

@[simp] theorem tget_tset_ne {α : Type} (d : α) (t : Tbl α) {k i : Nat} (v : α) (h : i ≠ k) : tget d (tset t k v) i = tget d t i := by
  simp [tget, h]

@[simp] theorem tget_tmod_self {α : Type} (d : α) (t : Tbl α) (k : Nat) (f : α → α) : tget d (tmod d t k f) k = f (tget d t k) := by
  simp [tmod]

@[simp] theorem tget_tmod_ne {α : Type} (d : α) (t : Tbl α) {k i : Nat} (f : α → α) (h : i ≠ k) : tget d (tmod d t k f) i = tget d t i := by
  simp [tmod, h]

/-- A fact about every listed entry survives setting one entry that has it. -/
theorem all_tset {α : Type} {P : Nat → α → Prop} {t : Tbl α} {k : Nat} {v : α} (h : ∀ p ∈ t, P p.1 p.2) (hv : P k v) :
    ∀ p ∈ tset t k v, P p.1 p.2 := by
  induction t with
  | nil =>
    intro p hp
    simp only [tset, List.mem_singleton] at hp
    subst hp
    exact hv
  | cons q r ih =>
    obtain ⟨j, w⟩ := q
    have hr : ∀ p ∈ r, P p.1 p.2 := fun p hp => h p (List.mem_cons_of_mem _ hp)
    have hq : P j w := h (j, w) List.mem_cons_self
    intro p hp
    simp only [tset] at hp
    split at hp
    · simp only [List.mem_cons] at hp
      rcases hp with rfl | rfl | hp
      · exact hv
      · exact hq
      · exact hr p hp
    · split at hp
      · simp only [List.mem_cons] at hp
        rcases hp with rfl | hp
        · exact hv
        · exact hr p hp
      · simp only [List.mem_cons] at hp
        rcases hp with rfl | hp
        · exact hq
        · exact ih hr p hp

/-- A fact about every listed entry and the default holds of whatever is read. -/
theorem tget_all {α : Type} {P : α → Prop} {t : Tbl α} {d : α} (h : ∀ p ∈ t, P p.2) (hd : P d) (k : Nat) : P (tget d t k) := by
  induction t with
  | nil => simpa [tget] using hd
  | cons q r ih =>
    obtain ⟨j, w⟩ := q
    by_cases hj : j = k
    · simpa [tget, tfind, hj] using h (j, w) List.mem_cons_self
    · have := ih fun p hp => h p (List.mem_cons_of_mem _ hp)
      simpa [tget, tfind, hj] using this

/-- A fact about every listed entry survives removing entries. -/
theorem all_tdel {α : Type} {P : Nat → α → Prop} {t : Tbl α} {k : Nat} (h : ∀ p ∈ t, P p.1 p.2) : ∀ p ∈ tdel t k, P p.1 p.2 := by
  induction t with
  | nil => simp [tdel]
  | cons q r ih =>
    obtain ⟨j, w⟩ := q
    have hr : ∀ p ∈ r, P p.1 p.2 := fun p hp => h p (List.mem_cons_of_mem _ hp)
    intro p hp
    simp only [tdel] at hp
    split at hp
    · exact hr p hp
    · simp only [List.mem_cons] at hp
      rcases hp with rfl | hp
      · exact h _ List.mem_cons_self
      · exact ih hr p hp

theorem all_tfilter {α : Type} {P : Nat → α → Prop} {t : Tbl α} {q : Nat → α → Bool} (h : ∀ p ∈ t, P p.1 p.2) :
    ∀ p ∈ tfilter t q, P p.1 p.2 := fun p hp => h p (List.mem_filter.mp hp).1

theorem all_tmap {α : Type} {P : Nat → α → Prop} {t : Tbl α} {f : Nat → α → α} (h : ∀ p ∈ t, P p.1 p.2)
    (hf : ∀ k x, P k x → P k (f k x)) : ∀ p ∈ tmap t f, P p.1 p.2 := by
  intro p hp
  simp only [tmap, List.mem_map] at hp
  obtain ⟨q, hq, rfl⟩ := hp
  exact hf _ _ (h q hq)

end Sys2Proof.Machine
end

