-- ==== Sys2Proof/Laws/Keeps.lean ====
section
/-! SUPPORT. What no operation of the block does, as one relation between a state and a later one, with the rules by which it is shown of a compound operation. -/

namespace Sys2Proof.Machine

/-- What every operation below a command keeps: the queue of waiting commands, the canonical form of every memory, every programmed
fuse bit (R457), the bound of NumVFs, and the place of the next audit record, which only grows (R451). -/
structure Keeps (o t : State) : Prop where
  pending : t.pending = o.pending
  mem : o.MemoryWf → t.MemoryWf
  fuses : ∀ w i, bit (tget 0 o.sec.fuses w) i = true → bit (tget 0 t.sec.fuses w) i = true
  vfs : o.numVfs ≤ 63 → t.numVfs ≤ 63
  seq : o.sec.nextSeq ≤ t.sec.nextSeq

theorem Keeps.refl (s : State) : Keeps s s := ⟨rfl, id, fun _ _ h => h, id, Nat.le_refl _⟩

theorem Keeps.trans {s t u : State} (h : Keeps s t) (g : Keeps t u) : Keeps s u :=
  ⟨g.pending.trans h.pending, g.mem ∘ h.mem, fun w i x => g.fuses w i (h.fuses w i x), g.vfs ∘ h.vfs, Nat.le_trans h.seq g.seq⟩

/-- A state that agrees in every part that the relation speaks of. -/
theorem Keeps.frame {o s t : State} (h : Keeps o s) (h1 : t.pending = s.pending) (h2 : t.host = s.host) (h3 : t.rooms = s.rooms)
    (h4 : t.cores = s.cores) (h5 : t.common = s.common) (h6 : t.sec.fuses = s.sec.fuses) (h7 : t.numVfs = s.numVfs)
    (h8 : t.sec.nextSeq = s.sec.nextSeq) : Keeps o t := by
  refine ⟨h1.trans h.pending, fun w => ?_, fun w i x => ?_, fun x => ?_, ?_⟩
  · have := h.mem w
    exact ⟨h2 ▸ this.host, h3 ▸ this.rooms, h4 ▸ this.cores, h5 ▸ this.common⟩
  · rw [h6]
    exact h.fuses w i x
  · rw [h7]
    exact h.vfs x
  · rw [h8]
    exact h.seq

theorem Keeps.cut {p q : Prop} (h : p) (g : p → q) : q := g h

theorem Keeps.fstEq {β : Type} {o u : State} {p : State × β} {y : β} (he : p = (u, y)) (h : Keeps o p.1) : Keeps o u := by
  rw [he] at h
  exact h

theorem Keeps.sndEq {β : Type} {o u : State} {p : β × State} {y : β} (he : p = (y, u)) (h : Keeps o p.2) : Keeps o u := by
  rw [he] at h
  exact h

theorem Keeps.thdEq {β γ : Type} {o u : State} {p : β × γ × State} {y : β} {z : γ} (he : p = (y, z, u)) (h : Keeps o p.2.2) :
    Keeps o u := by
  rw [he] at h
  exact h

theorem Keeps.foldl {α : Type} {o s : State} {f : State → α → State} (l : List α) (h : Keeps o s)
    (hf : ∀ u x, Keeps o u → Keeps o (f u x)) : Keeps o (l.foldl f s) := by
  induction l generalizing s with
  | nil => exact h
  | cons x r ih => exact ih (hf s x h)

/-- An update of parts that the relation does not speak of. -/
theorem Keeps.lit_iff {o s : State} {fresh' : Nat} {hostRefusals' : List HostRefusal} {vfEnable' : Bool} {rings' : Tbl Ring} {msix' : Tbl MsixVec} {restart' : Option (Nat × Nat × Nat)} {restartRejected' : Bool} {restartReason' : Nat} {ringSel' : Nat} {ringInfo0' : Nat} {ringInfo1' : Nat} {badAccess' : Nat} {snaps' : Tbl (Nat × Nat × Nat)} {held' : Tbl Nat} {stackTbl' : Tbl Stack} {migrations' : Nat} {swaps' : Nat} {ingest' : Ingest} {sched' : Sched} {stewards' : Stewards} {net' : Net} {caravan' : Caravan} {time' : Timebase} {sec' : Strongroom} {power' : Power} {health' : Health} {module' : Module} {out' : List OutMsg}
    (h1 : sec'.fuses = s.sec.fuses) (h2 : sec'.nextSeq = s.sec.nextSeq) :
    Keeps o ⟨s.pending, fresh', s.host, hostRefusals', vfEnable', s.numVfs, s.rooms, rings', msix', restart', restartRejected', restartReason', ringSel', ringInfo0', ringInfo1', badAccess', snaps', held', s.cores, s.common, stackTbl', migrations', swaps', ingest', sched', stewards', net', caravan', time', sec', power', health', module', out'⟩ ↔ Keeps o s :=
  ⟨fun h => h.frame rfl rfl rfl rfl rfl h1.symm rfl h2.symm, fun h => h.frame rfl rfl rfl rfl rfl h1 rfl h2⟩

/-! ## Operations that may answer an error -/

/-- Where an operation succeeds, the state it answers keeps what `Keeps` says. -/
def Yields {ε α : Type} (o : State) (g : α → State) (e : Except ε α) : Prop := ∀ a, e = .ok a → Keeps o (g a)

theorem Yields.error {ε α : Type} {o : State} {g : α → State} (c : ε) : Yields o g (.error c : Except ε α) := fun _ h => nomatch h

theorem Yields.throw {ε α : Type} {o : State} {g : α → State} (c : ε) : Yields o g (throw c : Except ε α) := fun _ h => nomatch h

theorem Yields.ok {ε α : Type} {o : State} {g : α → State} {a : α} (h : Keeps o (g a)) : Yields o g (.ok a : Except ε α) := by
  intro b hb
  cases hb
  exact h

theorem Yields.pure {ε α : Type} {o : State} {g : α → State} {a : α} (h : Keeps o (g a)) : Yields o g (pure a : Except ε α) :=
  Yields.ok h

theorem Yields.bind {ε α β : Type} {o : State} {g : α → State} {x : Except ε β} {f : β → Except ε α}
    (h : ∀ v, x = .ok v → Yields o g (f v)) : Yields o g (x >>= f) := by
  cases x with
  | error c => exact fun _ h => nomatch h
  | ok v => exact h v rfl

theorem Yields.map {ε : Type} {o : State} {e : Except ε State} {f : State → State} (h : Yields o (fun v => v) e)
    (hf : ∀ u, Keeps o u → Keeps o (f u)) : Yields o (fun v => v) (e.map f) := by
  cases e with
  | error c => exact fun _ h => nomatch h
  | ok v => exact Yields.ok (hf v (h v rfl))

theorem Yields.ofEq {ε : Type} {o u : State} {e : Except ε State} (he : e = .ok u) (h : Yields o (fun v => v) e) : Keeps o u := h u he

theorem Yields.ofEqFst {ε β : Type} {o u : State} {y : β} {e : Except ε (State × β)} (he : e = .ok (u, y))
    (h : Yields o (fun v => v.1) e) : Keeps o u := h (u, y) he

/-- As `Yields`, of an operation that may answer nothing. -/
def Gives (o : State) (e : Option State) : Prop := ∀ u, e = some u → Keeps o u

theorem Gives.none {o : State} : Gives o none := fun _ h => nomatch h

theorem Gives.some {o u : State} (h : Keeps o u) : Gives o (some u) := by
  intro v hv
  cases hv
  exact h

theorem Gives.bind {o : State} {β : Type} {x : Option β} {f : β → Option State} (h : ∀ v, x = .some v → Gives o (f v)) :
    Gives o (x >>= f) := by
  cases x with
  | none => exact fun _ h => nomatch h
  | some v => exact h v rfl

theorem Gives.ofEq {o u : State} {e : Option State} (he : e = .some u) (h : Gives o e) : Keeps o u := h u he

/-! ## Changes of one part -/

theorem Keeps.ofHost {o s t : State} (h : Keeps o s) (hm : Memory.wf s.host = true → Memory.wf t.host = true) (h1 : t.pending = s.pending)
    (h3 : t.rooms = s.rooms) (h4 : t.cores = s.cores) (h5 : t.common = s.common) (h6 : t.sec.fuses = s.sec.fuses)
    (h7 : t.numVfs = s.numVfs) (h8 : t.sec.nextSeq = s.sec.nextSeq) : Keeps o t := by
  refine ⟨h1.trans h.pending, fun w => ?_, fun w i x => ?_, fun x => ?_, ?_⟩
  · have := h.mem w
    exact ⟨hm this.host, h3 ▸ this.rooms, h4 ▸ this.cores, h5 ▸ this.common⟩
  · rw [h6]
    exact h.fuses w i x
  · rw [h7]
    exact h.vfs x
  · rw [h8]
    exact h.seq

theorem Keeps.ofRooms {o s t : State} (h : Keeps o s)
    (hm : (∀ p ∈ s.rooms, Memory.wf p.2.mem.data = true) → ∀ p ∈ t.rooms, Memory.wf p.2.mem.data = true) (h1 : t.pending = s.pending)
    (h3 : t.host = s.host) (h4 : t.cores = s.cores) (h5 : t.common = s.common) (h6 : t.sec.fuses = s.sec.fuses)
    (h7 : t.numVfs = s.numVfs) (h8 : t.sec.nextSeq = s.sec.nextSeq) : Keeps o t := by
  refine ⟨h1.trans h.pending, fun w => ?_, fun w i x => ?_, fun x => ?_, ?_⟩
  · have := h.mem w
    exact ⟨h3 ▸ this.host, hm this.rooms, h4 ▸ this.cores, h5 ▸ this.common⟩
  · rw [h6]
    exact h.fuses w i x
  · rw [h7]
    exact h.vfs x
  · rw [h8]
    exact h.seq

theorem Keeps.ofCores {o s t : State} (h : Keeps o s)
    (hm : (∀ p ∈ s.cores, Memory.wf p.2.store = true) → ∀ p ∈ t.cores, Memory.wf p.2.store = true) (h1 : t.pending = s.pending)
    (h3 : t.host = s.host) (h4 : t.rooms = s.rooms) (h5 : t.common = s.common) (h6 : t.sec.fuses = s.sec.fuses)
    (h7 : t.numVfs = s.numVfs) (h8 : t.sec.nextSeq = s.sec.nextSeq) : Keeps o t := by
  refine ⟨h1.trans h.pending, fun w => ?_, fun w i x => ?_, fun x => ?_, ?_⟩
  · have := h.mem w
    exact ⟨h3 ▸ this.host, h4 ▸ this.rooms, hm this.cores, h5 ▸ this.common⟩
  · rw [h6]
    exact h.fuses w i x
  · rw [h7]
    exact h.vfs x
  · rw [h8]
    exact h.seq

theorem Keeps.ofCommon {o s t : State} (h : Keeps o s)
    (hm : (∀ p ∈ s.common, Memory.wf p.2 = true) → ∀ p ∈ t.common, Memory.wf p.2 = true) (h1 : t.pending = s.pending)
    (h3 : t.host = s.host) (h4 : t.rooms = s.rooms) (h5 : t.cores = s.cores) (h6 : t.sec.fuses = s.sec.fuses)
    (h7 : t.numVfs = s.numVfs) (h8 : t.sec.nextSeq = s.sec.nextSeq) : Keeps o t := by
  refine ⟨h1.trans h.pending, fun w => ?_, fun w i x => ?_, fun x => ?_, ?_⟩
  · have := h.mem w
    exact ⟨h3 ▸ this.host, h4 ▸ this.rooms, h5 ▸ this.cores, hm this.common⟩
  · rw [h6]
    exact h.fuses w i x
  · rw [h7]
    exact h.vfs x
  · rw [h8]
    exact h.seq

theorem Keeps.ofSec {o s t : State} (h : Keeps o s)
    (hm : ∀ w i, bit (tget 0 s.sec.fuses w) i = true → bit (tget 0 t.sec.fuses w) i = true) (hs : s.sec.nextSeq ≤ t.sec.nextSeq)
    (h1 : t.pending = s.pending) (h2 : t.host = s.host) (h3 : t.rooms = s.rooms)
    (h4 : t.cores = s.cores) (h5 : t.common = s.common) (h7 : t.numVfs = s.numVfs) : Keeps o t := by
  refine ⟨h1.trans h.pending, fun w => ?_, fun w i x => hm w i (h.fuses w i x), fun x => ?_, Nat.le_trans h.seq hs⟩
  · have := h.mem w
    exact ⟨h2 ▸ this.host, h3 ▸ this.rooms, h4 ▸ this.cores, h5 ▸ this.common⟩
  · rw [h7]
    exact h.vfs x

theorem Keeps.hostPut {o : State} (s : State) (a : Nat) (bs : List Byte) (hk : Keeps o s) : Keeps o (s.hostPut a bs) :=
  hk.ofHost (fun w => wf_memWriteN w a bs) rfl rfl rfl rfl rfl rfl rfl

/-- The memories of dies replaced, with other parts the relation does not speak of. -/
theorem Keeps.ofDies {o s t : State} (h : Keeps o s)
    (hc : (∀ p ∈ s.cores, Memory.wf p.2.store = true) → ∀ p ∈ t.cores, Memory.wf p.2.store = true)
    (hm : (∀ p ∈ s.common, Memory.wf p.2 = true) → ∀ p ∈ t.common, Memory.wf p.2 = true) (h1 : t.pending = s.pending)
    (h3 : t.host = s.host) (h4 : t.rooms = s.rooms) (h6 : t.sec.fuses = s.sec.fuses)
    (h7 : t.numVfs = s.numVfs) (h8 : t.sec.nextSeq = s.sec.nextSeq) : Keeps o t := by
  refine ⟨h1.trans h.pending, fun w => ?_, fun w i x => ?_, fun x => ?_, ?_⟩
  · have := h.mem w
    exact ⟨h3 ▸ this.host, h4 ▸ this.rooms, hc this.cores, hm this.common⟩
  · rw [h6]
    exact h.fuses w i x
  · rw [h7]
    exact h.vfs x
  · rw [h8]
    exact h.seq

/-- Rooms and dies returned to nothing, with other parts the relation does not speak of. -/
theorem Keeps.ofBlank {o s t : State} (h : Keeps o s) (h1 : t.pending = s.pending) (h2 : t.host = s.host) (h3 : t.rooms = [])
    (h4 : t.cores = []) (h5 : t.common = []) (h6 : t.sec.fuses = s.sec.fuses) (h7 : t.numVfs = 0)
    (h8 : t.sec.nextSeq = s.sec.nextSeq) : Keeps o t := by
  refine ⟨h1.trans h.pending, fun w => ?_, fun w i x => ?_, fun _ => ?_, ?_⟩
  · have := h.mem w
    refine ⟨h2 ▸ this.host, ?_, ?_, ?_⟩
    · rw [h3]; exact fun _ h => nomatch h
    · rw [h4]; exact fun _ h => nomatch h
    · rw [h5]; exact fun _ h => nomatch h
  · rw [h6]
    exact h.fuses w i x
  · rw [h7]
    exact Nat.zero_le _
  · rw [h8]
    exact h.seq

theorem Keeps.setNum {o : State} (s : State) (e : Bool) (n : Nat) (hk : Keeps o s) :
    Keeps o { s with vfEnable := e, numVfs := Nat.min n 63 } :=
  ⟨hk.pending, fun w => ⟨(hk.mem w).host, (hk.mem w).rooms, (hk.mem w).cores, (hk.mem w).common⟩, hk.fuses, fun _ => Nat.min_le_right n 63, hk.seq⟩

theorem room_wf {s : State} (h : ∀ p ∈ s.rooms, Memory.wf p.2.mem.data = true) (r : Nat) : Memory.wf (s.room r).mem.data = true :=
  tget_all (P := fun x : Room => Memory.wf x.mem.data = true) h rfl r

theorem core_wf {s : State} (h : ∀ p ∈ s.cores, Memory.wf p.2.store = true) (c : Nat) : Memory.wf (s.core c).store = true :=
  tget_all (P := fun x : Core => Memory.wf x.store = true) h rfl c

theorem common_wf {s : State} (h : ∀ p ∈ s.common, Memory.wf p.2 = true) (d : Nat) : Memory.wf (s.commonOf d) = true :=
  tget_all (P := fun m : Memory => Memory.wf m = true) h rfl d

theorem Keeps.foldlFst {α β : Type} {o : State} {p : State × β} {f : State × β → α → State × β} (l : List α) (h : Keeps o p.1)
    (hf : ∀ a x, Keeps o a.1 → Keeps o (f a x).1) : Keeps o (l.foldl f p).1 := by
  induction l generalizing p with
  | nil => exact h
  | cons x r ih => exact ih (hf p x h)

theorem Keeps.foldlSnd {α β : Type} {o : State} {p : β × State} {f : β × State → α → β × State} (l : List α) (h : Keeps o p.2)
    (hf : ∀ a x, Keeps o a.2 → Keeps o (f a x).2) : Keeps o (l.foldl f p).2 := by
  induction l generalizing p with
  | nil => exact h
  | cons x r ih => exact ih (hf p x h)

/-- The state that a chain of writes leaves. -/
theorem Keeps.foldlWrote {α : Type} {o : State} {w : Wrote} {f : Wrote → α → Wrote} (l : List α) (h : Keeps o w.s)
    (hf : ∀ a x, Keeps o a.s → Keeps o (f a x).s) : Keeps o (l.foldl f w).s := by
  induction l generalizing w with
  | nil => exact h
  | cons x r ih => exact ih (hf w x h)

theorem Keeps.roomsMap {o : State} (s : State) (f : Nat → Room → Room) (hk : Keeps o s)
    (hf : ∀ k x, Memory.wf x.mem.data = true → Memory.wf (f k x).mem.data = true) : Keeps o { s with rooms := tmap s.rooms f } :=
  hk.ofRooms (fun w => all_tmap (P := fun _ x => Memory.wf (Room.mem x).data = true) w hf) rfl rfl rfl rfl rfl rfl rfl

theorem Keeps.coresMap {o : State} (s : State) (f : Nat → Core → Core) (hk : Keeps o s)
    (hf : ∀ k x, Memory.wf x.store = true → Memory.wf (f k x).store = true) : Keeps o { s with cores := tmap s.cores f } :=
  hk.ofCores (fun w => all_tmap (P := fun _ x => Memory.wf (Core.store x) = true) w hf) rfl rfl rfl rfl rfl rfl rfl

theorem Keeps.coresFilter {o : State} (s : State) (f : Nat → Core → Bool) (hk : Keeps o s) :
    Keeps o { s with cores := tfilter s.cores f } :=
  hk.ofCores (fun w => all_tfilter (P := fun _ x => Memory.wf (Core.store x) = true) w) rfl rfl rfl rfl rfl rfl rfl

theorem Keeps.commonWrite {o : State} (s : State) (d a : Nat) (bs : List Byte) (hk : Keeps o s) :
    Keeps o { s with common := tset s.common d (memWriteN (s.commonOf d) a bs) } :=
  hk.ofCommon (fun w => all_tset (P := fun _ m => Memory.wf m = true) w (wf_memWriteN (common_wf w d) a bs)) rfl rfl rfl rfl rfl rfl rfl

theorem Keeps.commonDel {o : State} (s : State) (d : Nat) (hk : Keeps o s) : Keeps o { s with common := tdel s.common d } :=
  hk.ofCommon (fun w => all_tdel (P := fun _ m => Memory.wf m = true) w) rfl rfl rfl rfl rfl rfl rfl

theorem Keeps.commonMap {o : State} (s : State) (f : Nat → Memory → Memory) (hk : Keeps o s)
    (hf : ∀ k m, Memory.wf m = true → Memory.wf (f k m) = true) : Keeps o { s with common := tmap s.common f } :=
  hk.ofCommon (fun w => all_tmap (P := fun _ m => Memory.wf m = true) w hf) rfl rfl rfl rfl rfl rfl rfl

theorem wf_id {m : Memory} (h : Memory.wf m = true) : Memory.wf m = true := h

theorem wf_foldlMem {α : Type} {m : Memory} {f : Memory → α → Memory} (l : List α) (h : Memory.wf m = true)
    (hf : ∀ m x, Memory.wf m = true → Memory.wf (f m x) = true) : Memory.wf (l.foldl f m) = true := by
  induction l generalizing m with
  | nil => exact h
  | cons x r ih => exact ih (hf m x h)

theorem wf_foldlData {α : Type} {m : RoomMem} {f : RoomMem → α → RoomMem} (l : List α) (h : Memory.wf m.data = true)
    (hf : ∀ m x, Memory.wf m.data = true → Memory.wf (f m x).data = true) : Memory.wf (l.foldl f m).data = true := by
  induction l generalizing m with
  | nil => exact h
  | cons x r ih => exact ih (hf m x h)

/-- A room replaced by one whose memory is in canonical form where the old one was. -/
theorem Keeps.setRoom {o : State} (s : State) (r : Nat) (x : Room) (hk : Keeps o s)
    (hx : o.MemoryWf → Memory.wf (s.room r).mem.data = true → Memory.wf x.mem.data = true) : Keeps o (s.setRoom r x) := by
  refine ⟨hk.pending, fun w => ?_, hk.fuses, hk.vfs, hk.seq⟩
  have h := hk.mem w
  exact ⟨h.host, all_tset (P := fun _ x => Memory.wf (Room.mem x).data = true) h.rooms (hx w (room_wf h.rooms r)), h.cores, h.common⟩

theorem Keeps.modRoom {o : State} (s : State) (r : Nat) (f : Room → Room) (hk : Keeps o s)
    (hf : o.MemoryWf → Memory.wf (s.room r).mem.data = true → Memory.wf (f (s.room r)).mem.data = true) : Keeps o (s.modRoom r f) :=
  hk.setRoom s r _ hf

theorem Keeps.setCore {o : State} (s : State) (c : Nat) (x : Core) (hk : Keeps o s)
    (hx : o.MemoryWf → Memory.wf (s.core c).store = true → Memory.wf x.store = true) : Keeps o (s.setCore c x) := by
  refine ⟨hk.pending, fun w => ?_, hk.fuses, hk.vfs, hk.seq⟩
  have h := hk.mem w
  exact ⟨h.host, h.rooms, all_tset (P := fun _ x => Memory.wf (Core.store x) = true) h.cores (hx w (core_wf h.cores c)), h.common⟩

theorem Keeps.modCore {o : State} (s : State) (c : Nat) (f : Core → Core) (hk : Keeps o s)
    (hf : o.MemoryWf → Memory.wf (s.core c).store = true → Memory.wf (f (s.core c)).store = true) : Keeps o (s.modCore c f) :=
  hk.setCore s c _ hf

end Sys2Proof.Machine
end

