-- ==== Sys2Proof/Laws/State.lean ====
section
/-! SUPPORT. What each named update leaves in each field of the state, one lemma a field, so that no proof unfolds a record update. -/

namespace Sys2Proof.Machine

@[simp] theorem State.hostPut_pending (s : State) (a : Nat) (b : List Byte) : (s.hostPut a b).pending = s.pending := rfl
@[simp] theorem State.hostPut_fresh (s : State) (a : Nat) (b : List Byte) : (s.hostPut a b).fresh = s.fresh := rfl
@[simp] theorem State.hostPut_host (s : State) (a : Nat) (b : List Byte) : (s.hostPut a b).host = memWriteN s.host a b := rfl
@[simp] theorem State.hostPut_hostRefusals (s : State) (a : Nat) (b : List Byte) : (s.hostPut a b).hostRefusals = s.hostRefusals := rfl
@[simp] theorem State.hostPut_vfEnable (s : State) (a : Nat) (b : List Byte) : (s.hostPut a b).vfEnable = s.vfEnable := rfl
@[simp] theorem State.hostPut_numVfs (s : State) (a : Nat) (b : List Byte) : (s.hostPut a b).numVfs = s.numVfs := rfl
@[simp] theorem State.hostPut_rooms (s : State) (a : Nat) (b : List Byte) : (s.hostPut a b).rooms = s.rooms := rfl
@[simp] theorem State.hostPut_rings (s : State) (a : Nat) (b : List Byte) : (s.hostPut a b).rings = s.rings := rfl
@[simp] theorem State.hostPut_msix (s : State) (a : Nat) (b : List Byte) : (s.hostPut a b).msix = s.msix := rfl
@[simp] theorem State.hostPut_restart (s : State) (a : Nat) (b : List Byte) : (s.hostPut a b).restart = s.restart := rfl
@[simp] theorem State.hostPut_restartRejected (s : State) (a : Nat) (b : List Byte) : (s.hostPut a b).restartRejected = s.restartRejected := rfl
@[simp] theorem State.hostPut_restartReason (s : State) (a : Nat) (b : List Byte) : (s.hostPut a b).restartReason = s.restartReason := rfl
@[simp] theorem State.hostPut_ringSel (s : State) (a : Nat) (b : List Byte) : (s.hostPut a b).ringSel = s.ringSel := rfl
@[simp] theorem State.hostPut_ringInfo0 (s : State) (a : Nat) (b : List Byte) : (s.hostPut a b).ringInfo0 = s.ringInfo0 := rfl
@[simp] theorem State.hostPut_ringInfo1 (s : State) (a : Nat) (b : List Byte) : (s.hostPut a b).ringInfo1 = s.ringInfo1 := rfl
@[simp] theorem State.hostPut_badAccess (s : State) (a : Nat) (b : List Byte) : (s.hostPut a b).badAccess = s.badAccess := rfl
@[simp] theorem State.hostPut_snaps (s : State) (a : Nat) (b : List Byte) : (s.hostPut a b).snaps = s.snaps := rfl
@[simp] theorem State.hostPut_held (s : State) (a : Nat) (b : List Byte) : (s.hostPut a b).held = s.held := rfl
@[simp] theorem State.hostPut_cores (s : State) (a : Nat) (b : List Byte) : (s.hostPut a b).cores = s.cores := rfl
@[simp] theorem State.hostPut_common (s : State) (a : Nat) (b : List Byte) : (s.hostPut a b).common = s.common := rfl
@[simp] theorem State.hostPut_stackTbl (s : State) (a : Nat) (b : List Byte) : (s.hostPut a b).stackTbl = s.stackTbl := rfl
@[simp] theorem State.hostPut_migrations (s : State) (a : Nat) (b : List Byte) : (s.hostPut a b).migrations = s.migrations := rfl
@[simp] theorem State.hostPut_swaps (s : State) (a : Nat) (b : List Byte) : (s.hostPut a b).swaps = s.swaps := rfl
@[simp] theorem State.hostPut_ingest (s : State) (a : Nat) (b : List Byte) : (s.hostPut a b).ingest = s.ingest := rfl
@[simp] theorem State.hostPut_sched (s : State) (a : Nat) (b : List Byte) : (s.hostPut a b).sched = s.sched := rfl
@[simp] theorem State.hostPut_stewards (s : State) (a : Nat) (b : List Byte) : (s.hostPut a b).stewards = s.stewards := rfl
@[simp] theorem State.hostPut_net (s : State) (a : Nat) (b : List Byte) : (s.hostPut a b).net = s.net := rfl
@[simp] theorem State.hostPut_caravan (s : State) (a : Nat) (b : List Byte) : (s.hostPut a b).caravan = s.caravan := rfl
@[simp] theorem State.hostPut_time (s : State) (a : Nat) (b : List Byte) : (s.hostPut a b).time = s.time := rfl
@[simp] theorem State.hostPut_sec (s : State) (a : Nat) (b : List Byte) : (s.hostPut a b).sec = s.sec := rfl
@[simp] theorem State.hostPut_power (s : State) (a : Nat) (b : List Byte) : (s.hostPut a b).power = s.power := rfl
@[simp] theorem State.hostPut_health (s : State) (a : Nat) (b : List Byte) : (s.hostPut a b).health = s.health := rfl
@[simp] theorem State.hostPut_module (s : State) (a : Nat) (b : List Byte) : (s.hostPut a b).module = s.module := rfl
@[simp] theorem State.hostPut_out (s : State) (a : Nat) (b : List Byte) : (s.hostPut a b).out = s.out := rfl
@[simp] theorem State.hostPut_room (s : State) (a : Nat) (b : List Byte) (j : Nat) : (s.hostPut a b).room j = s.room j := rfl
@[simp] theorem State.hostPut_ring (s : State) (a : Nat) (b : List Byte) (j : Nat) : (s.hostPut a b).ring j = s.ring j := rfl
@[simp] theorem State.hostPut_core (s : State) (a : Nat) (b : List Byte) (j : Nat) : (s.hostPut a b).core j = s.core j := rfl
@[simp] theorem State.hostPut_stack (s : State) (a : Nat) (b : List Byte) (j : Nat) : (s.hostPut a b).stack j = s.stack j := rfl
@[simp] theorem State.hostPut_pair (s : State) (a : Nat) (b : List Byte) (j : Nat) : (s.hostPut a b).pair j = s.pair j := rfl
@[simp] theorem State.hostPut_fuse (s : State) (a : Nat) (b : List Byte) (j : Nat) : (s.hostPut a b).fuse j = s.fuse j := rfl
@[simp] theorem State.hostPut_now (s : State) (a : Nat) (b : List Byte) : (s.hostPut a b).now = s.now := rfl

@[simp] theorem State.setRoom_pending (s : State) (r : Nat) (x : Room) : (s.setRoom r x).pending = s.pending := rfl
@[simp] theorem State.setRoom_fresh (s : State) (r : Nat) (x : Room) : (s.setRoom r x).fresh = s.fresh := rfl
@[simp] theorem State.setRoom_host (s : State) (r : Nat) (x : Room) : (s.setRoom r x).host = s.host := rfl
@[simp] theorem State.setRoom_hostRefusals (s : State) (r : Nat) (x : Room) : (s.setRoom r x).hostRefusals = s.hostRefusals := rfl
@[simp] theorem State.setRoom_vfEnable (s : State) (r : Nat) (x : Room) : (s.setRoom r x).vfEnable = s.vfEnable := rfl
@[simp] theorem State.setRoom_numVfs (s : State) (r : Nat) (x : Room) : (s.setRoom r x).numVfs = s.numVfs := rfl
@[simp] theorem State.setRoom_rooms (s : State) (r : Nat) (x : Room) : (s.setRoom r x).rooms = tset s.rooms r x := rfl
@[simp] theorem State.setRoom_rings (s : State) (r : Nat) (x : Room) : (s.setRoom r x).rings = s.rings := rfl
@[simp] theorem State.setRoom_msix (s : State) (r : Nat) (x : Room) : (s.setRoom r x).msix = s.msix := rfl
@[simp] theorem State.setRoom_restart (s : State) (r : Nat) (x : Room) : (s.setRoom r x).restart = s.restart := rfl
@[simp] theorem State.setRoom_restartRejected (s : State) (r : Nat) (x : Room) : (s.setRoom r x).restartRejected = s.restartRejected := rfl
@[simp] theorem State.setRoom_restartReason (s : State) (r : Nat) (x : Room) : (s.setRoom r x).restartReason = s.restartReason := rfl
@[simp] theorem State.setRoom_ringSel (s : State) (r : Nat) (x : Room) : (s.setRoom r x).ringSel = s.ringSel := rfl
@[simp] theorem State.setRoom_ringInfo0 (s : State) (r : Nat) (x : Room) : (s.setRoom r x).ringInfo0 = s.ringInfo0 := rfl
@[simp] theorem State.setRoom_ringInfo1 (s : State) (r : Nat) (x : Room) : (s.setRoom r x).ringInfo1 = s.ringInfo1 := rfl
@[simp] theorem State.setRoom_badAccess (s : State) (r : Nat) (x : Room) : (s.setRoom r x).badAccess = s.badAccess := rfl
@[simp] theorem State.setRoom_snaps (s : State) (r : Nat) (x : Room) : (s.setRoom r x).snaps = s.snaps := rfl
@[simp] theorem State.setRoom_held (s : State) (r : Nat) (x : Room) : (s.setRoom r x).held = s.held := rfl
@[simp] theorem State.setRoom_cores (s : State) (r : Nat) (x : Room) : (s.setRoom r x).cores = s.cores := rfl
@[simp] theorem State.setRoom_common (s : State) (r : Nat) (x : Room) : (s.setRoom r x).common = s.common := rfl
@[simp] theorem State.setRoom_stackTbl (s : State) (r : Nat) (x : Room) : (s.setRoom r x).stackTbl = s.stackTbl := rfl
@[simp] theorem State.setRoom_migrations (s : State) (r : Nat) (x : Room) : (s.setRoom r x).migrations = s.migrations := rfl
@[simp] theorem State.setRoom_swaps (s : State) (r : Nat) (x : Room) : (s.setRoom r x).swaps = s.swaps := rfl
@[simp] theorem State.setRoom_ingest (s : State) (r : Nat) (x : Room) : (s.setRoom r x).ingest = s.ingest := rfl
@[simp] theorem State.setRoom_sched (s : State) (r : Nat) (x : Room) : (s.setRoom r x).sched = s.sched := rfl
@[simp] theorem State.setRoom_stewards (s : State) (r : Nat) (x : Room) : (s.setRoom r x).stewards = s.stewards := rfl
@[simp] theorem State.setRoom_net (s : State) (r : Nat) (x : Room) : (s.setRoom r x).net = s.net := rfl
@[simp] theorem State.setRoom_caravan (s : State) (r : Nat) (x : Room) : (s.setRoom r x).caravan = s.caravan := rfl
@[simp] theorem State.setRoom_time (s : State) (r : Nat) (x : Room) : (s.setRoom r x).time = s.time := rfl
@[simp] theorem State.setRoom_sec (s : State) (r : Nat) (x : Room) : (s.setRoom r x).sec = s.sec := rfl
@[simp] theorem State.setRoom_power (s : State) (r : Nat) (x : Room) : (s.setRoom r x).power = s.power := rfl
@[simp] theorem State.setRoom_health (s : State) (r : Nat) (x : Room) : (s.setRoom r x).health = s.health := rfl
@[simp] theorem State.setRoom_module (s : State) (r : Nat) (x : Room) : (s.setRoom r x).module = s.module := rfl
@[simp] theorem State.setRoom_out (s : State) (r : Nat) (x : Room) : (s.setRoom r x).out = s.out := rfl
@[simp] theorem State.setRoom_ring (s : State) (r : Nat) (x : Room) (j : Nat) : (s.setRoom r x).ring j = s.ring j := rfl
@[simp] theorem State.setRoom_core (s : State) (r : Nat) (x : Room) (j : Nat) : (s.setRoom r x).core j = s.core j := rfl
@[simp] theorem State.setRoom_stack (s : State) (r : Nat) (x : Room) (j : Nat) : (s.setRoom r x).stack j = s.stack j := rfl
@[simp] theorem State.setRoom_pair (s : State) (r : Nat) (x : Room) (j : Nat) : (s.setRoom r x).pair j = s.pair j := rfl
@[simp] theorem State.setRoom_fuse (s : State) (r : Nat) (x : Room) (j : Nat) : (s.setRoom r x).fuse j = s.fuse j := rfl
@[simp] theorem State.setRoom_now (s : State) (r : Nat) (x : Room) : (s.setRoom r x).now = s.now := rfl

@[simp] theorem State.modRoom_pending (s : State) (r : Nat) (f : Room → Room) : (s.modRoom r f).pending = s.pending := rfl
@[simp] theorem State.modRoom_fresh (s : State) (r : Nat) (f : Room → Room) : (s.modRoom r f).fresh = s.fresh := rfl
@[simp] theorem State.modRoom_host (s : State) (r : Nat) (f : Room → Room) : (s.modRoom r f).host = s.host := rfl
@[simp] theorem State.modRoom_hostRefusals (s : State) (r : Nat) (f : Room → Room) : (s.modRoom r f).hostRefusals = s.hostRefusals := rfl
@[simp] theorem State.modRoom_vfEnable (s : State) (r : Nat) (f : Room → Room) : (s.modRoom r f).vfEnable = s.vfEnable := rfl
@[simp] theorem State.modRoom_numVfs (s : State) (r : Nat) (f : Room → Room) : (s.modRoom r f).numVfs = s.numVfs := rfl
@[simp] theorem State.modRoom_rooms (s : State) (r : Nat) (f : Room → Room) : (s.modRoom r f).rooms = tset s.rooms r (f (s.room r)) := rfl
@[simp] theorem State.modRoom_rings (s : State) (r : Nat) (f : Room → Room) : (s.modRoom r f).rings = s.rings := rfl
@[simp] theorem State.modRoom_msix (s : State) (r : Nat) (f : Room → Room) : (s.modRoom r f).msix = s.msix := rfl
@[simp] theorem State.modRoom_restart (s : State) (r : Nat) (f : Room → Room) : (s.modRoom r f).restart = s.restart := rfl
@[simp] theorem State.modRoom_restartRejected (s : State) (r : Nat) (f : Room → Room) : (s.modRoom r f).restartRejected = s.restartRejected := rfl
@[simp] theorem State.modRoom_restartReason (s : State) (r : Nat) (f : Room → Room) : (s.modRoom r f).restartReason = s.restartReason := rfl
@[simp] theorem State.modRoom_ringSel (s : State) (r : Nat) (f : Room → Room) : (s.modRoom r f).ringSel = s.ringSel := rfl
@[simp] theorem State.modRoom_ringInfo0 (s : State) (r : Nat) (f : Room → Room) : (s.modRoom r f).ringInfo0 = s.ringInfo0 := rfl
@[simp] theorem State.modRoom_ringInfo1 (s : State) (r : Nat) (f : Room → Room) : (s.modRoom r f).ringInfo1 = s.ringInfo1 := rfl
@[simp] theorem State.modRoom_badAccess (s : State) (r : Nat) (f : Room → Room) : (s.modRoom r f).badAccess = s.badAccess := rfl
@[simp] theorem State.modRoom_snaps (s : State) (r : Nat) (f : Room → Room) : (s.modRoom r f).snaps = s.snaps := rfl
@[simp] theorem State.modRoom_held (s : State) (r : Nat) (f : Room → Room) : (s.modRoom r f).held = s.held := rfl
@[simp] theorem State.modRoom_cores (s : State) (r : Nat) (f : Room → Room) : (s.modRoom r f).cores = s.cores := rfl
@[simp] theorem State.modRoom_common (s : State) (r : Nat) (f : Room → Room) : (s.modRoom r f).common = s.common := rfl
@[simp] theorem State.modRoom_stackTbl (s : State) (r : Nat) (f : Room → Room) : (s.modRoom r f).stackTbl = s.stackTbl := rfl
@[simp] theorem State.modRoom_migrations (s : State) (r : Nat) (f : Room → Room) : (s.modRoom r f).migrations = s.migrations := rfl
@[simp] theorem State.modRoom_swaps (s : State) (r : Nat) (f : Room → Room) : (s.modRoom r f).swaps = s.swaps := rfl
@[simp] theorem State.modRoom_ingest (s : State) (r : Nat) (f : Room → Room) : (s.modRoom r f).ingest = s.ingest := rfl
@[simp] theorem State.modRoom_sched (s : State) (r : Nat) (f : Room → Room) : (s.modRoom r f).sched = s.sched := rfl
@[simp] theorem State.modRoom_stewards (s : State) (r : Nat) (f : Room → Room) : (s.modRoom r f).stewards = s.stewards := rfl
@[simp] theorem State.modRoom_net (s : State) (r : Nat) (f : Room → Room) : (s.modRoom r f).net = s.net := rfl
@[simp] theorem State.modRoom_caravan (s : State) (r : Nat) (f : Room → Room) : (s.modRoom r f).caravan = s.caravan := rfl
@[simp] theorem State.modRoom_time (s : State) (r : Nat) (f : Room → Room) : (s.modRoom r f).time = s.time := rfl
@[simp] theorem State.modRoom_sec (s : State) (r : Nat) (f : Room → Room) : (s.modRoom r f).sec = s.sec := rfl
@[simp] theorem State.modRoom_power (s : State) (r : Nat) (f : Room → Room) : (s.modRoom r f).power = s.power := rfl
@[simp] theorem State.modRoom_health (s : State) (r : Nat) (f : Room → Room) : (s.modRoom r f).health = s.health := rfl
@[simp] theorem State.modRoom_module (s : State) (r : Nat) (f : Room → Room) : (s.modRoom r f).module = s.module := rfl
@[simp] theorem State.modRoom_out (s : State) (r : Nat) (f : Room → Room) : (s.modRoom r f).out = s.out := rfl
@[simp] theorem State.modRoom_ring (s : State) (r : Nat) (f : Room → Room) (j : Nat) : (s.modRoom r f).ring j = s.ring j := rfl
@[simp] theorem State.modRoom_core (s : State) (r : Nat) (f : Room → Room) (j : Nat) : (s.modRoom r f).core j = s.core j := rfl
@[simp] theorem State.modRoom_stack (s : State) (r : Nat) (f : Room → Room) (j : Nat) : (s.modRoom r f).stack j = s.stack j := rfl
@[simp] theorem State.modRoom_pair (s : State) (r : Nat) (f : Room → Room) (j : Nat) : (s.modRoom r f).pair j = s.pair j := rfl
@[simp] theorem State.modRoom_fuse (s : State) (r : Nat) (f : Room → Room) (j : Nat) : (s.modRoom r f).fuse j = s.fuse j := rfl
@[simp] theorem State.modRoom_now (s : State) (r : Nat) (f : Room → Room) : (s.modRoom r f).now = s.now := rfl

@[simp] theorem State.setRing_pending (s : State) (q : Nat) (x : Ring) : (s.setRing q x).pending = s.pending := rfl
@[simp] theorem State.setRing_fresh (s : State) (q : Nat) (x : Ring) : (s.setRing q x).fresh = s.fresh := rfl
@[simp] theorem State.setRing_host (s : State) (q : Nat) (x : Ring) : (s.setRing q x).host = s.host := rfl
@[simp] theorem State.setRing_hostRefusals (s : State) (q : Nat) (x : Ring) : (s.setRing q x).hostRefusals = s.hostRefusals := rfl
@[simp] theorem State.setRing_vfEnable (s : State) (q : Nat) (x : Ring) : (s.setRing q x).vfEnable = s.vfEnable := rfl
@[simp] theorem State.setRing_numVfs (s : State) (q : Nat) (x : Ring) : (s.setRing q x).numVfs = s.numVfs := rfl
@[simp] theorem State.setRing_rooms (s : State) (q : Nat) (x : Ring) : (s.setRing q x).rooms = s.rooms := rfl
@[simp] theorem State.setRing_rings (s : State) (q : Nat) (x : Ring) : (s.setRing q x).rings = tset s.rings q x := rfl
@[simp] theorem State.setRing_msix (s : State) (q : Nat) (x : Ring) : (s.setRing q x).msix = s.msix := rfl
@[simp] theorem State.setRing_restart (s : State) (q : Nat) (x : Ring) : (s.setRing q x).restart = s.restart := rfl
@[simp] theorem State.setRing_restartRejected (s : State) (q : Nat) (x : Ring) : (s.setRing q x).restartRejected = s.restartRejected := rfl
@[simp] theorem State.setRing_restartReason (s : State) (q : Nat) (x : Ring) : (s.setRing q x).restartReason = s.restartReason := rfl
@[simp] theorem State.setRing_ringSel (s : State) (q : Nat) (x : Ring) : (s.setRing q x).ringSel = s.ringSel := rfl
@[simp] theorem State.setRing_ringInfo0 (s : State) (q : Nat) (x : Ring) : (s.setRing q x).ringInfo0 = s.ringInfo0 := rfl
@[simp] theorem State.setRing_ringInfo1 (s : State) (q : Nat) (x : Ring) : (s.setRing q x).ringInfo1 = s.ringInfo1 := rfl
@[simp] theorem State.setRing_badAccess (s : State) (q : Nat) (x : Ring) : (s.setRing q x).badAccess = s.badAccess := rfl
@[simp] theorem State.setRing_snaps (s : State) (q : Nat) (x : Ring) : (s.setRing q x).snaps = s.snaps := rfl
@[simp] theorem State.setRing_held (s : State) (q : Nat) (x : Ring) : (s.setRing q x).held = s.held := rfl
@[simp] theorem State.setRing_cores (s : State) (q : Nat) (x : Ring) : (s.setRing q x).cores = s.cores := rfl
@[simp] theorem State.setRing_common (s : State) (q : Nat) (x : Ring) : (s.setRing q x).common = s.common := rfl
@[simp] theorem State.setRing_stackTbl (s : State) (q : Nat) (x : Ring) : (s.setRing q x).stackTbl = s.stackTbl := rfl
@[simp] theorem State.setRing_migrations (s : State) (q : Nat) (x : Ring) : (s.setRing q x).migrations = s.migrations := rfl
@[simp] theorem State.setRing_swaps (s : State) (q : Nat) (x : Ring) : (s.setRing q x).swaps = s.swaps := rfl
@[simp] theorem State.setRing_ingest (s : State) (q : Nat) (x : Ring) : (s.setRing q x).ingest = s.ingest := rfl
@[simp] theorem State.setRing_sched (s : State) (q : Nat) (x : Ring) : (s.setRing q x).sched = s.sched := rfl
@[simp] theorem State.setRing_stewards (s : State) (q : Nat) (x : Ring) : (s.setRing q x).stewards = s.stewards := rfl
@[simp] theorem State.setRing_net (s : State) (q : Nat) (x : Ring) : (s.setRing q x).net = s.net := rfl
@[simp] theorem State.setRing_caravan (s : State) (q : Nat) (x : Ring) : (s.setRing q x).caravan = s.caravan := rfl
@[simp] theorem State.setRing_time (s : State) (q : Nat) (x : Ring) : (s.setRing q x).time = s.time := rfl
@[simp] theorem State.setRing_sec (s : State) (q : Nat) (x : Ring) : (s.setRing q x).sec = s.sec := rfl
@[simp] theorem State.setRing_power (s : State) (q : Nat) (x : Ring) : (s.setRing q x).power = s.power := rfl
@[simp] theorem State.setRing_health (s : State) (q : Nat) (x : Ring) : (s.setRing q x).health = s.health := rfl
@[simp] theorem State.setRing_module (s : State) (q : Nat) (x : Ring) : (s.setRing q x).module = s.module := rfl
@[simp] theorem State.setRing_out (s : State) (q : Nat) (x : Ring) : (s.setRing q x).out = s.out := rfl
@[simp] theorem State.setRing_room (s : State) (q : Nat) (x : Ring) (j : Nat) : (s.setRing q x).room j = s.room j := rfl
@[simp] theorem State.setRing_core (s : State) (q : Nat) (x : Ring) (j : Nat) : (s.setRing q x).core j = s.core j := rfl
@[simp] theorem State.setRing_stack (s : State) (q : Nat) (x : Ring) (j : Nat) : (s.setRing q x).stack j = s.stack j := rfl
@[simp] theorem State.setRing_pair (s : State) (q : Nat) (x : Ring) (j : Nat) : (s.setRing q x).pair j = s.pair j := rfl
@[simp] theorem State.setRing_fuse (s : State) (q : Nat) (x : Ring) (j : Nat) : (s.setRing q x).fuse j = s.fuse j := rfl
@[simp] theorem State.setRing_now (s : State) (q : Nat) (x : Ring) : (s.setRing q x).now = s.now := rfl

@[simp] theorem State.modRing_pending (s : State) (q : Nat) (f : Ring → Ring) : (s.modRing q f).pending = s.pending := rfl
@[simp] theorem State.modRing_fresh (s : State) (q : Nat) (f : Ring → Ring) : (s.modRing q f).fresh = s.fresh := rfl
@[simp] theorem State.modRing_host (s : State) (q : Nat) (f : Ring → Ring) : (s.modRing q f).host = s.host := rfl
@[simp] theorem State.modRing_hostRefusals (s : State) (q : Nat) (f : Ring → Ring) : (s.modRing q f).hostRefusals = s.hostRefusals := rfl
@[simp] theorem State.modRing_vfEnable (s : State) (q : Nat) (f : Ring → Ring) : (s.modRing q f).vfEnable = s.vfEnable := rfl
@[simp] theorem State.modRing_numVfs (s : State) (q : Nat) (f : Ring → Ring) : (s.modRing q f).numVfs = s.numVfs := rfl
@[simp] theorem State.modRing_rooms (s : State) (q : Nat) (f : Ring → Ring) : (s.modRing q f).rooms = s.rooms := rfl
@[simp] theorem State.modRing_rings (s : State) (q : Nat) (f : Ring → Ring) : (s.modRing q f).rings = tset s.rings q (f (s.ring q)) := rfl
@[simp] theorem State.modRing_msix (s : State) (q : Nat) (f : Ring → Ring) : (s.modRing q f).msix = s.msix := rfl
@[simp] theorem State.modRing_restart (s : State) (q : Nat) (f : Ring → Ring) : (s.modRing q f).restart = s.restart := rfl
@[simp] theorem State.modRing_restartRejected (s : State) (q : Nat) (f : Ring → Ring) : (s.modRing q f).restartRejected = s.restartRejected := rfl
@[simp] theorem State.modRing_restartReason (s : State) (q : Nat) (f : Ring → Ring) : (s.modRing q f).restartReason = s.restartReason := rfl
@[simp] theorem State.modRing_ringSel (s : State) (q : Nat) (f : Ring → Ring) : (s.modRing q f).ringSel = s.ringSel := rfl
@[simp] theorem State.modRing_ringInfo0 (s : State) (q : Nat) (f : Ring → Ring) : (s.modRing q f).ringInfo0 = s.ringInfo0 := rfl
@[simp] theorem State.modRing_ringInfo1 (s : State) (q : Nat) (f : Ring → Ring) : (s.modRing q f).ringInfo1 = s.ringInfo1 := rfl
@[simp] theorem State.modRing_badAccess (s : State) (q : Nat) (f : Ring → Ring) : (s.modRing q f).badAccess = s.badAccess := rfl
@[simp] theorem State.modRing_snaps (s : State) (q : Nat) (f : Ring → Ring) : (s.modRing q f).snaps = s.snaps := rfl
@[simp] theorem State.modRing_held (s : State) (q : Nat) (f : Ring → Ring) : (s.modRing q f).held = s.held := rfl
@[simp] theorem State.modRing_cores (s : State) (q : Nat) (f : Ring → Ring) : (s.modRing q f).cores = s.cores := rfl
@[simp] theorem State.modRing_common (s : State) (q : Nat) (f : Ring → Ring) : (s.modRing q f).common = s.common := rfl
@[simp] theorem State.modRing_stackTbl (s : State) (q : Nat) (f : Ring → Ring) : (s.modRing q f).stackTbl = s.stackTbl := rfl
@[simp] theorem State.modRing_migrations (s : State) (q : Nat) (f : Ring → Ring) : (s.modRing q f).migrations = s.migrations := rfl
@[simp] theorem State.modRing_swaps (s : State) (q : Nat) (f : Ring → Ring) : (s.modRing q f).swaps = s.swaps := rfl
@[simp] theorem State.modRing_ingest (s : State) (q : Nat) (f : Ring → Ring) : (s.modRing q f).ingest = s.ingest := rfl
@[simp] theorem State.modRing_sched (s : State) (q : Nat) (f : Ring → Ring) : (s.modRing q f).sched = s.sched := rfl
@[simp] theorem State.modRing_stewards (s : State) (q : Nat) (f : Ring → Ring) : (s.modRing q f).stewards = s.stewards := rfl
@[simp] theorem State.modRing_net (s : State) (q : Nat) (f : Ring → Ring) : (s.modRing q f).net = s.net := rfl
@[simp] theorem State.modRing_caravan (s : State) (q : Nat) (f : Ring → Ring) : (s.modRing q f).caravan = s.caravan := rfl
@[simp] theorem State.modRing_time (s : State) (q : Nat) (f : Ring → Ring) : (s.modRing q f).time = s.time := rfl
@[simp] theorem State.modRing_sec (s : State) (q : Nat) (f : Ring → Ring) : (s.modRing q f).sec = s.sec := rfl
@[simp] theorem State.modRing_power (s : State) (q : Nat) (f : Ring → Ring) : (s.modRing q f).power = s.power := rfl
@[simp] theorem State.modRing_health (s : State) (q : Nat) (f : Ring → Ring) : (s.modRing q f).health = s.health := rfl
@[simp] theorem State.modRing_module (s : State) (q : Nat) (f : Ring → Ring) : (s.modRing q f).module = s.module := rfl
@[simp] theorem State.modRing_out (s : State) (q : Nat) (f : Ring → Ring) : (s.modRing q f).out = s.out := rfl
@[simp] theorem State.modRing_room (s : State) (q : Nat) (f : Ring → Ring) (j : Nat) : (s.modRing q f).room j = s.room j := rfl
@[simp] theorem State.modRing_core (s : State) (q : Nat) (f : Ring → Ring) (j : Nat) : (s.modRing q f).core j = s.core j := rfl
@[simp] theorem State.modRing_stack (s : State) (q : Nat) (f : Ring → Ring) (j : Nat) : (s.modRing q f).stack j = s.stack j := rfl
@[simp] theorem State.modRing_pair (s : State) (q : Nat) (f : Ring → Ring) (j : Nat) : (s.modRing q f).pair j = s.pair j := rfl
@[simp] theorem State.modRing_fuse (s : State) (q : Nat) (f : Ring → Ring) (j : Nat) : (s.modRing q f).fuse j = s.fuse j := rfl
@[simp] theorem State.modRing_now (s : State) (q : Nat) (f : Ring → Ring) : (s.modRing q f).now = s.now := rfl

@[simp] theorem State.setCore_pending (s : State) (c : Nat) (x : Core) : (s.setCore c x).pending = s.pending := rfl
@[simp] theorem State.setCore_fresh (s : State) (c : Nat) (x : Core) : (s.setCore c x).fresh = s.fresh := rfl
@[simp] theorem State.setCore_host (s : State) (c : Nat) (x : Core) : (s.setCore c x).host = s.host := rfl
@[simp] theorem State.setCore_hostRefusals (s : State) (c : Nat) (x : Core) : (s.setCore c x).hostRefusals = s.hostRefusals := rfl
@[simp] theorem State.setCore_vfEnable (s : State) (c : Nat) (x : Core) : (s.setCore c x).vfEnable = s.vfEnable := rfl
@[simp] theorem State.setCore_numVfs (s : State) (c : Nat) (x : Core) : (s.setCore c x).numVfs = s.numVfs := rfl
@[simp] theorem State.setCore_rooms (s : State) (c : Nat) (x : Core) : (s.setCore c x).rooms = s.rooms := rfl
@[simp] theorem State.setCore_rings (s : State) (c : Nat) (x : Core) : (s.setCore c x).rings = s.rings := rfl
@[simp] theorem State.setCore_msix (s : State) (c : Nat) (x : Core) : (s.setCore c x).msix = s.msix := rfl
@[simp] theorem State.setCore_restart (s : State) (c : Nat) (x : Core) : (s.setCore c x).restart = s.restart := rfl
@[simp] theorem State.setCore_restartRejected (s : State) (c : Nat) (x : Core) : (s.setCore c x).restartRejected = s.restartRejected := rfl
@[simp] theorem State.setCore_restartReason (s : State) (c : Nat) (x : Core) : (s.setCore c x).restartReason = s.restartReason := rfl
@[simp] theorem State.setCore_ringSel (s : State) (c : Nat) (x : Core) : (s.setCore c x).ringSel = s.ringSel := rfl
@[simp] theorem State.setCore_ringInfo0 (s : State) (c : Nat) (x : Core) : (s.setCore c x).ringInfo0 = s.ringInfo0 := rfl
@[simp] theorem State.setCore_ringInfo1 (s : State) (c : Nat) (x : Core) : (s.setCore c x).ringInfo1 = s.ringInfo1 := rfl
@[simp] theorem State.setCore_badAccess (s : State) (c : Nat) (x : Core) : (s.setCore c x).badAccess = s.badAccess := rfl
@[simp] theorem State.setCore_snaps (s : State) (c : Nat) (x : Core) : (s.setCore c x).snaps = s.snaps := rfl
@[simp] theorem State.setCore_held (s : State) (c : Nat) (x : Core) : (s.setCore c x).held = s.held := rfl
@[simp] theorem State.setCore_cores (s : State) (c : Nat) (x : Core) : (s.setCore c x).cores = tset s.cores c x := rfl
@[simp] theorem State.setCore_common (s : State) (c : Nat) (x : Core) : (s.setCore c x).common = s.common := rfl
@[simp] theorem State.setCore_stackTbl (s : State) (c : Nat) (x : Core) : (s.setCore c x).stackTbl = s.stackTbl := rfl
@[simp] theorem State.setCore_migrations (s : State) (c : Nat) (x : Core) : (s.setCore c x).migrations = s.migrations := rfl
@[simp] theorem State.setCore_swaps (s : State) (c : Nat) (x : Core) : (s.setCore c x).swaps = s.swaps := rfl
@[simp] theorem State.setCore_ingest (s : State) (c : Nat) (x : Core) : (s.setCore c x).ingest = s.ingest := rfl
@[simp] theorem State.setCore_sched (s : State) (c : Nat) (x : Core) : (s.setCore c x).sched = s.sched := rfl
@[simp] theorem State.setCore_stewards (s : State) (c : Nat) (x : Core) : (s.setCore c x).stewards = s.stewards := rfl
@[simp] theorem State.setCore_net (s : State) (c : Nat) (x : Core) : (s.setCore c x).net = s.net := rfl
@[simp] theorem State.setCore_caravan (s : State) (c : Nat) (x : Core) : (s.setCore c x).caravan = s.caravan := rfl
@[simp] theorem State.setCore_time (s : State) (c : Nat) (x : Core) : (s.setCore c x).time = s.time := rfl
@[simp] theorem State.setCore_sec (s : State) (c : Nat) (x : Core) : (s.setCore c x).sec = s.sec := rfl
@[simp] theorem State.setCore_power (s : State) (c : Nat) (x : Core) : (s.setCore c x).power = s.power := rfl
@[simp] theorem State.setCore_health (s : State) (c : Nat) (x : Core) : (s.setCore c x).health = s.health := rfl
@[simp] theorem State.setCore_module (s : State) (c : Nat) (x : Core) : (s.setCore c x).module = s.module := rfl
@[simp] theorem State.setCore_out (s : State) (c : Nat) (x : Core) : (s.setCore c x).out = s.out := rfl
@[simp] theorem State.setCore_room (s : State) (c : Nat) (x : Core) (j : Nat) : (s.setCore c x).room j = s.room j := rfl
@[simp] theorem State.setCore_ring (s : State) (c : Nat) (x : Core) (j : Nat) : (s.setCore c x).ring j = s.ring j := rfl
@[simp] theorem State.setCore_stack (s : State) (c : Nat) (x : Core) (j : Nat) : (s.setCore c x).stack j = s.stack j := rfl
@[simp] theorem State.setCore_pair (s : State) (c : Nat) (x : Core) (j : Nat) : (s.setCore c x).pair j = s.pair j := rfl
@[simp] theorem State.setCore_fuse (s : State) (c : Nat) (x : Core) (j : Nat) : (s.setCore c x).fuse j = s.fuse j := rfl
@[simp] theorem State.setCore_now (s : State) (c : Nat) (x : Core) : (s.setCore c x).now = s.now := rfl

@[simp] theorem State.modCore_pending (s : State) (c : Nat) (f : Core → Core) : (s.modCore c f).pending = s.pending := rfl
@[simp] theorem State.modCore_fresh (s : State) (c : Nat) (f : Core → Core) : (s.modCore c f).fresh = s.fresh := rfl
@[simp] theorem State.modCore_host (s : State) (c : Nat) (f : Core → Core) : (s.modCore c f).host = s.host := rfl
@[simp] theorem State.modCore_hostRefusals (s : State) (c : Nat) (f : Core → Core) : (s.modCore c f).hostRefusals = s.hostRefusals := rfl
@[simp] theorem State.modCore_vfEnable (s : State) (c : Nat) (f : Core → Core) : (s.modCore c f).vfEnable = s.vfEnable := rfl
@[simp] theorem State.modCore_numVfs (s : State) (c : Nat) (f : Core → Core) : (s.modCore c f).numVfs = s.numVfs := rfl
@[simp] theorem State.modCore_rooms (s : State) (c : Nat) (f : Core → Core) : (s.modCore c f).rooms = s.rooms := rfl
@[simp] theorem State.modCore_rings (s : State) (c : Nat) (f : Core → Core) : (s.modCore c f).rings = s.rings := rfl
@[simp] theorem State.modCore_msix (s : State) (c : Nat) (f : Core → Core) : (s.modCore c f).msix = s.msix := rfl
@[simp] theorem State.modCore_restart (s : State) (c : Nat) (f : Core → Core) : (s.modCore c f).restart = s.restart := rfl
@[simp] theorem State.modCore_restartRejected (s : State) (c : Nat) (f : Core → Core) : (s.modCore c f).restartRejected = s.restartRejected := rfl
@[simp] theorem State.modCore_restartReason (s : State) (c : Nat) (f : Core → Core) : (s.modCore c f).restartReason = s.restartReason := rfl
@[simp] theorem State.modCore_ringSel (s : State) (c : Nat) (f : Core → Core) : (s.modCore c f).ringSel = s.ringSel := rfl
@[simp] theorem State.modCore_ringInfo0 (s : State) (c : Nat) (f : Core → Core) : (s.modCore c f).ringInfo0 = s.ringInfo0 := rfl
@[simp] theorem State.modCore_ringInfo1 (s : State) (c : Nat) (f : Core → Core) : (s.modCore c f).ringInfo1 = s.ringInfo1 := rfl
@[simp] theorem State.modCore_badAccess (s : State) (c : Nat) (f : Core → Core) : (s.modCore c f).badAccess = s.badAccess := rfl
@[simp] theorem State.modCore_snaps (s : State) (c : Nat) (f : Core → Core) : (s.modCore c f).snaps = s.snaps := rfl
@[simp] theorem State.modCore_held (s : State) (c : Nat) (f : Core → Core) : (s.modCore c f).held = s.held := rfl
@[simp] theorem State.modCore_cores (s : State) (c : Nat) (f : Core → Core) : (s.modCore c f).cores = tset s.cores c (f (s.core c)) := rfl
@[simp] theorem State.modCore_common (s : State) (c : Nat) (f : Core → Core) : (s.modCore c f).common = s.common := rfl
@[simp] theorem State.modCore_stackTbl (s : State) (c : Nat) (f : Core → Core) : (s.modCore c f).stackTbl = s.stackTbl := rfl
@[simp] theorem State.modCore_migrations (s : State) (c : Nat) (f : Core → Core) : (s.modCore c f).migrations = s.migrations := rfl
@[simp] theorem State.modCore_swaps (s : State) (c : Nat) (f : Core → Core) : (s.modCore c f).swaps = s.swaps := rfl
@[simp] theorem State.modCore_ingest (s : State) (c : Nat) (f : Core → Core) : (s.modCore c f).ingest = s.ingest := rfl
@[simp] theorem State.modCore_sched (s : State) (c : Nat) (f : Core → Core) : (s.modCore c f).sched = s.sched := rfl
@[simp] theorem State.modCore_stewards (s : State) (c : Nat) (f : Core → Core) : (s.modCore c f).stewards = s.stewards := rfl
@[simp] theorem State.modCore_net (s : State) (c : Nat) (f : Core → Core) : (s.modCore c f).net = s.net := rfl
@[simp] theorem State.modCore_caravan (s : State) (c : Nat) (f : Core → Core) : (s.modCore c f).caravan = s.caravan := rfl
@[simp] theorem State.modCore_time (s : State) (c : Nat) (f : Core → Core) : (s.modCore c f).time = s.time := rfl
@[simp] theorem State.modCore_sec (s : State) (c : Nat) (f : Core → Core) : (s.modCore c f).sec = s.sec := rfl
@[simp] theorem State.modCore_power (s : State) (c : Nat) (f : Core → Core) : (s.modCore c f).power = s.power := rfl
@[simp] theorem State.modCore_health (s : State) (c : Nat) (f : Core → Core) : (s.modCore c f).health = s.health := rfl
@[simp] theorem State.modCore_module (s : State) (c : Nat) (f : Core → Core) : (s.modCore c f).module = s.module := rfl
@[simp] theorem State.modCore_out (s : State) (c : Nat) (f : Core → Core) : (s.modCore c f).out = s.out := rfl
@[simp] theorem State.modCore_room (s : State) (c : Nat) (f : Core → Core) (j : Nat) : (s.modCore c f).room j = s.room j := rfl
@[simp] theorem State.modCore_ring (s : State) (c : Nat) (f : Core → Core) (j : Nat) : (s.modCore c f).ring j = s.ring j := rfl
@[simp] theorem State.modCore_stack (s : State) (c : Nat) (f : Core → Core) (j : Nat) : (s.modCore c f).stack j = s.stack j := rfl
@[simp] theorem State.modCore_pair (s : State) (c : Nat) (f : Core → Core) (j : Nat) : (s.modCore c f).pair j = s.pair j := rfl
@[simp] theorem State.modCore_fuse (s : State) (c : Nat) (f : Core → Core) (j : Nat) : (s.modCore c f).fuse j = s.fuse j := rfl
@[simp] theorem State.modCore_now (s : State) (c : Nat) (f : Core → Core) : (s.modCore c f).now = s.now := rfl

@[simp] theorem State.modStack_pending (s : State) (k : Nat) (f : Stack → Stack) : (s.modStack k f).pending = s.pending := rfl
@[simp] theorem State.modStack_fresh (s : State) (k : Nat) (f : Stack → Stack) : (s.modStack k f).fresh = s.fresh := rfl
@[simp] theorem State.modStack_host (s : State) (k : Nat) (f : Stack → Stack) : (s.modStack k f).host = s.host := rfl
@[simp] theorem State.modStack_hostRefusals (s : State) (k : Nat) (f : Stack → Stack) : (s.modStack k f).hostRefusals = s.hostRefusals := rfl
@[simp] theorem State.modStack_vfEnable (s : State) (k : Nat) (f : Stack → Stack) : (s.modStack k f).vfEnable = s.vfEnable := rfl
@[simp] theorem State.modStack_numVfs (s : State) (k : Nat) (f : Stack → Stack) : (s.modStack k f).numVfs = s.numVfs := rfl
@[simp] theorem State.modStack_rooms (s : State) (k : Nat) (f : Stack → Stack) : (s.modStack k f).rooms = s.rooms := rfl
@[simp] theorem State.modStack_rings (s : State) (k : Nat) (f : Stack → Stack) : (s.modStack k f).rings = s.rings := rfl
@[simp] theorem State.modStack_msix (s : State) (k : Nat) (f : Stack → Stack) : (s.modStack k f).msix = s.msix := rfl
@[simp] theorem State.modStack_restart (s : State) (k : Nat) (f : Stack → Stack) : (s.modStack k f).restart = s.restart := rfl
@[simp] theorem State.modStack_restartRejected (s : State) (k : Nat) (f : Stack → Stack) : (s.modStack k f).restartRejected = s.restartRejected := rfl
@[simp] theorem State.modStack_restartReason (s : State) (k : Nat) (f : Stack → Stack) : (s.modStack k f).restartReason = s.restartReason := rfl
@[simp] theorem State.modStack_ringSel (s : State) (k : Nat) (f : Stack → Stack) : (s.modStack k f).ringSel = s.ringSel := rfl
@[simp] theorem State.modStack_ringInfo0 (s : State) (k : Nat) (f : Stack → Stack) : (s.modStack k f).ringInfo0 = s.ringInfo0 := rfl
@[simp] theorem State.modStack_ringInfo1 (s : State) (k : Nat) (f : Stack → Stack) : (s.modStack k f).ringInfo1 = s.ringInfo1 := rfl
@[simp] theorem State.modStack_badAccess (s : State) (k : Nat) (f : Stack → Stack) : (s.modStack k f).badAccess = s.badAccess := rfl
@[simp] theorem State.modStack_snaps (s : State) (k : Nat) (f : Stack → Stack) : (s.modStack k f).snaps = s.snaps := rfl
@[simp] theorem State.modStack_held (s : State) (k : Nat) (f : Stack → Stack) : (s.modStack k f).held = s.held := rfl
@[simp] theorem State.modStack_cores (s : State) (k : Nat) (f : Stack → Stack) : (s.modStack k f).cores = s.cores := rfl
@[simp] theorem State.modStack_common (s : State) (k : Nat) (f : Stack → Stack) : (s.modStack k f).common = s.common := rfl
@[simp] theorem State.modStack_stackTbl (s : State) (k : Nat) (f : Stack → Stack) : (s.modStack k f).stackTbl = tset s.stackTbl k (f (s.stack k)) := rfl
@[simp] theorem State.modStack_migrations (s : State) (k : Nat) (f : Stack → Stack) : (s.modStack k f).migrations = s.migrations := rfl
@[simp] theorem State.modStack_swaps (s : State) (k : Nat) (f : Stack → Stack) : (s.modStack k f).swaps = s.swaps := rfl
@[simp] theorem State.modStack_ingest (s : State) (k : Nat) (f : Stack → Stack) : (s.modStack k f).ingest = s.ingest := rfl
@[simp] theorem State.modStack_sched (s : State) (k : Nat) (f : Stack → Stack) : (s.modStack k f).sched = s.sched := rfl
@[simp] theorem State.modStack_stewards (s : State) (k : Nat) (f : Stack → Stack) : (s.modStack k f).stewards = s.stewards := rfl
@[simp] theorem State.modStack_net (s : State) (k : Nat) (f : Stack → Stack) : (s.modStack k f).net = s.net := rfl
@[simp] theorem State.modStack_caravan (s : State) (k : Nat) (f : Stack → Stack) : (s.modStack k f).caravan = s.caravan := rfl
@[simp] theorem State.modStack_time (s : State) (k : Nat) (f : Stack → Stack) : (s.modStack k f).time = s.time := rfl
@[simp] theorem State.modStack_sec (s : State) (k : Nat) (f : Stack → Stack) : (s.modStack k f).sec = s.sec := rfl
@[simp] theorem State.modStack_power (s : State) (k : Nat) (f : Stack → Stack) : (s.modStack k f).power = s.power := rfl
@[simp] theorem State.modStack_health (s : State) (k : Nat) (f : Stack → Stack) : (s.modStack k f).health = s.health := rfl
@[simp] theorem State.modStack_module (s : State) (k : Nat) (f : Stack → Stack) : (s.modStack k f).module = s.module := rfl
@[simp] theorem State.modStack_out (s : State) (k : Nat) (f : Stack → Stack) : (s.modStack k f).out = s.out := rfl
@[simp] theorem State.modStack_room (s : State) (k : Nat) (f : Stack → Stack) (j : Nat) : (s.modStack k f).room j = s.room j := rfl
@[simp] theorem State.modStack_ring (s : State) (k : Nat) (f : Stack → Stack) (j : Nat) : (s.modStack k f).ring j = s.ring j := rfl
@[simp] theorem State.modStack_core (s : State) (k : Nat) (f : Stack → Stack) (j : Nat) : (s.modStack k f).core j = s.core j := rfl
@[simp] theorem State.modStack_pair (s : State) (k : Nat) (f : Stack → Stack) (j : Nat) : (s.modStack k f).pair j = s.pair j := rfl
@[simp] theorem State.modStack_fuse (s : State) (k : Nat) (f : Stack → Stack) (j : Nat) : (s.modStack k f).fuse j = s.fuse j := rfl
@[simp] theorem State.modStack_now (s : State) (k : Nat) (f : Stack → Stack) : (s.modStack k f).now = s.now := rfl

@[simp] theorem State.modPair_pending (s : State) (p : Nat) (f : Pair → Pair) : (s.modPair p f).pending = s.pending := rfl
@[simp] theorem State.modPair_fresh (s : State) (p : Nat) (f : Pair → Pair) : (s.modPair p f).fresh = s.fresh := rfl
@[simp] theorem State.modPair_host (s : State) (p : Nat) (f : Pair → Pair) : (s.modPair p f).host = s.host := rfl
@[simp] theorem State.modPair_hostRefusals (s : State) (p : Nat) (f : Pair → Pair) : (s.modPair p f).hostRefusals = s.hostRefusals := rfl
@[simp] theorem State.modPair_vfEnable (s : State) (p : Nat) (f : Pair → Pair) : (s.modPair p f).vfEnable = s.vfEnable := rfl
@[simp] theorem State.modPair_numVfs (s : State) (p : Nat) (f : Pair → Pair) : (s.modPair p f).numVfs = s.numVfs := rfl
@[simp] theorem State.modPair_rooms (s : State) (p : Nat) (f : Pair → Pair) : (s.modPair p f).rooms = s.rooms := rfl
@[simp] theorem State.modPair_rings (s : State) (p : Nat) (f : Pair → Pair) : (s.modPair p f).rings = s.rings := rfl
@[simp] theorem State.modPair_msix (s : State) (p : Nat) (f : Pair → Pair) : (s.modPair p f).msix = s.msix := rfl
@[simp] theorem State.modPair_restart (s : State) (p : Nat) (f : Pair → Pair) : (s.modPair p f).restart = s.restart := rfl
@[simp] theorem State.modPair_restartRejected (s : State) (p : Nat) (f : Pair → Pair) : (s.modPair p f).restartRejected = s.restartRejected := rfl
@[simp] theorem State.modPair_restartReason (s : State) (p : Nat) (f : Pair → Pair) : (s.modPair p f).restartReason = s.restartReason := rfl
@[simp] theorem State.modPair_ringSel (s : State) (p : Nat) (f : Pair → Pair) : (s.modPair p f).ringSel = s.ringSel := rfl
@[simp] theorem State.modPair_ringInfo0 (s : State) (p : Nat) (f : Pair → Pair) : (s.modPair p f).ringInfo0 = s.ringInfo0 := rfl
@[simp] theorem State.modPair_ringInfo1 (s : State) (p : Nat) (f : Pair → Pair) : (s.modPair p f).ringInfo1 = s.ringInfo1 := rfl
@[simp] theorem State.modPair_badAccess (s : State) (p : Nat) (f : Pair → Pair) : (s.modPair p f).badAccess = s.badAccess := rfl
@[simp] theorem State.modPair_snaps (s : State) (p : Nat) (f : Pair → Pair) : (s.modPair p f).snaps = s.snaps := rfl
@[simp] theorem State.modPair_held (s : State) (p : Nat) (f : Pair → Pair) : (s.modPair p f).held = s.held := rfl
@[simp] theorem State.modPair_cores (s : State) (p : Nat) (f : Pair → Pair) : (s.modPair p f).cores = s.cores := rfl
@[simp] theorem State.modPair_common (s : State) (p : Nat) (f : Pair → Pair) : (s.modPair p f).common = s.common := rfl
@[simp] theorem State.modPair_stackTbl (s : State) (p : Nat) (f : Pair → Pair) : (s.modPair p f).stackTbl = s.stackTbl := rfl
@[simp] theorem State.modPair_migrations (s : State) (p : Nat) (f : Pair → Pair) : (s.modPair p f).migrations = s.migrations := rfl
@[simp] theorem State.modPair_swaps (s : State) (p : Nat) (f : Pair → Pair) : (s.modPair p f).swaps = s.swaps := rfl
@[simp] theorem State.modPair_ingest (s : State) (p : Nat) (f : Pair → Pair) : (s.modPair p f).ingest = s.ingest := rfl
@[simp] theorem State.modPair_sched (s : State) (p : Nat) (f : Pair → Pair) : (s.modPair p f).sched = s.sched := rfl
@[simp] theorem State.modPair_net (s : State) (p : Nat) (f : Pair → Pair) : (s.modPair p f).net = s.net := rfl
@[simp] theorem State.modPair_caravan (s : State) (p : Nat) (f : Pair → Pair) : (s.modPair p f).caravan = s.caravan := rfl
@[simp] theorem State.modPair_time (s : State) (p : Nat) (f : Pair → Pair) : (s.modPair p f).time = s.time := rfl
@[simp] theorem State.modPair_sec (s : State) (p : Nat) (f : Pair → Pair) : (s.modPair p f).sec = s.sec := rfl
@[simp] theorem State.modPair_power (s : State) (p : Nat) (f : Pair → Pair) : (s.modPair p f).power = s.power := rfl
@[simp] theorem State.modPair_health (s : State) (p : Nat) (f : Pair → Pair) : (s.modPair p f).health = s.health := rfl
@[simp] theorem State.modPair_module (s : State) (p : Nat) (f : Pair → Pair) : (s.modPair p f).module = s.module := rfl
@[simp] theorem State.modPair_out (s : State) (p : Nat) (f : Pair → Pair) : (s.modPair p f).out = s.out := rfl
@[simp] theorem State.modPair_room (s : State) (p : Nat) (f : Pair → Pair) (j : Nat) : (s.modPair p f).room j = s.room j := rfl
@[simp] theorem State.modPair_ring (s : State) (p : Nat) (f : Pair → Pair) (j : Nat) : (s.modPair p f).ring j = s.ring j := rfl
@[simp] theorem State.modPair_core (s : State) (p : Nat) (f : Pair → Pair) (j : Nat) : (s.modPair p f).core j = s.core j := rfl
@[simp] theorem State.modPair_stack (s : State) (p : Nat) (f : Pair → Pair) (j : Nat) : (s.modPair p f).stack j = s.stack j := rfl
@[simp] theorem State.modPair_fuse (s : State) (p : Nat) (f : Pair → Pair) (j : Nat) : (s.modPair p f).fuse j = s.fuse j := rfl
@[simp] theorem State.modPair_now (s : State) (p : Nat) (f : Pair → Pair) : (s.modPair p f).now = s.now := rfl

@[simp] theorem State.emit_pending (s : State) (m : OutMsg) : (s.emit m).pending = s.pending := rfl
@[simp] theorem State.emit_fresh (s : State) (m : OutMsg) : (s.emit m).fresh = s.fresh := rfl
@[simp] theorem State.emit_host (s : State) (m : OutMsg) : (s.emit m).host = s.host := rfl
@[simp] theorem State.emit_hostRefusals (s : State) (m : OutMsg) : (s.emit m).hostRefusals = s.hostRefusals := rfl
@[simp] theorem State.emit_vfEnable (s : State) (m : OutMsg) : (s.emit m).vfEnable = s.vfEnable := rfl
@[simp] theorem State.emit_numVfs (s : State) (m : OutMsg) : (s.emit m).numVfs = s.numVfs := rfl
@[simp] theorem State.emit_rooms (s : State) (m : OutMsg) : (s.emit m).rooms = s.rooms := rfl
@[simp] theorem State.emit_rings (s : State) (m : OutMsg) : (s.emit m).rings = s.rings := rfl
@[simp] theorem State.emit_msix (s : State) (m : OutMsg) : (s.emit m).msix = s.msix := rfl
@[simp] theorem State.emit_restart (s : State) (m : OutMsg) : (s.emit m).restart = s.restart := rfl
@[simp] theorem State.emit_restartRejected (s : State) (m : OutMsg) : (s.emit m).restartRejected = s.restartRejected := rfl
@[simp] theorem State.emit_restartReason (s : State) (m : OutMsg) : (s.emit m).restartReason = s.restartReason := rfl
@[simp] theorem State.emit_ringSel (s : State) (m : OutMsg) : (s.emit m).ringSel = s.ringSel := rfl
@[simp] theorem State.emit_ringInfo0 (s : State) (m : OutMsg) : (s.emit m).ringInfo0 = s.ringInfo0 := rfl
@[simp] theorem State.emit_ringInfo1 (s : State) (m : OutMsg) : (s.emit m).ringInfo1 = s.ringInfo1 := rfl
@[simp] theorem State.emit_badAccess (s : State) (m : OutMsg) : (s.emit m).badAccess = s.badAccess := rfl
@[simp] theorem State.emit_snaps (s : State) (m : OutMsg) : (s.emit m).snaps = s.snaps := rfl
@[simp] theorem State.emit_held (s : State) (m : OutMsg) : (s.emit m).held = s.held := rfl
@[simp] theorem State.emit_cores (s : State) (m : OutMsg) : (s.emit m).cores = s.cores := rfl
@[simp] theorem State.emit_common (s : State) (m : OutMsg) : (s.emit m).common = s.common := rfl
@[simp] theorem State.emit_stackTbl (s : State) (m : OutMsg) : (s.emit m).stackTbl = s.stackTbl := rfl
@[simp] theorem State.emit_migrations (s : State) (m : OutMsg) : (s.emit m).migrations = s.migrations := rfl
@[simp] theorem State.emit_swaps (s : State) (m : OutMsg) : (s.emit m).swaps = s.swaps := rfl
@[simp] theorem State.emit_ingest (s : State) (m : OutMsg) : (s.emit m).ingest = s.ingest := rfl
@[simp] theorem State.emit_sched (s : State) (m : OutMsg) : (s.emit m).sched = s.sched := rfl
@[simp] theorem State.emit_stewards (s : State) (m : OutMsg) : (s.emit m).stewards = s.stewards := rfl
@[simp] theorem State.emit_net (s : State) (m : OutMsg) : (s.emit m).net = s.net := rfl
@[simp] theorem State.emit_caravan (s : State) (m : OutMsg) : (s.emit m).caravan = s.caravan := rfl
@[simp] theorem State.emit_time (s : State) (m : OutMsg) : (s.emit m).time = s.time := rfl
@[simp] theorem State.emit_sec (s : State) (m : OutMsg) : (s.emit m).sec = s.sec := rfl
@[simp] theorem State.emit_power (s : State) (m : OutMsg) : (s.emit m).power = s.power := rfl
@[simp] theorem State.emit_health (s : State) (m : OutMsg) : (s.emit m).health = s.health := rfl
@[simp] theorem State.emit_module (s : State) (m : OutMsg) : (s.emit m).module = s.module := rfl
@[simp] theorem State.emit_out (s : State) (m : OutMsg) : (s.emit m).out = s.out ++ [m] := rfl
@[simp] theorem State.emit_room (s : State) (m : OutMsg) (j : Nat) : (s.emit m).room j = s.room j := rfl
@[simp] theorem State.emit_ring (s : State) (m : OutMsg) (j : Nat) : (s.emit m).ring j = s.ring j := rfl
@[simp] theorem State.emit_core (s : State) (m : OutMsg) (j : Nat) : (s.emit m).core j = s.core j := rfl
@[simp] theorem State.emit_stack (s : State) (m : OutMsg) (j : Nat) : (s.emit m).stack j = s.stack j := rfl
@[simp] theorem State.emit_pair (s : State) (m : OutMsg) (j : Nat) : (s.emit m).pair j = s.pair j := rfl
@[simp] theorem State.emit_fuse (s : State) (m : OutMsg) (j : Nat) : (s.emit m).fuse j = s.fuse j := rfl
@[simp] theorem State.emit_now (s : State) (m : OutMsg) : (s.emit m).now = s.now := rfl

@[simp] theorem State.upto_pending (s : State) (n : Nat) : (s.upto n).pending = s.pending := rfl
@[simp] theorem State.upto_fresh (s : State) (n : Nat) : (s.upto n).fresh = s.fresh := rfl
@[simp] theorem State.upto_host (s : State) (n : Nat) : (s.upto n).host = s.host := rfl
@[simp] theorem State.upto_hostRefusals (s : State) (n : Nat) : (s.upto n).hostRefusals = s.hostRefusals := rfl
@[simp] theorem State.upto_vfEnable (s : State) (n : Nat) : (s.upto n).vfEnable = s.vfEnable := rfl
@[simp] theorem State.upto_numVfs (s : State) (n : Nat) : (s.upto n).numVfs = s.numVfs := rfl
@[simp] theorem State.upto_rooms (s : State) (n : Nat) : (s.upto n).rooms = s.rooms := rfl
@[simp] theorem State.upto_rings (s : State) (n : Nat) : (s.upto n).rings = s.rings := rfl
@[simp] theorem State.upto_msix (s : State) (n : Nat) : (s.upto n).msix = s.msix := rfl
@[simp] theorem State.upto_restart (s : State) (n : Nat) : (s.upto n).restart = s.restart := rfl
@[simp] theorem State.upto_restartRejected (s : State) (n : Nat) : (s.upto n).restartRejected = s.restartRejected := rfl
@[simp] theorem State.upto_restartReason (s : State) (n : Nat) : (s.upto n).restartReason = s.restartReason := rfl
@[simp] theorem State.upto_ringSel (s : State) (n : Nat) : (s.upto n).ringSel = s.ringSel := rfl
@[simp] theorem State.upto_ringInfo0 (s : State) (n : Nat) : (s.upto n).ringInfo0 = s.ringInfo0 := rfl
@[simp] theorem State.upto_ringInfo1 (s : State) (n : Nat) : (s.upto n).ringInfo1 = s.ringInfo1 := rfl
@[simp] theorem State.upto_badAccess (s : State) (n : Nat) : (s.upto n).badAccess = s.badAccess := rfl
@[simp] theorem State.upto_snaps (s : State) (n : Nat) : (s.upto n).snaps = s.snaps := rfl
@[simp] theorem State.upto_held (s : State) (n : Nat) : (s.upto n).held = s.held := rfl
@[simp] theorem State.upto_cores (s : State) (n : Nat) : (s.upto n).cores = s.cores := rfl
@[simp] theorem State.upto_common (s : State) (n : Nat) : (s.upto n).common = s.common := rfl
@[simp] theorem State.upto_stackTbl (s : State) (n : Nat) : (s.upto n).stackTbl = s.stackTbl := rfl
@[simp] theorem State.upto_migrations (s : State) (n : Nat) : (s.upto n).migrations = s.migrations := rfl
@[simp] theorem State.upto_swaps (s : State) (n : Nat) : (s.upto n).swaps = s.swaps := rfl
@[simp] theorem State.upto_ingest (s : State) (n : Nat) : (s.upto n).ingest = s.ingest := rfl
@[simp] theorem State.upto_sched (s : State) (n : Nat) : (s.upto n).sched = s.sched := rfl
@[simp] theorem State.upto_stewards (s : State) (n : Nat) : (s.upto n).stewards = s.stewards := rfl
@[simp] theorem State.upto_net (s : State) (n : Nat) : (s.upto n).net = s.net := rfl
@[simp] theorem State.upto_caravan (s : State) (n : Nat) : (s.upto n).caravan = s.caravan := rfl
@[simp] theorem State.upto_sec (s : State) (n : Nat) : (s.upto n).sec = s.sec := rfl
@[simp] theorem State.upto_power (s : State) (n : Nat) : (s.upto n).power = s.power := rfl
@[simp] theorem State.upto_health (s : State) (n : Nat) : (s.upto n).health = s.health := rfl
@[simp] theorem State.upto_module (s : State) (n : Nat) : (s.upto n).module = s.module := rfl
@[simp] theorem State.upto_out (s : State) (n : Nat) : (s.upto n).out = s.out := rfl
@[simp] theorem State.upto_room (s : State) (n : Nat) (j : Nat) : (s.upto n).room j = s.room j := rfl
@[simp] theorem State.upto_ring (s : State) (n : Nat) (j : Nat) : (s.upto n).ring j = s.ring j := rfl
@[simp] theorem State.upto_core (s : State) (n : Nat) (j : Nat) : (s.upto n).core j = s.core j := rfl
@[simp] theorem State.upto_stack (s : State) (n : Nat) (j : Nat) : (s.upto n).stack j = s.stack j := rfl
@[simp] theorem State.upto_pair (s : State) (n : Nat) (j : Nat) : (s.upto n).pair j = s.pair j := rfl
@[simp] theorem State.upto_fuse (s : State) (n : Nat) (j : Nat) : (s.upto n).fuse j = s.fuse j := rfl

@[simp] theorem State.badAcc_pending (s : State) : (s.badAcc).pending = s.pending := rfl
@[simp] theorem State.badAcc_fresh (s : State) : (s.badAcc).fresh = s.fresh := rfl
@[simp] theorem State.badAcc_host (s : State) : (s.badAcc).host = s.host := rfl
@[simp] theorem State.badAcc_hostRefusals (s : State) : (s.badAcc).hostRefusals = s.hostRefusals := rfl
@[simp] theorem State.badAcc_vfEnable (s : State) : (s.badAcc).vfEnable = s.vfEnable := rfl
@[simp] theorem State.badAcc_numVfs (s : State) : (s.badAcc).numVfs = s.numVfs := rfl
@[simp] theorem State.badAcc_rooms (s : State) : (s.badAcc).rooms = s.rooms := rfl
@[simp] theorem State.badAcc_rings (s : State) : (s.badAcc).rings = s.rings := rfl
@[simp] theorem State.badAcc_msix (s : State) : (s.badAcc).msix = s.msix := rfl
@[simp] theorem State.badAcc_restart (s : State) : (s.badAcc).restart = s.restart := rfl
@[simp] theorem State.badAcc_restartRejected (s : State) : (s.badAcc).restartRejected = s.restartRejected := rfl
@[simp] theorem State.badAcc_restartReason (s : State) : (s.badAcc).restartReason = s.restartReason := rfl
@[simp] theorem State.badAcc_ringSel (s : State) : (s.badAcc).ringSel = s.ringSel := rfl
@[simp] theorem State.badAcc_ringInfo0 (s : State) : (s.badAcc).ringInfo0 = s.ringInfo0 := rfl
@[simp] theorem State.badAcc_ringInfo1 (s : State) : (s.badAcc).ringInfo1 = s.ringInfo1 := rfl
@[simp] theorem State.badAcc_badAccess (s : State) : (s.badAcc).badAccess = sat64 (s.badAccess + 1) := rfl
@[simp] theorem State.badAcc_snaps (s : State) : (s.badAcc).snaps = s.snaps := rfl
@[simp] theorem State.badAcc_held (s : State) : (s.badAcc).held = s.held := rfl
@[simp] theorem State.badAcc_cores (s : State) : (s.badAcc).cores = s.cores := rfl
@[simp] theorem State.badAcc_common (s : State) : (s.badAcc).common = s.common := rfl
@[simp] theorem State.badAcc_stackTbl (s : State) : (s.badAcc).stackTbl = s.stackTbl := rfl
@[simp] theorem State.badAcc_migrations (s : State) : (s.badAcc).migrations = s.migrations := rfl
@[simp] theorem State.badAcc_swaps (s : State) : (s.badAcc).swaps = s.swaps := rfl
@[simp] theorem State.badAcc_ingest (s : State) : (s.badAcc).ingest = s.ingest := rfl
@[simp] theorem State.badAcc_sched (s : State) : (s.badAcc).sched = s.sched := rfl
@[simp] theorem State.badAcc_stewards (s : State) : (s.badAcc).stewards = s.stewards := rfl
@[simp] theorem State.badAcc_net (s : State) : (s.badAcc).net = s.net := rfl
@[simp] theorem State.badAcc_caravan (s : State) : (s.badAcc).caravan = s.caravan := rfl
@[simp] theorem State.badAcc_time (s : State) : (s.badAcc).time = s.time := rfl
@[simp] theorem State.badAcc_sec (s : State) : (s.badAcc).sec = s.sec := rfl
@[simp] theorem State.badAcc_power (s : State) : (s.badAcc).power = s.power := rfl
@[simp] theorem State.badAcc_health (s : State) : (s.badAcc).health = s.health := rfl
@[simp] theorem State.badAcc_module (s : State) : (s.badAcc).module = s.module := rfl
@[simp] theorem State.badAcc_out (s : State) : (s.badAcc).out = s.out := rfl
@[simp] theorem State.badAcc_room (s : State) (j : Nat) : (s.badAcc).room j = s.room j := rfl
@[simp] theorem State.badAcc_ring (s : State) (j : Nat) : (s.badAcc).ring j = s.ring j := rfl
@[simp] theorem State.badAcc_core (s : State) (j : Nat) : (s.badAcc).core j = s.core j := rfl
@[simp] theorem State.badAcc_stack (s : State) (j : Nat) : (s.badAcc).stack j = s.stack j := rfl
@[simp] theorem State.badAcc_pair (s : State) (j : Nat) : (s.badAcc).pair j = s.pair j := rfl
@[simp] theorem State.badAcc_fuse (s : State) (j : Nat) : (s.badAcc).fuse j = s.fuse j := rfl
@[simp] theorem State.badAcc_now (s : State) : (s.badAcc).now = s.now := rfl

@[simp] theorem State.count_pending (s : State) (u i n : Nat) : (s.count u i n).pending = s.pending := rfl
@[simp] theorem State.count_fresh (s : State) (u i n : Nat) : (s.count u i n).fresh = s.fresh := rfl
@[simp] theorem State.count_host (s : State) (u i n : Nat) : (s.count u i n).host = s.host := rfl
@[simp] theorem State.count_hostRefusals (s : State) (u i n : Nat) : (s.count u i n).hostRefusals = s.hostRefusals := rfl
@[simp] theorem State.count_vfEnable (s : State) (u i n : Nat) : (s.count u i n).vfEnable = s.vfEnable := rfl
@[simp] theorem State.count_numVfs (s : State) (u i n : Nat) : (s.count u i n).numVfs = s.numVfs := rfl
@[simp] theorem State.count_rooms (s : State) (u i n : Nat) : (s.count u i n).rooms = s.rooms := rfl
@[simp] theorem State.count_rings (s : State) (u i n : Nat) : (s.count u i n).rings = s.rings := rfl
@[simp] theorem State.count_msix (s : State) (u i n : Nat) : (s.count u i n).msix = s.msix := rfl
@[simp] theorem State.count_restart (s : State) (u i n : Nat) : (s.count u i n).restart = s.restart := rfl
@[simp] theorem State.count_restartRejected (s : State) (u i n : Nat) : (s.count u i n).restartRejected = s.restartRejected := rfl
@[simp] theorem State.count_restartReason (s : State) (u i n : Nat) : (s.count u i n).restartReason = s.restartReason := rfl
@[simp] theorem State.count_ringSel (s : State) (u i n : Nat) : (s.count u i n).ringSel = s.ringSel := rfl
@[simp] theorem State.count_ringInfo0 (s : State) (u i n : Nat) : (s.count u i n).ringInfo0 = s.ringInfo0 := rfl
@[simp] theorem State.count_ringInfo1 (s : State) (u i n : Nat) : (s.count u i n).ringInfo1 = s.ringInfo1 := rfl
@[simp] theorem State.count_badAccess (s : State) (u i n : Nat) : (s.count u i n).badAccess = s.badAccess := rfl
@[simp] theorem State.count_snaps (s : State) (u i n : Nat) : (s.count u i n).snaps = s.snaps := rfl
@[simp] theorem State.count_held (s : State) (u i n : Nat) : (s.count u i n).held = s.held := rfl
@[simp] theorem State.count_cores (s : State) (u i n : Nat) : (s.count u i n).cores = s.cores := rfl
@[simp] theorem State.count_common (s : State) (u i n : Nat) : (s.count u i n).common = s.common := rfl
@[simp] theorem State.count_stackTbl (s : State) (u i n : Nat) : (s.count u i n).stackTbl = s.stackTbl := rfl
@[simp] theorem State.count_migrations (s : State) (u i n : Nat) : (s.count u i n).migrations = s.migrations := rfl
@[simp] theorem State.count_swaps (s : State) (u i n : Nat) : (s.count u i n).swaps = s.swaps := rfl
@[simp] theorem State.count_ingest (s : State) (u i n : Nat) : (s.count u i n).ingest = s.ingest := rfl
@[simp] theorem State.count_sched (s : State) (u i n : Nat) : (s.count u i n).sched = s.sched := rfl
@[simp] theorem State.count_stewards (s : State) (u i n : Nat) : (s.count u i n).stewards = s.stewards := rfl
@[simp] theorem State.count_net (s : State) (u i n : Nat) : (s.count u i n).net = s.net := rfl
@[simp] theorem State.count_caravan (s : State) (u i n : Nat) : (s.count u i n).caravan = s.caravan := rfl
@[simp] theorem State.count_time (s : State) (u i n : Nat) : (s.count u i n).time = s.time := rfl
@[simp] theorem State.count_sec (s : State) (u i n : Nat) : (s.count u i n).sec = s.sec := rfl
@[simp] theorem State.count_power (s : State) (u i n : Nat) : (s.count u i n).power = s.power := rfl
@[simp] theorem State.count_module (s : State) (u i n : Nat) : (s.count u i n).module = s.module := rfl
@[simp] theorem State.count_out (s : State) (u i n : Nat) : (s.count u i n).out = s.out := rfl
@[simp] theorem State.count_room (s : State) (u i n : Nat) (j : Nat) : (s.count u i n).room j = s.room j := rfl
@[simp] theorem State.count_ring (s : State) (u i n : Nat) (j : Nat) : (s.count u i n).ring j = s.ring j := rfl
@[simp] theorem State.count_core (s : State) (u i n : Nat) (j : Nat) : (s.count u i n).core j = s.core j := rfl
@[simp] theorem State.count_stack (s : State) (u i n : Nat) (j : Nat) : (s.count u i n).stack j = s.stack j := rfl
@[simp] theorem State.count_pair (s : State) (u i n : Nat) (j : Nat) : (s.count u i n).pair j = s.pair j := rfl
@[simp] theorem State.count_fuse (s : State) (u i n : Nat) (j : Nat) : (s.count u i n).fuse j = s.fuse j := rfl
@[simp] theorem State.count_now (s : State) (u i n : Nat) : (s.count u i n).now = s.now := rfl

@[simp] theorem State.healthRecord_pending (s : State) (a b c d e : Nat) : (s.healthRecord a b c d e).pending = s.pending := rfl
@[simp] theorem State.healthRecord_fresh (s : State) (a b c d e : Nat) : (s.healthRecord a b c d e).fresh = s.fresh := rfl
@[simp] theorem State.healthRecord_host (s : State) (a b c d e : Nat) : (s.healthRecord a b c d e).host = s.host := rfl
@[simp] theorem State.healthRecord_hostRefusals (s : State) (a b c d e : Nat) : (s.healthRecord a b c d e).hostRefusals = s.hostRefusals := rfl
@[simp] theorem State.healthRecord_vfEnable (s : State) (a b c d e : Nat) : (s.healthRecord a b c d e).vfEnable = s.vfEnable := rfl
@[simp] theorem State.healthRecord_numVfs (s : State) (a b c d e : Nat) : (s.healthRecord a b c d e).numVfs = s.numVfs := rfl
@[simp] theorem State.healthRecord_rooms (s : State) (a b c d e : Nat) : (s.healthRecord a b c d e).rooms = s.rooms := rfl
@[simp] theorem State.healthRecord_rings (s : State) (a b c d e : Nat) : (s.healthRecord a b c d e).rings = s.rings := rfl
@[simp] theorem State.healthRecord_msix (s : State) (a b c d e : Nat) : (s.healthRecord a b c d e).msix = s.msix := rfl
@[simp] theorem State.healthRecord_restart (s : State) (a b c d e : Nat) : (s.healthRecord a b c d e).restart = s.restart := rfl
@[simp] theorem State.healthRecord_restartRejected (s : State) (a b c d e : Nat) : (s.healthRecord a b c d e).restartRejected = s.restartRejected := rfl
@[simp] theorem State.healthRecord_restartReason (s : State) (a b c d e : Nat) : (s.healthRecord a b c d e).restartReason = s.restartReason := rfl
@[simp] theorem State.healthRecord_ringSel (s : State) (a b c d e : Nat) : (s.healthRecord a b c d e).ringSel = s.ringSel := rfl
@[simp] theorem State.healthRecord_ringInfo0 (s : State) (a b c d e : Nat) : (s.healthRecord a b c d e).ringInfo0 = s.ringInfo0 := rfl
@[simp] theorem State.healthRecord_ringInfo1 (s : State) (a b c d e : Nat) : (s.healthRecord a b c d e).ringInfo1 = s.ringInfo1 := rfl
@[simp] theorem State.healthRecord_badAccess (s : State) (a b c d e : Nat) : (s.healthRecord a b c d e).badAccess = s.badAccess := rfl
@[simp] theorem State.healthRecord_snaps (s : State) (a b c d e : Nat) : (s.healthRecord a b c d e).snaps = s.snaps := rfl
@[simp] theorem State.healthRecord_held (s : State) (a b c d e : Nat) : (s.healthRecord a b c d e).held = s.held := rfl
@[simp] theorem State.healthRecord_cores (s : State) (a b c d e : Nat) : (s.healthRecord a b c d e).cores = s.cores := rfl
@[simp] theorem State.healthRecord_common (s : State) (a b c d e : Nat) : (s.healthRecord a b c d e).common = s.common := rfl
@[simp] theorem State.healthRecord_stackTbl (s : State) (a b c d e : Nat) : (s.healthRecord a b c d e).stackTbl = s.stackTbl := rfl
@[simp] theorem State.healthRecord_migrations (s : State) (a b c d e : Nat) : (s.healthRecord a b c d e).migrations = s.migrations := rfl
@[simp] theorem State.healthRecord_swaps (s : State) (a b c d e : Nat) : (s.healthRecord a b c d e).swaps = s.swaps := rfl
@[simp] theorem State.healthRecord_ingest (s : State) (a b c d e : Nat) : (s.healthRecord a b c d e).ingest = s.ingest := rfl
@[simp] theorem State.healthRecord_sched (s : State) (a b c d e : Nat) : (s.healthRecord a b c d e).sched = s.sched := rfl
@[simp] theorem State.healthRecord_stewards (s : State) (a b c d e : Nat) : (s.healthRecord a b c d e).stewards = s.stewards := rfl
@[simp] theorem State.healthRecord_net (s : State) (a b c d e : Nat) : (s.healthRecord a b c d e).net = s.net := rfl
@[simp] theorem State.healthRecord_caravan (s : State) (a b c d e : Nat) : (s.healthRecord a b c d e).caravan = s.caravan := rfl
@[simp] theorem State.healthRecord_time (s : State) (a b c d e : Nat) : (s.healthRecord a b c d e).time = s.time := rfl
@[simp] theorem State.healthRecord_sec (s : State) (a b c d e : Nat) : (s.healthRecord a b c d e).sec = s.sec := rfl
@[simp] theorem State.healthRecord_power (s : State) (a b c d e : Nat) : (s.healthRecord a b c d e).power = s.power := rfl
@[simp] theorem State.healthRecord_module (s : State) (a b c d e : Nat) : (s.healthRecord a b c d e).module = s.module := rfl
@[simp] theorem State.healthRecord_out (s : State) (a b c d e : Nat) : (s.healthRecord a b c d e).out = s.out := rfl
@[simp] theorem State.healthRecord_room (s : State) (a b c d e : Nat) (j : Nat) : (s.healthRecord a b c d e).room j = s.room j := rfl
@[simp] theorem State.healthRecord_ring (s : State) (a b c d e : Nat) (j : Nat) : (s.healthRecord a b c d e).ring j = s.ring j := rfl
@[simp] theorem State.healthRecord_core (s : State) (a b c d e : Nat) (j : Nat) : (s.healthRecord a b c d e).core j = s.core j := rfl
@[simp] theorem State.healthRecord_stack (s : State) (a b c d e : Nat) (j : Nat) : (s.healthRecord a b c d e).stack j = s.stack j := rfl
@[simp] theorem State.healthRecord_pair (s : State) (a b c d e : Nat) (j : Nat) : (s.healthRecord a b c d e).pair j = s.pair j := rfl
@[simp] theorem State.healthRecord_fuse (s : State) (a b c d e : Nat) (j : Nat) : (s.healthRecord a b c d e).fuse j = s.fuse j := rfl
@[simp] theorem State.healthRecord_now (s : State) (a b c d e : Nat) : (s.healthRecord a b c d e).now = s.now := rfl

@[simp] theorem State.setWaiting_pending (s : State) (a b : Nat) : (s.setWaiting a b).pending = s.pending := rfl
@[simp] theorem State.setWaiting_fresh (s : State) (a b : Nat) : (s.setWaiting a b).fresh = s.fresh := rfl
@[simp] theorem State.setWaiting_host (s : State) (a b : Nat) : (s.setWaiting a b).host = s.host := rfl
@[simp] theorem State.setWaiting_hostRefusals (s : State) (a b : Nat) : (s.setWaiting a b).hostRefusals = s.hostRefusals := rfl
@[simp] theorem State.setWaiting_vfEnable (s : State) (a b : Nat) : (s.setWaiting a b).vfEnable = s.vfEnable := rfl
@[simp] theorem State.setWaiting_numVfs (s : State) (a b : Nat) : (s.setWaiting a b).numVfs = s.numVfs := rfl
@[simp] theorem State.setWaiting_rooms (s : State) (a b : Nat) : (s.setWaiting a b).rooms = s.rooms := rfl
@[simp] theorem State.setWaiting_rings (s : State) (a b : Nat) : (s.setWaiting a b).rings = s.rings := rfl
@[simp] theorem State.setWaiting_msix (s : State) (a b : Nat) : (s.setWaiting a b).msix = s.msix := rfl
@[simp] theorem State.setWaiting_restart (s : State) (a b : Nat) : (s.setWaiting a b).restart = s.restart := rfl
@[simp] theorem State.setWaiting_restartRejected (s : State) (a b : Nat) : (s.setWaiting a b).restartRejected = s.restartRejected := rfl
@[simp] theorem State.setWaiting_restartReason (s : State) (a b : Nat) : (s.setWaiting a b).restartReason = s.restartReason := rfl
@[simp] theorem State.setWaiting_ringSel (s : State) (a b : Nat) : (s.setWaiting a b).ringSel = s.ringSel := rfl
@[simp] theorem State.setWaiting_ringInfo0 (s : State) (a b : Nat) : (s.setWaiting a b).ringInfo0 = s.ringInfo0 := rfl
@[simp] theorem State.setWaiting_ringInfo1 (s : State) (a b : Nat) : (s.setWaiting a b).ringInfo1 = s.ringInfo1 := rfl
@[simp] theorem State.setWaiting_badAccess (s : State) (a b : Nat) : (s.setWaiting a b).badAccess = s.badAccess := rfl
@[simp] theorem State.setWaiting_snaps (s : State) (a b : Nat) : (s.setWaiting a b).snaps = s.snaps := rfl
@[simp] theorem State.setWaiting_held (s : State) (a b : Nat) : (s.setWaiting a b).held = s.held := rfl
@[simp] theorem State.setWaiting_cores (s : State) (a b : Nat) : (s.setWaiting a b).cores = s.cores := rfl
@[simp] theorem State.setWaiting_common (s : State) (a b : Nat) : (s.setWaiting a b).common = s.common := rfl
@[simp] theorem State.setWaiting_stackTbl (s : State) (a b : Nat) : (s.setWaiting a b).stackTbl = s.stackTbl := rfl
@[simp] theorem State.setWaiting_migrations (s : State) (a b : Nat) : (s.setWaiting a b).migrations = s.migrations := rfl
@[simp] theorem State.setWaiting_swaps (s : State) (a b : Nat) : (s.setWaiting a b).swaps = s.swaps := rfl
@[simp] theorem State.setWaiting_ingest (s : State) (a b : Nat) : (s.setWaiting a b).ingest = s.ingest := rfl
@[simp] theorem State.setWaiting_sched (s : State) (a b : Nat) : (s.setWaiting a b).sched = s.sched := rfl
@[simp] theorem State.setWaiting_stewards (s : State) (a b : Nat) : (s.setWaiting a b).stewards = s.stewards := rfl
@[simp] theorem State.setWaiting_net (s : State) (a b : Nat) : (s.setWaiting a b).net = s.net := rfl
@[simp] theorem State.setWaiting_caravan (s : State) (a b : Nat) : (s.setWaiting a b).caravan = s.caravan := rfl
@[simp] theorem State.setWaiting_time (s : State) (a b : Nat) : (s.setWaiting a b).time = s.time := rfl
@[simp] theorem State.setWaiting_sec (s : State) (a b : Nat) : (s.setWaiting a b).sec = s.sec := rfl
@[simp] theorem State.setWaiting_power (s : State) (a b : Nat) : (s.setWaiting a b).power = s.power := rfl
@[simp] theorem State.setWaiting_module (s : State) (a b : Nat) : (s.setWaiting a b).module = s.module := rfl
@[simp] theorem State.setWaiting_out (s : State) (a b : Nat) : (s.setWaiting a b).out = s.out := rfl
@[simp] theorem State.setWaiting_room (s : State) (a b : Nat) (j : Nat) : (s.setWaiting a b).room j = s.room j := rfl
@[simp] theorem State.setWaiting_ring (s : State) (a b : Nat) (j : Nat) : (s.setWaiting a b).ring j = s.ring j := rfl
@[simp] theorem State.setWaiting_core (s : State) (a b : Nat) (j : Nat) : (s.setWaiting a b).core j = s.core j := rfl
@[simp] theorem State.setWaiting_stack (s : State) (a b : Nat) (j : Nat) : (s.setWaiting a b).stack j = s.stack j := rfl
@[simp] theorem State.setWaiting_pair (s : State) (a b : Nat) (j : Nat) : (s.setWaiting a b).pair j = s.pair j := rfl
@[simp] theorem State.setWaiting_fuse (s : State) (a b : Nat) (j : Nat) : (s.setWaiting a b).fuse j = s.fuse j := rfl
@[simp] theorem State.setWaiting_now (s : State) (a b : Nat) : (s.setWaiting a b).now = s.now := rfl

@[simp] theorem State.clearWaiting_pending (s : State) (a : Nat) : (s.clearWaiting a).pending = s.pending := rfl
@[simp] theorem State.clearWaiting_fresh (s : State) (a : Nat) : (s.clearWaiting a).fresh = s.fresh := rfl
@[simp] theorem State.clearWaiting_host (s : State) (a : Nat) : (s.clearWaiting a).host = s.host := rfl
@[simp] theorem State.clearWaiting_hostRefusals (s : State) (a : Nat) : (s.clearWaiting a).hostRefusals = s.hostRefusals := rfl
@[simp] theorem State.clearWaiting_vfEnable (s : State) (a : Nat) : (s.clearWaiting a).vfEnable = s.vfEnable := rfl
@[simp] theorem State.clearWaiting_numVfs (s : State) (a : Nat) : (s.clearWaiting a).numVfs = s.numVfs := rfl
@[simp] theorem State.clearWaiting_rooms (s : State) (a : Nat) : (s.clearWaiting a).rooms = s.rooms := rfl
@[simp] theorem State.clearWaiting_rings (s : State) (a : Nat) : (s.clearWaiting a).rings = s.rings := rfl
@[simp] theorem State.clearWaiting_msix (s : State) (a : Nat) : (s.clearWaiting a).msix = s.msix := rfl
@[simp] theorem State.clearWaiting_restart (s : State) (a : Nat) : (s.clearWaiting a).restart = s.restart := rfl
@[simp] theorem State.clearWaiting_restartRejected (s : State) (a : Nat) : (s.clearWaiting a).restartRejected = s.restartRejected := rfl
@[simp] theorem State.clearWaiting_restartReason (s : State) (a : Nat) : (s.clearWaiting a).restartReason = s.restartReason := rfl
@[simp] theorem State.clearWaiting_ringSel (s : State) (a : Nat) : (s.clearWaiting a).ringSel = s.ringSel := rfl
@[simp] theorem State.clearWaiting_ringInfo0 (s : State) (a : Nat) : (s.clearWaiting a).ringInfo0 = s.ringInfo0 := rfl
@[simp] theorem State.clearWaiting_ringInfo1 (s : State) (a : Nat) : (s.clearWaiting a).ringInfo1 = s.ringInfo1 := rfl
@[simp] theorem State.clearWaiting_badAccess (s : State) (a : Nat) : (s.clearWaiting a).badAccess = s.badAccess := rfl
@[simp] theorem State.clearWaiting_snaps (s : State) (a : Nat) : (s.clearWaiting a).snaps = s.snaps := rfl
@[simp] theorem State.clearWaiting_held (s : State) (a : Nat) : (s.clearWaiting a).held = s.held := rfl
@[simp] theorem State.clearWaiting_cores (s : State) (a : Nat) : (s.clearWaiting a).cores = s.cores := rfl
@[simp] theorem State.clearWaiting_common (s : State) (a : Nat) : (s.clearWaiting a).common = s.common := rfl
@[simp] theorem State.clearWaiting_stackTbl (s : State) (a : Nat) : (s.clearWaiting a).stackTbl = s.stackTbl := rfl
@[simp] theorem State.clearWaiting_migrations (s : State) (a : Nat) : (s.clearWaiting a).migrations = s.migrations := rfl
@[simp] theorem State.clearWaiting_swaps (s : State) (a : Nat) : (s.clearWaiting a).swaps = s.swaps := rfl
@[simp] theorem State.clearWaiting_ingest (s : State) (a : Nat) : (s.clearWaiting a).ingest = s.ingest := rfl
@[simp] theorem State.clearWaiting_sched (s : State) (a : Nat) : (s.clearWaiting a).sched = s.sched := rfl
@[simp] theorem State.clearWaiting_stewards (s : State) (a : Nat) : (s.clearWaiting a).stewards = s.stewards := rfl
@[simp] theorem State.clearWaiting_net (s : State) (a : Nat) : (s.clearWaiting a).net = s.net := rfl
@[simp] theorem State.clearWaiting_caravan (s : State) (a : Nat) : (s.clearWaiting a).caravan = s.caravan := rfl
@[simp] theorem State.clearWaiting_time (s : State) (a : Nat) : (s.clearWaiting a).time = s.time := rfl
@[simp] theorem State.clearWaiting_sec (s : State) (a : Nat) : (s.clearWaiting a).sec = s.sec := rfl
@[simp] theorem State.clearWaiting_power (s : State) (a : Nat) : (s.clearWaiting a).power = s.power := rfl
@[simp] theorem State.clearWaiting_module (s : State) (a : Nat) : (s.clearWaiting a).module = s.module := rfl
@[simp] theorem State.clearWaiting_out (s : State) (a : Nat) : (s.clearWaiting a).out = s.out := rfl
@[simp] theorem State.clearWaiting_room (s : State) (a : Nat) (j : Nat) : (s.clearWaiting a).room j = s.room j := rfl
@[simp] theorem State.clearWaiting_ring (s : State) (a : Nat) (j : Nat) : (s.clearWaiting a).ring j = s.ring j := rfl
@[simp] theorem State.clearWaiting_core (s : State) (a : Nat) (j : Nat) : (s.clearWaiting a).core j = s.core j := rfl
@[simp] theorem State.clearWaiting_stack (s : State) (a : Nat) (j : Nat) : (s.clearWaiting a).stack j = s.stack j := rfl
@[simp] theorem State.clearWaiting_pair (s : State) (a : Nat) (j : Nat) : (s.clearWaiting a).pair j = s.pair j := rfl
@[simp] theorem State.clearWaiting_fuse (s : State) (a : Nat) (j : Nat) : (s.clearWaiting a).fuse j = s.fuse j := rfl
@[simp] theorem State.clearWaiting_now (s : State) (a : Nat) : (s.clearWaiting a).now = s.now := rfl

@[simp] theorem State.netCount_pending (s : State) (i : Nat) : (s.netCount i).pending = s.pending := rfl
@[simp] theorem State.netCount_fresh (s : State) (i : Nat) : (s.netCount i).fresh = s.fresh := rfl
@[simp] theorem State.netCount_host (s : State) (i : Nat) : (s.netCount i).host = s.host := rfl
@[simp] theorem State.netCount_hostRefusals (s : State) (i : Nat) : (s.netCount i).hostRefusals = s.hostRefusals := rfl
@[simp] theorem State.netCount_vfEnable (s : State) (i : Nat) : (s.netCount i).vfEnable = s.vfEnable := rfl
@[simp] theorem State.netCount_numVfs (s : State) (i : Nat) : (s.netCount i).numVfs = s.numVfs := rfl
@[simp] theorem State.netCount_rooms (s : State) (i : Nat) : (s.netCount i).rooms = s.rooms := rfl
@[simp] theorem State.netCount_rings (s : State) (i : Nat) : (s.netCount i).rings = s.rings := rfl
@[simp] theorem State.netCount_msix (s : State) (i : Nat) : (s.netCount i).msix = s.msix := rfl
@[simp] theorem State.netCount_restart (s : State) (i : Nat) : (s.netCount i).restart = s.restart := rfl
@[simp] theorem State.netCount_restartRejected (s : State) (i : Nat) : (s.netCount i).restartRejected = s.restartRejected := rfl
@[simp] theorem State.netCount_restartReason (s : State) (i : Nat) : (s.netCount i).restartReason = s.restartReason := rfl
@[simp] theorem State.netCount_ringSel (s : State) (i : Nat) : (s.netCount i).ringSel = s.ringSel := rfl
@[simp] theorem State.netCount_ringInfo0 (s : State) (i : Nat) : (s.netCount i).ringInfo0 = s.ringInfo0 := rfl
@[simp] theorem State.netCount_ringInfo1 (s : State) (i : Nat) : (s.netCount i).ringInfo1 = s.ringInfo1 := rfl
@[simp] theorem State.netCount_badAccess (s : State) (i : Nat) : (s.netCount i).badAccess = s.badAccess := rfl
@[simp] theorem State.netCount_snaps (s : State) (i : Nat) : (s.netCount i).snaps = s.snaps := rfl
@[simp] theorem State.netCount_held (s : State) (i : Nat) : (s.netCount i).held = s.held := rfl
@[simp] theorem State.netCount_cores (s : State) (i : Nat) : (s.netCount i).cores = s.cores := rfl
@[simp] theorem State.netCount_common (s : State) (i : Nat) : (s.netCount i).common = s.common := rfl
@[simp] theorem State.netCount_stackTbl (s : State) (i : Nat) : (s.netCount i).stackTbl = s.stackTbl := rfl
@[simp] theorem State.netCount_migrations (s : State) (i : Nat) : (s.netCount i).migrations = s.migrations := rfl
@[simp] theorem State.netCount_swaps (s : State) (i : Nat) : (s.netCount i).swaps = s.swaps := rfl
@[simp] theorem State.netCount_ingest (s : State) (i : Nat) : (s.netCount i).ingest = s.ingest := rfl
@[simp] theorem State.netCount_sched (s : State) (i : Nat) : (s.netCount i).sched = s.sched := rfl
@[simp] theorem State.netCount_stewards (s : State) (i : Nat) : (s.netCount i).stewards = s.stewards := rfl
@[simp] theorem State.netCount_caravan (s : State) (i : Nat) : (s.netCount i).caravan = s.caravan := rfl
@[simp] theorem State.netCount_time (s : State) (i : Nat) : (s.netCount i).time = s.time := rfl
@[simp] theorem State.netCount_sec (s : State) (i : Nat) : (s.netCount i).sec = s.sec := rfl
@[simp] theorem State.netCount_power (s : State) (i : Nat) : (s.netCount i).power = s.power := rfl
@[simp] theorem State.netCount_health (s : State) (i : Nat) : (s.netCount i).health = s.health := rfl
@[simp] theorem State.netCount_module (s : State) (i : Nat) : (s.netCount i).module = s.module := rfl
@[simp] theorem State.netCount_out (s : State) (i : Nat) : (s.netCount i).out = s.out := rfl
@[simp] theorem State.netCount_room (s : State) (i : Nat) (j : Nat) : (s.netCount i).room j = s.room j := rfl
@[simp] theorem State.netCount_ring (s : State) (i : Nat) (j : Nat) : (s.netCount i).ring j = s.ring j := rfl
@[simp] theorem State.netCount_core (s : State) (i : Nat) (j : Nat) : (s.netCount i).core j = s.core j := rfl
@[simp] theorem State.netCount_stack (s : State) (i : Nat) (j : Nat) : (s.netCount i).stack j = s.stack j := rfl
@[simp] theorem State.netCount_pair (s : State) (i : Nat) (j : Nat) : (s.netCount i).pair j = s.pair j := rfl
@[simp] theorem State.netCount_fuse (s : State) (i : Nat) (j : Nat) : (s.netCount i).fuse j = s.fuse j := rfl
@[simp] theorem State.netCount_now (s : State) (i : Nat) : (s.netCount i).now = s.now := rfl

@[simp] theorem State.charge_pending (s : State) (r i n : Nat) : (s.charge r i n).pending = s.pending := rfl
@[simp] theorem State.charge_fresh (s : State) (r i n : Nat) : (s.charge r i n).fresh = s.fresh := rfl
@[simp] theorem State.charge_host (s : State) (r i n : Nat) : (s.charge r i n).host = s.host := rfl
@[simp] theorem State.charge_hostRefusals (s : State) (r i n : Nat) : (s.charge r i n).hostRefusals = s.hostRefusals := rfl
@[simp] theorem State.charge_vfEnable (s : State) (r i n : Nat) : (s.charge r i n).vfEnable = s.vfEnable := rfl
@[simp] theorem State.charge_numVfs (s : State) (r i n : Nat) : (s.charge r i n).numVfs = s.numVfs := rfl
@[simp] theorem State.charge_rings (s : State) (r i n : Nat) : (s.charge r i n).rings = s.rings := rfl
@[simp] theorem State.charge_msix (s : State) (r i n : Nat) : (s.charge r i n).msix = s.msix := rfl
@[simp] theorem State.charge_restart (s : State) (r i n : Nat) : (s.charge r i n).restart = s.restart := rfl
@[simp] theorem State.charge_restartRejected (s : State) (r i n : Nat) : (s.charge r i n).restartRejected = s.restartRejected := rfl
@[simp] theorem State.charge_restartReason (s : State) (r i n : Nat) : (s.charge r i n).restartReason = s.restartReason := rfl
@[simp] theorem State.charge_ringSel (s : State) (r i n : Nat) : (s.charge r i n).ringSel = s.ringSel := rfl
@[simp] theorem State.charge_ringInfo0 (s : State) (r i n : Nat) : (s.charge r i n).ringInfo0 = s.ringInfo0 := rfl
@[simp] theorem State.charge_ringInfo1 (s : State) (r i n : Nat) : (s.charge r i n).ringInfo1 = s.ringInfo1 := rfl
@[simp] theorem State.charge_badAccess (s : State) (r i n : Nat) : (s.charge r i n).badAccess = s.badAccess := rfl
@[simp] theorem State.charge_snaps (s : State) (r i n : Nat) : (s.charge r i n).snaps = s.snaps := rfl
@[simp] theorem State.charge_held (s : State) (r i n : Nat) : (s.charge r i n).held = s.held := rfl
@[simp] theorem State.charge_cores (s : State) (r i n : Nat) : (s.charge r i n).cores = s.cores := rfl
@[simp] theorem State.charge_common (s : State) (r i n : Nat) : (s.charge r i n).common = s.common := rfl
@[simp] theorem State.charge_stackTbl (s : State) (r i n : Nat) : (s.charge r i n).stackTbl = s.stackTbl := rfl
@[simp] theorem State.charge_migrations (s : State) (r i n : Nat) : (s.charge r i n).migrations = s.migrations := rfl
@[simp] theorem State.charge_swaps (s : State) (r i n : Nat) : (s.charge r i n).swaps = s.swaps := rfl
@[simp] theorem State.charge_ingest (s : State) (r i n : Nat) : (s.charge r i n).ingest = s.ingest := rfl
@[simp] theorem State.charge_sched (s : State) (r i n : Nat) : (s.charge r i n).sched = s.sched := rfl
@[simp] theorem State.charge_stewards (s : State) (r i n : Nat) : (s.charge r i n).stewards = s.stewards := rfl
@[simp] theorem State.charge_net (s : State) (r i n : Nat) : (s.charge r i n).net = s.net := rfl
@[simp] theorem State.charge_caravan (s : State) (r i n : Nat) : (s.charge r i n).caravan = s.caravan := rfl
@[simp] theorem State.charge_time (s : State) (r i n : Nat) : (s.charge r i n).time = s.time := rfl
@[simp] theorem State.charge_sec (s : State) (r i n : Nat) : (s.charge r i n).sec = s.sec := rfl
@[simp] theorem State.charge_power (s : State) (r i n : Nat) : (s.charge r i n).power = s.power := rfl
@[simp] theorem State.charge_health (s : State) (r i n : Nat) : (s.charge r i n).health = s.health := rfl
@[simp] theorem State.charge_module (s : State) (r i n : Nat) : (s.charge r i n).module = s.module := rfl
@[simp] theorem State.charge_out (s : State) (r i n : Nat) : (s.charge r i n).out = s.out := rfl
@[simp] theorem State.charge_ring (s : State) (r i n : Nat) (j : Nat) : (s.charge r i n).ring j = s.ring j := rfl
@[simp] theorem State.charge_core (s : State) (r i n : Nat) (j : Nat) : (s.charge r i n).core j = s.core j := rfl
@[simp] theorem State.charge_stack (s : State) (r i n : Nat) (j : Nat) : (s.charge r i n).stack j = s.stack j := rfl
@[simp] theorem State.charge_pair (s : State) (r i n : Nat) (j : Nat) : (s.charge r i n).pair j = s.pair j := rfl
@[simp] theorem State.charge_fuse (s : State) (r i n : Nat) (j : Nat) : (s.charge r i n).fuse j = s.fuse j := rfl
@[simp] theorem State.charge_now (s : State) (r i n : Nat) : (s.charge r i n).now = s.now := rfl

@[simp] theorem State.waive_pending (s : State) (r b : Nat) : (s.waive r b).pending = s.pending := rfl
@[simp] theorem State.waive_fresh (s : State) (r b : Nat) : (s.waive r b).fresh = s.fresh := rfl
@[simp] theorem State.waive_host (s : State) (r b : Nat) : (s.waive r b).host = s.host := rfl
@[simp] theorem State.waive_hostRefusals (s : State) (r b : Nat) : (s.waive r b).hostRefusals = s.hostRefusals := rfl
@[simp] theorem State.waive_vfEnable (s : State) (r b : Nat) : (s.waive r b).vfEnable = s.vfEnable := rfl
@[simp] theorem State.waive_numVfs (s : State) (r b : Nat) : (s.waive r b).numVfs = s.numVfs := rfl
@[simp] theorem State.waive_rings (s : State) (r b : Nat) : (s.waive r b).rings = s.rings := rfl
@[simp] theorem State.waive_msix (s : State) (r b : Nat) : (s.waive r b).msix = s.msix := rfl
@[simp] theorem State.waive_restart (s : State) (r b : Nat) : (s.waive r b).restart = s.restart := rfl
@[simp] theorem State.waive_restartRejected (s : State) (r b : Nat) : (s.waive r b).restartRejected = s.restartRejected := rfl
@[simp] theorem State.waive_restartReason (s : State) (r b : Nat) : (s.waive r b).restartReason = s.restartReason := rfl
@[simp] theorem State.waive_ringSel (s : State) (r b : Nat) : (s.waive r b).ringSel = s.ringSel := rfl
@[simp] theorem State.waive_ringInfo0 (s : State) (r b : Nat) : (s.waive r b).ringInfo0 = s.ringInfo0 := rfl
@[simp] theorem State.waive_ringInfo1 (s : State) (r b : Nat) : (s.waive r b).ringInfo1 = s.ringInfo1 := rfl
@[simp] theorem State.waive_badAccess (s : State) (r b : Nat) : (s.waive r b).badAccess = s.badAccess := rfl
@[simp] theorem State.waive_snaps (s : State) (r b : Nat) : (s.waive r b).snaps = s.snaps := rfl
@[simp] theorem State.waive_held (s : State) (r b : Nat) : (s.waive r b).held = s.held := rfl
@[simp] theorem State.waive_cores (s : State) (r b : Nat) : (s.waive r b).cores = s.cores := rfl
@[simp] theorem State.waive_common (s : State) (r b : Nat) : (s.waive r b).common = s.common := rfl
@[simp] theorem State.waive_stackTbl (s : State) (r b : Nat) : (s.waive r b).stackTbl = s.stackTbl := rfl
@[simp] theorem State.waive_migrations (s : State) (r b : Nat) : (s.waive r b).migrations = s.migrations := rfl
@[simp] theorem State.waive_swaps (s : State) (r b : Nat) : (s.waive r b).swaps = s.swaps := rfl
@[simp] theorem State.waive_ingest (s : State) (r b : Nat) : (s.waive r b).ingest = s.ingest := rfl
@[simp] theorem State.waive_sched (s : State) (r b : Nat) : (s.waive r b).sched = s.sched := rfl
@[simp] theorem State.waive_stewards (s : State) (r b : Nat) : (s.waive r b).stewards = s.stewards := rfl
@[simp] theorem State.waive_net (s : State) (r b : Nat) : (s.waive r b).net = s.net := rfl
@[simp] theorem State.waive_caravan (s : State) (r b : Nat) : (s.waive r b).caravan = s.caravan := rfl
@[simp] theorem State.waive_time (s : State) (r b : Nat) : (s.waive r b).time = s.time := rfl
@[simp] theorem State.waive_sec (s : State) (r b : Nat) : (s.waive r b).sec = s.sec := rfl
@[simp] theorem State.waive_power (s : State) (r b : Nat) : (s.waive r b).power = s.power := rfl
@[simp] theorem State.waive_health (s : State) (r b : Nat) : (s.waive r b).health = s.health := rfl
@[simp] theorem State.waive_module (s : State) (r b : Nat) : (s.waive r b).module = s.module := rfl
@[simp] theorem State.waive_out (s : State) (r b : Nat) : (s.waive r b).out = s.out := rfl
@[simp] theorem State.waive_ring (s : State) (r b : Nat) (j : Nat) : (s.waive r b).ring j = s.ring j := rfl
@[simp] theorem State.waive_core (s : State) (r b : Nat) (j : Nat) : (s.waive r b).core j = s.core j := rfl
@[simp] theorem State.waive_stack (s : State) (r b : Nat) (j : Nat) : (s.waive r b).stack j = s.stack j := rfl
@[simp] theorem State.waive_pair (s : State) (r b : Nat) (j : Nat) : (s.waive r b).pair j = s.pair j := rfl
@[simp] theorem State.waive_fuse (s : State) (r b : Nat) (j : Nat) : (s.waive r b).fuse j = s.fuse j := rfl
@[simp] theorem State.waive_now (s : State) (r b : Nat) : (s.waive r b).now = s.now := rfl

@[simp] theorem State.countRefused_pending (s : State) (r : Nat) : (s.countRefused r).pending = s.pending := rfl
@[simp] theorem State.countRefused_fresh (s : State) (r : Nat) : (s.countRefused r).fresh = s.fresh := rfl
@[simp] theorem State.countRefused_host (s : State) (r : Nat) : (s.countRefused r).host = s.host := rfl
@[simp] theorem State.countRefused_hostRefusals (s : State) (r : Nat) : (s.countRefused r).hostRefusals = s.hostRefusals := rfl
@[simp] theorem State.countRefused_vfEnable (s : State) (r : Nat) : (s.countRefused r).vfEnable = s.vfEnable := rfl
@[simp] theorem State.countRefused_numVfs (s : State) (r : Nat) : (s.countRefused r).numVfs = s.numVfs := rfl
@[simp] theorem State.countRefused_rings (s : State) (r : Nat) : (s.countRefused r).rings = s.rings := rfl
@[simp] theorem State.countRefused_msix (s : State) (r : Nat) : (s.countRefused r).msix = s.msix := rfl
@[simp] theorem State.countRefused_restart (s : State) (r : Nat) : (s.countRefused r).restart = s.restart := rfl
@[simp] theorem State.countRefused_restartRejected (s : State) (r : Nat) : (s.countRefused r).restartRejected = s.restartRejected := rfl
@[simp] theorem State.countRefused_restartReason (s : State) (r : Nat) : (s.countRefused r).restartReason = s.restartReason := rfl
@[simp] theorem State.countRefused_ringSel (s : State) (r : Nat) : (s.countRefused r).ringSel = s.ringSel := rfl
@[simp] theorem State.countRefused_ringInfo0 (s : State) (r : Nat) : (s.countRefused r).ringInfo0 = s.ringInfo0 := rfl
@[simp] theorem State.countRefused_ringInfo1 (s : State) (r : Nat) : (s.countRefused r).ringInfo1 = s.ringInfo1 := rfl
@[simp] theorem State.countRefused_badAccess (s : State) (r : Nat) : (s.countRefused r).badAccess = s.badAccess := rfl
@[simp] theorem State.countRefused_snaps (s : State) (r : Nat) : (s.countRefused r).snaps = s.snaps := rfl
@[simp] theorem State.countRefused_held (s : State) (r : Nat) : (s.countRefused r).held = s.held := rfl
@[simp] theorem State.countRefused_cores (s : State) (r : Nat) : (s.countRefused r).cores = s.cores := rfl
@[simp] theorem State.countRefused_common (s : State) (r : Nat) : (s.countRefused r).common = s.common := rfl
@[simp] theorem State.countRefused_stackTbl (s : State) (r : Nat) : (s.countRefused r).stackTbl = s.stackTbl := rfl
@[simp] theorem State.countRefused_migrations (s : State) (r : Nat) : (s.countRefused r).migrations = s.migrations := rfl
@[simp] theorem State.countRefused_swaps (s : State) (r : Nat) : (s.countRefused r).swaps = s.swaps := rfl
@[simp] theorem State.countRefused_ingest (s : State) (r : Nat) : (s.countRefused r).ingest = s.ingest := rfl
@[simp] theorem State.countRefused_sched (s : State) (r : Nat) : (s.countRefused r).sched = s.sched := rfl
@[simp] theorem State.countRefused_stewards (s : State) (r : Nat) : (s.countRefused r).stewards = s.stewards := rfl
@[simp] theorem State.countRefused_net (s : State) (r : Nat) : (s.countRefused r).net = s.net := rfl
@[simp] theorem State.countRefused_caravan (s : State) (r : Nat) : (s.countRefused r).caravan = s.caravan := rfl
@[simp] theorem State.countRefused_time (s : State) (r : Nat) : (s.countRefused r).time = s.time := rfl
@[simp] theorem State.countRefused_sec (s : State) (r : Nat) : (s.countRefused r).sec = s.sec := rfl
@[simp] theorem State.countRefused_power (s : State) (r : Nat) : (s.countRefused r).power = s.power := rfl
@[simp] theorem State.countRefused_health (s : State) (r : Nat) : (s.countRefused r).health = s.health := rfl
@[simp] theorem State.countRefused_module (s : State) (r : Nat) : (s.countRefused r).module = s.module := rfl
@[simp] theorem State.countRefused_out (s : State) (r : Nat) : (s.countRefused r).out = s.out := rfl
@[simp] theorem State.countRefused_ring (s : State) (r : Nat) (j : Nat) : (s.countRefused r).ring j = s.ring j := rfl
@[simp] theorem State.countRefused_core (s : State) (r : Nat) (j : Nat) : (s.countRefused r).core j = s.core j := rfl
@[simp] theorem State.countRefused_stack (s : State) (r : Nat) (j : Nat) : (s.countRefused r).stack j = s.stack j := rfl
@[simp] theorem State.countRefused_pair (s : State) (r : Nat) (j : Nat) : (s.countRefused r).pair j = s.pair j := rfl
@[simp] theorem State.countRefused_fuse (s : State) (r : Nat) (j : Nat) : (s.countRefused r).fuse j = s.fuse j := rfl
@[simp] theorem State.countRefused_now (s : State) (r : Nat) : (s.countRefused r).now = s.now := rfl

/-! ## The part that an update names, read back -/

@[simp] theorem State.setRoom_room (s : State) (r : Nat) (x : Room) : (s.setRoom r x).room r = x := tget_tset_self _ _ _ _
@[simp] theorem State.setRoom_room_ne (s : State) {r j : Nat} (x : Room) (h : j ≠ r) : (s.setRoom r x).room j = s.room j := tget_tset_ne _ _ _ h
@[simp] theorem State.modRoom_room (s : State) (r : Nat) (f : Room → Room) : (s.modRoom r f).room r = f (s.room r) := tget_tset_self _ _ _ _
@[simp] theorem State.modRoom_room_ne (s : State) {r j : Nat} (f : Room → Room) (h : j ≠ r) : (s.modRoom r f).room j = s.room j :=
  tget_tset_ne _ _ _ h
@[simp] theorem State.setRing_ring (s : State) (q : Nat) (x : Ring) : (s.setRing q x).ring q = x := tget_tset_self _ _ _ _
@[simp] theorem State.setRing_ring_ne (s : State) {q j : Nat} (x : Ring) (h : j ≠ q) : (s.setRing q x).ring j = s.ring j := tget_tset_ne _ _ _ h
@[simp] theorem State.modRing_ring (s : State) (q : Nat) (f : Ring → Ring) : (s.modRing q f).ring q = f (s.ring q) := tget_tset_self _ _ _ _
@[simp] theorem State.modRing_ring_ne (s : State) {q j : Nat} (f : Ring → Ring) (h : j ≠ q) : (s.modRing q f).ring j = s.ring j :=
  tget_tset_ne _ _ _ h
@[simp] theorem State.setCore_core (s : State) (c : Nat) (x : Core) : (s.setCore c x).core c = x := tget_tset_self _ _ _ _
@[simp] theorem State.setCore_core_ne (s : State) {c j : Nat} (x : Core) (h : j ≠ c) : (s.setCore c x).core j = s.core j := tget_tset_ne _ _ _ h
@[simp] theorem State.modCore_core (s : State) (c : Nat) (f : Core → Core) : (s.modCore c f).core c = f (s.core c) := tget_tset_self _ _ _ _
@[simp] theorem State.modCore_core_ne (s : State) {c j : Nat} (f : Core → Core) (h : j ≠ c) : (s.modCore c f).core j = s.core j :=
  tget_tset_ne _ _ _ h
@[simp] theorem State.modStack_stack (s : State) (k : Nat) (f : Stack → Stack) : (s.modStack k f).stack k = f (s.stack k) := tget_tset_self _ _ _ _
@[simp] theorem State.modStack_stack_ne (s : State) {k j : Nat} (f : Stack → Stack) (h : j ≠ k) : (s.modStack k f).stack j = s.stack j :=
  tget_tset_ne _ _ _ h
@[simp] theorem State.modPair_pair (s : State) (p : Nat) (f : Pair → Pair) : (s.modPair p f).pair p = f (s.pair p) := tget_tset_self _ _ _ _
@[simp] theorem State.modPair_pair_ne (s : State) {p j : Nat} (f : Pair → Pair) (h : j ≠ p) : (s.modPair p f).pair j = s.pair j :=
  tget_tset_ne _ _ _ h
/-- With no step of device time waiting, an event moves it to the event's time. -/
theorem State.upto_now {s : State} (n : Nat) (h : s.time.stepAt = none) : (s.upto n).now = Nat.max s.now n := by
  simp [State.upto, State.now, Timebase.advance, h]

/-- Device time never runs backwards (R433). -/
theorem State.now_le_upto (s : State) (n : Nat) : s.now ≤ (s.upto n).now := by
  have h : s.time.now ≤ Nat.max s.time.now n := Nat.le_max_left _ _
  simp only [State.upto, State.now, Timebase.advance]
  repeat' split
  all_goals first
    | exact h
    | exact Nat.le_trans h (Nat.le_max_left _ _)

/-- Messages sent are a counter, a message or a pending bit: sending one changes no room. -/
@[simp] theorem State.sendMsix_rooms (s : State) (fn v : Nat) : (s.sendMsix fn v).rooms = s.rooms := by
  simp only [State.sendMsix]
  split <;> rfl

/-- Sending a message changes no ring. -/
@[simp] theorem State.sendMsix_rings (s : State) (fn v : Nat) : (s.sendMsix fn v).rings = s.rings := by
  simp only [State.sendMsix]
  split <;> rfl

/-- Sending a message changes no byte of host memory. -/
@[simp] theorem State.sendMsix_host (s : State) (fn v : Nat) : (s.sendMsix fn v).host = s.host := by
  simp only [State.sendMsix]
  split <;> rfl

end Sys2Proof.Machine
end

