-- ==== Sys2Proof/Laws/Aside.lean ====
section
/-! SUPPORT. What the release of barriers, the end of incarnations and the taking over of duties leave alone: the module, the clock, the functions, and every room's state word, turnover and grant. -/

set_option linter.all false

namespace Sys2Proof.Machine

/-- What none of these operations changes. -/
structure Aside (o t : State) : Prop where
  module : t.module = o.module
  reset : t.power.lastReset = o.power.lastReset
  time : t.time = o.time
  vfs : t.vfEnable = o.vfEnable ∧ t.numVfs = o.numVfs
  rooms : ∀ r, (t.room r).st = (o.room r).st ∧ (t.room r).turn = (o.room r).turn ∧ (t.room r).grant = (o.room r).grant ∧ (t.room r).sec.consent = (o.room r).sec.consent

theorem Aside.refl (s : State) : Aside s s := ⟨rfl, rfl, rfl, ⟨rfl, rfl⟩, fun _ => ⟨rfl, rfl, rfl, rfl⟩⟩

theorem Aside.trans {s t u : State} (h : Aside s t) (g : Aside t u) : Aside s u :=
  ⟨g.module.trans h.module, g.reset.trans h.reset, g.time.trans h.time, ⟨g.vfs.1.trans h.vfs.1, g.vfs.2.trans h.vfs.2⟩,
    fun r => ⟨(g.rooms r).1.trans (h.rooms r).1, (g.rooms r).2.1.trans (h.rooms r).2.1, (g.rooms r).2.2.1.trans (h.rooms r).2.2.1,
      (g.rooms r).2.2.2.trans (h.rooms r).2.2.2⟩⟩

theorem Aside.cut {p q : Prop} (h : p) (g : p → q) : q := g h

theorem Aside.fstEq {β : Type} {o u : State} {p : State × β} {y : β} (he : p = (u, y)) (h : Aside o p.1) : Aside o u := by
  rw [he] at h
  exact h

theorem Aside.foldl {α : Type} {o s : State} {f : State → α → State} (l : List α) (h : Aside o s)
    (hf : ∀ u x, Aside o u → Aside o (f u x)) : Aside o (l.foldl f s) := by
  induction l generalizing s with
  | nil => exact h
  | cons x r ih => exact ih (hf s x h)

theorem Aside.foldlFst {α β : Type} {o : State} {p : State × β} {f : State × β → α → State × β} (l : List α) (h : Aside o p.1)
    (hf : ∀ a x, Aside o a.1 → Aside o (f a x).1) : Aside o (l.foldl f p).1 := by
  induction l generalizing p with
  | nil => exact h
  | cons x r ih => exact ih (hf p x h)

/-- An update of parts that the relation does not speak of. -/
theorem Aside.lit_iff {o s : State} {pending' : List Instr} {fresh' : Nat} {host' : Memory} {hostRefusals' : List HostRefusal} {rings' : Tbl Ring} {msix' : Tbl MsixVec} {restart' : Option (Nat × Nat × Nat)} {restartRejected' : Bool} {restartReason' : Nat} {ringSel' : Nat} {ringInfo0' : Nat} {ringInfo1' : Nat} {badAccess' : Nat} {snaps' : Tbl (Nat × Nat × Nat)} {held' : Tbl Nat} {cores' : Tbl Core} {common' : Tbl Memory} {stackTbl' : Tbl Stack} {migrations' : Nat} {swaps' : Nat} {ingest' : Ingest} {sched' : Sched} {stewards' : Stewards} {net' : Net} {caravan' : Caravan} {sec' : Strongroom} {power' : Power} {health' : Health} {out' : List OutMsg}
    (h : power'.lastReset = s.power.lastReset) :
    Aside o ⟨pending', fresh', host', hostRefusals', s.vfEnable, s.numVfs, s.rooms, rings', msix', restart', restartRejected', restartReason', ringSel', ringInfo0', ringInfo1', badAccess', snaps', held', cores', common', stackTbl', migrations', swaps', ingest', sched', stewards', net', caravan', s.time, sec', power', health', s.module, out'⟩ ↔ Aside o s :=
  ⟨fun g => ⟨g.module, h.symm.trans g.reset, g.time, g.vfs, g.rooms⟩, fun g => ⟨g.module, h.trans g.reset, g.time, g.vfs, g.rooms⟩⟩

theorem Aside.setRoom {o : State} (s : State) (r : Nat) (x : Room) (hk : Aside o s)
    (h1 : x.st = (s.room r).st) (h2 : x.turn = (s.room r).turn) (h3 : x.grant = (s.room r).grant) (h4 : x.sec.consent = (s.room r).sec.consent) : Aside o (s.setRoom r x) := by
  refine ⟨hk.module, hk.reset, hk.time, hk.vfs, fun q => ?_⟩
  by_cases e : q = r
  · subst e
    rw [State.setRoom_room, h1, h2, h3, h4]
    exact hk.rooms q
  · rw [State.setRoom_room_ne _ _ e]
    exact hk.rooms q

theorem Aside.modRoom {o : State} (s : State) (r : Nat) (f : Room → Room) (hk : Aside o s)
    (h1 : ∀ x, (f x).st = x.st) (h2 : ∀ x, (f x).turn = x.turn) (h3 : ∀ x, (f x).grant = x.grant) (h4 : ∀ x, (f x).sec.consent = x.sec.consent) :
    Aside o (s.modRoom r f) := hk.setRoom s r _ (h1 _) (h2 _) (h3 _) (h4 _)

theorem Aside.setRing {o₀ : State} (s : State) (q : Nat) (x : Ring) (hk : Aside o₀ s) : Aside o₀ (s.setRing q x) := by
  unfold State.setRing
  repeat' first
    | with_reducible assumption
    | (with_reducible eapply Aside.fstEq; with_reducible assumption)
    | exact fun _ => rfl
    | rfl
    | (extract_lets +onlyGivenNames x; refine Aside.cut (p := Aside o₀ x) ?_ (fun hx => ?_); rotate_left; clear_value x; rotate_left; try subst x)
    | simp -zeta only [Aside.lit_iff]
    | fail_if_no_progress (extract_lets +onlyGivenNames x)
    | simp +zetaDelta only [Aside.lit_iff]
    | split
    | intro _

theorem Aside.modRing {o₀ : State} (s : State) (q : Nat) (f : Ring → Ring) (hk : Aside o₀ s) : Aside o₀ (s.modRing q f) := by
  unfold State.modRing
  repeat' first
    | with_reducible assumption
    | (with_reducible eapply Aside.fstEq; with_reducible assumption)
    | with_reducible apply Aside.setRing
    | exact fun _ => rfl
    | rfl
    | (extract_lets +onlyGivenNames x; refine Aside.cut (p := Aside o₀ x) ?_ (fun hx => ?_); rotate_left; clear_value x; rotate_left; try subst x)
    | simp -zeta only [Aside.lit_iff]
    | fail_if_no_progress (extract_lets +onlyGivenNames x)
    | simp +zetaDelta only [Aside.lit_iff]
    | split
    | intro _

theorem Aside.count {o₀ : State} (s : State) (unit i n : Nat) (hk : Aside o₀ s) : Aside o₀ (s.count unit i n) := by
  unfold State.count
  repeat' first
    | with_reducible assumption
    | (with_reducible eapply Aside.fstEq; with_reducible assumption)
    | exact fun _ => rfl
    | rfl
    | (extract_lets +onlyGivenNames x; refine Aside.cut (p := Aside o₀ x) ?_ (fun hx => ?_); rotate_left; clear_value x; rotate_left; try subst x)
    | simp -zeta only [Aside.lit_iff]
    | fail_if_no_progress (extract_lets +onlyGivenNames x)
    | simp +zetaDelta only [Aside.lit_iff]
    | split
    | intro _

theorem Aside.countRefused {o₀ : State} (s : State) (r : Nat) (hk : Aside o₀ s) : Aside o₀ (s.countRefused r) := by
  unfold State.countRefused
  repeat' first
    | with_reducible assumption
    | (with_reducible eapply Aside.fstEq; with_reducible assumption)
    | with_reducible apply Aside.modRoom
    | exact fun _ => rfl
    | rfl
    | (extract_lets +onlyGivenNames x; refine Aside.cut (p := Aside o₀ x) ?_ (fun hx => ?_); rotate_left; clear_value x; rotate_left; try subst x)
    | simp -zeta only [Aside.lit_iff]
    | fail_if_no_progress (extract_lets +onlyGivenNames x)
    | simp +zetaDelta only [Aside.lit_iff]
    | split
    | intro _

theorem Aside.emit {o₀ : State} (s : State) (m : OutMsg) (hk : Aside o₀ s) : Aside o₀ (s.emit m) := by
  unfold State.emit
  repeat' first
    | with_reducible assumption
    | (with_reducible eapply Aside.fstEq; with_reducible assumption)
    | exact fun _ => rfl
    | rfl
    | (extract_lets +onlyGivenNames x; refine Aside.cut (p := Aside o₀ x) ?_ (fun hx => ?_); rotate_left; clear_value x; rotate_left; try subst x)
    | simp -zeta only [Aside.lit_iff]
    | fail_if_no_progress (extract_lets +onlyGivenNames x)
    | simp +zetaDelta only [Aside.lit_iff]
    | split
    | intro _

theorem Aside.sendMsix {o₀ : State} (s : State) (fn v : Nat) (hk : Aside o₀ s) : Aside o₀ (s.sendMsix fn v) := by
  unfold State.sendMsix
  repeat' first
    | with_reducible assumption
    | (with_reducible eapply Aside.fstEq; with_reducible assumption)
    | with_reducible apply Aside.emit
    | exact fun _ => rfl
    | rfl
    | (extract_lets +onlyGivenNames x; refine Aside.cut (p := Aside o₀ x) ?_ (fun hx => ?_); rotate_left; clear_value x; rotate_left; try subst x)
    | simp -zeta only [Aside.lit_iff]
    | fail_if_no_progress (extract_lets +onlyGivenNames x)
    | simp +zetaDelta only [Aside.lit_iff]
    | split
    | intro _

theorem Aside.hostPut {o₀ : State} (s : State) (a : Nat) (bs : List Byte) (hk : Aside o₀ s) : Aside o₀ (s.hostPut a bs) := by
  unfold State.hostPut
  repeat' first
    | with_reducible assumption
    | (with_reducible eapply Aside.fstEq; with_reducible assumption)
    | exact fun _ => rfl
    | rfl
    | (extract_lets +onlyGivenNames x; refine Aside.cut (p := Aside o₀ x) ?_ (fun hx => ?_); rotate_left; clear_value x; rotate_left; try subst x)
    | simp -zeta only [Aside.lit_iff]
    | fail_if_no_progress (extract_lets +onlyGivenNames x)
    | simp +zetaDelta only [Aside.lit_iff]
    | split
    | intro _

theorem Aside.writeRecord {o₀ : State} (s : State) (cq : Nat) (h : Held) (hk : Aside o₀ s) : Aside o₀ (s.writeRecord cq h) := by
  unfold State.writeRecord
  repeat' first
    | with_reducible assumption
    | (with_reducible eapply Aside.fstEq; with_reducible assumption)
    | with_reducible apply Aside.count
    | with_reducible apply Aside.setRing
    | with_reducible apply Aside.countRefused
    | with_reducible apply Aside.modRoom
    | with_reducible apply Aside.sendMsix
    | with_reducible apply Aside.hostPut
    | exact fun _ => rfl
    | rfl
    | (extract_lets +onlyGivenNames x; refine Aside.cut (p := Aside o₀ x) ?_ (fun hx => ?_); rotate_left; clear_value x; rotate_left; try subst x)
    | simp -zeta only [Aside.lit_iff]
    | fail_if_no_progress (extract_lets +onlyGivenNames x)
    | simp +zetaDelta only [Aside.lit_iff]
    | split
    | intro _

theorem Aside.postHeld {o₀ : State} (s : State) (cq : Nat) (h : Held) (hk : Aside o₀ s) : Aside o₀ (s.postHeld cq h) := by
  unfold State.postHeld
  repeat' first
    | with_reducible assumption
    | (with_reducible eapply Aside.fstEq; with_reducible assumption)
    | with_reducible apply Aside.setRing
    | with_reducible apply Aside.writeRecord
    | exact fun _ => rfl
    | rfl
    | (extract_lets +onlyGivenNames x; refine Aside.cut (p := Aside o₀ x) ?_ (fun hx => ?_); rotate_left; clear_value x; rotate_left; try subst x)
    | simp -zeta only [Aside.lit_iff]
    | fail_if_no_progress (extract_lets +onlyGivenNames x)
    | simp +zetaDelta only [Aside.lit_iff]
    | split
    | intro _

theorem Aside.post {o₀ : State} (s : State) (cq index ring : Nat) (rev now_ reserved : Bool) (status aux detail result0 result1 : Nat) (hk : Aside o₀ s) : Aside o₀ (s.post cq index ring rev now_ reserved status aux detail result0 result1) := by
  unfold State.post
  repeat' first
    | with_reducible assumption
    | (with_reducible eapply Aside.fstEq; with_reducible assumption)
    | with_reducible apply Aside.postHeld
    | exact fun _ => rfl
    | rfl
    | (extract_lets +onlyGivenNames x; refine Aside.cut (p := Aside o₀ x) ?_ (fun hx => ?_); rotate_left; clear_value x; rotate_left; try subst x)
    | simp -zeta only [Aside.lit_iff]
    | fail_if_no_progress (extract_lets +onlyGivenNames x)
    | simp +zetaDelta only [Aside.lit_iff]
    | split
    | intro _

theorem Aside.complete {o₀ : State} (s : State) (ring seq status detail result0 result1 aux : Nat) (hk : Aside o₀ s) : Aside o₀ (s.complete ring seq status detail result0 result1 aux) := by
  unfold State.complete
  repeat' first
    | with_reducible assumption
    | (with_reducible eapply Aside.fstEq; with_reducible assumption)
    | with_reducible apply Aside.setRing
    | with_reducible apply Aside.post
    | exact fun _ => rfl
    | rfl
    | (extract_lets +onlyGivenNames x; refine Aside.cut (p := Aside o₀ x) ?_ (fun hx => ?_); rotate_left; clear_value x; rotate_left; try subst x)
    | simp -zeta only [Aside.lit_iff]
    | fail_if_no_progress (extract_lets +onlyGivenNames x)
    | simp +zetaDelta only [Aside.lit_iff]
    | split
    | intro _

theorem Aside.haltRing {o₀ : State} (s : State) (q status detail : Nat) (hk : Aside o₀ s) : Aside o₀ (s.haltRing q status detail) := by
  unfold State.haltRing
  repeat' first
    | with_reducible assumption
    | (with_reducible eapply Aside.fstEq; with_reducible assumption)
    | with_reducible apply Aside.setRing
    | with_reducible apply Aside.post
    | with_reducible apply Aside.count
    | exact fun _ => rfl
    | rfl
    | (extract_lets +onlyGivenNames x; refine Aside.cut (p := Aside o₀ x) ?_ (fun hx => ?_); rotate_left; clear_value x; rotate_left; try subst x)
    | simp -zeta only [Aside.lit_iff]
    | fail_if_no_progress (extract_lets +onlyGivenNames x)
    | simp +zetaDelta only [Aside.lit_iff]
    | split
    | intro _

theorem Aside.reread {o₀ : State} (s : State) (ring : Nat) (hk : Aside o₀ s) : Aside o₀ (s.reread ring) := by
  unfold State.reread
  repeat' first
    | with_reducible assumption
    | (with_reducible eapply Aside.fstEq; with_reducible assumption)
    | with_reducible apply Aside.modRing
    | with_reducible apply Aside.complete
    | with_reducible apply Aside.countRefused
    | with_reducible apply Aside.haltRing
    | with_reducible apply Aside.foldl
    | with_reducible apply Aside.foldlFst
    | exact fun _ => rfl
    | rfl
    | (extract_lets +onlyGivenNames x; refine Aside.cut (p := Aside o₀ x) ?_ (fun hx => ?_); rotate_left; clear_value x; rotate_left; try subst x)
    | simp -zeta only [Aside.lit_iff]
    | fail_if_no_progress (extract_lets +onlyGivenNames x)
    | simp +zetaDelta only [Aside.lit_iff]
    | split
    | intro _

theorem Aside.setJob {o₀ : State} (s : State) (tag : Nat) (h : HeadJob) (hk : Aside o₀ s) : Aside o₀ (s.setJob tag h) := by
  unfold State.setJob
  repeat' first
    | with_reducible assumption
    | (with_reducible eapply Aside.fstEq; with_reducible assumption)
    | exact fun _ => rfl
    | rfl
    | (extract_lets +onlyGivenNames x; refine Aside.cut (p := Aside o₀ x) ?_ (fun hx => ?_); rotate_left; clear_value x; rotate_left; try subst x)
    | simp -zeta only [Aside.lit_iff]
    | fail_if_no_progress (extract_lets +onlyGivenNames x)
    | simp +zetaDelta only [Aside.lit_iff]
    | split
    | intro _

theorem Aside.flushHealth {o₀ : State} (s : State) (hk : Aside o₀ s) : Aside o₀ (s.flushHealth) := by
  unfold State.flushHealth
  repeat' first
    | with_reducible assumption
    | (with_reducible eapply Aside.fstEq; with_reducible assumption)
    | exact fun _ => rfl
    | rfl
    | (extract_lets +onlyGivenNames x; refine Aside.cut (p := Aside o₀ x) ?_ (fun hx => ?_); rotate_left; clear_value x; rotate_left; try subst x)
    | simp -zeta only [Aside.lit_iff]
    | fail_if_no_progress (extract_lets +onlyGivenNames x)
    | simp +zetaDelta only [Aside.lit_iff]
    | split
    | intro _

theorem Aside.healthRecord {o₀ : State} (s : State) (kind code unit room value : Nat) (hk : Aside o₀ s) : Aside o₀ (s.healthRecord kind code unit room value) := by
  unfold State.healthRecord
  repeat' first
    | with_reducible assumption
    | (with_reducible eapply Aside.fstEq; with_reducible assumption)
    | with_reducible apply Aside.flushHealth
    | exact fun _ => rfl
    | rfl
    | (extract_lets +onlyGivenNames x; refine Aside.cut (p := Aside o₀ x) ?_ (fun hx => ?_); rotate_left; clear_value x; rotate_left; try subst x)
    | simp -zeta only [Aside.lit_iff]
    | fail_if_no_progress (extract_lets +onlyGivenNames x)
    | simp +zetaDelta only [Aside.lit_iff]
    | split
    | intro _

theorem Aside.audit {o₀ : State} (s : State) (atype role slot room code : Nat) (data : List Byte) (hk : Aside o₀ s) : Aside o₀ (s.audit atype role slot room code data) := by
  unfold State.audit
  repeat' first
    | with_reducible assumption
    | (with_reducible eapply Aside.fstEq; with_reducible assumption)
    | exact fun _ => rfl
    | rfl
    | (extract_lets +onlyGivenNames x; refine Aside.cut (p := Aside o₀ x) ?_ (fun hx => ?_); rotate_left; clear_value x; rotate_left; try subst x)
    | simp -zeta only [Aside.lit_iff]
    | fail_if_no_progress (extract_lets +onlyGivenNames x)
    | simp +zetaDelta only [Aside.lit_iff]
    | split
    | intro _

theorem Aside.noteLags {o₀ : State} (s : State) (tag : Nat) (l : List BarEntry) (hk : Aside o₀ s) : Aside o₀ (s.noteLags tag l) := by
  unfold State.noteLags
  repeat' first
    | with_reducible assumption
    | (with_reducible eapply Aside.fstEq; with_reducible assumption)
    | with_reducible apply Aside.healthRecord
    | with_reducible apply Aside.audit
    | with_reducible apply Aside.foldl
    | with_reducible apply Aside.foldlFst
    | exact fun _ => rfl
    | rfl
    | (extract_lets +onlyGivenNames x; refine Aside.cut (p := Aside o₀ x) ?_ (fun hx => ?_); rotate_left; clear_value x; rotate_left; try subst x)
    | simp -zeta only [Aside.lit_iff]
    | fail_if_no_progress (extract_lets +onlyGivenNames x)
    | simp +zetaDelta only [Aside.lit_iff]
    | split
    | intro _

theorem Aside.sendOut {o₀ : State} (s : State) (key : Nat) (p : Pkt) (hk : Aside o₀ s) : Aside o₀ (s.sendOut key p) := by
  unfold State.sendOut
  repeat' first
    | with_reducible assumption
    | (with_reducible eapply Aside.fstEq; with_reducible assumption)
    | with_reducible apply Aside.emit
    | exact fun _ => rfl
    | rfl
    | (extract_lets +onlyGivenNames x; refine Aside.cut (p := Aside o₀ x) ?_ (fun hx => ?_); rotate_left; clear_value x; rotate_left; try subst x)
    | simp -zeta only [Aside.lit_iff]
    | fail_if_no_progress (extract_lets +onlyGivenNames x)
    | simp +zetaDelta only [Aside.lit_iff]
    | split
    | intro _

theorem Aside.ctrlSend {o₀ : State} (s : State) (hop far ctype cjob cinc : Nat) (cseq : Option Nat) (body : List Byte) (hk : Aside o₀ s) : Aside o₀ (s.ctrlSend hop far ctype cjob cinc cseq body) := by
  unfold State.ctrlSend
  repeat' first
    | with_reducible assumption
    | (with_reducible eapply Aside.fstEq; with_reducible assumption)
    | with_reducible apply Aside.sendOut
    | exact fun _ => rfl
    | rfl
    | (extract_lets +onlyGivenNames x; refine Aside.cut (p := Aside o₀ x) ?_ (fun hx => ?_); rotate_left; clear_value x; rotate_left; try subst x)
    | simp -zeta only [Aside.lit_iff]
    | fail_if_no_progress (extract_lets +onlyGivenNames x)
    | simp +zetaDelta only [Aside.lit_iff]
    | split
    | intro _

theorem Aside.modMem {o₀ : State} (s : State) (r : Nat) (f : RoomMem → RoomMem) (hk : Aside o₀ s) : Aside o₀ (s.modMem r f) := by
  unfold State.modMem
  repeat' first
    | with_reducible assumption
    | (with_reducible eapply Aside.fstEq; with_reducible assumption)
    | with_reducible apply Aside.modRoom
    | exact fun _ => rfl
    | rfl
    | (extract_lets +onlyGivenNames x; refine Aside.cut (p := Aside o₀ x) ?_ (fun hx => ?_); rotate_left; clear_value x; rotate_left; try subst x)
    | simp -zeta only [Aside.lit_iff]
    | fail_if_no_progress (extract_lets +onlyGivenNames x)
    | simp +zetaDelta only [Aside.lit_iff]
    | split
    | intro _

theorem Aside.stall {o₀ : State} (s : State) (r cause ns : Nat) (hk : Aside o₀ s) : Aside o₀ (s.stall r cause ns) := by
  unfold State.stall
  repeat' first
    | with_reducible assumption
    | (with_reducible eapply Aside.fstEq; with_reducible assumption)
    | with_reducible apply Aside.modRoom
    | exact fun _ => rfl
    | rfl
    | (extract_lets +onlyGivenNames x; refine Aside.cut (p := Aside o₀ x) ?_ (fun hx => ?_); rotate_left; clear_value x; rotate_left; try subst x)
    | simp -zeta only [Aside.lit_iff]
    | fail_if_no_progress (extract_lets +onlyGivenNames x)
    | simp +zetaDelta only [Aside.lit_iff]
    | split
    | intro _

theorem Aside.stallBarrier {o₀ : State} (s : State) (r cause : Nat) (hk : Aside o₀ s) : Aside o₀ (s.stallBarrier r cause) := by
  unfold State.stallBarrier
  repeat' first
    | with_reducible assumption
    | (with_reducible eapply Aside.fstEq; with_reducible assumption)
    | with_reducible apply Aside.stall
    | with_reducible apply Aside.foldl
    | with_reducible apply Aside.foldlFst
    | exact fun _ => rfl
    | rfl
    | (extract_lets +onlyGivenNames x; refine Aside.cut (p := Aside o₀ x) ?_ (fun hx => ?_); rotate_left; clear_value x; rotate_left; try subst x)
    | simp -zeta only [Aside.lit_iff]
    | fail_if_no_progress (extract_lets +onlyGivenNames x)
    | simp +zetaDelta only [Aside.lit_iff]
    | split
    | intro _

theorem Aside.snapWaited {o₀ : State} (s : State) (r : Nat) (hk : Aside o₀ s) : Aside o₀ (s.snapWaited r) := by
  unfold State.snapWaited
  repeat' first
    | with_reducible assumption
    | (with_reducible eapply Aside.fstEq; with_reducible assumption)
    | with_reducible apply Aside.stallBarrier
    | with_reducible apply Aside.modRoom
    | exact fun _ => rfl
    | rfl
    | (extract_lets +onlyGivenNames x; refine Aside.cut (p := Aside o₀ x) ?_ (fun hx => ?_); rotate_left; clear_value x; rotate_left; try subst x)
    | simp -zeta only [Aside.lit_iff]
    | fail_if_no_progress (extract_lets +onlyGivenNames x)
    | simp +zetaDelta only [Aside.lit_iff]
    | split
    | intro _

theorem Aside.modLedger {o₀ : State} (s : State) (r : Nat) (f : Ledger → Ledger) (hk : Aside o₀ s) : Aside o₀ (s.modLedger r f) := by
  unfold State.modLedger
  repeat' first
    | with_reducible assumption
    | (with_reducible eapply Aside.fstEq; with_reducible assumption)
    | with_reducible apply Aside.modRoom
    | exact fun _ => rfl
    | rfl
    | (extract_lets +onlyGivenNames x; refine Aside.cut (p := Aside o₀ x) ?_ (fun hx => ?_); rotate_left; clear_value x; rotate_left; try subst x)
    | simp -zeta only [Aside.lit_iff]
    | fail_if_no_progress (extract_lets +onlyGivenNames x)
    | simp +zetaDelta only [Aside.lit_iff]
    | split
    | intro _

theorem Aside.charge {o₀ : State} (s : State) (r i n : Nat) (hk : Aside o₀ s) : Aside o₀ (s.charge r i n) := by
  unfold State.charge
  repeat' first
    | with_reducible assumption
    | (with_reducible eapply Aside.fstEq; with_reducible assumption)
    | with_reducible apply Aside.modLedger
    | exact fun _ => rfl
    | rfl
    | (extract_lets +onlyGivenNames x; refine Aside.cut (p := Aside o₀ x) ?_ (fun hx => ?_); rotate_left; clear_value x; rotate_left; try subst x)
    | simp -zeta only [Aside.lit_iff]
    | fail_if_no_progress (extract_lets +onlyGivenNames x)
    | simp +zetaDelta only [Aside.lit_iff]
    | split
    | intro _

theorem Aside.setCore {o₀ : State} (s : State) (c : Nat) (x : Core) (hk : Aside o₀ s) : Aside o₀ (s.setCore c x) := by
  unfold State.setCore
  repeat' first
    | with_reducible assumption
    | (with_reducible eapply Aside.fstEq; with_reducible assumption)
    | exact fun _ => rfl
    | rfl
    | (extract_lets +onlyGivenNames x; refine Aside.cut (p := Aside o₀ x) ?_ (fun hx => ?_); rotate_left; clear_value x; rotate_left; try subst x)
    | simp -zeta only [Aside.lit_iff]
    | fail_if_no_progress (extract_lets +onlyGivenNames x)
    | simp +zetaDelta only [Aside.lit_iff]
    | split
    | intro _

theorem Aside.spend {o₀ : State} (s : State) (arb r used : Nat) (hk : Aside o₀ s) : Aside o₀ (s.spend arb r used) := by
  unfold State.spend
  repeat' first
    | with_reducible assumption
    | (with_reducible eapply Aside.fstEq; with_reducible assumption)
    | exact fun _ => rfl
    | rfl
    | (extract_lets +onlyGivenNames x; refine Aside.cut (p := Aside o₀ x) ?_ (fun hx => ?_); rotate_left; clear_value x; rotate_left; try subst x)
    | simp -zeta only [Aside.lit_iff]
    | fail_if_no_progress (extract_lets +onlyGivenNames x)
    | simp +zetaDelta only [Aside.lit_iff]
    | split
    | intro _

theorem Aside.chargeCore {o₀ : State} (s : State) (core r ns : Nat) (hk : Aside o₀ s) : Aside o₀ (s.chargeCore core r ns) := by
  unfold State.chargeCore
  repeat' first
    | with_reducible assumption
    | (with_reducible eapply Aside.fstEq; with_reducible assumption)
    | with_reducible apply Aside.charge
    | with_reducible apply Aside.spend
    | exact fun _ => rfl
    | rfl
    | (extract_lets +onlyGivenNames x; refine Aside.cut (p := Aside o₀ x) ?_ (fun hx => ?_); rotate_left; clear_value x; rotate_left; try subst x)
    | simp -zeta only [Aside.lit_iff]
    | fail_if_no_progress (extract_lets +onlyGivenNames x)
    | simp +zetaDelta only [Aside.lit_iff]
    | split
    | intro _

theorem Aside.account {o₀ : State} (s : State) (core : Nat) (hk : Aside o₀ s) : Aside o₀ (s.account core) := by
  unfold State.account
  repeat' first
    | with_reducible assumption
    | (with_reducible eapply Aside.fstEq; with_reducible assumption)
    | with_reducible apply Aside.setCore
    | with_reducible apply Aside.chargeCore
    | with_reducible apply Aside.stall
    | exact fun _ => rfl
    | rfl
    | (extract_lets +onlyGivenNames x; refine Aside.cut (p := Aside o₀ x) ?_ (fun hx => ?_); rotate_left; clear_value x; rotate_left; try subst x)
    | simp -zeta only [Aside.lit_iff]
    | fail_if_no_progress (extract_lets +onlyGivenNames x)
    | simp +zetaDelta only [Aside.lit_iff]
    | split
    | intro _

theorem Aside.accountRoom {o₀ : State} (s : State) (r : Nat) (hk : Aside o₀ s) : Aside o₀ (s.accountRoom r) := by
  unfold State.accountRoom
  repeat' first
    | with_reducible assumption
    | (with_reducible eapply Aside.fstEq; with_reducible assumption)
    | with_reducible apply Aside.account
    | with_reducible apply Aside.foldl
    | with_reducible apply Aside.foldlFst
    | exact fun _ => rfl
    | rfl
    | (extract_lets +onlyGivenNames x; refine Aside.cut (p := Aside o₀ x) ?_ (fun hx => ?_); rotate_left; clear_value x; rotate_left; try subst x)
    | simp -zeta only [Aside.lit_iff]
    | fail_if_no_progress (extract_lets +onlyGivenNames x)
    | simp +zetaDelta only [Aside.lit_iff]
    | split
    | intro _

theorem Aside.freeCores {o₀ : State} (s : State) (r : Nat) (hk : Aside o₀ s) : Aside o₀ (s.freeCores r) := by
  unfold State.freeCores
  repeat' first
    | with_reducible assumption
    | (with_reducible eapply Aside.fstEq; with_reducible assumption)
    | with_reducible apply Aside.accountRoom
    | exact fun _ => rfl
    | rfl
    | (extract_lets +onlyGivenNames x; refine Aside.cut (p := Aside o₀ x) ?_ (fun hx => ?_); rotate_left; clear_value x; rotate_left; try subst x)
    | simp -zeta only [Aside.lit_iff]
    | fail_if_no_progress (extract_lets +onlyGivenNames x)
    | simp +zetaDelta only [Aside.lit_iff]
    | split
    | intro _

theorem Aside.cutEngines {o₀ : State} (s : State) (r : Nat) (hk : Aside o₀ s) : Aside o₀ (s.cutEngines r) := by
  unfold State.cutEngines
  repeat' first
    | with_reducible assumption
    | (with_reducible eapply Aside.fstEq; with_reducible assumption)
    | with_reducible apply Aside.modRoom
    | exact fun _ => rfl
    | rfl
    | (extract_lets +onlyGivenNames x; refine Aside.cut (p := Aside o₀ x) ?_ (fun hx => ?_); rotate_left; clear_value x; rotate_left; try subst x)
    | simp -zeta only [Aside.lit_iff]
    | fail_if_no_progress (extract_lets +onlyGivenNames x)
    | simp +zetaDelta only [Aside.lit_iff]
    | split
    | intro _

theorem Aside.cutSnap {o₀ : State} (s : State) (r : Nat) (hk : Aside o₀ s) : Aside o₀ (s.cutSnap r) := by
  unfold State.cutSnap
  repeat' first
    | with_reducible assumption
    | (with_reducible eapply Aside.fstEq; with_reducible assumption)
    | with_reducible apply Aside.modMem
    | exact fun _ => rfl
    | rfl
    | (extract_lets +onlyGivenNames x; refine Aside.cut (p := Aside o₀ x) ?_ (fun hx => ?_); rotate_left; clear_value x; rotate_left; try subst x)
    | simp -zeta only [Aside.lit_iff]
    | fail_if_no_progress (extract_lets +onlyGivenNames x)
    | simp +zetaDelta only [Aside.lit_iff]
    | split
    | intro _

theorem Aside.latch {o₀ : State} (s : State) (r code unit : Nat) (j : Job) (hk : Aside o₀ s) : Aside o₀ (s.latch r code unit j) := by
  unfold State.latch
  repeat' first
    | with_reducible assumption
    | (with_reducible eapply Aside.fstEq; with_reducible assumption)
    | with_reducible apply Aside.modRoom
    | with_reducible apply Aside.charge
    | with_reducible apply Aside.healthRecord
    | with_reducible apply Aside.freeCores
    | with_reducible apply Aside.cutEngines
    | with_reducible apply Aside.cutSnap
    | exact fun _ => rfl
    | rfl
    | (extract_lets +onlyGivenNames x; refine Aside.cut (p := Aside o₀ x) ?_ (fun hx => ?_); rotate_left; clear_value x; rotate_left; try subst x)
    | simp -zeta only [Aside.lit_iff]
    | fail_if_no_progress (extract_lets +onlyGivenNames x)
    | simp +zetaDelta only [Aside.lit_iff]
    | split
    | intro _

theorem Aside.done {o₀ : State} (s : State) (ring : Nat) (d : Desc) (status detail : Nat) (hk : Aside o₀ s) : Aside o₀ (s.done ring d status detail) := by
  unfold State.done
  repeat' first
    | with_reducible assumption
    | (with_reducible eapply Aside.fstEq; with_reducible assumption)
    | with_reducible apply Aside.complete
    | exact fun _ => rfl
    | rfl
    | (extract_lets +onlyGivenNames x; refine Aside.cut (p := Aside o₀ x) ?_ (fun hx => ?_); rotate_left; clear_value x; rotate_left; try subst x)
    | simp -zeta only [Aside.lit_iff]
    | fail_if_no_progress (extract_lets +onlyGivenNames x)
    | simp +zetaDelta only [Aside.lit_iff]
    | split
    | intro _

theorem Aside.dropWaiters {o₀ : State} (s : State) (r : Nat) (hk : Aside o₀ s) : Aside o₀ (s.dropWaiters r) := by
  unfold State.dropWaiters
  repeat' first
    | with_reducible assumption
    | (with_reducible eapply Aside.fstEq; with_reducible assumption)
    | with_reducible apply Aside.modRoom
    | exact fun _ => rfl
    | rfl
    | (extract_lets +onlyGivenNames x; refine Aside.cut (p := Aside o₀ x) ?_ (fun hx => ?_); rotate_left; clear_value x; rotate_left; try subst x)
    | simp -zeta only [Aside.lit_iff]
    | fail_if_no_progress (extract_lets +onlyGivenNames x)
    | simp +zetaDelta only [Aside.lit_iff]
    | split
    | intro _

theorem Aside.finish {o₀ : State} (s : State) (l : List Done) (hk : Aside o₀ s) : Aside o₀ (s.finish l) := by
  unfold State.finish
  repeat' first
    | with_reducible assumption
    | (with_reducible eapply Aside.fstEq; with_reducible assumption)
    | with_reducible apply Aside.complete
    | with_reducible apply Aside.foldl
    | with_reducible apply Aside.foldlFst
    | exact fun _ => rfl
    | rfl
    | (extract_lets +onlyGivenNames x; refine Aside.cut (p := Aside o₀ x) ?_ (fun hx => ?_); rotate_left; clear_value x; rotate_left; try subst x)
    | simp -zeta only [Aside.lit_iff]
    | fail_if_no_progress (extract_lets +onlyGivenNames x)
    | simp +zetaDelta only [Aside.lit_iff]
    | split
    | intro _

theorem Aside.thawRings {o₀ : State} (s : State) (p : Nat → Bool) (a b : RingSt) (hk : Aside o₀ s) : Aside o₀ (s.thawRings p a b) := by
  unfold State.thawRings
  repeat' first
    | with_reducible assumption
    | (with_reducible eapply Aside.fstEq; with_reducible assumption)
    | exact fun _ => rfl
    | rfl
    | (extract_lets +onlyGivenNames x; refine Aside.cut (p := Aside o₀ x) ?_ (fun hx => ?_); rotate_left; clear_value x; rotate_left; try subst x)
    | simp -zeta only [Aside.lit_iff]
    | fail_if_no_progress (extract_lets +onlyGivenNames x)
    | simp +zetaDelta only [Aside.lit_iff]
    | split
    | intro _

theorem Aside.passRooms {o₀ : State} (s : State) (k : Nat) (hk : Aside o₀ s) : Aside o₀ (s.passRooms k) := by
  unfold State.passRooms
  repeat' first
    | with_reducible assumption
    | (with_reducible eapply Aside.fstEq; with_reducible assumption)
    | with_reducible apply Aside.thawRings
    | exact fun _ => rfl
    | rfl
    | (extract_lets +onlyGivenNames x; refine Aside.cut (p := Aside o₀ x) ?_ (fun hx => ?_); rotate_left; clear_value x; rotate_left; try subst x)
    | simp -zeta only [Aside.lit_iff]
    | fail_if_no_progress (extract_lets +onlyGivenNames x)
    | simp +zetaDelta only [Aside.lit_iff]
    | split
    | intro _

theorem Aside.passDevice {o₀ : State} (s : State) (hk : Aside o₀ s) : Aside o₀ (s.passDevice) := by
  unfold State.passDevice
  repeat' first
    | with_reducible assumption
    | (with_reducible eapply Aside.fstEq; with_reducible assumption)
    | with_reducible apply Aside.flushHealth
    | exact fun _ => rfl
    | rfl
    | (extract_lets +onlyGivenNames x; refine Aside.cut (p := Aside o₀ x) ?_ (fun hx => ?_); rotate_left; clear_value x; rotate_left; try subst x)
    | simp -zeta only [Aside.lit_iff]
    | fail_if_no_progress (extract_lets +onlyGivenNames x)
    | simp +zetaDelta only [Aside.lit_iff]
    | split
    | intro _

theorem Aside.passDuties {o₀ : State} (s : State) (hk : Aside o₀ s) : Aside o₀ (s.passDuties) := by
  unfold State.passDuties
  repeat' first
    | with_reducible assumption
    | (with_reducible eapply Aside.fstEq; with_reducible assumption)
    | with_reducible apply Aside.passRooms
    | with_reducible apply Aside.passDevice
    | with_reducible apply Aside.foldl
    | with_reducible apply Aside.foldlFst
    | exact fun _ => rfl
    | rfl
    | (extract_lets +onlyGivenNames x; refine Aside.cut (p := Aside o₀ x) ?_ (fun hx => ?_); rotate_left; clear_value x; rotate_left; try subst x)
    | simp -zeta only [Aside.lit_iff]
    | fail_if_no_progress (extract_lets +onlyGivenNames x)
    | simp +zetaDelta only [Aside.lit_iff]
    | split
    | intro _

theorem Aside.endJob {o₀ : State} (s : State) (r status detail : Nat) (done : List Done) (last : Option Nat) (hk : Aside o₀ s) : Aside o₀ (s.endJob r status detail done last) := by
  unfold State.endJob
  repeat' first
    | with_reducible assumption
    | (with_reducible eapply Aside.fstEq; with_reducible assumption)
    | with_reducible apply Aside.done
    | with_reducible apply Aside.freeCores
    | with_reducible apply Aside.cutEngines
    | with_reducible apply Aside.cutSnap
    | with_reducible apply Aside.dropWaiters
    | with_reducible apply Aside.modRoom
    | with_reducible apply Aside.finish
    | with_reducible apply Aside.complete
    | with_reducible apply Aside.passDuties
    | exact fun _ => rfl
    | rfl
    | (extract_lets +onlyGivenNames x; refine Aside.cut (p := Aside o₀ x) ?_ (fun hx => ?_); rotate_left; clear_value x; rotate_left; try subst x)
    | simp -zeta only [Aside.lit_iff]
    | fail_if_no_progress (extract_lets +onlyGivenNames x)
    | simp +zetaDelta only [Aside.lit_iff]
    | split
    | intro _

theorem Aside.ctrlDown {o₀ : State} (s : State) (mid ctype cjob cinc : Nat) (cseq : Option Nat) (body : List Byte) (hk : Aside o₀ s) : Aside o₀ (s.ctrlDown mid ctype cjob cinc cseq body) := by
  unfold State.ctrlDown
  repeat' first
    | with_reducible assumption
    | (with_reducible eapply Aside.fstEq; with_reducible assumption)
    | with_reducible apply Aside.ctrlSend
    | exact fun _ => rfl
    | rfl
    | (extract_lets +onlyGivenNames x; refine Aside.cut (p := Aside o₀ x) ?_ (fun hx => ?_); rotate_left; clear_value x; rotate_left; try subst x)
    | simp -zeta only [Aside.lit_iff]
    | fail_if_no_progress (extract_lets +onlyGivenNames x)
    | simp +zetaDelta only [Aside.lit_iff]
    | split
    | intro _

theorem Aside.abortRoom {o₀ : State} (s : State) (r code : Nat) (last : Option Nat) (hk : Aside o₀ s) : Aside o₀ (s.abortRoom r code last) := by
  unfold State.abortRoom
  repeat' first
    | with_reducible assumption
    | (with_reducible eapply Aside.fstEq; with_reducible assumption)
    | with_reducible apply Aside.latch
    | with_reducible apply Aside.endJob
    | with_reducible apply Aside.modRoom
    | exact fun _ => rfl
    | rfl
    | (extract_lets +onlyGivenNames x; refine Aside.cut (p := Aside o₀ x) ?_ (fun hx => ?_); rotate_left; clear_value x; rotate_left; try subst x)
    | simp -zeta only [Aside.lit_iff]
    | fail_if_no_progress (extract_lets +onlyGivenNames x)
    | simp +zetaDelta only [Aside.lit_iff]
    | split
    | intro _

theorem Aside.headAbort {o₀ : State} (s : State) (tag rank code : Nat) (hk : Aside o₀ s) : Aside o₀ (s.headAbort tag rank code) := by
  unfold State.headAbort
  repeat' first
    | with_reducible assumption
    | (with_reducible eapply Aside.fstEq; with_reducible assumption)
    | with_reducible apply Aside.healthRecord
    | with_reducible apply Aside.ctrlDown
    | with_reducible apply Aside.abortRoom
    | with_reducible apply Aside.foldl
    | with_reducible apply Aside.foldlFst
    | exact fun _ => rfl
    | rfl
    | (extract_lets +onlyGivenNames x; refine Aside.cut (p := Aside o₀ x) ?_ (fun hx => ?_); rotate_left; clear_value x; rotate_left; try subst x)
    | simp -zeta only [Aside.lit_iff]
    | fail_if_no_progress (extract_lets +onlyGivenNames x)
    | simp +zetaDelta only [Aside.lit_iff]
    | split
    | intro _

theorem Aside.ctrlUp {o₀ : State} (s : State) (ctype cjob cinc : Nat) (cseq : Option Nat) (body : List Byte) (hk : Aside o₀ s) : Aside o₀ (s.ctrlUp ctype cjob cinc cseq body) := by
  unfold State.ctrlUp
  repeat' first
    | with_reducible assumption
    | (with_reducible eapply Aside.fstEq; with_reducible assumption)
    | with_reducible apply Aside.ctrlSend
    | exact fun _ => rfl
    | rfl
    | (extract_lets +onlyGivenNames x; refine Aside.cut (p := Aside o₀ x) ?_ (fun hx => ?_); rotate_left; clear_value x; rotate_left; try subst x)
    | simp -zeta only [Aside.lit_iff]
    | fail_if_no_progress (extract_lets +onlyGivenNames x)
    | simp +zetaDelta only [Aside.lit_iff]
    | split
    | intro _

theorem Aside.raiseFault {o₀ : State} (s : State) (r code unit : Nat) (hk : Aside o₀ s) : Aside o₀ (s.raiseFault r code unit) := by
  unfold State.raiseFault
  repeat' first
    | with_reducible assumption
    | (with_reducible eapply Aside.fstEq; with_reducible assumption)
    | with_reducible apply Aside.modRoom
    | with_reducible apply Aside.latch
    | with_reducible apply Aside.endJob
    | with_reducible apply Aside.headAbort
    | with_reducible apply Aside.ctrlUp
    | exact fun _ => rfl
    | rfl
    | (extract_lets +onlyGivenNames x; refine Aside.cut (p := Aside o₀ x) ?_ (fun hx => ?_); rotate_left; clear_value x; rotate_left; try subst x)
    | simp -zeta only [Aside.lit_iff]
    | fail_if_no_progress (extract_lets +onlyGivenNames x)
    | simp +zetaDelta only [Aside.lit_iff]
    | split
    | intro _

theorem Aside.markSnap {o₀ : State} (s : State) (r : Nat) (j : Job) (hk : Aside o₀ s) : Aside o₀ (s.markSnap r j) := by
  unfold State.markSnap
  repeat' first
    | with_reducible assumption
    | (with_reducible eapply Aside.fstEq; with_reducible assumption)
    | with_reducible apply Aside.raiseFault
    | with_reducible apply Aside.modMem
    | with_reducible apply Aside.modRoom
    | exact fun _ => rfl
    | rfl
    | (extract_lets +onlyGivenNames x; refine Aside.cut (p := Aside o₀ x) ?_ (fun hx => ?_); rotate_left; clear_value x; rotate_left; try subst x)
    | simp -zeta only [Aside.lit_iff]
    | fail_if_no_progress (extract_lets +onlyGivenNames x)
    | simp +zetaDelta only [Aside.lit_iff]
    | split
    | intro _

theorem Aside.setMode {o₀ : State} (s : State) (r kind value : Nat) (entries : List (Nat × Nat × Nat)) (hk : Aside o₀ s) : Aside o₀ (s.setMode r kind value entries) := by
  unfold State.setMode
  repeat' first
    | with_reducible assumption
    | (with_reducible eapply Aside.fstEq; with_reducible assumption)
    | with_reducible apply Aside.modRoom
    | exact fun _ => rfl
    | rfl
    | (extract_lets +onlyGivenNames x; refine Aside.cut (p := Aside o₀ x) ?_ (fun hx => ?_); rotate_left; clear_value x; rotate_left; try subst x)
    | simp -zeta only [Aside.lit_iff]
    | fail_if_no_progress (extract_lets +onlyGivenNames x)
    | simp +zetaDelta only [Aside.lit_iff]
    | split
    | intro _

theorem Aside.applyMode {o₀ : State} (s : State) (r : Nat) (m : ModeChange) (hk : Aside o₀ s) : Aside o₀ (s.applyMode r m) := by
  unfold State.applyMode
  repeat' first
    | with_reducible assumption
    | (with_reducible eapply Aside.fstEq; with_reducible assumption)
    | with_reducible apply Aside.setMode
    | exact fun _ => rfl
    | rfl
    | (extract_lets +onlyGivenNames x; refine Aside.cut (p := Aside o₀ x) ?_ (fun hx => ?_); rotate_left; clear_value x; rotate_left; try subst x)
    | simp -zeta only [Aside.lit_iff]
    | fail_if_no_progress (extract_lets +onlyGivenNames x)
    | simp +zetaDelta only [Aside.lit_iff]
    | split
    | intro _

theorem Aside.setPlan {o₀ : State} (s : State) (r : Nat) (p : Option SnapPlan) (hk : Aside o₀ s) : Aside o₀ (s.setPlan r p) := by
  unfold State.setPlan
  repeat' first
    | with_reducible assumption
    | (with_reducible eapply Aside.fstEq; with_reducible assumption)
    | with_reducible apply Aside.modMem
    | exact fun _ => rfl
    | rfl
    | (extract_lets +onlyGivenNames x; refine Aside.cut (p := Aside o₀ x) ?_ (fun hx => ?_); rotate_left; clear_value x; rotate_left; try subst x)
    | simp -zeta only [Aside.lit_iff]
    | fail_if_no_progress (extract_lets +onlyGivenNames x)
    | simp +zetaDelta only [Aside.lit_iff]
    | split
    | intro _

theorem Aside.takeEffect {o₀ : State} (s : State) (r e : Nat) (hk : Aside o₀ s) : Aside o₀ (s.takeEffect r e).1 := by
  unfold State.takeEffect
  repeat' first
    | with_reducible assumption
    | (with_reducible eapply Aside.fstEq; with_reducible assumption)
    | with_reducible apply Aside.applyMode
    | with_reducible apply Aside.modRoom
    | with_reducible apply Aside.setPlan
    | with_reducible apply Aside.foldl
    | with_reducible apply Aside.foldlFst
    | exact fun _ => rfl
    | rfl
    | (extract_lets +onlyGivenNames x; refine Aside.cut (p := Aside o₀ x) ?_ (fun hx => ?_); rotate_left; clear_value x; rotate_left; try subst x)
    | simp -zeta only [Aside.lit_iff]
    | fail_if_no_progress (extract_lets +onlyGivenNames x)
    | simp +zetaDelta only [Aside.lit_iff]
    | split
    | intro _

theorem Aside.ledgerStalls {o₀ : State} (s : State) (r : Nat) (hk : Aside o₀ s) : Aside o₀ (s.ledgerStalls r) := by
  unfold State.ledgerStalls
  repeat' first
    | with_reducible assumption
    | (with_reducible eapply Aside.fstEq; with_reducible assumption)
    | with_reducible apply Aside.modLedger
    | exact fun _ => rfl
    | rfl
    | (extract_lets +onlyGivenNames x; refine Aside.cut (p := Aside o₀ x) ?_ (fun hx => ?_); rotate_left; clear_value x; rotate_left; try subst x)
    | simp -zeta only [Aside.lit_iff]
    | fail_if_no_progress (extract_lets +onlyGivenNames x)
    | simp +zetaDelta only [Aside.lit_iff]
    | split
    | intro _

theorem Aside.markSlow {o₀ : State} (s : State) (core : Nat) (hk : Aside o₀ s) : Aside o₀ (s.markSlow core) := by
  unfold State.markSlow
  repeat' first
    | with_reducible assumption
    | (with_reducible eapply Aside.fstEq; with_reducible assumption)
    | with_reducible apply Aside.healthRecord
    | exact fun _ => rfl
    | rfl
    | (extract_lets +onlyGivenNames x; refine Aside.cut (p := Aside o₀ x) ?_ (fun hx => ?_); rotate_left; clear_value x; rotate_left; try subst x)
    | simp -zeta only [Aside.lit_iff]
    | fail_if_no_progress (extract_lets +onlyGivenNames x)
    | simp +zetaDelta only [Aside.lit_iff]
    | split
    | intro _

theorem Aside.slowCores {o₀ : State} (s : State) (r : Nat) (hk : Aside o₀ s) : Aside o₀ (s.slowCores r) := by
  unfold State.slowCores
  repeat' first
    | with_reducible assumption
    | (with_reducible eapply Aside.fstEq; with_reducible assumption)
    | with_reducible apply Aside.markSlow
    | with_reducible apply Aside.foldl
    | with_reducible apply Aside.foldlFst
    | exact fun _ => rfl
    | rfl
    | (extract_lets +onlyGivenNames x; refine Aside.cut (p := Aside o₀ x) ?_ (fun hx => ?_); rotate_left; clear_value x; rotate_left; try subst x)
    | simp -zeta only [Aside.lit_iff]
    | fail_if_no_progress (extract_lets +onlyGivenNames x)
    | simp +zetaDelta only [Aside.lit_iff]
    | split
    | intro _

theorem Aside.modCore {o₀ : State} (s : State) (c : Nat) (f : Core → Core) (hk : Aside o₀ s) : Aside o₀ (s.modCore c f) := by
  unfold State.modCore
  repeat' first
    | with_reducible assumption
    | (with_reducible eapply Aside.fstEq; with_reducible assumption)
    | with_reducible apply Aside.setCore
    | exact fun _ => rfl
    | rfl
    | (extract_lets +onlyGivenNames x; refine Aside.cut (p := Aside o₀ x) ?_ (fun hx => ?_); rotate_left; clear_value x; rotate_left; try subst x)
    | simp -zeta only [Aside.lit_iff]
    | fail_if_no_progress (extract_lets +onlyGivenNames x)
    | simp +zetaDelta only [Aside.lit_iff]
    | split
    | intro _

theorem Aside.modCtx {o₀ : State} (s : State) (core r : Nat) (f : Ctx → Ctx) (hk : Aside o₀ s) : Aside o₀ (s.modCtx core r f) := by
  unfold State.modCtx
  repeat' first
    | with_reducible assumption
    | (with_reducible eapply Aside.fstEq; with_reducible assumption)
    | with_reducible apply Aside.modCore
    | exact fun _ => rfl
    | rfl
    | (extract_lets +onlyGivenNames x; refine Aside.cut (p := Aside o₀ x) ?_ (fun hx => ?_); rotate_left; clear_value x; rotate_left; try subst x)
    | simp -zeta only [Aside.lit_iff]
    | fail_if_no_progress (extract_lets +onlyGivenNames x)
    | simp +zetaDelta only [Aside.lit_iff]
    | split
    | intro _

theorem Aside.wakeOn {o₀ : State} (s : State) (arb r : Nat) (others : List Nat) (hk : Aside o₀ s) : Aside o₀ (s.wakeOn arb r others) := by
  unfold State.wakeOn
  repeat' first
    | with_reducible assumption
    | (with_reducible eapply Aside.fstEq; with_reducible assumption)
    | exact fun _ => rfl
    | rfl
    | (extract_lets +onlyGivenNames x; refine Aside.cut (p := Aside o₀ x) ?_ (fun hx => ?_); rotate_left; clear_value x; rotate_left; try subst x)
    | simp -zeta only [Aside.lit_iff]
    | fail_if_no_progress (extract_lets +onlyGivenNames x)
    | simp +zetaDelta only [Aside.lit_iff]
    | split
    | intro _

theorem Aside.refreshCtx {o₀ : State} (s : State) (core r : Nat) (hk : Aside o₀ s) : Aside o₀ (s.refreshCtx core r) := by
  unfold State.refreshCtx
  repeat' first
    | with_reducible assumption
    | (with_reducible eapply Aside.fstEq; with_reducible assumption)
    | with_reducible apply Aside.modCtx
    | with_reducible apply Aside.wakeOn
    | exact fun _ => rfl
    | rfl
    | (extract_lets +onlyGivenNames x; refine Aside.cut (p := Aside o₀ x) ?_ (fun hx => ?_); rotate_left; clear_value x; rotate_left; try subst x)
    | simp -zeta only [Aside.lit_iff]
    | fail_if_no_progress (extract_lets +onlyGivenNames x)
    | simp +zetaDelta only [Aside.lit_iff]
    | split
    | intro _

theorem Aside.refresh {o₀ : State} (s : State) (core : Nat) (hk : Aside o₀ s) : Aside o₀ (s.refresh core) := by
  unfold State.refresh
  repeat' first
    | with_reducible assumption
    | (with_reducible eapply Aside.fstEq; with_reducible assumption)
    | with_reducible apply Aside.refreshCtx
    | with_reducible apply Aside.foldl
    | with_reducible apply Aside.foldlFst
    | exact fun _ => rfl
    | rfl
    | (extract_lets +onlyGivenNames x; refine Aside.cut (p := Aside o₀ x) ?_ (fun hx => ?_); rotate_left; clear_value x; rotate_left; try subst x)
    | simp -zeta only [Aside.lit_iff]
    | fail_if_no_progress (extract_lets +onlyGivenNames x)
    | simp +zetaDelta only [Aside.lit_iff]
    | split
    | intro _

theorem Aside.releaseBarrier {o₀ : State} (s : State) (r : Nat) (complete : Option Nat) (hk : Aside o₀ s) : Aside o₀ (s.releaseBarrier r complete) := by
  unfold State.releaseBarrier
  repeat' first
    | with_reducible assumption
    | (with_reducible eapply Aside.fstEq; with_reducible assumption)
    | with_reducible apply Aside.done
    | with_reducible apply Aside.takeEffect
    | with_reducible apply Aside.complete
    | with_reducible apply Aside.modRoom
    | with_reducible apply Aside.stallBarrier
    | with_reducible apply Aside.accountRoom
    | with_reducible apply Aside.ledgerStalls
    | with_reducible apply Aside.modLedger
    | with_reducible apply Aside.slowCores
    | with_reducible apply Aside.refresh
    | with_reducible apply Aside.endJob
    | with_reducible apply Aside.finish
    | with_reducible apply Aside.foldl
    | with_reducible apply Aside.foldlFst
    | exact fun _ => rfl
    | rfl
    | (extract_lets +onlyGivenNames x; refine Aside.cut (p := Aside o₀ x) ?_ (fun hx => ?_); rotate_left; clear_value x; rotate_left; try subst x)
    | simp -zeta only [Aside.lit_iff]
    | fail_if_no_progress (extract_lets +onlyGivenNames x)
    | simp +zetaDelta only [Aside.lit_iff]
    | split
    | intro _

theorem Aside.releaseHere {o₀ : State} (s : State) (tag incarn epoch : Nat) (complete : Option Nat) (hk : Aside o₀ s) : Aside o₀ (s.releaseHere tag incarn epoch complete) := by
  unfold State.releaseHere
  repeat' first
    | with_reducible assumption
    | (with_reducible eapply Aside.fstEq; with_reducible assumption)
    | with_reducible apply Aside.complete
    | with_reducible apply Aside.modMem
    | with_reducible apply Aside.snapWaited
    | with_reducible apply Aside.markSnap
    | with_reducible apply Aside.releaseBarrier
    | with_reducible apply Aside.foldl
    | with_reducible apply Aside.foldlFst
    | exact fun _ => rfl
    | rfl
    | (extract_lets +onlyGivenNames x; refine Aside.cut (p := Aside o₀ x) ?_ (fun hx => ?_); rotate_left; clear_value x; rotate_left; try subst x)
    | simp -zeta only [Aside.lit_iff]
    | fail_if_no_progress (extract_lets +onlyGivenNames x)
    | simp +zetaDelta only [Aside.lit_iff]
    | split
    | intro _

theorem Aside.headRelease {o₀ : State} (s : State) (tag : Nat) (hk : Aside o₀ s) : Aside o₀ (s.headRelease tag) := by
  unfold State.headRelease
  repeat' first
    | with_reducible assumption
    | (with_reducible eapply Aside.fstEq; with_reducible assumption)
    | with_reducible apply Aside.complete
    | with_reducible apply Aside.setJob
    | with_reducible apply Aside.noteLags
    | with_reducible apply Aside.ctrlSend
    | with_reducible apply Aside.releaseHere
    | with_reducible apply Aside.foldl
    | with_reducible apply Aside.foldlFst
    | exact fun _ => rfl
    | rfl
    | (extract_lets +onlyGivenNames x; refine Aside.cut (p := Aside o₀ x) ?_ (fun hx => ?_); rotate_left; clear_value x; rotate_left; try subst x)
    | simp -zeta only [Aside.lit_iff]
    | fail_if_no_progress (extract_lets +onlyGivenNames x)
    | simp +zetaDelta only [Aside.lit_iff]
    | split
    | intro _

theorem Aside.managerSend {o₀ : State} (s : State) (tag : Nat) (hk : Aside o₀ s) : Aside o₀ (s.managerSend tag) := by
  unfold State.managerSend
  repeat' first
    | with_reducible assumption
    | (with_reducible eapply Aside.fstEq; with_reducible assumption)
    | with_reducible apply Aside.ctrlUp
    | exact fun _ => rfl
    | rfl
    | (extract_lets +onlyGivenNames x; refine Aside.cut (p := Aside o₀ x) ?_ (fun hx => ?_); rotate_left; clear_value x; rotate_left; try subst x)
    | simp -zeta only [Aside.lit_iff]
    | fail_if_no_progress (extract_lets +onlyGivenNames x)
    | simp +zetaDelta only [Aside.lit_iff]
    | split
    | intro _

theorem Aside.takeOver {o₀ : State} (s : State) (hk : Aside o₀ s) : Aside o₀ (s.takeOver) := by
  unfold State.takeOver
  repeat' first
    | with_reducible assumption
    | (with_reducible eapply Aside.fstEq; with_reducible assumption)
    | with_reducible apply Aside.reread
    | with_reducible apply Aside.headRelease
    | with_reducible apply Aside.managerSend
    | with_reducible apply Aside.foldl
    | with_reducible apply Aside.foldlFst
    | exact fun _ => rfl
    | rfl
    | (extract_lets +onlyGivenNames x; refine Aside.cut (p := Aside o₀ x) ?_ (fun hx => ?_); rotate_left; clear_value x; rotate_left; try subst x)
    | simp -zeta only [Aside.lit_iff]
    | fail_if_no_progress (extract_lets +onlyGivenNames x)
    | simp +zetaDelta only [Aside.lit_iff]
    | split
    | intro _

theorem Aside.postInit {o₀ : State} (s : State) (r index ring status detail result0 result1 : Nat) (hk : Aside o₀ s) : Aside o₀ (s.postInit r index ring status detail result0 result1) := by
  unfold State.postInit
  repeat' first
    | with_reducible assumption
    | (with_reducible eapply Aside.fstEq; with_reducible assumption)
    | with_reducible apply Aside.post
    | exact fun _ => rfl
    | rfl
    | (extract_lets +onlyGivenNames x; refine Aside.cut (p := Aside o₀ x) ?_ (fun hx => ?_); rotate_left; clear_value x; rotate_left; try subst x)
    | simp -zeta only [Aside.lit_iff]
    | fail_if_no_progress (extract_lets +onlyGivenNames x)
    | simp +zetaDelta only [Aside.lit_iff]
    | split
    | intro _

theorem Aside.dropRings {o₀ : State} (s : State) (r : Nat) (hk : Aside o₀ s) : Aside o₀ (s.dropRings r) := by
  unfold State.dropRings
  repeat' first
    | with_reducible assumption
    | (with_reducible eapply Aside.fstEq; with_reducible assumption)
    | exact fun _ => rfl
    | rfl
    | (extract_lets +onlyGivenNames x; refine Aside.cut (p := Aside o₀ x) ?_ (fun hx => ?_); rotate_left; clear_value x; rotate_left; try subst x)
    | simp -zeta only [Aside.lit_iff]
    | fail_if_no_progress (extract_lets +onlyGivenNames x)
    | simp +zetaDelta only [Aside.lit_iff]
    | split
    | intro _

theorem Aside.leaveJob {o₀ : State} (s : State) (r : Nat) (hk : Aside o₀ s) : Aside o₀ (s.leaveJob r) := by
  unfold State.leaveJob
  repeat' first
    | with_reducible assumption
    | (with_reducible eapply Aside.fstEq; with_reducible assumption)
    | with_reducible apply Aside.foldl
    | with_reducible apply Aside.foldlFst
    | exact fun _ => rfl
    | rfl
    | (extract_lets +onlyGivenNames x; refine Aside.cut (p := Aside o₀ x) ?_ (fun hx => ?_); rotate_left; clear_value x; rotate_left; try subst x)
    | simp -zeta only [Aside.lit_iff]
    | fail_if_no_progress (extract_lets +onlyGivenNames x)
    | simp +zetaDelta only [Aside.lit_iff]
    | split
    | intro _

theorem Aside.stopCores {o₀ : State} (s : State) (r : Nat) (hk : Aside o₀ s) : Aside o₀ (s.stopCores r) := by
  unfold State.stopCores
  repeat' first
    | with_reducible assumption
    | (with_reducible eapply Aside.fstEq; with_reducible assumption)
    | with_reducible apply Aside.accountRoom
    | exact fun _ => rfl
    | rfl
    | (extract_lets +onlyGivenNames x; refine Aside.cut (p := Aside o₀ x) ?_ (fun hx => ?_); rotate_left; clear_value x; rotate_left; try subst x)
    | simp -zeta only [Aside.lit_iff]
    | fail_if_no_progress (extract_lets +onlyGivenNames x)
    | simp +zetaDelta only [Aside.lit_iff]
    | split
    | intro _

theorem Aside.cutMoves {o₀ : State} (s : State) (r : Nat) (hk : Aside o₀ s) : Aside o₀ (s.cutMoves r) := by
  unfold State.cutMoves
  repeat' first
    | with_reducible assumption
    | (with_reducible eapply Aside.fstEq; with_reducible assumption)
    | with_reducible apply Aside.modMem
    | exact fun _ => rfl
    | rfl
    | (extract_lets +onlyGivenNames x; refine Aside.cut (p := Aside o₀ x) ?_ (fun hx => ?_); rotate_left; clear_value x; rotate_left; try subst x)
    | simp -zeta only [Aside.lit_iff]
    | fail_if_no_progress (extract_lets +onlyGivenNames x)
    | simp +zetaDelta only [Aside.lit_iff]
    | split
    | intro _

theorem Aside.endDebug {o₀ : State} (s : State) (r : Nat) (hk : Aside o₀ s) : Aside o₀ (s.endDebug r) := by
  unfold State.endDebug
  repeat' first
    | with_reducible assumption
    | (with_reducible eapply Aside.fstEq; with_reducible assumption)
    | with_reducible apply Aside.audit
    | exact fun _ => rfl
    | rfl
    | (extract_lets +onlyGivenNames x; refine Aside.cut (p := Aside o₀ x) ?_ (fun hx => ?_); rotate_left; clear_value x; rotate_left; try subst x)
    | simp -zeta only [Aside.lit_iff]
    | fail_if_no_progress (extract_lets +onlyGivenNames x)
    | simp +zetaDelta only [Aside.lit_iff]
    | split
    | intro _

end Sys2Proof.Machine
end

