-- ==== Sys2Proof/Laws/KeepsOps.lean ====
section
/-! SUPPORT. `Keeps` for the operations of Machine/Ops.lean. -/

set_option linter.all false

namespace Sys2Proof.Machine

theorem Keeps.setRing {o₀ : State} (s : State) (q : Nat) (x : Ring) (hk : Keeps o₀ s) : Keeps o₀ (s.setRing q x) := by
  unfold State.setRing
  repeat' first
    | with_reducible assumption
    | (intro _ hw; exact hw)
    | (extract_lets +onlyGivenNames x; refine Keeps.cut (p := Keeps o₀ x) ?_ (fun hx => ?_); rotate_left; clear_value x; rotate_left; try subst x)
    | simp -zeta only [Keeps.lit_iff]
    | fail_if_no_progress (extract_lets +onlyGivenNames x)
    | simp +zetaDelta only [Keeps.lit_iff]
    | (with_reducible apply wf_id; assumption)
    | intro _

theorem Keeps.modRing {o₀ : State} (s : State) (q : Nat) (f : Ring → Ring) (hk : Keeps o₀ s) : Keeps o₀ (s.modRing q f) := by
  unfold State.modRing
  repeat' first
    | with_reducible assumption
    | with_reducible apply Keeps.setRing
    | (intro _ hw; exact hw)
    | (with_reducible apply wf_id; assumption)
    | intro _

theorem Keeps.modStack {o₀ : State} (s : State) (k : Nat) (f : Stack → Stack) (hk : Keeps o₀ s) : Keeps o₀ (s.modStack k f) := by
  unfold State.modStack
  repeat' first
    | with_reducible assumption
    | (intro _ hw; exact hw)
    | (extract_lets +onlyGivenNames x; refine Keeps.cut (p := Keeps o₀ x) ?_ (fun hx => ?_); rotate_left; clear_value x; rotate_left; try subst x)
    | simp -zeta only [Keeps.lit_iff]
    | fail_if_no_progress (extract_lets +onlyGivenNames x)
    | simp +zetaDelta only [Keeps.lit_iff]
    | exact wf_nil
    | (with_reducible apply wf_id; assumption)
    | intro _

theorem Keeps.modPair {o₀ : State} (s : State) (p : Nat) (f : Pair → Pair) (hk : Keeps o₀ s) : Keeps o₀ (s.modPair p f) := by
  unfold State.modPair
  repeat' first
    | with_reducible assumption
    | (intro _ hw; exact hw)
    | (extract_lets +onlyGivenNames x; refine Keeps.cut (p := Keeps o₀ x) ?_ (fun hx => ?_); rotate_left; clear_value x; rotate_left; try subst x)
    | simp -zeta only [Keeps.lit_iff]
    | fail_if_no_progress (extract_lets +onlyGivenNames x)
    | simp +zetaDelta only [Keeps.lit_iff]
    | exact wf_nil
    | (with_reducible apply wf_id; assumption)
    | intro _

theorem Keeps.emit {o₀ : State} (s : State) (m : OutMsg) (hk : Keeps o₀ s) : Keeps o₀ (s.emit m) := by
  unfold State.emit
  repeat' first
    | with_reducible assumption
    | (intro _ hw; exact hw)
    | (extract_lets +onlyGivenNames x; refine Keeps.cut (p := Keeps o₀ x) ?_ (fun hx => ?_); rotate_left; clear_value x; rotate_left; try subst x)
    | simp -zeta only [Keeps.lit_iff]
    | fail_if_no_progress (extract_lets +onlyGivenNames x)
    | simp +zetaDelta only [Keeps.lit_iff]
    | intro _

theorem Keeps.upto {o₀ : State} (s : State) (t : Nat) (hk : Keeps o₀ s) : Keeps o₀ (s.upto t) := by
  unfold State.upto
  repeat' first
    | with_reducible assumption
    | (intro _ hw; exact hw)
    | (extract_lets +onlyGivenNames x; refine Keeps.cut (p := Keeps o₀ x) ?_ (fun hx => ?_); rotate_left; clear_value x; rotate_left; try subst x)
    | simp -zeta only [Keeps.lit_iff]
    | fail_if_no_progress (extract_lets +onlyGivenNames x)
    | simp +zetaDelta only [Keeps.lit_iff]
    | intro _

theorem Keeps.draw {o₀ : State} (s : State) (hk : Keeps o₀ s) : Keeps o₀ (s.draw).2 := by
  unfold State.draw
  repeat' first
    | with_reducible assumption
    | (intro _ hw; exact hw)
    | (extract_lets +onlyGivenNames x; refine Keeps.cut (p := Keeps o₀ x) ?_ (fun hx => ?_); rotate_left; clear_value x; rotate_left; try subst x)
    | simp -zeta only [Keeps.lit_iff]
    | fail_if_no_progress (extract_lets +onlyGivenNames x)
    | simp +zetaDelta only [Keeps.lit_iff]
    | intro _

theorem Keeps.count {o₀ : State} (s : State) (unit i n : Nat) (hk : Keeps o₀ s) : Keeps o₀ (s.count unit i n) := by
  unfold State.count
  repeat' first
    | with_reducible assumption
    | (intro _ hw; exact hw)
    | (extract_lets +onlyGivenNames x; refine Keeps.cut (p := Keeps o₀ x) ?_ (fun hx => ?_); rotate_left; clear_value x; rotate_left; try subst x)
    | simp -zeta only [Keeps.lit_iff]
    | fail_if_no_progress (extract_lets +onlyGivenNames x)
    | simp +zetaDelta only [Keeps.lit_iff]
    | (with_reducible apply wf_id; assumption)
    | intro _

theorem Keeps.flushHealth {o₀ : State} (s : State) (hk : Keeps o₀ s) : Keeps o₀ (s.flushHealth) := by
  unfold State.flushHealth
  repeat' first
    | with_reducible assumption
    | (with_reducible eapply Keeps.fstEq; with_reducible assumption)
    | (with_reducible eapply Keeps.sndEq; with_reducible assumption)
    | (with_reducible eapply Keeps.thdEq; with_reducible assumption)
    | (intro _ hw; exact hw)
    | with_reducible apply Gives.none
    | with_reducible apply Gives.some
    | with_reducible apply Gives.bind
    | (with_reducible eapply Gives.ofEq; with_reducible assumption)
    | (extract_lets +onlyGivenNames x; refine Keeps.cut (p := Keeps o₀ x) ?_ (fun hx => ?_); rotate_left; clear_value x; rotate_left; try subst x)
    | simp -zeta only [Keeps.lit_iff]
    | fail_if_no_progress (extract_lets +onlyGivenNames x)
    | simp +zetaDelta only [Keeps.lit_iff]
    | exact wf_nil
    | (with_reducible apply wf_id; assumption)
    | split
    | intro _

theorem Keeps.healthRecord {o₀ : State} (s : State) (kind code unit room value : Nat) (hk : Keeps o₀ s) : Keeps o₀ (s.healthRecord kind code unit room value) := by
  unfold State.healthRecord
  repeat' first
    | with_reducible assumption
    | (with_reducible eapply Keeps.fstEq; with_reducible assumption)
    | (with_reducible eapply Keeps.sndEq; with_reducible assumption)
    | (with_reducible eapply Keeps.thdEq; with_reducible assumption)
    | with_reducible apply Keeps.flushHealth
    | (intro _ hw; exact hw)
    | with_reducible apply Gives.none
    | with_reducible apply Gives.some
    | with_reducible apply Gives.bind
    | (with_reducible eapply Gives.ofEq; with_reducible assumption)
    | (extract_lets +onlyGivenNames x; refine Keeps.cut (p := Keeps o₀ x) ?_ (fun hx => ?_); rotate_left; clear_value x; rotate_left; try subst x)
    | simp -zeta only [Keeps.lit_iff]
    | fail_if_no_progress (extract_lets +onlyGivenNames x)
    | simp +zetaDelta only [Keeps.lit_iff]
    | exact wf_nil
    | (with_reducible apply wf_id; assumption)
    | split
    | intro _

theorem Keeps.maintAlarm {o₀ : State} (s : State) (code unit value : Nat) (hk : Keeps o₀ s) : Keeps o₀ (s.maintAlarm code unit value) := by
  unfold State.maintAlarm
  repeat' first
    | with_reducible assumption
    | with_reducible apply Keeps.healthRecord
    | (intro _ hw; exact hw)
    | (extract_lets +onlyGivenNames x; refine Keeps.cut (p := Keeps o₀ x) ?_ (fun hx => ?_); rotate_left; clear_value x; rotate_left; try subst x)
    | simp -zeta only [Keeps.lit_iff]
    | fail_if_no_progress (extract_lets +onlyGivenNames x)
    | simp +zetaDelta only [Keeps.lit_iff]
    | intro _

theorem Keeps.corrected {o₀ : State} (s : State) (unit keeper n : Nat) (hk : Keeps o₀ s) : Keeps o₀ (s.corrected unit keeper n) := by
  unfold State.corrected
  repeat' first
    | with_reducible assumption
    | (with_reducible eapply Keeps.fstEq; with_reducible assumption)
    | (with_reducible eapply Keeps.sndEq; with_reducible assumption)
    | (with_reducible eapply Keeps.thdEq; with_reducible assumption)
    | with_reducible apply Keeps.count
    | with_reducible apply Keeps.maintAlarm
    | (intro _ hw; exact hw)
    | with_reducible apply Gives.none
    | with_reducible apply Gives.some
    | with_reducible apply Gives.bind
    | (with_reducible eapply Gives.ofEq; with_reducible assumption)
    | (extract_lets +onlyGivenNames x; refine Keeps.cut (p := Keeps o₀ x) ?_ (fun hx => ?_); rotate_left; clear_value x; rotate_left; try subst x)
    | simp -zeta only [Keeps.lit_iff]
    | fail_if_no_progress (extract_lets +onlyGivenNames x)
    | simp +zetaDelta only [Keeps.lit_iff]
    | exact wf_nil
    | (with_reducible apply wf_id; assumption)
    | split
    | intro _

theorem Keeps.setWaiting {o₀ : State} (s : State) (reason code : Nat) (hk : Keeps o₀ s) : Keeps o₀ (s.setWaiting reason code) := by
  unfold State.setWaiting
  repeat' first
    | with_reducible assumption
    | (intro _ hw; exact hw)
    | (extract_lets +onlyGivenNames x; refine Keeps.cut (p := Keeps o₀ x) ?_ (fun hx => ?_); rotate_left; clear_value x; rotate_left; try subst x)
    | simp -zeta only [Keeps.lit_iff]
    | fail_if_no_progress (extract_lets +onlyGivenNames x)
    | simp +zetaDelta only [Keeps.lit_iff]
    | (with_reducible apply wf_id; assumption)
    | split
    | intro _

theorem Keeps.clearWaiting {o₀ : State} (s : State) (reason : Nat) (hk : Keeps o₀ s) : Keeps o₀ (s.clearWaiting reason) := by
  unfold State.clearWaiting
  repeat' first
    | with_reducible assumption
    | (intro _ hw; exact hw)
    | (extract_lets +onlyGivenNames x; refine Keeps.cut (p := Keeps o₀ x) ?_ (fun hx => ?_); rotate_left; clear_value x; rotate_left; try subst x)
    | simp -zeta only [Keeps.lit_iff]
    | fail_if_no_progress (extract_lets +onlyGivenNames x)
    | simp +zetaDelta only [Keeps.lit_iff]
    | intro _

theorem Keeps.netCount {o₀ : State} (s : State) (i : Nat) (hk : Keeps o₀ s) : Keeps o₀ (s.netCount i) := by
  unfold State.netCount
  repeat' first
    | with_reducible assumption
    | (intro _ hw; exact hw)
    | (extract_lets +onlyGivenNames x; refine Keeps.cut (p := Keeps o₀ x) ?_ (fun hx => ?_); rotate_left; clear_value x; rotate_left; try subst x)
    | simp -zeta only [Keeps.lit_iff]
    | fail_if_no_progress (extract_lets +onlyGivenNames x)
    | simp +zetaDelta only [Keeps.lit_iff]
    | (with_reducible apply wf_id; assumption)
    | intro _

theorem Keeps.modLedger {o₀ : State} (s : State) (r : Nat) (f : Ledger → Ledger) (hk : Keeps o₀ s) : Keeps o₀ (s.modLedger r f) := by
  unfold State.modLedger
  repeat' first
    | with_reducible assumption
    | (with_reducible eapply Keeps.fstEq; with_reducible assumption)
    | (with_reducible eapply Keeps.sndEq; with_reducible assumption)
    | (with_reducible eapply Keeps.thdEq; with_reducible assumption)
    | with_reducible apply Keeps.modRoom
    | (intro _ hw; exact hw)
    | with_reducible apply Gives.none
    | with_reducible apply Gives.some
    | with_reducible apply Gives.bind
    | (with_reducible eapply Gives.ofEq; with_reducible assumption)
    | (extract_lets +onlyGivenNames x; refine Keeps.cut (p := Keeps o₀ x) ?_ (fun hx => ?_); rotate_left; clear_value x; rotate_left; try subst x)
    | simp -zeta only [Keeps.lit_iff]
    | fail_if_no_progress (extract_lets +onlyGivenNames x)
    | simp +zetaDelta only [Keeps.lit_iff]
    | exact wf_nil
    | (with_reducible apply wf_id; assumption)
    | split
    | intro _

theorem Keeps.charge {o₀ : State} (s : State) (r i n : Nat) (hk : Keeps o₀ s) : Keeps o₀ (s.charge r i n) := by
  unfold State.charge
  repeat' first
    | with_reducible assumption
    | (with_reducible eapply Keeps.fstEq; with_reducible assumption)
    | (with_reducible eapply Keeps.sndEq; with_reducible assumption)
    | (with_reducible eapply Keeps.thdEq; with_reducible assumption)
    | with_reducible apply Keeps.modLedger
    | (intro _ hw; exact hw)
    | with_reducible apply Gives.none
    | with_reducible apply Gives.some
    | with_reducible apply Gives.bind
    | (with_reducible eapply Gives.ofEq; with_reducible assumption)
    | (extract_lets +onlyGivenNames x; refine Keeps.cut (p := Keeps o₀ x) ?_ (fun hx => ?_); rotate_left; clear_value x; rotate_left; try subst x)
    | simp -zeta only [Keeps.lit_iff]
    | fail_if_no_progress (extract_lets +onlyGivenNames x)
    | simp +zetaDelta only [Keeps.lit_iff]
    | exact wf_nil
    | (with_reducible apply wf_id; assumption)
    | split
    | intro _

theorem Keeps.waive {o₀ : State} (s : State) (r b : Nat) (hk : Keeps o₀ s) : Keeps o₀ (s.waive r b) := by
  unfold State.waive
  repeat' first
    | with_reducible assumption
    | (with_reducible eapply Keeps.fstEq; with_reducible assumption)
    | (with_reducible eapply Keeps.sndEq; with_reducible assumption)
    | (with_reducible eapply Keeps.thdEq; with_reducible assumption)
    | with_reducible apply Keeps.modLedger
    | (intro _ hw; exact hw)
    | with_reducible apply Gives.none
    | with_reducible apply Gives.some
    | with_reducible apply Gives.bind
    | (with_reducible eapply Gives.ofEq; with_reducible assumption)
    | (extract_lets +onlyGivenNames x; refine Keeps.cut (p := Keeps o₀ x) ?_ (fun hx => ?_); rotate_left; clear_value x; rotate_left; try subst x)
    | simp -zeta only [Keeps.lit_iff]
    | fail_if_no_progress (extract_lets +onlyGivenNames x)
    | simp +zetaDelta only [Keeps.lit_iff]
    | exact wf_nil
    | (with_reducible apply wf_id; assumption)
    | split
    | intro _

theorem Keeps.audit {o : State} (s : State) (atype role slot room code : Nat) (data : List Byte) (hk : Keeps o s) :
    Keeps o (s.audit atype role slot room code data) := by
  unfold State.audit
  split
  · simp only [Keeps.lit_iff]
    exact hk
  · exact hk.ofSec (fun _ _ h => h) (Nat.le_succ _) rfl rfl rfl rfl rfl rfl

theorem Keeps.hostAct {o : State} (s : State) (a : HostAct) (hk : Keeps o s) : Keeps o (Machine.hostAct s a) := by
  unfold Machine.hostAct
  split
  · exact Keeps.hostPut _ _ _ hk
  · simpa only [Keeps.lit_iff] using hk
  · simpa only [Keeps.lit_iff] using hk

theorem Keeps.hostActs {o : State} (s : State) (l : List HostAct) (hk : Keeps o s) : Keeps o (s.hostActs l) :=
  hk.foldl l fun u a h => Keeps.hostAct u a h

theorem Keeps.countRefused {o₀ : State} (s : State) (r : Nat) (hk : Keeps o₀ s) : Keeps o₀ (s.countRefused r) := by
  unfold State.countRefused
  repeat' first
    | with_reducible assumption
    | with_reducible apply Keeps.modRoom
    | (intro _ hw; exact hw)
    | (extract_lets +onlyGivenNames x; refine Keeps.cut (p := Keeps o₀ x) ?_ (fun hx => ?_); rotate_left; clear_value x; rotate_left; try subst x)
    | simp -zeta only [Keeps.lit_iff]
    | fail_if_no_progress (extract_lets +onlyGivenNames x)
    | simp +zetaDelta only [Keeps.lit_iff]
    | (with_reducible apply wf_id; assumption)
    | intro _

theorem Keeps.sendMsix {o₀ : State} (s : State) (fn v : Nat) (hk : Keeps o₀ s) : Keeps o₀ (s.sendMsix fn v) := by
  unfold State.sendMsix
  repeat' first
    | with_reducible assumption
    | with_reducible apply Keeps.emit
    | (intro _ hw; exact hw)
    | (extract_lets +onlyGivenNames x; refine Keeps.cut (p := Keeps o₀ x) ?_ (fun hx => ?_); rotate_left; clear_value x; rotate_left; try subst x)
    | simp -zeta only [Keeps.lit_iff]
    | fail_if_no_progress (extract_lets +onlyGivenNames x)
    | simp +zetaDelta only [Keeps.lit_iff]
    | exact wf_nil
    | (with_reducible apply wf_id; assumption)
    | split
    | intro _

theorem Keeps.powerEvent {o₀ : State} (s : State) (b : Nat) (hk : Keeps o₀ s) : Keeps o₀ (s.powerEvent b) := by
  unfold State.powerEvent
  repeat' first
    | with_reducible assumption
    | with_reducible apply Keeps.sendMsix
    | (intro _ hw; exact hw)
    | (extract_lets +onlyGivenNames x; refine Keeps.cut (p := Keeps o₀ x) ?_ (fun hx => ?_); rotate_left; clear_value x; rotate_left; try subst x)
    | simp -zeta only [Keeps.lit_iff]
    | fail_if_no_progress (extract_lets +onlyGivenNames x)
    | simp +zetaDelta only [Keeps.lit_iff]
    | split
    | intro _

theorem Keeps.writeRecord {o : State} (s : State) (cq : Nat) (h : Held) (hk : Keeps o s) : Keeps o (s.writeRecord cq h) := by
  unfold State.writeRecord
  extract_lets q a u1 u2 t n send v
  have hu1 : Keeps o u1 := by
    simp only [u1]
    exact hk.frame rfl rfl rfl rfl rfl rfl rfl rfl
  have ht : Keeps o t := Keeps.hostPut _ _ _ hk
  have hv : Keeps o v := Keeps.setRing _ _ _ ht
  split
  · exact Keeps.sendMsix _ _ _ (Keeps.modRoom _ _ _ (Keeps.countRefused _ _ hu1) fun _ hw => hw)
  · split
    · exact Keeps.sendMsix _ _ _ hv
    · exact hv

theorem Keeps.postHeld {o₀ : State} (s : State) (cq : Nat) (h : Held) (hk : Keeps o₀ s) : Keeps o₀ (s.postHeld cq h) := by
  unfold State.postHeld
  repeat' first
    | with_reducible assumption
    | with_reducible apply Keeps.setRing
    | with_reducible apply Keeps.writeRecord
    | (intro _ hw; exact hw)
    | (extract_lets +onlyGivenNames x; refine Keeps.cut (p := Keeps o₀ x) ?_ (fun hx => ?_); rotate_left; clear_value x; rotate_left; try subst x)
    | simp -zeta only [Keeps.lit_iff]
    | fail_if_no_progress (extract_lets +onlyGivenNames x)
    | simp +zetaDelta only [Keeps.lit_iff]
    | (with_reducible apply wf_id; assumption)
    | split
    | intro _

theorem Keeps.flushHeld {o : State} (s : State) (cq : Nat) (l : List Held) (hk : Keeps o s) : Keeps o (s.flushHeld cq l) := by
  induction l generalizing s with
  | nil => exact hk
  | cons h r ih =>
    unfold State.flushHeld
    extract_lets q
    split
    · exact Keeps.setRing _ _ _ hk
    · exact ih _ (Keeps.writeRecord _ _ _ hk)

theorem Keeps.flush {o₀ : State} (s : State) (cq : Nat) (hk : Keeps o₀ s) : Keeps o₀ (s.flush cq) := by
  unfold State.flush
  repeat' first
    | with_reducible assumption
    | with_reducible apply Keeps.modRing
    | with_reducible apply Keeps.flushHeld
    | (intro _ hw; exact hw)
    | (extract_lets +onlyGivenNames x; refine Keeps.cut (p := Keeps o₀ x) ?_ (fun hx => ?_); rotate_left; clear_value x; rotate_left; try subst x)
    | simp -zeta only [Keeps.lit_iff]
    | fail_if_no_progress (extract_lets +onlyGivenNames x)
    | simp +zetaDelta only [Keeps.lit_iff]
    | (with_reducible apply wf_id; assumption)
    | intro _

theorem Keeps.post {o₀ : State} (s : State) (cq index ring : Nat) (rev now_ reserved : Bool) (status aux detail result0 result1 : Nat) (hk : Keeps o₀ s) : Keeps o₀ (s.post cq index ring rev now_ reserved status aux detail result0 result1) := by
  unfold State.post
  repeat' first
    | with_reducible assumption
    | with_reducible apply Keeps.postHeld
    | intro _

theorem Keeps.postInit {o₀ : State} (s : State) (r index ring status detail result0 result1 : Nat) (hk : Keeps o₀ s) : Keeps o₀ (s.postInit r index ring status detail result0 result1) := by
  unfold State.postInit
  repeat' first
    | with_reducible assumption
    | with_reducible apply Keeps.post
    | intro _

theorem Keeps.complete {o₀ : State} (s : State) (ring seq status detail result0 result1 aux : Nat) (hk : Keeps o₀ s) : Keeps o₀ (s.complete ring seq status detail result0 result1 aux) := by
  unfold State.complete
  repeat' first
    | with_reducible assumption
    | (with_reducible eapply Keeps.fstEq; with_reducible assumption)
    | (with_reducible eapply Keeps.sndEq; with_reducible assumption)
    | (with_reducible eapply Keeps.thdEq; with_reducible assumption)
    | with_reducible apply Keeps.setRing
    | with_reducible apply Keeps.post
    | (intro _ hw; exact hw)
    | with_reducible apply Gives.none
    | with_reducible apply Gives.some
    | with_reducible apply Gives.bind
    | (with_reducible eapply Gives.ofEq; with_reducible assumption)
    | (extract_lets +onlyGivenNames x; refine Keeps.cut (p := Keeps o₀ x) ?_ (fun hx => ?_); rotate_left; clear_value x; rotate_left; try subst x)
    | simp -zeta only [Keeps.lit_iff]
    | fail_if_no_progress (extract_lets +onlyGivenNames x)
    | simp +zetaDelta only [Keeps.lit_iff]
    | (with_reducible apply wf_id; assumption)
    | split
    | intro _

theorem Keeps.badAcc {o₀ : State} (s : State) (hk : Keeps o₀ s) : Keeps o₀ (s.badAcc) := by
  unfold State.badAcc
  repeat' first
    | with_reducible assumption
    | (intro _ hw; exact hw)
    | (extract_lets +onlyGivenNames x; refine Keeps.cut (p := Keeps o₀ x) ?_ (fun hx => ?_); rotate_left; clear_value x; rotate_left; try subst x)
    | simp -zeta only [Keeps.lit_iff]
    | fail_if_no_progress (extract_lets +onlyGivenNames x)
    | simp +zetaDelta only [Keeps.lit_iff]
    | intro _

theorem Keeps.thawRings {o₀ : State} (s : State) (p : Nat → Bool) (a b : RingSt) (hk : Keeps o₀ s) : Keeps o₀ (s.thawRings p a b) := by
  unfold State.thawRings
  repeat' first
    | with_reducible assumption
    | (intro _ hw; exact hw)
    | (extract_lets +onlyGivenNames x; refine Keeps.cut (p := Keeps o₀ x) ?_ (fun hx => ?_); rotate_left; clear_value x; rotate_left; try subst x)
    | simp -zeta only [Keeps.lit_iff]
    | fail_if_no_progress (extract_lets +onlyGivenNames x)
    | simp +zetaDelta only [Keeps.lit_iff]
    | split
    | intro _

theorem Keeps.passRooms {o₀ : State} (s : State) (k : Nat) (hk : Keeps o₀ s) : Keeps o₀ (s.passRooms k) := by
  unfold State.passRooms
  repeat' first
    | with_reducible assumption
    | (with_reducible eapply Keeps.fstEq; with_reducible assumption)
    | (with_reducible eapply Keeps.sndEq; with_reducible assumption)
    | (with_reducible eapply Keeps.thdEq; with_reducible assumption)
    | with_reducible apply Keeps.thawRings
    | (intro _ hw; exact hw)
    | with_reducible apply Gives.none
    | with_reducible apply Gives.some
    | with_reducible apply Gives.bind
    | (with_reducible eapply Gives.ofEq; with_reducible assumption)
    | (extract_lets +onlyGivenNames x; refine Keeps.cut (p := Keeps o₀ x) ?_ (fun hx => ?_); rotate_left; clear_value x; rotate_left; try subst x)
    | simp -zeta only [Keeps.lit_iff]
    | fail_if_no_progress (extract_lets +onlyGivenNames x)
    | simp +zetaDelta only [Keeps.lit_iff]
    | exact wf_nil
    | (with_reducible apply wf_id; assumption)
    | split
    | intro _

theorem Keeps.passDevice {o₀ : State} (s : State) (hk : Keeps o₀ s) : Keeps o₀ (s.passDevice) := by
  unfold State.passDevice
  repeat' first
    | with_reducible assumption
    | (with_reducible eapply Keeps.fstEq; with_reducible assumption)
    | (with_reducible eapply Keeps.sndEq; with_reducible assumption)
    | (with_reducible eapply Keeps.thdEq; with_reducible assumption)
    | with_reducible apply Keeps.flushHealth
    | (intro _ hw; exact hw)
    | with_reducible apply Gives.none
    | with_reducible apply Gives.some
    | with_reducible apply Gives.bind
    | (with_reducible eapply Gives.ofEq; with_reducible assumption)
    | (extract_lets +onlyGivenNames x; refine Keeps.cut (p := Keeps o₀ x) ?_ (fun hx => ?_); rotate_left; clear_value x; rotate_left; try subst x)
    | simp -zeta only [Keeps.lit_iff]
    | fail_if_no_progress (extract_lets +onlyGivenNames x)
    | simp +zetaDelta only [Keeps.lit_iff]
    | exact wf_nil
    | (with_reducible apply wf_id; assumption)
    | split
    | intro _

theorem Keeps.passDuties {o₀ : State} (s : State) (hk : Keeps o₀ s) : Keeps o₀ (s.passDuties) := by
  unfold State.passDuties
  repeat' first
    | with_reducible assumption
    | (with_reducible eapply Keeps.fstEq; with_reducible assumption)
    | (with_reducible eapply Keeps.sndEq; with_reducible assumption)
    | (with_reducible eapply Keeps.thdEq; with_reducible assumption)
    | with_reducible apply Keeps.passRooms
    | with_reducible apply Keeps.passDevice
    | with_reducible apply Keeps.foldl
    | with_reducible apply Keeps.foldlFst
    | with_reducible apply Keeps.foldlSnd
    | with_reducible apply Keeps.foldlWrote
    | with_reducible apply wf_foldlData
    | with_reducible apply wf_foldlMem
    | (intro _ hw; exact hw)
    | with_reducible apply Gives.none
    | with_reducible apply Gives.some
    | with_reducible apply Gives.bind
    | (with_reducible eapply Gives.ofEq; with_reducible assumption)
    | (extract_lets +onlyGivenNames x; refine Keeps.cut (p := Keeps o₀ x) ?_ (fun hx => ?_); rotate_left; clear_value x; rotate_left; try subst x)
    | simp -zeta only [Keeps.lit_iff]
    | fail_if_no_progress (extract_lets +onlyGivenNames x)
    | simp +zetaDelta only [Keeps.lit_iff]
    | exact wf_nil
    | (with_reducible apply wf_id; assumption)
    | split
    | intro _

theorem Keeps.modCtx {o₀ : State} (s : State) (core r : Nat) (f : Ctx → Ctx) (hk : Keeps o₀ s) : Keeps o₀ (s.modCtx core r f) := by
  unfold State.modCtx
  repeat' first
    | with_reducible assumption
    | (with_reducible eapply Keeps.fstEq; with_reducible assumption)
    | (with_reducible eapply Keeps.sndEq; with_reducible assumption)
    | (with_reducible eapply Keeps.thdEq; with_reducible assumption)
    | with_reducible apply Keeps.modCore
    | (intro _ hw; exact hw)
    | with_reducible apply Gives.none
    | with_reducible apply Gives.some
    | with_reducible apply Gives.bind
    | (with_reducible eapply Gives.ofEq; with_reducible assumption)
    | (extract_lets +onlyGivenNames x; refine Keeps.cut (p := Keeps o₀ x) ?_ (fun hx => ?_); rotate_left; clear_value x; rotate_left; try subst x)
    | simp -zeta only [Keeps.lit_iff]
    | fail_if_no_progress (extract_lets +onlyGivenNames x)
    | simp +zetaDelta only [Keeps.lit_iff]
    | (with_reducible apply wf_id; assumption)
    | split
    | intro _

theorem Keeps.stall {o₀ : State} (s : State) (r cause ns : Nat) (hk : Keeps o₀ s) : Keeps o₀ (s.stall r cause ns) := by
  unfold State.stall
  repeat' first
    | with_reducible assumption
    | with_reducible apply Keeps.modRoom
    | (intro _ hw; exact hw)
    | (extract_lets +onlyGivenNames x; refine Keeps.cut (p := Keeps o₀ x) ?_ (fun hx => ?_); rotate_left; clear_value x; rotate_left; try subst x)
    | simp -zeta only [Keeps.lit_iff]
    | fail_if_no_progress (extract_lets +onlyGivenNames x)
    | simp +zetaDelta only [Keeps.lit_iff]
    | (with_reducible apply wf_id; assumption)
    | split
    | intro _

theorem Keeps.ledgerStalls {o₀ : State} (s : State) (r : Nat) (hk : Keeps o₀ s) : Keeps o₀ (s.ledgerStalls r) := by
  unfold State.ledgerStalls
  repeat' first
    | with_reducible assumption
    | (with_reducible eapply Keeps.fstEq; with_reducible assumption)
    | (with_reducible eapply Keeps.sndEq; with_reducible assumption)
    | (with_reducible eapply Keeps.thdEq; with_reducible assumption)
    | with_reducible apply Keeps.modLedger
    | (intro _ hw; exact hw)
    | with_reducible apply Gives.none
    | with_reducible apply Gives.some
    | with_reducible apply Gives.bind
    | (with_reducible eapply Gives.ofEq; with_reducible assumption)
    | (extract_lets +onlyGivenNames x; refine Keeps.cut (p := Keeps o₀ x) ?_ (fun hx => ?_); rotate_left; clear_value x; rotate_left; try subst x)
    | simp -zeta only [Keeps.lit_iff]
    | fail_if_no_progress (extract_lets +onlyGivenNames x)
    | simp +zetaDelta only [Keeps.lit_iff]
    | exact wf_nil
    | (with_reducible apply wf_id; assumption)
    | split
    | intro _

end Sys2Proof.Machine
end

