-- ==== Sys2Proof/Laws/KeepsCtrl.lean ====
section
/-! SUPPORT. `Keeps` for the operations of Machine/Ctrl.lean. -/

set_option linter.all false

namespace Sys2Proof.Machine

theorem Keeps.sendOut {o₀ : State} (s : State) (key : Nat) (p : Pkt) (hk : Keeps o₀ s) : Keeps o₀ (s.sendOut key p) := by
  unfold State.sendOut
  repeat' first
    | with_reducible assumption
    | (with_reducible eapply Keeps.fstEq; with_reducible assumption)
    | (with_reducible eapply Keeps.sndEq; with_reducible assumption)
    | (with_reducible eapply Keeps.thdEq; with_reducible assumption)
    | with_reducible apply Keeps.emit
    | (intro _ hw; exact hw)
    | with_reducible apply Gives.none
    | with_reducible apply Gives.some
    | with_reducible apply Gives.bind
    | (with_reducible eapply Gives.ofEq; with_reducible assumption)
    | (extract_lets +onlyGivenNames x; refine Keeps.cut (p := Keeps o₀ x) ?_ (fun hx => ?_); rotate_left; clear_value x; rotate_left; try subst x)
    | simp -zeta only [Keeps.lit_iff]
    | fail_if_no_progress (extract_lets +onlyGivenNames x)
    | simp +zetaDelta only [Keeps.lit_iff]
    | exact wf_nil
    | (with_reducible apply wf_id; assumption)
    | split
    | intro _

theorem Keeps.ctrlSend {o₀ : State} (s : State) (hop far ctype cjob cinc : Nat) (cseq : Option Nat) (body : List Byte) (hk : Keeps o₀ s) : Keeps o₀ (s.ctrlSend hop far ctype cjob cinc cseq body) := by
  unfold State.ctrlSend
  repeat' first
    | with_reducible assumption
    | with_reducible apply Keeps.sendOut
    | (intro _ hw; exact hw)
    | (extract_lets +onlyGivenNames x; refine Keeps.cut (p := Keeps o₀ x) ?_ (fun hx => ?_); rotate_left; clear_value x; rotate_left; try subst x)
    | simp -zeta only [Keeps.lit_iff]
    | fail_if_no_progress (extract_lets +onlyGivenNames x)
    | simp +zetaDelta only [Keeps.lit_iff]
    | split
    | intro _

theorem Keeps.ctrlUp {o₀ : State} (s : State) (ctype cjob cinc : Nat) (cseq : Option Nat) (body : List Byte) (hk : Keeps o₀ s) : Keeps o₀ (s.ctrlUp ctype cjob cinc cseq body) := by
  unfold State.ctrlUp
  repeat' first
    | with_reducible assumption
    | with_reducible apply Keeps.ctrlSend
    | intro _

theorem Keeps.ctrlDown {o₀ : State} (s : State) (mid ctype cjob cinc : Nat) (cseq : Option Nat) (body : List Byte) (hk : Keeps o₀ s) : Keeps o₀ (s.ctrlDown mid ctype cjob cinc cseq body) := by
  unfold State.ctrlDown
  repeat' first
    | with_reducible assumption
    | with_reducible apply Keeps.ctrlSend
    | intro _

theorem Keeps.leave {o₀ : State} (s : State) (code : Nat) (hk : Keeps o₀ s) : Keeps o₀ (s.leave code) := by
  unfold State.leave
  repeat' first
    | with_reducible assumption
    | with_reducible apply Keeps.ctrlSend
    | (intro _ hw; exact hw)
    | with_reducible apply Gives.none
    | with_reducible apply Gives.some
    | with_reducible apply Gives.bind
    | (with_reducible eapply Gives.ofEq; with_reducible assumption)
    | (extract_lets +onlyGivenNames x; refine Keeps.cut (p := Keeps o₀ x) ?_ (fun hx => ?_); rotate_left; clear_value x; rotate_left; try subst x)
    | simp -zeta only [Keeps.lit_iff]
    | fail_if_no_progress (extract_lets +onlyGivenNames x)
    | simp +zetaDelta only [Keeps.lit_iff]
    | split
    | intro _

theorem Keeps.outOfService {o₀ : State} (s : State) (code : Nat) (hk : Keeps o₀ s) : Keeps o₀ (s.outOfService code) := by
  unfold State.outOfService
  repeat' first
    | with_reducible assumption
    | with_reducible apply Keeps.healthRecord
    | with_reducible apply Keeps.leave
    | (intro _ hw; exact hw)
    | (extract_lets +onlyGivenNames x; refine Keeps.cut (p := Keeps o₀ x) ?_ (fun hx => ?_); rotate_left; clear_value x; rotate_left; try subst x)
    | simp -zeta only [Keeps.lit_iff]
    | fail_if_no_progress (extract_lets +onlyGivenNames x)
    | simp +zetaDelta only [Keeps.lit_iff]
    | intro _

end Sys2Proof.Machine
end

