-- ==== Sys2Proof/Laws/KeepsMem.lean ====
section
/-! SUPPORT. `Keeps` for the operations of Machine/Mem.lean. -/

set_option linter.all false

namespace Sys2Proof.Machine

theorem Keeps.modMem {o : State} (s : State) (r : Nat) (f : RoomMem → RoomMem) (hk : Keeps o s)
    (hf : o.MemoryWf → Memory.wf (s.room r).mem.data = true → Memory.wf (f (s.room r).mem).data = true) : Keeps o (s.modMem r f) :=
  Keeps.modRoom s r _ hk hf

theorem Keeps.setPage {o₀ : State} (s : State) (r v : Nat) (p : Page) (hk : Keeps o₀ s) : Keeps o₀ (s.setPage r v p) := by
  unfold State.setPage
  repeat' first
    | with_reducible assumption
    | with_reducible apply Keeps.modMem
    | (intro _ hw; exact hw)
    | (extract_lets +onlyGivenNames x; refine Keeps.cut (p := Keeps o₀ x) ?_ (fun hx => ?_); rotate_left; clear_value x; rotate_left; try subst x)
    | simp -zeta only [Keeps.lit_iff]
    | fail_if_no_progress (extract_lets +onlyGivenNames x)
    | simp +zetaDelta only [Keeps.lit_iff]
    | (with_reducible apply wf_id; assumption)
    | intro _

theorem Keeps.forgetLost {o₀ : State} (s : State) (r : Nat) (p : Nat → Bool) (hk : Keeps o₀ s) : Keeps o₀ (s.forgetLost r p) := by
  unfold State.forgetLost
  repeat' first
    | with_reducible assumption
    | (intro _ hw; exact hw)
    | (extract_lets +onlyGivenNames x; refine Keeps.cut (p := Keeps o₀ x) ?_ (fun hx => ?_); rotate_left; clear_value x; rotate_left; try subst x)
    | simp -zeta only [Keeps.lit_iff]
    | fail_if_no_progress (extract_lets +onlyGivenNames x)
    | simp +zetaDelta only [Keeps.lit_iff]
    | intro _

theorem Keeps.zeroFrame {o₀ : State} (s : State) (t : Tier) (hk : Keeps o₀ s) : Keeps o₀ (s.zeroFrame t) := by
  unfold State.zeroFrame
  repeat' first
    | with_reducible assumption
    | (with_reducible eapply Keeps.fstEq; with_reducible assumption)
    | (with_reducible eapply Keeps.sndEq; with_reducible assumption)
    | (with_reducible eapply Keeps.thdEq; with_reducible assumption)
    | with_reducible apply Keeps.modStack
    | (intro _ hw; exact hw)
    | with_reducible apply Gives.none
    | with_reducible apply Gives.some
    | with_reducible apply Gives.bind
    | (with_reducible eapply Gives.ofEq; with_reducible assumption)
    | (extract_lets +onlyGivenNames x; refine Keeps.cut (p := Keeps o₀ x) ?_ (fun hx => ?_); rotate_left; clear_value x; rotate_left; try subst x)
    | simp -zeta only [Keeps.lit_iff]
    | fail_if_no_progress (extract_lets +onlyGivenNames x)
    | simp +zetaDelta only [Keeps.lit_iff]
    | exact wf_nil
    | (with_reducible apply wf_id; assumption)
    | split
    | intro _

theorem Keeps.seat {o₀ : State} (s : State) (r v : Nat) (p : Page) (t : Tier) (hk : Keeps o₀ s) : Keeps o₀ (s.seat r v p t) := by
  unfold State.seat
  repeat' first
    | with_reducible assumption
    | (with_reducible eapply Keeps.fstEq; with_reducible assumption)
    | (with_reducible eapply Keeps.sndEq; with_reducible assumption)
    | (with_reducible eapply Keeps.thdEq; with_reducible assumption)
    | with_reducible apply Keeps.zeroFrame
    | with_reducible apply Keeps.setPage
    | (intro _ hw; exact hw)
    | with_reducible apply Gives.none
    | with_reducible apply Gives.some
    | with_reducible apply Gives.bind
    | (with_reducible eapply Gives.ofEq; with_reducible assumption)
    | (extract_lets +onlyGivenNames x; refine Keeps.cut (p := Keeps o₀ x) ?_ (fun hx => ?_); rotate_left; clear_value x; rotate_left; try subst x)
    | simp -zeta only [Keeps.lit_iff]
    | fail_if_no_progress (extract_lets +onlyGivenNames x)
    | simp +zetaDelta only [Keeps.lit_iff]
    | exact wf_nil
    | (with_reducible apply wf_id; assumption)
    | split
    | intro _

theorem Keeps.headOfCopy {o₀ : State} (s : State) (r v : Nat) (hk : Keeps o₀ s) : Keeps o₀ (s.headOfCopy r v) := by
  unfold State.headOfCopy
  repeat' first
    | with_reducible assumption
    | (with_reducible eapply Keeps.fstEq; with_reducible assumption)
    | (with_reducible eapply Keeps.sndEq; with_reducible assumption)
    | (with_reducible eapply Keeps.thdEq; with_reducible assumption)
    | with_reducible apply Keeps.modMem
    | (intro _ hw; exact hw)
    | with_reducible apply Gives.none
    | with_reducible apply Gives.some
    | with_reducible apply Gives.bind
    | (with_reducible eapply Gives.ofEq; with_reducible assumption)
    | (extract_lets +onlyGivenNames x; refine Keeps.cut (p := Keeps o₀ x) ?_ (fun hx => ?_); rotate_left; clear_value x; rotate_left; try subst x)
    | simp -zeta only [Keeps.lit_iff]
    | fail_if_no_progress (extract_lets +onlyGivenNames x)
    | simp +zetaDelta only [Keeps.lit_iff]
    | exact wf_nil
    | (with_reducible apply wf_id; assumption)
    | split
    | intro _

theorem Keeps.touchWrite {o₀ : State} (s : State) (r v : Nat) (hk : Keeps o₀ s) : Keeps o₀ (s.touchWrite r v) := by
  unfold State.touchWrite
  repeat' first
    | with_reducible assumption
    | (with_reducible eapply Keeps.fstEq; with_reducible assumption)
    | (with_reducible eapply Keeps.sndEq; with_reducible assumption)
    | (with_reducible eapply Keeps.thdEq; with_reducible assumption)
    | with_reducible apply Keeps.headOfCopy
    | with_reducible apply Keeps.modMem
    | with_reducible apply Keeps.seat
    | (intro _ hw; exact hw)
    | with_reducible apply Gives.none
    | with_reducible apply Gives.some
    | with_reducible apply Gives.bind
    | (with_reducible eapply Gives.ofEq; with_reducible assumption)
    | (extract_lets +onlyGivenNames x; refine Keeps.cut (p := Keeps o₀ x) ?_ (fun hx => ?_); rotate_left; clear_value x; rotate_left; try subst x)
    | simp -zeta only [Keeps.lit_iff]
    | fail_if_no_progress (extract_lets +onlyGivenNames x)
    | simp +zetaDelta only [Keeps.lit_iff]
    | exact wf_nil
    | (with_reducible apply wf_id; assumption)
    | split
    | intro _

theorem Keeps.heat {o₀ : State} (s : State) (r v n : Nat) (hk : Keeps o₀ s) : Keeps o₀ (s.heat r v n) := by
  unfold State.heat
  repeat' first
    | with_reducible assumption
    | (with_reducible eapply Keeps.fstEq; with_reducible assumption)
    | (with_reducible eapply Keeps.sndEq; with_reducible assumption)
    | (with_reducible eapply Keeps.thdEq; with_reducible assumption)
    | with_reducible apply Keeps.modMem
    | (intro _ hw; exact hw)
    | with_reducible apply Gives.none
    | with_reducible apply Gives.some
    | with_reducible apply Gives.bind
    | (with_reducible eapply Gives.ofEq; with_reducible assumption)
    | (extract_lets +onlyGivenNames x; refine Keeps.cut (p := Keeps o₀ x) ?_ (fun hx => ?_); rotate_left; clear_value x; rotate_left; try subst x)
    | simp -zeta only [Keeps.lit_iff]
    | fail_if_no_progress (extract_lets +onlyGivenNames x)
    | simp +zetaDelta only [Keeps.lit_iff]
    | (with_reducible apply wf_id; assumption)
    | split
    | intro _

theorem Keeps.cellarErrs {o₀ : State} (s : State) (e : CellarRead) (hk : Keeps o₀ s) : Keeps o₀ (s.cellarErrs e) := by
  unfold State.cellarErrs
  repeat' first
    | with_reducible assumption
    | (with_reducible eapply Keeps.fstEq; with_reducible assumption)
    | (with_reducible eapply Keeps.sndEq; with_reducible assumption)
    | (with_reducible eapply Keeps.thdEq; with_reducible assumption)
    | with_reducible apply Keeps.corrected
    | with_reducible apply Keeps.count
    | (intro _ hw; exact hw)
    | with_reducible apply Gives.none
    | with_reducible apply Gives.some
    | with_reducible apply Gives.bind
    | (with_reducible eapply Gives.ofEq; with_reducible assumption)
    | (extract_lets +onlyGivenNames x; refine Keeps.cut (p := Keeps o₀ x) ?_ (fun hx => ?_); rotate_left; clear_value x; rotate_left; try subst x)
    | simp -zeta only [Keeps.lit_iff]
    | fail_if_no_progress (extract_lets +onlyGivenNames x)
    | simp +zetaDelta only [Keeps.lit_iff]
    | exact wf_nil
    | (with_reducible apply wf_id; assumption)
    | split
    | intro _

theorem Keeps.cleanse {o₀ : State} (s : State) (r va n : Nat) (hk : Keeps o₀ s) : Keeps o₀ (s.cleanse r va n) := by
  unfold State.cleanse
  repeat' first
    | with_reducible assumption
    | (with_reducible eapply Keeps.fstEq; with_reducible assumption)
    | (with_reducible eapply Keeps.sndEq; with_reducible assumption)
    | (with_reducible eapply Keeps.thdEq; with_reducible assumption)
    | with_reducible apply Keeps.modStack
    | with_reducible apply Keeps.foldl
    | with_reducible apply Keeps.foldlFst
    | with_reducible apply Keeps.foldlSnd
    | with_reducible apply Keeps.foldlWrote
    | with_reducible apply wf_foldlData
    | with_reducible apply wf_foldlMem
    | (intro _ hw; exact hw)
    | with_reducible apply Gives.none
    | with_reducible apply Gives.some
    | with_reducible apply Gives.bind
    | (with_reducible eapply Gives.ofEq; with_reducible assumption)
    | (extract_lets +onlyGivenNames x; refine Keeps.cut (p := Keeps o₀ x) ?_ (fun hx => ?_); rotate_left; clear_value x; rotate_left; try subst x)
    | simp -zeta only [Keeps.lit_iff]
    | fail_if_no_progress (extract_lets +onlyGivenNames x)
    | simp +zetaDelta only [Keeps.lit_iff]
    | (with_reducible apply wf_id; assumption)
    | split
    | intro _

theorem Keeps.writeVa {o : State} (s : State) (r va : Nat) (bytes : List Byte) (hk : Keeps o s) : Keeps o (s.writeVa r va bytes) := by
  unfold State.writeVa
  extract_lets u v
  have hu : Keeps o u := hk.foldl _ fun _ _ h => Keeps.touchWrite _ _ _ h
  exact Keeps.modMem _ _ _ (Keeps.cleanse _ _ _ _ hu) fun _ w => wf_memWriteN w _ _

end Sys2Proof.Machine
end

