-- ==== Sys2Proof/Laws/KeepsContexts.lean ====
section
/-! SUPPORT. `Keeps` for the operations of Machine/Contexts.lean. -/

set_option linter.all false

namespace Sys2Proof.Machine

theorem Keeps.spend {o₀ : State} (s : State) (arb r used : Nat) (hk : Keeps o₀ s) : Keeps o₀ (s.spend arb r used) := by
  unfold State.spend
  repeat' first
    | with_reducible assumption
    | (with_reducible eapply Keeps.fstEq; with_reducible assumption)
    | (with_reducible eapply Keeps.sndEq; with_reducible assumption)
    | (with_reducible eapply Keeps.thdEq; with_reducible assumption)
    | (intro _ hw; exact hw)
    | with_reducible apply Gives.none
    | with_reducible apply Gives.some
    | with_reducible apply Gives.bind
    | (with_reducible eapply Gives.ofEq; with_reducible assumption)
    | (extract_lets +onlyGivenNames x; refine Keeps.cut (p := Keeps o₀ x) ?_ (fun hx => ?_); rotate_left; clear_value x; rotate_left; try subst x)
    | simp -zeta only [Keeps.lit_iff]
    | fail_if_no_progress (extract_lets +onlyGivenNames x)
    | simp +zetaDelta only [Keeps.lit_iff]
    | exact wf_nil
    | (with_reducible apply wf_id; assumption)
    | split
    | intro _

theorem Keeps.wakeOn {o₀ : State} (s : State) (arb r : Nat) (others : List Nat) (hk : Keeps o₀ s) : Keeps o₀ (s.wakeOn arb r others) := by
  unfold State.wakeOn
  repeat' first
    | with_reducible assumption
    | (with_reducible eapply Keeps.fstEq; with_reducible assumption)
    | (with_reducible eapply Keeps.sndEq; with_reducible assumption)
    | (with_reducible eapply Keeps.thdEq; with_reducible assumption)
    | (intro _ hw; exact hw)
    | with_reducible apply Gives.none
    | with_reducible apply Gives.some
    | with_reducible apply Gives.bind
    | (with_reducible eapply Gives.ofEq; with_reducible assumption)
    | (extract_lets +onlyGivenNames x; refine Keeps.cut (p := Keeps o₀ x) ?_ (fun hx => ?_); rotate_left; clear_value x; rotate_left; try subst x)
    | simp -zeta only [Keeps.lit_iff]
    | fail_if_no_progress (extract_lets +onlyGivenNames x)
    | simp +zetaDelta only [Keeps.lit_iff]
    | exact wf_nil
    | (with_reducible apply wf_id; assumption)
    | split
    | intro _

theorem Keeps.arrive {o₀ : State} (s : State) (arb : Nat) (ready : List Nat) (hk : Keeps o₀ s) : Keeps o₀ (s.arrive arb ready) := by
  unfold State.arrive
  repeat' first
    | with_reducible assumption
    | (with_reducible eapply Keeps.fstEq; with_reducible assumption)
    | (with_reducible eapply Keeps.sndEq; with_reducible assumption)
    | (with_reducible eapply Keeps.thdEq; with_reducible assumption)
    | with_reducible apply Keeps.wakeOn
    | with_reducible apply Keeps.foldl
    | with_reducible apply Keeps.foldlFst
    | with_reducible apply Keeps.foldlSnd
    | with_reducible apply Keeps.foldlWrote
    | with_reducible apply wf_foldlData
    | with_reducible apply wf_foldlMem
    | (intro _ hw; exact hw)
    | with_reducible apply Gives.none
    | with_reducible apply Gives.some
    | with_reducible apply Gives.bind
    | (with_reducible eapply Gives.ofEq; with_reducible assumption)
    | (extract_lets +onlyGivenNames x; refine Keeps.cut (p := Keeps o₀ x) ?_ (fun hx => ?_); rotate_left; clear_value x; rotate_left; try subst x)
    | simp -zeta only [Keeps.lit_iff]
    | fail_if_no_progress (extract_lets +onlyGivenNames x)
    | simp +zetaDelta only [Keeps.lit_iff]
    | exact wf_nil
    | (with_reducible apply wf_id; assumption)
    | split
    | intro _

theorem Keeps.serve {o₀ : State} (s : State) (arb : Nat) (lcFirst : Bool) (ready : List Nat) (r : Nat) (hk : Keeps o₀ s) : Gives o₀ (s.serve arb lcFirst ready r) := by
  unfold State.serve
  repeat' first
    | with_reducible assumption
    | (with_reducible eapply Keeps.fstEq; with_reducible assumption)
    | (with_reducible eapply Keeps.sndEq; with_reducible assumption)
    | (with_reducible eapply Keeps.thdEq; with_reducible assumption)
    | with_reducible apply Keeps.arrive
    | (intro _ hw; exact hw)
    | with_reducible apply Gives.none
    | with_reducible apply Gives.some
    | with_reducible apply Gives.bind
    | (with_reducible eapply Gives.ofEq; with_reducible assumption)
    | (extract_lets +onlyGivenNames x; refine Keeps.cut (p := Keeps o₀ x) ?_ (fun hx => ?_); rotate_left; clear_value x; rotate_left; try subst x)
    | simp -zeta only [Keeps.lit_iff]
    | fail_if_no_progress (extract_lets +onlyGivenNames x)
    | simp +zetaDelta only [Keeps.lit_iff]
    | exact wf_nil
    | (with_reducible apply wf_id; assumption)
    | split
    | intro _

theorem Keeps.settle {o₀ : State} (s : State) (arb : Nat) (ready : List Nat) (hk : Keeps o₀ s) : Keeps o₀ (s.settle arb ready) := by
  unfold State.settle
  repeat' first
    | with_reducible assumption
    | (with_reducible eapply Keeps.fstEq; with_reducible assumption)
    | (with_reducible eapply Keeps.sndEq; with_reducible assumption)
    | (with_reducible eapply Keeps.thdEq; with_reducible assumption)
    | (intro _ hw; exact hw)
    | with_reducible apply Gives.none
    | with_reducible apply Gives.some
    | with_reducible apply Gives.bind
    | (with_reducible eapply Gives.ofEq; with_reducible assumption)
    | (extract_lets +onlyGivenNames x; refine Keeps.cut (p := Keeps o₀ x) ?_ (fun hx => ?_); rotate_left; clear_value x; rotate_left; try subst x)
    | simp -zeta only [Keeps.lit_iff]
    | fail_if_no_progress (extract_lets +onlyGivenNames x)
    | simp +zetaDelta only [Keeps.lit_iff]
    | exact wf_nil
    | (with_reducible apply wf_id; assumption)
    | split
    | intro _

theorem Keeps.stackAccess {o₀ : State} (s : State) (site r : Nat) (sieve : Bool) (n : Nat) (hk : Keeps o₀ s) : Keeps o₀ (s.stackAccess site r sieve n) := by
  unfold State.stackAccess
  repeat' first
    | with_reducible assumption
    | (with_reducible eapply Keeps.fstEq; with_reducible assumption)
    | (with_reducible eapply Keeps.sndEq; with_reducible assumption)
    | (with_reducible eapply Keeps.thdEq; with_reducible assumption)
    | with_reducible apply Keeps.modStack
    | with_reducible apply Keeps.spend
    | (intro _ hw; exact hw)
    | with_reducible apply Gives.none
    | with_reducible apply Gives.some
    | with_reducible apply Gives.bind
    | (with_reducible eapply Gives.ofEq; with_reducible assumption)
    | (extract_lets +onlyGivenNames x; refine Keeps.cut (p := Keeps o₀ x) ?_ (fun hx => ?_); rotate_left; clear_value x; rotate_left; try subst x)
    | simp -zeta only [Keeps.lit_iff]
    | fail_if_no_progress (extract_lets +onlyGivenNames x)
    | simp +zetaDelta only [Keeps.lit_iff]
    | exact wf_nil
    | (with_reducible apply wf_id; assumption)
    | split
    | intro _

theorem Keeps.refreshCtx {o₀ : State} (s : State) (core r : Nat) (hk : Keeps o₀ s) : Keeps o₀ (s.refreshCtx core r) := by
  unfold State.refreshCtx
  repeat' first
    | with_reducible assumption
    | (with_reducible eapply Keeps.fstEq; with_reducible assumption)
    | (with_reducible eapply Keeps.sndEq; with_reducible assumption)
    | (with_reducible eapply Keeps.thdEq; with_reducible assumption)
    | with_reducible apply Keeps.modCtx
    | with_reducible apply Keeps.wakeOn
    | (intro _ hw; exact hw)
    | with_reducible apply Gives.none
    | with_reducible apply Gives.some
    | with_reducible apply Gives.bind
    | (with_reducible eapply Gives.ofEq; with_reducible assumption)
    | (extract_lets +onlyGivenNames x; refine Keeps.cut (p := Keeps o₀ x) ?_ (fun hx => ?_); rotate_left; clear_value x; rotate_left; try subst x)
    | simp -zeta only [Keeps.lit_iff]
    | fail_if_no_progress (extract_lets +onlyGivenNames x)
    | simp +zetaDelta only [Keeps.lit_iff]
    | exact wf_nil
    | (with_reducible apply wf_id; assumption)
    | split
    | intro _

theorem Keeps.refresh {o₀ : State} (s : State) (core : Nat) (hk : Keeps o₀ s) : Keeps o₀ (s.refresh core) := by
  unfold State.refresh
  repeat' first
    | with_reducible assumption
    | (with_reducible eapply Keeps.fstEq; with_reducible assumption)
    | (with_reducible eapply Keeps.sndEq; with_reducible assumption)
    | (with_reducible eapply Keeps.thdEq; with_reducible assumption)
    | with_reducible apply Keeps.refreshCtx
    | with_reducible apply Keeps.foldl
    | with_reducible apply Keeps.foldlFst
    | with_reducible apply Keeps.foldlSnd
    | with_reducible apply Keeps.foldlWrote
    | with_reducible apply wf_foldlData
    | with_reducible apply wf_foldlMem
    | (intro _ hw; exact hw)
    | with_reducible apply Gives.none
    | with_reducible apply Gives.some
    | with_reducible apply Gives.bind
    | (with_reducible eapply Gives.ofEq; with_reducible assumption)
    | (extract_lets +onlyGivenNames x; refine Keeps.cut (p := Keeps o₀ x) ?_ (fun hx => ?_); rotate_left; clear_value x; rotate_left; try subst x)
    | simp -zeta only [Keeps.lit_iff]
    | fail_if_no_progress (extract_lets +onlyGivenNames x)
    | simp +zetaDelta only [Keeps.lit_iff]
    | exact wf_nil
    | (with_reducible apply wf_id; assumption)
    | split
    | intro _

theorem Keeps.chargeCore {o₀ : State} (s : State) (core r ns : Nat) (hk : Keeps o₀ s) : Keeps o₀ (s.chargeCore core r ns) := by
  unfold State.chargeCore
  repeat' first
    | with_reducible assumption
    | (with_reducible eapply Keeps.fstEq; with_reducible assumption)
    | (with_reducible eapply Keeps.sndEq; with_reducible assumption)
    | (with_reducible eapply Keeps.thdEq; with_reducible assumption)
    | with_reducible apply Keeps.charge
    | with_reducible apply Keeps.spend
    | (intro _ hw; exact hw)
    | with_reducible apply Gives.none
    | with_reducible apply Gives.some
    | with_reducible apply Gives.bind
    | (with_reducible eapply Gives.ofEq; with_reducible assumption)
    | (extract_lets +onlyGivenNames x; refine Keeps.cut (p := Keeps o₀ x) ?_ (fun hx => ?_); rotate_left; clear_value x; rotate_left; try subst x)
    | simp -zeta only [Keeps.lit_iff]
    | fail_if_no_progress (extract_lets +onlyGivenNames x)
    | simp +zetaDelta only [Keeps.lit_iff]
    | exact wf_nil
    | (with_reducible apply wf_id; assumption)
    | split
    | intro _

theorem Keeps.account {o₀ : State} (s : State) (core : Nat) (hk : Keeps o₀ s) : Keeps o₀ (s.account core) := by
  unfold State.account
  repeat' first
    | with_reducible assumption
    | (with_reducible eapply Keeps.fstEq; with_reducible assumption)
    | (with_reducible eapply Keeps.sndEq; with_reducible assumption)
    | (with_reducible eapply Keeps.thdEq; with_reducible assumption)
    | with_reducible apply Keeps.setCore
    | with_reducible apply Keeps.chargeCore
    | with_reducible apply Keeps.stall
    | (intro _ hw; exact hw)
    | with_reducible apply Gives.none
    | with_reducible apply Gives.some
    | with_reducible apply Gives.bind
    | (with_reducible eapply Gives.ofEq; with_reducible assumption)
    | (extract_lets +onlyGivenNames x; refine Keeps.cut (p := Keeps o₀ x) ?_ (fun hx => ?_); rotate_left; clear_value x; rotate_left; try subst x)
    | simp -zeta only [Keeps.lit_iff]
    | fail_if_no_progress (extract_lets +onlyGivenNames x)
    | simp +zetaDelta only [Keeps.lit_iff]
    | exact wf_nil
    | (with_reducible apply wf_id; assumption)
    | split
    | intro _

theorem Keeps.accountRoom {o₀ : State} (s : State) (r : Nat) (hk : Keeps o₀ s) : Keeps o₀ (s.accountRoom r) := by
  unfold State.accountRoom
  repeat' first
    | with_reducible assumption
    | (with_reducible eapply Keeps.fstEq; with_reducible assumption)
    | (with_reducible eapply Keeps.sndEq; with_reducible assumption)
    | (with_reducible eapply Keeps.thdEq; with_reducible assumption)
    | with_reducible apply Keeps.account
    | with_reducible apply Keeps.coresFilter
    | with_reducible apply Keeps.coresMap
    | with_reducible apply Keeps.foldl
    | with_reducible apply Keeps.foldlFst
    | with_reducible apply Keeps.foldlSnd
    | with_reducible apply Keeps.foldlWrote
    | with_reducible apply wf_foldlData
    | with_reducible apply wf_foldlMem
    | (intro _ hw; exact hw)
    | with_reducible apply Gives.none
    | with_reducible apply Gives.some
    | with_reducible apply Gives.bind
    | (with_reducible eapply Gives.ofEq; with_reducible assumption)
    | (extract_lets +onlyGivenNames x; refine Keeps.cut (p := Keeps o₀ x) ?_ (fun hx => ?_); rotate_left; clear_value x; rotate_left; try subst x)
    | simp -zeta only [Keeps.lit_iff]
    | fail_if_no_progress (extract_lets +onlyGivenNames x)
    | simp +zetaDelta only [Keeps.lit_iff]
    | exact wf_nil
    | (with_reducible apply wf_id; assumption)
    | split
    | intro _

theorem Keeps.postCount {o₀ : State} (s : State) (r core ctr n cause promo : Nat) (hk : Keeps o₀ s) : Keeps o₀ (s.postCount r core ctr n cause promo) := by
  unfold State.postCount
  repeat' first
    | with_reducible assumption
    | (with_reducible eapply Keeps.fstEq; with_reducible assumption)
    | (with_reducible eapply Keeps.sndEq; with_reducible assumption)
    | (with_reducible eapply Keeps.thdEq; with_reducible assumption)
    | with_reducible apply Keeps.modCtx
    | with_reducible apply Keeps.refreshCtx
    | (intro _ hw; exact hw)
    | with_reducible apply Gives.none
    | with_reducible apply Gives.some
    | with_reducible apply Gives.bind
    | (with_reducible eapply Gives.ofEq; with_reducible assumption)
    | (extract_lets +onlyGivenNames x; refine Keeps.cut (p := Keeps o₀ x) ?_ (fun hx => ?_); rotate_left; clear_value x; rotate_left; try subst x)
    | simp -zeta only [Keeps.lit_iff]
    | fail_if_no_progress (extract_lets +onlyGivenNames x)
    | simp +zetaDelta only [Keeps.lit_iff]
    | exact wf_nil
    | (with_reducible apply wf_id; assumption)
    | split
    | intro _

theorem Keeps.postCounter {o₀ : State} (s : State) (r core ctr n cause : Nat) (hk : Keeps o₀ s) : Keeps o₀ (s.postCounter r core ctr n cause) := by
  unfold State.postCounter
  repeat' first
    | with_reducible assumption
    | (with_reducible eapply Keeps.fstEq; with_reducible assumption)
    | (with_reducible eapply Keeps.sndEq; with_reducible assumption)
    | (with_reducible eapply Keeps.thdEq; with_reducible assumption)
    | with_reducible apply Keeps.postCount
    | (intro _ hw; exact hw)
    | with_reducible apply Gives.none
    | with_reducible apply Gives.some
    | with_reducible apply Gives.bind
    | (with_reducible eapply Gives.ofEq; with_reducible assumption)
    | (extract_lets +onlyGivenNames x; refine Keeps.cut (p := Keeps o₀ x) ?_ (fun hx => ?_); rotate_left; clear_value x; rotate_left; try subst x)
    | simp -zeta only [Keeps.lit_iff]
    | fail_if_no_progress (extract_lets +onlyGivenNames x)
    | simp +zetaDelta only [Keeps.lit_iff]
    | exact wf_nil
    | (with_reducible apply wf_id; assumption)
    | split
    | intro _

end Sys2Proof.Machine
end

