-- ==== Sys2Proof/Laws/KeepsJob.lean ====
section
/-! SUPPORT. `Keeps` for the operations of Machine/Job.lean. -/

set_option linter.all false

namespace Sys2Proof.Machine

theorem Keeps.finish {o₀ : State} (s : State) (l : List Done) (hk : Keeps o₀ s) : Keeps o₀ (s.finish l) := by
  unfold State.finish
  repeat' first
    | with_reducible assumption
    | with_reducible apply Keeps.complete
    | with_reducible apply Keeps.foldl
    | with_reducible apply Keeps.foldlFst
    | with_reducible apply Keeps.foldlSnd
    | with_reducible apply Keeps.foldlWrote
    | with_reducible apply wf_foldlData
    | with_reducible apply wf_foldlMem
    | intro _

theorem Keeps.setMode {o₀ : State} (s : State) (r kind value : Nat) (entries : List (Nat × Nat × Nat)) (hk : Keeps o₀ s) : Keeps o₀ (s.setMode r kind value entries) := by
  unfold State.setMode
  repeat' first
    | with_reducible assumption
    | with_reducible apply Keeps.modRoom
    | (intro _ hw; exact hw)
    | (extract_lets +onlyGivenNames x; refine Keeps.cut (p := Keeps o₀ x) ?_ (fun hx => ?_); rotate_left; clear_value x; rotate_left; try subst x)
    | simp -zeta only [Keeps.lit_iff]
    | fail_if_no_progress (extract_lets +onlyGivenNames x)
    | simp +zetaDelta only [Keeps.lit_iff]
    | (with_reducible apply wf_id; assumption)
    | split
    | intro _

theorem Keeps.applyMode {o₀ : State} (s : State) (r : Nat) (m : ModeChange) (hk : Keeps o₀ s) : Keeps o₀ (s.applyMode r m) := by
  unfold State.applyMode
  repeat' first
    | with_reducible assumption
    | with_reducible apply Keeps.setMode
    | (intro _ hw; exact hw)
    | (with_reducible apply wf_id; assumption)
    | intro _

theorem Keeps.setPlan {o₀ : State} (s : State) (r : Nat) (p : Option SnapPlan) (hk : Keeps o₀ s) : Keeps o₀ (s.setPlan r p) := by
  unfold State.setPlan
  repeat' first
    | with_reducible assumption
    | (with_reducible eapply Keeps.fstEq; with_reducible assumption)
    | (with_reducible eapply Keeps.sndEq; with_reducible assumption)
    | (with_reducible eapply Keeps.thdEq; with_reducible assumption)
    | with_reducible apply Keeps.modMem
    | (intro _ hw; exact hw)
    | with_reducible apply Gives.none
    | with_reducible apply Gives.some
    | with_reducible apply Gives.bind
    | (with_reducible eapply Gives.ofEq; with_reducible assumption)
    | (extract_lets +onlyGivenNames x; refine Keeps.cut (p := Keeps o₀ x) ?_ (fun hx => ?_); rotate_left; clear_value x; rotate_left; try subst x)
    | simp -zeta only [Keeps.lit_iff]
    | fail_if_no_progress (extract_lets +onlyGivenNames x)
    | simp +zetaDelta only [Keeps.lit_iff]
    | exact wf_nil
    | (with_reducible apply wf_id; assumption)
    | split
    | intro _

theorem Keeps.takeEffect {o₀ : State} (s : State) (r e : Nat) (hk : Keeps o₀ s) : Keeps o₀ (s.takeEffect r e).1 := by
  unfold State.takeEffect
  repeat' first
    | with_reducible assumption
    | (with_reducible eapply Keeps.fstEq; with_reducible assumption)
    | (with_reducible eapply Keeps.sndEq; with_reducible assumption)
    | (with_reducible eapply Keeps.thdEq; with_reducible assumption)
    | with_reducible apply Keeps.modRoom
    | with_reducible apply Keeps.applyMode
    | with_reducible apply Keeps.setPlan
    | with_reducible apply Keeps.foldl
    | with_reducible apply Keeps.foldlFst
    | with_reducible apply Keeps.foldlSnd
    | with_reducible apply Keeps.foldlWrote
    | with_reducible apply wf_foldlData
    | with_reducible apply wf_foldlMem
    | (intro _ hw; exact hw)
    | with_reducible apply Gives.none
    | with_reducible apply Gives.some
    | with_reducible apply Gives.bind
    | (with_reducible eapply Gives.ofEq; with_reducible assumption)
    | (extract_lets +onlyGivenNames x; refine Keeps.cut (p := Keeps o₀ x) ?_ (fun hx => ?_); rotate_left; clear_value x; rotate_left; try subst x)
    | simp -zeta only [Keeps.lit_iff]
    | fail_if_no_progress (extract_lets +onlyGivenNames x)
    | simp +zetaDelta only [Keeps.lit_iff]
    | (with_reducible apply wf_id; assumption)
    | split
    | intro _

theorem Keeps.freeCores {o₀ : State} (s : State) (r : Nat) (hk : Keeps o₀ s) : Keeps o₀ (s.freeCores r) := by
  unfold State.freeCores
  repeat' first
    | with_reducible assumption
    | (with_reducible eapply Keeps.fstEq; with_reducible assumption)
    | (with_reducible eapply Keeps.sndEq; with_reducible assumption)
    | (with_reducible eapply Keeps.thdEq; with_reducible assumption)
    | with_reducible apply Keeps.accountRoom
    | with_reducible apply Keeps.coresFilter
    | with_reducible apply Keeps.coresMap
    | (intro _ hw; exact hw)
    | with_reducible apply Gives.none
    | with_reducible apply Gives.some
    | with_reducible apply Gives.bind
    | (with_reducible eapply Gives.ofEq; with_reducible assumption)
    | (extract_lets +onlyGivenNames x; refine Keeps.cut (p := Keeps o₀ x) ?_ (fun hx => ?_); rotate_left; clear_value x; rotate_left; try subst x)
    | simp -zeta only [Keeps.lit_iff]
    | fail_if_no_progress (extract_lets +onlyGivenNames x)
    | simp +zetaDelta only [Keeps.lit_iff]
    | exact wf_nil
    | (with_reducible apply wf_id; assumption)
    | split
    | intro _

theorem Keeps.cutEngines {o₀ : State} (s : State) (r : Nat) (hk : Keeps o₀ s) : Keeps o₀ (s.cutEngines r) := by
  unfold State.cutEngines
  repeat' first
    | with_reducible assumption
    | with_reducible apply Keeps.modRoom
    | (intro _ hw; exact hw)
    | with_reducible apply Gives.none
    | with_reducible apply Gives.some
    | with_reducible apply Gives.bind
    | (with_reducible eapply Gives.ofEq; with_reducible assumption)
    | (extract_lets +onlyGivenNames x; refine Keeps.cut (p := Keeps o₀ x) ?_ (fun hx => ?_); rotate_left; clear_value x; rotate_left; try subst x)
    | simp -zeta only [Keeps.lit_iff]
    | fail_if_no_progress (extract_lets +onlyGivenNames x)
    | simp +zetaDelta only [Keeps.lit_iff]
    | (with_reducible apply wf_id; assumption)
    | intro _

theorem Keeps.cutSnap {o₀ : State} (s : State) (r : Nat) (hk : Keeps o₀ s) : Keeps o₀ (s.cutSnap r) := by
  unfold State.cutSnap
  repeat' first
    | with_reducible assumption
    | (with_reducible eapply Keeps.fstEq; with_reducible assumption)
    | (with_reducible eapply Keeps.sndEq; with_reducible assumption)
    | (with_reducible eapply Keeps.thdEq; with_reducible assumption)
    | with_reducible apply Keeps.modMem
    | (intro _ hw; exact hw)
    | with_reducible apply Gives.none
    | with_reducible apply Gives.some
    | with_reducible apply Gives.bind
    | (with_reducible eapply Gives.ofEq; with_reducible assumption)
    | (extract_lets +onlyGivenNames x; refine Keeps.cut (p := Keeps o₀ x) ?_ (fun hx => ?_); rotate_left; clear_value x; rotate_left; try subst x)
    | simp -zeta only [Keeps.lit_iff]
    | fail_if_no_progress (extract_lets +onlyGivenNames x)
    | simp +zetaDelta only [Keeps.lit_iff]
    | (with_reducible apply wf_id; assumption)
    | split
    | intro _

theorem Keeps.dropWaiters {o₀ : State} (s : State) (r : Nat) (hk : Keeps o₀ s) : Keeps o₀ (s.dropWaiters r) := by
  unfold State.dropWaiters
  repeat' first
    | with_reducible assumption
    | (with_reducible eapply Keeps.fstEq; with_reducible assumption)
    | (with_reducible eapply Keeps.sndEq; with_reducible assumption)
    | (with_reducible eapply Keeps.thdEq; with_reducible assumption)
    | with_reducible apply Keeps.modRoom
    | (intro _ hw; exact hw)
    | with_reducible apply Gives.none
    | with_reducible apply Gives.some
    | with_reducible apply Gives.bind
    | (with_reducible eapply Gives.ofEq; with_reducible assumption)
    | (extract_lets +onlyGivenNames x; refine Keeps.cut (p := Keeps o₀ x) ?_ (fun hx => ?_); rotate_left; clear_value x; rotate_left; try subst x)
    | simp -zeta only [Keeps.lit_iff]
    | fail_if_no_progress (extract_lets +onlyGivenNames x)
    | simp +zetaDelta only [Keeps.lit_iff]
    | exact wf_nil
    | (with_reducible apply wf_id; assumption)
    | split
    | intro _

theorem Keeps.endJob {o₀ : State} (s : State) (r status detail : Nat) (done : List Done) (last : Option Nat) (hk : Keeps o₀ s) : Keeps o₀ (s.endJob r status detail done last) := by
  unfold State.endJob
  repeat' first
    | with_reducible assumption
    | (with_reducible eapply Keeps.fstEq; with_reducible assumption)
    | (with_reducible eapply Keeps.sndEq; with_reducible assumption)
    | (with_reducible eapply Keeps.thdEq; with_reducible assumption)
    | with_reducible apply Keeps.done
    | with_reducible apply Keeps.freeCores
    | with_reducible apply Keeps.cutEngines
    | with_reducible apply Keeps.cutSnap
    | with_reducible apply Keeps.dropWaiters
    | with_reducible apply Keeps.modRoom
    | with_reducible apply Keeps.finish
    | with_reducible apply Keeps.complete
    | with_reducible apply Keeps.passDuties
    | (intro _ hw; exact hw)
    | with_reducible apply Gives.none
    | with_reducible apply Gives.some
    | with_reducible apply Gives.bind
    | (with_reducible eapply Gives.ofEq; with_reducible assumption)
    | (extract_lets +onlyGivenNames x; refine Keeps.cut (p := Keeps o₀ x) ?_ (fun hx => ?_); rotate_left; clear_value x; rotate_left; try subst x)
    | simp -zeta only [Keeps.lit_iff]
    | fail_if_no_progress (extract_lets +onlyGivenNames x)
    | simp +zetaDelta only [Keeps.lit_iff]
    | exact wf_nil
    | (with_reducible apply wf_id; assumption)
    | split
    | intro _

theorem Keeps.markSlow {o₀ : State} (s : State) (core : Nat) (hk : Keeps o₀ s) : Keeps o₀ (s.markSlow core) := by
  unfold State.markSlow
  repeat' first
    | with_reducible assumption
    | with_reducible apply Keeps.healthRecord
    | (intro _ hw; exact hw)
    | (extract_lets +onlyGivenNames x; refine Keeps.cut (p := Keeps o₀ x) ?_ (fun hx => ?_); rotate_left; clear_value x; rotate_left; try subst x)
    | simp -zeta only [Keeps.lit_iff]
    | fail_if_no_progress (extract_lets +onlyGivenNames x)
    | simp +zetaDelta only [Keeps.lit_iff]
    | (with_reducible apply wf_id; assumption)
    | split
    | intro _

theorem Keeps.slowCores {o₀ : State} (s : State) (r : Nat) (hk : Keeps o₀ s) : Keeps o₀ (s.slowCores r) := by
  unfold State.slowCores
  repeat' first
    | with_reducible assumption
    | with_reducible apply Keeps.markSlow
    | with_reducible apply Keeps.foldl
    | with_reducible apply Keeps.foldlFst
    | with_reducible apply Keeps.foldlSnd
    | with_reducible apply Keeps.foldlWrote
    | with_reducible apply wf_foldlData
    | with_reducible apply wf_foldlMem
    | (extract_lets +onlyGivenNames x; refine Keeps.cut (p := Keeps o₀ x) ?_ (fun hx => ?_); rotate_left; clear_value x; rotate_left; try subst x)
    | fail_if_no_progress (extract_lets +onlyGivenNames x)
    | intro _

theorem Keeps.stallBarrier {o₀ : State} (s : State) (r cause : Nat) (hk : Keeps o₀ s) : Keeps o₀ (s.stallBarrier r cause) := by
  unfold State.stallBarrier
  repeat' first
    | with_reducible assumption
    | (with_reducible eapply Keeps.fstEq; with_reducible assumption)
    | (with_reducible eapply Keeps.sndEq; with_reducible assumption)
    | (with_reducible eapply Keeps.thdEq; with_reducible assumption)
    | with_reducible apply Keeps.stall
    | with_reducible apply Keeps.coresFilter
    | with_reducible apply Keeps.coresMap
    | with_reducible apply Keeps.foldl
    | with_reducible apply Keeps.foldlFst
    | with_reducible apply Keeps.foldlSnd
    | with_reducible apply Keeps.foldlWrote
    | with_reducible apply wf_foldlData
    | with_reducible apply wf_foldlMem
    | (intro _ hw; exact hw)
    | with_reducible apply Gives.none
    | with_reducible apply Gives.some
    | with_reducible apply Gives.bind
    | (with_reducible eapply Gives.ofEq; with_reducible assumption)
    | (extract_lets +onlyGivenNames x; refine Keeps.cut (p := Keeps o₀ x) ?_ (fun hx => ?_); rotate_left; clear_value x; rotate_left; try subst x)
    | simp -zeta only [Keeps.lit_iff]
    | fail_if_no_progress (extract_lets +onlyGivenNames x)
    | simp +zetaDelta only [Keeps.lit_iff]
    | exact wf_nil
    | (with_reducible apply wf_id; assumption)
    | split
    | intro _

theorem Keeps.releaseBarrier {o₀ : State} (s : State) (r : Nat) (complete : Option Nat) (hk : Keeps o₀ s) : Keeps o₀ (s.releaseBarrier r complete) := by
  unfold State.releaseBarrier
  repeat' first
    | with_reducible assumption
    | (with_reducible eapply Keeps.fstEq; with_reducible assumption)
    | (with_reducible eapply Keeps.sndEq; with_reducible assumption)
    | (with_reducible eapply Keeps.thdEq; with_reducible assumption)
    | with_reducible apply Keeps.done
    | with_reducible apply Keeps.takeEffect
    | with_reducible apply Keeps.complete
    | with_reducible apply Keeps.modRoom
    | with_reducible apply Keeps.stallBarrier
    | with_reducible apply Keeps.accountRoom
    | with_reducible apply Keeps.ledgerStalls
    | with_reducible apply Keeps.modLedger
    | with_reducible apply Keeps.slowCores
    | with_reducible apply Keeps.refresh
    | with_reducible apply Keeps.endJob
    | with_reducible apply Keeps.finish
    | with_reducible apply Keeps.coresFilter
    | with_reducible apply Keeps.coresMap
    | with_reducible apply Keeps.foldl
    | with_reducible apply Keeps.foldlFst
    | with_reducible apply Keeps.foldlSnd
    | with_reducible apply Keeps.foldlWrote
    | with_reducible apply wf_foldlData
    | with_reducible apply wf_foldlMem
    | (intro _ hw; exact hw)
    | with_reducible apply Gives.none
    | with_reducible apply Gives.some
    | with_reducible apply Gives.bind
    | (with_reducible eapply Gives.ofEq; with_reducible assumption)
    | (extract_lets +onlyGivenNames x; refine Keeps.cut (p := Keeps o₀ x) ?_ (fun hx => ?_); rotate_left; clear_value x; rotate_left; try subst x)
    | simp -zeta only [Keeps.lit_iff]
    | fail_if_no_progress (extract_lets +onlyGivenNames x)
    | simp +zetaDelta only [Keeps.lit_iff]
    | exact wf_nil
    | (with_reducible apply wf_id; assumption)
    | split
    | intro _

theorem Keeps.latch {o₀ : State} (s : State) (r code unit : Nat) (j : Job) (hk : Keeps o₀ s) : Keeps o₀ (s.latch r code unit j) := by
  unfold State.latch
  repeat' first
    | with_reducible assumption
    | (with_reducible eapply Keeps.fstEq; with_reducible assumption)
    | (with_reducible eapply Keeps.sndEq; with_reducible assumption)
    | (with_reducible eapply Keeps.thdEq; with_reducible assumption)
    | with_reducible apply Keeps.modRoom
    | with_reducible apply Keeps.charge
    | with_reducible apply Keeps.healthRecord
    | with_reducible apply Keeps.freeCores
    | with_reducible apply Keeps.cutEngines
    | with_reducible apply Keeps.cutSnap
    | (intro _ hw; exact hw)
    | with_reducible apply Gives.none
    | with_reducible apply Gives.some
    | with_reducible apply Gives.bind
    | (with_reducible eapply Gives.ofEq; with_reducible assumption)
    | (extract_lets +onlyGivenNames x; refine Keeps.cut (p := Keeps o₀ x) ?_ (fun hx => ?_); rotate_left; clear_value x; rotate_left; try subst x)
    | simp -zeta only [Keeps.lit_iff]
    | fail_if_no_progress (extract_lets +onlyGivenNames x)
    | simp +zetaDelta only [Keeps.lit_iff]
    | exact wf_nil
    | (with_reducible apply wf_id; assumption)
    | split
    | intro _

theorem Keeps.abortRoom {o₀ : State} (s : State) (r code : Nat) (last : Option Nat) (hk : Keeps o₀ s) : Keeps o₀ (s.abortRoom r code last) := by
  unfold State.abortRoom
  repeat' first
    | with_reducible assumption
    | (with_reducible eapply Keeps.fstEq; with_reducible assumption)
    | (with_reducible eapply Keeps.sndEq; with_reducible assumption)
    | (with_reducible eapply Keeps.thdEq; with_reducible assumption)
    | with_reducible apply Keeps.modRoom
    | with_reducible apply Keeps.endJob
    | with_reducible apply Keeps.latch
    | (intro _ hw; exact hw)
    | with_reducible apply Gives.none
    | with_reducible apply Gives.some
    | with_reducible apply Gives.bind
    | (with_reducible eapply Gives.ofEq; with_reducible assumption)
    | (extract_lets +onlyGivenNames x; refine Keeps.cut (p := Keeps o₀ x) ?_ (fun hx => ?_); rotate_left; clear_value x; rotate_left; try subst x)
    | simp -zeta only [Keeps.lit_iff]
    | fail_if_no_progress (extract_lets +onlyGivenNames x)
    | simp +zetaDelta only [Keeps.lit_iff]
    | (with_reducible apply wf_id; assumption)
    | split
    | intro _

theorem Keeps.headAbort {o₀ : State} (s : State) (tag rank code : Nat) (hk : Keeps o₀ s) : Keeps o₀ (s.headAbort tag rank code) := by
  unfold State.headAbort
  repeat' first
    | with_reducible assumption
    | (with_reducible eapply Keeps.fstEq; with_reducible assumption)
    | (with_reducible eapply Keeps.sndEq; with_reducible assumption)
    | (with_reducible eapply Keeps.thdEq; with_reducible assumption)
    | with_reducible apply Keeps.healthRecord
    | with_reducible apply Keeps.ctrlDown
    | with_reducible apply Keeps.abortRoom
    | with_reducible apply Keeps.foldl
    | with_reducible apply Keeps.foldlFst
    | with_reducible apply Keeps.foldlSnd
    | with_reducible apply Keeps.foldlWrote
    | with_reducible apply wf_foldlData
    | with_reducible apply wf_foldlMem
    | (intro _ hw; exact hw)
    | with_reducible apply Gives.none
    | with_reducible apply Gives.some
    | with_reducible apply Gives.bind
    | (with_reducible eapply Gives.ofEq; with_reducible assumption)
    | (extract_lets +onlyGivenNames x; refine Keeps.cut (p := Keeps o₀ x) ?_ (fun hx => ?_); rotate_left; clear_value x; rotate_left; try subst x)
    | simp -zeta only [Keeps.lit_iff]
    | fail_if_no_progress (extract_lets +onlyGivenNames x)
    | simp +zetaDelta only [Keeps.lit_iff]
    | (with_reducible apply wf_id; assumption)
    | split
    | intro _

theorem Keeps.raiseFault {o₀ : State} (s : State) (r code unit : Nat) (hk : Keeps o₀ s) : Keeps o₀ (s.raiseFault r code unit) := by
  unfold State.raiseFault
  repeat' first
    | with_reducible assumption
    | (with_reducible eapply Keeps.fstEq; with_reducible assumption)
    | (with_reducible eapply Keeps.sndEq; with_reducible assumption)
    | (with_reducible eapply Keeps.thdEq; with_reducible assumption)
    | with_reducible apply Keeps.modRoom
    | with_reducible apply Keeps.ctrlUp
    | with_reducible apply Keeps.endJob
    | with_reducible apply Keeps.latch
    | with_reducible apply Keeps.headAbort
    | (intro _ hw; exact hw)
    | with_reducible apply Gives.none
    | with_reducible apply Gives.some
    | with_reducible apply Gives.bind
    | (with_reducible eapply Gives.ofEq; with_reducible assumption)
    | (extract_lets +onlyGivenNames x; refine Keeps.cut (p := Keeps o₀ x) ?_ (fun hx => ?_); rotate_left; clear_value x; rotate_left; try subst x)
    | simp -zeta only [Keeps.lit_iff]
    | fail_if_no_progress (extract_lets +onlyGivenNames x)
    | simp +zetaDelta only [Keeps.lit_iff]
    | (with_reducible apply wf_id; assumption)
    | split
    | intro _

theorem Keeps.faultAll {o₀ : State} (s : State) (code unit : Nat) (hk : Keeps o₀ s) : Keeps o₀ (s.faultAll code unit) := by
  unfold State.faultAll
  repeat' first
    | with_reducible assumption
    | with_reducible apply Keeps.raiseFault
    | with_reducible apply Keeps.foldl
    | with_reducible apply Keeps.foldlFst
    | with_reducible apply Keeps.foldlSnd
    | with_reducible apply Keeps.foldlWrote
    | with_reducible apply wf_foldlData
    | with_reducible apply wf_foldlMem
    | intro _

end Sys2Proof.Machine
end

