-- ==== Sys2Proof/Laws/KeepsTiering.lean ====
section
/-! SUPPORT. `Keeps` for the operations of Machine/Tiering.lean. -/

set_option linter.all false

namespace Sys2Proof.Machine

theorem Keeps.movePage {o₀ : State} (s : State) (r v : Nat) (t : Tier) (hk : Keeps o₀ s) : Keeps o₀ (s.movePage r v t) := by
  unfold State.movePage
  repeat' first
    | with_reducible assumption
    | (with_reducible eapply Keeps.fstEq; with_reducible assumption)
    | (with_reducible eapply Keeps.sndEq; with_reducible assumption)
    | (with_reducible eapply Keeps.thdEq; with_reducible assumption)
    | with_reducible apply Keeps.raiseFault
    | with_reducible apply Keeps.seat
    | with_reducible apply Keeps.charge
    | (intro _ hw; exact hw)
    | with_reducible apply Gives.none
    | with_reducible apply Gives.some
    | with_reducible apply Gives.bind
    | (with_reducible eapply Gives.ofEq; with_reducible assumption)
    | (extract_lets +onlyGivenNames x; refine Keeps.cut (p := Keeps o₀ x) ?_ (fun hx => ?_); rotate_left; clear_value x; rotate_left; try subst x)
    | simp -zeta only [Keeps.lit_iff]
    | fail_if_no_progress (extract_lets +onlyGivenNames x)
    | simp +zetaDelta only [Keeps.lit_iff]
    | exact wf_nil
    | (with_reducible apply wf_id; assumption)
    | split
    | intro _

theorem Keeps.demote {o₀ : State} (s : State) (r : Nat) (p : Nat × Page) (hk : Keeps o₀ s) : Keeps o₀ (s.demote r p) := by
  unfold State.demote
  repeat' first
    | with_reducible assumption
    | (with_reducible eapply Keeps.fstEq; with_reducible assumption)
    | (with_reducible eapply Keeps.sndEq; with_reducible assumption)
    | (with_reducible eapply Keeps.thdEq; with_reducible assumption)
    | with_reducible apply Keeps.movePage
    | (intro _ hw; exact hw)
    | with_reducible apply Gives.none
    | with_reducible apply Gives.some
    | with_reducible apply Gives.bind
    | (with_reducible eapply Gives.ofEq; with_reducible assumption)
    | (extract_lets +onlyGivenNames x; refine Keeps.cut (p := Keeps o₀ x) ?_ (fun hx => ?_); rotate_left; clear_value x; rotate_left; try subst x)
    | simp -zeta only [Keeps.lit_iff]
    | fail_if_no_progress (extract_lets +onlyGivenNames x)
    | simp +zetaDelta only [Keeps.lit_iff]
    | exact wf_nil
    | (with_reducible apply wf_id; assumption)
    | split
    | intro _

theorem Keeps.makeRoom {o₀ : State} (s : State) (r extra : Nat) (n0 : List (Nat × Page)) (hk : Keeps o₀ s) : Keeps o₀ (s.makeRoom r extra n0) := by
  induction n0 generalizing s r extra with
  | nil =>
    unfold State.makeRoom
    repeat' first
      | with_reducible assumption
      | (with_reducible eapply Keeps.fstEq; with_reducible assumption)
      | (with_reducible eapply Keeps.sndEq; with_reducible assumption)
      | (with_reducible eapply Keeps.thdEq; with_reducible assumption)
      | with_reducible apply Keeps.demote
      | (intro _ hw; exact hw)
      | with_reducible apply Gives.none
      | with_reducible apply Gives.some
      | with_reducible apply Gives.bind
      | (with_reducible eapply Gives.ofEq; with_reducible assumption)
      | (extract_lets +onlyGivenNames x; refine Keeps.cut (p := Keeps o₀ x) ?_ (fun hx => ?_); rotate_left; clear_value x; rotate_left; try subst x)
      | simp -zeta only [Keeps.lit_iff]
      | fail_if_no_progress (extract_lets +onlyGivenNames x)
      | simp +zetaDelta only [Keeps.lit_iff]
      | exact wf_nil
      | (with_reducible apply wf_id; assumption)
      | split
      | intro _
  | cons a l ih =>
    unfold State.makeRoom
    repeat' first
      | with_reducible assumption
      | (with_reducible eapply Keeps.fstEq; with_reducible assumption)
      | (with_reducible eapply Keeps.sndEq; with_reducible assumption)
      | (with_reducible eapply Keeps.thdEq; with_reducible assumption)
      | with_reducible apply ih
      | with_reducible apply Keeps.demote
      | (intro _ hw; exact hw)
      | with_reducible apply Gives.none
      | with_reducible apply Gives.some
      | with_reducible apply Gives.bind
      | (with_reducible eapply Gives.ofEq; with_reducible assumption)
      | (extract_lets +onlyGivenNames x; refine Keeps.cut (p := Keeps o₀ x) ?_ (fun hx => ?_); rotate_left; clear_value x; rotate_left; try subst x)
      | simp -zeta only [Keeps.lit_iff]
      | fail_if_no_progress (extract_lets +onlyGivenNames x)
      | simp +zetaDelta only [Keeps.lit_iff]
      | exact wf_nil
      | (with_reducible apply wf_id; assumption)
      | split
      | intro _

theorem Keeps.promote {o₀ : State} (s : State) (r v : Nat) (hk : Keeps o₀ s) : Keeps o₀ (s.promote r v) := by
  unfold State.promote
  repeat' first
    | with_reducible assumption
    | (with_reducible eapply Keeps.fstEq; with_reducible assumption)
    | (with_reducible eapply Keeps.sndEq; with_reducible assumption)
    | (with_reducible eapply Keeps.thdEq; with_reducible assumption)
    | with_reducible apply Keeps.modMem
    | with_reducible apply Keeps.demote
    | with_reducible apply Keeps.movePage
    | (intro _ hw; exact hw)
    | with_reducible apply Gives.none
    | with_reducible apply Gives.some
    | with_reducible apply Gives.bind
    | (with_reducible eapply Gives.ofEq; with_reducible assumption)
    | (extract_lets +onlyGivenNames x; refine Keeps.cut (p := Keeps o₀ x) ?_ (fun hx => ?_); rotate_left; clear_value x; rotate_left; try subst x)
    | simp -zeta only [Keeps.lit_iff]
    | fail_if_no_progress (extract_lets +onlyGivenNames x)
    | simp +zetaDelta only [Keeps.lit_iff]
    | exact wf_nil
    | (with_reducible apply wf_id; assumption)
    | split
    | intro _

theorem Keeps.promoteAll {o₀ : State} (s : State) (r : Nat) (l : List Nat) (hk : Keeps o₀ s) : Keeps o₀ (s.promoteAll r l).1 := by
  unfold State.promoteAll
  repeat' first
    | with_reducible assumption
    | (with_reducible eapply Keeps.fstEq; with_reducible assumption)
    | (with_reducible eapply Keeps.sndEq; with_reducible assumption)
    | (with_reducible eapply Keeps.thdEq; with_reducible assumption)
    | with_reducible apply Keeps.promote
    | with_reducible apply Keeps.foldl
    | with_reducible apply Keeps.foldlFst
    | with_reducible apply Keeps.foldlSnd
    | with_reducible apply Keeps.foldlWrote
    | with_reducible apply wf_foldlData
    | with_reducible apply wf_foldlMem
    | (intro _ hw; exact hw)
    | with_reducible apply Gives.none
    | with_reducible apply Gives.some
    | with_reducible apply Gives.bind
    | (with_reducible eapply Gives.ofEq; with_reducible assumption)
    | (extract_lets +onlyGivenNames x; refine Keeps.cut (p := Keeps o₀ x) ?_ (fun hx => ?_); rotate_left; clear_value x; rotate_left; try subst x)
    | simp -zeta only [Keeps.lit_iff]
    | fail_if_no_progress (extract_lets +onlyGivenNames x)
    | simp +zetaDelta only [Keeps.lit_iff]
    | exact wf_nil
    | (with_reducible apply wf_id; assumption)
    | split
    | intro _

end Sys2Proof.Machine
end

