-- ==== Sys2Proof/Laws/KeepsCoreOps.lean ====
section
/-! SUPPORT. `Keeps` for the operations of Machine/CoreOps.lean. -/

set_option linter.all false

namespace Sys2Proof.Machine

theorem Keeps.storeWrite {o₀ : State} (s : State) (core r a : Nat) (bytes : List Byte) (hk : Keeps o₀ s) : Keeps o₀ (s.storeWrite core r a bytes) := by
  unfold State.storeWrite
  repeat' first
    | with_reducible assumption
    | (with_reducible eapply Keeps.fstEq; with_reducible assumption)
    | (with_reducible eapply Keeps.sndEq; with_reducible assumption)
    | (with_reducible eapply Keeps.thdEq; with_reducible assumption)
    | with_reducible apply Keeps.modCore
    | with_reducible apply wf_memWriteN
    | (intro _ hw; exact hw)
    | with_reducible apply Gives.none
    | with_reducible apply Gives.some
    | with_reducible apply Gives.bind
    | (with_reducible eapply Gives.ofEq; with_reducible assumption)
    | (extract_lets +onlyGivenNames x; refine Keeps.cut (p := Keeps o₀ x) ?_ (fun hx => ?_); rotate_left; clear_value x; rotate_left; try subst x)
    | simp -zeta only [Keeps.lit_iff]
    | fail_if_no_progress (extract_lets +onlyGivenNames x)
    | simp +zetaDelta only [Keeps.lit_iff]
    | (with_reducible apply wf_id; assumption)
    | split
    | intro _

theorem Keeps.slotLate {o₀ : State} (s : State) (core r : Nat) (hk : Keeps o₀ s) : Keeps o₀ (s.slotLate core r) := by
  unfold State.slotLate
  repeat' first
    | with_reducible assumption
    | (with_reducible eapply Keeps.fstEq; with_reducible assumption)
    | (with_reducible eapply Keeps.sndEq; with_reducible assumption)
    | (with_reducible eapply Keeps.thdEq; with_reducible assumption)
    | with_reducible apply Keeps.charge
    | with_reducible apply Keeps.modCtx
    | (intro _ hw; exact hw)
    | with_reducible apply Gives.none
    | with_reducible apply Gives.some
    | with_reducible apply Gives.bind
    | (with_reducible eapply Gives.ofEq; with_reducible assumption)
    | (extract_lets +onlyGivenNames x; refine Keeps.cut (p := Keeps o₀ x) ?_ (fun hx => ?_); rotate_left; clear_value x; rotate_left; try subst x)
    | simp -zeta only [Keeps.lit_iff]
    | fail_if_no_progress (extract_lets +onlyGivenNames x)
    | simp +zetaDelta only [Keeps.lit_iff]
    | (with_reducible apply wf_id; assumption)
    | split
    | intro _

theorem Keeps.passWord {o₀ : State} (s : State) (core : Nat) (n : Next) (hk : Keeps o₀ s) : Keeps o₀ (s.passWord core n) := by
  unfold State.passWord
  repeat' first
    | with_reducible assumption
    | (with_reducible eapply Keeps.fstEq; with_reducible assumption)
    | (with_reducible eapply Keeps.sndEq; with_reducible assumption)
    | (with_reducible eapply Keeps.thdEq; with_reducible assumption)
    | with_reducible apply Keeps.account
    | with_reducible apply Keeps.slotLate
    | with_reducible apply Keeps.modCtx
    | (intro _ hw; exact hw)
    | with_reducible apply Gives.none
    | with_reducible apply Gives.some
    | with_reducible apply Gives.bind
    | (with_reducible eapply Gives.ofEq; with_reducible assumption)
    | (extract_lets +onlyGivenNames x; refine Keeps.cut (p := Keeps o₀ x) ?_ (fun hx => ?_); rotate_left; clear_value x; rotate_left; try subst x)
    | simp -zeta only [Keeps.lit_iff]
    | fail_if_no_progress (extract_lets +onlyGivenNames x)
    | simp +zetaDelta only [Keeps.lit_iff]
    | exact wf_nil
    | (with_reducible apply wf_id; assumption)
    | split
    | intro _

theorem Keeps.issue {o₀ : State} (s : State) (core : Nat) (n : Next) (f : Flight) (hk : Keeps o₀ s) : Keeps o₀ (s.issue core n f) := by
  unfold State.issue
  repeat' first
    | with_reducible assumption
    | (with_reducible eapply Keeps.fstEq; with_reducible assumption)
    | (with_reducible eapply Keeps.sndEq; with_reducible assumption)
    | (with_reducible eapply Keeps.thdEq; with_reducible assumption)
    | with_reducible apply Keeps.passWord
    | with_reducible apply Keeps.modCtx
    | with_reducible apply Keeps.refresh
    | (intro _ hw; exact hw)
    | with_reducible apply Gives.none
    | with_reducible apply Gives.some
    | with_reducible apply Gives.bind
    | (with_reducible eapply Gives.ofEq; with_reducible assumption)
    | (extract_lets +onlyGivenNames x; refine Keeps.cut (p := Keeps o₀ x) ?_ (fun hx => ?_); rotate_left; clear_value x; rotate_left; try subst x)
    | simp -zeta only [Keeps.lit_iff]
    | fail_if_no_progress (extract_lets +onlyGivenNames x)
    | simp +zetaDelta only [Keeps.lit_iff]
    | exact wf_nil
    | (with_reducible apply wf_id; assumption)
    | split
    | intro _

theorem Keeps.deliver {o₀ : State} (s : State) (core r : Nat) (f : Flight) (hk : Keeps o₀ s) : Keeps o₀ (s.deliver core r f) := by
  unfold State.deliver
  repeat' first
    | with_reducible assumption
    | with_reducible apply Keeps.modCore
    | with_reducible apply Keeps.count
    | with_reducible apply Keeps.storeWrite
    | with_reducible apply Keeps.foldl
    | with_reducible apply Keeps.foldlFst
    | with_reducible apply Keeps.foldlSnd
    | with_reducible apply Keeps.foldlWrote
    | with_reducible apply wf_foldlData
    | with_reducible apply wf_foldlMem
    | (intro _ hw; exact hw)
    | (extract_lets +onlyGivenNames x; refine Keeps.cut (p := Keeps o₀ x) ?_ (fun hx => ?_); rotate_left; clear_value x; rotate_left; try subst x)
    | simp -zeta only [Keeps.lit_iff]
    | fail_if_no_progress (extract_lets +onlyGivenNames x)
    | simp +zetaDelta only [Keeps.lit_iff]
    | (with_reducible apply wf_id; assumption)
    | intro _

theorem Keeps.busyCycles {o₀ : State} (s : State) (core r cycles nominal : Nat) (hk : Keeps o₀ s) : Keeps o₀ (s.busyCycles core r cycles nominal) := by
  unfold State.busyCycles
  repeat' first
    | with_reducible assumption
    | with_reducible apply Keeps.modCtx
    | (intro _ hw; exact hw)
    | (extract_lets +onlyGivenNames x; refine Keeps.cut (p := Keeps o₀ x) ?_ (fun hx => ?_); rotate_left; clear_value x; rotate_left; try subst x)
    | simp -zeta only [Keeps.lit_iff]
    | fail_if_no_progress (extract_lets +onlyGivenNames x)
    | simp +zetaDelta only [Keeps.lit_iff]
    | (with_reducible apply wf_id; assumption)
    | intro _

theorem Keeps.completeTile {o₀ : State} (s : State) (core : Nat) (ran : Ran) (p : Flight → Bool) (hk : Keeps o₀ s) : Keeps o₀ (s.completeTile core ran p) := by
  unfold State.completeTile
  repeat' first
    | with_reducible assumption
    | (with_reducible eapply Keeps.fstEq; with_reducible assumption)
    | (with_reducible eapply Keeps.sndEq; with_reducible assumption)
    | (with_reducible eapply Keeps.thdEq; with_reducible assumption)
    | with_reducible apply Keeps.account
    | with_reducible apply Keeps.deliver
    | with_reducible apply Keeps.corrected
    | with_reducible apply Keeps.modCtx
    | with_reducible apply Keeps.busyCycles
    | with_reducible apply Keeps.refresh
    | (intro _ hw; exact hw)
    | with_reducible apply Gives.none
    | with_reducible apply Gives.some
    | with_reducible apply Gives.bind
    | (with_reducible eapply Gives.ofEq; with_reducible assumption)
    | (extract_lets +onlyGivenNames x; refine Keeps.cut (p := Keeps o₀ x) ?_ (fun hx => ?_); rotate_left; clear_value x; rotate_left; try subst x)
    | simp -zeta only [Keeps.lit_iff]
    | fail_if_no_progress (extract_lets +onlyGivenNames x)
    | simp +zetaDelta only [Keeps.lit_iff]
    | exact wf_nil
    | (with_reducible apply wf_id; assumption)
    | split
    | intro _

theorem Keeps.retireCore {o₀ : State} (s : State) (core r : Nat) (hk : Keeps o₀ s) : Keeps o₀ (s.retireCore core r) := by
  unfold State.retireCore
  repeat' first
    | with_reducible assumption
    | with_reducible apply Keeps.healthRecord
    | with_reducible apply Keeps.raiseFault
    | (intro _ hw; exact hw)
    | (extract_lets +onlyGivenNames x; refine Keeps.cut (p := Keeps o₀ x) ?_ (fun hx => ?_); rotate_left; clear_value x; rotate_left; try subst x)
    | simp -zeta only [Keeps.lit_iff]
    | fail_if_no_progress (extract_lets +onlyGivenNames x)
    | simp +zetaDelta only [Keeps.lit_iff]
    | (with_reducible apply wf_id; assumption)
    | intro _

theorem Keeps.tileError {o₀ : State} (s : State) (core slot : Nat) (parity : Bool) (hk : Keeps o₀ s) : Keeps o₀ (s.tileError core slot parity) := by
  unfold State.tileError
  repeat' first
    | with_reducible assumption
    | (with_reducible eapply Keeps.fstEq; with_reducible assumption)
    | (with_reducible eapply Keeps.sndEq; with_reducible assumption)
    | (with_reducible eapply Keeps.thdEq; with_reducible assumption)
    | with_reducible apply Keeps.count
    | with_reducible apply Keeps.retireCore
    | with_reducible apply Keeps.modCore
    | with_reducible apply Keeps.modCtx
    | (intro _ hw; exact hw)
    | with_reducible apply Gives.none
    | with_reducible apply Gives.some
    | with_reducible apply Gives.bind
    | (with_reducible eapply Gives.ofEq; with_reducible assumption)
    | (extract_lets +onlyGivenNames x; refine Keeps.cut (p := Keeps o₀ x) ?_ (fun hx => ?_); rotate_left; clear_value x; rotate_left; try subst x)
    | simp -zeta only [Keeps.lit_iff]
    | fail_if_no_progress (extract_lets +onlyGivenNames x)
    | simp +zetaDelta only [Keeps.lit_iff]
    | exact wf_nil
    | (with_reducible apply wf_id; assumption)
    | split
    | intro _

end Sys2Proof.Machine
end

