-- ==== Sys2Proof/Laws/KeepsRings.lean ====
section
/-! SUPPORT. `Keeps` for the operations of Machine/Rings.lean. -/

set_option linter.all false

namespace Sys2Proof.Machine

theorem Keeps.startErr {o₀ : State} (s : State) (r : Nat) (hk : Keeps o₀ s) : Keeps o₀ (s.startErr r) := by
  unfold State.startErr
  repeat' first
    | with_reducible assumption
    | with_reducible apply Keeps.modRoom
    | (intro _ hw; exact hw)
    | (extract_lets +onlyGivenNames x; refine Keeps.cut (p := Keeps o₀ x) ?_ (fun hx => ?_); rotate_left; clear_value x; rotate_left; try subst x)
    | simp -zeta only [Keeps.lit_iff]
    | fail_if_no_progress (extract_lets +onlyGivenNames x)
    | simp +zetaDelta only [Keeps.lit_iff]
    | (with_reducible apply wf_id; assumption)
    | intro _

theorem Keeps.startRecord {o₀ : State} (s : State) (first : Nat) (q0 : Ring) (status detail result0 result1 : Nat) (started : Bool) (hk : Keeps o₀ s) : Keeps o₀ (s.startRecord first q0 status detail result0 result1 started) := by
  unfold State.startRecord
  repeat' first
    | with_reducible assumption
    | with_reducible apply Keeps.setRing
    | with_reducible apply Keeps.writeRecord
    | (intro _ hw; exact hw)
    | (extract_lets +onlyGivenNames x; refine Keeps.cut (p := Keeps o₀ x) ?_ (fun hx => ?_); rotate_left; clear_value x; rotate_left; try subst x)
    | simp -zeta only [Keeps.lit_iff]
    | fail_if_no_progress (extract_lets +onlyGivenNames x)
    | simp +zetaDelta only [Keeps.lit_iff]
    | exact wf_nil
    | (with_reducible apply wf_id; assumption)
    | split
    | intro _

theorem Keeps.startRings {o₀ : State} (s : State) (r : Nat) (hk : Keeps o₀ s) : Keeps o₀ (s.startRings r) := by
  unfold State.startRings
  repeat' first
    | with_reducible assumption
    | (with_reducible eapply Keeps.fstEq; with_reducible assumption)
    | (with_reducible eapply Keeps.sndEq; with_reducible assumption)
    | (with_reducible eapply Keeps.thdEq; with_reducible assumption)
    | with_reducible apply Keeps.modRoom
    | with_reducible apply Keeps.setRing
    | with_reducible apply Keeps.countRefused
    | with_reducible apply Keeps.startErr
    | with_reducible apply Keeps.startRecord
    | with_reducible apply Yields.error
    | with_reducible apply Yields.throw
    | with_reducible apply Yields.ok
    | with_reducible apply Yields.pure
    | with_reducible apply Yields.bind
    | (with_reducible eapply Yields.ofEq; with_reducible assumption)
    | (with_reducible eapply Yields.ofEqFst; with_reducible assumption)
    | with_reducible apply Keeps.foldl
    | with_reducible apply Keeps.foldlFst
    | with_reducible apply Keeps.foldlSnd
    | with_reducible apply Keeps.foldlWrote
    | with_reducible apply wf_foldlData
    | with_reducible apply wf_foldlMem
    | (intro _ hw; exact hw)
    | with_reducible apply Gives.none
    | with_reducible apply Gives.some
    | with_reducible apply Gives.bind
    | (with_reducible eapply Gives.ofEq; with_reducible assumption)
    | (extract_lets +onlyGivenNames x; refine Keeps.cut (p := Keeps o₀ x) ?_ (fun hx => ?_); rotate_left; clear_value x; rotate_left; try subst x)
    | simp -zeta only [Keeps.lit_iff]
    | fail_if_no_progress (extract_lets +onlyGivenNames x)
    | simp +zetaDelta only [Keeps.lit_iff]
    | (with_reducible apply wf_id; assumption)
    | split
    | intro _

theorem Keeps.startWrite {o₀ : State} (s : State) (fn room : Nat) (hk : Keeps o₀ s) : Keeps o₀ (s.startWrite fn room) := by
  unfold State.startWrite
  repeat' first
    | with_reducible assumption
    | with_reducible apply Keeps.startRings
    | split
    | intro _

theorem Keeps.dbIgnore {o₀ : State} (s : State) (r : Nat) (hk : Keeps o₀ s) : Keeps o₀ (s.dbIgnore r) := by
  unfold State.dbIgnore
  repeat' first
    | with_reducible assumption
    | with_reducible apply Keeps.modRoom
    | (intro _ hw; exact hw)
    | (extract_lets +onlyGivenNames x; refine Keeps.cut (p := Keeps o₀ x) ?_ (fun hx => ?_); rotate_left; clear_value x; rotate_left; try subst x)
    | simp -zeta only [Keeps.lit_iff]
    | fail_if_no_progress (extract_lets +onlyGivenNames x)
    | simp +zetaDelta only [Keeps.lit_iff]
    | (with_reducible apply wf_id; assumption)
    | intro _

theorem Keeps.haltRing {o₀ : State} (s : State) (q status detail : Nat) (hk : Keeps o₀ s) : Keeps o₀ (s.haltRing q status detail) := by
  unfold State.haltRing
  repeat' first
    | with_reducible assumption
    | with_reducible apply Keeps.setRing
    | with_reducible apply Keeps.count
    | with_reducible apply Keeps.post
    | (intro _ hw; exact hw)
    | (extract_lets +onlyGivenNames x; refine Keeps.cut (p := Keeps o₀ x) ?_ (fun hx => ?_); rotate_left; clear_value x; rotate_left; try subst x)
    | simp -zeta only [Keeps.lit_iff]
    | fail_if_no_progress (extract_lets +onlyGivenNames x)
    | simp +zetaDelta only [Keeps.lit_iff]
    | (with_reducible apply wf_id; assumption)
    | intro _

theorem Keeps.doorbell {o₀ : State} (s : State) (fn offset size value : Nat) (hk : Keeps o₀ s) : Keeps o₀ (s.doorbell fn offset size value) := by
  unfold State.doorbell
  repeat' first
    | with_reducible assumption
    | with_reducible apply Keeps.setRing
    | with_reducible apply Keeps.count
    | with_reducible apply Keeps.flush
    | with_reducible apply Keeps.dbIgnore
    | with_reducible apply Keeps.haltRing
    | (intro _ hw; exact hw)
    | (extract_lets +onlyGivenNames x; refine Keeps.cut (p := Keeps o₀ x) ?_ (fun hx => ?_); rotate_left; clear_value x; rotate_left; try subst x)
    | simp -zeta only [Keeps.lit_iff]
    | fail_if_no_progress (extract_lets +onlyGivenNames x)
    | simp +zetaDelta only [Keeps.lit_iff]
    | (with_reducible apply wf_id; assumption)
    | split
    | intro _

theorem Keeps.breakStream {o₀ : State} (s : State) (ring : Nat) (d : Desc) (hk : Keeps o₀ s) : Keeps o₀ (s.breakStream ring d) := by
  unfold State.breakStream
  repeat' first
    | with_reducible assumption
    | (with_reducible eapply Keeps.fstEq; with_reducible assumption)
    | (with_reducible eapply Keeps.sndEq; with_reducible assumption)
    | (with_reducible eapply Keeps.thdEq; with_reducible assumption)
    | (intro _ hw; exact hw)
    | with_reducible apply Gives.none
    | with_reducible apply Gives.some
    | with_reducible apply Gives.bind
    | (with_reducible eapply Gives.ofEq; with_reducible assumption)
    | (extract_lets +onlyGivenNames x; refine Keeps.cut (p := Keeps o₀ x) ?_ (fun hx => ?_); rotate_left; clear_value x; rotate_left; try subst x)
    | simp -zeta only [Keeps.lit_iff]
    | fail_if_no_progress (extract_lets +onlyGivenNames x)
    | simp +zetaDelta only [Keeps.lit_iff]
    | exact wf_nil
    | (with_reducible apply wf_id; assumption)
    | split
    | intro _

theorem Keeps.takeDesc {o₀ : State} (s : State) (ring : Nat) (raw : Nat) (hk : Keeps o₀ s) : Keeps o₀ (s.takeDesc ring raw) := by
  unfold State.takeDesc
  repeat' first
    | with_reducible assumption
    | (with_reducible eapply Keeps.fstEq; with_reducible assumption)
    | (with_reducible eapply Keeps.sndEq; with_reducible assumption)
    | (with_reducible eapply Keeps.thdEq; with_reducible assumption)
    | with_reducible apply Keeps.count
    | with_reducible apply Keeps.setRing
    | with_reducible apply Keeps.modRing
    | with_reducible apply Keeps.breakStream
    | with_reducible apply Keeps.complete
    | (intro _ hw; exact hw)
    | with_reducible apply Gives.none
    | with_reducible apply Gives.some
    | with_reducible apply Gives.bind
    | (with_reducible eapply Gives.ofEq; with_reducible assumption)
    | (extract_lets +onlyGivenNames x; refine Keeps.cut (p := Keeps o₀ x) ?_ (fun hx => ?_); rotate_left; clear_value x; rotate_left; try subst x)
    | simp -zeta only [Keeps.lit_iff]
    | fail_if_no_progress (extract_lets +onlyGivenNames x)
    | simp +zetaDelta only [Keeps.lit_iff]
    | exact wf_nil
    | (with_reducible apply wf_id; assumption)
    | split
    | intro _

theorem Keeps.fetch {o₀ : State} (s : State) (ring : Nat) (hk : Keeps o₀ s) : Keeps o₀ (s.fetch ring) := by
  unfold State.fetch
  repeat' first
    | with_reducible assumption
    | with_reducible apply Keeps.count
    | with_reducible apply Keeps.countRefused
    | with_reducible apply Keeps.haltRing
    | with_reducible apply Keeps.takeDesc
    | with_reducible apply Keeps.foldl
    | with_reducible apply Keeps.foldlFst
    | with_reducible apply Keeps.foldlSnd
    | with_reducible apply Keeps.foldlWrote
    | with_reducible apply wf_foldlData
    | with_reducible apply wf_foldlMem
    | (extract_lets +onlyGivenNames x; refine Keeps.cut (p := Keeps o₀ x) ?_ (fun hx => ?_); rotate_left; clear_value x; rotate_left; try subst x)
    | fail_if_no_progress (extract_lets +onlyGivenNames x)
    | split
    | intro _

theorem Keeps.visit {o₀ : State} (s : State) (p ring : Nat) (hk : Keeps o₀ s) : Keeps o₀ (s.visit p ring) := by
  unfold State.visit
  repeat' first
    | with_reducible assumption
    | (with_reducible eapply Keeps.fstEq; with_reducible assumption)
    | (with_reducible eapply Keeps.sndEq; with_reducible assumption)
    | (with_reducible eapply Keeps.thdEq; with_reducible assumption)
    | with_reducible apply Keeps.modPair
    | (intro _ hw; exact hw)
    | with_reducible apply Gives.none
    | with_reducible apply Gives.some
    | with_reducible apply Gives.bind
    | (with_reducible eapply Gives.ofEq; with_reducible assumption)
    | (extract_lets +onlyGivenNames x; refine Keeps.cut (p := Keeps o₀ x) ?_ (fun hx => ?_); rotate_left; clear_value x; rotate_left; try subst x)
    | simp -zeta only [Keeps.lit_iff]
    | fail_if_no_progress (extract_lets +onlyGivenNames x)
    | simp +zetaDelta only [Keeps.lit_iff]
    | exact wf_nil
    | (with_reducible apply wf_id; assumption)
    | split
    | intro _

theorem Keeps.intake {o₀ : State} (s : State) (ring : Nat) (hk : Keeps o₀ s) : Keeps o₀ (s.intake ring) := by
  unfold State.intake
  repeat' first
    | with_reducible assumption
    | (with_reducible eapply Keeps.fstEq; with_reducible assumption)
    | (with_reducible eapply Keeps.sndEq; with_reducible assumption)
    | (with_reducible eapply Keeps.thdEq; with_reducible assumption)
    | with_reducible apply Keeps.serve
    | with_reducible apply Keeps.fetch
    | with_reducible apply Keeps.spend
    | with_reducible apply Keeps.visit
    | with_reducible apply Keeps.settle
    | (intro _ hw; exact hw)
    | with_reducible apply Gives.none
    | with_reducible apply Gives.some
    | with_reducible apply Gives.bind
    | (with_reducible eapply Gives.ofEq; with_reducible assumption)
    | (extract_lets +onlyGivenNames x; refine Keeps.cut (p := Keeps o₀ x) ?_ (fun hx => ?_); rotate_left; clear_value x; rotate_left; try subst x)
    | simp -zeta only [Keeps.lit_iff]
    | fail_if_no_progress (extract_lets +onlyGivenNames x)
    | simp +zetaDelta only [Keeps.lit_iff]
    | exact wf_nil
    | (with_reducible apply wf_id; assumption)
    | split
    | intro _

theorem Keeps.reread {o₀ : State} (s : State) (ring : Nat) (hk : Keeps o₀ s) : Keeps o₀ (s.reread ring) := by
  unfold State.reread
  repeat' first
    | with_reducible assumption
    | (with_reducible eapply Keeps.fstEq; with_reducible assumption)
    | (with_reducible eapply Keeps.sndEq; with_reducible assumption)
    | (with_reducible eapply Keeps.thdEq; with_reducible assumption)
    | with_reducible apply Keeps.modRing
    | with_reducible apply Keeps.complete
    | with_reducible apply Keeps.countRefused
    | with_reducible apply Keeps.haltRing
    | with_reducible apply Keeps.foldl
    | with_reducible apply Keeps.foldlFst
    | with_reducible apply Keeps.foldlSnd
    | with_reducible apply Keeps.foldlWrote
    | with_reducible apply wf_foldlData
    | with_reducible apply wf_foldlMem
    | (intro _ hw; exact hw)
    | with_reducible apply Gives.none
    | with_reducible apply Gives.some
    | with_reducible apply Gives.bind
    | (with_reducible eapply Gives.ofEq; with_reducible assumption)
    | (extract_lets +onlyGivenNames x; refine Keeps.cut (p := Keeps o₀ x) ?_ (fun hx => ?_); rotate_left; clear_value x; rotate_left; try subst x)
    | simp -zeta only [Keeps.lit_iff]
    | fail_if_no_progress (extract_lets +onlyGivenNames x)
    | simp +zetaDelta only [Keeps.lit_iff]
    | exact wf_nil
    | (with_reducible apply wf_id; assumption)
    | split
    | intro _

theorem Keeps.markStarted {o₀ : State} (s : State) (ring seq : Nat) (hk : Keeps o₀ s) : Keeps o₀ (s.markStarted ring seq) := by
  unfold State.markStarted
  repeat' first
    | with_reducible assumption
    | with_reducible apply Keeps.modRing
    | (intro _ hw; exact hw)
    | (extract_lets +onlyGivenNames x; refine Keeps.cut (p := Keeps o₀ x) ?_ (fun hx => ?_); rotate_left; clear_value x; rotate_left; try subst x)
    | simp -zeta only [Keeps.lit_iff]
    | fail_if_no_progress (extract_lets +onlyGivenNames x)
    | simp +zetaDelta only [Keeps.lit_iff]
    | (with_reducible apply wf_id; assumption)
    | split
    | intro _

theorem Keeps.done {o₀ : State} (s : State) (ring : Nat) (d : Desc) (status detail : Nat) (hk : Keeps o₀ s) : Keeps o₀ (s.done ring d status detail) := by
  unfold State.done
  repeat' first
    | with_reducible assumption
    | with_reducible apply Keeps.complete
    | intro _

theorem Keeps.cancelTarget {o₀ : State} (s : State) (ring target : Nat) (hk : Keeps o₀ s) : Keeps o₀ (s.cancelTarget ring target).2 := by
  unfold State.cancelTarget
  repeat' first
    | with_reducible assumption
    | (with_reducible eapply Keeps.fstEq; with_reducible assumption)
    | (with_reducible eapply Keeps.sndEq; with_reducible assumption)
    | (with_reducible eapply Keeps.thdEq; with_reducible assumption)
    | with_reducible apply Keeps.count
    | with_reducible apply Keeps.setRing
    | with_reducible apply Keeps.modRoom
    | with_reducible apply Keeps.complete
    | with_reducible apply Keeps.breakStream
    | (intro _ hw; exact hw)
    | with_reducible apply Gives.none
    | with_reducible apply Gives.some
    | with_reducible apply Gives.bind
    | (with_reducible eapply Gives.ofEq; with_reducible assumption)
    | (extract_lets +onlyGivenNames x; refine Keeps.cut (p := Keeps o₀ x) ?_ (fun hx => ?_); rotate_left; clear_value x; rotate_left; try subst x)
    | simp -zeta only [Keeps.lit_iff]
    | fail_if_no_progress (extract_lets +onlyGivenNames x)
    | simp +zetaDelta only [Keeps.lit_iff]
    | exact wf_nil
    | (with_reducible apply wf_id; assumption)
    | split
    | intro _

theorem Keeps.unmask {o₀ : State} (s : State) (fn v : Nat) (hk : Keeps o₀ s) : Keeps o₀ (s.unmask fn v) := by
  unfold State.unmask
  repeat' first
    | with_reducible assumption
    | with_reducible apply Keeps.emit
    | (intro _ hw; exact hw)
    | (extract_lets +onlyGivenNames x; refine Keeps.cut (p := Keeps o₀ x) ?_ (fun hx => ?_); rotate_left; clear_value x; rotate_left; try subst x)
    | simp -zeta only [Keeps.lit_iff]
    | fail_if_no_progress (extract_lets +onlyGivenNames x)
    | simp +zetaDelta only [Keeps.lit_iff]
    | exact wf_nil
    | (with_reducible apply wf_id; assumption)
    | split
    | intro _

theorem Keeps.ringRestart {o₀ : State} (s : State) (hk : Keeps o₀ s) : Keeps o₀ (s.ringRestart) := by
  unfold State.ringRestart
  repeat' first
    | with_reducible assumption
    | (with_reducible eapply Keeps.fstEq; with_reducible assumption)
    | (with_reducible eapply Keeps.sndEq; with_reducible assumption)
    | (with_reducible eapply Keeps.thdEq; with_reducible assumption)
    | with_reducible apply Keeps.setRing
    | with_reducible apply Keeps.count
    | with_reducible apply Keeps.countRefused
    | with_reducible apply Keeps.flush
    | with_reducible apply Keeps.postInit
    | with_reducible apply Yields.error
    | with_reducible apply Yields.throw
    | with_reducible apply Yields.ok
    | with_reducible apply Yields.pure
    | with_reducible apply Yields.bind
    | (with_reducible eapply Yields.ofEq; with_reducible assumption)
    | (with_reducible eapply Yields.ofEqFst; with_reducible assumption)
    | (intro _ hw; exact hw)
    | with_reducible apply Gives.none
    | with_reducible apply Gives.some
    | with_reducible apply Gives.bind
    | (with_reducible eapply Gives.ofEq; with_reducible assumption)
    | (extract_lets +onlyGivenNames x; refine Keeps.cut (p := Keeps o₀ x) ?_ (fun hx => ?_); rotate_left; clear_value x; rotate_left; try subst x)
    | simp -zeta only [Keeps.lit_iff]
    | fail_if_no_progress (extract_lets +onlyGivenNames x)
    | simp +zetaDelta only [Keeps.lit_iff]
    | (with_reducible apply wf_id; assumption)
    | split
    | intro _

theorem Keeps.ringtabRestart {o₀ : State} (s : State) (v : Nat) (hk : Keeps o₀ s) : Keeps o₀ (s.ringtabRestart v) := by
  unfold State.ringtabRestart
  repeat' first
    | with_reducible assumption
    | (with_reducible eapply Keeps.fstEq; with_reducible assumption)
    | (with_reducible eapply Keeps.sndEq; with_reducible assumption)
    | (with_reducible eapply Keeps.thdEq; with_reducible assumption)
    | (intro _ hw; exact hw)
    | with_reducible apply Gives.none
    | with_reducible apply Gives.some
    | with_reducible apply Gives.bind
    | (with_reducible eapply Gives.ofEq; with_reducible assumption)
    | (extract_lets +onlyGivenNames x; refine Keeps.cut (p := Keeps o₀ x) ?_ (fun hx => ?_); rotate_left; clear_value x; rotate_left; try subst x)
    | simp -zeta only [Keeps.lit_iff]
    | fail_if_no_progress (extract_lets +onlyGivenNames x)
    | simp +zetaDelta only [Keeps.lit_iff]
    | split
    | intro _

theorem Keeps.ringtabSel {o₀ : State} (s : State) (v : Nat) (hk : Keeps o₀ s) : Keeps o₀ (s.ringtabSel v) := by
  unfold State.ringtabSel
  repeat' first
    | with_reducible assumption
    | (with_reducible eapply Keeps.fstEq; with_reducible assumption)
    | (with_reducible eapply Keeps.sndEq; with_reducible assumption)
    | (with_reducible eapply Keeps.thdEq; with_reducible assumption)
    | with_reducible apply Keeps.count
    | (intro _ hw; exact hw)
    | with_reducible apply Gives.none
    | with_reducible apply Gives.some
    | with_reducible apply Gives.bind
    | (with_reducible eapply Gives.ofEq; with_reducible assumption)
    | (extract_lets +onlyGivenNames x; refine Keeps.cut (p := Keeps o₀ x) ?_ (fun hx => ?_); rotate_left; clear_value x; rotate_left; try subst x)
    | simp -zeta only [Keeps.lit_iff]
    | fail_if_no_progress (extract_lets +onlyGivenNames x)
    | simp +zetaDelta only [Keeps.lit_iff]
    | split
    | intro _

end Sys2Proof.Machine
end

