-- ==== Sys2Proof/Laws/KeepsDescs.lean ====
section
/-! SUPPORT. `Keeps` for the operations of Machine/Descs.lean. -/

set_option linter.all false

namespace Sys2Proof.Machine

theorem Keeps.put {o₀ : State} (s : State) (r : Nat) (host : Bool) (a : Nat) (bs : List Byte) (hk : Keeps o₀ s) : Keeps o₀ (s.put r host a bs).1 := by
  unfold State.put
  repeat' first
    | with_reducible assumption
    | (with_reducible eapply Keeps.fstEq; with_reducible assumption)
    | (with_reducible eapply Keeps.sndEq; with_reducible assumption)
    | (with_reducible eapply Keeps.thdEq; with_reducible assumption)
    | with_reducible apply Keeps.hostPut
    | with_reducible apply Keeps.countRefused
    | with_reducible apply Keeps.chargeNormal
    | with_reducible apply Keeps.writeAny
    | (intro _ hw; exact hw)
    | with_reducible apply Gives.none
    | with_reducible apply Gives.some
    | with_reducible apply Gives.bind
    | (with_reducible eapply Gives.ofEq; with_reducible assumption)
    | (extract_lets +onlyGivenNames x; refine Keeps.cut (p := Keeps o₀ x) ?_ (fun hx => ?_); rotate_left; clear_value x; rotate_left; try subst x)
    | simp -zeta only [Keeps.lit_iff]
    | fail_if_no_progress (extract_lets +onlyGivenNames x)
    | simp +zetaDelta only [Keeps.lit_iff]
    | exact wf_nil
    | (with_reducible apply wf_id; assumption)
    | split
    | intro _

theorem Keeps.countConv {o₀ : State} (s : State) (cs : List Conv) (hk : Keeps o₀ s) : Keeps o₀ (s.countConv cs) := by
  unfold State.countConv
  repeat' first
    | with_reducible assumption
    | with_reducible apply Keeps.count
    | intro _

theorem Keeps.copyRows {o₀ : State} (s : State) (r : Nat) (src dst : Side) (c : Cvt) (draw : Nat → Nat) (n0 : Nat) (n1 : Nat) (hk : Keeps o₀ s) : Keeps o₀ (s.copyRows r src dst c draw n0 n1).1 := by
  induction n0 generalizing s r src dst c draw n1 with
  | zero =>
    unfold State.copyRows
    repeat' first
      | with_reducible assumption
      | (with_reducible eapply Keeps.fstEq; with_reducible assumption)
      | (with_reducible eapply Keeps.sndEq; with_reducible assumption)
      | (with_reducible eapply Keeps.thdEq; with_reducible assumption)
      | with_reducible apply Keeps.countRefused
      | with_reducible apply Keeps.draw
      | with_reducible apply Keeps.chargeNormal
      | with_reducible apply Keeps.countConv
      | with_reducible apply Keeps.put
      | with_reducible apply Yields.error
      | with_reducible apply Yields.throw
      | with_reducible apply Yields.ok
      | with_reducible apply Yields.pure
      | with_reducible apply Yields.bind
      | (with_reducible eapply Yields.ofEq; with_reducible assumption)
      | (with_reducible eapply Yields.ofEqFst; with_reducible assumption)
      | (intro _ hw; exact hw)
      | with_reducible apply Gives.none
      | with_reducible apply Gives.some
      | with_reducible apply Gives.bind
      | (with_reducible eapply Gives.ofEq; with_reducible assumption)
      | (extract_lets +onlyGivenNames x; refine Keeps.cut (p := Keeps o₀ x) ?_ (fun hx => ?_); rotate_left; clear_value x; rotate_left; try subst x)
      | simp -zeta only [Keeps.lit_iff]
      | fail_if_no_progress (extract_lets +onlyGivenNames x)
      | simp +zetaDelta only [Keeps.lit_iff]
      | exact wf_nil
      | (with_reducible apply wf_id; assumption)
      | split
      | intro _
  | succ k ih =>
    unfold State.copyRows
    repeat' first
      | with_reducible assumption
      | (with_reducible eapply Keeps.fstEq; with_reducible assumption)
      | (with_reducible eapply Keeps.sndEq; with_reducible assumption)
      | (with_reducible eapply Keeps.thdEq; with_reducible assumption)
      | with_reducible apply ih
      | with_reducible apply Keeps.countRefused
      | with_reducible apply Keeps.draw
      | with_reducible apply Keeps.chargeNormal
      | with_reducible apply Keeps.countConv
      | with_reducible apply Keeps.put
      | with_reducible apply Yields.error
      | with_reducible apply Yields.throw
      | with_reducible apply Yields.ok
      | with_reducible apply Yields.pure
      | with_reducible apply Yields.bind
      | (with_reducible eapply Yields.ofEq; with_reducible assumption)
      | (with_reducible eapply Yields.ofEqFst; with_reducible assumption)
      | (intro _ hw; exact hw)
      | with_reducible apply Gives.none
      | with_reducible apply Gives.some
      | with_reducible apply Gives.bind
      | (with_reducible eapply Gives.ofEq; with_reducible assumption)
      | (extract_lets +onlyGivenNames x; refine Keeps.cut (p := Keeps o₀ x) ?_ (fun hx => ?_); rotate_left; clear_value x; rotate_left; try subst x)
      | simp -zeta only [Keeps.lit_iff]
      | fail_if_no_progress (extract_lets +onlyGivenNames x)
      | simp +zetaDelta only [Keeps.lit_iff]
      | exact wf_nil
      | (with_reducible apply wf_id; assumption)
      | split
      | intro _

theorem Keeps.fillRows {o₀ : State} (s : State) (r : Nat) (dst : Side) (conv : Nat → Conv) (n0 : Nat) (n1 : Nat) (hk : Keeps o₀ s) : Keeps o₀ (s.fillRows r dst conv n0 n1).1 := by
  induction n0 generalizing s r dst conv n1 with
  | zero =>
    unfold State.fillRows
    repeat' first
      | with_reducible assumption
      | (with_reducible eapply Keeps.fstEq; with_reducible assumption)
      | (with_reducible eapply Keeps.sndEq; with_reducible assumption)
      | (with_reducible eapply Keeps.thdEq; with_reducible assumption)
      | with_reducible apply Keeps.put
      | with_reducible apply Keeps.countConv
      | (intro _ hw; exact hw)
      | with_reducible apply Gives.none
      | with_reducible apply Gives.some
      | with_reducible apply Gives.bind
      | (with_reducible eapply Gives.ofEq; with_reducible assumption)
      | (extract_lets +onlyGivenNames x; refine Keeps.cut (p := Keeps o₀ x) ?_ (fun hx => ?_); rotate_left; clear_value x; rotate_left; try subst x)
      | simp -zeta only [Keeps.lit_iff]
      | fail_if_no_progress (extract_lets +onlyGivenNames x)
      | simp +zetaDelta only [Keeps.lit_iff]
      | split
      | intro _
  | succ n ih =>
    unfold State.fillRows
    repeat' first
      | with_reducible assumption
      | (with_reducible eapply Keeps.fstEq; with_reducible assumption)
      | (with_reducible eapply Keeps.sndEq; with_reducible assumption)
      | (with_reducible eapply Keeps.thdEq; with_reducible assumption)
      | with_reducible apply Keeps.put
      | with_reducible apply Keeps.countConv
      | with_reducible apply ih
      | (intro _ hw; exact hw)
      | with_reducible apply Gives.none
      | with_reducible apply Gives.some
      | with_reducible apply Gives.bind
      | (with_reducible eapply Gives.ofEq; with_reducible assumption)
      | (extract_lets +onlyGivenNames x; refine Keeps.cut (p := Keeps o₀ x) ?_ (fun hx => ?_); rotate_left; clear_value x; rotate_left; try subst x)
      | simp -zeta only [Keeps.lit_iff]
      | fail_if_no_progress (extract_lets +onlyGivenNames x)
      | simp +zetaDelta only [Keeps.lit_iff]
      | split
      | intro _

theorem Keeps.endRows {o₀ : State} (p : State × Option DescErr) (ring : Nat) (d : Desc) (hk : Keeps o₀ p.1) :
    Keeps o₀ (State.endRows p ring d) := by
  unfold State.endRows
  split
  · exact Keeps.done _ _ _ _ _ hk
  · exact Keeps.done _ _ _ _ _ hk

theorem Keeps.sealIn {o₀ : State} (s : State) (r key host va : Nat) (n0 : Nat) (n1 : Nat) (hk : Keeps o₀ s) : Keeps o₀ (s.sealIn r key host va n0 n1).1 := by
  induction n0 generalizing s r key host va n1 with
  | zero =>
    unfold State.sealIn
    repeat' first
      | with_reducible assumption
      | (with_reducible eapply Keeps.fstEq; with_reducible assumption)
      | (with_reducible eapply Keeps.sndEq; with_reducible assumption)
      | (with_reducible eapply Keeps.thdEq; with_reducible assumption)
      | with_reducible apply Keeps.countRefused
      | with_reducible apply Keeps.put
      | (intro _ hw; exact hw)
      | with_reducible apply Gives.none
      | with_reducible apply Gives.some
      | with_reducible apply Gives.bind
      | (with_reducible eapply Gives.ofEq; with_reducible assumption)
      | (extract_lets +onlyGivenNames x; refine Keeps.cut (p := Keeps o₀ x) ?_ (fun hx => ?_); rotate_left; clear_value x; rotate_left; try subst x)
      | simp -zeta only [Keeps.lit_iff]
      | fail_if_no_progress (extract_lets +onlyGivenNames x)
      | simp +zetaDelta only [Keeps.lit_iff]
      | split
      | intro _
  | succ n ih =>
    unfold State.sealIn
    repeat' first
      | with_reducible assumption
      | (with_reducible eapply Keeps.fstEq; with_reducible assumption)
      | (with_reducible eapply Keeps.sndEq; with_reducible assumption)
      | (with_reducible eapply Keeps.thdEq; with_reducible assumption)
      | with_reducible apply Keeps.countRefused
      | with_reducible apply Keeps.put
      | with_reducible apply ih
      | (intro _ hw; exact hw)
      | with_reducible apply Gives.none
      | with_reducible apply Gives.some
      | with_reducible apply Gives.bind
      | (with_reducible eapply Gives.ofEq; with_reducible assumption)
      | (extract_lets +onlyGivenNames x; refine Keeps.cut (p := Keeps o₀ x) ?_ (fun hx => ?_); rotate_left; clear_value x; rotate_left; try subst x)
      | simp -zeta only [Keeps.lit_iff]
      | fail_if_no_progress (extract_lets +onlyGivenNames x)
      | simp +zetaDelta only [Keeps.lit_iff]
      | split
      | intro _

theorem Keeps.sealOut {o₀ : State} (s : State) (r key host va : Nat) (n0 : Nat) (n1 : Nat) (hk : Keeps o₀ s) : Keeps o₀ (s.sealOut r key host va n0 n1).1 := by
  induction n0 generalizing s r key host va n1 with
  | zero =>
    unfold State.sealOut
    repeat' first
      | with_reducible assumption
      | (with_reducible eapply Keeps.fstEq; with_reducible assumption)
      | (with_reducible eapply Keeps.sndEq; with_reducible assumption)
      | (with_reducible eapply Keeps.thdEq; with_reducible assumption)
      | with_reducible apply Keeps.modRoom
      | with_reducible apply Keeps.put
      | with_reducible apply Yields.error
      | with_reducible apply Yields.throw
      | with_reducible apply Yields.ok
      | with_reducible apply Yields.pure
      | with_reducible apply Yields.bind
      | (with_reducible eapply Yields.ofEq; with_reducible assumption)
      | (with_reducible eapply Yields.ofEqFst; with_reducible assumption)
      | (intro _ hw; exact hw)
      | with_reducible apply Gives.none
      | with_reducible apply Gives.some
      | with_reducible apply Gives.bind
      | (with_reducible eapply Gives.ofEq; with_reducible assumption)
      | (extract_lets +onlyGivenNames x; refine Keeps.cut (p := Keeps o₀ x) ?_ (fun hx => ?_); rotate_left; clear_value x; rotate_left; try subst x)
      | simp -zeta only [Keeps.lit_iff]
      | fail_if_no_progress (extract_lets +onlyGivenNames x)
      | simp +zetaDelta only [Keeps.lit_iff]
      | (with_reducible apply wf_id; assumption)
      | split
      | intro _
  | succ n ih =>
    unfold State.sealOut
    repeat' first
      | with_reducible assumption
      | (with_reducible eapply Keeps.fstEq; with_reducible assumption)
      | (with_reducible eapply Keeps.sndEq; with_reducible assumption)
      | (with_reducible eapply Keeps.thdEq; with_reducible assumption)
      | with_reducible apply Keeps.modRoom
      | with_reducible apply Keeps.put
      | with_reducible apply ih
      | with_reducible apply Yields.error
      | with_reducible apply Yields.throw
      | with_reducible apply Yields.ok
      | with_reducible apply Yields.pure
      | with_reducible apply Yields.bind
      | (with_reducible eapply Yields.ofEq; with_reducible assumption)
      | (with_reducible eapply Yields.ofEqFst; with_reducible assumption)
      | (intro _ hw; exact hw)
      | with_reducible apply Gives.none
      | with_reducible apply Gives.some
      | with_reducible apply Gives.bind
      | (with_reducible eapply Gives.ofEq; with_reducible assumption)
      | (extract_lets +onlyGivenNames x; refine Keeps.cut (p := Keeps o₀ x) ?_ (fun hx => ?_); rotate_left; clear_value x; rotate_left; try subst x)
      | simp -zeta only [Keeps.lit_iff]
      | fail_if_no_progress (extract_lets +onlyGivenNames x)
      | simp +zetaDelta only [Keeps.lit_iff]
      | (with_reducible apply wf_id; assumption)
      | split
      | intro _

theorem Keeps.sealedCopy {o₀ : State} (s : State) (r : Nat) (d : Desc) (hk : Keeps o₀ s) : Keeps o₀ (s.sealedCopy r d).1 := by
  unfold State.sealedCopy
  repeat' first
    | with_reducible assumption
    | (with_reducible eapply Keeps.fstEq; with_reducible assumption)
    | (with_reducible eapply Keeps.sndEq; with_reducible assumption)
    | (with_reducible eapply Keeps.thdEq; with_reducible assumption)
    | with_reducible apply Keeps.sealIn
    | with_reducible apply Keeps.sealOut
    | (intro _ hw; exact hw)
    | with_reducible apply Gives.none
    | with_reducible apply Gives.some
    | with_reducible apply Gives.bind
    | (with_reducible eapply Gives.ofEq; with_reducible assumption)
    | (extract_lets +onlyGivenNames x; refine Keeps.cut (p := Keeps o₀ x) ?_ (fun hx => ?_); rotate_left; clear_value x; rotate_left; try subst x)
    | simp -zeta only [Keeps.lit_iff]
    | fail_if_no_progress (extract_lets +onlyGivenNames x)
    | simp +zetaDelta only [Keeps.lit_iff]
    | split
    | intro _

theorem Keeps.putRecords {o₀ : State} (s : State) (r : Nat) (host : Bool) (a : Nat) (n0 : List (List Byte)) (n1 : Nat) (hk : Keeps o₀ s) : Keeps o₀ (s.putRecords r host a n0 n1).1 := by
  induction n0 generalizing s r host a n1 with
  | nil =>
    unfold State.putRecords
    repeat' first
      | with_reducible assumption
      | (with_reducible eapply Keeps.fstEq; with_reducible assumption)
      | (with_reducible eapply Keeps.sndEq; with_reducible assumption)
      | (with_reducible eapply Keeps.thdEq; with_reducible assumption)
      | with_reducible apply Keeps.put
      | (intro _ hw; exact hw)
      | with_reducible apply Gives.none
      | with_reducible apply Gives.some
      | with_reducible apply Gives.bind
      | (with_reducible eapply Gives.ofEq; with_reducible assumption)
      | (extract_lets +onlyGivenNames x; refine Keeps.cut (p := Keeps o₀ x) ?_ (fun hx => ?_); rotate_left; clear_value x; rotate_left; try subst x)
      | simp -zeta only [Keeps.lit_iff]
      | fail_if_no_progress (extract_lets +onlyGivenNames x)
      | simp +zetaDelta only [Keeps.lit_iff]
      | split
      | intro _
  | cons a l ih =>
    unfold State.putRecords
    repeat' first
      | with_reducible assumption
      | (with_reducible eapply Keeps.fstEq; with_reducible assumption)
      | (with_reducible eapply Keeps.sndEq; with_reducible assumption)
      | (with_reducible eapply Keeps.thdEq; with_reducible assumption)
      | with_reducible apply Keeps.put
      | with_reducible apply ih
      | (intro _ hw; exact hw)
      | with_reducible apply Gives.none
      | with_reducible apply Gives.some
      | with_reducible apply Gives.bind
      | (with_reducible eapply Gives.ofEq; with_reducible assumption)
      | (extract_lets +onlyGivenNames x; refine Keeps.cut (p := Keeps o₀ x) ?_ (fun hx => ?_); rotate_left; clear_value x; rotate_left; try subst x)
      | simp -zeta only [Keeps.lit_iff]
      | fail_if_no_progress (extract_lets +onlyGivenNames x)
      | simp +zetaDelta only [Keeps.lit_iff]
      | split
      | intro _

end Sys2Proof.Machine
end

