-- ==== Sys2Proof/Laws/KeepsEngines.lean ====
section
/-! SUPPORT. `Keeps` for the operations of Machine/Engines.lean. -/

set_option linter.all false

namespace Sys2Proof.Machine

theorem Keeps.modView {o₀ : State} (s : State) (r base : Nat) (f : ViewSt → ViewSt) (hk : Keeps o₀ s) : Keeps o₀ (s.modView r base f) := by
  unfold State.modView
  repeat' first
    | with_reducible assumption
    | with_reducible apply Keeps.modMem
    | (intro _ hw; exact hw)
    | (extract_lets +onlyGivenNames x; refine Keeps.cut (p := Keeps o₀ x) ?_ (fun hx => ?_); rotate_left; clear_value x; rotate_left; try subst x)
    | simp -zeta only [Keeps.lit_iff]
    | fail_if_no_progress (extract_lets +onlyGivenNames x)
    | simp +zetaDelta only [Keeps.lit_iff]
    | exact wf_nil
    | (with_reducible apply wf_id; assumption)
    | intro _

theorem Keeps.decodeStore {o₀ : State} (s : State) (r base : Nat) (v : ViewRec) (q h : Nat) (row : ViewRow) (hk : Keeps o₀ s) : Keeps o₀ (s.decodeStore r base v q h row) := by
  unfold State.decodeStore
  repeat' first
    | with_reducible assumption
    | (with_reducible eapply Keeps.fstEq; with_reducible assumption)
    | (with_reducible eapply Keeps.sndEq; with_reducible assumption)
    | (with_reducible eapply Keeps.thdEq; with_reducible assumption)
    | with_reducible apply Keeps.writeVa
    | with_reducible apply Keeps.count
    | (intro _ hw; exact hw)
    | with_reducible apply Gives.none
    | with_reducible apply Gives.some
    | with_reducible apply Gives.bind
    | (with_reducible eapply Gives.ofEq; with_reducible assumption)
    | (extract_lets +onlyGivenNames x; refine Keeps.cut (p := Keeps o₀ x) ?_ (fun hx => ?_); rotate_left; clear_value x; rotate_left; try subst x)
    | simp -zeta only [Keeps.lit_iff]
    | fail_if_no_progress (extract_lets +onlyGivenNames x)
    | simp +zetaDelta only [Keeps.lit_iff]
    | exact wf_nil
    | (with_reducible apply wf_id; assumption)
    | split
    | intro _

theorem Keeps.decodeSeq {o₀ : State} (s : State) (r base : Nat) (st : ViewSt) (q : Nat) (hk : Keeps o₀ s) : Yields o₀ (fun v => v.1) (s.decodeSeq r base st q) := by
  unfold State.decodeSeq
  repeat' first
    | with_reducible assumption
    | (with_reducible eapply Keeps.fstEq; with_reducible assumption)
    | (with_reducible eapply Keeps.sndEq; with_reducible assumption)
    | (with_reducible eapply Keeps.thdEq; with_reducible assumption)
    | with_reducible apply Keeps.decodeStore
    | with_reducible apply Keeps.foldl
    | with_reducible apply Keeps.foldlFst
    | with_reducible apply Keeps.foldlSnd
    | with_reducible apply Keeps.foldlWrote
    | with_reducible apply wf_foldlData
    | with_reducible apply wf_foldlMem
    | with_reducible apply wf_memWriteN
    | with_reducible apply wf_memWrite
    | with_reducible apply Yields.error
    | with_reducible apply Yields.throw
    | with_reducible apply Yields.ok
    | with_reducible apply Yields.pure
    | with_reducible apply Yields.bind
    | (with_reducible eapply Yields.ofEq; with_reducible assumption)
    | (with_reducible eapply Yields.ofEqFst; with_reducible assumption)
    | (intro _ hw; exact hw)
    | with_reducible apply Gives.none
    | with_reducible apply Gives.some
    | with_reducible apply Gives.bind
    | (with_reducible eapply Gives.ofEq; with_reducible assumption)
    | (extract_lets +onlyGivenNames x; refine Keeps.cut (p := Keeps o₀ x) ?_ (fun hx => ?_); rotate_left; clear_value x; rotate_left; try subst x)
    | simp -zeta only [Keeps.lit_iff]
    | fail_if_no_progress (extract_lets +onlyGivenNames x)
    | simp +zetaDelta only [Keeps.lit_iff]
    | exact wf_nil
    | (with_reducible apply wf_id; assumption)
    | split
    | intro _

theorem Keeps.decodeSeqs {o₀ : State} (s : State) (r base : Nat) (st : ViewSt) (n0 : Nat) (n1 : Nat) (n2 : Option Nat) (hk : Keeps o₀ s) : Yields o₀ (fun v => v.1) (s.decodeSeqs r base st n0 n1 n2) := by
  induction n0 generalizing s r base st n1 n2 with
  | zero =>
    unfold State.decodeSeqs
    repeat' first
      | with_reducible assumption
      | (with_reducible eapply Keeps.fstEq; with_reducible assumption)
      | (with_reducible eapply Keeps.sndEq; with_reducible assumption)
      | (with_reducible eapply Keeps.thdEq; with_reducible assumption)
      | with_reducible apply Keeps.decodeSeq
      | with_reducible apply Yields.error
      | with_reducible apply Yields.throw
      | with_reducible apply Yields.ok
      | with_reducible apply Yields.pure
      | with_reducible apply Yields.bind
      | (with_reducible eapply Yields.ofEq; with_reducible assumption)
      | (with_reducible eapply Yields.ofEqFst; with_reducible assumption)
      | (intro _ hw; exact hw)
      | (extract_lets +onlyGivenNames x; refine Keeps.cut (p := Keeps o₀ x) ?_ (fun hx => ?_); rotate_left; clear_value x; rotate_left; try subst x)
      | simp -zeta only [Keeps.lit_iff]
      | fail_if_no_progress (extract_lets +onlyGivenNames x)
      | simp +zetaDelta only [Keeps.lit_iff]
      | split
      | intro _
  | succ n ih =>
    unfold State.decodeSeqs
    repeat' first
      | with_reducible assumption
      | (with_reducible eapply Keeps.fstEq; with_reducible assumption)
      | (with_reducible eapply Keeps.sndEq; with_reducible assumption)
      | (with_reducible eapply Keeps.thdEq; with_reducible assumption)
      | with_reducible apply Keeps.decodeSeq
      | with_reducible apply ih
      | with_reducible apply Yields.error
      | with_reducible apply Yields.throw
      | with_reducible apply Yields.ok
      | with_reducible apply Yields.pure
      | with_reducible apply Yields.bind
      | (with_reducible eapply Yields.ofEq; with_reducible assumption)
      | (with_reducible eapply Yields.ofEqFst; with_reducible assumption)
      | (intro _ hw; exact hw)
      | (extract_lets +onlyGivenNames x; refine Keeps.cut (p := Keeps o₀ x) ?_ (fun hx => ?_); rotate_left; clear_value x; rotate_left; try subst x)
      | simp -zeta only [Keeps.lit_iff]
      | fail_if_no_progress (extract_lets +onlyGivenNames x)
      | simp +zetaDelta only [Keeps.lit_iff]
      | split
      | intro _

theorem Keeps.touchPages {o₀ : State} (s : State) (r : Nat) (v : ViewRec) (pages : Tbl Nat) (hk : Keeps o₀ s) : Keeps o₀ (s.touchPages r v pages) := by
  unfold State.touchPages
  repeat' first
    | with_reducible assumption
    | (with_reducible eapply Keeps.fstEq; with_reducible assumption)
    | (with_reducible eapply Keeps.sndEq; with_reducible assumption)
    | (with_reducible eapply Keeps.thdEq; with_reducible assumption)
    | with_reducible apply Keeps.chargeNormal
    | with_reducible apply Keeps.warm
    | with_reducible apply Keeps.foldl
    | with_reducible apply Keeps.foldlFst
    | with_reducible apply Keeps.foldlSnd
    | with_reducible apply Keeps.foldlWrote
    | with_reducible apply wf_foldlData
    | with_reducible apply wf_foldlMem
    | (intro _ hw; exact hw)
    | with_reducible apply Gives.none
    | with_reducible apply Gives.some
    | with_reducible apply Gives.bind
    | (with_reducible eapply Gives.ofEq; with_reducible assumption)
    | (extract_lets +onlyGivenNames x; refine Keeps.cut (p := Keeps o₀ x) ?_ (fun hx => ?_); rotate_left; clear_value x; rotate_left; try subst x)
    | simp -zeta only [Keeps.lit_iff]
    | fail_if_no_progress (extract_lets +onlyGivenNames x)
    | simp +zetaDelta only [Keeps.lit_iff]
    | exact wf_nil
    | (with_reducible apply wf_id; assumption)
    | split
    | intro _

theorem Keeps.chargeHaul {o₀ : State} (s : State) (r va n : Nat) (hk : Keeps o₀ s) : Keeps o₀ (s.chargeHaul r va n) := by
  unfold State.chargeHaul
  repeat' first
    | with_reducible assumption
    | (with_reducible eapply Keeps.fstEq; with_reducible assumption)
    | (with_reducible eapply Keeps.sndEq; with_reducible assumption)
    | (with_reducible eapply Keeps.thdEq; with_reducible assumption)
    | with_reducible apply Keeps.charge
    | with_reducible apply Keeps.spend
    | (intro _ hw; exact hw)
    | with_reducible apply Gives.none
    | with_reducible apply Gives.some
    | with_reducible apply Gives.bind
    | (with_reducible eapply Gives.ofEq; with_reducible assumption)
    | (extract_lets +onlyGivenNames x; refine Keeps.cut (p := Keeps o₀ x) ?_ (fun hx => ?_); rotate_left; clear_value x; rotate_left; try subst x)
    | simp -zeta only [Keeps.lit_iff]
    | fail_if_no_progress (extract_lets +onlyGivenNames x)
    | simp +zetaDelta only [Keeps.lit_iff]
    | exact wf_nil
    | (with_reducible apply wf_id; assumption)
    | split
    | intro _

theorem Keeps.consider {o₀ : State} (s : State) (r : Nat) (c : Nat × Page) (hk : Keeps o₀ s) : Keeps o₀ (s.consider r c) := by
  unfold State.consider
  repeat' first
    | with_reducible assumption
    | (with_reducible eapply Keeps.fstEq; with_reducible assumption)
    | (with_reducible eapply Keeps.sndEq; with_reducible assumption)
    | (with_reducible eapply Keeps.thdEq; with_reducible assumption)
    | with_reducible apply Keeps.setPage
    | with_reducible apply Keeps.heat
    | (intro _ hw; exact hw)
    | with_reducible apply Gives.none
    | with_reducible apply Gives.some
    | with_reducible apply Gives.bind
    | (with_reducible eapply Gives.ofEq; with_reducible assumption)
    | (extract_lets +onlyGivenNames x; refine Keeps.cut (p := Keeps o₀ x) ?_ (fun hx => ?_); rotate_left; clear_value x; rotate_left; try subst x)
    | simp -zeta only [Keeps.lit_iff]
    | fail_if_no_progress (extract_lets +onlyGivenNames x)
    | simp +zetaDelta only [Keeps.lit_iff]
    | (with_reducible apply wf_id; assumption)
    | split
    | intro _

theorem Keeps.switchPage {o₀ : State} (s : State) (r v : Nat) (hk : Keeps o₀ s) : Keeps o₀ (s.switchPage r v) := by
  unfold State.switchPage
  repeat' first
    | with_reducible assumption
    | (with_reducible eapply Keeps.fstEq; with_reducible assumption)
    | (with_reducible eapply Keeps.sndEq; with_reducible assumption)
    | (with_reducible eapply Keeps.thdEq; with_reducible assumption)
    | with_reducible apply Keeps.seat
    | with_reducible apply Keeps.chargeHaul
    | (intro _ hw; exact hw)
    | with_reducible apply Gives.none
    | with_reducible apply Gives.some
    | with_reducible apply Gives.bind
    | (with_reducible eapply Gives.ofEq; with_reducible assumption)
    | (extract_lets +onlyGivenNames x; refine Keeps.cut (p := Keeps o₀ x) ?_ (fun hx => ?_); rotate_left; clear_value x; rotate_left; try subst x)
    | simp -zeta only [Keeps.lit_iff]
    | fail_if_no_progress (extract_lets +onlyGivenNames x)
    | simp +zetaDelta only [Keeps.lit_iff]
    | exact wf_nil
    | (with_reducible apply wf_id; assumption)
    | split
    | intro _

end Sys2Proof.Machine
end

