-- ==== Sys2Proof/Laws/KeepsPlace.lean ====
section
/-! SUPPORT. `Keeps` for the operations of Machine/Place.lean. -/

set_option linter.all false

namespace Sys2Proof.Machine

theorem Keeps.mapPages {o₀ : State} (s : State) (r : Nat) (d : Desc) (cls : Nat) (hk : Keeps o₀ s) : Yields o₀ (fun v => v) (s.mapPages r d cls) := by
  unfold State.mapPages
  repeat' first
    | with_reducible assumption
    | with_reducible apply Keeps.modMem
    | with_reducible apply Keeps.makeRoom
    | with_reducible apply Yields.error
    | with_reducible apply Yields.throw
    | with_reducible apply Yields.ok
    | with_reducible apply Yields.pure
    | with_reducible apply Yields.bind
    | (with_reducible eapply Yields.ofEq; with_reducible assumption)
    | (with_reducible eapply Yields.ofEqFst; with_reducible assumption)
    | (intro _ hw; exact hw)
    | (extract_lets +onlyGivenNames x; refine Keeps.cut (p := Keeps o₀ x) ?_ (fun hx => ?_); rotate_left; clear_value x; rotate_left; try subst x)
    | fail_if_no_progress (extract_lets +onlyGivenNames x)
    | (with_reducible apply wf_id; assumption)
    | split
    | intro _

theorem Keeps.retier {o₀ : State} (s : State) (r v : Nat) (hk : Keeps o₀ s) : Keeps o₀ (s.retier r v) := by
  unfold State.retier
  repeat' first
    | with_reducible assumption
    | (with_reducible eapply Keeps.fstEq; with_reducible assumption)
    | (with_reducible eapply Keeps.sndEq; with_reducible assumption)
    | (with_reducible eapply Keeps.thdEq; with_reducible assumption)
    | with_reducible apply Keeps.movePage
    | (intro _ hw; exact hw)
    | with_reducible apply Gives.none
    | with_reducible apply Gives.some
    | with_reducible apply Gives.bind
    | (with_reducible eapply Gives.ofEq; with_reducible assumption)
    | (extract_lets +onlyGivenNames x; refine Keeps.cut (p := Keeps o₀ x) ?_ (fun hx => ?_); rotate_left; clear_value x; rotate_left; try subst x)
    | simp -zeta only [Keeps.lit_iff]
    | fail_if_no_progress (extract_lets +onlyGivenNames x)
    | simp +zetaDelta only [Keeps.lit_iff]
    | exact wf_nil
    | (with_reducible apply wf_id; assumption)
    | split
    | intro _

theorem Keeps.setPages {o₀ : State} (s : State) (r : Nat) (d : Desc) (cls : Nat) (hk : Keeps o₀ s) : Yields o₀ (fun v => v) (s.setPages r d cls) := by
  unfold State.setPages
  repeat' first
    | with_reducible assumption
    | with_reducible apply Keeps.modMem
    | with_reducible apply Keeps.makeRoom
    | with_reducible apply Keeps.retier
    | with_reducible apply Yields.error
    | with_reducible apply Yields.throw
    | with_reducible apply Yields.ok
    | with_reducible apply Yields.pure
    | with_reducible apply Yields.bind
    | (with_reducible eapply Yields.ofEq; with_reducible assumption)
    | (with_reducible eapply Yields.ofEqFst; with_reducible assumption)
    | with_reducible apply Keeps.foldl
    | with_reducible apply Keeps.foldlFst
    | with_reducible apply Keeps.foldlSnd
    | with_reducible apply Keeps.foldlWrote
    | with_reducible apply wf_foldlData
    | with_reducible apply wf_foldlMem
    | (intro _ hw; exact hw)
    | (extract_lets +onlyGivenNames x; refine Keeps.cut (p := Keeps o₀ x) ?_ (fun hx => ?_); rotate_left; clear_value x; rotate_left; try subst x)
    | simp -zeta only [Keeps.lit_iff]
    | fail_if_no_progress (extract_lets +onlyGivenNames x)
    | simp +zetaDelta only [Keeps.lit_iff]
    | (with_reducible apply wf_id; assumption)
    | split
    | intro _

theorem Keeps.dropPages {o₀ : State} (s : State) (r va n : Nat) (hk : Keeps o₀ s) : Keeps o₀ (s.dropPages r va n) := by
  unfold State.dropPages
  repeat' first
    | with_reducible assumption
    | with_reducible apply Keeps.modMem
    | with_reducible apply Keeps.forgetLost
    | with_reducible apply Keeps.foldl
    | with_reducible apply Keeps.foldlFst
    | with_reducible apply Keeps.foldlSnd
    | with_reducible apply Keeps.foldlWrote
    | with_reducible apply wf_foldlData
    | with_reducible apply wf_foldlMem
    | with_reducible apply wf_memZero
    | (intro _ hw; exact hw)
    | (extract_lets +onlyGivenNames x; refine Keeps.cut (p := Keeps o₀ x) ?_ (fun hx => ?_); rotate_left; clear_value x; rotate_left; try subst x)
    | simp -zeta only [Keeps.lit_iff]
    | fail_if_no_progress (extract_lets +onlyGivenNames x)
    | simp +zetaDelta only [Keeps.lit_iff]
    | (with_reducible apply wf_id; assumption)
    | intro _

theorem Keeps.backPages {o₀ : State} (s : State) (r base : Nat) (n0 : List Nat) (hk : Keeps o₀ s) : Gives o₀ (s.backPages r base n0) := by
  induction n0 generalizing s r base with
  | nil =>
    unfold State.backPages
    repeat' first
      | with_reducible assumption
      | (with_reducible eapply Keeps.fstEq; with_reducible assumption)
      | (with_reducible eapply Keeps.sndEq; with_reducible assumption)
      | (with_reducible eapply Keeps.thdEq; with_reducible assumption)
      | with_reducible apply Keeps.zeroFrame
      | with_reducible apply Keeps.modMem
      | (intro _ hw; exact hw)
      | with_reducible apply Gives.none
      | with_reducible apply Gives.some
      | with_reducible apply Gives.bind
      | (with_reducible eapply Gives.ofEq; with_reducible assumption)
      | (extract_lets +onlyGivenNames x; refine Keeps.cut (p := Keeps o₀ x) ?_ (fun hx => ?_); rotate_left; clear_value x; rotate_left; try subst x)
      | simp -zeta only [Keeps.lit_iff]
      | fail_if_no_progress (extract_lets +onlyGivenNames x)
      | simp +zetaDelta only [Keeps.lit_iff]
      | exact wf_nil
      | (with_reducible apply wf_id; assumption)
      | split
      | intro _
  | cons a l ih =>
    unfold State.backPages
    repeat' first
      | with_reducible assumption
      | (with_reducible eapply Keeps.fstEq; with_reducible assumption)
      | (with_reducible eapply Keeps.sndEq; with_reducible assumption)
      | (with_reducible eapply Keeps.thdEq; with_reducible assumption)
      | with_reducible apply ih
      | with_reducible apply Keeps.zeroFrame
      | with_reducible apply Keeps.modMem
      | (intro _ hw; exact hw)
      | with_reducible apply Gives.none
      | with_reducible apply Gives.some
      | with_reducible apply Gives.bind
      | (with_reducible eapply Gives.ofEq; with_reducible assumption)
      | (extract_lets +onlyGivenNames x; refine Keeps.cut (p := Keeps o₀ x) ?_ (fun hx => ?_); rotate_left; clear_value x; rotate_left; try subst x)
      | simp -zeta only [Keeps.lit_iff]
      | fail_if_no_progress (extract_lets +onlyGivenNames x)
      | simp +zetaDelta only [Keeps.lit_iff]
      | exact wf_nil
      | (with_reducible apply wf_id; assumption)
      | split
      | intro _

theorem Keeps.addSpecial {o₀ : State} (s : State) (r : Nat) (d : Desc) (raw : Nat) (exts : List (Nat × Nat)) (hk : Keeps o₀ s) : Yields o₀ (fun v => v) (s.addSpecial r d raw exts) := by
  unfold State.addSpecial
  repeat' first
    | with_reducible assumption
    | (with_reducible eapply Keeps.fstEq; with_reducible assumption)
    | (with_reducible eapply Keeps.sndEq; with_reducible assumption)
    | (with_reducible eapply Keeps.thdEq; with_reducible assumption)
    | with_reducible apply Keeps.modMem
    | with_reducible apply Keeps.makeRoom
    | with_reducible apply Keeps.backPages
    | with_reducible apply Yields.error
    | with_reducible apply Yields.throw
    | with_reducible apply Yields.ok
    | with_reducible apply Yields.pure
    | with_reducible apply Yields.bind
    | (with_reducible eapply Yields.ofEq; with_reducible assumption)
    | (with_reducible eapply Yields.ofEqFst; with_reducible assumption)
    | with_reducible apply wf_memZero
    | (intro _ hw; exact hw)
    | with_reducible apply Gives.none
    | with_reducible apply Gives.some
    | with_reducible apply Gives.bind
    | (with_reducible eapply Gives.ofEq; with_reducible assumption)
    | (extract_lets +onlyGivenNames x; refine Keeps.cut (p := Keeps o₀ x) ?_ (fun hx => ?_); rotate_left; clear_value x; rotate_left; try subst x)
    | simp -zeta only [Keeps.lit_iff]
    | fail_if_no_progress (extract_lets +onlyGivenNames x)
    | simp +zetaDelta only [Keeps.lit_iff]
    | (with_reducible apply wf_id; assumption)
    | split
    | intro _

theorem Keeps.pinUpper {o₀ : State} (s : State) (r : Nat) (image : Bool) (all : List Nat) (n0 : List Nat) (hk : Keeps o₀ s) : Gives o₀ (s.pinUpper r image all n0) := by
  induction n0 generalizing s r image all with
  | nil =>
    unfold State.pinUpper
    repeat' first
      | with_reducible assumption
      | (with_reducible eapply Keeps.fstEq; with_reducible assumption)
      | (with_reducible eapply Keeps.sndEq; with_reducible assumption)
      | (with_reducible eapply Keeps.thdEq; with_reducible assumption)
      | with_reducible apply Keeps.modMem
      | with_reducible apply Keeps.demote
      | with_reducible apply Keeps.seat
      | with_reducible apply Keeps.movePage
      | (intro _ hw; exact hw)
      | with_reducible apply Gives.none
      | with_reducible apply Gives.some
      | with_reducible apply Gives.bind
      | (with_reducible eapply Gives.ofEq; with_reducible assumption)
      | (extract_lets +onlyGivenNames x; refine Keeps.cut (p := Keeps o₀ x) ?_ (fun hx => ?_); rotate_left; clear_value x; rotate_left; try subst x)
      | simp -zeta only [Keeps.lit_iff]
      | fail_if_no_progress (extract_lets +onlyGivenNames x)
      | simp +zetaDelta only [Keeps.lit_iff]
      | exact wf_nil
      | (with_reducible apply wf_id; assumption)
      | split
      | intro _
  | cons a l ih =>
    unfold State.pinUpper
    repeat' first
      | with_reducible assumption
      | (with_reducible eapply Keeps.fstEq; with_reducible assumption)
      | (with_reducible eapply Keeps.sndEq; with_reducible assumption)
      | (with_reducible eapply Keeps.thdEq; with_reducible assumption)
      | with_reducible apply ih
      | with_reducible apply Keeps.modMem
      | with_reducible apply Keeps.demote
      | with_reducible apply Keeps.seat
      | with_reducible apply Keeps.movePage
      | (intro _ hw; exact hw)
      | with_reducible apply Gives.none
      | with_reducible apply Gives.some
      | with_reducible apply Gives.bind
      | (with_reducible eapply Gives.ofEq; with_reducible assumption)
      | (extract_lets +onlyGivenNames x; refine Keeps.cut (p := Keeps o₀ x) ?_ (fun hx => ?_); rotate_left; clear_value x; rotate_left; try subst x)
      | simp -zeta only [Keeps.lit_iff]
      | fail_if_no_progress (extract_lets +onlyGivenNames x)
      | simp +zetaDelta only [Keeps.lit_iff]
      | exact wf_nil
      | (with_reducible apply wf_id; assumption)
      | split
      | intro _

theorem Keeps.addView {o₀ : State} (s : State) (r : Nat) (d : Desc) (raw : Nat) (hk : Keeps o₀ s) : Yields o₀ (fun v => v) (s.addView r d raw) := by
  unfold State.addView
  repeat' first
    | with_reducible assumption
    | (with_reducible eapply Keeps.fstEq; with_reducible assumption)
    | (with_reducible eapply Keeps.sndEq; with_reducible assumption)
    | (with_reducible eapply Keeps.thdEq; with_reducible assumption)
    | with_reducible apply Keeps.modMem
    | with_reducible apply Keeps.addSpecial
    | with_reducible apply Keeps.pinUpper
    | with_reducible apply Yields.error
    | with_reducible apply Yields.throw
    | with_reducible apply Yields.ok
    | with_reducible apply Yields.pure
    | with_reducible apply Yields.bind
    | (with_reducible eapply Yields.ofEq; with_reducible assumption)
    | (with_reducible eapply Yields.ofEqFst; with_reducible assumption)
    | (intro _ hw; exact hw)
    | with_reducible apply Gives.none
    | with_reducible apply Gives.some
    | with_reducible apply Gives.bind
    | (with_reducible eapply Gives.ofEq; with_reducible assumption)
    | (extract_lets +onlyGivenNames x; refine Keeps.cut (p := Keeps o₀ x) ?_ (fun hx => ?_); rotate_left; clear_value x; rotate_left; try subst x)
    | simp -zeta only [Keeps.lit_iff]
    | fail_if_no_progress (extract_lets +onlyGivenNames x)
    | simp +zetaDelta only [Keeps.lit_iff]
    | exact wf_nil
    | (with_reducible apply wf_id; assumption)
    | split
    | intro _

theorem Keeps.addForest {o₀ : State} (s : State) (r : Nat) (d : Desc) (raw : Nat) (hk : Keeps o₀ s) : Yields o₀ (fun v => v) (s.addForest r d raw) := by
  unfold State.addForest
  repeat' first
    | with_reducible assumption
    | (with_reducible eapply Keeps.fstEq; with_reducible assumption)
    | (with_reducible eapply Keeps.sndEq; with_reducible assumption)
    | (with_reducible eapply Keeps.thdEq; with_reducible assumption)
    | with_reducible apply Keeps.modRoom
    | with_reducible apply Keeps.count
    | with_reducible apply Keeps.addSpecial
    | with_reducible apply Yields.error
    | with_reducible apply Yields.throw
    | with_reducible apply Yields.ok
    | with_reducible apply Yields.pure
    | with_reducible apply Yields.bind
    | (with_reducible eapply Yields.ofEq; with_reducible assumption)
    | (with_reducible eapply Yields.ofEqFst; with_reducible assumption)
    | (intro _ hw; exact hw)
    | with_reducible apply Gives.none
    | with_reducible apply Gives.some
    | with_reducible apply Gives.bind
    | (with_reducible eapply Gives.ofEq; with_reducible assumption)
    | (extract_lets +onlyGivenNames x; refine Keeps.cut (p := Keeps o₀ x) ?_ (fun hx => ?_); rotate_left; clear_value x; rotate_left; try subst x)
    | simp -zeta only [Keeps.lit_iff]
    | fail_if_no_progress (extract_lets +onlyGivenNames x)
    | simp +zetaDelta only [Keeps.lit_iff]
    | (with_reducible apply wf_id; assumption)
    | split
    | intro _

theorem Keeps.addKernel {o₀ : State} (s : State) (r : Nat) (d : Desc) (raw : Nat) (hk : Keeps o₀ s) : Yields o₀ (fun v => v) (s.addKernel r d raw) := by
  unfold State.addKernel
  repeat' first
    | with_reducible assumption
    | (with_reducible eapply Keeps.fstEq; with_reducible assumption)
    | (with_reducible eapply Keeps.sndEq; with_reducible assumption)
    | (with_reducible eapply Keeps.thdEq; with_reducible assumption)
    | with_reducible apply Keeps.modRoom
    | with_reducible apply Keeps.addSpecial
    | with_reducible apply Yields.error
    | with_reducible apply Yields.throw
    | with_reducible apply Yields.ok
    | with_reducible apply Yields.pure
    | with_reducible apply Yields.bind
    | (with_reducible eapply Yields.ofEq; with_reducible assumption)
    | (with_reducible eapply Yields.ofEqFst; with_reducible assumption)
    | (intro _ hw; exact hw)
    | with_reducible apply Gives.none
    | with_reducible apply Gives.some
    | with_reducible apply Gives.bind
    | (with_reducible eapply Gives.ofEq; with_reducible assumption)
    | (extract_lets +onlyGivenNames x; refine Keeps.cut (p := Keeps o₀ x) ?_ (fun hx => ?_); rotate_left; clear_value x; rotate_left; try subst x)
    | simp -zeta only [Keeps.lit_iff]
    | fail_if_no_progress (extract_lets +onlyGivenNames x)
    | simp +zetaDelta only [Keeps.lit_iff]
    | (with_reducible apply wf_id; assumption)
    | split
    | intro _

theorem Keeps.dropSpecial {o₀ : State} (s : State) (r : Nat) (x : Special) (hk : Keeps o₀ s) : Keeps o₀ (s.dropSpecial r x) := by
  unfold State.dropSpecial
  repeat' first
    | with_reducible assumption
    | with_reducible apply Keeps.modRoom
    | with_reducible apply wf_memZero
    | (intro _ hw; exact hw)
    | with_reducible apply Gives.none
    | with_reducible apply Gives.some
    | with_reducible apply Gives.bind
    | (with_reducible eapply Gives.ofEq; with_reducible assumption)
    | (extract_lets +onlyGivenNames x; refine Keeps.cut (p := Keeps o₀ x) ?_ (fun hx => ?_); rotate_left; clear_value x; rotate_left; try subst x)
    | simp -zeta only [Keeps.lit_iff]
    | fail_if_no_progress (extract_lets +onlyGivenNames x)
    | simp +zetaDelta only [Keeps.lit_iff]
    | (with_reducible apply wf_id; assumption)
    | split
    | intro _

theorem Keeps.clear {o₀ : State} (s : State) (r : Nat) (d : Desc) (hk : Keeps o₀ s) : Yields o₀ (fun v => v) (s.clear r d) := by
  unfold State.clear
  repeat' first
    | with_reducible assumption
    | (with_reducible eapply Keeps.fstEq; with_reducible assumption)
    | (with_reducible eapply Keeps.sndEq; with_reducible assumption)
    | (with_reducible eapply Keeps.thdEq; with_reducible assumption)
    | with_reducible apply Keeps.complete
    | with_reducible apply Keeps.dropSpecial
    | with_reducible apply Keeps.foldl
    | with_reducible apply Keeps.foldlFst
    | with_reducible apply Keeps.foldlSnd
    | with_reducible apply Keeps.foldlWrote
    | with_reducible apply wf_foldlData
    | with_reducible apply wf_foldlMem
    | with_reducible apply Yields.error
    | with_reducible apply Yields.throw
    | with_reducible apply Yields.ok
    | with_reducible apply Yields.pure
    | with_reducible apply Yields.bind
    | (with_reducible eapply Yields.ofEq; with_reducible assumption)
    | (with_reducible eapply Yields.ofEqFst; with_reducible assumption)
    | (intro _ hw; exact hw)
    | with_reducible apply Gives.none
    | with_reducible apply Gives.some
    | with_reducible apply Gives.bind
    | (with_reducible eapply Gives.ofEq; with_reducible assumption)
    | (extract_lets +onlyGivenNames x; refine Keeps.cut (p := Keeps o₀ x) ?_ (fun hx => ?_); rotate_left; clear_value x; rotate_left; try subst x)
    | simp -zeta only [Keeps.lit_iff]
    | fail_if_no_progress (extract_lets +onlyGivenNames x)
    | simp +zetaDelta only [Keeps.lit_iff]
    | exact wf_nil
    | (with_reducible apply wf_id; assumption)
    | split
    | intro _

theorem Keeps.hintCmd {o₀ : State} (s : State) (ring hint : Nat) (f : State → Nat → Desc → Except DescErr State) (hk : Keeps o₀ s) (hf : ∀ u x0 x1, Keeps o₀ u → Yields o₀ (fun v => v) (f u x0 x1)) : Keeps o₀ (s.hintCmd ring hint f) := by
  unfold State.hintCmd
  repeat' first
    | with_reducible assumption
    | (with_reducible eapply Keeps.fstEq; with_reducible assumption)
    | (with_reducible eapply Keeps.sndEq; with_reducible assumption)
    | (with_reducible eapply Keeps.thdEq; with_reducible assumption)
    | with_reducible apply Keeps.done
    | with_reducible apply hf
    | with_reducible apply Yields.error
    | with_reducible apply Yields.throw
    | with_reducible apply Yields.ok
    | with_reducible apply Yields.pure
    | with_reducible apply Yields.bind
    | (with_reducible eapply Yields.ofEq; with_reducible assumption)
    | (with_reducible eapply Yields.ofEqFst; with_reducible assumption)
    | (intro _ hw; exact hw)
    | with_reducible apply Gives.none
    | with_reducible apply Gives.some
    | with_reducible apply Gives.bind
    | (with_reducible eapply Gives.ofEq; with_reducible assumption)
    | (extract_lets +onlyGivenNames x; refine Keeps.cut (p := Keeps o₀ x) ?_ (fun hx => ?_); rotate_left; clear_value x; rotate_left; try subst x)
    | simp -zeta only [Keeps.lit_iff]
    | fail_if_no_progress (extract_lets +onlyGivenNames x)
    | simp +zetaDelta only [Keeps.lit_iff]
    | split
    | intro _

theorem Keeps.withRecord {o₀ : State} (f : State → Nat → Desc → Nat → Except DescErr State) (s : State) (r : Nat) (d : Desc) (hk : Keeps o₀ s) (hf : ∀ u x0 x1 x2, Keeps o₀ u → Yields o₀ (fun v => v) (f u x0 x1 x2)) : Yields o₀ (fun v => v) (Machine.withRecord f s r d) := by
  unfold Machine.withRecord
  repeat' first
    | with_reducible assumption
    | (with_reducible eapply Keeps.fstEq; with_reducible assumption)
    | (with_reducible eapply Keeps.sndEq; with_reducible assumption)
    | (with_reducible eapply Keeps.thdEq; with_reducible assumption)
    | with_reducible apply hf
    | with_reducible apply Yields.error
    | with_reducible apply Yields.throw
    | with_reducible apply Yields.ok
    | with_reducible apply Yields.pure
    | with_reducible apply Yields.bind
    | (with_reducible eapply Yields.ofEq; with_reducible assumption)
    | (with_reducible eapply Yields.ofEqFst; with_reducible assumption)
    | (intro _ hw; exact hw)
    | (extract_lets +onlyGivenNames x; refine Keeps.cut (p := Keeps o₀ x) ?_ (fun hx => ?_); rotate_left; clear_value x; rotate_left; try subst x)
    | simp -zeta only [Keeps.lit_iff]
    | fail_if_no_progress (extract_lets +onlyGivenNames x)
    | simp +zetaDelta only [Keeps.lit_iff]
    | split
    | intro _

theorem Keeps.mapWindow {o₀ : State} (s : State) (r : Nat) (d : Desc) (hk : Keeps o₀ s) : Yields o₀ (fun v => v) (s.mapWindow r d) := by
  unfold State.mapWindow
  repeat' first
    | with_reducible assumption
    | with_reducible apply Keeps.addSpecial
    | with_reducible apply Yields.error
    | with_reducible apply Yields.throw
    | with_reducible apply Yields.ok
    | with_reducible apply Yields.pure
    | with_reducible apply Yields.bind
    | (with_reducible eapply Yields.ofEq; with_reducible assumption)
    | (with_reducible eapply Yields.ofEqFst; with_reducible assumption)
    | split
    | intro _

end Sys2Proof.Machine
end

