-- ==== Sys2Proof/Laws/KeepsSnapshots.lean ====
section
/-! SUPPORT. `Keeps` for the operations of Machine/Snapshots.lean. -/

set_option linter.all false

namespace Sys2Proof.Machine

theorem Keeps.snapHold {o₀ : State} (s : State) (r : Nat) (hk : Keeps o₀ s) : Keeps o₀ (s.snapHold r) := by
  unfold State.snapHold
  repeat' first
    | with_reducible assumption
    | (with_reducible eapply Keeps.fstEq; with_reducible assumption)
    | (with_reducible eapply Keeps.sndEq; with_reducible assumption)
    | (with_reducible eapply Keeps.thdEq; with_reducible assumption)
    | with_reducible apply Keeps.stallBarrier
    | with_reducible apply Keeps.modRoom
    | (intro _ hw; exact hw)
    | with_reducible apply Gives.none
    | with_reducible apply Gives.some
    | with_reducible apply Gives.bind
    | (with_reducible eapply Gives.ofEq; with_reducible assumption)
    | (extract_lets +onlyGivenNames x; refine Keeps.cut (p := Keeps o₀ x) ?_ (fun hx => ?_); rotate_left; clear_value x; rotate_left; try subst x)
    | simp -zeta only [Keeps.lit_iff]
    | fail_if_no_progress (extract_lets +onlyGivenNames x)
    | simp +zetaDelta only [Keeps.lit_iff]
    | exact wf_nil
    | (with_reducible apply wf_id; assumption)
    | split
    | intro _

theorem Keeps.snapWaited {o₀ : State} (s : State) (r : Nat) (hk : Keeps o₀ s) : Keeps o₀ (s.snapWaited r) := by
  unfold State.snapWaited
  repeat' first
    | with_reducible assumption
    | (with_reducible eapply Keeps.fstEq; with_reducible assumption)
    | (with_reducible eapply Keeps.sndEq; with_reducible assumption)
    | (with_reducible eapply Keeps.thdEq; with_reducible assumption)
    | with_reducible apply Keeps.stallBarrier
    | with_reducible apply Keeps.modRoom
    | (intro _ hw; exact hw)
    | with_reducible apply Gives.none
    | with_reducible apply Gives.some
    | with_reducible apply Gives.bind
    | (with_reducible eapply Gives.ofEq; with_reducible assumption)
    | (extract_lets +onlyGivenNames x; refine Keeps.cut (p := Keeps o₀ x) ?_ (fun hx => ?_); rotate_left; clear_value x; rotate_left; try subst x)
    | simp -zeta only [Keeps.lit_iff]
    | fail_if_no_progress (extract_lets +onlyGivenNames x)
    | simp +zetaDelta only [Keeps.lit_iff]
    | exact wf_nil
    | (with_reducible apply wf_id; assumption)
    | split
    | intro _

theorem Keeps.markSnap {o₀ : State} (s : State) (r : Nat) (j : Job) (hk : Keeps o₀ s) : Keeps o₀ (s.markSnap r j) := by
  unfold State.markSnap
  repeat' first
    | with_reducible assumption
    | (with_reducible eapply Keeps.fstEq; with_reducible assumption)
    | (with_reducible eapply Keeps.sndEq; with_reducible assumption)
    | (with_reducible eapply Keeps.thdEq; with_reducible assumption)
    | with_reducible apply Keeps.raiseFault
    | with_reducible apply Keeps.modMem
    | with_reducible apply Keeps.modRoom
    | (intro _ hw; exact hw)
    | with_reducible apply Gives.none
    | with_reducible apply Gives.some
    | with_reducible apply Gives.bind
    | (with_reducible eapply Gives.ofEq; with_reducible assumption)
    | (extract_lets +onlyGivenNames x; refine Keeps.cut (p := Keeps o₀ x) ?_ (fun hx => ?_); rotate_left; clear_value x; rotate_left; try subst x)
    | simp -zeta only [Keeps.lit_iff]
    | fail_if_no_progress (extract_lets +onlyGivenNames x)
    | simp +zetaDelta only [Keeps.lit_iff]
    | exact wf_nil
    | (with_reducible apply wf_id; assumption)
    | split
    | intro _

theorem Keeps.clearRoomMem {o₀ : State} (s : State) (r : Nat) (hk : Keeps o₀ s) : Keeps o₀ (s.clearRoomMem r) := by
  unfold State.clearRoomMem
  repeat' first
    | with_reducible assumption
    | with_reducible apply Keeps.modRoom
    | with_reducible apply Keeps.forgetLost
    | (intro _ hw; exact hw)
    | with_reducible apply Gives.none
    | with_reducible apply Gives.some
    | with_reducible apply Gives.bind
    | (with_reducible eapply Gives.ofEq; with_reducible assumption)
    | (extract_lets +onlyGivenNames x; refine Keeps.cut (p := Keeps o₀ x) ?_ (fun hx => ?_); rotate_left; clear_value x; rotate_left; try subst x)
    | simp -zeta only [Keeps.lit_iff]
    | fail_if_no_progress (extract_lets +onlyGivenNames x)
    | simp +zetaDelta only [Keeps.lit_iff]
    | exact wf_nil
    | (with_reducible apply wf_id; assumption)
    | intro _

theorem Keeps.seatPage {o₀ : State} (s : State) (r v : Nat) (hk : Keeps o₀ s) : Keeps o₀ (s.seatPage r v) := by
  unfold State.seatPage
  repeat' first
    | with_reducible assumption
    | (with_reducible eapply Keeps.fstEq; with_reducible assumption)
    | (with_reducible eapply Keeps.sndEq; with_reducible assumption)
    | (with_reducible eapply Keeps.thdEq; with_reducible assumption)
    | with_reducible apply Keeps.seat
    | (intro _ hw; exact hw)
    | with_reducible apply Gives.none
    | with_reducible apply Gives.some
    | with_reducible apply Gives.bind
    | (with_reducible eapply Gives.ofEq; with_reducible assumption)
    | (extract_lets +onlyGivenNames x; refine Keeps.cut (p := Keeps o₀ x) ?_ (fun hx => ?_); rotate_left; clear_value x; rotate_left; try subst x)
    | simp -zeta only [Keeps.lit_iff]
    | fail_if_no_progress (extract_lets +onlyGivenNames x)
    | simp +zetaDelta only [Keeps.lit_iff]
    | exact wf_nil
    | (with_reducible apply wf_id; assumption)
    | split
    | intro _

theorem Keeps.reattach {o₀ : State} (s : State) (r base raw : Nat) (hk : Keeps o₀ s) : Keeps o₀ (s.reattach r base raw) := by
  unfold State.reattach
  split
  · exact hk
  · generalize (⟨0, raw <<< 64, false, 0, 0⟩ : Desc) = d
    dsimp only
    split
    · exact Keeps.modMem _ _ _ hk fun _ hw => hw
    · exact hk

theorem Keeps.reRegister {o₀ : State} (s : State) (r : Nat) (sec : List Byte) (x : MapRec) (hk : Keeps o₀ s) :
    Yields o₀ (fun v => v) (s.reRegister r sec x) := by
  unfold State.reRegister
  split
  · exact Yields.map (Keeps.mapWindow _ _ _ hk) fun u h => Keeps.reattach _ _ _ _ h
  · exact Keeps.addView _ _ _ _ hk
  · refine Yields.map (Keeps.addForest _ _ _ _ hk) fun u h => ?_
    exact Keeps.modMem _ _ _ (Keeps.modRoom _ _ _ h fun _ hw => hw) fun _ hw => wf_foldWrites hw _ _ _
  · exact Keeps.addKernel _ _ _ _ hk
  · exact Yields.ok hk

theorem Keeps.rebuild {o₀ : State} (s : State) (r : Nat) (x : Snap) (hk : Keeps o₀ s) : Yields o₀ (fun v => v) (s.rebuild r x) := by
  unfold State.rebuild
  extract_lets a l b c d
  have ha : Keeps o₀ a := Keeps.clearRoomMem _ _ (hk.foldl _ fun u q h => Keeps.complete _ _ _ _ _ _ _ _ h)
  have hb : Keeps o₀ b := ha.foldl _ fun u m h => Keeps.modMem _ _ _ h fun _ hw => hw
  have hc : Keeps o₀ c := hb.foldl _ fun u m h => Keeps.seatPage _ _ _ h
  have hd : Keeps o₀ d := Keeps.modMem _ _ _ hc fun _ _ => wf_foldWrites wf_nil _ _ _
  clear_value d
  split
  · exact Yields.error _
  · generalize x.maps.filter (fun m => decide (5 ≤ m.hint)) = q
    suffices h : ∀ e : Except DescErr State, Yields o₀ (fun v => v) e →
        Yields o₀ (fun v => v) (q.foldl (fun a m => a.bind fun s => s.reRegister r x.forest m) e) from h _ (Yields.ok hd)
    intro e he
    induction q generalizing e with
    | nil => exact he
    | cons m q ih =>
      refine ih _ ?_
      cases e with
      | error c => exact Yields.error _
      | ok v => exact Keeps.reRegister _ _ _ _ (he v rfl)

theorem Keeps.rearmModes {o₀ : State} (s : State) (r step : Nat) (hk : Keeps o₀ s) : Keeps o₀ (s.rearmModes r step) := by
  unfold State.rearmModes
  repeat' first
    | with_reducible assumption
    | with_reducible apply Keeps.modRoom
    | with_reducible apply Keeps.setMode
    | with_reducible apply Keeps.foldl
    | with_reducible apply Keeps.foldlFst
    | with_reducible apply Keeps.foldlSnd
    | with_reducible apply Keeps.foldlWrote
    | with_reducible apply wf_foldlData
    | with_reducible apply wf_foldlMem
    | (intro _ hw; exact hw)
    | (extract_lets +onlyGivenNames x; refine Keeps.cut (p := Keeps o₀ x) ?_ (fun hx => ?_); rotate_left; clear_value x; rotate_left; try subst x)
    | simp -zeta only [Keeps.lit_iff]
    | fail_if_no_progress (extract_lets +onlyGivenNames x)
    | simp +zetaDelta only [Keeps.lit_iff]
    | (with_reducible apply wf_id; assumption)
    | split
    | intro _

end Sys2Proof.Machine
end

