-- ==== Sys2Proof/Laws/KeepsJobStart.lean ====
section
/-! SUPPORT. `Keeps` for the operations of Machine/JobStart.lean. -/

set_option linter.all false

namespace Sys2Proof.Machine

theorem Keeps.noteSpares {o₀ : State} (s : State) (new : Tbl Nat) (hk : Keeps o₀ s) : Keeps o₀ (s.noteSpares new) := by
  unfold State.noteSpares
  repeat' first
    | with_reducible assumption
    | with_reducible apply Keeps.count
    | with_reducible apply Keeps.healthRecord
    | with_reducible apply Keeps.foldl
    | with_reducible apply Keeps.foldlFst
    | with_reducible apply Keeps.foldlSnd
    | with_reducible apply Keeps.foldlWrote
    | with_reducible apply wf_foldlData
    | with_reducible apply wf_foldlMem
    | with_reducible apply Gives.none
    | with_reducible apply Gives.some
    | with_reducible apply Gives.bind
    | (with_reducible eapply Gives.ofEq; with_reducible assumption)
    | (extract_lets +onlyGivenNames x; refine Keeps.cut (p := Keeps o₀ x) ?_ (fun hx => ?_); rotate_left; clear_value x; rotate_left; try subst x)
    | fail_if_no_progress (extract_lets +onlyGivenNames x)
    | split
    | intro _

theorem Keeps.repairRow {o₀ : State} (s : State) (site : Nat) (m : Nat × Nat) (hk : Keeps o₀ s) : Keeps o₀ (s.repairRow site m) := by
  unfold State.repairRow
  repeat' first
    | with_reducible assumption
    | with_reducible apply Keeps.modStack
    | with_reducible apply Keeps.count
    | with_reducible apply Keeps.healthRecord
    | (intro _ hw; exact hw)
    | (extract_lets +onlyGivenNames x; refine Keeps.cut (p := Keeps o₀ x) ?_ (fun hx => ?_); rotate_left; clear_value x; rotate_left; try subst x)
    | simp -zeta only [Keeps.lit_iff]
    | fail_if_no_progress (extract_lets +onlyGivenNames x)
    | simp +zetaDelta only [Keeps.lit_iff]
    | (with_reducible apply wf_id; assumption)
    | split
    | intro _

theorem Keeps.repairRows {o₀ : State} (s : State) (hk : Keeps o₀ s) : Keeps o₀ (s.repairRows) := by
  unfold State.repairRows
  repeat' first
    | with_reducible assumption
    | with_reducible apply Keeps.modStack
    | with_reducible apply Keeps.repairRow
    | with_reducible apply Keeps.foldl
    | with_reducible apply Keeps.foldlFst
    | with_reducible apply Keeps.foldlSnd
    | with_reducible apply Keeps.foldlWrote
    | with_reducible apply wf_foldlData
    | with_reducible apply wf_foldlMem
    | (intro _ hw; exact hw)
    | (extract_lets +onlyGivenNames x; refine Keeps.cut (p := Keeps o₀ x) ?_ (fun hx => ?_); rotate_left; clear_value x; rotate_left; try subst x)
    | simp -zeta only [Keeps.lit_iff]
    | fail_if_no_progress (extract_lets +onlyGivenNames x)
    | simp +zetaDelta only [Keeps.lit_iff]
    | (with_reducible apply wf_id; assumption)
    | split
    | intro _

theorem Keeps.failStart {o₀ : State} (s : State) (r status detail res0 res1 : Nat) (hk : Keeps o₀ s) : Keeps o₀ (s.failStart r status detail res0 res1) := by
  unfold State.failStart
  repeat' first
    | with_reducible assumption
    | (with_reducible eapply Keeps.fstEq; with_reducible assumption)
    | (with_reducible eapply Keeps.sndEq; with_reducible assumption)
    | (with_reducible eapply Keeps.thdEq; with_reducible assumption)
    | with_reducible apply Keeps.modRoom
    | with_reducible apply Keeps.complete
    | (intro _ hw; exact hw)
    | with_reducible apply Gives.none
    | with_reducible apply Gives.some
    | with_reducible apply Gives.bind
    | (with_reducible eapply Gives.ofEq; with_reducible assumption)
    | (extract_lets +onlyGivenNames x; refine Keeps.cut (p := Keeps o₀ x) ?_ (fun hx => ?_); rotate_left; clear_value x; rotate_left; try subst x)
    | simp -zeta only [Keeps.lit_iff]
    | fail_if_no_progress (extract_lets +onlyGivenNames x)
    | simp +zetaDelta only [Keeps.lit_iff]
    | (with_reducible apply wf_id; assumption)
    | split
    | intro _

theorem Keeps.rejectStart {o₀ : State} (s : State) (r : Nat) (x : Reject) (hk : Keeps o₀ s) : Keeps o₀ (s.rejectStart r x) := by
  unfold State.rejectStart
  repeat' first
    | with_reducible assumption
    | (with_reducible eapply Keeps.fstEq; with_reducible assumption)
    | (with_reducible eapply Keeps.sndEq; with_reducible assumption)
    | (with_reducible eapply Keeps.thdEq; with_reducible assumption)
    | with_reducible apply Keeps.dropWaiters
    | with_reducible apply Keeps.finish
    | with_reducible apply Keeps.charge
    | with_reducible apply Keeps.failStart
    | (intro _ hw; exact hw)
    | with_reducible apply Gives.none
    | with_reducible apply Gives.some
    | with_reducible apply Gives.bind
    | (with_reducible eapply Gives.ofEq; with_reducible assumption)
    | (extract_lets +onlyGivenNames x; refine Keeps.cut (p := Keeps o₀ x) ?_ (fun hx => ?_); rotate_left; clear_value x; rotate_left; try subst x)
    | simp -zeta only [Keeps.lit_iff]
    | fail_if_no_progress (extract_lets +onlyGivenNames x)
    | simp +zetaDelta only [Keeps.lit_iff]
    | exact wf_nil
    | (with_reducible apply wf_id; assumption)
    | split
    | intro _

theorem Keeps.placeItins {o₀ : State} (s : State) (r : Nat) (j : Job) (barriers : Nat) (n0 : List Itin) (hk : Keeps o₀ s) : Yields o₀ (fun v => v) (s.placeItins r j barriers n0) := by
  induction n0 generalizing s r j barriers with
  | nil =>
    unfold State.placeItins
    repeat' first
      | with_reducible assumption
      | (with_reducible eapply Keeps.fstEq; with_reducible assumption)
      | (with_reducible eapply Keeps.sndEq; with_reducible assumption)
      | (with_reducible eapply Keeps.thdEq; with_reducible assumption)
      | with_reducible apply Keeps.account
      | with_reducible apply Keeps.setCore
      | with_reducible apply Yields.error
      | with_reducible apply Yields.throw
      | with_reducible apply Yields.ok
      | with_reducible apply Yields.pure
      | with_reducible apply Yields.bind
      | (with_reducible eapply Yields.ofEq; with_reducible assumption)
      | (with_reducible eapply Yields.ofEqFst; with_reducible assumption)
      | (intro _ hw; exact hw)
      | with_reducible apply Gives.none
      | with_reducible apply Gives.some
      | with_reducible apply Gives.bind
      | (with_reducible eapply Gives.ofEq; with_reducible assumption)
      | (extract_lets +onlyGivenNames x; refine Keeps.cut (p := Keeps o₀ x) ?_ (fun hx => ?_); rotate_left; clear_value x; rotate_left; try subst x)
      | simp -zeta only [Keeps.lit_iff]
      | fail_if_no_progress (extract_lets +onlyGivenNames x)
      | simp +zetaDelta only [Keeps.lit_iff]
      | exact wf_nil
      | (with_reducible apply wf_id; assumption)
      | split
      | intro _
  | cons a l ih =>
    unfold State.placeItins
    repeat' first
      | with_reducible assumption
      | (with_reducible eapply Keeps.fstEq; with_reducible assumption)
      | (with_reducible eapply Keeps.sndEq; with_reducible assumption)
      | (with_reducible eapply Keeps.thdEq; with_reducible assumption)
      | with_reducible apply ih
      | with_reducible apply Keeps.account
      | with_reducible apply Keeps.setCore
      | with_reducible apply Yields.error
      | with_reducible apply Yields.throw
      | with_reducible apply Yields.ok
      | with_reducible apply Yields.pure
      | with_reducible apply Yields.bind
      | (with_reducible eapply Yields.ofEq; with_reducible assumption)
      | (with_reducible eapply Yields.ofEqFst; with_reducible assumption)
      | (intro _ hw; exact hw)
      | with_reducible apply Gives.none
      | with_reducible apply Gives.some
      | with_reducible apply Gives.bind
      | (with_reducible eapply Gives.ofEq; with_reducible assumption)
      | (extract_lets +onlyGivenNames x; refine Keeps.cut (p := Keeps o₀ x) ?_ (fun hx => ?_); rotate_left; clear_value x; rotate_left; try subst x)
      | simp -zeta only [Keeps.lit_iff]
      | fail_if_no_progress (extract_lets +onlyGivenNames x)
      | simp +zetaDelta only [Keeps.lit_iff]
      | exact wf_nil
      | (with_reducible apply wf_id; assumption)
      | split
      | intro _

theorem Keeps.lateSteps {o₀ : State} (s : State) (r first : Nat) (hk : Keeps o₀ s) : Keeps o₀ (s.lateSteps r first) := by
  unfold State.lateSteps
  repeat' first
    | with_reducible assumption
    | with_reducible apply Keeps.modRoom
    | with_reducible apply Keeps.finish
    | (intro _ hw; exact hw)
    | with_reducible apply Gives.none
    | with_reducible apply Gives.some
    | with_reducible apply Gives.bind
    | (with_reducible eapply Gives.ofEq; with_reducible assumption)
    | (extract_lets +onlyGivenNames x; refine Keeps.cut (p := Keeps o₀ x) ?_ (fun hx => ?_); rotate_left; clear_value x; rotate_left; try subst x)
    | simp -zeta only [Keeps.lit_iff]
    | fail_if_no_progress (extract_lets +onlyGivenNames x)
    | simp +zetaDelta only [Keeps.lit_iff]
    | (with_reducible apply wf_id; assumption)
    | split
    | intro _

theorem Keeps.accept {o₀ : State} (s : State) (r : Nat) (j : Job) (man : Manifest) (its : List Itin) (prog : List Nat) (hk : Keeps o₀ s) : Keeps o₀ (s.accept r j man its prog) := by
  unfold State.accept
  repeat' first
    | with_reducible assumption
    | with_reducible apply Keeps.modRoom
    | with_reducible apply Keeps.releaseBarrier
    | with_reducible apply Keeps.markStarted
    | with_reducible apply Keeps.rearmModes
    | with_reducible apply Keeps.lateSteps
    | with_reducible apply Keeps.coresFilter
    | with_reducible apply Keeps.coresMap
    | (intro _ hw; exact hw)
    | with_reducible apply Gives.none
    | with_reducible apply Gives.some
    | with_reducible apply Gives.bind
    | (with_reducible eapply Gives.ofEq; with_reducible assumption)
    | (extract_lets +onlyGivenNames x; refine Keeps.cut (p := Keeps o₀ x) ?_ (fun hx => ?_); rotate_left; clear_value x; rotate_left; try subst x)
    | simp -zeta only [Keeps.lit_iff]
    | fail_if_no_progress (extract_lets +onlyGivenNames x)
    | simp +zetaDelta only [Keeps.lit_iff]
    | (with_reducible apply wf_id; assumption)
    | split
    | intro _

theorem Keeps.startJob {o₀ : State} (s : State) (r : Nat) (hk : Keeps o₀ s) : Keeps o₀ (s.startJob r) := by
  unfold State.startJob
  repeat' first
    | with_reducible assumption
    | (with_reducible eapply Keeps.fstEq; with_reducible assumption)
    | (with_reducible eapply Keeps.sndEq; with_reducible assumption)
    | (with_reducible eapply Keeps.thdEq; with_reducible assumption)
    | with_reducible apply Keeps.outOfService
    | with_reducible apply Keeps.failStart
    | with_reducible apply Keeps.noteSpares
    | with_reducible apply Keeps.repairRows
    | with_reducible apply Keeps.pinUpper
    | with_reducible apply Keeps.modMem
    | with_reducible apply Keeps.rejectStart
    | with_reducible apply Keeps.placeItins
    | with_reducible apply Keeps.accept
    | with_reducible apply Yields.error
    | with_reducible apply Yields.throw
    | with_reducible apply Yields.ok
    | with_reducible apply Yields.pure
    | with_reducible apply Yields.bind
    | (with_reducible eapply Yields.ofEq; with_reducible assumption)
    | (with_reducible eapply Yields.ofEqFst; with_reducible assumption)
    | (intro _ hw; exact hw)
    | with_reducible apply Gives.none
    | with_reducible apply Gives.some
    | with_reducible apply Gives.bind
    | (with_reducible eapply Gives.ofEq; with_reducible assumption)
    | (extract_lets +onlyGivenNames x; refine Keeps.cut (p := Keeps o₀ x) ?_ (fun hx => ?_); rotate_left; clear_value x; rotate_left; try subst x)
    | simp -zeta only [Keeps.lit_iff]
    | fail_if_no_progress (extract_lets +onlyGivenNames x)
    | simp +zetaDelta only [Keeps.lit_iff]
    | exact wf_nil
    | (with_reducible apply wf_id; assumption)
    | split
    | intro _

theorem Keeps.restoreFrom {o₀ : State} (s : State) (r k : Nat) (x : Snap) (hk : Keeps o₀ s) : Keeps o₀ (s.restoreFrom r k x) := by
  unfold State.restoreFrom
  repeat' first
    | with_reducible assumption
    | (with_reducible eapply Keeps.fstEq; with_reducible assumption)
    | (with_reducible eapply Keeps.sndEq; with_reducible assumption)
    | (with_reducible eapply Keeps.thdEq; with_reducible assumption)
    | with_reducible apply Keeps.failStart
    | with_reducible apply Keeps.cellarErrs
    | with_reducible apply Keeps.rebuild
    | with_reducible apply Keeps.modMem
    | with_reducible apply Keeps.modRoom
    | with_reducible apply Keeps.startJob
    | with_reducible apply Yields.error
    | with_reducible apply Yields.throw
    | with_reducible apply Yields.ok
    | with_reducible apply Yields.pure
    | with_reducible apply Yields.bind
    | (with_reducible eapply Yields.ofEq; with_reducible assumption)
    | (with_reducible eapply Yields.ofEqFst; with_reducible assumption)
    | (intro _ hw; exact hw)
    | with_reducible apply Gives.none
    | with_reducible apply Gives.some
    | with_reducible apply Gives.bind
    | (with_reducible eapply Gives.ofEq; with_reducible assumption)
    | (extract_lets +onlyGivenNames x; refine Keeps.cut (p := Keeps o₀ x) ?_ (fun hx => ?_); rotate_left; clear_value x; rotate_left; try subst x)
    | simp -zeta only [Keeps.lit_iff]
    | fail_if_no_progress (extract_lets +onlyGivenNames x)
    | simp +zetaDelta only [Keeps.lit_iff]
    | exact wf_nil
    | (with_reducible apply wf_id; assumption)
    | split
    | intro _

theorem Keeps.restoreLocal {o₀ : State} (s : State) (r : Nat) (hk : Keeps o₀ s) : Keeps o₀ (s.restoreLocal r) := by
  unfold State.restoreLocal
  repeat' first
    | with_reducible assumption
    | (with_reducible eapply Keeps.fstEq; with_reducible assumption)
    | (with_reducible eapply Keeps.sndEq; with_reducible assumption)
    | (with_reducible eapply Keeps.thdEq; with_reducible assumption)
    | with_reducible apply Keeps.failStart
    | with_reducible apply Keeps.restoreFrom
    | (intro _ hw; exact hw)
    | with_reducible apply Gives.none
    | with_reducible apply Gives.some
    | with_reducible apply Gives.bind
    | (with_reducible eapply Gives.ofEq; with_reducible assumption)
    | (extract_lets +onlyGivenNames x; refine Keeps.cut (p := Keeps o₀ x) ?_ (fun hx => ?_); rotate_left; clear_value x; rotate_left; try subst x)
    | simp -zeta only [Keeps.lit_iff]
    | fail_if_no_progress (extract_lets +onlyGivenNames x)
    | simp +zetaDelta only [Keeps.lit_iff]
    | split
    | intro _

theorem Keeps.restoreFetched {o₀ : State} (s : State) (r : Nat) (stream : Memory) (hk : Keeps o₀ s) : Keeps o₀ (s.restoreFetched r stream) := by
  unfold State.restoreFetched
  repeat' first
    | with_reducible assumption
    | (with_reducible eapply Keeps.fstEq; with_reducible assumption)
    | (with_reducible eapply Keeps.sndEq; with_reducible assumption)
    | (with_reducible eapply Keeps.thdEq; with_reducible assumption)
    | with_reducible apply Keeps.modMem
    | with_reducible apply Keeps.failStart
    | with_reducible apply Keeps.restoreFrom
    | (intro _ hw; exact hw)
    | with_reducible apply Gives.none
    | with_reducible apply Gives.some
    | with_reducible apply Gives.bind
    | (with_reducible eapply Gives.ofEq; with_reducible assumption)
    | (extract_lets +onlyGivenNames x; refine Keeps.cut (p := Keeps o₀ x) ?_ (fun hx => ?_); rotate_left; clear_value x; rotate_left; try subst x)
    | simp -zeta only [Keeps.lit_iff]
    | fail_if_no_progress (extract_lets +onlyGivenNames x)
    | simp +zetaDelta only [Keeps.lit_iff]
    | (with_reducible apply wf_id; assumption)
    | split
    | intro _

end Sys2Proof.Machine
end

