-- ==== Sys2Proof/Laws/KeepsCaravan.lean ====
section
/-! SUPPORT. `Keeps` for the operations of Machine/Caravan.lean. -/

set_option linter.all false

namespace Sys2Proof.Machine

theorem Keeps.sendRenew {o₀ : State} (s : State) (hk : Keeps o₀ s) : Keeps o₀ (s.sendRenew) := by
  unfold State.sendRenew
  repeat' first
    | with_reducible assumption
    | with_reducible apply Keeps.ctrlSend
    | (intro _ hw; exact hw)
    | with_reducible apply Gives.none
    | with_reducible apply Gives.some
    | with_reducible apply Gives.bind
    | (with_reducible eapply Gives.ofEq; with_reducible assumption)
    | (extract_lets +onlyGivenNames x; refine Keeps.cut (p := Keeps o₀ x) ?_ (fun hx => ?_); rotate_left; clear_value x; rotate_left; try subst x)
    | simp -zeta only [Keeps.lit_iff]
    | fail_if_no_progress (extract_lets +onlyGivenNames x)
    | simp +zetaDelta only [Keeps.lit_iff]
    | split
    | intro _

theorem Keeps.ctrlCheck {o₀ : State} (s : State) (p : Pkt) (hk : Keeps o₀ s) : Keeps o₀ (s.ctrlCheck p).1 := by
  unfold State.ctrlCheck
  extract_lets keys s1 c n s2
  have h1 : Keeps o₀ s1 := Keeps.netCount _ _ hk
  have h2 : Keeps o₀ s2 := Keeps.lit_iff (s := s) rfl rfl |>.mpr hk
  clear_value keys s1 s2
  repeat' split
  all_goals first
    | exact hk
    | exact h1
    | exact h2
    | exact Keeps.sendRenew _ h1
    | exact Keeps.netCount _ _ hk
    | exact Keeps.netCount _ _ h2

theorem Keeps.ctrlRow {o₀ : State} (s : State) (p : Pkt) (ctype : Nat) (f : State → State) (hk : Keeps o₀ s) (hf : ∀ u, Keeps o₀ u → Keeps o₀ (f u)) : Keeps o₀ (s.ctrlRow p ctype f) := by
  unfold State.ctrlRow
  repeat' first
    | with_reducible assumption
    | (with_reducible eapply Keeps.fstEq; with_reducible assumption)
    | (with_reducible eapply Keeps.sndEq; with_reducible assumption)
    | (with_reducible eapply Keeps.thdEq; with_reducible assumption)
    | with_reducible apply Keeps.ctrlCheck
    | with_reducible apply hf
    | (extract_lets +onlyGivenNames x; refine Keeps.cut (p := Keeps o₀ x) ?_ (fun hx => ?_); rotate_left; clear_value x; rotate_left; try subst x)
    | fail_if_no_progress (extract_lets +onlyGivenNames x)
    | split
    | intro _

theorem Keeps.passDown {o₀ : State} (s : State) (p : Pkt) (body : List Byte) (hk : Keeps o₀ s) : Keeps o₀ (s.passDown p body) := by
  unfold State.passDown
  repeat' first
    | with_reducible assumption
    | with_reducible apply Keeps.ctrlSend
    | with_reducible apply Gives.none
    | with_reducible apply Gives.some
    | with_reducible apply Gives.bind
    | (with_reducible eapply Gives.ofEq; with_reducible assumption)
    | intro _

theorem Keeps.passUp {o₀ : State} (s : State) (p : Pkt) (body : List Byte) (hk : Keeps o₀ s) : Keeps o₀ (s.passUp p body) := by
  unfold State.passUp
  repeat' first
    | with_reducible assumption
    | with_reducible apply Keeps.ctrlSend
    | with_reducible apply Gives.none
    | with_reducible apply Gives.some
    | with_reducible apply Gives.bind
    | (with_reducible eapply Gives.ofEq; with_reducible assumption)
    | intro _

theorem Keeps.fromAbove {o₀ : State} (s : State) (p : Pkt) (ctype : Nat) (f : State → State) (hk : Keeps o₀ s) (hf : ∀ u, Keeps o₀ u → Keeps o₀ (f u)) : Keeps o₀ (s.fromAbove p ctype f) := by
  unfold State.fromAbove
  repeat' first
    | with_reducible assumption
    | with_reducible apply Keeps.ctrlRow
    | with_reducible apply Keeps.passDown
    | with_reducible apply hf
    | split
    | intro _

theorem Keeps.toHead {o₀ : State} (s : State) (p : Pkt) (ctype : Nat) (f : State → State) (hk : Keeps o₀ s) (hf : ∀ u, Keeps o₀ u → Keeps o₀ (f u)) : Keeps o₀ (s.toHead p ctype f) := by
  unfold State.toHead
  repeat' first
    | with_reducible assumption
    | with_reducible apply Keeps.ctrlRow
    | with_reducible apply Keeps.passUp
    | with_reducible apply hf
    | split
    | intro _

theorem Keeps.installJobKey {o₀ : State} (s : State) (tag gen : Nat) (key : List Nat) (hk : Keeps o₀ s) : Keeps o₀ (s.installJobKey tag gen key) := by
  unfold State.installJobKey
  split
  · exact hk
  repeat' first
    | with_reducible assumption
    | with_reducible apply Keeps.modRoom
    | with_reducible apply Keeps.foldl
    | with_reducible apply Keeps.foldlFst
    | with_reducible apply Keeps.foldlSnd
    | with_reducible apply Keeps.foldlWrote
    | with_reducible apply wf_foldlData
    | with_reducible apply wf_foldlMem
    | (intro _ hw; exact hw)
    | (extract_lets +onlyGivenNames x; refine Keeps.cut (p := Keeps o₀ x) ?_ (fun hx => ?_); rotate_left; clear_value x; rotate_left; try subst x)
    | simp -zeta only [Keeps.lit_iff]
    | fail_if_no_progress (extract_lets +onlyGivenNames x)
    | simp +zetaDelta only [Keeps.lit_iff]
    | (with_reducible apply wf_id; assumption)
    | intro _

theorem Keeps.newJobKey {o₀ : State} (s : State) (tag : Nat) (hk : Keeps o₀ s) : Keeps o₀ (s.newJobKey tag) := by
  unfold State.newJobKey
  repeat' first
    | with_reducible assumption
    | (with_reducible eapply Keeps.fstEq; with_reducible assumption)
    | (with_reducible eapply Keeps.sndEq; with_reducible assumption)
    | (with_reducible eapply Keeps.thdEq; with_reducible assumption)
    | with_reducible apply Keeps.draw
    | with_reducible apply Keeps.ctrlDown
    | with_reducible apply Keeps.installJobKey
    | with_reducible apply Keeps.foldl
    | with_reducible apply Keeps.foldlFst
    | with_reducible apply Keeps.foldlSnd
    | with_reducible apply Keeps.foldlWrote
    | with_reducible apply wf_foldlData
    | with_reducible apply wf_foldlMem
    | (intro _ hw; exact hw)
    | with_reducible apply Gives.none
    | with_reducible apply Gives.some
    | with_reducible apply Gives.bind
    | (with_reducible eapply Gives.ofEq; with_reducible assumption)
    | (extract_lets +onlyGivenNames x; refine Keeps.cut (p := Keeps o₀ x) ?_ (fun hx => ?_); rotate_left; clear_value x; rotate_left; try subst x)
    | simp -zeta only [Keeps.lit_iff]
    | fail_if_no_progress (extract_lets +onlyGivenNames x)
    | simp +zetaDelta only [Keeps.lit_iff]
    | (with_reducible apply wf_id; assumption)
    | split
    | intro _

theorem Keeps.sendGen {o₀ : State} (s : State) (mid : Nat) (cseq : Option Nat) (mids : List Nat) (hk : Keeps o₀ s) : Keeps o₀ (s.sendGen mid cseq mids) := by
  unfold State.sendGen
  repeat' first
    | with_reducible assumption
    | with_reducible apply Keeps.ctrlSend
    | with_reducible apply Keeps.foldl
    | with_reducible apply Keeps.foldlFst
    | with_reducible apply Keeps.foldlSnd
    | with_reducible apply Keeps.foldlWrote
    | with_reducible apply wf_foldlData
    | with_reducible apply wf_foldlMem
    | intro _

theorem Keeps.headEvict {o₀ : State} (s : State) (mids : List Nat) (hk : Keeps o₀ s) : Keeps o₀ (s.headEvict mids) := by
  unfold State.headEvict
  repeat' first
    | with_reducible assumption
    | (with_reducible eapply Keeps.fstEq; with_reducible assumption)
    | (with_reducible eapply Keeps.sndEq; with_reducible assumption)
    | (with_reducible eapply Keeps.thdEq; with_reducible assumption)
    | with_reducible apply Keeps.headAbort
    | with_reducible apply Keeps.newJobKey
    | with_reducible apply Keeps.sendGen
    | with_reducible apply Keeps.foldl
    | with_reducible apply Keeps.foldlFst
    | with_reducible apply Keeps.foldlSnd
    | with_reducible apply Keeps.foldlWrote
    | with_reducible apply wf_foldlData
    | with_reducible apply wf_foldlMem
    | (intro _ hw; exact hw)
    | with_reducible apply Gives.none
    | with_reducible apply Gives.some
    | with_reducible apply Gives.bind
    | (with_reducible eapply Gives.ofEq; with_reducible assumption)
    | (extract_lets +onlyGivenNames x; refine Keeps.cut (p := Keeps o₀ x) ?_ (fun hx => ?_); rotate_left; clear_value x; rotate_left; try subst x)
    | simp -zeta only [Keeps.lit_iff]
    | fail_if_no_progress (extract_lets +onlyGivenNames x)
    | simp +zetaDelta only [Keeps.lit_iff]
    | split
    | intro _

theorem Keeps.evict {o₀ : State} (s : State) (mid : Nat) (hk : Keeps o₀ s) : Keeps o₀ (s.evict mid) := by
  unfold State.evict
  repeat' first
    | with_reducible assumption
    | with_reducible apply Keeps.ctrlSend
    | with_reducible apply Keeps.headEvict
    | (intro _ hw; exact hw)
    | with_reducible apply Gives.none
    | with_reducible apply Gives.some
    | with_reducible apply Gives.bind
    | (with_reducible eapply Gives.ofEq; with_reducible assumption)
    | (extract_lets +onlyGivenNames x; refine Keeps.cut (p := Keeps o₀ x) ?_ (fun hx => ?_); rotate_left; clear_value x; rotate_left; try subst x)
    | simp -zeta only [Keeps.lit_iff]
    | fail_if_no_progress (extract_lets +onlyGivenNames x)
    | simp +zetaDelta only [Keeps.lit_iff]
    | split
    | intro _

theorem Keeps.applyGen {o₀ : State} (s : State) (g : Nat) (mids : List Nat) (hk : Keeps o₀ s) : Keeps o₀ (s.applyGen g mids) := by
  unfold State.applyGen
  repeat' first
    | with_reducible assumption
    | (with_reducible eapply Keeps.fstEq; with_reducible assumption)
    | (with_reducible eapply Keeps.sndEq; with_reducible assumption)
    | (with_reducible eapply Keeps.thdEq; with_reducible assumption)
    | (intro _ hw; exact hw)
    | with_reducible apply Gives.none
    | with_reducible apply Gives.some
    | with_reducible apply Gives.bind
    | (with_reducible eapply Gives.ofEq; with_reducible assumption)
    | (extract_lets +onlyGivenNames x; refine Keeps.cut (p := Keeps o₀ x) ?_ (fun hx => ?_); rotate_left; clear_value x; rotate_left; try subst x)
    | simp -zeta only [Keeps.lit_iff]
    | fail_if_no_progress (extract_lets +onlyGivenNames x)
    | simp +zetaDelta only [Keeps.lit_iff]
    | exact wf_nil
    | (with_reducible apply wf_id; assumption)
    | split
    | intro _

theorem Keeps.fenceOff {o₀ : State} (s : State) (code : Nat) (hk : Keeps o₀ s) : Keeps o₀ (s.fenceOff code) := by
  unfold State.fenceOff
  repeat' first
    | with_reducible assumption
    | with_reducible apply Keeps.endJob
    | with_reducible apply Keeps.foldl
    | with_reducible apply Keeps.foldlFst
    | with_reducible apply Keeps.foldlSnd
    | with_reducible apply Keeps.foldlWrote
    | with_reducible apply wf_foldlData
    | with_reducible apply wf_foldlMem
    | (intro _ hw; exact hw)
    | with_reducible apply Gives.none
    | with_reducible apply Gives.some
    | with_reducible apply Gives.bind
    | (with_reducible eapply Gives.ofEq; with_reducible assumption)
    | (extract_lets +onlyGivenNames x; refine Keeps.cut (p := Keeps o₀ x) ?_ (fun hx => ?_); rotate_left; clear_value x; rotate_left; try subst x)
    | simp -zeta only [Keeps.lit_iff]
    | fail_if_no_progress (extract_lets +onlyGivenNames x)
    | simp +zetaDelta only [Keeps.lit_iff]
    | intro _

theorem Keeps.drawBytes {o₀ : State} (s : State) (n : Nat) (hk : Keeps o₀ s) : Keeps o₀ (s.drawBytes n).2 := by
  unfold State.drawBytes
  repeat' first
    | with_reducible assumption
    | (with_reducible eapply Keeps.fstEq; with_reducible assumption)
    | (with_reducible eapply Keeps.sndEq; with_reducible assumption)
    | (with_reducible eapply Keeps.thdEq; with_reducible assumption)
    | with_reducible apply Keeps.draw
    | (extract_lets +onlyGivenNames x; refine Keeps.cut (p := Keeps o₀ x) ?_ (fun hx => ?_); rotate_left; clear_value x; rotate_left; try subst x)
    | fail_if_no_progress (extract_lets +onlyGivenNames x)
    | split
    | intro _

theorem Keeps.beginAdmission {o₀ : State} (s : State) (hk : Keeps o₀ s) : Keeps o₀ (s.beginAdmission) := by
  unfold State.beginAdmission
  repeat' first
    | with_reducible assumption
    | (with_reducible eapply Keeps.fstEq; with_reducible assumption)
    | (with_reducible eapply Keeps.sndEq; with_reducible assumption)
    | (with_reducible eapply Keeps.thdEq; with_reducible assumption)
    | with_reducible apply Keeps.emit
    | with_reducible apply Keeps.drawBytes
    | (intro _ hw; exact hw)
    | with_reducible apply Gives.none
    | with_reducible apply Gives.some
    | with_reducible apply Gives.bind
    | (with_reducible eapply Gives.ofEq; with_reducible assumption)
    | (extract_lets +onlyGivenNames x; refine Keeps.cut (p := Keeps o₀ x) ?_ (fun hx => ?_); rotate_left; clear_value x; rotate_left; try subst x)
    | simp -zeta only [Keeps.lit_iff]
    | fail_if_no_progress (extract_lets +onlyGivenNames x)
    | simp +zetaDelta only [Keeps.lit_iff]
    | (with_reducible apply wf_id; assumption)
    | split
    | intro _

theorem Keeps.sendAdmit {o₀ : State} (s : State) (hk : Keeps o₀ s) : Keeps o₀ (s.sendAdmit) := by
  unfold State.sendAdmit
  repeat' first
    | with_reducible assumption
    | with_reducible apply Keeps.ctrlSend
    | with_reducible apply Gives.none
    | with_reducible apply Gives.some
    | with_reducible apply Gives.bind
    | (with_reducible eapply Gives.ofEq; with_reducible assumption)
    | intro _

theorem Keeps.refuseJoin {o₀ : State} (s : State) (r code : Nat) (hk : Keeps o₀ s) : Keeps o₀ (s.refuseJoin r code) := by
  unfold State.refuseJoin
  repeat' first
    | with_reducible assumption
    | with_reducible apply Keeps.failStart
    | split
    | intro _

theorem Keeps.modMember {o₀ : State} (s : State) (mid : Nat) (f : Member → Member) (hk : Keeps o₀ s) : Keeps o₀ (s.modMember mid f) := by
  unfold State.modMember
  repeat' first
    | with_reducible assumption
    | (with_reducible eapply Keeps.fstEq; with_reducible assumption)
    | (with_reducible eapply Keeps.sndEq; with_reducible assumption)
    | (with_reducible eapply Keeps.thdEq; with_reducible assumption)
    | (intro _ hw; exact hw)
    | with_reducible apply Gives.none
    | with_reducible apply Gives.some
    | with_reducible apply Gives.bind
    | (with_reducible eapply Gives.ofEq; with_reducible assumption)
    | (extract_lets +onlyGivenNames x; refine Keeps.cut (p := Keeps o₀ x) ?_ (fun hx => ?_); rotate_left; clear_value x; rotate_left; try subst x)
    | simp -zeta only [Keeps.lit_iff]
    | fail_if_no_progress (extract_lets +onlyGivenNames x)
    | simp +zetaDelta only [Keeps.lit_iff]
    | (with_reducible apply wf_id; assumption)
    | split
    | intro _

theorem Keeps.sendProbe {o₀ : State} (s : State) (mid : Nat) (hk : Keeps o₀ s) : Keeps o₀ (s.sendProbe mid) := by
  unfold State.sendProbe
  repeat' first
    | with_reducible assumption
    | with_reducible apply Keeps.ctrlSend
    | with_reducible apply Keeps.modMember
    | (intro _ hw; exact hw)
    | with_reducible apply Gives.none
    | with_reducible apply Gives.some
    | with_reducible apply Gives.bind
    | (with_reducible eapply Gives.ofEq; with_reducible assumption)
    | (extract_lets +onlyGivenNames x; refine Keeps.cut (p := Keeps o₀ x) ?_ (fun hx => ?_); rotate_left; clear_value x; rotate_left; try subst x)
    | simp -zeta only [Keeps.lit_iff]
    | fail_if_no_progress (extract_lets +onlyGivenNames x)
    | simp +zetaDelta only [Keeps.lit_iff]
    | (with_reducible apply wf_id; assumption)
    | split
    | intro _

theorem Keeps.actReport {o₀ : State} (s : State) (mid by_ kind : Nat) (hk : Keeps o₀ s) : Keeps o₀ (s.actReport mid by_ kind) := by
  unfold State.actReport
  repeat' first
    | with_reducible assumption
    | (with_reducible eapply Keeps.fstEq; with_reducible assumption)
    | (with_reducible eapply Keeps.sndEq; with_reducible assumption)
    | (with_reducible eapply Keeps.thdEq; with_reducible assumption)
    | with_reducible apply Keeps.healthRecord
    | with_reducible apply Keeps.evict
    | with_reducible apply Keeps.modMember
    | with_reducible apply Keeps.sendProbe
    | (intro _ hw; exact hw)
    | with_reducible apply Gives.none
    | with_reducible apply Gives.some
    | with_reducible apply Gives.bind
    | (with_reducible eapply Gives.ofEq; with_reducible assumption)
    | (extract_lets +onlyGivenNames x; refine Keeps.cut (p := Keeps o₀ x) ?_ (fun hx => ?_); rotate_left; clear_value x; rotate_left; try subst x)
    | simp -zeta only [Keeps.lit_iff]
    | fail_if_no_progress (extract_lets +onlyGivenNames x)
    | simp +zetaDelta only [Keeps.lit_iff]
    | (with_reducible apply wf_id; assumption)
    | split
    | intro _

theorem Keeps.routeReport {o₀ : State} (s : State) (tag by_ rank kind flow : Nat) (hk : Keeps o₀ s) : Keeps o₀ (s.routeReport tag by_ rank kind flow) := by
  unfold State.routeReport
  repeat' first
    | with_reducible assumption
    | (with_reducible eapply Keeps.fstEq; with_reducible assumption)
    | (with_reducible eapply Keeps.sndEq; with_reducible assumption)
    | (with_reducible eapply Keeps.thdEq; with_reducible assumption)
    | with_reducible apply Keeps.ctrlSend
    | with_reducible apply Keeps.actReport
    | (intro _ hw; exact hw)
    | with_reducible apply Gives.none
    | with_reducible apply Gives.some
    | with_reducible apply Gives.bind
    | (with_reducible eapply Gives.ofEq; with_reducible assumption)
    | (extract_lets +onlyGivenNames x; refine Keeps.cut (p := Keeps o₀ x) ?_ (fun hx => ?_); rotate_left; clear_value x; rotate_left; try subst x)
    | simp -zeta only [Keeps.lit_iff]
    | fail_if_no_progress (extract_lets +onlyGivenNames x)
    | simp +zetaDelta only [Keeps.lit_iff]
    | split
    | intro _

theorem Keeps.reportPeer {o₀ : State} (s : State) (tag rank kind flow : Nat) (hk : Keeps o₀ s) : Keeps o₀ (s.reportPeer tag rank kind flow) := by
  unfold State.reportPeer
  repeat' first
    | with_reducible assumption
    | with_reducible apply Keeps.ctrlUp
    | with_reducible apply Keeps.routeReport
    | with_reducible apply Gives.none
    | with_reducible apply Gives.some
    | with_reducible apply Gives.bind
    | (with_reducible eapply Gives.ofEq; with_reducible assumption)
    | split
    | intro _

end Sys2Proof.Machine
end

