-- ==== Sys2Proof/Laws/KeepsNet.lean ====
section
/-! SUPPORT. `Keeps` for the operations of Machine/Net.lean. -/

set_option linter.all false

namespace Sys2Proof.Machine

theorem Keeps.setFlow {o₀ : State} (s : State) (k : Nat) (f : Flow) (hk : Keeps o₀ s) : Keeps o₀ (s.setFlow k f) := by
  unfold State.setFlow
  repeat' first
    | with_reducible assumption
    | (intro _ hw; exact hw)
    | (extract_lets +onlyGivenNames x; refine Keeps.cut (p := Keeps o₀ x) ?_ (fun hx => ?_); rotate_left; clear_value x; rotate_left; try subst x)
    | simp -zeta only [Keeps.lit_iff]
    | fail_if_no_progress (extract_lets +onlyGivenNames x)
    | simp +zetaDelta only [Keeps.lit_iff]
    | (with_reducible apply wf_id; assumption)
    | intro _

theorem Keeps.modFlow {o₀ : State} (s : State) (k : Nat) (g : Flow → Flow) (hk : Keeps o₀ s) : Keeps o₀ (s.modFlow k g) := by
  unfold State.modFlow
  repeat' first
    | with_reducible assumption
    | with_reducible apply Keeps.setFlow
    | (intro _ hw; exact hw)
    | (with_reducible apply wf_id; assumption)
    | intro _

theorem Keeps.askRekey {o₀ : State} (s : State) (k : Nat) (j : Job) (hk : Keeps o₀ s) : Keeps o₀ (s.askRekey k j) := by
  unfold State.askRekey
  repeat' first
    | with_reducible assumption
    | with_reducible apply Keeps.ctrlUp
    | with_reducible apply Keeps.newJobKey
    | with_reducible apply Keeps.setFlow
    | (intro _ hw; exact hw)
    | with_reducible apply Gives.none
    | with_reducible apply Gives.some
    | with_reducible apply Gives.bind
    | (with_reducible eapply Gives.ofEq; with_reducible assumption)
    | (extract_lets +onlyGivenNames x; refine Keeps.cut (p := Keeps o₀ x) ?_ (fun hx => ?_); rotate_left; clear_value x; rotate_left; try subst x)
    | simp -zeta only [Keeps.lit_iff]
    | fail_if_no_progress (extract_lets +onlyGivenNames x)
    | simp +zetaDelta only [Keeps.lit_iff]
    | (with_reducible apply wf_id; assumption)
    | split
    | intro _

theorem Keeps.sendJob {o₀ : State} (s : State) (k : Nat) (j : Job) (p : Pkt) (hk : Keeps o₀ s) : Keeps o₀ (s.sendJob k j p) := by
  unfold State.sendJob
  repeat' first
    | with_reducible assumption
    | (with_reducible eapply Keeps.fstEq; with_reducible assumption)
    | (with_reducible eapply Keeps.sndEq; with_reducible assumption)
    | (with_reducible eapply Keeps.thdEq; with_reducible assumption)
    | with_reducible apply Keeps.sendOut
    | with_reducible apply Keeps.askRekey
    | (intro _ hw; exact hw)
    | with_reducible apply Gives.none
    | with_reducible apply Gives.some
    | with_reducible apply Gives.bind
    | (with_reducible eapply Gives.ofEq; with_reducible assumption)
    | (extract_lets +onlyGivenNames x; refine Keeps.cut (p := Keeps o₀ x) ?_ (fun hx => ?_); rotate_left; clear_value x; rotate_left; try subst x)
    | simp -zeta only [Keeps.lit_iff]
    | fail_if_no_progress (extract_lets +onlyGivenNames x)
    | simp +zetaDelta only [Keeps.lit_iff]
    | exact wf_nil
    | (with_reducible apply wf_id; assumption)
    | split
    | intro _

theorem Keeps.sendData {o₀ : State} (s : State) (r : Nat) (j : Job) (peer flow : Nat) (m : SendMsg) (off tries first : Nat) (hk : Keeps o₀ s) : Keeps o₀ (s.sendData r j peer flow m off tries first).1 := by
  unfold State.sendData
  repeat' first
    | with_reducible assumption
    | (with_reducible eapply Keeps.fstEq; with_reducible assumption)
    | (with_reducible eapply Keeps.sndEq; with_reducible assumption)
    | (with_reducible eapply Keeps.thdEq; with_reducible assumption)
    | with_reducible apply Keeps.chargeNormal
    | with_reducible apply Keeps.sendOut
    | with_reducible apply Keeps.modFlow
    | with_reducible apply Keeps.askRekey
    | with_reducible apply Keeps.charge
    | with_reducible apply Keeps.spend
    | with_reducible apply Yields.error
    | with_reducible apply Yields.throw
    | with_reducible apply Yields.ok
    | with_reducible apply Yields.pure
    | with_reducible apply Yields.bind
    | (with_reducible eapply Yields.ofEq; with_reducible assumption)
    | (with_reducible eapply Yields.ofEqFst; with_reducible assumption)
    | (intro _ hw; exact hw)
    | with_reducible apply Gives.none
    | with_reducible apply Gives.some
    | with_reducible apply Gives.bind
    | (with_reducible eapply Gives.ofEq; with_reducible assumption)
    | (extract_lets +onlyGivenNames x; refine Keeps.cut (p := Keeps o₀ x) ?_ (fun hx => ?_); rotate_left; clear_value x; rotate_left; try subst x)
    | simp -zeta only [Keeps.lit_iff]
    | fail_if_no_progress (extract_lets +onlyGivenNames x)
    | simp +zetaDelta only [Keeps.lit_iff]
    | exact wf_nil
    | (with_reducible apply wf_id; assumption)
    | split
    | intro _

theorem Keeps.dropSend {o₀ : State} (s : State) (r peer flow : Nat) (m : SendMsg) (status code : Nat) (hk : Keeps o₀ s) : Keeps o₀ (s.dropSend r peer flow m status code) := by
  unfold State.dropSend
  repeat' first
    | with_reducible assumption
    | (with_reducible eapply Keeps.fstEq; with_reducible assumption)
    | (with_reducible eapply Keeps.sndEq; with_reducible assumption)
    | (with_reducible eapply Keeps.thdEq; with_reducible assumption)
    | with_reducible apply Keeps.complete
    | with_reducible apply Keeps.raiseFault
    | with_reducible apply Keeps.modFlow
    | (intro _ hw; exact hw)
    | with_reducible apply Gives.none
    | with_reducible apply Gives.some
    | with_reducible apply Gives.bind
    | (with_reducible eapply Gives.ofEq; with_reducible assumption)
    | (extract_lets +onlyGivenNames x; refine Keeps.cut (p := Keeps o₀ x) ?_ (fun hx => ?_); rotate_left; clear_value x; rotate_left; try subst x)
    | simp -zeta only [Keeps.lit_iff]
    | fail_if_no_progress (extract_lets +onlyGivenNames x)
    | simp +zetaDelta only [Keeps.lit_iff]
    | (with_reducible apply wf_id; assumption)
    | split
    | intro _

theorem Keeps.pump {o₀ : State} (s : State) (r peer flow : Nat) (n0 : Nat) (hk : Keeps o₀ s) : Keeps o₀ (s.pump r peer flow n0) := by
  induction n0 generalizing s r peer flow with
  | zero =>
    unfold State.pump
    repeat' first
      | with_reducible assumption
      | (with_reducible eapply Keeps.fstEq; with_reducible assumption)
      | (with_reducible eapply Keeps.sndEq; with_reducible assumption)
      | (with_reducible eapply Keeps.thdEq; with_reducible assumption)
      | with_reducible apply Keeps.modFlow
      | with_reducible apply Keeps.sendData
      | with_reducible apply Keeps.dropSend
      | (intro _ hw; exact hw)
      | with_reducible apply Gives.none
      | with_reducible apply Gives.some
      | with_reducible apply Gives.bind
      | (with_reducible eapply Gives.ofEq; with_reducible assumption)
      | (extract_lets +onlyGivenNames x; refine Keeps.cut (p := Keeps o₀ x) ?_ (fun hx => ?_); rotate_left; clear_value x; rotate_left; try subst x)
      | simp -zeta only [Keeps.lit_iff]
      | fail_if_no_progress (extract_lets +onlyGivenNames x)
      | simp +zetaDelta only [Keeps.lit_iff]
      | (with_reducible apply wf_id; assumption)
      | split
      | intro _
  | succ n ih =>
    unfold State.pump
    repeat' first
      | with_reducible assumption
      | (with_reducible eapply Keeps.fstEq; with_reducible assumption)
      | (with_reducible eapply Keeps.sndEq; with_reducible assumption)
      | (with_reducible eapply Keeps.thdEq; with_reducible assumption)
      | with_reducible apply Keeps.modFlow
      | with_reducible apply Keeps.sendData
      | with_reducible apply Keeps.dropSend
      | with_reducible apply ih
      | (intro _ hw; exact hw)
      | with_reducible apply Gives.none
      | with_reducible apply Gives.some
      | with_reducible apply Gives.bind
      | (with_reducible eapply Gives.ofEq; with_reducible assumption)
      | (extract_lets +onlyGivenNames x; refine Keeps.cut (p := Keeps o₀ x) ?_ (fun hx => ?_); rotate_left; clear_value x; rotate_left; try subst x)
      | simp -zeta only [Keeps.lit_iff]
      | fail_if_no_progress (extract_lets +onlyGivenNames x)
      | simp +zetaDelta only [Keeps.lit_iff]
      | (with_reducible apply wf_id; assumption)
      | split
      | intro _

theorem Keeps.sendMsg {o₀ : State} (s : State) (r peer flow : Nat) (m : SendMsg) (hk : Keeps o₀ s) : Keeps o₀ (s.sendMsg r peer flow m) := by
  unfold State.sendMsg
  repeat' first
    | with_reducible assumption
    | with_reducible apply Keeps.modFlow
    | with_reducible apply Keeps.pump
    | (intro _ hw; exact hw)
    | (extract_lets +onlyGivenNames x; refine Keeps.cut (p := Keeps o₀ x) ?_ (fun hx => ?_); rotate_left; clear_value x; rotate_left; try subst x)
    | simp -zeta only [Keeps.lit_iff]
    | fail_if_no_progress (extract_lets +onlyGivenNames x)
    | simp +zetaDelta only [Keeps.lit_iff]
    | (with_reducible apply wf_id; assumption)
    | intro _

theorem Keeps.takeMsg {o₀ : State} (s : State) (k : Nat) (hk : Keeps o₀ s) : Keeps o₀ (s.takeMsg k).2 := by
  unfold State.takeMsg
  repeat' first
    | with_reducible assumption
    | with_reducible apply Keeps.modFlow
    | (intro _ hw; exact hw)
    | (extract_lets +onlyGivenNames x; refine Keeps.cut (p := Keeps o₀ x) ?_ (fun hx => ?_); rotate_left; clear_value x; rotate_left; try subst x)
    | simp -zeta only [Keeps.lit_iff]
    | fail_if_no_progress (extract_lets +onlyGivenNames x)
    | simp +zetaDelta only [Keeps.lit_iff]
    | (with_reducible apply wf_id; assumption)
    | intro _

theorem Keeps.sendGet {o₀ : State} (s : State) (r : Nat) (j : Job) (peer flow : Nat) (g : GetReq) (hk : Keeps o₀ s) : Keeps o₀ (s.sendGet r j peer flow g) := by
  unfold State.sendGet
  repeat' first
    | with_reducible assumption
    | (with_reducible eapply Keeps.fstEq; with_reducible assumption)
    | (with_reducible eapply Keeps.sndEq; with_reducible assumption)
    | (with_reducible eapply Keeps.thdEq; with_reducible assumption)
    | with_reducible apply Keeps.sendJob
    | with_reducible apply Keeps.modFlow
    | (intro _ hw; exact hw)
    | with_reducible apply Gives.none
    | with_reducible apply Gives.some
    | with_reducible apply Gives.bind
    | (with_reducible eapply Gives.ofEq; with_reducible assumption)
    | (extract_lets +onlyGivenNames x; refine Keeps.cut (p := Keeps o₀ x) ?_ (fun hx => ?_); rotate_left; clear_value x; rotate_left; try subst x)
    | simp -zeta only [Keeps.lit_iff]
    | fail_if_no_progress (extract_lets +onlyGivenNames x)
    | simp +zetaDelta only [Keeps.lit_iff]
    | exact wf_nil
    | (with_reducible apply wf_id; assumption)
    | split
    | intro _

theorem Keeps.netPost {o₀ : State} (s : State) (ring : Nat) (d : Desc) (hk : Keeps o₀ s) : Keeps o₀ (s.netPost ring d) := by
  unfold State.netPost
  repeat' first
    | with_reducible assumption
    | (with_reducible eapply Keeps.fstEq; with_reducible assumption)
    | (with_reducible eapply Keeps.sndEq; with_reducible assumption)
    | (with_reducible eapply Keeps.thdEq; with_reducible assumption)
    | with_reducible apply Keeps.markStarted
    | with_reducible apply Keeps.done
    | with_reducible apply Keeps.sendMsg
    | with_reducible apply Keeps.takeMsg
    | with_reducible apply Keeps.sendGet
    | with_reducible apply Yields.error
    | with_reducible apply Yields.throw
    | with_reducible apply Yields.ok
    | with_reducible apply Yields.pure
    | with_reducible apply Yields.bind
    | (with_reducible eapply Yields.ofEq; with_reducible assumption)
    | (with_reducible eapply Yields.ofEqFst; with_reducible assumption)
    | (intro _ hw; exact hw)
    | with_reducible apply Gives.none
    | with_reducible apply Gives.some
    | with_reducible apply Gives.bind
    | (with_reducible eapply Gives.ofEq; with_reducible assumption)
    | (extract_lets +onlyGivenNames x; refine Keeps.cut (p := Keeps o₀ x) ?_ (fun hx => ?_); rotate_left; clear_value x; rotate_left; try subst x)
    | simp -zeta only [Keeps.lit_iff]
    | fail_if_no_progress (extract_lets +onlyGivenNames x)
    | simp +zetaDelta only [Keeps.lit_iff]
    | split
    | intro _

theorem Keeps.unreachable {o₀ : State} (s : State) (r peer flow : Nat) (hk : Keeps o₀ s) : Keeps o₀ (s.unreachable r peer flow) := by
  unfold State.unreachable
  repeat' first
    | with_reducible assumption
    | (with_reducible eapply Keeps.fstEq; with_reducible assumption)
    | (with_reducible eapply Keeps.sndEq; with_reducible assumption)
    | (with_reducible eapply Keeps.thdEq; with_reducible assumption)
    | with_reducible apply Keeps.finish
    | with_reducible apply Keeps.raiseFault
    | with_reducible apply Keeps.reportPeer
    | with_reducible apply Keeps.setFlow
    | (intro _ hw; exact hw)
    | with_reducible apply Gives.none
    | with_reducible apply Gives.some
    | with_reducible apply Gives.bind
    | (with_reducible eapply Gives.ofEq; with_reducible assumption)
    | (extract_lets +onlyGivenNames x; refine Keeps.cut (p := Keeps o₀ x) ?_ (fun hx => ?_); rotate_left; clear_value x; rotate_left; try subst x)
    | simp -zeta only [Keeps.lit_iff]
    | fail_if_no_progress (extract_lets +onlyGivenNames x)
    | simp +zetaDelta only [Keeps.lit_iff]
    | (with_reducible apply wf_id; assumption)
    | split
    | intro _

theorem Keeps.pathLoss {o₀ : State} (s : State) (path : Nat) (hk : Keeps o₀ s) : Keeps o₀ (s.pathLoss path) := by
  unfold State.pathLoss
  repeat' first
    | with_reducible assumption
    | (intro _ hw; exact hw)
    | (extract_lets +onlyGivenNames x; refine Keeps.cut (p := Keeps o₀ x) ?_ (fun hx => ?_); rotate_left; clear_value x; rotate_left; try subst x)
    | simp -zeta only [Keeps.lit_iff]
    | fail_if_no_progress (extract_lets +onlyGivenNames x)
    | simp +zetaDelta only [Keeps.lit_iff]
    | (with_reducible apply wf_id; assumption)
    | split
    | intro _

theorem Keeps.resend {o₀ : State} (s : State) (r : Nat) (j : Job) (peer flow : Nat) (u : Unacked) (hk : Keeps o₀ s) : Keeps o₀ (s.resend r j peer flow u) := by
  unfold State.resend
  repeat' first
    | with_reducible assumption
    | (with_reducible eapply Keeps.fstEq; with_reducible assumption)
    | (with_reducible eapply Keeps.sndEq; with_reducible assumption)
    | (with_reducible eapply Keeps.thdEq; with_reducible assumption)
    | with_reducible apply Keeps.netCount
    | with_reducible apply Keeps.modFlow
    | with_reducible apply Keeps.sendData
    | with_reducible apply Keeps.dropSend
    | with_reducible apply Keeps.pathLoss
    | (intro _ hw; exact hw)
    | with_reducible apply Gives.none
    | with_reducible apply Gives.some
    | with_reducible apply Gives.bind
    | (with_reducible eapply Gives.ofEq; with_reducible assumption)
    | (extract_lets +onlyGivenNames x; refine Keeps.cut (p := Keeps o₀ x) ?_ (fun hx => ?_); rotate_left; clear_value x; rotate_left; try subst x)
    | simp -zeta only [Keeps.lit_iff]
    | fail_if_no_progress (extract_lets +onlyGivenNames x)
    | simp +zetaDelta only [Keeps.lit_iff]
    | (with_reducible apply wf_id; assumption)
    | split
    | intro _

theorem Keeps.sendAck {o₀ : State} (s : State) (r : Nat) (j : Job) (peer flow ptype : Nat) (hk : Keeps o₀ s) : Keeps o₀ (s.sendAck r j peer flow ptype) := by
  unfold State.sendAck
  repeat' first
    | with_reducible assumption
    | (with_reducible eapply Keeps.fstEq; with_reducible assumption)
    | (with_reducible eapply Keeps.sndEq; with_reducible assumption)
    | (with_reducible eapply Keeps.thdEq; with_reducible assumption)
    | with_reducible apply Keeps.sendJob
    | with_reducible apply Keeps.modFlow
    | (intro _ hw; exact hw)
    | with_reducible apply Gives.none
    | with_reducible apply Gives.some
    | with_reducible apply Gives.bind
    | (with_reducible eapply Gives.ofEq; with_reducible assumption)
    | (extract_lets +onlyGivenNames x; refine Keeps.cut (p := Keeps o₀ x) ?_ (fun hx => ?_); rotate_left; clear_value x; rotate_left; try subst x)
    | simp -zeta only [Keeps.lit_iff]
    | fail_if_no_progress (extract_lets +onlyGivenNames x)
    | simp +zetaDelta only [Keeps.lit_iff]
    | exact wf_nil
    | (with_reducible apply wf_id; assumption)
    | split
    | intro _

theorem Keeps.malformed {o₀ : State} (s : State) (r : Nat) (j : Job) (p : Pkt) (hk : Keeps o₀ s) : Keeps o₀ (s.malformed r j p) := by
  unfold State.malformed
  extract_lets s1 k c n s2
  have h2 : Keeps o₀ s2 := (Keeps.lit_iff (s := s1) rfl rfl).mpr (Keeps.netCount _ _ hk)
  clear_value s2
  split
  · exact Keeps.reportPeer _ _ _ _ _ h2
  · exact h2

theorem Keeps.onLeft {o₀ : State} (s : State) (p : Pkt) (hk : Keeps o₀ s) : Keeps o₀ (s.onLeft p) := by
  unfold State.onLeft
  repeat' first
    | with_reducible assumption
    | (with_reducible eapply Keeps.fstEq; with_reducible assumption)
    | (with_reducible eapply Keeps.sndEq; with_reducible assumption)
    | (with_reducible eapply Keeps.thdEq; with_reducible assumption)
    | with_reducible apply Keeps.netCount
    | with_reducible apply Keeps.sendRenew
    | with_reducible apply Keeps.sendOut
    | (intro _ hw; exact hw)
    | with_reducible apply Gives.none
    | with_reducible apply Gives.some
    | with_reducible apply Gives.bind
    | (with_reducible eapply Gives.ofEq; with_reducible assumption)
    | (extract_lets +onlyGivenNames x; refine Keeps.cut (p := Keeps o₀ x) ?_ (fun hx => ?_); rotate_left; clear_value x; rotate_left; try subst x)
    | simp -zeta only [Keeps.lit_iff]
    | fail_if_no_progress (extract_lets +onlyGivenNames x)
    | simp +zetaDelta only [Keeps.lit_iff]
    | exact wf_nil
    | (with_reducible apply wf_id; assumption)
    | split
    | intro _

theorem Keeps.pktCheck {o₀ : State} (s : State) (p : Pkt) (ptype : Nat) (hk : Keeps o₀ s) : Keeps o₀ (s.pktCheck p ptype).1 := by
  unfold State.pktCheck
  repeat' first
    | with_reducible assumption
    | (with_reducible eapply Keeps.fstEq; with_reducible assumption)
    | (with_reducible eapply Keeps.sndEq; with_reducible assumption)
    | (with_reducible eapply Keeps.thdEq; with_reducible assumption)
    | with_reducible apply Keeps.netCount
    | with_reducible apply Keeps.onLeft
    | with_reducible apply Keeps.reportPeer
    | with_reducible apply Keeps.malformed
    | with_reducible apply Keeps.sendRenew
    | (intro _ hw; exact hw)
    | with_reducible apply Gives.none
    | with_reducible apply Gives.some
    | with_reducible apply Gives.bind
    | (with_reducible eapply Gives.ofEq; with_reducible assumption)
    | (extract_lets +onlyGivenNames x; refine Keeps.cut (p := Keeps o₀ x) ?_ (fun hx => ?_); rotate_left; clear_value x; rotate_left; try subst x)
    | simp -zeta only [Keeps.lit_iff]
    | fail_if_no_progress (extract_lets +onlyGivenNames x)
    | simp +zetaDelta only [Keeps.lit_iff]
    | exact wf_nil
    | (with_reducible apply wf_id; assumption)
    | split
    | intro _

theorem Keeps.pktRow {o₀ : State} (s : State) (p : Pkt) (ptype : Nat) (f : State → Nat → Job → State) (hk : Keeps o₀ s) (hf : ∀ u x0 x1, Keeps o₀ u → Keeps o₀ (f u x0 x1)) : Keeps o₀ (s.pktRow p ptype f) := by
  unfold State.pktRow
  repeat' first
    | with_reducible assumption
    | (with_reducible eapply Keeps.fstEq; with_reducible assumption)
    | (with_reducible eapply Keeps.sndEq; with_reducible assumption)
    | (with_reducible eapply Keeps.thdEq; with_reducible assumption)
    | with_reducible apply Keeps.pktCheck
    | with_reducible apply hf
    | (intro _ hw; exact hw)
    | with_reducible apply Gives.none
    | with_reducible apply Gives.some
    | with_reducible apply Gives.bind
    | (with_reducible eapply Gives.ofEq; with_reducible assumption)
    | (extract_lets +onlyGivenNames x; refine Keeps.cut (p := Keeps o₀ x) ?_ (fun hx => ?_); rotate_left; clear_value x; rotate_left; try subst x)
    | simp -zeta only [Keeps.lit_iff]
    | fail_if_no_progress (extract_lets +onlyGivenNames x)
    | simp +zetaDelta only [Keeps.lit_iff]
    | split
    | intro _

theorem Keeps.sendRefuse {o₀ : State} (s : State) (r : Nat) (j : Job) (p : Pkt) (code : Nat) (hk : Keeps o₀ s) : Keeps o₀ (s.sendRefuse r j p code) := by
  unfold State.sendRefuse
  repeat' first
    | with_reducible assumption
    | (with_reducible eapply Keeps.fstEq; with_reducible assumption)
    | (with_reducible eapply Keeps.sndEq; with_reducible assumption)
    | (with_reducible eapply Keeps.thdEq; with_reducible assumption)
    | with_reducible apply Keeps.sendJob
    | (intro _ hw; exact hw)
    | with_reducible apply Gives.none
    | with_reducible apply Gives.some
    | with_reducible apply Gives.bind
    | (with_reducible eapply Gives.ofEq; with_reducible assumption)
    | (extract_lets +onlyGivenNames x; refine Keeps.cut (p := Keeps o₀ x) ?_ (fun hx => ?_); rotate_left; clear_value x; rotate_left; try subst x)
    | simp -zeta only [Keeps.lit_iff]
    | fail_if_no_progress (extract_lets +onlyGivenNames x)
    | simp +zetaDelta only [Keeps.lit_iff]
    | exact wf_nil
    | (with_reducible apply wf_id; assumption)
    | split
    | intro _

theorem Keeps.holdMirror {o₀ : State} (s : State) (r : Nat) (j : Job) (p : Pkt) (stream : Memory) (hk : Keeps o₀ s) : Keeps o₀ (s.holdMirror r j p stream) := by
  unfold State.holdMirror
  repeat' first
    | with_reducible assumption
    | (with_reducible eapply Keeps.fstEq; with_reducible assumption)
    | (with_reducible eapply Keeps.sndEq; with_reducible assumption)
    | (with_reducible eapply Keeps.thdEq; with_reducible assumption)
    | with_reducible apply Keeps.modMem
    | with_reducible apply Keeps.sendAck
    | with_reducible apply Keeps.sendRefuse
    | (intro _ hw; exact hw)
    | with_reducible apply Gives.none
    | with_reducible apply Gives.some
    | with_reducible apply Gives.bind
    | (with_reducible eapply Gives.ofEq; with_reducible assumption)
    | (extract_lets +onlyGivenNames x; refine Keeps.cut (p := Keeps o₀ x) ?_ (fun hx => ?_); rotate_left; clear_value x; rotate_left; try subst x)
    | simp -zeta only [Keeps.lit_iff]
    | fail_if_no_progress (extract_lets +onlyGivenNames x)
    | simp +zetaDelta only [Keeps.lit_iff]
    | (with_reducible apply wf_id; assumption)
    | split
    | intro _

theorem Keeps.placeData {o₀ : State} (s : State) (r : Nat) (p : Pkt) (hk : Keeps o₀ s) : Keeps o₀ (s.placeData r p).1 := by
  unfold State.placeData
  repeat' first
    | with_reducible assumption
    | (with_reducible eapply Keeps.fstEq; with_reducible assumption)
    | (with_reducible eapply Keeps.sndEq; with_reducible assumption)
    | (with_reducible eapply Keeps.thdEq; with_reducible assumption)
    | with_reducible apply Keeps.chargeNormal
    | with_reducible apply Keeps.writeAny
    | with_reducible apply Keeps.modFlow
    | with_reducible apply Keeps.writeVa
    | with_reducible apply wf_memWriteN
    | with_reducible apply wf_memWrite
    | (intro _ hw; exact hw)
    | with_reducible apply Gives.none
    | with_reducible apply Gives.some
    | with_reducible apply Gives.bind
    | (with_reducible eapply Gives.ofEq; with_reducible assumption)
    | (extract_lets +onlyGivenNames x; refine Keeps.cut (p := Keeps o₀ x) ?_ (fun hx => ?_); rotate_left; clear_value x; rotate_left; try subst x)
    | simp -zeta only [Keeps.lit_iff]
    | fail_if_no_progress (extract_lets +onlyGivenNames x)
    | simp +zetaDelta only [Keeps.lit_iff]
    | exact wf_nil
    | (with_reducible apply wf_id; assumption)
    | split
    | intro _

theorem Keeps.failGet {o₀ : State} (s : State) (r : Nat) (p : Pkt) (code : Nat) (hk : Keeps o₀ s) : Keeps o₀ (s.failGet r p code) := by
  unfold State.failGet
  repeat' first
    | with_reducible assumption
    | (with_reducible eapply Keeps.fstEq; with_reducible assumption)
    | (with_reducible eapply Keeps.sndEq; with_reducible assumption)
    | (with_reducible eapply Keeps.thdEq; with_reducible assumption)
    | with_reducible apply Keeps.modFlow
    | with_reducible apply Keeps.complete
    | (intro _ hw; exact hw)
    | with_reducible apply Gives.none
    | with_reducible apply Gives.some
    | with_reducible apply Gives.bind
    | (with_reducible eapply Gives.ofEq; with_reducible assumption)
    | (extract_lets +onlyGivenNames x; refine Keeps.cut (p := Keeps o₀ x) ?_ (fun hx => ?_); rotate_left; clear_value x; rotate_left; try subst x)
    | simp -zeta only [Keeps.lit_iff]
    | fail_if_no_progress (extract_lets +onlyGivenNames x)
    | simp +zetaDelta only [Keeps.lit_iff]
    | exact wf_nil
    | (with_reducible apply wf_id; assumption)
    | split
    | intro _

theorem Keeps.wholeMsg {o₀ : State} (s : State) (r : Nat) (j : Job) (p : Pkt) (m : RecvMsg) (hk : Keeps o₀ s) : Keeps o₀ (s.wholeMsg r j p m) := by
  unfold State.wholeMsg
  repeat' first
    | with_reducible assumption
    | (with_reducible eapply Keeps.fstEq; with_reducible assumption)
    | (with_reducible eapply Keeps.sndEq; with_reducible assumption)
    | (with_reducible eapply Keeps.thdEq; with_reducible assumption)
    | with_reducible apply Keeps.complete
    | with_reducible apply Keeps.restoreFetched
    | with_reducible apply Keeps.modFlow
    | with_reducible apply Keeps.holdMirror
    | (intro _ hw; exact hw)
    | with_reducible apply Gives.none
    | with_reducible apply Gives.some
    | with_reducible apply Gives.bind
    | (with_reducible eapply Gives.ofEq; with_reducible assumption)
    | (extract_lets +onlyGivenNames x; refine Keeps.cut (p := Keeps o₀ x) ?_ (fun hx => ?_); rotate_left; clear_value x; rotate_left; try subst x)
    | simp -zeta only [Keeps.lit_iff]
    | fail_if_no_progress (extract_lets +onlyGivenNames x)
    | simp +zetaDelta only [Keeps.lit_iff]
    | (with_reducible apply wf_id; assumption)
    | split
    | intro _

theorem Keeps.onData {o₀ : State} (s : State) (r : Nat) (j : Job) (p : Pkt) (hk : Keeps o₀ s) : Keeps o₀ (s.onData r j p) := by
  unfold State.onData
  repeat' first
    | with_reducible assumption
    | (with_reducible eapply Keeps.fstEq; with_reducible assumption)
    | (with_reducible eapply Keeps.sndEq; with_reducible assumption)
    | (with_reducible eapply Keeps.thdEq; with_reducible assumption)
    | with_reducible apply Keeps.netCount
    | with_reducible apply Keeps.modFlow
    | with_reducible apply Keeps.charge
    | with_reducible apply Keeps.sendAck
    | with_reducible apply Keeps.raiseFault
    | with_reducible apply Keeps.placeData
    | with_reducible apply Keeps.failGet
    | with_reducible apply Keeps.sendRefuse
    | with_reducible apply Keeps.wholeMsg
    | (intro _ hw; exact hw)
    | with_reducible apply Gives.none
    | with_reducible apply Gives.some
    | with_reducible apply Gives.bind
    | (with_reducible eapply Gives.ofEq; with_reducible assumption)
    | (extract_lets +onlyGivenNames x; refine Keeps.cut (p := Keeps o₀ x) ?_ (fun hx => ?_); rotate_left; clear_value x; rotate_left; try subst x)
    | simp -zeta only [Keeps.lit_iff]
    | fail_if_no_progress (extract_lets +onlyGivenNames x)
    | simp +zetaDelta only [Keeps.lit_iff]
    | exact wf_nil
    | (with_reducible apply wf_id; assumption)
    | split
    | intro _

theorem Keeps.finishSends {o₀ : State} (s : State) (r peer flow : Nat) (hk : Keeps o₀ s) : Keeps o₀ (s.finishSends r peer flow) := by
  unfold State.finishSends
  repeat' first
    | with_reducible assumption
    | with_reducible apply Keeps.finish
    | with_reducible apply Keeps.setFlow
    | (intro _ hw; exact hw)
    | (extract_lets +onlyGivenNames x; refine Keeps.cut (p := Keeps o₀ x) ?_ (fun hx => ?_); rotate_left; clear_value x; rotate_left; try subst x)
    | simp -zeta only [Keeps.lit_iff]
    | fail_if_no_progress (extract_lets +onlyGivenNames x)
    | simp +zetaDelta only [Keeps.lit_iff]
    | (with_reducible apply wf_id; assumption)
    | intro _

theorem Keeps.onAck {o₀ : State} (s : State) (r : Nat) (j : Job) (p : Pkt) (hk : Keeps o₀ s) : Keeps o₀ (s.onAck r j p) := by
  unfold State.onAck
  repeat' first
    | with_reducible assumption
    | with_reducible apply Keeps.setFlow
    | with_reducible apply Keeps.pump
    | with_reducible apply Keeps.resend
    | with_reducible apply Keeps.finishSends
    | with_reducible apply Keeps.foldl
    | with_reducible apply Keeps.foldlFst
    | with_reducible apply Keeps.foldlSnd
    | with_reducible apply Keeps.foldlWrote
    | with_reducible apply wf_foldlData
    | with_reducible apply wf_foldlMem
    | (intro _ hw; exact hw)
    | (extract_lets +onlyGivenNames x; refine Keeps.cut (p := Keeps o₀ x) ?_ (fun hx => ?_); rotate_left; clear_value x; rotate_left; try subst x)
    | simp -zeta only [Keeps.lit_iff]
    | fail_if_no_progress (extract_lets +onlyGivenNames x)
    | simp +zetaDelta only [Keeps.lit_iff]
    | (with_reducible apply wf_id; assumption)
    | intro _

theorem Keeps.onGetreq {o₀ : State} (s : State) (r : Nat) (j : Job) (p : Pkt) (hk : Keeps o₀ s) : Keeps o₀ (s.onGetreq r j p) := by
  unfold State.onGetreq
  repeat' first
    | with_reducible assumption
    | (with_reducible eapply Keeps.fstEq; with_reducible assumption)
    | (with_reducible eapply Keeps.sndEq; with_reducible assumption)
    | (with_reducible eapply Keeps.thdEq; with_reducible assumption)
    | with_reducible apply Keeps.sendJob
    | with_reducible apply Keeps.sendRefuse
    | with_reducible apply Keeps.sendMsg
    | (intro _ hw; exact hw)
    | with_reducible apply Gives.none
    | with_reducible apply Gives.some
    | with_reducible apply Gives.bind
    | (with_reducible eapply Gives.ofEq; with_reducible assumption)
    | (extract_lets +onlyGivenNames x; refine Keeps.cut (p := Keeps o₀ x) ?_ (fun hx => ?_); rotate_left; clear_value x; rotate_left; try subst x)
    | simp -zeta only [Keeps.lit_iff]
    | fail_if_no_progress (extract_lets +onlyGivenNames x)
    | simp +zetaDelta only [Keeps.lit_iff]
    | exact wf_nil
    | (with_reducible apply wf_id; assumption)
    | split
    | intro _

theorem Keeps.onRefuse {o₀ : State} (s : State) (r : Nat) (p : Pkt) (hk : Keeps o₀ s) : Keeps o₀ (s.onRefuse r p) := by
  unfold State.onRefuse
  repeat' first
    | with_reducible assumption
    | (with_reducible eapply Keeps.fstEq; with_reducible assumption)
    | (with_reducible eapply Keeps.sndEq; with_reducible assumption)
    | (with_reducible eapply Keeps.thdEq; with_reducible assumption)
    | with_reducible apply Keeps.complete
    | with_reducible apply Keeps.failStart
    | with_reducible apply Keeps.modFlow
    | with_reducible apply Keeps.dropSend
    | (intro _ hw; exact hw)
    | with_reducible apply Gives.none
    | with_reducible apply Gives.some
    | with_reducible apply Gives.bind
    | (with_reducible eapply Gives.ofEq; with_reducible assumption)
    | (extract_lets +onlyGivenNames x; refine Keeps.cut (p := Keeps o₀ x) ?_ (fun hx => ?_); rotate_left; clear_value x; rotate_left; try subst x)
    | simp -zeta only [Keeps.lit_iff]
    | fail_if_no_progress (extract_lets +onlyGivenNames x)
    | simp +zetaDelta only [Keeps.lit_iff]
    | (with_reducible apply wf_id; assumption)
    | split
    | intro _

theorem Keeps.onBusy {o₀ : State} (s : State) (r : Nat) (p : Pkt) (hk : Keeps o₀ s) : Keeps o₀ (s.onBusy r p) := by
  unfold State.onBusy
  repeat' first
    | with_reducible assumption
    | (with_reducible eapply Keeps.fstEq; with_reducible assumption)
    | (with_reducible eapply Keeps.sndEq; with_reducible assumption)
    | (with_reducible eapply Keeps.thdEq; with_reducible assumption)
    | with_reducible apply Keeps.modFlow
    | with_reducible apply Keeps.unreachable
    | (intro _ hw; exact hw)
    | with_reducible apply Gives.none
    | with_reducible apply Gives.some
    | with_reducible apply Gives.bind
    | (with_reducible eapply Gives.ofEq; with_reducible assumption)
    | (extract_lets +onlyGivenNames x; refine Keeps.cut (p := Keeps o₀ x) ?_ (fun hx => ?_); rotate_left; clear_value x; rotate_left; try subst x)
    | simp -zeta only [Keeps.lit_iff]
    | fail_if_no_progress (extract_lets +onlyGivenNames x)
    | simp +zetaDelta only [Keeps.lit_iff]
    | (with_reducible apply wf_id; assumption)
    | split
    | intro _

end Sys2Proof.Machine
end

