-- ==== Sys2Proof/Laws/KeepsSchedules.lean ====
section
/-! SUPPORT. `Keeps` for the operations of Machine/Schedules.lean. -/

set_option linter.all false

namespace Sys2Proof.Machine

theorem Keeps.schedVerdict {o₀ : State} (s : State) (c : Option Nat) (hk : Keeps o₀ s) : Keeps o₀ (s.schedVerdict c) := by
  unfold State.schedVerdict
  repeat' first
    | with_reducible assumption
    | (intro _ hw; exact hw)
    | (extract_lets +onlyGivenNames x; refine Keeps.cut (p := Keeps o₀ x) ?_ (fun hx => ?_); rotate_left; clear_value x; rotate_left; try subst x)
    | simp -zeta only [Keeps.lit_iff]
    | fail_if_no_progress (extract_lets +onlyGivenNames x)
    | simp +zetaDelta only [Keeps.lit_iff]
    | intro _

theorem Keeps.schedActivate {o₀ : State} (s : State) (hk : Keeps o₀ s) : Keeps o₀ (s.schedActivate) := by
  unfold State.schedActivate
  repeat' first
    | with_reducible assumption
    | (with_reducible eapply Keeps.fstEq; with_reducible assumption)
    | (with_reducible eapply Keeps.sndEq; with_reducible assumption)
    | (with_reducible eapply Keeps.thdEq; with_reducible assumption)
    | with_reducible apply Keeps.schedVerdict
    | (intro _ hw; exact hw)
    | with_reducible apply Gives.none
    | with_reducible apply Gives.some
    | with_reducible apply Gives.bind
    | (with_reducible eapply Gives.ofEq; with_reducible assumption)
    | (extract_lets +onlyGivenNames x; refine Keeps.cut (p := Keeps o₀ x) ?_ (fun hx => ?_); rotate_left; clear_value x; rotate_left; try subst x)
    | simp -zeta only [Keeps.lit_iff]
    | fail_if_no_progress (extract_lets +onlyGivenNames x)
    | simp +zetaDelta only [Keeps.lit_iff]
    | split
    | intro _

theorem Keeps.schedSwitch {o₀ : State} (s : State) (hk : Keeps o₀ s) : Keeps o₀ (s.schedSwitch) := by
  unfold State.schedSwitch
  repeat' first
    | with_reducible assumption
    | with_reducible apply Keeps.coresFilter
    | with_reducible apply Keeps.coresMap
    | (intro _ hw; exact hw)
    | with_reducible apply Gives.none
    | with_reducible apply Gives.some
    | with_reducible apply Gives.bind
    | (with_reducible eapply Gives.ofEq; with_reducible assumption)
    | (extract_lets +onlyGivenNames x; refine Keeps.cut (p := Keeps o₀ x) ?_ (fun hx => ?_); rotate_left; clear_value x; rotate_left; try subst x)
    | simp -zeta only [Keeps.lit_iff]
    | fail_if_no_progress (extract_lets +onlyGivenNames x)
    | simp +zetaDelta only [Keeps.lit_iff]
    | intro _

end Sys2Proof.Machine
end

