-- ==== Sys2Proof/Laws/KeepsBoot.lean ====
section
/-! SUPPORT. `Keeps` for the operations of Machine/Boot.lean. -/

set_option linter.all false

namespace Sys2Proof.Machine

theorem Keeps.alarmWord {o₀ : State} (s : State) (r : FuseReads) (hk : Keeps o₀ s) : Keeps o₀ (s.alarmWord r) := by
  unfold State.alarmWord
  repeat' first
    | with_reducible assumption
    | with_reducible apply Keeps.audit
    | intro _

theorem Keeps.rereadWord {o₀ : State} (s : State) (r : FuseReads) (hk : Keeps o₀ s) : Keeps o₀ (s.rereadWord r) := by
  unfold State.rereadWord
  repeat' first
    | with_reducible assumption
    | with_reducible apply Keeps.audit
    | with_reducible apply Keeps.alarmWord
    | with_reducible apply Keeps.maintAlarm
    | (intro _ hw; exact hw)
    | (extract_lets +onlyGivenNames x; refine Keeps.cut (p := Keeps o₀ x) ?_ (fun hx => ?_); rotate_left; clear_value x; rotate_left; try subst x)
    | simp -zeta only [Keeps.lit_iff]
    | fail_if_no_progress (extract_lets +onlyGivenNames x)
    | simp +zetaDelta only [Keeps.lit_iff]
    | (with_reducible apply wf_id; assumption)
    | split
    | intro _

theorem Keeps.beginFetch {o₀ : State} (s : State) (hk : Keeps o₀ s) : Keeps o₀ (s.beginFetch) := by
  unfold State.beginFetch
  repeat' first
    | with_reducible assumption
    | with_reducible apply Keeps.emit
    | with_reducible apply Keeps.fetch
    | (intro _ hw; exact hw)
    | with_reducible apply Gives.none
    | with_reducible apply Gives.some
    | with_reducible apply Gives.bind
    | (with_reducible eapply Gives.ofEq; with_reducible assumption)
    | (extract_lets +onlyGivenNames x; refine Keeps.cut (p := Keeps o₀ x) ?_ (fun hx => ?_); rotate_left; clear_value x; rotate_left; try subst x)
    | simp -zeta only [Keeps.lit_iff]
    | fail_if_no_progress (extract_lets +onlyGivenNames x)
    | simp +zetaDelta only [Keeps.lit_iff]
    | intro _

theorem Keeps.tryFetch {o₀ : State} (s : State) (hk : Keeps o₀ s) : Keeps o₀ (s.tryFetch) := by
  unfold State.tryFetch
  repeat' first
    | with_reducible assumption
    | with_reducible apply Keeps.beginFetch
    | (intro _ hw; exact hw)
    | (extract_lets +onlyGivenNames x; refine Keeps.cut (p := Keeps o₀ x) ?_ (fun hx => ?_); rotate_left; clear_value x; rotate_left; try subst x)
    | simp -zeta only [Keeps.lit_iff]
    | fail_if_no_progress (extract_lets +onlyGivenNames x)
    | simp +zetaDelta only [Keeps.lit_iff]
    | exact wf_nil
    | (with_reducible apply wf_id; assumption)
    | split
    | intro _

theorem Keeps.acceptImage {o₀ : State} (s : State) (bytes : List Byte) (hk : Keeps o₀ s) : Keeps o₀ (s.acceptImage bytes) := by
  unfold State.acceptImage
  repeat' first
    | with_reducible assumption
    | (with_reducible eapply Keeps.fstEq; with_reducible assumption)
    | (with_reducible eapply Keeps.sndEq; with_reducible assumption)
    | (with_reducible eapply Keeps.thdEq; with_reducible assumption)
    | with_reducible apply Keeps.audit
    | with_reducible apply Keeps.flushHealth
    | with_reducible apply Keeps.thawRings
    | with_reducible apply Keeps.resumeRoom
    | with_reducible apply Keeps.beginAdmission
    | with_reducible apply Keeps.foldl
    | with_reducible apply Keeps.foldlFst
    | with_reducible apply Keeps.foldlSnd
    | with_reducible apply Keeps.foldlWrote
    | with_reducible apply wf_foldlData
    | with_reducible apply wf_foldlMem
    | with_reducible apply wf_memWriteN
    | with_reducible apply wf_memWrite
    | (intro _ hw; exact hw)
    | with_reducible apply Gives.none
    | with_reducible apply Gives.some
    | with_reducible apply Gives.bind
    | (with_reducible eapply Gives.ofEq; with_reducible assumption)
    | (extract_lets +onlyGivenNames x; refine Keeps.cut (p := Keeps o₀ x) ?_ (fun hx => ?_); rotate_left; clear_value x; rotate_left; try subst x)
    | simp -zeta only [Keeps.lit_iff]
    | fail_if_no_progress (extract_lets +onlyGivenNames x)
    | simp +zetaDelta only [Keeps.lit_iff]
    | exact wf_nil
    | (with_reducible apply wf_id; assumption)
    | split
    | intro _

theorem Keeps.fetchFailed {o₀ : State} (s : State) (code : Nat) (hk : Keeps o₀ s) : Keeps o₀ (s.fetchFailed code) := by
  unfold State.fetchFailed
  repeat' first
    | with_reducible assumption
    | (intro _ hw; exact hw)
    | with_reducible apply Gives.none
    | with_reducible apply Gives.some
    | with_reducible apply Gives.bind
    | (with_reducible eapply Gives.ofEq; with_reducible assumption)
    | (extract_lets +onlyGivenNames x; refine Keeps.cut (p := Keeps o₀ x) ?_ (fun hx => ?_); rotate_left; clear_value x; rotate_left; try subst x)
    | simp -zeta only [Keeps.lit_iff]
    | fail_if_no_progress (extract_lets +onlyGivenNames x)
    | simp +zetaDelta only [Keeps.lit_iff]
    | intro _

theorem Keeps.nextServer {o₀ : State} (s : State) (hk : Keeps o₀ s) : Keeps o₀ (s.nextServer) := by
  unfold State.nextServer
  repeat' first
    | with_reducible assumption
    | (with_reducible eapply Keeps.fstEq; with_reducible assumption)
    | (with_reducible eapply Keeps.sndEq; with_reducible assumption)
    | (with_reducible eapply Keeps.thdEq; with_reducible assumption)
    | with_reducible apply Keeps.emit
    | with_reducible apply Keeps.fetch
    | with_reducible apply Keeps.fetchFailed
    | (intro _ hw; exact hw)
    | with_reducible apply Gives.none
    | with_reducible apply Gives.some
    | with_reducible apply Gives.bind
    | (with_reducible eapply Gives.ofEq; with_reducible assumption)
    | (extract_lets +onlyGivenNames x; refine Keeps.cut (p := Keeps o₀ x) ?_ (fun hx => ?_); rotate_left; clear_value x; rotate_left; try subst x)
    | simp -zeta only [Keeps.lit_iff]
    | fail_if_no_progress (extract_lets +onlyGivenNames x)
    | simp +zetaDelta only [Keeps.lit_iff]
    | exact wf_nil
    | (with_reducible apply wf_id; assumption)
    | split
    | intro _

theorem Keeps.tryImage {o₀ : State} (s : State) (bs : List Byte) (verified : List Bool) (hk : Keeps o₀ s) : Keeps o₀ (s.tryImage bs verified) := by
  unfold State.tryImage
  repeat' first
    | with_reducible assumption
    | (with_reducible eapply Keeps.fstEq; with_reducible assumption)
    | (with_reducible eapply Keeps.sndEq; with_reducible assumption)
    | (with_reducible eapply Keeps.thdEq; with_reducible assumption)
    | with_reducible apply Keeps.acceptImage
    | with_reducible apply Keeps.audit
    | with_reducible apply Keeps.nextServer
    | (intro _ hw; exact hw)
    | with_reducible apply Gives.none
    | with_reducible apply Gives.some
    | with_reducible apply Gives.bind
    | (with_reducible eapply Gives.ofEq; with_reducible assumption)
    | (extract_lets +onlyGivenNames x; refine Keeps.cut (p := Keeps o₀ x) ?_ (fun hx => ?_); rotate_left; clear_value x; rotate_left; try subst x)
    | simp -zeta only [Keeps.lit_iff]
    | fail_if_no_progress (extract_lets +onlyGivenNames x)
    | simp +zetaDelta only [Keeps.lit_iff]
    | exact wf_nil
    | (with_reducible apply wf_id; assumption)
    | split
    | intro _

theorem Keeps.serverAnswer {o₀ : State} (s : State) (a : Served) (hk : Keeps o₀ s) : Keeps o₀ (s.serverAnswer a) := by
  unfold State.serverAnswer
  repeat' first
    | with_reducible assumption
    | (with_reducible eapply Keeps.fstEq; with_reducible assumption)
    | (with_reducible eapply Keeps.sndEq; with_reducible assumption)
    | (with_reducible eapply Keeps.thdEq; with_reducible assumption)
    | with_reducible apply Keeps.nextServer
    | with_reducible apply Keeps.tryImage
    | with_reducible apply Keeps.emit
    | with_reducible apply Keeps.fetch
    | (intro _ hw; exact hw)
    | with_reducible apply Gives.none
    | with_reducible apply Gives.some
    | with_reducible apply Gives.bind
    | (with_reducible eapply Gives.ofEq; with_reducible assumption)
    | (extract_lets +onlyGivenNames x; refine Keeps.cut (p := Keeps o₀ x) ?_ (fun hx => ?_); rotate_left; clear_value x; rotate_left; try subst x)
    | simp -zeta only [Keeps.lit_iff]
    | fail_if_no_progress (extract_lets +onlyGivenNames x)
    | simp +zetaDelta only [Keeps.lit_iff]
    | exact wf_nil
    | (with_reducible apply wf_id; assumption)
    | split
    | intro _

theorem Keeps.loseRooms {o₀ : State} (s : State) (hk : Keeps o₀ s) : Keeps o₀ (s.loseRooms) := by
  unfold State.loseRooms
  repeat' first
    | with_reducible assumption
    | with_reducible apply Keeps.audit
    | with_reducible apply Keeps.foldl
    | with_reducible apply Keeps.foldlFst
    | with_reducible apply Keeps.foldlSnd
    | with_reducible apply Keeps.foldlWrote
    | with_reducible apply wf_foldlData
    | with_reducible apply wf_foldlMem
    | (intro _ hw; exact hw)
    | (with_reducible apply wf_id; assumption)
    | intro _

theorem Keeps.wipe {o₀ : State} (s : State) (main : Bool) (cause : Nat) (hk : Keeps o₀ s) : Keeps o₀ (s.wipe main cause) :=
  (Keeps.loseRooms s hk).ofBlank rfl rfl rfl rfl rfl rfl rfl rfl

theorem Keeps.cellarUp {o₀ : State} (s : State) (hk : Keeps o₀ s) : Keeps o₀ (s.cellarUp) := by
  unfold State.cellarUp
  repeat' first
    | with_reducible assumption
    | (with_reducible eapply Keeps.fstEq; with_reducible assumption)
    | (with_reducible eapply Keeps.sndEq; with_reducible assumption)
    | (with_reducible eapply Keeps.thdEq; with_reducible assumption)
    | with_reducible apply Keeps.draw
    | (intro _ hw; exact hw)
    | with_reducible apply Gives.none
    | with_reducible apply Gives.some
    | with_reducible apply Gives.bind
    | (with_reducible eapply Gives.ofEq; with_reducible assumption)
    | (extract_lets +onlyGivenNames x; refine Keeps.cut (p := Keeps o₀ x) ?_ (fun hx => ?_); rotate_left; clear_value x; rotate_left; try subst x)
    | simp -zeta only [Keeps.lit_iff]
    | fail_if_no_progress (extract_lets +onlyGivenNames x)
    | simp +zetaDelta only [Keeps.lit_iff]
    | exact wf_nil
    | (with_reducible apply wf_id; assumption)
    | split
    | intro _

theorem Keeps.comeUp {o₀ : State} (s : State) (hk : Keeps o₀ s) : Keeps o₀ (s.comeUp) := by
  unfold State.comeUp
  repeat' first
    | with_reducible assumption
    | (with_reducible eapply Keeps.fstEq; with_reducible assumption)
    | (with_reducible eapply Keeps.sndEq; with_reducible assumption)
    | (with_reducible eapply Keeps.thdEq; with_reducible assumption)
    | with_reducible apply Keeps.cellarUp
    | with_reducible apply Keeps.tryFetch
    | (intro _ hw; exact hw)
    | with_reducible apply Gives.none
    | with_reducible apply Gives.some
    | with_reducible apply Gives.bind
    | (with_reducible eapply Gives.ofEq; with_reducible assumption)
    | (extract_lets +onlyGivenNames x; refine Keeps.cut (p := Keeps o₀ x) ?_ (fun hx => ?_); rotate_left; clear_value x; rotate_left; try subst x)
    | simp -zeta only [Keeps.lit_iff]
    | fail_if_no_progress (extract_lets +onlyGivenNames x)
    | simp +zetaDelta only [Keeps.lit_iff]
    | exact wf_nil
    | (with_reducible apply wf_id; assumption)
    | split
    | intro _

theorem Keeps.breakChain {o₀ : State} (s : State) (hk : Keeps o₀ s) : Keeps o₀ (s.breakChain) := by
  unfold State.breakChain
  repeat' first
    | with_reducible assumption
    | with_reducible apply Keeps.audit
    | (intro _ hw; exact hw)
    | (extract_lets +onlyGivenNames x; refine Keeps.cut (p := Keeps o₀ x) ?_ (fun hx => ?_); rotate_left; clear_value x; rotate_left; try subst x)
    | simp -zeta only [Keeps.lit_iff]
    | fail_if_no_progress (extract_lets +onlyGivenNames x)
    | simp +zetaDelta only [Keeps.lit_iff]
    | (with_reducible apply wf_id; assumption)
    | split
    | intro _

theorem Keeps.bootEntry {o₀ : State} (s : State) (hk : Keeps o₀ s) : Keeps o₀ (s.bootEntry) := by
  unfold State.bootEntry
  repeat' first
    | with_reducible assumption
    | with_reducible apply Keeps.audit
    | with_reducible apply Keeps.forgetAlert
    | (intro _ hw; exact hw)
    | (extract_lets +onlyGivenNames x; refine Keeps.cut (p := Keeps o₀ x) ?_ (fun hx => ?_); rotate_left; clear_value x; rotate_left; try subst x)
    | simp -zeta only [Keeps.lit_iff]
    | fail_if_no_progress (extract_lets +onlyGivenNames x)
    | simp +zetaDelta only [Keeps.lit_iff]
    | (with_reducible apply wf_id; assumption)
    | split
    | intro _

theorem Keeps.bootRecord {o₀ : State} (s : State) (chainOk : Bool) (hk : Keeps o₀ s) : Keeps o₀ (s.bootRecord chainOk) := by
  unfold State.bootRecord
  apply Keeps.bootEntry
  split
  · exact hk
  · exact Keeps.breakChain s hk

theorem Keeps.loadStore {o₀ : State} (s : State) (held : Bool) (hk : Keeps o₀ s) : Keeps o₀ (s.loadStore held) := by
  unfold State.loadStore
  repeat' first
    | with_reducible assumption
    | (intro _ hw; exact hw)
    | (extract_lets +onlyGivenNames x; refine Keeps.cut (p := Keeps o₀ x) ?_ (fun hx => ?_); rotate_left; clear_value x; rotate_left; try subst x)
    | simp -zeta only [Keeps.lit_iff]
    | fail_if_no_progress (extract_lets +onlyGivenNames x)
    | simp +zetaDelta only [Keeps.lit_iff]
    | (with_reducible apply wf_id; assumption)
    | split
    | intro _

theorem Keeps.bootOn {o₀ : State} (s : State) (storeOk chainOk : Bool) (hk : Keeps o₀ s) : Keeps o₀ (s.bootOn storeOk chainOk) := by
  unfold State.bootOn
  repeat' first
    | with_reducible assumption
    | with_reducible apply Keeps.bootRecord
    | with_reducible apply Keeps.loadStore
    | (intro _ hw; exact hw)
    | (extract_lets +onlyGivenNames x; refine Keeps.cut (p := Keeps o₀ x) ?_ (fun hx => ?_); rotate_left; clear_value x; rotate_left; try subst x)
    | simp -zeta only [Keeps.lit_iff]
    | fail_if_no_progress (extract_lets +onlyGivenNames x)
    | simp +zetaDelta only [Keeps.lit_iff]
    | split
    | intro _

theorem Keeps.refill {o₀ : State} (s : State) (die : Nat) (hk : Keeps o₀ s) : Keeps o₀ (s.refill die) := by
  unfold State.refill
  repeat' first
    | with_reducible assumption
    | with_reducible apply Keeps.tryFetch
    | (intro _ hw; exact hw)
    | with_reducible apply Gives.none
    | with_reducible apply Gives.some
    | with_reducible apply Gives.bind
    | (with_reducible eapply Gives.ofEq; with_reducible assumption)
    | (extract_lets +onlyGivenNames x; refine Keeps.cut (p := Keeps o₀ x) ?_ (fun hx => ?_); rotate_left; clear_value x; rotate_left; try subst x)
    | simp -zeta only [Keeps.lit_iff]
    | fail_if_no_progress (extract_lets +onlyGivenNames x)
    | simp +zetaDelta only [Keeps.lit_iff]
    | split
    | intro _

theorem Keeps.endTrip {o₀ : State} (s : State) (die : Nat) (hk : Keeps o₀ s) : Keeps o₀ (s.endTrip die) := by
  unfold State.endTrip
  repeat' first
    | with_reducible assumption
    | with_reducible apply Keeps.forgetAlert
    | (intro _ hw; exact hw)
    | (extract_lets +onlyGivenNames x; refine Keeps.cut (p := Keeps o₀ x) ?_ (fun hx => ?_); rotate_left; clear_value x; rotate_left; try subst x)
    | simp -zeta only [Keeps.lit_iff]
    | fail_if_no_progress (extract_lets +onlyGivenNames x)
    | simp +zetaDelta only [Keeps.lit_iff]
    | (with_reducible apply wf_id; assumption)
    | split
    | intro _

end Sys2Proof.Machine
end

