-- ==== Sys2Proof/Laws/KeepsCollectives.lean ====
section
/-! SUPPORT. `Keeps` for the operations of Machine/Collectives.lean. -/

set_option linter.all false

namespace Sys2Proof.Machine

theorem Keeps.modColl {o₀ : State} (s : State) (r k : Nat) (f : CollSt → CollSt) (hk : Keeps o₀ s) : Keeps o₀ (s.modColl r k f) := by
  unfold State.modColl
  repeat' first
    | with_reducible assumption
    | with_reducible apply Keeps.modRoom
    | (intro _ hw; exact hw)
    | (extract_lets +onlyGivenNames x; refine Keeps.cut (p := Keeps o₀ x) ?_ (fun hx => ?_); rotate_left; clear_value x; rotate_left; try subst x)
    | simp -zeta only [Keeps.lit_iff]
    | fail_if_no_progress (extract_lets +onlyGivenNames x)
    | simp +zetaDelta only [Keeps.lit_iff]
    | (with_reducible apply wf_id; assumption)
    | intro _

end Sys2Proof.Machine
end

