-- ==== Sys2Proof/Laws/KeepsTrust.lean ====
section
/-! SUPPORT. `Keeps` for the operations of Machine/Trust.lean. -/

set_option linter.all false

namespace Sys2Proof.Machine

theorem Keeps.freshReport {o₀ : State} (s : State) (room : Option Nat) (nonce eph : List Nat) (hk : Keeps o₀ s) : Keeps o₀ (s.freshReport room nonce eph).2 := by
  unfold State.freshReport
  repeat' first
    | with_reducible assumption
    | (with_reducible eapply Keeps.fstEq; with_reducible assumption)
    | (with_reducible eapply Keeps.sndEq; with_reducible assumption)
    | (with_reducible eapply Keeps.thdEq; with_reducible assumption)
    | with_reducible apply Keeps.drawBytes
    | (extract_lets +onlyGivenNames x; refine Keeps.cut (p := Keeps o₀ x) ?_ (fun hx => ?_); rotate_left; clear_value x; rotate_left; try subst x)
    | fail_if_no_progress (extract_lets +onlyGivenNames x)
    | split
    | intro _

theorem Keeps.endConsent {o₀ : State} (s : State) (r : Nat) (hk : Keeps o₀ s) : Keeps o₀ (s.endConsent r) := by
  unfold State.endConsent
  repeat' first
    | with_reducible assumption
    | (with_reducible eapply Keeps.fstEq; with_reducible assumption)
    | (with_reducible eapply Keeps.sndEq; with_reducible assumption)
    | (with_reducible eapply Keeps.thdEq; with_reducible assumption)
    | with_reducible apply Keeps.modRoom
    | with_reducible apply Keeps.audit
    | with_reducible apply Keeps.endDebug
    | (intro _ hw; exact hw)
    | with_reducible apply Gives.none
    | with_reducible apply Gives.some
    | with_reducible apply Gives.bind
    | (with_reducible eapply Gives.ofEq; with_reducible assumption)
    | (extract_lets +onlyGivenNames x; refine Keeps.cut (p := Keeps o₀ x) ?_ (fun hx => ?_); rotate_left; clear_value x; rotate_left; try subst x)
    | simp -zeta only [Keeps.lit_iff]
    | fail_if_no_progress (extract_lets +onlyGivenNames x)
    | simp +zetaDelta only [Keeps.lit_iff]
    | (with_reducible apply wf_id; assumption)
    | split
    | intro _

theorem Keeps.tenantCmd {o₀ : State} (s : State) (r cmd : Nat) (body : List Nat) (verified : Bool) (hk : Keeps o₀ s) : Keeps o₀ (s.tenantCmd r cmd body verified).2.2 := by
  unfold State.tenantCmd
  repeat' first
    | with_reducible assumption
    | (with_reducible eapply Keeps.fstEq; with_reducible assumption)
    | (with_reducible eapply Keeps.sndEq; with_reducible assumption)
    | (with_reducible eapply Keeps.thdEq; with_reducible assumption)
    | with_reducible apply Keeps.modRoom
    | with_reducible apply Keeps.audit
    | with_reducible apply Keeps.freshReport
    | with_reducible apply Keeps.endConsent
    | with_reducible apply wf_memWriteN
    | (intro _ hw; exact hw)
    | with_reducible apply Gives.none
    | with_reducible apply Gives.some
    | with_reducible apply Gives.bind
    | (with_reducible eapply Gives.ofEq; with_reducible assumption)
    | (extract_lets +onlyGivenNames x; refine Keeps.cut (p := Keeps o₀ x) ?_ (fun hx => ?_); rotate_left; clear_value x; rotate_left; try subst x)
    | simp -zeta only [Keeps.lit_iff]
    | fail_if_no_progress (extract_lets +onlyGivenNames x)
    | simp +zetaDelta only [Keeps.lit_iff]
    | (with_reducible apply wf_id; assumption)
    | split
    | intro _

theorem Keeps.requestWindow {o₀ : State} (s : State) (fn r cmd : Nat) (verified : Bool) (hk : Keeps o₀ s) : Keeps o₀ (s.requestWindow fn r cmd verified) := by
  unfold State.requestWindow
  repeat' first
    | with_reducible assumption
    | (with_reducible eapply Keeps.fstEq; with_reducible assumption)
    | (with_reducible eapply Keeps.sndEq; with_reducible assumption)
    | (with_reducible eapply Keeps.thdEq; with_reducible assumption)
    | with_reducible apply Keeps.modRoom
    | with_reducible apply Keeps.countRefused
    | with_reducible apply Keeps.badAcc
    | with_reducible apply Keeps.done
    | with_reducible apply Keeps.tenantCmd
    | with_reducible apply Keeps.hostPut
    | (intro _ hw; exact hw)
    | (extract_lets +onlyGivenNames x; refine Keeps.cut (p := Keeps o₀ x) ?_ (fun hx => ?_); rotate_left; clear_value x; rotate_left; try subst x)
    | simp -zeta only [Keeps.lit_iff]
    | fail_if_no_progress (extract_lets +onlyGivenNames x)
    | simp +zetaDelta only [Keeps.lit_iff]
    | (with_reducible apply wf_id; assumption)
    | split
    | intro _

theorem Keeps.closeDebug {o₀ : State} (s : State) (hk : Keeps o₀ s) : Keeps o₀ (s.closeDebug) := by
  unfold State.closeDebug
  repeat' first
    | with_reducible assumption
    | (with_reducible eapply Keeps.fstEq; with_reducible assumption)
    | (with_reducible eapply Keeps.sndEq; with_reducible assumption)
    | (with_reducible eapply Keeps.thdEq; with_reducible assumption)
    | with_reducible apply Keeps.audit
    | (intro _ hw; exact hw)
    | with_reducible apply Gives.none
    | with_reducible apply Gives.some
    | with_reducible apply Gives.bind
    | (with_reducible eapply Gives.ofEq; with_reducible assumption)
    | (extract_lets +onlyGivenNames x; refine Keeps.cut (p := Keeps o₀ x) ?_ (fun hx => ?_); rotate_left; clear_value x; rotate_left; try subst x)
    | simp -zeta only [Keeps.lit_iff]
    | fail_if_no_progress (extract_lets +onlyGivenNames x)
    | simp +zetaDelta only [Keeps.lit_iff]
    | split
    | intro _

theorem Keeps.respond {o₀ : State} (s : State) (code : Nat) (body : List Byte) (hk : Keeps o₀ s) : Keeps o₀ (s.respond code body) := by
  unfold State.respond
  repeat' first
    | with_reducible assumption
    | with_reducible apply Keeps.emit
    | intro _

theorem Keeps.refuseFree {o₀ : State} (s : State) (hk : Keeps o₀ s) : Keeps o₀ (s.refuseFree) := by
  unfold State.refuseFree
  repeat' first
    | with_reducible assumption
    | (with_reducible eapply Keeps.fstEq; with_reducible assumption)
    | (with_reducible eapply Keeps.sndEq; with_reducible assumption)
    | (with_reducible eapply Keeps.thdEq; with_reducible assumption)
    | with_reducible apply Keeps.draw
    | with_reducible apply Keeps.respond
    | (extract_lets +onlyGivenNames x; refine Keeps.cut (p := Keeps o₀ x) ?_ (fun hx => ?_); rotate_left; clear_value x; rotate_left; try subst x)
    | fail_if_no_progress (extract_lets +onlyGivenNames x)
    | split
    | intro _

theorem Keeps.authFail {o₀ : State} (s : State) (w : Who) (hk : Keeps o₀ s) : Keeps o₀ (s.authFail w) := by
  unfold State.authFail
  repeat' first
    | with_reducible assumption
    | with_reducible apply Keeps.audit
    | with_reducible apply Keeps.respond
    | (intro _ hw; exact hw)
    | with_reducible apply Gives.none
    | with_reducible apply Gives.some
    | with_reducible apply Gives.bind
    | (with_reducible eapply Gives.ofEq; with_reducible assumption)
    | (extract_lets +onlyGivenNames x; refine Keeps.cut (p := Keeps o₀ x) ?_ (fun hx => ?_); rotate_left; clear_value x; rotate_left; try subst x)
    | simp -zeta only [Keeps.lit_iff]
    | fail_if_no_progress (extract_lets +onlyGivenNames x)
    | simp +zetaDelta only [Keeps.lit_iff]
    | split
    | intro _

theorem Keeps.request {o₀ : State} (s : State) (w : Who) (roles : List Nat) (reads : Bool) (f : State → Nat → Nat → State) (hk : Keeps o₀ s) (hf : ∀ u x0 x1, Keeps o₀ u → Keeps o₀ (f u x0 x1)) : Keeps o₀ (s.request w roles reads f) := by
  unfold State.request
  repeat' first
    | with_reducible assumption
    | (with_reducible eapply Keeps.fstEq; with_reducible assumption)
    | (with_reducible eapply Keeps.sndEq; with_reducible assumption)
    | (with_reducible eapply Keeps.thdEq; with_reducible assumption)
    | with_reducible apply Keeps.respond
    | with_reducible apply Keeps.authFail
    | with_reducible apply hf
    | (intro _ hw; exact hw)
    | (extract_lets +onlyGivenNames x; refine Keeps.cut (p := Keeps o₀ x) ?_ (fun hx => ?_); rotate_left; clear_value x; rotate_left; try subst x)
    | fail_if_no_progress (extract_lets +onlyGivenNames x)
    | (with_reducible apply wf_id; assumption)
    | split
    | intro _

theorem Keeps.storeWritten {o₀ : State} (s : State) (hk : Keeps o₀ s) : Keeps o₀ (s.storeWritten) := by
  unfold State.storeWritten
  repeat' first
    | with_reducible assumption
    | (intro _ hw; exact hw)
    | (extract_lets +onlyGivenNames x; refine Keeps.cut (p := Keeps o₀ x) ?_ (fun hx => ?_); rotate_left; clear_value x; rotate_left; try subst x)
    | simp -zeta only [Keeps.lit_iff]
    | fail_if_no_progress (extract_lets +onlyGivenNames x)
    | simp +zetaDelta only [Keeps.lit_iff]
    | intro _

theorem Keeps.config {o₀ : State} (s : State) (role slot : Nat) (body : List Byte) (hk : Keeps o₀ s) : Keeps o₀ (s.config role slot body) := by
  unfold State.config
  repeat' first
    | with_reducible assumption
    | with_reducible apply Keeps.audit
    | intro _

theorem Keeps.keyChange {o₀ : State} (s : State) (role slot : Nat) (key : List Nat) (list index : Nat) (hk : Keeps o₀ s) : Keeps o₀ (s.keyChange role slot key list index) := by
  unfold State.keyChange
  repeat' first
    | with_reducible assumption
    | with_reducible apply Keeps.audit
    | with_reducible apply Keeps.storeWritten
    | intro _

theorem Keeps.programWord {o₀ : State} (s : State) (reads : List FuseReads) (w v : Nat) (hk : Keeps o₀ s) :
    Keeps o₀ (s.programWord reads w v).2 := by
  unfold State.programWord
  extract_lets cell sec t
  have ht : Keeps o₀ t := by
    refine hk.ofSec (fun k i h => ?_) (Nat.le_refl _) rfl rfl rfl rfl rfl rfl
    by_cases hw : k = w
    · subst hw
      show bit (tget 0 (tset s.sec.fuses k cell) k) i = true
      rw [tget_tset_self]
      simp only [bit, cell, Nat.testBit_or, Bool.or_eq_true]
      exact Or.inl h
    · show bit (tget 0 (tset s.sec.fuses w cell) k) i = true
      rw [tget_tset_ne _ _ _ hw]
      exact h
  clear_value t
  split
  · exact ht.frame rfl rfl rfl rfl rfl rfl rfl rfl
  · extract_lets u
    have hu : Keeps o₀ u := by
      simp only [u]
      split
      · exact ht
      · exact Keeps.alarmWord _ _ ht
    clear_value u
    split
    · exact hu.frame rfl rfl rfl rfl rfl rfl rfl rfl
    · exact hu

theorem Keeps.programFuses {o₀ : State} (s : State) (role slot : Nat) (words : List (Nat × Nat)) (reads : List FuseReads) (hk : Keeps o₀ s) : Keeps o₀ (s.programFuses role slot words reads) := by
  unfold State.programFuses
  repeat' first
    | with_reducible assumption
    | (with_reducible eapply Keeps.fstEq; with_reducible assumption)
    | (with_reducible eapply Keeps.sndEq; with_reducible assumption)
    | (with_reducible eapply Keeps.thdEq; with_reducible assumption)
    | with_reducible apply Keeps.audit
    | with_reducible apply Keeps.respond
    | with_reducible apply Keeps.programWord
    | with_reducible apply Keeps.foldl
    | with_reducible apply Keeps.foldlFst
    | with_reducible apply Keeps.foldlSnd
    | with_reducible apply Keeps.foldlWrote
    | with_reducible apply wf_foldlData
    | with_reducible apply wf_foldlMem
    | (extract_lets +onlyGivenNames x; refine Keeps.cut (p := Keeps o₀ x) ?_ (fun hx => ?_); rotate_left; clear_value x; rotate_left; try subst x)
    | fail_if_no_progress (extract_lets +onlyGivenNames x)
    | split
    | intro _

theorem Keeps.fuseRequest {o₀ : State} (s : State) (f : State → State) (hk : Keeps o₀ s) (hf : ∀ u, Keeps o₀ u → Keeps o₀ (f u)) : Keeps o₀ (s.fuseRequest f) := by
  unfold State.fuseRequest
  repeat' first
    | with_reducible assumption
    | with_reducible apply Keeps.respond
    | with_reducible apply hf
    | split
    | intro _

theorem Keeps.installLink {o₀ : State} (s : State) (mid : Nat) (key : List Nat) (hk : Keeps o₀ s) : Keeps o₀ (s.installLink mid key) := by
  unfold State.installLink
  repeat' first
    | with_reducible assumption
    | (intro _ hw; exact hw)
    | (extract_lets +onlyGivenNames x; refine Keeps.cut (p := Keeps o₀ x) ?_ (fun hx => ?_); rotate_left; clear_value x; rotate_left; try subst x)
    | simp -zeta only [Keeps.lit_iff]
    | fail_if_no_progress (extract_lets +onlyGivenNames x)
    | simp +zetaDelta only [Keeps.lit_iff]
    | (with_reducible apply wf_id; assumption)
    | intro _

theorem Keeps.starterReport {o₀ : State} (s : State) (mid : Nat) (t : LinkTry) (m : Memory) (verified : Bool) (hk : Keeps o₀ s) : Keeps o₀ (s.starterReport mid t m verified) := by
  unfold State.starterReport
  repeat' first
    | with_reducible assumption
    | (with_reducible eapply Keeps.fstEq; with_reducible assumption)
    | (with_reducible eapply Keeps.sndEq; with_reducible assumption)
    | (with_reducible eapply Keeps.thdEq; with_reducible assumption)
    | with_reducible apply Keeps.emit
    | with_reducible apply Keeps.drawBytes
    | with_reducible apply Keeps.sendAdmit
    | with_reducible apply Keeps.installLink
    | (intro _ hw; exact hw)
    | with_reducible apply Gives.none
    | with_reducible apply Gives.some
    | with_reducible apply Gives.bind
    | (with_reducible eapply Gives.ofEq; with_reducible assumption)
    | (extract_lets +onlyGivenNames x; refine Keeps.cut (p := Keeps o₀ x) ?_ (fun hx => ?_); rotate_left; clear_value x; rotate_left; try subst x)
    | simp -zeta only [Keeps.lit_iff]
    | fail_if_no_progress (extract_lets +onlyGivenNames x)
    | simp +zetaDelta only [Keeps.lit_iff]
    | (with_reducible apply wf_id; assumption)
    | split
    | intro _

theorem Keeps.giverReport {o₀ : State} (s : State) (mid : Nat) (t : LinkTry) (m : Memory) (verified : Bool) (hk : Keeps o₀ s) : Keeps o₀ (s.giverReport mid t m verified) := by
  unfold State.giverReport
  repeat' first
    | with_reducible assumption
    | with_reducible apply Keeps.installLink
    | (intro _ hw; exact hw)
    | (extract_lets +onlyGivenNames x; refine Keeps.cut (p := Keeps o₀ x) ?_ (fun hx => ?_); rotate_left; clear_value x; rotate_left; try subst x)
    | simp -zeta only [Keeps.lit_iff]
    | fail_if_no_progress (extract_lets +onlyGivenNames x)
    | simp +zetaDelta only [Keeps.lit_iff]
    | (with_reducible apply wf_id; assumption)
    | split
    | intro _

end Sys2Proof.Machine
end

