-- ==== Sys2Proof/Laws/KeepsRegisters.lean ====
section
/-! SUPPORT. `Keeps` for the operations of Machine/Registers.lean. -/

set_option linter.all false

namespace Sys2Proof.Machine

theorem Keeps.putRoom {o₀ : State} (s : State) (r : Nat) (f : Room → Room) (hk : Keeps o₀ s)
    (hf : ∀ x, Memory.wf x.mem.data = true → Memory.wf (f x).mem.data = true) : Keeps o₀ (s.putRoom r f) := by
  unfold State.putRoom
  split
  · exact Keeps.modRoom _ _ _ hk fun _ hw => hf _ hw
  · exact hk

theorem Keeps.roomCtrl {o₀ : State} (s : State) (fn r v : Nat) (hk : Keeps o₀ s) : Keeps o₀ (s.roomCtrl fn r v) := by
  unfold State.roomCtrl
  repeat' first
    | with_reducible assumption
    | with_reducible apply Keeps.startWrite
    | with_reducible apply Keeps.startTurnover
    | with_reducible apply Keeps.commitWrite
    | split
    | intro _

theorem Keeps.putStaged {o₀ : State} (s : State) (f : Schedule → Schedule) (hk : Keeps o₀ s) : Keeps o₀ (s.putStaged f) := by
  unfold State.putStaged
  repeat' first
    | with_reducible assumption
    | (intro _ hw; exact hw)
    | (extract_lets +onlyGivenNames x; refine Keeps.cut (p := Keeps o₀ x) ?_ (fun hx => ?_); rotate_left; clear_value x; rotate_left; try subst x)
    | simp -zeta only [Keeps.lit_iff]
    | fail_if_no_progress (extract_lets +onlyGivenNames x)
    | simp +zetaDelta only [Keeps.lit_iff]
    | split
    | intro _

theorem Keeps.schedCtrl {o₀ : State} (s : State) (v : Nat) (hk : Keeps o₀ s) : Keeps o₀ (s.schedCtrl v) := by
  unfold State.schedCtrl
  repeat' first
    | with_reducible assumption
    | with_reducible apply Keeps.schedVerdict
    | with_reducible apply Keeps.schedActivate
    | split
    | intro _

theorem Keeps.putTime {o₀ : State} (s : State) (f : Timebase → Timebase) (hk : Keeps o₀ s) : Keeps o₀ (s.putTime f) := by
  unfold State.putTime
  repeat' first
    | with_reducible assumption
    | (intro _ hw; exact hw)
    | (extract_lets +onlyGivenNames x; refine Keeps.cut (p := Keeps o₀ x) ?_ (fun hx => ?_); rotate_left; clear_value x; rotate_left; try subst x)
    | simp -zeta only [Keeps.lit_iff]
    | fail_if_no_progress (extract_lets +onlyGivenNames x)
    | simp +zetaDelta only [Keeps.lit_iff]
    | intro _

theorem Keeps.putPower {o₀ : State} (s : State) (f : Power → Power) (hk : Keeps o₀ s) : Keeps o₀ (s.putPower f) := by
  unfold State.putPower
  repeat' first
    | with_reducible assumption
    | (intro _ hw; exact hw)
    | (extract_lets +onlyGivenNames x; refine Keeps.cut (p := Keeps o₀ x) ?_ (fun hx => ?_); rotate_left; clear_value x; rotate_left; try subst x)
    | simp -zeta only [Keeps.lit_iff]
    | fail_if_no_progress (extract_lets +onlyGivenNames x)
    | simp +zetaDelta only [Keeps.lit_iff]
    | intro _

theorem Keeps.netLock {o₀ : State} (s : State) (hk : Keeps o₀ s) : Keeps o₀ (s.netLock) := by
  unfold State.netLock
  repeat' first
    | with_reducible assumption
    | (intro _ hw; exact hw)
    | (extract_lets +onlyGivenNames x; refine Keeps.cut (p := Keeps o₀ x) ?_ (fun hx => ?_); rotate_left; clear_value x; rotate_left; try subst x)
    | simp -zeta only [Keeps.lit_iff]
    | fail_if_no_progress (extract_lets +onlyGivenNames x)
    | simp +zetaDelta only [Keeps.lit_iff]
    | intro _

theorem Keeps.putProg {o₀ : State} (s : State) (r : Nat) (f : Room → Room) (hk : Keeps o₀ s)
    (hf : ∀ x, Memory.wf x.mem.data = true → Memory.wf (f x).mem.data = true) : Keeps o₀ (s.putProg r f) := by
  unfold State.putProg
  split
  · exact hk
  · exact Keeps.putRoom _ _ _ hk hf

theorem Keeps.ingestSel {o₀ : State} (s : State) (v : Nat) (hk : Keeps o₀ s) : Keeps o₀ (s.ingestSel v) := by
  unfold State.ingestSel
  repeat' first
    | with_reducible assumption
    | (intro _ hw; exact hw)
    | (extract_lets +onlyGivenNames x; refine Keeps.cut (p := Keeps o₀ x) ?_ (fun hx => ?_); rotate_left; clear_value x; rotate_left; try subst x)
    | simp -zeta only [Keeps.lit_iff]
    | fail_if_no_progress (extract_lets +onlyGivenNames x)
    | simp +zetaDelta only [Keeps.lit_iff]
    | intro _

theorem Keeps.promoteHeat {o₀ : State} (s : State) (r v : Nat) (hk : Keeps o₀ s) : Keeps o₀ (s.promoteHeat r v) := by
  unfold State.promoteHeat
  repeat' first
    | with_reducible assumption
    | with_reducible apply Keeps.putRoom
    | (intro _ hw; exact hw)
    | (extract_lets +onlyGivenNames x; refine Keeps.cut (p := Keeps o₀ x) ?_ (fun hx => ?_); rotate_left; clear_value x; rotate_left; try subst x)
    | simp -zeta only [Keeps.lit_iff]
    | fail_if_no_progress (extract_lets +onlyGivenNames x)
    | simp +zetaDelta only [Keeps.lit_iff]
    | split
    | intro _

theorem Keeps.rqCtrl {o₀ : State} (s : State) (r v : Nat) (hk : Keeps o₀ s) : Keeps o₀ (s.rqCtrl r v) := by
  unfold State.rqCtrl
  repeat' first
    | with_reducible assumption
    | (with_reducible eapply Keeps.fstEq; with_reducible assumption)
    | (with_reducible eapply Keeps.sndEq; with_reducible assumption)
    | (with_reducible eapply Keeps.thdEq; with_reducible assumption)
    | with_reducible apply Keeps.draw
    | with_reducible apply Keeps.requestWindow
    | (extract_lets +onlyGivenNames x; refine Keeps.cut (p := Keeps o₀ x) ?_ (fun hx => ?_); rotate_left; clear_value x; rotate_left; try subst x)
    | fail_if_no_progress (extract_lets +onlyGivenNames x)
    | split
    | intro _

theorem Keeps.putMsix {o₀ : State} (s : State) (fn i : Nat) (f : MsixVec → MsixVec) (hk : Keeps o₀ s) : Keeps o₀ (s.putMsix fn i f) := by
  unfold State.putMsix
  repeat' first
    | with_reducible assumption
    | (intro _ hw; exact hw)
    | (extract_lets +onlyGivenNames x; refine Keeps.cut (p := Keeps o₀ x) ?_ (fun hx => ?_); rotate_left; clear_value x; rotate_left; try subst x)
    | simp -zeta only [Keeps.lit_iff]
    | fail_if_no_progress (extract_lets +onlyGivenNames x)
    | simp +zetaDelta only [Keeps.lit_iff]
    | (with_reducible apply wf_id; assumption)
    | intro _

theorem Keeps.readWord {o₀ : State} (s : State) (fn o : Nat) (hk : Keeps o₀ s) : Keeps o₀ (s.readWord fn o).2 := by
  unfold State.readWord
  split
  · exact hk
  · extract_lets b s1 v1 v2
    split
    · have h1 : Keeps o₀ s1 := by
        simp only [s1]
        split
        · exact Keeps.latchNow _ hk
        · exact hk
      clear_value s1 v1
      exact h1.frame rfl rfl rfl rfl rfl rfl rfl rfl
    · exact hk

/-- What a write of a register keeps. -/
def RegDef.Kept (d : RegDef) : Prop := ∀ o s fn i v, Keeps o s → ∀ f, d.put = some f → Keeps o (f s fn i v)

theorem RegDef.kept_none {d : RegDef} (h : d.put = none) : d.Kept := by
  intro _ _ _ _ _ _ f hf
  rw [h] at hf
  cases hf

theorem RegDef.kept_some {d : RegDef} {f : State → Nat → Nat → Nat → State} (h : d.put = some f)
    (hf : ∀ o s fn i v, Keeps o s → Keeps o (f s fn i v)) : d.Kept := by
  intro o s fn i v hk g hg
  rw [h] at hg
  cases hg
  exact hf o s fn i v hk

theorem kept_append {l m : List RegDef} (hl : ∀ d ∈ l, d.Kept) (hm : ∀ d ∈ m, d.Kept) : ∀ d ∈ l ++ m, d.Kept := by
  intro d hd
  rcases List.mem_append.mp hd with h | h
  · exact hl d h
  · exact hm d h

theorem kept_cons {d : RegDef} {l : List RegDef} (hd : d.Kept) (hl : ∀ d ∈ l, d.Kept) : ∀ e ∈ d :: l, e.Kept := by
  intro e he
  rcases List.mem_cons.mp he with h | h
  · exact h ▸ hd
  · exact hl e h

theorem kept_nil : ∀ d ∈ ([] : List RegDef), d.Kept := fun _ h => nomatch h

theorem Keeps.readReg {o₀ : State} (s : State) (fn o n : Nat) (hk : Keeps o₀ s) : Keeps o₀ (s.readReg fn o n) := by
  unfold State.readReg
  repeat' first
    | with_reducible assumption
    | (with_reducible eapply Keeps.fstEq; with_reducible assumption)
    | (with_reducible eapply Keeps.sndEq; with_reducible assumption)
    | (with_reducible eapply Keeps.thdEq; with_reducible assumption)
    | with_reducible apply Keeps.emit
    | with_reducible apply Keeps.badAcc
    | with_reducible apply Keeps.readWord
    | (extract_lets +onlyGivenNames x; refine Keeps.cut (p := Keeps o₀ x) ?_ (fun hx => ?_); rotate_left; clear_value x; rotate_left; try subst x)
    | fail_if_no_progress (extract_lets +onlyGivenNames x)
    | split
    | intro _

theorem kept_roMap (f : Nat → RegDef) (n : Nat) (h : ∀ i, (f i).put = none) : ∀ d ∈ (List.range n).map f, d.Kept := by
  intro d hd
  obtain ⟨i, _, rfl⟩ := List.mem_map.mp hd
  exact RegDef.kept_none (h i)

theorem kept_identRegs : ∀ d ∈ identRegs, d.Kept := by
  unfold identRegs
  repeat (refine kept_cons ?_ ?_; swap)
  · exact kept_nil
  all_goals first
    | exact RegDef.kept_none rfl
    | (refine RegDef.kept_some rfl ?_
       intro o₀ s fn i v hk
       try dsimp only
       repeat' first
         | with_reducible assumption
         | with_reducible apply Keeps.ringtabRestart
         | with_reducible apply Keeps.ringtabSel
         | with_reducible apply Keeps.startWrite
         | with_reducible apply Keeps.commitWrite
         | with_reducible apply Keeps.startTurnover
         | with_reducible apply Keeps.schedActivate
         | with_reducible apply Keeps.schedVerdict
         | with_reducible apply Keeps.putStaged
         | with_reducible apply Keeps.putTime
         | with_reducible apply Keeps.putPower
         | with_reducible apply Keeps.putRoom
         | with_reducible apply Keeps.putProg
         | with_reducible apply Keeps.gateWrite
         | with_reducible apply Keeps.reselect
         | with_reducible apply Keeps.todSet
         | with_reducible apply Keeps.netLock
         | with_reducible apply Keeps.ingestSel
         | with_reducible apply Keeps.promoteHeat
         | with_reducible apply Keeps.rqCtrl
         | with_reducible apply Keeps.putMsix
         | with_reducible apply Keeps.unmask
         | with_reducible apply Keeps.roomCtrl
         | with_reducible apply Keeps.schedCtrl
         | with_reducible apply Keeps.modRoom
         | exact fun _ hw => hw
         | exact fun _ hw => hw
         | exact (Keeps.lit_iff rfl rfl).mpr hk
         | split)

theorem kept_hostRegs : ∀ d ∈ hostRegs, d.Kept := by
  unfold hostRegs
  repeat (refine kept_cons ?_ ?_; swap)
  · exact kept_nil
  all_goals first
    | exact RegDef.kept_none rfl
    | (refine RegDef.kept_some rfl ?_
       intro o₀ s fn i v hk
       try dsimp only
       repeat' first
         | with_reducible assumption
         | with_reducible apply Keeps.ringtabRestart
         | with_reducible apply Keeps.ringtabSel
         | with_reducible apply Keeps.startWrite
         | with_reducible apply Keeps.commitWrite
         | with_reducible apply Keeps.startTurnover
         | with_reducible apply Keeps.schedActivate
         | with_reducible apply Keeps.schedVerdict
         | with_reducible apply Keeps.putStaged
         | with_reducible apply Keeps.putTime
         | with_reducible apply Keeps.putPower
         | with_reducible apply Keeps.putRoom
         | with_reducible apply Keeps.putProg
         | with_reducible apply Keeps.gateWrite
         | with_reducible apply Keeps.reselect
         | with_reducible apply Keeps.todSet
         | with_reducible apply Keeps.netLock
         | with_reducible apply Keeps.ingestSel
         | with_reducible apply Keeps.promoteHeat
         | with_reducible apply Keeps.rqCtrl
         | with_reducible apply Keeps.putMsix
         | with_reducible apply Keeps.unmask
         | with_reducible apply Keeps.roomCtrl
         | with_reducible apply Keeps.schedCtrl
         | with_reducible apply Keeps.modRoom
         | exact fun _ hw => hw
         | exact fun _ hw => hw
         | exact (Keeps.lit_iff rfl rfl).mpr hk
         | split)

theorem kept_ringtabRegs : ∀ d ∈ ringtabRegs, d.Kept := by
  unfold ringtabRegs
  repeat (refine kept_cons ?_ ?_; swap)
  · exact kept_nil
  all_goals first
    | exact RegDef.kept_none rfl
    | (refine RegDef.kept_some rfl ?_
       intro o₀ s fn i v hk
       try dsimp only
       repeat' first
         | with_reducible assumption
         | with_reducible apply Keeps.ringtabRestart
         | with_reducible apply Keeps.ringtabSel
         | with_reducible apply Keeps.startWrite
         | with_reducible apply Keeps.commitWrite
         | with_reducible apply Keeps.startTurnover
         | with_reducible apply Keeps.schedActivate
         | with_reducible apply Keeps.schedVerdict
         | with_reducible apply Keeps.putStaged
         | with_reducible apply Keeps.putTime
         | with_reducible apply Keeps.putPower
         | with_reducible apply Keeps.putRoom
         | with_reducible apply Keeps.putProg
         | with_reducible apply Keeps.gateWrite
         | with_reducible apply Keeps.reselect
         | with_reducible apply Keeps.todSet
         | with_reducible apply Keeps.netLock
         | with_reducible apply Keeps.ingestSel
         | with_reducible apply Keeps.promoteHeat
         | with_reducible apply Keeps.rqCtrl
         | with_reducible apply Keeps.putMsix
         | with_reducible apply Keeps.unmask
         | with_reducible apply Keeps.roomCtrl
         | with_reducible apply Keeps.schedCtrl
         | with_reducible apply Keeps.modRoom
         | exact fun _ hw => hw
         | exact fun _ hw => hw
         | exact (Keeps.lit_iff rfl rfl).mpr hk
         | split)

theorem kept_grantRegs : ∀ d ∈ grantRegs, d.Kept := by
  unfold grantRegs
  repeat (refine kept_cons ?_ ?_; swap)
  · exact kept_nil
  all_goals first
    | exact RegDef.kept_none rfl
    | (refine RegDef.kept_some rfl ?_
       intro o₀ s fn i v hk
       try dsimp only
       repeat' first
         | with_reducible assumption
         | with_reducible apply Keeps.ringtabRestart
         | with_reducible apply Keeps.ringtabSel
         | with_reducible apply Keeps.startWrite
         | with_reducible apply Keeps.commitWrite
         | with_reducible apply Keeps.startTurnover
         | with_reducible apply Keeps.schedActivate
         | with_reducible apply Keeps.schedVerdict
         | with_reducible apply Keeps.putStaged
         | with_reducible apply Keeps.putTime
         | with_reducible apply Keeps.putPower
         | with_reducible apply Keeps.putRoom
         | with_reducible apply Keeps.putProg
         | with_reducible apply Keeps.gateWrite
         | with_reducible apply Keeps.reselect
         | with_reducible apply Keeps.todSet
         | with_reducible apply Keeps.netLock
         | with_reducible apply Keeps.ingestSel
         | with_reducible apply Keeps.promoteHeat
         | with_reducible apply Keeps.rqCtrl
         | with_reducible apply Keeps.putMsix
         | with_reducible apply Keeps.unmask
         | with_reducible apply Keeps.roomCtrl
         | with_reducible apply Keeps.schedCtrl
         | with_reducible apply Keeps.modRoom
         | exact fun _ hw => hw
         | exact fun _ hw => hw
         | exact (Keeps.lit_iff rfl rfl).mpr hk
         | split)

theorem kept_roomRegs : ∀ d ∈ roomRegs, d.Kept := by
  unfold roomRegs
  refine kept_append (kept_append ?_ kept_grantRegs) (kept_cons (RegDef.kept_none rfl) kept_nil)
  repeat (refine kept_cons ?_ ?_; swap)
  · exact kept_nil
  all_goals first
    | exact RegDef.kept_none rfl
    | (refine RegDef.kept_some rfl ?_
       intro o₀ s fn i v hk
       try dsimp only
       repeat' first
         | with_reducible assumption
         | with_reducible apply Keeps.ringtabRestart
         | with_reducible apply Keeps.ringtabSel
         | with_reducible apply Keeps.startWrite
         | with_reducible apply Keeps.commitWrite
         | with_reducible apply Keeps.startTurnover
         | with_reducible apply Keeps.schedActivate
         | with_reducible apply Keeps.schedVerdict
         | with_reducible apply Keeps.putStaged
         | with_reducible apply Keeps.putTime
         | with_reducible apply Keeps.putPower
         | with_reducible apply Keeps.putRoom
         | with_reducible apply Keeps.putProg
         | with_reducible apply Keeps.gateWrite
         | with_reducible apply Keeps.reselect
         | with_reducible apply Keeps.todSet
         | with_reducible apply Keeps.netLock
         | with_reducible apply Keeps.ingestSel
         | with_reducible apply Keeps.promoteHeat
         | with_reducible apply Keeps.rqCtrl
         | with_reducible apply Keeps.putMsix
         | with_reducible apply Keeps.unmask
         | with_reducible apply Keeps.roomCtrl
         | with_reducible apply Keeps.schedCtrl
         | with_reducible apply Keeps.modRoom
         | exact fun _ hw => hw
         | exact fun _ hw => hw
         | exact (Keeps.lit_iff rfl rfl).mpr hk
         | split)

theorem kept_schedRegs : ∀ d ∈ schedRegs, d.Kept := by
  unfold schedRegs
  repeat (refine kept_cons ?_ ?_; swap)
  · exact kept_nil
  all_goals first
    | exact RegDef.kept_none rfl
    | (refine RegDef.kept_some rfl ?_
       intro o₀ s fn i v hk
       try dsimp only
       repeat' first
         | with_reducible assumption
         | with_reducible apply Keeps.ringtabRestart
         | with_reducible apply Keeps.ringtabSel
         | with_reducible apply Keeps.startWrite
         | with_reducible apply Keeps.commitWrite
         | with_reducible apply Keeps.startTurnover
         | with_reducible apply Keeps.schedActivate
         | with_reducible apply Keeps.schedVerdict
         | with_reducible apply Keeps.putStaged
         | with_reducible apply Keeps.putTime
         | with_reducible apply Keeps.putPower
         | with_reducible apply Keeps.putRoom
         | with_reducible apply Keeps.putProg
         | with_reducible apply Keeps.gateWrite
         | with_reducible apply Keeps.reselect
         | with_reducible apply Keeps.todSet
         | with_reducible apply Keeps.netLock
         | with_reducible apply Keeps.ingestSel
         | with_reducible apply Keeps.promoteHeat
         | with_reducible apply Keeps.rqCtrl
         | with_reducible apply Keeps.putMsix
         | with_reducible apply Keeps.unmask
         | with_reducible apply Keeps.roomCtrl
         | with_reducible apply Keeps.schedCtrl
         | with_reducible apply Keeps.modRoom
         | exact fun _ hw => hw
         | exact fun _ hw => hw
         | exact (Keeps.lit_iff rfl rfl).mpr hk
         | split)

theorem kept_timeRegs : ∀ d ∈ timeRegs, d.Kept := by
  unfold timeRegs
  repeat (refine kept_cons ?_ ?_; swap)
  · exact kept_nil
  all_goals first
    | exact RegDef.kept_none rfl
    | (refine RegDef.kept_some rfl ?_
       intro o₀ s fn i v hk
       try dsimp only
       repeat' first
         | with_reducible assumption
         | with_reducible apply Keeps.ringtabRestart
         | with_reducible apply Keeps.ringtabSel
         | with_reducible apply Keeps.startWrite
         | with_reducible apply Keeps.commitWrite
         | with_reducible apply Keeps.startTurnover
         | with_reducible apply Keeps.schedActivate
         | with_reducible apply Keeps.schedVerdict
         | with_reducible apply Keeps.putStaged
         | with_reducible apply Keeps.putTime
         | with_reducible apply Keeps.putPower
         | with_reducible apply Keeps.putRoom
         | with_reducible apply Keeps.putProg
         | with_reducible apply Keeps.gateWrite
         | with_reducible apply Keeps.reselect
         | with_reducible apply Keeps.todSet
         | with_reducible apply Keeps.netLock
         | with_reducible apply Keeps.ingestSel
         | with_reducible apply Keeps.promoteHeat
         | with_reducible apply Keeps.rqCtrl
         | with_reducible apply Keeps.putMsix
         | with_reducible apply Keeps.unmask
         | with_reducible apply Keeps.roomCtrl
         | with_reducible apply Keeps.schedCtrl
         | with_reducible apply Keeps.modRoom
         | exact fun _ hw => hw
         | exact fun _ hw => hw
         | exact (Keeps.lit_iff rfl rfl).mpr hk
         | split)

theorem kept_powerRegs : ∀ d ∈ powerRegs, d.Kept := by
  unfold powerRegs
  repeat (refine kept_cons ?_ ?_; swap)
  · exact kept_nil
  all_goals first
    | exact RegDef.kept_none rfl
    | (refine RegDef.kept_some rfl ?_
       intro o₀ s fn i v hk
       try dsimp only
       repeat' first
         | with_reducible assumption
         | with_reducible apply Keeps.ringtabRestart
         | with_reducible apply Keeps.ringtabSel
         | with_reducible apply Keeps.startWrite
         | with_reducible apply Keeps.commitWrite
         | with_reducible apply Keeps.startTurnover
         | with_reducible apply Keeps.schedActivate
         | with_reducible apply Keeps.schedVerdict
         | with_reducible apply Keeps.putStaged
         | with_reducible apply Keeps.putTime
         | with_reducible apply Keeps.putPower
         | with_reducible apply Keeps.putRoom
         | with_reducible apply Keeps.putProg
         | with_reducible apply Keeps.gateWrite
         | with_reducible apply Keeps.reselect
         | with_reducible apply Keeps.todSet
         | with_reducible apply Keeps.netLock
         | with_reducible apply Keeps.ingestSel
         | with_reducible apply Keeps.promoteHeat
         | with_reducible apply Keeps.rqCtrl
         | with_reducible apply Keeps.putMsix
         | with_reducible apply Keeps.unmask
         | with_reducible apply Keeps.roomCtrl
         | with_reducible apply Keeps.schedCtrl
         | with_reducible apply Keeps.modRoom
         | exact fun _ hw => hw
         | exact fun _ hw => hw
         | exact (Keeps.lit_iff rfl rfl).mpr hk
         | split)

theorem kept_healthRegs : ∀ d ∈ healthRegs, d.Kept := by
  unfold healthRegs
  repeat (refine kept_cons ?_ ?_; swap)
  · exact kept_nil
  all_goals first
    | exact RegDef.kept_none rfl
    | (refine RegDef.kept_some rfl ?_
       intro o₀ s fn i v hk
       try dsimp only
       repeat' first
         | with_reducible assumption
         | with_reducible apply Keeps.ringtabRestart
         | with_reducible apply Keeps.ringtabSel
         | with_reducible apply Keeps.startWrite
         | with_reducible apply Keeps.commitWrite
         | with_reducible apply Keeps.startTurnover
         | with_reducible apply Keeps.schedActivate
         | with_reducible apply Keeps.schedVerdict
         | with_reducible apply Keeps.putStaged
         | with_reducible apply Keeps.putTime
         | with_reducible apply Keeps.putPower
         | with_reducible apply Keeps.putRoom
         | with_reducible apply Keeps.putProg
         | with_reducible apply Keeps.gateWrite
         | with_reducible apply Keeps.reselect
         | with_reducible apply Keeps.todSet
         | with_reducible apply Keeps.netLock
         | with_reducible apply Keeps.ingestSel
         | with_reducible apply Keeps.promoteHeat
         | with_reducible apply Keeps.rqCtrl
         | with_reducible apply Keeps.putMsix
         | with_reducible apply Keeps.unmask
         | with_reducible apply Keeps.roomCtrl
         | with_reducible apply Keeps.schedCtrl
         | with_reducible apply Keeps.modRoom
         | exact fun _ hw => hw
         | exact fun _ hw => hw
         | exact (Keeps.lit_iff rfl rfl).mpr hk
         | split)

theorem kept_netRegs : ∀ d ∈ netRegs, d.Kept := by
  unfold netRegs
  repeat (refine kept_cons ?_ ?_; swap)
  · exact kept_nil
  all_goals first
    | exact RegDef.kept_none rfl
    | (refine RegDef.kept_some rfl ?_
       intro o₀ s fn i v hk
       try dsimp only
       repeat' first
         | with_reducible assumption
         | with_reducible apply Keeps.ringtabRestart
         | with_reducible apply Keeps.ringtabSel
         | with_reducible apply Keeps.startWrite
         | with_reducible apply Keeps.commitWrite
         | with_reducible apply Keeps.startTurnover
         | with_reducible apply Keeps.schedActivate
         | with_reducible apply Keeps.schedVerdict
         | with_reducible apply Keeps.putStaged
         | with_reducible apply Keeps.putTime
         | with_reducible apply Keeps.putPower
         | with_reducible apply Keeps.putRoom
         | with_reducible apply Keeps.putProg
         | with_reducible apply Keeps.gateWrite
         | with_reducible apply Keeps.reselect
         | with_reducible apply Keeps.todSet
         | with_reducible apply Keeps.netLock
         | with_reducible apply Keeps.ingestSel
         | with_reducible apply Keeps.promoteHeat
         | with_reducible apply Keeps.rqCtrl
         | with_reducible apply Keeps.putMsix
         | with_reducible apply Keeps.unmask
         | with_reducible apply Keeps.roomCtrl
         | with_reducible apply Keeps.schedCtrl
         | with_reducible apply Keeps.modRoom
         | exact fun _ hw => hw
         | exact fun _ hw => hw
         | exact (Keeps.lit_iff rfl rfl).mpr hk
         | split)

theorem kept_ingestRegs : ∀ d ∈ ingestRegs, d.Kept := by
  unfold ingestRegs
  repeat (refine kept_cons ?_ ?_; swap)
  · exact kept_nil
  all_goals first
    | exact RegDef.kept_none rfl
    | (refine RegDef.kept_some rfl ?_
       intro o₀ s fn i v hk
       try dsimp only
       repeat' first
         | with_reducible assumption
         | with_reducible apply Keeps.ringtabRestart
         | with_reducible apply Keeps.ringtabSel
         | with_reducible apply Keeps.startWrite
         | with_reducible apply Keeps.commitWrite
         | with_reducible apply Keeps.startTurnover
         | with_reducible apply Keeps.schedActivate
         | with_reducible apply Keeps.schedVerdict
         | with_reducible apply Keeps.putStaged
         | with_reducible apply Keeps.putTime
         | with_reducible apply Keeps.putPower
         | with_reducible apply Keeps.putRoom
         | with_reducible apply Keeps.putProg
         | with_reducible apply Keeps.gateWrite
         | with_reducible apply Keeps.reselect
         | with_reducible apply Keeps.todSet
         | with_reducible apply Keeps.netLock
         | with_reducible apply Keeps.ingestSel
         | with_reducible apply Keeps.promoteHeat
         | with_reducible apply Keeps.rqCtrl
         | with_reducible apply Keeps.putMsix
         | with_reducible apply Keeps.unmask
         | with_reducible apply Keeps.roomCtrl
         | with_reducible apply Keeps.schedCtrl
         | with_reducible apply Keeps.modRoom
         | exact fun _ hw => hw
         | exact fun _ hw => hw
         | exact (Keeps.lit_iff rfl rfl).mpr hk
         | split)

theorem kept_memRegs : ∀ d ∈ memRegs, d.Kept := by
  unfold memRegs
  refine kept_append (kept_append ?_ (kept_roMap _ _ fun _ => rfl)) (kept_roMap _ _ fun _ => rfl)
  repeat (refine kept_cons ?_ ?_; swap)
  · exact kept_nil
  all_goals first
    | exact RegDef.kept_none rfl
    | (refine RegDef.kept_some rfl ?_
       intro o₀ s fn i v hk
       try dsimp only
       repeat' first
         | with_reducible assumption
         | with_reducible apply Keeps.ringtabRestart
         | with_reducible apply Keeps.ringtabSel
         | with_reducible apply Keeps.startWrite
         | with_reducible apply Keeps.commitWrite
         | with_reducible apply Keeps.startTurnover
         | with_reducible apply Keeps.schedActivate
         | with_reducible apply Keeps.schedVerdict
         | with_reducible apply Keeps.putStaged
         | with_reducible apply Keeps.putTime
         | with_reducible apply Keeps.putPower
         | with_reducible apply Keeps.putRoom
         | with_reducible apply Keeps.putProg
         | with_reducible apply Keeps.gateWrite
         | with_reducible apply Keeps.reselect
         | with_reducible apply Keeps.todSet
         | with_reducible apply Keeps.netLock
         | with_reducible apply Keeps.ingestSel
         | with_reducible apply Keeps.promoteHeat
         | with_reducible apply Keeps.rqCtrl
         | with_reducible apply Keeps.putMsix
         | with_reducible apply Keeps.unmask
         | with_reducible apply Keeps.roomCtrl
         | with_reducible apply Keeps.schedCtrl
         | with_reducible apply Keeps.modRoom
         | exact fun _ hw => hw
         | exact fun _ hw => hw
         | exact (Keeps.lit_iff rfl rfl).mpr hk
         | split)

theorem kept_secRegs : ∀ d ∈ secRegs, d.Kept := by
  unfold secRegs
  repeat (refine kept_cons ?_ ?_; swap)
  · exact kept_nil
  all_goals first
    | exact RegDef.kept_none rfl
    | (refine RegDef.kept_some rfl ?_
       intro o₀ s fn i v hk
       try dsimp only
       repeat' first
         | with_reducible assumption
         | with_reducible apply Keeps.ringtabRestart
         | with_reducible apply Keeps.ringtabSel
         | with_reducible apply Keeps.startWrite
         | with_reducible apply Keeps.commitWrite
         | with_reducible apply Keeps.startTurnover
         | with_reducible apply Keeps.schedActivate
         | with_reducible apply Keeps.schedVerdict
         | with_reducible apply Keeps.putStaged
         | with_reducible apply Keeps.putTime
         | with_reducible apply Keeps.putPower
         | with_reducible apply Keeps.putRoom
         | with_reducible apply Keeps.putProg
         | with_reducible apply Keeps.gateWrite
         | with_reducible apply Keeps.reselect
         | with_reducible apply Keeps.todSet
         | with_reducible apply Keeps.netLock
         | with_reducible apply Keeps.ingestSel
         | with_reducible apply Keeps.promoteHeat
         | with_reducible apply Keeps.rqCtrl
         | with_reducible apply Keeps.putMsix
         | with_reducible apply Keeps.unmask
         | with_reducible apply Keeps.roomCtrl
         | with_reducible apply Keeps.schedCtrl
         | with_reducible apply Keeps.modRoom
         | exact fun _ hw => hw
         | exact fun _ hw => hw
         | exact (Keeps.lit_iff rfl rfl).mpr hk
         | split)

theorem kept_stewardRegs : ∀ d ∈ stewardRegs, d.Kept := by
  unfold stewardRegs
  repeat (refine kept_cons ?_ ?_; swap)
  · exact kept_nil
  all_goals first
    | exact RegDef.kept_none rfl
    | (refine RegDef.kept_some rfl ?_
       intro o₀ s fn i v hk
       try dsimp only
       repeat' first
         | with_reducible assumption
         | with_reducible apply Keeps.ringtabRestart
         | with_reducible apply Keeps.ringtabSel
         | with_reducible apply Keeps.startWrite
         | with_reducible apply Keeps.commitWrite
         | with_reducible apply Keeps.startTurnover
         | with_reducible apply Keeps.schedActivate
         | with_reducible apply Keeps.schedVerdict
         | with_reducible apply Keeps.putStaged
         | with_reducible apply Keeps.putTime
         | with_reducible apply Keeps.putPower
         | with_reducible apply Keeps.putRoom
         | with_reducible apply Keeps.putProg
         | with_reducible apply Keeps.gateWrite
         | with_reducible apply Keeps.reselect
         | with_reducible apply Keeps.todSet
         | with_reducible apply Keeps.netLock
         | with_reducible apply Keeps.ingestSel
         | with_reducible apply Keeps.promoteHeat
         | with_reducible apply Keeps.rqCtrl
         | with_reducible apply Keeps.putMsix
         | with_reducible apply Keeps.unmask
         | with_reducible apply Keeps.roomCtrl
         | with_reducible apply Keeps.schedCtrl
         | with_reducible apply Keeps.modRoom
         | exact fun _ hw => hw
         | exact fun _ hw => hw
         | exact (Keeps.lit_iff rfl rfl).mpr hk
         | split)

theorem kept_msixRegs : ∀ d ∈ msixRegs, d.Kept := by
  unfold msixRegs
  repeat (refine kept_cons ?_ ?_; swap)
  · exact kept_nil
  all_goals first
    | exact RegDef.kept_none rfl
    | (refine RegDef.kept_some rfl ?_
       intro o₀ s fn i v hk
       try dsimp only
       repeat' first
         | with_reducible assumption
         | with_reducible apply Keeps.ringtabRestart
         | with_reducible apply Keeps.ringtabSel
         | with_reducible apply Keeps.startWrite
         | with_reducible apply Keeps.commitWrite
         | with_reducible apply Keeps.startTurnover
         | with_reducible apply Keeps.schedActivate
         | with_reducible apply Keeps.schedVerdict
         | with_reducible apply Keeps.putStaged
         | with_reducible apply Keeps.putTime
         | with_reducible apply Keeps.putPower
         | with_reducible apply Keeps.putRoom
         | with_reducible apply Keeps.putProg
         | with_reducible apply Keeps.gateWrite
         | with_reducible apply Keeps.reselect
         | with_reducible apply Keeps.todSet
         | with_reducible apply Keeps.netLock
         | with_reducible apply Keeps.ingestSel
         | with_reducible apply Keeps.promoteHeat
         | with_reducible apply Keeps.rqCtrl
         | with_reducible apply Keeps.putMsix
         | with_reducible apply Keeps.unmask
         | with_reducible apply Keeps.roomCtrl
         | with_reducible apply Keeps.schedCtrl
         | with_reducible apply Keeps.modRoom
         | exact fun _ hw => hw
         | exact fun _ hw => hw
         | exact (Keeps.lit_iff rfl rfl).mpr hk
         | split)

theorem kept_regMap : ∀ d ∈ regMap, d.Kept := by
  unfold regMap
  repeat' first
    | exact kept_identRegs
    | exact kept_hostRegs
    | exact kept_ringtabRegs
    | exact kept_grantRegs
    | exact kept_roomRegs
    | exact kept_schedRegs
    | exact kept_timeRegs
    | exact kept_powerRegs
    | exact kept_healthRegs
    | exact kept_netRegs
    | exact kept_ingestRegs
    | exact kept_memRegs
    | exact kept_secRegs
    | exact kept_stewardRegs
    | exact kept_msixRegs
    | with_reducible apply kept_append

theorem firstSome_mem {α β : Type} {f : α → Option β} {l : List α} {y : β} (h : firstSome f l = some y) : ∃ x ∈ l, f x = some y := by
  induction l with
  | nil => cases h
  | cons x r ih =>
    unfold firstSome at h
    split at h
    · rename_i z hz
      cases h
      exact ⟨x, List.mem_cons_self, hz⟩
    · obtain ⟨x', hx, hy⟩ := ih h
      exact ⟨x', List.mem_cons_of_mem _ hx, hy⟩

theorem regAt_mem {o i : Nat} {d : RegDef} (h : regAt o = some (d, i)) : d ∈ regMap := by
  obtain ⟨e, he, hf⟩ := firstSome_mem h
  simp only [Option.map_eq_some_iff] at hf
  obtain ⟨j, _, hj⟩ := hf
  cases hj
  exact he

theorem Keeps.writeWord {o₀ : State} (s : State) (fn o v : Nat) (hk : Keeps o₀ s) : Keeps o₀ (s.writeWord fn o v) := by
  unfold State.writeWord
  split
  · exact hk
  · rename_i d i hd
    have h := kept_regMap d (regAt_mem hd)
    split
    · exact hk
    · rename_i f hf
      dsimp only
      split
      · exact h _ _ _ _ _ ((Keeps.lit_iff rfl rfl).mpr hk) f hf
      · exact (Keeps.lit_iff rfl rfl).mpr hk

theorem Keeps.writeReg {o₀ : State} (s : State) (fn o n v : Nat) (hk : Keeps o₀ s) : Keeps o₀ (s.writeReg fn o n v) := by
  unfold State.writeReg
  repeat' first
    | with_reducible assumption
    | with_reducible apply Keeps.badAcc
    | with_reducible apply Keeps.writeWord
    | (extract_lets +onlyGivenNames x; refine Keeps.cut (p := Keeps o₀ x) ?_ (fun hx => ?_); rotate_left; clear_value x; rotate_left; try subst x)
    | fail_if_no_progress (extract_lets +onlyGivenNames x)
    | split
    | intro _

theorem Keeps.bmb {o₀ : State} (s : State) (b : List Byte) (hk : Keeps o₀ s) : Keeps o₀ (s.bmb b) := by
  unfold State.bmb
  repeat' first
    | with_reducible assumption
    | with_reducible apply Keeps.emit
    | (intro _ hw; exact hw)
    | (with_reducible apply wf_id; assumption)
    | split
    | intro _

end Sys2Proof.Machine
end

