-- ==== Sys2Proof/Laws/Effects.lean ====
section
/-! SUPPORT. What the shared operations can do, said once: cores, words, completions, rooms, turnovers and functions. -/

namespace Sys2Proof.Machine

open Sys2Proof Sys2Proof.Obl

theorem tset_tset {α : Type} (t : Tbl α) (k : Nat) (v w : α) : tset (tset t k v) k w = tset t k w := by
  induction t with
  | nil => simp [tset]
  | cons p r ih =>
    obtain ⟨j, u⟩ := p
    by_cases h : k < j
    · simp [tset, h]
    · by_cases g : k = j
      · simp [tset, g]
      · simp [tset, h, g, ih]

@[simp] theorem Core.ctx_setCtx_self (c : Core) (r : Nat) (x : Ctx) : (c.setCtx r x).ctx r = some x := by simp [Core.ctx, Core.setCtx]

@[simp] theorem Core.ctx_setCtx_ne (c : Core) {r i : Nat} (x : Ctx) (h : i ≠ r) : (c.setCtx r x).ctx i = c.ctx i := by simp [Core.ctx, Core.setCtx, h]

theorem Core.setCtx_setCtx (c : Core) (r : Nat) (x y : Ctx) : (c.setCtx r x).setCtx r y = c.setCtx r y := by simp [Core.setCtx, tset_tset]

theorem State.modCtx_of {s : State} {core r : Nat} {x : Ctx} (f : Ctx → Ctx) (h : (s.core core).ctx r = some x) :
    s.modCtx core r f = s.setCore core ((s.core core).setCtx r (f x)) := by
  simp [State.modCtx, h, State.modCore]

theorem State.setCore_setCore (s : State) (c : Nat) (x y : Core) : (s.setCore c x).setCore c y = s.setCore c y := by
  simp [State.setCore, tset_tset]

/-- The ledger and the stall counters of rooms apart, the rooms are the same. -/
def SameButLedger (s t : State) : Prop := ∀ r, ∃ g n e, t.room r = { s.room r with ledger := g, stallNs := n, stallEv := e }

theorem SameButLedger.refl (s : State) : SameButLedger s s := fun k => ⟨(s.room k).ledger, (s.room k).stallNs, (s.room k).stallEv, rfl⟩

theorem SameButLedger.trans {s t u : State} (h : SameButLedger s t) (g : SameButLedger t u) : SameButLedger s u := by
  intro r
  obtain ⟨a, b, c, h⟩ := h r
  obtain ⟨d, e, f, g⟩ := g r
  exact ⟨d, e, f, by rw [g, h]⟩

theorem SameButLedger.of_rooms {s t : State} (h : t.rooms = s.rooms) : SameButLedger s t := by
  intro r
  have : t.room r = s.room r := by simp [State.room, h]
  exact this ▸ SameButLedger.refl s r

theorem SameButLedger.modRoom (s : State) (r : Nat) (f : Room → Room)
    (h : ∀ x, ∃ g n e, f x = { x with ledger := g, stallNs := n, stallEv := e }) : SameButLedger s (s.modRoom r f) := by
  intro k
  by_cases e : k = r
  · subst e; simpa using h _
  · simpa [e] using SameButLedger.refl s k

theorem SameButLedger.charge (s : State) (r i n : Nat) : SameButLedger s (s.charge r i n) :=
  .modRoom _ _ _ fun x => ⟨_, x.stallNs, x.stallEv, rfl⟩

theorem Booked.refl (s : State) : Booked s s := ⟨SameButLedger.refl s, rfl⟩

theorem Booked.trans {s t u : State} (h : Booked s t) (g : Booked t u) : Booked s u :=
  ⟨SameButLedger.trans h.1 g.1, by rw [g.2, h.2]⟩

theorem Booked.now {s t : State} (h : Booked s t) : t.now = s.now := by rw [h.2]; rfl

/-- A change of cores alone. -/
theorem Booked.cores {s t : State} (h : t = { s with cores := t.cores }) : Booked s t :=
  ⟨SameButLedger.of_rooms (by rw [h]), by rw [h]⟩

theorem Booked.charge (s : State) (r i n : Nat) : Booked s (s.charge r i n) :=
  ⟨SameButLedger.charge s r i n, by simp [State.charge, State.modLedger, State.modRoom, State.setRoom]⟩

theorem Booked.stall (s : State) (r c n : Nat) : Booked s (s.stall r c n) := by
  unfold State.stall
  split
  · exact Booked.refl s
  · exact ⟨SameButLedger.modRoom _ _ _ fun x => ⟨x.ledger, _, _, rfl⟩, by simp [State.modRoom, State.setRoom]⟩

theorem Booked.spend (s : State) (a r n : Nat) : Booked s (s.spend a r n) := ⟨SameButLedger.of_rooms rfl, rfl⟩

theorem Booked.wakeOn (s : State) (a r : Nat) (l : List Nat) : Booked s (s.wakeOn a r l) := by
  unfold State.wakeOn
  split
  · exact Booked.refl s
  · exact ⟨SameButLedger.of_rooms rfl, rfl⟩

theorem wakeOn_cores (s : State) (a r : Nat) (l : List Nat) : (s.wakeOn a r l).cores = s.cores := by
  unfold State.wakeOn
  split <;> rfl

theorem Booked.chargeCore (s : State) (c r n : Nat) : Booked s (s.chargeCore c r n) := by
  unfold State.chargeCore
  dsimp only
  split
  · exact Booked.charge s r 5 n
  · exact Booked.trans (Booked.charge s r 5 n) (Booked.spend _ _ _ _)

theorem chargeCore_cores (s : State) (c r n : Nat) : (s.chargeCore c r n).cores = s.cores := by
  unfold State.chargeCore
  dsimp only
  split <;> rfl

theorem stall_cores (s : State) (r c n : Nat) : (s.stall r c n).cores = s.cores := by
  unfold State.stall
  split <;> rfl

/-- What accounting and the notes of readiness leave of a core: its store, banks, selection and contexts, the other cores, and all but bookkeeping elsewhere. -/
structure Quiet (core : Nat) (s t : State) : Prop where
  ctx : ∀ r, ctxOn t core r = ctxOn s core r
  store : (t.core core).store = (s.core core).store
  sel : (t.core core).sel = (s.core core).sel
  banks : (t.core core).banks = (s.core core).banks
  awake : (t.core core).awake = (s.core core).awake
  other : ∀ c, c ≠ core → t.core c = s.core c
  booked : Booked s t

theorem Quiet.refl (core : Nat) (s : State) : Quiet core s s := ⟨fun _ => rfl, rfl, rfl, rfl, rfl, fun _ _ => rfl, Booked.refl s⟩

theorem Quiet.trans {core : Nat} {s t u : State} (h : Quiet core s t) (g : Quiet core t u) : Quiet core s u :=
  ⟨fun r => (g.ctx r).trans (h.ctx r), g.store.trans h.store, g.sel.trans h.sel, g.banks.trans h.banks, g.awake.trans h.awake,
    fun c n => (g.other c n).trans (h.other c n), Booked.trans h.booked g.booked⟩

/-- Bookkeeping that touches no core. -/
theorem Quiet.ofBooked {s t : State} (core : Nat) (h : Booked s t) (g : t.cores = s.cores) : Quiet core s t := by
  have e : ∀ c, t.core c = s.core c := fun c => by simp [State.core, g]
  exact ⟨fun r => by simp [ctxOn, e], by rw [e], by rw [e], by rw [e], by rw [e], fun c _ => e c, h⟩

/-- A change of a core's own notes. -/
theorem Quiet.setCore (s : State) (core : Nat) (c : Core) (h1 : c.ctxs = (s.core core).ctxs) (h2 : c.store = (s.core core).store)
    (h3 : c.sel = (s.core core).sel) (h4 : c.banks = (s.core core).banks) (h5 : c.awake = (s.core core).awake) : Quiet core s (s.setCore core c) :=
  ⟨fun r => by simp [ctxOn, Core.ctx, h1], by simp [h2], by simp [h3], by simp [h4], by simp [h5], fun k n => by simp [n], Booked.cores rfl⟩

/-- A change of a context's notes of lateness and readiness. -/
theorem Quiet.modCtx (s : State) (core r : Nat) (f : Ctx → Ctx) (h : ∀ x, plainCtx (f x) = plainCtx x) : Quiet core s (s.modCtx core r f) := by
  unfold State.modCtx
  split
  · exact .refl core s
  · rename_i x hx
    refine ⟨fun q => ?_, by simp [Core.setCtx], by simp [Core.setCtx], by simp [Core.setCtx], by simp [Core.setCtx], fun c n => by simp [n], Booked.cores rfl⟩
    by_cases e : q = r
    · subst e; simp [ctxOn, hx, h]
    · simp [ctxOn, e]

theorem Quiet.ite {core : Nat} {s a b : State} {p : Prop} [Decidable p] (h : Quiet core s a) (g : Quiet core s b) :
    Quiet core s (if p then a else b) := by
  split
  · exact h
  · exact g

theorem Quiet.note (s : State) (core a b : Nat) : Quiet core s (s.setCore core { s.core core with chargedAt := a, usedAt := b }) :=
  .setCore _ _ _ rfl rfl rfl rfl rfl

theorem Quiet.charge (core : Nat) (s : State) (r i n : Nat) : Quiet core s (s.charge r i n) := .ofBooked core (Booked.charge s r i n) rfl

theorem Quiet.chargeCore (core : Nat) (s : State) (c r n : Nat) : Quiet core s (s.chargeCore c r n) :=
  .ofBooked core (Booked.chargeCore _ _ _ _) (chargeCore_cores _ _ _ _)

theorem Quiet.stall (core : Nat) (s : State) (r c n : Nat) : Quiet core s (s.stall r c n) := .ofBooked core (Booked.stall _ _ _ _) (stall_cores _ _ _ _)

theorem Quiet.late (core : Nat) (s : State) (n : Nat) : Quiet core s { s with sched := { s.sched with late := n } } :=
  .ofBooked core ⟨SameButLedger.of_rooms rfl, rfl⟩ rfl

theorem Quiet.account (s : State) (core : Nat) : Quiet core s (s.account core) := by
  unfold State.account
  dsimp only
  generalize ((s.core core).sel.bind fun r => ((s.core core).ctx r).map fun x => (r, x)) = o
  cases o with
  | none => exact .note s core s.now (s.core core).usedAt
  | some o =>
    obtain ⟨r, x⟩ := o
    exact .ite (((Quiet.note s core s.now s.now).trans (.chargeCore core _ _ _ _)).trans (.stall core _ _ _ _)) (.note s core s.now (s.core core).usedAt)

theorem Quiet.slotLate (s : State) (core r : Nat) : Quiet core s (s.slotLate core r) := by
  unfold State.slotLate
  split
  · exact .refl core s
  · split
    · exact .refl core s
    · have h := Quiet.modCtx s core r (fun x => { x with due := none }) fun _ => rfl
      exact .ite ((h.trans (.late core _ _)).trans (.charge core _ _ _ _)) h

theorem Quiet.refreshCtx (s : State) (core r : Nat) : Quiet core s (s.refreshCtx core r) := by
  unfold State.refreshCtx
  split
  · exact .refl core s
  · exact .ite (.modCtx _ _ _ _ fun _ => rfl)
      (.ite (.refl core s) ((Quiet.modCtx s core r (fun x => { x with readyAt := some s.now }) fun _ => rfl).trans
        (.ofBooked core (Booked.wakeOn _ _ _ _) (wakeOn_cores _ _ _ _))))

theorem Quiet.foldl {α : Type} {core : Nat} {f : State → α → State} (h : ∀ s a, Quiet core s (f s a)) (l : List α) (s : State) : Quiet core s (l.foldl f s) := by
  induction l generalizing s with
  | nil => exact .refl core s
  | cons a l ih => exact (h s a).trans (ih _)

theorem Quiet.refresh (s : State) (core : Nat) : Quiet core s (s.refresh core) := Quiet.foldl (fun s r => Quiet.refreshCtx s core r) _ _

theorem Quiet.stand (s : State) (core r : Nat) : Quiet core s ((s.account core).slotLate core r) := (Quiet.account s core).trans (.slotLate _ _ _)

/-- A context that is another up to its notes moves on as the other does. -/
theorem plainCtx_advance (x : Ctx) (k : Nat) : plainCtx (x.advance k) = (plainCtx x).advance k := by
  by_cases h1 : x.inPro = true <;> by_cases h2 : x.pc + k < x.proLen <;> by_cases h3 : x.pc + k < x.bodyLen <;>
    simp [Ctx.advance, plainCtx, h1, h2, h3]

theorem Quiet.ctx_some {core r : Nat} {s t : State} {x : Ctx} (h : Quiet core s t) (hx : (s.core core).ctx r = some x) :
    ∃ y, (t.core core).ctx r = some y ∧ plainCtx y = plainCtx x := by
  have := h.ctx r
  simp only [ctxOn, hx, Option.map_some] at this
  exact Option.map_eq_some_iff.1 this

/-- A word passed: the context moved past it; besides, only accounting. -/
theorem State.passWord_spec {s : State} {core : Nat} {n : Next} (h : (s.core core).ctx n.room = some n.ctx) :
    ∃ u y, Quiet core s u ∧ (u.core core).ctx n.room = some y ∧ plainCtx y = plainCtx n.ctx ∧
      s.passWord core n = u.setCore core ((u.core core).setCtx n.room (y.advance n.len)) := by
  have q := Quiet.stand s core n.room
  obtain ⟨y, hy, hp⟩ := q.ctx_some h
  exact ⟨_, y, q, hy, hp, State.modCtx_of _ hy⟩

theorem nextWord_ctx {s : State} {core : Nat} {n : Next} (h : s.nextWord core = some n) : (s.core core).ctx n.room = some n.ctx := by
  unfold State.nextWord at h
  dsimp only at h
  repeat' split at h
  all_goals cases h
  assumption

theorem nextWord_running {s : State} {core : Nat} {n : Next} (h : s.nextWord core = some n) : (s.room n.room).running = true := by
  unfold State.nextWord at h
  dsimp only at h
  repeat' split at h
  all_goals cases h
  rename_i hc _ _ _ _ _
  simp at hc; exact hc.1.2

theorem latch_words (l : List Nat) (t : Tbl Bank) (k : Nat) :
    (tget Bank.free (l.foldl (fun t k => tmod Bank.free t k fun b => { b with shadow := b.words }) t) k).words = (tget Bank.free t k).words ∧
    (tget Bank.free (l.foldl (fun t k => tmod Bank.free t k fun b => { b with shadow := b.words }) t) k).resident = (tget Bank.free t k).resident ∧
    ((k ∈ l ∨ (tget Bank.free t k).shadow = (tget Bank.free t k).words) → (tget Bank.free (l.foldl (fun t k => tmod Bank.free t k fun b => { b with shadow := b.words }) t) k).shadow = (tget Bank.free t k).words) := by
  induction l generalizing t with
  | nil => simp
  | cons a r ih =>
    simp only [List.foldl_cons]
    have := ih (tmod Bank.free t a fun b => { b with shadow := b.words })
    by_cases h : k = a
    · subst h
      simp at this ⊢
      exact ⟨this.1, this.2.1, this.2.2⟩
    · simp [h] at this ⊢
      exact ⟨this.1, this.2.1, fun g => this.2.2 g⟩

theorem awake_all (n : Nat) (l : List Nat) : ∀ a, (a < n ∨ a ∈ l) → a ∈ (List.range n).foldl (fun l a => if l.contains a then l else a :: l) l := by
  induction n with
  | zero => simp
  | succ n ih =>
    intro a h
    rw [List.range_succ, List.foldl_append]
    simp only [List.foldl_cons, List.foldl_nil]
    split
    · rename_i hc
      by_cases e : a = n
      · subst e; simpa using hc
      · exact ih a (h.imp (fun x => by omega) id)
    · by_cases e : a = n
      · simp [e]
      · exact List.mem_cons_of_mem _ (ih a (h.imp (fun x => by omega) id))

@[simp] theorem Ctx.advance_flights (x : Ctx) (k : Nat) : (x.advance k).flights = x.flights := by
  unfold Ctx.advance; dsimp only; repeat' split
  all_goals rfl

@[simp] theorem Ctx.advance_sync (x : Ctx) (k : Nat) : (x.advance k).sync = x.sync := by
  unfold Ctx.advance; dsimp only; repeat' split
  all_goals rfl

@[simp] theorem Ctx.advance_waitAt (x : Ctx) (k : Nat) : (x.advance k).waitAt = x.waitAt := by
  unfold Ctx.advance; dsimp only; repeat' split
  all_goals rfl

@[simp] theorem Ctx.advance_storeBase (x : Ctx) (k : Nat) : (x.advance k).storeBase = x.storeBase := by
  unfold Ctx.advance; dsimp only; repeat' split
  all_goals rfl

theorem Issued.of_issue {s : State} {core : Nat} {n : Next} (f : Flight) (hx : (s.core core).ctx n.room = some n.ctx) :
    Issued s (s.issue core n f) core n { f with issued := s.now } := by
  obtain ⟨u, y, q, hy, hp, e⟩ := State.passWord_spec hx
  unfold State.issue
  rw [e, State.modCtx_of (x := y.advance n.len) _ (by simp)]
  simp only [State.setCore_core, State.setCore_setCore, Core.setCtx_setCtx]
  generalize hw : u.setCore core _ = w
  have q' := Quiet.refresh w core
  have hb : Booked s w := hw ▸ Booked.trans q.booked (Booked.cores rfl)
  refine ⟨?_, rfl, ?_, ?_, fun k => ?_, fun r hr => ?_, fun c hc => ?_, Booked.trans hb q'.booked⟩
  · rw [q'.ctx, ← hw]
    have h1 := congrArg Ctx.flights hp
    have h2 : plainCtx (y.advance n.len) = plainCtx (n.ctx.advance n.len) := by rw [plainCtx_advance, plainCtx_advance, hp]
    simp only [ctxOn, State.setCore_core, Core.ctx_setCtx_self, Option.map_some, Option.some.injEq, Ctx.advance_flights]
    simp only [plainCtx] at h1
    rw [h1]
    exact congrArg (fun x : Ctx => { x with flights := n.ctx.flights ++ [{ f with issued := s.now }] }) h2
  · rw [q'.store, ← hw]; simpa [Core.setCtx] using q.store
  · rw [q'.sel, ← hw]; simpa [Core.setCtx] using q.sel
  · rw [q'.banks, ← hw]; simp [Core.setCtx, q.banks]
  · rw [q'.ctx, ← q.ctx r, ← hw]; simp [ctxOn, hr]
  · rw [q'.other c hc, ← q.other c hc, ← hw]; simp [hc]

theorem Issued.of_modCore {s : State} {core : Nat} {n : Next} (g : Core → Core) (f : Flight) (hx : (s.core core).ctx n.room = some n.ctx)
    (h1 : (g (s.core core)).store = (s.core core).store) (h2 : (g (s.core core)).ctxs = (s.core core).ctxs) (h3 : (g (s.core core)).sel = (s.core core).sel)
    (h4 : ∀ k, (tget Bank.free (g (s.core core)).banks k).words = (tget Bank.free (s.core core).banks k).words ∧
      (tget Bank.free (g (s.core core)).banks k).resident = (tget Bank.free (s.core core).banks k).resident) :
    Issued s ((s.modCore core g).issue core n f) core n { f with issued := s.now } := by
  have hx' : ((s.modCore core g).core core).ctx n.room = some n.ctx := by simpa [State.modCore, Core.ctx, h2] using hx
  obtain ⟨a, b, c, d, e, i, j, k⟩ := Issued.of_issue f hx'
  refine ⟨a, b, by rw [c]; simpa [State.modCore] using h1, by rw [d]; simpa [State.modCore] using h3, fun q => ?_, fun r hr => ?_, fun q hq => ?_,
    Booked.trans (Booked.cores rfl) k⟩
  · have := e q; rw [this.1, this.2]; simpa [State.modCore] using h4 q
  · rw [i r hr]; simp [ctxOn, State.modCore, Core.ctx, h2]
  · rw [j q hq]; simp [State.modCore, hq]

theorem issue_core0 {s : State} {core : Nat} {n : Next} (f : Flight) (hx : (s.core core).ctx n.room = some n.ctx) :
    ((s.issue core n f).core core).banks = (s.core core).banks ∧ ((s.issue core n f).core core).awake = (s.core core).awake := by
  obtain ⟨u, y, q, hy, hp, e⟩ := State.passWord_spec hx
  unfold State.issue
  rw [e, State.modCtx_of (x := y.advance n.len) _ (by simp)]
  constructor
  · rw [(Quiet.refresh _ core).banks]; simp [Core.setCtx, q.banks]
  · rw [(Quiet.refresh _ core).awake]; simp [Core.setCtx, q.awake]

theorem issue_core {s : State} {core : Nat} {n : Next} (g : Core → Core) (f : Flight) (hx : (s.core core).ctx n.room = some n.ctx) (h2 : (g (s.core core)).ctxs = (s.core core).ctxs) :
    (((s.modCore core g).issue core n f).core core).banks = (g (s.core core)).banks ∧ (((s.modCore core g).issue core n f).core core).awake = (g (s.core core)).awake := by
  have hx' : ((s.modCore core g).core core).ctx n.room = some n.ctx := by simpa [State.modCore, Core.ctx, h2] using hx
  have := issue_core0 f hx'
  simpa [State.modCore] using this

theorem takeFlight_oldest {p : Flight → Bool} {l a b : List Flight} {f : Flight} (h : Sys2Proof.Obl.OldestOf p l a f b) : takeFlight p l = some (f, a ++ b) := by
  obtain ⟨rfl, hp, ha⟩ := h
  induction a with
  | nil => simp [takeFlight, hp]
  | cons g a ih =>
    have := ih (fun g hg => ha g (List.mem_cons_of_mem _ hg))
    simp [takeFlight, ha g (by simp), this]

theorem storeWrites {s : State} {core r : Nat} {x : Ctx} (l : List (Nat × List Byte)) (hx : (s.core core).ctx r = some x) :
    l.foldl (fun s w => s.storeWrite core r w.1 w.2) s = s.setCore core { s.core core with store := l.foldl (fun m w => memWriteN m (x.storeBase + w.1) w.2) (s.core core).store } ∨ l = [] := by
  induction l generalizing s with
  | nil => exact Or.inr rfl
  | cons w l ih =>
    left
    simp only [List.foldl_cons]
    have h1 : s.storeWrite core r w.1 w.2 = s.setCore core { s.core core with store := memWriteN (s.core core).store (x.storeBase + w.1) w.2 } := by
      simp [State.storeWrite, hx, State.modCore]
    rw [h1]
    rcases ih (s := s.setCore core { s.core core with store := memWriteN (s.core core).store (x.storeBase + w.1) w.2 }) (by simpa [Core.ctx] using hx) with h | h
    · rw [h]; simp [State.setCore_setCore]
    · subst h; simp

/-- The core after a tile's delivery. -/
def delivered (c : Core) (base : Nat) (f : Flight) : Core :=
  Core.mark { c with
    store := f.out.writes.foldl (fun m w => memWriteN m (base + w.1) w.2) c.store
    banks := f.out.banks.foldl (fun t w => tmod Bank.free t w.1.1 fun b => { b with words := tset b.words w.1.2 w.2 }) c.banks } f.marks

/-- What a completed tile changes: this core's store and banks, and the unit's counters. -/
theorem deliver_spec {s : State} {core r : Nat} {x : Ctx} (f : Flight) (hx : (s.core core).ctx r = some x) :
    s.deliver core r f = (((s.setCore core (delivered (s.core core) x.storeBase f)).count (s.physUnit core) 5 f.out.accSat).count (s.physUnit core) 6 f.out.cvtSat).count (s.physUnit core) 7 f.out.nanDrop := by
  unfold State.deliver
  dsimp only
  rcases storeWrites f.out.writes hx with h | h
  · rw [h]
    simp [State.modCore, State.setCore_setCore, delivered, State.physUnit]
  · simp [h, State.modCore, State.setCore_setCore, delivered, State.physUnit]

theorem sendMsix_spec (s : State) (f v : Nat) : ∃ m o, s.sendMsix f v = { s with msix := m, out := o } := by
  unfold State.sendMsix; dsimp only; split
  · exact ⟨_, s.out, rfl⟩
  · exact ⟨s.msix, _, rfl⟩

@[simp] theorem completionBytes_length (i r : Nat) (v p : Bool) (a b c d e : Nat) : (completionBytes i r v p a b c d e).length = 16 := by
  simp [completionBytes, leBytes]

/-- What writing completion records may change: rings, host memory, messages, and two bits of a room's status. -/
structure Posts (s t : State) : Prop where
  rooms : ∀ r, ∃ n p, t.room r = { s.room r with refused := n, postErr := p }
  rest : t = { s with rings := t.rings, rooms := t.rooms, host := t.host, msix := t.msix, out := t.out }

theorem Posts.refl (s : State) : Posts s s := ⟨fun r => ⟨(s.room r).refused, (s.room r).postErr, rfl⟩, rfl⟩

theorem Posts.trans {s t u : State} (h : Posts s t) (g : Posts t u) : Posts s u := by
  refine ⟨fun r => ?_, ?_⟩
  · obtain ⟨n, p, e⟩ := h.rooms r
    obtain ⟨m, q, f⟩ := g.rooms r
    exact ⟨m, q, by rw [f, e]⟩
  · rw [g.rest, h.rest]

theorem Posts.of {s t : State} (h1 : t.rooms = s.rooms) (h2 : t = { s with rings := t.rings, host := t.host, msix := t.msix, out := t.out }) : Posts s t := by
  refine ⟨fun r => ⟨(s.room r).refused, (s.room r).postErr, ?_⟩, ?_⟩
  · simp [State.room, h1]
  · rw [h2]

theorem Posts.setRing (s : State) (q : Nat) (x : Ring) : Posts s (s.setRing q x) := Posts.of rfl rfl

theorem Posts.sendMsix (s : State) (f v : Nat) : Posts s (s.sendMsix f v) := by
  obtain ⟨m, o, h⟩ := sendMsix_spec s f v
  rw [h]; exact Posts.of rfl rfl

theorem Posts.hostPut (s : State) (a : Nat) (b : List Byte) : Posts s (s.hostPut a b) := Posts.of rfl rfl

theorem Posts.modRoom (s : State) (r : Nat) (f : Room → Room) (h : ∀ x, ∃ n p, f x = { x with refused := n, postErr := p }) : Posts s (s.modRoom r f) := by
  refine ⟨fun k => ?_, by simp [State.modRoom, State.setRoom]⟩
  by_cases e : k = r
  · subst e; simpa [State.modRoom] using h _
  · exact ⟨(s.room k).refused, (s.room k).postErr, by simp [State.modRoom, e]⟩

theorem Posts.writeRecord (s : State) (cq : Nat) (h : Held) : Posts s (s.writeRecord cq h) := by
  unfold State.writeRecord; dsimp only
  split
  · refine Posts.trans ?_ (Posts.sendMsix _ _ _)
    exact Posts.trans (Posts.setRing s cq _) (Posts.trans (Posts.modRoom _ _ _ fun x => ⟨x.refused + 1, x.postErr, rfl⟩) (Posts.modRoom _ _ _ fun x => ⟨x.refused, true, rfl⟩))
  · split
    · exact ((Posts.hostPut s _ _).trans (Posts.setRing _ _ _)).trans (Posts.sendMsix _ _ _)
    · exact (Posts.hostPut s _ _).trans (Posts.setRing _ _ _)

theorem Posts.postHeld (s : State) (cq : Nat) (h : Held) : Posts s (s.postHeld cq h) := by
  unfold State.postHeld; dsimp only
  split
  · exact Posts.refl s
  · split
    · exact Posts.setRing _ _ _
    · exact Posts.writeRecord _ _ _

theorem Posts.complete (s : State) (ring seq a b c d e : Nat) : Posts s (s.complete ring seq a b c d e) := by
  unfold State.complete; dsimp only
  split
  · exact Posts.refl s
  · exact (Posts.setRing _ _ _).trans (Posts.postHeld _ _ _)

theorem Posts.foldl {α : Type} (f : State → α → State) (h : ∀ s a, Posts s (f s a)) (l : List α) (s : State) : Posts s (l.foldl f s) := by
  induction l generalizing s with
  | nil => exact Posts.refl s
  | cons a l ih => exact (h s a).trans (ih _)

theorem Posts.finish (s : State) (l : List Done) : Posts s (s.finish l) := Posts.foldl _ (fun _ _ => Posts.complete _ _ _ _ _ _ _ _) _ _

theorem passRooms_spec (s : State) (k : Nat) : s.passRooms k = { s with stewards := (s.passRooms k).stewards, rings := (s.passRooms k).rings } := by
  unfold State.passRooms
  dsimp only
  split
  · rfl
  · split
    · rfl
    · split <;> rfl

/-- The health records in their order, written or waiting. -/
theorem flushHealth_log (s : State) : s.flushHealth.health.held.reverse ++ s.flushHealth.health.records = s.health.held.reverse ++ s.health.records := by
  cases h : s.dutyServed <;> simp [State.flushHealth, h]

theorem passDevice_spec (s : State) :
    s.passDevice = { s with stewards := s.passDevice.stewards, health := s.passDevice.health } ∧
    s.passDevice.health.held.reverse ++ s.passDevice.health.records = s.health.held.reverse ++ s.health.records := by
  unfold State.passDevice
  dsimp only
  generalize (if (s.pair 2).st = 3 then 3 else 2) = q
  split
  · exact ⟨rfl, rfl⟩
  · exact ⟨rfl, flushHealth_log _⟩

theorem passDuties_spec (s : State) :
    s.passDuties = { s with stewards := s.passDuties.stewards, rings := s.passDuties.rings, health := s.passDuties.health } ∧
    s.passDuties.health.held.reverse ++ s.passDuties.health.records = s.health.held.reverse ++ s.health.records := by
  unfold State.passDuties
  have h : ∀ (l : List Nat) (s : State), l.foldl State.passRooms s = { s with stewards := (l.foldl State.passRooms s).stewards, rings := (l.foldl State.passRooms s).rings } := by
    intro l
    induction l with
    | nil => intro s; rfl
    | cons k l ih => intro s; rw [List.foldl_cons, ih, passRooms_spec]
  have h := h [0, 1, 2, 3] s
  generalize [0, 1, 2, 3].foldl State.passRooms s = u at *
  obtain ⟨e, g⟩ := passDevice_spec u
  refine ⟨?_, ?_⟩
  · rw [e, h]
  · rw [g, h]

theorem tget_tmap {α : Type} (d : α) (t : Tbl α) (f : Nat → α → α) (k : Nat) (h : f k d = d) : tget d (tmap t f) k = f k (tget d t k) := by
  have : ∀ t : Tbl α, tfind (tmap t f) k = (tfind t k).map (f k) := by
    intro t
    induction t with
    | nil => rfl
    | cons p r ih =>
      obtain ⟨j, v⟩ := p
      by_cases e : j = k
      · subst e; simp [tmap, tfind]
      · simp only [tmap, List.map_cons, tfind, e, if_false]; exact ih
  unfold tget
  rw [this]
  cases tfind t k with
  | none => simp [h]
  | some v => rfl

theorem account_core (s : State) (k c : Nat) : ∃ a b, (s.account k).core c = { s.core c with chargedAt := a, usedAt := b } := by
  by_cases hc : c = k
  · subst hc
    unfold State.account
    dsimp only
    generalize ((s.core c).sel.bind fun r => ((s.core c).ctx r).map fun x => (r, x)) = o
    cases o with
    | none => exact ⟨s.now, (s.core c).usedAt, by simp⟩
    | some o =>
      obtain ⟨r, x⟩ := o
      dsimp only
      split
      · refine ⟨s.now, s.now, ?_⟩
        simp [State.core, stall_cores, chargeCore_cores, State.setCore]
      · exact ⟨s.now, (s.core c).usedAt, by simp⟩
  · exact ⟨(s.core c).chargedAt, (s.core c).usedAt, (Quiet.account s k).other c hc⟩

theorem accounts_core (l : List Nat) (s : State) (c : Nat) : ∃ a b, (l.foldl State.account s).core c = { s.core c with chargedAt := a, usedAt := b } := by
  induction l generalizing s with
  | nil => exact ⟨_, _, rfl⟩
  | cons k l ih =>
    obtain ⟨a, b, h⟩ := ih (s.account k)
    obtain ⟨d, e, g⟩ := account_core s k c
    exact ⟨a, b, by rw [List.foldl_cons, h, g]⟩

theorem accounts_booked (l : List Nat) (s : State) : Booked s (l.foldl State.account s) := by
  induction l generalizing s with
  | nil => exact Booked.refl s
  | cons k l ih => exact Booked.trans (Quiet.account s k).booked (ih _)

theorem freeCores_core (s : State) (r c : Nat) : ∃ a b, (s.freeCores r).core c = { s.core c with
      ctxs := tdel (s.core c).ctxs r, sel := if (s.core c).sel = some r then none else (s.core c).sel,
      banks := if (s.core c).sel = some r then [] else (s.core c).banks, chargedAt := a, usedAt := b } := by
  obtain ⟨a, b, h⟩ := accounts_core ((s.cores.filter fun c => c.2.sel = some r).map (·.1)) s c
  refine ⟨a, b, ?_⟩
  unfold State.freeCores
  have e := tget_tmap Core.reset (s.accountRoom r).cores (fun _ c => { c with
    ctxs := tdel c.ctxs r
    sel := if c.sel = some r then none else c.sel
    banks := if c.sel = some r then [] else c.banks }) c (by simp [Core.reset, tdel])
  refine e.trans ?_
  simp only [State.core] at h ⊢
  rw [State.accountRoom, h]
  by_cases hs : (tget Core.reset s.cores c).sel = some r <;> simp [hs]

theorem freeCores_booked (s : State) (r : Nat) : Booked s (s.freeCores r) := Booked.trans (accounts_booked _ s) (Booked.cores rfl)

/-- A change of the schedule's waiters, made or not, and then of one room: the cores, the health records and every other room stay. -/
theorem modRoom_of_sched (s : State) (c : Bool) (x : Sched) (r : Nat) (f : Room → Room) (hf : ∀ x, (f x).fault = x.fault) :
    ((if c = true then { s with sched := x } else s).modRoom r f).cores = s.cores ∧ ((if c = true then { s with sched := x } else s).modRoom r f).health = s.health ∧
    (((if c = true then { s with sched := x } else s).modRoom r f).room r).fault = (s.room r).fault ∧
    ∀ q, q ≠ r → ((if c = true then { s with sched := x } else s).modRoom r f).room q = s.room q := by
  cases c
  · refine ⟨rfl, rfl, ?_, fun q hq => ?_⟩ <;> simp [State.modRoom, *]
  · refine ⟨rfl, rfl, ?_, fun q hq => ?_⟩
    · simp only [if_true, State.modRoom, State.setRoom_room, hf]; rfl
    · simp only [if_true, State.modRoom, State.setRoom_room_ne _ _ hq]; rfl

/-- The waiters of an ended incarnation dropped: its room's plans and mode changes, and a schedule that it paced. -/
theorem dropWaiters_spec (s : State) (room : Nat) : (s.dropWaiters room).cores = s.cores ∧ (s.dropWaiters room).health = s.health ∧
    ((s.dropWaiters room).room room).fault = (s.room room).fault ∧ ∀ r, r ≠ room → (s.dropWaiters room).room r = s.room r :=
  modRoom_of_sched s _ _ room _ fun _ => rfl

theorem parts_of_duties {s t : State} {a : Stewards} {b : Tbl Ring} {c : Health} (h : t = { s with stewards := a, rings := b, health := c }) :
    t.rooms = s.rooms ∧ t.cores = s.cores := by
  subst h
  exact ⟨rfl, rfl⟩

theorem passDuties_rooms (s : State) : s.passDuties.rooms = s.rooms := (parts_of_duties (passDuties_spec s).1).1
theorem passDuties_cores (s : State) : s.passDuties.cores = s.cores := (parts_of_duties (passDuties_spec s).1).2
theorem passDuties_room (s : State) (r : Nat) : s.passDuties.room r = s.room r := by unfold State.room; rw [passDuties_rooms]
theorem passDuties_core (s : State) (c : Nat) : s.passDuties.core c = s.core c := by unfold State.core; rw [passDuties_cores]

/-- The end of an incarnation: its room free, its cores idle, the other rooms' jobs and the fault and health records as they were. -/
theorem endJob_spec {s : State} {room : Nat} {j : Job} (status detail : Nat) (done : List Done) (last : Option Nat) (h : (s.room room).job = some j) :
    ((s.endJob room status detail done last).room room).job = none ∧
    ((s.endJob room status detail done last).room room).fault = (s.room room).fault ∧
    (∀ r, r ≠ room → ((s.endJob room status detail done last).room r).job = (s.room r).job) ∧
    (∀ c, ((s.endJob room status detail done last).core c).sel ≠ some room) ∧
    (s.endJob room status detail done last).health.held.reverse ++ (s.endJob room status detail done last).health.records =
      s.health.held.reverse ++ s.health.records := by
  unfold State.endJob
  rw [h]
  dsimp only
  have c1 : ∀ c, ((s.freeCores room).core c).sel ≠ some room := by
    intro c
    obtain ⟨a, b, e⟩ := freeCores_core s room c
    rw [e]
    dsimp only
    split <;> simp_all
  have r1 : ∀ r, ((s.freeCores room).room r).job = (s.room r).job ∧ ((s.freeCores room).room r).fault = (s.room r).fault := by
    intro r
    obtain ⟨g, n, e, h⟩ := (freeCores_booked s room).1 r
    rw [h]
    exact ⟨rfl, rfl⟩
  have g1 : (s.freeCores room).health = s.health := by rw [(freeCores_booked s room).2]
  generalize s.freeCores room = v at *
  have c2 : (v.cutEngines room).cores = v.cores := rfl
  have g2 : (v.cutEngines room).health = v.health := rfl
  have r2 : ((v.cutEngines room).room room).fault = (v.room room).fault := by simp [State.cutEngines, State.modRoom, State.room, State.setRoom]
  have r3 : ∀ r, r ≠ room → (v.cutEngines room).room r = v.room r := by intro r hr; simp [State.cutEngines, State.modRoom, State.room, State.setRoom, hr]
  generalize v.cutEngines room = w at *
  have h2 : ∃ x : State, x = (if status = stOk then w else w.cutSnap room) ∧ x.cores = w.cores ∧ x.health = w.health ∧ (x.room room).fault = (w.room room).fault ∧ ∀ r, r ≠ room → x.room r = w.room r := by
    refine ⟨_, rfl, ?_⟩
    split
    · exact ⟨rfl, rfl, rfl, fun _ _ => rfl⟩
    · refine ⟨rfl, rfl, ?_, fun r hr => ?_⟩
      · simp [State.cutSnap, State.modMem, State.modRoom]
      · simp [State.cutSnap, State.modMem, State.modRoom, hr]
  obtain ⟨x, hx, x1, x2, x3, x4⟩ := h2
  rw [← hx]
  clear hx
  obtain ⟨w1, w2, w3, w4⟩ := dropWaiters_spec x room
  generalize x.dropWaiters room = x' at *
  generalize hy : (x'.modRoom room fun x => { x with
      job := none
      mem := { x.mem with pinned := [] } }) = y
  have y1 : (y.room room).job = none ∧ (y.room room).fault = (x'.room room).fault := by rw [← hy]; simp [State.modRoom]
  have y2 : ∀ r, r ≠ room → y.room r = x'.room r := by intro r hr; rw [← hy]; simp [State.modRoom, hr]
  have y3 : y.cores = x'.cores ∧ y.health = x'.health := by rw [← hy]; exact ⟨rfl, rfl⟩
  clear hy
  generalize hz : (y.finish (done ++ (s.orphans room).filter fun d => !(done.any fun e => e.ring = d.ring && e.seq = d.seq))).complete j.ring j.seq status detail (last.getD 0xFFFFFFFF) j.incarn 0 = z
  have hp : Posts y z := by rw [← hz]; exact (Posts.finish y _).trans (Posts.complete _ _ _ _ _ _ _ _)
  have zc : z.cores = y.cores ∧ z.health = y.health := by rw [hp.rest]; exact ⟨rfl, rfl⟩
  have zr : ∀ r, (z.room r).job = (y.room r).job ∧ (z.room r).fault = (y.room r).fault := by
    intro r; obtain ⟨n, p, e⟩ := hp.rooms r; rw [e]; exact ⟨rfl, rfl⟩
  clear hz hp
  obtain ⟨hq, ql⟩ := passDuties_spec z
  have qr := passDuties_room z
  have qc := passDuties_core z
  refine ⟨?_, ?_, ?_, ?_, ?_⟩
  · rw [qr, (zr room).1, y1.1]
  · rw [qr, (zr room).2, y1.2, w3, x3, r2, (r1 room).2]
  · intro r hr; rw [qr, (zr r).1, y2 r hr, w4 r hr, x4 r hr, r3 r hr, (r1 r).1]
  · intro c
    have : z.passDuties.core c = v.core c := by rw [qc]; simp [State.core, zc.1, y3.1, w1, x1, c2]
    rw [this]; exact c1 c
  · rw [ql, zc.2, y3.2, w2, x2, g2, g1]

theorem healthRecord_room (s : State) (a b c d e r : Nat) : (s.healthRecord a b c d e).room r = s.room r := rfl

/-- A health record joins the records, written or waiting. -/
theorem healthRecord_log (s : State) (a b c d e : Nat) :
    (s.healthRecord a b c d e).health.held.reverse ++ (s.healthRecord a b c d e).health.records = ⟨s.now, a, b, c, d, e⟩ :: (s.health.held.reverse ++ s.health.records) := by
  unfold State.healthRecord
  rw [flushHealth_log]
  simp

theorem scrub_room (s : State) (room : Nat) :
    ((s.scrub room).room room).st = (s.room room).st ∧ ((s.scrub room).room room).turn = (s.room room).turn.map (fun t => { t with phase := 3 }) ∧
    ((s.scrub room).room room).sems = [] ∧ ((s.scrub room).room room).forest = none ∧ ((s.scrub room).room room).kernels = [] ∧
    ((s.scrub room).room room).prog = [] ∧ ((s.scrub room).room room).mem.promoteHeat = 64 ∧ ((s.scrub room).room room).mem.promoteNext = 64 ∧
    ((s.scrub room).room room).drainForced = (s.room room).drainForced ∧
    ∀ r, r ≠ room → (s.scrub room).room r = s.room r := by
  unfold State.scrub; dsimp only
  refine ⟨?_, ?_, ?_, ?_, ?_, ?_, ?_, ?_, ?_, fun r h => ?_⟩ <;> simp [State.modRoom] <;> try rfl
  simp [h]; rfl

theorem scrub_health (s : State) (room : Nat) : (s.scrub room).health = s.health := rfl

theorem audit_rooms (s : State) (a b c d e : Nat) (l : List Byte) : (s.audit a b c d e l).rooms = s.rooms := by
  unfold State.audit; dsimp only; split <;> rfl

theorem endDebug_rooms (s : State) (r : Nat) : (s.endDebug r).rooms = s.rooms := by
  unfold State.endDebug; split
  · split
    · rw [audit_rooms]
    · rfl
  · rfl

theorem modRoom_self (s : State) (r : Nat) (f : Room → Room) : (s.modRoom r f).room r = f (s.room r) := by simp [State.modRoom]

theorem modRoom_ne (s : State) {r q : Nat} (f : Room → Room) (h : q ≠ r) : (s.modRoom r f).room q = s.room q := by simp [State.modRoom, h]

theorem room_of_rooms {s t : State} (h : s.rooms = t.rooms) (r : Nat) : s.room r = t.room r := by unfold State.room; rw [h]

theorem cutEngines_ne (s : State) {r q : Nat} (h : q ≠ r) : (s.cutEngines r).room q = s.room q := by
  unfold State.cutEngines; simp [State.room, State.modRoom, State.setRoom, h]

theorem cutEngines_grant (s : State) (r q : Nat) : ((s.cutEngines r).room q).grant = (s.room q).grant := by
  by_cases e : q = r
  · subst e; unfold State.cutEngines; simp [State.room, State.modRoom, State.setRoom]
  · rw [cutEngines_ne s e]

theorem cutSnap_grant (s : State) (r q : Nat) : ((s.cutSnap r).room q).grant = (s.room q).grant := by
  unfold State.cutSnap State.modMem
  by_cases e : q = r
  · subst e; rw [modRoom_self]
  · rw [modRoom_ne _ _ e]

/-- A room as its turnover begins. -/
def Room.cut (x : Room) (t : Turn) : Room := { x with
  st := .turnover
  turn := some t
  drainForced := false
  job := none
  modes := []
  plans := []
  sec := { x.sec with consent := none } }

/-- The cut of a room in three parts: what keeps every room's state word, the room's own change, and what follows it. -/
theorem cutHere_parts (s : State) (room : Nat) (rel dis note : Bool) : ∃ v l, Aside s v ∧
    s.cutHere room rel dis note = (((v.modRoom room fun x => x.cut ⟨v.now, 1, rel, dis⟩).endDebug room).finish l).passDuties := by
  unfold State.cutHere
  dsimp only
  refine ⟨_, _, ?_, rfl⟩
  refine Aside.cutMoves _ _ (Aside.cutSnap _ _ (Aside.cutEngines _ _ (Aside.stopCores _ _ (Aside.leaveJob _ _ (Aside.dropRings _ _ ?_)))))
  have h : Aside s (if note = true then s.postInit room 0 (s.room room).ringBase stRoomTurnover 0 0 0 else s) := by
    split
    · exact Aside.postInit _ _ _ _ _ _ _ _ (Aside.refl s)
    · exact Aside.refl s
  generalize (if note = true then s.postInit room 0 (s.room room).ringBase stRoomTurnover 0 0 0 else s) = u at h
  split
  · exact ⟨h.module, h.reset, h.time, h.vfs, h.rooms⟩
  · exact h

/-- The cut of a room, before duties are taken over: its state word, its turnover and what it drops. -/
theorem cutHere_room_self (s : State) (room : Nat) (rel dis note : Bool) :
    ((s.cutHere room rel dis note).room room).st = .turnover ∧ ((s.cutHere room rel dis note).room room).turn = some ⟨s.time.now, 1, rel, dis⟩ ∧
    ((s.cutHere room rel dis note).room room).job = none ∧ ((s.cutHere room rel dis note).room room).modes = [] ∧
    ((s.cutHere room rel dis note).room room).plans = [] ∧ ((s.cutHere room rel dis note).room room).sec.consent = none ∧
    ((s.cutHere room rel dis note).room room).grant = (s.room room).grant := by
  obtain ⟨v, l, h, e⟩ := cutHere_parts s room rel dis note
  obtain ⟨a, b, ha⟩ := (Posts.finish ((v.modRoom room fun x => x.cut ⟨v.now, 1, rel, dis⟩).endDebug room) l).rooms room
  rw [room_of_rooms (endDebug_rooms _ _), modRoom_self] at ha
  have ht : v.now = s.time.now := congrArg Timebase.now h.time
  rw [e, passDuties_room, ha]
  exact ⟨rfl, by rw [ht]; rfl, rfl, rfl, rfl, rfl, (h.rooms room).2.2.1⟩

theorem Aside.afterCut {s : State} (v : State) (room : Nat) (f : Room → Room) (l : List Done) (h : Aside s (v.modRoom room f)) :
    Aside s (((v.modRoom room f).endDebug room).finish l).passDuties := Aside.passDuties _ (Aside.finish _ _ (Aside.endDebug _ _ h))

/-- The whole cut of a room: its state word, its turnover and what stays of it. -/
theorem cutRoom_room_self (s : State) (room : Nat) (rel dis note : Bool) :
    ((s.cutRoom room rel dis note).room room).st = .turnover ∧ ((s.cutRoom room rel dis note).room room).turn = some ⟨s.time.now, 1, rel, dis⟩ ∧
    ((s.cutRoom room rel dis note).room room).sec.consent = none ∧ ((s.cutRoom room rel dis note).room room).grant = (s.room room).grant := by
  have h := cutHere_room_self s room rel dis note
  have g := (Aside.takeOver (s.cutHere room rel dis note) (Aside.refl _)).rooms room
  unfold State.cutRoom
  exact ⟨g.1.trans h.1, g.2.1.trans h.2.1, g.2.2.2.trans h.2.2.2.2.2.1, g.2.2.1.trans h.2.2.2.2.2.2⟩

/-- What a cut keeps beside the room cut: the module, the clock, the functions, and every other room's state word, turnover and grant. -/
theorem cutRoom_rest (s : State) (room : Nat) (rel dis note : Bool) :
    (s.cutRoom room rel dis note).module = s.module ∧ (s.cutRoom room rel dis note).power.lastReset = s.power.lastReset ∧
    (s.cutRoom room rel dis note).time = s.time ∧ (s.cutRoom room rel dis note).vfEnable = s.vfEnable ∧ (s.cutRoom room rel dis note).numVfs = s.numVfs ∧
    ∀ q, q ≠ room → ((s.cutRoom room rel dis note).room q).st = (s.room q).st := by
  obtain ⟨v, l, h, e⟩ := cutHere_parts s room rel dis note
  have g := Aside.takeOver (s.cutHere room rel dis note) (Aside.refl _)
  have k := Aside.afterCut v room (fun x => x.cut ⟨v.now, 1, rel, dis⟩) l (Aside.refl _)
  rw [← e] at k
  have i := k.trans g
  unfold State.cutRoom
  refine ⟨i.module.trans h.module, i.reset.trans h.reset, i.time.trans h.time, i.vfs.1.trans h.vfs.1, i.vfs.2.trans h.vfs.2, fun q hq => ?_⟩
  rw [(i.rooms q).1, modRoom_ne _ _ hq]
  exact (h.rooms q).1

theorem zeroFrames_same (s : State) (r : Nat) : (s.zeroFrames r).rooms = s.rooms ∧ (s.zeroFrames r).time = s.time ∧ (s.zeroFrames r).sched = s.sched := by
  unfold State.zeroFrames
  generalize s.sites = l
  have : ∀ (l : List Nat) (u : State) (g : State → Nat → State), (∀ v k, (g v k).rooms = v.rooms ∧ (g v k).time = v.time ∧ (g v k).sched = v.sched) →
      (l.foldl g u).rooms = u.rooms ∧ (l.foldl g u).time = u.time ∧ (l.foldl g u).sched = u.sched := by
    intro l
    induction l with
    | nil => intro u g _; exact ⟨rfl, rfl, rfl⟩
    | cons a l ih =>
      intro u g hg
      obtain ⟨a1, a2, a3⟩ := ih (g u a) g hg
      obtain ⟨b1, b2, b3⟩ := hg u a
      exact ⟨a1.trans b1, a2.trans b2, a3.trans b3⟩
  exact this l s _ fun v k => ⟨rfl, rfl, rfl⟩

theorem endTurnover_room (s : State) (room : Nat) (u : Turn) (hd : u.disable = false) :
    ((s.endTurnover room u).room room).mem = RoomMem.reset ∧ ((s.endTurnover room u).room room).turn = none ∧ ((s.endTurnover room u).room room).fault = none ∧
    ((s.endTurnover room u).room room).seed = none ∧ ((s.endTurnover room u).room room).turnNs = s.time.now - u.start ∧
    (u.release = true → ((s.endTurnover room u).room room).st = .vacant ∧ ((s.endTurnover room u).room room).grant = Grant.reset room) ∧
    (u.release = false → ((s.endTurnover room u).room room).st = .committed ∧ ((s.endTurnover room u).room room).grant = (s.room room).grant ∧
      ((s.endTurnover room u).room room).sec.cellarKey ≠ none) := by
  unfold State.endTurnover; dsimp only
  obtain ⟨z1, z2, z3⟩ := zeroFrames_same s room
  have hnow : (s.zeroFrames room).now = s.time.now := by simp [State.now, z2]
  have hroom : (s.zeroFrames room).room room = s.room room := room_of_rooms z1 room
  cases hr : u.release with
  | true =>
    rw [if_pos (by simp [hd])]
    rw [modRoom_self]
    refine ⟨?_, ?_, ?_, ?_, ?_, fun _ => ⟨by simp [hd], rfl⟩, by simp⟩ <;> (simp [State.room, State.modRoom]; try rfl)
    simp [State.now, z2]
  | false =>
    rw [if_neg (by simp [hd])]
    unfold State.newRoomKeys State.draw; dsimp only
    split
    all_goals
      simp only [modRoom_self]
      refine ⟨?_, ?_, ?_, ?_, ?_, by simp, fun _ => ⟨?_, ?_, ?_⟩⟩ <;> simp [State.room, State.modRoom, State.now, z1, z2]

/-- What a turnover keeps: the module, the cause of the last reset, the clock, and the shape of every room's state but the one turned over. -/
def Calm (s t : State) : Prop := t.module = s.module ∧ t.power.lastReset = s.power.lastReset ∧ t.time = s.time ∧ t.vfEnable = s.vfEnable ∧ t.numVfs = s.numVfs

theorem Calm.refl (s : State) : Calm s s := ⟨rfl, rfl, rfl, rfl, rfl⟩

theorem Calm.trans {s t u : State} (h : Calm s t) (g : Calm t u) : Calm s u :=
  ⟨g.1.trans h.1, g.2.1.trans h.2.1, g.2.2.1.trans h.2.2.1, g.2.2.2.1.trans h.2.2.2.1, g.2.2.2.2.trans h.2.2.2.2⟩

theorem Calm.posts {s t : State} (h : Posts s t) : Calm s t := by rw [h.rest]; exact ⟨rfl, rfl, rfl, rfl, rfl⟩

theorem Calm.foldl {α : Type} (f : State → α → State) (h : ∀ s a, Calm s (f s a)) (l : List α) (s : State) : Calm s (l.foldl f s) := by
  induction l generalizing s with
  | nil => exact Calm.refl s
  | cons a l ih => exact (h s a).trans (ih _)

theorem Calm.audit (s : State) (a b c d e : Nat) (l : List Byte) : Calm s (s.audit a b c d e l) := by
  unfold State.audit; dsimp only; split <;> exact ⟨rfl, rfl, rfl, rfl, rfl⟩

theorem Calm.endDebug (s : State) (r : Nat) : Calm s (s.endDebug r) := by
  unfold State.endDebug; split
  · split
    · exact Calm.trans ⟨rfl, rfl, rfl, rfl, rfl⟩ (Calm.audit _ _ _ _ _ _ _)
    · exact Calm.refl s
  · exact Calm.refl s

theorem Calm.modRoom (s : State) (r : Nat) (f : Room → Room) : Calm s (s.modRoom r f) := ⟨rfl, rfl, rfl, rfl, rfl⟩

theorem Calm.cutEngines (s : State) (r : Nat) : Calm s (s.cutEngines r) := ⟨rfl, rfl, rfl, rfl, rfl⟩



theorem Calm.dropRings (s : State) (r : Nat) : Calm s (s.dropRings r) := ⟨rfl, rfl, rfl, rfl, rfl⟩

theorem Calm.cutRoom (s : State) (r : Nat) (rel dis note : Bool) : Calm s (s.cutRoom r rel dis note) := by
  obtain ⟨h1, h2, h3, h4, h5, -⟩ := cutRoom_rest s r rel dis note
  exact ⟨h1, h2, h3, h4, h5⟩

theorem Calm.startTurnover (s : State) (r : Nat) (rel dis note : Bool) : Calm s (s.startTurnover r rel dis note) := by
  unfold State.startTurnover; dsimp only; split
  · exact Calm.cutRoom _ _ _ _ _
  · exact ⟨rfl, rfl, rfl, rfl, rfl⟩
  · exact Calm.refl s

theorem startTurnover_st (s : State) (r : Nat) (rel dis note : Bool) :
    ((s.startTurnover r rel dis note).room r).st = if (s.room r).st = .committed then .turnover else (s.room r).st := by
  unfold State.startTurnover; dsimp only
  cases h : (s.room r).st with
  | committed => simpa using (cutRoom_room_self s r rel dis note).1
  | turnover => dsimp only; rw [modRoom_self]; simp [h]
  | vacant => simp [h]
  | absent => simp [h]

theorem startTurnover_ne (s : State) {r q : Nat} (rel dis note : Bool) (hq : q ≠ r) : ((s.startTurnover r rel dis note).room q).st = (s.room q).st := by
  unfold State.startTurnover; dsimp only
  cases h : (s.room r).st with
  | committed => exact (cutRoom_rest s r rel dis note).2.2.2.2.2 q hq
  | turnover => dsimp only; rw [modRoom_ne _ _ hq]
  | vacant => rfl
  | absent => rfl

def disabledSt : RoomSt → RoomSt
  | .committed => .turnover
  | .turnover => .turnover
  | .vacant => .absent
  | .absent => .absent

theorem disableRoom_st (s : State) (r : Nat) : ((s.disableRoom r).room r).st = disabledSt (s.room r).st := by
  unfold State.disableRoom; dsimp only
  cases h : (s.room r).st with
  | vacant => simp only []; rw [modRoom_self]; rfl
  | absent => simp only []; rw [h]; rfl
  | committed => simp only []; rw [startTurnover_st, h]; rfl
  | turnover => simp only []; rw [startTurnover_st, h]; rfl

theorem disableRoom_ne (s : State) {r q : Nat} (hq : q ≠ r) : ((s.disableRoom r).room q).st = (s.room q).st := by
  unfold State.disableRoom; dsimp only
  cases h : (s.room r).st with
  | vacant => simp only []; rw [modRoom_ne _ _ hq]
  | absent => rfl
  | committed => exact startTurnover_ne s _ _ _ hq
  | turnover => exact startTurnover_ne s _ _ _ hq

theorem enableRoom_st (s : State) (r : Nat) : ((s.enableRoom r).room r).st = if (s.room r).st = .absent then .vacant else (s.room r).st := by
  unfold State.enableRoom; split
  · rw [modRoom_self]
  · rfl

theorem enableRoom_ne (s : State) {r q : Nat} (hq : q ≠ r) : (s.enableRoom r).room q = s.room q := by
  unfold State.enableRoom; split
  · rw [modRoom_ne _ _ hq]
  · rfl

theorem Calm.disableRoom (s : State) (r : Nat) : Calm s (s.disableRoom r) := by
  unfold State.disableRoom; dsimp only
  split
  · exact ⟨rfl, rfl, rfl, rfl, rfl⟩
  · exact Calm.refl s
  · exact Calm.startTurnover _ _ _ _ _

theorem Calm.enableRoom (s : State) (r : Nat) : Calm s (s.enableRoom r) := by
  unfold State.enableRoom; split <;> exact ⟨rfl, rfl, rfl, rfl, rfl⟩

/-- The states of the rooms after VF Enable and NumVFs take new values. -/
theorem setVfs_fold (en : Bool) (num : Nat) (l : List Nat) (hl : l.Nodup) (s : State) (q : Nat) :
    ((l.foldl (fun s r => if (en && decide (r ≤ num)) = true then s.enableRoom r else s.disableRoom r) s).room q).st =
      if q ∈ l then (if en = true ∧ q ≤ num then (if (s.room q).st = .absent then .vacant else (s.room q).st) else disabledSt (s.room q).st) else (s.room q).st := by
  induction l generalizing s with
  | nil => simp
  | cons a l ih =>
    rw [List.foldl_cons, ih (List.nodup_cons.mp hl).2]
    have ha := (List.nodup_cons.mp hl).1
    by_cases e : q = a
    · subst e
      simp only [ha, List.mem_cons, true_or, if_true, if_false, Bool.and_eq_true, decide_eq_true_eq]
      split
      · rw [enableRoom_st]
      · rw [disableRoom_st]
    · have hst : ((if (en && decide (a ≤ num)) = true then s.enableRoom a else s.disableRoom a).room q).st = (s.room q).st := by
        split
        · rw [enableRoom_ne _ e]
        · exact disableRoom_ne s e
      rw [hst]; simp [e]

theorem setVfs_st (s : State) (en : Bool) (num : Nat) (h : num ≤ 63) (q : Nat) : ((s.setVfs en num).room q).st =
      if 1 ≤ q ∧ q ≤ 63 then (if en = true ∧ q ≤ num then (if (s.room q).st = .absent then .vacant else (s.room q).st) else disabledSt (s.room q).st) else (s.room q).st := by
  unfold State.setVfs; dsimp only
  have hm : Nat.min num 63 = num := Nat.min_eq_left h
  rw [hm, setVfs_fold en num (span 1 63) (by decide)]
  have : (q ∈ span 1 63) ↔ (1 ≤ q ∧ q ≤ 63) := by
    simp only [span, List.mem_map, List.mem_range]
    exact ⟨fun ⟨a, h1, h2⟩ => by omega, fun h => ⟨q - 1, by omega, by omega⟩⟩
  simp only [this]; rfl

theorem setVfs_calm (s : State) (en : Bool) (num : Nat) : Calm { s with vfEnable := en, numVfs := Nat.min num 63 } (s.setVfs en num) := by
  unfold State.setVfs; dsimp only
  apply Calm.foldl
  intro u r; split
  · exact Calm.enableRoom _ _
  · exact Calm.disableRoom _ _

theorem resetFunctions_rooms (l : List Nat) (s : State) : (l.foldl (fun s r => s.resetFunction r) s).rooms = s.rooms ∧ Calm s (l.foldl (fun s r => s.resetFunction r) s) := by
  induction l generalizing s with
  | nil => exact ⟨rfl, Calm.refl s⟩
  | cons a l ih => exact ⟨(ih _).1, Calm.trans (t := s.resetFunction a) ⟨rfl, rfl, rfl, rfl, rfl⟩ (ih _).2⟩

/-- The states of the rooms after a reset of the physical function. -/
theorem flr0_spec (s : State) : Calm { s with vfEnable := false, numVfs := 0 } (s.flr 0) ∧
    ∀ r, r ≤ 63 → ((s.flr 0).room r).st = if r = 0 then (if (s.room 0).st = .committed then .turnover else (s.room 0).st) else disabledSt (s.room r).st := by
  unfold State.flr; rw [if_pos rfl]; dsimp only
  have hr := resetFunctions_rooms (List.range 64) (s.setVfs false 0)
  refine ⟨Calm.trans (Calm.trans (setVfs_calm s false 0) hr.2) (Calm.startTurnover _ _ _ _ _), fun r h => ?_⟩
  by_cases e : r = 0
  · subst e; rw [startTurnover_st, room_of_rooms hr.1, setVfs_st s false 0 (by omega)]; simp
  · have h2 := startTurnover_ne ((List.range 64).foldl (fun s r => s.resetFunction r) (s.setVfs false 0)) (r := 0) (q := r) false false false e
    have h3 : (((List.range 64).foldl (fun s r => s.resetFunction r) (s.setVfs false 0)).room r).st = ((s.setVfs false 0).room r).st := by rw [room_of_rooms hr.1]
    generalize (List.range 64).foldl (fun s r => s.resetFunction r) (s.setVfs false 0) = v at h2 h3
    rw [h2, h3, if_neg e, setVfs_st s false 0 (by omega), if_pos (by omega), if_neg (by simp)]

theorem tfind_tfilter_of {α : Type} (t : Tbl α) (q : Nat → α → Bool) (k : Nat) (h : ∀ v, q k v = true) : tfind (tfilter t q) k = tfind t k := by
  induction t with
  | nil => rfl
  | cons p r ih =>
    obtain ⟨j, v⟩ := p
    by_cases e : j = k
    · subst e; simp [tfilter, tfind, h]
    · unfold tfilter; rw [List.filter_cons]
      split
      · simp only [tfind, e, if_false]; exact ih
      · simp only [tfind, e, if_false]; exact ih

theorem tget_tfilter_of {α : Type} (d : α) (t : Tbl α) (q : Nat → α → Bool) (k : Nat) (h : ∀ v, q k v = true) : tget d (tfilter t q) k = tget d t k := by
  unfold tget; rw [tfind_tfilter_of t q k h]

theorem core_of_cores {s t : State} (h : s.cores = t.cores) (k : Nat) : s.core k = t.core k := by unfold State.core; rw [h]

theorem sumNat_append (l m : List Nat) : sumNat (l ++ m) = sumNat l + sumNat m := by
  have : ∀ (l : List Nat) a, l.foldl (· + ·) a = a + l.foldl (· + ·) 0 := by
    intro l; induction l with
    | nil => intro a; rfl
    | cons x l ih => intro a; rw [List.foldl_cons, List.foldl_cons, ih, ih (0 + x)]; omega
  unfold sumNat; rw [List.foldl_append, this m]

theorem bitsWhere_succ (n : Nat) (p : Nat → Bool) : bitsWhere (n + 1) p = bitsWhere n p + (if p n then 2 ^ n else 0) := by
  unfold bitsWhere; rw [List.range_succ, List.map_append, sumNat_append]; simp [sumNat]

theorem bitsWhere_lt (n : Nat) (p : Nat → Bool) : bitsWhere n p < 2 ^ n := by
  induction n with
  | zero => simp [bitsWhere, sumNat]
  | succ n ih => rw [bitsWhere_succ, Nat.pow_succ]; split <;> omega

/-- A word made of bits has the bits it is made of. -/
theorem bit_bitsWhere (n : Nat) (p : Nat → Bool) (i : Nat) (h : i < n) : bit (bitsWhere n p) i = p i := by
  induction n with
  | zero => omega
  | succ n ih =>
    rw [bitsWhere_succ]
    have hlt := bitsWhere_lt n p
    unfold bit at ih ⊢
    by_cases e : i = n
    · subst e
      cases hp : p i with
      | true => simp only [if_true]; rw [Nat.add_comm, Nat.testBit_two_pow_add_eq, Nat.testBit_lt_two_pow hlt]; rfl
      | false => simpa using Nat.testBit_lt_two_pow hlt
    · have hi : i < n := by omega
      split
      · rw [Nat.add_comm, Nat.testBit_two_pow_add_gt hi]; exact ih hi
      · exact ih hi

theorem bit_or (a b i : Nat) : bit (a ||| b) i = (bit a i || bit b i) := by simp [bit]

theorem denyLocked_spec (s : State) (c : Nat) (l : List Nat) : s.denyLocked c l = { s with sec := (s.denyLocked c l).sec } := by
  unfold State.denyLocked
  generalize l = l
  induction l generalizing s with
  | nil => rfl
  | cons a l ih =>
    rw [List.foldl_cons]; dsimp only
    split
    · rw [ih]
    · rw [ih]; unfold State.audit; dsimp only; split <;> rfl

theorem gateDenied_spec (s : State) (c n old value held locked : Nat) (f : Nat → Nat) : ∃ x, s.gateDenied c n old value held locked f =
    { s with
      sec := x
      power := { s.power with gateIgnored := s.power.gateIgnored + Sys2Proof.Obl.ignoredBits n old value held } } := by
  unfold State.gateDenied; dsimp only
  exact ⟨_, denyLocked_spec _ _ _⟩

/-- Of a room only its page table changes. -/
def OnlyPages (s t : State) : Prop :=
  (∀ r, ∃ p, t.room r = { s.room r with mem := { (s.room r).mem with pages := p } }) ∧ t = { s with rooms := t.rooms }

theorem OnlyPages.refl (s : State) : OnlyPages s s := ⟨fun r => ⟨(s.room r).mem.pages, rfl⟩, rfl⟩

theorem OnlyPages.trans {s t u : State} (h : OnlyPages s t) (g : OnlyPages t u) : OnlyPages s u := by
  refine ⟨fun r => ?_, by rw [g.2, h.2]⟩
  obtain ⟨p, hp⟩ := h.1 r
  obtain ⟨q, hq⟩ := g.1 r
  exact ⟨q, by rw [hq, hp]⟩

theorem OnlyPages.setPage (s : State) (r v : Nat) (p : Page) : OnlyPages s (s.setPage r v p) := by
  refine ⟨fun q => ?_, by simp [State.setPage, State.modMem, State.modRoom, State.setRoom]⟩
  by_cases e : q = r
  · subst e; exact ⟨tset (s.room q).mem.pages v p, by simp only [State.setPage, State.modMem, modRoom_self]⟩
  · exact ⟨(s.room q).mem.pages, by simp only [State.setPage, State.modMem, modRoom_ne _ _ e]⟩

theorem OnlyPages.consider (s : State) (r : Nat) (c : Nat × Page) : OnlyPages s (s.consider r c) := by
  unfold State.consider; dsimp only
  split
  · split
    · exact OnlyPages.setPage _ _ _ _
    · split
      · exact OnlyPages.refl s
      · split
        · exact OnlyPages.refl s
        · split
          · exact (OnlyPages.setPage _ _ _ _).trans (OnlyPages.setPage _ _ _ _)
          · exact OnlyPages.refl s
  · exact OnlyPages.refl s

theorem OnlyPages.foldl {α : Type} (f : State → α → State) (h : ∀ s a, OnlyPages s (f s a)) (l : List α) (s : State) : OnlyPages s (l.foldl f s) := by
  induction l generalizing s with
  | nil => exact OnlyPages.refl s
  | cons a l ih => exact (h s a).trans (ih _)

/-- The candidates of an epoch considered: only page tables change. -/
theorem epoch_pages (s : State) : OnlyPages s (allRooms.foldl (fun s r => [0, 1].foldl (fun s h => ((s.room r).mem.candidates h).foldl (fun s c => s.consider r c) s) s) s) :=
  OnlyPages.foldl _ (fun s r => OnlyPages.foldl _ (fun s _ => OnlyPages.foldl _ (fun s c => OnlyPages.consider s r c) _ s) _ s) _ s

theorem audit_spec (s : State) (a b c d e : Nat) (l : List Byte) : ∃ x n k, s.audit a b c d e l = { s with sec := { s.sec with log := x, nextSeq := n, logLost := k } } := by
  unfold State.audit; dsimp only; split
  · exact ⟨s.sec.log, s.sec.nextSeq, _, rfl⟩
  · exact ⟨_, _, s.sec.logLost, rfl⟩

theorem endDebug_spec (s : State) (r : Nat) : ∃ x n k d, s.endDebug r = { s with sec := { s.sec with log := x, nextSeq := n, logLost := k, debug := d } } := by
  unfold State.endDebug; split
  · split
    · obtain ⟨x, n, k, h⟩ := audit_spec { s with sec := { s.sec with debug := none } } 0x0C 0 0 r 0 (leBytes 4 (by assumption : Nat))
      exact ⟨_, _, _, none, h⟩
    · exact ⟨s.sec.log, s.sec.nextSeq, s.sec.logLost, s.sec.debug, rfl⟩
  · exact ⟨s.sec.log, s.sec.nextSeq, s.sec.logLost, s.sec.debug, rfl⟩

theorem closeDebug_spec (s : State) : ∃ x n k, s.closeDebug = { s with sec := { s.sec with log := x, nextSeq := n, logLost := k, debug := none } } := by
  unfold State.closeDebug; split
  · rename_i rs scope h
    obtain ⟨x, n, k, h⟩ := audit_spec { s with sec := { s.sec with debug := none } } 0x0C 0 0 (rs.headD 0xFFFF) 0 (leBytes 4 scope ++ leBytes 2 (rs.headD 0xFFFF))
    exact ⟨_, _, _, h⟩
  · rename_i h; exact ⟨s.sec.log, s.sec.nextSeq, s.sec.logLost, by rw [← h]⟩

theorem endConsent_spec (s : State) (r : Nat) : ∃ x n k d, s.endConsent r = { s.modRoom r (fun y => { y with sec := { y.sec with consent := none } }) with
    sec := { s.sec with log := x, nextSeq := n, logLost := k, debug := d } } ∨ ((s.room r).sec.consent = none ∧ s.endConsent r = s) := by
  unfold State.endConsent; split
  · rename_i h; exact ⟨s.sec.log, s.sec.nextSeq, s.sec.logLost, s.sec.debug, Or.inr ⟨h, rfl⟩⟩
  · rename_i c h
    obtain ⟨x, n, k, h1⟩ := audit_spec (s.modRoom r fun x => { x with sec := { x.sec with consent := none } }) 0x0B 0 0 r 0 (sha384 (toBytes c.2.2.2) ++ leBytes 4 c.2.1)
    dsimp only; rw [h1]
    obtain ⟨x', n', k', d', h2⟩ := endDebug_spec { s.modRoom r (fun x => { x with sec := { x.sec with consent := none } }) with sec := { s.sec with log := x, nextSeq := n, logLost := k } } r
    exact ⟨x', n', k', d', Or.inl h2⟩

/-- A consent ended: the room without it, and the records of it. -/
theorem endConsent_room (s : State) (r : Nat) : ((s.endConsent r).room r = { s.room r with sec := { (s.room r).sec with consent := none } }) ∧
    ∃ x n k d y, s.endConsent r = { s with rooms := y, sec := { s.sec with log := x, nextSeq := n, logLost := k, debug := d } } := by
  obtain ⟨x, n, k, d, h | ⟨h1, h2⟩⟩ := endConsent_spec s r
  · rw [h]; exact ⟨by simp [State.room, State.modRoom], x, n, k, d, _, rfl⟩
  · rw [h2]; exact ⟨by rw [← h1], s.sec.log, s.sec.nextSeq, s.sec.logLost, s.sec.debug, s.rooms, rfl⟩

theorem requestWindow_spec (s : State) (room cmd : Nat) (v : Bool) (h0 : cmd ≠ 0) (h5 : cmd ≤ 5) (hr : room < 64) (hp : (s.room room).phase ≠ 3)
    (hh : s.hostOk 0 (s.room room).sec.rqAddr (cmdBytes cmd) false = true) (h1 : cmd ≠ 1) :
    s.requestWindow 0 room cmd v = (s.tenantCmd room cmd (Sys2Proof.Obl.windowBody s room cmd) v).2.2.modRoom room fun x => { x with
      sec := Sys2Proof.Obl.windowDone x.sec (s.tenantCmd room cmd (Sys2Proof.Obl.windowBody s room cmd) v).1 } := by
  have hc : ¬ (64 ≤ room ∨ cmd = 0 ∨ 5 < cmd ∨ (s.room room).phase = 3) := by simp [hp]; omega
  unfold State.requestWindow; dsimp only
  rw [if_neg (show ¬ ((0 : Nat) ≠ 0) by simp), if_neg hc, if_neg (by simp [hh])]
  unfold Sys2Proof.Obl.windowBody
  rw [if_pos (Or.inl h1)]; rfl

theorem drawBytes_spec (s : State) (n : Nat) : (s.drawBytes n).2 = { s with fresh := (s.drawBytes n).2.fresh } := rfl

theorem freshReport_spec (s : State) (r : Option Nat) (a b : List Nat) : ∃ f, (s.freshReport r a b).2 = { s with fresh := f } := ⟨_, drawBytes_spec s 48⟩

theorem requestWindow_attest (s : State) (room : Nat) (hr : room < 64) (hp : (s.room room).phase ≠ 3) (hst : (s.room room).st = .committed) (hc : (s.room room).sec.conf = true)
    (hh : s.hostOk 0 (s.room room).sec.rqAddr 48 false = true) (h2 : s.hostOk 0 ((s.room room).sec.rqAddr + 64) (768 + s.chain.length) true = true) :
    ∃ f, s.requestWindow 0 room 1 false = ((({ s with fresh := f }.hostPut ((s.room room).sec.rqAddr + 64) (s.freshReport (some room) ((Sys2Proof.Obl.windowBody s room 1).take 48) (s.importPub room)).1).hostPut
        ((s.room room).sec.rqAddr + 768) (leBytes 4 s.chain.length)).hostPut ((s.room room).sec.rqAddr + 832) s.chain).modRoom room fun x => { x with
      sec := Sys2Proof.Obl.windowDone x.sec 0 } := by
  have hcc : ¬ (64 ≤ room ∨ (1 : Nat) = 0 ∨ 5 < 1 ∨ (s.room room).phase = 3) := by simp [hp]; omega
  have hg : ¬ ((s.room room).st ≠ .committed ∨ (!(s.room room).sec.conf) = true) := by simp [hst, hc]
  obtain ⟨f, hf⟩ := freshReport_spec s (some room) ((Sys2Proof.Obl.windowBody s room 1).take 48) (s.importPub room)
  have ht : s.tenantCmd room 1 (Sys2Proof.Obl.windowBody s room 1) false =
      (0, (s.freshReport (some room) ((Sys2Proof.Obl.windowBody s room 1).take 48) (s.importPub room)).1, { s with fresh := f }) := by
    have : ∀ body F, s.freshReport (some room) (body.take 48) (s.importPub room) = F → s.tenantCmd room 1 body false = (0, F.1, F.2) := by
      intro body F hF; unfold State.tenantCmd; dsimp only; rw [if_neg hg, hF]; rfl
    rw [this _ _ rfl, hf]
  generalize (s.freshReport (some room) ((Sys2Proof.Obl.windowBody s room 1).take 48) (s.importPub room)).1 = rep at ht ⊢
  refine ⟨f, ?_⟩
  unfold State.requestWindow; dsimp only
  rw [if_neg (show ¬ ((0 : Nat) ≠ 0) by simp), if_neg hcc, if_neg (by simp [cmdBytes, hh])]
  unfold Sys2Proof.Obl.windowBody at ht
  rw [ht]; dsimp only
  rw [if_neg (show ¬ ((1 : Nat) ≠ 1 ∨ (0 : Nat) ≠ 0) by simp)]
  rw [if_neg]
  · rfl
  · exact fun h => by
      have e : State.hostOk { s with fresh := f } 0 ((s.room room).sec.rqAddr + 64) (768 + (State.chain { s with fresh := f }).length) true = true := h2
      rw [e] at h; cases h

theorem retire_bad (t : Tbl Stack) (site unit : Nat) (g : (tget Stack.reset t site).badUnits.contains unit = false) :
    unit ∈ (tget Stack.reset (tmod Stack.reset t site fun k => k.retireUnit unit) site).badUnits := by
  rw [tget_tmod_self]
  unfold Stack.retireUnit; dsimp only
  rw [if_neg (by rw [g]; simp)]
  exact List.mem_cons_self ..

theorem sendOut_spec (s : State) (k : Nat) (p : Pkt) : ∃ fl o, s.sendOut k p = { s with
    net := { s.net with flows := fl }
    out := o } := by
  unfold State.sendOut; dsimp only; split
  · exact ⟨_, s.out, rfl⟩
  · exact ⟨_, _, rfl⟩

/-- A control message sent: the flow it leaves on, the sender's count and the block's output. -/
theorem ctrlSend_spec (s : State) (hop far ctype cjob cinc : Nat) (cseq : Option Nat) (body : List Byte) : ∃ fl o, s.ctrlSend hop far ctype cjob cinc cseq body = { s with
    net := { s.net with flows := fl }
    caravan := { s.caravan with cseq := if cseq.isSome then s.caravan.cseq else (s.caravan.cseq + 1) % 2 ^ 32 }
    out := o } := by
  unfold State.ctrlSend; dsimp only
  cases cseq with
  | none =>
    obtain ⟨fl, o, h⟩ := sendOut_spec { s with caravan := { s.caravan with cseq := (s.caravan.cseq + 1) % 2 ^ 32 } } (ctrlKey hop) _
    exact ⟨fl, o, h⟩
  | some n =>
    obtain ⟨fl, o, h⟩ := sendOut_spec s (ctrlKey hop) _
    exact ⟨fl, o, h⟩

theorem leave_spec (s : State) (code : Nat) : ∃ fl o n m, s.leave code = { s with
    net := { s.net with flows := fl }
    caravan := { s.caravan with cseq := n, member := m }
    out := o } := by
  unfold State.leave; split
  · obtain ⟨fl, o, h⟩ := ctrlSend_spec s s.caravan.giver s.caravan.mid 0x0C 0 0 none (leBytes 2 code)
    exact ⟨fl, o, _, false, by rw [h]⟩
  · exact ⟨s.net.flows, s.out, s.caravan.cseq, s.caravan.member, rfl⟩

theorem outOfService_spec (s : State) (code : Nat) : ∃ fl o n m, ∃ h : Health, s.outOfService code = { s with
    net := { s.net with flows := fl }
    caravan := { s.caravan with cseq := n, member := m }
    health := { h with oos := true, oosCode := code }
    out := o } := by
  unfold State.outOfService; dsimp only
  obtain ⟨fl, o, n, m, e⟩ := leave_spec { s.healthRecord 5 code 0xFFFF 0xFFFF 0 with health := { (s.healthRecord 5 code 0xFFFF 0xFFFF 0).health with oos := true, oosCode := code } } code
  rw [e]; exact ⟨fl, o, n, m, _, rfl⟩

/-- A unit's second error: it is out of service, and no room changes. -/
theorem unitOut (s : State) (c : Prop) [Decidable c] (code : Nat) : (if c then s.outOfService code else s).stackTbl = s.stackTbl ∧ (if c then s.outOfService code else s).rooms = s.rooms := by
  split
  · obtain ⟨fl, o, n, m, h, e⟩ := outOfService_spec s code
    rw [e]; exact ⟨rfl, rfl⟩
  · exact ⟨rfl, rfl⟩

theorem zeroFrame_room (s : State) (t : Tier) (r : Nat) : (s.zeroFrame t).room r = s.room r := by
  unfold State.zeroFrame; split <;> rfl

/-- A page seated in a frame: its entry, and what is as it was. -/
theorem seat_spec (s : State) (r v : Nat) (p : Page) (t : Tier) :
    tfind ((s.seat r v p t).room r).mem.pages v = some { p with tier := t, moving := none } ∧
    ((s.seat r v p t).room r).mem.data = (s.room r).mem.data ∧
    ∀ q, q ≠ v → tfind ((s.seat r v p t).room r).mem.pages q = tfind (s.room r).mem.pages q := by
  unfold State.seat State.setPage State.modMem
  rw [modRoom_self]
  simp only [zeroFrame_room]
  exact ⟨by simp, trivial, fun q hq => by simp [hq]⟩

theorem chargeHaul_mem (s : State) (r va n : Nat) : ((s.chargeHaul r va n).room r).mem = (s.room r).mem := by
  obtain ⟨h, -⟩ := Booked.trans (Booked.charge s r 9 n) (Booked.spend _ (arbHaul (va / pageBytes % 2)) r n)
  obtain ⟨a, b, c, e⟩ := h r
  unfold State.chargeHaul
  rw [e]

/-- A page switched to its new frame: its entry, and what is as it was. -/
theorem switchPage_spec (s : State) (r v : Nat) (p : Page) (m : Moving) (hp : tfind (s.room r).mem.pages v = some p) (hm : p.moving = some m) :
    tfind ((s.switchPage r v).room r).mem.pages v = some { p with tier := m.dst, moving := none } ∧
    ((s.switchPage r v).room r).mem.data = (s.room r).mem.data ∧
    ∀ q, q ≠ v → tfind ((s.switchPage r v).room r).mem.pages q = tfind (s.room r).mem.pages q := by
  have e : s.switchPage r v = { (s.seat r v p m.dst).chargeHaul r (v * pageBytes) pageBytes with
      migrations := ((s.seat r v p m.dst).chargeHaul r (v * pageBytes) pageBytes).migrations + 1 } := by
    unfold State.switchPage; rw [hp]; simp only [hm]
  have h : ((s.switchPage r v).room r).mem = ((s.seat r v p m.dst).room r).mem := by
    rw [e]; exact chargeHaul_mem (s.seat r v p m.dst) r (v * pageBytes) pageBytes
  rw [h]
  exact seat_spec s r v p m.dst

theorem reportAgain_one (s : State) (r : Nat) (h : ∀ j, (s.room r).job = some j → j.devices ≤ 1) : s.reportAgain r = s := by
  unfold State.reportAgain
  cases hj : (s.room r).job with
  | none => rfl
  | some j =>
    simp only []
    rw [if_neg]
    have := h j hj
    have h1 : decide (1 < j.devices) = false := by simpa using this
    simp [h1]

theorem slot_setSlot (x : SnapSt) (k : Nat) (v : Option Snap) : (x.setSlot k v).slot k = v := by
  unfold SnapSt.setSlot SnapSt.slot; split <;> rfl

theorem canStartOp_test {s : State} {ring op : Nat} {p : Desc → Bool} {d : Desc} (h : s.canStartOp ring op p = some d) : p d = true := by
  unfold State.canStartOp at h
  split at h
  · cases h
  · split at h
    · rename_i x _ hx
      cases h
      exact (Bool.and_eq_true_iff.mp hx).2
    · cases h

theorem ctrlRow_pass {s : State} {p : Pkt} {ctype : Nat} (h : CtrlPasses s p ctype) (f : State → State) : s.ctrlRow p ctype f = f (ctrlSeen s p) := by
  obtain ⟨a1, a2, a3, a4, ⟨k, a5, a6⟩, a7, a8, a9, a10, a10b, a11, a12, a13, a14, ⟨n, a15, a16, a17⟩, a18⟩ := h
  have hk : (tget ⟨[], 0, []⟩ s.caravan.links p.src).gens.contains p.kgen = true := by unfold tget; rw [a5]; exact a6
  have hin : (tfind s.caravan.links p.src).isNone = false := by rw [a5]; rfl
  have hp : ptypeOk p.ptype = true := by rw [a3]; rfl
  have b1 : ¬ (p.proto ≠ 1 ∨ p.plen ≠ p.udp ∨ (!ptypeOk p.ptype) = true) := by simp [a1, a2, hp]
  have b2 : ¬ (p.ptype ≠ 8) := by simp [a3]
  have b3 : ¬ (p.job ≠ 0 ∨ (tfind s.caravan.links p.src).isNone = true) := by simp [a4, hin]
  have b4 : ¬ (p.pflags / 4 ≠ 0 ∨ p.psn / 2 ^ 40 ≠ 0 ∨ p.num 2 2 ≠ 0 ∨ p.bodyRsvd ≠ 0 ∨ p.dst ≠ s.caravan.mid) := by
    have h1 : p.pflags / 4 = 0 := Nat.div_eq_of_lt a8
    have h2 : p.psn / 2 ^ 40 = 0 := Nat.div_eq_of_lt a9
    simp only [h1, h2, a10, a10b, a11]; simp
  have b5 : ¬ (p.ctype ≠ 1 ∧ (!((List.range 24).any fun q => s.caravan.addrOf p.src q = p.ip)) = true) := by
    rintro ⟨h1, h2⟩
    rcases a12 with h | ⟨q, hq, he⟩
    · exact h1 (a18.trans h)
    · have : ((List.range 24).any fun q => s.caravan.addrOf p.src q = p.ip) = true := List.any_eq_true.mpr ⟨q, List.mem_range.mpr hq, by simpa using he⟩
      rw [this] at h2; cases h2
  have b6 : ¬ (p.mgen ≠ s.caravan.generation ∧ p.src ≠ s.caravan.giver ∧ p.ctype ≠ 1 ∧ p.ctype ≠ 4) := by
    rw [a18]; rintro ⟨h1, h2, h3, h4⟩; rcases a13 with h | h | h | h
    · exact h1 h
    · exact h2 h
    · exact h3 h
    · exact h4 h
  have b7 : ¬ (20000 < (countSecond s.now (tget (s.now, 0) s.net.ctrlIn p.src)).2) := Nat.not_lt.mpr a14
  have b8 : ¬ (p.payload.length < 16 + n ∨ 8176 < n) := by omega
  have e : s.ctrlCheck p = (ctrlSeen s p, true) := by
    unfold State.ctrlCheck; dsimp only
    rw [if_neg b1, if_neg b2, if_neg b3, hk, if_neg (by simp), a7, if_neg (by simp), if_neg b4, if_neg b5, if_neg b6, if_neg b7, a15]
    simp only []; rw [if_neg b8]; rfl
  unfold State.ctrlRow; rw [e]; simp [a18]

theorem mem_allRooms {r : Nat} (h : r < 64) : r ∈ allRooms := by simpa [allRooms] using h

/-- The incarnations of some rooms ended one after another. -/
theorem endJobs_spec (f : State → Nat → Nat × Nat × List Done × Option Nat) (l : List Nat) (s : State) :
    ∀ r, (r ∈ l → ((l.foldl (fun s r => s.endJob r (f s r).1 (f s r).2.1 (f s r).2.2.1 (f s r).2.2.2) s).room r).job = none) ∧
      (((l.foldl (fun s r => s.endJob r (f s r).1 (f s r).2.1 (f s r).2.2.1 (f s r).2.2.2) s).room r).job = none ∨
       ((l.foldl (fun s r => s.endJob r (f s r).1 (f s r).2.1 (f s r).2.2.1 (f s r).2.2.2) s).room r).job = (s.room r).job) := by
  induction l generalizing s with
  | nil => intro r; exact ⟨by simp, Or.inr rfl⟩
  | cons a l ih =>
    intro r
    rw [List.foldl_cons]
    have h1 : ((s.endJob a (f s a).1 (f s a).2.1 (f s a).2.2.1 (f s a).2.2.2).room a).job = none ∧
        ∀ r, r ≠ a → ((s.endJob a (f s a).1 (f s a).2.1 (f s a).2.2.1 (f s a).2.2.2).room r).job = (s.room r).job := by
      cases hj : (s.room a).job with
      | none =>
        have : s.endJob a (f s a).1 (f s a).2.1 (f s a).2.2.1 (f s a).2.2.2 = s := by unfold State.endJob; rw [hj]
        rw [this]; exact ⟨hj, fun _ _ => rfl⟩
      | some j =>
        have := endJob_spec (f s a).1 (f s a).2.1 (f s a).2.2.1 (f s a).2.2.2 hj
        exact ⟨this.1, this.2.2.1⟩
    obtain ⟨i1, i2⟩ := ih (s.endJob a (f s a).1 (f s a).2.1 (f s a).2.2.1 (f s a).2.2.2) r
    by_cases e : r = a
    · subst e
      have : ((List.foldl (fun s r => s.endJob r (f s r).1 (f s r).2.1 (f s r).2.2.1 (f s r).2.2.2) (s.endJob r (f s r).1 (f s r).2.1 (f s r).2.2.1 (f s r).2.2.2) l).room r).job = none := by
        rcases i2 with h | h
        · exact h
        · rw [h]; exact h1.1
      exact ⟨fun _ => this, Or.inl this⟩
    · refine ⟨fun h => i1 (by simpa [e] using h), ?_⟩
      rcases i2 with h | h
      · exact Or.inl h
      · exact Or.inr (h.trans (h1.2 r e))

theorem fenceOff_fenced (s : State) (code : Nat) : Sys2Proof.Obl.Fenced (s.fenceOff code) (s.fenceOff code).time.now := by
  refine ⟨rfl, rfl, rfl, rfl, rfl, rfl, rfl, ?_, ?_⟩
  · rfl
  · intro r j hr hj
    have h := endJobs_spec (fun s r => (stFenced, code, [], (((s.room r).job.map (·.released)).getD none))) (allRooms.filter fun r => (s.room r).job.any fun j => decide (1 < j.devices)) s r
    have hj' : (((allRooms.filter fun r => (s.room r).job.any fun j => decide (1 < j.devices)).foldl (fun s r => s.endJob r stFenced code [] (((s.room r).job.map (·.released)).getD none)) s).room r).job = some j := hj
    by_cases g : (s.room r).job.any (fun j => decide (1 < j.devices)) = true
    · have := h.1 (List.mem_filter.mpr ⟨mem_allRooms hr, g⟩)
      simp only at this; rw [this] at hj'; cases hj'
    · rcases h.2 with h2 | h2
      · simp only at h2; rw [h2] at hj'; cases hj'
      · simp only at h2; rw [h2] at hj'
        rw [hj'] at g; simpa using g

theorem beginAdmission_spec {s : State} (hr : s.caravan.role = 1 ∨ s.caravan.role = 2) (h1 : s.caravan.isHead = false) (h2 : s.caravan.member = false)
    (h3 : s.stewards.ready = true) (h4 : s.health.oos = false) : ∃ n f, s.beginAdmission = { s with
      fresh := f
      out := s.out ++ [.link s.caravan.giver 1 n]
      caravan := { s.caravan with tries := tset s.caravan.tries s.caravan.giver ⟨true, n, [], 1, 1, s.time.now, [], n⟩, retryAt := none } } := by
  have := drawBytes_spec s 48
  unfold State.beginAdmission
  rw [if_neg, if_neg]
  · generalize s.drawBytes 48 = q at this ⊢
    obtain ⟨n, u⟩ := q
    simp only [] at this ⊢
    rw [this]; exact ⟨n, _, rfl⟩
  · simp [h1]
  · simp [h2, h3, h4]; tauto

end Sys2Proof.Machine
end

