-- ==== Sys2Proof/Laws/EffectsMore.lean ====
section
/-! SUPPORT. What the shared operations can do, said once: caravans, records of the log, boot, power, stacks and the timebase. -/

namespace Sys2Proof.Machine

open Sys2Proof Sys2Proof.Obl

theorem gen_pass {s : State} {p : Pkt} (h : FromGiver s p 0x07) (g : s.caravan.members = []) :
    exec (.gen p) s = .next ((ctrlSeen s p).applyGen (p.arg 0 4) (genList p)) := by
  have hc : (ctrlSeen s p).caravan = s.caravan := rfl
  have hg : ¬ ((ctrlSeen s p).caravan.isHead = true ∨ p.src ≠ (ctrlSeen s p).caravan.giver) := by rw [hc]; simp [h.2.1, h.2.2.1]
  simp only [exec, execGen]
  rw [ctrlRow_pass h.1, if_neg hg, hc, g, List.foldl_nil]

theorem ctrlSends_spec {α : Type} (f : State → α → State) (l : List α)
    (hf : ∀ v m, ∃ fl o n, f v m = { v with
      net := { v.net with flows := fl }
      caravan := { v.caravan with cseq := n }
      out := o }) (s : State) : ∃ fl o n, l.foldl f s = { s with
    net := { s.net with flows := fl }
    caravan := { s.caravan with cseq := n }
    out := o } := by
  induction l generalizing s with
  | nil => exact ⟨s.net.flows, s.out, s.caravan.cseq, rfl⟩
  | cons a l ih =>
    obtain ⟨fl, o, n, h⟩ := hf s a
    obtain ⟨fl', o', n', h'⟩ := ih (f s a)
    rw [List.foldl_cons, h']
    exact ⟨fl', o', n', by rw [h]⟩

theorem sendGen_spec (s : State) (mid : Nat) (cseq : Option Nat) (mids : List Nat) : ∃ fl o n, s.sendGen mid cseq mids = { s with
    net := { s.net with flows := fl }
    caravan := { s.caravan with cseq := n }
    out := o } := by
  unfold State.sendGen
  refine ctrlSends_spec _ _ (fun v b => ?_) s
  obtain ⟨fl, o, h⟩ := ctrlSend_spec v mid mid 0x07 0 0 cseq b
  exact ⟨fl, o, _, h⟩

theorem sendGens_spec (s : State) (f : State → Nat × Member → State) (l : List (Nat × Member))
    (hf : ∀ v m, ∃ fl o n, f v m = { v with
      net := { v.net with flows := fl }
      caravan := { v.caravan with cseq := n }
      out := o }) : ∃ fl o n, l.foldl f s = { s with
    net := { s.net with flows := fl }
    caravan := { s.caravan with cseq := n }
    out := o } := ctrlSends_spec f l hf s

theorem fold_enter (l : List Nat) (first n : Nat) (t : Tbl Nat) :
    (∀ i m, l[i]? = some m → tfind ((l.zipIdx n).foldl (fun t p => tset t (first + p.2) p.1) t) (first + n + i) = some m) ∧
    (∀ k, (k < first + n ∨ first + n + l.length ≤ k) → tfind ((l.zipIdx n).foldl (fun t p => tset t (first + p.2) p.1) t) k = tfind t k) := by
  induction l generalizing n t with
  | nil => simp
  | cons a l ih =>
    obtain ⟨h1, h2⟩ := ih (n + 1) (tset t (first + n) a)
    simp only [List.zipIdx_cons, List.foldl_cons]
    constructor
    · intro i m hi
      cases i with
      | zero =>
        have : a = m := by simpa using hi
        rw [← this, h2 _ (Or.inl (by omega))]; exact tfind_tset_self _ _ _
      | succ i =>
        have := h1 i m (by simpa using hi)
        rw [← this]; congr 1; omega
    · intro k hk
      rw [h2 _ (by simp at hk; omega)]
      exact tfind_tset_ne _ _ (by simp at hk; omega)

theorem room_modRoom (s : State) (r : Nat) (f : Room → Room) : (s.modRoom r f).room r = f (s.room r) := by
  simp [State.room, State.modRoom, State.setRoom]

theorem sendJoin_spec {s : State} {r : Nat} {j : Job} (hj : (s.room r).job = some j) (h1 : s.caravan.isHead = false) (h2 : s.caravan.isManager = false) :
    ∃ n b, s.sendJoin r = (s.modRoom r fun x => { x with job := x.job.map fun (j : Job) => { j with waiting := true, reportedSnap := n } }).ctrlUp 0x14 j.tag j.incarn none b := by
  unfold State.sendJoin
  simp only [hj]
  have hc : ∀ f, (s.modRoom r f).caravan = s.caravan := fun _ => rfl
  simp only [hc, h1, h2, Bool.false_eq_true, if_false]
  exact ⟨_, _, rfl⟩

theorem audit_logs (s : State) (atype role slot room code : Nat) (data : List Byte) : ∃ a b c, s.audit atype role slot room code data = { s with
    sec := { s.sec with log := a, nextSeq := b, logLost := c } } := by
  unfold State.audit; split
  · exact ⟨_, _, _, rfl⟩
  · exact ⟨_, _, _, rfl⟩

theorem audits_spec {α : Type} (f : State → α → State) (l : List α)
    (hf : ∀ v r, ∃ a b c, f v r = { v with sec := { v.sec with log := a, nextSeq := b, logLost := c } }) (s : State) :
    ∃ a b c, l.foldl f s = { s with sec := { s.sec with log := a, nextSeq := b, logLost := c } } := by
  induction l generalizing s with
  | nil => exact ⟨_, _, _, rfl⟩
  | cons x l ih =>
    obtain ⟨a, b, c, h⟩ := hf s x
    obtain ⟨a', b', c', h'⟩ := ih (f s x)
    rw [List.foldl_cons, h']
    exact ⟨a', b', c', by rw [h]⟩

theorem forgetAlert_spec (s : State) (b : Nat) : ∃ n, s.forgetAlert b = { s with module := { s.module with alertSeen := n } } := by
  unfold State.forgetAlert; split
  · exact ⟨_, rfl⟩
  · exact ⟨_, rfl⟩

theorem breakChain_spec (s : State) : ∃ a b c d, s.breakChain = { s with sec := { s.sec with log := a, nextSeq := b, logLost := c, bootCode := d } } := by
  unfold State.breakChain
  obtain ⟨a, b, c, e⟩ := audit_logs { s with sec := { s.sec with log := [], bootCode := Code.secChainBreak } } 0x12 0 0 0xFFFF 0 (leBytes 8 (s.sec.nextSeq - 1))
  exact ⟨a, b, c, Code.secChainBreak, by rw [e]⟩

theorem bootEntry_spec (s : State) : ∃ a b c n, s.bootEntry = { s with
    sec := { s.sec with log := a, nextSeq := b, logLost := c }
    module := { s.module with railCode := 0, alertSeen := n } } := by
  unfold State.bootEntry
  obtain ⟨a, b, c, e⟩ := audit_logs s 0x01 0 0 0xFFFF s.bootRecordCode (leBytes 1 s.lifecycle ++ leBytes 2 s.bootRecordCode ++ ((Config.crypto "ROM digest" []).map (BitVec.ofNat 8)).take 32)
  show ∃ a b c n, State.forgetAlert ({ (s.audit 0x01 0 0 0xFFFF s.bootRecordCode _) with module := _ } : State) 7 = _
  rw [e]
  obtain ⟨n, h⟩ := forgetAlert_spec ({ s with sec := { s.sec with log := a, nextSeq := b, logLost := c }, module := { s.module with railCode := 0 } } : State) 7
  exact ⟨a, b, c, n, by rw [h]⟩

theorem bootRecord_spec (s : State) (chainOk : Bool) : ∃ a b c d n, s.bootRecord chainOk = { s with
    sec := { s.sec with log := a, nextSeq := b, logLost := c, bootCode := d }
    module := { s.module with railCode := 0, alertSeen := n } } := by
  unfold State.bootRecord
  cases chainOk with
  | true => obtain ⟨a, b, c, n, e⟩ := bootEntry_spec s; exact ⟨a, b, c, _, n, e⟩
  | false =>
    obtain ⟨a, b, c, d, h⟩ := breakChain_spec s
    obtain ⟨a', b', c', n, e⟩ := bootEntry_spec s.breakChain
    refine ⟨a', b', c', d, n, e.trans ?_⟩
    rw [h]

theorem bootOn_spec (s : State) (storeOk chainOk : Bool) : ∃ t, s.bootOn storeOk chainOk = t ∧ t.module.standby = s.module.standby ∧ t.module.standbyAt = s.module.standbyAt ∧ t.rooms = s.rooms ∧
    t.sec.shadow = s.sec.shadow ∧ (t.lifecycle ≠ 1 → t.lifecycle ≠ 2 → t.sec.stage = 2 ∧ t.sec.bootCode = Code.secRetired) ∧
      ((t.lifecycle = 1 ∨ t.lifecycle = 2) → t.sec.stage = 6 ∧ t.sec.bootCode = 0 ∧ t.module.railCode = 0 ∧ t.sec.versionReg = s.sec.version ∧
        (storeOk = true → (s.sec.versionReg = 0 ∨ s.sec.versionReg = s.sec.version) → t.sec.installers = s.sec.installers ∧ t.sec.operators = s.sec.operators ∧ t.sec.cas = s.sec.cas) ∧
        ((storeOk = false ∨ (s.sec.versionReg ≠ 0 ∧ s.sec.versionReg ≠ s.sec.version)) → t.sec.installers = [] ∧ t.sec.operators = [] ∧ t.sec.cas = [])) := by
  have hl : ∀ {u w : State}, u.sec.shadow = w.sec.shadow → u.lifecycle = w.lifecycle := by
    intro u w h; unfold State.lifecycle State.fuse; rw [h]
  unfold State.bootOn
  by_cases h : s.lifecycle ≠ 1 ∧ s.lifecycle ≠ 2
  · rw [if_pos h]
    refine ⟨_, rfl, rfl, rfl, rfl, rfl, fun _ _ => ⟨rfl, rfl⟩, fun g => ?_⟩
    rcases g with g | g
    · refine absurd (Eq.trans (Eq.symm (hl ?_)) g) h.1; rfl
    · refine absurd (Eq.trans (Eq.symm (hl ?_)) g) h.2; rfl
  · rw [if_neg h]
    by_cases hb : (storeOk && (s.sec.versionReg == 0 || s.sec.versionReg == s.sec.version)) = true
    · rw [hb]
      obtain ⟨a, b, c, d, n, e⟩ := bootRecord_spec (s.loadStore true) chainOk
      refine ⟨_, (congrArg (fun (t : State) => ({ t with sec := { t.sec with stage := 6, bootCode := 0 } } : State)) e), rfl, rfl, rfl, rfl, fun g1 g2 => ?_, fun g => ⟨rfl, rfl, rfl, rfl, fun _ _ => ⟨rfl, rfl, rfl⟩, fun g => ?_⟩⟩
      · refine absurd ⟨fun k => g1 (Eq.trans (hl ?_) k), fun k => g2 (Eq.trans (hl ?_) k)⟩ h <;> rfl
      · exfalso
        simp at hb
        rcases g with g | ⟨g1, g2⟩
        · rw [hb.1] at g; cases g
        · rcases hb.2 with k | k
          · exact g1 k
          · exact g2 k
    · rw [Bool.eq_false_iff.mpr hb]
      obtain ⟨a, b, c, d, n, e⟩ := bootRecord_spec (s.loadStore false) chainOk
      refine ⟨_, (congrArg (fun (t : State) => ({ t with sec := { t.sec with stage := 6, bootCode := 0 } } : State)) e), rfl, rfl, rfl, rfl, fun g1 g2 => ?_, fun g => ⟨rfl, rfl, rfl, rfl, fun g1 g2 => ?_, fun _ => ⟨rfl, rfl, rfl⟩⟩⟩
      · refine absurd ⟨fun k => g1 (Eq.trans (hl ?_) k), fun k => g2 (Eq.trans (hl ?_) k)⟩ h <;> rfl
      · exfalso; apply hb; rcases g2 with g2 | g2 <;> simp [g1, g2]

theorem rereadWord_spec (s : State) (r : FuseReads) : (r.agree = true → r.atight.data = s.fuse r.word → s.rereadWord r = s) ∧
    (s.rereadWord r).sec.shadow = s.sec.shadow ∧ (s.rereadWord r).rooms = s.rooms ∧
    ((r.agree = false ∨ r.atight.data ≠ s.fuse r.word) → (s.rereadWord r).sec.fuseAlarm = true ∧ (s.rereadWord r).health.alarm = true) ∧
    (s.sec.fuseAlarm = true → s.health.alarm = true → (s.rereadWord r).sec.fuseAlarm = true ∧ (s.rereadWord r).health.alarm = true) := by
  unfold State.rereadWord
  by_cases h : (r.agree && r.atight.data == s.fuse r.word) = true
  · rw [if_pos h]
    simp at h
    exact ⟨fun _ _ => rfl, rfl, rfl, fun g => by rcases g with g | g; rw [h.1] at g; cases g; exact absurd h.2 g, fun a b => ⟨a, b⟩⟩
  · rw [if_neg h]
    obtain ⟨a, b, c, e⟩ := audit_logs s 0x09 0 0 0xFFFF 0 r.alarmData
    unfold State.alarmWord
    rw [e]
    exact ⟨fun g1 g2 => absurd (by simp [g1, g2]) h, rfl, rfl, fun _ => ⟨rfl, rfl⟩, fun _ _ => ⟨rfl, rfl⟩⟩

theorem reread_spec (l : List FuseReads) (s : State) : (l.foldl (fun s r => s.rereadWord r) s).sec.shadow = s.sec.shadow ∧ (l.foldl (fun s r => s.rereadWord r) s).rooms = s.rooms ∧
    ((∀ r ∈ l, r.agree = true ∧ r.atight.data = s.fuse r.word) → l.foldl (fun s r => s.rereadWord r) s = s) ∧
    (∀ r ∈ l, (r.agree = false ∨ r.atight.data ≠ s.fuse r.word) → (l.foldl (fun s r => s.rereadWord r) s).sec.fuseAlarm = true ∧ (l.foldl (fun s r => s.rereadWord r) s).health.alarm = true) ∧
    (s.sec.fuseAlarm = true → s.health.alarm = true → (l.foldl (fun s r => s.rereadWord r) s).sec.fuseAlarm = true ∧ (l.foldl (fun s r => s.rereadWord r) s).health.alarm = true) := by
  induction l generalizing s with
  | nil => exact ⟨rfl, rfl, fun _ => rfl, fun r h => absurd h (by simp), fun a b => ⟨a, b⟩⟩
  | cons x l ih =>
    obtain ⟨h1, h2, h3, h4, h5⟩ := rereadWord_spec s x
    obtain ⟨g1, g2, g3, g4, g5⟩ := ih (s.rereadWord x)
    have hf : ∀ w, (s.rereadWord x).fuse w = s.fuse w := by intro w; unfold State.fuse; rw [h2]
    rw [List.foldl_cons]
    refine ⟨g1.trans h2, g2.trans h3, fun k => ?_, fun r hr k => ?_, fun a b => g5 (h5 a b).1 (h5 a b).2⟩
    · have := h1 (k x List.mem_cons_self).1 (k x List.mem_cons_self).2
      rw [this] at g3 ⊢
      exact g3 fun r hr => k r (List.mem_cons_of_mem _ hr)
    · rcases List.mem_cons.mp hr with rfl | hr
      · exact g5 (h4 k).1 (h4 k).2
      · exact g4 r hr (by rw [hf]; exact k)

theorem draw_spec (s : State) : s.draw.2 = { s with fresh := s.draw.2.fresh } := rfl

theorem loseRooms_spec (s : State) : ∃ a b c, s.loseRooms = { s with sec := { s.sec with log := a, nextSeq := b, logLost := c } } := by
  unfold State.loseRooms
  exact audits_spec (fun (v : State) (p : Nat × Room) => v.audit 0x0E 0 0 p.1 Code.pwrReset (leBytes 2 noUnit ++ leBytes 2 Code.pwrReset)) _ (fun v p => audit_logs v 0x0E 0 0 p.1 Code.pwrReset (leBytes 2 noUnit ++ leBytes 2 Code.pwrReset)) s

theorem wipe_spec (s : State) (main : Bool) (cause : Nat) : ∃ a b c, s.wipe main cause =
  { s with
    vfEnable := false
    numVfs := 0
    rooms := []
    rings := []
    msix := []
    restart := none
    restartRejected := false
    restartReason := 0
    ringSel := 0
    ringInfo0 := 0
    ringInfo1 := 0
    badAccess := 0
    snaps := []
    held := []
    cores := []
    common := []
    stackTbl := tmap s.stackTbl fun _ k => k.flash
    migrations := 0
    swaps := 0
    ingest := Ingest.reset
    sched := Sched.reset
    stewards := Stewards.reset
    net := Net.reset
    caravan := { Caravan.reset with record := s.caravan.record }
    time := if main then Timebase.reset else s.time
    power := { Power.reset (powerLimit s.variant) with lastReset := cause }
    health := s.health.flash main
    sec := { s.sec with
      log := a
      nextSeq := b
      logLost := c
      stage := Nat.min s.sec.stage 6
      alias_ := false
      stagingKey := none
      debug := none
      deniedAt := []
      authFailAt := none }
    module := { s.module with
      linkUp := false
      width := 0
      speed := 0 } } := by
  obtain ⟨a, b, c, e⟩ := loseRooms_spec s
  refine ⟨a, b, c, ?_⟩
  unfold State.wipe
  generalize s.loseRooms = v at e
  subst e
  rfl

theorem foldl_inv {α : Type} {P : State → State → Prop} (f : State → α → State) (l : List α) (h0 : ∀ s, P s s) (ht : ∀ a b c, P a b → P b c → P a c) (hf : ∀ v x, P v (f v x)) (s : State) :
    P s (l.foldl f s) := by
  induction l generalizing s with
  | nil => exact h0 s
  | cons x l ih => exact ht _ _ _ (hf s x) (ih (f s x))

theorem counts_fold {α : Type} (f : State → α → State) (l : List α) (hf : ∀ v x, ∃ c, f v x = { v with health := { v.health with counts := c } }) (s : State) :
    ∃ c, l.foldl f s = { s with health := { s.health with counts := c } } := by
  refine foldl_inv (P := fun s t => ∃ c, t = { s with health := { s.health with counts := c } }) f l (fun s => ⟨s.health.counts, rfl⟩) ?_ hf s
  rintro a b c ⟨x, rfl⟩ ⟨y, rfl⟩
  exact ⟨y, rfl⟩

theorem chargeThrottle_spec (s : State) : ∃ c, s.chargeThrottle = { s with
    health := { s.health with counts := c }
    power := { s.power with chargedAt := s.time.now } } := by
  have h : ∀ (n : Nat) (v : State), ∃ c, [0, 1].foldl (fun (s : State) d => (List.range 68).foldl (fun (s : State) p =>
      if s.setPoint d p < s.power.plan d then s.count (68 * d + p) 10 n else s) s) v = { v with health := { v.health with counts := c } } := by
    intro n v
    refine counts_fold _ _ (fun v d => counts_fold _ _ (fun v p => ?_) v) v
    split
    · exact ⟨_, rfl⟩
    · exact ⟨_, rfl⟩
  unfold State.chargeThrottle
  simp only []
  split
  · exact ⟨_, rfl⟩
  · obtain ⟨c, e⟩ := h (s.now - s.power.chargedAt) s
    rw [e]
    exact ⟨c, rfl⟩

theorem powerEvent_spec (s : State) (b : Nat) : ∃ m o, s.powerEvent b = { s with
    power := { s.power with events := s.power.events ||| 2 ^ b }
    msix := m
    out := o } := by
  unfold State.powerEvent
  simp only []
  split
  · obtain ⟨m, o, h⟩ := sendMsix_spec { s with power := { s.power with events := s.power.events ||| 2 ^ b } } 0 (bits s.power.irq 4 0)
    exact ⟨m, o, h⟩
  · exact ⟨_, _, rfl⟩

theorem powerEvent_rooms (s : State) (b : Nat) : (s.powerEvent b).rooms = s.rooms := by obtain ⟨m, o, h⟩ := powerEvent_spec s b; rw [h]

theorem powerEvent_pin (s : State) (b : Nat) : (s.powerEvent b).power.pin = s.power.pin := by obtain ⟨m, o, h⟩ := powerEvent_spec s b; rw [h]

theorem dropPairs_cores (s : State) (die : Nat) : (s.dropPairs die).cores = s.cores := by
  unfold State.dropPairs
  refine foldl_inv (P := fun s t => t.cores = s.cores) _ _ (fun _ => rfl) (fun _ _ _ h g => g.trans h) (fun v p => ?_) s
  split
  · rfl
  · rfl

theorem overloaded_false (s : State) (h : ∀ b, s.power.overSince = some b → s.time.now < b + 100000000) : s.overloaded = false := by
  unfold State.overloaded
  cases hx : s.power.overSince with
  | none => rfl
  | some b => rw [Option.any_some]; exact decide_eq_false (Nat.not_le.mpr (h b hx))

theorem overloaded_true (s : State) {b : Nat} (h : s.power.overSince = some b) (g : b + 100000000 ≤ s.time.now) : s.overloaded = true := by
  unfold State.overloaded; rw [h, Option.any_some]; exact decide_eq_true g

theorem heat_charge (s : State) (at_ : Nat) : ∃ c, (s.upto at_).chargeThrottle = { s.upto at_ with
    health := { s.health with counts := c }
    power := { s.power with chargedAt := (s.upto at_).time.now } } := chargeThrottle_spec (s.upto at_)

theorem endTrip_spec (s : State) (die : Nat) : ∃ n, s.endTrip die = { s with
    power := { s.power with trip := s.power.trip.filter (· ≠ die), tripCool := tdel s.power.tripCool die }
    module := { s.module with alertSeen := n } } := by
  unfold State.endTrip
  simp only []
  split
  · obtain ⟨n, h⟩ := forgetAlert_spec ({ s with power := { s.power with trip := s.power.trip.filter (· ≠ die), tripCool := tdel s.power.tripCool die } } : State) 5
    exact ⟨n, h⟩
  · exact ⟨_, rfl⟩

theorem setWaiting_cores (s : State) (a b : Nat) : (s.setWaiting a b).cores = s.cores := rfl

theorem healthRecord_cores (s : State) (a b c d e : Nat) : (s.healthRecord a b c d e).cores = s.cores := rfl

theorem secFaults_none (s : State) (units : List Nat) (cause : Nat) (h : ∀ p ∈ s.rooms, p.2.sec.conf = false) : s.secFaults units cause = s := by
  unfold State.secFaults
  rw [List.filter_eq_nil_iff.mpr]
  · rfl
  · intro p hp; simp [h p hp]

theorem stack_modStack (s : State) (k : Nat) (f : Stack → Stack) : (s.modStack k f).stack k = f (s.stack k) := by
  unfold State.stack State.modStack tmod tget; simp

theorem stack_modStack_ne (s : State) {k q : Nat} (f : Stack → Stack) (h : q ≠ k) : (s.modStack k f).stack q = s.stack q := by
  unfold State.stack State.modStack tmod tget; simp [h]

def Scrubbed (site : Nat) (s t : State) : Prop := t.rooms = s.rooms ∧ (∀ k, k ≠ site → t.stack k = s.stack k) ∧ ∀ p ∈ (s.stack site).poison, p ∈ (t.stack site).poison

theorem scrubHit_spec (site : Nat) (s : State) (h : ScrubHit) : Scrubbed site s (s.scrubHit site h) ∧ (h.corrected = false → (h.frame, h.sector) ∈ ((s.scrubHit site h).stack site).poison) := by
  unfold State.scrubHit
  simp only []
  by_cases hc : h.corrected = true
  · rw [if_pos hc]
    refine ⟨⟨rfl, fun k hk => stack_modStack_ne _ _ hk, fun p hp => ?_⟩, fun g => by rw [hc] at g; cases g⟩
    rw [stack_modStack]
    repeat' split
    all_goals exact hp
  · rw [if_neg hc]
    have hs : ∀ a b, (s.count a b 1).stack site = s.stack site := fun _ _ => rfl
    refine ⟨⟨rfl, fun k hk => stack_modStack_ne _ _ hk, fun p hp => ?_⟩, fun _ => ?_⟩
    · rw [stack_modStack, hs]
      repeat' split
      all_goals first | exact hp | exact List.mem_append_left _ hp
    · rw [stack_modStack, hs]
      repeat' split
      all_goals first | exact List.mem_append_right _ (List.mem_singleton.mpr rfl) | (rename_i hx; exact List.contains_iff_mem.mp hx)

theorem scrubHits_spec (site : Nat) (l : List ScrubHit) (s : State) : Scrubbed site s (l.foldl (fun s h => s.scrubHit site h) s) ∧
    ∀ h ∈ l, h.corrected = false → (h.frame, h.sector) ∈ ((l.foldl (fun s h => s.scrubHit site h) s).stack site).poison := by
  induction l generalizing s with
  | nil => exact ⟨⟨rfl, fun _ _ => rfl, fun _ hp => hp⟩, fun h hh => absurd hh (by simp)⟩
  | cons x l ih =>
    obtain ⟨a, b⟩ := scrubHit_spec site s x
    obtain ⟨c, d⟩ := ih (s.scrubHit site x)
    rw [List.foldl_cons]
    refine ⟨⟨c.1.trans a.1, fun k hk => (c.2.1 k hk).trans (a.2.1 k hk), fun p hp => c.2.2 _ (a.2.2 _ hp)⟩, fun h hh hc => ?_⟩
    rcases List.mem_cons.mp hh with rfl | hh
    · exact c.2.2 _ (b hc)
    · exact d h hh hc

theorem tryFetch_spec (s : State) : ∃ n w o, s.tryFetch = { s with sec := { s.sec with stage := n }, stewards := w, out := o } := by
  unfold State.tryFetch State.beginFetch
  split
  · exact ⟨_, _, _, rfl⟩
  · exact ⟨_, _, _, rfl⟩

theorem keyChange_spec (s : State) (role slot : Nat) (key : List Nat) (list index : Nat) : ∃ a b c, s.keyChange role slot key list index = { s with
    sec := { s.sec with version := s.sec.version + 1, versionReg := s.sec.version + 1, log := a, nextSeq := b, logLost := c } } := by
  unfold State.keyChange
  obtain ⟨a, b, c, e⟩ := audit_logs s.storeWritten 0x04 role slot 0xFFFF 0 (sha384 (toBytes key) ++ leBytes 1 list ++ leBytes 1 index)
  exact ⟨a, b, c, e⟩

theorem closeDebug_logs (s : State) : ∃ a b c d, s.closeDebug = { s with sec := { s.sec with debug := d, log := a, nextSeq := b, logLost := c } } := by
  unfold State.closeDebug
  split
  · rename_i rs scope _
    obtain ⟨a, b, c, e⟩ := audit_logs ({ s with sec := { s.sec with debug := none } } : State) 0x0C 0 0 (rs.headD 0xFFFF) 0 (leBytes 4 scope ++ leBytes 2 (rs.headD 0xFFFF))
    exact ⟨a, b, c, _, e⟩
  · exact ⟨_, _, _, _, rfl⟩

theorem beginAdmission_record (s : State) : s.beginAdmission.caravan.record = s.caravan.record := by
  unfold State.beginAdmission
  split
  · rfl
  · split
    · rfl
    · have d := drawBytes_spec s 48
      generalize s.drawBytes 48 = q at d ⊢
      obtain ⟨n, u⟩ := q
      simp only [] at d ⊢
      rw [d]; rfl

theorem served_request {s : State} {c : Instr} {w : Who} {roles : List Nat} {reads : Bool} {f : State → Nat → Nat → State} (h : RequestServed s c w) (hc : requestOf c = some (w, roles, reads)) :
    s.request w roles reads f = f s (s.roleOf w).1 (s.roleOf w).2 := by
  obtain ⟨_, _, e, a, b, d, g⟩ := h
  rw [hc] at e; cases e
  unfold State.request; rw [if_neg (by simp [a])]; simp only []
  rw [if_neg (by simp [b, d]), if_neg (by rcases g with g | g <;> simp [g])]

theorem debug_go {s : State} {g scope : Nat} {pub : List Nat} {rooms : List Nat} (h : RequestServed s (.debug (.maker g pub) rooms scope) (.maker g pub)) :
    exec (.debug (.maker g pub) rooms scope) s = .next (if (!s.windowOpen || bit (s.fuse 1) 0 || !(rooms.all fun r => s.debugRoomOk pub scope r)) = true then s.respond Code.secDebugDenied []
      else (({ s.closeDebug with sec := { s.closeDebug.sec with debug := some (rooms, scope) } } : State).audit 0x0C (s.roleOf (.maker g pub)).1 (s.roleOf (.maker g pub)).2 (rooms.headD 0xFFFF) 0
        (leBytes 4 scope ++ leBytes 2 (rooms.headD 0xFFFF))).respond 0 []) := by
  have q : ∀ f : State → Nat → Nat → State, s.request (.maker g pub) [3] false f = f s (s.roleOf (.maker g pub)).1 (s.roleOf (.maker g pub)).2 := fun f => served_request h rfl
  have e : ∃ f : State → Nat → Nat → State, exec (.debug (.maker g pub) rooms scope) s = .next (s.request (.maker g pub) [3] false f) ∧ f s (s.roleOf (.maker g pub)).1 (s.roleOf (.maker g pub)).2 =
      if (!s.windowOpen || bit (s.fuse 1) 0 || !(rooms.all fun r => s.debugRoomOk pub scope r)) = true then s.respond Code.secDebugDenied []
      else (({ s.closeDebug with sec := { s.closeDebug.sec with debug := some (rooms, scope) } } : State).audit 0x0C (s.roleOf (.maker g pub)).1 (s.roleOf (.maker g pub)).2 (rooms.headD 0xFFFF) 0
        (leBytes 4 scope ++ leBytes 2 (rooms.headD 0xFFFF))).respond 0 [] := ⟨_, rfl, rfl⟩
  obtain ⟨f, e1, e2⟩ := e
  rw [e1, q, e2]

theorem reselect_keeps (s : State) : s.reselect.time.present = s.time.present ∧ s.reselect.time.isSet = s.time.isSet ∧ s.reselect.time.todPending = s.time.todPending ∧ s.reselect.rooms = s.rooms := by
  unfold State.reselect
  simp only []
  split
  · exact ⟨rfl, rfl, rfl, rfl⟩
  · exact ⟨rfl, rfl, rfl, rfl⟩

theorem reselect_alarms (s : State) : s.reselect.time.alarms = s.time.alarms ∧ s.reselect.time.sel = s.time.best ∧ s.reselect.time.oot = s.time.oot := by
  unfold State.reselect
  simp only []
  split
  · rename_i h; exact ⟨rfl, h.symm, rfl⟩
  · exact ⟨rfl, rfl, rfl⟩

/-- Device time moved on: the references, the setting and the wait for a whole second stay. -/
theorem advance_keeps (t : Timebase) (may : Bool) (n : Nat) : (t.advance may n).present = t.present ∧ (t.advance may n).isSet = t.isSet ∧
    (t.advance may n).todPending = t.todPending := by
  unfold Timebase.advance
  dsimp only
  cases t.stepAt with
  | none => exact ⟨rfl, rfl, rfl⟩
  | some a =>
    dsimp only
    split
    · exact ⟨rfl, rfl, rfl⟩
    · split <;> exact ⟨rfl, rfl, rfl⟩

theorem correct_keeps (s : State) (d : Int) : (s.correct d).time.present = s.time.present ∧ (s.correct d).time.isSet = s.time.isSet ∧ (s.correct d).time.todPending = s.time.todPending ∧ (s.correct d).rooms = s.rooms := by
  unfold State.correct
  generalize hw : (if (s.caravan.member && decide (1000000 < d.natAbs)) = true then s.timeAlarm 3 Code.timeLarge else s) = w
  have e : w.time.present = s.time.present ∧ w.time.isSet = s.time.isSet ∧ w.time.todPending = s.time.todPending ∧ w.rooms = s.rooms := by
    rw [← hw]; split <;> exact ⟨rfl, rfl, rfl, rfl⟩
  have k : ∀ u : State, (u.upto w.time.now).time.present = u.time.present ∧ (u.upto w.time.now).time.isSet = u.time.isSet ∧
      (u.upto w.time.now).time.todPending = u.time.todPending ∧ (u.upto w.time.now).rooms = u.rooms := by
    intro u
    have h := advance_keeps u.time u.maySteps w.time.now
    exact ⟨h.1, h.2.1, h.2.2, rfl⟩
  exact (k _).imp (·.trans e.1) fun h => h.imp (·.trans e.2.1) fun h => h.imp (·.trans e.2.2.1) (·.trans e.2.2.2)

theorem best_present (t : Timebase) : t.best = 2 ∨ t.best ∈ t.present := by
  unfold Timebase.best
  cases hx : t.order.find? fun r => t.present.contains r && !t.oot.contains r && t.suspect != some r with
  | none => exact Or.inl rfl
  | some r =>
    have := List.find?_some hx
    simp only [Option.getD_some]
    right
    rw [Bool.and_eq_true, Bool.and_eq_true] at this
    exact List.contains_iff_mem.mp this.1.1

theorem loseReference_spec (s : State) (ref : Nat) (h : ref < 2) (g : s.time.present.contains ref = true) :
    (s.loseReference ref).time.present = s.time.present.filter (· ≠ ref) ∧ (s.loseReference ref).time.sel ≠ ref ∧
    (s.time.sel = ref → (s.loseReference ref).time.alarms = s.time.alarms ||| 4) ∧ (s.loseReference ref).rooms = s.rooms := by
  unfold State.loseReference
  rw [if_neg (by rw [g]; simp; omega)]
  simp only []
  generalize hv : ({ s with time := _ } : State) = v
  have v1 : v.time.present = s.time.present.filter (· ≠ ref) ∧ v.time.alarms = s.time.alarms ∧ v.rooms = s.rooms := by rw [← hv]; exact ⟨rfl, rfl, rfl⟩
  generalize hw : (if s.time.sel = ref then v.timeAlarm 2 Code.timeLost else v) = w
  have w1 : w.time.present = v.time.present ∧ w.rooms = v.rooms ∧ (s.time.sel = ref → w.time.alarms = v.time.alarms ||| 4) := by
    rw [← hw]
    by_cases q : s.time.sel = ref
    · rw [if_pos q]; exact ⟨rfl, rfl, fun _ => rfl⟩
    · rw [if_neg q]; exact ⟨rfl, rfl, fun k => absurd k q⟩
  obtain ⟨r1, _, _, r4⟩ := reselect_keeps w
  obtain ⟨a1, a2, _⟩ := reselect_alarms w
  refine ⟨r1.trans (w1.1.trans v1.1), ?_, fun q => a1.trans ((w1.2.2 q).trans (by rw [v1.2.1])), r4.trans (w1.2.1.trans v1.2.2)⟩
  rw [a2]
  rcases best_present w.time with k | k
  · omega
  · rw [w1.1, v1.1] at k
    have := (List.mem_filter.mp k).2
    simpa using this

theorem compareRefs_spec (s : State) (f : FreqDiffs) (h1 : s.time.oot = []) (h2 : s.time.suspect = none) (h3 : s.time.sel < 2) :
  (f.outlier s.time.present s.time.sel = true → s.time.sel ∈ (s.compareRefs f).time.oot ∧ (s.compareRefs f).time.alarms = s.time.alarms ||| 1) ∧
  (s.time.present.length = 2 → f.apart s.time.sel 2 = true → (s.compareRefs f).time.st = .holdover ∧ (s.compareRefs f).time.sel = 2 ∧ (s.compareRefs f).time.suspect = some s.time.sel ∧
    (s.compareRefs f).time.alarms = s.time.alarms ||| 2) := by
  have e0 : ([0, 1].foldl (fun (s : State) r =>
    if (s.time.oot.contains r || s.time.suspect == some r) = true then (s.countAgree f r).clearMarks r else s) s) = s := by
    simp [h1, h2]
  unfold State.compareRefs
  rw [e0]
  simp only []
  generalize hb : ([0, 1, 2].filter fun r => f.outlier s.time.present r && !s.time.oot.contains r) = bad
  have hne : (s.time.sel != 2) = true := by simp; omega
  refine ⟨fun h => ?_, fun h g => ?_⟩
  · have hm : s.time.sel ∈ bad := by
      rw [← hb]
      refine List.mem_filter.mpr ⟨?_, ?_⟩
      · have : s.time.sel = 0 ∨ s.time.sel = 1 := by omega
        rcases this with k | k <;> simp [k]
      · rw [h, h1]; rfl
    rw [if_pos (by rw [hne, List.contains_iff_mem.mpr hm]; rfl)]
    generalize hv : State.timeAlarm _ 0 Code.timeDrift = v
    obtain ⟨a, b, c⟩ := reselect_alarms v
    rw [a, c, ← hv]
    exact ⟨List.mem_append_right _ hm, rfl⟩
  · have hbad : bad = [] := by
      rw [← hb, List.filter_eq_nil_iff]
      intro r hr
      unfold FreqDiffs.outlier
      rw [h]; simp
    rw [if_neg (by rw [hbad]; simp), if_pos ⟨by omega, h, g⟩]
    exact ⟨rfl, rfl, rfl, rfl⟩

theorem emits_spec {α : Type} (g : α → List OutMsg) (f : State → α → State) (hf : ∀ v q, f v q = { v with out := v.out ++ g q }) (l : List α) (s : State) :
    l.foldl f s = { s with out := s.out ++ l.flatMap g } := by
  induction l generalizing s with
  | nil => simp
  | cons q l ih => rw [List.foldl_cons, ih, hf]; simp

theorem emits2_spec (u : State) (n : Nat) (l : List Nat) : l.foldl (fun (s : State) q => (s.emit (.ptp 1 q n 0)).emit (.ptp 2 q n s.now)) u = { u with
    out := u.out ++ l.flatMap fun q => [.ptp 1 q n 0, .ptp 2 q n u.time.now] } := by
  induction l generalizing u with
  | nil => simp
  | cons q l ih => rw [List.foldl_cons, ih]; simp [State.emit]; rfl

theorem announces_spec (u : State) (n : Nat) (l : List Nat) : l.foldl (fun (s : State) q => s.emit (.ptp 5 q n s.clockClass)) u = { u with
    out := u.out ++ l.map fun q => .ptp 5 q n u.clockClass } := by
  induction l generalizing u with
  | nil => simp
  | cons q l ih =>
    rw [List.foldl_cons, ih]
    have : (u.emit (.ptp 5 q n u.clockClass)).clockClass = u.clockClass := rfl
    rw [this]; simp [State.emit]

theorem dropTod_keeps (s : State) : s.dropTod.time.present = s.time.present ∧ s.dropTod.rooms = s.rooms ∧ s.dropTod.time.todPending = none := by
  unfold State.dropTod
  by_cases q : s.time.todPending.isSome = true
  · rw [if_pos q]; exact ⟨rfl, rfl, rfl⟩
  · rw [if_neg q]; exact ⟨rfl, rfl, by simpa using q⟩

end Sys2Proof.Machine
end

