-- ==== Sys2Proof/WellFormed.lean ====
section
/-! DEFINITION. Which commands are well-formed: every operand within the range its row's unit has. -/

namespace Sys2Proof

/-- A core code of Table 3.5: die in bit 7, logical core in bits 5 to 0. -/
def coreOk (core : Nat) : Bool := decide (core % 128 < 64) && decide (core / 128 < 2)

/-- The sizes of a register access that BAR0 can carry. -/
def sizeOk (size : Nat) : Bool := decide (0 < size) && decide (size ≤ 64)

/-- A byte string given as numbers. -/
def bytesOk (l : List Nat) : Bool := l.all fun b => decide (b < 256)

/-- The field widths of an Omhel packet (Table 16.2). -/
def Pkt.wf (p : Pkt) : Bool :=
  decide (p.port < 24) && decide (p.proto < 256) && decide (p.ptype < 256) && decide (p.pflags < 256) &&
    decide (p.kgen < 256) && decide (p.mgen < 2 ^ 32) && decide (p.job < 2 ^ 32) && decide (p.incarn < 2 ^ 32) &&
    decide (p.flow < 65536) && decide (p.plen < 65536) && decide (p.psn < 2 ^ 64) && bytesOk p.payload

/-- A ring, a room, a function, a member and a port of the device. -/
def ringOk (ring : Nat) : Bool := decide (ring < 16384)
def roomOk (room : Nat) : Bool := decide (room < 64)
def fnOk (fn : Nat) : Bool := decide (fn < 64)
def midOk (mid : Nat) : Bool := decide (mid < 262144)
def portOk (port : Nat) : Bool := decide (port < 24)

/-- A flow of a room to a peer (Table 16.4). -/
def flowKeyOk (room peer flow : Nat) : Bool := roomOk room && midOk peer && decide (flow < 65536)

/-- The gate bits of a group of POWER_CLKGATE or POWER_PWRGATE: the 68 cores of a die, or 25 other units (Table 20.12). -/
def gateOk (group value : Nat) : Bool := decide (group < 3) && decide (value < 2 ^ (if group < 2 then 68 else 25))

/-- What a read of the cellar met: one of 32 packages (Table 10.7). -/
def CellarRead.wf (e : CellarRead) : Bool := decide (e.package < 32)

/-- An answer of a firmware server: bytes, a TFTP block at most 512 of them (R371). -/
def Served.wf : Served → Bool
  | .silent => true
  | .unproven => true
  | .file bytes _ => bytesOk bytes
  | .block bytes _ => bytesOk bytes && decide (bytes.length ≤ 512)

/-- A command all of whose operands are in range. -/
def Instr.wf (i : Instr) : Bool :=
  match i with
  | .matrix core => coreOk core
  | .arrayIdle core array => coreOk core && decide (array < 8)
  | .tileVerdict w _ => coreOk w.core
  | .detectedError w _ => coreOk w.core
  | .bankParityOutsideWord core => coreOk core
  | .storeDoubleBitError core => coreOk core
  | .tileWatchdog core => coreOk core
  | .add core => coreOk core
  | .sub core => coreOk core
  | .mul core => coreOk core
  | .max core => coreOk core
  | .min core => coreOk core
  | .axpb core => coreOk core
  | .axpy core => coreOk core
  | .func core => coreOk core
  | .convert core => coreOk core
  | .lnsmul core => coreOk core
  | .cmpgt core => coreOk core
  | .and core => coreOk core
  | .or core => coreOk core
  | .xor core => coreOk core
  | .shift core => coreOk core
  | .rowSum core => coreOk core
  | .rowMax core => coreOk core
  | .rowDot core => coreOk core
  | .meanvar core => coreOk core
  | .normApply core => coreOk core
  | .smaxStep core => coreOk core
  | .rowScale core => coreOk core
  | .rowDiv core => coreOk core
  | .smaxApply core => coreOk core
  | .move core => coreOk core
  | .moveComplete w => coreOk w.core && w.cellar.wf
  | .shape core => coreOk core
  | .shapeComplete w => coreOk w.core
  | .stepBarrier core => coreOk core
  | .set core => coreOk core
  | .syncWait core => coreOk core
  | .unfold core => coreOk core
  | .slotStart entry _ => decide (entry < 512)
  | .slotEnd entry _ => decide (entry < 512)
  | .contextSwitch core => coreOk core
  | .nop ring => ringOk ring
  | .launch ring => ringOk ring
  | .copy ring => ringOk ring
  | .fill ring => ringOk ring
  | .signal ring => ringOk ring
  | .wait ring => ringOk ring
  | .waitTimeout ring _ => ringOk ring
  | .barrierJoin ring => ringOk ring
  | .powerCap ring => ringOk ring
  | .clockPlan ring => ringOk ring
  | .sharingTable ring => ringOk ring
  | .precisionMode ring => ringOk ring
  | .endJob ring => ringOk ring
  | .timestamp ring => ringOk ring
  | .fork ring => ringOk ring
  | .prune ring => ringOk ring
  | .branchRead ring => ringOk ring
  | .unmap ring => ringOk ring
  | .mapAuto ring => ringOk ring
  | .mapUpper ring => ringOk ring
  | .mapCold ring => ringOk ring
  | .mapStream ring => ringOk ring
  | .mapWindow ring => ringOk ring
  | .setAuto ring => ringOk ring
  | .setUpper ring => ringOk ring
  | .setCold ring => ringOk ring
  | .setStream ring => ringOk ring
  | .view ring => ringOk ring
  | .forest ring => ringOk ring
  | .kernel ring => ringOk ring
  | .clear ring => ringOk ring
  | .haulPlan ring => ringOk ring
  | .checkpoint ring => ringOk ring
  | .restore run => ringOk run.ring && run.cellar.wf
  | .mirrorFetchTimeout room _ => roomOk room
  | .decodeOpen ring => ringOk ring
  | .decodeFrame ring => ringOk ring
  | .decodeClose ring => ringOk ring
  | .developLoad ring => ringOk ring
  | .developFrame ring => ringOk ring
  | .tokenizeLoad ring => ringOk ring
  | .tokenizeRun ring => ringOk ring
  | .augment ring => ringOk ring
  | .put ring => ringOk ring
  | .get ring => ringOk ring
  | .cancel ring => ringOk ring
  | .doorbell fn offset size value _ => fnOk fn && decide (offset < 33554432) && sizeOk size && decide (value < 2 ^ 64)
  | .descriptorFetch ring => ringOk ring
  | .moderationTimer ring _ => ringOk ring
  | .vectorUnmask fn vector => fnOk fn && decide (vector < 32)
  | .ringRestart => true
  | .start fn room _ => fnOk fn && roomOk room
  | .commit fn room => fnOk fn && roomOk room
  | .turnover fn room _ => fnOk fn && roomOk room
  | .functionLevelReset fn => fnOk fn
  | .vfEnableChange _ num => decide (num < 64)
  | .gateClose room => roomOk room
  | .drainLimit room unit _ => roomOk room && decide (unit < 65536)
  | .zeroingComplete room _ => roomOk room
  | .check fn => fnOk fn
  | .activate fn => fnOk fn
  | .frameBoundary _ => true
  | .netCommit fn => fnOk fn
  | .ringtabSel fn value => fnOk fn && decide (value < 2 ^ 64)
  | .ringtabRestart fn value => fnOk fn && decide (value < 2 ^ 64)
  | .ingestSel fn value => fnOk fn && decide (value < 2 ^ 64)
  | .memPromoteHeat fn room value => fnOk fn && roomOk room && decide (value < 2 ^ 64)
  | .timeNowLo fn => fnOk fn
  | .timeTodSet fn value => fnOk fn && decide (value < 2 ^ 64)
  | .powerClkgate fn group value => fnOk fn && gateOk group value
  | .powerPwrgate fn group value => fnOk fn && gateOk group value
  | .tenantAttest fn room => fnOk fn && roomOk room
  | .tenant fn room => fnOk fn && roomOk room
  | .importKey fn room _ => fnOk fn && roomOk room
  | .consent fn room _ => fnOk fn && roomOk room
  | .revoke fn room => fnOk fn && roomOk room
  | .wideRegisterRead fn offset size => fnOk fn && decide (offset < 33554432) && sizeOk size
  | .registerWrite fn offset size value _ => fnOk fn && decide (offset < 33554432) && sizeOk size && decide (value < 2 ^ 64)
  | .forkCmd room => roomOk room
  | .pruneCmd room => roomOk room
  | .sample room => roomOk room
  | .score room => roomOk room
  | .samplerError room err => roomOk room && decide (err.die < 2)
  | .decodeBatch room _ => roomOk room
  | .decodeBatchEnd room _ => roomOk room
  | .benchRun room _ => roomOk room
  | .benchRunEnd room _ => roomOk room
  | .bmm room _ => roomOk room
  | .benchAdd room _ => roomOk room
  | .benchSub room _ => roomOk room
  | .benchMul room _ => roomOk room
  | .benchMax room _ => roomOk room
  | .benchMin room _ => roomOk room
  | .benchAxpb room _ => roomOk room
  | .benchAxpy room _ => roomOk room
  | .benchConvert room _ => roomOk room
  | .benchExp room _ => roomOk room
  | .rsum room _ => roomOk room
  | .rmax room _ => roomOk room
  | .rdot room _ => roomOk room
  | .carry room _ => roomOk room
  | .smerge room _ => roomOk room
  | .benchFill room _ => roomOk room
  | .benchCopy room _ => roomOk room
  | .benchTimeout room _ => roomOk room
  | .benchError room site unit _ => roomOk room && decide (site < 16) && decide (unit < 64)
  | .windowFill room _ => roomOk room
  | .migrationEpoch _ => true
  | .migrationSwitch room page => roomOk room && decide (page < 2 ^ 31)
  | .snapshotComplete room => roomOk room
  | .mirrorAck room _ => roomOk room
  | .collectiveExecution room index => roomOk room && decide (index < 256)
  | .collectiveComplete room index _ => roomOk room && decide (index < 256)
  | .data p => p.wf
  | .ack p => p.wf
  | .nack p => p.wf
  | .getreq p => p.wf
  | .refuse p => p.wf
  | .busy p => p.wf
  | .ackTimer room peer flow _ => flowKeyOk room peer flow
  | .nackTimer room peer flow _ => flowKeyOk room peer flow
  | .retransmitTimer room peer flow psn _ => flowKeyOk room peer flow && decide (psn < 2 ^ 64)
  | .rateIncrease room peer flow _ => flowKeyOk room peer flow
  | .pathReturn port _ _ => portOk port
  | .arp port _ => portOk port
  | .neighbourDiscovery port _ => portOk port
  | .icmpEcho port _ _ => portOk port
  | .keyOverlapEnd _ tag _ => decide (tag < 2 ^ 32)
  | .admitMember p => p.wf
  | .admitted p => p.wf
  | .refused p => p.wf
  | .admitRetry _ => true
  | .renewTimer _ => true
  | .renew p => p.wf
  | .grant p => p.wf
  | .leaseExpiry _ => true
  | .leaseLapse mid _ => midOk mid
  | .key p => p.wf
  | .gen p => p.wf
  | .fence p => p.wf
  | .probe p => p.wf
  | .probeAck p => p.wf
  | .probeTimeout mid _ => midOk mid
  | .report p => p.wf
  | .leave p => p.wf
  | .rekey p => p.wf
  | .join p => p.wf
  | .assemblyTimeout tag _ => decide (tag < 2 ^ 32)
  | .jobRecordExpiry tag _ => decide (tag < 2 ^ 32)
  | .jobStart p => p.wf
  | .map p => p.wf
  | .barJoin room => roomOk room
  | .barJoinMessage p => p.wf
  | .release p => p.wf
  | .barLocal room _ => roomOk room
  | .barTimeout tag _ => decide (tag < 2 ^ 32)
  | .fault p => p.wf
  | .abort p => p.wf
  | .jobFault room code unit => roomOk room && decide (code < 65536) && decide (unit < 65536)
  | .linkNonce mid nonce => midOk mid && bytesOk nonce
  | .linkReport mid bytes _ => midOk mid && bytesOk bytes
  | .linkResend mid _ => midOk mid
  | .stewardCrash crash _ => decide (crash.pair < 4)
  | .stewardWatchdog pair _ => decide (pair < 4)
  | .stewardRestartDone done _ => decide (done.pair < 4)
  | .stewardSlow pair _ => decide (pair < 4)
  | .imageFetch served => served.all Served.wf
  | .tftpRetransmit _ => true
  | .fetchRetry _ => true
  | .standbyPowerGood _ _ _ _ => true
  | .strapLatch straps => decide (straps < 4096)
  | .mainStart _ _ => true
  | .railStep _ => true
  | .railFail _ => true
  | .railRetry _ => true
  | .linkTraining width speed _ => decide (width < 32) && decide (speed < 16)
  | .hostReset _ _ _ => true
  | .hostResetEnd _ => true
  | .hotReset => true
  | .sagWarning _ => true
  | .sagClear _ => true
  | .mainReset _ _ => true
  | .standbyLoss _ => true
  | .powerControl _ _ _ => true
  | .thermalControl die _ _ => decide (die < 2)
  | .junctionTrip die _ _ => decide (die < 2)
  | .tripRecovery die _ => decide (die < 2)
  | .droopTrip unit => decide (unit < 166)
  | .droopRecovery unit _ _ => decide (unit < 166)
  | .stackBandReading site _ _ => decide (site < 16)
  | .stackShutdown site _ _ => decide (site < 16)
  | .stackReturn site _ => decide (site < 16)
  | .stackScrub site _ => decide (site < 16)
  | .crcError unit _ _ _ => decide (unit < 166)
  | .securityFault unit => decide (unit < 166)
  | .fuseReread _ => true
  | .consentExpiry room _ => roomOk room
  | .debugWindowEnd _ => true
  | .identity _ => true
  | .attest _ nonce => bytesOk nonce
  | .claim token pub _ => bytesOk token && bytesOk pub
  | .auditRead _ _ => true
  | .healthRead _ _ => true
  | .auditAck _ _ => true
  | .reboot _ => true
  | .roomSec _ room cmd body _ => roomOk room && decide (cmd < 256) && bytesOk body
  | .setNet _ body => bytesOk body
  | .setServers _ _ => true
  | .setCa _ _ => true
  | .setCaravan _ body => bytesOk body
  | .clearLaggard _ mid => midOk mid
  | .removeMember _ mid => midOk mid
  | .addOperator _ pub => bytesOk pub
  | .delOperator _ index => decide (index < 256)
  | .addInstaller _ pub => bytesOk pub
  | .delInstaller _ index => decide (index < 256)
  | .releaseClaim _ => true
  | .svnCommit _ _ => true
  | .debugAllow _ _ => true
  | .debug _ rooms _ => rooms.all fun r => decide (r < 65536)
  | .makerRevoke _ _ _ => true
  | .repairFuse _ _ _ => true
  | .retire _ _ => true
  | .referenceQualified ref _ => decide (ref < 3)
  | .referenceLoss ref _ => decide (ref < 3)
  | .referenceComparison _ _ _ _ _ => true
  | .lockAcquired _ => true
  | .ppsEdge _ => true
  | .sync _ => true
  | .followUp _ => true
  | .delayResp _ => true
  | .announce _ => true
  | .bmbIdent => true
  | .bmbStatus => true
  | .bmbPower => true
  | .bmbThermal => true
  | .alertResponse => true
  | .unfoldComplete core _ => coreOk core
  | .snapshotPageCopied c => roomOk c.room && c.cellar.wf
  | .probeResend mid _ => midOk mid
  | .getreqRetry room peer flow _ => flowKeyOk room peer flow
  | .portLink port _ => portOk port
  | .otherFrame port => portOk port
  | .delayReq _ => true
  | .ptpSyncInterval _ => true
  | .ptpDelayReqInterval _ => true
  | .ptpAnnounceInterval _ => true

end Sys2Proof
end

