-- ==== Sys2Proof/Tests/Slice0.lean ====
section
/-! SUPPORT. Tests of the model: what the checks on commands refuse, and for each statement with hypotheses a concrete state and operands that meet them, clause by clause. -/

namespace Sys2Proof.Tests

set_option Elab.async false

open Sys2Proof Sys2Proof.Machine Sys2Proof.Obl

/-! ## Ill-formed commands are refused by their check -/

/-- A packet with every field 0. -/
def pkt0 : Pkt := ⟨0, 0, 1, 0, 0, 0, 0, 0, 0, 0, 0, 0, 0, 0, 0, 0, 0, 0, 0, 0, true, false, []⟩

theorem test_wf_core : (Instr.matrix 64).wf = false ∧ (Instr.matrix 191).wf = true ∧ (Instr.matrix 256).wf = false := by decide

theorem test_wf_array : (Instr.arrayIdle 0 8).wf = false ∧ (Instr.arrayIdle 0 7).wf = true := by decide

theorem test_wf_entry : (Instr.slotStart 512 0).wf = false ∧ (Instr.slotStart 511 0).wf = true := by decide

theorem test_wf_ring : (Instr.nop 16384).wf = false ∧ (Instr.nop 16383).wf = true := by decide

theorem test_wf_room : (Instr.gateClose 64).wf = false ∧ (Instr.gateClose 63).wf = true := by decide

theorem test_wf_function : (Instr.check 64).wf = false ∧ (Instr.vectorUnmask 0 32).wf = false ∧ (Instr.vfEnableChange true 64).wf = false ∧ (Instr.check 63).wf = true := by decide

theorem test_wf_register : (Instr.wideRegisterRead 0 33554432 4).wf = false ∧ (Instr.wideRegisterRead 0 0 0).wf = false ∧
    (Instr.registerWrite 0 0 4 (2 ^ 64) []).wf = false ∧ (Instr.wideRegisterRead 0 0 64).wf = true := by decide

theorem test_wf_gate_group : (Instr.powerClkgate 0 3 0).wf = false ∧ (Instr.powerClkgate 0 2 0).wf = true := by decide

theorem test_wf_die : (Instr.samplerError 0 ⟨2, none⟩).wf = false ∧ (Instr.thermalControl 2 ⟨0, 0, 0⟩ 0).wf = false ∧ (Instr.thermalControl 1 ⟨0, 0, 0⟩ 0).wf = true := by decide

theorem test_wf_unit : (Instr.benchError 0 16 0 true).wf = false ∧ (Instr.benchError 0 0 64 true).wf = false ∧ (Instr.drainLimit 0 65536 0).wf = false ∧
    (Instr.droopTrip 166).wf = false ∧ (Instr.stackReturn 16 0).wf = false ∧ (Instr.droopTrip 165).wf = true := by decide

theorem test_wf_page_and_record : (Instr.migrationSwitch 0 (2 ^ 31)).wf = false ∧ (Instr.collectiveExecution 0 256).wf = false ∧ (Instr.collectiveExecution 0 255).wf = true := by decide

theorem test_wf_packet : (Instr.data pkt0).wf = true ∧ (Instr.data { pkt0 with port := 24 }).wf = false ∧ (Instr.data { pkt0 with proto := 256 }).wf = false ∧
    (Instr.data { pkt0 with ptype := 256 }).wf = false ∧ (Instr.data { pkt0 with pflags := 256 }).wf = false ∧ (Instr.data { pkt0 with kgen := 256 }).wf = false ∧
    (Instr.data { pkt0 with mgen := 2 ^ 32 }).wf = false ∧ (Instr.data { pkt0 with job := 2 ^ 32 }).wf = false ∧ (Instr.data { pkt0 with incarn := 2 ^ 32 }).wf = false ∧
    (Instr.data { pkt0 with flow := 65536 }).wf = false ∧ (Instr.data { pkt0 with plen := 65536 }).wf = false ∧ (Instr.data { pkt0 with psn := 2 ^ 64 }).wf = false ∧
    (Instr.data { pkt0 with payload := [256] }).wf = false := by decide

theorem test_wf_flow : (Instr.ackTimer 0 262144 0 0).wf = false ∧ (Instr.ackTimer 0 0 65536 0).wf = false ∧ (Instr.retransmitTimer 0 0 0 (2 ^ 64) 0).wf = false ∧
    (Instr.arp 24 0).wf = false ∧ (Instr.ackTimer 63 262143 65535 0).wf = true := by decide

theorem test_wf_member_and_tag : (Instr.leaseLapse 262144 0).wf = false ∧ (Instr.barTimeout (2 ^ 32) 0).wf = false ∧ (Instr.leaseLapse 262143 0).wf = true := by decide

theorem test_wf_fault_code : (Instr.jobFault 0 65536 0).wf = false ∧ (Instr.jobFault 0 0 65536).wf = false ∧ (Instr.jobFault 0 65535 65535).wf = true := by decide

theorem test_wf_pair_straps_link : (Instr.stewardCrash ⟨4, false, 0⟩ 0).wf = false ∧ (Instr.strapLatch 4096).wf = false ∧ (Instr.linkTraining 32 5 0).wf = false ∧
    (Instr.stewardRestartDone ⟨4, true⟩ 0).wf = false ∧ (Instr.stewardCrash ⟨3, false, 0⟩ 0).wf = true := by decide

theorem test_wf_bytes : (Instr.setNet .nobody [256]).wf = false ∧ (Instr.roomSec .nobody 0 256 [] true).wf = false ∧ (Instr.delOperator .nobody 256).wf = false ∧
    (Instr.debug .nobody [65536] 0).wf = false ∧ (Instr.referenceLoss 3 0).wf = false ∧ (Instr.setNet .nobody [255]).wf = true := by decide

/-- A package of the cellar, and a block of a TFTP transfer. -/
theorem test_wf_cellar_and_block : (Instr.moveComplete ⟨0, 0, ⟨32, 0, false⟩⟩).wf = false ∧ (Instr.moveComplete ⟨0, 0, ⟨31, 0, false⟩⟩).wf = true ∧
    (Instr.restore ⟨0, ⟨32, 0, false⟩⟩).wf = false ∧ (Instr.snapshotPageCopied ⟨64, ⟨0, 0, false⟩⟩).wf = false ∧ (Instr.snapshotPageCopied ⟨0, ⟨32, 0, false⟩⟩).wf = false ∧
    (Instr.imageFetch [.block (List.replicate 513 0) []]).wf = false ∧ (Instr.imageFetch [.block (List.replicate 512 0) []]).wf = true := by decide +kernel

/-! ## State builders -/

/-- Fields by byte offset as one little-endian number. -/
def fields (l : List (Nat × Nat)) : Nat := l.foldl (fun a p => a + p.2 <<< (8 * p.1)) 0

/-- A running incarnation of a job of one device. -/
def job1 : Job :=
  { ring := 1, seq := 7, restore := false, incarn := 3, seed := 5, devices := 1, rank := 0, image := 0, args := [11, 12], phase := 2, first := 0, step := 2,
    cores := [0], waiveAdd := false, waiveLoose := false, joined := [], firstJoin := none, waiting := false, released := some 1, marked := false, snapWait := false, faulted := false,
    tag := 0, kgen := 0, buddy := 0, joinSeq := 0, aborted := none, reportedSnap := 0, complete := none, benchErrs := [], ranks := [], source := 0, holder := 0,
    askStep := 0, fetchAt := none, check := ⟨0, 0, false⟩ }

def room1 : Room := { Room.reset 0 with st := .committed }
def pairUp : Pair := { Pair.reset with st := 1 }
def cqRing : Ring := { Ring.reset with kind := 2, st := .active, ldepth := 4, base := 4096 }
def dqRing (l : List Desc) : Ring := { Ring.reset with kind := 1, st := .active, ldepth := 4, base := 8192, cq := 0, descs := l }

/-- A device in service: room 0 committed with a completion ring 0 and a descriptor ring 1, its stewards running. -/
def up : State :=
  { State.reset with
    rooms := [(0, room1)]
    rings := [(0, cqRing), (1, dqRing [])]
    stewards := { Stewards.reset with
      pairs := [(0, pairUp), (1, pairUp), (2, pairUp), (3, pairUp)]
      ready := true
      stores := [(0, ⟨[], []⟩), (1, ⟨[], []⟩)] }
    sec := { Strongroom.reset with
      stage := 10
      installers := [[1]]
      operators := [[2]] }
    module := { Module.reset with
      standby := true
      rail := 6
      pwrGood := true
      settled := true
      linkUp := true } }

/-- That device with its job running. -/
def busy : State := up.setRoom 0 { room1 with job := some job1 }

/-- A room's memory that holds a number of a length at an address. -/
def holding (a n v : Nat) : RoomMem := { RoomMem.reset with data := memWriteN [] a (leBytes n v) }

/-- A context whose body lies at 2 MiB, at its start. -/
def ctx1 : Ctx :=
  { incarnation := 3, storeBase := 0, dataBytes := 65536, commonBytes := 0, pro := 0, proLen := 0, body := 2097152, bodyLen := 4096, inPro := false, pc := 0, step := 2,
    startPc := 0, atBarrier := false, stopped := false, flights := [], shape := [(1, 3)], sync := [(0, 4)], errors := 0, saved := none, busy := 0, nominal := 0,
    slowness := [], due := none, readyAt := none, waitAt := none, posters := [], joinedAt := none }

/-- The busy device with core 0 serving room 0 in a context whose next word has the given length and fields. -/
def atWord (len : Nat) (x : Ctx) (l : List (Nat × Nat)) : State :=
  { busy with
    rooms := [(0, { room1 with job := some job1, mem := holding 2097152 len (fields l) })]
    cores := [(0, { Core.reset with ctxs := [(0, x)], sel := some 0 }), (1, { Core.reset with ctxs := [(0, ctx1)], sel := some 0 })] }

def flight1 (k : FlightKind) : Flight := Flight.new k 0 0

/-- The busy device with words in flight on core 0. -/
def inFlight (l : List Flight) : State := atWord 1 { ctx1 with flights := l } []

/-! ## Words (chapters 3, 4 and 6) -/

/-- Whether the next word of a core and its length meet a test. -/
def nextIs (s : State) (core : Nat) (p : Next → Bool) : Bool := (s.nextWord core).any p

theorem test_matrix_word_issues : nextIs (atWord 96 ctx1 [(0, 1), (12, 1), (14, 1), (16, 1), (76, 1)]) 0 (fun n => match n.word with
    | .matrix w => !w.shapeBound (w.shapeAt n.ctx.sregVal) && !(w.shapeAt n.ctx.sregVal).empty
    | _ => false) = true := by decide +kernel

theorem test_matrix_word_over_bound : nextIs (atWord 96 { ctx1 with shape := [(1, 65535)] } [(0, 1), (9, 1), (12, 1), (14, 1), (16, 1), (18, 1), (76, 1)]) 0 (fun n => match n.word with
    | .matrix w => w.shapeBound (w.shapeAt n.ctx.sregVal)
    | _ => false) = true := by decide +kernel

theorem test_matrix_word_empty : nextIs (atWord 96 ctx1 [(0, 1), (9, 1), (12, 1), (14, 1), (16, 1), (18, 2), (76, 1)]) 0 (fun n => match n.word with
    | .matrix w => !w.shapeBound (w.shapeAt n.ctx.sregVal) && (w.shapeAt n.ctx.sregVal).empty
    | _ => false) = true := by decide +kernel

theorem test_vector_word_issues : nextIs (atWord 64 ctx1 [(0, 2), (4, 1), (8, 1), (10, 1)]) 0 (fun n => match n.word with
    | .vector w => w.op == 0x01 && !w.shapeBound (w.rowsAt n.ctx.sregVal) (w.colsAt n.ctx.sregVal) && decide (0 < w.rowsAt n.ctx.sregVal) && decide (0 < w.colsAt n.ctx.sregVal)
    | _ => false) = true := by decide +kernel

theorem test_vector_word_of_banks_issues : nextIs (atWord 64 ctx1 [(0, 2), (1, 6), (4, 1), (8, 1), (10, 1)]) 0 (fun n => match n.word with
    | .vector w => w.xb && w.zb && !w.namedBanks.isEmpty && !w.shapeBound (w.rowsAt n.ctx.sregVal) (w.colsAt n.ctx.sregVal) && decide (0 < w.colsAt n.ctx.sregVal)
    | _ => false) = true := by decide +kernel

theorem test_vector_word_over_bound : nextIs (atWord 64 { ctx1 with shape := [(1, 2)] } [(0, 2), (4, 0x1B), (8, 1), (10, 1), (12, 16), (13, 1)]) 0 (fun n => match n.word with
    | .vector w => w.op == 0x1B && w.shapeBound (w.rowsAt n.ctx.sregVal) (w.colsAt n.ctx.sregVal)
    | _ => false) = true := by decide +kernel

theorem test_unfold_word_issues : nextIs (atWord 64 ctx1 [(0, 6)]) 0 (fun n => match n.word with
    | .unfold _ => true
    | _ => false) = true := by decide +kernel

/-- SHAPE of each of its three sources; the job gives launch arguments. -/
theorem test_shape_word_issues : ([0, 1, 2].all fun src => nextIs (atWord 32 ctx1 [(0, 5), (4, src * 16 + 1), (8, 1)]) 0 (fun n => match n.word with
    | .shape w => w.src == src && w.sreg == 1
    | _ => false)) = true ∧ (busy.room 0).job = some job1 := by decide +kernel

/-- An interlock, a waiting word and an UNFOLD in flight each keep the next word from issuing (R79). -/
theorem test_next_word_waits : nextIs (atWord 32 { ctx1 with flights := [flight1 .move] } [(0, 4), (4, 2)]) 0 (fun _ => true) = true ∧
    nextIs (atWord 32 { ctx1 with flights := [flight1 .move] } [(0, 4), (4, 0)]) 0 (fun _ => true) = false ∧
    nextIs (atWord 64 { ctx1 with flights := [flight1 .unfold] } [(0, 6)]) 0 (fun _ => true) = false := by decide +kernel

/-- A MATRIX word in flight behind a MOVE and before a VECTOR word of another slot; the VECTOR word completes before it too (R79). -/
theorem test_word_completes : ((inFlight [flight1 .move, flight1 .matrix, Flight.new .vector 5 0]).core 0).sel = some 0 ∧
    (((inFlight [flight1 .move, flight1 .matrix, Flight.new .vector 5 0]).core 0).ctx 0).isSome = true ∧
    OldestOf (Flight.wordAt 0) [flight1 .move, flight1 .matrix, Flight.new .vector 5 0] [flight1 .move] (flight1 .matrix) [Flight.new .vector 5 0] ∧
    OldestOf (Flight.wordAt 5) [flight1 .move, flight1 .matrix, Flight.new .vector 5 0] [flight1 .move, flight1 .matrix] (Flight.new .vector 5 0) [] := by
  unfold OldestOf; decide +kernel

theorem test_unfold_completes : OldestOf (fun f => f.kind = .unfold) [flight1 .matrix, flight1 .unfold] [flight1 .matrix] (flight1 .unfold) [] := ⟨rfl, rfl, by decide⟩

theorem test_shape_completes : OldestOf (fun f => decide (f.kind = .shape) && decide (f.slot = 0)) [flight1 .shape, flight1 .shape] [] (flight1 .shape) [flight1 .shape] := ⟨rfl, rfl, by decide⟩

/-- A MOVE of one row of 16 bytes from the own store; its destination's space and address, and its source's space, are given. -/
def move1 (src dst a : Nat) : MoveWord := MoveWord.ofNat (fields [(0, 3), (4, src + 16 * dst), (6, 1), (8, if src = 3 then 2097152 else 0), (16, a), (24, 16), (28, 1)])
def moving (w : MoveWord) : State := inFlight [flight1 .shape, { flight1 .move with move := some w }]

/-- A MOVE that completes: within the own store, to another core whose context of the room exists, and from a device address that the room has not mapped (its row
fails); one from a cellar page, and one whose row waits for the page that it writes. -/
theorem test_move_completes : OldestOf (Flight.moveAt 0) [flight1 .shape, { flight1 .move with move := some (move1 0 0 0) }] [flight1 .shape]
      { flight1 .move with move := some (move1 0 0 0) } [] ∧
    (moving (move1 0 0 0)).mayServe 0 0 = true ∧ ((moving (move1 0 0 0)).room 0).running = true ∧ (moving (move1 0 0 0)).readsHalf 0 (move1 0 0 0) 0 = false ∧
    (((moving (move1 0 0 0)).account 0).moveRows 0 0 (move1 0 0 0) { flight1 .move with move := some (move1 0 0 0) }).stop = none ∧
    (((moving (move1 0 2 0)).account 0).moveRows 0 0 (move1 0 2 0) { flight1 .move with move := some (move1 0 2 0) }).stop = none ∧
    ((((moving (move1 3 0 0)).account 0).moveRows 0 0 (move1 3 0 0) { flight1 .move with move := some (move1 3 0 0) }).stop.any fun c => c.isSome) = true ∧
    (((moving (move1 0 2 0)).core 1).ctx 0).isSome = true ∧ (move1 0 2 0).peer = 1 ∧ (move1 0 2 0).rows = 1 ∧ (move1 0 2 0).dstSp = 2 ∧ (flight1 .move).rows = 0 := by
  unfold OldestOf; decide +kernel

def cellarRoom (l : List Nat) : Room := { room1 with
  job := some job1
  mem := { RoomMem.reset with
    pages := [(1, ⟨1, 0, .cellar 0 3, 0, none⟩)]
    snap := { SnapSt.reset with pending := l } } }
def deviceMove (l : List Nat) (w : MoveWord) : State := { moving w with rooms := [(0, cellarRoom l)] }

theorem test_move_of_device_memory : (deviceMove [] (move1 3 0 0)).readsHalf 0 (move1 3 0 0) 0 = true ∧ (⟨0, 0, true⟩ : CellarRead).half = 0 ∧
    (((deviceMove [1] (move1 0 3 2097152)).account 0).moveRows 0 0 (move1 0 3 2097152) { flight1 .move with move := some (move1 0 3 2097152) }).stop = some none := by decide +kernel

/-- A MOVE word of ordinary writes and one of unordered adds stand next; a row between core stores can be made. -/
theorem test_move_word_runs : nextIs (atWord 64 ctx1 [(0, 3), (24, 16), (28, 1)]) 0 (fun n => match n.word with
    | .move w => !w.uadd && w.rows == 1
    | _ => false) = true ∧ nextIs (atWord 64 ctx1 [(0, 3), (1, 2), (4, 48), (5, 9), (24, 16), (28, 1)]) 0 (fun n => match n.word with
    | .move w => w.uadd && w.dstSp == 3
    | _ => false) = true ∧ (move1 0 2 0).srcSp < 3 ∧ (move1 0 2 0).dstSp < 3 ∧ (move1 0 2 0).uadd = false := by decide +kernel

theorem test_detected_error : OldestOf (Flight.wordAt 0) [{ flight1 .matrix with latched := [2] }] [] { flight1 .matrix with latched := [2] } [] ∧ ctx1.errors = 0 ∧
    0 < ({ ctx1 with errors := 1 } : Ctx).errors := ⟨⟨rfl, rfl, by decide⟩, rfl, by decide⟩

/-- A word past its watchdog, one not yet past it, and a MOVE that waits on no cellar page. -/
theorem test_core_faults : (inFlight [flight1 .vector]).roomOn 0 = some 0 ∧ (((inFlight [flight1 .vector]).core 0).ctx 0).isSome = true ∧ (inFlight []).roomOn 0 = some 0 ∧
    (flight1 .vector).issued + ((inFlight [flight1 .vector]).upto 1000000).coreNs 0 102400 ≤ ((inFlight [flight1 .vector]).upto 1000000).time.now ∧
    (inFlight [flight1 .vector]).time.now < (flight1 .vector).issued + (inFlight [flight1 .vector]).coreNs 0 102400 ∧
    (moving (move1 0 0 0)).mayServe 0 0 = true ∧ (moving (move1 0 0 0)).moveCause 0 (flight1 .move) ≠ directRead := by decide +kernel

/-- STEP_BARRIER, SET to another core, WAIT at its value and one above it. -/
theorem test_sync_words : nextIs (atWord 32 ctx1 [(0, 4), (4, 0)]) 0 (fun n => match n.word with | .sync w => w.op == 0 | _ => false) = true ∧
    nextIs (atWord 32 ctx1 [(0, 4), (4, 1), (6, 1), (8, 5)]) 0 (fun n => match n.word with | .sync w => w.op == 1 && w.peer == 1 | _ => false) = true ∧
    (((atWord 32 ctx1 []).core 1).ctx 0).isSome = true ∧
    nextIs (atWord 32 ctx1 [(0, 4), (4, 2), (8, 4)]) 0 (fun n => match n.word with | .sync w => w.op == 2 && decide (w.value ≤ tget 0 n.ctx.sync w.ctr) | _ => false) = true ∧
    nextIs (atWord 32 ctx1 [(0, 4), (4, 2), (8, 5)]) 0 (fun n => match n.word with | .sync w => w.op == 2 && decide (tget 0 n.ctx.sync w.ctr < w.value) | _ => false) = true := by decide +kernel

/-- A valid entry that is not running, in a table of one entry with a frame of 100 us; then it runs, and ends at the frame's end. -/
def slotted (running : List Nat) : State := { busy with
  cores := [(0, { Core.reset with ctxs := [(0, ctx1)] })]
  sched := { Sched.reset with
    running := running
    active := { Schedule.reset with
      us := 100
      nent := 1
      entries := [(0, fields [(2, 100), (5, 1), (8, 1)])] } } }

theorem test_slot_starts_and_ends : entValid ((slotted []).entry 0) = true ∧ 0 < (slotted []).sched.active.nent ∧ 0 ∉ (slotted []).sched.running ∧ 0 < (slotted []).frameNs ∧
    100000 % (slotted []).frameNs = 1000 * entStart ((slotted []).entry 0) ∧ (slotted []).frameDue 100000 = false ∧ (slotted []).time.now ≤ 100000 ∧
    entCores ((slotted []).entry 0) = [0] ∧ ((slotted []).core 0).ctx (entRoom ((slotted []).entry 0)) = some ctx1 ∧ 0 ∈ (slotted [0]).sched.running ∧
    100000 % (slotted [0]).frameNs = 1000 * (entStart ((slotted [0]).entry 0) + entLen ((slotted [0]).entry 0)) % (slotted [0]).frameNs := by decide +kernel

theorem test_array_idle : ∀ x ∈ ((inFlight [{ flight1 .matrix with value := 2 }]).core 0).ctxs, ∀ f ∈ x.2.flights, f.kind = .matrix → f.value ≤ 2 := by decide +kernel

/-- Core 0 has served room 0, of which a MOVE is in flight, for 200 us; room 1 has a ready word too, and less virtual time. -/
def shared2 (since : Nat) : State := { busy with
  rooms := [(0, { room1 with job := some job1, mem := holding 2097152 32 (fields [(0, 4)]) }), (1, { Room.reset 1 with st := .committed, job := some job1, mem := holding 2097152 32 (fields [(0, 4)]) })]
  cores := [(0, { Core.reset with
    ctxs := [(0, { ctx1 with flights := [flight1 .move] }), (1, ctx1)]
    sel := some 0
    since := since })]
  sched := { Sched.reset with vtime := [(0, 7)] }
  time := { Timebase.reset with now := 200000 } }

theorem test_context_switch : ((shared2 0).core 0).sel = some 0 ∧ (((shared2 0).core 0).ctx 0).isSome = true ∧ ((shared2 0).core 0).ctx 1 = some ctx1 ∧
    (shared2 0).pickRoom 0 = some 1 ∧ (flight1 .move).kind = .move ∧ (shared2 0).slotOwner 0 = none ∧ 0 + 200000 ≤ (shared2 0).now := by decide +kernel

/-- A room that keeps its core for its first 200 us; the owner of a slot that does not lend, and of one that does. -/
theorem test_core_is_kept : (let s : State := { shared2 1 with cores := [(0, { Core.reset with ctxs := [(0, ctx1), (1, ctx1)], sel := some 0, since := 1 })] }
      (s.core 0).sel = some 0 ∧ 0 ∈ s.readyRooms 0 ∧ s.now < (s.core 0).since + 200000 ∧ s.slotOwner 0 = none) ∧
    (slotted [0]).slotOwner 0 = some (0, false) ∧
    (let s : State := { slotted [0] with
        rooms := [(0, { room1 with job := some job1, mem := holding 2097152 32 (fields [(0, 4)]) })]
        sched := { (slotted [0]).sched with active := { (slotted [0]).sched.active with entries := [(0, fields [(2, 100), (5, 3), (8, 1)])] } } }
     s.slotOwner 0 = some (0, true) ∧ s.ctxReady 0 0 = true) := by decide +kernel

/-! ## Descriptors (chapters 12 to 14) -/

/-- A descriptor of an opcode with more fields, in intake since time 0. -/
def desc (op : Nat) (l : List (Nat × Nat)) : Desc := ⟨0, fields ((0, op) :: l), false, 0, 0⟩

/-- A state with that descriptor in intake on ring 1. -/
def taking (s : State) (d : Desc) : State := s.setRing 1 (dqRing [d])

/-- Whether ring 1 of a state with one descriptor may start it for an opcode. -/
def starts (s : State) (op : Nat) (l : List (Nat × Nat)) (p : Desc → Bool) : Bool := ((taking s (desc op l)).canStartOp 1 op p).isSome

theorem test_completion_written : (taking up (desc 0 [])).ring 1 = dqRing ([] ++ desc 0 [] :: []) ∧ ((taking up (desc 0 [])).ring 1).cq ≠ 1 ∧ TakesRecord (taking up (desc 0 [])) 0 :=
  by unfold TakesRecord; decide +kernel

theorem test_plain_descriptors_start : ([0x00, 0x08, 0x04, 0x05, 0x06].all fun op => starts up op [] anyDesc) = true := by decide +kernel

/-- WAIT at its threshold; BARRIER_JOIN of a step still to come, and of one that has ended. -/
theorem test_wait_and_join : (desc 0x05 [(16, 4)]).fld 16 8 ≤ tget 0 ({ room1 with sems := [(0, 4)] } : Room).sems ((desc 0x05 [(16, 4)]).fld 8 2) ∧
    (busy.room 0).stepEnded ((desc 0x06 [(12, 2)]).fld 12 4) = false ∧ (busy.room 0).stepEnded ((desc 0x06 [(12, 1)]).fld 12 4) = true ∧
    (desc 0x06 [(12, 1)]).fld 8 1 = 0 ∧ (desc 0x06 [(8, 1), (12, 1)]).fld 8 1 = 1 ∧ starts busy 0x06 [(8, 1), (12, 1)] anyDesc = true := by decide +kernel

/-- A WAIT at the end of its time, behind a NOP. -/
theorem test_wait_timeout : ((up.setRing 1 (dqRing ([desc 0 []] ++ desc 0x05 [(12, 3)] :: []))).ring 1).kind = 1 ∧ (desc 0x05 [(12, 3)]).fld 12 4 ≠ 0 ∧
    (desc 0x05 [(12, 3)]).taken + 1000 * (desc 0x05 [(12, 3)]).fld 12 4 ≤ Nat.max up.time.now 3000 ∧ (desc 0 []).opcode ≠ 0x05 := by decide +kernel

/-- A COPY between device ranges, one of a confidential room from host space, one of a keyed rounding without a seed; a FILL. -/
theorem test_copy_and_fill : starts up 0x02 [(24, 4), (28, 1)] anyDesc = true ∧ (up.room 0).sec.conf = false ∧ up.noSeed 0 0 = false ∧
    up.noSeed 0 ((desc 0x02 [(41, 2)]).fld 41 1) = true ∧ ({ room1 with sec := { RoomSec.reset with conf := true } } : Room).sec.conf = true ∧
    (desc 0x02 [(42, 1)]).copySrc.host = true ∧ (desc 0x02 []).copySrc.host = false ∧ (desc 0x02 []).copyDst.host = false ∧ starts up 0x03 [(16, 4), (20, 1)] anyDesc = true ∧
    up.noSeed 0 ((desc 0x03 [(29, 2)]).fld 29 1) = true := by decide +kernel

/-- Doorbells at the depth and one past it, on a descriptor and on a completion ring. -/
theorem test_doorbells : (up.room 0).st = .committed ∧ 1 < (up.room 0).ringCount ∧ (up.ring ((up.room 0).ringBase + 1)).kind = 1 ∧
    (16 + 2 ^ 32 - (up.ring 1).count) % 2 ^ 32 ≤ (up.ring 1).depth ∧ (up.ring 1).depth < (17 + 2 ^ 32 - (up.ring 1).count) % 2 ^ 32 ∧ (up.ring 0).kind = 2 ∧
    (({ cqRing with count := 16 } : Ring).count + 2 ^ 32 - 0) % 2 ^ 32 ≤ cqRing.depth ∧ cqRing.depth < (({ cqRing with count := 17 } : Ring).count + 2 ^ 32 - 0) % 2 ^ 32 ∧
    (up.ring 1).st ≠ .disabled ∧ (up.ring 0).st ≠ .halted := by decide +kernel

/-- Two descriptors posted, read at once; refused by the host; and a good one taken. -/
def posted : State := up.setRing 1 { dqRing [] with bell := 2 }

theorem test_descriptor_fetch : (posted.ring 1).st = .active ∧ (posted.ring 1).available ≤ (posted.ring 1).depth ∧ (posted.ring 0).kind = 2 ∧
    Nat.min (Nat.min (posted.ring 1).available 16) (Nat.min ((posted.ring 1).depth - (posted.ring 1).count % (posted.ring 1).depth) ((posted.ring 0).freeSlots - 1)) = 2 ∧
    posted.hostOk 0 8192 128 false = true ∧ ({ posted with hostRefusals := [⟨0, 8192, 8193, true, false⟩] } : State).hostOk 0 8192 128 false = false ∧
    (desc 0 []).check 0 1 = none ∧ (posted.ring 1).count ∉ (posted.ring 1).cancelled := by decide +kernel

/-- CANCEL of an unread target, of one in intake, of a started one, and of a ring outside the grant. -/
theorem test_cancel : (desc 0x3F [(8, 2), (12, 5)]).fld 8 2 = 2 ∧ (desc 0x3F [(8, 2), (12, 5)]).fld 12 4 = 5 ∧ (up.room 0).ringBase + (up.room 0).ringCount ≤ 256 ∧
    (0 + 2 ^ 32 - (posted.ring 1).count) % 2 ^ 32 < (posted.ring 1).available ∧
    (let q : Ring := { dqRing [desc 0 []] with count := 1, bell := 1 }
     q.available ≤ (0 + 2 ^ 32 - q.count) % 2 ^ 32 ∧ 0 < (q.count + 2 ^ 32 - 0) % 2 ^ 32 ∧ (q.count + 2 ^ 32 - 0) % 2 ^ 32 ≤ q.depth ∧
       q.descs = [] ++ desc 0 [] :: [] ∧ (desc 0 []).seq = 0 ∧ (desc 0 []).opcode ≠ 0x3F) ∧ starts up 0x3F [(8, 2)] anyDesc = true := by decide +kernel

/-- A ring table of a completion ring and a descriptor ring at address 0, with a level of interface. -/
def entryC : Nat := fields [(0, 2), (1, 6)]
def entryD (cq : Nat) : Nat := fields [(0, 1), (1, 6), (4, cq)]
def beforeStart (e0 e1 iface : Nat) : State :=
  { up with
    rings := []
    host := memWriteN (memWriteN [] 0 (leBytes 64 e0)) 64 (leBytes 64 e1)
    rooms := [(0, { room1 with iface := iface, grant := { Grant.reset 0 with rings := 2 * 65536 } })] }

/-- The start's cases: no table; refused; a first ring of the wrong kind; a wrong level; a bad entry; all good. -/
theorem test_start : (∀ q ∈ span ((beforeStart 0 0 0).room 0).ringBase ((beforeStart 0 0 0).room 0).ringCount, ((beforeStart 0 0 0).ring q).st = .disabled) ∧
    ((beforeStart 0 0 0).room 0).rtab % 4096 = 0 ∧ ({ room1 with rtab := 4095 } : Room).rtab % 4096 ≠ 0 ∧ ({ room1 with st := .vacant } : Room).st ≠ .committed ∧
    ({ beforeStart 0 0 0 with hostRefusals := [⟨0, 0, 4096, true, true⟩] } : State).hostOk 0 0 128 false = false ∧
    ((List.range 2).filterMap fun i => (beforeStart entryC (entryD 1) 0x00010000).ringEntry 0 i) = [RingEntry.ofNat entryC, RingEntry.ofNat (entryD 1)] ∧
    (RingEntry.ofNat (entryD 1)).kind ≠ 2 ∧ (RingEntry.ofNat entryC).ok 0 2 (fun i => if i = 0 then 2 else 1) = true ∧ ((beforeStart 0 0 7).room 0).iface ≠ (beforeStart 0 0 7).fwIface ∧
    ((beforeStart 0 0 0x00010000).room 0).iface = (beforeStart 0 0 0x00010000).fwIface ∧ (RingEntry.ofNat (entryD 1)).ok 0 2 (fun i => if i = 0 then 2 else 1) = false ∧
    (RingEntry.ofNat 0).ok 0 2 (fun i => if i = 0 then 2 else 0) = true := by decide +kernel

/-- A restart accepted and one refused; a staged restart whose entry is a descriptor ring of another completion ring. -/
def halted : State :=
  { up with rings := [(0, cqRing), (1, { dqRing [] with st := .halted })] }
def restarting : State :=
  { beforeStart entryC (entryD 1) 0 with
    rings := [(0, cqRing), (1, cqRing), (2, { dqRing [] with st := .halted })]
    restart := some (0, 2, 5)
    rooms := [(0, { room1 with grant := { Grant.reset 0 with rings := 3 * 65536 } })]
    host := memWriteN [] 128 (leBytes 64 (entryD 1)) }

theorem test_ring_restart : halted.restartReason_ 0 1 = 0 ∧ 0 < up.restartReason_ 0 1 ∧ up.restartReason_ 0 1 = 3 ∧ restarting.restart = some (0, 2, 5) ∧
    (∀ d ∈ (restarting.ring 2).descs, d.started = false) ∧ (restarting.ringEntry 0 2).any (fun e => e.kind == 1 && e.ok 0 3 (fun k => (restarting.ring k).kind)) = true ∧
    up.ringOwner 1 = some 0 ∧ up.ringOwner 256 = none := by decide +kernel

theorem test_moderation_timer : (let q : Ring := { cqRing with ien := true, modCount := 4, modUs := 2, unsent := 1, oldest := 0 }
    q.kind = 2 ∧ q.st ≠ .disabled ∧ q.modCount ≠ 0 ∧ q.modUs ≠ 0 ∧ q.unsent ≠ 0 ∧ q.oldest + 1000 * q.modUs ≤ Nat.max 0 2000) := by decide +kernel

/-- A forest of one layer, one page position and four trees, piloted by no core; branch IDs are granted to its room. -/
def forest0 : Forest := Forest.new (2 ^ 40) (2 ^ 38) (fields [(0, 1), (2, 1), (4, 1), (8, 0xFFFF), (10, 4), (16, 2 ^ 30), (24, 2097152), (32, 2097152), (40, 4194304), (48, 2097152)])

/-- The intake's own choice: the pair's only room with something to read, at its only ring. -/
theorem test_intake_choice : posted.turnOf 0 = some 1 ∧ posted.intakeRooms (posted.pairOf 0) = [0] ∧ posted.served 0 = true ∧
    (posted.serve (arbIntake (posted.pairOf 0)) true (posted.intakeRooms (posted.pairOf 0)) 0).isSome = true := by decide +kernel

/-- A CANCEL behind its target, both in intake on ring 1. -/
def cancel1 : Desc := { desc 0x3F [(8, 1), (12, 0)] with seq := 1 }
def cancelling (s : State) (e : Desc) : State := s.setRing 1 { dqRing [e, cancel1] with count := 2, bell := 2 }
def hasTarget (s : State) (e : Desc) : Bool :=
  let q := (cancelling s e).ring 1
  q.descs == [e] ++ cancel1 :: [] && q.available ≤ (0 + 2 ^ 32 - q.count) % 2 ^ 32 && (0 : Nat) < (q.count + 2 ^ 32 - 0) % 2 ^ 32 &&
    decide ((q.count + 2 ^ 32 - 0) % 2 ^ 32 ≤ q.depth) && !(e.opcode == 0x3F && !e.started) && e.seq == 0

/-- Targets: one that has not started, of no incarnation and of one that is held; one that waits in the forest's queue; a started one; a completed one. -/
theorem test_cancel_targets : hasTarget up (desc 0 []) = true ∧ (up.room 0).forest = none ∧ (up.room 0).job = none ∧
    hasTarget (up.setRoom 0 { room1 with job := some { job1 with ring := 1, seq := 0 } }) (desc 0x01 []) = true ∧
    hasTarget (up.setRoom 0 { room1 with forest := some { forest0 with queue := [⟨0xFFFF, 0, some (1, 0)⟩] } }) { desc 0x10 [] with started := true } = true ∧
    ({ forest0 with queue := [⟨0xFFFF, 0, some (1, 0)⟩] } : Forest).waits 1 0 = true ∧ hasTarget up { desc 0 [] with started := true } = true ∧
    (let q : Ring := { dqRing [cancel1] with count := 2, bell := 2 }
     (∀ e ∈ q.descs, e.seq ≠ 0) ∧ (q.count + 2 ^ 32 - 0) % 2 ^ 32 ≤ q.depth) ∧
    memNat posted.host (8192 + 64 * (0 % 16)) 1 ≠ 0x3F ∧ memNat (memWriteN [] 8192 [0x3F]) (8192 + 64 * (0 % 16)) 1 = 0x3F := by decide +kernel

/-- Tables of other sizes and places, a ring of the room in use, and entries past the first. -/
theorem test_start_refusals : (up.room 0).st = .committed ∧ 1 ∈ span (up.room 0).ringBase (up.room 0).ringCount ∧ (up.ring 1).st ≠ .disabled ∧
    ({ room1 with grant := { Grant.reset 0 with rings := 0 } } : Room).ringCount = 0 ∧
    ([RingEntry.ofNat (entryD 1)].findIdx? fun e => !e.ok 0 2 fun i => if i = 0 then 2 else 1) = some 0 := by decide +kernel

/-- A message with its vector masked and one with it pending. -/
theorem test_unmask : (tget MsixVec.reset up.msix (0 * 32 + 3)).pending = false ∧
    (tget MsixVec.reset (tset up.msix 3 { MsixVec.reset with masked := true, pending := true }) (0 * 32 + 3)).pending = true := by decide +kernel

/-! ## Forest and placement descriptors, faults, starts, modes and schedules (chapters 8, 10, 13 to 15) -/

/-- The forest in its room; branch IDs are granted to it. -/
def wooded : State := up.setRoom 0 { room1 with forest := some forest0, grant := { Grant.reset 0 with branch := 65536 } }

/-- FORK done, short of IDs, and of a tree with no leaf; PRUNE done; BRANCH_READ; a room with no forest. -/
theorem test_forest_descriptors : starts wooded 0x10 [(8, 1), (10, 2)] anyDesc = true ∧ starts wooded 0x11 [] anyDesc = true ∧ starts wooded 0x12 [] anyDesc = true ∧
    (up.room 0).forest = none ∧ forest0.queue = [] ∧ forest0.pilot = 0xFFFF ∧ (FArgs.ofDesc (desc 0x10 [(8, 1), (10, 2)])).badCmd forest0 true = false ∧
    (FArgs.ofDesc (desc 0x10 [(8, 1), (10, 2)])).badParams true = false ∧ (FArgs.ofDesc (desc 0x11 [])).badCmd forest0 false = false := by decide +kernel

theorem test_fork_outcomes : (match (wooded.runFork 0 forest0 (FArgs.ofDesc (desc 0x10 [(8, 1), (10, 2)]))).2 with | .done => true | _ => false) = true ∧
    (match (up.runFork 0 forest0 (FArgs.ofDesc (desc 0x10 [(8, 1), (10, 2)]))).2 with | .short k => k == Code.forestIds | _ => false) = true ∧
    (match (wooded.runFork 0 forest0 (FArgs.ofDesc (desc 0x10 [(10, 2)]))).2 with | .bad k => k == Code.forestTree | _ => false) = true ∧
    (match (wooded.runPrune 0 forest0 (FArgs.ofDesc (desc 0x11 []))).2 with | .done => true | _ => false) = true := by decide +kernel

theorem test_branch_read : (wooded.putRecords 0 true 0 [] 0).2.1 = 0 ∧ (wooded.putRecords 0 true 0 [] 0).2.2 = none ∧ (desc 0x12 [(8, 1)]).fld 8 1 = 1 ∧
    (desc 0x12 []).fld 8 1 ≠ 1 := by decide +kernel

/-- Room for pages; a range already mapped. -/
def roomy : State := up.setRoom 0 { room1 with grant := { Grant.reset 0 with upper := 64, cellar := 64 } }
def mapped1 : State := roomy.setRoom 0 { roomy.room 0 with mem := { RoomMem.reset with pages := [(1, ⟨1, 0, .zero, 0, none⟩)] } }
def hintDesc (h : Nat) : Desc := desc 0x18 [(8, 2097152), (16, 2097152), (24, h)]

theorem test_place_hints : ([1, 2, 3, 4, 5, 8, 9, 10, 11, 0x10, 0x11, 0x12, 0x1F].all fun h => starts roomy 0x18 [(8, 2097152), (16, 2097152), (24, h)] (fun d => d.hint == h)) = true ∧
    (match roomy.mapPages 0 (hintDesc 1) 1 with | .ok _ => true | .error _ => false) = true ∧
    (match mapped1.mapPages 0 (hintDesc 1) 1 with | .ok _ => false | .error e => e.2 == Code.memOverlap) = true ∧
    (match up.mapPages 0 (hintDesc 2) 2 with | .ok _ => false | .error e => e.2 == Code.memQuota) = true ∧
    (match roomy.clear 0 (hintDesc 0x1F) with | .ok _ => false | .error e => e.2 == Code.memNotmapped) = true := by decide +kernel

/-- UNMAP of what is not mapped, of a pinned page and of a free one. -/
theorem test_unmap : starts mapped1 0x18 [(8, 2097152), (16, 2097152)] (fun d => d.hint == 0x00) = true ∧ (roomy.room 0).mem.allOrdinary 2097152 2097152 = false ∧
    (mapped1.room 0).mem.allOrdinary 2097152 2097152 = true ∧ (∀ p ∈ (mapped1.room 0).mem.pagesIn 2097152 2097152, (mapped1.room 0).mem.pinnedPage p.1 = false) ∧
    (∀ v ∈ (mapped1.room 0).mem.snap.pending, v < 1 ∨ 2 ≤ v) ∧ ((mapped1.room 0).mem.pagesIn 2097152 2097152).map (·.1) = [1] ∧
    ({ (mapped1.room 0).mem with pinned := [1] } : RoomMem).pinnedPage 1 = true := by decide +kernel

/-- A window with room for one slot, a plan of one entry that keeps R266. -/
def windowed (w : Tbl HaulPlan) : State := roomy.setRoom 0 { roomy.room 0 with mem := { (mapped1.room 0).mem with
    specials := [⟨2 ^ 30, 4194304, 5, 0, []⟩]
    windows := w
    data := memWriteN [] 2097152 (leBytes 8 2097152 ++ leBytes 8 65536) } }
def planDesc : List (Nat × Nat) := [(8, 2 ^ 30), (16, 2097152), (24, 65536), (48, 1), (50, 1)]

theorem test_haul_plan : starts (windowed []) 0x19 planDesc anyDesc = true ∧ ((windowed []).room 0).mem.specials.any (fun x => x.hint = 5 && x.base = (desc 0x19 planDesc).fld 8 8) = true ∧
    pageBytes + 1 * 65536 ≤ 4194304 ∧ tfind ((windowed []).room 0).mem.windows (2 ^ 30) = none ∧ (busy.room 0).busy = true ∧
    tfind ((windowed [(2 ^ 30, ⟨0, [], 1, 65536, 1, 0, 0, []⟩)]).room 0).mem.windows (2 ^ 30) ≠ none := by decide +kernel

theorem test_haul_entries : (haulEntries (leBytes 8 2097152 ++ leBytes 8 65536) 1 65536 fun _ _ => true).2 = true ∧
    (haulEntries (leBytes 8 2097152 ++ leBytes 8 65536) 1 65536 fun _ _ => true).1 = [(2097152, 65536)] := by decide +kernel

/-- A fault of a job of one device; of several; of a job already faulted; in a room in turnover; in an empty room. -/
theorem test_job_fault : (busy.room 0).job = some job1 ∧ (busy.room 0).st ≠ .turnover ∧ job1.faulted = false ∧ job1.devices ≤ 1 ∧ busy.ends 0 = true ∧
    1 < ({ job1 with devices := 2, tag := 1 } : Job).devices ∧ busy.caravan.isHead = false ∧ ({ job1 with faulted := true } : Job).faulted = true ∧
    ({ room1 with st := .turnover } : Room).st = .turnover ∧ (up.room 0).job = none := by decide +kernel

/-- LAUNCH and RESTORE of a free room with no collective program; of a held one; on a device out of service; of two devices without a caravan. -/
theorem test_starting_descriptor : starts up 0x01 [] anyDesc = true ∧ starts up 0x1B [] anyDesc = true ∧ (match up.progOf 0 1 0 none with | .ok l => l.isEmpty | .error _ => false) = true ∧
    (up.room 0).job = none ∧ (busy.room 0).job ≠ none ∧ up.inService = true ∧ ({ up with health := { Health.reset with oos := true } } : State).inService = false ∧
    1 < (desc 0x01 [(24, 2)]).fld 24 4 ∧ up.caravan.member = false ∧
    (match (up.setRoom 0 { room1 with progN := 1 }).progOf 0 1 0 none with | .ok _ => false | .error k => k == Code.netProg) = true ∧ job1.seq ≠ (desc 0x01 []).seq := by decide +kernel

theorem test_mirror_fetch_timeout : (let j : Job := { job1 with phase := 0, fetchAt := some 5 }
    j.phase = 0 ∧ j.fetchAt = some 5 ∧ 5 + 2000000000 ≤ Nat.max up.time.now 2000000005 ∧ ∀ g ∈ (up.flow (flowKey 0 j.holder 0xFFF0)).gets, g.answered = false) := by decide +kernel

/-- MODE_STAGE of each kind; by another room; late; twice; a ninth; of a bad value and of a good one. -/
theorem test_mode_stage : ([1, 2, 4, 5].all fun k => starts busy 0x07 [(8, k)] (fun d => d.fld 8 1 == k)) = true ∧ pacingOf 5 0 0 = 0 ∧
    (busy.room 0).stepEnded (desc 0x07 [(8, 5), (12, 2)]).epoch = false ∧ (busy.room 0).stepEnded (desc 0x07 [(8, 5), (12, 1)]).epoch = true ∧
    ({ kind := 5, epoch := 2, value := 0, entries := [], prev := 0, armed := true, ring := 1, seq := 9, waiting := true, applied := false } : ModeChange).armed = true ∧
    8 ≤ ((List.replicate 8 ({ kind := 5, epoch := 9, value := 0, entries := [], prev := 0, armed := true, ring := 1, seq := 9, waiting := true, applied := false } : ModeChange)).filter
      (·.armed)).length ∧ (busy.room 0).modes = [] ∧ (match busy.modeValue 0 5 (desc 0x07 [(8, 5), (12, 2)]) with | .ok l => l.isEmpty | .error _ => false) = true ∧
    (match busy.modeValue 0 5 (desc 0x07 [(8, 5), (12, 2), (16, 1)]) with | .ok _ => false | .error e => e.2 == Code.modeValue) = true ∧ ({ dqRing [] with room := 3 } : Ring).room ≠ 0 := by decide +kernel

/-- A staged schedule without entries: its frame passes at 250 µs and fails at 249. -/
def framed (us : Nat) : State := { up with sched := { Sched.reset with staged := { Schedule.reset with us := us } } }
def shared : State := framed 250

theorem test_sharing_table_and_checkpoint : starts shared 0x07 [(8, 3), (12, 0xFFFFFFFF)] (fun d => d.fld 8 1 == 3) = true ∧ shared.sharingCheck 0 (desc 0x07 [(8, 3), (12, 0xFFFFFFFF)]) = none ∧
    (framed 249).sharingCheck 0 (desc 0x07 [(8, 3), (12, 0xFFFFFFFF)]) = some Code.schedFrame ∧ (up.room 0).stepEnded 0xFFFFFFFF = false ∧ starts busy 0x1A [(12, 2)] anyDesc = true ∧
    (busy.room 0).stepEnded (desc 0x1A [(12, 2)]).epoch = false ∧ (busy.room 0).stepEnded (desc 0x1A [(12, 1)]).epoch = true := by decide +kernel

theorem test_activate : shared.schedCheck = none ∧ shared.sched.pending = false ∧ (∀ p ∈ shared.rooms, p.2.job = none) ∧ (framed 249).schedCheck = some Code.schedFrame ∧
    ({ shared.sched with pending := true } : Sched).pending = true ∧ shared.sched.pacing = none ∧ shared.time.now ≤ 250000 ∧ 0 < shared.sched.staged.us ∧
    250000 % (1000 * shared.sched.staged.us) = 0 := by decide +kernel

/-- Ingest descriptors of a granted and of a foreign context; a stream opened by this ring, and by another. -/
def ingesting : State :=
  { up with
    rooms := [(0, { room1 with grant := { Grant.reset 0 with streams := 65536, devctx := 65536, dict := 65536 } })]
    ingest := { Ingest.reset with streams := [(0, ⟨1, 0, 16, 16, 8, 0, 0, false, []⟩)] } }

theorem test_ingest : ([(0x20, 0), (0x20, 1), (0x20, 2), (0x21, 0), (0x21, 1), (0x22, 0), (0x22, 1)].all fun p => starts ingesting p.1 [(8, p.2)] (fun d => d.fld 8 1 == p.2)) = true ∧
    starts ingesting 0x23 [] anyDesc = true ∧ ingesting.ingestGranted 0 0 0 = true ∧ up.ingestGranted 0 0 0 = false ∧ (tfind ingesting.ingest.streams 0).any (fun x => x.ring == 1) = true ∧
    (ingesting.decodeFrame 1 0 (desc 0x20 [(8, 1), (12, 1)])).2.status = stBadDescriptor ∧ ({ Ring.reset with kind := 1 } : Ring).cq ≠ 1 ∧
    (⟨2, 0, 16, 16, 8, 0, 0, false, []⟩ : Stream).ring ≠ 1 := by decide +kernel

/-- A FORK of two roots, of one child each leaf, a PRUNE and each malformed operand, with a forest in room 0 whose queue is given. -/
def forkDesc : Desc := desc 0x10 [(8, 1), (10, 2)]
def planted (q : List FCmd) : Forest := { forest0.roots ((wooded.room 0).bgrant) (FArgs.ofDesc forkDesc) with queue := q }
def woodedBy (f : Forest) (d : Desc) : State := taking (wooded.setRoom 0 { wooded.room 0 with forest := some f }) d
def waitingTree (f : Forest) (d : Desc) : State :=
  ((woodedBy f d).markStarted 1 d.seq).modRoom 0 fun x => { x with forest := some { f with queue := [⟨0xFFFF, 0, some (1, d.seq)⟩] } }

theorem test_forest_refusals : 8 ≤ (desc 0x10 [(8, 8)]).fld 8 1 ∧ (FArgs.ofDesc (desc 0x10 [(8, 1), (10, 2), (12, 4)])).badCmd forest0 true = true ∧
    (FArgs.ofDesc (desc 0x10 [])).badParams true = true ∧ (FArgs.ofDesc (desc 0x10 [])).badCmd forest0 true = false ∧ forkDesc.fld 8 1 < 8 ∧
    (Forest.new 0 0 (fields [(8, 3)])).pilot ≠ 0xFFFF ∧ (busy.room 0).busy = true ∧ (wooded.room 0).busy = false ∧ (planted []).queue = [] ∧
    (planted [⟨2, 0, none⟩]).queue = ⟨2, 0, none⟩ :: [] := by decide +kernel

theorem test_forest_turns : ([(forest0, forkDesc), (planted [], desc 0x10 [(10, 2)]), (planted [], desc 0x11 []), (forest0, desc 0x10 [(10, 2)])].all fun p =>
      ((waitingTree p.1 p.2).serve arbForest true (waitingTree p.1 p.2).forestRooms 0).isSome && ((woodedBy p.1 p.2).ring 1).descs == [p.2]) = true ∧
    (FArgs.ofDesc forkDesc).check forest0 true = none ∧ forest0.forkFails ((wooded.room 0).bgrant) (FArgs.ofDesc forkDesc) = none ∧
    forest0.forkFails ((up.room 0).bgrant) (FArgs.ofDesc forkDesc) = some Code.forestIds ∧ (FArgs.ofDesc forkDesc).a0 = 0 ∧ (FArgs.ofDesc forkDesc).newRoot = true ∧
    (FArgs.ofDesc (desc 0x10 [(10, 2)])).newRoot = false ∧ (FArgs.ofDesc (desc 0x10 [(10, 2)])).check (planted []) true = none ∧
    (planted []).forkFails ((wooded.room 0).bgrant) (FArgs.ofDesc (desc 0x10 [(10, 2)])) = none ∧ (FArgs.ofDesc (desc 0x10 [(10, 2)])).check forest0 true = some Code.forestTree ∧
    (FArgs.ofDesc (desc 0x11 [])).check (planted []) false = none := by decide +kernel

/-- Two records read to host space that the host lets the device write, one asked for past the branches, and a confidential room's. -/
theorem test_branch_records : ((woodedBy (planted []) (desc 0x12 [(8, 1), (16, 2 ^ 17), (20, 9), (24, 4096)])).canStartOp 1 0x12 anyDesc).isSome = true ∧ (planted []).branches.length = 2 ∧
    (∀ i < 2, wooded.hostOk 0 (4096 + 64 * i) 64 true = true) ∧ (up.setRoom 0 { room1 with sec := { RoomSec.reset with conf := true } } |>.room 0).sec.conf = true := by decide +kernel

/-- A bench word of one row of one column, of arguments 0 and 1. -/
def benchWord (op : Nat) : Nat := fields [(0, op), (9, 1), (12, 1), (16, 1), (40, 64), (48, 64)]

/-- A room with page 1 mapped, a record at 2 MiB + 128 KiB and the words of a kernel 64 KiB above it; and a descriptor that registers a range of 1 GiB upward from it. -/
def recorded (raw word : Nat) : State := roomy.setRoom 0 { roomy.room 0 with
  grant := { (roomy.room 0).grant with branch := 65536 }
  mem := { RoomMem.reset with
    pages := [(1, ⟨1, 0, .zero, 0, none⟩)]
    data := memWriteN (memWriteN [] (2097152 + 131072) (leBytes 64 raw)) (2097152 + 196608) (leBytes 64 word) } }
def rangeDesc (hint n : Nat) : Desc := desc 0x18 [(8, 2 ^ 30), (16, n), (24, hint), (32, 2097152 + 131072)]
def regOk (raw n hint : Nat) : Bool :=
  match (recorded raw (benchWord 0x30)).regRecord 0 (rangeDesc hint n) with
  | .ok v => v == raw && !((recorded raw (benchWord 0x30)).room 0).mem.anyMapped (2 ^ 30) n && (taking (recorded raw 0) (rangeDesc hint n)).canStartOp 1 0x18 (fun d => d.hint == hint) == some (rangeDesc hint n)
  | .error _ => false
/-- The range with its backing frames, where there are enough. -/
def backed (raw n hint : Nat) (os : List Nat) : Option State :=
  let s := recorded raw 0
  ((s.makeRoom 0 os.length (s.room 0).mem.victims).modMem 0 fun m => ranged m (rangeDesc hint n) raw).backPages 0 (2 ^ 30) os

/-- Records of a MERGE view, of an EXPAND view of plain slots, of a view of no kind, of a forest and of a kernel. -/
def mergeRecord1 : Nat := fields [(0, 3), (7, 1), (14, 32), (24, 1), (60, 65536)]
def plainRecord : Nat := fields [(0, 1), (1, 2), (2, 1), (4, 2), (7, 1), (12, 32), (14, 32), (24, 1), (28, 64), (32, 2097152)]
def forestRecord : Nat := forest0.raw
def kernelRecord : Nat := fields [(0, 1), (2, 1), (4, 0xFFFF), (8, 2097152 + 196608)]

theorem test_range_windows : ((taking roomy (rangeDesc 5 2097152)).canStartOp 1 0x18 fun d => d.hint == 5) = some (rangeDesc 5 2097152) ∧ backedPages [(0, 2097152)] = [0] ∧
    (roomy.room 0).mem.anyMapped (2 ^ 30) 2097152 = false ∧ (mapped1.room 0).mem.anyMapped 2097152 2097152 = true ∧ (roomy.room 0).quotaPlus 1 0 1 = true ∧
    (roomy.room 0).mem.mapRuns < 65536 ∧ (backed 0 2097152 5 [0]).isSome = true ∧ (match up.mapWindow 0 (rangeDesc 5 2097152) with | .ok _ => false | .error e => e.2 == Code.memQuota) = true := by
  decide +kernel

theorem test_range_views : regOk mergeRecord1 2097152 0x10 = true ∧ regOk plainRecord 2097152 0x10 = true ∧ regOk 0 2097152 0x10 = true ∧
    (ViewRec.ofNat mergeRecord1).check (2 ^ 30) 2097152 0 ((recorded mergeRecord1 0).mapped 0) = none ∧ (ViewRec.ofNat plainRecord).check (2 ^ 30) 2097152 0 ((recorded plainRecord 0).mapped 0) = none ∧
    (ViewRec.ofNat 0).check (2 ^ 30) 2097152 0 ((recorded 0 0).mapped 0) = some Code.viewKind ∧ (ViewRec.ofNat mergeRecord1).vkind = 3 ∧ (ViewRec.ofNat plainRecord).vkind ≠ 3 ∧
    (ViewRec.ofNat plainRecord).plain = true ∧ (ViewRec.ofNat plainRecord).forest = false ∧
    ((recorded mergeRecord1 0).room 0).quotaPlus (backedPages (ViewRec.ofNat mergeRecord1).backed).length 0 (backedPages (ViewRec.ofNat mergeRecord1).backed).length = true ∧
    (backed mergeRecord1 2097152 0x10 (backedPages (ViewRec.ofNat mergeRecord1).backed)).isSome = true ∧
    (backed plainRecord 2097152 0x10 (backedPages (ViewRec.ofNat plainRecord).backed)).any (fun u =>
      ((u.modMem 0 fun m => { m with views := tset m.views (2 ^ 30) { ViewSt.reset with raw := plainRecord, run := (1, 1) } }).pinUpper 0 false (span 1 1) (span 1 1)).isSome) = true ∧
    (ViewRec.ofNat plainRecord).seqBase / pageBytes = 1 ∧
    ((ViewRec.ofNat plainRecord).seqBase + (ViewRec.ofNat plainRecord).runBytes - 1) / pageBytes + 1 - (ViewRec.ofNat plainRecord).seqBase / pageBytes = 1 := by decide +kernel

theorem test_range_forest_and_kernel : regOk forestRecord (2 ^ 38) 0x11 = true ∧ regOk kernelRecord 2097152 0x12 = true ∧
    (Forest.new (2 ^ 30) (2 ^ 38) forestRecord).check (decide (0 < ((recorded 0 0).room 0).bgrant.count)) (((recorded 0 0).room 0).hasCore 0xFFFF) false = none ∧
    (Forest.new (2 ^ 30) (2 ^ 38) forestRecord).check (decide (0 < (up.room 0).bgrant.count)) ((up.room 0).hasCore 0xFFFF) false = some Code.forestGrant ∧
    (let os := backedPages [(forest0.nodeOff, forest0.nodeBytes), (forest0.pageOff, forest0.pageBytes)]
     ((recorded 0 0).room 0).quotaPlus os.length 0 os.length && (backed forestRecord (2 ^ 38) 0x11 os).isSome) = true ∧
    (let s := recorded kernelRecord (benchWord 0x30)
     s.mapped 0 (fld kernelRecord 8 8) (64 * fld kernelRecord 2 2) && decide (fld kernelRecord 2 2 ≤ 1024) && (s.room 0).quotaPlus 0 0 0 &&
       kernelCheck kernelRecord (2 ^ 30) 2097152 0 (fld kernelRecord 4 2 == 0xFFFF || (s.room 0).hasCore (fld kernelRecord 4 2)) true (s.kernelWords 0 kernelRecord) == none) = true := by
  decide +kernel

/-- A room of n special ranges, its map runs with one page more, and what else its checks ask. -/
def crowdedMem (n : Nat) : RoomMem := { RoomMem.reset with specials := List.replicate n ⟨1099511627776, 2097152, 5, 0, []⟩ }

theorem crowdedMem_spec (n : Nat) : ((crowdedMem n).addPages 1 1 1 0).mapRuns = n + 1 ∧ (crowdedMem n).anyMapped 2097152 2097152 = false ∧
    (crowdedMem n).specialFrames = 0 ∧ (crowdedMem n).poolPage 2097152 2097152 = false := by
  have h : (crowdedMem n).specials = List.replicate n ⟨1099511627776, 2097152, 5, 0, []⟩ := rfl
  have p : (crowdedMem n).pages = [] := rfl
  refine ⟨?_, ?_, ?_, ?_⟩
  · simp [RoomMem.mapRuns, RoomMem.addPages, h, p, span, tset, pageRuns, Nat.add_comm]
  · simp [RoomMem.anyMapped, h, p, overlaps]
  · rw [RoomMem.specialFrames, h, List.map_replicate]
    clear h p
    induction n <;> simp_all [sumNat, List.replicate_succ]
  · simp [RoomMem.poolPage, h]

theorem test_map_runs : 65536 < ((crowdedMem 65537).addPages 1 1 1 0).mapRuns ∧ (crowdedMem 65537).anyMapped 2097152 2097152 = false ∧
    (crowdedMem 65537).specialFrames = 0 ∧ (crowdedMem 65537).poolPage 2097152 2097152 = false := by
  refine ⟨?_, (crowdedMem_spec _).2⟩
  rw [(crowdedMem_spec _).1]; decide

/-- SET within and over the quotas, and of a page of the forest's pools; CLEAR of a range and of none, with no transfer to it. -/
theorem test_set_and_clear : ([8, 9, 10, 11].all fun h => starts mapped1 0x18 [(8, 2097152), (16, 2097152), (24, h)] (fun d => d.hint == h)) = true ∧
    (mapped1.room 0).mem.poolPage 2097152 2097152 = false ∧ ({ RoomMem.reset with specials := [⟨0, 2 ^ 38, 0x11, 0, [(1, 0, 3)]⟩] } : RoomMem).poolPage 2097152 2097152 = true ∧
    (mapped1.room 0).quotaOk { (mapped1.room 0).mem with pages := [(1, ⟨2, 0, .zero, 0, none⟩)] } = true ∧
    (up.room 0).quotaOk { (mapped1.room 0).mem with pages := [(1, ⟨2, 0, .zero, 0, none⟩)] } = false ∧ (mapped1.room 0).mem.mapRuns ≤ 65536 ∧
    mapped1.inTransit 0 2097152 2097152 = false ∧ (windowed []).inTransit 0 (2 ^ 30) 4194304 = false ∧
    ((windowed []).room 0).mem.specials.find? (fun x => x.base = 2 ^ 30 && x.bytes = 4194304) = some ⟨2 ^ 30, 4194304, 5, 0, []⟩ ∧ (wooded.room 0).waitingTrees = [] ∧
    (∀ x ∈ (mapped1.room 0).mem.specials, ¬ (x.base = 2097152 ∧ x.bytes = 2097152)) ∧ ((mapped1.room 0).mem.snap.pending = []) ∧
    (match (windowed []).readAny 0 2097152 16 with | .ok bs => haulEntries bs 1 65536 ((windowed []).mapped 0) == ([(2097152, 65536)], true) | .error _ => false) = true := by decide +kernel

/-- The ingest room with a page of records: a calibration of a Bayer sensor, a dictionary of one token, an augmentation block that changes nothing, and room for outputs. -/
def calRecord : List Byte := leBytes 256 (fields [(0, 1), (1, 10), (2, 2), (3, 2), (4, 0x10), (8, 0x21), (36, 100), (56, 2097152), (64, 2), (66, 2), (72, 2097152), (164, 2097152)])
def dictRecord : List Byte := leBytes 81 (fields [(0, 0x54434944), (4, 1), (8, 1), (9, 1), (24, 1), (68, 5), (72, 1), (80, 0x61)])
def augRecord : List Byte := leBytes 128 (fields [(0, 1), (2, 1), (4, 1), (16, fone), (20, fone), (56, fone), (60, fone)])
def sighted : State := { ingesting with
  rooms := [(0, { ingesting.room 0 with mem := { RoomMem.reset with
    pages := [(1, ⟨2, 0, .upper 0 9, 0, none⟩)]
    data := memWriteN (memWriteN (memWriteN [] 2162688 calRecord) 2228224 dictRecord) 2293760 augRecord } })]
  ingest := { ingesting.ingest with
    devs := [(0, ⟨1, calRecord, [], [], []⟩)]
    dicts := [(0, ⟨1, 1, true, 0, 0xFFFFFFFF, 0xFFFFFFFF, [([0x61], 5)]⟩)] } }
def servedBy (op : Nat) (l : List (Nat × Nat)) : Bool := ((taking sighted (desc op l)).onIngest 0 (desc op l)).isSome && starts sighted op l anyDesc

/-- Every ingest command in its turn; a stream that opens; a picture of the standard's own answer may be any (R288), so its cases have no state here. -/
theorem test_ingest_served : ([(0x20, [(8, 0)]), (0x20, [(8, 1)]), (0x20, [(8, 2)]), (0x21, [(8, 0)]), (0x21, [(8, 1)]), (0x22, [(8, 0)]), (0x22, [(8, 1)]), (0x23, [])].all fun p =>
      servedBy p.1 p.2) = true ∧ (IngestEnd.ok).status = stOk ∧ (IngestEnd.data 0).status = stDataError ∧ (IngestEnd.bad 0).status ≠ stOk ∧ (IngestEnd.bad 0).status ≠ stDataError ∧
    sighted.ingestGranted 0 0 0 = true ∧ sighted.ingestGranted 0 1 0 = true ∧ sighted.ingestGranted 0 2 0 = true := by decide +kernel

theorem test_stream_opens : ({ sighted with ingest := { sighted.ingest with streams := [] } } : State).ingestGranted 0 0 0 = true ∧ (16 : Nat) ≤ (largestPicture 0).1 ∧
    (16 : Nat) ≤ (largestPicture 0).2 ∧ refNeed 0 16 16 8 ≤ 2097152 ∧ sighted.checkRange 0 2097152 2097152 true = none := by decide +kernel

/-- What a FRAME needs before its unit is decoded: its stream, whole and broken, its unit and its reference area. -/
theorem test_frame_of_stream : (tfind sighted.ingest.streams 0).any (fun x => x.ring == 1 && !x.broken) = true ∧
    (match sighted.readAny 0 2097152 64 with | .ok bs => bs.length == 64 | .error _ => false) = true ∧
    ((sighted.setStream 0 ⟨1, 0, 16, 16, 8, 2097152, 2097152, true, []⟩).storeRefs 0 ⟨1, 0, 16, 16, 8, 2097152, 2097152, true, []⟩).2 = none := by decide +kernel

theorem test_develop : (match sighted.readAny 0 2162688 256 with | .ok bs => bs == calRecord | .error _ => false) = true ∧ calOk (memWriteN [] 0 calRecord) = true ∧
    (match (calTables (memWriteN [] 0 calRecord)).mapM (sighted.calTable 0) with | .ok l => l.length == 3 | .error _ => false) = true ∧
    (match sighted.readAny 0 2097152 64 with | .ok ob => outsOk (memWriteN [] 0 ob) && memNat (memWriteN [] 0 ob) 32 8 == 0 | .error _ => false) = true ∧
    (tfind sighted.ingest.devs 0).any (fun x => x.ring == 1) = true ∧ captureOk (memWriteN [] 0 calRecord) 4 4 = true ∧
    (match (List.range 4).mapM fun y => sighted.ingestRead 0 (2097152 + y * 64) 8 with | .ok l => l.length == 4 | .error _ => false) = true := by decide +kernel

theorem test_tokenize : (match sighted.readAny 0 2228224 64 with
      | .ok hd => dictHeadOk (memWriteN [] 0 hd) && 64 + 16 * memNat (memWriteN [] 0 hd) 4 4 + memNat (memWriteN [] 0 hd) 24 8 == 81
      | .error _ => false) = true ∧ (match sighted.readAny 0 2228224 81 with | .ok bs => dictOk (memWriteN [] 0 bs) | .error _ => false) = true ∧
    (∀ x, tfind sighted.ingest.dicts 0 = some x → x.ring = 1) ∧ isZero32 ((desc 0x22 [(8, 1)]).fld 44 4) = true ∧
    (match sighted.readAny 0 2228304 1 with | .ok bs => (tokenize ⟨1, 1, true, 0, 0xFFFFFFFF, 0xFFFFFFFF, [([0x61], 5)]⟩ bs 8).1 == [(5, true)] | .error _ => false) = true ∧
    (sighted.writeAny 0 2359296 [5, 0, 0, 0]).code = none := by
  refine ⟨by decide +kernel, by decide +kernel, ?_⟩
  constructor
  · intro x h
    have : x = ⟨1, 1, true, 0, 0xFFFFFFFF, 0xFFFFFFFF, [([0x61], 5)]⟩ := Option.some.inj (h.symm.trans (by decide +kernel))
    rw [this]
  · decide +kernel

theorem test_augment : (match sighted.augBlock 0 2293760 false with | .ok m => !(augDraws m) && (match sighted.augSeed 0 (augDraws m) with | .ok v => v == 0 | .error _ => false) &&
        (sighted.tensorOut 0 m 0 ⟨1, 1, fun _ _ _ => fone⟩ 3 2359296 64 3).2 == none | .error _ => false) = true ∧
    (match (List.range 1).mapM fun y => sighted.ingestRead 0 (2097152 + y * 64) 12 with | .ok l => l.length == 1 | .error _ => false) = true := by decide +kernel

/-! ## Rooms, functions, registers and the tenant's window (chapters 13, 19 and 22) -/

/-- A room 5 that waits for its grant, with one core of die 0; a failing one; one in each phase of its turnover. -/
def vacant5 (x : Room) : State := { up with rooms := [(5, x)] }
def room5 : Room := { Room.reset 5 with st := .vacant, grant := { Grant.reset 5 with cores0 := 1 } }

theorem test_commit : ((vacant5 room5).room 5).st ≠ .absent ∧ up.stewards.ready = true ∧ (vacant5 room5).grantCheck 5 = none ∧ room5.sec.conf = false ∧
    (vacant5 { room5 with grant := Grant.reset 5 }).grantCheck 5 = some Code.grantCores ∧ (5 : Nat) < 64 := by decide +kernel

theorem test_turnover : (up.room 0).st = .committed ∧ (vacant5 { room5 with st := .turnover, turn := some ⟨0, 1, true, false⟩ }).room 5 ≠ Room.reset 5 ∧
    (⟨0, 1, true, false⟩ : Turn).phase = 1 ∧ (⟨0, 1, true, false⟩ : Turn).start + 50000 ≤ Nat.max up.time.now 50000 ∧ (⟨0, 3, true, false⟩ : Turn).phase = 3 ∧
    (⟨0, 3, true, false⟩ : Turn).disable = false ∧ (⟨0, 3, false, false⟩ : Turn).release = false := by decide +kernel

theorem test_function_reset : (up.room 0).st ≠ .absent ∧ (up.room 63).st = .absent ∧ (vacant5 room5).room 5 = room5 ∧ room5.st ≠ .absent ∧ (63 : Nat) ≤ 63 := by decide +kernel

/-- Accesses: of a function that does not answer; at no register; first, last and middle bytes; of a register no write changes. -/
theorem test_register_access : up.answers 1 = false ∧ up.answers 0 = true ∧ accessOk 0 2 4 = false ∧ accessOk 0 0 4 = true ∧ seenAt 0 0x30010 = some 0x30010 ∧
    (regAt 0).any (fun d => d.1.put.isNone && d.1.base d.2 == 0) = true ∧ (regAt 0x30008).any (fun d => d.1.put.isSome && d.1.bytes == 4 && d.1.base d.2 == 0x30008) = true ∧
    (regAt 0x040004).isSome = true ∧ 1 ∉ up.time.present := by decide +kernel

/-- A register of 8 bytes: its low word is held, its high word is the last; a snapshot is in it. -/
theorem test_wide_register : (regAt 0x020010).any (fun d => d.1.bytes == 8 && d.1.base d.2 == 0x020010 && d.1.put.isSome) = true ∧
    (regAt 0x020014).any (fun d => 0x020014 != d.1.base d.2 && 0x020014 + 4 == d.1.base d.2 + d.1.bytes) = true ∧
    (tfind ({ up with snaps := [(0, (0x020010, 8, 7))] } : State).snaps 0) = some (0x020010, 8, 7) := by decide +kernel

/-- Gates of a die and of the other units, no steward among them; units held by a committed room. -/
theorem test_gates : bit 1 24 = false ∧ bit (gateWord up.power false 2) 24 = false ∧ bit (gateWord up.power true 2) 24 = false ∧
    bit ((vacant5 { room5 with st := .committed }).heldCores 0) 0 = true ∧ coreDie 128 ≠ 0 := by decide +kernel

theorem test_promote_heat : 65536 % 2 ^ 16 = 0 ∧ (up.room 0).st ≠ .turnover ∧ 1000000 % 1000000 = 0 ∧ up.time.now ≤ 1000000 := by decide +kernel

/-- A confidential room with no tenant, and one with a tenant; a room that is not confidential; a record that the host refuses. -/
def confRoom (t : Option (List Nat)) : State := up.setRoom 0 { room1 with sec := { RoomSec.reset with conf := true, tenant := t } }

theorem test_tenant_window : (confRoom none).hostOk 0 0 96 false = true ∧ ((confRoom none).room 0).phase ≠ 3 ∧ ((confRoom none).room 0).sec.tenant = none ∧
    ((confRoom (some [1])).room 0).sec.tenant ≠ none ∧ (up.room 0).sec.conf = false ∧ ({ up with hostRefusals := [⟨0, 0, 48, true, false⟩] } : State).hostOk 0 0 (cmdBytes 1) false = false ∧
    (confRoom none).hostOk 0 64 (768 + (confRoom none).chain.length) true = true := by
  repeat' apply And.intro
  all_goals first | decide +kernel | rfl

/-- An IMPORT record of generation 1, and a consent token of the tenant, both for room 0 of this device. -/
def importRecord : Memory := memWriteN (memWriteN [] 0 (leBytes 1 1)) 144 (leBytes 8 0x4B4E000000000001)
def tokenOf (t : Option (List Nat)) : Memory :=
  memWriteN (memWriteN [] 0 (leBytes 4 0x544E4F43 ++ leBytes 2 1 ++ leBytes 2 0 ++ leBytes 8 0x4B4E000000000001 ++ leBytes 4 1 ++ leBytes 4 1 ++ leBytes 8 100)) 80 (digestOf t)

theorem test_import : (confRoom (some [1])).importOk 0 importRecord true = true ∧ memNat importRecord 0 1 ≠ 0 ∧ ((confRoom (some [1])).room 0).sec.importGen < memNat importRecord 0 1 := by decide +kernel

theorem test_consent : (let s : State := { confRoom (some [1]) with time := { Timebase.reset with isSet := true } }
    s.consentOk 0 ((memReadN (tokenOf (some [1])) 0 256).map BitVec.toNat) true) = true := by decide +kernel

theorem test_consent_and_window_end : (100 : Nat) ≤ Nat.max up.time.now 100 ∧ Nat.max up.time.now 99 < 100 := by decide +kernel

/-! ## Engines: the forest's queue, bench kernels, views, windows and snapshots (chapters 5 and 8 to 10) -/

/-- The busy device with a forest of two branches of tree 0 and a queue. -/
def branch0 : Branch :=
  { held := false, scored := false, nan := false, tree := 0, parent := 0xFFFFFFFF, depth := 0, born := 0, ord := 0, ret := 0, disc := 0x3F800000, score := 0, value := 0,
    lineage := 0, dir := none }
def queued (l : List FCmd) : Forest := { forest0 with branches := [(0, branch0), (1, { branch0 with ord := 1 })], queue := l }
def grove (l : List FCmd) : State := busy.setRoom 0 { busy.room 0 with forest := some (queued l), grant := { Grant.reset 0 with branch := 65536 } }
def slotCmd (l : List (Nat × Nat)) : FCmd := ⟨2, fields l, none⟩

/-- A FORK_CMD at the head done, short of IDs, of a tree without leaf, and with an unused field; a PRUNE_CMD. -/
theorem test_fork_cmd : ((grove []).room 0).running = true ∧ (queued [slotCmd [(0, 1), (10, 2)]]).nextCmd 1 = some (slotCmd [(0, 1), (10, 2)]) ∧ slotUnused (slotCmd [(0, 1), (10, 2)]).raw = false ∧
    slotUnused (slotCmd [(0, 1), (2, 1)]).raw = true ∧
    (match ((grove []).runFork 0 (queued []) (FArgs.ofSlot (slotCmd [(0, 1), (10, 2)]).raw)).2 with | .done => true | _ => false) = true ∧
    (match (busy.runFork 0 (queued []) (FArgs.ofSlot (slotCmd [(0, 1), (10, 2)]).raw)).2 with | .short k => k == Code.forestIds | _ => false) = true ∧
    (match ((grove []).runFork 0 (queued []) (FArgs.ofSlot (slotCmd [(0, 1), (4, 1), (10, 2)]).raw)).2 with | .bad k => k == Code.forestTree | _ => false) = true ∧
    (queued [slotCmd [(0, 2)]]).nextCmd 2 = some (slotCmd [(0, 2)]) ∧
    (match ((grove []).runPrune 0 (queued []) (FArgs.ofSlot (slotCmd [(0, 2)]).raw)).2 with | .done => true | _ => false) = true := by decide +kernel

/-- A SCORE of one leaf with its pairs unmapped and mapped; one past the leaves. A SAMPLE of one token, and one with no token. -/
theorem test_score_and_sample : (queued [slotCmd [(0, 4), (16, 1), (44, 0x3F800000)]]).nextCmd 4 = some (slotCmd [(0, 4), (16, 1), (44, 0x3F800000)]) ∧
    (slotCmd [(0, 4), (16, 1), (44, 0x3F800000)]).scoreCheck (queued []) = none ∧ (slotCmd [(0, 4), (16, 3), (44, 0x3F800000)]).scoreCheck (queued []) = some Code.forestLeafRange ∧
    (match (grove []).readAny 0 2097152 8 with | .ok _ => false | .error _ => true) = true ∧
    (match mapped1.readAny 0 2097152 8 with | .ok bs => bs.length == 8 | .error _ => false) = true ∧
    (queued [slotCmd [(0, 3), (10, 1)]]).nextCmd 3 = some (slotCmd [(0, 3), (10, 1)]) ∧
    (slotCmd [(0, 3), (10, 1), (16, 1), (20, 2), (40, 64), (48, 0x3F800000)]).sampleCheck (queued []) = none ∧ (slotCmd [(0, 3)]).sampleCheck (queued []) = some Code.forestParams := by decide +kernel

theorem test_sampler_error : tget 0 (queued []).errs 0 = 0 ∧ tget 0 ({ queued [] with errs := [(0, 1)] } : Forest).errs 0 ≠ 0 := by decide +kernel

/-- A kernel with a queued run; its word FILL, of any code; one that reads what it writes. -/
def kernelOf (w : Nat) (u : Option BenchRun) : Kernel := ⟨0, [w], [[4194304, 8388608]], u⟩
def benching (w : Nat) (u : Option BenchRun) : State :=
  busy.setRoom 0 { busy.room 0 with kernels := [(0, kernelOf w u)], mem := { RoomMem.reset with pages := [(2, ⟨1, 0, .zero, 0, none⟩), (4, ⟨1, 0, .zero, 0, none⟩)] } }

theorem test_bench_run : ((benching 0 none).room 0).running = true ∧ (((benching 0 none).room 0).kernel 0).run = none ∧ (((benching 0 none).room 0).kernel 0).queue = [[4194304, 8388608]] ∧
    (((benching 0 (some ⟨[], 1, 0, 0⟩)).room 0).kernel 0).words.length ≤ 1 := by decide +kernel

theorem test_bench_word : ([0x10, 0x15, 0x17, 0x30, 0x31].all fun op => (kernelOf (benchWord op) (some ⟨[4194304, 8388608], 0, 0, 0⟩)).nextWord.any fun p => p.2.op == op &&
      !((p.2.writes p.1.args).any fun x => (p.2.reads p.1.args).any fun y => x.hits y)) = true ∧
    (kernelOf (fields [(0, 0x31), (12, 1), (16, 1), (40, 64), (48, 64)]) (some ⟨[4194304, 8388608], 0, 0, 0⟩)).nextWord.any (fun p =>
      (p.2.writes p.1.args).any fun x => (p.2.reads p.1.args).any fun y => x.hits y) = true := by decide +kernel

/-- A COPY word whose row is stored; whose operand is not mapped; whose output is not mapped. -/
theorem test_bench_copy : (match (benching 0 none).gather 0 [Ext.flat 3 0 4194304 4] with | .ok _ => true | .error _ => false) = true ∧
    (match busy.gather 0 [Ext.flat 3 0 4194304 4] with | .ok _ => false | .error _ => true) = true ∧
    (benchStored (benching 0 none) 0 ⟨[4194304, 8388608], 0, 0, 0⟩ (BenchWord.ofNat (benchWord 0x31)) ([] : Memory)).2 = none ∧
    (benchStored busy 0 ⟨[4194304, 8388608], 0, 0, 0⟩ (BenchWord.ofNat (benchWord 0x31)) ([] : Memory)).2.isSome = true := by decide +kernel

theorem test_bench_error : (busy.room 0).job = some job1 ∧ tget 0 job1.benchErrs (3 * 64 + 7) = 0 ∧ tget 0 ({ job1 with benchErrs := [(199, 1)] } : Job).benchErrs (3 * 64 + 7) ≠ 0 ∧
    (busy.stack 3).badUnits.contains 7 = false := by decide +kernel

/-- A view with a batch of no sequence queued, and with one past its sequences; a batch that runs, with and without a code. -/
def viewing (v : ViewSt) : State := busy.setRoom 0 { busy.room 0 with mem := { RoomMem.reset with views := [(2097152, v)] } }

theorem test_decode_batch : ((viewing { ViewSt.reset with queue := [(0, 0)] }).viewOf 0 2097152).queue = [(0, 0)] ∧ ((viewing ViewSt.reset).viewOf 0 2097152).running = false ∧
    (match (viewing ViewSt.reset).decodeSeqs 0 2097152 ViewSt.reset 1 0 none with | .ok p => p.2 == some Code.decodeRange | .error _ => false) = true ∧
    ((viewing { ViewSt.reset with running := true, code := some Code.decodeRange }).viewOf 0 2097152).code = some Code.decodeRange ∧
    ((viewing { ViewSt.reset with running := true }).viewOf 0 2097152).code = none := by decide +kernel

/-- A window with a fill to start: its source mapped; not mapped; poisoned. -/
def filling (src : Nat) : State := busy.setRoom 0 { busy.room 0 with mem := { RoomMem.reset with
    pages := [(1, ⟨2, 0, .upper 0 9, 0, none⟩)]
    windows := [(2 ^ 30, ⟨0, [(src, 65536)], 1, 65536, 1, 0, 0, []⟩)] } }

theorem test_window_fill : (tfind ((filling 2097152).room 0).mem.windows (2 ^ 30)).any (fun w => w.mayFill && !w.list.isEmpty) = true ∧ (filling 2097152).checkRange 0 2097152 65536 false = none ∧
    ((filling 0).checkRange 0 (2 ^ 31) 65536 false).isSome = true ∧ (filling 2097152).poisoned 0 2097152 65536 = false ∧
    ({ filling 2097152 with stackTbl := [(0, { Stack.reset with poison := [(9, 0)] })] } : State).poisoned 0 2097152 65536 = true := by decide +kernel

/-- A page that moves alone, and two that swap. -/
theorem test_migration_switch : (let p : Page := ⟨1, 0, .upper 0 9, 0, some ⟨.cellar 0 3, none⟩⟩
      let q : Page := ⟨1, 0, .upper 0 9, 0, some ⟨.cellar 0 3, some 2⟩⟩
      let m : Tbl Page := [(1, q), (2, ⟨1, 0, .cellar 0 3, 0, some ⟨.upper 0 9, some 1⟩⟩)]
      p.moving.any (fun m => m.partner.isNone) && (tfind m 1).any (fun x => x.moving.any fun y => y.partner == some 2) && (tfind m 2).any fun x => x.moving.isSome) = true := by decide +kernel

/-- A snapshot copy with a page pending, one with none, one poisoned; a mirror sent once and twice. -/
def snap0 : Snap := ⟨1, 1, 0, 2, 5, 0, [], [], [], [], [], [], false⟩
def snapping (l : List Nat) : State := busy.setRoom 0 { busy.room 0 with mem := { RoomMem.reset with snap := { SnapSt.reset with
    slotA := some snap0
    copying := some 0
    pending := l
    mirroring := some (0, 2) } } }

theorem test_snapshot_copy : ((snapping [1, 2]).room 0).mem.snap.pending = 1 :: [2] ∧ (snapping [1, 2]).poisoned 0 (1 * pageBytes) pageBytes = false ∧
    ((snapping []).room 0).mem.snap.copying = some 0 ∧ ((snapping []).room 0).mem.snap.slot 0 = some snap0 ∧ ((snapping []).room 0).mem.snap.pending = [] ∧
    ((snapping []).room 0).mem.snap.mirroring = some (0, 2) ∧ (2 : Nat) ≠ 1 ∧ ((snapping []).room 0).job = some job1 ∧ job1.devices ≤ 1 := by decide +kernel

/-- The forest engine serves the room of a queue; rosters that are stored, and that are not. -/
theorem test_forest_service : ([slotCmd [(0, 1), (10, 2)], slotCmd [(0, 2)], slotCmd [(0, 3), (10, 1)], slotCmd [(0, 4), (16, 1), (44, 0x3F800000)]].all fun c =>
      ((grove [c]).serve arbForest true (grove [c]).forestRooms 0).isSome) = true ∧
    (busy.writeRoster 0 (queued []) (FArgs.ofSlot (slotCmd [(0, 1), (10, 2)]).raw) Code.forestIds).2 = none ∧
    (busy.writeRoster 0 (queued []) (FArgs.ofSlot (slotCmd [(0, 1), (10, 2), (24, 64), (54, 1), (56, 1)]).raw) Code.forestIds).2.isSome = true := by decide +kernel

/-- A kernel's word before and after its 10 ms, and an engine of a unit with a first error. -/
def served (s : State) (w : Nat) : Bool :=
  let u : BenchRun := ⟨[4194304, 8388608], 0, 0, 0⟩
  let site := s.wordSite 0 u (BenchWord.ofNat w)
  (s.serve (arbBench site) true (s.benchReady site) 0).any fun z =>
    match (benchTouched z 0 ((BenchWord.ofNat w).reads u.args)).1.gather 0 ((BenchWord.ofNat w).reads u.args) with
    | .ok m => (benchStored (benchTouched z 0 ((BenchWord.ofNat w).reads u.args)).1 0 u (BenchWord.ofNat w) m).2.isNone
    | .error _ => false
def unserved (s : State) (w : Nat) : Bool :=
  let u : BenchRun := ⟨[4194304, 8388608], 0, 0, 0⟩
  let site := s.wordSite 0 u (BenchWord.ofNat w)
  (s.serve (arbBench site) true (s.benchReady site) 0).any fun z =>
    match (benchTouched z 0 ((BenchWord.ofNat w).reads u.args)).1.gather 0 ((BenchWord.ofNat w).reads u.args) with
    | .ok _ => false
    | .error _ => true
def running1 (op : Nat) : State := benching (benchWord op) (some ⟨[4194304, 8388608], 0, 0, 0⟩)

theorem test_bench_service : ([0x10, 0x15, 0x30, 0x31].all fun op => served (running1 op) (benchWord op)) = true ∧
    unserved ((running1 0x31).modMem 0 fun m => { m with pages := [(4, ⟨1, 0, .zero, 0, none⟩)] }) (benchWord 0x31) = true ∧
    (let s := (running1 0x31).modMem 0 fun m => { m with pages := [(2, ⟨1, 0, .zero, 0, none⟩)] }
     !(served s (benchWord 0x31)) && !(unserved s (benchWord 0x31))) = true := by decide +kernel

theorem test_bench_timeout : (((running1 0x31).room 0).kernel 0).run = some ⟨[4194304, 8388608], 0, 0, 0⟩ ∧ (((running1 0x31).room 0).kernel 0).nextWord.isSome = true ∧
    0 + 10000000 < ((running1 0x31).upto 10000001).time.now ∧ ((running1 0x31).upto 10000000).time.now ≤ 0 + 10000000 ∧
    (((benching 0 (some ⟨[], 1, 0, 0⟩)).room 0).kernel 0).words.length ≤ (⟨[], 1, 0, 0⟩ : BenchRun).next := by decide +kernel

/-- A batch that the bench units serve: of no sequence, and of one whose head cannot be read for a poisoned sector. -/
def batched (v : Nat) (q : Nat × Nat) : State := { viewing ViewSt.reset with
  rooms := [(0, { busy.room 0 with mem := { RoomMem.reset with
    specials := [⟨2097152, 2097152, 0x10, v, [(0, 0, 9)]⟩]
    views := [(2097152, { ViewSt.reset with
      raw := v
      queue := [q] })] } })]
  stackTbl := [(0, { Stack.reset with poison := [(9, 2048)] })] }
def batchRuns (v : Nat) (q : Nat × Nat) : Option (Except Nat (State × Option Nat)) :=
  let s := batched v q
  let site := s.stackOf 0 2097152
  (s.serve (arbBench site) true (s.benchReady site) 0).map fun z =>
    (z.modView 0 2097152 fun x => { x with queue := [], running := true, code := none }).decodeSeqs 0 2097152 (s.viewOf 0 2097152) q.2 q.1 none

theorem test_batch_service : (match batchRuns 0 (0, 0) with | some (.ok p) => p.2 == none | _ => false) = true ∧
    (match batchRuns (fields [(0, 2), (24, 1)]) (0, 1) with | some (.error _) => true | _ => false) = true := by decide +kernel

/-- A pending page in the upper tier, and one in a cellar half whose copy met an error. -/
def copying1 (t : Tier) : State := (snapping [1, 2]).modMem 0 fun m => { m with pages := [(1, ⟨1, 0, t, 0, none⟩)] }

theorem test_snapshot_page : ((copying1 (.upper 0 9)).room 0).mem.inHalf 0 1 = false ∧ ((copying1 (.cellar 0 3)).room 0).mem.inHalf 0 1 = true ∧ (⟨0, 0, true⟩ : CellarRead).bad = true ∧
    (⟨0, 0, true⟩ : CellarRead).half = 0 ∧ ((copying1 (.cellar 0 3)).cellarErrs ⟨0, 0, true⟩).poisoned 0 (1 * pageBytes) pageBytes = false ∧
    ({ copying1 (.upper 0 9) with stackTbl := [(0, { Stack.reset with poison := [(9, 0)] })] } : State).poisoned 0 (1 * pageBytes) pageBytes = true := by decide +kernel

/-- A move of a clean page, and of one with a poisoned sector. -/
def shifting (bad : Bool) : State := { busy with
  rooms := [(0, { busy.room 0 with mem := { RoomMem.reset with pages := [(1, ⟨1, 0, .upper 0 9, 0, some ⟨.cellar 0 3, none⟩⟩)] } })]
  stackTbl := if bad then [(0, { Stack.reset with poison := [(9, 0)] })] else [] }

theorem test_poisoned_move : ((shifting true).room 0).st = .committed ∧ ([1].find? fun v => (shifting true).poisoned 0 (v * pageBytes) pageBytes) = some 1 ∧
    (∀ v ∈ 1 :: (none : Option Nat).toList, (shifting false).poisoned 0 (v * pageBytes) pageBytes = false) := by decide +kernel

/-! ## Network (chapter 16) -/

/-- The record of a worker of caravan 1, member 5, with IPv4 addresses from 10.0.0.0. -/
def worker : Nat := fields [(1, 1), (2, 1), (3, 2), (4, 5), (8, 100), (12, 1000), (32, 0x0A000000)]
/-- A job of two devices with a tag, at rank 0, the other rank at member 16390. -/
def job2 : Job := { job1 with devices := 2, tag := 9, kgen := 2, ranks := [(0, 16389), (1, 16390)] }
def netted : State :=
  { busy with
    rooms := [(0, { room1 with job := some job2, mem := { RoomMem.reset with pages := [(1, ⟨2, 0, .upper 0 9, 0, none⟩)] } })]
    caravan := { Caravan.reset with
      record := worker
      member := true
      generation := 4
      expiry := 10 ^ 9
      links := [(16384, ⟨[0], 0, [[7]]⟩)] }
    net := { Net.reset with
      jobKeys := [(9, ⟨[2], 0, [[8]]⟩)]
      ports := [(0, { Port.reset with
        ip4 := 167773184
        ip6 := 77
        link := true })] } }
def jobPkt (t : Nat) : Pkt :=
  { pkt0 with
    ip := 0x0A000000 + 32 * 16390
    ptype := t
    kgen := 2
    mgen := 4
    job := 9
    incarn := 3
    src := 1
    plen := 64
    udp := 64
    psn := 1
    payload := List.replicate 64 0 }

theorem test_packet_passes : ∀ t ∈ [1, 2, 3, 4, 5, 6], PacketPasses netted (jobPkt t) t 0 job2 := by
  simp only [List.forall_mem_cons]
  repeat' apply And.intro
  all_goals first | decide +kernel | exact ⟨16390, by decide +kernel, 0, by decide +kernel⟩ | exact List.forall_mem_nil _

/-- Bad headers, an unknown job and a dead key generation. -/
theorem test_packet_fails : ({ jobPkt 1 with proto := 2 } : Pkt).proto ≠ 1 ∧ (jobPkt 1).plen = (jobPkt 1).udp ∧ ptypeOk 7 = false ∧ netted.roomOfTag 8 = none ∧
    netted.roomOfTag 9 = some (0, job2) ∧ (tget noKeys netted.net.jobKeys 9).gens.contains 1 = false := by decide +kernel

/-- A DATA packet in time that is placed; one 4,096 PSNs ahead. -/
theorem test_data : (jobPkt 1).psn < (netted.flow (flowKey 0 1 0)).cum + 4096 ∧ (netted.flow (flowKey 0 1 0)).cum + 4096 ≤ ({ jobPkt 1 with psn := 4096 } : Pkt).psn ∧
    ({ Flow.reset with since := 14 } : Flow).since < 15 ∧ ({ Flow.reset with since := 14 } : Flow).since ≠ 0 ∧ (jobPkt 1).flow < 0x8000 ∧ (jobPkt 1).msg < 2 ^ 31 ∧
    bit (jobPkt 1).pflags 0 = false ∧ Flow.reset.recv 0 = ⟨0, [], none, false, []⟩ ∧ netted.checkRange 0 2097152 64 true = none := by decide +kernel

/-- An ACK that shows a payload and misses none; a GETREQ in service, over the limit, of a refused and of a good range; a REFUSE and a BUSY of a waiting GET. -/
def get0 : GetReq := ⟨some (1, 7), 0, 0, 0, 64, false, 0, 0, 0, none, none⟩

theorem test_ack_and_getreq : (∀ u ∈ [({ psn := 3, msg := 0, off := 0, bytes := 64, sent := 0, tries := 0, first := 0, path := 0 } : Unacked)],
      decide (u.psn < (jobPkt 2).num 0 8) = false ∧ (jobPkt 2).num 8 16 = 0) ∧
    (∀ m ∈ (netted.flow (flowKey 0 1 0)).sends, m.msg ≠ (jobPkt 4).msg) ∧ netted.servedGets 0 1 < 16 ∧ (jobPkt 4).flow ≠ 0xFFF0 ∧
    (netted.checkRange 0 0 64 false).isSome = true ∧ netted.checkRange 0 2097152 64 false = none ∧
    [get0].find? (fun g => g.msg = (jobPkt 5).msg) = some get0 ∧ get0.desc = some (1, 7) ∧ netted.time.now < get0.busySince.getD netted.time.now + 2000000000 ∧
    ({ get0 with busySince := some 0 } : GetReq).busySince.getD 2000000000 + 2000000000 ≤ 2000000000 := by decide +kernel

theorem test_port_answers : 0 ∈ netted.netPorts ∧ bit (netted.port 0).cfg 31 = true ∧ (netted.port 0).ip4 = 167773184 ∧ (netted.port 0).ip6 ≠ 167773184 ∧ (netted.port 0).ip6 = 77 ∧
    (countSecond 5 (5, 99)).2 ≤ 100 ∧ 100 < (countSecond 5 (5, 100)).2 := by decide +kernel

/-- PUT and GET: no job of several devices; a bad flow, peer and operation; a range refused; a good one. -/
theorem test_net_post : starts up 0x30 [] (fun d => d.fld 8 1 != 1) = true ∧ starts netted 0x30 [(8, 1)] (fun d => d.fld 8 1 == 1) = true ∧ (up.room 0).job = none ∧ job1.tag = 0 ∧
    job2.tag ≠ 0 ∧ job2.phase ≠ 0 ∧ job2.faulted = false ∧ 0x7FFF < (desc 0x30 [(10, 0x8000)]).fld 10 2 ∧ 1 < (desc 0x30 [(8, 2)]).fld 8 1 ∧ job2.devices ≤ (desc 0x30 [(12, 2)]).fld 12 4 ∧
    (desc 0x30 []).fld 12 4 = job2.rank ∧ (desc 0x30 [(12, 1)]).fld 12 4 < job2.devices ∧
    (match netted.accessCheck 0 2097152 64 false with | .ok _ => true | .error _ => false) = true ∧ (match netted.accessCheck 0 64 64 false with | .ok _ => false | .error _ => true) = true := by
  decide +kernel

/-- A reduction of two ranks, one FP32 element of 2 MiB: queued; its source unmapped; complete; alone. -/
def record2 (op : Nat) : Nat := fields [(0, op), (8, 2097152), (16, 2097152), (24, 1), (32, 1), (36, 2), (40, 1)]

theorem test_collective : collPos (record2 1) job2.rank = 0 ∧ collReads (record2 1) 0 = true ∧ collReads (record2 4) 0 = false ∧ (1 : Nat) < collPositions (record2 1) ∧
    collPositions (fields [(36, 1)]) ≤ 1 ∧ (⟨1, false, 0⟩ : CollSt).queued ≠ 0 ∧ (match netted.readAny 0 (collSrc (record2 1)) (collSrcBytes (record2 1)) with | .ok _ => true | .error _ => false) = true ∧
    (match busy.readAny 0 (collSrc (record2 1)) (collSrcBytes (record2 1)) with | .ok _ => false | .error _ => true) = true ∧ collComplete (record2 1) 0 [(1, [0])] = true ∧
    (netted.writeAny 0 (collDst (record2 1)) [0, 0, 0, 0]).code = none ∧ (busy.writeAny 0 (collDst (record2 1)) [0, 0, 0, 0]).code.isSome = true := by decide +kernel

/-- Each transport timer at its time: ACK 4 us, NACK 20 us, a payload and a GET after 100 us and with 7 retransmissions, a BUSY of 100 us, a rate of 20 us, a path. -/
theorem test_transport_timers : (1 : Nat) + 4000 ≤ Nat.max 0 4001 ∧ (1 : Nat) + 20000 ≤ Nat.max 0 20001 ∧ Nat.max 0 20000 < 1 + 20000 ∧
    [({ psn := 3, msg := 0, off := 0, bytes := 64, sent := 0, tries := 6, first := 0, path := 0 } : Unacked)].any (fun x => x.psn = 3 && decide (x.sent + ladder x.tries ≤ 12800000)) = true ∧
    ladder 0 = 100000 ∧ ladder 7 = 12800000 ∧ [get0].any (fun g => g.psn = 0 && !g.answered && g.busyAt.isNone && decide (g.sent + ladder g.tries ≤ 100000)) = true ∧
    [{ get0 with busyAt := some 0 }].any (fun g => g.busyAt.any fun t => decide (t + 100000 ≤ 100000)) = true ∧ ({ Flow.reset with rate := 1 } : Flow).rate ≠ 0 ∧
    tfind ({ Port.reset with out := [(3, 50)] } : Port).out 3 = some 50 := by decide +kernel

/-- A length of 0 and one above 4 GiB of a transfer that passes its flow checks. -/
theorem test_net_post_length : starts netted 0x30 [(12, 1)] (fun d => d.fld 8 1 != 1) = true ∧ (desc 0x30 [(12, 1)]).fld 32 8 = 0 ∧ 2 ^ 32 < (desc 0x30 [(12, 1), (32, 2 ^ 32 + 1)]).fld 32 8 ∧
    (desc 0x30 [(12, 1), (32, 2 ^ 32)]).fld 32 8 ≤ 2 ^ 32 ∧ (desc 0x30 [(12, 1)]).fld 10 2 ≤ 0x7FFF ∧ (desc 0x30 [(12, 1)]).fld 12 4 ≠ job2.rank := by decide +kernel

/-- The room of two devices with a collective program of one record, its execution queued or running. -/
def colling (w : Nat) (c : CollSt) (m : RoomMem) : State := netted.setRoom 0 { netted.room 0 with
  prog := [w]
  coll := [(0, c)]
  mem := m }
def collBytesOf (s : State) (w : Nat) : List Byte :=
  match s.readAny 0 (collSrc w) (collSrcBytes w) with
  | .ok src => (collResult w 0 (collDraw w job2.seed 0 0 0) (collOwn w 0 (collCodes w src)) [(1, [0])]).1
  | .error _ => []

theorem test_collective_record : ((colling (record2 1) ⟨1, false, 0⟩ (netted.room 0).mem).room 0).running = true ∧
    ((colling (record2 1) ⟨1, false, 0⟩ (netted.room 0).mem).room 0).prog[0]? = some (record2 1) ∧
    (tget ⟨0, false, 0⟩ ((colling (record2 1) ⟨1, false, 0⟩ (netted.room 0).mem).room 0).coll 0).queued ≠ 0 ∧
    (match (colling (record2 1) ⟨1, false, 0⟩ RoomMem.reset).readAny 0 (collSrc (record2 1)) (collSrcBytes (record2 1)) with | .ok _ => false | .error _ => true) = true ∧
    (collBytesOf (colling (record2 1) ⟨0, true, 0⟩ (netted.room 0).mem) (record2 1)).length = 4 ∧
    ((colling (record2 1) ⟨0, true, 0⟩ (netted.room 0).mem).writeAny 0 (collDst (record2 1)) (collBytesOf (colling (record2 1) ⟨0, true, 0⟩ (netted.room 0).mem) (record2 1))).code = none ∧
    ((colling (record2 1) ⟨0, true, 0⟩ RoomMem.reset).writeAny 0 (collDst (record2 1)) [0, 0, 0, 0]).code.isSome = true ∧ collReads (record2 4) 0 = false := by decide +kernel

/-- A tag that no room holds and that none has left; the mirror of one that a turned-over room held. -/
theorem test_packet_of_left_job : tfind netted.net.left 8 = none ∧ netted.roomOfTag 8 = none ∧ tfind ({ netted.net with left := [(8, 0)] } : Net).left 8 ≠ none := by decide +kernel

/-- A DATA packet placed: its flow is as it was before the payload was written. -/
theorem test_data_placed : (let v := ((netted.modFlow (flowKey 0 1 0) fun f => f.gotPsn netted.time.now 1 64 false).charge 0 13 64)
    let w := (v.chargeNormal 0 2097152 64).writeVa 0 2097152 (List.replicate 64 0)
    v.checkRange 0 2097152 64 true = none ∧ w.flow (flowKey 0 1 0) = v.flow (flowKey 0 1 0)) := by decide +kernel

/-! ## Caravan and jobs of several devices (chapter 17) -/

/-- A control message of a type from one member to another, with a body of zeros but for the fields given. -/
def ctrlPkt (src dst t : Nat) (body : List (Nat × Nat)) : Pkt :=
  { pkt0 with
    ip := 0x0A000000 + 32 * src
    ptype := 8
    mgen := 4
    src := src
    dst := dst
    plen := 96
    udp := 96
    remote := dst
    payload := (leBytes 96 (fields ((0, t) :: (4, 9) :: (8, 3) :: body))).map BitVec.toNat }

/-- The record of the head of a convoy of two caravans, and of the manager of caravan 1. -/
def headRecord : Nat := fields [(1, 2), (3, 2), (8, 100), (12, 1000), (32, 0x0A000000)]
def managerRecord : Nat := fields [(1, 2), (2, 1), (3, 2), (8, 100), (12, 1000), (32, 0x0A000000)]
def headJob1 : HeadJob := ⟨9, 5, 2, 1, [], 0, 3, 2, [⟨5, 1, 1⟩], 0, none, true, false, 2, [(0, 0), (1, 5)], none, none, 0, none⟩
def convoy (r : Nat) (p : Nat) : State :=
  { busy with caravan := { Caravan.reset with
    record := r
    generation := 4
    links := [(p, ⟨[0], 0, [[7]]⟩)]
    jobs := [(9, headJob1)] } }
def headed : State := convoy headRecord 5
def managing : State := convoy managerRecord 16389

theorem test_from_giver : ∀ t ∈ [0x02, 0x03, 0x05, 0x06, 0x07, 0x08, 0x09, 0x11, 0x12, 0x15, 0x17], FromGiver netted (ctrlPkt 16384 16389 t []) t := by
  simp only [List.forall_mem_cons]
  repeat' apply And.intro
  all_goals first | decide +kernel | exact ⟨_, rfl, by decide +kernel⟩ | exact .inr ⟨0, by decide +kernel⟩ | exact List.forall_mem_nil _

/-- At the head from a worker of its own caravan, and at a manager from a worker of its own. -/
theorem test_from_member : (∀ t ∈ [0x01, 0x04, 0x0A, 0x0B, 0x0C, 0x0D, 0x10, 0x14, 0x16], FromMember headed (ctrlPkt 5 0 t []) t) ∧
    (∀ t ∈ [0x01, 0x04, 0x0A, 0x0B, 0x0C, 0x10, 0x14], FromMember managing (ctrlPkt 16389 16384 t []) t) := by
  simp only [List.forall_mem_cons]
  repeat' apply And.intro
  all_goals first | decide +kernel | exact ⟨_, rfl, by decide +kernel⟩ | exact .inr ⟨0, by decide +kernel⟩ | exact List.forall_mem_nil _

/-- Bad headers; a sender without link keys; the member in and out; its lease in time and over; a RENEW and a lease before, at and after their times. -/
theorem test_member : ({ ctrlPkt 16384 16389 2 [] with proto := 2 } : Pkt).proto ≠ 1 ∧ tfind netted.caravan.links (ctrlPkt 7 16389 2 []).src = none ∧ netted.caravan.member = true ∧
    ({ netted with caravan := { netted.caravan with member := false } } : State).caravan.member = false ∧ netted.time.now < netted.caravan.expiry ∧
    netted.caravan.expiry ≤ Nat.max netted.time.now (10 ^ 9) ∧ netted.caravan.expiry ≠ 0 ∧ netted.caravan.isHead = false ∧ netted.caravan.members = [] ∧ netted.caravan.role = 1 ∧
    netted.caravan.renewAt + 250000000 ≤ Nat.max netted.time.now 250000000 ∧ Nat.max netted.time.now 249999999 < netted.caravan.renewAt + 250000000 ∧ netted.stewards.ready = true ∧
    netted.health.oos = false ∧ ({ netted with caravan := { netted.caravan with retryAt := some 5 } } : State).caravan.retryAt = some 5 ∧ (5 : Nat) + 10000000000 ≤ Nat.max 0 10000000005 ∧
    tfind netted.caravan.links 16384 = some ⟨[0], 0, [[7]]⟩ ∧ tfind netted.net.jobKeys 9 = some ⟨[2], 0, [[8]]⟩ := by decide +kernel

/-- An ADMIT with and without a reason to refuse it; a RENEW of an unknown member and of a known one at its generation and another; probes. -/
theorem test_lease_giver : headed.admitRefusal (ctrlPkt 5 0 1 []) = some Code.admitRole ∧ headed.admitRefusal (ctrlPkt 5 0 1 [(17, 1), (18, 5), (20, 1)]) = none ∧
    managing.admitRefusal (ctrlPkt 16389 16384 1 [(17, 1), (18, 5), (20, 1)]) = none ∧ tfind headed.caravan.members 5 = none ∧
    (ctrlPkt 5 0 4 [(16, 4)]).arg 0 4 = headed.caravan.generation ∧ (ctrlPkt 5 0 4 []).arg 0 4 ≠ headed.caravan.generation ∧ headed.gives (headed.originOf (ctrlPkt 5 0 0x0C [])) = true ∧
    tfind ({ headed.caravan with members := [(5, ⟨0, 1, 0, 0, []⟩)] } : Caravan).members 5 = some ⟨0, 1, 0, 0, []⟩ ∧ (⟨0, 1, 0, 0, []⟩ : Member).probes ≠ 0 ∧
    (⟨0, 0, 0, 0, []⟩ : Member).probes = 0 ∧ headed.caravan.isHead = true ∧ managing.caravan.isHead = false ∧ managing.caravan.isManager = true ∧
    ({ headed.caravan with jobs := [] } : Caravan).jobs = [] ∧ (⟨0, 1, 0, 0, []⟩ : Member).probeLast + 10000000 ≤ Nat.max 0 10000000 := by decide +kernel

/-- A JOIN refused and taken at the head; one passed up; START for another member; a FAULT of this incarnation and of an older one; the timers of a record. -/
theorem test_assembly : tfind headed.caravan.jobs 9 = some headJob1 ∧
    joinRefusal none (JoinMsg.ofPkt (ctrlPkt 5 0 0x10 []) 5) = some Code.carRank ∧ joinRefusal none { JoinMsg.ofPkt (ctrlPkt 5 0 0x10 [(28, 1), (24, 2)]) 5 with marked := true } = some Code.carLaggard ∧
    (let m := JoinMsg.ofPkt (ctrlPkt 5 0 0x10 [(16, 6), (24, 2), (28, 2)]) 5
     m.devices ≠ 1 ∧ headed.caravan.jobs.find? (fun x => x.2.seed = m.seed && x.2.devices = m.devices) = none) ∧
    managerOf (ctrlPkt 16389 16384 0x10 []).src = managing.caravan.mid ∧ headJob1.running = true ∧ ({ headJob1 with running := false, joins := [] } : HeadJob).joins = [] ∧
    headJob1.incarn = (ctrlPkt 5 0 0x16 []).cinc ∧ ({ headJob1 with incarn := 4 } : HeadJob).incarn ≠ (ctrlPkt 5 0 0x16 []).cinc ∧ headJob1.joins ≠ [] ∧
    headJob1.firstJoin + headed.caravan.assembleMs * 1000000 ≤ Nat.max headed.time.now 1000000000 ∧ Nat.max headed.time.now 999999999 < headJob1.firstJoin + headed.caravan.assembleMs * 1000000 ∧
    Nat.max 0 headJob1.firstJoin + 600000000000 ≤ Nat.max headed.time.now 600000000000 ∧ headJob1.ended = none := by decide +kernel

/-- A room whose barrier can be joined, with a snapshot due and a plan that names a buddy and a size. -/
def due (b n : Nat) : Room := { busy.room 0 with mem := { RoomMem.reset with snap := { SnapSt.reset with plan := some ⟨1, 0, b, n, 0⟩ } } }

theorem test_bar_join : ¬ BarHeld busy 0 { job1 with joined := [0] } ∧ BarHeld busy 0 { job1 with faulted := true } ∧ { job1 with joined := [0] }.phase = 2 ∧
    (busy.room 0).snapDue { job1 with joined := [0] }.epoch = false ∧ (due 9 0).snapDue { job1 with joined := [0] }.epoch = true ∧ (due 9 0).quiet = true ∧
    ({ due 9 0 with kernels := [(0, kernelOf 0 none)] } : Room).quiet = false ∧ (due 9 0).mem.snap.plan = some ⟨1, 0, 9, 0, 0⟩ ∧ 9 ≠ buddyOf job2.rank job2.devices ∧ 1 < job2.devices ∧
    (due 1 0).mem.snap.plan = some ⟨1, 0, 1, 0, 0⟩ ∧ 1 = buddyOf job2.rank job2.devices ∧ 0 < ((busy.setRoom 0 (due 1 0)).snapOf 0 job2).bytes ∧
    ((busy.setRoom 0 (due 1 (10 ^ 9))).snapOf 0 job2).bytes ≤ 10 ^ 9 ∧ (due 1 0).mem.snap.free = true := by
  unfold BarHeld; decide +kernel

/-- A count opened; a join of another incarnation, epoch, digest and end; a RELEASE at a worker; joins and WAITs late and in time; a timeout of the count. -/
theorem test_barrier_counts : headJob1.bar = none ∧ (1 : Nat) ≠ headJob1.devices ∧ ({ headJob1 with running := false } : HeadJob).running = false ∧ headJob1.incarn ≠ 4 ∧
    ({ headJob1 with bar := some ⟨2, [], 7, 0, 0, 3⟩ } : HeadJob).bar = some ⟨2, [], 7, 0, 0, 3⟩ ∧ (2 : Nat) ≠ 1 ∧ (7 : Nat) ≠ 6 ∧ (0 : Nat) % 2 ≠ 1 % 2 ∧ netted.caravan.isManager = false ∧
    netted.caravan.barrierNs = 100000000 ∧ 0 + headed.caravan.barrierNs ≤ Nat.max headed.time.now 100000000 ∧ Nat.max headed.time.now 99999999 < 0 + headed.caravan.barrierNs ∧
    waitsLate ((atWord 1 { ctx1 with waitAt := some 0 } []).upto (60 * 10 ^ 9)) 0 = true ∧ waitsLate ((atWord 1 { ctx1 with waitAt := some 1 } []).upto (60 * 10 ^ 9)) 0 = false ∧
    job1.firstJoin = none ∧ ({ job1 with firstJoin := some 0 } : Job).firstJoin = some 0 ∧ job1.unitsIn = false ∧ job1.waiting = false := by decide +kernel

/-- A barrier with no snapshot slot free, held; the head knows the last snapshot, and not. -/
def fullSlots (n : Option Nat) : Room := { due 1 (10 ^ 9) with mem := { (due 1 (10 ^ 9)).mem with snap := { (due 1 (10 ^ 9)).mem.snap with
  released := false
  newest := n
  slotA := some { snap0 with complete := true } } } }

theorem test_no_snapshot_slot : (fullSlots none).mem.snap.free = false ∧ (fullSlots none).quiet = true ∧ (fullSlots none).snapDue { job1 with joined := [0] }.epoch = true ∧
    ((busy.setRoom 0 (fullSlots none)).snapOf 0 job2).bytes ≤ 10 ^ 9 ∧ (fullSlots none).mem.snap.copying = none ∧ (fullSlots none).mem.snap.report = (fullSlots none).mem.snap.newestStep ∧
    ({ job1 with joined := [0] } : Job).marked = false ∧ 10 ^ 9 < ((busy.setRoom 0 (fullSlots none)).snapOf 0 job2).bytes + 10 ^ 9 := by decide +kernel

/-! ## Links, images, stewards (chapters 15 and 19) -/

/-- A report of a member with a nonce and, for the giver's answer, its own. -/
def report1 (a b : List Nat) : List Nat := List.replicate 7 0 ++ [2] ++ List.replicate 24 0 ++ [255, 255, 0, 0] ++ List.replicate 28 0 ++ a ++ b ++ List.replicate 48 0
def try1 (starter : Bool) (stage : Nat) : LinkTry := ⟨starter, List.replicate 48 1, List.replicate 48 2, stage, 1, 0, [], []⟩

theorem test_link : headed.gives 5 = true ∧ headed.gives 16389 = false ∧ headed.stewards.ready = true ∧ tfind headed.caravan.tries 5 = none ∧
    tfind ({ headed.caravan with tries := [(5, try1 true 1)] } : Caravan).tries 5 = some (try1 true 1) ∧ (try1 true 3).stage = 3 ∧ (try1 false 2).starter = false ∧
    headed.peerOk (memWriteN [] 0 (toBytes (report1 (List.replicate 48 1) []))) (try1 true 1).nonceA true = true ∧
    headed.peerOk (memWriteN [] 0 (toBytes (report1 (List.replicate 48 3) []))) (try1 true 1).nonceA true = false ∧
    headed.peerOk (memWriteN [] 0 (toBytes (report1 (List.replicate 48 2) (List.replicate 48 1)))) (try1 false 2).nonceB true = true ∧
    memReadN (memWriteN [] 0 (toBytes (report1 (List.replicate 48 2) (List.replicate 48 1)))) 112 48 = fitBytes 48 (toBytes (try1 false 2).nonceA) ∧
    (try1 true 1).last + 1000000000 ≤ Nat.max headed.time.now 1000000000 ∧ Nat.max headed.time.now 999999999 < (try1 true 1).last + 1000000000 ∧ (try1 true 1).sends ≤ 5 ∧
    5 < ({ try1 true 1 with sends := 6 } : LinkTry).sends := by decide +kernel

/-- A fetch from two servers, the first over TFTP, at its fifth and its sixth wait; one that waits to start again; an image of the wrong format. -/
def fetching1 (n i : Nat) : State :=
  { up with
    sec := { up.sec with
      stage := 7
      servers := [⟨false, 1, []⟩, ⟨false, 2, []⟩] }
    stewards := { Stewards.reset with
      fetching := true
      server := i
      tries := n
      waitSince := some 0 } }

theorem test_fetch : (fetching1 4 0).stewards.fetching = true ∧ up.stewards.fetching = false ∧ (fetching1 4 0).sec.servers[(fetching1 4 0).stewards.server]? = some ⟨false, 1, []⟩ ∧
    (fetching1 4 0).stewards.asked + 1000000000 ≤ Nat.max 0 1000000000 ∧ (fetching1 4 0).stewards.tries < 5 ∧ 5 ≤ (fetching1 5 0).stewards.tries ∧
    (fetching1 5 0).stewards.server + 1 < (fetching1 5 0).sec.servers.length ∧ (fetching1 5 1).sec.servers.length ≤ (fetching1 5 1).stewards.server + 1 ∧
    (fetching1 5 1).sec.servers[(fetching1 5 1).stewards.server]? = some ⟨false, 2, []⟩ ∧ (fetching1 0 0).stewards.waitSince = some 0 ∧ (fetching1 0 0).sec.stage = 7 ∧
    (0 : Nat) + 10000000000 ≤ Nat.max 0 10000000000 ∧ up.imageRefusal (List.replicate 640 0) [] = some Code.fwSize := by decide +kernel

/-- An image of one byte in excess is refused for its size without being read. -/
theorem test_image_size : 25165824 < (List.replicate 25165825 (0 : Byte)).length := by rw [List.length_replicate]; decide

theorem test_stewards : (up.pair 1).st = 1 ∧ (up.pair 1).crashes = [] ∧ (State.reset.pair 1).st ≠ 1 ∧ (State.reset.pair 1).st ≠ 2 ∧
    (let s : State := { up with stewards := { up.stewards with pairs := [(1, { pairUp with st := 2, crashAt := some 0 })] } }
     (s.pair 1).st = 2 ∧ (s.pair 1).gated = false ∧ (tfind s.stewards.stores (1 / 2)).isSome = true ∧ s.power.trip.contains (1 / 2) = false ∧ (s.pair 1).crashAt = some 0 ∧ (s.pair 1).slow = false ∧
       0 + 250000000 ≤ (s.upto 250000000).time.now ∧ (s.upto 249999999).time.now < 0 + 250000000) := by decide +kernel

/-- The smallest image: no code, and one signature of the maker's generation in force. -/
def image1 : List Byte :=
  let head := leBytes 24 (fields [(0, 0x534F4D55), (4, 1), (6, 1)]) ++ sha384 [] ++ List.replicate 440 0
  head ++ leBytes 128 (fields [(0, 1), (1, (up.makerGen).getD 0)])

theorem test_image_accepted : up.imageRefusal image1 [true] = none ∧ up.imageRefusal image1 [false] = some Code.fwMakerSig ∧ image1.length = 640 := by decide +kernel

/-- Blocks of a TFTP transfer: whole, the last, and of a server that is no HTTPS one. -/
theorem test_blocks : (List.replicate 512 (0 : Nat)).length = 512 ∧ (List.replicate 3 (0 : Nat)).length < 512 ∧ ((fetching1 0 0).stewards.part ++ List.replicate 512 0).length ≤ 25165824 ∧
    (fetching1 0 0).sec.servers[(fetching1 0 0).stewards.server]? = some ⟨false, 1, []⟩ ∧ (fetching1 0 0).stewards.fetching = true := by decide +kernel

/-- Each die's copy of an image, whole and not; a pair at the end of its watchdog, and before it. -/
theorem test_image_copies : (⟨image1, sha384 (image1.take 512)⟩ : ImageStore).ok = true ∧ (⟨image1, []⟩ : ImageStore).ok = false ∧ (up.pair 1).visited + 5000000 ≤ (up.upto 5000000).time.now ∧
    (up.upto 4999999).time.now < (up.pair 1).visited + 5000000 ∧ tfind State.reset.stewards.stores 0 = none := by decide +kernel

/-! ## Power, resets and heat (chapters 20 and 21) -/

/-- A fuse word whose four reads give one value, and one of which the second gives none of it. -/
def fuseRead (v : Nat) (ok : Bool) : FuseRead := ⟨v, v, ok, v⟩
def fuse4 (w v : Nat) : FuseReads := ⟨w, fuseRead v true, fuseRead v true, fuseRead v true, fuseRead v true⟩
def unlike4 (w v : Nat) : FuseReads := { fuse4 w v with btight := fuseRead 0 false }

theorem test_standby_power_good : State.reset.module.standby = false ∧ up.module.standby = true ∧ (fuse4 0 3).resolve ≠ none ∧ (unlike4 40 1).resolve = none ∧ State.reset.lifecycle = 2 ∧
    State.reset.sec.versionReg = 0 ∧ ({ up with sec := { up.sec with shadow := tset up.sec.shadow 0 7 } } : State).lifecycle = 3 ∧ up.module.latched = false ∧
    (fuse4 0 3).agree = true ∧ (fuse4 0 3).atight.data = up.fuse 0 ∧ (unlike4 0 1).agree = false := by decide +kernel

/-- Main power up to its rails, one step at a time; a rail failure, the first and the second; a retry after 1 s; the link after its times. -/
def railing (r f : Nat) : State := { up with module := { Module.reset with
    standby := true
    rail := r
    fails := f } }

theorem test_rails : (railing 0 0).module.standbyAt + 500000000 ≤ ((railing 0 0).upto 500000000).time.now ∧ ((railing 0 0).upto 499999999).time.now < (railing 0 0).module.standbyAt + 500000000 ∧
    (railing 0 0).module.rail = 0 ∧ (railing 0 0).module.heldOff = false ∧ (railing 0 0).module.settled = false ∧ 0 < (railing 4 0).module.rail ∧ (railing 4 0).module.rail < 5 ∧
    (railing 5 0).module.rail = 5 ∧ 6 ≤ (railing 6 0).module.rail ∧ (railing 0 1).module.fails ≠ 0 ∧ (railing 0 1).module.cutAt + 1000000000 ≤ ((railing 0 1).upto 1000000000).time.now ∧
    up.module.pwrGood = true ∧ up.module.resetActive = false ∧ up.module.pwrGoodAt + 100000000 ≤ (up.upto 100000000).time.now ∧ up.module.resetEndAt = 0 ∧
    (up.upto 99999999).time.now < up.module.pwrGoodAt + 100000000 := by decide +kernel

theorem test_resets : up.module.pwrGood = true ∧ up.module.resetActive = false ∧ State.reset.module.pwrGood = false ∧
    ({ up with module := { up.module with resetActive := true } } : State).module.resetActive = true ∧ up.module.rail ≠ 0 ∧ State.reset.module.rail = 0 ∧ (10999 : Nat) < 11000 ∧
    up.alert = false ∧ ({ up with power := { up.power with sag := true } } : State).alert = true := by decide +kernel

/-- P above the cap, within its band and below it; I above its limit; 5 % over with every step at its floor for 100 ms. -/
theorem test_power_control : (42000 : Nat) > 41999 ∧ up.power.sag = false ∧ (43000 : Nat) < 43001 ∧ Nat.min up.power.cap (powerLimit up.variant) < 10 ^ 5 ∧ (72000 : Nat) < 72001 ∧
    100 * 100 < 97 * Nat.min up.power.cap (powerLimit up.variant) ∧ (1000 : Nat) < 69800 ∧ up.power.powerSteps ≠ 55 ∧ 105 * powerLimit up.variant < 100 * 10 ^ 5 ∧
    (let s : State := { up with power := { up.power with powerSteps := 55, overSince := some 0 } }
     s.power.powerSteps = 55 ∧ s.power.overSince = some 0 ∧ 0 + 100000000 ≤ Nat.max s.time.now 100000000) := by decide +kernel

/-- Die 0 cool, in its band, hot for the first time and again 100 us later; tripped, and cool for 60 s. -/
def hot (t : List Nat) : State := { up with power := { up.power with
    throttle := t
    thermAt := [(0, 0)]
    thermSteps0 := 3 } }

theorem test_thermal_control : (hot []).power.trip.contains 0 = false ∧ (hot []).power.throttle.contains 0 = false ∧ (hot [0]).power.throttle.contains 0 = true ∧
    tfind (hot [0]).power.thermAt 0 = some 0 ∧ 0 + 100000 ≤ Nat.max (hot [0]).time.now 100000 ∧ (hot [0]).power.thermSteps 0 = 3 ∧ (110 : Nat) ≤ 110 ∧
    (let s : State := { up with power := { up.power with trip := [0], tripCool := [(0, 0)] } }
     s.power.trip.contains 0 = true ∧ tfind s.power.tripCool 0 = some 0 ∧ 0 + 60000000000 ≤ Nat.max s.time.now 60000000000 ∧ Nat.max s.time.now 59999999999 < 0 + 60000000000) ∧
    up.power.stretched.contains 3 = false ∧ ({ up.power with stretched := [3] } : Power).stretched.contains 3 = true := by decide +kernel

/-- A stack in service and a site without one; a stopped stack that has been cool for 60 s; lanes with their spares and without; rooms of a security fault. -/
theorem test_stacks : 3 ∈ up.sites ∧ 16 ∉ up.sites ∧ (up.stack 3).stopped = false ∧
    (let s : State := { up with stackTbl := [(3, { Stack.reset with stopped := true, coolSince := some 0 })] }
     (s.stack 3).stopped = true ∧ (s.stack 3).coolSince = some 0 ∧ 0 + 60000000000 ≤ (s.upto 60000000000).time.now ∧ (s.upto 59999999999).time.now < 0 + 60000000000) ∧
    (∀ r, r < 64 → (up.room r).mem.upperFrames 3 = []) ∧ (∀ p ∈ up.rooms, p.2.sec.conf = false) ∧ (⟨0, 0, 0, false⟩ : ScrubHit).corrected = false ∧ 139 - 136 ∈ up.sites ∧
    (crcTimes (List.replicate 16 0) 0).length = 17 ∧ (crcTimes (List.replicate 15 0) 0).length ≤ 16 ∧ 0 < up.health.bridge0 ∧ ({ up.health with bridge0 := 0 } : Health).bridge0 = 0 ∧
    (let s := up.setRoom 0 { room1 with sec := { RoomSec.reset with conf := true } }
     (s.room 0).sec.conf = true ∧ (s.room 0).st = .committed ∧ (s.room 1).holds = false) := by decide +kernel

/-- The power control within and past its 100 us; a draw 5 % over the limit. -/
theorem test_power_times : (up.upto 99999).time.now < up.power.controlAt + 100000 ∧ up.power.controlAt + 100000 ≤ (up.upto 100000).time.now ∧
    (100 * 1000 ≤ 105 * powerLimit up.variant) ∧ 105 * powerLimit up.variant < 100 * 10 ^ 5 ∧ (0 : Nat) + 100000000 ≤ (up.upto 100000000).time.now := by decide +kernel

/-- A cellar package and a lane of the bridge, a stack's channel and its ECC lanes that fail their training; sites and units in and out of range. -/
theorem test_lane_errors : State.reset.stewards.ready = false ∧ up.stewards.ready = true ∧ (⟨3, true⟩ : LaneErr).training = true ∧ (⟨3, false⟩ : LaneErr).training = false ∧
    crcTimes (tget [] up.health.bridgeCrc (0 * 4096 + 3)) up.time.now = [up.time.now] ∧ tget 0 (up.stack 3).lanesUsed (2 * 2 + 0) < 2 ∧ tget 0 (up.stack 3).lanesUsed (2 * 2 + 1) < 1 ∧
    (2 : Nat) ≤ tget 0 ({ Stack.reset with lanesUsed := [(4, 2)] } : Stack).lanesUsed (2 * 2 + 0) ∧ (1 : Nat) ≤ tget 0 ({ Stack.reset with lanesUsed := [(5, 1)] } : Stack).lanesUsed (2 * 2 + 1) := by
  decide +kernel

/-! ## Management and time (chapters 18 and 19) -/

/-- An operator and an installer are served what their role may ask; nobody is, and a full log stops what writes. -/
theorem test_requests : RequestServed up (.auditRead (.key [2]) 0) (.key [2]) ∧ RequestServed up (.setNet (.key [1]) []) (.key [1]) ∧ RequestServed up (.reboot (.key [2])) (.key [2]) ∧
    RequestServed up (.roomSec (.key [1]) 0 1 [] true) (.key [1]) ∧ RequestServed up (.repairFuse (.maker 0 [3]) [(50, 1)] []) (.maker 0 [3]) ∧
    RequestServed up (.debug (.maker 0 [3]) [0] 1) (.maker 0 [3]) ∧ RequestServed up (.retire (.key [1]) []) (.key [1]) ∧ (up.roleOf .nobody).1 ∉ [1, 2, 3] ∧
    ({ up with sec := { up.sec with installers := [] } } : State).sec.installers = [] ∧ ({ up.sec with nextSeq := 507904 } : Strongroom).logFull = true :=
  by
  repeat' apply And.intro
  all_goals first | decide +kernel | exact ⟨_, _, rfl, by decide +kernel⟩

/-- Key slots with room and full; one installer and two; jobs, none and one; a debug window open, and a room that a session may touch. -/
theorem test_request_cases : up.sec.operators.contains [2] = true ∧ up.sec.operators.contains [5] = false ∧ up.sec.operators.length < 8 ∧ up.sec.installers.length ≤ 1 ∧
    repeats [[1], [1]] = true ∧ repeats [[1], [2]] = false ∧ up.anyJob = false ∧ busy.anyJob = true ∧ up.windowOpen = false ∧
    ({ up with sec := { up.sec with debugUntil := some 5 } } : State).windowOpen = true ∧ (∀ p ∈ State.reset.rooms, p.2.holds = false) ∧ fuseRepair 100 = true ∧ up.makerLive 0 = true ∧
    up.makerLive 3 = false ∧ bit (up.fuse 1) 0 = false ∧ up.debugRoomOk [3] 1 0 = true ∧
    (({ Strongroom.reset with installers := [] } : Strongroom).installers.isEmpty) = true := by decide +kernel

/-- A claim token of this device for a key is good; one of another device is not. -/
theorem test_claim : (let s : State := { up with sec := { up.sec with installers := [] } }
    let token (d : Nat) : List Nat := ((leBytes 8 d).map BitVec.toNat) ++ (sha384 (toBytes [9])).map BitVec.toNat ++ List.replicate 8 0 ++ [(s.makerGen).getD 0]
    s.claimOk (token (s.fuse 39)) [9] true = true ∧ s.claimOk (token (s.fuse 39 + 1)) [9] true = false) := by decide +kernel

/-- EXT present and selected, on a device with a grandmaster. -/
def timed : State := { up with time := { Timebase.reset with
    present := [0, 2]
    sel := 0
    gm := 7
    syncRecv := some (3, 100)
    delayReqAt := some 90
    delaySeq := 4
    todPending := some 5
    st := .acquiring } }
def ptp1 : PtpMsg := ⟨0, 7, 0, 3, true, 50, 60, 6, true, true⟩

theorem test_time : up.time.present.contains 0 = false ∧ timed.time.present.contains 0 = true ∧ up.caravan.isHead = false ∧ headed.caravan.isHead = true ∧ timed.time.sel = 0 ∧
    timed.time.oot = [] ∧ timed.time.suspect = none ∧ timed.time.sel < 2 ∧ timed.time.present.length = 2 ∧ (⟨0, 60, 60⟩ : FreqDiffs).apart timed.time.sel 2 = true ∧
    (⟨60, 60, 0⟩ : FreqDiffs).outlier [0, 1, 2] 0 = true ∧ timed.time.st = .acquiring ∧ timed.time.since + 64000000000 ≤ (timed.upto 64000000000).time.now ∧ timed.time.offset.natAbs ≤ 50 ∧
    (up.upto 7).time.now % 1000000000 ≠ 0 ∧ timed.time.todPending = some 5 ∧ up.time.todPending = none ∧ timed.ptpOk ptp1 = true ∧ timed.ptpOk { ptp1 with domain := 1 } = false ∧
    timed.time.syncRecv = some (3, 100) ∧ timed.time.delayReqAt = some 90 ∧ ptp1.seq + 1 = timed.time.delaySeq ∧ timed.fromParent ptp1 = true ∧ ptp1.domain = timed.time.ptp % 256 ∧
    248 ≤ ({ ptp1 with clockClass := 248 } : PtpMsg).clockClass ∧ timed.fromParent { ptp1 with addr := 8 } = false ∧ managing.caravan.isManager = true ∧ timed.caravan.isManager = false ∧
    (timed.upto 5).activePorts = [] ∧ timed.hasParent = true ∧
    ({ netted with net := { netted.net with ports := [(0, { netted.port 0 with cfg := 2 ^ 31 })] } } : State).activePorts = [0] := by decide +kernel

/-- Sixteen exchanges within 100 ns, and too few; the times of losses, comparisons and intervals; a step that falls due at once, and one that waits for its second. -/
def fitted : State := { timed with time := { timed.time with
  syncs := List.replicate 16 0
  sel := 1
  ptpOffset := 5 } }

theorem test_time_limits : fitted.time.ptpFit = true ∧ up.time.ptpFit = false ∧ fitted.time.present.contains 1 = false ∧ (up.upto 2999999999).time.now < up.time.lastSync + 3000000000 ∧
    up.time.lastSync + 3000000000 ≤ (up.upto 3000000000).time.now ∧ (up.upto 999999999).time.now < up.time.compared + 1000000000 ∧ up.time.compared + 1000000000 ≤ (up.upto 1000000000).time.now ∧
    (up.upto 62499999).time.now < up.time.syncSent + 62500000 ∧ managing.time.syncSent + 62500000 ≤ (managing.upto 62500000).time.now ∧ up.time.announced + 1000000000 ≤ (up.upto 1000000000).time.now ∧
    (up.upto 62499999).time.now < up.time.delayAsked + 62500000 ∧ fitted.time.sel = 1 ∧ fitted.time.ptpOffset ≠ 0 ∧ up.time.sel = 2 ∧ timed.time.sel ≠ 2 := by decide +kernel

theorem test_steps_of_time : up.maySteps = true ∧ busy.maySteps = false ∧ wholeAfter up.time.now (0 : Int).toNat = up.time.now ∧ up.time.now < wholeAfter up.time.now (7 : Int).toNat ∧
    ({ netted with net := { netted.net with ports := [(0, { netted.port 0 with cfg := 2 ^ 31 })] }, time := timed.time } : State).hasParent = true := by decide +kernel

/-- Key slots full and with room; an image whose security version the fuses can hold; a revocation of a lower generation by a live maker key. -/
theorem test_request_limits : up.sec.installers.contains [1] = true ∧ up.sec.installers.contains [9] = false ∧ up.sec.installers.length < 4 ∧
    4 ≤ ({ up.sec with installers := [[1], [2], [3], [4]] } : Strongroom).installers.length ∧ 1 < ({ up.sec with installers := [[1], [2]] } : Strongroom).installers.length ∧
    8 ≤ ({ up.sec with operators := List.replicate 8 [2] } : Strongroom).operators.length ∧ (⟨0, 0, 384, [], []⟩ : Firmware).svn ≤ 384 ∧ up.sec.logFull = false ∧ up.makerLive 0 = true ∧
    ({ up with sec := { up.sec with shadow := tset up.sec.shadow 15 1 } } : State).makerLive 1 = true := by decide +kernel

end Sys2Proof.Tests
end

section
/-! PROOFS. A MOVE word in flight and its rows between stores (R11, R91, R549). -/

namespace Sys2Proof.Machine

open Sys2Proof Sys2Proof.Obl

@[simp] theorem memReadN_length (m : Memory) (a n : Nat) : (memReadN m a n).length = n := by
  induction n generalizing a with
  | zero => rfl
  | succ n ih => simp [memReadN, ih]

/-! ## The waiver of unordered adds (R11) -/

theorem Booked.waive (s : State) (r b : Nat) : Booked s (s.waive r b) :=
  ⟨SameButLedger.modRoom _ _ _ fun x => ⟨_, x.stallNs, x.stallEv, rfl⟩, rfl⟩

theorem bit_waive_waiver (s : State) (r b : Nat) : bit ((s.waive r b).room r).ledger.waiver b = true := by
  simp [State.waive, State.modLedger, bit, Nat.testBit_or, Nat.testBit_two_pow_self]

/-- A waiver recorded after a word's issue is accounting: the word stays issued as it was. -/
theorem Issued.waive {s t : State} {core : Nat} {n : Next} {f : Flight} (h : Issued s t core n f) (r b : Nat) : Issued s (t.waive r b) core n f := by
  obtain ⟨hctx, hnow, hstore, hsel, hbanks, hctxs, hcores, hbooked⟩ := h
  exact ⟨hctx, hnow, hstore, hsel, hbanks, hctxs, hcores, Booked.trans hbooked (Booked.waive t r b)⟩

/-! ## MOVE -/

/-- The flight that MOVE puts in the context: all of its rows still to make. -/
def moveFlight (n : Next) (w : MoveWord) : Flight := { Flight.new .move n.slot 0 with
  move := some w
  requests := w.requests }

theorem exec_move_next {s : State} {core : Nat} {n : Next} {w : MoveWord} (hn : s.nextWord core = some n) (hw : n.word = .move w) :
    exec (.move core) s = .next (if w.uadd then (s.issue core n (moveFlight n w)).waive n.room 0 else s.issue core n (moveFlight n w)) := by
  simp [exec, execMove, hn, hw, moveFlight]

/-- MOVE issues its word, with and without unordered adds. -/
theorem move_issues {s : State} {core : Nat} {n : Next} {w : MoveWord} (hn : s.nextWord core = some n) (hw : n.word = .move w) :
    ∃ t, exec (.move core) s = .next t ∧ Issued s t core n { moveFlight n w with issued := s.now } ∧
      (w.uadd = true → bit (t.room n.room).ledger.waiver 0 = true) := by
  have issued := Issued.of_issue (moveFlight n w) (nextWord_ctx hn)
  have run := exec_move_next hn hw
  cases hadd : w.uadd with
  | false => exact ⟨_, by rw [run, hadd, if_neg (by decide)], issued, nofun⟩
  | true => exact ⟨_, by rw [run, hadd, if_pos rfl], Issued.waive issued n.room 0, fun _ => bit_waive_waiver (s.issue core n (moveFlight n w)) n.room 0⟩

/-! ## Rows between core stores and common stores (R91) -/

theorem rowRead_near (s : State) (core r a : Nat) {w : MoveWord} (h : w.srcSp < 3) :
    ∃ bytes, s.rowRead core r w a = .ok bytes ∧ bytes.length = w.rowBytes := by
  obtain h | h | h : w.srcSp = 0 ∨ w.srcSp = 1 ∨ w.srcSp = 2 := by omega
  all_goals exact ⟨_, by simp only [State.rowRead, h]; rfl, memReadN_length _ _ _⟩

/-- The state after a row written to the core's own store, the common store or a peer's store. -/
def State.nearWrite (s : State) (core r : Nat) (w : MoveWord) (a : Nat) (bytes : List Byte) : State :=
  match w.dstSp with
  | 0 => s.storeWrite core r a bytes
  | 1 => { s with common := tset s.common (coreDie core) (memWriteN (s.commonOf (coreDie core)) ((s.room r).commonBase (coreDie core) + a) bytes) }
  | _ => s.storeWrite w.peer r a bytes

theorem rowWrite_near (x : MoveRun) (core r a : Nat) (bytes : List Byte) {w : MoveWord} (h : w.dstSp < 3) :
    State.rowWrite x core r w a bytes = { x with
      s := x.s.nearWrite core r w a bytes
      rows := x.rows + 1 } := by
  obtain h | h | h : w.dstSp = 0 ∨ w.dstSp = 1 ∨ w.dstSp = 2 := by omega
  all_goals simp [State.rowWrite, State.nearWrite, h]

theorem nearWrite_own (s : State) (core r a : Nat) (bytes : List Byte) {w : MoveWord} (h : w.dstSp = 0) :
    s.nearWrite core r w a bytes = s.storeWrite core r a bytes := by simp [State.nearWrite, h]

theorem nearWrite_peer (s : State) (core r a : Nat) (bytes : List Byte) {w : MoveWord} (h : w.dstSp = 2) :
    s.nearWrite core r w a bytes = s.storeWrite w.peer r a bytes := by simp [State.nearWrite, h]

theorem nearWrite_common (s : State) (core r a : Nat) (bytes : List Byte) {w : MoveWord} (h : w.dstSp = 1) :
    (s.nearWrite core r w a bytes).commonOf (coreDie core) =
      memWriteN (s.commonOf (coreDie core)) ((s.room r).commonBase (coreDie core) + a) bytes := by
  simp [State.nearWrite, h, State.commonOf]

/-- A plain row away from device memory is what it reads, written; no heat is counted for it. -/
theorem moveRow_near {core r : Nat} {w : MoveWord} {x : MoveRun} {bytes : List Byte} (hstop : x.stop = none) (hsrc : w.srcSp < 3) (hdst : w.dstSp < 3)
    (hadd : w.uadd = false) (hread : x.s.rowRead core r w (w.src + x.rows * w.srcPitch) = .ok bytes) :
    State.moveRow core r w x = { x with
      s := x.s.nearWrite core r w (w.dst + x.rows * w.dstPitch) bytes
      rows := x.rows + 1 } := by
  have hs : w.srcSp ≠ 3 := by omega
  have hd : w.dstSp ≠ 3 := by omega
  simp [State.moveRow, hstop, hread, hadd, hs, hd, rowWrite_near x core r _ bytes hdst]

/-- Settles O15: MOVE issues a flight whose rows are all to make, and a row between near spaces is one read and one write. -/
theorem moveWordsRun : Obligations.MoveWordsRun := by
  unfold Obligations.MoveWordsRun
  constructor
  · intro s core n w hn hw
    obtain ⟨t, ht, issued, waiver⟩ := move_issues hn hw
    exact ⟨t, _, ht, issued, rfl, rfl, rfl, rfl, rfl, waiver⟩
  · intro core r w x hstop hsrc hdst hadd
    obtain ⟨bytes, hread, hlen⟩ := rowRead_near x.s core r (w.src + x.rows * w.srcPitch) hsrc
    refine ⟨bytes, hread, hlen, ?_⟩
    rw [moveRow_near hstop hsrc hdst hadd hread]
    exact ⟨hstop, rfl, fun h => by rw [nearWrite_own _ _ _ _ _ h], fun h => by rw [nearWrite_peer _ _ _ _ _ h], nearWrite_common _ _ _ _ _⟩

end Sys2Proof.Machine
end

section
/-! PROOFS. Accesses to the registers of BAR0 (R408, R434, R528, R530, R531). -/

namespace Sys2Proof.Machine

open Sys2Proof Sys2Proof.Obl

/-! ## Reads -/

theorem exec_wideRegisterRead (fn o n : Nat) (s : State) :
    exec (.wideRegisterRead fn o n) s = .next (if s.answers fn then s.readReg fn o n else s) := rfl

theorem readReg_refused (s : State) {fn o n : Nat} (h : accessOk fn o n = false) :
    s.readReg fn o n = { s with badAccess := sat64 (s.badAccess + 1), out := s.out ++ [.readData fn o n 0] } := by
  simp [State.readReg, h, State.badAcc, State.emit]

/-- A served 4-byte read sends the word read at its place of the map. -/
theorem readReg_word (s : State) {fn o a : Nat} (hok : accessOk fn o 4 = true) (ha : seenAt fn o = some a) :
    s.readReg fn o 4 = (s.readWord fn a).2.emit (.readData fn o 4 (s.readWord fn a).1) := by
  simp [State.readReg, hok, ha]

theorem readWord_first (s : State) (fn : Nat) {a i : Nat} {d : RegDef} (hr : regAt a = some (d, i)) (hb : a = d.base i) (ht : a ≠ 0x040000) :
    s.readWord fn a = (d.val s fn i % 2 ^ 32, { s with snaps := tset s.snaps fn (a, d.bytes, d.val s fn i) }) := by
  simp only [State.readWord, hr]
  rw [if_pos hb, if_neg ht, ← hb]

theorem readWord_snapped (s : State) (fn : Nat) {a i k v : Nat} {d : RegDef} (hr : regAt a = some (d, i)) (hb : a ≠ d.base i)
    (hs : tfind s.snaps fn = some (d.base i, k, v)) : s.readWord fn a = (wordOf v ((a - d.base i) / 4), s) := by
  simp [State.readWord, hr, hb, hs]

/-! ## TIME_NOW_LO (R434) -/

theorem regAt_timeNowLo : regAt 0x040000 = some (ro 0x040000 4 fun s => s.time.now % 2 ^ 32, 0) := by rfl

theorem readWord_timeNowLo (s : State) (fn : Nat) :
    s.readWord fn 0x040000 = (s.time.now % 2 ^ 32, { s.latchNow with snaps := tset s.snaps fn (0x040000, 4, s.time.now % 2 ^ 32) }) := by
  simp [State.readWord, regAt_timeNowLo, ro, RegDef.base, State.latchNow]

theorem exec_timeNowLo_physical (s : State) : exec (.timeNowLo 0) s =
    .next (({ s.latchNow with snaps := tset s.snaps 0 (0x040000, 4, s.time.now % 2 ^ 32) } : State).emit (.readData 0 0x040000 4 (s.time.now % 2 ^ 32))) := by
  have h := readReg_word s (fn := 0) (o := 0x040000) (a := 0x040000) (by decide) (by decide)
  rw [readWord_timeNowLo] at h
  exact congrArg Host.Outcome.next h

/-! ## Writes -/

theorem exec_registerWrite (fn o n v : Nat) (host : List HostAct) (s : State) : exec (.registerWrite fn o n v host) s =
    .next (if (s.hostActs host).answers fn then (s.hostActs host).writeReg fn o n v else s.hostActs host) := rfl

theorem writeReg_refused (s : State) {fn o n : Nat} (v : Nat) (h : accessOk fn o n = false) : s.writeReg fn o n v = s.badAcc := by
  simp [State.writeReg, h]

/-- A served 4-byte write writes the word at its place of the map. -/
theorem writeReg_word (s : State) {fn o a v : Nat} (hok : accessOk fn o 4 = true) (ha : seenAt fn o = some a) (hv : v < 2 ^ 32) :
    s.writeReg fn o 4 v = s.writeWord fn a v := by
  simp only [State.writeReg, hok, ha, Nat.mod_eq_of_lt hv]
  rfl

section
variable {d : RegDef} {a i : Nat} {f : State → Nat → Nat → Nat → State}

theorem writeWord_readOnly (s : State) (fn v : Nat) (hr : regAt a = some (d, i)) (hf : d.put = none) : s.writeWord fn a v = s := by
  simp [State.writeWord, hr, hf]

theorem writeWord_last (s : State) (fn v : Nat) (hr : regAt a = some (d, i)) (hf : d.put = some f) (hl : a + 4 = d.base i + d.bytes) :
    s.writeWord fn a v = f { s with held := tfilter s.held fun k _ =>
      !(decide (heldKey fn (d.base i) ≤ k) && decide (k < heldKey fn (d.base i) + d.bytes)) } fn i (s.wholeOf fn (d.base i) d.bytes (d.val s fn i) v) := by
  simp [State.writeWord, hr, hf, hl]

theorem writeWord_lower (s : State) (fn v : Nat) (hr : regAt a = some (d, i)) (hf : d.put = some f) (hl : a + 4 ≠ d.base i + d.bytes) :
    s.writeWord fn a v = { s with held := tset s.held (heldKey fn a) v } := by
  simp [State.writeWord, hr, hf, hl]

end

/-- A served 4-byte write by a function that answers is what its word's write does after the host's acts. -/
theorem exec_registerWrite_word {s : State} {fn o a v : Nat} {host : List HostAct} (hfn : (s.hostActs host).answers fn = true)
    (hok : accessOk fn o 4 = true) (ha : seenAt fn o = some a) (hv : v < 2 ^ 32) :
    exec (.registerWrite fn o 4 v host) s = .next ((s.hostActs host).writeWord fn a v) := by
  rw [exec_registerWrite, if_pos hfn, writeReg_word _ hok ha hv]

/-! ## Registers with a row of their own -/

theorem todSet_absent {s : State} (v : Nat) (h : 1 ∉ s.time.present) : s.todSet v = { s with time := { s.time with todPending := some v } } := by
  simp [State.todSet, h]

/-- Settles O40, access by access: refused ones, reads, TIME_NOW_LO, writes, and the two registers with a row of their own. -/
theorem registersAreReadAndWritten : Obligations.RegistersAreReadAndWritten := by
  unfold Obligations.RegistersAreReadAndWritten
  refine ⟨?unserved, ?reads, fun s => ⟨_, exec_timeNowLo_physical s, rfl, rfl, rfl⟩, ?writes, ?ownRows⟩
  case unserved =>
    intro s fn o n v host
    refine ⟨fun hfn => ?_, fun hfn => ?_, fun hfn hok => ?_, fun hfn hok => ?_⟩
    · simp [exec_wideRegisterRead, hfn]
    · simp [exec_registerWrite, hfn]
    · rw [exec_wideRegisterRead, if_pos hfn, readReg_refused s hok]
    · rw [exec_registerWrite, if_pos hfn, writeReg_refused _ v hok]
      rfl
  case reads =>
    intro s fn o a d i hfn hok ha hr
    rw [exec_wideRegisterRead, if_pos hfn, readReg_word s hok ha]
    constructor
    · intro hb ht
      rw [readWord_first s fn hr hb ht]
      rfl
    · intro hb k w hs
      rw [readWord_snapped s fn hr hb hs]
      rfl
  case writes =>
    intro s u fn o a v host d i hu hfn hv hok ha hr
    subst hu
    rw [exec_registerWrite_word hfn hok ha hv]
    refine ⟨fun hf => ?_, fun f hf => ⟨fun hl => ?_, fun hl => ?_⟩⟩
    · rw [writeWord_readOnly _ fn v hr hf]
    · rw [writeWord_last _ fn v hr hf hl]
    · rw [writeWord_lower _ fn v hr hf hl]
  case ownRows =>
    intro s fn v
    refine ⟨rfl, fun h => congrArg Host.Outcome.next (todSet_absent v h), fun h => ?_⟩
    simp [exec, execNetCommit, execTimeTodSet, h, State.badAcc]

end Sys2Proof.Machine
end

section
/-! PROOFS. Words of the arrays and the vector unit issued (R67, R79, R86, R111). -/

namespace Sys2Proof.Machine

open Sys2Proof Sys2Proof.Obl

/-! ## A tile issued -/

/-- Latching banks leaves their words and residence; the shadows of the banks latched hold the words. -/
theorem Core.latch_banks (c : Core) (l : List Nat) (k : Nat) :
    ((tget Bank.free (c.latch l).banks k).words = (tget Bank.free c.banks k).words ∧
      (tget Bank.free (c.latch l).banks k).resident = (tget Bank.free c.banks k).resident) ∧
    (k ∈ l → (tget Bank.free (c.latch l).banks k).shadow = (tget Bank.free c.banks k).words) := by
  obtain ⟨hwords, hresident, hshadow⟩ := latch_words l c.banks k
  exact ⟨⟨hwords, hresident⟩, fun hk => hshadow (Or.inl hk)⟩

/-- A core whose banks are latched and whose arrays are awake for a tile of `n` arrays. -/
def Core.startTile (c : Core) (l : List Nat) (n : Nat) : Core :=
  { c.latch l with awake := (List.range n).foldl (fun l a => if l.contains a then l else a :: l) c.awake }

theorem Core.startTile_awake (c : Core) (l : List Nat) {n a : Nat} (h : a < n) : a ∈ (c.startTile l n).awake :=
  awake_all n c.awake a (Or.inl h)

/-- A word issued on a core whose banks have been latched for it. -/
theorem Issued.of_latch {s : State} {core : Nat} {n : Next} {g : Core → Core} {l : List Nat} (f : Flight) (hn : s.nextWord core = some n)
    (hstore : (g (s.core core)).store = (s.core core).store) (hctxs : (g (s.core core)).ctxs = (s.core core).ctxs)
    (hsel : (g (s.core core)).sel = (s.core core).sel) (hbanks : (g (s.core core)).banks = ((s.core core).latch l).banks) :
    Issued s ((s.modCore core g).issue core n f) core n { f with issued := s.now } ∧
    ∀ k ∈ l, (tget Bank.free (((s.modCore core g).issue core n f).core core).banks k).shadow = (tget Bank.free (s.core core).banks k).words := by
  constructor
  · exact Issued.of_modCore g f (nextWord_ctx hn) hstore hctxs hsel fun k => hbanks ▸ (Core.latch_banks _ l k).1
  · intro k hk
    rw [(issue_core g f (nextWord_ctx hn) hctxs).1, hbanks]
    exact (Core.latch_banks _ l k).2 hk

/-! ## MATRIX -/

/-- The banks that a MATRIX word latches: those that it starts as RESIDENT (R68). -/
def MatrixWord.latched (w : MatrixWord) : List Nat := if w.init = 1 then w.namedBanks else []

/-- The flight that MATRIX puts in the context: the tile at the shape read at issue, on the store and banks at issue. -/
def matrixFlight (s : State) (core : Nat) (n : Next) (w : MatrixWord) : Flight :=
  { Flight.new .matrix n.slot (w.cycles (w.shapeAt n.ctx.sregVal)
      (if w.bankNaming then 4 else Nat.max 1 ((s.core core).freeBanks (w.a * w.b * w.s)))) with
    out := w.run ((s.room n.room).cvtOf w.tag w.cvt) (s.regionOf core n.room) (s.core core).banks (w.shapeAt n.ctx.sregVal)
      (s.room n.room).seedOf n.ctx.stepNo
    marks := w.marks
    latched := w.latched
    value := w.a * w.b * w.s }

theorem exec_matrix_next {s : State} {core : Nat} {n : Next} {w : MatrixWord} (hn : s.nextWord core = some n) (hw : n.word = .matrix w) :
    exec (.matrix core) s = .next (s.issueMatrix core n w) := by
  simp [exec, execMatrix, hn, hw]

/-- A MATRIX word whose shape is within bounds and not empty is issued with its banks latched and its arrays awake. -/
theorem issueMatrix_tile {s : State} (core : Nat) {n : Next} {w : MatrixWord} (hb : w.shapeBound (w.shapeAt n.ctx.sregVal) = false)
    (he : (w.shapeAt n.ctx.sregVal).empty = false) :
    s.issueMatrix core n w =
      (s.modCore core fun c => c.startTile w.latched (w.a * w.b * w.s)).issue core n (matrixFlight s core n w) := by
  simp only [State.issueMatrix, hb, he, Bool.false_eq_true, if_false]
  rfl

/-- Settles O9: a MATRIX word issued is a flight on a core with latched banks. -/
theorem matrixWordIssues : Obligations.MatrixWordIssues := by
  unfold Obligations.MatrixWordIssues
  intro s core n w hn hw hb he
  obtain ⟨issued, shadows⟩ :=
    Issued.of_latch (g := fun c => c.startTile w.latched (w.a * w.b * w.s)) (l := w.latched) (matrixFlight s core n w) hn rfl rfl rfl rfl
  refine ⟨_, _, by rw [exec_matrix_next hn hw, issueMatrix_tile core hb he], issued, rfl, rfl, rfl, rfl, rfl, fun a ha => ?_, fun k hi hk => ?_⟩
  · rw [(issue_core _ _ (nextWord_ctx hn) rfl).2]
    exact Core.startTile_awake _ _ ha
  · exact shadows k (by rwa [MatrixWord.latched, if_pos hi])

/-! ## VECTOR -/

/-- The banks that a VECTOR word latches: those of a word that reads and writes banks (R111). -/
def VectorWord.latched (w : VectorWord) : List Nat := if w.xb && w.zb then w.namedBanks else []

/-- The flight that a VECTOR operation puts in the context, on the store and banks at issue. -/
def vectorFlight (s : State) (core : Nat) (n : Next) (w : VectorWord) : Flight :=
  let v := { w with cvt := (s.room n.room).cvtOf w.tag w.cvt }
  { Flight.new .vector n.slot (v.cycles (w.rowsAt n.ctx.sregVal) (w.colsAt n.ctx.sregVal)) with
    out := v.run v.cvt (s.regionOf core n.room) (s.core core).banks (w.rowsAt n.ctx.sregVal) (w.colsAt n.ctx.sregVal)
      (s.room n.room).seedOf n.ctx.stepNo
    marks := w.marks
    latched := w.latched }

/-- Each operation of Table 4.2 is the VECTOR command of its code. -/
theorem exec_vectorOps (core : Nat) (s : State) : ∀ p ∈ vectorOps core, exec p.2 s = .next (s.vectorCmd core p.1) := by
  simp only [vectorOps, List.forall_mem_cons, List.not_mem_nil, false_imp_iff, implies_true, and_true]
  and_intros <;> rfl

theorem vectorCmd_next {s : State} {core : Nat} {n : Next} {w : VectorWord} (hn : s.nextWord core = some n) (hw : n.word = .vector w) :
    s.vectorCmd core w.op = s.issueVector core n w := by
  simp [State.vectorCmd, hn, hw]

/-- A VECTOR word whose shape is within bounds and not empty is issued with its banks latched. -/
theorem issueVector_tile {s : State} (core : Nat) {n : Next} {w : VectorWord}
    (hb : w.shapeBound (w.rowsAt n.ctx.sregVal) (w.colsAt n.ctx.sregVal) = false) (hr : 0 < w.rowsAt n.ctx.sregVal)
    (hc : 0 < w.colsAt n.ctx.sregVal) :
    s.issueVector core n w = (s.modCore core fun k => k.latch w.latched).issue core n (vectorFlight s core n w) := by
  have he : ¬ (w.rowsAt n.ctx.sregVal = 0 ∨ w.colsAt n.ctx.sregVal = 0) := by omega
  simp only [State.issueVector, hb, Bool.false_eq_true, if_false, if_neg he]
  rfl

/-- Settles O10: every operation runs the VECTOR word that stands next, which is a flight on a core with latched banks. -/
theorem vectorWordsIssue : Obligations.VectorWordsIssue := by
  unfold Obligations.VectorWordsIssue
  intro s core n w c hn hw hc hb hrows hcols
  obtain ⟨issued, shadows⟩ := Issued.of_latch (g := fun k => k.latch w.latched) (l := w.latched) (vectorFlight s core n w) hn rfl rfl rfl rfl
  have run : exec c s = .next (s.vectorCmd core w.op) := exec_vectorOps core s _ hc
  refine ⟨_, _, by rw [run, vectorCmd_next hn hw, issueVector_tile core hb hrows hcols], issued, rfl, rfl, rfl, rfl, rfl, fun k hx hz hk => ?_⟩
  exact shadows k (by simpa [VectorWord.latched, hx, hz] using hk)

end Sys2Proof.Machine
end

section
/-! PROOFS. Words of the arrays, the vector unit and the unfold engine completed, and their detected errors (R52, R67 to R71, R96). -/

namespace Sys2Proof.Machine

open Sys2Proof Sys2Proof.Obl

/-! ## Counters of a unit (R494) -/

theorem unitCount_of_health {s t : State} (h : t.health.counts = s.health.counts) (u i : Nat) : unitCount t u i = unitCount s u i := by
  simp only [unitCount, h]

theorem unitCount_count_self (s : State) (u i n : Nat) : unitCount (s.count u i n) u i = sat64 (unitCount s u i + n) := by
  simp [unitCount, State.count]

theorem unitCount_count_ne (s : State) {u i j : Nat} (n : Nat) (h : j ≠ i) : unitCount (s.count u i n) u j = unitCount s u j := by
  have hk : u * 32 + j ≠ u * 32 + i := by omega
  simp only [unitCount, State.count]
  exact tget_tmod_ne _ _ _ hk

/-- Of the state only the health part differs. -/
def HealthOnly (s t : State) : Prop := t = { s with health := t.health }

theorem HealthOnly.trans {s t u : State} (h : HealthOnly s t) (g : HealthOnly t u) : HealthOnly s u := by
  unfold HealthOnly at *
  rw [g, h]

theorem HealthOnly.core {s t : State} (h : HealthOnly s t) (c : Nat) : t.core c = s.core c := by
  rw [h]
  rfl

theorem HealthOnly.rooms {s t : State} (h : HealthOnly s t) : t.rooms = s.rooms := by rw [h]

theorem HealthOnly.count (s : State) (u i n : Nat) : HealthOnly s (s.count u i n) := rfl

/-! ## Corrected errors (R52) -/

/-- The health part with a record more, written or waiting, and the maintenance alarm up. -/
def Health.alarmed (h : Health) (served : Bool) (x : HealthRec) : Health :=
  { (if !served then { h with held := h.held ++ [x] } else { h with
      records := (h.held ++ [x]).reverse ++ h.records
      seq := h.seq + (h.held ++ [x]).length
      held := [] }) with alarm := true }

theorem maintAlarm_eq (s : State) (c u v : Nat) :
    s.maintAlarm c u v = { s with health := s.health.alarmed s.dutyServed ⟨s.now, 1, c, u, 0xFFFF, v⟩ } := rfl

theorem Health.alarmed_counts (h : Health) (served : Bool) (x : HealthRec) (k : Tbl Nat) :
    ({ h with counts := k } : Health).alarmed served x = { h.alarmed served x with counts := k } := by
  cases served <;> rfl

theorem Health.counts_alarmed (h : Health) (served : Bool) (x : HealthRec) : (h.alarmed served x).counts = h.counts := by
  cases served <;> rfl

/-- The corrected errors of a keeper within the last day, `n` of now among them. -/
def eccDay (s : State) (e n : Nat) : List (Nat × Nat) :=
  (s.now, n) :: (tget [] s.health.eccSeen e).filter fun x => decide (s.now < x.1 + 86400000000000)

/-- The health part with corrected errors counted and noted. -/
def eccNoted (s : State) (u e n : Nat) : Health :=
  { (s.count u 0 n).health with eccSeen := tset s.health.eccSeen e (eccDay s e n) }

theorem corrected_ite (s : State) (u e n : Nat) : s.corrected u e n =
    if n = 0 then s
    else if 1000 < sumNat ((eccDay s e n).map (·.2)) then
      ({ s with health := eccNoted s u e n } : State).maintAlarm 0 u (sumNat ((eccDay s e n).map (·.2)))
    else { s with health := eccNoted s u e n } := rfl

/-- Counting corrected errors changes the health part alone. -/
theorem corrected_eq (s : State) (u e n : Nat) :
    s.corrected u e n = { s with
      health :=
        if n = 0 then s.health
        else if 1000 < sumNat ((eccDay s e n).map (·.2)) then
          (eccNoted s u e n).alarmed s.dutyServed ⟨s.now, 1, 0, u, 0xFFFF, sumNat ((eccDay s e n).map (·.2))⟩
        else eccNoted s u e n } := by
  rw [corrected_ite]
  split_ifs <;> rfl

theorem HealthOnly.corrected (s : State) (u e n : Nat) : HealthOnly s (s.corrected u e n) := by
  rw [corrected_eq]
  rfl

theorem corrected_counts (s : State) (u e n : Nat) :
    (s.corrected u e n).health.counts = if n = 0 then s.health.counts else (s.count u 0 n).health.counts := by
  rw [corrected_eq]
  dsimp only
  split
  · rfl
  · split
    · exact Health.counts_alarmed _ _ _
    · rfl

/-- The record of corrected errors, an alarm among it, does not depend on cores, ledgers, shares or the counters. -/
theorem corrected_health {s t : State} {c : Tbl Core} {x : Tbl Room} {d : Sched} {k : Tbl Nat}
    (h : t = { s with cores := c, rooms := x, sched := d, health := { s.health with counts := k } }) (u e n : Nat) :
    (t.corrected u e n).health = { (s.corrected u e n).health with counts := (t.corrected u e n).health.counts } := by
  have hday : eccDay t e n = eccDay s e n := by rw [h]; rfl
  have hnoted : eccNoted t u e n = { eccNoted s u e n with counts := (t.count u 0 n).health.counts } := by rw [h]; rfl
  have hserved : t.dutyServed = s.dutyServed := by rw [h]; rfl
  have hnow : t.now = s.now := by rw [h]; rfl
  rw [corrected_eq t, corrected_eq s, hday, hnoted, hserved, hnow]
  dsimp only
  split
  · rw [h]
  · split
    · rw [Health.alarmed_counts]
    · rfl

theorem unitCount_corrected (s : State) (u k : Nat) {n : Nat} (h : 0 < n) :
    unitCount (s.corrected u k n) u 0 = sat64 (unitCount s u 0 + n) := by
  rw [← unitCount_count_self, unitCount, corrected_counts, if_neg (by omega), unitCount]

theorem unitCount_corrected_ne (s : State) (u k n : Nat) {j : Nat} (h : j ≠ 0) : unitCount (s.corrected u k n) u j = unitCount s u j := by
  rw [unitCount, corrected_counts]
  split
  · rfl
  · exact unitCount_count_ne s n h

/-! ## TILE_VERDICT and UNFOLD_COMPLETE (R67, R85, R154) -/

theorem charge_ledger (s : State) (r i n : Nat) :
    tget 0 ((s.charge r i n).room r).ledger.counts i = sat64 (tget 0 (s.room r).ledger.counts i + n) := by
  simp [State.charge, State.modLedger]

theorem chargeCore_ledger (s : State) (core r n : Nat) :
    tget 0 ((s.chargeCore core r n).room r).ledger.counts 5 = sat64 (tget 0 (s.room r).ledger.counts 5 + n) := by
  simp only [State.chargeCore]
  split <;> exact charge_ledger s r 5 n

theorem stall_ledger (s : State) (r cause n q : Nat) : ((s.stall r cause n).room q).ledger = (s.room q).ledger := by
  simp only [State.stall]
  split
  · rfl
  · by_cases h : q = r
    · subst h
      simp
    · simp [h]

/-- Charging a core that its selected room uses adds the time since its last charge to the room's ledger (R366). -/
theorem account_ledger {s : State} {core r : Nat} {x : Ctx} (hsel : (s.core core).sel = some r) (hx : (s.core core).ctx r = some x)
    (huse : x.inUse = true) : tget 0 ((s.account core).room r).ledger.counts 5 =
      sat64 (tget 0 (s.room r).ledger.counts 5 + (s.now - (s.core core).chargedAt)) := by
  simp only [State.account, hsel, hx, Option.bind_some, Option.map_some, huse, if_true, stall_ledger, chargeCore_ledger]
  rfl

/-- A core with a tile's outputs delivered and its flight gone from the context. -/
def tileDone (c : Core) (r : Nat) (x : Ctx) (f : Flight) (rest : List Flight) (ran : Ran) : Core :=
  (delivered c x.storeBase f).setCtx r { x with
    flights := rest
    busy := x.busy + ran.cycles
    nominal := x.nominal + f.nominal }

theorem dropFlight_busyCycles {w : State} {core r : Nat} {x : Ctx} (rest : List Flight) (cycles nominal : Nat) (hx : (w.core core).ctx r = some x) :
    (w.modCtx core r fun x => { x with flights := rest }).busyCycles core r cycles nominal =
      w.setCore core ((w.core core).setCtx r { x with
        flights := rest
        busy := x.busy + cycles
        nominal := x.nominal + nominal }) := by
  rw [State.modCtx_of _ hx, State.busyCycles, State.modCtx_of (x := { x with flights := rest }) _ (by simp)]
  simp [State.setCore_setCore, Core.setCtx_setCtx]

/-- Completing the first flight that passes a test: outputs delivered, errors counted, the flight gone, cycles added. -/
theorem completeTile_oldest {s v w : State} {core r : Nat} {ran : Ran} {x : Ctx} {p : Flight → Bool} {a b : List Flight} {f : Flight}
    (hsel : (s.core core).sel = some r) (hx : (s.core core).ctx r = some x) (hf : OldestOf p x.flights a f b) (hv : v = s.account core)
    (hw : w = (v.deliver core r f).corrected (s.physUnit core) (s.physUnit core) ran.corrected)
    (hcore : w.core core = delivered (v.core core) x.storeBase f) (hctx : (w.core core).ctx r = some x) :
    s.completeTile core ran p = (w.setCore core (tileDone (v.core core) r x f (a ++ b) ran)).refresh core := by
  have hrun : s.completeTile core ran p =
      ((w.modCtx core r fun x => { x with flights := a ++ b }).busyCycles core r ran.cycles f.nominal).refresh core := by
    simp only [State.completeTile, hsel, hx, takeFlight_oldest hf, hw, hv]
  rw [hrun, dropFlight_busyCycles _ _ _ hctx, hcore]
  rfl

/-- The state between a tile's delivery and the end of its command: `v` with the tile's outputs delivered and its errors counted. -/
structure TileOut.Delivered (v w : State) (core u : Nat) (x : Ctx) (f : Flight) (ran : Ran) : Prop where
  state : HealthOnly (v.setCore core (delivered (v.core core) x.storeBase f)) w
  accSat : unitCount w u 5 = sat64 (unitCount v u 5 + f.out.accSat)
  cvtSat : unitCount w u 6 = sat64 (unitCount v u 6 + f.out.cvtSat)
  nanDrop : unitCount w u 7 = sat64 (unitCount v u 7 + f.out.nanDrop)
  errors : 0 < ran.corrected → unitCount w u 0 = sat64 (unitCount v u 0 + ran.corrected)
  health : w.health = { (v.corrected u u ran.corrected).health with counts := w.health.counts }

theorem deliver_corrected {v : State} {core r : Nat} {x : Ctx} (f : Flight) (ran : Ran) (hx : (v.core core).ctx r = some x) :
    TileOut.Delivered v ((v.deliver core r f).corrected (v.physUnit core) (v.physUnit core) ran.corrected) core (v.physUnit core) x f ran := by
  rw [deliver_spec f hx]
  generalize hd : v.setCore core (delivered (v.core core) x.storeBase f) = d
  generalize v.physUnit core = u
  have hcount : ∀ i, unitCount d u i = unitCount v u i := fun i => unitCount_of_health (by rw [← hd]; rfl) u i
  refine ⟨?_, ?_, ?_, ?_, fun h => ?_, ?_⟩
  · rw [hd]
    exact (((HealthOnly.count d u 5 _).trans (.count _ _ _ _)).trans (.count _ _ _ _)).trans (.corrected _ _ _ _)
  · rw [unitCount_corrected_ne _ _ _ _ (by decide), unitCount_count_ne _ _ (by decide), unitCount_count_ne _ _ (by decide), unitCount_count_self, hcount]
  · rw [unitCount_corrected_ne _ _ _ _ (by decide), unitCount_count_ne _ _ (by decide), unitCount_count_self, unitCount_count_ne _ _ (by decide), hcount]
  · rw [unitCount_corrected_ne _ _ _ _ (by decide), unitCount_count_self, unitCount_count_ne _ _ (by decide), unitCount_count_ne _ _ (by decide), hcount]
  · rw [unitCount_corrected _ _ _ h, unitCount_count_ne _ _ (by decide), unitCount_count_ne _ _ (by decide), unitCount_count_ne _ _ (by decide), hcount]
  · refine corrected_health (c := d.cores) (x := v.rooms) (d := v.sched) (k := (((d.count u 5 f.out.accSat).count u 6 f.out.cvtSat).count u 7 f.out.nanDrop).health.counts) ?_ u u ran.corrected
    rw [← hd]
    rfl

/-- Noting a core's readiness changes no room. -/
theorem refresh_rooms (s : State) (core : Nat) : (s.refresh core).rooms = s.rooms := by
  have hone : ∀ (s : State) (r : Nat), (s.refreshCtx core r).rooms = s.rooms := by
    intro s r
    simp only [State.refreshCtx, State.modCtx, State.wakeOn]
    repeat' split
    all_goals rfl
  have hall : ∀ (l : List Nat) (s : State), (l.foldl (fun s r => s.refreshCtx core r) s).rooms = s.rooms := by
    intro l
    induction l with
    | nil => exact fun _ => rfl
    | cons r l ih => exact fun s => (ih _).trans (hone s r)
  exact hall _ s

/-- Accounting beside a change of cores and of the health part. -/
theorem Booked.beside {s t : State} (h : Booked s t) (c d : Tbl Core) (y : Health) :
    Booked { s with cores := c, health := y } { t with cores := d, health := y } :=
  ⟨h.1, by rw [h.2]⟩

/-- Both commands complete the oldest flight that their test passes. -/
theorem exec_completes (core slot : Nat) (ran : Ran) (s : State) :
    ∀ q ∈ [(Instr.tileVerdict ⟨core, slot⟩ ran, Flight.wordAt slot), (.unfoldComplete core ran, fun f => f.kind = .unfold)],
      exec q.1 s = .next (s.completeTile core ran q.2) := by
  simp only [List.forall_mem_cons, List.not_mem_nil, false_imp_iff, implies_true, and_true]
  exact ⟨rfl, rfl⟩

/-- Settles O13: the core is charged, the outputs are delivered and counted, the flight leaves the context, and readiness is noted. -/
theorem wordsCompleteWithTheirWrites : Obligations.WordsCompleteWithTheirWrites := by
  unfold Obligations.WordsCompleteWithTheirWrites
  intro s core slot r ran x c p a b f hc hsel hx hf
  have quiet := Quiet.account s core
  obtain ⟨charged, used, hcore⟩ := account_core s core core
  have hledger := account_ledger hsel hx (by simp [Ctx.inUse, hf.1])
  have hhealth : (s.account core).health = s.health := by rw [quiet.booked.2]
  have hunit : (s.account core).physUnit core = s.physUnit core := by simp only [State.physUnit, hhealth]
  generalize hv : s.account core = v at *
  have hvx : (v.core core).ctx r = some x := by rw [hcore]; exact hx
  have done := deliver_corrected f ran hvx
  have run := exec_completes core slot ran s _ hc
  rw [hunit] at done
  have hcounts : ∀ i, unitCount v (s.physUnit core) i = unitCount s (s.physUnit core) i := unitCount_of_health (by rw [hhealth]) _
  have hw : ∃ w, w = (v.deliver core r f).corrected (s.physUnit core) (s.physUnit core) ran.corrected := ⟨_, rfl⟩
  obtain ⟨w, hw⟩ := hw
  rw [← hw] at done
  have hwcore : w.core core = delivered (v.core core) x.storeBase f := (done.state.core core).trans (State.setCore_core _ _ _)
  rw [completeTile_oldest hsel hx hf hv.symm hw hwcore (by rw [hwcore]; exact hvx)] at run
  generalize hy : w.setCore core (tileDone (v.core core) r x f (a ++ b) ran) = y at run
  have hycore : y.core core = tileDone (v.core core) r x f (a ++ b) ran := by rw [← hy, State.setCore_core]
  have hyhealth : y.health = w.health := by rw [← hy]; rfl
  have ended := Quiet.refresh y core
  have hthealth : (y.refresh core).health = w.health := by rw [ended.booked.2]; exact hyhealth
  have hcount : ∀ i, unitCount (y.refresh core) (s.physUnit core) i = unitCount w (s.physUnit core) i := unitCount_of_health (by rw [hthealth]) _
  refine ⟨_, run, ?ctx, ?store, ?banks, fun q hq => ?others, fun q hq => ?cores, ?accSat, ?cvtSat, ?nanDrop, fun h => ?errors, ?ledger, _, rfl, ?booked⟩
  case ctx => rw [ended.ctx, ctxOn, hycore, tileDone, Core.ctx_setCtx_self]; rfl
  case store => rw [ended.store, hycore, hcore]; rfl
  case banks => rw [ended.banks, hycore, hcore]; rfl
  case others => rw [ended.ctx, ctxOn, hycore, tileDone, Core.ctx_setCtx_ne _ _ hq, hcore]; rfl
  case cores => rw [ended.other q hq, ← quiet.other q hq, ← hy, State.setCore_core_ne _ _ hq, done.state.core, State.setCore_core_ne _ _ hq]
  case accSat => rw [hcount, done.accSat, hcounts]
  case cvtSat => rw [hcount, done.cvtSat, hcounts]
  case nanDrop => rw [hcount, done.nanDrop, hcounts]
  case errors => rw [hcount, done.errors h, hcounts]
  case ledger =>
    have hrooms : (y.refresh core).rooms = v.rooms := by rw [refresh_rooms, ← hy, State.setCore_rooms, done.state.rooms]; rfl
    rw [room_of_rooms hrooms, hledger]
    rfl
  case booked =>
    have hwhealth : w.health = { (s.corrected (s.physUnit core) (s.physUnit core) ran.corrected).health with counts := w.health.counts } :=
      done.health.trans (by rw [corrected_health (k := s.health.counts) quiet.booked.2])
    have hyv : y = { v with cores := y.cores, health := w.health } :=
      calc y = { w with cores := y.cores } := by rw [← hy]; rfl
        _ = { v with cores := y.cores, health := w.health } := by rw [done.state]; rfl
    have hbeside := Booked.beside quiet.booked (y.refresh core).cores y.cores w.health
    rw [← hyv] at hbeside
    rw [hthealth, ← hwhealth, HealthOnly.corrected s]
    exact Booked.trans hbeside ended.booked

end Sys2Proof.Machine
end

section
/-! PROOFS. Detected errors of a core and the faults outside a verdict (R52, R66 to R71, R96). -/

namespace Sys2Proof.Machine

open Sys2Proof Sys2Proof.Obl

/-! ## DETECTED_ERROR (R69, R70) -/

/-- Restoring banks from their shadows: the banks listed hold their shadow's words, the others are as they were. -/
theorem Core.unlatch_banks (c : Core) (l : List Nat) (k : Nat) :
    (tget Bank.free (c.unlatch l).banks k).shadow = (tget Bank.free c.banks k).shadow ∧
    (k ∈ l → (tget Bank.free (c.unlatch l).banks k).words = (tget Bank.free c.banks k).shadow) ∧
    (k ∉ l → tget Bank.free (c.unlatch l).banks k = tget Bank.free c.banks k) := by
  unfold Core.unlatch
  generalize c.banks = t
  induction l generalizing t with
  | nil => simp
  | cons a l ih =>
    obtain ⟨hshadow, hin, hout⟩ := ih (tmod Bank.free t a fun b => { b with words := b.shadow })
    by_cases h : k = a
    · subst h
      rw [tget_tmod_self] at hshadow hin hout
      refine ⟨hshadow, fun _ => ?_, fun hn => absurd List.mem_cons_self hn⟩
      by_cases hl : k ∈ l
      · exact hin hl
      · exact congrArg Bank.words (hout hl)
    · rw [tget_tmod_ne _ _ _ h] at hshadow hin hout
      refine ⟨hshadow, fun hk => hin ((List.mem_cons.mp hk).resolve_left h), fun hk => hout fun hl => hk (List.mem_cons_of_mem _ hl)⟩

theorem State.count_setCore (s : State) (u i n c : Nat) (x : Core) : (s.count u i n).setCore c x = (s.setCore c x).count u i n := rfl

@[simp] theorem Core.unlatch_ctx (c : Core) (l : List Nat) (r : Nat) : (c.unlatch l).ctx r = c.ctx r := rfl

/-- With one word from a slot in flight, a retry is that word's alone. -/
theorem retried_one {slot : Nat} {a b : List Flight} {f : Flight} (now : Nat) (hf : f.wordAt slot = true)
    (ha : ∀ g ∈ a, g.wordAt slot = false) (hb : ∀ g ∈ b, g.wordAt slot = false) :
    retried slot now (a ++ f :: b) = a ++ { f with attempt := f.attempt + 1, issued := now } :: b := by
  have hkeep : ∀ l : List Flight, (∀ g ∈ l, g.wordAt slot = false) → retried slot now l = l := by
    intro l hl
    exact (List.map_congr_left fun g hg => by simp [hl g hg]).trans (List.map_id l)
  have hsplit : retried slot now (a ++ f :: b) =
      retried slot now a ++ { f with attempt := f.attempt + 1, issued := now } :: retried slot now b := by simp [retried, hf]
  rw [hsplit, hkeep a ha, hkeep b hb]

/-- With one word from a slot in flight, the banks latched from it are that word's. -/
theorem latchedBy_one {slot : Nat} {a b : List Flight} {f : Flight} (hf : f.wordAt slot = true)
    (ha : ∀ g ∈ a, g.wordAt slot = false) (hb : ∀ g ∈ b, g.wordAt slot = false) : latchedBy slot (a ++ f :: b) = f.latched := by
  have hnone : ∀ l : List Flight, (∀ g ∈ l, g.wordAt slot = false) → l.filter (Flight.wordAt slot) = [] := fun l hl =>
    List.filter_eq_nil_iff.mpr fun g hg => by simp [hl g hg]
  simp [latchedBy, hf, hnone a ha, hnone b hb]

theorem exec_detectedError (core slot : Nat) (parity : Bool) (s : State) :
    exec (.detectedError ⟨core, slot⟩ parity) s = .next (s.tileError core slot parity) := rfl

section
variable {s : State} {core slot r : Nat} {parity : Bool} {x : Ctx} (hsel : (s.core core).sel = some r) (hx : (s.core core).ctx r = some x)
  (hany : x.flights.any (Flight.wordAt slot) = true)
include hsel hx hany

/-- The first detected error of an incarnation: the banks restored, the word issued again, both counted. -/
theorem tileError_first (h : x.errors = 0) : s.tileError core slot parity =
    ((s.setCore core (((s.core core).unlatch (latchedBy slot x.flights)).setCtx r { x with
      errors := 1
      flights := retried slot s.now x.flights })).count (s.physUnit core) (if parity then 3 else 2) 1).count (s.physUnit core) 4 1 := by
  have hsteps : s.tileError core slot parity =
      ((((s.count (s.physUnit core) (if parity then 3 else 2) 1).modCore core fun c => c.unlatch (latchedBy slot x.flights)).count
        (s.physUnit core) 4 1).modCtx core r fun x => { x with
          errors := x.errors + 1
          flights := retried slot s.now x.flights }) := by
    simp [State.tileError, hsel, hx, hany, h, State.now]
  rw [hsteps, State.modCtx_of (x := x) _ (by simpa using hx)]
  simp [h, State.modCore, State.count_setCore, State.setCore_setCore]

theorem tileError_second (h : 0 < x.errors) : s.tileError core slot parity =
    (s.count (s.physUnit core) (if parity then 3 else 2) 1).retireCore core r := by
  simp [State.tileError, hsel, hx, hany, Nat.succ_le_of_lt h]

end

/-- Settles O16: the first error retries the one word from the slot, the second retires the core. -/
theorem firstDetectedErrorRetriesTheTile : Obligations.FirstDetectedErrorRetriesTheTile := by
  unfold Obligations.FirstDetectedErrorRetriesTheTile
  intro s core slot r parity x a b f hsel hx hf hb
  obtain ⟨hflights, hslot, ha⟩ := hf
  have hany : x.flights.any (Flight.wordAt slot) = true := by simp [hflights, hslot]
  have hlatched : latchedBy slot x.flights = f.latched := by rw [hflights, latchedBy_one hslot ha hb]
  constructor
  · intro h
    have run := tileError_first (parity := parity) hsel hx hany h
    rw [hlatched, hflights, retried_one s.now hslot ha hb] at run
    have hkind : (if parity then 3 else 2) ≠ 4 := by split <;> decide
    refine ⟨_, by rw [exec_detectedError, run], ?ctx, fun k hk => ?restored, fun k hk => ?kept, ?store, fun q hq => ?others, fun q hq => ?cores, ?error, ?retry, rfl⟩
    case ctx => simp [State.now]
    case restored => simpa [Core.setCtx] using (Core.unlatch_banks (s.core core) f.latched k).2.1 hk
    case kept => simpa [Core.setCtx] using (Core.unlatch_banks (s.core core) f.latched k).2.2 hk
    case store => simp [Core.setCtx, Core.unlatch]
    case others => simp [hq]
    case cores => simp [hq]
    case error =>
      rw [unitCount_count_ne _ _ hkind, unitCount_count_self]
      rfl
    case retry =>
      rw [unitCount_count_self, unitCount_count_ne _ _ hkind.symm]
      rfl
  · intro h
    rw [exec_detectedError, tileError_second hsel hx hany h]
    rfl

/-! ## Faults outside a verdict (R52, R71, R96) -/

/-- Settles O17: each command's fault, with the word or the error count that it turns on. -/
theorem coreFaultsOutsideAVerdict : Obligations.CoreFaultsOutsideAVerdict := by
  unfold Obligations.CoreFaultsOutsideAVerdict
  intro s core r x hr hx
  refine ⟨fun h => ?first, fun h => ?second, fun h => ?store, fun h => ?late, fun h => ?inTime⟩
  case first =>
    simp only [exec, execBankParityOutsideWord, hr, State.count_core, hx, h]
    rw [if_neg (by decide), State.modCtx_of (s := s.count _ _ _) (x := x) _ (by simpa using hx)]
    simp [h]
  case second =>
    simp only [exec, execBankParityOutsideWord, hr, State.count_core, hx]
    rw [if_pos (Nat.succ_le_of_lt h)]
  case store => simp [exec, execStoreDoubleBitError, hr, hx, h]
  case late =>
    obtain ⟨f, hf, hissued, hmove⟩ := h
    have hlate : (decide (f.issued + s.coreNs core 102400 ≤ s.now) &&
        !(f.kind = .move && (!s.mayServe core r || s.moveCause r f = directRead))) = true := by
      by_cases hk : f.kind = .move
      · obtain ⟨hserve, hcause⟩ := hmove hk
        simp [hk, hserve, hcause, State.now, hissued]
      · simp [hk, State.now, hissued]
    simp only [exec, execTileWatchdog, hr, hx]
    rw [if_pos (List.any_eq_true.mpr ⟨f, hf, hlate⟩)]
  case inTime =>
    have hnone : ∀ f ∈ x.flights, ¬ f.issued + s.coreNs core 102400 ≤ s.now := fun f hf => Nat.not_le_of_lt (h f hf)
    simp only [exec, execTileWatchdog, hr, hx]
    rw [if_neg]
    simpa using fun f hf hissued => absurd hissued (hnone f hf)

end Sys2Proof.Machine
end

section
/-! PROOFS. Slots of the cyclic table and idle arrays (R61, R349, R353, R360, R366). -/

namespace Sys2Proof.Machine

open Sys2Proof Sys2Proof.Obl

/-! ## Cores charged at a slot's edge (R366) -/

theorem accounts_core_ne (l : List Nat) (s : State) {c : Nat} (h : c ∉ l) : (l.foldl State.account s).core c = s.core c := by
  induction l generalizing s with
  | nil => rfl
  | cons k l ih =>
    obtain ⟨hk, hl⟩ := not_or.mp (mt List.mem_cons.mpr h)
    exact (ih _ hl).trans ((Quiet.account s k).other c hk)

/-! ## SLOT_START (R353, R360) -/

/-- A core whose context of a room, where it holds one, is due a word from a time. -/
def Core.dueAt (c : Core) (r now : Nat) : Core :=
  match c.ctx r with
  | none => c
  | some x => c.setCtx r { x with due := some now }

theorem Core.dueAt_twice (c : Core) (r now : Nat) : (c.dueAt r now).dueAt r now = c.dueAt r now := by
  cases h : c.ctx r with
  | none => simp [Core.dueAt, h]
  | some x => simp [Core.dueAt, h, Core.setCtx_setCtx]

/-- A room's context on a core made due a word. -/
def State.slotDue (s : State) (r k : Nat) : State := s.modCtx k r fun x => { x with due := some s.now }

theorem slotDue_frame (s : State) (r k : Nat) : s.slotDue r k = { s with cores := (s.slotDue r k).cores } := by
  simp only [State.slotDue, State.modCtx]
  split <;> rfl

theorem slotDue_core (s : State) (r k c : Nat) : (s.slotDue r k).core c = if c = k then (s.core c).dueAt r s.now else s.core c := by
  by_cases h : c = k
  · subst h
    cases hx : (s.core c).ctx r <;> simp [State.slotDue, State.modCtx, Core.dueAt, hx]
  · cases hx : (s.core k).ctx r <;> simp [State.slotDue, State.modCtx, hx, h]

theorem slotDues_frame (l : List Nat) (r : Nat) (s : State) :
    l.foldl (fun s k => s.slotDue r k) s = { s with cores := (l.foldl (fun s k => s.slotDue r k) s).cores } := by
  induction l generalizing s with
  | nil => rfl
  | cons k l ih =>
    rw [List.foldl_cons, ih, slotDue_frame]

theorem slotDues_core (l : List Nat) (r : Nat) (s : State) (c : Nat) :
    (l.foldl (fun s k => s.slotDue r k) s).core c = if c ∈ l then (s.core c).dueAt r s.now else s.core c := by
  induction l generalizing s with
  | nil => simp
  | cons k l ih =>
    have hnow : (s.slotDue r k).now = s.now := by rw [slotDue_frame]; rfl
    rw [List.foldl_cons, ih, slotDue_core, hnow]
    by_cases hk : c = k <;> by_cases hl : c ∈ l <;> simp [hk, hl, Core.dueAt_twice]

theorem Core.dueAt_ctx {c : Core} {r : Nat} {x : Ctx} (now : Nat) (h : c.ctx r = some x) : (c.dueAt r now).ctx r = some { x with due := some now } := by
  simp [Core.dueAt, h]

/-- What a word due leaves of a core: its store, banks and selection, and the contexts of the other rooms. -/
theorem Core.dueAt_frame (c : Core) (r now : Nat) : (c.dueAt r now).store = c.store ∧ (c.dueAt r now).banks = c.banks ∧
    (c.dueAt r now).sel = c.sel ∧ ∀ q, q ≠ r → (c.dueAt r now).ctx q = c.ctx q := by
  cases h : c.ctx r with
  | none => simp [Core.dueAt, h]
  | some x => exact ⟨by simp [Core.dueAt, h, Core.setCtx], by simp [Core.dueAt, h, Core.setCtx], by simp [Core.dueAt, h, Core.setCtx],
      fun q hq => by simp [Core.dueAt, h, hq]⟩

/-- The cores of an entry charged up to a time that device time moves on to. -/
def State.slotEdge (s : State) (e at_ : Nat) : State := (entCores e).foldl State.account (s.upto at_)

theorem slotEdge_booked (s : State) (e at_ : Nat) : Booked (s.upto at_) (s.slotEdge e at_) := accounts_booked _ _

theorem slotEdge_core (s : State) (e at_ c : Nat) :
    ∃ charged used, (s.slotEdge e at_).core c = { s.core c with chargedAt := charged, usedAt := used } :=
  accounts_core _ (s.upto at_) c

theorem slotEdge_core_ne (s : State) {e c : Nat} (at_ : Nat) (h : c ∉ entCores e) : (s.slotEdge e at_).core c = s.core c :=
  accounts_core_ne _ (s.upto at_) h

/-- The entries in force replaced. -/
def State.withRunning (s : State) (l : List Nat) : State := { s with sched := { s.sched with running := l } }

/-- Accounting beside a change of the entries in force. -/
theorem Booked.withRunning {s t : State} (h : Booked s t) (l : List Nat) : Booked (s.withRunning l) (t.withRunning l) :=
  ⟨h.1, by rw [State.withRunning, h.2]; rfl⟩

/-- A slot's start in its frame: its cores are charged, its entry runs, and its room's contexts are due a word. -/
theorem exec_slotStart_due {s : State} {entry at_ e : Nat} (he : e = s.entry entry) (h : s.time.now ≤ at_) (hframe : s.frameDue at_ = false)
    (hvalid : entValid e = true) (hentry : entry < s.sched.active.nent) (hrun : entry ∉ s.sched.running) (hns : 0 < s.frameNs)
    (hat : at_ % s.frameNs = 1000 * entStart e) :
    exec (.slotStart entry at_) s =
      .next ((entCores e).foldl (fun v k => v.slotDue (entRoom e) k) ((s.slotEdge e at_).withRunning (entry :: (s.slotEdge e at_).sched.running))) := by
  subst he
  have hgo : ¬ (at_ < s.now ∨ s.frameDue at_ ∨ !entValid (s.entry entry) ∨ s.sched.active.nent ≤ entry ∨ s.sched.running.contains entry ∨ s.frameNs = 0 ∨
      at_ % s.frameNs ≠ 1000 * entStart (s.entry entry)) := by
    simp [State.now, hframe, hvalid, hrun, hat]
    omega
  simp only [exec, execSlotStart, if_neg hgo]
  rfl

/-- A slot's end in its frame: its cores are charged, and its entry runs no longer. -/
theorem exec_slotEnd_due {s : State} {entry at_ e : Nat} (he : e = s.entry entry) (h : s.time.now ≤ at_) (hrun : entry ∈ s.sched.running)
    (hns : 0 < s.frameNs) (hat : at_ % s.frameNs = 1000 * (entStart e + entLen e) % s.frameNs) :
    exec (.slotEnd entry at_) s = .next ((s.slotEdge e at_).withRunning ((s.slotEdge e at_).sched.running.filter (· ≠ entry))) := by
  subst he
  have hgo : ¬ (at_ < s.now ∨ !s.sched.running.contains entry ∨ s.frameNs = 0 ∨
      at_ % s.frameNs ≠ 1000 * (entStart (s.entry entry) + entLen (s.entry entry)) % s.frameNs) := by
    simp [State.now, hrun, hat]
    omega
  simp only [exec, execSlotEnd, if_neg hgo]
  rfl

/-- Out of its time SLOT_START moves on device time alone. -/
theorem exec_slotStart_early {s : State} {entry at_ : Nat}
    (h : at_ < s.time.now ∨ entry ∈ s.sched.running ∨ at_ % s.frameNs ≠ 1000 * entStart (s.entry entry)) :
    exec (.slotStart entry at_) s = .next (s.upto at_) := by
  simp only [exec, execSlotStart]
  rw [if_pos]
  obtain h | h | h := h
  · exact Or.inl h
  · simp [h]
  · simp [h]

/-- Out of its time SLOT_END moves on device time alone. -/
theorem exec_slotEnd_early {s : State} {entry at_ : Nat}
    (h : at_ < s.time.now ∨ entry ∉ s.sched.running ∨ at_ % s.frameNs ≠ 1000 * (entStart (s.entry entry) + entLen (s.entry entry)) % s.frameNs) :
    exec (.slotEnd entry at_) s = .next (s.upto at_) := by
  simp only [exec, execSlotEnd]
  rw [if_pos]
  obtain h | h | h := h
  · exact Or.inl h
  · simp [h]
  · simp [h]

/-! ## ARRAY_IDLE (R61) -/

theorem exec_arrayIdle_unused {s : State} {core array : Nat}
    (h : ∀ x ∈ (s.core core).ctxs, ∀ f ∈ x.2.flights, f.kind = .matrix → f.value ≤ array) :
    exec (.arrayIdle core array) s = .next (s.modCore core fun c => { c with awake := c.awake.filter (· ≠ array) }) := by
  simp only [exec, execArrayIdle]
  rw [if_neg]
  simpa using h

/-- Settles O19: a slot's edge charges its cores; its start makes the room's contexts due, its end leaves them. -/
theorem slotsHandCoresToTheirRoom : Obligations.SlotsHandCoresToTheirRoom := by
  unfold Obligations.SlotsHandCoresToTheirRoom
  refine ⟨?start, ?finish, fun s entry at_ => ⟨exec_slotStart_early, exec_slotEnd_early⟩, ?idle⟩
  case start =>
    intro s entry at_ e he h hframe hvalid hentry hrun hns hat
    have hbooked := slotEdge_booked s e at_
    have run := exec_slotStart_due he h hframe hvalid hentry hrun hns hat
    have hrunEdge : (s.slotEdge e at_).sched.running = s.sched.running := by rw [hbooked.2]; rfl
    rw [hrunEdge] at run
    have hstarted := Booked.withRunning hbooked (entry :: s.sched.running)
    generalize hv : (s.slotEdge e at_).withRunning (entry :: s.sched.running) = v at run hstarted
    generalize ht : (entCores e).foldl (fun v k => v.slotDue (entRoom e) k) v = t at run
    have hcore : ∀ c, t.core c = if c ∈ entCores e then ((s.slotEdge e at_).core c).dueAt (entRoom e) v.now else (s.slotEdge e at_).core c := by
      intro c
      rw [← ht, slotDues_core, ← hv]
      rfl
    have hframe' : t = { v with cores := t.cores } := by rw [← ht]; exact slotDues_frame _ _ _
    have htime : t.time = (s.upto at_).time := by rw [hframe', ← hv, hbooked.2]; rfl
    have hrunning : t.sched.running = entry :: s.sched.running := by rw [hframe', ← hv, hbooked.2]; rfl
    refine ⟨t, run, hrunning, htime, fun c hc x hx => ?due, fun c hc => ?kept, fun c hc => ?others, ?booked⟩
    case due =>
      obtain ⟨charged, used, hedge⟩ := slotEdge_core s e at_ c
      rw [hcore, if_pos hc, Core.dueAt_ctx _ (by rw [hedge]; exact hx), hframe']
      rfl
    case kept =>
      obtain ⟨charged, used, hedge⟩ := slotEdge_core s e at_ c
      have := Core.dueAt_frame ((s.slotEdge e at_).core c) (entRoom e) v.now
      rw [hedge] at this
      rw [hcore, if_pos hc, hedge]
      exact this
    case others => rw [hcore, if_neg hc, slotEdge_core_ne s at_ hc]
    case booked =>
      rw [hrunning, htime]
      exact Booked.trans hstarted (Booked.cores hframe')
  case finish =>
    intro s entry at_ e he h hrun hns hat
    have hbooked := slotEdge_booked s e at_
    have hrunEdge : (s.slotEdge e at_).sched.running = s.sched.running := by rw [hbooked.2]; rfl
    have run := exec_slotEnd_due he h hrun hns hat
    rw [hrunEdge] at run
    have hended := Booked.withRunning hbooked (s.sched.running.filter (· ≠ entry))
    have hcore : ∀ c, ((s.slotEdge e at_).withRunning (s.sched.running.filter (· ≠ entry))).core c = (s.slotEdge e at_).core c := fun _ => rfl
    have hrunning : ((s.slotEdge e at_).withRunning (s.sched.running.filter (· ≠ entry))).sched.running = s.sched.running.filter (· ≠ entry) := rfl
    generalize (s.slotEdge e at_).withRunning (s.sched.running.filter (· ≠ entry)) = t at run hended hcore hrunning
    have htime : t.time = (s.upto at_).time := by rw [hended.2]; rfl
    refine ⟨t, run, fun i => ?mem, htime, fun c => ?kept, fun c hc => ?others, ?booked⟩
    case mem => simp [hrunning]
    case kept =>
      obtain ⟨charged, used, hedge⟩ := slotEdge_core s e at_ c
      rw [hcore, hedge]
      exact ⟨rfl, rfl, rfl⟩
    case others => rw [hcore, slotEdge_core_ne s at_ hc]
    case booked =>
      rw [htime, hrunning]
      exact hended
  case idle =>
    intro s core array h
    exact ⟨_, exec_arrayIdle_unused h, by simp, by rw [State.modCore_core]; rfl⟩

end Sys2Proof.Machine
end

section
/-! PROOFS. Every command keeps what `Keeps` says (canonical memories above all), and so does every step (R51, R303). -/

namespace Sys2Proof.Machine

open Sys2Proof

/-! ## The relation on outcomes and on branches -/

/-- Where an outcome is a next state, that state keeps what `Keeps` says. -/
def KeepsOn (s : State) (o : Host.Outcome State Fault Refusal) : Prop := ∀ t, o = .next t → Keeps s t

theorem KeepsOn.next {s t : State} (h : Keeps s t) : KeepsOn s (.next t) := by
  intro u hu
  cases hu
  exact h

theorem KeepsOn.ite {s : State} {a b : Host.Outcome State Fault Refusal} {p : Prop} [Decidable p] (h : KeepsOn s a) (g : KeepsOn s b) :
    KeepsOn s (if p then a else b) := by
  split
  · exact h
  · exact g

theorem Keeps.ite {o a b : State} {p : Prop} [Decidable p] (h : Keeps o a) (g : Keeps o b) : Keeps o (if p then a else b) := by
  split
  · exact h
  · exact g

/-- A change of parts that the relation does not speak of; `rfl` proves the equation. -/
theorem Keeps.beside {o s t : State} (h : Keeps o s)
    (e : (t.pending, t.host, t.rooms, t.cores, t.common, t.sec.fuses, t.numVfs, t.sec.nextSeq) =
      (s.pending, s.host, s.rooms, s.cores, s.common, s.sec.fuses, s.numVfs, s.sec.nextSeq)) : Keeps o t := by
  simp only [Prod.mk.injEq] at e
  obtain ⟨pending, host, rooms, cores, common, fuses, vfs, seq⟩ := e
  exact h.frame pending host rooms cores common fuses vfs seq

theorem Keeps.modRoomBeside {o s : State} (r : Nat) (f : Room → Room) (hk : Keeps o s) (hf : ∀ x, (f x).mem = x.mem) :
    Keeps o (s.modRoom r f) :=
  hk.modRoom s r f fun _ h => by rwa [hf]

/-! ## The words of a core -/

theorem KeepsOn.matrix (core : Nat) (s : State) : KeepsOn s (execMatrix core s) := by
  refine .next ?_
  split
  · split
    · exact .issueMatrix _ _ _ _ (.refl _)
    · exact .refl _
  · exact .refl _

theorem KeepsOn.bankParityOutsideWord (core : Nat) (s : State) : KeepsOn s (execBankParityOutsideWord core s) := by
  refine .next ?_
  split
  · exact .refl _
  · dsimp only
    split
    · exact .ite (.retireCore _ _ _ (.count _ _ _ _ (.refl _))) (.raiseFault _ _ _ _ (.modCtx _ _ _ _ (.count _ _ _ _ (.refl _))))
    · exact .count _ _ _ _ (.refl _)

theorem KeepsOn.storeDoubleBitError (core : Nat) (s : State) : KeepsOn s (execStoreDoubleBitError core s) := by
  refine .next ?_
  split
  · exact .refl _
  · split
    · exact .ite (.refl _) (.raiseFault _ _ _ _ (.count _ _ _ _ (.refl _)))
    · exact .refl _

theorem KeepsOn.tileWatchdog (core : Nat) (s : State) : KeepsOn s (execTileWatchdog core s) := by
  refine .next ?_
  split
  · exact .refl _
  · split
    · exact .ite (.raiseFault _ _ _ _ (.count _ _ _ _ (.refl _))) (.refl _)
    · exact .refl _

theorem KeepsOn.move (core : Nat) (s : State) : KeepsOn s (execMove core s) := by
  refine .next ?_
  split
  · split
    · exact .ite (.waive _ _ _ (.issue _ _ _ _ (.refl _))) (.issue _ _ _ _ (.refl _))
    · exact .refl _
  · exact .refl _

theorem KeepsOn.moveComplete (word : MoveDone) (s : State) : KeepsOn s (execMoveComplete word s) := by
  unfold execMoveComplete
  refine .next ?_
  dsimp only
  split
  · exact .refl _
  · split
    · exact .refl _
    · split
      · exact .refl _
      · split
        · exact .refl _
        · have begun (b : Bool) : Keeps s (if b then (s.account word.core).cellarErrs word.cellar else s.account word.core) :=
            .ite (.cellarErrs _ _ (.account _ _ (.refl _))) (.account _ _ (.refl _))
          refine .ite (.refl _) (.ite (.raiseFault _ _ _ _ (begun _)) ?_)
          split
          · exact .raiseFault _ _ _ _ (.moveRows _ _ _ _ _ (begun _))
          · exact .modCtx _ _ _ _ (.moveRows _ _ _ _ _ (begun _))
          · refine .ite (.postCounter _ _ _ _ _ _ ?_) ?_
            all_goals exact .refresh _ _ (.modCtx _ _ _ _ (.moveRows _ _ _ _ _ (begun _)))

theorem KeepsOn.shape (core : Nat) (s : State) : KeepsOn s (execShape core s) := by
  refine .next ?_
  split
  · split
    · exact .issue _ _ _ _ (.refl _)
    · exact .refl _
  · exact .refl _

theorem KeepsOn.shapeComplete (word : WordRef) (s : State) : KeepsOn s (execShapeComplete word s) := by
  refine .next ?_
  split
  · exact .refl _
  · split
    · exact .refl _
    · split
      · exact .refl _
      · exact .refresh _ _ (.modCtx _ _ _ _ (.account _ _ (.refl _)))

theorem KeepsOn.stepBarrier (core : Nat) (s : State) : KeepsOn s (execStepBarrier core s) := by
  refine .next ?_
  split
  · split
    · refine .ite (.refl _) (.modRoomBeside _ _ ?_ fun _ => rfl)
      exact .refresh _ _ (.modCtx _ _ _ _ (.passWord _ _ _ (.refl _)))
    · exact .refl _
  · exact .refl _

theorem KeepsOn.set (core : Nat) (s : State) : KeepsOn s (execSet core s) := by
  refine .next ?_
  split
  · split
    · exact .ite (.refresh _ _ (.postCounter _ _ _ _ _ _ (.passWord _ _ _ (.refl _)))) (.refl _)
    · exact .refl _
  · exact .refl _

theorem KeepsOn.syncWait (core : Nat) (s : State) : KeepsOn s (execSyncWait core s) := by
  refine .next ?_
  split
  · split
    · exact .ite (.refresh _ _ (.modCtx _ _ _ _ (.waited _ _ _ _ _ (.passWord _ _ _ (.refl _))))) (.ite (.modCtx _ _ _ _ (.refl _)) (.refl _))
    · exact .refl _
  · exact .refl _

theorem KeepsOn.unfold (core : Nat) (s : State) : KeepsOn s (execUnfold core s) := by
  refine .next ?_
  split
  · split
    · exact .issue _ _ _ _ (.refl _)
    · exact .refl _
  · exact .refl _

theorem KeepsOn.slotStart (entry at_ : Nat) (s : State) : KeepsOn s (execSlotStart entry at_ s) :=
  .next
    (.ite (.upto _ _ (.refl _))
      (.foldl _ (.beside (.foldl _ (.upto _ _ (.refl _)) (fun _ _ h => .account _ _ h)) rfl) (fun _ _ g => .modCtx _ _ _ _ g)))

theorem KeepsOn.contextSwitch (core : Nat) (s : State) : KeepsOn s (execContextSwitch core s) := by
  refine .next ?_
  dsimp only
  split
  · refine .ite (.refl _)
      (.refresh _ _
        (.chargeCore _ _ _ _
          (Keeps.beside (s := ((s.account core).setCore core _)) (.setCore _ _ _ (.account _ _ (.refl _)) fun _ h => ?_) rfl)))
    show Memory.wf (Core.store (match ((s.account core).core core).sel with
      | some o => _
      | none => _)) = true
    split
    · split
      · exact h
      · exact h
    · exact h
  · exact .refl _

/-! ## Descriptors and hints -/

theorem KeepsOn.nop (ring : Nat) (s : State) : KeepsOn s (execNop ring s) := by
  unfold execNop
  split
  · exact .next (.refl _)
  · exact .next (.done _ _ _ _ _ (.refl _))

theorem KeepsOn.launch (ring : Nat) (s : State) : KeepsOn s (execLaunch ring s) := by
  refine .next ?_
  split
  · exact .refl _
  · exact .starting _ _ _ _ _ (.refl _)

theorem KeepsOn.copy (ring : Nat) (s : State) : KeepsOn s (execCopy ring s) := by
  unfold execCopy
  split
  · exact .next (.refl _)
  · exact .ite (.next (.endRows _ _ _ (.sealedCopy _ _ _ (.refl _))))
      (.ite (.next (.done _ _ _ _ _ (.refl _))) (.next (.endRows _ _ _ (.copyRows _ _ _ _ _ _ _ _ (.refl _)))))

theorem KeepsOn.fill (ring : Nat) (s : State) : KeepsOn s (execFill ring s) := by
  unfold execFill
  split
  · exact .next (.refl _)
  · exact .ite (.next (.done _ _ _ _ _ (.refl _))) (.next (.endRows _ _ _ (.fillRows _ _ _ _ _ _ (.refl _))))

theorem KeepsOn.signal (ring : Nat) (s : State) : KeepsOn s (execSignal ring s) := by
  unfold execSignal
  split
  · exact .next (.refl _)
  · exact .next (.done _ _ _ _ _ (.modRoom _ _ _ (.refl _) fun _ h => h))

theorem KeepsOn.wait (ring : Nat) (s : State) : KeepsOn s (execWait ring s) := by
  unfold execWait
  split
  · exact .next (.refl _)
  · exact .next (.done _ _ _ _ _ (.refl _))

theorem KeepsOn.waitTimeout (ring at_ : Nat) (s : State) : KeepsOn s (execWaitTimeout ring at_ s) := by
  have up := Keeps.upto s at_ (.refl s)
  refine .ite (.next up) ?_
  split
  · exact .next up
  · exact .next (.done _ _ _ _ _ up)

theorem KeepsOn.barrierJoin (ring : Nat) (s : State) : KeepsOn s (execBarrierJoin ring s) := by
  unfold execBarrierJoin
  split
  · exact .next (.refl _)
  · exact .ite (.next (.ite (.done _ _ _ _ _ (.refl _)) (.done _ _ _ _ _ (.refl _)))) (.next (.markStarted _ _ _ (.refl _)))

theorem KeepsOn.sharingTable (ring : Nat) (s : State) : KeepsOn s (execSharingTable ring s) := by
  refine .next ?_
  split
  · exact .refl _
  · next d _ =>
    refine .ite (.done _ _ _ _ _ (.refl _)) (.ite (.done _ _ _ _ _ (.refl _)) ?_)
    have judged := Keeps.schedVerdict s (s.sharingCheck (s.ring ring).room d) (.refl s)
    dsimp only
    split
    · exact .done _ _ _ _ _ judged
    · exact (Keeps.markStarted _ ring d.seq judged).beside rfl

theorem KeepsOn.timestamp (ring : Nat) (s : State) : KeepsOn s (execTimestamp ring s) := by
  unfold execTimestamp
  split
  · exact .next (.refl _)
  · exact .next (.complete _ _ _ _ _ _ _ _ (.refl _))

theorem KeepsOn.branchRead (ring : Nat) (s : State) : KeepsOn s (execBranchRead ring s) := by
  unfold execBranchRead
  split
  · exact .next (.refl _)
  · refine .ite (.next (.done _ _ _ _ _ (.refl _))) ?_
    split
    · exact .next (.done _ _ _ _ _ (.refl _))
    · dsimp only
      split
      · exact .next (.complete _ _ _ _ _ _ _ _ (.chargeForest _ _ _ (.putRecords _ _ _ _ _ _ (.refl _))))
      · exact .next (.complete _ _ _ _ _ _ _ _ (.chargeForest _ _ _ (.putRecords _ _ _ _ _ _ (.refl _))))

theorem KeepsOn.unmap (ring : Nat) (s : State) : KeepsOn s (execUnmap ring s) := by
  refine .next ?_
  split
  · exact .refl _
  · exact .ite (.done _ _ _ _ _ (.refl _))
      (.ite (.done _ _ _ _ _ (.refl _))
        (.ite (.done _ _ _ _ _ (.refl _)) (.ite (.refl _) (.ite (.refl _) (.done _ _ _ _ _ (.dropPages _ _ _ _ (.refl _)))))))

theorem KeepsOn.clear (ring : Nat) (s : State) : KeepsOn s (execClear ring s) := by
  refine .next ?_
  split
  · exact .ite (.refl _) (.hintCmd _ _ _ _ (.refl _) fun _ _ _ h => .clear _ _ _ h)
  · exact .refl _

theorem KeepsOn.haulPlan (ring : Nat) (s : State) : KeepsOn s (execHaulPlan ring s) := by
  refine .next ?_
  split
  · exact .refl _
  · dsimp only
    split
    · exact .done _ _ _ _ _ (.refl _)
    · refine .ite (.done _ _ _ _ _ (.refl _)) ?_
      split
      · exact .done _ _ _ _ _ (.refl _)
      · exact .ite (.done _ _ _ _ _ (.refl _)) (.ite (.done _ _ _ _ _ (.refl _)) (.done _ _ _ _ _ (.modMem _ _ _ (.refl _) (fun _ h => h))))

theorem KeepsOn.checkpoint (ring : Nat) (s : State) : KeepsOn s (execCheckpoint ring s) := by
  refine .next ?_
  split
  · exact .refl _
  · exact .ite (.done _ _ _ _ _ (.refl _)) (.modRoom _ _ _ (.markStarted _ _ _ (.refl _)) (fun _ h => h))

theorem KeepsOn.restore (run : RestoreRun) (s : State) : KeepsOn s (execRestore run s) := by
  refine .next ?_
  split
  · exact .refl _
  · exact .starting _ _ _ _ _ (.refl _)

theorem KeepsOn.mirrorFetchTimeout (room at_ : Nat) (s : State) : KeepsOn s (execMirrorFetchTimeout room at_ s) := by
  have up := Keeps.upto s at_ (.refl s)
  refine .next ?_
  split
  · exact up
  · exact .ite (.failStart _ _ _ _ _ _ up) up

theorem KeepsOn.put (ring : Nat) (s : State) : KeepsOn s (execPut ring s) := by
  refine .next ?_
  split
  · exact .refl _
  · exact .netPost _ _ _ (.refl _)

theorem KeepsOn.get (ring : Nat) (s : State) : KeepsOn s (execGet ring s) := by
  refine .next ?_
  split
  · exact .refl _
  · exact .netPost _ _ _ (.refl _)

/-! ## The functions, rings and rooms -/

theorem KeepsOn.cancel (ring : Nat) (s : State) : KeepsOn s (execCancel ring s) := by
  refine .ite (.next (.refl _)) ?_
  split
  · exact .next (.refl _)
  · exact .ite (.next (.done _ _ _ _ _ (.refl _))) (.next (.complete _ _ _ _ _ _ _ _ (.cancelTarget _ _ _ (.refl _))))

theorem KeepsOn.drainLimit (room unit at_ : Nat) (s : State) : KeepsOn s (execDrainLimit room unit at_ s) := by
  have up := Keeps.upto s at_ (.refl s)
  refine .next ?_
  split
  · exact .ite up (.ite (.scrub _ _ (.healthRecord _ _ _ _ _ _ (.modRoom _ _ _ up (fun _ h => h)))) (.ite (.healthRecord _ _ _ _ _ _ up) up))
  · exact up

theorem KeepsOn.zeroingComplete (room at_ : Nat) (s : State) : KeepsOn s (execZeroingComplete room at_ s) := by
  have up := Keeps.upto s at_ (.refl s)
  refine .next ?_
  split
  · exact .ite (.endTurnover _ _ _ up) up
  · exact up

theorem KeepsOn.frameBoundary (at_ : Nat) (s : State) : KeepsOn s (execFrameBoundary at_ s) := by
  have up := Keeps.upto s at_ (.refl s)
  refine .ite (.next up) (.next ?_)
  split
  · exact .schedSwitch _ up
  · split
    · exact up
    · have paced := (Keeps.schedSwitch _ up).beside
        (t := { (s.upto at_).schedSwitch with sched := { (s.upto at_).schedSwitch.sched with pacing := none } }) rfl
      exact .ite (.barJoin _ _ (.complete _ _ _ _ _ _ _ _ paced)) (.complete _ _ _ _ _ _ _ _ paced)

/-! ## The engines and the haulage -/

theorem KeepsOn.samplerError (room : Nat) (err : EngineErr) (s : State) : KeepsOn s (execSamplerError room err s) := by
  refine .next ?_
  split
  · exact .samplerError _ _ _ (.refl _)
  · exact .ite (.count _ _ _ _ (.refl _)) (.raiseFault _ _ _ _ (.count _ _ _ _ (.refl _)))

theorem KeepsOn.decodeBatch (room view : Nat) (s : State) : KeepsOn s (execDecodeBatch room view s) := by
  refine .next ?_
  dsimp only
  split
  · exact .refl _
  · refine .ite (.refl _) (.onBench _ _ _ _ (.refl _) fun u h => ?_)
    split
    · exact .raiseFault _ _ _ _ (.modView _ _ _ _ h)
    · next he =>
      refine .charge _ _ _ _ (.chargeBench _ _ _ (.modView _ _ _ _ (.touchPages _ _ _ _ ?_)))
      exact Yields.ofEqFst he (.decodeSeqs _ _ _ _ _ _ _ (.modView _ _ _ _ h))

theorem KeepsOn.decodeBatchEnd (room view : Nat) (s : State) : KeepsOn s (execDecodeBatchEnd room view s) := by
  refine .next (.ite (.refl _) ?_)
  dsimp only
  split
  · exact .raiseFault _ _ _ _ (.postCounter _ _ _ _ _ _ (.modView _ _ _ _ (.refl _)))
  · exact .postCounter _ _ _ _ _ _ (.modView _ _ _ _ (.refl _))

theorem KeepsOn.benchRun (room kernel : Nat) (s : State) : KeepsOn s (execBenchRun room kernel s) := by
  refine .next ?_
  dsimp only
  split
  · exact .ite (.charge _ _ _ _ (.modKernel _ _ _ _ (.refl _))) (.refl _)
  · exact .refl _

theorem KeepsOn.benchRunEnd (room kernel : Nat) (s : State) : KeepsOn s (execBenchRunEnd room kernel s) := by
  refine .next ?_
  dsimp only
  split
  · exact .ite (.postCount _ _ _ _ _ _ _ (.modKernel _ _ _ _ (.refl _))) (.refl _)
  · exact .refl _

theorem KeepsOn.benchTimeout (room kernel : Nat) (s : State) : KeepsOn s (execBenchTimeout room kernel s) := by
  refine .next (.ite (.refl _) ?_)
  split
  · exact .ite (.raiseFault _ _ _ _ (.refl _)) (.refl _)
  · exact .refl _

theorem KeepsOn.benchError (room site unit : Nat) (parity : Bool) (s : State) : KeepsOn s (execBenchError room site unit parity s) := by
  refine .next ?_
  split
  · exact .refl _
  · exact .ite (.modRoom _ _ _ (.count _ _ _ _ (.count _ _ _ _ (.refl _))) (fun _ h => h))
      (.ite
        (.outOfService _ _
          (.healthRecord _ _ _ _ _ _
            (.count _ _ _ _ (.modStack _ _ _ (.modRoom _ _ _ (.count _ _ _ _ (.count _ _ _ _ (.refl _))) (fun _ h => h))))))
        (.healthRecord _ _ _ _ _ _
          (.count _ _ _ _ (.modStack _ _ _ (.modRoom _ _ _ (.count _ _ _ _ (.count _ _ _ _ (.refl _))) (fun _ h => h))))))

theorem KeepsOn.windowFill (room window : Nat) (s : State) : KeepsOn s (execWindowFill room window s) := by
  refine .next ?_
  split
  · exact .refl _
  · refine .ite (.refl _) ?_
    dsimp only
    split
    · exact .raiseFault _ _ _ _ (.refl _)
    · refine .ite (.raiseFault _ _ _ _ (.refl _)) (.foldl _ (.chargeHaul _ _ _ _ (.modMem _ _ _ (.cleanse _ _ _ _ (.refl _)) ?_)) ?_)
      · exact fun _ h => wf_memCopyRange (wf_memZero h _ _) _ _ _
      · exact fun _ _ h => .postCounter _ _ _ _ _ _ h

theorem KeepsOn.migrationEpoch (at_ : Nat) (s : State) : KeepsOn s (execMigrationEpoch at_ s) := by
  have up := Keeps.upto s at_ (.refl s)
  refine .ite (.next (.refl _)) (.next (.foldl _ (.foldl _ (.roomsMap _ _ up fun _ _ h => h) ?_) ?_))
  · exact fun _ _ h => .ledgerStalls _ _ h
  · exact fun _ _ h => .ite h (.foldl _ h fun _ _ g => .foldl _ g fun _ _ k => .consider _ _ _ k)

theorem KeepsOn.migrationSwitch (room page : Nat) (s : State) : KeepsOn s (execMigrationSwitch room page s) := by
  refine .next ?_
  split
  · exact .refl _
  · refine .ite (.refl _) ?_
    split
    · exact .raiseFault _ _ _ _ (.modMem _ _ _ (.refl _) (fun _ h => h))
    · exact .beside (.foldl _ (.refl _) (fun _ _ h => .switchPage _ _ _ h)) rfl

theorem KeepsOn.snapshotComplete (room : Nat) (s : State) : KeepsOn s (execSnapshotComplete room s) := by
  refine .next ?_
  dsimp only
  split
  · exact .refl _
  · split
    · exact .refl _
    · refine .ite (.refl _) (.reportAgain _ _ ?_)
      split
      · exact .sendMsg _ _ _ _ _ (.takeMsg _ _ (.modRoom _ _ _ (.modMem _ _ _ (.refl _) fun _ h => h) fun _ h => h))
      · exact .modRoom _ _ _ (.modMem _ _ _ (.refl _) fun _ h => h) fun _ h => h

theorem KeepsOn.mirrorAck (room : Nat) (digestOk : Bool) (s : State) : KeepsOn s (execMirrorAck room digestOk s) := by
  refine .next ?_
  dsimp only
  split
  · exact .refl _
  · split
    · exact .refl _
    · refine .ite (.reportAgain _ _ (.modMem _ _ _ (.refl _) (fun _ h => h))) ?_
      refine .ite ?_ ?_
      · split
        · exact .refl _
        · exact .sendMsg _ _ _ _ _ (.takeMsg _ _ (.modMem _ _ _ (.refl _) (fun _ h => h)))
      · exact .raiseFault _ _ _ _ (.modMem _ _ _ (.refl _) (fun _ h => h))

/-! ## The network -/

theorem KeepsOn.collectiveExecution (room index : Nat) (s : State) : KeepsOn s (execCollectiveExecution room index s) := by
  unfold execCollectiveExecution
  refine .next ?_
  dsimp only
  split
  · refine .ite (.refl _) ?_
    split
    · exact .raiseFault _ _ _ _ (.ite (.waive _ _ _ (.modColl _ _ _ _ (.refl _))) (.modColl _ _ _ _ (.refl _)))
    · refine .ite ?_ (.sendMsg _ _ _ _ _ ?_)
      all_goals exact .ite (.waive _ _ _ (.modColl _ _ _ _ (.refl _))) (.modColl _ _ _ _ (.refl _))
  · exact .refl _

theorem KeepsOn.collectiveComplete (room index : Nat) (parts : List (Nat × List Nat)) (s : State) :
    KeepsOn s (execCollectiveComplete room index parts s) := by
  unfold execCollectiveComplete
  refine .next ?_
  dsimp only
  split
  · refine .ite (.refl _) ?_
    split
    · exact .raiseFault _ _ _ _ (.refl _)
    · split
      · refine .raiseFault _ _ _ _ (.writeAny _ _ _ _ (.chargeNormal _ _ _ _ (.chargeNormal _ _ _ _ ?_)))
        exact .count _ _ _ _ (.count _ _ _ _ (.count _ _ _ _ (.refl _)))
      · refine .postCounter _ _ _ _ _ _ (.modColl _ _ _ _ (.writeAny _ _ _ _ (.chargeNormal _ _ _ _ (.chargeNormal _ _ _ _ ?_))))
        exact .count _ _ _ _ (.count _ _ _ _ (.count _ _ _ _ (.refl _)))
  · exact .refl _

theorem KeepsOn.ackTimer (room peer flow at_ : Nat) (s : State) : KeepsOn s (execAckTimer room peer flow at_ s) := by
  have up := Keeps.upto s at_ (.refl s)
  refine .next ?_
  split
  · exact up
  · exact .ite (.sendAck _ _ _ _ _ _ up) up

theorem KeepsOn.nackTimer (room peer flow at_ : Nat) (s : State) : KeepsOn s (execNackTimer room peer flow at_ s) := by
  have up := Keeps.upto s at_ (.refl s)
  refine .next ?_
  split
  · exact up
  · exact .ite (.sendAck _ _ _ _ _ _ up) up

theorem KeepsOn.retransmitTimer (room peer flow psn at_ : Nat) (s : State) : KeepsOn s (execRetransmitTimer room peer flow psn at_ s) := by
  have up := Keeps.upto s at_ (.refl s)
  refine .next ?_
  split
  · exact up
  · dsimp only
    split
    · exact .ite (.unreachable _ _ _ _ up) (.resend _ _ _ _ _ _ (.modFlow _ _ _ up))
    · split
      · exact .ite (.unreachable _ _ _ _ up) (.sendGet _ _ _ _ _ _ (.netCount _ _ (.modFlow _ _ _ up)))
      · exact up

theorem KeepsOn.rateIncrease (room peer flow at_ : Nat) (s : State) : KeepsOn s (execRateIncrease room peer flow at_ s) := by
  have up := Keeps.upto s at_ (.refl s)
  refine .next ?_
  split
  · exact up
  · exact .ite up (.setFlow _ _ _ up)

theorem KeepsOn.pathReturn (port path at_ : Nat) (s : State) : KeepsOn s (execPathReturn port path at_ s) := by
  have up := Keeps.upto s at_ (.refl s)
  exact .next (.ite (.beside up rfl) up)

theorem KeepsOn.icmpEcho (port addr at_ : Nat) (s : State) : KeepsOn s (execIcmpEcho port addr at_ s) := by
  have up := Keeps.upto s at_ (.refl s)
  exact .next (.ite up (.ite (.emit _ _ (.beside up rfl)) (.beside up rfl)))

theorem KeepsOn.keyOverlapEnd (link : Bool) (tag at_ : Nat) (s : State) : KeepsOn s (execKeyOverlapEnd link tag at_ s) := by
  have up := Keeps.upto s at_ (.refl s)
  refine .next (.ite ?_ ?_)
  · split
    · exact .beside up rfl
    · exact up
  · split
    · exact .beside up rfl
    · exact up

/-! ## The caravan -/

theorem KeepsOn.admitMember (p : Pkt) (s : State) : KeepsOn s (execAdmitMember p s) := by
  refine .next (.ctrlRow _ _ _ _ (.refl _) fun u h => .ite h ?_)
  split
  · exact .ctrlSend _ _ _ _ _ _ _ _ h
  · exact .ctrlSend _ _ _ _ _ _ _ _ (h.beside rfl)

theorem KeepsOn.refused (p : Pkt) (s : State) : KeepsOn s (execRefused p s) := by
  refine .next (.fromAbove _ _ _ _ (.refl _) fun u h => ?_)
  split
  · exact .refuseJoin _ _ _ h
  · exact .ite h (h.beside rfl)

theorem KeepsOn.admitRetry (at_ : Nat) (s : State) : KeepsOn s (execAdmitRetry at_ s) := by
  have up := Keeps.upto s at_ (.refl s)
  refine .next ?_
  split
  · exact .ite (.beginAdmission _ up) up
  · exact up

theorem KeepsOn.renew (p : Pkt) (s : State) : KeepsOn s (execRenew p s) := by
  refine .next (.ctrlRow _ _ _ _ (.refl _) fun u h => .ite h ?_)
  split
  · have told := Keeps.ctrlSend u p.src p.src 0x08 0 0 (some p.cseq) (leBytes 4 u.caravan.generation ++ leBytes 2 Code.fenceEvicted) h
    exact told.beside rfl
  · exact .ite (.ctrlSend _ _ _ _ _ _ _ _ (h.beside rfl)) (.sendGen _ _ _ _ h)

theorem KeepsOn.gen (p : Pkt) (s : State) : KeepsOn s (execGen p s) :=
  .next (.ctrlRow _ _ _ _ (.refl _) (fun _ h => .ite h (.foldl _ (.applyGen _ _ _ h) (fun _ _ g => .ctrlSend _ _ _ _ _ _ _ _ g))))

theorem KeepsOn.probeAck (p : Pkt) (s : State) : KeepsOn s (execProbeAck p s) := by
  refine .next (.ctrlRow _ _ _ _ (.refl _) fun u h => ?_)
  split
  · exact .ite h (.healthRecord _ _ _ _ _ _ (.modMember _ _ _ h))
  · exact h

theorem KeepsOn.assemblyTimeout (tag at_ : Nat) (s : State) : KeepsOn s (execAssemblyTimeout tag at_ s) := by
  have up := Keeps.upto s at_ (.refl s)
  refine .next ?_
  split
  · exact up
  · exact .ite up (.foldl _ (.ite (.setJob _ _ _ up) (.beside up rfl)) (fun _ _ h => .answerJoin _ _ _ _ h))

theorem KeepsOn.jobRecordExpiry (tag at_ : Nat) (s : State) : KeepsOn s (execJobRecordExpiry tag at_ s) := by
  have up := Keeps.upto s at_ (.refl s)
  refine .next ?_
  split
  · exact up
  · split
    · exact up
    · exact .ite up (.beside up rfl)

theorem KeepsOn.map (p : Pkt) (s : State) : KeepsOn s (execMap p s) :=
  .next (.ctrlRow _ _ _ _ (.refl _) (fun _ h => .ite h (.ite (.passDown _ _ _ (.enterMap _ _ _ _ h)) (.enterMap _ _ _ _ h))))

theorem KeepsOn.barJoinMessage (p : Pkt) (s : State) : KeepsOn s (execBarJoinMessage p s) :=
  .next (.ctrlRow _ _ _ _ (.refl _) (fun _ h => .ite (.headCount _ _ _ _ _ _ _ h) (.ite (.managerCount _ _ _ _ _ _ _ h) h)))

theorem KeepsOn.release (p : Pkt) (s : State) : KeepsOn s (execRelease p s) := by
  refine .next (.ctrlRow _ _ _ _ (.refl _) fun u h => .ite h (.releaseHere _ _ _ _ _ (.ite (.foldl _ ?_ ?_) h)))
  · split
    · exact (Keeps.noteLags u p.cjob _ h).beside rfl
    · exact h.beside rfl
  · exact fun _ _ g => .ctrlSend _ _ _ _ _ _ _ _ g

theorem KeepsOn.barLocal (room at_ : Nat) (s : State) : KeepsOn s (execBarLocal room at_ s) := by
  have up := Keeps.upto s at_ (.refl s)
  refine .next ?_
  split
  · exact up
  · exact .ite up (.ite (.raiseFault _ _ _ _ up) (.ite up (.raiseFault _ _ _ _ up)))

theorem KeepsOn.barTimeout (tag at_ : Nat) (s : State) : KeepsOn s (execBarTimeout tag at_ s) := by
  have up := Keeps.upto s at_ (.refl s)
  refine .next ?_
  split
  · exact up
  · split
    · exact up
    · exact .ite up (.headAbort _ _ _ _ (.foldl _ up (fun _ _ h => .healthRecord _ _ _ _ _ _ h)))

theorem KeepsOn.fault (p : Pkt) (s : State) : KeepsOn s (execFault p s) := by
  refine .next (.toHead _ _ _ _ (.refl _) fun u h => ?_)
  split
  · exact .ite (.headAbort _ _ _ _ h) (.healthRecord _ _ _ _ _ _ h)
  · exact h

theorem KeepsOn.abort (p : Pkt) (s : State) : KeepsOn s (execAbort p s) :=
  .next
    (.ctrlRow _ _ _ _ (.refl _)
      (fun _ h => .ite h (.ite (.passDown _ _ _ (.dropBar _ _ h)) (.takeOver _ (.abortHere _ _ _ _ _ (.dropBar _ _ h))))))

/-! ## Stewards, power and health -/

theorem KeepsOn.linkNonce (mid : Nat) (nonce : List Nat) (s : State) : KeepsOn s (execLinkNonce mid nonce s) :=
  .next (.ite (.refl _) (.emit _ _ ((Keeps.drawBytes _ 96 (.drawBytes s 48 (.refl s))).beside rfl)))

theorem KeepsOn.linkReport (mid : Nat) (report : List Nat) (verified : Bool) (s : State) : KeepsOn s (execLinkReport mid report verified s) := by
  refine .next ?_
  dsimp only
  split
  · exact .refl _
  · exact .ite (.starterReport _ _ _ _ _ (.refl _)) (.ite (.emit _ _ (.refl _)) (.ite (.giverReport _ _ _ _ _ (.refl _)) (.refl _)))

theorem KeepsOn.linkResend (mid at_ : Nat) (s : State) : KeepsOn s (execLinkResend mid at_ s) := by
  have up := Keeps.upto s at_ (.refl s)
  refine .next ?_
  split
  · exact up
  · exact .ite up (.ite (.emit _ _ (.beside up rfl)) (.beside up rfl))

theorem KeepsOn.stewardCrash (crash : PairCrash) (at_ : Nat) (s : State) : KeepsOn s (execStewardCrash crash at_ s) := by
  have up := Keeps.upto s at_ (.refl s)
  exact .next (.ite up (.crashPair _ _ (.ite (.count _ _ _ _ (.corrected _ _ _ _ up)) (.corrected _ _ _ _ up))))

theorem KeepsOn.stewardRestartDone (done : PairStart) (at_ : Nat) (s : State) : KeepsOn s (execStewardRestartDone done at_ s) := by
  have up := Keeps.upto s at_ (.refl s)
  refine .next (.ite up ?_)
  split
  · exact up
  · exact .ite (.resumePair _ _ (.slowPair _ _ up)) (.failPair _ _ up)

theorem KeepsOn.tftpRetransmit (at_ : Nat) (s : State) : KeepsOn s (execTftpRetransmit at_ s) := by
  have up := Keeps.upto s at_ (.refl s)
  exact .next (.ite up (.ite (.emit _ _ (.beside up rfl)) (.nextServer _ up)))

theorem KeepsOn.standbyPowerGood (romOk storeOk chainOk : Bool) (reads : List FuseReads) (s : State) :
    KeepsOn s (execStandbyPowerGood romOk storeOk chainOk reads s) := by
  have good := (Keeps.refl s).beside (t := { s with module := { s.module with standby := true, standbyAt := s.now } }) rfl
  have alarmed := fun l => Keeps.foldl (f := State.alarmWord) l good fun _ r h => .alarmWord _ r h
  exact .next (.ite (.refl _) (.ite (good.beside rfl) (.ite ((alarmed _).beside rfl) (.bootOn _ _ _ ((alarmed _).beside rfl)))))

theorem KeepsOn.mainStart (millivolts at_ : Nat) (s : State) : KeepsOn s (execMainStart millivolts at_ s) := by
  have up := Keeps.upto s at_ (.refl s)
  exact .next (.ite (.beside up rfl) up)

theorem KeepsOn.railStep (at_ : Nat) (s : State) : KeepsOn s (execRailStep at_ s) := by
  have up := Keeps.upto s at_ (.refl s)
  exact .next (.ite up (.ite (.beside up rfl) (.comeUp _ (.beside up rfl))))

theorem KeepsOn.railFail (at_ : Nat) (s : State) : KeepsOn s (execRailFail at_ s) := by
  have up := Keeps.upto s at_ (.refl s)
  exact .next (.ite up (.beside up rfl))

theorem KeepsOn.railRetry (at_ : Nat) (s : State) : KeepsOn s (execRailRetry at_ s) := by
  have up := Keeps.upto s at_ (.refl s)
  exact .next (.ite (.beside up rfl) up)

theorem KeepsOn.linkTraining (width speed at_ : Nat) (s : State) : KeepsOn s (execLinkTraining width speed at_ s) := by
  have up := Keeps.upto s at_ (.refl s)
  exact .next (.ite (.beside up rfl) up)

theorem KeepsOn.hostReset (perst modrst : Bool) (at_ : Nat) (s : State) : KeepsOn s (execHostReset perst modrst at_ s) := by
  have up := Keeps.upto s at_ (.refl s)
  have noted := up.beside (t := { s.upto at_ with module := { (s.upto at_).module with
    perst := (s.upto at_).module.perst || perst
    modrst := (s.upto at_).module.modrst || modrst } }) rfl
  exact .next (.ite noted ((Keeps.wipe _ false 3 (.leave _ 0 noted)).beside rfl))

theorem KeepsOn.hostResetEnd (at_ : Nat) (s : State) : KeepsOn s (execHostResetEnd at_ s) := by
  have up := Keeps.upto s at_ (.refl s)
  exact .next (.ite (.comeUp _ (.beside up rfl)) (.beside up rfl))

theorem KeepsOn.mainReset (surge : Bool) (at_ : Nat) (s : State) : KeepsOn s (execMainReset surge at_ s) := by
  have up := Keeps.upto s at_ (.refl s)
  have recorded := fun c => Keeps.wipe _ true c (.healthRecord _ 5 Code.pwrReset noUnit 0xFFFF c up)
  exact .next (.ite up ((recorded _).beside rfl))

theorem KeepsOn.standbyLoss (millivolts : Nat) (s : State) : KeepsOn s (execStandbyLoss millivolts s) := by
  have wiped := Keeps.wipe s true 0 (.refl s)
  refine .next (.ite (.refl _) ⟨wiped.pending, fun w => ?_, fun _ _ h => h, wiped.vfs, Nat.le_refl _⟩)
  obtain ⟨host, rooms, cores, common⟩ := wiped.mem w
  exact ⟨host, rooms, cores, common⟩

theorem KeepsOn.thermalControl (die : Nat) (heat : HeatRead) (at_ : Nat) (s : State) : KeepsOn s (execThermalControl die heat at_ s) :=
  .next
    (.ite (.chargeThrottle _ (.upto _ _ (.refl _)))
      (.thermStep _ _ _ (.heatReading _ _ _ (.coolant _ _ _ (.chargeThrottle _ (.upto _ _ (.refl _)))))))

theorem KeepsOn.junctionTrip (die hottest at_ : Nat) (s : State) : KeepsOn s (execJunctionTrip die hottest at_ s) := by
  have up := Keeps.upto s at_ (.refl s)
  exact .next
    (.ite up
      (.setWaiting _ _ _
        (.healthRecord _ _ _ _ _ _ (.dropPairs _ _ (.loseDie _ _ (.secFaults _ _ _ (.tripDie _ _ _ (.faultAll _ _ _ up))))))))

theorem KeepsOn.tripRecovery (die at_ : Nat) (s : State) : KeepsOn s (execTripRecovery die at_ s) := by
  have up := Keeps.upto s at_ (.refl s)
  exact .next (.ite up (.refill _ _ (.clearWaiting _ _ (.healthRecord _ _ _ _ _ _ (.endTrip _ _ up)))))

theorem KeepsOn.droopRecovery (unit cycles : Nat) (long : Bool) (s : State) : KeepsOn s (execDroopRecovery unit cycles long s) :=
  .next
    (.ite (.refl _)
      (.ite (.healthRecord _ _ _ _ _ _ (.count _ _ _ _ (.count _ _ _ _ (.beside (.refl _) rfl)))) (.count _ _ _ _ (.beside (.refl _) rfl))))

theorem KeepsOn.stackShutdown (site hottest at_ : Nat) (s : State) : KeepsOn s (execStackShutdown site hottest at_ s) := by
  have up := Keeps.upto s at_ (.refl s)
  exact .next
    (.ite up
      (.setWaiting _ _ _
        (.healthRecord _ _ _ _ _ _
          (.foldl _ (.secFaults _ _ _ (.foldl _ (.modStack _ _ _ up) (fun _ _ h => .raiseFault _ _ _ _ h)))
            (fun _ _ g => .loseStack _ _ _ g)))))

theorem KeepsOn.stackReturn (site at_ : Nat) (s : State) : KeepsOn s (execStackReturn site at_ s) := by
  have up := Keeps.upto s at_ (.refl s)
  exact .next
    (.ite up
      (.clearWaiting _ _
        (.healthRecord _ _ _ _ _ _ (.foldl _ (.modStack _ _ _ up) (fun _ _ h => .ite h (.modRoom _ _ _ h (fun _ h => h)))))))

theorem KeepsOn.stackScrub (site : Nat) (hits : List ScrubHit) (s : State) : KeepsOn s (execStackScrub site hits s) :=
  .next
    (.ite (.refl _)
      (.ite (.maintAlarm _ _ _ _ (.foldl _ (.modStack _ _ _ (.refl _)) (fun _ _ h => .scrubHit _ _ _ h)))
        (.foldl _ (.modStack _ _ _ (.refl _)) (fun _ _ h => .scrubHit _ _ _ h))))

theorem KeepsOn.crcError (unit channel : Nat) (lane : LaneErr) (at_ : Nat) (s : State) : KeepsOn s (execCrcError unit channel lane at_ s) := by
  have up := Keeps.upto s at_ (.refl s)
  exact .next
    (.ite (.bridgeError _ _ _ (.ite up (.count _ _ _ _ up)))
      (.ite (.laneError _ _ _ _ (.ite up (.count _ _ _ _ up)))
        (.ite (.ite (.ite up (.count _ _ _ _ up)) (.ite up (.packageFails _ _ _ up))) up)))

theorem KeepsOn.debugWindowEnd (at_ : Nat) (s : State) : KeepsOn s (execDebugWindowEnd at_ s) := by
  have up := Keeps.upto s at_ (.refl s)
  exact .next (.ite (.closeDebug _ (.beside up rfl)) up)

/-! ## The management port and the strongroom -/

theorem KeepsOn.attest (who : Who) (nonce : List Nat) (s : State) : KeepsOn s (execAttest who nonce s) :=
  .next (.ite (.refl _) (.respond _ _ _ (.freshReport s none nonce [] (.refl s))))

theorem KeepsOn.claim (token pub : List Nat) (verified : Bool) (s : State) : KeepsOn s (execClaim token pub verified s) :=
  .next
    (.ite (.refl _)
      (.ite (.respond _ _ _ (.refl _))
        (.ite (.respond _ _ _ (.refl _)) (.tryFetch _ (.respond _ _ _ (.audit _ _ _ _ _ _ _ (.storeWritten _ (.beside (.refl _) rfl))))))))

theorem KeepsOn.reboot (who : Who) (s : State) : KeepsOn s (execReboot who s) :=
  .next
    (.request _ _ _ _ _ (.refl _)
      (fun _ _ _ h => .ite (.comeUp _ (.wipe _ _ _ (.leave _ _ (.respond _ _ _ h)))) (.wipe _ _ _ (.leave _ _ (.respond _ _ _ h)))))

theorem KeepsOn.roomSec (who : Who) (room cmd : Nat) (body : List Nat) (verified : Bool) (s : State) :
    KeepsOn s (execRoomSec who room cmd body verified s) :=
  .next (.request _ _ _ _ _ (.refl _) (fun _ _ _ h => .ite (.refuseFree _ h) (.respond _ _ _ (.tenantCmd _ _ _ _ _ h))))

theorem KeepsOn.setCa (who : Who) (certs : List (List Nat)) (s : State) : KeepsOn s (execSetCa who certs s) :=
  .next
    (.request _ _ _ _ _ (.refl _)
      (fun _ _ _ h => .ite (.respond _ _ _ h) (.respond _ _ _ (.config _ _ _ _ (.storeWritten _ (.beside h rfl))))))

theorem KeepsOn.setCaravan (who : Who) (body : List Nat) (s : State) : KeepsOn s (execSetCaravan who body s) :=
  .next
    (.request _ _ _ _ _ (.refl _)
      (fun _ _ _ h =>
        .ite (.respond _ _ _ (.config _ _ _ _ (.beside (.ite (.takeOver _ (.fenceOff _ _ (.leave _ _ h))) h) rfl)))
          (.beginAdmission _ (.respond _ _ _ (.config _ _ _ _ (.beside (.ite (.takeOver _ (.fenceOff _ _ (.leave _ _ h))) h) rfl))))))

theorem KeepsOn.addOperator (who : Who) (pub : List Nat) (s : State) : KeepsOn s (execAddOperator who pub s) :=
  .next
    (.request _ _ _ _ _ (.refl _)
      (fun _ _ _ h => .ite (.respond _ _ _ h) (.ite (.refuseFree _ h) (.respond _ _ _ (.keyChange _ _ _ _ _ _ (.beside h rfl))))))

theorem KeepsOn.delOperator (who : Who) (index : Nat) (s : State) : KeepsOn s (execDelOperator who index s) := by
  refine .next (.request _ _ _ _ _ (.refl _) fun u _ _ h => ?_)
  split
  · exact .refuseFree _ h
  · exact .respond _ _ _ (.keyChange _ _ _ _ _ _ (h.beside rfl))

theorem KeepsOn.addInstaller (who : Who) (pub : List Nat) (s : State) : KeepsOn s (execAddInstaller who pub s) :=
  .next
    (.request _ _ _ _ _ (.refl _)
      (fun _ _ _ h => .ite (.respond _ _ _ h) (.ite (.refuseFree _ h) (.respond _ _ _ (.keyChange _ _ _ _ _ _ (.beside h rfl))))))

theorem KeepsOn.delInstaller (who : Who) (index : Nat) (s : State) : KeepsOn s (execDelInstaller who index s) := by
  refine .next (.request _ _ _ _ _ (.refl _) fun u _ _ h => ?_)
  split
  · exact .refuseFree _ h
  · exact .ite (.respond _ _ _ h) (.respond _ _ _ (.keyChange _ _ _ _ _ _ (h.beside rfl)))

theorem KeepsOn.releaseClaim (who : Who) (s : State) : KeepsOn s (execReleaseClaim who s) := by
  refine .next (.request _ _ _ _ _ (.refl _) fun u role slot h => .respond _ _ _ ?_)
  have cleared := Keeps.audit _ 0x03 role slot 0xFFFF 0 [] (.storeWritten _ (h.beside (t := { u with sec := { u.sec with
    installers := []
    operators := []
    cas := [] } }) rfl))
  exact .ite (cleared.beside rfl) cleared

theorem KeepsOn.svnCommit (who : Who) (reads : List FuseReads) (s : State) : KeepsOn s (execSvnCommit who reads s) := by
  refine .next (.request _ _ _ _ _ (.refl _) fun _ _ _ h => .fuseRequest _ _ h fun u g => ?_)
  split
  · exact .refuseFree _ g
  · exact .ite (.refuseFree _ g) (.programFuses _ _ _ _ _ g)

theorem KeepsOn.debug (who : Who) (rooms : List Nat) (scope : Nat) (s : State) : KeepsOn s (execDebug who rooms scope s) :=
  .next
    (.request _ _ _ _ _ (.refl _)
      (fun _ _ _ h => .ite (.respond _ _ _ h) (.respond _ _ _ (.audit _ _ _ _ _ _ _ (.beside (.closeDebug _ h) rfl)))))

theorem KeepsOn.makerRevoke (who : Who) (generation : Nat) (reads : List FuseReads) (s : State) :
    KeepsOn s (execMakerRevoke who generation reads s) := by
  refine .next ?_
  split
  · exact .ite (.refl _)
      (.ite (.authFail _ _ (.refl _))
        (.ite (.respond _ _ _ (.refl _)) (.fuseRequest _ _ (.refl _) (fun _ h => .ite (.respond _ _ _ h) (.programFuses _ _ _ _ _ h)))))
  · exact .ite (.authFail _ _ (.refl _)) (.refl _)

theorem KeepsOn.repairFuse (who : Who) (words : List (Nat × Nat)) (reads : List FuseReads) (s : State) :
    KeepsOn s (execRepairFuse who words reads s) :=
  .next
    (.request _ _ _ _ _ (.refl _)
      (fun _ _ _ h =>
        .fuseRequest _ _ h
          (fun _ g => .ite (.respond _ _ _ g) (.ite (.respond _ _ _ g) (.ite (.refuseFree _ g) (.programFuses _ _ _ _ _ g))))))

theorem KeepsOn.retire (who : Who) (reads : List FuseReads) (s : State) : KeepsOn s (execRetire who reads s) :=
  .next (.request _ _ _ _ _ (.refl _) (fun _ _ _ h => .fuseRequest _ _ h (fun _ g => .programFuses _ _ _ _ _ (.audit _ _ _ _ _ _ _ g))))

/-! ## Time and the board -/

theorem KeepsOn.referenceQualified (ref at_ : Nat) (s : State) : KeepsOn s (execReferenceQualified ref at_ s) := by
  have up := Keeps.upto s at_ (.refl s)
  exact .next (.ite up (.reselect _ (.ite (.ptpTime _ (.qualify _ _ up)) (.qualify _ _ up))))

theorem KeepsOn.referenceComparison (extPtp extOcxo ptpOcxo offset : Int) (at_ : Nat) (s : State) :
    KeepsOn s (execReferenceComparison extPtp extOcxo ptpOcxo offset at_ s) := by
  have up := Keeps.upto s at_ (.refl s)
  exact .next (.ite up (.correctPhase _ _ _ (.compareRefs _ _ (.beside up rfl))))

theorem KeepsOn.lockAcquired (at_ : Nat) (s : State) : KeepsOn s (execLockAcquired at_ s) := by
  have up := Keeps.upto s at_ (.refl s)
  exact .next (.ite (.beside up rfl) up)

theorem KeepsOn.ppsEdge (at_ : Nat) (s : State) : KeepsOn s (execPpsEdge at_ s) := by
  have up := Keeps.upto s at_ (.refl s)
  refine .next (.ite up ?_)
  split
  · exact .ppsPhase _ up
  · exact .takeTod _ _ (.ppsPhase _ up)

theorem KeepsOn.sync (m : PtpMsg) (s : State) : KeepsOn s (execSync m s) := by
  have up := Keeps.upto s m.received (.refl s)
  exact .next (.ite (.ptpDrop _ up) (.ite (.beside up rfl) (.synced _ _ _ up)))

theorem KeepsOn.followUp (m : PtpMsg) (s : State) : KeepsOn s (execFollowUp m s) := by
  refine .next (.ite (.ptpDrop _ (.refl _)) ?_)
  split
  · exact .ite (.synced _ _ _ (.refl _)) (.refl _)
  · exact .refl _

theorem KeepsOn.delayResp (m : PtpMsg) (s : State) : KeepsOn s (execDelayResp m s) := by
  refine .next (.ite (.ptpDrop _ (.refl _)) ?_)
  split
  · exact .ite (.refl _) (.beside (.refl _) rfl)
  · exact .refl _

theorem KeepsOn.snapshotPageCopied (copy : CopyDone) (s : State) : KeepsOn s (execSnapshotPageCopied copy s) := by
  refine .next ?_
  dsimp only
  split
  · exact .refl _
  · exact .ite (.raiseFault _ _ _ _ (.cutSnap _ _ (.ite (.cellarErrs _ _ (.refl _)) (.refl _))))
      (.ite (.raiseFault _ _ _ _ (.cutSnap _ _ (.ite (.cellarErrs _ _ (.refl _)) (.refl _))))
        (.chargeHaul _ _ _ _ (.modMem _ _ _ (.ite (.cellarErrs _ _ (.refl _)) (.refl _)) (fun _ h => h))))

theorem KeepsOn.getreqRetry (room peer flow at_ : Nat) (s : State) : KeepsOn s (execGetreqRetry room peer flow at_ s) := by
  have up := Keeps.upto s at_ (.refl s)
  refine .next ?_
  split
  · exact up
  · split
    · exact .sendGet _ _ _ _ _ _ up
    · exact up

theorem KeepsOn.ptpSyncInterval (at_ : Nat) (s : State) : KeepsOn s (execPtpSyncInterval at_ s) := by
  have up := Keeps.upto s at_ (.refl s)
  exact .next (.ite up (.beside (.foldl _ up (fun _ _ h => .emit _ _ (.emit _ _ h))) rfl))

theorem KeepsOn.ptpDelayReqInterval (at_ : Nat) (s : State) : KeepsOn s (execPtpDelayReqInterval at_ s) := by
  have up := Keeps.upto s at_ (.refl s)
  refine .next ?_
  split
  · exact up
  · exact .ite up (.emit _ _ (.beside up rfl))

/-! ## Every command and every step -/

/-- Every command keeps the memories canonical, the fuses burnt, the count of virtual functions and the audit numbers. -/
theorem exec_keeps (c : Instr) (s : State) : KeepsOn s (exec c s) := by
  cases c with
  | matrix => exact .matrix _ _
  | arrayIdle => exact .next (.ite (.refl _) (.modCore _ _ _ (.refl _) (fun _ h => h)))
  | tileVerdict => exact .next (.completeTile _ _ _ _ (.refl _))
  | detectedError => exact .next (.tileError _ _ _ _ (.refl _))
  | bankParityOutsideWord => exact .bankParityOutsideWord _ _
  | storeDoubleBitError => exact .storeDoubleBitError _ _
  | tileWatchdog => exact .tileWatchdog _ _
  | add | sub | mul | max | min | axpb | axpy | func | convert | lnsmul | cmpgt | and | or | xor | shift | rowSum | rowMax | rowDot
  | meanvar | normApply | smaxStep | rowScale | rowDiv | smaxApply =>
    exact .next (.vectorCmd _ _ _ (.refl _))
  | move => exact .move _ _
  | moveComplete => exact .moveComplete _ _
  | shape => exact .shape _ _
  | shapeComplete => exact .shapeComplete _ _
  | stepBarrier => exact .stepBarrier _ _
  | set => exact .set _ _
  | syncWait => exact .syncWait _ _
  | unfold => exact .unfold _ _
  | slotStart => exact .slotStart _ _ _
  | slotEnd => exact .next (.ite (.upto _ _ (.refl _)) (.beside (.foldl _ (.upto _ _ (.refl _)) (fun _ _ h => .account _ _ h)) rfl))
  | contextSwitch => exact .contextSwitch _ _
  | nop => exact .nop _ _
  | launch => exact .launch _ _
  | copy => exact .copy _ _
  | fill => exact .fill _ _
  | signal => exact .signal _ _
  | wait => exact .wait _ _
  | waitTimeout => exact .waitTimeout _ _ _
  | barrierJoin => exact .barrierJoin _ _
  | powerCap | clockPlan => exact .next (.modeCmd _ _ _ (.refl _))
  | sharingTable => exact .sharingTable _ _
  | precisionMode | endJob => exact .next (.modeCmd _ _ _ (.refl _))
  | timestamp => exact .timestamp _ _
  | fork | prune => exact .next (.treeDesc _ _ _ (.refl _))
  | branchRead => exact .branchRead _ _
  | unmap => exact .unmap _ _
  | mapAuto | mapUpper | mapCold | mapStream => exact .next (.hintCmd _ _ _ _ (.refl _) fun _ _ _ h => .mapPages _ _ _ _ h)
  | mapWindow => exact .next (.hintCmd _ _ _ _ (.refl _) fun _ _ _ h => .mapWindow _ _ _ h)
  | setAuto | setUpper | setCold | setStream => exact .next (.hintCmd _ _ _ _ (.refl _) fun _ _ _ h => .setPages _ _ _ _ h)
  | view => exact .next (.hintCmd _ _ _ _ (.refl _) fun _ _ _ h => .withRecord _ _ _ _ h fun _ _ _ _ g => .addView _ _ _ _ g)
  | forest => exact .next (.hintCmd _ _ _ _ (.refl _) fun _ _ _ h => .withRecord _ _ _ _ h fun _ _ _ _ g => .addForest _ _ _ _ g)
  | kernel => exact .next (.hintCmd _ _ _ _ (.refl _) fun _ _ _ h => .withRecord _ _ _ _ h fun _ _ _ _ g => .addKernel _ _ _ _ g)
  | clear => exact .clear _ _
  | haulPlan => exact .haulPlan _ _
  | checkpoint => exact .checkpoint _ _
  | restore => exact .restore _ _
  | mirrorFetchTimeout => exact .mirrorFetchTimeout _ _ _
  | decodeOpen => exact .next (.ingestCmd _ _ _ _ _ (.refl _) fun _ _ _ h => .endOr _ _ h (.decodeOpen _ _ _ _ h))
  | decodeFrame => exact .next (.ingestCmd _ _ _ _ _ (.refl _) (fun _ _ _ h => .decodeFrame _ _ _ _ h))
  | decodeClose =>
    exact .next (.ingestCmd _ _ _ _ _ (.refl _) fun _ _ _ h => .endOr _ _ h (Yields.bind fun _ _ => Yields.pure (h.beside rfl)))
  | developLoad => exact .next (.ingestCmd _ _ _ _ _ (.refl _) fun _ _ _ h => .endOr _ _ h (.developLoad _ _ _ _ h))
  | developFrame => exact .next (.ingestCmd _ _ _ _ _ (.refl _) (fun _ _ _ h => .developFrame _ _ _ _ h))
  | tokenizeLoad => exact .next (.ingestCmd _ _ _ _ _ (.refl _) fun _ _ _ h => .endOr _ _ h (.tokenizeLoad _ _ _ _ h))
  | tokenizeRun => exact .next (.ingestCmd _ _ _ _ _ (.refl _) (fun _ _ _ h => .tokenizeRun _ _ _ _ h))
  | augment => exact .next (.ingestCmd _ _ _ _ _ (.refl _) (fun _ _ _ h => .augment _ _ _ h))
  | put => exact .put _ _
  | get => exact .get _ _
  | cancel => exact .cancel _ _
  | doorbell => exact .ite (.next (.hostActs _ _ (.refl _))) (.next (.doorbell _ _ _ _ _ (.hostActs _ _ (.refl _))))
  | descriptorFetch => exact .next (.intake _ _ (.refl _))
  | moderationTimer => exact .ite (.next (.sendMsix _ _ _ (.setRing _ _ _ (.upto _ _ (.refl _))))) (.next (.upto _ _ (.refl _)))
  | vectorUnmask => exact .next (.unmask _ _ _ (.refl _))
  | ringRestart => exact .next (.ringRestart _ (.refl _))
  | start => exact .next (.startWrite _ _ _ (.hostActs _ _ (.refl _)))
  | commit => exact .next (.commitWrite _ _ _ (.refl _))
  | turnover => exact .next (.ite (.startTurnover _ _ _ _ _ (.refl _)) (.refl _))
  | functionLevelReset => exact .next (.ite (.refl _) (.flr _ _ (.refl _)))
  | vfEnableChange => exact .next (.setVfs _ _ _ (.refl _))
  | gateClose => exact .next (.ite (.scrub _ _ (.refl _)) (.refl _))
  | drainLimit => exact .drainLimit _ _ _ _
  | zeroingComplete => exact .zeroingComplete _ _ _
  | check => exact .next (.ite (.schedVerdict _ _ (.refl _)) (.badAcc _ (.refl _)))
  | activate => exact .next (.ite (.schedActivate _ (.refl _)) (.badAcc _ (.refl _)))
  | frameBoundary => exact .frameBoundary _ _
  | netCommit => exact .next (.ite (.netLock _ (.refl _)) (.badAcc _ (.refl _)))
  | ringtabSel => exact .next (.ite (.ringtabSel _ _ (.refl _)) (.badAcc _ (.refl _)))
  | ringtabRestart => exact .next (.ite (.ringtabRestart _ _ (.refl _)) (.badAcc _ (.refl _)))
  | ingestSel => exact .next (.ite (.ingestSel _ _ (.refl _)) (.badAcc _ (.refl _)))
  | memPromoteHeat => exact .next (.ite (.badAcc _ (.refl _)) (.ite (.promoteHeat _ _ _ (.refl _)) (.refl _)))
  | timeNowLo => exact .next (.ite (.readReg _ _ _ _ (.refl _)) (.refl _))
  | timeTodSet => exact .next (.ite (.todSet _ _ (.refl _)) (.badAcc _ (.refl _)))
  | powerClkgate | powerPwrgate => exact .next (.ite (.gateWrite _ _ _ _ (.refl _)) (.badAcc _ (.refl _)))
  | tenantAttest | tenant | importKey | consent | revoke => exact .next (.requestWindow _ _ _ _ _ (.refl _))
  | wideRegisterRead => exact .next (.ite (.readReg _ _ _ _ (.refl _)) (.refl _))
  | registerWrite => exact .next (.ite (.writeReg _ _ _ _ _ (.hostActs _ _ (.refl _))) (.hostActs _ _ (.refl _)))
  | forkCmd | pruneCmd => exact .next (.treeCmd _ _ _ (.refl _))
  | sample => exact .next (.sampleCmd _ _ (.refl _))
  | score => exact .next (.scoreCmd _ _ (.refl _))
  | samplerError => exact .samplerError _ _ _
  | decodeBatch => exact .decodeBatch _ _ _
  | decodeBatchEnd => exact .decodeBatchEnd _ _ _
  | benchRun => exact .benchRun _ _ _
  | benchRunEnd => exact .benchRunEnd _ _ _
  | bmm | benchAdd | benchSub | benchMul | benchMax | benchMin | benchAxpb | benchAxpy | benchConvert | benchExp | rsum | rmax | rdot
  | carry | smerge | benchFill | benchCopy =>
    exact .next (.benchCmd _ _ _ _ (.refl _))
  | benchTimeout => exact .benchTimeout _ _ _
  | benchError => exact .benchError _ _ _ _ _
  | windowFill => exact .windowFill _ _ _
  | migrationEpoch => exact .migrationEpoch _ _
  | migrationSwitch => exact .migrationSwitch _ _ _
  | snapshotComplete => exact .snapshotComplete _ _
  | mirrorAck => exact .mirrorAck _ _ _
  | collectiveExecution => exact .collectiveExecution _ _ _
  | collectiveComplete => exact .collectiveComplete _ _ _ _
  | data => exact .next (.pktRow _ _ _ _ (.refl _) (fun _ _ _ h => .onData _ _ _ _ h))
  | ack | nack => exact .next (.pktRow _ _ _ _ (.refl _) (fun _ _ _ h => .onAck _ _ _ _ h))
  | getreq => exact .next (.pktRow _ _ _ _ (.refl _) (fun _ _ _ h => .onGetreq _ _ _ _ h))
  | refuse => exact .next (.pktRow _ _ _ _ (.refl _) (fun _ _ _ h => .onRefuse _ _ _ h))
  | busy => exact .next (.pktRow _ _ _ _ (.refl _) (fun _ _ _ h => .onBusy _ _ _ h))
  | ackTimer => exact .ackTimer _ _ _ _ _
  | nackTimer => exact .nackTimer _ _ _ _ _
  | retransmitTimer => exact .retransmitTimer _ _ _ _ _ _
  | rateIncrease => exact .rateIncrease _ _ _ _ _
  | pathReturn => exact .pathReturn _ _ _ _
  | arp | neighbourDiscovery => exact .next (.ite (.emit _ _ (.refl _)) (.refl _))
  | icmpEcho => exact .icmpEcho _ _ _ _
  | keyOverlapEnd => exact .keyOverlapEnd _ _ _ _
  | admitMember => exact .admitMember _ _
  | admitted => exact .next (.ctrlRow _ _ _ _ (.refl _) (fun _ h => .ite h (.beside h rfl)))
  | refused => exact .refused _ _
  | admitRetry => exact .admitRetry _ _
  | renewTimer => exact .next (.ite (.sendRenew _ (.upto _ _ (.refl _))) (.upto _ _ (.refl _)))
  | renew => exact .renew _ _
  | grant => exact .next (.ctrlRow _ _ _ _ (.refl _) (fun _ h => .ite h (.ite (.fenceOff _ _ h) (.beside h rfl))))
  | leaseExpiry => exact .next (.ite (.takeOver _ (.fenceOff _ _ (.upto _ _ (.refl _)))) (.upto _ _ (.refl _)))
  | leaseLapse => exact .next (.ite (.evict _ _ (.upto _ _ (.refl _))) (.upto _ _ (.refl _)))
  | key => exact .next (.ctrlRow _ _ _ _ (.refl _) (fun _ h => .ite h (.ite (.passDown _ _ _ h) (.installJobKey _ _ _ _ h))))
  | gen => exact .gen _ _
  | fence => exact .next (.ctrlRow _ _ _ _ (.refl _) (fun _ h => .ite h (.takeOver _ (.fenceOff _ _ h))))
  | probe => exact .next (.ctrlRow _ _ _ _ (.refl _) (fun _ h => .ite h (.ctrlSend _ _ _ _ _ _ _ _ h)))
  | probeAck => exact .probeAck _ _
  | probeTimeout => exact .next (.ite (.evict _ _ (.upto _ _ (.refl _))) (.upto _ _ (.refl _)))
  | report => exact .next (.ctrlRow _ _ _ _ (.refl _) (fun _ h => .ite (.routeReport _ _ _ _ _ _ h) h))
  | leave => exact .next (.ctrlRow _ _ _ _ (.refl _) (fun _ h => .ite (.evict _ _ h) (.ite (.headEvict _ _ h) h)))
  | rekey => exact .next (.toHead _ _ _ _ (.refl _) (fun _ h => .ite (.newJobKey _ _ h) h))
  | join => exact .next (.ctrlRow _ _ _ _ (.refl _) (fun _ h => .ite (.headJoin _ _ h) (.ite (.passUp _ _ _ h) h)))
  | assemblyTimeout => exact .assemblyTimeout _ _ _
  | jobRecordExpiry => exact .jobRecordExpiry _ _ _
  | jobStart => exact .next (.fromAbove _ _ _ _ (.refl _) (fun _ h => .startOf _ _ _ _ _ _ _ (.newGeneration _ _ h)))
  | map => exact .map _ _
  | barJoin => exact .next (.barJoin _ _ (.refl _))
  | barJoinMessage => exact .barJoinMessage _ _
  | release => exact .release _ _
  | barLocal => exact .barLocal _ _ _
  | barTimeout => exact .barTimeout _ _ _
  | fault => exact .fault _ _
  | abort => exact .abort _ _
  | jobFault => exact .next (.raiseFault _ _ _ _ (.refl _))
  | linkNonce => exact .linkNonce _ _ _
  | linkReport => exact .linkReport _ _ _ _
  | linkResend => exact .linkResend _ _ _
  | stewardCrash => exact .stewardCrash _ _ _
  | stewardWatchdog => exact .next (.ite (.upto _ _ (.refl _)) (.crashPair _ _ (.count _ _ _ _ (.upto _ _ (.refl _)))))
  | stewardRestartDone => exact .stewardRestartDone _ _ _
  | stewardSlow => exact .next (.ite (.upto _ _ (.refl _)) (.slowPair _ _ (.upto _ _ (.refl _))))
  | imageFetch => exact .next (.foldl _ (.refl _) (fun _ _ h => .serverAnswer _ _ h))
  | tftpRetransmit => exact .tftpRetransmit _ _
  | fetchRetry => exact .next (.ite (.beginFetch _ (.upto _ _ (.refl _))) (.upto _ _ (.refl _)))
  | standbyPowerGood => exact .standbyPowerGood _ _ _ _ _
  | strapLatch => exact .next (.ite (.beside (.refl _) rfl) (.refl _))
  | mainStart => exact .mainStart _ _ _
  | railStep => exact .railStep _ _
  | railFail => exact .railFail _ _
  | railRetry => exact .railRetry _ _
  | linkTraining => exact .linkTraining _ _ _ _
  | hostReset => exact .hostReset _ _ _ _
  | hostResetEnd => exact .hostResetEnd _ _
  | hotReset => exact .next (.flr _ _ (.refl _))
  | sagWarning => exact .next (.ite (.powerEvent _ _ (.beside (.refl _) rfl)) (.refl _))
  | sagClear => exact .next (.ite (.forgetAlert _ _ (.powerEvent _ _ (.beside (.refl _) rfl))) (.refl _))
  | mainReset => exact .mainReset _ _ _
  | standbyLoss => exact .standbyLoss _ _
  | powerControl => exact .next (.ite (.upto _ _ (.refl _)) (.powerCompare _ _ _ (.upto _ _ (.refl _))))
  | thermalControl => exact .thermalControl _ _ _ _
  | junctionTrip => exact .junctionTrip _ _ _ _
  | tripRecovery => exact .tripRecovery _ _ _
  | droopTrip => exact .next (.ite (.refl _) (.beside (.refl _) rfl))
  | droopRecovery => exact .droopRecovery _ _ _ _
  | stackBandReading => exact .next (.ite (.upto _ _ (.refl _)) (.modStack _ _ _ (.upto _ _ (.refl _))))
  | stackShutdown => exact .stackShutdown _ _ _ _
  | stackReturn => exact .stackReturn _ _ _
  | stackScrub => exact .stackScrub _ _ _
  | crcError => exact .crcError _ _ _ _ _
  | securityFault => exact .next (.secFaults _ _ _ (.refl _))
  | fuseReread => exact .next (.foldl _ (.refl _) (fun _ _ h => .rereadWord _ _ h))
  | consentExpiry => exact .next (.ite (.endConsent _ _ (.upto _ _ (.refl _))) (.upto _ _ (.refl _)))
  | debugWindowEnd => exact .debugWindowEnd _ _
  | identity => exact .next (.ite (.respond _ _ _ (.refl _)) (.refl _))
  | attest who nonce => exact .attest who nonce s
  | claim => exact .claim _ _ _ _
  | auditRead | healthRead => exact .next (.request _ _ _ _ _ (.refl _) (fun _ _ _ h => .respond _ _ _ h))
  | auditAck => exact .next (.request _ _ _ _ _ (.refl _) (fun _ _ _ h => .respond _ _ _ (.audit _ _ _ _ _ _ _ (.beside h rfl))))
  | reboot => exact .reboot _ _
  | roomSec => exact .roomSec _ _ _ _ _ _
  | setNet => exact .next (.request _ _ _ _ _ (.refl _) (fun _ _ _ h => .respond _ _ _ (.config _ _ _ _ (.beside h rfl))))
  | setServers => exact .next (.request _ _ _ _ _ (.refl _) (fun _ _ _ h => .tryFetch _ (.respond _ _ _ (.config _ _ _ _ (.beside h rfl)))))
  | setCa => exact .setCa _ _ _
  | setCaravan => exact .setCaravan _ _ _
  | clearLaggard => exact .next (.request _ _ _ _ _ (.refl _) (fun _ _ _ h => .respond _ _ _ (.config _ _ _ _ (.beside h rfl))))
  | removeMember => exact .next (.request _ _ _ _ _ (.refl _) (fun _ _ _ h => .respond _ _ _ (.config _ _ _ _ (.ite (.evict _ _ h) h))))
  | addOperator => exact .addOperator _ _ _
  | delOperator => exact .delOperator _ _ _
  | addInstaller => exact .addInstaller _ _ _
  | delInstaller => exact .delInstaller _ _ _
  | releaseClaim => exact .releaseClaim _ _
  | svnCommit => exact .svnCommit _ _ _
  | debugAllow => exact .next (.request _ _ _ _ _ (.refl _) (fun _ _ _ h => .respond _ _ _ (.beside h rfl)))
  | debug => exact .debug _ _ _ _
  | makerRevoke => exact .makerRevoke _ _ _ _
  | repairFuse => exact .repairFuse _ _ _ _
  | retire => exact .retire _ _ _
  | referenceQualified => exact .referenceQualified _ _ _
  | referenceLoss => exact .next (.ite (.upto _ _ (.refl _)) (.loseReference _ _ (.upto _ _ (.refl _))))
  | referenceComparison => exact .referenceComparison _ _ _ _ _ _
  | lockAcquired => exact .lockAcquired _ _
  | ppsEdge => exact .ppsEdge _ _
  | sync => exact .sync _ _
  | followUp => exact .followUp _ _
  | delayResp => exact .delayResp _ _
  | announce => exact .next (.ite (.refl _) (.ite (.loseReference _ _ (.beside (.refl _) rfl)) (.beside (.refl _) rfl)))
  | bmbIdent | bmbStatus => exact .next (.bmb _ _ (.refl _))
  | bmbPower => exact .next (.ite (.refl _) (.bmb _ _ (.draw _ (.refl _))))
  | bmbThermal => exact .next (.bmb _ _ (.refl _))
  | alertResponse => exact .next (.ite (.refl _) (.emit _ _ (.beside (.refl _) rfl)))
  | unfoldComplete => exact .next (.completeTile _ _ _ _ (.refl _))
  | snapshotPageCopied => exact .snapshotPageCopied _ _
  | probeResend => exact .next (.ite (.sendProbe _ _ (.upto _ _ (.refl _))) (.upto _ _ (.refl _)))
  | getreqRetry => exact .getreqRetry _ _ _ _ _
  | portLink => exact .next (.ite (.beside (.refl _) rfl) (.refl _))
  | otherFrame => exact .next (.ite (.netCount _ _ (.refl _)) (.refl _))
  | delayReq => exact .next (.ite (.emit _ _ (.refl _)) (.refl _))
  | ptpSyncInterval => exact .ptpSyncInterval _ _
  | ptpDelayReqInterval => exact .ptpDelayReqInterval _ _
  | ptpAnnounceInterval =>
    exact .next (.ite (.upto _ _ (.refl _)) (.beside (.foldl _ (.upto _ _ (.refl _)) (fun _ _ h => .emit _ _ h)) rfl))

theorem step_keeps (s : State) : KeepsOn { s with pending := s.pending.tail } (step s) := by
  unfold step
  split
  · next h =>
    rw [h, List.tail_nil, ← h]
    exact .next (.upto s _ (.refl s))
  · next c rest h =>
    rw [h, List.tail_cons]
    exact exec_keeps c _

/-- Settles O5: every command keeps canonical memories canonical, and taking a command from the queue changes no memory. -/
theorem stepKeepsTheMemoriesCanonical : Obligations.StepKeepsTheMemoriesCanonical := by
  unfold Obligations.StepKeepsTheMemoriesCanonical
  intro s t wf h
  exact (step_keeps s t h).mem ⟨wf.host, wf.rooms, wf.cores, wf.common⟩

end Sys2Proof.Machine
end

section
/-! PROOFS. The next word of a core, the words of the unfold engine and of shape registers issued, and shapes that stop a word (R79, R86, R87, R93, R155, R353). -/

namespace Sys2Proof.Machine

open Sys2Proof Sys2Proof.Obl

/-! ## The next word (R79, R353) -/

theorem Ctx.mayIssue_iff (x : Ctx) (w : Word) : x.mayIssue w = true ↔
    (w.waits = true → x.flights = []) ∧ (∀ f ∈ x.flights, f.kind = .shape → f.sreg ∉ w.sregs) ∧
    (∀ v, w = .unfold v → ∀ f ∈ x.flights, f.kind ≠ .unfold) ∧ ∀ v, w = .vector v → ∀ f ∈ x.flights, f.kind ≠ .vector := by
  unfold Ctx.mayIssue
  rw [Bool.and_eq_true, Bool.and_eq_true, and_assoc]
  refine and_congr ?waits (and_congr ?sregs ?engine)
  case waits => cases w.waits <;> simp
  case sregs => simp
  case engine => cases w <;> simp

/-- A room whose selected context issues on a core that runs. -/
def State.canIssue (s : State) (core r : Nat) (x : Ctx) : Prop :=
  s.mayServe core r = true ∧ x.stopped = false ∧ x.atBarrier = false ∧ (s.room r).running = true ∧ s.coreOn core = true

theorem canIssue_iff (s : State) (core r : Nat) (x : Ctx) :
    ¬ (!s.mayServe core r || x.stopped || x.atBarrier || !(s.room r).running || !s.coreOn core) = true ↔ s.canIssue core r x := by
  simp [State.canIssue, and_assoc]

theorem nextWord_eq_some {s : State} {core : Nat} {n : Next} : s.nextWord core = some n ↔
    (s.core core).sel = some n.room ∧ (s.core core).ctx n.room = some n.ctx ∧ s.canIssue core n.room n.ctx ∧ n.slot = n.ctx.wordAt.2 ∧
    fetchWord (s.room n.room).mem.data n.ctx.wordAt.1 = some (n.word, n.len) ∧ n.ctx.mayIssue n.word = true := by
  obtain ⟨r, x, w, len, slot⟩ := n
  constructor
  · intro h
    unfold State.nextWord at h
    dsimp only at h
    split at h
    · cases h
    split at h
    · cases h
    split at h
    · cases h
    split at h
    · cases h
    split at h
    · rename_i hsel _ _ hx hgo _ _ _ hfetch hissue
      cases h
      exact ⟨hsel, hx, (canIssue_iff ..).mp hgo, rfl, hfetch, hissue⟩
    · cases h
  · rintro ⟨hsel, hx, hgo, hslot, hfetch, hissue⟩
    dsimp only at *
    simp only [State.nextWord, hsel, hx, if_neg ((canIssue_iff ..).mpr hgo), hfetch, hissue, hslot, if_true]

theorem mayServe_iff (s : State) (core r : Nat) : s.mayServe core r = true ↔
    s.slotOwner core = none ∨ ∃ o lend, s.slotOwner core = some (o, lend) ∧ (o = r ∨ (lend = true ∧ s.ctxReady core o = false)) := by
  unfold State.mayServe
  cases s.slotOwner core with
  | none => simp
  | some p =>
    simp only [Bool.or_eq_true, beq_iff_eq, Bool.and_eq_true, Bool.not_eq_true', reduceCtorEq, false_or]
    exact ⟨fun h => ⟨_, _, rfl, h⟩, fun ⟨_, _, e, h⟩ => by cases e; exact h⟩

/-- Settles O8: the word fetched at the context's place, where the room may issue and no word in flight holds it back. -/
theorem nextWordIsTheOneThatMayIssue : Obligations.NextWordIsTheOneThatMayIssue := by
  unfold Obligations.NextWordIsTheOneThatMayIssue
  refine ⟨fun s core n => ?next, fun w => ?waits, mayServe_iff⟩
  case next =>
    rw [nextWord_eq_some, Ctx.mayIssue_iff, State.canIssue]
    simp only [and_assoc]
  case waits => simp [Word.waits, or_assoc]

/-! ## UNFOLD and SHAPE (R93, R155) -/

/-- The flight that UNFOLD puts in the context: the rows of the word on the store at issue. -/
def unfoldFlight (s : State) (core : Nat) (n : Next) (w : UnfoldWord) : Flight := { Flight.new .unfold n.slot w.cycles with
  out := { TileOut.none with writes := w.run (s.regionOf core n.room) } }

theorem exec_unfold_next {s : State} {core : Nat} {n : Next} {w : UnfoldWord} (hn : s.nextWord core = some n) (hw : n.word = .unfold w) :
    exec (.unfold core) s = .next (s.issue core n (unfoldFlight s core n w)) := by
  simp [exec, execUnfold, hn, hw, unfoldFlight]

/-- The value that a SHAPE word reads at issue. -/
def shapeValue (s : State) (core : Nat) (n : Next) (w : ShapeWord) : Nat :=
  match w.src with
  | 0 => w.operand
  | 1 => memNat (s.regionOf core n.room) w.operand 4
  | _ => (match (s.room n.room).job with
    | some j => j.args.getD w.operand 0
    | none => 0)

/-- The flight that SHAPE puts in the context: its register and the value read at issue. -/
def shapeFlight (s : State) (core : Nat) (n : Next) (w : ShapeWord) : Flight := { Flight.new .shape n.slot (if w.src = 1 then 6 else 4) with
  sreg := w.sreg
  value := shapeValue s core n w }

theorem exec_shape_next {s : State} {core : Nat} {n : Next} {w : ShapeWord} (hn : s.nextWord core = some n) (hw : n.word = .shape w) :
    exec (.shape core) s = .next (s.issue core n (shapeFlight s core n w)) := by
  simp only [exec, execShape, hn, hw]
  rfl

theorem shapeValue_arg {s : State} {n : Next} {w : ShapeWord} {j : Job} (core : Nat) (hj : (s.room n.room).job = some j) (h : w.src = 2) :
    shapeValue s core n w = j.args.getD w.operand 0 := by simp [shapeValue, h, hj]

/-- Settles O11: each command puts its flight in the context, computed on the state at issue. -/
theorem unfoldAndShapeWordsIssue : Obligations.UnfoldAndShapeWordsIssue := by
  unfold Obligations.UnfoldAndShapeWordsIssue
  constructor
  · intro s core n w hn hw
    exact ⟨_, _, exec_unfold_next hn hw, Issued.of_issue (unfoldFlight s core n w) (nextWord_ctx hn), rfl, rfl⟩
  · intro s core n w j hn hw hj
    exact ⟨_, _, exec_shape_next hn hw, Issued.of_issue (shapeFlight s core n w) (nextWord_ctx hn), rfl, rfl,
      fun h => by simp [shapeFlight, shapeValue, h], fun h => by simp [shapeFlight, shapeValue, h], shapeValue_arg core hj⟩

/-! ## Shapes that stop a word (R86, R87) -/

theorem issueMatrix_bound {s : State} (core : Nat) {n : Next} {w : MatrixWord} (h : w.shapeBound (w.shapeAt n.ctx.sregVal) = true) :
    s.issueMatrix core n w = s.raiseFault n.room Code.shapeBound (s.physUnit core) := by
  simp only [State.issueMatrix, h, if_true]

theorem issueMatrix_empty {s : State} (core : Nat) {n : Next} {w : MatrixWord} (h : w.shapeBound (w.shapeAt n.ctx.sregVal) = false)
    (he : (w.shapeAt n.ctx.sregVal).empty = true) :
    s.issueMatrix core n w = ((s.passWord core n).modCore core fun c => c.mark w.marks).refresh core := by
  simp only [State.issueMatrix, h, he, Bool.false_eq_true, if_false, if_true]

theorem issueVector_bound {s : State} (core : Nat) {n : Next} {w : VectorWord}
    (h : w.shapeBound (w.rowsAt n.ctx.sregVal) (w.colsAt n.ctx.sregVal) = true) :
    s.issueVector core n w = s.raiseFault n.room Code.shapeBound (s.physUnit core) := by
  simp only [State.issueVector, h, if_true]

theorem issueVector_empty {s : State} (core : Nat) {n : Next} {w : VectorWord}
    (h : w.shapeBound (w.rowsAt n.ctx.sregVal) (w.colsAt n.ctx.sregVal) = false)
    (he : w.rowsAt n.ctx.sregVal = 0 ∨ w.colsAt n.ctx.sregVal = 0) :
    s.issueVector core n w = ((s.passWord core n).modCore core fun c => c.mark w.marks).refresh core := by
  simp only [State.issueVector, h, Bool.false_eq_true, if_false, if_pos he]

/-- Settles O12: a shape over its bound raises the fault, an empty one completes the word at issue, in the arrays as in the vector unit. -/
theorem shapeBoundStopsTheWord : Obligations.ShapeBoundStopsTheWord := by
  unfold Obligations.ShapeBoundStopsTheWord
  intro s core n hn
  constructor
  · intro w hw
    rw [exec_matrix_next hn hw]
    exact ⟨fun h => by rw [issueMatrix_bound core h], fun h he => by rw [issueMatrix_empty core h he]⟩
  · intro w c hw hc
    have run : exec c s = .next (s.vectorCmd core w.op) := exec_vectorOps core s _ hc
    rw [run, vectorCmd_next hn hw]
    exact ⟨fun h => by rw [issueVector_bound core h], fun h he => by rw [issueVector_empty core h he]⟩

end Sys2Proof.Machine
end

section
/-! PROOFS. What a command makes of one core's context and store, step by step, beside the accounting (R51, R92, R94, R366). -/

namespace Sys2Proof.Machine

open Sys2Proof Sys2Proof.Obl

/-! ## One core and the rest -/

/-- A core of `t` seen from `s`: room `r`'s context is `x` up to its notes and the store is `m`; the banks and the other rooms' contexts are as they were. -/
structure CoreBecomes (s t : State) (core r : Nat) (x : Ctx) (m : Memory) : Prop where
  ctx : ctxOn t core r = some (plainCtx x)
  rest : ∀ q, q ≠ r → ctxOn t core q = ctxOn s core q
  store : (t.core core).store = m
  banks : (t.core core).banks = (s.core core).banks

/-- Beside accounting, only one core changes. -/
structure CoreStep (core : Nat) (s t : State) : Prop where
  other : ∀ c, c ≠ core → t.core c = s.core c
  booked : Booked s t

theorem CoreStep.trans {core : Nat} {s t u : State} (h : CoreStep core s t) (g : CoreStep core t u) : CoreStep core s u :=
  ⟨fun c hc => (g.other c hc).trans (h.other c hc), Booked.trans h.booked g.booked⟩

theorem Quiet.coreStep {core : Nat} {s t : State} (h : Quiet core s t) : CoreStep core s t := ⟨h.other, h.booked⟩

theorem CoreStep.setCore (s : State) (core : Nat) (c : Core) : CoreStep core s (s.setCore core c) :=
  ⟨fun _ h => State.setCore_core_ne _ _ h, Booked.cores rfl⟩

theorem CoreStep.modCtx (s : State) (core r : Nat) (g : Ctx → Ctx) : CoreStep core s (s.modCtx core r g) := by
  unfold State.modCtx
  split
  · exact (Quiet.refl core s).coreStep
  · exact .setCore s core _

theorem CoreStep.storeWrite (s : State) (core r a : Nat) (bytes : List Byte) : CoreStep core s (s.storeWrite core r a bytes) := by
  unfold State.storeWrite
  split
  · exact (Quiet.refl core s).coreStep
  · exact .setCore s core _

/-- A change of a context that takes no account of its notes. -/
def OfPlain (g : Ctx → Ctx) : Prop := ∀ x, plainCtx (g x) = plainCtx (g (plainCtx x))

theorem OfPlain.congr {g : Ctx → Ctx} (hg : OfPlain g) {x y : Ctx} (h : plainCtx y = plainCtx x) : plainCtx (g y) = plainCtx (g x) := by
  rw [hg y, hg x, h]

theorem OfPlain.advance (k : Nat) : OfPlain fun x => x.advance k := fun x => by rw [plainCtx_advance, plainCtx_advance]; rfl

theorem storeBase_of_plain {x y : Ctx} (h : plainCtx y = plainCtx x) : y.storeBase = x.storeBase :=
  (congrArg Ctx.storeBase h : (plainCtx y).storeBase = (plainCtx x).storeBase)

section
variable {s t u : State} {core r : Nat} {x : Ctx} {m : Memory}

theorem CoreBecomes.refl (h : (s.core core).ctx r = some x) : CoreBecomes s s core r x (s.core core).store :=
  ⟨by rw [ctxOn, h]; rfl, fun _ _ => rfl, rfl, rfl⟩

/-- The context that a core holds, up to its notes. -/
theorem CoreBecomes.ctx_some (h : CoreBecomes s t core r x m) : ∃ y, (t.core core).ctx r = some y ∧ plainCtx y = plainCtx x :=
  Option.map_eq_some_iff.mp h.ctx

theorem CoreBecomes.elsewhere (h : CoreBecomes s t core r x m) (e : u.core core = t.core core) : CoreBecomes s u core r x m :=
  ⟨by rw [ctxOn, e]; exact h.ctx, fun q hq => by rw [ctxOn, e]; exact h.rest q hq, by rw [e, h.store], by rw [e, h.banks]⟩

theorem CoreBecomes.quiet (h : CoreBecomes s t core r x m) (q : Quiet core t u) : CoreBecomes s u core r x m :=
  ⟨by rw [q.ctx, h.ctx], fun k hk => by rw [q.ctx, h.rest k hk], by rw [q.store, h.store], by rw [q.banks, h.banks]⟩

theorem CoreBecomes.modCtx (h : CoreBecomes s t core r x m) {g : Ctx → Ctx} (hg : OfPlain g) :
    CoreBecomes s (t.modCtx core r g) core r (g x) m := by
  obtain ⟨y, hy, hp⟩ := h.ctx_some
  rw [State.modCtx_of _ hy]
  refine ⟨?_, fun q hq => ?_, ?_, ?_⟩
  · simp [ctxOn, hg.congr hp]
  · simpa [ctxOn, hq] using h.rest q hq
  · simpa [Core.setCtx] using h.store
  · simpa [Core.setCtx] using h.banks

theorem CoreBecomes.storeWrite (h : CoreBecomes s t core r x m) (a : Nat) (bytes : List Byte) :
    CoreBecomes s (t.storeWrite core r a bytes) core r x (memWriteN m (x.storeBase + a) bytes) := by
  obtain ⟨y, hy, hp⟩ := h.ctx_some
  have hwrite : t.storeWrite core r a bytes =
      t.setCore core { t.core core with store := memWriteN (t.core core).store (y.storeBase + a) bytes } := by
    simp [State.storeWrite, hy, State.modCore]
  rw [hwrite, storeBase_of_plain hp, h.store]
  refine ⟨?_, fun q hq => ?_, ?_, ?_⟩
  · rw [ctxOn, State.setCore_core]; exact h.ctx
  · rw [ctxOn, State.setCore_core]; exact h.rest q hq
  · rw [State.setCore_core]
  · rw [State.setCore_core]; exact h.banks

end

/-! ## A word passed (R79) -/

theorem CoreStep.passWord (s : State) (core : Nat) (n : Next) : CoreStep core s (s.passWord core n) :=
  (Quiet.stand s core n.room).coreStep.trans (.modCtx _ _ _ _)

theorem CoreBecomes.passWord {s : State} {core : Nat} {n : Next} (h : s.nextWord core = some n) :
    CoreBecomes s (s.passWord core n) core n.room (n.ctx.advance n.len) (s.core core).store :=
  ((CoreBecomes.refl (nextWord_ctx h)).quiet (Quiet.stand s core n.room)).modCtx (.advance n.len)

/-! ## A count posted to a core (R92, R94) -/

/-- A context whose counter has been posted a count by a peer core. -/
def Ctx.posted (x : Ctx) (ctr n : Nat) : Ctx := { x with
  sync := tset x.sync ctr ((tget 0 x.sync ctr + n) % 2 ^ 32)
  posters := tset x.posters ctr (0, 0) }

theorem postCounter_spec (s : State) {core : Nat} (r ctr n : Nat) (h : core ≠ 0xFFFF) :
    s.postCounter r core ctr n 0 = (s.modCtx core r fun x => x.posted ctr n).refreshCtx core r := by
  rw [State.postCounter, State.postCount, if_neg h]
  rfl

theorem CoreStep.postCounter (s : State) {core : Nat} (r ctr n : Nat) (h : core ≠ 0xFFFF) : CoreStep core s (s.postCounter r core ctr n 0) := by
  rw [postCounter_spec s r ctr n h]
  exact (CoreStep.modCtx _ _ _ _).trans (Quiet.refreshCtx _ _ _).coreStep

theorem CoreBecomes.postCounter {s t : State} {core r : Nat} {x : Ctx} {m : Memory} (b : CoreBecomes s t core r x m) (ctr n : Nat) (h : core ≠ 0xFFFF) :
    CoreBecomes s (t.postCounter r core ctr n 0) core r (x.posted ctr n) m := by
  rw [postCounter_spec t r ctr n h]
  exact (b.modCtx (g := fun x => x.posted ctr n) fun _ => rfl).quiet (Quiet.refreshCtx _ _ _)

end Sys2Proof.Machine
end

section
/-! PROOFS. SHAPE and MOVE words completed (R91 to R93, R250, R282, R549). -/

namespace Sys2Proof.Machine

open Sys2Proof Sys2Proof.Obl

/-! ## SHAPE_COMPLETE (R93) -/

/-- A context whose SHAPE word `f` has completed: the flights left, and its register set. -/
def Ctx.shaped (x : Ctx) (f : Flight) (rest : List Flight) : Ctx := { x with
  flights := rest
  shape := tset x.shape f.sreg f.value }

theorem exec_shapeComplete_oldest {s : State} {core slot r : Nat} {x : Ctx} {a b : List Flight} {f : Flight} (hsel : (s.core core).sel = some r)
    (hx : (s.core core).ctx r = some x) (hf : OldestOf (fun f => decide (f.kind = .shape) && decide (f.slot = slot)) x.flights a f b) :
    exec (.shapeComplete ⟨core, slot⟩) s = .next (((s.account core).modCtx core r fun x => x.shaped f (a ++ b)).refresh core) := by
  simp only [exec, execShapeComplete, hsel, hx, takeFlight_oldest hf]
  rfl

/-! ## MOVE_COMPLETE (R92, R250, R282, R549) -/

/-- A context with the flights left. -/
def Ctx.withFlights (x : Ctx) (l : List Flight) : Ctx := { x with flights := l }

/-- A word gone from a context, and the core's readiness noted. -/
def State.flightsLeft (s : State) (core r : Nat) (rest : List Flight) : State := (s.modCtx core r fun x => x.withFlights rest).refresh core

theorem CoreStep.flightsLeft (s : State) (core r : Nat) (rest : List Flight) : CoreStep core s (s.flightsLeft core r rest) :=
  (CoreStep.modCtx _ _ _ _).trans (Quiet.refresh _ core).coreStep

theorem CoreBecomes.flightsLeft {s t : State} {core r : Nat} {x : Ctx} {m : Memory} (h : CoreBecomes s t core r x m) (rest : List Flight) :
    CoreBecomes s (t.flightsLeft core r rest) core r (x.withFlights rest) m :=
  (h.modCtx (g := fun x => x.withFlights rest) fun _ => rfl).quiet (Quiet.refresh _ core)

/-- A MOVE's end, after its rows as far as they got: a fault, a wait with the rows done, or the word complete and a peer's counter posted. -/
def MoveRun.ended (y : MoveRun) (core slot r unit : Nat) (w : MoveWord) (rest : List Flight) : State :=
  match y.stop with
  | some (some c) => y.s.raiseFault r c unit
  | some none => y.s.modCtx core r fun x => { x with
      flights := x.flights.map fun g => if g.moveAt slot then { g with rows := y.rows, blocks := y.blocks } else g }
  | none =>
    let s := y.s.flightsLeft core r rest
    if w.dstSp = 2 then s.postCounter r w.peer w.ctr 1 0 else s

section
variable {s : State} {core slot r : Nat} {e : CellarRead} {x : Ctx} {a b : List Flight} {f : Flight} {w : MoveWord}
  (hsel : (s.core core).sel = some r) (hx : (s.core core).ctx r = some x) (hf : OldestOf (Flight.moveAt slot) x.flights a f b)
  (hw : f.move = some w) (hserve : s.mayServe core r = true) (hrun : (s.room r).running = true)
include hsel hx hf hw hserve hrun

/-- Rows that read no cellar page of the half named are made, and the word ends as they got. -/
theorem exec_moveComplete_rows (hd : s.readsHalf r w e.half = false) : exec (.moveComplete ⟨core, slot, e⟩) s =
    .next (((s.account core).moveRows core r w f).ended core slot r (s.physUnit core) w (a ++ b)) := by
  have hunit : (s.account core).physUnit core = s.physUnit core := by
    simp only [State.physUnit]; rw [(Quiet.account s core).booked.2]
  simp only [exec, execMoveComplete, hsel, hx, takeFlight_oldest hf, hw, hserve, hrun, hd, Bool.not_true, Bool.false_eq_true, or_self, if_false,
    Bool.false_and, hunit]
  rfl

/-- An uncorrectable error of the cellar half that the rows read is a job fault. -/
theorem exec_moveComplete_bad (hd : s.readsHalf r w e.half = true) (hbad : e.bad = true) : exec (.moveComplete ⟨core, slot, e⟩) s =
    .next (((s.account core).cellarErrs e).raiseFault r Code.cellarUe (cellarUnit e.half)) := by
  simp only [exec, execMoveComplete, hsel, hx, takeFlight_oldest hf, hw, hserve, hrun, hd, hbad, Bool.not_true, Bool.false_eq_true, or_self, if_false,
    Bool.and_self, if_true]

end

theorem readsHalf_near (s : State) (r half : Nat) {w : MoveWord} (h : w.srcSp ≠ 3) : s.readsHalf r w half = false := by
  simp [State.readsHalf, h]

/-- Charging a core leaves a room's region of its store. -/
theorem regionOf_account (s : State) (core r : Nat) : (s.account core).regionOf core r = s.regionOf core r := by
  obtain ⟨charged, used, hcore⟩ := account_core s core core
  simp only [State.regionOf, hcore]
  rfl

/-- The one row of a plain MOVE from the own store to a core's store: the row's bytes are written, and nothing stops it. -/
theorem moveRows_one {s : State} {core r : Nat} {w : MoveWord} {f : Flight} (hsrc : w.srcSp = 0) (hdst : w.dstSp < 3) (hadd : w.uadd = false)
    (hrows : w.rows = 1) (hf : f.rows = 0) : s.moveRows core r w f =
      ⟨s.nearWrite core r w w.dst (memReadN (s.regionOf core r) w.src w.rowBytes), 1, f.blocks, none⟩ := by
  have hread : s.rowRead core r w (w.src + 0 * w.srcPitch) = .ok (memReadN (s.regionOf core r) w.src w.rowBytes) := by
    simp [State.rowRead, hsrc]
  have hone : s.moveRows core r w f = State.moveRow core r w ⟨s, 0, f.blocks, none⟩ := by simp [State.moveRows, hrows, hf]
  rw [hone, moveRow_near rfl (by omega) hdst hadd hread]
  simp

/-- A MOVE whose rows are all made leaves the context. -/
theorem ended_done (y : MoveRun) (core slot r unit : Nat) {w : MoveWord} (rest : List Flight) (h : y.stop = none) (hd : w.dstSp ≠ 2) :
    y.ended core slot r unit w rest = y.s.flightsLeft core r rest := by
  simp only [MoveRun.ended, h, if_neg hd]

/-- A MOVE into a peer's store also posts the peer's counter. -/
theorem ended_peer (y : MoveRun) (core slot r unit : Nat) {w : MoveWord} (rest : List Flight) (h : y.stop = none) (hd : w.dstSp = 2) :
    y.ended core slot r unit w rest = (y.s.flightsLeft core r rest).postCounter r w.peer w.ctr 1 0 := by
  simp only [MoveRun.ended, h, if_pos hd]

/-- Settles O14: the flight's value or rows, made on the charged core, and then its end. -/
theorem shapeAndMoveComplete : Obligations.ShapeAndMoveComplete := by
  unfold Obligations.ShapeAndMoveComplete
  refine ⟨?shape, ?rows, ?oneRow⟩
  case shape =>
    intro s core slot r x a b f hsel hx hf
    have charged := Quiet.account s core
    have noted := Quiet.refresh ((s.account core).modCtx core r fun x => x.shaped f (a ++ b)) core
    have done := (((CoreBecomes.refl hx).quiet charged).modCtx (g := fun x => x.shaped f (a ++ b)) fun _ => rfl).quiet noted
    have step := (charged.coreStep.trans (.modCtx _ _ _ _)).trans noted.coreStep
    exact ⟨_, exec_shapeComplete_oldest hsel hx hf, done.ctx, done.rest, done.store, done.banks, step.other, step.booked⟩
  case rows =>
    intro s core slot r e x a b f w y hsel hx hf hw hserve hrun
    refine ⟨fun hd hy => ?_, exec_moveComplete_bad hsel hx hf hw hserve hrun⟩
    rw [exec_moveComplete_rows hsel hx hf hw hserve hrun hd, ← hy]
    exact ⟨fun c h => by simp only [MoveRun.ended, h], fun h => by simp only [MoveRun.ended, h],
      fun h hdst => congrArg Host.Outcome.next (ended_done y _ _ _ _ _ h hdst), fun h hdst => congrArg Host.Outcome.next (ended_peer y _ _ _ _ _ h hdst)⟩
  case oneRow =>
    intro s core slot r e x a b f w hsel hx hf hw hserve hrun hsrc hadd hrows hfrows
    have run := exec_moveComplete_rows (e := e) hsel hx hf hw hserve hrun (readsHalf_near s r e.half (by omega))
    have charged := Quiet.account s core
    have own := (CoreBecomes.refl hx).quiet charged
    have made := fun hdst => moveRows_one (s := s.account core) (core := core) (r := r) hsrc hdst hadd hrows hfrows
    rw [regionOf_account] at made
    generalize memReadN (s.regionOf core r) w.src w.rowBytes = bytes at made ⊢
    generalize s.account core = u at *
    constructor
    · intro hdst
      rw [made (by omega), ended_done _ _ _ _ _ _ rfl (by omega), nearWrite_own _ _ _ _ _ hdst] at run
      have done := (own.storeWrite w.dst bytes).flightsLeft (a ++ b)
      have step := (charged.coreStep.trans (.storeWrite u core r w.dst bytes)).trans (.flightsLeft _ core r (a ++ b))
      exact ⟨_, run, done.store, done.ctx, step.other, step.booked⟩
    · intro hdst hpeer hlt y hy
      rw [made (by omega), ended_peer _ _ _ _ _ _ rfl hdst, nearWrite_peer _ _ _ _ _ hdst] at run
      dsimp only at run
      have peer := (CoreBecomes.refl (s := u) (by rw [charged.other _ hpeer]; exact hy)).storeWrite w.dst bytes
      have written := CoreStep.storeWrite u w.peer r w.dst bytes
      generalize u.storeWrite w.peer r w.dst bytes = v at *
      have gone := (own.elsewhere (written.other _ hpeer.symm)).flightsLeft (a ++ b)
      have left := CoreStep.flightsLeft v core r (a ++ b)
      generalize v.flightsLeft core r (a ++ b) = z at *
      have posted := (peer.elsewhere (left.other _ hpeer)).postCounter w.ctr 1 (by omega)
      have post := CoreStep.postCounter z (core := w.peer) r w.ctr 1 (by omega)
      have done := gone.elsewhere (post.other _ hpeer.symm)
      refine ⟨_, run, done.store, done.ctx, ?store, posted.ctx, fun q hq hqp => ?others, ?booked⟩
      case store => rw [posted.store, charged.other _ hpeer]
      case others => rw [post.other q hqp, left.other q hq, written.other q hqp, charged.other q hq]
      case booked => exact Booked.trans (Booked.trans charged.booked written.booked) (Booked.trans left.booked post.booked)

end Sys2Proof.Machine
end

section
/-! PROOFS. SYNC words: STEP_BARRIER, SET and WAIT (R94, R264, R423, R424). -/

namespace Sys2Proof.Machine

open Sys2Proof Sys2Proof.Obl

/-! ## STEP_BARRIER (R423) -/

/-- A context that has passed its STEP_BARRIER and stands at the barrier. -/
def Ctx.joins (x : Ctx) (now : Nat) : Ctx := { x with
  atBarrier := true
  joinedAt := some now }

/-- A job with a core among those joined. -/
def Job.withJoin (j : Job) (core now : Nat) : Job := { j with
  joined := if j.joined.contains core then j.joined else core :: j.joined
  firstJoin := some (j.firstJoin.getD now) }

theorem Job.mem_withJoin (j : Job) (core now c : Nat) : c ∈ (j.withJoin core now).joined ↔ c = core ∨ c ∈ j.joined := by
  by_cases h : core ∈ j.joined
  · have : c = core → c ∈ j.joined := fun e => e ▸ h
    simpa [Job.withJoin, h]
  · simp [Job.withJoin, h]

/-- A room's job replaced. -/
def State.withJob (s : State) (r : Nat) (j : Job) : State := s.setRoom r { s.room r with job := some j }

/-- Accounting beside a change of a room's job. -/
theorem Booked.withJob {s t : State} (h : Booked s t) (r : Nat) (j : Job) : Booked (s.withJob r j) (t.withJob r j) := by
  refine ⟨fun q => ?_, by rw [State.withJob, State.withJob, h.2]; rfl⟩
  obtain ⟨g, n, e, hq⟩ := h.1 q
  by_cases hr : q = r
  · subst hr
    exact ⟨g, n, e, by simp [State.withJob, hq]⟩
  · exact ⟨g, n, e, by simp [State.withJob, hr, hq]⟩

theorem modRoom_job {s : State} {r : Nat} {j : Job} (g : Job → Job) (h : (s.room r).job = some j) :
    (s.modRoom r fun x => { x with job := x.job.map g }) = s.withJob r (g j) := by
  simp [State.modRoom, State.withJob, h]

/-- A core's context past its STEP_BARRIER and at the barrier, the job not yet joined. -/
def State.reachBarrier (s : State) (core : Nat) (n : Next) : State :=
  ((s.passWord core n).modCtx core n.room fun x => x.joins s.now).refresh core

theorem CoreStep.reachBarrier (s : State) (core : Nat) (n : Next) : CoreStep core s (s.reachBarrier core n) :=
  ((CoreStep.passWord s core n).trans (.modCtx _ _ _ _)).trans (Quiet.refresh _ core).coreStep

theorem CoreBecomes.reachBarrier {s : State} {core : Nat} {n : Next} (h : s.nextWord core = some n) :
    CoreBecomes s (s.reachBarrier core n) core n.room ((n.ctx.advance n.len).joins s.now) (s.core core).store :=
  ((CoreBecomes.passWord h).modCtx (g := fun x => x.joins s.now) fun _ => rfl).quiet (Quiet.refresh _ core)

theorem exec_stepBarrier_next {s : State} {core : Nat} {n : Next} {w : SyncWord} {j : Job} (hn : s.nextWord core = some n) (hw : n.word = .sync w)
    (h : w.op = 0) (hj : (s.room n.room).job = some j) :
    exec (.stepBarrier core) s = .next ((s.reachBarrier core n).withJob n.room (j.withJoin core s.now)) := by
  have booked := (CoreStep.reachBarrier s core n).booked
  obtain ⟨g, k, e, hroom⟩ := booked.1 n.room
  rw [← modRoom_job (fun j => j.withJoin core s.now) (by rw [hroom]; exact hj), ← Booked.now booked]
  simp only [exec, execStepBarrier, hn, hw, h, ne_eq, not_true_eq_false, if_false]
  rfl

/-! ## SET (R94) -/

theorem exec_set_next {s : State} {core : Nat} {n : Next} {w : SyncWord} (hn : s.nextWord core = some n) (hw : n.word = .sync w) (h : w.op = 1) :
    exec (.set core) s = .next (((s.passWord core n).postCounter n.room w.peer w.ctr w.value 0).refresh core) := by
  simp [exec, execSet, hn, hw, h]

/-! ## SYNC_WAIT (R94, R424) -/

/-- A context whose counter has given what its WAIT subtracts. -/
def Ctx.taken (x : Ctx) (ctr left : Nat) : Ctx := { x with
  sync := tset x.sync ctr left
  waitAt := none }

theorem exec_syncWait_held {s : State} {core : Nat} {n : Next} {w : SyncWord} (hn : s.nextWord core = some n) (hw : n.word = .sync w) (h : w.op = 2)
    (hv : w.value ≤ tget 0 n.ctx.sync w.ctr) : exec (.syncWait core) s = .next ((((s.passWord core n).waited core n.room w.ctr n.ctx).modCtx core n.room
      fun x => x.taken w.ctr (tget 0 n.ctx.sync w.ctr - w.value)).refresh core) := by
  simp only [exec, execSyncWait, hn, hw, h, hv, and_self, if_true]
  rfl

theorem exec_syncWait_short {s : State} {core : Nat} {n : Next} {w : SyncWord} (hn : s.nextWord core = some n) (hw : n.word = .sync w) (h : w.op = 2)
    (hv : tget 0 n.ctx.sync w.ctr < w.value) : exec (.syncWait core) s =
      .next (s.modCtx core n.room fun x => { x with waitAt := some (x.waitAt.getD s.now) }) := by
  simp only [exec, execSyncWait, hn, hw, h, Nat.not_le.mpr hv, and_false, if_true, if_false]

/-- A satisfied WAIT's stall is accounting. -/
theorem Quiet.waited (s : State) (core r ctr : Nat) (x : Ctx) : Quiet core s (s.waited core r ctr x) := by
  unfold State.waited
  dsimp only
  refine .ite (.refl core s) ?_
  exact (((Quiet.stall core s _ _ _).trans (.stall core _ _ _ _)).trans (.chargeCore core _ _ _ _)).trans (.setCore _ core _ rfl rfl rfl rfl rfl)

/-- Settles O18: each SYNC word passes its word or stays, with its one effect on a context, a peer's counter or the job. -/
theorem syncWordsJoinCountAndWait : Obligations.SyncWordsJoinCountAndWait := by
  unfold Obligations.SyncWordsJoinCountAndWait
  intro s core n w j hn hw hj
  have passed := CoreBecomes.passWord hn
  have pass := CoreStep.passWord s core n
  refine ⟨fun h => ?barrier, exec_set_next hn hw, fun h y hlt hpeer hy => ?set, fun h hv => ?held, fun h hv => ?short⟩
  case barrier =>
    have step := CoreStep.reachBarrier s core n
    have stands := CoreBecomes.reachBarrier hn
    have run := exec_stepBarrier_next hn hw h hj
    generalize s.reachBarrier core n = v at step stands run
    have done := stands.elsewhere (u := v.withJob n.room (j.withJoin core s.now)) rfl
    exact ⟨_, j.withJoin core s.now, run, done.ctx, by simp [State.withJob], (Job.mem_withJoin ..).mpr (.inl rfl),
      Job.mem_withJoin j core s.now, rfl, rfl, done.rest, done.store, done.banks, step.other, Booked.withJob step.booked n.room _⟩
  case set =>
    have run := exec_set_next hn hw h
    have held := CoreBecomes.refl (s := s.passWord core n) (by rw [pass.other _ hpeer]; exact hy)
    have posted := held.postCounter w.ctr w.value (by omega)
    have post := CoreStep.postCounter (s.passWord core n) (core := w.peer) n.room w.ctr w.value (by omega)
    have noted := Quiet.refresh ((s.passWord core n).postCounter n.room w.peer w.ctr w.value 0) core
    refine ⟨_, run, ?_, ?_, fun c hc hcp => ?_, ?_⟩
    · exact (posted.elsewhere (noted.other _ hpeer)).ctx
    · exact ((passed.elsewhere (post.other _ hpeer.symm)).quiet noted).ctx
    · rw [noted.other c hc, post.other c hcp, pass.other c hc]
    · exact Booked.trans (Booked.trans pass.booked post.booked) noted.booked
  case held =>
    have waited := Quiet.waited (s.passWord core n) core n.room w.ctr n.ctx
    have passed := passed.quiet waited
    have pass := pass.trans waited.coreStep
    have done := (passed.modCtx (g := fun x => x.taken w.ctr (tget 0 n.ctx.sync w.ctr - w.value)) fun _ => rfl).quiet (Quiet.refresh _ core)
    have step := (pass.trans (.modCtx _ core n.room fun x => x.taken w.ctr (tget 0 n.ctx.sync w.ctr - w.value))).trans (Quiet.refresh _ core).coreStep
    refine ⟨_, exec_syncWait_held hn hw h hv, ?_, done.rest, step.other, step.booked⟩
    rw [done.ctx, Ctx.taken, Ctx.advance_sync]
  case short => rw [exec_syncWait_short hn hw h hv, State.modCtx_of _ (nextWord_ctx hn)]

end Sys2Proof.Machine
end

section
/-! PROOFS. Decode batches, window fills, page moves and snapshot copies (R139, R142, R237, R260, R268, R273, R274, R278, R282, R348). -/

namespace Sys2Proof.Machine

open Sys2Proof Sys2Proof.Obl

/-! ## Decode batches (R139, R140, R142, R348) -/

/-- Work on a stack's bench units that choose the room is done on the state in which they do. -/
theorem onBench_served {s z : State} {r site : Nat} (work : State → State) (h : s.serve (arbBench site) true (s.benchReady site) r = some z) :
    s.onBench r site work = (work z).settle (arbBench site) ((work z).benchReady site) := by
  simp only [State.onBench, h]

/-- The end of a service is the arbiter's own note: a state reached with it is the state without it, up to the shares. -/
theorem runsTo_settle {o : Host.Outcome State Fault Refusal} {u : State} {arb : Nat} {ready : List Nat} (h : o = .next (u.settle arb ready)) :
    RunsTo o u := ⟨_, h, rfl⟩

/-- A batch taken from its view's queue and running, on the state in which the bench units chose its room. -/
def batchTaken (z : State) (room view : Nat) (rest : List (Nat × Nat)) : State :=
  z.modView room view fun x => { x with queue := rest, running := true, code := none }

/-- What a batch leaves that has written its sequences and will end with a code or without one: heat and charges of its pages, and its time. -/
def batchDone (y u : State) (room view : Nat) (v : ViewRec) (b : Nat × Nat) (c : Option Nat) : State :=
  (((u.touchPages room v (sharedPages (y.pageUses room view v b.1 b.2))).modView room view fun x => { x with code := c }).chargeBench room
    (y.batchTimes room v (y.pageUses room view v b.1 b.2) b.2)).charge room 6 1500

/-- What the work of a batch comes to: its fault at the view's stack, or the batch done. -/
def batchOutcome (y : State) (room view : Nat) (x : ViewSt) (b : Nat × Nat) : State :=
  match y.decodeSeqs room view x b.2 b.1 none with
  | .error e => y.raiseFault room e (136 + y.stackOf room view)
  | .ok (u, c) => batchDone y u room view (ViewRec.ofNat x.raw) b c

/-- Where the bench units choose its room, DECODE_BATCH does the work of the view's oldest batch. -/
theorem decodeBatch_served {s z : State} {room view : Nat} {b : Nat × Nat} {l : List (Nat × Nat)} (hrun : (s.room room).running = true)
    (hqueue : (s.viewOf room view).queue = b :: l) (hidle : (s.viewOf room view).running = false)
    (hserve : s.serve (arbBench (s.stackOf room view)) true (s.benchReady (s.stackOf room view)) room = some z) :
    RunsTo (exec (.decodeBatch room view) s) (batchOutcome (batchTaken z room view l) room view (s.viewOf room view) b) := by
  apply runsTo_settle
  simp only [exec, execDecodeBatch, hqueue, hidle, hrun, Bool.not_true, Bool.or_self, Bool.false_eq_true, if_false, onBench_served _ hserve]
  rfl

/-- A view whose batch has ended, its counter posted. -/
def batchEnded (s : State) (room view : Nat) : State :=
  (s.modView room view fun x => { x with running := false, code := none }).postCounter room (ViewRec.ofNat (s.viewOf room view).raw).ctrCore
    (ViewRec.ofNat (s.viewOf room view).raw).ctr 1 engineWait

theorem exec_decodeBatchEnd {s : State} {room view : Nat} (hrun : (s.room room).running = true) (hview : (s.viewOf room view).running = true) :
    exec (.decodeBatchEnd room view) s = .next ((s.viewOf room view).code.elim (batchEnded s room view) fun c =>
      (batchEnded s room view).raiseFault room c (136 + (batchEnded s room view).stackOf room view)) := by
  simp only [exec, execDecodeBatchEnd, hrun, hview, Bool.not_true, Bool.or_self, Bool.false_eq_true, if_false]
  cases (s.viewOf room view).code <;> rfl

/-! ## Window fills (R237, R268) -/

/-- A window's slot filled from a source, zeros behind it, and the fill counted at the window and at its cores. -/
def slotFilled (s : State) (room window : Nat) (w : HaulPlan) (src len dst : Nat) : State :=
  w.cores.foldl (fun t c => t.postCounter room c w.ctr 1 windowSlot)
    (((s.cleanse room dst w.slotBytes).modMem room fun m => { m with
      data := memCopyRange (memZero m.data dst w.slotBytes) src dst len
      windows := tset m.windows window { w with started := w.started + 1 } }).chargeHaul room src len)

section
variable {s : State} {room window src len dst : Nat} {w : HaulPlan} (hrun : (s.room room).running = true)
  (hw : tfind (s.room room).mem.windows window = some w) (hmay : w.mayFill = true) (hlist : w.list ≠ []) (hnext : (src, len, dst) = nextFill window w)
include hrun hw hmay hlist hnext

/-- A fill that may start turns on its source: readable, and clean. -/
theorem exec_windowFill_may : exec (.windowFill room window) s = .next ((s.checkRange room src len false).elim
    (if s.poisoned room src len then s.raiseFault room Code.stackUe (136 + s.stackOf room src) else slotFilled s room window w src len dst)
    fun c => s.raiseFault room c noUnit) := by
  have hempty : w.list.isEmpty = false := by simpa using hlist
  obtain ⟨rfl, rfl, rfl⟩ : src = _ ∧ len = _ ∧ dst = _ := by simpa only [nextFill, Prod.mk.injEq] using hnext
  simp only [exec, execWindowFill, hw, hrun, hmay, hempty, Bool.not_true, Bool.or_self, Bool.false_eq_true, if_false]
  cases s.checkRange room _ _ false <;> rfl

end

/-! ## Page moves (R237, R260) -/

/-- A page switched is a migration more, and no swap yet. -/
theorem switchPage_counts {s : State} {r v : Nat} {p : Page} {m : Moving} (hp : tfind (s.room r).mem.pages v = some p) (hm : p.moving = some m) :
    (s.switchPage r v).migrations = s.migrations + 1 ∧ (s.switchPage r v).swaps = s.swaps := by
  simp only [State.switchPage, hp, hm]
  cases m.dst <;> exact ⟨rfl, rfl⟩

section
variable {s : State} {room page : Nat} {p : Page} {m : Moving} (hp : tfind (s.room room).mem.pages page = some p) (hm : p.moving = some m)
  (hst : (s.room room).st = .committed)
include hp hm hst

theorem migrationSwitch_poisoned {v : Nat}
    (h : ((page :: m.partner.toList).find? fun v => s.poisoned room (v * pageBytes) pageBytes) = some v) :
    exec (.migrationSwitch room page) s = .next ((s.modMem room fun x => x.cancelMove page).raiseFault room Code.stackUe
      (136 + s.stackOf room (v * pageBytes))) := by
  simp [exec, execMigrationSwitch, hp, hm, hst, h]

/-- With no poisoned sector, the page and its partner are switched one after another. -/
theorem migrationSwitch_switches (h : ∀ v ∈ page :: m.partner.toList, s.poisoned room (v * pageBytes) pageBytes = false) {t : State}
    (ht : t = (page :: m.partner.toList).foldl (fun s v => s.switchPage room v) s) :
    exec (.migrationSwitch room page) s = .next { t with swaps := t.swaps + m.partner.toList.length } := by
  have hnone : ((page :: m.partner.toList).find? fun v => s.poisoned room (v * pageBytes) pageBytes) = none :=
    List.find?_eq_none.mpr fun v hv => by simp [h v hv]
  subst ht
  simp [exec, execMigrationSwitch, hp, hm, hst, hnone]

end

/-! ## Snapshot copies (R237, R273, R282) -/

section
variable {s u : State} {copy : CopyDone} {v : Nat} {l : List Nat} {direct : Bool} (hpending : (s.room copy.room).mem.snap.pending = v :: l)
  (hdirect : direct = (s.room copy.room).mem.inHalf copy.cellar.half v) (hu : u = if direct then s.cellarErrs copy.cellar else s)
include hpending hdirect hu

theorem snapshotPageCopied_poisoned (h : u.poisoned copy.room (v * pageBytes) pageBytes = true) :
    exec (.snapshotPageCopied copy) s = .next ((u.cutSnap copy.room).raiseFault copy.room Code.stackUe
      (136 + ((u.room copy.room).mem.upperOf v).elim 0 (·.1))) := by
  subst hdirect hu
  simp only [exec, execSnapshotPageCopied, hpending, h, if_true]

theorem snapshotPageCopied_clean (h : u.poisoned copy.room (v * pageBytes) pageBytes = false) :
    exec (.snapshotPageCopied copy) s = .next (if direct && copy.cellar.bad
      then (u.cutSnap copy.room).raiseFault copy.room Code.cellarUe (cellarUnit copy.cellar.half)
      else (u.modMem copy.room fun m => { m with snap := { m.snap with pending := l } }).chargeHaul copy.room (v * pageBytes) pageBytes) := by
  subst hdirect hu
  simp only [exec, execSnapshotPageCopied, hpending, h, Bool.false_eq_true, if_false]

end

/-- Errors of the cellar counted change no room. -/
theorem cellarErrs_rooms (s : State) (e : CellarRead) : (s.cellarErrs e).rooms = s.rooms :=
  (HealthOnly.corrected s (cellarUnit e.half) (512 + e.package) e.corrected).rooms

/-! ## Snapshots complete and mirrored (R274, R275, R278) -/

/-- A snapshot with its digest, complete. -/
def Snap.sealed (v : Snap) : Snap := { v with digest := v.computeDigest, complete := true }

/-- The snapshots of a room whose copy in a slot is complete and goes to no buddy. -/
def SnapSt.completed (x : SnapSt) (k : Nat) (v : Snap) : SnapSt :=
  { x.setSlot k (some v) with copying := none, newest := some k, released := true, mirroring := none }

/-- On one device a completed copy stands in its slot and in the ledger, and nothing is sent. -/
theorem exec_snapshotComplete_alone {s : State} {room k : Nat} {v : Snap} (hjob : ∀ j, (s.room room).job = some j → j.devices ≤ 1)
    (hcopy : (s.room room).mem.snap.copying = some k) (hslot : (s.room room).mem.snap.slot k = some v) (hpending : (s.room room).mem.snap.pending = []) :
    exec (.snapshotComplete room) s = .next ((s.modMem room fun m => { m with snap := m.snap.completed k v.sealed }).modRoom room fun y =>
      { y with ledger := { y.ledger with snapStep := v.step, snapDigest := v.computeDigest } }) := by
  have hreport : ∀ t : State, (t.room room).job = (s.room room).job → t.reportAgain room = t := fun t h => reportAgain_one t room (h ▸ hjob)
  simp only [exec, execSnapshotComplete, hcopy, hslot, hpending, List.isEmpty_nil, Bool.not_true, Bool.false_eq_true, if_false]
  cases hj : (s.room room).job with
  | none =>
    simp only [Option.all_none, Bool.true_or]
    exact congrArg _ (hreport _ (by simp [State.modMem]))
  | some j =>
    have halone := hjob j hj
    have hfew : ¬ 1 < j.devices := by omega
    simp only [Option.all_some, halone, decide_true, Bool.true_or, if_neg hfew]
    exact congrArg _ (hreport _ (by simp [State.modMem]))

/-- Settles O46: batches, fills, moves and copies, each by what its command does where its work may proceed. -/
theorem batchesFillsMovesAndCopiesProceed : Obligations.BatchesFillsMovesAndCopiesProceed := by
  unfold Obligations.BatchesFillsMovesAndCopiesProceed
  refine ⟨?batch, ?batchEnd, ?fill, ?move, ?copy, ?complete, ?mirror⟩
  case batch =>
    rintro s z y room view _ _ b l hrun hqueue hidle rfl hserve rfl rfl
    have run := decodeBatch_served hrun hqueue hidle hserve
    simp only [batchOutcome, batchTaken] at run
    exact ⟨fun e h => by simpa only [h] using run, fun u c h => by simpa only [h, batchDone] using run⟩
  case batchEnd =>
    rintro s _ room view hrun hview rfl
    rw [exec_decodeBatchEnd hrun hview]
    exact ⟨fun h => by rw [h]; rfl, fun c h => by rw [h]; rfl⟩
  case fill =>
    intro s room window w hrun hw hmay hlist src len dst hnext
    rw [exec_windowFill_may hrun hw hmay hlist hnext]
    exact ⟨fun c h => by rw [h]; rfl, fun h => ⟨fun hp => by rw [h, hp]; rfl, fun hp => by rw [h, hp]; rfl⟩⟩
  case move =>
    intro s room page p m hp hm hst
    refine ⟨fun v h => migrationSwitch_poisoned hp hm hst h, fun hclean => ⟨fun halone => ?alone, fun q p' m' hpartner hne hq hm' => ?swap⟩⟩
    case alone =>
      obtain ⟨hpage, hdata, -⟩ := switchPage_spec s room page p m hp hm
      obtain ⟨hmigrations, hswaps⟩ := switchPage_counts hp hm
      exact ⟨_, migrationSwitch_switches hp hm hst hclean rfl, by simpa [halone] using ⟨hpage, hdata, hmigrations, hswaps⟩⟩
    case swap =>
      have run := migrationSwitch_switches hp hm hst hclean rfl
      obtain ⟨hpage, hdata, hrest⟩ := switchPage_spec s room page p m hp hm
      obtain ⟨hmigrations, hswaps⟩ := switchPage_counts hp hm
      simp only [hpartner, Option.toList_some, List.foldl_cons, List.foldl_nil, List.length_singleton] at run
      generalize s.switchPage room page = t at *
      have hq : tfind (t.room room).mem.pages q = some p' := (hrest q hne).trans hq
      obtain ⟨hpartnerPage, hdata', hrest'⟩ := switchPage_spec t room q p' m' hq hm'
      obtain ⟨hmigrations', hswaps'⟩ := switchPage_counts hq hm'
      exact ⟨_, run, (hrest' page hne.symm).trans hpage, hpartnerPage, hdata'.trans hdata, by simp only [hmigrations', hmigrations], by
        simp only [hswaps', hswaps]⟩
  case copy =>
    intro s u copy v l direct hpending hdirect hu
    have hrooms : u.rooms = s.rooms := by
      rw [hu]
      cases direct with
      | false => rfl
      | true => exact cellarErrs_rooms s copy.cellar
    refine ⟨fun h => ?_, fun h => ?_⟩
    · rw [snapshotPageCopied_poisoned hpending hdirect hu h, room_of_rooms hrooms]
    · rw [snapshotPageCopied_clean hpending hdirect hu h]
      exact ⟨fun hd hbad => by simp [hd, hbad], fun hgood => by rw [if_neg (by rcases hgood with h | h <;> simp [h])]⟩
  case complete =>
    intro s room k v hjob hcopy hslot hpending
    refine ⟨_, exec_snapshotComplete_alone hjob hcopy hslot hpending, ?_, ?_, ?_, ?_, ?_, ?_, rfl⟩
    all_goals simp only [State.modMem, modRoom_self]
    · exact slot_setSlot _ k _
    all_goals rfl
  case mirror =>
    intro s room k n v hm hslot
    constructor
    · simp [exec, execMirrorAck, hm, hslot]
    · intro hn
      simp [exec, execMirrorAck, hm, hslot, hn]

end Sys2Proof.Machine
end

section
/-! PROOFS. What a job fault leaves of the page tables, and what moves between the tiers leave of a page (R252, R254, R258, R260, R427). -/

namespace Sys2Proof.Machine

open Sys2Proof Sys2Proof.Obl

/-! ## Page tables under a job fault (R427, R496) -/

/-- Every room's page table is as it was. -/
structure SamePages (s t : State) : Prop where
  pages : ∀ r, (t.room r).mem.pages = (s.room r).mem.pages

theorem SamePages.refl (s : State) : SamePages s s := ⟨fun _ => rfl⟩

theorem SamePages.trans {s t u : State} (h : SamePages s t) (g : SamePages t u) : SamePages s u := ⟨fun r => (g.pages r).trans (h.pages r)⟩

theorem SamePages.of_rooms {s t : State} (h : t.rooms = s.rooms) : SamePages s t := ⟨fun r => by rw [room_of_rooms h]⟩

theorem SamePages.of_booked {s t : State} (h : Booked s t) : SamePages s t := ⟨fun r => by
  obtain ⟨_, _, _, e⟩ := h.1 r
  rw [e]⟩

theorem SamePages.of_posts {s t : State} (h : Posts s t) : SamePages s t := ⟨fun r => by
  obtain ⟨_, _, e⟩ := h.rooms r
  rw [e]⟩

theorem SamePages.modRoom (s : State) (r : Nat) (f : Room → Room) (h : ∀ x, (f x).mem.pages = x.mem.pages := by exact fun _ => rfl) :
    SamePages s (s.modRoom r f) := by
  refine ⟨fun q => ?_⟩
  by_cases e : q = r
  · rw [e, modRoom_self, h]
  · rw [modRoom_ne _ _ e]

theorem SamePages.foldl {α : Type} (f : State → α → State) (l : List α) (h : ∀ s a, SamePages s (f s a)) (s : State) : SamePages s (l.foldl f s) :=
  foldl_inv (P := SamePages) f l .refl (fun _ _ _ => .trans) h s

theorem SamePages.cutEngines (s : State) (r : Nat) : SamePages s (s.cutEngines r) := by
  refine ⟨fun q => ?_⟩
  by_cases e : q = r
  · subst e
    simp [State.cutEngines, State.room, State.modRoom, State.setRoom]
  · rw [cutEngines_ne s e]

theorem SamePages.cutSnap (s : State) (r : Nat) : SamePages s (s.cutSnap r) := by
  unfold State.cutSnap State.modMem
  exact .modRoom s r _

theorem SamePages.dropWaiters (s : State) (r : Nat) : SamePages s (s.dropWaiters r) := by
  unfold State.dropWaiters
  dsimp only
  refine .trans ?_ (.modRoom _ r _)
  split
  · exact .of_rooms rfl
  · exact .refl s

theorem SamePages.ctrlSend (s : State) (hop far ctype cjob cinc : Nat) (cseq : Option Nat) (body : List Byte) :
    SamePages s (s.ctrlSend hop far ctype cjob cinc cseq body) := by
  obtain ⟨_, _, e⟩ := ctrlSend_spec s hop far ctype cjob cinc cseq body
  exact .of_rooms (by rw [e])

theorem SamePages.latch (s : State) (r code unit : Nat) (j : Job) : SamePages s (s.latch r code unit j) := by
  have record : SamePages s (((s.modRoom r fun x => { x with
      fault := some ⟨s.now, code, unit, j.incarn⟩
      job := some { j with faulted := true } }).charge r 2 1).healthRecord 6 code unit r j.incarn) :=
    (SamePages.modRoom s r _).trans ((SamePages.of_booked (Booked.charge _ r 2 1)).trans (.of_rooms rfl))
  exact ((record.trans (.of_booked (freeCores_booked _ r))).trans (.cutEngines _ r)).trans (.cutSnap _ r)

theorem SamePages.endJob (s : State) (r status detail : Nat) (done : List Done) (last : Option Nat) : SamePages s (s.endJob r status detail done last) := by
  unfold State.endJob
  split
  · exact .refl s
  · have stopped : SamePages s ((s.freeCores r).cutEngines r) := (SamePages.of_booked (freeCores_booked s r)).trans (.cutEngines _ r)
    dsimp only
    refine SamePages.trans ?_ (.of_rooms (passDuties_rooms _))
    refine SamePages.trans ?_ (.of_posts (Posts.complete ..))
    refine SamePages.trans ?_ (.of_posts (Posts.finish ..))
    refine SamePages.trans (SamePages.trans ?_ (.dropWaiters _ r)) (.modRoom _ r _)
    split
    · exact stopped
    · exact stopped.trans (.cutSnap _ r)

theorem SamePages.abortRoom (s : State) (r code : Nat) (last : Option Nat) : SamePages s (s.abortRoom r code last) := by
  unfold State.abortRoom
  split
  · exact .refl s
  · next j _ =>
    have latched : SamePages s (if j.faulted then s else s.latch r code 0xFFFF j) := by
      split
      · exact .refl s
      · exact .latch s r code 0xFFFF j
    dsimp only
    generalize (if j.faulted then s else s.latch r code 0xFFFF j) = u at latched ⊢
    split
    · exact latched.trans (.endJob ..)
    · exact latched.trans (.modRoom u r _)

theorem SamePages.headAbort (s : State) (tag rank code : Nat) : SamePages s (s.headAbort tag rank code) := by
  unfold State.headAbort
  split
  · exact .refl s
  · split
    · exact .of_rooms rfl
    · dsimp only
      refine SamePages.trans (SamePages.trans ?_ (.foldl _ _ (fun u p => ?_) _)) (.foldl _ _ (fun u r => .abortRoom u r code _) _)
      · exact .of_rooms rfl
      · split
        · exact .refl u
        · exact .ctrlSend ..

/-- A job fault leaves every room's page table as it is. -/
theorem SamePages.raiseFault (s : State) (r code unit : Nat) : SamePages s (s.raiseFault r code unit) := by
  unfold State.raiseFault
  dsimp only
  split
  · exact .refl s
  · next j _ =>
    have latched := SamePages.latch s r code unit j
    split
    · exact .refl s
    split
    · exact .modRoom s r _
    split
    · split
      · exact latched.trans (.endJob ..)
      · exact latched
    split
    · exact latched
    split
    · exact latched.trans (.headAbort ..)
    · exact latched.trans (.ctrlSend ..)

/-! ## Pages moved between the tiers (R254, R260) -/

/-- A page's kind: its class and its `attr` field. -/
def RoomMem.kind (m : RoomMem) (v : Nat) : Option (Nat × Nat) := (tfind m.pages v).map fun p => (p.cls, p.attr)

/-- The kind of a room's page. -/
def State.pageKind (s : State) (r v : Nat) : Option (Nat × Nat) := (s.room r).mem.kind v

/-- Every page of a room has its kind as before. -/
structure SameKinds (r : Nat) (s t : State) : Prop where
  kinds : ∀ v, t.pageKind r v = s.pageKind r v

theorem SameKinds.refl (r : Nat) (s : State) : SameKinds r s s := ⟨fun _ => rfl⟩

theorem SameKinds.trans {r : Nat} {s t u : State} (h : SameKinds r s t) (g : SameKinds r t u) : SameKinds r s u :=
  ⟨fun v => (g.kinds v).trans (h.kinds v)⟩

theorem SameKinds.of_pages {s t : State} (r : Nat) (h : SamePages s t) : SameKinds r s t := ⟨fun v => by
  simp only [State.pageKind, RoomMem.kind, h.pages r]⟩

/-- What a move of a page leaves: every other page as it was, and the page's own kind. -/
theorem movePage_pages (s : State) (r v : Nat) (t : Tier) : SameKinds r s (s.movePage r v t) ∧
    ∀ q, q ≠ v → tfind ((s.movePage r v t).room r).mem.pages q = tfind (s.room r).mem.pages q := by
  unfold State.movePage
  split
  · exact ⟨.refl r s, fun _ _ => rfl⟩
  · next p hp =>
    split
    · have fault := SamePages.raiseFault s r Code.stackUe (136 + ((s.room r).mem.upperOf v).elim 0 (·.1))
      exact ⟨.of_pages r fault, fun q _ => by rw [fault.pages r]⟩
    · obtain ⟨hself, -, hrest⟩ := seat_spec s r v p t
      have charged := SamePages.of_booked (Booked.charge (s.seat r v p t) r 9 pageBytes)
      refine ⟨⟨fun q => ?_⟩, fun q hq => (congrArg (tfind · q) (charged.pages r)).trans (hrest q hq)⟩
      refine (congrArg (fun m => (tfind m q).map fun p => (p.cls, p.attr)) (charged.pages r)).trans ?_
      by_cases e : q = v
      · subst e
        simp only [State.pageKind, RoomMem.kind, hself, hp, Option.map_some]
      · simp only [State.pageKind, RoomMem.kind, hrest q e]

theorem SameKinds.movePage (s : State) (r v : Nat) (t : Tier) : SameKinds r s (s.movePage r v t) := (movePage_pages s r v t).1

theorem demote_page_ne (s : State) (r : Nat) (p : Nat × Page) {q : Nat} (h : q ≠ p.1) :
    tfind ((s.demote r p).room r).mem.pages q = tfind (s.room r).mem.pages q := by
  unfold State.demote
  split
  · rfl
  · exact (movePage_pages ..).2 q h

theorem SameKinds.demote (s : State) (r : Nat) (p : Nat × Page) : SameKinds r s (s.demote r p) := by
  unfold State.demote
  split
  · exact .refl r s
  · exact .movePage ..

/-- Demotions to make room leave every page that is no victim. -/
theorem makeRoom_page_ne (r extra : Nat) {q : Nat} (l : List (Nat × Page)) (h : ∀ v ∈ l, v.1 ≠ q) (s : State) :
    tfind ((s.makeRoom r extra l).room r).mem.pages q = tfind (s.room r).mem.pages q := by
  induction l generalizing s with
  | nil => rfl
  | cons v l ih =>
    unfold State.makeRoom
    split
    · rfl
    · exact (ih (fun w hw => h w (List.mem_cons_of_mem _ hw)) _).trans (demote_page_ne s r v (h v List.mem_cons_self).symm)

theorem SameKinds.makeRoom (r extra : Nat) (l : List (Nat × Page)) (s : State) : SameKinds r s (s.makeRoom r extra l) := by
  induction l generalizing s with
  | nil => exact .refl r s
  | cons v l ih =>
    unfold State.makeRoom
    split
    · exact .refl r s
    · exact (SameKinds.demote s r v).trans (ih _)

theorem SameKinds.retier (s : State) (r v : Nat) : SameKinds r s (s.retier r v) := by
  unfold State.retier
  split
  · exact .refl r s
  · dsimp only
    split
    · exact .movePage ..
    · exact .refl r s

end Sys2Proof.Machine
end

section
/-! PROOFS. PLACE_HINT in all its forms and HAUL_PLAN (R134, R193, R228, R251 to R258, R266, R270). -/

namespace Sys2Proof.Machine

open Sys2Proof Sys2Proof.Obl

/-! ## Entries set one after another, and sorted lists -/

/-- A table with an entry set for each member of a list, in its order. -/
def setEach {α β : Type} (key : β → Nat) (val : β → α) (l : List β) (t : Tbl α) : Tbl α := l.foldl (fun t x => tset t (key x) (val x)) t

section
variable {α β : Type} {key : β → Nat} {val : β → α}

/-- The entry of a member's key is that of the last member with the key. -/
theorem tfind_setEach_of_mem (l : List β) {x : β} (h : x ∈ l) (t : Tbl α) :
    ∃ y ∈ l, key y = key x ∧ tfind (setEach key val l t) (key x) = some (val y) := by
  induction l using List.reverseRecOn with
  | nil => cases h
  | append_singleton l a ih =>
    have hlast : setEach key val (l ++ [a]) t = tset (setEach key val l t) (key a) (val a) := by simp [setEach]
    rw [hlast]
    by_cases e : key x = key a
    · exact ⟨a, by simp, e.symm, by rw [e, tfind_tset_self]⟩
    · have hx : x ∈ l := (List.mem_append.mp h).resolve_right fun hx => e (congrArg key (List.mem_singleton.mp hx))
      obtain ⟨y, hy, hk, hfind⟩ := ih hx
      exact ⟨y, List.mem_append_left _ hy, hk, by rw [tfind_tset_ne _ _ e, hfind]⟩

theorem all_setEach {P : Nat → α → Prop} (l : List β) {t : Tbl α} (h : ∀ p ∈ t, P p.1 p.2) (hl : ∀ x ∈ l, P (key x) (val x)) :
    ∀ p ∈ setEach key val l t, P p.1 p.2 := by
  induction l generalizing t with
  | nil => exact h
  | cons x l ih => exact ih (all_tset h (hl x List.mem_cons_self)) fun y hy => hl y (List.mem_cons_of_mem _ hy)

end

theorem mem_insertBy {α : Type} {key : α → Nat} {x y : α} {l : List α} : y ∈ insertBy key x l ↔ y = x ∨ y ∈ l := by
  induction l with
  | nil => simp [insertBy]
  | cons z l ih =>
    unfold insertBy
    split
    · simp
    · simp only [List.mem_cons, ih]
      tauto

theorem mem_sortBy {α : Type} {key : α → Nat} {y : α} {l : List α} : y ∈ sortBy key l ↔ y ∈ l := by
  have hfold : ∀ (l acc : List α), y ∈ l.foldl (fun acc x => insertBy key x acc) acc ↔ y ∈ acc ∨ y ∈ l := by
    intro l
    induction l with
    | nil => simp
    | cons x l ih =>
      intro acc
      simp only [List.foldl_cons, ih, mem_insertBy, List.mem_cons]
      tauto
  simpa [sortBy] using hfold l []

theorem mem_span {a n k : Nat} : k ∈ span a n ↔ a ≤ k ∧ k < a + n := by
  simp only [span, List.mem_map, List.mem_range]
  exact ⟨fun ⟨i, hi, e⟩ => by omega, fun h => ⟨k - a, by omega, by omega⟩⟩

/-- A victim of the upper tier is a mapped page that lies there. -/
theorem victims_upper {m : RoomMem} {v : Nat × Page} (h : v ∈ m.victims) : v ∈ m.pages ∧ v.2.tier.isUpper = true := by
  simp only [RoomMem.victims, List.mem_append, mem_sortBy, List.mem_reverse, List.mem_filter, Bool.and_eq_true] at h
  obtain ⟨hm, ⟨⟨-, hu⟩, -⟩, -⟩ | ⟨hm, ⟨⟨-, hu⟩, -⟩, -⟩ := h <;> exact ⟨hm, hu⟩

/-! ## A hint applied whole, or refused (R251) -/

section
variable {s : State} {ring hint : Nat} {d : Desc} {f : State → Nat → Desc → Except DescErr State} (hd : Hinted s ring hint d)
include hd

theorem hintCmd_ok {u : State} (h : f s (s.ring ring).room d = .ok u) : s.hintCmd ring hint f = u.complete ring d.seq stOk 0 0 0 0 := by
  rw [Hinted] at hd
  simp only [State.hintCmd, hd, h, State.done]

theorem hintCmd_error {e : DescErr} (h : f s (s.ring ring).room d = .error e) : s.hintCmd ring hint f = s.complete ring d.seq e.1 e.2 0 0 0 := by
  rw [Hinted] at hd
  simp only [State.hintCmd, hd, h, State.done]

end

/-- A mapping hint maps pages of its class. -/
theorem exec_mapHint {ring hint cls : Nat} {c : Instr} (s : State) (h : (c, hint, cls, true) ∈ pageHints ring) :
    exec c s = .next (s.hintCmd ring hint fun s r d => s.mapPages r d cls) := by
  simp only [pageHints, List.mem_cons, Prod.mk.injEq, List.not_mem_nil, Bool.true_eq_false, and_false, and_true, or_false] at h
  obtain ⟨rfl, rfl, rfl⟩ | ⟨rfl, rfl, rfl⟩ | ⟨rfl, rfl, rfl⟩ | ⟨rfl, rfl, rfl⟩ := h <;> rfl

/-- A setting hint gives pages its class. -/
theorem exec_setHint {ring hint cls : Nat} {c : Instr} (s : State) (h : (c, hint, cls, false) ∈ pageHints ring) :
    exec c s = .next (s.hintCmd ring hint fun s r d => s.setPages r d cls) := by
  simp only [pageHints, List.mem_cons, Prod.mk.injEq, List.not_mem_nil, Bool.false_eq_true, and_false, and_true, or_false, false_or] at h
  obtain ⟨rfl, rfl, rfl⟩ | ⟨rfl, rfl, rfl⟩ | ⟨rfl, rfl, rfl⟩ | ⟨rfl, rfl, rfl⟩ := h <;> rfl

/-- A range hint registers its range by its own operation. -/
theorem exec_rangeHint {ring hint : Nat} {c : Instr} {f : State → Nat → Desc → Except DescErr State} (s : State) (h : (c, hint, f) ∈ rangeHints ring) :
    exec c s = .next (s.hintCmd ring hint f) := by
  simp only [rangeHints, List.mem_cons, Prod.mk.injEq, List.not_mem_nil, or_false] at h
  obtain ⟨rfl, rfl, rfl⟩ | ⟨rfl, rfl, rfl⟩ | ⟨rfl, rfl, rfl⟩ | ⟨rfl, rfl, rfl⟩ := h <;> rfl

/-! ## Pages mapped (R252, R254, R258) -/

/-- A page just mapped: in the zero state, cold. -/
def freshPage (cls attr : Nat) : Page := ⟨cls, attr, .zero, 0, none⟩

theorem tfind_addPages (m : RoomMem) {v n k : Nat} (cls attr : Nat) (h : v ≤ k ∧ k < v + n) :
    tfind (m.addPages v n cls attr).pages k = some (freshPage cls attr) := by
  obtain ⟨_, -, -, hfind⟩ := tfind_setEach_of_mem (key := id) (val := fun _ => freshPage cls attr) (span v n) (mem_span.mpr h) m.pages
  exact hfind

/-- No page of an unmapped range that is mapped is a victim: it lies in no frame yet. -/
theorem addPages_victims {m : RoomMem} {d : Desc} (cls : Nat) {k : Nat} (hfree : m.anyMapped d.va d.nbytes = false)
    (h : d.firstPage ≤ k ∧ k < d.firstPage + d.pageCount) : ∀ v ∈ (m.addPages d.firstPage d.pageCount cls d.attr).victims, v.1 ≠ k := by
  have hend : d.firstPage + d.pageCount ≤ (d.va + d.nbytes) / pageBytes := Nat.div_add_div_le_add_div ..
  have hold : ∀ p ∈ m.pages, p.1 = k → p.2.tier.isUpper = false := by
    intro p hp e
    have hout : ¬ (d.va / pageBytes ≤ p.1 ∧ p.1 < (d.va + d.nbytes) / pageBytes) := by
      simpa using List.any_eq_false.mp (Bool.or_eq_false_iff.mp hfree).1 p hp
    exact absurd ⟨e ▸ h.1, by omega⟩ hout
  have hall := all_setEach (key := id) (P := fun j (p : Page) => j = k → p.tier.isUpper = false) (span d.firstPage d.pageCount) hold fun _ _ _ =>
    (rfl : (freshPage cls d.attr).tier.isUpper = false)
  intro v hv e
  obtain ⟨hm, hu⟩ := victims_upper hv
  rw [hall v hm e] at hu
  cases hu

section
variable {s : State} {r cls : Nat} {d : Desc} {m : RoomMem} (hm : m = (s.room r).mem)
include hm

theorem mapPages_overlap (h : m.anyMapped d.va d.nbytes = true) : s.mapPages r d cls = .error (stBadDescriptor, Code.memOverlap) := by
  subst hm
  simp [State.mapPages, h]

theorem mapPages_quota (h : m.anyMapped d.va d.nbytes = false)
    (hq : (s.room r).quotaPlus (if cls = 2 then d.pageCount else 0) (if cls = 4 then d.pageCount else 0) d.pageCount = false) :
    s.mapPages r d cls = .error (stResourceExhausted, Code.memQuota) := by
  subst hm
  simp [State.mapPages, h, hq]

/-- Within the quotas the pages are mapped and room is made for them, unless the map runs are too many. -/
theorem mapPages_within {m' : RoomMem} (h : m.anyMapped d.va d.nbytes = false)
    (hq : (s.room r).quotaPlus (if cls = 2 then d.pageCount else 0) (if cls = 4 then d.pageCount else 0) d.pageCount = true)
    (hm' : m' = m.addPages d.firstPage d.pageCount cls d.attr) :
    s.mapPages r d cls = if 65536 < m'.mapRuns then .error (stResourceExhausted, Code.memMaps)
      else .ok ((s.modMem r fun _ => m').makeRoom r 0 m'.victims) := by
  subst hm' hm
  simp only [State.mapPages, h, hq, Bool.not_true, Bool.false_eq_true, if_false, State.modMem, modRoom_self]

end

/-! ## Pages reclassified (R252, R255) -/

theorem tfind_tmap {α : Type} (t : Tbl α) (f : Nat → α → α) (k : Nat) : tfind (tmap t f) k = (tfind t k).map (f k) := by
  induction t with
  | nil => rfl
  | cons p t ih =>
    obtain ⟨j, v⟩ := p
    by_cases e : j = k
    · subst e
      simp [tmap, tfind]
    · simp only [tmap, List.map_cons, tfind, e, if_false]
      exact ih

theorem cancelMove_kind (m : RoomMem) (v k : Nat) : (m.cancelMove v).kind k = m.kind k := by
  simp only [RoomMem.kind, RoomMem.cancelMove, tfind_tmap, Option.map_map]
  congr 1
  funext p
  simp only [Function.comp_apply]
  split <;> rfl

theorem cancelMoves_kind (l : List (Nat × Page)) (m : RoomMem) (k : Nat) : (l.foldl (fun m p => m.cancelMove p.1) m).kind k = m.kind k := by
  induction l generalizing m with
  | nil => rfl
  | cons p l ih => exact (ih _).trans (cancelMove_kind m p.1 k)

/-- A room's memory with pages of it given a kind. -/
def RoomMem.reclassed (m : RoomMem) (ps : Tbl Page) (cls attr : Nat) : RoomMem :=
  { m with pages := ps.foldl (fun t p => tset t p.1 { p.2 with cls := cls, attr := attr }) m.pages }

theorem reclassed_kind (m : RoomMem) (ps : Tbl Page) (cls attr : Nat) {p : Nat × Page} (h : p ∈ ps) :
    (m.reclassed ps cls attr).kind p.1 = some (cls, attr) := by
  obtain ⟨y, -, -, hfind⟩ := tfind_setEach_of_mem (key := Prod.fst) (val := fun p : Nat × Page => { p.2 with cls := cls, attr := attr }) ps h m.pages
  exact congrArg (Option.map fun p => (p.cls, p.attr)) hfind

/-- What a SET leaves that passes its checks: moves of its pages called off, room made, and each page put where its class wants it. -/
def State.reclass (s : State) (r : Nat) (ps : Tbl Page) (m : RoomMem) : State :=
  ps.foldl (fun s p => s.retier r p.1)
    ((s.modMem r fun _ => ps.foldl (fun m p => m.cancelMove p.1) m).makeRoom r 0 (ps.foldl (fun m p => m.cancelMove p.1) m).victims)

theorem SameKinds.retiers (r : Nat) (l : List (Nat × Page)) (s : State) : SameKinds r s (l.foldl (fun s p => s.retier r p.1) s) :=
  foldl_inv (P := SameKinds r) _ l (.refl r) (fun _ _ _ => .trans) (fun u p => .retier u r p.1) s

theorem reclass_kind (s : State) (r : Nat) (ps : Tbl Page) (m : RoomMem) (v : Nat) : (s.reclass r ps m).pageKind r v = m.kind v := by
  have kept := (SameKinds.makeRoom r 0 (ps.foldl (fun m p => m.cancelMove p.1) m).victims
    (s.modMem r fun _ => ps.foldl (fun m p => m.cancelMove p.1) m)).trans (.retiers r ps _)
  refine (kept.kinds v).trans ?_
  rw [State.pageKind, State.modMem, modRoom_self]
  exact cancelMoves_kind ps m v

section
variable {s : State} {r cls : Nat} {d : Desc} {m : RoomMem} (hm : m = (s.room r).mem)
include hm

theorem setPages_pool (h : m.poolPage d.va d.nbytes = true) : s.setPages r d cls = .error (stBadDescriptor, Code.memBusy) := by
  subst hm
  simp [State.setPages, h]

theorem setPages_unmapped (h : m.poolPage d.va d.nbytes = false) (ho : m.allOrdinary d.va d.nbytes = false) :
    s.setPages r d cls = .error (stBadDescriptor, Code.memNotmapped) := by
  subst hm
  simp [State.setPages, h, ho]

theorem setPages_pinned (h : m.poolPage d.va d.nbytes = false) (ho : m.allOrdinary d.va d.nbytes = true)
    (hpin : ∃ p ∈ m.pagesIn d.va d.nbytes, m.pinnedPage p.1 = true) : s.setPages r d cls = .error (stBadDescriptor, Code.memBusy) := by
  subst hm
  have hany : ((s.room r).mem.pagesIn d.va d.nbytes).any (fun p => (s.room r).mem.pinnedPage p.1) = true := by simpa using hpin
  simp only [State.setPages, h, ho, hany, Bool.not_true, Bool.false_eq_true, if_false, if_true]

/-- Ordinary pages, none pinned, are reclassified where quotas and map runs allow. -/
theorem setPages_ordinary {m' : RoomMem} (h : m.poolPage d.va d.nbytes = false) (ho : m.allOrdinary d.va d.nbytes = true)
    (hpin : ∀ p ∈ m.pagesIn d.va d.nbytes, m.pinnedPage p.1 = false) (hm' : m' = m.reclassed (m.pagesIn d.va d.nbytes) cls d.attr) :
    s.setPages r d cls = if !(s.room r).quotaOk m' then .error (stResourceExhausted, Code.memQuota)
      else if 65536 < m'.mapRuns then .error (stResourceExhausted, Code.memMaps) else .ok (s.reclass r (m.pagesIn d.va d.nbytes) m') := by
  subst hm' hm
  have hany : ((s.room r).mem.pagesIn d.va d.nbytes).any (fun p => (s.room r).mem.pinnedPage p.1) = false := by simpa using hpin
  simp only [State.setPages, h, ho, hany, Bool.not_true, Bool.false_eq_true, if_false, State.modMem, modRoom_self, State.reclass]
  rfl

end

/-! ## Special ranges registered (R134, R193, R228, R253) -/

/-- A range registered with frames behind the offsets given, where the stacks have them. -/
def State.backed (s : State) (r : Nat) (d : Desc) (raw : Nat) (os : List Nat) : Option State :=
  ((s.makeRoom r os.length (s.room r).mem.victims).modMem r fun m => ranged m d raw).backPages r d.va os

section
variable {s : State} {r : Nat} {d : Desc} {raw : Nat}

theorem addSpecial_backed {u : State} {exts : List (Nat × Nat)} {os : List Nat} (hos : os = backedPages exts)
    (hq : (s.room r).quotaPlus os.length 0 os.length = true) (hruns : (s.room r).mem.mapRuns < 65536) (h : s.backed r d raw os = some u) :
    s.addSpecial r d raw exts = .ok u := by
  subst hos
  rw [State.backed] at h
  have hfew : ¬ 65536 ≤ (s.room r).mem.mapRuns := by omega
  simp only [State.addSpecial, hq, Bool.not_true, Bool.false_eq_true, if_false, if_neg hfew]
  simp only [ranged] at h
  simp only [h]

theorem mapWindow_free (hfree : (s.room r).mem.anyMapped d.va d.nbytes = false) (hq : (s.room r).quotaPlus d.pageCount 0 d.pageCount = true) :
    s.mapWindow r d = s.addSpecial r d 0 [(0, d.nbytes)] := by
  simp [State.mapWindow, hfree, hq]

theorem withRecord_free {f : State → Nat → Desc → Nat → Except DescErr State} (hfree : (s.room r).mem.anyMapped d.va d.nbytes = false)
    (hraw : s.regRecord r d = .ok raw) : withRecord f s r d = f s r d raw := by
  simp [withRecord, hfree, hraw]

section
variable {ring hint : Nat} {f : State → Nat → Desc → Nat → Except DescErr State} (hd : Hinted s ring hint d)
  (hfree : (s.room (s.ring ring).room).mem.anyMapped d.va d.nbytes = false) (hraw : s.regRecord (s.ring ring).room d = .ok raw)
include hd hfree hraw

theorem hintCmd_registers {u : State} (h : f s (s.ring ring).room d raw = .ok u) :
    s.hintCmd ring hint (withRecord f) = u.complete ring d.seq stOk 0 0 0 0 := hintCmd_ok hd ((withRecord_free hfree hraw).trans h)

theorem hintCmd_refuses {e : DescErr} (h : f s (s.ring ring).room d raw = .error e) :
    s.hintCmd ring hint (withRecord f) = s.complete ring d.seq e.1 e.2 0 0 0 := hintCmd_error hd ((withRecord_free hfree hraw).trans h)

end

/-- A range that holds a mapped page is registered by none of the hints. -/
theorem rangeHint_overlap {ring hint : Nat} {c : Instr} {f : State → Nat → Desc → Except DescErr State} (h : (c, hint, f) ∈ rangeHints ring)
    (hm : (s.room r).mem.anyMapped d.va d.nbytes = true) : f s r d = .error (stBadDescriptor, Code.memOverlap) := by
  simp only [rangeHints, List.mem_cons, Prod.mk.injEq, List.not_mem_nil, or_false] at h
  obtain ⟨-, -, rfl⟩ | ⟨-, -, rfl⟩ | ⟨-, -, rfl⟩ | ⟨-, -, rfl⟩ := h
  · simp [State.mapWindow, hm]
  all_goals simp [withRecord, hm]

/-- The operation of each range hint, by its code. -/
theorem rangeHint_op {ring hint : Nat} {c : Instr} {f : State → Nat → Desc → Except DescErr State} (h : (c, hint, f) ∈ rangeHints ring) :
    (hint = 0x05 → f = State.mapWindow) ∧ (hint = 0x10 → f = withRecord State.addView) ∧ (hint = 0x11 → f = withRecord State.addForest) ∧
      (hint = 0x12 → f = withRecord State.addKernel) := by
  simp only [rangeHints, List.mem_cons, Prod.mk.injEq, List.not_mem_nil, or_false] at h
  obtain ⟨-, rfl, rfl⟩ | ⟨-, rfl, rfl⟩ | ⟨-, rfl, rfl⟩ | ⟨-, rfl, rfl⟩ := h
  · exact ⟨fun _ => rfl, nofun, nofun, nofun⟩
  · exact ⟨nofun, fun _ => rfl, nofun, nofun⟩
  · exact ⟨nofun, nofun, fun _ => rfl, nofun⟩
  · exact ⟨nofun, nofun, nofun, fun _ => rfl⟩

/-! ### Views (R134, R136) -/

/-- The pages of a view's page run (R136): none of a MERGE view, and none where the slots lie in the forest. -/
def ViewRec.pageRun (v : ViewRec) : Nat × Nat :=
  if v.vkind = 3 ∨ v.forest then (0, 0) else (v.seqBase / pageBytes, (v.seqBase + v.runBytes - 1) / pageBytes + 1 - v.seqBase / pageBytes)

/-- The weights that a view copies at its registration (R136): a MERGE or a plain view has none. -/
def ViewRec.weights (v : ViewRec) (data : Memory) (a n : Nat) : Memory :=
  if v.vkind = 3 ∨ v.plain then [] else memMoveBase (memSlice data a n) a 0

/-- A view as it is registered from its record. -/
def ViewRec.registered (v : ViewRec) (data : Memory) (raw : Nat) : ViewSt := { ViewSt.reset with
  raw := raw
  wUk := v.weights data v.wUk v.ukBytes
  wUv := v.weights data v.wUv v.uvBytes
  run := v.pageRun }

theorem registered_merge {v : ViewRec} (data : Memory) (raw : Nat) (h : v.vkind = 3) :
    v.pageRun = (0, 0) ∧ v.registered data raw = { ViewSt.reset with raw := raw } := by
  have hrun : v.pageRun = (0, 0) := if_pos (.inl h)
  have hweights : ∀ a n, v.weights data a n = [] := fun _ _ => if_pos (.inl h)
  refine ⟨hrun, ?_⟩
  rw [ViewRec.registered, hrun, hweights, hweights]
  rfl

theorem registered_plain {v : ViewRec} (data : Memory) (raw : Nat) (hplain : v.plain = true) :
    v.registered data raw = { ViewSt.reset with raw := raw, run := v.pageRun } := by
  have hweights : ∀ a n, v.weights data a n = [] := fun _ _ => if_pos (.inr hplain)
  rw [ViewRec.registered, hweights, hweights]
  rfl

theorem addView_refused {k : Nat} (h : (ViewRec.ofNat raw).check d.va d.nbytes ((s.room r).mem.specials.filter fun x => x.hint = 0x10).length (s.mapped r) = some k) :
    s.addView r d raw = .error (stBadDescriptor, k) := by
  unfold State.addView
  simp only [h]

/-- A view whose record passes stands with its weights, the pages of its run kept in the upper tier. -/
theorem addView_registers {u u' : State} {v : ViewRec} (hv : v = ViewRec.ofNat raw)
    (hcheck : v.check d.va d.nbytes ((s.room r).mem.specials.filter fun x => x.hint = 0x10).length (s.mapped r) = none)
    (hadd : s.addSpecial r d raw v.backed = .ok u)
    (hpin : (u.modMem r fun m => { m with views := tset m.views d.va (v.registered (s.room r).mem.data raw) }).pinUpper r false
      (span v.pageRun.1 v.pageRun.2) (span v.pageRun.1 v.pageRun.2) = some u') : s.addView r d raw = .ok u' := by
  subst hv
  simp only [ViewRec.registered, ViewRec.weights, ViewRec.pageRun] at hpin
  unfold State.addView
  simp only [hcheck, hadd, bind, Except.bind, hpin]

section
variable {u : State} {v : ViewRec} (hv : v = ViewRec.ofNat raw)
  (hcheck : v.check d.va d.nbytes ((s.room r).mem.specials.filter fun x => x.hint = 0x10).length (s.mapped r) = none)
  (hadd : s.addSpecial r d raw v.backed = .ok u)
include hv hcheck hadd

theorem addView_merge (h : v.vkind = 3) : s.addView r d raw =
    .ok (u.modMem r fun m => { m with views := tset m.views d.va { ViewSt.reset with raw := raw } }) := by
  obtain ⟨hrun, hreg⟩ := registered_merge (s.room r).mem.data raw h
  exact addView_registers hv hcheck hadd (by rw [hrun, hreg]; rfl)

theorem addView_plain {u' : State} {run : Nat × Nat} (h : v.vkind ≠ 3) (hplain : v.plain = true) (hforest : v.forest = false)
    (hrun : run = (v.seqBase / pageBytes, (v.seqBase + v.runBytes - 1) / pageBytes + 1 - v.seqBase / pageBytes))
    (hpin : (u.modMem r fun m => { m with views := tset m.views d.va { ViewSt.reset with raw := raw, run := run } }).pinUpper r false
      (span run.1 run.2) (span run.1 run.2) = some u') : s.addView r d raw = .ok u' := by
  have hpages : v.pageRun = run := (if_neg (by simp [h, hforest])).trans hrun.symm
  exact addView_registers hv hcheck hadd (by rw [registered_plain _ raw hplain, hpages]; exact hpin)

end

/-! ### Forests and kernels (R193, R228) -/

theorem addForest_refused {k : Nat} (h : (Forest.new d.va d.nbytes raw).check (decide (0 < (s.room r).bgrant.count))
    ((s.room r).hasCore (Forest.new d.va d.nbytes raw).pilot) (s.room r).forest.isSome = some k) :
    s.addForest r d raw = .error (stBadDescriptor, k) := by
  simp only [State.addForest, h]

theorem addForest_registers {u : State} {f : Forest} (hf : f = Forest.new d.va d.nbytes raw)
    (h : f.check (decide (0 < (s.room r).bgrant.count)) ((s.room r).hasCore f.pilot) (s.room r).forest.isSome = none)
    (hadd : s.addSpecial r d raw [(f.nodeOff, f.nodeBytes), (f.pageOff, f.pageBytes)] = .ok u) :
    s.addForest r d raw = .ok (u.modRoom r fun x => { x with forest := some f }) := by
  subst hf
  simp only [State.addForest, h, hadd]
  rfl

theorem addKernel_registers {u : State} {ws : List Nat} (hmapped : s.mapped r (fld raw 8 8) (64 * fld raw 2 2) = true) (hlen : fld raw 2 2 ≤ 1024)
    (hws : ws = s.kernelWords r raw)
    (h : kernelCheck raw d.va d.nbytes ((s.room r).mem.specials.filter fun y => y.hint = 0x12).length
      (fld raw 4 2 == 0xFFFF || (s.room r).hasCore (fld raw 4 2)) true ws = none) (hadd : s.addSpecial r d raw [] = .ok u) :
    s.addKernel r d raw = .ok (u.modRoom r fun x => { x with kernels := tset x.kernels d.va ⟨raw, ws, [], none⟩ }) := by
  subst hws
  simp only [State.addKernel, hmapped, hlen, decide_true, Bool.and_self, if_true, h, hadd]
  rfl

end

/-! ## CLEAR and UNMAP (R193, R255) -/

theorem clear_missing {s : State} {r : Nat} {d : Desc} (h : ∀ x ∈ (s.room r).mem.specials, ¬ (x.base = d.va ∧ x.bytes = d.nbytes)) :
    s.clear r d = .error (stBadDescriptor, Code.memNotmapped) := by
  have hnone : ((s.room r).mem.specials.find? fun x => x.base = d.va && x.bytes = d.nbytes) = none :=
    List.find?_eq_none.mpr fun x hx => by simpa using h x hx
  simp only [State.clear, hnone]

/-- A registration that has no waiting tree ends. -/
theorem clear_registered {s : State} {r : Nat} {d : Desc} {x : Special}
    (hx : ((s.room r).mem.specials.find? fun x => x.base = d.va && x.bytes = d.nbytes) = some x) (h : x.hint ≠ 0x11 ∨ (s.room r).waitingTrees = []) :
    s.clear r d = .ok (s.dropSpecial r x) := by
  have hnobody : (if x.hint = 0x11 then (s.room r).waitingTrees.foldl (fun s q => s.complete q.1 q.2 stCancelled 0 0 0 0) s else s) = s := by
    split
    · next e => rw [h.resolve_left (absurd e), List.foldl_nil]
    · rfl
  simp only [State.clear, hx, hnobody]

theorem dropSpecial_specials (s : State) (r : Nat) (x : Special) : ∀ z ∈ ((s.dropSpecial r x).room r).mem.specials, z.base ≠ x.base := by
  intro z hz
  rw [State.dropSpecial, modRoom_self] at hz
  simpa using (List.mem_filter.mp hz).2

theorem exec_clear {s : State} {ring : Nat} {d : Desc} (hd : Hinted s ring 0x1F d) (h : s.inTransit (s.ring ring).room d.va d.nbytes = false) :
    exec (.clear ring) s = .next (s.hintCmd ring 0x1F State.clear) := by
  rw [Hinted] at hd
  simp only [exec, execClear, hd, h, Bool.false_eq_true, if_false]

section
variable {s : State} {ring r : Nat} {d : Desc} {m : RoomMem} (hr : r = (s.ring ring).room) (hm : m = (s.room r).mem) (hd : Hinted s ring 0x00 d)
include hr hm hd

/-- UNMAP of a range with a page of the pool is refused. -/
theorem exec_unmap_pool (h : m.poolPage d.va d.nbytes = true) :
    exec (.unmap ring) s = .next (s.complete ring d.seq stBadDescriptor Code.memBusy 0 0 0) := by
  rw [Hinted] at hd
  subst hm hr
  simp only [exec, execUnmap, hd, h, if_true, State.done]

/-- UNMAP of a range with a page that is not ordinary, or not mapped, is refused. -/
theorem exec_unmap_missing (h : m.poolPage d.va d.nbytes = false) (ho : m.allOrdinary d.va d.nbytes = false) :
    exec (.unmap ring) s = .next (s.complete ring d.seq stBadDescriptor Code.memNotmapped 0 0 0) := by
  rw [Hinted] at hd
  subst hm hr
  simp only [exec, execUnmap, hd, h, ho, Bool.not_false, Bool.false_eq_true, if_false, if_true, State.done]

/-- UNMAP of ordinary pages: refused where one is pinned, else waiting for a snapshot copy or a transfer, else done. -/
theorem exec_unmap_ordinary (h : m.poolPage d.va d.nbytes = false) (ho : m.allOrdinary d.va d.nbytes = true) :
    exec (.unmap ring) s = .next (
      if (m.pagesIn d.va d.nbytes).any fun p => m.pinnedPage p.1 then s.complete ring d.seq stBadDescriptor Code.memBusy 0 0 0
      else if m.snap.pending.any fun v => decide (d.firstPage ≤ v) && decide (v < d.firstPage + d.pageCount) then s
      else if s.inTransit r d.va d.nbytes then s else (s.dropPages r d.va d.nbytes).complete ring d.seq stOk 0 0 0 0) := by
  rw [Hinted] at hd
  subst hm hr
  simp only [exec, execUnmap, hd, h, ho, Bool.not_true, Bool.false_eq_true, if_false, State.done]

end

/-! ## HAUL_PLAN (R266, R270) -/

/-- HAUL_PLAN of a window with room for its slots, with a list that keeps R266: refused where a plan is in use, else attached. -/
theorem exec_haulPlan_listed {s : State} {ring r : Nat} {d : Desc} {m : RoomMem} {bs : List Byte} {l : List (Nat × Nat)} {x : Special}
    (hr : r = (s.ring ring).room) (hm : m = (s.room r).mem) (hd : s.canStartOp ring 0x19 anyDesc = some d)
    (hx : (m.specials.find? fun x => x.hint = 5 && x.base = d.fld 8 8) = some x) (hbs : s.readAny r (d.fld 16 8) (16 * d.fld 48 2) = .ok bs)
    (hl : haulEntries bs (d.fld 48 2) (d.fld 24 8) (s.mapped r) = (l, true)) (hroom : pageBytes + d.fld 50 1 * d.fld 24 8 ≤ x.bytes) :
    exec (.haulPlan ring) s = .next (
      if (tfind m.windows x.base).isSome ∧ (s.room r).busy then s.complete ring d.seq stBadDescriptor Code.haulBusy 0 0 0
      else (s.modMem r fun m => { m with
        windows := tset m.windows x.base ⟨d.raw >>> 64, l, d.fld 50 1, d.fld 24 8, d.fld 32 16, d.fld 51 1, 0, []⟩ }).complete ring d.seq stOk 0 0 0 0) := by
  subst hm hr
  simp only [exec, execHaulPlan, hd, hx, if_neg (Nat.not_lt.mpr hroom), hbs, hl, Bool.not_true, Bool.false_eq_true, if_false, State.done]

/-! ## The obligation -/

/-- Settles O31: each form of PLACE_HINT, and HAUL_PLAN, by the check that fails first, or by what it leaves when none does. -/
theorem placeHintsAreOneChange : Obligations.PlaceHintsAreOneChange := by
  unfold Obligations.PlaceHintsAreOneChange
  refine ⟨?map, ?set, ?range, ?clear, ?unmap, ?plan⟩
  case map =>
    rintro s ring hint cls r c d m m' hc hd rfl hm hm'
    rw [exec_mapHint s hc]
    refine ⟨fun h => ?overlap, fun hfree => ⟨fun hq => ?quota, fun hq => ⟨fun h => ?runs, fun h => ?mapped⟩⟩⟩
    case overlap => rw [hintCmd_error hd (mapPages_overlap hm h)]
    case quota => rw [hintCmd_error hd (mapPages_quota hm hfree hq)]
    case runs => rw [hintCmd_error hd ((mapPages_within hm hfree hq hm').trans (if_pos h))]
    case mapped =>
      rw [hintCmd_ok hd ((mapPages_within hm hfree hq hm').trans (if_neg (Nat.not_lt.mpr h)))]
      refine ⟨_, rfl, by subst hm; rfl, fun k hlow hhigh => ?_⟩
      subst hm'
      rw [makeRoom_page_ne _ _ _ (addPages_victims cls hfree ⟨hlow, hhigh⟩), State.modMem, modRoom_self]
      exact tfind_addPages m cls d.attr ⟨hlow, hhigh⟩
  case set =>
    rintro s ring hint cls r c d m m' hc hd rfl hm hm'
    rw [exec_setHint s hc]
    refine ⟨fun h => ?pool, fun hpool => ⟨fun h => ?missing, fun ho => ⟨fun h => ?pinned,
      fun hpin => ⟨fun h => ?quota, fun hq h => ?runs, fun hq h => ?done⟩⟩⟩⟩
    case pool => rw [hintCmd_error hd (setPages_pool hm h)]
    case missing => rw [hintCmd_error hd (setPages_unmapped hm hpool h)]
    case pinned => rw [hintCmd_error hd (setPages_pinned hm hpool ho h)]
    all_goals have run := setPages_ordinary hm hpool ho hpin hm'
    case quota => rw [hintCmd_error hd (run.trans (if_pos (by rw [h]; rfl)))]
    case runs => rw [hintCmd_error hd (run.trans ((if_neg (by rw [hq]; decide)).trans (if_pos h)))]
    case done =>
      rw [hintCmd_ok hd (run.trans ((if_neg (by rw [hq]; decide)).trans (if_neg (Nat.not_lt.mpr h))))]
      refine ⟨_, rfl, fun p hp => ?_⟩
      subst hm'
      exact (reclass_kind s _ _ _ p.1).trans (reclassed_kind m _ cls d.attr hp)
  case range =>
    rintro s ring hint r c f d m hc hd rfl rfl
    obtain ⟨window, view, forest, kernel⟩ := rangeHint_op hc
    rw [exec_rangeHint s hc]
    refine ⟨fun h => by rw [hintCmd_error hd (rangeHint_overlap hc h)], fun e h => by rw [hintCmd_error hd h],
      fun hfree => ⟨?window, fun raw hraw => ?record⟩⟩
    case window =>
      intro os u hhint hos hq hqs hruns hback
      rw [window hhint, hintCmd_ok hd ((mapWindow_free hfree hq).trans (addSpecial_backed hos hqs hruns hback))]
    case record =>
      refine ⟨?viewRefused, ?view, ?forestRefused, ?forest, ?kernel⟩
      case viewRefused =>
        rintro v k hhint rfl h
        rw [view hhint, hintCmd_refuses hd hfree hraw (addView_refused h)]
      case view =>
        rintro v os u hhint hv h hos hq hruns hback
        have hadd := addSpecial_backed hos hq hruns hback
        rw [view hhint]
        constructor
        · intro hmerge
          rw [hintCmd_registers hd hfree hraw (addView_merge hv h hadd hmerge)]
        · intro run u' hkind hplain hforest hrun hpin
          rw [hintCmd_registers hd hfree hraw (addView_plain hv h hadd hkind hplain hforest hrun hpin)]
      case forestRefused =>
        rintro _ k hhint rfl h
        rw [forest hhint, hintCmd_refuses hd hfree hraw (addForest_refused h)]
      case forest =>
        intro f' os u hhint hf h hos hq hruns hback
        rw [forest hhint, hintCmd_registers hd hfree hraw (addForest_registers hf h (addSpecial_backed hos hq hruns hback))]
      case kernel =>
        intro ws hhint hmapped hlen hws h hq hruns
        have hadd := addSpecial_backed (d := d) (raw := raw) (exts := []) rfl hq hruns rfl
        rw [kernel hhint, hintCmd_registers hd hfree hraw (addKernel_registers hmapped hlen hws h hadd)]
        rfl
  case clear =>
    rintro s ring r d m rfl rfl hd htransit
    rw [exec_clear hd htransit]
    exact ⟨fun h => by rw [hintCmd_error hd (clear_missing h)], fun x hx h =>
      ⟨by rw [hintCmd_ok hd (clear_registered hx h)], dropSpecial_specials s _ x⟩⟩
  case unmap =>
    intro s ring r d m hr hm hd
    refine ⟨exec_unmap_pool hr hm hd, exec_unmap_missing hr hm hd, fun hpool ho hpin => ?pinned,
      fun hpool ho hpin => ⟨fun h => ?waits, fun h htransit => ?drops⟩⟩
    all_goals rw [exec_unmap_ordinary hr hm hd hpool ho]
    case pinned => rw [if_pos (by simpa using hpin)]
    case waits => rw [if_neg (by simpa using hpin), if_pos (by simpa using h)]
    case drops =>
      have hcopied := fun v hv (hlow : d.firstPage ≤ v) => (h v hv).resolve_left (Nat.not_lt.mpr hlow)
      rw [if_neg (by simpa using hpin), if_neg (by simpa using hcopied), if_neg (by simp [htransit])]
  case plan =>
    intro s ring r d m bs l x hr hm hd hx hbs hl hroom
    rw [exec_haulPlan_listed hr hm hd hx hbs hl hroom]
    constructor
    · intro h
      rw [if_neg (by rcases h with h | h <;> simp [h]), hm]
      rfl
    · intro hplan hbusy
      rw [if_pos ⟨Option.isSome_iff_ne_none.mpr hplan, hbusy⟩]

end Sys2Proof.Machine
end

section
/-! PROOFS. The forest engine's turns, the commands of the slots, and detected errors of the engine (R199, R200, R203, R207, R209, R210, R212, R215, R216, R347). -/

namespace Sys2Proof.Machine

open Sys2Proof Sys2Proof.Obl

/-! ## Arbiters' notes (R347) -/

/-- A state with other notes of its arbiters: virtual times and who was ready. -/
def State.withShares (s : State) (v : Tbl Nat) (ready : Tbl (List Nat)) : State := { s with sched := { s.sched with vtime := v, ready := ready } }

theorem wakeOn_withShares (s : State) (arb r : Nat) (others : List Nat) : ∃ v, s.wakeOn arb r others = s.withShares v s.sched.ready := by
  cases others with
  | nil => exact ⟨s.sched.vtime, rfl⟩
  | cons q rest => exact ⟨_, rfl⟩

theorem arrive_withShares (s : State) (arb : Nat) (ready : List Nat) : ∃ v, s.arrive arb ready = s.withShares v s.sched.ready := by
  have fold (l : List Nat) : ∀ a : State × List Nat, (∃ v, a.1 = s.withShares v s.sched.ready) → ∃ v, (l.foldl (fun a r =>
      if a.2.contains r then a else (a.1.wakeOn arb r a.2, r :: a.2)) a).1 = s.withShares v s.sched.ready := by
    induction l with
    | nil => exact fun a h => h
    | cons r l ih =>
      rintro ⟨_, others⟩ ⟨v, rfl⟩
      apply ih
      dsimp only
      split
      · exact ⟨v, rfl⟩
      · obtain ⟨w, hw⟩ := wakeOn_withShares (s.withShares v s.sched.ready) arb r others
        exact ⟨w, hw⟩
  exact fold ready _ ⟨s.sched.vtime, rfl⟩

/-- An arbiter's choice changes its own notes alone. -/
theorem serve_upToShares {s v : State} {arb r : Nat} {lcFirst : Bool} {ready : List Nat} (h : s.serve arb lcFirst ready r = some v) :
    UpToShares s v := by
  obtain ⟨w, hw⟩ := arrive_withShares s arb ready
  simp only [State.serve, hw] at h
  split at h
  · cases h
    rfl
  · cases h

theorem upToShares_room {s t : State} (h : UpToShares s t) (r : Nat) : t.room r = s.room r := by rw [h]; rfl

/-! ## A turn at the engine (R199, R347) -/

/-- Work of a room that the forest engine chooses is done on the state in which it does. -/
theorem onForest_served {s v : State} {r : Nat} (work : State → State) (h : s.serve arbForest true s.forestRooms r = some v) :
    s.onForest r work = (work v).settle arbForest (work v).forestRooms := by
  simp only [State.onForest, h]

section
variable {s v : State} {room k : Nat} {f : Forest} {q : FCmd} (hrun : (s.room room).running = true)
  (hserve : s.serve arbForest true s.forestRooms room = some v) (hf : (s.room room).forest = some f) (hq : f.nextCmd k = some q)
include hrun hserve hf hq

/-- A command that the engine serves leaves its queue and runs on the forest with the rest of it. -/
theorem forestCmd_served (run : State → FCmd → Forest → State) :
    RunsTo (.next (s.forestCmd room k run)) (run (cmdTaken v room f q) q { f with queue := dropCmd q f.queue }) := by
  apply runsTo_settle
  simp only [State.forestCmd, hrun, hf, hq, onForest_served _ hserve]
  rfl

end

/-! ## FORK and PRUNE of a slot (R203, R210, R212) -/

theorem exec_treeCmd {room k : Nat} {c : Instr} (s : State) (h : (c, k) ∈ [(Instr.forkCmd room, 1), (.pruneCmd room, 2)]) :
    exec c s = .next (s.treeCmd room k) := by
  simp only [List.mem_cons, Prod.mk.injEq, List.not_mem_nil, or_false] at h
  rcases h with ⟨rfl, rfl⟩ | ⟨rfl, rfl⟩ <;> rfl

/-- The roster of a FORK or PRUNE that R212 stops, with its code, after its time. -/
def State.shortRoster (s : State) (r : Nat) (f : Forest) (a : FArgs) (code : Nat) : State × Option Nat :=
  (s.chargeForest r (24 + ceilDiv (a.rosterBytes (f.leaves a.tree).length) 256)).writeRoster r f a code

/-- How a slot's FORK or PRUNE ends by what it came to: with its counter posted, or with a job fault. -/
def State.treeEnds (t : State) (r : Nat) (f : Forest) (q : FCmd) : FOut → State
  | .done => t.postCmd r q.raw
  | .bad e => t.raiseFault r e q.unit
  | .short e => (t.shortRoster r f (FArgs.ofSlot q.raw) e).2.elim ((t.shortRoster r f (FArgs.ofSlot q.raw) e).1.postCmd r q.raw)
      fun x => (t.shortRoster r f (FArgs.ofSlot q.raw) e).1.raiseFault r x q.unit

section
variable {s t : State} {r k : Nat} {f : Forest} {q : FCmd} {o : FOut}

theorem treeRun_unused (h : slotUnused q.raw = true) : s.treeRun r k q f = s.raiseFault r Code.forestCmd q.unit := by
  simp only [State.treeRun, h, if_true]

theorem treeRun_ends (h : slotUnused q.raw = false)
    (hout : (t, o) = if k = 1 then s.runFork r f (FArgs.ofSlot q.raw) else s.runPrune r f (FArgs.ofSlot q.raw)) :
    s.treeRun r k q f = t.treeEnds r f q o := by
  simp only [State.treeRun, h, ← hout, Bool.false_eq_true, if_false]
  cases o with
  | done => rfl
  | bad e => rfl
  | short e =>
    simp only [State.treeEnds, State.shortRoster]
    rcases State.writeRoster _ r f _ e with ⟨u, _ | x⟩ <;> rfl

end

/-! ## SCORE (R209) and SAMPLE (R207) -/

section
variable {s : State} {r : Nat} {f : Forest} {q : FCmd}

theorem scoreRun_refused {e : Nat} (h : q.scoreCheck f = some e) : s.scoreRun r q f = s.raiseFault r e q.unit := by
  simp only [State.scoreRun, h]

theorem scoreRun_unreadable {e : Nat} (h : q.scoreCheck f = none) (hread : s.readAny r (q.f 24 8) (8 * q.f 16 4) = .error e) :
    s.scoreRun r q f = s.raiseFault r e q.unit := by
  simp only [State.scoreRun, h, hread]

/-- The engine cycles of a SCORE: per die, a leaf in half a cycle (Table 8.6). -/
def FCmd.scoreTime (q : FCmd) (f : Forest) : Nat :=
  24 + Nat.max (ceilDiv ((q.leaves f).filter fun b => b / 131072 = 0).length 2) (ceilDiv ((q.leaves f).filter fun b => b / 131072 = 1).length 2)

theorem scoreRun_scores {pairs : List Byte} (h : q.scoreCheck f = none) (hread : s.readAny r (q.f 24 8) (8 * q.f 16 4) = .ok pairs) :
    s.scoreRun r q f = ((s.modRoom r fun x => { x with
      forest := some ((q.leaves f).zipIdx.foldl (Forest.scoreLeaf (bit (q.f 1 1) 3) (q.f 44 4) pairs) f) }).chargeForest r (q.scoreTime f)).postCmd r q.raw := by
  simp only [State.scoreRun, h, hread]
  rfl

theorem sampleRun_refused {e : Nat} (h : q.sampleCheck f = some e) : s.sampleRun r q f = s.raiseFault r e q.unit := by
  simp only [State.sampleRun, h]

/-- The tokens of a SAMPLE drawn and written, leaf by leaf, up to the first access that fails. -/
def State.sampled (s : State) (r : Nat) (q : FCmd) (f : Forest) (seed : Nat) : State × Option Nat :=
  ((q.leaves f).zipIdx.flatMap fun b => (List.range (q.f 10 2)).map fun j => (b.2, b.1, j)).foldl
    (State.sampleToken r q seed (f.cycle (q.f 4 2))) (s, none)

theorem sampleRun_sampled {u : State × Option Nat} (h : q.sampleCheck f = none) (hu : u = s.sampled r q f (s.room r).seedOf) :
    s.sampleRun r q f = u.2.elim ((u.1.chargeForest r (q.sampleTime (q.leaves f))).postCmd r q.raw) fun e => u.1.raiseFault r e q.unit := by
  rw [State.sampled] at hu
  simp only [State.sampleRun, h, ← hu]
  obtain ⟨t, _ | e⟩ := u <;> rfl

end

/-- The seed of a room whose command the engine takes is the one that its incarnation had. -/
theorem cmdTaken_seedOf {s v : State} (h : UpToShares s v) (room : Nat) (f : Forest) (q : FCmd) :
    ((cmdTaken v room f q).room room).seedOf = (s.room room).seedOf := by
  rw [cmdTaken, State.setRoom_room, ← upToShares_room h]
  rfl

/-! ## Detected errors of the engine (R216) -/

/-- An error of the sampler counted at its engine, and among those of the incarnation. -/
def samplerCounted (s : State) (room die : Nat) (f : Forest) : State :=
  (s.count (158 + die) 2 1).setRoom room { s.room room with forest := some { f with errs := tset f.errs die (tget 0 f.errs die + 1) } }

theorem samplerError_idle {s : State} {room : Nat} (die : Nat) (h : (s.room room).running = false) : s.samplerError room die = s := by
  simp only [State.samplerError, h]
  cases (s.room room).forest <;> rfl

theorem samplerError_running {s : State} {room : Nat} {f : Forest} (die : Nat) (hrun : (s.room room).running = true)
    (hf : (s.room room).forest = some f) : s.samplerError room die = if 2 ≤ tget 0 f.errs die + 1
      then (samplerCounted s room die f).raiseFault room Code.forestCheck (158 + die) else samplerCounted s room die f := by
  simp only [State.samplerError, hrun, hf, Bool.not_true, Bool.false_eq_true, if_false]
  rfl

/-- Settles O44: each command runs on the state in which the engine takes it from its queue, and the arbiter's notes apart its end is the outcome. -/
theorem forestCommandsRunFromTheirQueue : Obligations.ForestCommandsRunFromTheirQueue := by
  unfold Obligations.ForestCommandsRunFromTheirQueue
  refine ⟨?tree, ?score, ?sample, ?errors⟩
  case tree =>
    rintro s t v room k c f _ q o hc hrun hserve hf hq rfl
    have taken := forestCmd_served hrun hserve hf hq (State.treeRun room k)
    rw [exec_treeCmd s hc]
    refine ⟨fun h => treeRun_unused h ▸ taken, fun h hout => ?_⟩
    have ends : RunsTo (.next (s.treeCmd room k)) (t.treeEnds room _ q o) := treeRun_ends h hout ▸ taken
    refine ⟨fun ho => ?done, fun e ho => ?bad, fun e u ho hu => ⟨fun hnone => ?posted, fun x hx => ?unwritten⟩⟩
    all_goals subst ho
    case done => exact ends
    case bad => exact ends
    all_goals
      subst hu
      simp only [State.treeEnds, State.shortRoster] at ends
    case posted => rwa [hnone] at ends
    case unwritten => rwa [hx] at ends
  case score =>
    rintro s v room f _ q hrun hserve hf hq rfl
    have taken := forestCmd_served hrun hserve hf hq (State.scoreRun room)
    refine ⟨fun e h => scoreRun_refused h ▸ taken, fun h => ⟨fun e hread => scoreRun_unreadable h hread ▸ taken, fun pairs hread => ?_⟩⟩
    rw [scoreRun_scores h hread] at taken
    exact ⟨_, taken⟩
  case sample =>
    rintro s v room f _ q hrun hserve hf hq rfl
    have taken := forestCmd_served hrun hserve hf hq (State.sampleRun room)
    refine ⟨fun e h => sampleRun_refused h ▸ taken, fun u h hu => ?_⟩
    rw [← cmdTaken_seedOf (serve_upToShares hserve) room f q] at hu
    rw [sampleRun_sampled h hu] at taken
    exact ⟨fun hnone => by rwa [hnone] at taken, fun e he => by rwa [he] at taken⟩
  case errors =>
    refine fun s room die => ⟨rfl, rfl, fun h => congrArg _ (samplerError_idle die h), fun f hrun hf => ⟨_, rfl, fun h => ?first, fun h => ?second⟩⟩
    all_goals refine congrArg Host.Outcome.next ((samplerError_running die hrun hf).trans ?_)
    case first => exact if_neg (by omega)
    case second => exact if_pos (by omega)

end Sys2Proof.Machine
end

section
/-! PROOFS. CANCEL (R201, R290, R312, R319). -/

namespace Sys2Proof.Machine

open Sys2Proof Sys2Proof.Obl

/-! ## The target (R319) -/

section
variable {s : State} {t n : Nat}

/-- A ring that takes no descriptors never held the number. -/
theorem cancelTarget_noDescriptors (h : (s.ring t).kind ≠ 1) : s.cancelTarget t n = (2, s) := by
  simp only [State.cancelTarget, if_pos h]

variable (hkind : (s.ring t).kind = 1) (hposted : (s.ring t).available ≤ (s.ring t).depth)
include hkind

section
include hposted
/-- A target posted and not read is noted, unless its slot holds a CANCEL. -/
theorem cancelTarget_posted (h : (n + 2 ^ 32 - (s.ring t).count) % 2 ^ 32 < (s.ring t).available) : s.cancelTarget t n =
    if memNat s.host ((s.ring t).base + 64 * (n % (s.ring t).depth)) 1 = 0x3F then (1, s)
    else (0, s.setRing t { s.ring t with cancelled := n :: (s.ring t).cancelled }) := by
  simp only [State.cancelTarget, hkind, h, hposted, ne_eq, not_true_eq_false, and_self, if_false, if_true]
end

variable (hread : (s.ring t).available ≤ (n + 2 ^ 32 - (s.ring t).count) % 2 ^ 32)
include hread

theorem cancelTarget_neverHeld
    (h : ((s.ring t).count + 2 ^ 32 - n) % 2 ^ 32 = 0 ∨ (s.ring t).depth < ((s.ring t).count + 2 ^ 32 - n) % 2 ^ 32) :
    s.cancelTarget t n = (2, s) := by
  simp only [State.cancelTarget, hkind, Nat.not_lt.mpr hread, h, ne_eq, not_true_eq_false, false_and, if_false, if_true]

variable (hlow : 0 < ((s.ring t).count + 2 ^ 32 - n) % 2 ^ 32) (hhigh : ((s.ring t).count + 2 ^ 32 - n) % 2 ^ 32 ≤ (s.ring t).depth)
include hlow hhigh

theorem cancelTarget_completed (h : ∀ e ∈ (s.ring t).descs, e.seq ≠ n) : s.cancelTarget t n = (1, s) := by
  have hgone : (s.ring t).descs.find? (fun d => d.seq = n) = none := List.find?_eq_none.mpr fun e he => by simpa using h e he
  have hheld : ¬ (((s.ring t).count + 2 ^ 32 - n) % 2 ^ 32 = 0 ∨ (s.ring t).depth < ((s.ring t).count + 2 ^ 32 - n) % 2 ^ 32) := by omega
  simp only [State.cancelTarget, hkind, Nat.not_lt.mpr hread, hheld, hgone, ne_eq, not_true_eq_false, false_and, if_false]

/-- What CANCEL makes of a target that is in intake: one that waits at the forest engine leaves its queue, one that has started stays, and another ends. -/
def State.cancelTaken (s : State) (t n : Nat) (e : Desc) : Nat × State :=
  let r := (s.ring t).room
  if (s.room r).forest.any fun f => f.waits t n then
    (0, (s.modRoom r fun x => { x with forest := x.forest.map fun f => { f with queue := f.queue.filter fun c => c.desc ≠ some (t, n) } }).complete
      t n stCancelled 0 0 0 0)
  else if e.started ∨ e.opcode = 0x3F then (1, s)
  else (0, ((if (s.room r).job.any fun j => j.ring = t && j.seq = n then s.modRoom r fun x => { x with job := none } else s).breakStream t e).complete
    t n stCancelled 0 0 0 0)

theorem cancelTarget_taken {e : Desc} {x y : List Desc} (hdescs : (s.ring t).descs = x ++ e :: y) (he : e.seq = n) (hx : ∀ f ∈ x, f.seq ≠ n) :
    s.cancelTarget t n = s.cancelTaken t n e := by
  have hfind : (s.ring t).descs.find? (fun d => d.seq = n) = some e :=
    List.find?_eq_some_iff_append.mpr ⟨by simpa using he, x, y, hdescs, fun f hf => by simpa using hx f hf⟩
  have hheld : ¬ (((s.ring t).count + 2 ^ 32 - n) % 2 ^ 32 = 0 ∨ (s.ring t).depth < ((s.ring t).count + 2 ^ 32 - n) % 2 ^ 32) := by omega
  simp only [State.cancelTarget, State.cancelTaken, hkind, Nat.not_lt.mpr hread, hheld, hfind, ne_eq, not_true_eq_false, false_and, if_false]

end

section
variable {s : State} {t n : Nat} {e : Desc}

theorem cancelTaken_waiting {f : Forest} (hf : (s.room (s.ring t).room).forest = some f) (h : f.waits t n = true) :
    s.cancelTaken t n e = (0, (s.setRoom (s.ring t).room { s.room (s.ring t).room with forest := some { f with
      queue := f.queue.filter fun c => c.desc ≠ some (t, n) } }).complete t n stCancelled 0 0 0 0) := by
  simp only [State.cancelTaken, hf, Option.any_some, h, if_true, State.modRoom, Option.map_some]

variable (hwait : ((s.room (s.ring t).room).forest.any fun f => f.waits t n) = false)
include hwait

theorem cancelTaken_left (h : e.started = true ∨ e.opcode = 0x3F) : s.cancelTaken t n e = (1, s) := by
  simp only [State.cancelTaken, hwait, h, Bool.false_eq_true, if_false, if_true]

variable (hstart : e.started = false) (hop : e.opcode ≠ 0x3F)
include hstart hop

theorem cancelTaken_ends (h : ∀ j, (s.room (s.ring t).room).job = some j → ¬ (j.ring = t ∧ j.seq = n)) :
    s.cancelTaken t n e = (0, (s.breakStream t e).complete t n stCancelled 0 0 0 0) := by
  have hjob : ((s.room (s.ring t).room).job.any fun j => j.ring = t && j.seq = n) = false := by
    simpa [Option.any_eq_false] using h
  simp only [State.cancelTaken, hwait, hstart, hop, hjob, Bool.false_eq_true, or_self, if_false]

theorem cancelTaken_givesUp {j : Job} (hj : (s.room (s.ring t).room).job = some j) (hring : j.ring = t) (hseq : j.seq = n) :
    s.cancelTaken t n e = (0, ((s.setRoom (s.ring t).room { s.room (s.ring t).room with job := none }).breakStream t e).complete t n stCancelled 0 0 0 0) := by
  have hjob : ((s.room (s.ring t).room).job.any fun j => j.ring = t && j.seq = n) = true := by simp [hj, hring, hseq]
  simp only [State.cancelTaken, hwait, hstart, hop, hjob, Bool.false_eq_true, or_self, if_false, if_true, State.modRoom]

end

/-! ## The CANCEL itself -/

section
variable {s : State} {ring : Nat} {d : Desc} {a b : List Desc} (hkind : (s.ring ring).kind = 1) (hdisabled : (s.ring ring).st ≠ .disabled)
  (hfrozen : (s.ring ring).st ≠ .frozen) (hroom : (s.room (s.ring ring).room).st = .committed) (hserved : s.served (s.ring ring).room = true)
  (hdescs : (s.ring ring).descs = a ++ d :: b) (hop : d.opcode = 0x3F) (hstart : d.started = false)
  (hfirst : ∀ e ∈ a, ¬ (e.opcode = 0x3F ∧ e.started = false))
include hkind hdisabled hfrozen hroom hserved hdescs hop hstart hfirst

/-- The first unstarted CANCEL of a ring in service acts, on the outcome of its target or with no target in its room's grant. -/
theorem exec_cancel_first : exec (.cancel ring) s = .next (
    if d.fld 8 2 < (s.room (s.ring ring).room).ringBase ∨ (s.room (s.ring ring).room).ringBase + (s.room (s.ring ring).room).ringCount ≤ d.fld 8 2
    then s.complete ring d.seq stBadDescriptor Code.descRing 0 0 0
    else (s.cancelTarget (d.fld 8 2) (d.fld 12 4)).2.complete ring d.seq stOk 0 (s.cancelTarget (d.fld 8 2) (d.fld 12 4)).1 0 0) := by
  have hfind : (s.ring ring).descs.find? (fun d => d.opcode = 0x3F && !d.started) = some d :=
    List.find?_eq_some_iff_append.mpr ⟨by simp [hop, hstart], a, b, hdescs, fun e he => by simpa [or_iff_not_imp_left] using hfirst e he⟩
  simp only [exec, execCancel, hkind, hdisabled, hfrozen, hroom, hserved, hfind, ne_eq, not_true_eq_false, Bool.not_true, Bool.false_eq_true, or_self, if_false]
  split <;> rfl

variable (hlow : (s.room (s.ring ring).room).ringBase ≤ d.fld 8 2)
  (hhigh : d.fld 8 2 < (s.room (s.ring ring).room).ringBase + (s.room (s.ring ring).room).ringCount)
include hlow hhigh

theorem exec_cancel_outcome {u : State} {o : Nat} (h : s.cancelTarget (d.fld 8 2) (d.fld 12 4) = (o, u)) :
    exec (.cancel ring) s = .next (u.complete ring d.seq stOk 0 o 0 0) := by
  rw [exec_cancel_first hkind hdisabled hfrozen hroom hserved hdescs hop hstart hfirst, if_neg (by omega), h]

end

/-- Settles O27: CANCEL reports what `cancelTarget` comes to, and that turns on where the target stands. -/
theorem cancelEndsWhatHasNotStarted : Obligations.CancelEndsWhatHasNotStarted := by
  unfold Obligations.CancelEndsWhatHasNotStarted
  rintro s ring r t n d a b hkind hdisabled hfrozen rfl hroom hserved hdescs hop hstart hfirst rfl rfl
  have outcome := @exec_cancel_outcome _ _ _ _ _ hkind hdisabled hfrozen hroom hserved hdescs hop hstart hfirst
  refine ⟨fun h => ?outside, fun hlow hhigh hk => ?notARing, fun hlow hhigh hk hposted => ⟨fun h => ?unread, fun hread => ⟨fun h => ?neverHeld, fun hb hd =>
    ⟨fun e x y hin he hx => ?taken, fun h => ?completed⟩⟩⟩⟩
  case outside => rw [exec_cancel_first hkind hdisabled hfrozen hroom hserved hdescs hop hstart hfirst, if_pos h]
  case notARing => exact outcome hlow hhigh (cancelTarget_noDescriptors hk)
  case unread =>
    have target := cancelTarget_posted hk hposted h
    exact ⟨fun hslot => outcome hlow hhigh (target.trans (if_neg hslot)), fun hslot => outcome hlow hhigh (target.trans (if_pos hslot))⟩
  case neverHeld => exact outcome hlow hhigh (cancelTarget_neverHeld hk hread h)
  case completed => exact outcome hlow hhigh (cancelTarget_completed hk hread hb hd h)
  case taken =>
    have target := cancelTarget_taken hk hread hb hd hin he hx
    refine ⟨fun hwait hstart hop => ⟨fun hj => ?ends, fun j hj hring hseq => ?givesUp⟩, fun f hf hwait => ?waiting, fun hwait h => ?left⟩
    case ends => exact outcome hlow hhigh (target.trans (cancelTaken_ends hwait hstart hop hj))
    case givesUp => exact outcome hlow hhigh (target.trans (cancelTaken_givesUp hwait hstart hop hj hring hseq))
    case waiting => exact outcome hlow hhigh (target.trans (cancelTaken_waiting hf hwait))
    case left => exact outcome hlow hhigh (target.trans (cancelTaken_left hwait h))

end Sys2Proof.Machine
end

section
/-! PROOFS. FORK, PRUNE and BRANCH_READ descriptors (R193, R199, R201 to R204, R210, R212, R347, R465). -/

namespace Sys2Proof.Machine

open Sys2Proof Sys2Proof.Obl

/-! ## A completion beside the arbiters' notes (R321, R347) -/

section
variable (s : State) (v : Tbl Nat) (ready : Tbl (List Nat))

@[simp] theorem withShares_ring (q : Nat) : (s.withShares v ready).ring q = s.ring q := rfl
@[simp] theorem withShares_room (r : Nat) : (s.withShares v ready).room r = s.room r := rfl
@[simp] theorem withShares_msix : (s.withShares v ready).msix = s.msix := rfl
@[simp] theorem withShares_now : (s.withShares v ready).now = s.now := rfl
@[simp] theorem withShares_hostOk (fn a n : Nat) (write : Bool) : (s.withShares v ready).hostOk fn a n write = s.hostOk fn a n write := rfl
@[simp] theorem setRing_withShares (q : Nat) (x : Ring) : (s.withShares v ready).setRing q x = (s.setRing q x).withShares v ready := rfl
@[simp] theorem modRoom_withShares (r : Nat) (f : Room → Room) : (s.withShares v ready).modRoom r f = (s.modRoom r f).withShares v ready := rfl
@[simp] theorem hostPut_withShares (a : Nat) (b : List Byte) : (s.withShares v ready).hostPut a b = (s.hostPut a b).withShares v ready := rfl
@[simp] theorem emit_withShares (m : OutMsg) : (s.withShares v ready).emit m = (s.emit m).withShares v ready := rfl

@[simp] theorem ite_withShares {p : Prop} [Decidable p] (a b : State) :
    (if p then a.withShares v ready else b.withShares v ready) = (if p then a else b).withShares v ready := (apply_ite (State.withShares · v ready) p a b).symm

@[simp] theorem sendMsix_withShares (fn vec : Nat) : (s.withShares v ready).sendMsix fn vec = (s.sendMsix fn vec).withShares v ready := by
  simp only [State.sendMsix, withShares_msix, emit_withShares, ← ite_withShares]
  rfl

@[simp] theorem writeRecord_withShares (cq : Nat) (h : Held) : (s.withShares v ready).writeRecord cq h = (s.writeRecord cq h).withShares v ready := by
  simp only [State.writeRecord, State.countRefused, withShares_ring, withShares_hostOk, setRing_withShares, modRoom_withShares, hostPut_withShares,
    withShares_now, sendMsix_withShares, ite_withShares]
  rfl

@[simp] theorem postHeld_withShares (cq : Nat) (h : Held) : (s.withShares v ready).postHeld cq h = (s.postHeld cq h).withShares v ready := by
  simp [State.postHeld]

/-- A completion neither reads nor changes what the arbiters note. -/
theorem complete_withShares (ring seq status detail result0 result1 aux : Nat) : (s.withShares v ready).complete ring seq status detail result0 result1 aux =
    (s.complete ring seq status detail result0 result1 aux).withShares v ready := by
  simp only [State.complete, State.post, withShares_ring, setRing_withShares, postHeld_withShares]
  cases (s.ring ring).descs.find? fun d => d.seq = seq <;> rfl

end

/-- The end of a service after a completion is that completion with other notes of the arbiters. -/
theorem complete_settle (s : State) (ring seq status detail result0 result1 aux arb : Nat) (rooms : List Nat) : ∃ v ready,
    (s.complete ring seq status detail result0 result1 aux).settle arb rooms = (s.withShares v ready).complete ring seq status detail result0 result1 aux :=
  ⟨_, _, (complete_withShares s _ _ ring seq status detail result0 result1 aux).symm⟩

theorem chargeForest_withShares (s : State) (v : Tbl Nat) (ready : Tbl (List Nat)) (r n : Nat) :
    ∃ w, (s.withShares v ready).chargeForest r n = (s.chargeForest r n).withShares w ready :=
  ⟨((s.withShares v ready).chargeForest r n).sched.vtime, rfl⟩

@[simp] theorem chargeForest_forest (s : State) (r n : Nat) : ((s.chargeForest r n).room r).forest = (s.room r).forest := by
  have h : (s.chargeForest r n).room r = (s.charge r 7 n).room r := rfl
  rw [h, State.charge, State.modLedger, State.modRoom_room]

@[simp] theorem chargeForest_ring (s : State) (r n q : Nat) : (s.chargeForest r n).ring q = s.ring q := rfl

/-! ## FORK and PRUNE handed to the engine (R193, R201) -/

/-- A descriptor that may start is one of its ring's, of the opcode asked for. -/
theorem canStartOp_mem {s : State} {ring op : Nat} {p : Desc → Bool} {d : Desc} (h : s.canStartOp ring op p = some d) :
    d.opcode = op ∧ d ∈ (s.ring ring).descs := by
  unfold State.canStartOp State.canStart at h
  split at h
  · cases h
  · rename_i e he
    split at h
    · rename_i hop
      obtain rfl : e = d := Option.some.inj h
      refine ⟨by simpa using (Bool.and_eq_true_iff.mp hop).1, ?_⟩
      simp only [Option.ite_none_left_eq_some] at he
      obtain ⟨-, he⟩ := he
      split at he
      · cases he
      · rename_i x hx
        obtain rfl : x = e := by simpa using (Option.ite_none_left_eq_some.mp he).2
        exact List.mem_of_find?_eq_some hx
    · cases h

/-- The opcode of FORK or of PRUNE (Table 12.4). -/
def treeOp (fork : Bool) : Nat := if fork then 0x10 else 0x11

theorem exec_treeDesc {ring : Nat} {fork : Bool} {c : Instr} (s : State) (h : (c, fork) ∈ [(Instr.fork ring, true), (.prune ring, false)]) :
    exec c s = .next (s.treeDesc ring (treeOp fork)) := by
  simp only [List.mem_cons, Prod.mk.injEq, List.not_mem_nil, or_false] at h
  rcases h with ⟨rfl, rfl⟩ | ⟨rfl, rfl⟩ <;> rfl

theorem opcode_eq_fork_iff {d : Desc} {fork : Bool} (h : d.opcode = treeOp fork) : d.opcode = 0x10 ↔ fork = true := by
  rw [h]
  cases fork <;> decide

theorem treeRefused_noForest {x : Room} (d : Desc) (h : x.forest = none) : x.treeRefused d = some Code.forestCmd := by
  simp only [Room.treeRefused, h]

/-- The checks of a FORK or PRUNE descriptor in a room with a forest, in their order. -/
theorem treeRefused_forest {x : Room} {f : Forest} {d : Desc} {fork : Bool} (hop : d.opcode = treeOp fork) (h : x.forest = some f) : x.treeRefused d =
    if 8 ≤ d.fld 8 1 ∨ (FArgs.ofDesc d).badCmd f fork = true then some Code.forestCmd
    else if (FArgs.ofDesc d).badParams fork = true then some Code.forestParams
    else if f.pilot ≠ 0xFFFF ∧ x.busy = true then some Code.forestPiloted
    else none := by
  have hrsvd : d.fld 8 1 / 8 ≠ 0 ↔ 8 ≤ d.fld 8 1 := by omega
  simp only [Room.treeRefused, h, opcode_eq_fork_iff hop, Bool.decide_eq_true, hrsvd]

/-- A FORK or PRUNE of a ring as it stands in its room's queue: with its descriptor's name, and no record. -/
def treeCmdOf (ring seq : Nat) : FCmd := ⟨0xFFFF, 0, some (ring, seq)⟩

/-- A FORK or PRUNE descriptor started, behind the commands that its room's queue holds. -/
def State.treeQueued (s : State) (ring : Nat) (d : Desc) (f : Forest) : State :=
  (s.markStarted ring d.seq).modRoom (s.ring ring).room fun x => { x with forest := some { f with queue := f.queue ++ [treeCmdOf ring d.seq] } }

section
variable {s : State} {ring op : Nat} {d : Desc} {f : Forest} (hd : s.canStartOp ring op anyDesc = some d)
include hd

theorem treeDesc_refused {k : Nat} (h : (s.room (s.ring ring).room).treeRefused d = some k) :
    s.treeDesc ring op = s.complete ring d.seq stBadDescriptor k 0 0 0 := by
  simp only [State.treeDesc, hd, h]
  rfl

theorem treeDesc_handed (hf : (s.room (s.ring ring).room).forest = some f) (h : (s.room (s.ring ring).room).treeRefused d = none) :
    s.treeDesc ring op = (s.treeQueued ring d f).startTree ring op := by
  have hforest : ((s.markStarted ring d.seq).room (s.ring ring).room).forest = some f := hf
  simp only [State.treeDesc, hd, h, State.modRoom, hforest, Option.map_some]
  rfl

end

/-! ## The head of the queue (R199, R347) -/

theorem treeQueued_room (s : State) (ring : Nat) (d : Desc) (f : Forest) : ((s.treeQueued ring d f).ring ring).room = (s.ring ring).room := by
  have h : (s.treeQueued ring d f).ring ring = (s.markStarted ring d.seq).ring ring := rfl
  rw [h, State.markStarted, State.modRing_ring]

theorem treeQueued_forest (s : State) (ring : Nat) (d : Desc) (f : Forest) : ((s.treeQueued ring d f).room (s.ring ring).room).forest =
    some { f with queue := f.queue ++ [treeCmdOf ring d.seq] } := by
  rw [State.treeQueued, State.modRoom_room]

/-- The descriptor of its number in a ring, started. -/
theorem find_markStarted {s : State} {ring op : Nat} {d : Desc} (hop : d.opcode = op) (hin : d ∈ (s.ring ring).descs)
    (hone : ∀ e ∈ (s.ring ring).descs, e.seq = d.seq → e = d) :
    ((s.markStarted ring d.seq).ring ring).descs.find? (fun e => e.seq = d.seq && e.opcode = op) = some { d with started := true } := by
  have hseq (e : Desc) : (if e.seq = d.seq then { e with started := true } else e).seq = e.seq := by split <;> rfl
  have hopc (e : Desc) : (if e.seq = d.seq then { e with started := true } else e).opcode = e.opcode := by split <;> rfl
  rw [State.markStarted, State.modRing_ring, List.find?_map]
  simp only [Function.comp_def, hseq, hopc]
  have hfind : (s.ring ring).descs.find? (fun e => e.seq = d.seq && e.opcode = op) = some d := by
    obtain ⟨e, he⟩ := Option.isSome_iff_exists.mp (List.find?_isSome.mpr ⟨d, hin, by simp [hop]⟩ :
      ((s.ring ring).descs.find? (fun e => e.seq = d.seq && e.opcode = op)).isSome = true)
    have hp := List.find?_some he
    rw [he, hone e (List.mem_of_find?_eq_some he) (by simpa using (Bool.and_eq_true_iff.mp hp).1)]
  simp [hfind]

theorem startTree_waits {m : State} {ring : Nat} (op : Nat) {f : Forest} {k : FCmd} {q : List FCmd} (hf : (m.room (m.ring ring).room).forest = some f)
    (hq : f.queue = k :: q) (hk : k.desc = none) : m.startTree ring op = m := by
  simp only [State.startTree, hf, hq, hk, Option.bind_none]

theorem startTree_runs {m v : State} {ring op seq : Nat} {f : Forest} {d : Desc} (hf : (m.room (m.ring ring).room).forest = some f)
    (hq : f.queue = [treeCmdOf ring seq]) (hfind : (m.ring ring).descs.find? (fun d => d.seq = seq && d.opcode = op) = some d)
    (hserve : m.serve arbForest true m.forestRooms (m.ring ring).room = some v) : ∃ rooms, m.startTree ring op =
      (State.treeDescRun (m.ring ring).room ring d { f with queue := [] }
        (v.modRoom (m.ring ring).room fun x => { x with forest := some { f with queue := [] } })).settle arbForest rooms :=
  ⟨_, by simp only [State.startTree, hf, hq, treeCmdOf, Option.bind_some, if_true, hfind, onForest_served _ hserve]; rfl⟩

/-- The state in which a descriptor at the head of an empty queue runs: started, with the forest as it was. -/
def State.treeStarted (s : State) (ring : Nat) (d : Desc) (f : Forest) : State :=
  (s.treeQueued ring d f).modRoom (s.ring ring).room fun x => { x with forest := some f }

theorem treeStarted_ring (s : State) (ring : Nat) (d : Desc) (f : Forest) (q : Nat) : (s.treeStarted ring d f).ring q = (s.treeQueued ring d f).ring q := rfl

theorem treeStarted_bgrant (s : State) (ring : Nat) (d : Desc) (f : Forest) :
    ((s.treeStarted ring d f).room (s.ring ring).room).bgrant = (s.room (s.ring ring).room).bgrant := by
  rw [State.treeStarted, State.modRoom_room, State.treeQueued, State.modRoom_room]
  rfl

/-- A FORK or PRUNE handed over at the head of an empty queue, where the engine serves its room, runs on the forest as it was. -/
theorem startTree_queued {s : State} {ring op : Nat} {d : Desc} {f : Forest} (hop : d.opcode = op) (hin : d ∈ (s.ring ring).descs)
    (hone : ∀ e ∈ (s.ring ring).descs, e.seq = d.seq → e = d) (hq : f.queue = []) (hturn : ForestTurn (s.treeQueued ring d f) (s.ring ring).room) :
    ∃ v ready rooms, (s.treeQueued ring d f).startTree ring op = (State.treeDescRun (s.ring ring).room ring { d with started := true } f
      ((s.treeStarted ring d f).withShares v ready)).settle arbForest rooms := by
  obtain ⟨v, hserve⟩ := Option.isSome_iff_exists.mp hturn
  have hempty : { f with queue := [] } = f := by rw [← hq]
  rw [← treeQueued_room s ring d f] at hserve
  obtain ⟨rooms, hruns⟩ := startTree_runs (m := s.treeQueued ring d f) (by rw [treeQueued_room, treeQueued_forest]) (by rw [hq]; rfl)
    (find_markStarted hop hin hone) hserve
  refine ⟨v.sched.vtime, v.sched.ready, rooms, ?_⟩
  rw [hruns, treeQueued_room, serve_upToShares hserve]
  simp only [hempty]
  rfl

/-! ## What the engine makes of the descriptor (R201, R203, R204, R210, R212) -/

theorem check_code {a : FArgs} {f : Forest} {fork : Bool} {k : Nat} (h : a.check f fork = some k) : k / 256 = 0x08 := by
  unfold FArgs.check at h
  split at h
  · obtain rfl := Option.some.inj h
    rfl
  · split at h
    · obtain rfl := Option.some.inj h
      rfl
    · obtain rfl := Option.some.inj (Option.ite_none_right_eq_some.mp h).2
      rfl

/-- The forest after a FORK: new roots, or its tree's leaves forked (R203, R204). -/
def Forest.grown (f : Forest) (g : BGrant) (a : FArgs) : Forest := if a.newRoot then f.roots g a else f.forked g a

/-- The forest after a PRUNE: the branches that it frees gone, those of die 0 first (R210). -/
def Forest.pruned (f : Forest) (a : FArgs) : Forest :=
  (((f.doomed a).filter fun b => b / 131072 = 1).foldl Forest.freeBranch
    ((((f.doomed a).filter fun b => b / 131072 = 0).foldl Forest.freeBranch (f, 0)).1, 0)).1

section
variable {s : State} {r : Nat} {f : Forest} {a : FArgs} (ha : a.a0 = 0)
include ha

theorem runFork_done (h : a.check f true = none) (hk : f.forkFails (s.room r).bgrant a = none) :
    ∃ n, s.runFork r f a = ((s.modRoom r fun x => { x with forest := some (f.grown (s.room r).bgrant a) }).chargeForest r n, .done) :=
  ⟨_, by simp only [State.runFork, h, hk, State.writeRoster, ha, if_true]; rfl⟩

theorem runPrune_done (h : a.check f false = none) :
    ∃ n, s.runPrune r f a = ((s.modRoom r fun x => { x with forest := some (f.pruned a) }).chargeForest r n, .done) :=
  ⟨_, by simp only [State.runPrune, h, State.writeRoster, ha, if_true]; rfl⟩

end

section
variable {r ring : Nat} {d : Desc} {f : Forest} {y : State}

theorem treeDescRun_short {k : Nat} (hop : d.opcode = 0x10) (h : (FArgs.ofDesc d).check f true = none)
    (hk : f.forkFails (y.room r).bgrant (FArgs.ofDesc d) = some k) :
    State.treeDescRun r ring d f y = (y.chargeForest r 24).complete ring d.seq stResourceExhausted k 0 0 0 := by
  simp only [State.treeDescRun, hop, State.runFork, h, hk, if_true]
  rfl

variable {fork : Bool} (hop : d.opcode = treeOp fork)
include hop

theorem treeDescRun_refused {k : Nat} (h : (FArgs.ofDesc d).check f fork = some k) :
    State.treeDescRun r ring d f y = y.complete ring d.seq stBadDescriptor k 0 0 0 := by
  cases fork
  all_goals
    simp only [State.treeDescRun, opcode_eq_fork_iff hop, State.runFork, State.runPrune, h, check_code h, Bool.false_eq_true, if_false, if_true]
    rfl

/-- A FORK or PRUNE that passes its checks, has its IDs and writes no roster leaves the forest changed and completes with OK. -/
theorem treeDescRun_done (h : (FArgs.ofDesc d).check f fork = none) (hk : fork = true → f.forkFails (y.room r).bgrant (FArgs.ofDesc d) = none)
    (ha : (FArgs.ofDesc d).a0 = 0) : ∃ n, State.treeDescRun r ring d f y =
      ((y.modRoom r fun x => { x with forest := some (if fork then f.grown (y.room r).bgrant (FArgs.ofDesc d) else f.pruned (FArgs.ofDesc d)) }).chargeForest
        r n).complete ring d.seq stOk 0 0 0 0 := by
  cases fork with
  | true =>
    obtain ⟨n, hn⟩ := runFork_done ha h (hk rfl)
    exact ⟨n, by simp only [State.treeDescRun, opcode_eq_fork_iff hop, hn, if_true]; rfl⟩
  | false =>
    obtain ⟨n, hn⟩ := runPrune_done (s := y) (r := r) ha h
    exact ⟨n, by simp only [State.treeDescRun, opcode_eq_fork_iff hop, hn, Bool.false_eq_true, if_false]; rfl⟩

end

/-! ## The commands FORK and PRUNE -/

section
variable {s : State} {ring : Nat} {d : Desc} {f : Forest} {fork : Bool} {c : Instr} (hc : (c, fork) ∈ [(Instr.fork ring, true), (.prune ring, false)])
  (hd : s.canStartOp ring (treeOp fork) anyDesc = some d)
include hc hd

theorem exec_tree_refused {k : Nat} (h : (s.room (s.ring ring).room).treeRefused d = some k) :
    exec c s = .next (s.complete ring d.seq stBadDescriptor k 0 0 0) := by
  rw [exec_treeDesc s hc, treeDesc_refused hd h]

variable (hf : (s.room (s.ring ring).room).forest = some f) (hok : (s.room (s.ring ring).room).treeRefused d = none)
include hf hok

theorem exec_tree_waits {k : FCmd} {q : List FCmd} (hq : f.queue = k :: q) (hk : k.desc = none) : exec c s = .next (s.treeQueued ring d f) := by
  have hforest := treeQueued_forest s ring d f
  rw [← treeQueued_room s ring d f] at hforest
  rw [exec_treeDesc s hc, treeDesc_handed hd hf hok, startTree_waits _ hforest (congrArg (· ++ _) hq) hk]

variable (hone : ∀ e ∈ (s.ring ring).descs, e.seq = d.seq → e = d) (hq : f.queue = []) (hturn : ForestTurn (s.treeQueued ring d f) (s.ring ring).room)
include hone hq hturn

theorem exec_tree_runs : ∃ v ready rooms, exec c s = .next ((State.treeDescRun (s.ring ring).room ring { d with started := true } f
    ((s.treeStarted ring d f).withShares v ready)).settle arbForest rooms) := by
  obtain ⟨hop, hin⟩ := canStartOp_mem hd
  rw [exec_treeDesc s hc, treeDesc_handed hd hf hok]
  obtain ⟨v, ready, rooms, h⟩ := startTree_queued hop hin hone hq hturn
  exact ⟨v, ready, rooms, congrArg _ h⟩

theorem exec_tree_unfit {k : Nat} (h : (FArgs.ofDesc d).check f fork = some k) :
    ∃ t, exec c s = .next t ∧ UpToShares ((s.treeStarted ring d f).complete ring d.seq stBadDescriptor k 0 0 0) t := by
  obtain ⟨v, ready, rooms, hruns⟩ := exec_tree_runs hc hd hf hok hone hq hturn
  refine ⟨_, hruns, ?_⟩
  rw [treeDescRun_refused (d := { d with started := true }) (canStartOp_mem hd).1 h, complete_withShares]
  rfl

theorem exec_tree_short (hfork : fork = true) {k : Nat} (h : (FArgs.ofDesc d).check f fork = none)
    (hk : f.forkFails (s.room (s.ring ring).room).bgrant (FArgs.ofDesc d) = some k) : ∃ t, exec c s = .next t ∧
      UpToShares (((s.treeStarted ring d f).chargeForest (s.ring ring).room 24).complete ring d.seq stResourceExhausted k 0 0 0) t := by
  subst hfork
  obtain ⟨v, ready, rooms, hruns⟩ := exec_tree_runs hc hd hf hok hone hq hturn
  refine ⟨_, hruns, ?_⟩
  obtain ⟨w, hw⟩ := chargeForest_withShares (s.treeStarted ring d f) v ready (s.ring ring).room 24
  rw [treeDescRun_short (d := { d with started := true }) (canStartOp_mem hd).1 h
    (by rw [withShares_room, treeStarted_bgrant]; exact hk), hw, complete_withShares]
  rfl

theorem exec_tree_done (h : (FArgs.ofDesc d).check f fork = none)
    (hk : fork = true → f.forkFails (s.room (s.ring ring).room).bgrant (FArgs.ofDesc d) = none) (ha : (FArgs.ofDesc d).a0 = 0) :
    ∃ u : State, exec c s = .next (u.complete ring d.seq stOk 0 0 0 0) ∧ u.ring ring = (s.treeQueued ring d f).ring ring ∧
      (u.room (s.ring ring).room).forest =
        some (if fork then f.grown (s.room (s.ring ring).room).bgrant (FArgs.ofDesc d) else f.pruned (FArgs.ofDesc d)) := by
  obtain ⟨v, ready, rooms, hruns⟩ := exec_tree_runs hc hd hf hok hone hq hturn
  have hgrant : (((s.treeStarted ring d f).withShares v ready).room (s.ring ring).room).bgrant = (s.room (s.ring ring).room).bgrant :=
    treeStarted_bgrant s ring d f
  obtain ⟨n, hn⟩ := treeDescRun_done (d := { d with started := true }) (ring := ring) (canStartOp_mem hd).1 h (by rwa [hgrant]) ha
  rw [hgrant] at hn
  rw [hn] at hruns
  obtain ⟨w, ready', hend⟩ := complete_settle _ ring d.seq stOk 0 0 0 0 arbForest rooms
  exact ⟨_, hruns.trans (congrArg _ hend),
    by rw [withShares_ring, chargeForest_ring, State.modRoom_ring, withShares_ring, treeStarted_ring], by rw [withShares_room, chargeForest_forest, State.modRoom_room]; rfl⟩

end

/-! ## BRANCH_READ (R202, R465) -/

@[simp] theorem leBytes_length (n v : Nat) : (leBytes n v).length = n := by
  induction n generalizing v with
  | zero => rfl
  | succ n ih => simp [leBytes, ih]

/-- A branch record has 64 bytes (Table 8.1). -/
theorem record_length (f : Forest) (b : Nat) (x : Branch) (dirNo : Nat) : (f.record b x dirNo).length = 64 := by
  simp [Forest.record]

/-- The records that a BRANCH_READ asks for: of the live branches of its span and tree, in order of branch ID, up to its count. -/
def Desc.branchRecords (d : Desc) (f : Forest) : List (List Byte) :=
  (((f.branches.filter fun b => decide (d.fld 12 4 ≤ b.1) && decide (b.1 < d.fld 12 4 + d.fld 16 4) &&
    (d.fld 10 2 == 0xFFFF || b.2.tree == d.fld 10 2)).take (d.fld 20 4)).map fun b => f.record b.1 b.2 0)

theorem branchRecords_length {d : Desc} {f : Forest} : ∀ b ∈ d.branchRecords f, b.length = 64 := by
  intro b hb
  obtain ⟨x, -, rfl⟩ := List.mem_map.mp hb
  exact record_length ..

/-- Records that the host lets the device write lie one after another in its memory, with nothing else changed. -/
theorem putRecords_host (r a : Nat) {recs : List (List Byte)} (hlen : ∀ b ∈ recs, b.length = 64) : ∀ (s : State) (n : Nat),
    (∀ i, n ≤ i → i < n + recs.length → s.hostOk r (a + 64 * i) 64 true = true) → s.putRecords r true a recs n =
      ({ s with host := rowsWritten s.host a ((recs.zipIdx n).map fun p => (64 * p.2, p.1)) }, n + recs.length, none) := by
  induction recs with
  | nil => exact fun s n _ => rfl
  | cons b recs ih =>
    intro s n hok
    rw [List.forall_mem_cons] at hlen
    have hfirst : s.hostOk r (a + 64 * n) b.length true = true := by
      rw [hlen.1]
      exact hok n (Nat.le_refl n) (by simp)
    have hrest := ih hlen.2 (s.hostPut (a + 64 * n) b) (n + 1) fun i hi hl => hok i (by omega) (by rw [List.length_cons]; omega)
    simp only [State.putRecords, State.put, hfirst, if_true, hrest, List.length_cons, Nat.add_right_comm n 1, Nat.add_assoc]
    rfl

section
variable {s : State} {ring : Nat} {d : Desc} (hd : s.canStartOp ring 0x12 anyDesc = some d)
include hd

theorem exec_branchRead_confidential (hconf : (s.room (s.ring ring).room).sec.conf = true) (hhost : d.fld 8 1 = 1) :
    exec (.branchRead ring) s = .next (s.complete ring d.seq stSecurityRefused Code.secConfHost 0 0 0) := by
  simp only [exec, execBranchRead, hd, hconf, hhost, and_self, if_true]
  rfl

/-- BRANCH_READ in a room with a forest writes its records, is charged for those written, and completes as the writing ended. -/
theorem exec_branchRead_writes (hopen : (s.room (s.ring ring).room).sec.conf = false ∨ d.fld 8 1 ≠ 1) {f : Forest}
    (hf : (s.room (s.ring ring).room).forest = some f) {u : State} {n : Nat} {e : Option DescErr}
    (hput : s.putRecords (s.ring ring).room (d.fld 8 1 = 1) (d.fld 24 8) (d.branchRecords f) 0 = (u, n, e)) : exec (.branchRead ring) s =
      .next ((u.chargeForest (s.ring ring).room (24 + ceilDiv (64 * n) 256)).complete ring d.seq ((e.map (·.1)).getD stOk) ((e.map (·.2)).getD 0) n 0 0) := by
  have hc : ¬ ((s.room (s.ring ring).room).sec.conf = true ∧ d.fld 8 1 = 1) := by
    rcases hopen with h | h <;> simp [h]
  rw [Desc.branchRecords] at hput
  simp only [exec, execBranchRead, hd, hc, hf, hput, if_false]
  cases e <;> rfl

end

/-- Settles O30: a descriptor's checks come before its place in the queue, and at the head of an empty queue the engine's outcome is its completion. -/
theorem forestDescriptorsRun : Obligations.ForestDescriptorsRun := by
  unfold Obligations.ForestDescriptorsRun
  constructor
  case left =>
    rintro s ring _ d _ fork c rfl rfl hc hd
    have hop := (canStartOp_mem hd).1
    refine ⟨fun hf => exec_tree_refused hc hd (treeRefused_noForest d hf), fun f hf => ?_⟩
    have checks := treeRefused_forest hop hf
    refine ⟨fun h => ?operand, fun hrsvd hcmd => ⟨fun h => ?params, fun hparams => ⟨fun hpilot hbusy => ?piloted, fun hpilot => ⟨fun k q hq hk => ?waits, ?runs⟩⟩⟩⟩
    case operand => exact exec_tree_refused hc hd (checks.trans (if_pos h))
    all_goals rw [if_neg (by simp [hrsvd, hcmd])] at checks
    case params => exact exec_tree_refused hc hd (checks.trans (if_pos h))
    all_goals rw [if_neg (by simp [hparams])] at checks
    case piloted => exact exec_tree_refused hc hd (checks.trans (if_pos ⟨hpilot, hbusy⟩))
    all_goals rw [if_neg (by rcases hpilot with h | h <;> simp [h])] at checks
    case waits => exact exec_tree_waits hc hd hf checks hq hk
    case runs =>
      rintro m g hm rfl hq hone hturn
      obtain rfl : m = s.treeQueued ring d f := by rw [hm, State.treeQueued, hq]; rfl
      refine ⟨fun k h => exec_tree_unfit hc hd hf checks hone hq hturn h, fun k h hfork hk => exec_tree_short hc hd hf checks hone hq hturn hfork h hk,
        fun h hk ha => ?_⟩
      obtain ⟨u, hrun, hring, hforest⟩ := exec_tree_done hc hd hf checks hone hq hturn h hk ha
      exact ⟨u, hrun, hring, fun hfork => by rw [hforest, if_pos hfork]; rfl, fun hfork => by rw [hforest, if_neg (by simp [hfork])]; rfl⟩
  case right =>
    rintro s ring _ _ d rfl rfl hd
    refine ⟨exec_branchRead_confidential hd, ?_⟩
    intro hopen f recs hf hrecs
    obtain rfl : recs = d.branchRecords f := hrecs
    refine ⟨fun u n e hput => exec_branchRead_writes hd hopen hf hput, fun hhost hok => ?_⟩
    have hput := putRecords_host (s.ring ring).room (d.fld 24 8) branchRecords_length s 0 fun i _ hi => hok i (by rwa [Nat.zero_add] at hi)
    rw [Nat.zero_add, ← decide_eq_true hhost] at hput
    exact (exec_branchRead_writes hd hopen hf hput :)

end Sys2Proof.Machine
end

section
/-! PROOFS. Runs of bench kernels and their words, and detected errors of bench units (R229 to R234, R240, R347). -/

namespace Sys2Proof.Machine

open Sys2Proof Sys2Proof.Obl

/-! ## Runs (R229, R234) -/

@[simp] theorem modKernel_kernel (s : State) (r k : Nat) (f : Kernel → Kernel) : ((s.modKernel r k f).room r).kernel k = f ((s.room r).kernel k) := by
  rw [State.modKernel, State.modRoom_room]
  exact tget_tmod_self ..

@[simp] theorem modKernel_mem (s : State) (r k : Nat) (f : Kernel → Kernel) : ((s.modKernel r k f).room r).mem = (s.room r).mem := by
  rw [State.modKernel, State.modRoom_room]

section
variable {s : State} {room kernel : Nat} (hrun : (s.room room).running = true)
include hrun

theorem exec_benchRun_oldest {a : List Nat} {l : List (List Nat)} (hidle : ((s.room room).kernel kernel).run = none)
    (hqueue : ((s.room room).kernel kernel).queue = a :: l) : exec (.benchRun room kernel) s =
      .next ((s.modKernel room kernel fun k => { k with queue := l, run := some ⟨a, 0, s.now, 0⟩ }).charge room 6 1500) := by
  simp only [exec, execBenchRun, hidle, hqueue, hrun, if_true]

theorem exec_benchRunEnd_done {u : BenchRun} (hu : ((s.room room).kernel kernel).run = some u)
    (h : ((s.room room).kernel kernel).words.length ≤ u.next) : exec (.benchRunEnd room kernel) s =
      .next ((s.modKernel room kernel fun k => { k with run := none }).postCount room ((s.room room).kernel kernel).ctrCore
        ((s.room room).kernel kernel).ctr 1 engineWait u.promo) := by
  simp only [exec, execBenchRunEnd, hu, h, hrun, and_self, if_true]

theorem exec_benchTimeout_word {u : BenchRun} {w : BenchWord} (hnext : ((s.room room).kernel kernel).nextWord = some (u, w)) :
    exec (.benchTimeout room kernel) s =
      .next (if u.since + 10000000 < s.time.now then s.raiseFault room Code.benchTimeout (136 + s.wordSite room u w) else s) := by
  simp only [exec, execBenchTimeout, hrun, hnext, Bool.not_true, Bool.false_eq_true, if_false]
  rfl

end

/-! ## Words (R231 to R234, R347) -/

theorem exec_benchOps (room kernel : Nat) (s : State) : ∀ p ∈ benchOps room kernel, exec p.1 s = .next (s.benchCmd room kernel p.2) := by
  simp only [benchOps, List.forall_mem_cons, List.not_mem_nil, false_imp_iff, implies_true, and_true]
  and_intros <;> rfl

/-- Where the bench units of its stack choose its room, the command of a kernel's next word runs that word. -/
theorem benchCmd_served {s z : State} {room kernel op : Nat} {u : BenchRun} {w : BenchWord} (hrun : (s.room room).running = true)
    (hnext : ((s.room room).kernel kernel).nextWord = some (u, w)) (hop : w.op = op)
    (hserve : s.serve (arbBench (s.wordSite room u w)) true (s.benchReady (s.wordSite room u w)) room = some z) :
    RunsTo (.next (s.benchCmd room kernel op)) (z.runBenchWord room kernel u w) := by
  apply runsTo_settle
  simp only [State.benchCmd, hrun, hnext, hop, Bool.not_true, Bool.false_eq_true, if_false, if_true, onBench_served _ hserve]
  rfl

/-- The arbiters' notes say nothing about where a word runs. -/
theorem wordSite_upToShares {s z : State} (h : UpToShares s z) (room : Nat) (u : BenchRun) (w : BenchWord) : z.wordSite room u w = s.wordSite room u w := by
  rw [h]
  rfl

/-- What a word comes to on the state in which it reads its operands, after the time of their promotion. -/
def benchOutcome (t : State) (promo room kernel : Nat) (u : BenchRun) (w : BenchWord) (unit : Nat) : State :=
  match t.gather room (w.reads u.args) with
  | .error e => t.raiseFault room (benchCode e) unit
  | .ok m =>
    match benchStored t room u w m with
    | (v, some k) => v.raiseFault room (benchCode k) unit
    | (v, none) => benchDone t v room kernel u w promo

theorem runBenchWord_overlaps {z : State} {room kernel : Nat} {u : BenchRun} {w : BenchWord}
    (h : ((w.writes u.args).any fun x => (w.reads u.args).any fun y => x.hits y) = true) :
    z.runBenchWord room kernel u w = z.raiseFault room Code.benchOverlap (136 + z.wordSite room u w) := if_pos h

theorem runBenchWord_apart {z : State} {room kernel : Nat} {u : BenchRun} {w : BenchWord}
    (h : ((w.writes u.args).any fun x => (w.reads u.args).any fun y => x.hits y) = false) :
    z.runBenchWord room kernel u w = benchOutcome (benchTouched z room (w.reads u.args)).1 (benchTouched z room (w.reads u.args)).2 room kernel u w
      (136 + z.wordSite room u w) := by
  rw [State.runBenchWord, h]
  rfl

/-! ## Detected errors of a bench unit (R240, R494) -/

/-- An error of a bench unit counted at its stack, and among those of the room's incarnation. -/
def benchErrCounted (s : State) (room site unit : Nat) (parity : Bool) (j : Job) : State :=
  ((s.count (136 + site) (if parity then 3 else 2) 1).count (136 + site) 4 1).setRoom room { s.room room with
    job := some { j with benchErrs := tset j.benchErrs (site * 64 + unit) (tget 0 j.benchErrs (site * 64 + unit) + 1) } }

/-- A bench unit taken out of service, counted and recorded. -/
def benchUnitRetired (s : State) (site unit : Nat) : State :=
  ((s.modStack site fun k => k.retireUnit unit).count (136 + site) 16 1).healthRecord 4 0 (136 + site) 0xFFFF unit

theorem benchUnitRetired_rooms (s : State) (site unit : Nat) : (benchUnitRetired s site unit).rooms = s.rooms := rfl

theorem benchUnitRetired_bad {s : State} {site unit : Nat} (h : (s.stack site).badUnits.contains unit = false) :
    unit ∈ ((benchUnitRetired s site unit).stack site).badUnits := retire_bad s.stackTbl site unit h

theorem exec_benchError_counted {s : State} {room : Nat} (site unit : Nat) (parity : Bool) {j : Job} (hj : (s.room room).job = some j) :
    exec (.benchError room site unit parity) s = .next (
      if tget 0 j.benchErrs (site * 64 + unit) + 1 < 2 ∨ (s.stack site).badUnits.contains unit = true then benchErrCounted s room site unit parity j
      else if 34 - ((benchUnitRetired (benchErrCounted s room site unit parity j) site unit).stack site).badUnits.length < 28
        then (benchUnitRetired (benchErrCounted s room site unit parity j) site unit).outOfService Code.benchSpare
        else benchUnitRetired (benchErrCounted s room site unit parity j) site unit) := by
  simp only [exec, execBenchError, hj, State.modRoom, State.count_room, Option.map_some]
  rfl

/-- Settles O45: a word's command runs it on the state in which the bench units choose its room, and each check that fails names its fault. -/
theorem benchWordsRunInOrder : Obligations.BenchWordsRunInOrder := by
  unfold Obligations.BenchWordsRunInOrder
  refine ⟨?starts, ?words, ?ends, ?errors⟩
  case starts =>
    intro s room kernel a l hrun hidle hqueue
    refine ⟨_, exec_benchRun_oldest hrun hidle hqueue, ?_⟩
    obtain ⟨g, n, e, hroom⟩ := SameButLedger.charge (s.modKernel room kernel fun k => { k with queue := l, run := some ⟨a, 0, s.now, 0⟩ }) room 6 1500 room
    rw [hroom]
    exact ⟨modKernel_kernel .., modKernel_mem .., rfl⟩
  case words =>
    intro s z room kernel op c u w hc hrun hnext hop hserve
    have runs := benchCmd_served hrun hnext hop hserve
    rw [← exec_benchOps room kernel s _ hc] at runs
    rw [← wordSite_upToShares (serve_upToShares hserve)]
    refine ⟨fun h => runBenchWord_overlaps h ▸ runs, fun h t promo ht => ?_⟩
    rw [runBenchWord_apart h, ← ht, benchOutcome] at runs
    refine ⟨fun e he => by rwa [he] at runs, fun m v e hm hv => ?_⟩
    rw [hm] at runs
    simp only [hv] at runs
    exact ⟨fun k hk => by rwa [hk] at runs, fun hk => by rwa [hk] at runs⟩
  case ends =>
    intro s room kernel u hrun hu
    refine ⟨exec_benchRunEnd_done hrun hu, fun w hnext => ?_⟩
    rw [exec_benchTimeout_word hrun hnext]
    exact ⟨fun h => by rw [if_pos h], fun h => by rw [if_neg (Nat.not_lt.mpr h)]⟩
  case errors =>
    intro s room site unit parity j hj
    have run := exec_benchError_counted site unit parity hj
    refine ⟨benchErrCounted s room site unit parity j, rfl, fun h => ?first, fun h hfit => ?second⟩
    case first => rw [run, if_pos (Or.inl (by omega))]
    case second =>
      rw [if_neg (by rw [hfit, not_or]; exact ⟨by omega, Bool.false_ne_true⟩)] at run
      obtain ⟨htbl, hrooms⟩ := unitOut (benchUnitRetired (benchErrCounted s room site unit parity j) site unit)
        (34 - ((benchUnitRetired (benchErrCounted s room site unit parity j) site unit).stack site).badUnits.length < 28) Code.benchSpare
      refine ⟨_, run, ?_, room_of_rooms (hrooms.trans (benchUnitRetired_rooms ..)) room⟩
      rw [State.stack, htbl]
      exact benchUnitRetired_bad hfit

end Sys2Proof.Machine
end

section
/-! PROOFS. Stacks, their lanes and the bridge's, cellar packages, and security faults (R238, R239, R241, R244, R341, R472, R489, R492, R493). -/

namespace Sys2Proof.Machine

open Sys2Proof Sys2Proof.Obl

/-! ## Records and service (R493, R499) -/

/-- A health record changes nothing but the records and those that wait. -/
theorem healthRecord_eq (s : State) (kind code unit room value : Nat) : ∃ held records seq, s.healthRecord kind code unit room value =
    { s with health := { s.health with held := held, records := records, seq := seq } } := by
  simp only [State.healthRecord, State.flushHealth]
  split <;> exact ⟨_, _, _, rfl⟩

/-- Out of service, the health is that of the record of it, but for the service and its code. -/
theorem outOfService_health (s : State) (code : Nat) : (s.outOfService code).health =
    { (s.healthRecord 5 code 0xFFFF 0xFFFF 0).health with oos := true, oosCode := code } := by
  rw [State.outOfService]
  obtain ⟨fl, o, n, m, h⟩ := leave_spec { s.healthRecord 5 code 0xFFFF 0xFFFF 0 with
    health := { (s.healthRecord 5 code 0xFFFF 0xFFFF 0).health with oos := true, oosCode := code } } code
  exact congrArg State.health h

theorem outOfService_rooms (s : State) (code : Nat) : (s.outOfService code).rooms = s.rooms := by
  obtain ⟨fl, o, n, m, h, e⟩ := outOfService_spec s code
  rw [e]

theorem mem_setWaiting (s : State) (reason code : Nat) : reason ∈ (s.setWaiting reason code).health.waiting := by
  simp only [State.setWaiting]
  split
  next h => exact List.contains_iff_mem.mp h
  · exact List.mem_cons_self

theorem not_mem_clearWaiting (s : State) (reason : Nat) : reason ∉ (s.clearWaiting reason).health.waiting := by
  simp [State.clearWaiting]

theorem State.upto_sites (s : State) (n : Nat) : (s.upto n).sites = s.sites := rfl

/-! ## Bands and readings (R241) -/

theorem bandOf_low {t : Nat} (h : t ≤ 85) : bandOf t = 1 := if_pos h

theorem bandOf_middle {t : Nat} (h : 85 < t) (h' : t ≤ 95) : bandOf t = 2 := by
  rw [bandOf, if_neg (Nat.not_le.mpr h), if_pos h']

theorem bandOf_high {t : Nat} (h : 95 < t) : bandOf t = 3 := by
  rw [bandOf, if_neg (by omega), if_neg (Nat.not_le.mpr h)]

/-- Only a stack's own entry decides what a change of it comes to. -/
theorem modStack_congr {s : State} {k : Nat} {f g : Stack → Stack} (h : f (s.stack k) = g (s.stack k)) : s.modStack k f = s.modStack k g := by
  rw [State.stack] at h
  simp only [State.modStack, tmod, h]

section
variable {s : State} {site : Nat} (hottest at_ : Nat)

theorem exec_stackBandReading_absent (h : site ∉ s.sites) : exec (.stackBandReading site hottest at_) s = .next (s.upto at_) := by
  have habsent : ((s.upto at_).sites.contains site) = false := by simpa [State.upto_sites] using h
  simp only [exec, execStackBandReading, habsent, Bool.not_false, if_true]

theorem exec_stackBandReading_sited (h : site ∈ s.sites) : exec (.stackBandReading site hottest at_) s =
    .next ((s.upto at_).modStack site fun k => { k with
      temp := hottest
      band := if k.stopped then 0 else nextBand k.band hottest
      coolSince := if k.stopped && decide (hottest < 85) then some (k.coolSince.getD (s.upto at_).now) else none }) := by
  have hsited : ((s.upto at_).sites.contains site) = true := by simpa [State.upto_sites] using h
  simp only [exec, execStackBandReading, hsited, Bool.not_true, Bool.false_eq_true, if_false]

/-! ## A stack that stops (R244, R489) -/

/-- The rooms with frames on a stack. -/
def State.roomsAt (s : State) (site : Nat) : List Nat := allRooms.filter fun r => !((s.room r).mem.upperFrames site).isEmpty

theorem roomsAt_unused (h : ∀ r, r < 64 → (s.room r).mem.upperFrames site = []) : s.roomsAt site = [] := by
  refine List.filter_eq_nil_iff.mpr fun r hr => ?_
  rw [h r (List.mem_range.mp hr)]
  exact Bool.false_ne_true

/-- A stack stopped at a reading. -/
def stackStopped (s : State) (site hottest : Nat) : State :=
  s.modStack site fun k => { k with temp := hottest, band := 0, stopped := true, coolSince := none }

/-- What a stopped stack leaves of its rooms: their jobs faulted, a confidential one turned over, their contents on it gone. -/
def stackLost (s : State) (site : Nat) (rooms : List Nat) : State :=
  rooms.foldl (fun s r => s.loseStack site r)
    ((rooms.foldl (fun s r => s.raiseFault r Code.stackThermal (136 + site)) s).secFaults [136 + site] Code.stackThermal)

theorem exec_stackShutdown_keeps (h : site ∉ s.sites ∨ (s.stack site).stopped = true ∨ hottest ≤ 105) :
    exec (.stackShutdown site hottest at_) s = .next (s.upto at_) := by
  have hkeeps : (!(s.upto at_).sites.contains site) = true ∨ ((s.upto at_).stack site).stopped = true ∨ hottest ≤ 105 := by
    simpa [State.upto_sites] using h
  simp only [exec, execStackShutdown, hkeeps, if_true]

theorem exec_stackShutdown_stops (hsite : site ∈ s.sites) (hserving : (s.stack site).stopped = false) (hhot : 105 < hottest) :
    exec (.stackShutdown site hottest at_) s = .next
      (((stackLost (stackStopped (s.upto at_) site hottest) site (s.roomsAt site)).healthRecord 5 Code.stackThermal (136 + site) 0xFFFF hottest).setWaiting
        site Code.stackThermal) := by
  have hstops : ¬ ((!(s.upto at_).sites.contains site) = true ∨ ((s.upto at_).stack site).stopped = true ∨ hottest ≤ 105) := by
    simpa [State.upto_sites] using ⟨hsite, hserving, hhot⟩
  simp only [exec, execStackShutdown, hstops, if_false]
  rfl

/-! ## A stack that returns (R341, R489) -/

/-- A stack started again with every frame zeroed. -/
def stackReturned (s : State) (site : Nat) : State :=
  s.modStack site fun k => { k with stopped := false, band := 1, coolSince := none, poison := [], held := [] }

/-- The quarantine of a room that no stack holds frames of ends. -/
def endQuarantine (s : State) (r : Nat) : State :=
  if s.sites.any fun j => (s.stack j).held.any fun h => h.1 = r then s else s.modRoom r fun x => { x with quarantine := false }

theorem endQuarantines_stackTbl (l : List Nat) (s : State) : (l.foldl (fun s r => endQuarantine s r) s).stackTbl = s.stackTbl := by
  induction l generalizing s with
  | nil => rfl
  | cons r l ih =>
    rw [List.foldl_cons, ih, endQuarantine]
    split <;> rfl

theorem exec_stackReturn_keeps (h : (s.stack site).stopped = false ∨ ∀ c, (s.stack site).coolSince = some c → (s.upto at_).time.now < c + 60000000000) :
    exec (.stackReturn site at_) s = .next (s.upto at_) := by
  have hkeeps : (!((s.upto at_).stack site).stopped) = true ∨
      (!(((s.upto at_).stack site).coolSince.any fun t => decide (t + 60000000000 ≤ (s.upto at_).now))) = true := by
    refine h.imp (fun h => by rw [State.upto_stack, h]; rfl) fun h => ?_
    rw [State.upto_stack]
    cases hcool : (s.stack site).coolSince with
    | none => rfl
    | some c =>
      have hearly : decide (c + 60000000000 ≤ (s.upto at_).now) = false := decide_eq_false (Nat.not_le.mpr (h c hcool))
      rw [Option.any_some, hearly]
      rfl
  simp only [exec, execStackReturn, hkeeps, if_true]

theorem exec_stackReturn_returns {c : Nat} (hstopped : (s.stack site).stopped = true) (hcool : (s.stack site).coolSince = some c)
    (hdue : c + 60000000000 ≤ (s.upto at_).time.now) : exec (.stackReturn site at_) s = .next
      (((((s.stack site).held.map (·.1)).foldl (fun s r => endQuarantine s r) (stackReturned (s.upto at_) site)).healthRecord
        5 0 (136 + site) 0xFFFF 0).clearWaiting site) := by
  have hcold : ((s.stack site).coolSince.any fun t => decide (t + 60000000000 ≤ (s.upto at_).now)) = true := by
    rw [hcool, Option.any_some]
    exact decide_eq_true hdue
  simp only [exec, execStackReturn, State.upto_stack, hstopped, hcold, Bool.not_true, Bool.false_eq_true, or_self, if_false, endQuarantine, stackReturned]

/-! ## Scrubs (R238) -/

/-- A scrub's hits taken in turn, the corrected errors of more than 24 h ago forgotten. -/
def stackScrubbed (s : State) (site : Nat) (hits : List ScrubHit) : State :=
  hits.foldl (fun s h => s.scrubHit site h)
    (s.modStack site fun k => { k with seen := k.seen.filter fun x => decide (s.now < x.2.2 + 86400000000000) })

theorem exec_stackScrub_idle (h : (s.stack site).stopped = true ∨ site ∉ s.sites) (hits : List ScrubHit) : exec (.stackScrub site hits) s = .next s := by
  have hidle : (!s.sites.contains site) = true ∨ (s.stack site).stopped = true := by simpa using h.symm
  simp only [exec, execStackScrub, hidle, if_true]

/-- A scrub's outcome is its hits', but for an alarm that stands in the health alone. -/
theorem exec_stackScrub_serving (hsite : site ∈ s.sites) (hserving : (s.stack site).stopped = false) (hits : List ScrubHit) :
    ∃ t, exec (.stackScrub site hits) s = .next t ∧ HealthOnly (stackScrubbed s site hits) t := by
  have hserves : ¬ ((!s.sites.contains site) = true ∨ (s.stack site).stopped = true) := by simpa using ⟨hsite, hserving⟩
  simp only [exec, execStackScrub, hserves, if_false]
  refine ⟨_, rfl, ?_⟩
  split <;> rfl

end

/-! ## Cellar packages (R492) -/

/-- A power of two taken from a number that holds it leaves its bit clear. -/
theorem bit_sub_two_pow {n b : Nat} (h : bit n b = true) : bit (n - 2 ^ b) b = false := by
  have hsum : 2 ^ b + (n - 2 ^ b) = n := Nat.add_sub_of_le (Nat.ge_two_pow_of_testBit h)
  rw [bit, ← hsum, Nat.testBit_two_pow_add_eq] at h
  exact Bool.not_eq_true' _ ▸ h

theorem packageFails_rooms (s : State) (half package : Nat) : (s.packageFails half package).rooms = s.rooms := outOfService_rooms ..

theorem packageFails_service (s : State) (half package : Nat) :
    (s.packageFails half package).health.oos = true ∧ (s.packageFails half package).health.oosCode = Code.cellarPackage := by
  simp only [State.packageFails, outOfService_health, and_self]

theorem packageFails_cellar (s : State) (half package : Nat) : bit (s.packageFails half package).health.cellar (16 * half + package % 16) = false := by
  simp only [State.packageFails, outOfService_health]
  obtain ⟨held, records, seq, h⟩ := healthRecord_eq { s with health := { s.health with
    cellar := if bit s.health.cellar (16 * half + package % 16) then s.health.cellar - 2 ^ (16 * half + package % 16) else s.health.cellar } }
    5 Code.cellarPackage 0xFFFF 0xFFFF 0
  rw [h]
  split
  next hset => exact bit_sub_two_pow hset
  next hclear => exact Bool.eq_false_iff.mpr hclear

/-! ## CRC errors (R239) -/

section
variable (s : State) (channel at_ : Nat) (e : LaneErr)

/-- A CRC error seen is counted; training that fails is none. -/
def crcSeen (s : State) (unit : Nat) (e : LaneErr) : State := if e.training then s else s.count unit 11 1

theorem exec_crcError_cellar {unit : Nat} (h : unit = 156 ∨ unit = 157) : exec (.crcError unit channel e at_) s = .next (
    if !e.training then crcSeen (s.upto at_) unit e
    else if s.stewards.ready then s.upto at_ else (s.upto at_).packageFails (unit - 156) e.lane) := by
  have hbridge : unit ≠ 165 := by omega
  have hstack : ¬ (136 ≤ unit ∧ unit < 152 ∧ (s.upto at_).sites.contains (unit - 136) = true ∧ channel < 16) := by omega
  simp only [exec, execCrcError, hbridge, hstack, h, if_true, if_false]
  rfl

theorem exec_crcError_bridge : exec (.crcError 165 channel e at_) s = .next ((crcSeen (s.upto at_) 165 e).bridgeError channel e) := by
  simp only [exec, execCrcError, if_true, crcSeen]

theorem exec_crcError_stack {unit : Nat} (hlo : 136 ≤ unit) (hhi : unit < 152) (hsite : unit - 136 ∈ s.sites) (hchannel : channel < 16) :
    exec (.crcError unit channel e at_) s = .next ((crcSeen (s.upto at_) unit e).laneError (unit - 136) channel e) := by
  have hbridge : unit ≠ 165 := by omega
  have hsited : ((s.upto at_).sites.contains (unit - 136)) = true := by simpa [State.upto_sites] using hsite
  simp only [exec, execCrcError, hbridge, hlo, hhi, hsited, hchannel, and_self, if_true, if_false]
  rfl

end

theorem crc_within {l : List Nat} {e : LaneErr} (h : l.length ≤ 16) (ht : e.training = false) : l.length ≤ 16 ∧ (!e.training) = true :=
  ⟨h, by rw [ht]; rfl⟩

theorem crc_past {l : List Nat} {e : LaneErr} (h : 16 < l.length ∨ e.training = true) : ¬ (l.length ≤ 16 ∧ (!e.training) = true) := by
  rintro ⟨hlen, ht⟩
  rcases h with h | h
  · omega
  · rw [h] at ht
    cases ht

/-! ### The bridge -/

/-- The CRC errors of a lane of the bridge noted. -/
def bridgeNoted (s : State) (dir lane : Nat) (l : List Nat) : State :=
  { s with health := { s.health with bridgeCrc := tset s.health.bridgeCrc (dir * 4096 + lane) l } }

/-- The times of a bridge lane's CRC errors within 1 ms. -/
def bridgeTimes (s : State) (dir lane : Nat) : List Nat := crcTimes (tget [] s.health.bridgeCrc (dir * 4096 + lane)) s.time.now

/-- The spare lanes left of a direction of the bridge. -/
def bridgeSpares (s : State) (dir : Nat) : Nat := if dir = 0 then s.health.bridge0 else s.health.bridge1

/-- A lane of the bridge repaired onto a spare of its direction, counted and recorded. -/
def bridgeRepaired (s : State) (dir lane : Nat) : State :=
  let t := ((bridgeNoted s dir lane []).count 165 12 1).healthRecord 3 0 165 0xFFFF lane
  { t with health := { t.health with
    bridge0 := if dir = 0 then bridgeSpares s dir - 1 else t.health.bridge0
    bridge1 := if dir = 0 then t.health.bridge1 else bridgeSpares s dir - 1 } }

section
variable {s : State} {dir : Nat} {e : LaneErr}

theorem bridgeError_within (h : (bridgeTimes s dir e.lane).length ≤ 16) (ht : e.training = false) :
    s.bridgeError dir e = bridgeNoted s dir e.lane (bridgeTimes s dir e.lane) := if_pos (crc_within h ht)

/-- Past the limit the lane is repaired while a spare is left; with none, jobs fault and the device is out of service. -/
theorem bridgeError_past (h : 16 < (bridgeTimes s dir e.lane).length ∨ e.training = true) :
    s.bridgeError dir e = if bridgeSpares s dir = 0 then ((bridgeNoted s dir e.lane []).faultAll Code.bridgeLane 165).outOfService Code.bridgeLane
      else bridgeRepaired s dir e.lane := if_neg (crc_past h)

/-- A lane of the bridge repaired takes one spare of its direction. -/
theorem bridgeError_repairs (h : 16 < (bridgeTimes s dir e.lane).length ∨ e.training = true) (hspare : 0 < bridgeSpares s dir) :
    (s.bridgeError dir e).health.bridge0 = (if dir = 0 then s.health.bridge0 - 1 else s.health.bridge0) ∧
    (s.bridgeError dir e).health.bridge1 = (if dir = 0 then s.health.bridge1 else s.health.bridge1 - 1) ∧ (s.bridgeError dir e).rooms = s.rooms := by
  rw [bridgeError_past h, if_neg (by omega), bridgeRepaired, bridgeSpares]
  obtain ⟨held, records, seq, hrec⟩ := healthRecord_eq ((bridgeNoted s dir e.lane []).count 165 12 1) 3 0 165 0xFFFF e.lane
  rw [hrec]
  split <;> exact ⟨rfl, rfl, rfl⟩

end

/-! ### Channels of a stack -/

/-- The times of a channel lane's CRC errors within 1 ms. -/
def laneTimes (s : State) (site channel lane : Nat) : List Nat := crcTimes (tget [] (s.stack site).crc (channel * 4096 + lane)) s.time.now

/-- The number of a channel's spare lanes of a lane's kind: lanes from 128 on are command lanes (log entry 65). -/
def spareKey (channel lane : Nat) : Nat := channel * 2 + if 128 ≤ lane then 1 else 0

/-- The spare lanes that a channel has of a lane's kind. -/
def spareLanes (lane : Nat) : Nat := if 128 ≤ lane then 1 else 2

/-- A stack with a lane's CRC errors forgotten. -/
def laneCleared (s : State) (site channel lane : Nat) : State := s.modStack site fun k => { k with crc := tdel k.crc (channel * 4096 + lane) }

/-- A lane of a stack's channel repaired onto a spare, counted and recorded. -/
def laneRepaired (s : State) (site channel lane used : Nat) : State :=
  (((laneCleared s site channel lane).modStack site fun k => { k with lanesUsed := tset k.lanesUsed (spareKey channel lane) (used + 1) }).count
    (136 + site) 12 1).healthRecord 3 0 (136 + site) 0xFFFF (channel * 4096 + lane)

theorem laneRepaired_lanesUsed (s : State) (site channel lane used : Nat) : ((laneRepaired s site channel lane used).stack site).lanesUsed =
    tset (s.stack site).lanesUsed (spareKey channel lane) (used + 1) := by
  rw [laneRepaired, State.healthRecord_stack, State.count_stack, State.modStack_stack, laneCleared, State.modStack_stack]

theorem laneRepaired_rooms (s : State) (site channel lane used : Nat) : (laneRepaired s site channel lane used).rooms = s.rooms := by
  rw [laneRepaired, State.healthRecord_rooms, State.count_rooms, State.modStack_rooms, laneCleared, State.modStack_rooms]

section
variable {s : State} {site channel : Nat} {e : LaneErr}

theorem laneError_within (h : (laneTimes s site channel e.lane).length ≤ 16) (ht : e.training = false) :
    s.laneError site channel e = s.modStack site fun k => { k with crc := tset k.crc (channel * 4096 + e.lane) (laneTimes s site channel e.lane) } :=
  if_pos (crc_within h ht)

/-- Past the limit the lane is repaired while its channel has a spare; with none, the jobs on the stack fault and the device is out of service. -/
theorem laneError_past {used : Nat} (h : 16 < (laneTimes s site channel e.lane).length ∨ e.training = true)
    (hused : used = tget 0 (s.stack site).lanesUsed (spareKey channel e.lane)) : s.laneError site channel e =
      if used < spareLanes e.lane then laneRepaired s site channel e.lane used
      else (((laneCleared s site channel e.lane).roomsAt site).foldl (fun s r => s.raiseFault r Code.stackLane (136 + site))
        (laneCleared s site channel e.lane)).outOfService Code.stackLane := by
  rw [State.laneError]
  refine (if_neg (crc_past h)).trans ?_
  simp only [hused, spareKey, spareLanes, laneRepaired, b2n, decide_eq_true_eq]
  rfl

end

/-! ## Security faults (R472) -/

theorem secFaults_unheld {s : State} {unit : Nat} (cause : Nat) (h : ∀ p ∈ s.rooms, p.2.sec.conf = true → s.holdsUnit p.2 unit = false) :
    s.secFaults [unit] cause = s := by
  have hnone : (s.rooms.filter fun p => p.2.sec.conf && [unit].any fun u => s.holdsUnit p.2 u) = [] := by
    refine List.filter_eq_nil_iff.mpr fun p hp => ?_
    cases hconf : p.2.sec.conf <;> simp [h p hp, hconf]
  rw [State.secFaults, hnone]
  rfl

theorem secFault_exempt {s : State} {r : Nat} (unit cause : Nat) (h : (s.room r).sec.conf = false ∨ (s.room r).holds = false) :
    s.secFault r unit cause = s := if_pos (by simpa using h)

/-- The key of a room's job erased. -/
def jobKeyErased (s : State) (r : Nat) : State :=
  let tag := match (s.room r).job with
    | some j => j.tag
    | none => 0
  if tag = 0 then s else { s with net := { s.net with jobKeys := tdel s.net.jobKeys tag } }

theorem jobKeyErased_rooms (s : State) (r : Nat) : (jobKeyErased s r).rooms = s.rooms := by
  simp only [jobKeyErased]
  repeat' split
  all_goals rfl

/-- A room's keys and secrets erased, and the fault counted. -/
def roomZeroised (s : State) (r : Nat) : State := (jobKeyErased s r).modRoom r fun x => { x with sec := { x.sec with
  cellarKey := none
  importKey := none
  tenant := none
  content := none
  consent := none
  faults := x.sec.faults + 1 } }

theorem roomZeroised_st (s : State) (r q : Nat) : ((roomZeroised s r).room q).st = (s.room q).st := by
  rw [← room_of_rooms (jobKeyErased_rooms s r) q, roomZeroised]
  by_cases hq : q = r
  · subst hq
    rw [State.modRoom_room]
  · rw [State.modRoom_room_ne _ _ hq]

/-- A room whose keys a security fault has taken starts its turnover from the state it was in. -/
theorem secFault_turns {s : State} {r : Nat} (unit cause : Nat) (hconf : (s.room r).sec.conf = true) (hheld : (s.room r).holds = true) :
    ∃ v : State, s.secFault r unit cause = v.startTurnover r false false true ∧ ∀ q, (v.room q).st = (s.room q).st := by
  refine ⟨((roomZeroised s r).audit 0x0E 0 0 r Code.secLockBreach (leBytes 2 unit ++ leBytes 2 cause)).endDebug r, if_neg (by simp [hconf, hheld]), fun q => ?_⟩
  rw [room_of_rooms (endDebug_rooms _ r), room_of_rooms (audit_rooms ..), roomZeroised_st]

/-- Settles O58: each event's outcome is written out once above, and each clause reads one part of it. -/
theorem stacksLanesAndSecurityFaultsAct : Obligations.StacksLanesAndSecurityFaultsAct := by
  unfold Obligations.StacksLanesAndSecurityFaultsAct
  refine ⟨?readings, ?bands, ?stops, ?idle, ?scrubs, ?crc, ?bridge, ?lanes, ?security⟩
  case readings =>
    rintro s _ site hottest at_ rfl
    refine ⟨fun h => ⟨exec_stackBandReading_absent _ _ h, exec_stackShutdown_keeps _ _ (.inl h)⟩, fun h hserving => ?_, fun h hstopped => ?_⟩
    all_goals
      rw [exec_stackBandReading_sited _ _ h]
      refine congrArg Host.Outcome.next (modStack_congr ?_)
    · simp only [State.upto_stack, hserving, Bool.false_and, Bool.false_eq_true, if_false]
    · simp only [State.upto_stack, hstopped, Bool.true_and, decide_eq_true_eq, if_true]
      rfl
  case bands =>
    intro b t hlo hhi
    refine ⟨fun h => ?_, fun h h' => ?_, fun h h' => ?_, fun h h' => ?_, fun h => ?_⟩
    · rw [nextBand, bandOf_low (by omega), bandOf_low (by omega)]
      exact Nat.max_eq_left (Nat.min_le_right ..)
    · rw [nextBand, bandOf_low h', bandOf_middle (by omega) (by omega)]
      exact Nat.max_eq_right (Nat.le_min.mpr ⟨hlo, by decide⟩)
    · rw [nextBand, bandOf_middle (by omega) (by omega), bandOf_middle (by omega) (by omega)]
      exact Nat.max_eq_left (Nat.min_le_right ..)
    · rw [nextBand, bandOf_middle (by omega) h', bandOf_high (by omega)]
      exact congrArg (Nat.max 2) (Nat.min_eq_left hhi)
    · rw [nextBand, bandOf_high (by omega), bandOf_high (by omega)]
      exact Nat.max_eq_left (Nat.min_le_right ..)
  case stops =>
    rintro s _ site hottest at_ rfl
    refine ⟨fun h => exec_stackShutdown_keeps _ _ (.inr h), fun hsite hserving hhot => ?_, fun c hstopped hcool hdue => ?_, fun h => ?_,
      fun c hcool hearly => ?_⟩
    · refine ⟨_, exec_stackShutdown_stops _ _ hsite hserving hhot, rfl, mem_setWaiting .., fun hunused hopen => ?_⟩
      rw [roomsAt_unused hunused]
      exact congrArg (fun v : State => (v.healthRecord 5 Code.stackThermal (136 + site) 0xFFFF hottest).setWaiting site Code.stackThermal)
        (secFaults_none _ _ _ hopen)
    · refine ⟨_, exec_stackReturn_returns _ hstopped hcool hdue, ?_⟩
      rw [State.clearWaiting_stack, State.healthRecord_stack, State.stack, endQuarantines_stackTbl, ← State.stack, stackReturned, State.modStack_stack]
      exact ⟨rfl, rfl, rfl, rfl, not_mem_clearWaiting _ _⟩
    · exact exec_stackReturn_keeps _ (h.imp_right fun h c hc => by rw [h] at hc; cases hc)
    · exact exec_stackReturn_keeps _ (.inr fun d hd => by rw [hcool] at hd; cases hd; exact hearly)
  case idle => exact fun s site h hits => exec_stackScrub_idle h hits
  case scrubs =>
    intro s site hits hsite hserving
    obtain ⟨t, hexec, hhealth⟩ := exec_stackScrub_serving hsite hserving hits
    obtain ⟨⟨hrooms, hothers, hpoison⟩, hfound⟩ := scrubHits_spec site hits
      (s.modStack site fun k => { k with seen := k.seen.filter fun x => decide (s.now < x.2.2 + 86400000000000) })
    have hstack : ∀ k, t.stack k = (stackScrubbed s site hits).stack k := fun k => by rw [hhealth]; rfl
    refine ⟨t, hexec, hhealth.rooms.trans hrooms, fun h hh hc => ?_, fun p hp => ?_, fun k hk => ?_⟩
    · rw [hstack]
      exact hfound h hh hc
    · rw [hstack]
      exact hpoison p (by rwa [State.modStack_stack])
    · rw [hstack]
      exact (hothers k hk).trans (State.modStack_stack_ne _ _ hk)
  case crc =>
    rintro s _ v unit channel at_ e rfl hv
    obtain rfl : v = crcSeen (s.upto at_) unit e := hv
    refine ⟨fun hunit => ?cellar, fun hunit => ?link, fun hlo hhi hsite hchannel => exec_crcError_stack _ _ _ _ hlo hhi hsite hchannel⟩
    case cellar =>
      rw [exec_crcError_cellar _ _ _ _ hunit]
      refine ⟨fun ht => by rw [ht]; rfl, fun ht hready => by rw [ht, hready]; rfl, fun ht hready => ?_⟩
      rw [ht, hready]
      obtain ⟨hoos, hcode⟩ := packageFails_service (s.upto at_) (unit - 156) e.lane
      exact ⟨_, rfl, packageFails_rooms .., hoos, hcode, packageFails_cellar ..⟩
    case link =>
      subst hunit
      exact exec_crcError_bridge ..
  case bridge =>
    rintro s dir e _ rfl
    refine ⟨fun hlen ht => ?_, fun h hspare => bridgeError_repairs h hspare, fun h hspare => ?_⟩
    · rw [bridgeError_within hlen ht]
      exact ⟨rfl, rfl, rfl⟩
    · exact ⟨bridgeNoted s dir e.lane [], (bridgeError_past h).trans (if_pos hspare), rfl⟩
  case lanes =>
    rintro s site channel used e _ rfl hused
    refine ⟨laneError_within, fun h hspare => ?_, fun h hspare => ?_⟩
    · rw [laneError_past h hused, if_pos (show used < spareLanes e.lane from hspare)]
      subst hused
      exact ⟨laneRepaired_lanesUsed .., laneRepaired_rooms ..⟩
    · rw [laneError_past h hused, if_neg (show ¬ used < spareLanes e.lane from Nat.not_lt.mpr hspare), outOfService_health]
      exact ⟨rfl, rfl⟩
  case security =>
    refine fun s unit => ⟨rfl, fun h => congrArg Host.Outcome.next (secFaults_unheld _ h), fun r cause => ⟨secFault_exempt unit cause, fun hconf hst => ?_⟩⟩
    obtain ⟨v, hv, hkept⟩ := secFault_turns unit cause hconf (by rw [Room.holds, hst]; rfl)
    rw [hv, startTurnover_st, hkept, hst]
    exact ⟨rfl, fun q hq => (startTurnover_ne _ _ _ _ hq).trans (hkept q)⟩

end Sys2Proof.Machine
end

section
/-! PROOFS. Rows of a COPY or FILL and their end, and sealed copies (R250, R314, R320, R465, R466). -/

namespace Sys2Proof.Machine

open Sys2Proof Sys2Proof.Obl

/-- Rows that failed complete their descriptor with the failure's status and detail, and rows that did not with OK. -/
theorem endRows_eq (u : State) (e : Option DescErr) (ring : Nat) (d : Desc) :
    State.endRows (u, e) ring d = u.complete ring d.seq ((e.map (·.1)).getD stOk) ((e.map (·.2)).getD 0) 0 0 0 := by
  cases e <;> rfl

section
variable {s : State} {ring r : Nat} {d : Desc} (hr : r = (s.ring ring).room)
include hr

/-- A COPY of a confidential room with a side in host space moves sealed chunks (R466). -/
theorem exec_copy_sealed (hd : s.canStartOp ring 0x02 anyDesc = some d) (hconf : (s.room r).sec.conf = true)
    (hside : d.copySrc.host = true ∨ d.copyDst.host = true) : exec (.copy ring) s = .next (State.endRows (s.sealedCopy r d) ring d) := by
  subst hr
  have hsealed : ((s.room (s.ring ring).room).sec.conf && (d.copySrc.host || d.copyDst.host)) = true := by simp [hconf, hside]
  simp only [exec, execCopy, hd, hsealed, if_true]

/-- Any other COPY moves its rows, where it has the seed that its rounding needs (R314, R320). -/
theorem exec_copy_open (hd : s.canStartOp ring 0x02 anyDesc = some d)
    (hopen : (s.room r).sec.conf = false ∨ (d.copySrc.host = false ∧ d.copyDst.host = false)) :
    exec (.copy ring) s = .next (
      if s.noSeed r (d.fld 41 1) = true then s.complete ring d.seq stBadDescriptor Code.descOperand 0 0 0
      else State.endRows (s.copyRows r d.copySrc d.copyDst (Cvt.ofByte (d.fld 41 1))
        (fun j => srDraw ((s.room r).seed.getD 0) (d.fld 44 2) j (d.fld 48 4)) (d.fld 28 4) 0) ring d) := by
  subst hr
  have hplain : ((s.room (s.ring ring).room).sec.conf && (d.copySrc.host || d.copyDst.host)) = false := by
    rcases hopen with h | ⟨h, g⟩
    · simp [h]
    · simp [h, g]
  simp only [exec, execCopy, hd, hplain, Bool.false_eq_true, if_false, State.done]
  split <;> rfl

/-- A FILL writes rows of its one value, where it has the seed that its rounding needs (R320). -/
theorem exec_fill_starts (hd : s.canStartOp ring 0x03 anyDesc = some d) :
    exec (.fill ring) s = .next (
      if s.noSeed r (d.fld 29 1) = true then s.complete ring d.seq stBadDescriptor Code.descOperand 0 0 0
      else State.endRows (s.fillRows r d.fillDst (fun j => convert (decodeElem (if isIntFmt (d.fld 28 1 % 16) then 0x9 else 0x0) (d.fld 32 4))
        (d.fld 28 1 % 16) (Cvt.ofByte (d.fld 29 1)) (srDraw ((s.room r).seed.getD 0) (d.fld 36 2) j (d.fld 40 4))) (d.fld 20 4) 0) ring d) := by
  subst hr
  simp only [exec, execFill, hd, State.done]
  split <;> rfl

end

/-- Settles O24: each command is its rows and their end, or the refusal for want of a seed. -/
theorem copyAndFillMoveTheirRows : Obligations.CopyAndFillMoveTheirRows := by
  unfold Obligations.CopyAndFillMoveTheirRows
  intro s u ring r d e hr
  refine ⟨fun hd => ⟨fun hopen => ⟨fun hseed => ?_, fun hseed hrows => ?_⟩, fun hconf hside hrows => ?_⟩,
    fun hd => ⟨fun hseed => ?_, fun hseed hrows => ?_⟩⟩
  · rw [exec_copy_open hr hd hopen, if_pos hseed]
  · rw [exec_copy_open hr hd hopen, if_neg (ne_true_of_eq_false hseed), hrows, endRows_eq]
  · rw [exec_copy_sealed hr hd hconf hside, hrows, endRows_eq]
  · rw [exec_fill_starts hr hd, if_pos hseed]
  · rw [exec_fill_starts hr hd, if_neg (ne_true_of_eq_false hseed), hrows, endRows_eq]

end Sys2Proof.Machine
end

section
/-! PROOFS. Changes of mode, a schedule and a snapshot plan staged to a step epoch (R271, R315, R318, R352, R378, R380, R480). -/

namespace Sys2Proof.Machine

open Sys2Proof Sys2Proof.Obl

/-! ## MODE_STAGE of kinds 1, 2, 4 and 5 (R378) -/

section
variable {s : State} {ring kind r : Nat} {d : Desc}

/-- The four commands that stage a mode change are one operation, at their kind. -/
theorem exec_modeStage {c : Instr}
    (hc : (c, kind) ∈ [(Instr.powerCap ring, 1), (.clockPlan ring, 2), (.precisionMode ring, 4), (.endJob ring, 5)])
    (hd : s.canStartOp ring 0x07 (fun d => d.fld 8 1 == kind) = some d) : exec c s = .next (s.stageMode ring kind d) := by
  have hcmd : s.modeCmd ring kind = s.stageMode ring kind d := by simp only [State.modeCmd, hd]
  rw [← hcmd]
  simp only [List.mem_cons, List.not_mem_nil, or_false, Prod.mk.injEq] at hc
  rcases hc with ⟨rfl, rfl⟩ | ⟨rfl, rfl⟩ | ⟨rfl, rfl⟩ | ⟨rfl, rfl⟩ <;> rfl

theorem stageMode_notPf (hkind : kind ≤ 2) (hroom : (s.ring ring).room ≠ 0) :
    s.stageMode ring kind d = s.complete ring d.seq stBadDescriptor Code.pwrNotPf 0 0 0 :=
  if_pos ⟨hkind, hroom⟩

/-- No change of the kind is armed to the epoch, as the check of R378 asks it. -/
theorem armed_any_eq_false (h : ∀ m ∈ (s.room r).modes, m.armed = true → ¬ (m.kind = kind ∧ m.epoch = d.epoch)) :
    (((s.room r).modes.filter (·.armed)).any fun m => m.kind = kind && m.epoch = d.epoch) = false := by
  refine List.any_eq_false.mpr fun m hm => ?_
  obtain ⟨hin, harmed⟩ := List.mem_filter.mp hm
  simpa using h m hin harmed

variable (hr : r = pacingOf kind d.mval (s.ring ring).room) (hpf : ¬ (kind ≤ 2 ∧ (s.ring ring).room ≠ 0))
include hr hpf

theorem stageMode_late (hended : (s.room r).stepEnded d.epoch = true) :
    s.stageMode ring kind d = s.complete ring d.seq stBadDescriptor Code.stepLate 0 0 0 := by
  subst hr
  simp only [State.stageMode, hpf, hended, if_true, if_false, State.done]

variable (htime : (s.room r).stepEnded d.epoch = false)
include htime

theorem stageMode_duplicate (hdup : ∃ m ∈ (s.room r).modes, m.armed = true ∧ m.kind = kind ∧ m.epoch = d.epoch) :
    s.stageMode ring kind d = s.complete ring d.seq stBadDescriptor Code.modeDuplicate 0 0 0 := by
  obtain ⟨m, hin, harmed, hkind, hepoch⟩ := hdup
  have hany : (((s.room r).modes.filter (·.armed)).any fun m => m.kind = kind && m.epoch = d.epoch) = true :=
    List.any_eq_true.mpr ⟨m, List.mem_filter.mpr ⟨hin, harmed⟩, by simp [hkind, hepoch]⟩
  subst hr
  simp only [State.stageMode, hpf, htime, hany, Bool.false_eq_true, if_true, if_false, State.done]

variable (hsole : (((s.room r).modes.filter (·.armed)).any fun m => m.kind = kind && m.epoch = d.epoch) = false)
include hsole

theorem stageMode_full (hfull : 8 ≤ ((s.room r).modes.filter (·.armed)).length) :
    s.stageMode ring kind d = s.complete ring d.seq stResourceExhausted Code.modePending 0 0 0 := by
  subst hr
  simp only [State.stageMode, hpf, htime, hsole, hfull, Bool.false_eq_true, if_true, if_false, State.done]

variable (hfree : ((s.room r).modes.filter (·.armed)).length < 8)
include hfree

theorem stageMode_refused {e : DescErr} (hvalue : s.modeValue (s.ring ring).room kind d = .error e) :
    s.stageMode ring kind d = s.complete ring d.seq e.1 e.2 0 0 0 := by
  subst hr
  simp only [State.stageMode, hpf, htime, hsole, Nat.not_le.mpr hfree, hvalue, Bool.false_eq_true, if_false, State.done]

theorem stageMode_armed {l : List (Nat × Nat × Nat)} (hvalue : s.modeValue (s.ring ring).room kind d = .ok l) :
    s.stageMode ring kind d = (s.markStarted ring d.seq).setRoom r { s.room r with
      modes := (s.room r).modes ++ [⟨kind, d.epoch, d.mval, l, 0, true, ring, d.seq, true, false⟩] } := by
  subst hr
  simp only [State.stageMode, hpf, htime, hsole, Nat.not_le.mpr hfree, hvalue, Bool.false_eq_true, if_false]
  rfl

end

/-! ## MODE_STAGE of kind 3 (R352) and CHECKPOINT (R271) -/

section
variable {s : State} {ring : Nat} {d : Desc}

section
variable (hd : s.canStartOp ring 0x07 (fun d => d.fld 8 1 == 3) = some d) (hval : d.mval < 64) (haddr : d.maddr = 0)
  (htime : (s.room d.mval).stepEnded d.epoch = false)
include hd hval haddr htime

theorem exec_sharingTable_passed (h : s.sharingCheck (s.ring ring).room d = none) : exec (.sharingTable ring) s =
    .next { s.markStarted ring d.seq with sched := { s.sched with
      pending := true, pacing := some (ring, d.seq, d.mval, d.epoch), err := 0, passed := true } } := by
  have hvalue : ¬ (d.mval / 64 ≠ 0 ∨ d.maddr ≠ 0) := by omega
  simp only [exec, execSharingTable, hd, hvalue, Nat.mod_eq_of_lt hval, htime, h, Bool.false_eq_true, if_false]
  rfl

theorem exec_sharingTable_failed {k : Nat} (h : s.sharingCheck (s.ring ring).room d = some k) : exec (.sharingTable ring) s =
    .next ({ s with sched := { s.sched with err := k, passed := false } }.complete ring d.seq stBadDescriptor k 0 0 0) := by
  have hvalue : ¬ (d.mval / 64 ≠ 0 ∨ d.maddr ≠ 0) := by omega
  simp only [exec, execSharingTable, hd, hvalue, Nat.mod_eq_of_lt hval, htime, h, Bool.false_eq_true, if_false]
  rfl

end

/-- A CHECKPOINT completes at once where its step has ended, and else its plan waits for the step. -/
theorem exec_checkpoint_starts {r : Nat} (hd : s.canStartOp ring 0x1A anyDesc = some d) (hr : r = (s.ring ring).room) :
    exec (.checkpoint ring) s = .next (
      if (s.room r).stepEnded d.epoch = true then s.complete ring d.seq stBadDescriptor Code.stepLate 0 0 0
      else (s.markStarted ring d.seq).setRoom r { s.room r with plans := (s.room r).plans ++
        [⟨d.epoch, if d.fld 8 1 = 1 then none else some ⟨d.fld 16 2, d.fld 18 2, d.fld 20 4, d.fld 24 8, d.fld 32 8⟩, ring, d.seq⟩] }) := by
  subst hr
  simp only [exec, execCheckpoint, hd]
  rfl

end

/-- Settles O34: each kind by the check of R378 or R352 that fails first, or by what stands armed when none does. -/
theorem modeChangesAreStagedToAStep : Obligations.ModeChangesAreStagedToAStep := by
  unfold Obligations.ModeChangesAreStagedToAStep
  refine ⟨?stage, ?table, ?checkpoint⟩
  case stage =>
    intro s ring kind r c d hc hd hr
    rw [exec_modeStage hc hd]
    refine ⟨fun hkind hroom => by rw [stageMode_notPf hkind hroom], fun hgranted => ?granted⟩
    have hpf : ¬ (kind ≤ 2 ∧ (s.ring ring).room ≠ 0) := by omega
    refine ⟨fun hended => ?late, fun htime hdup => ?duplicate, fun htime hsole => ⟨fun hfull => ?full, fun hfree => ⟨fun e hvalue => ?refused, fun l hvalue => ?armed⟩⟩⟩
    case late => rw [stageMode_late hr hpf hended]
    case duplicate => rw [stageMode_duplicate hr hpf htime hdup]
    case full => rw [stageMode_full hr hpf htime (armed_any_eq_false hsole) hfull]
    case refused => rw [stageMode_refused hr hpf htime (armed_any_eq_false hsole) hfree hvalue]
    case armed => rw [stageMode_armed hr hpf htime (armed_any_eq_false hsole) hfree hvalue]
  case table =>
    intro s ring d hd hval haddr htime
    exact ⟨fun h => ⟨_, exec_sharingTable_passed hd hval haddr htime h, rfl, rfl, rfl, rfl, rfl⟩,
      fun _ h => exec_sharingTable_failed hd hval haddr htime h⟩
  case checkpoint =>
    intro s ring r d hd hr
    rw [exec_checkpoint_starts hd hr]
    exact ⟨fun hended => by rw [if_pos hended], fun htime => by rw [if_neg (ne_true_of_eq_false htime)]⟩

end Sys2Proof.Machine
end

section
/-! PROOFS. LAUNCH and RESTORE from their checks to the hold of the room, and the end of a RESTORE whose holder is silent (R279, R315, R399, R433). -/

namespace Sys2Proof.Machine

open Sys2Proof Sys2Proof.Obl

/-! ## Time and messages -/

/-- Device time reaches the time of an event, whatever step of it falls due on the way (R433). -/
theorem max_le_upto_now (s : State) (n : Nat) : Nat.max s.time.now n ≤ (s.upto n).time.now := by
  simp only [State.upto, Timebase.advance]
  split
  · exact Nat.le_refl _
  · split
    · exact Nat.le_refl _
    · split
      · exact Nat.le_max_left _ _
      · exact Nat.le_refl _

@[simp] theorem State.upto_flow (s : State) (n key : Nat) : (s.upto n).flow key = s.flow key := rfl

/-- A message to the head changes flows, the sender's count and the output (R413). -/
theorem ctrlUp_spec (s : State) (ctype cjob cinc : Nat) (cseq : Option Nat) (body : List Byte) : ∃ fl o, s.ctrlUp ctype cjob cinc cseq body = { s with
    net := { s.net with flows := fl }
    caravan := { s.caravan with cseq := if cseq.isSome then s.caravan.cseq else (s.caravan.cseq + 1) % 2 ^ 32 }
    out := o } := ctrlSend_spec ..

@[simp] theorem ctrlUp_room (s : State) (ctype cjob cinc : Nat) (cseq : Option Nat) (body : List Byte) (q : Nat) :
    (s.ctrlUp ctype cjob cinc cseq body).room q = s.room q := by
  obtain ⟨fl, o, h⟩ := ctrlUp_spec s ctype cjob cinc cseq body
  rw [h]; rfl

@[simp] theorem ctrlUp_rings (s : State) (ctype cjob cinc : Nat) (cseq : Option Nat) (body : List Byte) :
    (s.ctrlUp ctype cjob cinc cseq body).rings = s.rings := by
  obtain ⟨fl, o, h⟩ := ctrlUp_spec s ctype cjob cinc cseq body
  rw [h]

@[simp] theorem ctrlUp_cores (s : State) (ctype cjob cinc : Nat) (cseq : Option Nat) (body : List Byte) :
    (s.ctrlUp ctype cjob cinc cseq body).cores = s.cores := by
  obtain ⟨fl, o, h⟩ := ctrlUp_spec s ctype cjob cinc cseq body
  rw [h]

/-! ## The refusals of R315 -/

section
variable {s : State} {ring r busy : Nat} {d : Desc} {e : CellarRead}

/-- LAUNCH and RESTORE go through one list of checks, each with its code for a held room. -/
theorem exec_starting {c : Instr} (hd : s.canStartOp ring d.opcode anyDesc = some d)
    (hc : (c, d.opcode, busy, e) ∈ [(Instr.launch ring, 0x01, Code.launchBusy, ⟨0, 0, false⟩), (.restore ⟨ring, e⟩, 0x1B, Code.snapParams, e)]) :
    exec c s = .next (s.starting ring d busy e) := by
  simp only [List.mem_cons, List.not_mem_nil, or_false, Prod.mk.injEq] at hc
  rcases hc with ⟨rfl, hop, rfl, rfl⟩ | ⟨rfl, hop, rfl, -⟩
  · rw [hop] at hd
    simp only [exec, execLaunch, hd]
  · rw [hop] at hd
    simp only [exec, execRestore, hd]

variable (hr : r = (s.ring ring).room) (hfresh : ∀ j, (s.room r).job = some j → ¬ (j.ring = ring ∧ j.seq = d.seq))
include hr hfresh

theorem starting_badProgram {k : Nat} (hprog : s.progOf r (d.fld 24 4) (d.fld 28 4) none = .error k) :
    s.starting ring d busy e = s.complete ring d.seq stBadDescriptor k 0 0 0 := by
  subst hr
  have hown : ((s.room (s.ring ring).room).job.any fun j => j.ring = ring && j.seq = d.seq) = false := by
    simpa [Option.any_eq_false] using hfresh
  simp only [State.starting, hown, hprog, Bool.false_eq_true, if_false, State.done]

/-- After the program's checks: a held room, the device's service and its membership, in this order. -/
theorem starting_program {l : List Nat} (hprog : s.progOf r (d.fld 24 4) (d.fld 28 4) none = .ok l) : s.starting ring d busy e =
    if (s.room r).job ≠ none then s.complete ring d.seq stBadDescriptor busy 0 0 0
    else if s.inService = false then s.complete ring d.seq stResourceExhausted Code.healthOos 0 0 0
    else if 1 < d.fld 24 4 ∧ s.caravan.member = false then s.complete ring d.seq stBadDescriptor Code.carNomember 0 0 0
    else s.holdRoom r ring d e := by
  subst hr
  have hown : ((s.room (s.ring ring).room).job.any fun j => j.ring = ring && j.seq = d.seq) = false := by
    simpa [Option.any_eq_false] using hfresh
  simp only [State.starting, hown, hprog, Bool.false_eq_true, if_false, State.done, Room.busy, Option.isSome_iff_ne_none, Bool.not_eq_true']

end

/-! ## The hold -/

section
variable {s : State} {ring r : Nat} {d : Desc} {e : CellarRead}

/-- Away from the head a job of several devices sends its JOIN and waits: its room is held, and no other room, no ring and no core changes. -/
theorem holdRoom_several (hn : 1 < d.fld 24 4) (hhead : s.caravan.isHead = false) : ∃ seed,
    ((s.holdRoom r ring d e).room r).job = some { newJob ring d seed e with joinSeq := s.caravan.cseq } ∧
    (∀ q, q ≠ r → (s.holdRoom r ring d e).room q = s.room q) ∧ (s.holdRoom r ring d e).rings = s.rings ∧ (s.holdRoom r ring d e).cores = s.cores := by
  have hseveral (seed : Nat) : ¬ (newJob ring d seed e).devices ≤ 1 := Nat.not_le.mpr hn
  simp only [State.holdRoom, hseveral, if_false, State.modRoom_caravan, hhead, Bool.false_eq_true, ctrlUp_room, ctrlUp_rings, ctrlUp_cores, State.modRoom_room]
  exact ⟨_, rfl, fun q hq => State.modRoom_room_ne _ _ hq, rfl, rfl⟩

/-- A start given up frees its room and completes its descriptor. -/
theorem failStart_held {j : Job} (hj : (s.room r).job = some j) (status detail res0 res1 : Nat) : s.failStart r status detail res0 res1 =
    (s.setRoom r { s.room r with
      job := none
      mem := { (s.room r).mem with pinned := [] } }).complete j.ring j.seq status detail res0 res1 0 := by
  simp only [State.failStart, hj, State.modRoom]

/-- A holder that has answered nothing 2 s after the fetch began ends the RESTORE (R279 step 1). -/
theorem exec_mirrorFetchTimeout_silent {room at_ b : Nat} {j : Job} (hj : (s.room room).job = some j) (hphase : j.phase = 0)
    (hfetch : j.fetchAt = some b) (hdue : b + 2000000000 ≤ Nat.max s.time.now at_)
    (hsilent : ∀ g ∈ (s.flow (flowKey room j.holder 0xFFF0)).gets, g.answered = false) :
    exec (.mirrorFetchTimeout room at_) s = .next ((s.upto at_).failStart room stTimeout Code.snapFetch 0 0) := by
  have hphase' : decide (j.phase = 0) = true := decide_eq_true hphase
  have hsilent' : (((s.upto at_).flow (flowKey room j.holder 0xFFF0)).gets.all fun g => !g.answered) = true :=
    List.all_eq_true.mpr fun g hg => by rw [hsilent g (State.upto_flow s at_ _ ▸ hg)]; rfl
  have hlate : (j.fetchAt.any fun t => decide (t + 2000000000 ≤ (s.upto at_).now)) = true := by
    rw [hfetch, Option.any_some]
    exact decide_eq_true (Nat.le_trans hdue (max_le_upto_now s at_))
  simp only [exec, execMirrorFetchTimeout, State.upto_room, hj, hphase', hsilent', hlate, Bool.and_self, if_true]

end

/-- Settles O33: the checks in their order, the hold of a job of several devices, and the holder's silence. -/
theorem startingDescriptorHoldsTheRoom : Obligations.StartingDescriptorHoldsTheRoom := by
  unfold Obligations.StartingDescriptorHoldsTheRoom
  refine ⟨?start, ?silent⟩
  case start =>
    intro s ring r busy e d c hc hd hr hfresh
    rw [exec_starting hd hc]
    refine ⟨fun k hprog => by rw [starting_badProgram hr hfresh hprog], fun l hprog => ?checked⟩
    rw [starting_program hr hfresh hprog]
    refine ⟨fun hheld => ?held, fun hfree hout => ?outOfService, fun hfree hin hn hno => ?noMember, fun hfree hin hmay => ?hold,
      fun hfree hin hn hmember hhead => ?several⟩
    case held => rw [if_pos hheld]
    all_goals rw [if_neg (not_not.mpr hfree)]
    case outOfService => rw [if_pos hout]
    all_goals rw [if_neg (ne_false_of_eq_true hin)]
    case noMember => rw [if_pos ⟨hn, hno⟩]
    case hold => rw [if_neg (by rintro ⟨hn, hno⟩; exact hmay.elim (Nat.not_le.mpr hn) (ne_true_of_eq_false hno))]
    case several =>
      rw [if_neg (by simp [hmember])]
      obtain ⟨seed, hjob, hrooms, hrings, hcores⟩ := holdRoom_several (r := r) (ring := ring) (e := e) hn hhead
      exact ⟨_, _, rfl, hjob, rfl, rfl, rfl, rfl, rfl, hrooms, hrings, hcores⟩
  case silent =>
    intro s room at_ b j hj hphase hfetch hdue hsilent
    rw [exec_mirrorFetchTimeout_silent hj hphase hfetch hdue hsilent, failStart_held (s := s.upto at_) hj]
    rfl

end Sys2Proof.Machine
end

section
/-! PROOFS. JOINs at the head and at managers, MAP, START, FAULT and ABORT, and the timers of a job's record (R368, R413, R419, R421, R422, R427 to R429). -/

namespace Sys2Proof.Machine

open Sys2Proof Sys2Proof.Obl

/-! ## Messages at the head and below it (R413) -/

section
variable {s : State} {p : Pkt} {ctype : Nat}

/-- A message's arrival counts against its sender's second, and changes nothing of the caravan. -/
@[simp] theorem ctrlSeen_caravan (s : State) (p : Pkt) : (ctrlSeen s p).caravan = s.caravan := rfl

/-- What a manager passes down is for another member than itself. -/
theorem own_of_fromGiver (h : FromGiver s p ctype) : (s.caravan.isManager && p.remote != s.caravan.mid) = false := by
  obtain ⟨-, -, -, hworker | hmine⟩ := h
  · rw [hworker]; rfl
  · simp [hmine]

/-- A message from the lease giver to this member itself acts on the state that has seen it. -/
theorem fromAbove_giver (h : FromGiver s p ctype) (f : State → State) : s.fromAbove p ctype f = f (ctrlSeen s p) := by
  have hown := own_of_fromGiver h
  obtain ⟨hpass, hhead, hsrc, -⟩ := h
  rw [State.fromAbove, ctrlRow_pass hpass]
  simp only [ctrlSeen_caravan, hhead, hsrc, hown, Bool.false_eq_true, ne_eq, not_true_eq_false, or_self, if_false]

/-- One for another member goes down from its manager. -/
theorem fromAbove_manager (hpass : CtrlPasses s p ctype) (hhead : s.caravan.isHead = false) (hsrc : p.src = s.caravan.giver)
    (hman : s.caravan.isManager = true) (hother : p.remote ≠ s.caravan.mid) (f : State → State) :
    s.fromAbove p ctype f = (ctrlSeen s p).passDown p p.body := by
  rw [State.fromAbove, ctrlRow_pass hpass]
  simp [ctrlSeen_caravan, hhead, hsrc, hman, hother]

/-- A message for the head acts there. -/
theorem toHead_head (hpass : CtrlPasses s p ctype) (hhead : s.caravan.isHead = true) (f : State → State) :
    s.toHead p ctype f = f (ctrlSeen s p) := by
  rw [State.toHead, ctrlRow_pass hpass]
  exact if_pos hhead

end

/-! ## JOIN (R419, R421) -/

section
variable {s : State} {p : Pkt}

theorem exec_join_manager (hpass : CtrlPasses s p 0x10) (hhead : s.caravan.isHead = false) (hman : s.caravan.isManager = true)
    (hmine : managerOf p.src = s.caravan.mid) : exec (.join p) s = .next ((ctrlSeen s p).passUp p
      { JoinMsg.ofPkt p (s.originOf p) with marked := s.caravan.marked.contains (JoinMsg.ofPkt p (s.originOf p)).mid }.body) := by
  have horigin : (ctrlSeen s p).originOf p = s.originOf p := rfl
  simp only [exec, execJoin, ctrlRow_pass hpass, ctrlSeen_caravan, horigin, hhead, hman, hmine, Bool.false_eq_true, if_false, beq_self_eq_true, Bool.and_self, if_true]

theorem exec_join_head (hpass : CtrlPasses s p 0x10) (hhead : s.caravan.isHead = true) {m : JoinMsg} (hm : m = JoinMsg.ofPkt p (s.originOf p)) :
    exec (.join p) s = .next ((ctrlSeen s p).headJoin { m with marked := m.marked || s.caravan.marked.contains m.mid }) := by
  subst hm
  have horigin : (ctrlSeen s p).originOf p = s.originOf p := rfl
  simp only [exec, execJoin, ctrlRow_pass hpass, ctrlSeen_caravan, horigin, hhead, if_true]

end

section
variable {s : State} {m : JoinMsg} {k : Bool} {f : Option (Nat × HeadJob)} (hf : f = s.caravan.jobs.find? fun x => x.2.seed = m.seed && x.2.devices = m.devices)
include hf

theorem headJoin_refused {c : Nat} (h : joinRefusal (f.map (·.2)) { m with marked := k } = some c) :
    s.headJoin { m with marked := k } = s.answerJoin m.mid m.cseq c := by
  simp only [State.headJoin, ← hf, h]

/-- The record that the first JOIN of a job opens: nobody has started it, and this join is counted. -/
def openedJob (tag now : Nat) (m : JoinMsg) : HeadJob :=
  { tag := tag, seed := m.seed, devices := m.devices, variant := m.variant, fw := m.fw, kind := m.kind, incarn := 0, step := m.step,
    joins := [⟨m.mid, m.rank, m.cseq⟩], firstJoin := now, started := none, running := false, aborting := false, kgen := 0, map := [], bar := none,
    released := none, complete := 0xFFFFFFFF, ended := none }

/-- The first JOIN of a job takes the next tag and opens its record; more joins are still to come. -/
theorem headJoin_opens (hnew : f = none) (h : joinRefusal (f.map (·.2)) { m with marked := k } = none) (hmore : m.devices ≠ 1) :
    s.headJoin { m with marked := k } = State.setJob { s with caravan := { s.caravan with nextTag := s.caravan.nextTag % (2 ^ 32 - 1) + 1 } } s.caravan.nextTag
      (openedJob s.caravan.nextTag s.time.now m) := by
  subst hnew
  simp only [State.headJoin, ← hf, h]
  exact if_neg (Ne.symm hmore)

end

section
variable {h : HeadJob} {m : JoinMsg}

theorem joinRefusal_busy (hrun : h.running = true) : joinRefusal (some h) m = some Code.carBusy :=
  if_pos hrun

variable (hrun : h.running = false)
include hrun

theorem joinRefusal_rank (hrank : m.devices ≤ m.rank) : joinRefusal (some h) m = some Code.carRank := by
  simp only [joinRefusal, Option.any_some, hrun, hrank, Bool.false_eq_true, true_or, if_false, if_true]

/-- A first LAUNCH of a record without joins, of a rank in range and alike in variant and firmware, is refused only for its sender's mark. -/
theorem joinRefusal_first (hrank : m.rank < m.devices) (hjoins : h.joins = []) (hvar : h.variant = m.variant) (hfw : h.fw = m.fw)
    (hstarted : h.started = none) (hkind : m.kind = 0) (hincarn : m.incarn = 0) :
    joinRefusal (some h) m = if m.marked = true then some Code.carLaggard else none := by
  simp [joinRefusal, hrun, Nat.not_le.mpr hrank, hjoins, hvar, hfw, hstarted, hkind, hincarn]

end

/-! ## MAP (R422) -/

/-- The ranks of a MAP are entered in their order, and no other rank of the job changes. -/
theorem enterMap_entries (s : State) (tag first : Nat) (l : List Nat) :
    (∀ i m, l[i]? = some m → tfind (tget [] (s.enterMap tag first l).caravan.maps tag) (first + i) = some m) ∧
    (∀ k, (k < first ∨ first + l.length ≤ k) → tfind (tget [] (s.enterMap tag first l).caravan.maps tag) k = tfind (tget [] s.caravan.maps tag) k) := by
  simpa only [State.enterMap, tget_tset_self, Nat.add_zero] using fold_enter l first 0 (tget [] s.caravan.maps tag)

theorem exec_map_giver {s : State} {p : Pkt} (h : FromGiver s p 0x12) : exec (.map p) s =
    .next ((ctrlSeen s p).enterMap p.cjob (p.arg 0 4) ((List.range (p.arg 4 4)).map fun i => p.arg (8 + 4 * i) 4)) := by
  have hown := own_of_fromGiver h
  obtain ⟨hpass, hhead, hsrc, -⟩ := h
  simp only [exec, execMap, ctrlRow_pass hpass, ctrlSeen_caravan, hhead, hsrc, Bool.false_eq_true, ne_eq, not_true_eq_false, or_self, if_false]
  exact congrArg Host.Outcome.next (if_neg (ne_true_of_eq_false hown))

/-! ## FAULT and ABORT (R427, R428) -/

theorem exec_fault_head {s : State} {p : Pkt} {h : HeadJob} (hpass : CtrlPasses s p 0x16) (hhead : s.caravan.isHead = true)
    (hjob : tfind s.caravan.jobs p.cjob = some h) : exec (.fault p) s = .next (
      if h.incarn = p.cinc then (ctrlSeen s p).headAbort p.cjob (p.arg 0 4) (p.arg 8 2)
      else (ctrlSeen s p).healthRecord 6 (p.arg 8 2) 0xFFFF 0xFFFF (p.arg 0 4)) := by
  have hjob' : tfind (ctrlSeen s p).caravan.jobs p.cjob = some h := hjob
  simp only [exec, execFault, toHead_head hpass hhead, hjob']

theorem exec_abort_giver {s : State} {p : Pkt} (h : FromGiver s p 0x17) : exec (.abort p) s =
    .next ((((ctrlSeen s p).dropBar p.cjob).abortHere p.cjob p.cinc (p.arg 8 2) (p.arg 0 4)).takeOver) := by
  have hown := own_of_fromGiver h
  obtain ⟨hpass, hhead, hsrc, -⟩ := h
  simp only [exec, execAbort, ctrlRow_pass hpass, ctrlSeen_caravan, hhead, hsrc, hown, Bool.false_eq_true, ne_eq, not_true_eq_false, or_self, if_false]

/-! ## Timers of a job's record (R421, R429) -/

section
variable {s : State} {tag at_ : Nat} {h : HeadJob} (hjob : tfind s.caravan.jobs tag = some h)
include hjob

theorem exec_assemblyTimeout_found : exec (.assemblyTimeout tag at_) s = .next (
    if h.joins = [] ∨ (s.upto at_).time.now < h.firstJoin + s.caravan.assembleMs * 1000000 then s.upto at_
    else h.joins.foldl (fun v x => v.answerJoin x.mid x.cseq Code.carAssembly)
      (if h.started.isSome = true then (s.upto at_).setJob tag { h with joins := [] }
        else { s.upto at_ with caravan := { s.caravan with jobs := tdel s.caravan.jobs tag } })) := by
  have hjob' : tfind (s.upto at_).caravan.jobs tag = some h := hjob
  simp only [exec, execAssemblyTimeout, hjob', ← List.isEmpty_iff]
  rfl

/-- A record stays while its job has not ended, runs or has joins, and for 10 minutes after its end and its last JOIN. -/
theorem exec_jobRecordExpiry_early
    (hkeep : h.ended = none ∨ h.running = true ∨ h.joins ≠ [] ∨ (s.upto at_).time.now < h.firstJoin + 600000000000) :
    exec (.jobRecordExpiry tag at_) s = .next (s.upto at_) := by
  simp only [exec, execJobRecordExpiry, State.upto_caravan, hjob]
  cases hend : h.ended with
  | none => rfl
  | some t =>
    have hlast : h.firstJoin ≤ Nat.max t h.firstJoin := Nat.le_max_right ..
    have hstays : (h.running || !h.joins.isEmpty || decide ((s.upto at_).now < Nat.max t h.firstJoin + 600000000000)) = true := by
      rcases hkeep with g | g | g | g
      · simp [hend] at g
      · simp [g]
      · simp [g]
      · simp [show (s.upto at_).now < Nat.max t h.firstJoin + 600000000000 from Nat.lt_of_lt_of_le g (Nat.add_le_add_right hlast _)]
    simp only [hstays, if_true]

theorem exec_jobRecordExpiry_due {t : Nat} (hend : h.ended = some t) (hrun : h.running = false) (hjoins : h.joins = [])
    (hdue : Nat.max t h.firstJoin + 600000000000 ≤ (s.upto at_).time.now) :
    exec (.jobRecordExpiry tag at_) s = .next { s.upto at_ with caravan := { s.caravan with jobs := tdel s.caravan.jobs tag } } := by
  have hdue' : ¬ (s.upto at_).now < Nat.max t h.firstJoin + 600000000000 := Nat.not_lt.mpr hdue
  simp only [exec, execJobRecordExpiry, State.upto_caravan, hjob, hend, hrun, hjoins, List.isEmpty_nil, Bool.not_true, hdue', decide_false,
    Bool.or_self, Bool.false_eq_true, if_false]

end

/-- Settles O52: each message by what its row does where it acts, and each timer by whether its time has come. -/
theorem jobsAreAssembledAndFaultsEndThem : Obligations.JobsAreAssembledAndFaultsEndThem := by
  unfold Obligations.JobsAreAssembledAndFaultsEndThem
  refine ⟨?join, ?refusals, ?messages, enterMap_entries, ?timers⟩
  case join =>
    rintro s u p m rfl hpass rfl
    refine ⟨exec_join_manager hpass, ?_⟩
    rintro hhead k f rfl hf
    rw [exec_join_head hpass hhead rfl]
    refine ⟨fun c hc => ?refused, fun hc hnew hmore => ?opened⟩
    case refused => rw [headJoin_refused (s := ctrlSeen s p) hf hc]
    case opened =>
      rw [headJoin_opens (s := ctrlSeen s p) hf hnew hc hmore]
      exact ⟨_, _, rfl, tfind_tset_self .., rfl, rfl, rfl, rfl, rfl, rfl, rfl⟩
  case refusals => exact fun h m => ⟨joinRefusal_busy, joinRefusal_rank, joinRefusal_first⟩
  case messages =>
    rintro s u p rfl
    exact ⟨exec_map_giver, fun h => congrArg Host.Outcome.next (fromAbove_giver h _),
      fun hpass hhead hsrc hman hother => congrArg Host.Outcome.next (fromAbove_manager hpass hhead hsrc hman hother _),
      fun hpass hhead h hjob => exec_fault_head hpass hhead hjob, exec_abort_giver⟩
  case timers =>
    intro s tag at_ h hjob
    refine ⟨fun hjoins hdue => ?assembly, fun hearly => ?early, fun t => exec_jobRecordExpiry_due hjob, exec_jobRecordExpiry_early hjob⟩
    case assembly => rw [exec_assemblyTimeout_found hjob, if_neg (by rintro (g | g); exacts [hjoins g, absurd g (Nat.not_lt.mpr hdue)])]
    case early => rw [exec_assemblyTimeout_found hjob, if_pos hearly]

end Sys2Proof.Machine
end

section
/-! PROOFS. Step barriers: joined by a device, counted at the head, released, and late (R273, R275, R318, R352, R379, R423 to R425). -/

namespace Sys2Proof.Machine

open Sys2Proof Sys2Proof.Obl

/-! ## BAR_JOIN of a room (R273, R423) -/

section
variable {s : State} {room : Nat} {j : Job} (hj : (s.room room).job = some j)
include hj

theorem exec_barJoin_held (h : BarHeld s room j) : exec (.barJoin room) s = .next s := by
  have hheld : (j.faulted || j.waiting || !j.unitsIn || s.joinHeld room j.epoch || s.paced room j.epoch) = true := by
    rcases h with h | h | h | h | h <;> simp [h]
  simp only [exec, execBarJoin, State.barJoin, hj, hheld, if_true]

variable (hfree : ¬ BarHeld s room j)
include hfree

omit hj in
/-- A barrier that nothing holds, as BAR_JOIN asks it. -/
theorem barHeld_false : (j.faulted || j.waiting || !j.unitsIn || s.joinHeld room j.epoch || s.paced room j.epoch) = false := by
  simpa [BarHeld, and_assoc] using hfree

theorem exec_barJoin_noSnap (h : ¬ (j.phase = 2 ∧ (s.room room).snapDue j.epoch = true ∧ j.marked = false)) :
    exec (.barJoin room) s = .next (s.joinNow room j) := by
  have hdue : (decide (j.phase = 2) && (s.room room).snapDue j.epoch && !j.marked) = false := by
    simpa using fun h2 h3 => by simpa using fun h4 => h ⟨h2, h3, h4⟩
  simp only [exec, execBarJoin, State.barJoin, hj, barHeld_false hfree, hdue, Bool.false_eq_true, if_false]

variable (hphase : j.phase = 2) (hdue : (s.room room).snapDue j.epoch = true) (hmark : j.marked = false)
include hphase hdue hmark

theorem exec_barJoin_working (hwork : (s.room room).quiet = false) : exec (.barJoin room) s = .next s := by
  simp only [exec, execBarJoin, State.barJoin, hj, barHeld_false hfree, hphase, hdue, hmark, hwork, decide_true, Bool.not_false, Bool.and_self, if_true,
    Bool.false_eq_true, if_false]

/-- In a quiet room with a snapshot due: the plan's buddy and bytes, a free slot, and what the head knows, in this order (R273, R275). -/
theorem exec_barJoin_snap (hquiet : (s.room room).quiet = true) {p : SnapPlan} (hp : (s.room room).mem.snap.plan = some p) :
    exec (.barJoin room) s = .next (
      if 1 < j.devices ∧ p.buddy ≠ buddyOf j.rank j.devices then s.raiseFault room Code.buddyMismatch noUnit
      else if p.snapBytes < (s.snapOf room j).bytes then s.raiseFault room Code.snapOversize noUnit
      else if (s.room room).mem.snap.free = true then ((s.snapWaited room).markSnap room j).joinNow room j
      else if 1 < j.devices ∧ (s.room room).mem.snap.copying = none ∧ (s.room room).mem.snap.report = (s.room room).mem.snap.newestStep then
        (s.snapHold room).sendJoin room
      else s.snapHold room) := by
  have hbuddy : ((s.room room).mem.snap.plan.any fun p => decide (p.buddy ≠ buddyOf j.rank j.devices)) = decide (p.buddy ≠ buddyOf j.rank j.devices) := by
    rw [hp, Option.any_some]
  have hsize : ((s.room room).mem.snap.plan.any fun p => decide (p.snapBytes < (s.snapOf room j).bytes)) = decide (p.snapBytes < (s.snapOf room j).bytes) := by
    rw [hp, Option.any_some]
  simp only [exec, execBarJoin, State.barJoin, hj, barHeld_false hfree, hphase, hdue, hmark, hquiet, hbuddy, hsize, decide_true, Bool.not_false,
    Bool.not_true, Bool.and_self, if_true, Bool.false_eq_true, if_false, decide_eq_true_eq, Bool.and_eq_true, Option.isNone_iff_eq_none, beq_iff_eq,
    and_assoc]

end

/-- A join of a device that is neither head nor manager: its job waits, and its count of messages has risen. -/
theorem sendJoin_worker {s : State} {room : Nat} {j : Job} (hj : (s.room room).job = some j) (hhead : s.caravan.isHead = false)
    (hman : s.caravan.isManager = false) : ∃ n, ((s.sendJoin room).room room).job = some { j with waiting := true, reportedSnap := n } ∧
      (s.sendJoin room).caravan.cseq = (s.caravan.cseq + 1) % 2 ^ 32 := by
  obtain ⟨n, b, h⟩ := sendJoin_spec hj hhead hman
  refine ⟨n, ?_, ?_⟩
  · rw [h, ctrlUp_room, State.modRoom_room, hj]; rfl
  · obtain ⟨fl, o, hsent⟩ := ctrlUp_spec (s.modRoom room fun x => { x with job := x.job.map fun (j : Job) => { j with waiting := true, reportedSnap := n } }) 0x14 j.tag j.incarn none b
    rw [h, hsent]; rfl

/-! ## BAR_JOIN and RELEASE as messages (R425) -/

section
variable {s : State} {p : Pkt}

theorem exec_barJoinMessage_head (hpass : CtrlPasses s p 0x14) (hhead : s.caravan.isHead = true) : exec (.barJoinMessage p) s =
    .next ((ctrlSeen s p).headCount p.cjob p.cinc (p.arg 0 4) (p.arg 8 8) (p.arg 28 1) ⟨p.src, p.arg 4 4, p.arg 16 8, (p.arg 24 4 + 1) % 2 ^ 32⟩) := by
  simp only [exec, execBarJoinMessage, ctrlRow_pass hpass, ctrlSeen_caravan, hhead, if_true]

theorem exec_barJoinMessage_manager (hpass : CtrlPasses s p 0x14) (hhead : s.caravan.isHead = false) (hman : s.caravan.isManager = true)
    (hmine : managerOf p.src = s.caravan.mid) : exec (.barJoinMessage p) s =
    .next ((ctrlSeen s p).managerCount p.cjob p.cinc (p.arg 0 4) (p.arg 8 8) (p.arg 28 1) ⟨p.src, p.arg 4 4, p.arg 16 8, (p.arg 24 4 + 1) % 2 ^ 32⟩) := by
  simp only [exec, execBarJoinMessage, ctrlRow_pass hpass, ctrlSeen_caravan, hhead, hman, hmine, Bool.false_eq_true, if_false, beq_self_eq_true, Bool.and_self, if_true]

theorem exec_release_worker (h : FromGiver s p 0x15) (hman : s.caravan.isManager = false) : exec (.release p) s =
    .next ((ctrlSeen s p).releaseHere p.cjob p.cinc (p.arg 0 4) (if p.arg 4 4 = 0xFFFFFFFF then none else some (p.arg 4 4))) := by
  obtain ⟨hpass, hhead, hsrc, -⟩ := h
  simp only [exec, execRelease, ctrlRow_pass hpass, ctrlSeen_caravan, hhead, hsrc, hman, Bool.false_eq_true, ne_eq, not_true_eq_false, or_self, if_false]

end

/-! ## Counting at the head (R379, R425) -/

section
variable {s : State} {tag incarn epoch digest ends : Nat} {x : BarEntry} {h : HeadJob} (hjob : tfind s.caravan.jobs tag = some h)
include hjob

theorem headCount_stale (hstale : h.running = false ∨ h.incarn ≠ incarn) : s.headCount tag incarn epoch digest ends x = s := by
  have hstale' : (!h.running) = true ∨ h.incarn ≠ incarn := hstale.imp_left fun g => by rw [g]; rfl
  simp only [State.headCount, hjob, hstale', if_true]

variable (hrun : h.running = true) (hincarn : h.incarn = incarn)
include hrun hincarn

/-- The first join opens the count of its epoch, and waits for the others. -/
theorem headCount_opens (hbar : h.bar = none) (hmore : x.members ≠ h.devices) :
    tfind (s.headCount tag incarn epoch digest ends x).caravan.jobs tag = some { h with bar := some ⟨epoch, [x], digest, ends, s.time.now, incarn⟩ } := by
  have hlive : ¬ ((!h.running) = true ∨ h.incarn ≠ incarn) := by simp [hrun, hincarn]
  have hagree : BarCount.clash ⟨epoch, [], digest, ends, s.now, incarn⟩ digest ends = none := by simp [BarCount.clash]
  have hends : Nat.max ends ends = ends := Nat.max_self ends
  have hcount : BarCount.members ⟨epoch, [x], digest, ends, s.now, incarn⟩ ≠ h.devices := by simpa [BarCount.members, sumNat] using hmore
  simp only [State.headCount, hjob, hlive, hbar, hagree, hends, BarCount.enter, Option.getD_none, List.filter_nil, List.nil_append, ne_eq, not_true_eq_false,
    if_false, State.headRelease, State.setJob, tfind_tset_self, hcount, not_false_eq_true, true_or, if_true]
  rfl

variable {b : BarCount} (hbar : h.bar = some b)
include hbar

theorem headCount_otherEpoch (hepoch : b.epoch ≠ epoch) : s.headCount tag incarn epoch digest ends x = s := by
  have hlive : ¬ ((!h.running) = true ∨ h.incarn ≠ incarn) := by simp [hrun, hincarn]
  simp only [State.headCount, hjob, hlive, hbar, Option.getD_some, if_false, if_pos hepoch]

/-- A join that disagrees with the first one aborts the job, at its sender's rank. -/
theorem headCount_clash (hepoch : b.epoch = epoch) {c : Nat} (hclash : b.clash digest ends = some c) :
    s.headCount tag incarn epoch digest ends x = s.headAbort tag (rankOf h.map x.mid) c := by
  have hlive : ¬ ((!h.running) = true ∨ h.incarn ≠ incarn) := by simp [hrun, hincarn]
  simp only [State.headCount, hjob, hlive, hbar, Option.getD_some, hepoch, hclash, if_false, ne_eq, not_true_eq_false]

end

/-! ## Late barriers (R424, R425) -/

/-- The code of a barrier that is late in a room: MODE_ACK where everything but the acknowledgement of a mode entry is in, else BAR_LOCAL (R424). -/
def State.lateCode (s : State) (room : Nat) (j : Job) : Nat :=
  if (j.unitsIn && !s.joinHeld room j.epoch && !s.paced room j.epoch && (j.phase ≠ 2 || !(s.room room).snapDue j.epoch || (s.room room).quiet)) &&
    !((s.room room).modesAt j.epoch).isEmpty then Code.modeAck else Code.barLocal

theorem lateCode_barLocal {s : State} {room : Nat} {j : Job} (h : j.unitsIn = false ∨ (s.room room).modesAt j.epoch = []) :
    s.lateCode room j = Code.barLocal := by
  rcases h with h | h <;> simp [State.lateCode, h]

section
variable {s u : State} {room at_ : Nat} {j : Job} (hj : (s.room room).job = some j) (hu : u = s.upto at_)
include hj hu

/-- BAR_LOCAL of a running room: a fault that stands, a late WAIT, a barrier joined or not begun, and a late one, in this order. -/
theorem exec_barLocal_found : exec (.barLocal room at_) s = .next (
    if j.faulted = true then u
    else if waitsLate u room = true then u.raiseFault room Code.barLocal noUnit
    else if (j.waiting || !j.firstJoin.any fun t => decide (t + s.caravan.barrierNs ≤ u.time.now)) = true then u
    else u.raiseFault room (u.lateCode room j) noUnit) := by
  subst hu
  simp only [exec, execBarLocal, State.upto_room, hj]
  rfl

/-- A barrier whose first unit joined too long ago is late; before, it is not. -/
theorem exec_barLocal_joining {t : Nat} (hwell : j.faulted = false) (hwait : waitsLate u room = false) (hout : j.waiting = false)
    (hfirst : j.firstJoin = some t) : exec (.barLocal room at_) s = .next (
    if t + s.caravan.barrierNs ≤ u.time.now then u.raiseFault room (u.lateCode room j) noUnit else u) := by
  rw [exec_barLocal_found hj hu, if_neg (by simp [hwell]), if_neg (by simp [hwait]), hout, hfirst, Option.any_some, Bool.false_or]
  by_cases h : t + s.caravan.barrierNs ≤ u.time.now <;> simp [h]

end

/-- BAR_TIMEOUT of an open count: nothing before its time, and then every missing rank on record and the job aborted with the first. -/
theorem exec_barTimeout_open {s : State} {tag at_ : Nat} {h : HeadJob} {b : BarCount} (hjob : tfind s.caravan.jobs tag = some h) (hbar : h.bar = some b) :
    exec (.barTimeout tag at_) s = .next (
      if (s.upto at_).time.now < b.first + s.caravan.barrierNs then s.upto at_
      else ((missingRanks h b).foldl (fun v k => v.healthRecord 6 Code.barTimeout 0xFFFF 0xFFFF k) (s.upto at_)).headAbort tag
        ((missingRanks h b).headD 0xFFFFFFFF) Code.barTimeout) := by
  have hjob' : tfind (s.upto at_).caravan.jobs tag = some h := hjob
  simp only [exec, execBarTimeout, hjob', hbar]
  rfl

/-- Settles O53: joining by what holds the barrier and by its snapshot, counting by the record of the job, and the two timeouts. -/
theorem barriersAreJoinedCountedAndReleased : Obligations.BarriersAreJoinedCountedAndReleased := by
  unfold Obligations.BarriersAreJoinedCountedAndReleased
  refine ⟨?join, fun s room j _ => sendJoin_worker, ?messages, ?count, fun s p => exec_release_worker, ?late, ?timeout⟩
  case join =>
    rintro s room j x hj rfl
    refine ⟨exec_barJoin_held hj, fun hfree hnone => exec_barJoin_noSnap hj hfree hnone, fun hfree hphase hdue hmark => ?_⟩
    have snap := @exec_barJoin_snap _ _ _ hj hfree hphase hdue hmark
    refine ⟨exec_barJoin_working hj hfree hphase hdue hmark, fun hquiet => ⟨fun p hp hn hbuddy => ?buddy,
      fun p hp hbuddy => ⟨fun hsize => ?size, fun hfit hslot => ?free, fun hfit hslot => ?full⟩⟩⟩
    all_goals rw [snap hquiet hp]
    case buddy => rw [if_pos ⟨hn, hbuddy⟩]
    all_goals rw [if_neg (by rintro ⟨hn, hother⟩; exact hbuddy.elim (Nat.not_le.mpr hn) hother)]
    case size => rw [if_pos hsize]
    all_goals rw [if_neg (Nat.not_lt.mpr hfit)]
    case free => rw [if_pos hslot]
    case full => rw [if_neg (ne_true_of_eq_false hslot)]
  case messages =>
    rintro s u p rfl hpass
    exact ⟨exec_barJoinMessage_head hpass, exec_barJoinMessage_manager hpass⟩
  case count =>
    intro s tag incarn epoch digest ends x h hjob
    refine ⟨headCount_stale hjob, headCount_opens hjob, fun b hrun hincarn hbar => ⟨headCount_otherEpoch hjob hrun hincarn hbar, fun hepoch hdigest => ?_,
      fun hepoch hdigest hends => ?_⟩⟩
    · exact headCount_clash hjob hrun hincarn hbar hepoch (if_pos hdigest)
    · exact headCount_clash hjob hrun hincarn hbar hepoch ((if_neg (not_not.mpr hdigest)).trans (if_pos hends))
  case late =>
    intro s u room at_ j hj hu
    refine ⟨fun h => ?none, fun hwell hwait => ?wait, fun t hwell hwait hout hfirst => ?barrier⟩
    case none =>
      rw [exec_barLocal_found hj hu]
      rcases h with h | ⟨hwait, h | h⟩
      · rw [if_pos h]
      · simp [hwait, h]
      · simp [hwait, h]
    case wait => rw [exec_barLocal_found hj hu, if_neg (by simp [hwell]), if_pos hwait]
    case barrier =>
      rw [exec_barLocal_joining hj hu hwell hwait hout hfirst]
      refine ⟨fun h => by rw [if_neg (Nat.not_le.mpr h)], fun h hcode => by rw [if_pos h, lateCode_barLocal (hu ▸ hcode)]⟩
  case timeout =>
    intro s tag at_ h b hjob hbar
    rw [exec_barTimeout_open hjob hbar]
    exact ⟨fun hearly => by rw [if_pos hearly], fun hdue => by rw [if_neg (Nat.not_lt.mpr hdue)]⟩

end Sys2Proof.Machine
end

section
/-! PROOFS. What work on device memory leaves alone (R189, R223, R246, R258, R260, R273, R286, R362). -/

namespace Sys2Proof.Machine

/-- What an engine changes as it works on device memory: rooms, stacks, the arbiters' notes, ingest contexts and counts, and counters of health. -/
def EngineWork (s t : State) : Prop := t = { s with rooms := t.rooms, stackTbl := t.stackTbl, sched := t.sched, ingest := t.ingest, health := t.health }

namespace EngineWork

theorem refl (s : State) : EngineWork s s := rfl

theorem trans {s t u : State} (h : EngineWork s t) (g : EngineWork t u) : EngineWork s u := by
  unfold EngineWork at h
  rw [h] at g
  exact g

theorem rings {s t : State} (h : EngineWork s t) : t.rings = s.rings := by rw [h]

theorem variant {s t : State} (h : EngineWork s t) : t.variant = s.variant := by
  rw [h]
  rfl

theorem foldl {α : Type} {f : State → α → State} (hf : ∀ u x, EngineWork u (f u x)) (l : List α) (s : State) : EngineWork s (l.foldl f s) :=
  foldl_inv f l refl (fun _ _ _ => trans) hf s

theorem ite {s a b : State} {p : Prop} [Decidable p] (ha : EngineWork s a) (hb : EngineWork s b) : EngineWork s (if p then a else b) := by
  split
  · exact ha
  · exact hb

theorem ite_fst {β : Type} {s : State} {a b : State × β} {p : Prop} [Decidable p] (ha : EngineWork s a.1) (hb : EngineWork s b.1) :
    EngineWork s (if p then a else b).1 := by
  split
  · exact ha
  · exact hb

theorem of_fst {β : Type} {s u : State} {x : State × β} {y : β} (h : x = (u, y)) (hx : EngineWork s x.1) : EngineWork s u := by
  rw [h] at hx
  exact hx

/-! ## Charges (R223, R362) -/

theorem spend (s : State) (arb r n : Nat) : EngineWork s (s.spend arb r n) := rfl

theorem stackAccess (s : State) (site r : Nat) (sieve : Bool) (n : Nat) : EngineWork s (s.stackAccess site r sieve n) := by
  unfold State.stackAccess
  dsimp only
  have taken (left : Tokens) : EngineWork s (if (s.room r).grant.stackRes = 0 then s else s.modStack site fun k => { k with tokens := tset k.tokens r left }) :=
    ite (refl s) rfl
  exact ite (taken _) ((taken _).trans (spend _ _ r n))

theorem chargeNormal (s : State) (r va n : Nat) : EngineWork s (s.chargeNormal r va n) := by
  refine foldl (fun u p => ?_) _ s
  split
  · exact refl u
  · exact trans (t := u.charge r 10 _) rfl (stackAccess _ _ r false _)

/-! ## Writes (R190, R246, R258, R260, R273) -/

theorem modMem (s : State) (r : Nat) (f : RoomMem → RoomMem) : EngineWork s (s.modMem r f) := rfl

theorem zeroFrame (s : State) (t : Tier) : EngineWork s (s.zeroFrame t) := by
  unfold State.zeroFrame
  split <;> rfl

theorem seat (s : State) (r v : Nat) (p : Page) (t : Tier) : EngineWork s (s.seat r v p t) := (zeroFrame s t).trans rfl

theorem headOfCopy (s : State) (r v : Nat) : EngineWork s (s.headOfCopy r v) := ite rfl (refl s)

theorem touchWrite (s : State) (r v : Nat) : EngineWork s (s.touchWrite r v) := by
  unfold State.touchWrite
  have stopped : EngineWork s ((s.headOfCopy r v).modMem r fun m => m.cancelMove v) := (headOfCopy s r v).trans rfl
  dsimp only
  split
  · exact stopped
  · exact ite (stopped.trans (seat _ r v _ _)) stopped

theorem cleanse (s : State) (r va n : Nat) : EngineWork s (s.cleanse r va n) := by
  refine foldl (fun u p => ?_) _ s
  split
  · exact ite (refl u) rfl
  · exact refl u

theorem writeVa (s : State) (r va : Nat) (bytes : List Byte) : EngineWork s (s.writeVa r va bytes) := by
  unfold State.writeVa
  have touched := foldl (fun u p => touchWrite u r p.1) (pagesOf va bytes.length) s
  exact (touched.trans (cleanse _ r va bytes.length)).trans (modMem _ r _)

theorem windowPiece (s : State) (r b l g within : Nat) (bytes : List Byte) : EngineWork s (s.windowPiece r b l g within bytes).1 := by
  unfold State.windowPiece
  split
  · exact refl s
  · rename_i f _
    split
    · exact refl s
    · rename_i x _
      dsimp only
      have walked : EngineWork s ((s.modRoom r fun y => { y with forest := some x.forest }).chargeForest r x.work.cycles) := rfl
      refine ite_fst (refl s) (trans ?_ (writeVa _ r _ bytes))
      split
      · exact walked
      · exact (walked.trans (cleanse _ r _ 65536)).trans (modMem _ r _)
      · exact (walked.trans (cleanse _ r _ 65536)).trans (modMem _ r _)

theorem windowWrite (s : State) (r : Nat) (f : Forest) (o : Nat) (bytes : List Byte) : EngineWork s (s.windowWrite r f o bytes).1 := by
  unfold State.windowWrite
  dsimp only
  refine ite_fst (refl s) (List.foldlRecOn (motive := fun a : State × Option Nat => EngineWork s a.1) _ _ (refl s) fun a ha p _ => ?_)
  split
  · exact ha
  · exact ha.trans (windowPiece _ _ _ _ _ _ _)

theorem writeSpecial (s : State) (r : Nat) (x : Special) (o : Nat) (bytes : List Byte) : EngineWork s (s.writeSpecial r x o bytes).s := by
  have plain : EngineWork s (s.writeVa r (x.base + o) bytes) := writeVa s r _ bytes
  unfold State.writeSpecial
  dsimp only
  split
  · split <;> exact refl s
  · split
    · exact refl s
    · split
      · exact plain
      · exact refl s
    · split
      · exact plain
      · exact refl s
  · split
    · exact refl s
    · split
      · exact windowWrite s r _ _ bytes
      · exact refl s
  · exact refl s

theorem writeAny (s : State) (r va : Nat) (bytes : List Byte) : EngineWork s (s.writeAny r va bytes).s := by
  unfold State.writeAny
  split
  · exact refl s
  · exact writeVa s r va bytes
  · exact writeSpecial s r _ _ bytes

end EngineWork

end Sys2Proof.Machine
end

section
/-! PROOFS. Ingest descriptors: served, run and ended (R285, R286, R288 to R291, R294 to R297, R300, R301, R538). -/

namespace Sys2Proof.Machine

open Sys2Proof Sys2Proof.Obl

/-- What a CLOSE comes to. -/
def State.decodeClose (s : State) (ring r : Nat) (d : Desc) : Except IngestEnd (State × IngestEnd) := do
  let _ ← s.streamFor ring r (d.fld 12 2)
  pure ({ s with ingest := { s.ingest with streams := tdel s.ingest.streams (d.fld 12 2) } }, IngestEnd.ok)

/-! ## What the work of an engine leaves alone -/

namespace EngineWork

theorem ingestCount (s : State) (site i n : Nat) : EngineWork s (s.ingestCount site i n) := rfl

theorem ingestConv (s : State) (site : Nat) (cs : List Conv) : EngineWork s (s.ingestConv site cs) := rfl

theorem withIngest (s : State) (i : Ingest) : EngineWork s { s with ingest := i } := rfl

theorem setStream (s : State) (n : Nat) (x : Stream) : EngineWork s (s.setStream n x) := rfl

theorem putRows (s : State) (r base : Nat) (l : List (Nat × List Byte)) : EngineWork s (s.putRows r base l).1 := by
  induction l generalizing s with
  | nil => exact refl s
  | cons x l ih =>
    have written : EngineWork s ((s.chargeNormal r (base + x.1) x.2.length).writeAny r (base + x.1) x.2).s :=
      (chargeNormal s r _ _).trans (writeAny _ r _ x.2)
    unfold State.putRows
    dsimp only
    split
    · exact written
    · exact written.trans (ih _)

theorem tensorOut (s : State) (r : Nat) (m : Memory) (seed : Nat) (g : Img) (ch dst pitch site : Nat) :
    EngineWork s (s.tensorOut r m seed g ch dst pitch site).1 := by
  have written := fun cs rows => (ingestConv s site cs).trans (putRows _ r dst rows)
  exact ite ((written _ _).trans (ingestCount _ site 2 _)) (written _ _)

theorem storeRefs (s : State) (r : Nat) (x : Stream) : EngineWork s (s.storeRefs r x).1 := by
  unfold State.storeRefs
  dsimp only
  split
  · exact refl s
  · exact (chargeNormal s r _ _).trans (writeVa _ r _ _)

/-- What a command that may fail comes to, where it does not. -/
def Leads (s : State) (x : Except IngestEnd (State × IngestEnd)) : Prop := ∀ y, x = .ok y → EngineWork s y.1

theorem Leads.error {s : State} (e : IngestEnd) : Leads s (.error e) := fun _ h => nomatch h

theorem Leads.ok {s : State} {y : State × IngestEnd} (h : EngineWork s y.1) : Leads s (.ok y) := fun _ g => Except.ok.inj g ▸ h

theorem Leads.bind {α : Type} {s : State} {x : Except IngestEnd α} {f : α → Except IngestEnd (State × IngestEnd)} (h : ∀ a, Leads s (f a)) :
    Leads s (x >>= f) := by
  cases x with
  | error e => exact .error e
  | ok a => exact h a

theorem Leads.ite {s : State} {p : Prop} [Decidable p] {x y : Except IngestEnd (State × IngestEnd)} (hx : Leads s x) (hy : Leads s y) :
    Leads s (if p then x else y) := by
  split
  · exact hx
  · exact hy

theorem endOr {s : State} {x : Except IngestEnd (State × IngestEnd)} (h : Leads s x) : EngineWork s (Machine.endOr s x).1 := by
  cases x with
  | error e => exact refl s
  | ok y => exact h y rfl

theorem decodeOpen (s : State) (ring r : Nat) (d : Desc) : EngineWork s (Machine.endOr s (s.decodeOpen ring r d)).1 := by
  refine endOr (.ite (.error _) (.ite (.error _) ?_))
  split
  · exact .error _
  · exact .ok rfl

theorem decodeClose (s : State) (ring r : Nat) (d : Desc) : EngineWork s (Machine.endOr s (s.decodeClose ring r d)).1 :=
  endOr (.bind fun _ => .ok rfl)

theorem decodeOut (s : State) (r site : Nat) (d : Desc) (p : Picture) : EngineWork s (s.decodeOut r site d p).1 := by
  unfold State.decodeOut
  dsimp only
  refine ite_fst ?planes (endOr (.bind fun m => .bind fun seed => .ok ?tensor))
  case planes =>
    have written := putRows s r 0
    split <;> exact ite ((written _).trans (ingestCount _ site 2 _)) (written _)
  case tensor => split <;> exact tensorOut s r m seed _ 3 _ _ site

theorem decodeUnit (s : State) (r site n : Nat) (d : Desc) (x : Stream) (unit : List Nat) (p : Picture) :
    EngineWork s (s.decodeUnit r site n d x unit p).1 := by
  unfold State.decodeUnit
  dsimp only
  have stored (z : Stream) : EngineWork s ((s.setStream n z).storeRefs r z).1 := (setStream s n z).trans (storeRefs _ r z)
  split
  · exact stored _
  · refine ite_fst (stored _) (ite_fst ((stored _).trans (setStream _ n _)) (ite_fst (stored _) (ite_fst (stored _) ?_)))
    exact ((stored _).trans (setStream _ n _)).trans (decodeOut _ r site d p)

theorem decodeFrame (s : State) (ring r : Nat) (d : Desc) : EngineWork s (s.decodeFrame ring r d).1 := by
  refine endOr (.bind fun x => .bind fun bs => ?_)
  have taken : EngineWork s ((s.ingestCount (ingestSite s.variant 0 (d.fld 12 2)) 1 (d.fld 20 4)).chargeNormal r (d.fld 24 8) (d.fld 20 4)) :=
    (ingestCount s _ 1 _).trans (chargeNormal _ r _ _)
  exact .ite (.ok taken) (.ok (taken.trans (decodeUnit _ r _ _ d x _ _)))

theorem chargeRows (s : State) (r va pitch n h : Nat) : EngineWork s ((List.range h).foldl (fun s y => s.chargeNormal r (va + y * pitch) n) s) :=
  foldl (fun u y => chargeNormal u r (va + y * pitch) n) _ s

theorem chargeTables (s : State) (r : Nat) (l : List (Nat × Nat)) : EngineWork s (l.foldl (fun s t => s.chargeNormal r t.1 t.2) s) := by
  refine foldl (fun u t => ?_) l s
  exact chargeNormal u r t.1 t.2

theorem developLoad (s : State) (ring r : Nat) (d : Desc) : EngineWork s (Machine.endOr s (s.developLoad ring r d)).1 := by
  refine endOr (.ite (.error _) (.ite (.error _) (.bind fun bs => ?_)))
  dsimp only
  refine .ite (.error _) (.bind fun tables => ?_)
  exact .ok (((chargeNormal s r _ _).trans (chargeTables _ r _)).trans (withIngest _ _))

theorem frameOut (s : State) (r site : Nat) (d : Desc) (c : Capture) (outs m : Memory) (seed rowBytes : Nat) :
    EngineWork s (s.frameOut r site d c outs m seed rowBytes).1 := by
  have planes (rows : List (Nat × List Byte)) (cs : List Conv) :=
    ((ingestCount s site 1 (c.h * rowBytes)).trans (ingestConv _ site cs)).trans (putRows _ r 0 rows)
  unfold State.frameOut
  dsimp only
  split
  next out =>
    dsimp only
    exact of_fst out (planes _ _)
  next u out =>
    have written : EngineWork s u := of_fst out (planes _ _)
    have tensor (g : Img) (ch : Nat) : EngineWork s (if memNat outs 32 8 = 0 then (u, none)
        else u.tensorOut r m seed g ch (memNat outs 32 8) (memNat outs 40 4) site).1 :=
      ite_fst written (written.trans (tensorOut u r m seed g ch _ _ site))
    split
    · dsimp only
      exact tensor _ _
    · dsimp only
      exact (tensor _ _).trans (ingestCount _ site 2 _)

theorem developFrame (s : State) (ring r : Nat) (d : Desc) : EngineWork s (s.developFrame ring r d).1 := by
  refine endOr (.bind fun x => .bind fun out => .ite (.error _) (.bind fun m => .bind fun seed => .ite (.error _) (.bind fun rows => .ok ?_)))
  exact (chargeRows s r _ _ _ _).trans (frameOut _ r _ d _ _ m seed _)

theorem tokenizeLoad (s : State) (ring r : Nat) (d : Desc) : EngineWork s (Machine.endOr s (s.tokenizeLoad ring r d)).1 := by
  refine endOr (.ite (.error _) (.ite (.error _) (.bind fun hd => .ite (.error _) (.bind fun bs => .ite (.error _) (.ok ?_)))))
  exact (chargeNormal s r _ _).trans (withIngest _ _)

theorem tokenizeRun (s : State) (ring r : Nat) (d : Desc) : EngineWork s (s.tokenizeRun ring r d).1 := by
  have written (n : Nat) (out : List Byte) : EngineWork s (((((s.ingestCount 3 1 n).ingestCount 3 2 out.length).chargeNormal r (d.fld 24 8)
      n).chargeNormal r (d.fld 32 8) out.length).writeAny r (d.fld 32 8) out).s :=
    ((((ingestCount s 3 1 n).trans (ingestCount _ 3 2 _)).trans (chargeNormal _ r _ _)).trans (chargeNormal _ r _ _)).trans (writeAny _ r _ out)
  refine endOr (.ite (.error _) ?_)
  split
  · exact .error _
  · refine .ite (.bind fun x => .bind fun seed => .bind fun bs => ?_) (.error _)
    dsimp only
    split <;> exact .ok (written _ _)

theorem augment (s : State) (r : Nat) (d : Desc) : EngineWork s (s.augment r d).1 := by
  refine endOr (.bind fun m => .bind fun seed => .bind fun rows => ?_)
  have written (g : Img) (n : Nat) : EngineWork s (((List.range (d.fld 42 2)).foldl (fun s y => s.chargeNormal r (d.fld 24 8 + y * d.fld 20 4)
      (rowBytesOf (d.fld 44 1) (3 * d.fld 40 2))) (s.ingestCount 3 1 n)).tensorOut r m seed g 3 (d.fld 32 8) (d.fld 56 4) 3).1 :=
    ((ingestCount s 3 1 n).trans (chargeRows _ r _ _ _ _)).trans (tensorOut _ r m seed g 3 _ _ 3)
  dsimp only
  split
  next out => exact .ok (of_fst out (written _ _))
  next out => exact .ok (of_fst out (written _ _))

end EngineWork

/-! ## The die that serves a descriptor (R285, R347) -/

theorem onIngest_idle {s : State} {r : Nat} {d : Desc} (h : d.onIngest = false) : s.onIngest r d = some s := by
  simp [State.onIngest, h]

/-- Serving a descriptor changes the arbiter's own notes alone. -/
theorem onIngest_upToShares {s v : State} {r : Nat} {d : Desc} (h : s.onIngest r d = some v) : UpToShares s v := by
  unfold State.onIngest at h
  split at h
  · cases h
    rfl
  · split at h
    · cases h
    · exact serve_upToShares h

theorem ingestDie_stream {d : Desc} (variant : Nat) (h : d.opcode = 0x20) : d.ingestDie variant = ingestSite variant 0 (d.fld 12 2) := by
  simp only [Desc.ingestDie, h]

theorem ingestDie_developer {d : Desc} (variant : Nat) (h : d.opcode = 0x21) : d.ingestDie variant = ingestSite variant 1 (d.fld 12 2) := by
  simp only [Desc.ingestDie, h]

theorem ingestDie_tokenizer {d : Desc} (variant : Nat) (h : d.opcode = 0x22) : d.ingestDie variant = 3 := by simp only [Desc.ingestDie, h]

theorem ingestDie_augment {d : Desc} (variant : Nat) (h : d.opcode = 0x23) : d.ingestDie variant = 3 := by simp only [Desc.ingestDie, h]

section
variable {s v u : State} {ring op : Nat} {p : Desc → Bool} {d : Desc} {e : IngestEnd}

theorem served_opcode (hs : IngestServed s v ring op p d) : d.opcode = op := (canStartOp_mem hs.1).1

theorem served_variant (hs : IngestServed s v ring op p d) : v.variant = s.variant := by
  rw [onIngest_upToShares hs.2]
  rfl

theorem served_ring (hs : IngestServed s v ring op p d) : v.ring ring = s.ring ring := by
  rw [onIngest_upToShares hs.2]
  rfl

/-- A descriptor that takes no engine waits for none: OPEN, CLOSE and LOAD (R291, R294). -/
theorem served_at_once {k : Nat} (h : s.canStartOp ring op (fun d => d.fld 8 1 == k) = some d) (hk : k ≠ 1) (hop : op ≠ 0x23) :
    IngestServed s s ring op (fun d => d.fld 8 1 == k) d := by
  have hopcode := (canStartOp_mem h).1
  have hkind : d.fld 8 1 = k := by simpa using canStartOp_test h
  exact ⟨h, onIngest_idle (by simp [Desc.onIngest, hopcode, hkind, hk, hop])⟩

/-- A served descriptor ends as its work comes out, at its die: the work changes no fuse, so the die is the one that served it. -/
theorem ingestCmd_served {f : State → Nat → Desc → State × IngestEnd} (hs : IngestServed s v ring op p d) (hf : f v (s.ring ring).room d = (u, e))
    (hwork : EngineWork v (f v (s.ring ring).room d).1) : s.ingestCmd ring op p f = u.ingestEnd ring (d.ingestDie s.variant) d e := by
  have hvariant : u.variant = s.variant := (hwork.of_fst hf).variant.trans (served_variant hs)
  simp only [State.ingestCmd, hs.1, hs.2, served_ring hs, hf, hvariant]

end

theorem endOr_ok {s u : State} {e : IngestEnd} {x : Except IngestEnd (State × IngestEnd)} (h : x = .ok (u, e)) : endOr s x = (u, e) := by rw [h, endOr]

theorem endOr_error {s : State} {e : IngestEnd} {x : Except IngestEnd (State × IngestEnd)} (h : x = .error e) : endOr s x = (s, e) := by rw [h, endOr]

/-! ## The commands (R286) -/

section
variable {s v u : State} {ring : Nat} {d : Desc} {e : IngestEnd}

theorem exec_decodeOpen_served (hs : IngestServed s v ring 0x20 (fun d => d.fld 8 1 == 0) d)
    (hf : endOr v (v.decodeOpen ring (s.ring ring).room d) = (u, e)) :
    exec (.decodeOpen ring) s = .next (u.ingestEnd ring (d.ingestDie s.variant) d e) :=
  congrArg Host.Outcome.next (ingestCmd_served hs hf (.decodeOpen v ring _ d))

theorem exec_decodeFrame_served (hs : IngestServed s v ring 0x20 (fun d => d.fld 8 1 == 1) d) (hf : v.decodeFrame ring (s.ring ring).room d = (u, e)) :
    exec (.decodeFrame ring) s = .next (u.ingestEnd ring (d.ingestDie s.variant) d e) :=
  congrArg Host.Outcome.next (ingestCmd_served hs hf (.decodeFrame v ring _ d))

theorem exec_decodeClose_served (hs : IngestServed s v ring 0x20 (fun d => d.fld 8 1 == 2) d)
    (hf : endOr v (v.decodeClose ring (s.ring ring).room d) = (u, e)) :
    exec (.decodeClose ring) s = .next (u.ingestEnd ring (d.ingestDie s.variant) d e) :=
  congrArg Host.Outcome.next (ingestCmd_served hs hf (.decodeClose v ring _ d))

theorem exec_developLoad_served (hs : IngestServed s v ring 0x21 (fun d => d.fld 8 1 == 0) d)
    (hf : endOr v (v.developLoad ring (s.ring ring).room d) = (u, e)) :
    exec (.developLoad ring) s = .next (u.ingestEnd ring (d.ingestDie s.variant) d e) :=
  congrArg Host.Outcome.next (ingestCmd_served hs hf (.developLoad v ring _ d))

theorem exec_developFrame_served (hs : IngestServed s v ring 0x21 (fun d => d.fld 8 1 == 1) d) (hf : v.developFrame ring (s.ring ring).room d = (u, e)) :
    exec (.developFrame ring) s = .next (u.ingestEnd ring (d.ingestDie s.variant) d e) :=
  congrArg Host.Outcome.next (ingestCmd_served hs hf (.developFrame v ring _ d))

theorem exec_tokenizeLoad_served (hs : IngestServed s v ring 0x22 (fun d => d.fld 8 1 == 0) d)
    (hf : endOr v (v.tokenizeLoad ring (s.ring ring).room d) = (u, e)) :
    exec (.tokenizeLoad ring) s = .next (u.ingestEnd ring (d.ingestDie s.variant) d e) :=
  congrArg Host.Outcome.next (ingestCmd_served hs hf (.tokenizeLoad v ring _ d))

theorem exec_tokenizeRun_served (hs : IngestServed s v ring 0x22 (fun d => d.fld 8 1 == 1) d) (hf : v.tokenizeRun ring (s.ring ring).room d = (u, e)) :
    exec (.tokenizeRun ring) s = .next (u.ingestEnd ring (d.ingestDie s.variant) d e) :=
  congrArg Host.Outcome.next (ingestCmd_served hs hf (.tokenizeRun v ring _ d))

theorem exec_augment_served (hs : IngestServed s v ring 0x23 anyDesc d) (hf : v.augment (s.ring ring).room d = (u, e)) :
    exec (.augment ring) s = .next (u.ingestEnd ring (d.ingestDie s.variant) d e) :=
  congrArg Host.Outcome.next (ingestCmd_served hs hf (.augment v _ d))

end

/-! ## The end of a descriptor (R286) -/

section
variable (u : State) (ring site : Nat) (d : Desc) {e : IngestEnd}

theorem ingestEnd_ok (h : e.status = stOk) : u.ingestEnd ring site d e =
    (((u.postCounter (u.ring ring).room (d.fld 14 2) (d.fld 16 1) 1 engineWait).ingestCount site 0 1).complete ring d.seq stOk e.detail e.result0 e.result1
      e.aux).chargeIngest (u.ring ring).room d e.ns := by
  have hdata : stOk ≠ stDataError := by decide
  simp only [State.ingestEnd, h, if_true, if_neg hdata]

theorem ingestEnd_dataError (h : e.status = stDataError) : u.ingestEnd ring site d e =
    ((u.ingestCount site 3 1).complete ring d.seq stDataError e.detail e.result0 e.result1 e.aux).chargeIngest (u.ring ring).room d e.ns := by
  have hok : stDataError ≠ stOk := by decide
  simp only [State.ingestEnd, h, if_true, if_neg hok]

theorem ingestEnd_refused (hok : e.status ≠ stOk) (hdata : e.status ≠ stDataError) : u.ingestEnd ring site d e =
    (u.complete ring d.seq e.status e.detail e.result0 e.result1 e.aux).chargeIngest (u.ring ring).room d e.ns := by
  simp only [State.ingestEnd, if_neg hok, if_neg hdata]

end

theorem postCounter_ingest (s : State) (r core ctr n cause : Nat) : (s.postCounter r core ctr n cause).ingest = s.ingest := by
  unfold State.postCounter State.postCount
  split
  · rfl
  · rw [((CoreStep.modCtx s core r _).trans (Quiet.refreshCtx _ core r).coreStep).booked.2]

theorem complete_ingest (s : State) (ring seq a b c e f : Nat) : (s.complete ring seq a b c e f).ingest = s.ingest := by
  rw [(Posts.complete s ring seq a b c e f).rest]

theorem chargeIngest_ingest (s : State) (r : Nat) (d : Desc) (ns : Nat) : (s.chargeIngest r d ns).ingest = s.ingest := by
  unfold State.chargeIngest
  dsimp only
  split <;> rfl

/-- Ending with success touches no context: of the ingest state, the counts of the site alone. -/
theorem ingestEnd_contexts (u : State) (ring site : Nat) (d : Desc) : ∃ counts, (u.ingestEnd ring site d IngestEnd.ok).ingest =
    { u.ingest with counts := counts } := by
  rw [ingestEnd_ok u ring site d rfl, chargeIngest_ingest, complete_ingest, State.ingestCount, postCounter_ingest]
  exact ⟨_, rfl⟩

/-! ## DECODE (R288 to R291) -/

theorem ingestRead_ok {s : State} {r va n : Nat} {bs : List Byte} (h : s.readAny r va n = .ok bs) : s.ingestRead r va n = .ok bs := by
  simp only [State.ingestRead, h]

section
variable {s : State} {ring r n : Nat}

theorem streamFor_ungranted (hgrant : s.ingestGranted r 0 n = false) : s.streamFor ring r n = .error (IngestEnd.bad Code.ingestContext) := by
  simp only [State.streamFor, hgrant, Bool.not_false, if_true]

theorem streamFor_open {x : Stream} (hgrant : s.ingestGranted r 0 n = true) (hx : tfind s.ingest.streams n = some x) :
    s.streamFor ring r n = if x.ring = ring then .ok x else .error (IngestEnd.bad Code.ingestRing) := by
  simp only [State.streamFor, hgrant, hx, Bool.not_true, Bool.false_eq_true, if_false]

variable {d : Desc}

theorem decodeOpen_ungranted (hgrant : s.ingestGranted r 0 (d.fld 12 2) = false) :
    s.decodeOpen ring r d = .error (IngestEnd.bad Code.ingestContext) := by
  simp only [State.decodeOpen, hgrant, Bool.not_false, true_or, if_true]

theorem decodeOpen_opens {w h codec : Nat} (hn : n = d.fld 12 2) (hw : w = d.fld 20 2) (hh : h = d.fld 22 2) (hcodec : codec = d.fld 10 1)
    (hgrant : s.ingestGranted r 0 n = true) (hclosed : tfind s.ingest.streams n = none) (hwpos : 0 < w) (hhpos : 0 < h)
    (hwmax : w ≤ (largestPicture codec).1) (hhmax : h ≤ (largestPicture codec).2) (hdepth : codec = 0 → d.fld 11 1 ≠ 10)
    (hsize : refNeed codec w h (d.fld 11 1) ≤ d.fld 32 8) (harea : s.checkRange r (d.fld 24 8) (d.fld 32 8) true = none) :
    s.decodeOpen ring r d = .ok ({ s with ingest := { s.ingest with
      streams := tset s.ingest.streams n ⟨ring, codec, w, h, d.fld 11 1, d.fld 24 8, d.fld 32 8, false, []⟩ } }, IngestEnd.ok) := by
  subst hn hw hh hcodec
  have hfree : ¬ ((!s.ingestGranted r 0 (d.fld 12 2)) = true ∨ (tfind s.ingest.streams (d.fld 12 2)).isSome = true) := by simp [hgrant, hclosed]
  have hfits : ¬ (d.fld 20 2 = 0 ∨ d.fld 22 2 = 0 ∨ (largestPicture (d.fld 10 1)).1 < d.fld 20 2 ∨ (largestPicture (d.fld 10 1)).2 < d.fld 22 2 ∨
      (d.fld 10 1 = 0 ∧ d.fld 11 1 = 10) ∨ d.fld 32 8 < refNeed (d.fld 10 1) (d.fld 20 2) (d.fld 22 2) (d.fld 11 1)) := by
    rintro (h | h | h | h | ⟨h, h'⟩ | h)
    · omega
    · omega
    · omega
    · omega
    · exact hdepth h h'
    · omega
  simp only [State.decodeOpen, if_neg hfree, if_neg hfits, harea]

theorem decodeClose_ungranted (hgrant : s.ingestGranted r 0 (d.fld 12 2) = false) :
    s.decodeClose ring r d = .error (IngestEnd.bad Code.ingestContext) := by
  rw [State.decodeClose, streamFor_ungranted hgrant]
  rfl

theorem decodeClose_open {x : Stream} (hgrant : s.ingestGranted r 0 (d.fld 12 2) = true) (hx : tfind s.ingest.streams (d.fld 12 2) = some x) :
    s.decodeClose ring r d = if x.ring = ring then
      .ok ({ s with ingest := { s.ingest with streams := tdel s.ingest.streams (d.fld 12 2) } }, IngestEnd.ok)
      else .error (IngestEnd.bad Code.ingestRing) := by
  rw [State.decodeClose, streamFor_open hgrant hx]
  split <;> rfl

end

section
variable {v u : State} {ring r n site : Nat} {d : Desc} {x : Stream} {bs : List Byte} {p : Picture} (hn : n = d.fld 12 2)
  (hsite : site = ingestSite v.variant 0 n) (hgrant : v.ingestGranted r 0 n = true) (hx : tfind v.ingest.streams n = some x) (hring : x.ring = ring)
  (hread : v.readAny r (d.fld 24 8) (d.fld 20 4) = .ok bs)
  (hp : p = pictureOf x.codec (b2n (bit (d.fld 9 1) 0)) x.units (bs.map BitVec.toNat))
  (hu : u = (v.ingestCount site 1 (d.fld 20 4)).chargeNormal r (d.fld 24 8) (d.fld 20 4))
include hn hsite hgrant hx hring hread hp hu

/-- A FRAME whose unit can be read turns on whether its context may decode it. -/
theorem decodeFrame_reads : v.decodeFrame ring r d =
    if x.broken = true ∧ p.rap = false then (u, IngestEnd.data Code.ingestNoref)
    else ((u.decodeUnit r site n d x (bs.map BitVec.toNat) p).1,
      { (u.decodeUnit r site n d x (bs.map BitVec.toNat) p).2 with ns := ceilDiv (p.coded * 1000000000) 497664000 }) := by
  subst hn hsite hp hu
  simp only [State.decodeFrame, streamFor_open hgrant hx, if_pos hring, ingestRead_ok hread, bind, Except.bind, pure, Except.pure, Bool.not_eq_true']
  split <;> rfl

end

section
variable {u u' : State} {r site n : Nat} {d : Desc} {x z : Stream} {unit : List Nat} {p : Picture} (hz : z = { x with units := x.units ++ [unit] })
  (hrefs : (u.setStream n z).storeRefs r z = (u', none))
include hz hrefs

theorem decodeUnit_unsupported (h : p.verdict = 1) : u.decodeUnit r site n d x unit p = (u', IngestEnd.data Code.ingestUnsupported) := by
  subst hz
  simp only [State.decodeUnit, hrefs, h, if_true]

theorem decodeUnit_error (h : p.verdict = 2) :
    u.decodeUnit r site n d x unit p = (u'.setStream n { z with broken := true }, IngestEnd.data Code.ingestBitstream) := by
  subst hz
  simp [State.decodeUnit, hrefs, h]

theorem decodeUnit_picture (h : p.verdict = 0) (hlisted : p.listed x.codec = true) (hw : p.w ≤ x.width) (hh : p.h ≤ x.height) (hdepth : p.depth ≤ x.depth) :
    u.decodeUnit r site n d x unit p = (u'.setStream n { z with broken := false }).decodeOut r site d p := by
  subst hz
  have hfits : ¬ (x.width < p.w ∨ x.height < p.h ∨ x.depth < p.depth) := by omega
  simp [State.decodeUnit, hrefs, h, hlisted, hfits]

end

/-- Native planes that could be written complete with the picture's output order (R291). -/
theorem decodeOut_native {s u : State} {r site : Nat} {d : Desc} {p : Picture} {l q : List (Nat × List Byte)} (hplanes : bit (d.fld 9 1) 1 = false)
    (hrows : p.native (d.fld 56 4) = (l, q))
    (hput : s.putRows r 0 (l.map (fun y => (d.fld 32 8 + y.1, y.2)) ++ q.map fun y => (d.fld 40 8 + y.1, y.2)) = (u, none)) :
    s.decodeOut r site d p = (u.ingestCount site 2 (rowsBytes l + rowsBytes q), { IngestEnd.ok with result0 := p.order }) := by
  simp [State.decodeOut, hplanes, hrows, hput]

/-! ## DEVELOP (R295 to R297) -/

section
variable {s : State} {ring r n : Nat} {d : Desc}

/-- The context that a record makes with its tables: defects, shading and tone curve (R295). -/
def DevCtx.loaded (ring : Nat) (bs : List Byte) (tables : List Memory) : DevCtx :=
  ⟨ring, bs, (List.range (calNdef (memWriteN [] 0 bs))).map fun i => (memNat (tables.getD 0 []) (4 * i) 2, memNat (tables.getD 0 []) (4 * i + 2) 2),
    (List.range (5 * calGh (memWriteN [] 0 bs) * calGw (memWriteN [] 0 bs))).map fun i => memNat (tables.getD 1 []) (2 * i) 2,
    (List.range 1025).map fun i => memNat (tables.getD 2 []) (4 * i) 4⟩

/-- A record that passes its checks is kept with its tables, in the context it names. -/
theorem developLoad_keeps {bs : List Byte} {tables : List Memory} {u : State} (hn : n = d.fld 12 2) (hgrant : s.ingestGranted r 1 n = true)
    (hring : ∀ x, tfind s.ingest.devs n = some x → x.ring = ring) (hread : s.readAny r (d.fld 24 8) 256 = .ok bs)
    (hcal : calOk (memWriteN [] 0 bs) = true) (htables : (calTables (memWriteN [] 0 bs)).mapM (s.calTable r) = .ok tables)
    (hu : u = (calTables (memWriteN [] 0 bs)).foldl (fun s t => s.chargeNormal r t.1 t.2) (s.chargeNormal r (d.fld 24 8) 256)) :
    s.developLoad ring r d = .ok ({ u with ingest := { u.ingest with devs := tset u.ingest.devs n (.loaded ring bs tables) } }, IngestEnd.ok) := by
  subst hn hu
  have hfree : ((tfind s.ingest.devs (d.fld 12 2)).any fun x => decide (x.ring ≠ ring)) = false := by
    cases h : tfind s.ingest.devs (d.fld 12 2) with
    | none => rfl
    | some x => simpa using hring x h
  simp only [State.developLoad, hgrant, hfree, hcal, ingestRead_ok hread, htables, bind, Except.bind, Bool.not_true, Bool.false_eq_true, if_false]
  rfl

variable {v : State} {w h nb seed : Nat} {x : DevCtx} {ob : List Byte} {m : Memory} {rows : List (List Byte)} {c : Capture}

theorem devFor_loaded (hgrant : v.ingestGranted r 1 n = true) (hx : tfind v.ingest.devs n = some x) (hring : x.ring = ring) :
    v.devFor ring r n = .ok x := by
  simp only [State.devFor, hgrant, hx, if_pos hring, Bool.not_true, Bool.false_eq_true, if_false]

/-- A frame that passes its checks is the outputs of its capture, on the state with its rows charged. -/
theorem developFrame_runs (hn : n = d.fld 12 2) (hw : w = d.fld 32 2) (hh : h = d.fld 34 2) (hgrant : v.ingestGranted r 1 n = true)
    (hx : tfind v.ingest.devs n = some x) (hring : x.ring = ring) (hread : v.readAny r (d.fld 40 8) 64 = .ok ob)
    (houts : outsOk (memWriteN [] 0 ob) = true)
    (haug : v.frameAug r (memNat (memWriteN [] 0 ob) 32 8) (d.fld 48 8) (calHas (memWriteN [] 0 x.calib) 4) = .ok m)
    (hseed : v.frameSeed r (memNat (memWriteN [] 0 ob) 32 8) m = .ok seed) (hcapture : captureOk (memWriteN [] 0 x.calib) w h = true)
    (hnb : nb = if bit (d.fld 9 1) 0 then ceilDiv (w * calBits (memWriteN [] 0 x.calib)) 8 else 2 * w)
    (hrows : (List.range h).mapM (fun y => v.ingestRead r (d.fld 24 8 + y * d.fld 20 4) nb) = .ok rows)
    (hc : c = ⟨memWriteN [] 0 x.calib, x.defects, x.shading, x.tone, w, h,
      fun i j => rawAt (bit (d.fld 9 1) 0) (calBits (memWriteN [] 0 x.calib)) ((rows.map fun l => memWriteN [] 0 l).getD j []) i⟩) :
    v.developFrame ring r d = ((List.range h).foldl (fun s y => s.chargeNormal r (d.fld 24 8 + y * d.fld 20 4) nb) v).frameOut r
      (ingestSite v.variant 1 n) d c (memWriteN [] 0 ob) m seed nb := by
  subst hn hw hh hc
  simp only [State.developFrame, devFor_loaded hgrant hx hring, ingestRead_ok hread, houts, haug, hseed, hcapture, ← hnb, hrows, bind, Except.bind, pure,
    Except.pure, Bool.not_true, Bool.false_eq_true, if_false, endOr, (EngineWork.chargeRows v r (d.fld 24 8) (d.fld 20 4) nb (d.fld 34 2)).variant]

end

/-! ## TOKENIZE (R300, R301) -/

section
variable {s : State} {ring r n : Nat} {d : Desc}

/-- The dictionary that an image makes (R300). -/
def Dict.loaded (ring : Nat) (m : Memory) : Dict :=
  ⟨ring, memNat m 8 1, bit (memNat m 9 1) 0, memNat m 12 4, memNat m 16 4, memNat m 20 4, (dictEntries m).map fun e => (e.1, e.2.1)⟩

/-- A dictionary that passes its checks is kept in the slot it names. -/
theorem tokenizeLoad_keeps {hd bs : List Byte} {len : Nat} {u : State} (hn : n = d.fld 10 1) (hgrant : s.ingestGranted r 2 n = true)
    (hring : ∀ x, tfind s.ingest.dicts n = some x → x.ring = ring) (hhead : s.readAny r (d.fld 24 8) 64 = .ok hd)
    (hheadOk : dictHeadOk (memWriteN [] 0 hd) = true) (hlen : len = 64 + 16 * memNat (memWriteN [] 0 hd) 4 4 + memNat (memWriteN [] 0 hd) 24 8)
    (hread : s.readAny r (d.fld 24 8) len = .ok bs) (hdict : dictOk (memWriteN [] 0 bs) = true) (hu : u = s.chargeNormal r (d.fld 24 8) len) :
    s.tokenizeLoad ring r d =
      .ok ({ u with ingest := { s.ingest with dicts := tset s.ingest.dicts n (.loaded ring (memWriteN [] 0 bs)) } }, IngestEnd.ok) := by
  subst hn hu
  have hfree : ((tfind s.ingest.dicts (d.fld 10 1)).any fun x => decide (x.ring ≠ ring)) = false := by
    cases h : tfind s.ingest.dicts (d.fld 10 1) with
    | none => rfl
    | some x => simpa using hring x h
  simp only [State.tokenizeLoad, hgrant, hfree, hheadOk, hdict, ingestRead_ok hhead, ← hlen, ingestRead_ok hread, bind, Except.bind, Bool.not_true,
    Bool.false_eq_true, if_false]
  rfl

/-- The `aux` byte of a RUN: the IDs too wide for its format, and the subparts replaced, each up to 15 (R301). -/
def tokenAux (id16 : Bool) (ids : List Nat) (bad : Nat) : Nat :=
  Nat.min (if id16 then (ids.filter fun v => decide (65536 ≤ v)).length else 0) 15 * 16 + Nat.min bad 15

/-- A RUN that masks nothing writes the IDs as the dictionary gives them. -/
theorem tokenizeRun_writes {v : State} {used bad : Nat} {x : Dict} {bs out : List Byte} {ids : List (Nat × Bool)} {cut : Bool} {w : Wrote}
    (hn : n = d.fld 10 1) (hgrant : v.ingestGranted r 2 n = true) (hx : tfind v.ingest.dicts n = some x) (hring : x.ring = ring)
    (hmask : isZero32 (d.fld 44 4) = true) (hread : v.readAny r (d.fld 24 8) (d.fld 20 4) = .ok bs)
    (hids : tokenize x bs (d.fld 40 4) = (ids, used, bad, cut))
    (hout : out = ids.flatMap fun p => if bit (d.fld 9 1) 0 then leBytes 2 (Nat.min p.1 65535) else leBytes 4 p.1)
    (hw : w = ((((v.ingestCount 3 1 bs.length).ingestCount 3 2 out.length).chargeNormal r (d.fld 24 8) bs.length).chargeNormal r (d.fld 32 8)
      out.length).writeAny r (d.fld 32 8) out) (hcode : w.code = none) :
    v.tokenizeRun ring r d = (w.s, ⟨stOk, if cut then Code.ingestTruncated else 0, ids.length, used,
      tokenAux (bit (d.fld 9 1) 0) (ids.map (·.1)) bad, 200 + bs.length + ids.length⟩) := by
  subst hn
  obtain ⟨seed, hseed⟩ : ∃ seed, v.augSeed r false = .ok seed := by
    unfold State.augSeed
    split <;> exact ⟨_, rfl⟩
  have hplain : (ids.zipIdx.map fun p => p.1.1) = ids.map (·.1) := calc
    _ = (ids.zipIdx.map Prod.fst).map (·.1) := List.map_map.symm
    _ = ids.map (·.1) := by rw [List.zipIdx_map_fst]
  have hbytes : (ids.map (·.1)).flatMap (fun v => if bit (d.fld 9 1) 0 = true then leBytes 2 (Nat.min v 65535) else leBytes 4 v) = out := by
    rw [hout, List.flatMap_map]
  simp only [State.tokenizeRun, hgrant, hx, if_pos hring, hmask, hseed, ingestRead_ok hread, hids, bind, Except.bind, pure, Except.pure, Bool.not_true,
    Bool.and_false, Bool.false_and, Bool.false_eq_true, if_false, hplain, hbytes, ← hw, hcode, endOr, List.length_map, tokenAux]

end

/-! ## AUGMENT (R294) -/

theorem augment_writes {v u : State} {r seed : Nat} {d : Desc} {m : Memory} {rows : List (List Byte)} (hblock : v.augBlock r (d.fld 48 8) false = .ok m)
    (hseed : v.augSeed r (augDraws m) = .ok seed)
    (hrows : (List.range (d.fld 42 2)).mapM (fun y => v.ingestRead r (d.fld 24 8 + y * d.fld 20 4) (rowBytesOf (d.fld 44 1) (3 * d.fld 40 2))) = .ok rows)
    (hout : ((List.range (d.fld 42 2)).foldl (fun s y => s.chargeNormal r (d.fld 24 8 + y * d.fld 20 4) (rowBytesOf (d.fld 44 1) (3 * d.fld 40 2)))
      (v.ingestCount 3 1 (rowsBytes (rows.map fun l => (0, l))))).tensorOut r m seed ⟨d.fld 40 2, d.fld 42 2, fun a b k =>
        let q := readElem ((rows.map fun l => memWriteN [] 0 l).getD b []) (d.fld 44 1) 0 (3 * a + k)
        if d.fld 44 1 = 0xE then frat q 255 else rne32 (decodeElem (d.fld 44 1) q)⟩ 3 (d.fld 32 8) (d.fld 56 4) 3 = (u, none)) :
    v.augment r d = (u, { IngestEnd.ok with ns := 300 + ceilDiv (d.fld 40 2 * d.fld 42 2) 4 + ceilDiv (augU m 2 2 * augU m 4 2) 4 }) := by
  simp only [State.augment, hblock, hseed, hrows, bind, Except.bind]
  rw [hout]
  rfl

/-- Settles O36: each command is its work on the state that serves it and the end that R286 gives the outcome, and each work is computed once above. -/
theorem ingestDescriptorsEndWithTheirCompletion : Obligations.IngestDescriptorsEndWithTheirCompletion := by
  unfold Obligations.IngestDescriptorsEndWithTheirCompletion
  refine ⟨?ends, ?served, ?ungranted, ?opens, ?frame, ?closes, ?loadRecord, ?develop, ?loadDict, ?tokens, ?augment, fun s fn v => ⟨rfl, fun h => ?select⟩⟩
  case ends =>
    rintro u ring site r d e rfl
    exact ⟨ingestEnd_ok u ring site d, ingestEnd_dataError u ring site d, ingestEnd_refused u ring site d⟩
  case served =>
    intro s v u ring op c p d e hs hc
    simp only [List.mem_cons, Prod.mk.injEq, List.not_mem_nil, or_false] at hc
    rcases hc with ⟨rfl, rfl, rfl, hf⟩ | ⟨rfl, rfl, rfl, hf⟩ | ⟨rfl, rfl, rfl, hf⟩ | ⟨rfl, rfl, rfl, hf⟩ | ⟨rfl, rfl, rfl, hf⟩ | ⟨rfl, rfl, rfl, hf⟩ |
      ⟨rfl, rfl, rfl, hf⟩
    · exact exec_decodeOpen_served hs hf.symm
    · exact exec_decodeFrame_served hs hf.symm
    · exact exec_developLoad_served hs hf.symm
    · exact exec_developFrame_served hs hf.symm
    · exact exec_tokenizeLoad_served hs hf.symm
    · exact exec_tokenizeRun_served hs hf.symm
    · exact exec_augment_served hs hf.symm
  case ungranted =>
    intro s ring k c d hc hd hgrant
    simp only [List.mem_cons, Prod.mk.injEq, List.not_mem_nil, or_false] at hc
    rcases hc with ⟨rfl, rfl⟩ | ⟨rfl, rfl⟩
    · exact exec_decodeOpen_served (served_at_once hd (by decide) (by decide)) (endOr_error (decodeOpen_ungranted hgrant))
    · exact exec_decodeClose_served (served_at_once hd (by decide) (by decide)) (endOr_error (decodeClose_ungranted hgrant))
  case opens =>
    intro s ring n w h codec r d hd hr hn hw hh hcodec hgrant hclosed hwpos hhpos hwmax hhmax hdepth hsize harea
    have hs := served_at_once hd (by decide) (by decide)
    have hopens := decodeOpen_opens (ring := ring) hn hw hh hcodec hgrant hclosed hwpos hhpos hwmax hhmax hdepth hsize harea
    rw [exec_decodeOpen_served hs (hr ▸ endOr_ok hopens), ingestDie_stream _ (served_opcode hs), hn]
  case frame =>
    intro s v u ring n r site d x bs p hs hr hn hsite hgrant hx hring hread hp hu
    have hdie : d.ingestDie s.variant = site := by rw [ingestDie_stream _ (served_opcode hs), hsite, hn]
    have frame := decodeFrame_reads hn (by rw [hsite, served_variant hs]) hgrant hx hring hread hp hu
    have run := fun {t : State} {e : IngestEnd} (h : v.decodeFrame ring r d = (t, e)) => hdie ▸ exec_decodeFrame_served hs (hr ▸ h)
    refine ⟨fun hbroken hrap => run (by rw [frame, if_pos ⟨hbroken, hrap⟩]), fun hmay z hz u' hrefs => ?_⟩
    have hmay' : ¬ (x.broken = true ∧ p.rap = false) := by
      rintro ⟨hbroken, hrap⟩
      rcases hmay with h | h
      · simp [h] at hbroken
      · simp [h] at hrap
    rw [if_neg hmay'] at frame
    refine ⟨fun hverdict => run ?_, fun hverdict => run ?_, fun hverdict hlisted hw hh hdepth hplanes l q t hrows hput => run ?_⟩
    · rw [frame, decodeUnit_unsupported hz hrefs hverdict]
    · rw [frame, decodeUnit_error hz hrefs hverdict]
    · rw [frame, decodeUnit_picture hz hrefs hverdict hlisted hw hh hdepth, decodeOut_native hplanes hrows hput]
  case closes =>
    intro s ring d x hd hgrant hx
    have hs := served_at_once hd (by decide) (by decide)
    have hclose := decodeClose_open (ring := ring) hgrant hx
    exact ⟨fun hring => exec_decodeClose_served hs (endOr_error (hclose.trans (if_neg hring))),
      fun hring => exec_decodeClose_served hs (endOr_ok (hclose.trans (if_pos hring)))⟩
  case loadRecord =>
    intro s ring n r d bs tables hd hr hn hgrant hring hread hcal htables
    have hs := served_at_once hd (by decide) (by decide)
    obtain ⟨u, hload, hkept⟩ : ∃ u, s.developLoad ring r d = .ok (u, IngestEnd.ok) ∧ tfind u.ingest.devs n = some (.loaded ring bs tables) :=
      ⟨_, developLoad_keeps hn hgrant hring hread hcal htables rfl, tfind_tset_self _ _ _⟩
    obtain ⟨counts, hend⟩ := ingestEnd_contexts u ring (ingestSite s.variant 1 n) d
    have hdie : d.ingestDie s.variant = ingestSite s.variant 1 n := by rw [ingestDie_developer _ (served_opcode hs), hn]
    refine ⟨_, u, hdie ▸ exec_developLoad_served hs (hr ▸ endOr_ok hload), rfl, ?_, ((EngineWork.developLoad s ring r d).of_fst (endOr_ok hload)).rings⟩
    rw [hend]
    exact congrArg (Option.map fun x => (x.ring, x.calib)) hkept
  case develop =>
    intro s v u ring n r w h site nb seed d x ob m rows e c hs hr hn hw hh hsite hgrant hx hring hread houts haug hseed hcapture hnb hrows hc hout
    have hrun := developFrame_runs hn hw hh hgrant hx hring hread houts haug hseed hcapture hnb hrows hc
    rw [served_variant hs, ← hsite, hout] at hrun
    rw [exec_developFrame_served hs (hr ▸ hrun), ingestDie_developer _ (served_opcode hs), hsite, hn]
  case loadDict =>
    intro s ring n r d hd bs hstart hr hn hgrant hring hhead hheadOk hread hdict
    have hs := served_at_once hstart (by decide) (by decide)
    obtain ⟨u, hload, hkept⟩ : ∃ u, s.tokenizeLoad ring r d = .ok (u, IngestEnd.ok) ∧ tfind u.ingest.dicts n = some (.loaded ring (memWriteN [] 0 bs)) :=
      ⟨_, tokenizeLoad_keeps hn hgrant hring hhead hheadOk rfl hread hdict rfl, tfind_tset_self _ _ _⟩
    obtain ⟨counts, hend⟩ := ingestEnd_contexts u ring 3 d
    have hdie : d.ingestDie s.variant = 3 := ingestDie_tokenizer _ (served_opcode hs)
    refine ⟨_, u, hdie ▸ exec_tokenizeLoad_served hs (hr ▸ endOr_ok hload), rfl, ((EngineWork.tokenizeLoad s ring r d).of_fst (endOr_ok hload)).rings, ?_⟩
    rw [hend]
    exact congrArg (Option.map fun x => (x.ring, x.entries)) hkept
  case tokens =>
    intro s v ring n r used bad d x bs out ids cut w hs hr hn hgrant hx hring hmask hread hids hout hw hcode
    have hrun := tokenizeRun_writes hn hgrant hx hring hmask hread hids hout hw hcode
    exact ⟨_, by rw [exec_tokenizeRun_served hs (hr ▸ hrun), ingestDie_tokenizer _ (served_opcode hs)]⟩
  case augment =>
    intro s v u ring r seed d m rows hs hr hblock hseed hrows hout
    have hrun := augment_writes hblock hseed hrows hout
    rw [exec_augment_served hs (hr ▸ hrun), ingestDie_augment _ (served_opcode hs)]
  case select =>
    simp only [exec, execIngestSel, if_neg h]
    rfl

end Sys2Proof.Machine
end

section
/-! PROOFS. The descriptor of a ring that may start, a completion record written, and the plain descriptors (R306, R313, R316 to R319, R321, R322, R324, R368, R434). -/

namespace Sys2Proof.Machine

open Sys2Proof Sys2Proof.Obl

/-! ## The startable descriptor (R313, R316, R319) -/

section
variable {s : State} {ring op : Nat} {p : Desc → Bool} {d : Desc}

theorem canStart_eq_some_iff : s.canStart ring = some d ↔
    (s.ring ring).kind = 1 ∧ (s.ring ring).st ≠ .disabled ∧ (s.ring ring).st ≠ .frozen ∧ (s.room (s.ring ring).room).st = .committed ∧
    s.served (s.ring ring).room = true ∧ s.inFlight (s.ring ring).room < 4096 ∧ (s.ring ring).descs.find? (fun d => !d.started) = some d ∧
    (d.waitsAll = true → (s.ring ring).descs.head? = some d) ∧ s.cancelAhead (s.ring ring).room ring d.seq = false := by
  simp only [State.canStart, Option.ite_none_left_eq_some, not_or, not_not, Bool.not_eq_true', Bool.not_eq_false, not_le, and_assoc, ne_eq]
  refine and_congr_right fun _ => and_congr_right fun _ => and_congr_right fun _ => and_congr_right fun _ => and_congr_right fun _ => and_congr_right fun _ => ?_
  cases hfind : (s.ring ring).descs.find? (fun d => !d.started) with
  | none => simp
  | some e =>
    simp only [Option.ite_none_left_eq_some, Option.some.injEq]
    constructor
    · rintro ⟨hfree, rfl⟩
      simpa [not_or, or_iff_not_imp_left] using hfree
    · rintro ⟨rfl, hwaits, hcancel⟩
      simpa [hcancel] using hwaits

theorem canStartOp_eq_some_iff : s.canStartOp ring op p = some d ↔ s.canStart ring = some d ∧ d.opcode = op ∧ p d = true := by
  unfold State.canStartOp
  cases s.canStart ring with
  | none => simp
  | some e =>
    simp only [Option.ite_none_right_eq_some, Option.some.injEq, Bool.and_eq_true, decide_eq_true_eq]
    exact ⟨by rintro ⟨h, rfl⟩; exact ⟨rfl, h⟩, by rintro ⟨rfl, h⟩; exact ⟨h, rfl⟩⟩

/-- The descriptor that a command may start is also the one that another command of its opcode acts on, where it passes that command's test. -/
theorem canStartOp_of_test {q : Desc → Bool} (h : s.canStartOp ring op p = some d) (hq : q d = true) : s.canStartOp ring op q = some d :=
  have ⟨hstart, hop, _⟩ := canStartOp_eq_some_iff.mp h
  canStartOp_eq_some_iff.mpr ⟨hstart, hop, hq⟩

end

/-- The first unstarted descriptor of a list stands behind started ones alone. -/
theorem find_unstarted_iff {l : List Desc} {d : Desc} : l.find? (fun d => !d.started) = some d ↔
    ∃ a b, l = a ++ d :: b ∧ (∀ e ∈ a, e.started = true) ∧ d.started = false := by
  simp only [List.find?_eq_some_iff_append, Bool.not_eq_true', Bool.not_not]
  exact ⟨fun ⟨hd, a, b, hl, ha⟩ => ⟨a, b, hl, ha, hd⟩, fun ⟨a, b, hl, ha, hd⟩ => ⟨hd, a, b, hl, ha⟩⟩

/-- Behind started descriptors alone, an unstarted one is the first of all just where nothing stands before it. -/
theorem head_eq_unstarted_iff {a b : List Desc} {d : Desc} (ha : ∀ e ∈ a, e.started = true) (hd : d.started = false) :
    (a ++ d :: b).head? = some d ↔ a = [] := by
  cases a with
  | nil => simp
  | cons e r =>
    have he : e ≠ d := fun h => by simpa [h, hd] using ha e List.mem_cons_self
    simp [he]

/-- Settles O21: the conditions on ring, room and descriptor one by one, and the descriptor's place in intake. -/
theorem startableDescriptor : Obligations.StartableDescriptor := by
  unfold Obligations.StartableDescriptor
  intro s ring op p d
  rw [canStartOp_eq_some_iff, canStart_eq_some_iff, find_unstarted_iff]
  constructor
  · rintro ⟨⟨hkind, hdis, hfroz, hroom, hserved, hfew, ⟨a, b, hl, ha, hd⟩, hwaits, hcancel⟩, hop, hp⟩
    rw [hl, head_eq_unstarted_iff ha hd] at hwaits
    exact ⟨hkind, hdis, hfroz, hroom, hserved, hfew, ⟨a, b, hl, ha, hd, hwaits⟩, hcancel, hop, hp⟩
  · rintro ⟨hkind, hdis, hfroz, hroom, hserved, hfew, ⟨a, b, hl, ha, hd, hwaits⟩, hcancel, hop, hp⟩
    rw [← head_eq_unstarted_iff (b := b) ha hd, ← hl] at hwaits
    exact ⟨⟨hkind, hdis, hfroz, hroom, hserved, hfew, ⟨a, b, hl, ha, hd⟩, hwaits, hcancel⟩, hop, hp⟩

/-! ## A completion record written (R321, R322) -/

/-- A state with other pending bits of MSI-X and other messages sent. -/
def State.withMessages (s : State) (msix : Tbl MsixVec) (out : List OutMsg) : State := { s with msix := msix, out := out }

theorem withMessages_self (s : State) : s.withMessages s.msix s.out = s := rfl

@[simp] theorem withMessages_host (s : State) (msix : Tbl MsixVec) (out : List OutMsg) : (s.withMessages msix out).host = s.host := rfl
@[simp] theorem withMessages_ring (s : State) (msix : Tbl MsixVec) (out : List OutMsg) (q : Nat) : (s.withMessages msix out).ring q = s.ring q := rfl

/-- A record in the next slot of a completion ring, with what moderation notes of it: its bytes in host memory, and the ring's counts. -/
def State.recorded (s : State) (cq : Nat) (q : Ring) (h : Held) (unsent oldest : Nat) : State :=
  (s.hostPut (slotAddr q) (completionBytes h.index h.ring h.rev (q.count / q.depth % 2 = 0) h.status h.aux h.detail h.result0 h.result1)).setRing cq
    { q with count := (q.count + 1) % 2 ^ 32, reserved := q.reserved - b2n h.reserved, unsent := unsent, oldest := oldest }

section
variable (s : State) (cq : Nat) (q : Ring) (h : Held) (unsent oldest : Nat)

@[simp] theorem recorded_host : (s.recorded cq q h unsent oldest).host = memWriteN s.host (slotAddr q)
    (completionBytes h.index h.ring h.rev (q.count / q.depth % 2 = 0) h.status h.aux h.detail h.result0 h.result1) := by
  simp only [State.recorded, State.setRing_host, State.hostPut_host]

@[simp] theorem recorded_ring : (s.recorded cq q h unsent oldest).ring cq =
    { q with count := (q.count + 1) % 2 ^ 32, reserved := q.reserved - b2n h.reserved, unsent := unsent, oldest := oldest } := by
  simp only [State.recorded, State.setRing_ring]

@[simp] theorem recorded_ring_ne {k : Nat} (hk : k ≠ cq) : (s.recorded cq q h unsent oldest).ring k = s.ring k := by
  simp only [State.recorded, State.setRing_ring_ne _ _ hk, State.hostPut_ring]

theorem recorded_rest : ∃ rings host, s.recorded cq q h unsent oldest = { s with rings := rings, host := host } := by
  unfold State.recorded State.setRing State.hostPut
  exact ⟨_, _, rfl⟩

end

/-- A record that the host lets the device write is recorded, and its message sent or not (R321, R324). -/
theorem writeRecord_recorded {s : State} {cq : Nat} (h : Held) (hok : s.hostOk (s.ring cq).room (slotAddr (s.ring cq)) 16 true = true) :
    ∃ unsent oldest msix out, s.writeRecord cq h = (s.recorded cq (s.ring cq) h unsent oldest).withMessages msix out := by
  rw [slotAddr] at hok
  simp only [State.writeRecord, hok, Bool.not_true, Bool.false_eq_true, if_false]
  split
  · obtain ⟨msix, out, hsent⟩ := sendMsix_spec _ _ _
    exact ⟨_, _, msix, out, hsent⟩
  · exact ⟨_, _, _, _, (withMessages_self (s.recorded cq (s.ring cq) h _ _)).symm⟩

/-- A completion whose ring takes the next record leaves intake and is written at once. -/
theorem complete_takesRecord {s : State} {ring cq : Nat} {d : Desc} {a b : List Desc} (status detail result0 result1 aux : Nat)
    (hdescs : (s.ring ring).descs = a ++ d :: b) (ha : ∀ e ∈ a, e.seq ≠ d.seq) (hcq : cq = (s.ring ring).cq) (hne : cq ≠ ring) (h : TakesRecord s cq) :
    s.complete ring d.seq status detail result0 result1 aux = (s.setRing ring { s.ring ring with descs := a ++ b }).writeRecord cq
      ⟨d.seq % 65536, ring, false, bit d.raw 9, true, status, aux, detail, result0, result1⟩ := by
  obtain ⟨hkind, hdis, hhalt, hheld, -⟩ := h
  have hfind : (a ++ d :: b).find? (fun e => e.seq = d.seq) = some d :=
    List.find?_eq_some_iff_append.mpr ⟨by simp, a, b, rfl, fun e he => by simpa using ha e he⟩
  have herase : (a ++ d :: b).eraseP (fun e => e.seq = d.seq) = a ++ b := by
    rw [List.eraseP_append_right _ fun e he => by simpa using ha e he, List.eraseP_cons_of_pos (by simp)]
  simp only [State.complete, hdescs, hfind, herase, ← hcq, State.post, State.postHeld, State.setRing_ring_ne _ _ hne, hkind, hdis, hhalt, hheld, ne_eq,
    not_true_eq_false, List.isEmpty_nil, Bool.not_true, Bool.false_eq_true, false_and, or_self, if_false]

/-- Settles O22: the completion is one record written, and every clause reads one part of that write. -/
theorem completionWritesOneRecord : Obligations.CompletionWritesOneRecord := by
  unfold Obligations.CompletionWritesOneRecord
  intro s ring cq d a b status detail result0 result1 aux hdescs ha hcq hne h
  have hkept : (s.setRing ring { s.ring ring with descs := a ++ b }).ring cq = s.ring cq := State.setRing_ring_ne s _ hne
  have hok : (s.setRing ring { s.ring ring with descs := a ++ b }).hostOk (s.ring cq).room (slotAddr (s.ring cq)) 16 true = true := h.2.2.2.2
  obtain ⟨unsent, oldest, msix, out, hwrite⟩ := writeRecord_recorded (cq := cq)
    ⟨d.seq % 65536, ring, false, bit d.raw 9, true, status, aux, detail, result0, result1⟩ (hkept.symm ▸ hok)
  rw [complete_takesRecord status detail result0 result1 aux hdescs ha hcq hne h, hwrite, hkept]
  refine ⟨_, rfl, ?ring, ?host, fun hwf i hi => ?bytes, ?count, ?reserved, fun q hq hq' => ?others, ?rest⟩
  case ring => rw [withMessages_ring, recorded_ring_ne _ _ _ _ _ _ hne.symm, State.setRing_ring]
  case host => rw [withMessages_host, recorded_host, State.setRing_host]
  case bytes =>
    rw [withMessages_host, recorded_host, State.setRing_host]
    exact memRead_memWriteN_out hwf _ (by rwa [completionBytes_length])
  case count => rw [withMessages_ring, recorded_ring]
  case reserved => rw [withMessages_ring, recorded_ring]; rfl
  case others => rw [withMessages_ring, recorded_ring_ne _ _ _ _ _ _ hq', State.setRing_ring_ne _ _ hq]
  case rest =>
    obtain ⟨rings, host, hrest⟩ := recorded_rest (s.setRing ring { s.ring ring with descs := a ++ b }) cq (s.ring cq)
      ⟨d.seq % 65536, ring, false, bit d.raw 9, true, status, aux, detail, result0, result1⟩ unsent oldest
    rw [hrest]
    rfl

/-! ## Plain descriptors (R317, R318, R434) -/

section
variable {s : State} {ring : Nat} {d : Desc}

theorem exec_nop_starts (h : s.canStartOp ring 0x00 anyDesc = some d) : exec (.nop ring) s = .next (s.complete ring d.seq stOk 0 0 0 0) := by
  simp only [exec, execNop, h, State.done]

theorem exec_timestamp_starts (h : s.canStartOp ring 0x08 anyDesc = some d) :
    exec (.timestamp ring) s = .next (s.complete ring d.seq stOk 0 (s.time.now % 2 ^ 32) (s.time.now / 2 ^ 32 % 2 ^ 32) 0) := by
  have hhigh : bits s.time.now 63 32 = s.time.now / 2 ^ 32 % 2 ^ 32 := by rw [bits, Nat.shiftRight_eq_div_pow]
  simp only [exec, execTimestamp, h, State.now, hhigh]

theorem exec_signal_starts (h : s.canStartOp ring 0x04 anyDesc = some d) {x : Room} (hx : x = s.room (s.ring ring).room) :
    exec (.signal ring) s = .next ((s.setRoom (s.ring ring).room { x with
      sems := tset x.sems (d.fld 8 2) (Nat.min (tget 0 x.sems (d.fld 8 2) + d.fld 16 8) (2 ^ 64 - 1)) }).complete ring d.seq stOk 0 0 0 0) := by
  subst hx
  simp only [exec, execSignal, h, State.done, State.modRoom, tmod, sat64]

theorem exec_wait_starts (h : s.canStartOp ring 0x05 anyDesc = some d)
    (hsem : d.fld 16 8 ≤ tget 0 (s.room (s.ring ring).room).sems (d.fld 8 2)) :
    exec (.wait ring) s = .next (s.complete ring d.seq stOk 0 0 0 0) := by
  have hwait := canStartOp_of_test (q := fun d => decide (d.fld 16 8 ≤ tget 0 (s.room (s.ring ring).room).sems (d.fld 8 2))) h (decide_eq_true hsem)
  simp only [exec, execWait, hwait, State.done]

theorem exec_barrierJoin_starts (h : s.canStartOp ring 0x06 anyDesc = some d) : exec (.barrierJoin ring) s = .next (
    if (s.room (s.ring ring).room).stepEnded (d.fld 12 4) = true then
      (if d.fld 8 1 = 0 then s.complete ring d.seq stOk 0 0 0 0 else s.complete ring d.seq stBadDescriptor Code.stepLate 0 0 0)
    else s.markStarted ring d.seq) := by
  simp only [exec, execBarrierJoin, h, State.done]
  split <;> rfl

/-- A WAIT whose time has passed since its intake while it waits to start (R317). -/
def Desc.waitedOut (d : Desc) (now : Nat) : Prop := d.opcode = 0x05 ∧ d.started = false ∧ d.fld 12 4 ≠ 0 ∧ d.taken + 1000 * d.fld 12 4 ≤ now

theorem exec_waitTimeout_first {at_ : Nat} {a b : List Desc} (hkind : (s.ring ring).kind = 1) (hdis : (s.ring ring).st ≠ .disabled)
    (hroom : (s.room (s.ring ring).room).st = .committed) (hdescs : (s.ring ring).descs = a ++ d :: b)
    (ha : ∀ e ∈ a, ¬ e.waitedOut (s.upto at_).time.now) (hd : d.waitedOut (s.upto at_).time.now) :
    exec (.waitTimeout ring at_) s = .next ((s.upto at_).complete ring d.seq stTimeout Code.waitTimeout 0 0 0) := by
  have htest (e : Desc) : (e.opcode = 0x05 && !e.started && e.fld 12 4 != 0 && decide (e.taken + 1000 * e.fld 12 4 ≤ (s.upto at_).now)) = true ↔
      e.waitedOut (s.upto at_).time.now := by
    simp only [Bool.and_eq_true, decide_eq_true_eq, Bool.not_eq_true', bne_iff_ne, and_assoc]
    rfl
  have hfind : (s.ring ring).descs.find? (fun e => e.opcode = 0x05 && !e.started && e.fld 12 4 != 0 &&
      decide (e.taken + 1000 * e.fld 12 4 ≤ (s.upto at_).now)) = some d :=
    List.find?_eq_some_iff_append.mpr ⟨(htest d).mpr hd, a, b, hdescs, fun e he => by
      rw [Bool.not_eq_true', ← Bool.not_eq_true, htest]
      exact ha e he⟩
  simp only [exec, execWaitTimeout, State.upto_ring, State.upto_room, hkind, hdis, hroom, hfind, ne_eq, not_true_eq_false, or_self, if_false, State.done]

end

/-- Settles O23: each command by what it makes of its startable descriptor, and the timeout of the first WAIT that is due. -/
theorem plainDescriptorsComplete : Obligations.PlainDescriptorsComplete := by
  unfold Obligations.PlainDescriptorsComplete
  refine ⟨fun s ring d => ⟨exec_nop_starts, exec_timestamp_starts, fun h => ⟨_, rfl, exec_signal_starts h rfl⟩, exec_wait_starts, fun h => ?join⟩,
    fun s ring at_ a b d hkind hdis hroom hdescs ha hop hstart htime hdue =>
      exec_waitTimeout_first hkind hdis hroom hdescs ha ⟨hop, hstart, htime, hdue⟩⟩
  case join =>
    rw [exec_barrierJoin_starts h]
    refine ⟨fun hruns => ?_, fun hended hjoin => ?_, fun hended hhold => ?_⟩
    · rw [if_neg (ne_true_of_eq_false hruns)]
    · rw [if_pos hended, if_pos hjoin]
    · rw [if_pos hended, if_neg (by rw [hhold]; decide)]

end Sys2Proof.Machine
end

section
/-! PROOFS. Doorbells and START (R305, R307 to R309, R322, R329, R374). -/

namespace Sys2Proof.Machine

open Sys2Proof Sys2Proof.Obl

/-! ## Doorbells (R307 to R309) -/

section
variable {s : State} {fn k value : Nat} {g : Ring} (hroom : (s.room fn).st = .committed) (hk : k < (s.room fn).ringCount) (hvalue : value < 2 ^ 32)
  (hg : g = s.ring ((s.room fn).ringBase + k)) (hdis : g.st ≠ .disabled) (hhalt : g.st ≠ .halted)
include hroom hk hvalue hg hdis hhalt

/-- A full doorbell write on a ring in service is judged by the distance between its value and the ring's count alone. -/
theorem exec_doorbell_inService : exec (.doorbell fn (4 * k) 4 value []) s = .next (
    if g.kind = 1 then
      if g.depth < (value + 2 ^ 32 - g.count) % 2 ^ 32 then s.haltRing ((s.room fn).ringBase + k) stBadDescriptor Code.ringDoorbell
      else s.setRing ((s.room fn).ringBase + k) { g with bell := value }
    else if g.depth < (g.count + 2 ^ 32 - value) % 2 ^ 32 then s.dbIgnore fn
    else (s.setRing ((s.room fn).ringBase + k) { g with bell := value }).flush ((s.room fn).ringBase + k)) := by
  subst hg
  have hlocal : 4 * k / 4 = k := Nat.mul_div_cancel_left k (by decide)
  have hinGrant : ¬ 4 * (s.room fn).ringCount ≤ 4 * k := by omega
  simp only [exec, execDoorbell, State.hostActs, List.foldl_nil, State.doorbell, hlocal, hroom, reduceCtorEq, hdis, hhalt, hinGrant,
    Nat.mul_mod_right, Nat.mod_eq_of_lt hvalue, ne_eq, not_true_eq_false, or_self, if_false]

end

/-- Settles O25: the ring's kind and the distance of the value from its count choose among the four ends. -/
theorem doorbellMovesItsCount : Obligations.DoorbellMovesItsCount := by
  unfold Obligations.DoorbellMovesItsCount
  intro s fn k value g hroom hk hvalue hg hdis hhalt _
  rw [exec_doorbell_inService hroom hk hvalue hg hdis hhalt]
  refine ⟨fun hkind hnear => ?_, fun hkind hfar => ?_, fun hkind hnear => ?_, fun hkind hfar => ?_⟩
  · rw [if_pos hkind, if_neg (Nat.not_lt.mpr hnear)]
  · rw [if_pos hkind, if_pos hfar, hg]
    rfl
  · rw [if_neg (by rw [hkind]; decide), if_neg (Nat.not_lt.mpr hnear)]
  · rw [if_neg (by rw [hkind]; decide), if_pos hfar]
    rfl

/-! ## START (R305, R329) -/

theorem State.setRoom_setRoom (s : State) (r : Nat) (x y : Room) : (s.setRoom r x).setRoom r y = s.setRoom r y := by
  simp [State.setRoom, tset_tset]

/-- Setting up rings leaves the running image, and so the interface level, as it is. -/
theorem setRings_modRoom_fwIface {α : Type} (s : State) (l : List α) (k : α → Nat) (x : α → Ring) (r : Nat) (f : Room → Room) :
    ((l.foldl (fun s p => s.setRing (k p) (x p)) s).modRoom r f).fwIface = s.fwIface := by
  have fold : ∀ u : State, (l.foldl (fun s p => s.setRing (k p) (x p)) u).stewards = u.stewards := by
    induction l with
    | nil => exact fun _ => rfl
    | cons p l ih => exact fun u => (ih _).trans (State.setRing_stewards u (k p) (x p))
  simp only [State.fwIface, State.modRoom_stewards, fold]

/-- Every ring of a room's table but the first set up, its semaphores zeroed, and the start record written in the first (R305 steps 4 to 6). -/
def State.startAll (s : State) (r : Nat) (e0 : RingEntry) (rest : List RingEntry) : State :=
  ((rest.zipIdx.foldl (fun u p => u.setRing ((s.room r).ringBase + 1 + p.2) (p.1.ring r)) s).modRoom r fun y => { y with sems := [] }).startRecord
    (s.room r).ringBase (e0.ring r) stOk 0 s.fwIface ((e0 :: rest).filter fun e => e.kind ≠ 0).length true

section
variable {s : State} {r : Nat}

/-- START of a room by its own function is what R305 makes of its ring table. -/
theorem exec_start_own (h : (s.room r).st ≠ .absent) : exec (.start r r []) s = .next (s.startRings r) := by
  simp only [exec, execStart, State.hostActs, List.foldl_nil, State.startWrite, h, ne_eq, not_true_eq_false, or_self, if_false]

theorem startRings_notCommitted (h : (s.room r).st ≠ .committed) : s.startRings r = s.startErr r := by
  simp only [State.startRings, if_pos h]

variable (hroom : (s.room r).st = .committed)
include hroom

theorem startRings_running (h : ∃ q ∈ span (s.room r).ringBase (s.room r).ringCount, (s.ring q).st ≠ .disabled) : s.startRings r = s := by
  have hup : ((span (s.room r).ringBase (s.room r).ringCount).any fun q => (s.ring q).st ≠ .disabled) = true := by simpa using h
  simp only [State.startRings, hroom, hup, ne_eq, not_true_eq_false, if_false, if_true]

variable (hdown : ∀ q ∈ span (s.room r).ringBase (s.room r).ringCount, (s.ring q).st = .disabled)
include hdown

omit hroom in
theorem anyRunning_eq_false : ((span (s.room r).ringBase (s.room r).ringCount).any fun q => (s.ring q).st ≠ .disabled) = false := by
  simpa using hdown

theorem startRings_noTable (h : (s.room r).ringCount = 0 ∨ (s.room r).rtab % 4096 ≠ 0) : s.startRings r = s.startErr r := by
  have hdown' := anyRunning_eq_false hdown
  simp only [State.startRings, hroom, hdown', h, ne_eq, not_true_eq_false, Bool.false_eq_true, if_false, if_true]

variable (hrings : 0 < (s.room r).ringCount) (htable : (s.room r).rtab % 4096 = 0)
include hrings htable

theorem startRings_refused (h : s.hostOk r (s.room r).rtab (64 * (s.room r).ringCount) false = false) :
    s.startRings r = (s.countRefused r).startErr r := by
  have hdown' := anyRunning_eq_false hdown
  simp only [State.startRings, hroom, hdown', hrings.ne', htable, h, ne_eq, not_true_eq_false, Bool.false_eq_true, or_self, Bool.not_false, if_false, if_true]

/-- A table that can be read: its first entry is checked, then the interface level, then the other entries in their order. -/
theorem startRings_table {e0 : RingEntry} {rest : List RingEntry} {kinds : Nat → Nat}
    (hok : s.hostOk r (s.room r).rtab (64 * (s.room r).ringCount) false = true)
    (htab : ((List.range (s.room r).ringCount).filterMap fun i => s.ringEntry r i) = e0 :: rest)
    (hkinds : kinds = fun i => (((e0 :: rest)[i]?).map (·.kind)).getD 0) : s.startRings r =
    if e0.kind ≠ 2 ∨ e0.ok (s.room r).ringBase (s.room r).ringCount kinds = false then s.startErr r
    else if (s.room r).iface ≠ s.fwIface then s.startRecord (s.room r).ringBase (e0.ring r) stVersionRefused 0 s.fwIface 0 false
    else (rest.findIdx? fun e => !e.ok (s.room r).ringBase (s.room r).ringCount kinds).elim (s.startAll r e0 rest)
      fun i => s.startRecord (s.room r).ringBase (e0.ring r) stBadDescriptor Code.ringTable (i + 1) 0 false := by
  have hdown' := anyRunning_eq_false hdown
  simp only [State.startRings, hroom, hdown', hrings.ne', htable, hok, htab, ← hkinds, ne_eq, not_true_eq_false, Bool.false_eq_true, or_self, Bool.not_true,
    if_false, Bool.not_eq_true']
  cases rest.findIdx? fun e => !e.ok (s.room r).ringBase (s.room r).ringCount kinds with
  | none => simp only [Option.elim_none, State.startAll, setRings_modRoom_fwIface, ne_eq]
  | some i => simp only [Option.elim_some]

end

/-- Settles O28: the steps of R305 in their order, each with its own end. -/
theorem startBringsUpTheRingTable : Obligations.StartBringsUpTheRingTable := by
  unfold Obligations.StartBringsUpTheRingTable
  rintro s r x rfl hthere
  rw [exec_start_own hthere]
  refine ⟨fun h => ?_, fun hroom hup => ?_, fun hroom hdown h => ?_, fun hroom hdown hrings htable => ⟨fun hno => ?_, fun e0 rest hok htab => ?table⟩⟩
  · rw [startRings_notCommitted h]
    rfl
  · rw [startRings_running hroom hup]
  · rw [startRings_noTable hroom hdown h]
    rfl
  · rw [startRings_refused hroom hdown hrings htable hno, State.startErr, State.countRefused, State.modRoom, State.modRoom, State.setRoom_setRoom,
      State.setRoom_room]
  case table =>
    intro kinds
    rw [startRings_table hroom hdown hrings htable hok htab (kinds := kinds) rfl]
    refine ⟨fun hbad => ?_, fun hkind hfirst => ?_⟩
    · rw [if_pos hbad]
      rfl
    rw [if_neg (not_or.mpr ⟨not_not.mpr hkind, ne_false_of_eq_true hfirst⟩)]
    refine ⟨fun hlevel => ?_, fun hlevel => ?_⟩
    · rw [if_pos hlevel]
    rw [if_neg (not_not.mpr hlevel)]
    refine ⟨fun i hbad => ?_, fun hall => ?_⟩
    · rw [hbad, Option.elim_some]
    · have hnone : (rest.findIdx? fun e => !e.ok (s.room r).ringBase (s.room r).ringCount kinds) = none :=
        List.findIdx?_eq_none_iff.mpr fun e he => by simpa using hall e he
      rw [hnone, Option.elim_none, State.startAll]

end Sys2Proof.Machine
end

section
/-! PROOFS. Moderation, vectors unmasked, the restart of a ring and RINGTAB_SEL (R323, R324, R536, R537). -/

namespace Sys2Proof.Machine

open Sys2Proof Sys2Proof.Obl

theorem exec_moderationTimer_due {s : State} {ring at_ : Nat} {q : Ring} (hq : q = s.ring ring) (hkind : q.kind = 2) (hdis : q.st ≠ .disabled)
    (hien : q.ien = true) (hcount : q.modCount ≠ 0) (hus : q.modUs ≠ 0) (hunsent : q.unsent ≠ 0)
    (hdue : q.oldest + 1000 * q.modUs ≤ Nat.max s.time.now at_) :
    exec (.moderationTimer ring at_) s = .next (((s.upto at_).setRing ring { q with unsent := 0, oldest := 0 }).sendMsix q.room q.vector) := by
  subst hq
  have hdue' : (s.ring ring).oldest + 1000 * (s.ring ring).modUs ≤ (s.upto at_).now := Nat.le_trans hdue (max_le_upto_now s at_)
  simp only [exec, execModerationTimer, State.upto_ring]
  exact if_pos ⟨hkind, hdis, hien, hcount, hus, hunsent, hdue'⟩

theorem exec_vectorUnmask {s : State} {fn v : Nat} {e : MsixVec} (he : e = tget MsixVec.reset s.msix (fn * 32 + v)) :
    exec (.vectorUnmask fn v) s = .next { s with
      msix := tset s.msix (fn * 32 + v) { e with masked := false, pending := false }
      out := if e.pending then s.out ++ [.msix fn v e.addr e.data] else s.out } := by
  subst he
  simp only [exec, execVectorUnmask, State.unmask]
  split <;> rfl

/-! ## Restart of a ring (R323, R537) -/

section
variable {s : State} {value : Nat}

theorem exec_ringtabRestart_accepted (h : s.restartReason_ (bits value 21 16) (bits value 9 0) = 0) :
    exec (.ringtabRestart 0 value) s = .next { s with restart := some (bits value 21 16, bits value 9 0, bits value 63 32) } := by
  simp only [exec, execRingtabRestart, State.ringtabRestart, h, if_true]

theorem exec_ringtabRestart_rejected (h : 0 < s.restartReason_ (bits value 21 16) (bits value 9 0)) :
    exec (.ringtabRestart 0 value) s = .next { s with
      restartRejected := true
      restartReason := s.restartReason_ (bits value 21 16) (bits value 9 0) } := by
  simp only [exec, execRingtabRestart, State.ringtabRestart, if_true]
  split
  · next h0 => rw [h0] at h; cases h
  · rfl

end

/-- A staged restart that no started descriptor holds back, of a descriptor ring by its entry, keeps what R323 leaves of the ring. -/
theorem exec_ringRestart_descriptors {s : State} {r i resume n : Nat} {e : RingEntry} {q : Ring} (hstaged : s.restart = some (r, i, resume))
    (hn : n = (s.room r).ringBase + i) (hq : q = s.ring n) (hidle : ∀ d ∈ q.descs, d.started = false) (hentry : s.ringEntry r i = some e) (hkind : e.kind = 1)
    (hok : e.ok (s.room r).ringBase (s.room r).ringCount (fun k => (s.ring ((s.room r).ringBase + k)).kind) = true) :
    exec .ringRestart s = .next (({ s with restart := none }.setRing n { e.ring r with
      count := resume
      bell := q.bell
      descs := q.descs
      cancelled := q.cancelled
      reserved := q.reserved
      held := q.held }).postInit r 0 n stOk Code.ringRestart 0 0) := by
  subst hn hq
  have hnone : ((s.ring ((s.room r).ringBase + i)).descs.any (·.started)) = false := by simpa using hidle
  have hentry' : ({ s with restart := none } : State).ringEntry r i = some e := hentry
  have hchecks : ¬ (e.kind = 0 ∨ (!e.ok (s.room r).ringBase (s.room r).ringCount fun k => (s.ring ((s.room r).ringBase + k)).kind) = true) := by
    simp [hkind, hok]
  simp only [exec, execRingRestart, State.ringRestart, hstaged, hnone, Bool.false_eq_true, if_false, hentry']
  refine congrArg Host.Outcome.next ((if_neg hchecks).trans ?_)
  simp only [hkind, if_true]
  rfl

/-! ## RINGTAB_SEL (R536) -/

theorem exec_ringtabSel (s : State) (value : Nat) : exec (.ringtabSel 0 value) s = .next { s with
    ringSel := value % 2 ^ 14
    ringInfo0 := (s.ringOwner (value % 2 ^ 14)).elim 0 fun _ => (s.ring (value % 2 ^ 14)).count * 2 ^ 32 + (s.ring (value % 2 ^ 14)).bell
    ringInfo1 := (s.ringOwner (value % 2 ^ 14)).elim 0 (s.ring (value % 2 ^ 14)).info1 } := by
  simp only [exec, execRingtabSel, State.ringtabSel, if_true]
  cases s.ringOwner (value % 2 ^ 14) <;> rfl

/-- Settles O29: each command by the one state it answers under its conditions. -/
theorem ringRestartAndMessages : Obligations.RingRestartAndMessages := by
  unfold Obligations.RingRestartAndMessages
  refine ⟨fun s ring at_ q => exec_moderationTimer_due, fun s fn v e => exec_vectorUnmask,
    fun s value => ⟨exec_ringtabRestart_accepted, exec_ringtabRestart_rejected⟩, fun s r i resume n e q => exec_ringRestart_descriptors, ?select⟩
  case select =>
    rintro s value _ rfl
    exact ⟨fun o howner => by rw [exec_ringtabSel, howner]; rfl, fun hnone => by rw [exec_ringtabSel, hnone]; rfl⟩

end Sys2Proof.Machine
end

section
/-! PROOFS. Descriptors taken into intake (R310, R312, R319, R322, R323, R347, R348, R370). -/

namespace Sys2Proof.Machine

open Sys2Proof Sys2Proof.Obl

/-! ## One read of a ring (R310, R322) -/

/-- The slots that one read takes on a ring in service with a running completion ring. -/
theorem readable_active {s : State} {ring : Nat} {q c : Ring} (hq : q = s.ring ring) (hc : c = s.ring q.cq) (hkind : q.kind = 1) (hst : q.st = .active)
    (hposted : q.available ≤ q.depth) (hserved : s.served q.room = true) (hckind : c.kind = 2) (hhalt : c.st ≠ .halted) (hdis : c.st ≠ .disabled) :
    s.readable ring = Nat.min (Nat.min q.available 16) (Nat.min (q.depth - q.count % q.depth) (c.freeSlots - 1)) := by
  subst hq hc
  simp only [State.readable, hkind, hst, Nat.not_lt.mpr hposted, hserved, hckind, hhalt, hdis, ne_eq, not_true_eq_false, Bool.not_true, Bool.false_eq_true,
    or_self, if_false]

/-- The descriptor that stands in a ring's next slot, as the steward takes it in now (R312). -/
def State.nextDesc (s : State) (ring raw : Nat) : Desc := ⟨(s.ring ring).count, raw, false, s.time.now, 0⟩

/-- A ring with its next slot's descriptor in intake, and a slot of its completion ring reserved (R310, R322). -/
def State.slotTaken (s : State) (ring raw : Nat) : State :=
  let q := s.ring ring
  (s.setRing ring { q with
    count := (q.count + 1) % 2 ^ 32
    descs := q.descs ++ [s.nextDesc ring raw]
    cancelled := q.cancelled.filter (· ≠ q.count) }).modRing q.cq fun c => { c with reserved := c.reserved + 1 }

/-- A descriptor taken completes at once where a CANCEL named it or it fails a check (R312, R319). -/
theorem takeDesc_eq (s : State) (ring raw : Nat) : s.takeDesc ring raw =
    if (s.ring ring).cancelled.contains (s.ring ring).count then
      ((s.slotTaken ring raw).breakStream ring (s.nextDesc ring raw)).complete ring (s.ring ring).count stCancelled 0 0 0 0
    else ((s.nextDesc ring raw).check (s.ring ring).count s.variant).elim (s.slotTaken ring raw) fun code =>
      (s.slotTaken ring raw).complete ring (s.ring ring).count stBadDescriptor code 0 0 0 := by
  unfold State.takeDesc
  dsimp only
  refine if_congr Iff.rfl rfl ?_
  change (match (s.nextDesc ring raw).check (s.ring ring).count s.variant with | some c => _ | none => s.slotTaken ring raw) = _
  cases (s.nextDesc ring raw).check (s.ring ring).count s.variant <;> rfl

/-- A descriptor read that no CANCEL ended and that passes its checks joins intake, and its completion's slot is reserved (R312, R322). -/
theorem takeDesc_good {s : State} {ring raw : Nat} {q c : Ring} {d : Desc} (hq : q = s.ring ring) (hc : c = s.ring q.cq) (hne : q.cq ≠ ring)
    (hgone : q.count ∉ q.cancelled) (hd : d = ⟨q.count, raw, false, s.time.now, 0⟩) (hcheck : d.check q.count s.variant = none) :
    s.takeDesc ring raw = (s.setRing ring { q with count := (q.count + 1) % 2 ^ 32, descs := q.descs ++ [d] }).setRing q.cq
      { c with reserved := c.reserved + 1 } := by
  subst hq hc hd
  have hnone : (s.ring ring).cancelled.contains (s.ring ring).count = false := by simpa using hgone
  have hkept : (s.ring ring).cancelled.filter (· ≠ (s.ring ring).count) = (s.ring ring).cancelled :=
    List.filter_eq_self.mpr fun n hn => decide_eq_true fun h : n = _ => hgone (h ▸ hn)
  have hpass : (s.nextDesc ring raw).check (s.ring ring).count s.variant = none := hcheck
  rw [takeDesc_eq, hnone, hpass]
  simp only [Bool.false_eq_true, if_false, Option.elim_none, State.slotTaken, State.modRing, hkept, State.setRing_ring_ne _ _ hne, State.nextDesc]

/-! ## Reading beside the arbiters' notes (R347) -/

section
variable (s : State) (v : Tbl Nat) (ready : Tbl (List Nat))

theorem breakStream_withShares (ring : Nat) (d : Desc) : (s.withShares v ready).breakStream ring d = (s.breakStream ring d).withShares v ready := by
  unfold State.breakStream
  dsimp only
  split <;> rfl

theorem takeDesc_withShares (ring raw : Nat) : (s.withShares v ready).takeDesc ring raw = (s.takeDesc ring raw).withShares v ready := by
  have htaken : (s.withShares v ready).slotTaken ring raw = (s.slotTaken ring raw).withShares v ready := rfl
  have hnext : (s.withShares v ready).nextDesc ring raw = s.nextDesc ring raw := rfl
  have hvariant : (s.withShares v ready).variant = s.variant := rfl
  simp only [takeDesc_eq, htaken, hnext, hvariant, withShares_ring, breakStream_withShares, complete_withShares]
  split
  · rfl
  · cases (s.nextDesc ring raw).check (s.ring ring).count s.variant <;> rfl

theorem fetch_withShares (ring : Nat) : (s.withShares v ready).fetch ring = (s.fetch ring).withShares v ready := by
  have hread : (s.withShares v ready).readable ring = s.readable ring := rfl
  simp only [State.fetch, withShares_ring, withShares_hostOk, hread]
  split
  · simp only [State.haltRing, State.countRefused, State.post, modRoom_withShares, withShares_ring, setRing_withShares, postHeld_withShares]
  · exact List.foldl_hom (State.withShares · v ready) fun u w => takeDesc_withShares u v ready ring w

end

/-! ## The intake's choice (R347, R348) -/

section
variable {s : State} {arb p : Nat} (hp : p / 64 ≠ arb)
include hp

theorem wakeOn_vtime_other {r : Nat} (hr : r < 64) (others : List Nat) : tget 0 (s.wakeOn arb r others).sched.vtime p = tget 0 s.sched.vtime p := by
  cases others with
  | nil => rfl
  | cons q rest => exact tget_tmod_ne _ _ _ (by omega)

/-- An arbiter that wakes rooms of the device leaves the virtual times of the other arbiters. -/
theorem arrive_vtime_other {ready : List Nat} (hready : ∀ r ∈ ready, r < 64) :
    tget 0 (s.arrive arb ready).sched.vtime p = tget 0 s.sched.vtime p := by
  have fold (l : List Nat) (hl : ∀ r ∈ l, r < 64) : ∀ a : State × List Nat, tget 0 (l.foldl (fun a r =>
      if a.2.contains r then a else (a.1.wakeOn arb r a.2, r :: a.2)) a).1.sched.vtime p = tget 0 a.1.sched.vtime p := by
    induction l with
    | nil => exact fun _ => rfl
    | cons r l ih =>
      intro a
      rw [List.foldl_cons, ih fun q hq => hl q (List.mem_cons_of_mem _ hq)]
      split
      · rfl
      · exact wakeOn_vtime_other hp (hl r List.mem_cons_self) a.2
  exact fold ready hready _

end

theorem serve_vtime_other {s v : State} {arb r p : Nat} {lcFirst : Bool} {ready : List Nat} (h : s.serve arb lcFirst ready r = some v) (hp : p / 64 ≠ arb)
    (hready : ∀ r ∈ ready, r < 64) : tget 0 v.sched.vtime p = tget 0 s.sched.vtime p := by
  simp only [State.serve, Option.ite_none_right_eq_some, Option.some.injEq] at h
  obtain ⟨-, rfl⟩ := h
  exact arrive_vtime_other hp hready

/-- A room that alone has a descriptor to read is the one that the intake chooses. -/
theorem serve_alone (s : State) (arb r : Nat) (lcFirst : Bool) : (s.serve arb lcFirst [r] r).isSome = true := by
  have hpick (u : State) : u.pick arb lcFirst [r] = some r := by
    have hamong : (if lcFirst && [r].any u.lc then [r].filter u.lc else [r]) = [r] := by
      cases hlc : u.lc r <;> simp [hlc]
    simp only [State.pick, hamong]
    rfl
  simp only [State.serve, hpick, if_true, Option.isSome_some]

theorem Posts.sched {s t : State} (h : Posts s t) : t.sched = s.sched := by rw [h.rest]

theorem takeDesc_sched (s : State) (ring raw : Nat) : (s.takeDesc ring raw).sched = s.sched := by
  rw [takeDesc_eq]
  split
  · rw [(Posts.complete ..).sched, State.breakStream]
    split <;> rfl
  · cases (s.nextDesc ring raw).check (s.ring ring).count s.variant with
    | none => rfl
    | some code => exact (Posts.complete ..).sched

/-- A read of a ring is no arbiter's matter. -/
theorem fetch_sched (s : State) (ring : Nat) : (s.fetch ring).sched = s.sched := by
  unfold State.fetch
  dsimp only
  split
  · exact (Posts.postHeld ..).sched
  · exact foldl_inv (P := fun s t => t.sched = s.sched) _ _ (fun _ => rfl) (fun _ _ _ h g => g.trans h) (fun u w => takeDesc_sched u ring w) s

/-- What follows a read: the room charged for `n` descriptors, its turn passed on, the watchdog's count and the rooms that stay ready noted. -/
def State.intakeEnded (s : State) (p r ring n : Nat) : State :=
  let t := s.spend (arbIntake p) r n
  let t := { t with sched := { t.sched with turns := tset t.sched.turns r (ring + 1) } }.visit p ring
  t.settle (arbIntake p) (t.intakeRooms p)

theorem intakeEnded_notes (s : State) (p r ring n : Nat) : ∃ stewards ready k, s.intakeEnded p r ring n = { s with
    stewards := stewards
    sched := { s.sched with
      vtime := tmod 0 s.sched.vtime (arbIntake p * 64 + r) (· + k)
      turns := tset s.sched.turns r (ring + 1)
      ready := ready } } := ⟨_, _, _, rfl⟩

/-- Where the intake chooses a room and the room's turn is the ring's, the ring is read, its room charged, and the arbiter and the watchdog take note. -/
theorem intake_chosen {s v : State} {ring r : Nat} (hr : r = (s.ring ring).room) (hturn : s.turnOf r = some ring)
    (hserve : s.serve (arbIntake (s.pairOf r)) true (s.intakeRooms (s.pairOf r)) r = some v) :
    ∃ stewards ready k, s.intake ring = { s.fetch ring with
      stewards := stewards
      sched := { s.sched with
        vtime := tmod 0 v.sched.vtime (arbIntake (s.pairOf r) * 64 + r) (· + k)
        turns := tset s.sched.turns r (ring + 1)
        ready := ready } } := by
  have hv : v = s.withShares v.sched.vtime v.sched.ready := serve_upToShares hserve
  have hfetch : v.fetch ring = (s.fetch ring).withShares v.sched.vtime v.sched.ready := by
    rw [← fetch_withShares, ← hv]
  have hintake : s.intake ring = (v.fetch ring).intakeEnded (s.pairOf r) r ring (s.readable ring) := by
    simp only [State.intake, ← hr, hturn, hserve, ne_eq, not_true_eq_false, if_false, State.intakeEnded]
  obtain ⟨stewards, ready, k, hended⟩ := intakeEnded_notes (v.fetch ring) (s.pairOf r) r ring (s.readable ring)
  refine ⟨stewards, ready, k, ?_⟩
  rw [hintake, hended, hfetch, ← fetch_sched s ring]
  rfl

/-- DESCRIPTOR_FETCH in a device of 64 rooms: what it reads, what it leaves of the arbiters, and whose turn follows. -/
theorem exec_descriptorFetch_reads {s : State} {ring n a : Nat} {q c : Ring} (hrooms : ∀ p ∈ s.rooms, p.1 < 64) (hroom : q.room < 64)
    (hq : q = s.ring ring) (hc : c = s.ring q.cq) (hkind : q.kind = 1) (hst : q.st = .active) (hposted : q.available ≤ q.depth)
    (hserved : s.served q.room = true) (hckind : c.kind = 2) (hhalt : c.st ≠ .halted) (hdis : c.st ≠ .disabled)
    (hn : n = Nat.min (Nat.min q.available 16) (Nat.min (q.depth - q.count % q.depth) (c.freeSlots - 1))) (ha : a = q.base + 64 * (q.count % q.depth))
    (hturn : s.turnOf q.room = some ring)
    (hserve : (s.serve (arbIntake (s.pairOf q.room)) true (s.intakeRooms (s.pairOf q.room)) q.room).isSome = true) :
    ∃ t u, exec (.descriptorFetch ring) s = .next t ∧ t = { u with sched := t.sched, stewards := t.stewards } ∧
      (s.hostOk q.room a (64 * n) false = true → u = ((List.range n).map fun i => memNat s.host (a + 64 * i) 64).foldl (fun s w => s.takeDesc ring w) s) ∧
      (s.hostOk q.room a (64 * n) false = false → u = (s.countRefused q.room).haltRing ring stAccessFault Code.ringFetch) ∧
      tget 0 t.sched.turns q.room = ring + 1 ∧
      ∀ p, p / 64 ≠ arbIntake (s.pairOf q.room) → tget 0 t.sched.vtime p = tget 0 s.sched.vtime p := by
  obtain ⟨v, hv⟩ := Option.isSome_iff_exists.mp hserve
  obtain ⟨stewards, ready, k, hintake⟩ := intake_chosen (congrArg Ring.room hq) hturn hv
  have hread : s.readable ring = n := (readable_active hq hc hkind hst hposted hserved hckind hhalt hdis).trans hn.symm
  refine ⟨_, s.fetch ring, congrArg Host.Outcome.next hintake, rfl, fun hok => ?reads, fun hno => ?halts, tget_tset_self .., fun p hp => ?others⟩
  case reads =>
    subst hq ha
    simp only [State.fetch, hread, hok, Bool.not_true, Bool.false_eq_true, if_false]
  case halts =>
    subst hq ha
    simp only [State.fetch, hread, hno, Bool.not_false, if_true]
  case others =>
    have hready : ∀ r ∈ s.intakeRooms (s.pairOf q.room), r < 64 := fun r hr => by
      obtain ⟨x, hx, rfl⟩ := List.mem_map.mp (List.mem_filter.mp hr).1
      exact hrooms x hx
    rw [tget_tmod_ne _ _ _ (by omega), serve_vtime_other hv hp hready]

/-! ## Intake of a room that the device does not have -/

/-- A room numbered 64, one past the last, with one descriptor posted: its share at the intake of pair 0 is noted where room 0's at the intake of pair 1 is. -/
def strayRoom : State := { State.reset with
  rooms := [(64, Room.reset 64)]
  rings := [(0, { Ring.reset with kind := 2, st := .active, ldepth := 1 }), (1, { Ring.reset with kind := 1, st := .active, room := 64, bell := 1 })]
  stewards := { State.reset.stewards with pairs := [(0, { Pair.reset with st := 1 })] } }

/-- Refutes O26: no bound holds the rooms to the 64 of the device, and a room past them is charged where another arbiter keeps its virtual times. The reads
themselves are as it says: with every room below 64 by `exec_descriptorFetch_reads`, and of any room by `serve_alone` and `takeDesc_good`. -/
theorem not_descriptorsAreReadInOrder : ¬ Obligations.DescriptorsAreReadInOrder := by
  unfold Obligations.DescriptorsAreReadInOrder
  rintro ⟨hread, -, -⟩
  obtain ⟨t, -, hexec, -, -, -, -, hkept⟩ := hread strayRoom 1 1 0 _ _ rfl rfl rfl rfl (by decide) (by decide) rfl
    (by decide) (by decide) (by decide) (by decide) (by decide) (by decide) (by decide)
  obtain rfl : strayRoom.intake 1 = t := Host.Outcome.next.inj hexec
  have hother : tget 0 (strayRoom.intake 1).sched.vtime (257 * 64) = 0 := hkept (257 * 64) (by decide)
  have hcharged : tget 0 (strayRoom.intake 1).sched.vtime (257 * 64) = 10 := by decide +kernel
  omega

end Sys2Proof.Machine
end

section
/-! PROOFS. A job fault latched, and what it ends (R315, R427, R495, R496, R499, R546). -/

namespace Sys2Proof.Machine

open Sys2Proof Sys2Proof.Obl

/-! ## The latch (R427, R496) -/

/-- Every room's job and first-fault record are as they were. -/
def SameFaults (s t : State) : Prop := ∀ q, (t.room q).job = (s.room q).job ∧ (t.room q).fault = (s.room q).fault

theorem SameFaults.trans {s t u : State} (h : SameFaults s t) (g : SameFaults t u) : SameFaults s u :=
  fun q => ⟨(g q).1.trans (h q).1, (g q).2.trans (h q).2⟩

theorem SameFaults.of_booked {s t : State} (h : Booked s t) : SameFaults s t := fun q => by
  obtain ⟨_, _, _, e⟩ := h.1 q
  rw [e]
  exact ⟨rfl, rfl⟩

theorem SameFaults.of_rooms {s t : State} (h : t.rooms = s.rooms) : SameFaults s t := fun q => by
  rw [room_of_rooms h]
  exact ⟨rfl, rfl⟩

theorem SameFaults.modRoom (s : State) (r : Nat) (f : Room → Room)
    (h : ∀ x, (f x).job = x.job ∧ (f x).fault = x.fault := by exact fun _ => ⟨rfl, rfl⟩) : SameFaults s (s.modRoom r f) := fun q => by
  by_cases e : q = r
  · rw [e, modRoom_self]
    exact h _
  · rw [modRoom_ne _ _ e]
    exact ⟨rfl, rfl⟩

theorem SameFaults.cutSnap (s : State) (r : Nat) : SameFaults s (s.cutSnap r) := by
  unfold State.cutSnap State.modMem
  exact .modRoom s r _

theorem SameFaults.cutEngines (s : State) (r : Nat) : SameFaults s (s.cutEngines r) := fun q => by
  by_cases e : q = r
  · subst e
    simp [State.cutEngines, State.room, State.modRoom, State.setRoom]
  · rw [cutEngines_ne s e]
    exact ⟨rfl, rfl⟩

/-- The record of a fault set in its room, before the collector writes it and stops the room's work. -/
def State.noteFault (s : State) (r code unit : Nat) (j : Job) : State := s.modRoom r fun x => { x with
  fault := some ⟨s.now, code, unit, j.incarn⟩
  job := some { j with faulted := true } }

section
variable (s : State) (r code unit : Nat) (j : Job)

theorem latch_sameFaults : SameFaults (s.noteFault r code unit j) (s.latch r code unit j) := by
  have record : SameFaults (s.noteFault r code unit j) (((s.noteFault r code unit j).charge r 2 1).healthRecord 6 code unit r j.incarn) :=
    (SameFaults.of_booked (Booked.charge _ r 2 1)).trans (.of_rooms rfl)
  exact ((record.trans (.of_booked (freeCores_booked _ r))).trans (.cutEngines _ r)).trans (.cutSnap _ r)

theorem latch_job : ((s.latch r code unit j).room r).job = some { j with faulted := true } := by
  rw [(latch_sameFaults s r code unit j r).1, State.noteFault, modRoom_self]

theorem latch_fault : ((s.latch r code unit j).room r).fault = some ⟨s.time.now, code, unit, j.incarn⟩ := by
  rw [(latch_sameFaults s r code unit j r).2, State.noteFault, modRoom_self]
  rfl

theorem latch_otherJobs {q : Nat} (h : q ≠ r) : ((s.latch r code unit j).room q).job = (s.room q).job := by
  rw [(latch_sameFaults s r code unit j q).1, State.noteFault, modRoom_ne _ _ h]

/-- Beside rooms and flows, the latch leaves what its records and the accounting of the cores that it frees leave. -/
theorem latch_rest : ∃ u, Booked (((s.noteFault r code unit j).charge r 2 1).healthRecord 6 code unit r j.incarn) u ∧
    (s.latch r code unit j).health = u.health ∧ (s.latch r code unit j).stewards = u.stewards ∧ (s.latch r code unit j).caravan = u.caravan := by
  have hcut (u : State) : ((u.cutEngines r).cutSnap r).health = u.health ∧ ((u.cutEngines r).cutSnap r).stewards = u.stewards ∧
      ((u.cutEngines r).cutSnap r).caravan = u.caravan := ⟨rfl, rfl, rfl⟩
  rw [show s.latch r code unit j = (State.cutEngines _ r).cutSnap r from rfl]
  exact ⟨_, freeCores_booked _ r, hcut _⟩

theorem latch_log : (s.latch r code unit j).health.held.reverse ++ (s.latch r code unit j).health.records =
    ⟨s.time.now, 6, code, unit, r, j.incarn⟩ :: (s.health.held.reverse ++ s.health.records) := by
  obtain ⟨u, hbooked, hhealth, -, -⟩ := latch_rest s r code unit j
  rw [hhealth, hbooked.2]
  exact healthRecord_log ((s.noteFault r code unit j).charge r 2 1) 6 code unit r j.incarn

theorem latch_ends : (s.latch r code unit j).ends r = s.ends r := by
  obtain ⟨u, hbooked, -, hstewards, -⟩ := latch_rest s r code unit j
  simp only [State.ends, State.pairOf, State.pair, hstewards]
  rw [hbooked.2]
  rfl

theorem latch_caravan : (s.latch r code unit j).caravan = s.caravan := by
  obtain ⟨u, hbooked, -, -, hcaravan⟩ := latch_rest s r code unit j
  rw [hcaravan, hbooked.2]
  rfl

end

/-! ## The path of a fault (R427, R496) -/

theorem exec_jobFault (s : State) (room code unit : Nat) : exec (.jobFault room code unit) s = .next (s.raiseFault room code unit) := rfl

theorem raiseFault_noJob {s : State} {room code unit : Nat} (h : (s.room room).job = none) : s.raiseFault room code unit = s := by
  simp only [State.raiseFault, h]

section
variable {s : State} {room code unit : Nat} {j : Job} (hjob : (s.room room).job = some j)
include hjob

theorem raiseFault_turnover (h : (s.room room).st = .turnover) : s.raiseFault room code unit = s := by
  simp only [State.raiseFault, hjob, h, if_true]

variable (hst : (s.room room).st ≠ .turnover)
include hst

theorem raiseFault_late (h : j.faulted = true) :
    s.raiseFault room code unit = s.setRoom room { s.room room with lateFaults := (s.room room).lateFaults + 1 } := by
  simp only [State.raiseFault, hjob, hst, h, if_false, if_true, State.modRoom]

variable (hfirst : j.faulted = false)
include hfirst

theorem raiseFault_one (hone : j.devices ≤ 1) (hends : s.ends room = true) :
    s.raiseFault room code unit = (s.latch room code unit j).endJob room stJobFault code [] j.released := by
  simp only [State.raiseFault, hjob, hst, hfirst, hone, latch_ends, hends, Bool.false_eq_true, if_false, if_true]

theorem raiseFault_sentUp (hseveral : 1 < j.devices) (htag : j.tag ≠ 0) (hhead : s.caravan.isHead = false) : s.raiseFault room code unit =
    (s.latch room code unit j).ctrlUp 0x16 j.tag j.incarn none (leBytes 4 j.rank ++ leBytes 4 j.step ++ leBytes 2 code) := by
  simp only [State.raiseFault, hjob, hst, hfirst, Nat.not_le.mpr hseveral, htag, latch_caravan, hhead, Bool.false_eq_true, if_false]

end

/-- Settles O32: on one device the latch, then the end of the incarnation, which keep each other's marks; the other cases answer one state. -/
theorem jobFaultLatchesItsOrigin : Obligations.JobFaultLatchesItsOrigin := by
  unfold Obligations.JobFaultLatchesItsOrigin
  simp only [exec_jobFault]
  refine ⟨fun s room code unit j hjob => ⟨fun hst hfirst hone hends => ?ends, fun hst hfirst hseveral htag hhead => ?sentUp, fun hst hfaulted => ?late,
    fun hst => ?turnover⟩, fun s room code unit hnone => ?noJob⟩
  case ends =>
    obtain ⟨hfree, hfault, hothers, hcores, hlog⟩ := endJob_spec stJobFault code [] j.released (latch_job s room code unit j)
    rw [raiseFault_one hjob hst hfirst hone hends]
    refine ⟨_, rfl, hfault.trans (latch_fault s room code unit j), ?_, hcores, hfree, fun r hr => (hothers r hr).trans (latch_otherJobs s room code unit j hr)⟩
    have hrecord : (⟨s.time.now, 6, code, unit, room, j.incarn⟩ : HealthRec) ∈
        ((s.latch room code unit j).endJob room stJobFault code [] j.released).health.held.reverse ++
          ((s.latch room code unit j).endJob room stJobFault code [] j.released).health.records := by
      rw [hlog, latch_log]
      exact List.mem_cons_self
    simpa using hrecord
  case sentUp => rw [raiseFault_sentUp hjob hst hfirst hseveral htag hhead]
  case late => rw [raiseFault_late hjob hst hfaulted]
  case turnover => rw [raiseFault_turnover hjob hst]
  case noJob => rw [raiseFault_noJob hnone]

end Sys2Proof.Machine
end

section
/-! PROOFS. NET_POST, and the two rows of a collective (R312, R393, R398 to R403). -/

namespace Sys2Proof.Machine

open Sys2Proof Sys2Proof.Obl

/-! ## NET_POST (R312, R398) -/

/-- PUT and GET are one NET_POST, of the descriptors that each takes. -/
theorem exec_netPost {s : State} {ring : Nat} {c : Instr} {d : Desc} {p : Desc → Bool}
    (hc : (c, p) ∈ [(Instr.put ring, fun d : Desc => d.fld 8 1 != 1), (.get ring, fun d : Desc => d.fld 8 1 == 1)])
    (hd : s.canStartOp ring 0x30 p = some d) : exec c s = .next (s.netPost ring d) := by
  simp only [List.mem_cons, Prod.mk.injEq, List.not_mem_nil, or_false] at hc
  rcases hc with ⟨rfl, rfl⟩ | ⟨rfl, rfl⟩
  · simp only [exec, execPut, hd]
  · simp only [exec, execGet, hd]

section
variable {s : State} {ring : Nat} {d : Desc}

theorem netPost_noJob (h : ∀ j, (s.room (s.ring ring).room).job = some j → j.tag = 0 ∨ j.phase = 0 ∨ j.faulted = true) :
    s.netPost ring d = s.complete ring d.seq stBadDescriptor Code.netNojob 0 0 0 := by
  unfold State.netPost
  dsimp only
  split
  · rfl
  · next j hj => exact if_pos (h j hj)

variable {j : Job} (hjob : (s.room (s.ring ring).room).job = some j) (htag : j.tag ≠ 0) (hphase : j.phase ≠ 0) (hfault : j.faulted = false)
include hjob htag hphase hfault

theorem netPost_badFlow (h : 0x7FFF < d.fld 10 2 ∨ 1 < d.fld 8 1 ∨ j.devices ≤ d.fld 12 4 ∨ d.fld 12 4 = j.rank) :
    s.netPost ring d = s.complete ring d.seq stBadDescriptor Code.netFlow 0 0 0 := by
  simp only [State.netPost, hjob, htag, hphase, hfault, h, Bool.false_eq_true, or_self, if_false, if_true, State.done]

variable (hflow : d.fld 10 2 ≤ 0x7FFF) (hop : d.fld 8 1 ≤ 1) (hpeer : d.fld 12 4 < j.devices) (hself : d.fld 12 4 ≠ j.rank)
include hflow hop hpeer hself

theorem netPost_badLength (h : d.fld 32 8 = 0 ∨ 2 ^ 32 < d.fld 32 8) :
    s.netPost ring d = s.complete ring d.seq stBadDescriptor Code.descOperand 0 0 0 := by
  simp only [State.netPost, hjob, htag, hphase, hfault, Nat.not_lt.mpr hflow, Nat.not_lt.mpr hop, Nat.not_le.mpr hpeer, hself, h, Bool.false_eq_true,
    or_self, if_false, if_true, State.done]

/-- A transfer taken up: its descriptor started, its flow's next message number taken, and the first packet on its way. -/
def State.beginTransfer (s : State) (ring : Nat) (d : Desc) (j : Job) (n : Nat) : State :=
  let k := flowKey (s.ring ring).room (d.fld 12 4) (d.fld 10 2)
  let t := (s.markStarted ring d.seq).modFlow k fun f => { f with nextMsg := n + 1 }
  if d.fld 8 1 = 0 then t.sendMsg (s.ring ring).room (d.fld 12 4) (d.fld 10 2) ⟨n, d.fld 16 8, d.fld 24 8, d.fld 32 8, 0, 0, 0, false, some (ring, d.seq)⟩
  else t.sendGet (s.ring ring).room j (d.fld 12 4) (d.fld 10 2)
    ⟨some (ring, d.seq), 2 ^ 31 + n, d.fld 16 8, d.fld 24 8, d.fld 32 8, false, 0, s.time.now, 0, none, none⟩

variable (hlen : d.fld 32 8 ≠ 0) (hmax : d.fld 32 8 ≤ 2 ^ 32)
include hlen hmax

theorem netPost_noAccess {e : Nat} (h : s.accessCheck (s.ring ring).room (d.fld 16 8) (d.fld 32 8) (d.fld 8 1 == 1) = .error e) :
    s.netPost ring d = s.complete ring d.seq stAccessFault e 0 0 0 := by
  simp only [State.netPost, hjob, htag, hphase, hfault, Nat.not_lt.mpr hflow, Nat.not_lt.mpr hop, Nat.not_le.mpr hpeer, hself, hlen, Nat.not_lt.mpr hmax,
    h, Bool.false_eq_true, or_self, if_false, State.done]

theorem netPost_begins {x : Option Special} (h : s.accessCheck (s.ring ring).room (d.fld 16 8) (d.fld 32 8) (d.fld 8 1 == 1) = .ok x) :
    s.netPost ring d = s.beginTransfer ring d j (s.flow (flowKey (s.ring ring).room (d.fld 12 4) (d.fld 10 2))).nextMsg := by
  simp only [State.netPost, hjob, htag, hphase, hfault, Nat.not_lt.mpr hflow, Nat.not_lt.mpr hop, Nat.not_le.mpr hpeer, hself, hlen, Nat.not_lt.mpr hmax,
    h, Bool.false_eq_true, or_self, if_false]
  rfl

end

/-! ## COLLECTIVE_EXECUTION (R400, R401) -/

/-- The state in which a collective's queued execution has left its queue, a loose one's waiver recorded (R11, R402). -/
def State.collTaken (s : State) (room index w : Nat) : State :=
  let t := s.modColl room index fun c => { c with queued := c.queued - 1, running := true }
  if collLoose w then State.waive t room 1 else t

/-- The position beside another in the first level of the tree. -/
def collBeside (pos : Nat) : Nat := if pos % 2 = 0 then pos + 1 else pos - 1

/-- A collective's result stored and its execution ended; a refused store faults the job. -/
def State.collEnd (s : State) (room index w : Nat) (bs : List Byte) : State :=
  let o := s.writeAny room (collDst w) bs
  o.code.elim ((o.s.modColl room index fun c => { c with running := false, next := c.next + 1 }).postCounter room (fld w 6 2) (fld w 5 1) 1 collectiveWait)
    fun e => o.s.raiseFault room e collUnit

section
variable {s : State} {room index w : Nat} {j : Job} (hrun : (s.room room).running = true) (hjob : (s.room room).job = some j)
  (hw : (s.room room).prog[index]? = some w)
include hrun hjob hw

section
variable (hqueued : (tget ⟨0, false, 0⟩ (s.room room).coll index).queued ≠ 0) (hidle : (tget ⟨0, false, 0⟩ (s.room room).coll index).running = false)
include hqueued hidle

/-- An execution of a position that reads no source is taken, and nothing is sent. -/
theorem exec_collectiveExecution_silent (hreads : collReads w (collPos w j.rank) = false) :
    exec (.collectiveExecution room index) s = .next (s.collTaken room index w) := by
  simp only [exec, execCollectiveExecution, hjob, hw, hrun, hqueued, hidle, hreads, Bool.not_true, Bool.not_false, Bool.false_eq_true, or_self, or_true,
    if_false, if_true]
  rfl

variable (hreads : collReads w (collPos w j.rank) = true)
include hreads

theorem exec_collectiveExecution_unreadable {e : Nat} (h : (s.collTaken room index w).readAny room (collSrc w) (collSrcBytes w) = .error e) :
    exec (.collectiveExecution room index) s = .next ((s.collTaken room index w).raiseFault room e collUnit) := by
  rw [State.collTaken] at h ⊢
  simp only [exec, execCollectiveExecution, hjob, hw, hrun, hqueued, hidle, hreads, Bool.not_true, Bool.false_eq_true, or_self, if_false, if_true, h]

/-- A position that reads its source sends it to the position beside it, where there is one. -/
theorem exec_collectiveExecution_sends {b : List Byte} (h : (s.collTaken room index w).readAny room (collSrc w) (collSrcBytes w) = .ok b) :
    exec (.collectiveExecution room index) s = .next (
      if collPositions w ≤ collBeside (collPos w j.rank) then s.collTaken room index w
      else (s.collTaken room index w).sendMsg room (collRank w (collBeside (collPos w j.rank))) (0x8000 + index)
        ⟨64 * (tget ⟨0, false, 0⟩ (s.room room).coll index).next, collSrc w, 0, collSrcBytes w, 0, 0, recordDigest w, collLoose w, none⟩) := by
  rw [State.collTaken] at h ⊢
  simp only [exec, execCollectiveExecution, hjob, hw, hrun, hqueued, hidle, hreads, Bool.not_true, Bool.false_eq_true, or_self, or_false, if_false, if_true, h]
  rfl

end

/-! ## COLLECTIVE_COMPLETE (R400 to R403) -/

variable {parts : List (Nat × List Nat)} (hbusy : (tget ⟨0, false, 0⟩ (s.room room).coll index).running = true)
  (hall : collComplete w (collPos w j.rank) parts = true)
include hbusy hall

theorem exec_collectiveComplete_unreadable {e : Nat} (hreads : collReads w (collPos w j.rank) = true)
    (h : s.readAny room (collSrc w) (collSrcBytes w) = .error e) :
    exec (.collectiveComplete room index parts) s = .next (s.raiseFault room e collUnit) := by
  simp only [exec, execCollectiveComplete, hjob, hw, hrun, hbusy, hall, hreads, Bool.not_true, Bool.false_eq_true, or_self, if_false, if_true, h]

/-- A running execution with every part there ends with its result, of what its position reads and what came. -/
theorem exec_collectiveComplete_ends {src bs : List Byte} {a b c : Nat}
    (hsrc : (if collReads w (collPos w j.rank) then s.readAny room (collSrc w) (collSrcBytes w) else .ok []) = .ok src)
    (hresult : (bs, a, b, c) = collResult w (collPos w j.rank)
      (collDraw w j.seed index (tget ⟨0, false, 0⟩ (s.room room).coll index).next (collPos w j.rank)) (collOwn w (collPos w j.rank) (collCodes w src)) parts) :
    exec (.collectiveComplete room index parts) s = .next
      (State.collEnd (((((s.count collUnit 5 a).count collUnit 6 b).count collUnit 7 c).chargeNormal room (collSrc w) src.length).chargeNormal room
        (collDst w) bs.length) room index w bs) := by
  simp only [exec, execCollectiveComplete, hjob, hw, hrun, hbusy, hall, Bool.not_true, Bool.false_eq_true, or_self, if_false, hsrc, ← hresult, State.collEnd]
  generalize State.writeAny _ _ _ _ = o
  obtain ⟨u, code⟩ := o
  cases code <;> rfl

end

/-- Settles O47: a NET_POST by the check that fails first, and each row of a collective by what it reads and may write. -/
theorem transfersAndCollectivesStartAndEnd : Obligations.TransfersAndCollectivesStartAndEnd := by
  unfold Obligations.TransfersAndCollectivesStartAndEnd
  refine ⟨fun s ring c d p hc hd => ?post, fun s room index w pos j t hrun hjob hw hqueued hidle hpos ht => ?start,
    fun s t room index w pos j parts hrun hjob hw hbusy hpos hall => ?complete⟩
  case post =>
    rw [exec_netPost hc hd]
    refine ⟨fun h => by rw [netPost_noJob h], fun j hjob htag hphase hfault => ⟨fun h => ?badFlow, fun hflow hop hpeer hself h => ?badLength,
      fun hflow hop hpeer hself hlen hmax => ?checked⟩⟩
    case badFlow => rw [netPost_badFlow hjob htag hphase hfault h]
    case badLength => rw [netPost_badLength hjob htag hphase hfault hflow hop hpeer hself h]
    case checked =>
      refine ⟨fun e he => ?noAccess, ?begins⟩
      case noAccess => rw [netPost_noAccess hjob htag hphase hfault hflow hop hpeer hself hlen hmax he]
      case begins =>
        rintro x _ _ hx rfl rfl
        have hbegins := netPost_begins hjob htag hphase hfault hflow hop hpeer hself hlen hmax hx
        refine ⟨fun hput => ?_, fun hget => ?_⟩
        · rw [exec_netPost (p := fun d : Desc => d.fld 8 1 != 1) (by simp) (canStartOp_of_test hd (by simp [hput])), hbegins]
          exact congrArg Host.Outcome.next (if_pos hput)
        · rw [exec_netPost (p := fun d : Desc => d.fld 8 1 == 1) (by simp) (canStartOp_of_test hd (by simp [hget])), hbegins]
          exact congrArg Host.Outcome.next (if_neg (by rw [hget]; decide))
  case start =>
    obtain rfl : t = s.collTaken room index w := ht
    subst hpos
    refine ⟨fun e hreads he => ?_, fun hsilent => ?_, fun b q hreads hb hq => ?_⟩
    · rw [exec_collectiveExecution_unreadable hrun hjob hw hqueued hidle hreads he]
    · rw [exec_collectiveExecution_silent hrun hjob hw hqueued hidle hsilent]
    · obtain rfl : q = collBeside (collPos w j.rank) := hq
      rw [exec_collectiveExecution_sends hrun hjob hw hqueued hidle hreads hb]
      exact ⟨fun hlast => by rw [if_pos hlast], fun hbeside => by rw [if_neg (Nat.not_le.mpr hbeside)]⟩
  case complete =>
    subst hpos
    refine ⟨fun e hreads he => ?_, fun src bs a b c hsrc hresult ht => ?_⟩
    · rw [exec_collectiveComplete_unreadable hrun hjob hw hbusy hall hreads he]
    · rw [exec_collectiveComplete_ends hrun hjob hw hbusy hall hsrc hresult, ← ht]
      refine ⟨fun e hcode => ?_, fun hcode => ?_⟩
      · rw [State.collEnd, hcode]
        rfl
      · rw [State.collEnd, hcode]
        rfl

end Sys2Proof.Machine
end

section
/-! PROOFS. What every step keeps of flash, fuses and the functions' count (R328, R451, R455, R458). -/

namespace Sys2Proof.Machine

open Sys2Proof Sys2Proof.Obl

/-- Settles O7: each command keeps programmed fuse bits, audit numbers and the bound of NumVFs, and taking it from the queue touches none of them. -/
theorem flashAndFusesNeverGoBack : Obligations.FlashAndFusesNeverGoBack := by
  unfold Obligations.FlashAndFusesNeverGoBack
  intro s t h
  have kept := step_keeps s t h
  exact ⟨kept.fuses, kept.seq, kept.vfs⟩

end Sys2Proof.Machine
end

section
/-! PROOFS. Rooms without an incarnation, while the barriers and incarnations of other rooms proceed (R315, R425, R427). -/

namespace Sys2Proof.Machine

open Sys2Proof Sys2Proof.Obl

/-- What a turnover's cut withdraws from a room: its incarnation, what it has staged, and with the page table the moves of its pages. -/
def Room.work (x : Room) : Option Job × List ModeChange × List PlanStage × Tbl Page := (x.job, x.modes, x.plans, x.mem.pages)

theorem Room.work_eq_iff {x : Room} {j : Option Job} {l : List ModeChange} {m : List PlanStage} {t : Tbl Page} :
    x.work = (j, l, m, t) ↔ x.job = j ∧ x.modes = l ∧ x.plans = m ∧ x.mem.pages = t := by
  simp only [Room.work, Prod.mk.injEq]

/-- Where room `q` runs no incarnation, it gets none, and nothing is staged or moved in it. -/
structure SparesIdle (q : Nat) (s t : State) : Prop where
  work : (s.room q).job = none → (t.room q).work = (s.room q).work

section
variable {q : Nat}

theorem SparesIdle.refl (s : State) : SparesIdle q s s := ⟨fun _ => rfl⟩

theorem SparesIdle.trans {s t u : State} (h : SparesIdle q s t) (g : SparesIdle q t u) : SparesIdle q s u :=
  ⟨fun idle => (g.work ((congrArg Prod.fst (h.work idle)).trans idle)).trans (h.work idle)⟩

theorem SparesIdle.of_room {s t : State} (h : t.room q = s.room q) : SparesIdle q s t := ⟨fun _ => by rw [h]⟩

theorem SparesIdle.of_rooms {s t : State} (h : t.rooms = s.rooms) : SparesIdle q s t := .of_room (room_of_rooms h q)

theorem SparesIdle.of_booked {s t : State} (h : Booked s t) : SparesIdle q s t := ⟨fun _ => by
  obtain ⟨_, _, _, e⟩ := h.1 q
  rw [e]
  rfl⟩

theorem SparesIdle.of_posts {s t : State} (h : Posts s t) : SparesIdle q s t := ⟨fun _ => by
  obtain ⟨_, _, e⟩ := h.rooms q
  rw [e]
  rfl⟩

theorem SparesIdle.ite {s a b : State} {p : Prop} [Decidable p] (h : SparesIdle q s a) (g : SparesIdle q s b) : SparesIdle q s (if p then a else b) := by
  split
  · exact h
  · exact g

theorem SparesIdle.foldl {α : Type} (f : State → α → State) (l : List α) (h : ∀ s a, SparesIdle q s (f s a)) (s : State) :
    SparesIdle q s (l.foldl f s) :=
  foldl_inv (P := SparesIdle q) f l .refl (fun _ _ _ => .trans) h s

/-- An operation on a room's incarnation does not act on a room without one. -/
theorem SparesIdle.of_job {s t : State} {r : Nat} {j : Job} (hjob : (s.room r).job = some j) (h : q ≠ r → SparesIdle q s t) : SparesIdle q s t :=
  ⟨fun idle => (h fun e => by rw [e, hjob] at idle; cases idle).work idle⟩

theorem SparesIdle.modRoom (s : State) (r : Nat) (f : Room → Room) (h : ∀ x, x.job = none → (f x).work = x.work := by exact fun _ _ => rfl) :
    SparesIdle q s (s.modRoom r f) := by
  refine ⟨fun idle => ?_⟩
  by_cases e : q = r
  · rw [e] at idle ⊢
    rw [modRoom_self, h _ idle]
  · rw [modRoom_ne _ _ e]

theorem SparesIdle.modOther {r : Nat} (hq : q ≠ r) (s : State) (f : Room → Room) : SparesIdle q s (s.modRoom r f) := .of_room (modRoom_ne s f hq)

/-- A mark in the record of a room's incarnation. -/
theorem SparesIdle.markJob (s : State) (r : Nat) (f : Job → Job) : SparesIdle q s (s.modRoom r fun x => { x with job := x.job.map f }) :=
  .modRoom s r _ fun x idle => by simp only [Room.work, idle, Option.map_none]

/-- A change of a room's memory beside its page table. -/
theorem SparesIdle.modMem (s : State) (r : Nat) (f : RoomMem → RoomMem) (h : ∀ m, (f m).pages = m.pages := by exact fun _ => rfl) :
    SparesIdle q s (s.modMem r f) :=
  .modRoom s r _ fun x _ => by simp only [Room.work, h]

/-! ## The end of an incarnation and the path of a fault (R315, R427) -/

theorem SparesIdle.cutEngines (s : State) (r : Nat) : SparesIdle q s (s.cutEngines r) := by
  by_cases e : q = r
  · subst e
    exact ⟨fun _ => by simp [State.cutEngines, Room.work, State.room, State.modRoom, State.setRoom]⟩
  · exact .of_room (cutEngines_ne s e)

theorem SparesIdle.cutSnap (s : State) (r : Nat) : SparesIdle q s (s.cutSnap r) := .modMem s r _

theorem SparesIdle.endJob (s : State) (r status detail : Nat) (done : List Done) (last : Option Nat) : SparesIdle q s (s.endJob r status detail done last) := by
  unfold State.endJob
  split
  · exact .refl s
  · next j hjob =>
    refine .of_job hjob fun hq => ?_
    have stopped : SparesIdle q s ((s.freeCores r).cutEngines r) := (SparesIdle.of_booked (freeCores_booked s r)).trans (.cutEngines _ r)
    have cut := SparesIdle.ite (p := status = stOk) stopped (stopped.trans (.cutSnap _ r))
    obtain ⟨-, -, -, dropped⟩ := dropWaiters_spec (if status = stOk then (s.freeCores r).cutEngines r else ((s.freeCores r).cutEngines r).cutSnap r) r
    exact ((((cut.trans (.of_room (dropped q hq))).trans (.modOther hq _ _)).trans (.of_posts (Posts.finish ..))).trans
      (.of_posts (Posts.complete ..))).trans (.of_rooms (passDuties_rooms _))

theorem SparesIdle.latch {r : Nat} (hq : q ≠ r) (s : State) (code unit : Nat) (j : Job) : SparesIdle q s (s.latch r code unit j) := by
  have noted : SparesIdle q s (((s.noteFault r code unit j).charge r 2 1).healthRecord 6 code unit r j.incarn) :=
    (SparesIdle.modOther hq s _).trans ((SparesIdle.of_booked (Booked.charge _ r 2 1)).trans (.of_rooms rfl))
  exact ((noted.trans (.of_booked (freeCores_booked _ r))).trans (.cutEngines _ r)).trans (.cutSnap _ r)

theorem SparesIdle.abortRoom (s : State) (r code : Nat) (last : Option Nat) : SparesIdle q s (s.abortRoom r code last) := by
  unfold State.abortRoom
  split
  · exact .refl s
  · next j hjob =>
    refine .of_job hjob fun hq => ?_
    have latched := SparesIdle.ite (p := j.faulted = true) (.refl s) (.latch hq s code 0xFFFF j)
    exact .ite (latched.trans (.endJob ..)) (latched.trans (.modOther hq _ _))

theorem SparesIdle.ctrlSend (s : State) (hop far ctype cjob cinc : Nat) (cseq : Option Nat) (body : List Byte) :
    SparesIdle q s (s.ctrlSend hop far ctype cjob cinc cseq body) := by
  obtain ⟨_, _, e⟩ := ctrlSend_spec s hop far ctype cjob cinc cseq body
  exact .of_rooms (by rw [e])

theorem SparesIdle.headAbort (s : State) (tag rank code : Nat) : SparesIdle q s (s.headAbort tag rank code) := by
  unfold State.headAbort
  split
  · exact .refl s
  · refine .ite (.of_rooms rfl) ?_
    dsimp only
    refine SparesIdle.trans (SparesIdle.trans ?_ (.foldl _ _ (fun u p => ?_) _)) (.foldl _ _ (fun u r => .abortRoom u r code _) _)
    · exact .of_rooms rfl
    · exact .ite (.refl u) (.ctrlSend ..)

theorem SparesIdle.raiseFault (s : State) (r code unit : Nat) : SparesIdle q s (s.raiseFault r code unit) := by
  unfold State.raiseFault
  dsimp only
  split
  · exact .refl s
  · next j hjob =>
    refine .of_job hjob fun hq => ?_
    have latched := SparesIdle.latch hq s code unit j
    exact .ite (.refl s) (.ite (.modOther hq s _) (.ite (.ite (latched.trans (.endJob ..)) latched)
      (.ite latched (.ite (latched.trans (.headAbort ..)) (latched.trans (.ctrlSend ..))))))

/-! ## A barrier released (R273, R379, R425) -/

theorem SparesIdle.stallBarrier (s : State) (r cause : Nat) : SparesIdle q s (s.stallBarrier r cause) :=
  SparesIdle.trans (.foldl _ _ (fun _ _ => .of_booked (Booked.stall ..)) s) (.of_rooms rfl)

theorem SparesIdle.snapWaited (s : State) (r : Nat) : SparesIdle q s (s.snapWaited r) :=
  .ite ((SparesIdle.stallBarrier s r snapPending).trans (.markJob _ r _)) (.refl s)

theorem SparesIdle.markSnap (s : State) (r : Nat) (j : Job) : SparesIdle q s (s.markSnap r j) :=
  .ite (.raiseFault ..) ((SparesIdle.modMem s r _).trans (.markJob _ r _))

theorem SparesIdle.applyMode (s : State) (r : Nat) (m : ModeChange) : SparesIdle q s (s.applyMode r m) :=
  .ite (.of_rooms rfl) (.ite (.of_rooms rfl) (.ite (.modRoom s r _) (.refl s)))

theorem SparesIdle.setPlan (s : State) (r : Nat) (p : Option SnapPlan) : SparesIdle q s (s.setPlan r p) := .modMem s r _

theorem SparesIdle.takeEffect {r : Nat} (hq : q ≠ r) (s : State) (e : Nat) : SparesIdle q s (s.takeEffect r e).1 := by
  have modes : SparesIdle q s (((s.room r).modesAt e).foldl (fun s m => s.applyMode r m) s) := .foldl _ _ (fun u m => .applyMode u r m) s
  unfold State.takeEffect
  dsimp only
  refine SparesIdle.trans ?_ (.modOther hq _ _)
  refine List.foldlRecOn (motive := fun a : State × List Done => SparesIdle q s a.1) _ _ ?_ fun a plans p _ => ?_
  · dsimp only
    exact modes.trans (.modOther hq _ _)
  · have judged (ok : Bool) (l m : List Done) : SparesIdle q s (if ok = true then (a.1.setPlan r p.plan, l) else (a.1, m)).1 := by
      cases ok
      · exact plans
      · exact plans.trans (.setPlan ..)
    exact judged ..

theorem SparesIdle.modLedger (s : State) (r : Nat) (f : Ledger → Ledger) : SparesIdle q s (s.modLedger r f) := .modRoom s r _

theorem SparesIdle.markSlow (s : State) (core : Nat) : SparesIdle q s (s.markSlow core) := .ite (.refl s) (.of_rooms rfl)

theorem SparesIdle.slowCores (s : State) (r : Nat) : SparesIdle q s (s.slowCores r) :=
  .foldl _ _ (fun u _ => .foldl _ _ (fun v c => .markSlow v c) u) s

theorem SparesIdle.refresh (s : State) (core : Nat) : SparesIdle q s (s.refresh core) := .of_booked (Quiet.refresh s core).booked

theorem SparesIdle.releaseBarrier (s : State) (r : Nat) (complete : Option Nat) : SparesIdle q s (s.releaseBarrier r complete) := by
  unfold State.releaseBarrier
  split
  · exact .refl s
  · next j hjob =>
    refine .ite (.refl s) (.of_job hjob fun hq => ?_)
    have entered (e : Nat) (f : Room → Room) : SparesIdle q s (((((s.takeEffect r e).1.modRoom r f).stallBarrier r barrierPeer).accountRoom r).ledgerStalls r) :=
      ((((SparesIdle.takeEffect hq s e).trans (.modOther hq _ f)).trans (.stallBarrier ..)).trans (.of_booked (accounts_booked ..))).trans (.modLedger ..)
    refine SparesIdle.trans ?_ (.ite (.endJob ..) (.of_posts (Posts.finish ..)))
    refine SparesIdle.trans ?_ (.foldl _ _ (fun w c => .refresh w c) _)
    refine SparesIdle.trans ?_ (.ite (.refl _) (.slowCores _ r))
    refine SparesIdle.trans (.trans ?_ (.ite (.refl _) (.modLedger _ r _))) (.of_rooms rfl)
    exact entered _ _

theorem SparesIdle.releaseHere (s : State) (tag incarn epoch : Nat) (complete : Option Nat) : SparesIdle q s (s.releaseHere tag incarn epoch complete) := by
  refine .foldl _ _ (fun u r => ?_) s
  split
  · exact .refl u
  · refine .ite (.refl u) (SparesIdle.trans (.ite (SparesIdle.trans (SparesIdle.trans ?_ (.snapWaited _ r)) (.markSnap ..)) ?_) (.releaseBarrier _ r complete))
    all_goals
      split
      · exact .modMem u r _
      · exact .refl u

theorem noteLags_rooms (s : State) (tag : Nat) (l : List BarEntry) : (s.noteLags tag l).rooms = s.rooms := by
  refine (foldl_inv (P := fun s t => t.rooms = s.rooms) _ _ (fun _ => rfl) (fun _ _ _ h g => g.trans h) (fun v b => ?_) _).trans rfl
  dsimp only
  split
  · rfl
  · exact audit_rooms ..

theorem SparesIdle.headRelease (s : State) (tag : Nat) : SparesIdle q s (s.headRelease tag) := by
  unfold State.headRelease
  split
  · exact .refl s
  · split
    · exact .refl s
    · refine .ite (.refl s) (SparesIdle.trans (SparesIdle.trans ?_ (.foldl _ _ (fun u m => .ctrlSend ..) _)) (.releaseHere ..))
      exact .of_rooms (noteLags_rooms ..)

theorem SparesIdle.managerSend (s : State) (tag : Nat) : SparesIdle q s (s.managerSend tag) := by
  unfold State.managerSend
  dsimp only
  split
  · exact .refl s
  · exact .ite (.refl s) (.ctrlSend ..)

/-! ## Duties taken over (R325, R368) -/

theorem Posts.ite {s a b : State} {p : Prop} [Decidable p] (h : Posts s a) (g : Posts s b) : Posts s (if p then a else b) := by
  split
  · exact h
  · exact g

/-- The descriptors of a ring read again: what cannot be read, or is ill-formed, completes with its code. -/
theorem Posts.reread (s : State) (ring : Nat) : Posts s (s.reread ring) := by
  refine .ite (.refl s) (.ite (.foldl _ (fun u d => ?_) _ s) ?_)
  · dsimp only
    split
    · exact (Posts.setRing ..).trans (.complete ..)
    · exact .setRing ..
  · refine Posts.trans ?_ (.foldl _ (fun _ _ => .complete ..) _ _)
    exact ((Posts.modRoom s _ _ fun x => ⟨_, x.postErr, rfl⟩).trans (.setRing ..)).trans (.postHeld ..)

theorem SparesIdle.takeOver (s : State) : SparesIdle q s s.takeOver := by
  unfold State.takeOver
  have handed (st : Stewards) (l : List Nat) : SparesIdle q s (l.foldl (fun s k => s.reread k) { s with stewards := st }) :=
    SparesIdle.trans (t := { s with stewards := st }) (.of_rooms rfl) (.foldl _ _ (fun u k => .of_posts (Posts.reread u k)) _)
  refine .ite (handed ..) (SparesIdle.trans (SparesIdle.trans (handed ..) (.foldl _ _ (fun _ _ => .headRelease ..) _)) (.foldl _ _ (fun _ _ => .managerSend ..) _))

end
end Sys2Proof.Machine
end

section
/-! PROOFS. A room's COMMIT, and its turnover phase by phase (R331 to R340). -/

namespace Sys2Proof.Machine

open Sys2Proof Sys2Proof.Obl

/-! ## COMMIT (R331, R333) -/

/-- The state of the room is the first row of Table 13.6. -/
theorem grantCheck_notVacant {s : State} {r : Nat} (h : (s.room r).st ≠ .vacant) : s.grantCheck r = some Code.grantState := by
  simp [State.grantCheck, firstSome, h]

theorem Aside.newRoomKeys (s : State) (r : Nat) : Aside s (s.newRoomKeys r) := by
  have drawn (u : State) : Aside u u.draw.2 := ⟨rfl, rfl, rfl, ⟨rfl, rfl⟩, fun _ => ⟨rfl, rfl, rfl, rfl⟩⟩
  have celled : Aside s (s.draw.2.modRoom r fun x => { x with sec := { x.sec with cellarKey := some s.draw.1 } }) :=
    .modRoom _ r _ (drawn s) (fun _ => rfl) (fun _ => rfl) (fun _ => rfl) (fun _ => rfl)
  unfold State.newRoomKeys
  dsimp only
  split
  · exact .modRoom _ r _ (celled.trans (drawn _)) (fun _ => rfl) (fun _ => rfl) (fun _ => rfl) (fun _ => rfl)
  · exact celled

/-- A room as a successful COMMIT leaves it: a new ledger, and no security fault counted. -/
def Room.commit (x : Room) (now : Nat) : Room := { x with
  grantErr := 0
  st := .committed
  ledger := { Ledger.reset with opened := now }
  sec := { x.sec with faults := 0 } }

theorem commitRoom_rooms (s : State) (r : Nat) :
    (s.commitRoom r).rooms = ((s.newRoomKeys r).modRoom r fun x => x.commit (s.newRoomKeys r).now).rooms := by
  unfold State.commitRoom
  dsimp only
  split
  · exact audit_rooms ..
  · rfl

theorem commitRoom_room (s : State) (r : Nat) : ((s.commitRoom r).room r).st = .committed ∧ ((s.commitRoom r).room r).grant = (s.room r).grant := by
  obtain ⟨-, -, grant, -⟩ := (Aside.newRoomKeys s r).rooms r
  rw [room_of_rooms (commitRoom_rooms s r), modRoom_self]
  exact ⟨rfl, grant⟩

section
variable {s : State} {room : Nat}

theorem exec_commit_other {fn : Nat} (h : fn ≠ 0) : exec (.commit fn room) s = .next s :=
  congrArg Host.Outcome.next (if_pos (.inl h))

variable (hroom : room < 64) (hready : s.stewards.ready = true)
include hroom hready

theorem exec_commit_refused {k : Nat} (h : s.grantCheck room = some k) :
    exec (.commit 0 room) s = .next (s.setRoom room { s.room room with grantErr := k }) := by
  simp [exec, execCommit, State.commitWrite, hready, Nat.not_le.mpr hroom, h, State.modRoom]

theorem exec_commit_plain (h : s.grantCheck room = none) (hconf : (s.room room).sec.conf = false) :
    exec (.commit 0 room) s = .next (s.commitRoom room) := by
  simp [exec, execCommit, State.commitWrite, hready, Nat.not_le.mpr hroom, h, hconf]

end

/-! ## The cut of a room (R335, R336, R338) -/

/-- What the cut withdraws is gone, and the table of pages is the one whose moves are called off. -/
theorem cutHere_work (s : State) (room : Nat) (rel dis note : Bool) : ∃ pages : Tbl Page,
    ((s.cutHere room rel dis note).room room).work = (none, [], [], tmap pages fun _ p => { p with moving := none }) := by
  have parts : ∃ (u : State) (l : List Done), s.cutHere room rel dis note =
      ((((u.cutMoves room).modRoom room fun x => x.cut ⟨(u.cutMoves room).now, 1, rel, dis⟩).endDebug room).finish l).passDuties := by
    unfold State.cutHere
    dsimp only
    exact ⟨_, _, rfl⟩
  obtain ⟨u, l, e⟩ := parts
  obtain ⟨_, _, posted⟩ := (Posts.finish (((u.cutMoves room).modRoom room fun x => x.cut ⟨(u.cutMoves room).now, 1, rel, dis⟩).endDebug room) l).rooms room
  rw [room_of_rooms (endDebug_rooms _ _), modRoom_self, State.cutMoves, State.modMem, modRoom_self] at posted
  refine ⟨(u.room room).mem.pages, ?_⟩
  rw [e, passDuties_room, State.cutMoves, State.modMem, posted]
  rfl

theorem cutRoom_work (s : State) (room : Nat) (rel dis note : Bool) : ((s.cutRoom room rel dis note).room room).job = none ∧
    ((s.cutRoom room rel dis note).room room).modes = [] ∧ ((s.cutRoom room rel dis note).room room).plans = [] ∧
    ∀ p ∈ ((s.cutRoom room rel dis note).room room).mem.pages, p.2.moving = none := by
  obtain ⟨pages, cut⟩ := cutHere_work s room rel dis note
  have after := ((SparesIdle.takeOver (s.cutHere room rel dis note)).work (Room.work_eq_iff.mp cut).1).trans cut
  rw [← State.cutRoom] at after
  obtain ⟨job, modes, plans, moved⟩ := Room.work_eq_iff.mp after
  refine ⟨job, modes, plans, fun p hp => ?_⟩
  rw [moved] at hp
  obtain ⟨_, _, rfl⟩ := List.mem_map.mp hp
  rfl

section
variable {s : State} {room : Nat}

theorem exec_turnover_other {fn : Nat} (h : fn ≠ 0) (release : Bool) : exec (.turnover fn room release) s = .next s :=
  congrArg Host.Outcome.next (if_neg h)

theorem exec_turnover_committed (release : Bool) (h : (s.room room).st = .committed) :
    exec (.turnover 0 room release) s = .next (s.cutRoom room release false true) := by
  simp only [exec, execTurnover, State.startTurnover, h, if_true]

theorem exec_turnover_again (release : Bool) {u : Turn} (h : (s.room room).st = .turnover) (hu : (s.room room).turn = some u) :
    exec (.turnover 0 room release) s = .next (s.setRoom room { s.room room with turn := some { u with release := u.release || release } }) := by
  simp only [exec, execTurnover, State.startTurnover, State.modRoom, h, hu, if_true, Option.map_some, Bool.or_false]

/-! ## The gate, its limit, and the zeroing (R336, R337, R339, R340) -/

variable {u : Turn} (hst : (s.room room).st = .turnover) (hu : (s.room room).turn = some u)
include hu

theorem phase_of_turn : (s.room room).phase = u.phase := by rw [Room.phase, hu]; rfl

include hst

theorem exec_gateClose_open (hphase : u.phase = 1) : exec (.gateClose room) s = .next (s.scrub room) :=
  congrArg Host.Outcome.next (if_pos ⟨hst, (phase_of_turn hu).trans hphase⟩)

/-- A drain limit of a room in turnover: nothing before its time, the gate closed by force in phase 1, a further engine recorded where one was forced. -/
theorem exec_drainLimit_turnover (unit at_ : Nat) : exec (.drainLimit room unit at_) s = .next (
    if (s.upto at_).time.now < u.start + 50000 then s.upto at_
    else if u.phase = 1 then (((s.upto at_).modRoom room fun x => { x with drainForced := true }).healthRecord 8 0 unit room 0).scrub room
    else if (s.room room).drainForced then (s.upto at_).healthRecord 8 0 unit room 0
    else s.upto at_) := by
  have hst' : ((s.upto at_).room room).st = .turnover := hst
  have hu' : ((s.upto at_).room room).turn = some u := hu
  simp only [exec, execDrainLimit, hst', hu', ne_eq, not_true_eq_false, false_or]
  rfl

theorem exec_zeroingComplete_ends (at_ : Nat) (hphase : u.phase = 3) : exec (.zeroingComplete room at_) s = .next ((s.upto at_).endTurnover room u) := by
  have hst' : ((s.upto at_).room room).st = .turnover := hst
  have hu' : ((s.upto at_).room room).turn = some u := hu
  simp only [exec, execZeroingComplete, hst', hu', hphase, and_self, if_true]

end

/-- A health record joins the device's, written or waiting. -/
theorem healthRecord_count (s : State) (a b c d e : Nat) :
    (s.healthRecord a b c d e).health.seq + (s.healthRecord a b c d e).health.held.length = s.health.seq + s.health.held.length + 1 := by
  simp only [State.healthRecord, State.flushHealth]
  split
  · simp only [List.length_append, List.length_singleton, Nat.add_assoc]
  · simp only [List.length_append, List.length_singleton, List.length_nil, Nat.add_zero, Nat.add_assoc]

/-- Settles O37: each command by its case of COMMIT, of the cut, of the gate and of the zeroing. -/
theorem roomsAreCommittedAndTurnedOver : Obligations.RoomsAreCommittedAndTurnedOver := by
  unfold Obligations.RoomsAreCommittedAndTurnedOver
  intro s room
  refine ⟨fun fn hfn => ⟨exec_commit_other hfn, exec_turnover_other hfn⟩, ?commit, ?cut, fun release u => exec_turnover_again release, ?gate, ?limit, ?zeroed⟩
  case commit =>
    exact fun hroom hready => ⟨grantCheck_notVacant, fun k => exec_commit_refused hroom hready,
      fun hgrant hconf => ⟨exec_commit_plain hroom hready hgrant hconf, commitRoom_room s room⟩⟩
  case cut =>
    intro release hst
    have run := exec_turnover_committed release hst
    obtain ⟨st, turn, consent, grant⟩ := cutRoom_room_self s room release false true
    obtain ⟨job, modes, plans, still⟩ := cutRoom_work s room release false true
    exact ⟨run, _, run, st, turn, job, modes, plans, consent, grant, still⟩
  case gate =>
    intro u hst hu hphase
    obtain ⟨st, turn, sems, forest, kernels, prog, heat, next, -, others⟩ := scrub_room s room
    exact ⟨_, exec_gateClose_open hst hu hphase, st.trans hst, turn.trans (by rw [hu]; rfl), sems, forest, kernels, prog, heat, next, others⟩
  case limit =>
    intro u unit at_ hst hu
    rw [exec_drainLimit_turnover hst hu]
    refine ⟨fun hphase hdue => ?forced, fun hearly => ?early⟩
    case forced =>
      rw [if_neg (Nat.not_lt.mpr hdue), if_pos hphase]
      obtain ⟨-, turn, -, -, -, -, -, -, forced, others⟩ :=
        scrub_room (((s.upto at_).modRoom room fun x => { x with drainForced := true }).healthRecord 8 0 unit room 0) room
      rw [healthRecord_room, modRoom_self] at turn forced
      refine ⟨_, rfl, forced, turn.trans (by rw [State.upto_room, hu]; rfl), healthRecord_count _ 8 0 unit room 0, fun r hr => ?_⟩
      exact (others r hr).trans ((healthRecord_room ..).trans (modRoom_ne (s.upto at_) _ hr))
    case early =>
      obtain hearly | ⟨hphase, hfree⟩ := hearly
      · rw [if_pos hearly]
      · have hlater : u.phase ≠ 1 := by omega
        rw [if_neg hlater, if_neg (ne_true_of_eq_false hfree), ite_self]
  case zeroed =>
    intro u at_ hst hu hphase hdis
    exact ⟨_, exec_zeroingComplete_ends hst hu at_ hphase, endTurnover_room (s.upto at_) room u hdis⟩

end Sys2Proof.Machine
end

section
/-! PROOFS. A core's switch to another room, and the room that arbitration picks for it (R347, R353, R354, R356, R357, R366). -/

namespace Sys2Proof.Machine

open Sys2Proof Sys2Proof.Obl

/-! ## The room picked (R347, R353) -/

section
variable {α : Type} {key : α → Nat} {before : α → α → Prop}

/-- Of two members the first has the lesser key, or an equal one and stood before the other. -/
def Stably (key : α → Nat) (before : α → α → Prop) (a b : α) : Prop := key a < key b ∨ key a = key b ∧ before a b

theorem insertBy_stable {x : α} {l : List α} (hl : l.Pairwise (Stably key before)) (hx : ∀ y ∈ l, before y x) :
    (insertBy key x l).Pairwise (Stably key before) := by
  induction l with
  | nil => exact List.pairwise_singleton _ _
  | cons y l ih =>
    obtain ⟨hy, hl'⟩ := List.pairwise_cons.mp hl
    unfold insertBy
    split
    next hlt =>
      refine List.pairwise_cons.mpr ⟨List.forall_mem_cons.mpr ⟨.inl hlt, fun z hz => .inl ?_⟩, hl⟩
      obtain h | ⟨h, -⟩ := hy z hz <;> omega
    next hge =>
      refine List.pairwise_cons.mpr ⟨fun z hz => ?_, ih hl' fun z hz => hx z (List.mem_cons_of_mem _ hz)⟩
      obtain rfl | hz := mem_insertBy.mp hz
      · obtain h | h := Nat.lt_or_eq_of_le (Nat.not_lt.mp hge)
        · exact .inl h
        · exact .inr ⟨h, hx y List.mem_cons_self⟩
      · exact hy z hz

/-- A sort rises by its key, and members with equal keys keep their order. -/
theorem sortBy_stable {l : List α} (hl : l.Pairwise before) : (sortBy key l).Pairwise (Stably key before) := by
  have fold (l : List α) (hl : l.Pairwise before) : ∀ acc : List α, acc.Pairwise (Stably key before) → (∀ a ∈ acc, ∀ b ∈ l, before a b) →
      (l.foldl (fun acc x => insertBy key x acc) acc).Pairwise (Stably key before) := by
    induction l with
    | nil => exact fun _ hacc _ => hacc
    | cons x l ih =>
      obtain ⟨hx, hl⟩ := List.pairwise_cons.mp hl
      intro acc hacc hbefore
      refine ih hl _ (insertBy_stable hacc fun y hy => hbefore y hy x List.mem_cons_self) fun a ha b hb => ?_
      obtain rfl | ha := mem_insertBy.mp ha
      · exact hx b hb
      · exact hbefore a ha b (List.mem_cons_of_mem _ hb)
  exact fold l hl [] .nil fun _ h => absurd h List.not_mem_nil

end

/-- `pick` chooses a ready room of least virtual time, the lower number among equals. -/
theorem pick_least {s : State} {arb r : Nat} {ready : List Nat} (h : s.pick arb false ready = some r) :
    r ∈ ready ∧ ∀ q ∈ ready, s.vt arb r < s.vt arb q ∨ s.vt arb r = s.vt arb q ∧ r ≤ q := by
  have hid : (sortBy id ready).Pairwise (· ≤ ·) :=
    (sortBy_stable (before := fun _ _ => True) (List.pairwise_of_forall fun _ _ => trivial)).imp fun h => h.elim Nat.le_of_lt fun e => Nat.le_of_eq e.1
  have hsorted := sortBy_stable (key := s.vt arb) hid
  have hmem : ∀ q, q ∈ sortBy (s.vt arb) (sortBy id ready) ↔ q ∈ ready := fun q => by rw [mem_sortBy, mem_sortBy]
  simp only [State.pick, Bool.false_and, Bool.false_eq_true, if_false] at h
  obtain ⟨rest, hrest⟩ := List.head?_eq_some_iff.mp h
  rw [hrest] at hsorted hmem
  refine ⟨(hmem r).mp List.mem_cons_self, fun q hq => ?_⟩
  obtain rfl | hq := List.mem_cons.mp ((hmem q).mpr hq)
  · exact .inr ⟨rfl, Nat.le_refl q⟩
  · exact (List.pairwise_cons.mp hsorted).1 q hq

/-- A slot's owner gets the core, unless the slot lends and the owner has no ready word (R353). -/
theorem pickRoom_owner {s : State} {core o : Nat} {lend : Bool} (h : s.slotOwner core = some (o, lend)) (hkeep : lend = false ∨ s.ctxReady core o = true) :
    s.pickRoom core = some o := by
  obtain rfl | hready := hkeep
  · simp [State.pickRoom, h]
  · simp [State.pickRoom, h, hready]

/-- Outside slots, the room that holds the core for less than 200 µs keeps it while it has a ready word (Table 14.2). -/
theorem pickRoom_held {s : State} {core o : Nat} (h : s.slotOwner core = none) (hsel : (s.core core).sel = some o) (hready : o ∈ s.readyRooms core)
    (hheld : s.now < (s.core core).since + 200000) : s.pickRoom core = none := by
  simp [State.pickRoom, h, hsel, hready, hheld]

/-- Outside slots, once the holding room has had its 200 µs, the core is picked as any arbiter's service (R347). -/
theorem pickRoom_shared {s : State} {core : Nat} (h : s.slotOwner core = none) (hpast : (s.core core).since + 200000 ≤ s.now) :
    s.pickRoom core = s.pick core false (s.readyRooms core) := by
  have hheld : decide (s.now < (s.core core).since + 200000) = false := decide_eq_false (Nat.not_lt.mpr hpast)
  cases hsel : (s.core core).sel <;> simp [State.pickRoom, h, hsel, hheld]

/-! ## The switch (R356, R357, R366) -/

/-- A core that has passed from room `o`, whose context is `x`, to room `r`, whose context is `y`. -/
def Core.switched (c : Core) (o r : Nat) (x y : Ctx) (now : Nat) : Core :=
  { (c.setCtx o { x with saved := some c.banks }).setCtx r { y with saved := none } with
    banks := y.saved.getD []
    sel := some r
    since := now }

/-- One more switch counted. -/
def State.switchCounted (s : State) : State := { s with sched := { s.sched with switches := s.sched.switches + 1 } }

theorem Booked.switchCounted {s t : State} (h : Booked s t) : Booked s.switchCounted t.switchCounted := ⟨h.1, by rw [State.switchCounted, h.2]; rfl⟩

/-- The core charged to its outgoing room, then handed to the incoming one, and the switch counted. -/
def State.handedOver (s : State) (core o r : Nat) (x y : Ctx) : State :=
  ((s.account core).setCore core (((s.account core).core core).switched o r x y (s.account core).now)).switchCounted

theorem handedOver_core (s : State) (core o r : Nat) (x y : Ctx) :
    ∃ a b, (s.handedOver core o r x y).core core = { (s.core core).switched o r x y s.now with chargedAt := a, usedAt := b } := by
  obtain ⟨a, b, h⟩ := account_core s core core
  refine ⟨a, b, ?_⟩
  have hrun : (s.handedOver core o r x y).core core = ((s.account core).core core).switched o r x y (s.account core).now := State.setCore_core ..
  rw [hrun, h, Booked.now (Quiet.account s core).booked]
  rfl

theorem handedOver_core_ne (s : State) {core c : Nat} (o r : Nat) (x y : Ctx) (h : c ≠ core) : (s.handedOver core o r x y).core c = s.core c :=
  (State.setCore_core_ne _ _ h).trans ((Quiet.account s core).other c h)

theorem handedOver_booked (s : State) (core o r : Nat) (x y : Ctx) : Booked s.switchCounted (s.handedOver core o r x y) :=
  Booked.switchCounted (Booked.trans (Quiet.account s core).booked (Booked.cores rfl))

theorem chargeCore_room_ne (s : State) (core : Nat) {o r : Nat} (n : Nat) (hr : r ≠ o) : (s.chargeCore core o n).room r = s.room r := by
  have hcharge : (s.charge o 5 n).room r = s.room r := modRoom_ne s _ hr
  unfold State.chargeCore
  dsimp only
  split
  · exact hcharge
  · exact hcharge

theorem stall_room_ne (s : State) {o r : Nat} (cause n : Nat) (hr : r ≠ o) : (s.stall o cause n).room r = s.room r := by
  unfold State.stall
  split
  · rfl
  · exact modRoom_ne s _ hr

/-- A core is charged to the room that it serves, and no other room takes part (R366). -/
theorem account_room_ne {s : State} {core o r : Nat} (hsel : (s.core core).sel = some o) (hr : r ≠ o) : (s.account core).room r = s.room r := by
  simp only [State.account, hsel, Option.bind_some]
  cases (s.core core).ctx o with
  | none => rfl
  | some x =>
    simp only [Option.map_some]
    split
    · rw [stall_room_ne _ _ _ hr, chargeCore_room_ne _ _ _ hr]
      rfl
    · rfl

theorem modCtx_since (s : State) (core r : Nat) (f : Ctx → Ctx) : ((s.modCtx core r f).core core).since = (s.core core).since := by
  unfold State.modCtx
  split
  · rfl
  · rw [State.modCore_core]
    rfl

theorem refreshCtx_since (s : State) (core r : Nat) : ((s.refreshCtx core r).core core).since = (s.core core).since := by
  unfold State.refreshCtx
  split
  · rfl
  · split
    · exact modCtx_since ..
    · split
      · rfl
      · rw [State.core, wakeOn_cores]
        exact modCtx_since ..

/-- Noting readiness leaves the time since when a core serves its room. -/
theorem refresh_since (s : State) (core : Nat) : ((s.refresh core).core core).since = (s.core core).since :=
  foldl_inv (P := fun s t => (t.core core).since = (s.core core).since) _ _ (fun _ => rfl) (fun _ _ _ h g => g.trans h)
    (fun s r => refreshCtx_since s core r) s

/-- CONTEXT_SWITCH to another room than the core serves, with no tile of the outgoing one in flight. -/
theorem exec_contextSwitch_hands {s : State} {core o r : Nat} {x y : Ctx} (hsel : (s.core core).sel = some o) (hne : o ≠ r)
    (hx : (s.core core).ctx o = some x) (hy : (s.core core).ctx r = some y) (hpick : s.pickRoom core = some r) (hidle : ∀ f ∈ x.flights, f.kind = .move) :
    exec (.contextSwitch core) s =
      .next (((s.handedOver core o r x y).chargeCore core r (switchNs y.saved.isSome)).refresh core) := by
  obtain ⟨a, b, hcore⟩ := account_core s core core
  have hsel' : ((s.account core).core core).sel = some o := by rw [hcore]; exact hsel
  have hx' : ((s.account core).core core).ctx o = some x := by rw [hcore]; exact hx
  have htile : (x.flights.any Flight.isTile) = false := List.any_eq_false.mpr fun f hf => by simp [Flight.isTile, hidle f hf]
  simp only [exec, execContextSwitch, hpick, Option.bind_some, hy, hsel, hx, Option.any_some, htile, hsel', hx', beq_iff_eq, Option.some.injEq, hne,
    Bool.or_false, if_false]
  rfl

/-- Settles O20: the core charged and handed over, then the switch charged and readiness noted; the pick by its three cases. -/
theorem contextSwitchSavesAndRestores : Obligations.ContextSwitchSavesAndRestores := by
  unfold Obligations.ContextSwitchSavesAndRestores
  refine ⟨?switch, fun s core o lend => pickRoom_owner, fun s core o => pickRoom_held, ?shares⟩
  case shares =>
    intro s core r hslot hpast hpick
    exact pick_least ((pickRoom_shared hslot hpast).symm.trans hpick)
  case switch =>
    intro s core o r x y hsel hne hx hy hpick hidle
    have run := exec_contextSwitch_hands hsel hne hx hy hpick hidle
    obtain ⟨a, b, hcore⟩ := handedOver_core s core o r x y
    have hothers := fun c => handedOver_core_ne s (core := core) (c := c) o r x y
    have hbooked := handedOver_booked s core o r x y
    have hroom : (s.handedOver core o r x y).room r = s.room r := account_room_ne hsel hne.symm
    generalize s.handedOver core o r x y = u at run hcore hothers hbooked hroom
    have quiet : Quiet core u ((u.chargeCore core r (switchNs y.saved.isSome)).refresh core) := (Quiet.chargeCore ..).trans (.refresh ..)
    refine ⟨_, run, ?sel, ?since, ?banks, ?store, ?out, ?into, fun q ho hr => ?rest, fun c hc => (quiet.other c hc).trans (hothers c hc), ?charged,
      Booked.trans hbooked quiet.booked⟩
    case sel => rw [quiet.sel, hcore]; rfl
    case since => rw [refresh_since, State.core, chargeCore_cores]; exact congrArg Core.since hcore
    case banks => rw [quiet.banks, hcore]; rfl
    case store => rw [quiet.store, hcore]; rfl
    case out => rw [quiet.ctx]; simp [ctxOn, hcore, Core.switched, Core.ctx, Core.setCtx, hne]
    case into => rw [quiet.ctx]; simp [ctxOn, hcore, Core.switched, Core.ctx, Core.setCtx]
    case rest => rw [quiet.ctx]; simp [ctxOn, hcore, Core.switched, Core.ctx, Core.setCtx, ho, hr]
    case charged =>
      have hledger := chargeCore_ledger u core r (switchNs y.saved.isSome)
      rw [hroom] at hledger
      simp only [State.room, refresh_rooms] at hledger ⊢
      exact hledger

end Sys2Proof.Machine
end

section
/-! PROOFS. The staged schedule checked, activated, and in force from a frame's start (R350, R351). -/

namespace Sys2Proof.Machine

open Sys2Proof

theorem anyJob_none {s : State} (h : ∀ p ∈ s.rooms, p.2.job = none) : s.anyJob = false :=
  List.any_eq_false.mpr fun p hp => by simp [Room.busy, h p hp]

/-- A schedule that passes the check on an idle device becomes pending. -/
theorem schedActivate_passes {s : State} (hcheck : s.schedCheck = none) (hpending : s.sched.pending = false) (hidle : s.anyJob = false) :
    s.schedActivate = { s with sched := { s.sched with pending := true, err := 0, passed := true } } := by
  simp [State.schedActivate, State.schedVerdict, hcheck, hpending, hidle]

/-- A schedule that fails the check leaves its code. -/
theorem schedActivate_fails {s : State} {k : Nat} (hcheck : s.schedCheck = some k) :
    s.schedActivate = { s with sched := { s.sched with err := k, passed := false } } := by
  simp [State.schedActivate, State.schedVerdict, hcheck]

/-- A pending schedule that no room paces is due at every whole multiple of its US. -/
theorem frameDue_at_multiple {s : State} {at_ : Nat} (hpending : s.sched.pending = true) (hpacing : s.sched.pacing = none)
    (hat : at_ % (1000 * s.sched.staged.us) = 0) : s.frameDue at_ = true := by
  simp [State.frameDue, Sched.boundary, hpending, hpacing, hat]

/-- A frame's start at which the staged schedule is due and no room paces it: the schedule is in force (R351). -/
theorem exec_frameBoundary_due {s : State} {at_ : Nat} (hnow : s.time.now ≤ at_) (hdue : s.frameDue at_ = true) (hpacing : s.sched.pacing = none) :
    exec (.frameBoundary at_) s = .next (s.upto at_).schedSwitch := by
  have hgo : ¬ (at_ < s.now ∨ !s.frameDue at_) := by
    simp only [hdue, Bool.not_true, Bool.false_eq_true, or_false, Nat.not_lt]
    exact hnow
  have hpacing' : (s.upto at_).sched.pacing = none := hpacing
  simp only [exec, execFrameBoundary, if_neg hgo, hpacing']

/-- Settles O35: ACTIVATE by the check's result, and the frame's start at which the schedule is due. -/
theorem scheduleActivatesAtAFrame : Obligations.ScheduleActivatesAtAFrame := by
  unfold Obligations.ScheduleActivatesAtAFrame
  refine fun s => ⟨fun hcheck hpending hjobs => ?passes, fun k hcheck => ?fails, rfl, fun at_ hpending hpacing hnow hat _ => ?frame⟩
  case passes => exact congrArg Host.Outcome.next (schedActivate_passes hcheck hpending (anyJob_none hjobs))
  case fails => exact congrArg Host.Outcome.next (schedActivate_fails hcheck)
  case frame => exact ⟨_, exec_frameBoundary_due hnow (frameDue_at_multiple hpending hpacing hat) hpacing, rfl, rfl, rfl⟩

end Sys2Proof.Machine
end

section
/-! PROOFS. The step: what it runs, what it answers, the queue, the idle tick, and the state after reset (spec/95, R432, R433). -/

namespace Sys2Proof.Machine

open Sys2Proof Sys2Proof.Obl

/-! ## The queue -/

/-- Settles O4: every step keeps of the queue its tail. -/
theorem stepTakesExactlyOneCommand : Obligations.StepTakesExactlyOneCommand := by
  unfold Obligations.StepTakesExactlyOneCommand
  intro s t h
  rw [(step_keeps s t h).pending, List.drop_one]

/-- Settles O1: with a command at the front of the queue the step is that command's exec. -/
theorem stepRunsTheFrontCommand : Obligations.StepRunsTheFrontCommand := by
  unfold Obligations.StepRunsTheFrontCommand
  exact fun _ _ _ => rfl

/-! ## Every command answers: those whose exec branches before it answers -/

section
variable (s : State) (ring at_ : Nat)

theorem execDoorbell_answers (fn offset size value : Nat) (host : List HostAct) : answersNext (execDoorbell fn offset size value host s) := by
  unfold execDoorbell
  dsimp only
  split <;> exact ⟨_, rfl⟩

theorem execCancel_answers : answersNext (execCancel ring s) := by
  unfold execCancel
  dsimp only
  split
  · exact ⟨_, rfl⟩
  · split
    · exact ⟨_, rfl⟩
    · split <;> exact ⟨_, rfl⟩

theorem execModerationTimer_answers : answersNext (execModerationTimer ring at_ s) := by
  unfold execModerationTimer
  dsimp only
  split <;> exact ⟨_, rfl⟩

theorem execNop_answers : answersNext (execNop ring s) := by
  unfold execNop
  split <;> exact ⟨_, rfl⟩

theorem execTimestamp_answers : answersNext (execTimestamp ring s) := by
  unfold execTimestamp
  split <;> exact ⟨_, rfl⟩

theorem execSignal_answers : answersNext (execSignal ring s) := by
  unfold execSignal
  split <;> exact ⟨_, rfl⟩

theorem execWait_answers : answersNext (execWait ring s) := by
  unfold execWait
  split <;> exact ⟨_, rfl⟩

theorem execWaitTimeout_answers : answersNext (execWaitTimeout ring at_ s) := by
  unfold execWaitTimeout
  dsimp only
  split
  · exact ⟨_, rfl⟩
  · split <;> exact ⟨_, rfl⟩

theorem execBarrierJoin_answers : answersNext (execBarrierJoin ring s) := by
  unfold execBarrierJoin
  split
  · exact ⟨_, rfl⟩
  · split <;> exact ⟨_, rfl⟩

theorem execCopy_answers : answersNext (execCopy ring s) := by
  unfold execCopy
  split
  · exact ⟨_, rfl⟩
  · dsimp only
    split
    · exact ⟨_, rfl⟩
    · split <;> exact ⟨_, rfl⟩

theorem execFill_answers : answersNext (execFill ring s) := by
  unfold execFill
  split
  · exact ⟨_, rfl⟩
  · dsimp only
    split <;> exact ⟨_, rfl⟩

theorem execBranchRead_answers : answersNext (execBranchRead ring s) := by
  unfold execBranchRead
  split
  · exact ⟨_, rfl⟩
  · dsimp only
    split
    · exact ⟨_, rfl⟩
    · split
      · exact ⟨_, rfl⟩
      · split <;> exact ⟨_, rfl⟩

theorem execMigrationEpoch_answers : answersNext (execMigrationEpoch at_ s) := by
  unfold execMigrationEpoch
  split <;> exact ⟨_, rfl⟩

theorem execFrameBoundary_answers : answersNext (execFrameBoundary at_ s) := by
  unfold execFrameBoundary
  split <;> exact ⟨_, rfl⟩

end

theorem exec_answers (c : Instr) (s : State) : answersNext (exec c s) := by
  cases c with
  | doorbell fn offset size value host => exact execDoorbell_answers ..
  | cancel ring => exact execCancel_answers ..
  | moderationTimer ring at_ => exact execModerationTimer_answers ..
  | nop ring => exact execNop_answers ..
  | timestamp ring => exact execTimestamp_answers ..
  | signal ring => exact execSignal_answers ..
  | wait ring => exact execWait_answers ..
  | waitTimeout ring at_ => exact execWaitTimeout_answers ..
  | barrierJoin ring => exact execBarrierJoin_answers ..
  | copy ring => exact execCopy_answers ..
  | fill ring => exact execFill_answers ..
  | branchRead ring => exact execBranchRead_answers ..
  | migrationEpoch at_ => exact execMigrationEpoch_answers ..
  | frameBoundary at_ => exact execFrameBoundary_answers ..
  | _ => exact ⟨_, rfl⟩

/-- Settles O3: exec answers a next state in each of its arms, and the step is exec or the idle tick. -/
theorem everyCommandAnswers : Obligations.EveryCommandAnswers := by
  unfold Obligations.EveryCommandAnswers
  refine ⟨exec_answers, fun s => ?_⟩
  unfold step
  split
  · exact ⟨_, rfl⟩
  · exact exec_answers ..

/-! ## The idle tick (R432, R433) -/

/-- Of the timebase, a move of device time changes the time, the slewing and the step that waits. -/
theorem advance_parts (t : Timebase) (may : Bool) (n : Nat) : t.advance may n =
    { t with now := (t.advance may n).now, slew := (t.advance may n).slew, stepAt := (t.advance may n).stepAt } := by
  unfold Timebase.advance
  dsimp only
  split
  · rfl
  · split
    · rfl
    · split <;> rfl

/-- A part of the timebase that a move of device time keeps. -/
theorem upto_keeps {α : Type} (f : Timebase → α) (s : State) (n : Nat)
    (h : ∀ t n d p, f { t with now := n, slew := d, stepAt := p } = f t := by exact fun _ _ _ _ => rfl) : f (s.upto n).time = f s.time := by
  rw [State.upto]
  dsimp only
  rw [advance_parts, h]

section
variable {t : Timebase} {n : Nat}

theorem advance_of_none (may : Bool) (n : Nat) (h : t.stepAt = none) :
    t.advance may n = { t with now := Nat.max t.now n, slew := slewed t.slew (Nat.max t.now n - t.now) } := by
  simp only [Timebase.advance, h]

theorem advance_of_before {a : Nat} (may : Bool) (h : t.stepAt = some a) (early : Nat.max t.now n < a) :
    t.advance may n = { t with now := Nat.max t.now n } := by
  simp only [Timebase.advance, h, if_pos early]

theorem advance_of_due {a : Nat} (h : t.stepAt = some a) (due : a ≤ Nat.max t.now n) :
    t.advance true n = { t with now := Nat.max (Nat.max t.now n) (a + t.slew.toNat), slew := 0, stepAt := none } := by
  simp only [Timebase.advance, h, if_neg (Nat.not_lt.mpr due), if_true]

theorem advance_of_passed {a : Nat} (h : t.stepAt = some a) (due : a ≤ Nat.max t.now n) :
    t.advance false n = { t with now := Nat.max t.now n, stepAt := none } := by
  simp only [Timebase.advance, h, if_neg (Nat.not_lt.mpr due), Bool.false_eq_true, if_false]

end

/-- Device time gets at least to the time it is moved to. -/
theorem le_advance_now (t : Timebase) (may : Bool) (n : Nat) : n ≤ (t.advance may n).now := by
  have reached : n ≤ Nat.max t.now n := Nat.le_max_right ..
  cases h : t.stepAt with
  | none => exact (congrArg Timebase.now (advance_of_none may n h)).ge.trans' reached
  | some a =>
    rcases Nat.lt_or_ge (Nat.max t.now n) a with early | due
    · exact (congrArg Timebase.now (advance_of_before may h early)).ge.trans' reached
    · cases may
      · exact (congrArg Timebase.now (advance_of_passed h due)).ge.trans' reached
      · exact (congrArg Timebase.now (advance_of_due h due)).ge.trans' (reached.trans (Nat.le_max_left ..))

/-- Settles O2: the idle step moves device time on by a tick. -/
theorem emptyQueueTicks : Obligations.EmptyQueueTicks := by
  unfold Obligations.EmptyQueueTicks
  intro s empty
  refine ⟨s.upto (s.now + 1), by rw [step, empty]; rfl, le_advance_now s.time s.maySteps (s.now + 1), fun still => ?_,
    congrArg (fun x => { s with time := x }) (advance_parts s.time s.maySteps (s.now + 1))⟩
  exact (State.upto_now (s.now + 1) still).trans (Nat.max_eq_right (Nat.le_succ _))

/-! ## Reset -/

/-- Settles O6: the state after reset has empty memories and queue, and no audit record. -/
theorem resetMeetsTheInvariants : Obligations.ResetMeetsTheInvariants := by
  unfold Obligations.ResetMeetsTheInvariants
  exact ⟨⟨rfl, by simp [State.reset], by simp [State.reset], by simp [State.reset]⟩, rfl, by decide, rfl, rfl⟩

end Sys2Proof.Machine
end

section
/-! PROOFS. What a crash, a fault and the duties that pass on leave of the power block, of the stewards and of the place in the caravan (R368, R376, R427). -/

namespace Sys2Proof.Machine

open Sys2Proof Sys2Proof.Obl

/-! ## The stewards but for their duties, and the device's place in its caravan -/

/-- The stewards are as they were, but for who has the duties; the device is a member as before, over the same links. -/
structure SameService (s t : State) : Prop where
  stewards : t.stewards = { s.stewards with heir := t.stewards.heir, duty := t.stewards.duty, handed := t.stewards.handed }
  member : t.caravan.member = s.caravan.member
  links : t.caravan.links = s.caravan.links

namespace SameService

theorem refl (s : State) : SameService s s := ⟨rfl, rfl, rfl⟩

theorem trans {s t u : State} (h : SameService s t) (g : SameService t u) : SameService s u :=
  ⟨by rw [g.stewards, h.stewards], g.member.trans h.member, g.links.trans h.links⟩

theorem of_stewards {s t : State} (hs : t.stewards = s.stewards) (hm : t.caravan.member = s.caravan.member) (hl : t.caravan.links = s.caravan.links) :
    SameService s t := ⟨by rw [hs], hm, hl⟩

theorem of_booked {s t : State} (h : Booked s t) : SameService s t := by
  refine of_stewards ?_ ?_ ?_ <;> rw [h.2]

theorem of_posts {s t : State} (h : Posts s t) : SameService s t := by
  refine of_stewards ?_ ?_ ?_ <;> rw [h.rest]

theorem pair {s t : State} (h : SameService s t) (p : Nat) : t.pair p = s.pair p := by
  unfold State.pair
  rw [h.stewards]

theorem ite {s a b : State} {p : Prop} [Decidable p] (h : SameService s a) (g : SameService s b) : SameService s (if p then a else b) := by
  split
  · exact h
  · exact g

theorem foldl {α : Type} (f : State → α → State) (l : List α) (h : ∀ s a, SameService s (f s a)) (s : State) : SameService s (l.foldl f s) :=
  foldl_inv (P := SameService) f l .refl (fun _ _ _ => .trans) h s

theorem passRooms (s : State) (k : Nat) : SameService s (s.passRooms k) := by
  unfold State.passRooms
  dsimp only
  refine .ite (.refl s) ?_
  split
  · exact .refl s
  · exact .ite ⟨rfl, rfl, rfl⟩ ⟨rfl, rfl, rfl⟩

theorem passDuties (s : State) : SameService s s.passDuties := by
  refine trans (foldl State.passRooms [0, 1, 2, 3] passRooms s) ?_
  rw [State.passDuties]
  generalize [0, 1, 2, 3].foldl State.passRooms s = u
  unfold State.passDevice
  dsimp only
  exact ite (refl u) ⟨rfl, rfl, rfl⟩

end SameService

/-! ## The power block beside it, through the end of an incarnation and the path of a fault -/

/-- The power block stands, the stewards but for their duties, and a device that counts no caravan job still counts none. -/
structure Undisturbed (s t : State) : Prop where
  power : t.power = s.power
  service : SameService s t
  jobs : s.caravan.jobs = [] → t.caravan.jobs = []

namespace Undisturbed

theorem refl (s : State) : Undisturbed s s := ⟨rfl, .refl s, id⟩

theorem trans {s t u : State} (h : Undisturbed s t) (g : Undisturbed t u) : Undisturbed s u :=
  ⟨g.power.trans h.power, h.service.trans g.service, g.jobs ∘ h.jobs⟩

theorem of_parts {s t : State} (hp : t.power = s.power) (hs : t.stewards = s.stewards) (hc : t.caravan = s.caravan) : Undisturbed s t :=
  ⟨hp, .of_stewards hs (by rw [hc]) (by rw [hc]), by rw [hc]; exact id⟩

theorem of_booked {s t : State} (h : Booked s t) : Undisturbed s t := by
  refine of_parts ?_ ?_ ?_ <;> rw [h.2]

theorem of_posts {s t : State} (h : Posts s t) : Undisturbed s t := by
  refine of_parts ?_ ?_ ?_ <;> rw [h.rest]

theorem ite {s a b : State} {p : Prop} [Decidable p] (h : Undisturbed s a) (g : Undisturbed s b) : Undisturbed s (if p then a else b) := by
  split
  · exact h
  · exact g

theorem foldl {α : Type} (f : State → α → State) (l : List α) (h : ∀ s a, Undisturbed s (f s a)) (s : State) : Undisturbed s (l.foldl f s) :=
  foldl_inv (P := Undisturbed) f l .refl (fun _ _ _ => .trans) h s

theorem modRoom (s : State) (r : Nat) (f : Room → Room) : Undisturbed s (s.modRoom r f) := of_parts rfl rfl rfl

theorem healthRecord (s : State) (kind code unit room value : Nat) : Undisturbed s (s.healthRecord kind code unit room value) := of_parts rfl rfl rfl

theorem maintAlarm (s : State) (code unit value : Nat) : Undisturbed s (s.maintAlarm code unit value) := of_parts rfl rfl rfl

theorem passDuties (s : State) : Undisturbed s s.passDuties := by
  obtain ⟨rest, -⟩ := passDuties_spec s
  exact ⟨by rw [rest], .passDuties s, fun h => by rw [rest]; exact h⟩

theorem dropWaiters (s : State) (r : Nat) : Undisturbed s (s.dropWaiters r) := by
  unfold State.dropWaiters
  dsimp only
  refine trans ?_ (modRoom _ r _)
  exact ite (of_parts rfl rfl rfl) (refl s)

theorem cutSnap (s : State) (r : Nat) : Undisturbed s (s.cutSnap r) := of_parts rfl rfl rfl

theorem endJob (s : State) (r status detail : Nat) (done : List Done) (last : Option Nat) : Undisturbed s (s.endJob r status detail done last) := by
  unfold State.endJob
  split
  · exact refl s
  · have stopped : Undisturbed s ((s.freeCores r).cutEngines r) := (of_booked (freeCores_booked s r)).trans (of_parts rfl rfl rfl)
    have cut := ite (p := status = stOk) stopped (stopped.trans (cutSnap _ r))
    exact ((((cut.trans (dropWaiters _ r)).trans (modRoom _ r _)).trans (of_posts (Posts.finish ..))).trans
      (of_posts (Posts.complete ..))).trans (passDuties _)

theorem latch (s : State) (r code unit : Nat) (j : Job) : Undisturbed s (s.latch r code unit j) := by
  have noted : Undisturbed s (((s.noteFault r code unit j).charge r 2 1).healthRecord 6 code unit r j.incarn) :=
    ((modRoom s r _).trans (of_booked (Booked.charge _ r 2 1))).trans (healthRecord ..)
  exact (noted.trans (of_booked (freeCores_booked _ r))).trans (of_parts rfl rfl rfl)

theorem abortRoom (s : State) (r code : Nat) (last : Option Nat) : Undisturbed s (s.abortRoom r code last) := by
  unfold State.abortRoom
  split
  · exact refl s
  · next j _ =>
    have latched := ite (p := j.faulted = true) (refl s) (latch s r code 0xFFFF j)
    exact ite (latched.trans (endJob ..)) (latched.trans (modRoom _ r _))

theorem ctrlSend (s : State) (hop far ctype cjob cinc : Nat) (cseq : Option Nat) (body : List Byte) :
    Undisturbed s (s.ctrlSend hop far ctype cjob cinc cseq body) := by
  obtain ⟨_, _, e⟩ := ctrlSend_spec s hop far ctype cjob cinc cseq body
  rw [e]
  exact ⟨rfl, ⟨rfl, rfl, rfl⟩, id⟩

theorem headAbort (s : State) (tag rank code : Nat) : Undisturbed s (s.headAbort tag rank code) := by
  unfold State.headAbort
  split
  · exact refl s
  · next h known =>
    refine ite (healthRecord ..) ?_
    dsimp only
    refine trans (trans ?_ (foldl _ _ (fun u p => ?_) _)) (foldl _ _ (fun u r => abortRoom u r code _) _)
    · refine ⟨rfl, ⟨rfl, rfl, rfl⟩, fun empty => ?_⟩
      rw [empty] at known
      cases known
    · exact ite (refl u) (ctrlSend ..)

theorem raiseFault (s : State) (r code unit : Nat) : Undisturbed s (s.raiseFault r code unit) := by
  unfold State.raiseFault
  dsimp only
  split
  · exact refl s
  · next j _ =>
    have latched := latch s r code unit j
    exact ite (refl s) (ite (modRoom s r _) (ite (ite (latched.trans (endJob ..)) latched)
      (ite latched (ite (latched.trans (headAbort ..)) (latched.trans (ctrlSend ..))))))

/-! ## Crashes (R376) -/

theorem pairFault (s : State) (p code : Nat) : Undisturbed s (s.pairFault p code) := foldl _ _ (fun _ _ => raiseFault ..) s

theorem resumeRoom (s : State) (r : Nat) : Undisturbed s (s.resumeRoom r) := by
  unfold State.resumeRoom
  split
  · exact refl s
  · split
    · exact endJob ..
    · exact ite (endJob ..) (refl s)

theorem thawRings (s : State) (p : Nat → Bool) (a b : RingSt) : Undisturbed s (s.thawRings p a b) := of_parts rfl rfl rfl

theorem managerSend (s : State) (tag : Nat) : Undisturbed s (s.managerSend tag) := by
  unfold State.managerSend
  dsimp only
  split
  · exact refl s
  · exact ite (refl s) (ctrlSend ..)

/-- A successor rebuilds the rings of the rooms it has been handed (R325). -/
theorem handed (s : State) (d : List Nat) (l : List Nat) :
    Undisturbed s (l.foldl (fun s k => s.reread k) { s with stewards := { s.stewards with handed := d } }) :=
  trans (t := { s with stewards := { s.stewards with handed := d } }) ⟨rfl, ⟨rfl, rfl, rfl⟩, id⟩ (foldl _ _ (fun u k => of_posts (Posts.reread u k)) _)

/-- With no caravan job counted here, duties taken over act on rings and on a manager's sums. -/
theorem takeOver (s : State) (h : s.caravan.jobs = []) : Undisturbed s s.takeOver := by
  unfold State.takeOver
  dsimp only
  have rebuilt := handed s (if s.dutyServed then [] else s.stewards.handed.filter (· = 4))
    ((s.rings.filter fun q => s.stewards.handed.contains (q.2.room % 4)).map (·.1))
  refine ite rebuilt (trans (trans rebuilt ?_) (foldl _ _ (fun _ _ => managerSend ..) _))
  rw [rebuilt.jobs h]
  exact refl _

end Undisturbed

/-! ## A barrier's release (R425) -/

namespace SameService

theorem modRoom (s : State) (r : Nat) (f : Room → Room) : SameService s (s.modRoom r f) := ⟨rfl, rfl, rfl⟩

theorem stallBarrier (s : State) (r cause : Nat) : SameService s (s.stallBarrier r cause) :=
  (foldl _ _ (fun _ _ => of_booked (Booked.stall ..)) s).trans ⟨rfl, rfl, rfl⟩

theorem snapWaited (s : State) (r : Nat) : SameService s (s.snapWaited r) := ite ((stallBarrier s r snapPending).trans ⟨rfl, rfl, rfl⟩) (refl s)

theorem markSnap (s : State) (r : Nat) (j : Job) : SameService s (s.markSnap r j) := ite (Undisturbed.raiseFault ..).service ⟨rfl, rfl, rfl⟩

theorem applyMode (s : State) (r : Nat) (m : ModeChange) : SameService s (s.applyMode r m) := ite ⟨rfl, rfl, rfl⟩ (ite ⟨rfl, rfl, rfl⟩ (ite ⟨rfl, rfl, rfl⟩ ⟨rfl, rfl, rfl⟩))

theorem takeEffect (s : State) (r e : Nat) : SameService s (s.takeEffect r e).1 := by
  have modes : SameService s (((s.room r).modesAt e).foldl (fun s m => s.applyMode r m) s) := foldl _ _ (fun u m => applyMode u r m) s
  unfold State.takeEffect
  dsimp only
  refine trans ?_ (modRoom _ r _)
  refine List.foldlRecOn (motive := fun a : State × List Done => SameService s a.1) _ _ (modes.trans ⟨rfl, rfl, rfl⟩) fun a plans p _ => ?_
  have judged (ok : Bool) (l m : List Done) : SameService s (if ok = true then (a.1.setPlan r p.plan, l) else (a.1, m)).1 := by
    cases ok
    · exact plans
    · exact plans.trans ⟨rfl, rfl, rfl⟩
  exact judged ..

theorem markSlow (s : State) (core : Nat) : SameService s (s.markSlow core) := ite (refl s) ⟨rfl, rfl, rfl⟩

theorem slowCores (s : State) (r : Nat) : SameService s (s.slowCores r) :=
  foldl _ _ (fun u _ => foldl _ _ (fun v c => markSlow v c) u) s

theorem releaseBarrier (s : State) (r : Nat) (complete : Option Nat) : SameService s (s.releaseBarrier r complete) := by
  unfold State.releaseBarrier
  split
  · exact refl s
  · next j _ =>
    refine ite (refl s) ?_
    have entered (e : Nat) (f : Room → Room) : SameService s (((((s.takeEffect r e).1.modRoom r f).stallBarrier r barrierPeer).accountRoom r).ledgerStalls r) :=
      ((((takeEffect s r e).trans (modRoom _ r f)).trans (stallBarrier ..)).trans (of_booked (accounts_booked ..))).trans ⟨rfl, rfl, rfl⟩
    refine trans ?_ (ite (Undisturbed.endJob ..).service (of_posts (Posts.finish ..)))
    refine trans ?_ (foldl _ _ (fun w c => of_booked (Quiet.refresh w c).booked) _)
    refine trans ?_ (ite (refl _) (slowCores _ r))
    refine trans (trans ?_ (ite (refl _) (modRoom _ r _))) ⟨rfl, rfl, rfl⟩
    exact entered _ _

theorem releaseHere (s : State) (tag incarn epoch : Nat) (complete : Option Nat) : SameService s (s.releaseHere tag incarn epoch complete) := by
  refine foldl _ _ (fun u r => ?_) s
  split
  · exact refl u
  · have completed : SameService u (match complete with
        | some c => u.modMem r fun m => { m with snap := m.snap.completeAt c }
        | none => u) := by
      split
      · exact modRoom u r _
      · exact refl u
    exact ite (refl u) ((ite ((completed.trans (snapWaited _ r)).trans (markSnap ..)) completed).trans (releaseBarrier _ r complete))

theorem noteLags (s : State) (tag : Nat) (l : List BarEntry) : SameService s (s.noteLags tag l) := by
  refine trans (t := _) ?_ (foldl _ _ (fun v b => ?_) _)
  · exact ⟨rfl, rfl, rfl⟩
  · refine ite ⟨rfl, rfl, rfl⟩ ?_
    obtain ⟨_, _, _, e⟩ := audit_spec (State.healthRecord _ 8 Code.laggard 0xFFFF 0xFFFF b.mid) 0x0F 0 0 0xFFFF Code.laggard _
    rw [e]
    exact ⟨rfl, rfl, rfl⟩

theorem headRelease (s : State) (tag : Nat) : SameService s (s.headRelease tag) := by
  unfold State.headRelease
  split
  · exact refl s
  · split
    · exact refl s
    · refine ite (refl s) (trans (trans ?_ (foldl _ _ (fun _ _ => (Undisturbed.ctrlSend ..).service) _)) (releaseHere ..))
      exact trans (t := State.setJob ..) ⟨rfl, rfl, rfl⟩ (noteLags ..)

theorem takeOver (s : State) : SameService s s.takeOver := by
  unfold State.takeOver
  have rebuilt (d l : List Nat) := (Undisturbed.handed s d l).service
  exact ite (rebuilt ..) (trans (trans (rebuilt ..) (foldl _ _ (fun _ _ => headRelease ..) _)) (foldl _ _ (fun _ _ => (Undisturbed.managerSend ..).service) _))

end SameService

end Sys2Proof.Machine
end

section
/-! PROOFS. A hot reset, as the function-level reset of the physical function (R338, R521). -/

namespace Sys2Proof.Machine

open Sys2Proof Sys2Proof.Obl

/-! ## The power block through turnovers on a device that counts no caravan job -/

namespace Undisturbed

theorem leaveJob (s : State) (r : Nat) : Undisturbed s (s.leaveJob r) := by
  unfold State.leaveJob
  split
  · exact refl s
  · exact ite (refl s) (of_parts rfl rfl rfl)

theorem stopCores (s : State) (r : Nat) : Undisturbed s (s.stopCores r) :=
  (of_booked (accounts_booked ..)).trans (of_parts rfl rfl rfl)

theorem endDebug (s : State) (r : Nat) : Undisturbed s (s.endDebug r) := by
  obtain ⟨_, _, _, _, e⟩ := endDebug_spec s r
  refine of_parts ?_ ?_ ?_ <;> rw [e]

theorem postInit (s : State) (r index ring status detail result0 result1 : Nat) : Undisturbed s (s.postInit r index ring status detail result0 result1) :=
  of_posts (Posts.postHeld ..)

theorem dropRings (s : State) (r : Nat) : Undisturbed s (s.dropRings r) := of_parts rfl rfl rfl

theorem cutEngines (s : State) (r : Nat) : Undisturbed s (s.cutEngines r) := of_parts rfl rfl rfl

theorem cutMoves (s : State) (r : Nat) : Undisturbed s (s.cutMoves r) := of_parts rfl rfl rfl

theorem cutHere (s : State) (r : Nat) (rel dis note : Bool) : Undisturbed s (s.cutHere r rel dis note) := by
  unfold State.cutHere
  dsimp only
  refine trans (trans (trans ?withdrawn (endDebug _ r)) (of_posts (Posts.finish ..))) (passDuties _)
  refine trans (trans (trans (trans (trans ?stopped (stopCores _ r)) (cutEngines _ r)) (cutSnap _ r)) (cutMoves _ r)) (modRoom _ r _)
  have noticed := ite (p := note = true) (postInit s r 0 (s.room r).ringBase stRoomTurnover 0 0 0) (refl s)
  refine trans (trans (noticed.trans ?_) (dropRings _ r)) (leaveJob _ r)
  exact ite (of_parts rfl rfl rfl) (refl _)

theorem startTurnover {s : State} (r : Nat) (rel dis note : Bool) (h : s.caravan.jobs = []) : Undisturbed s (s.startTurnover r rel dis note) := by
  unfold State.startTurnover
  dsimp only
  split
  · have cut := cutHere s r rel dis note
    exact cut.trans (takeOver _ (cut.jobs h))
  · exact modRoom s r _
  · exact refl s

theorem disableRoom {s : State} (r : Nat) (h : s.caravan.jobs = []) : Undisturbed s (s.disableRoom r) := by
  unfold State.disableRoom
  dsimp only
  split
  · exact modRoom s r _
  · exact refl s
  · exact startTurnover r false true false h

theorem enableRoom (s : State) (r : Nat) : Undisturbed s (s.enableRoom r) := ite (modRoom s r _) (refl s)

theorem resetFunction (s : State) (fn : Nat) : Undisturbed s (s.resetFunction fn) := of_parts rfl rfl rfl

theorem setVfs {s : State} (enable : Bool) (num : Nat) (h : s.caravan.jobs = []) : Undisturbed s (s.setVfs enable num) := by
  have each := foldl_inv (P := fun s t => s.caravan.jobs = [] → Undisturbed s t)
    (fun s r => if (enable && decide (r ≤ Nat.min num 63)) = true then s.enableRoom r else s.disableRoom r) (span 1 63)
    (fun u _ => refl u) (fun _ _ _ f g h => (f h).trans (g ((f h).jobs h))) (fun u r h => ite (enableRoom u r) (disableRoom r h))
    { s with vfEnable := enable, numVfs := Nat.min num 63 } h
  unfold State.setVfs
  exact trans (t := { s with vfEnable := enable, numVfs := Nat.min num 63 }) (of_parts rfl rfl rfl) each

theorem flr_physical {s : State} (h : s.caravan.jobs = []) : Undisturbed s (s.flr 0) := by
  have disabled := setVfs false 0 h
  have reset := disabled.trans (foldl (fun s r => s.resetFunction r) (List.range 64) resetFunction _)
  rw [State.flr, if_pos rfl]
  exact reset.trans (startTurnover 0 false false false (reset.jobs h))

end Undisturbed

/-! ## The rooms after it -/

section
variable {s : State} {r : Nat} (hr : r ≤ 63)
include hr

theorem flr_physical_turned (h : (s.room r).st = .committed ∨ (s.room r).st = .turnover) : ((s.flr 0).room r).st = .turnover := by
  rw [(flr0_spec s).2 r hr]
  by_cases e : r = 0
  · subst e
    rcases h with h | h <;> simp [h]
  · rcases h with h | h <;> simp [e, h, disabledSt]

theorem flr_physical_absent (hvf : 1 ≤ r) (h : (s.room r).st = .vacant) : ((s.flr 0).room r).st = .absent := by
  rw [(flr0_spec s).2 r hr, if_neg (Nat.pos_iff_ne_zero.mp hvf), h]
  rfl

end

/-- Settles O38: HOT_RESET is the physical function's own reset, which leaves the module, the clock and, without caravan jobs, the power block. -/
theorem hotResetIsAFunctionResetOfThePhysicalFunction : Obligations.HotResetIsAFunctionResetOfThePhysicalFunction := by
  unfold Obligations.HotResetIsAFunctionResetOfThePhysicalFunction
  intro s present
  obtain ⟨⟨module, reset, time, vfEnable, numVfs⟩, -⟩ := flr0_spec s
  exact ⟨s.flr 0, rfl, congrArg Host.Outcome.next (if_neg present), fun _ => flr_physical_turned, fun _ hvf hr => flr_physical_absent hr hvf,
    vfEnable, numVfs, module, reset, fun jobless => (Undisturbed.flr_physical jobless).power, time⟩

end Sys2Proof.Machine
end

section
/-! PROOFS. Writes of the gate controls (R376, R471, R491). -/

namespace Sys2Proof.Machine

open Sys2Proof Sys2Proof.Obl

/-! ## A running pair that crashes (R376) -/

/-- The pair stopped, its rings frozen. -/
def State.stopPair (s : State) (p : Nat) : State :=
  (s.thawRings (fun r => s.pairOf r = p) .active .frozen).modPair p fun y => { y with
    st := 2, crashAt := some s.time.now, slow := false, seen := [], sram := [], crashes := s.time.now :: y.crashes }

theorem crashPair_running {s : State} {p : Nat} (h : (s.pair p).st = 1) : Undisturbed (s.stopPair p) (s.crashPair p) := by
  unfold State.crashPair
  dsimp only
  rw [if_neg (show ¬ (s.pair p).st = 2 by rw [h]; decide), if_neg (not_not_intro h)]
  have recorded (code : Nat) (n : Nat) := Undisturbed.healthRecord (s.stopPair p) 7 code (stewardUnit p) 0xFFFF n
  have faulted := fun (c : Prop) [Decidable c] code n => (recorded code n).trans
    (.ite (p := c) (.pairFault _ p Code.stewardRepeat) (.refl _))
  exact .ite ((faulted ..).trans (.maintAlarm ..)) (faulted ..)

/-! ## Stewards gated with bit 24 (R491) -/

/-- One pair gated or ungated. -/
def State.gatePair (g : Bool) (s : State) (p : Nat) : State :=
  (if g && (s.pair p).st == 1 then s.crashPair p else s).modPair p fun x => { x with gated := g }

theorem gateStewards_eq (s : State) : s.gateStewards = [0, 1, 2, 3].foldl (State.gatePair (bit (s.power.clkUnits ||| s.power.pwrUnits) 24)) s := rfl

theorem gatePair_power (g : Bool) (s : State) (p : Nat) : (s.gatePair g p).power = s.power := by
  unfold State.gatePair
  split
  next h =>
    simp only [Bool.and_eq_true, beq_iff_eq] at h
    exact (crashPair_running h.2).power
  next => rfl

theorem gatePair_ne (g : Bool) (s : State) {p q : Nat} (hq : q ≠ p) : (s.gatePair g p).pair q = s.pair q := by
  unfold State.gatePair
  rw [State.modPair_pair_ne _ _ hq]
  split
  next h =>
    simp only [Bool.and_eq_true, beq_iff_eq] at h
    rw [(crashPair_running h.2).service.pair, State.stopPair, State.modPair_pair_ne _ _ hq]
    rfl
  next => rfl

theorem gatePair_self (g : Bool) (s : State) (p : Nat) : ((s.gatePair g p).pair p).gated = g ∧ (g = true → ((s.gatePair g p).pair p).st ≠ 1) := by
  unfold State.gatePair
  rw [State.modPair_pair]
  refine ⟨rfl, fun hg => ?_⟩
  dsimp only
  split
  next h =>
    simp only [Bool.and_eq_true, beq_iff_eq] at h
    rw [(crashPair_running h.2).service.pair, State.stopPair, State.modPair_pair]
    exact Nat.succ_ne_self 1
  next h => simpa [hg] using h

theorem gateStewards_power (s : State) : s.gateStewards.power = s.power :=
  foldl_inv (P := fun s t => t.power = s.power) _ _ (fun _ => rfl) (fun _ _ _ h g => g.trans h) (fun s p => gatePair_power _ s p) s

/-- Gating pairs leaves a pair outside the list. -/
theorem gatePairs_ne (g : Bool) {l : List Nat} {q : Nat} (hq : q ∉ l) (s : State) : (l.foldl (State.gatePair g) s).pair q = s.pair q := by
  induction l generalizing s with
  | nil => rfl
  | cons p l ih =>
    obtain ⟨hqp, hql⟩ := not_or.mp (mt List.mem_cons.mpr hq)
    rw [List.foldl_cons, ih hql, gatePair_ne _ _ hqp]

theorem gatePairs_mem (g : Bool) {l : List Nat} (hl : l.Nodup) {q : Nat} (hq : q ∈ l) (s : State) :
    ((l.foldl (State.gatePair g) s).pair q).gated = g ∧ (g = true → ((l.foldl (State.gatePair g) s).pair q).st ≠ 1) := by
  induction l generalizing s with
  | nil => cases hq
  | cons p l ih =>
    obtain ⟨hp, hl⟩ := List.nodup_cons.mp hl
    rcases List.mem_cons.mp hq with rfl | hq
    · rw [List.foldl_cons, gatePairs_ne g hp]
      exact gatePair_self g s q
    · exact ih hl hq _

/-- With bit 24 clear in both words, no pair stops. -/
theorem gateStewards_open {s : State} (h : bit (s.power.clkUnits ||| s.power.pwrUnits) 24 = false) :
    s.gateStewards = { s with stewards := s.gateStewards.stewards } := by
  rw [gateStewards_eq, h]
  exact foldl_inv (P := fun s t => t = { s with stewards := t.stewards }) (State.gatePair false) _ (fun _ => rfl)
    (fun _ _ _ h g => by rw [g, h]) (fun _ _ => rfl) s

/-! ## A gate word written (R471, R491) -/

/-- The commands of the gate controls: a write of a word of either control. -/
theorem exec_gate {c : Instr} {pwr : Bool} {g value : Nat} (s : State)
    (h : (c, pwr) ∈ [(Instr.powerClkgate 0 g value, false), (.powerPwrgate 0 g value, true)]) : exec c s = .next (s.gateWrite pwr g value) := by
  rcases List.mem_cons.mp h with e | h
  · cases e
    rfl
  · cases List.mem_singleton.mp h
    rfl

/-- A bit that is written takes the value, one that is held or locked stays. -/
theorem bit_gateBits {n i : Nat} (old value held locked : Nat) (h : i < n) :
    bit (gateBits n old value (held ||| locked)) i = if bit held i || bit locked i then bit old i else bit value i := by
  rw [gateBits, bit_bitsWhere _ _ _ h, bit_or]

/-- The power block with a word of a gate control written. -/
def gatedPower (s : State) (pwr : Bool) (g n value held locked : Nat) : Power :=
  withGate { s.power with gateIgnored := s.power.gateIgnored + ignoredBits n (gateWord s.power pwr g) value held } pwr g
    (gateBits n (gateWord s.power pwr g) value (held ||| locked))

/-- The device with a word of a gate control written, and what of the write was ignored or denied counted. -/
def State.gatedWord (s : State) (pwr : Bool) (g n value held locked : Nat) (unit : Nat → Nat) : State :=
  let v := s.gateDenied (g * 2 + b2n pwr) n (gateWord s.power pwr g) value held locked unit
  { v with power := withGate v.power pwr g (gateBits n (gateWord s.power pwr g) value (held ||| locked)) }

theorem gatedWord_spec (s : State) (pwr : Bool) (g n value held locked : Nat) (unit : Nat → Nat) : ∃ x, s.gatedWord pwr g n value held locked unit =
    { s with sec := x, power := gatedPower s pwr g n value held locked } := by
  obtain ⟨x, e⟩ := gateDenied_spec s (g * 2 + b2n pwr) n (gateWord s.power pwr g) value held locked unit
  refine ⟨x, ?_⟩
  unfold State.gatedWord
  dsimp only
  rw [e]
  rfl

/-- A write of the word of a die's cores: with power, cores it turns off lose their state. -/
theorem gateWrite_cores (s : State) (pwr : Bool) {g : Nat} (value : Nat) (hg : g < 2) : s.gateWrite pwr g value =
    if pwr then (s.gatedWord pwr g 68 value (s.physMask g (s.heldCores g)) (s.physMask g (s.lockCores g)) fun i => 68 * g + i).zeroGated g
      (gateBits 68 (gateWord s.power pwr g) value (s.physMask g (s.heldCores g) ||| s.physMask g (s.lockCores g)))
    else s.gatedWord pwr g 68 value (s.physMask g (s.heldCores g)) (s.physMask g (s.lockCores g)) fun i => 68 * g + i := by
  match g, pwr, hg with
  | 0, true, _ | 0, false, _ | 1, true, _ | 1, false, _ => rfl

theorem gateWrite_units (s : State) (pwr : Bool) (value : Nat) :
    s.gateWrite pwr 2 value = (s.gatedWord pwr 2 25 value s.heldUnits s.lockUnits unitOfBit).gateStewards := by
  cases pwr <;> rfl

/-- Power to cores of one die taken away leaves every other core. -/
theorem zeroGated_core (s : State) {g k : Nat} (w : Nat) (h : coreDie k ≠ g) : (s.zeroGated g w).core k = s.core k :=
  tget_tfilter_of Core.reset s.cores (fun c _ => !(coreDie c = g && bit w (s.physUnit c % 68))) k fun _ => by simp [h]

theorem gateWord_gatedPower (s : State) (pwr : Bool) (n value held locked : Nat) :
    gateWord (gatedPower s pwr 2 n value held locked) pwr 2 = gateBits n (gateWord s.power pwr 2) value (held ||| locked) ∧
    gateWord (gatedPower s pwr 2 n value held locked) (!pwr) 2 = gateWord s.power (!pwr) 2 := by
  cases pwr <;> exact ⟨rfl, rfl⟩

/-- The two words of the other units, whichever is named first. -/
theorem unitWords (p : Power) (pwr : Bool) : p.clkUnits ||| p.pwrUnits = gateWord p pwr 2 ||| gateWord p (!pwr) 2 := by
  cases pwr
  · rfl
  · exact Nat.or_comm ..

/-- Settles O41: a gate write keeps the bits of held and locked units and counts those it ignored; bit 24 gates the stewards. -/
theorem gateWritesStopAtHeldUnits : Obligations.GateWritesStopAtHeldUnits := by
  unfold Obligations.GateWritesStopAtHeldUnits
  refine ⟨fun s pwr g value c hc hg => ?cores, fun s pwr value c hc hv hclk hpwr => ?units, fun s pwr value c hc => ?stewards,
    fun s fn g value hfn => ⟨congrArg Host.Outcome.next (if_neg hfn), congrArg Host.Outcome.next (if_neg hfn)⟩⟩
  case cores =>
    obtain ⟨x, e⟩ := gatedWord_spec s pwr g 68 value (s.physMask g (s.heldCores g)) (s.physMask g (s.lockCores g)) fun i => 68 * g + i
    refine ⟨_, _, exec_gate s hc, ?_, fun i hi => bit_gateBits _ _ _ _ hi, ?_⟩
    · rw [gateWrite_cores s pwr value hg, e]
      cases pwr <;> rfl
    · rw [gateWrite_cores s pwr value hg, e]
      cases pwr
      · exact ⟨fun _ _ => rfl, rfl, rfl⟩
      · exact ⟨fun k hk => zeroGated_core _ _ (hk.resolve_left Bool.noConfusion), rfl, rfl⟩
  case units =>
    obtain ⟨x, e⟩ := gatedWord_spec s pwr 2 25 value s.heldUnits s.lockUnits unitOfBit
    have shut : bit (gateWord s.power pwr 2) 24 = false ∧ bit (gateWord s.power (!pwr) 2) 24 = false := by
      cases pwr
      · exact ⟨hclk, hpwr⟩
      · exact ⟨hpwr, hclk⟩
    have running : bit ((gatedPower s pwr 2 25 value s.heldUnits s.lockUnits).clkUnits ||| (gatedPower s pwr 2 25 value s.heldUnits s.lockUnits).pwrUnits) 24 = false := by
      obtain ⟨new, other⟩ := gateWord_gatedPower s pwr 25 value s.heldUnits s.lockUnits
      rw [unitWords _ pwr, new, other, bit_or, bit_gateBits _ _ _ _ (by decide), hv, shut.1, shut.2]
      simp
    have same := gateStewards_open (s := { s with sec := x, power := gatedPower s pwr 2 25 value s.heldUnits s.lockUnits }) running
    refine ⟨_, _, exec_gate s hc, ?_, fun i hi => bit_gateBits _ _ _ _ hi, ?_⟩
    · rw [gateWrite_units, e, gateStewards_power]
      rfl
    · rw [gateWrite_units, e, same]
      exact ⟨rfl, rfl, rfl⟩
  case stewards =>
    obtain ⟨x, e⟩ := gatedWord_spec s pwr 2 25 value s.heldUnits s.lockUnits unitOfBit
    obtain ⟨new, other⟩ := gateWord_gatedPower s pwr 25 value s.heldUnits s.lockUnits
    refine ⟨_, _, exec_gate s hc, rfl, ?_, fun i hi => ?_, fun p hp => ?_⟩
    · rw [gateWrite_units, e, gateStewards_power]
      exact other
    · rw [gateWrite_units, e, gateStewards_power, new]
      exact bit_gateBits _ _ _ _ hi
    · rw [gateWrite_units, e, gateStewards_power]
      exact gatePairs_mem _ (by decide) (by simp; omega) _

end Sys2Proof.Machine
end

section
/-! PROOFS. The promotion threshold and the migration epoch (R259, R540). -/

namespace Sys2Proof.Machine

open Sys2Proof Sys2Proof.Obl

/-! ## MEM_PROMOTE_HEAT -/

theorem exec_memPromoteHeat_zero (s : State) (room : Nat) {v : Nat} (h : v % 2 ^ 16 = 0) : exec (.memPromoteHeat 0 room v) s = .next s := by
  simp only [exec, execMemPromoteHeat, State.promoteHeat, if_pos h, ne_eq, not_true_eq_false, if_false, ite_self]

theorem exec_memPromoteHeat_open {s : State} {room v : Nat} (hroom : room < 64) (hv : 1 ≤ v) (hv' : v ≤ 65535)
    (absent : (s.room room).st ≠ .absent) (turnover : (s.room room).st ≠ .turnover) :
    exec (.memPromoteHeat 0 room v) s = .next (s.setRoom room { s.room room with mem := { (s.room room).mem with promoteNext := v } }) := by
  have small : v % 2 ^ 16 = v := Nat.mod_eq_of_lt (by omega)
  have isOpen : s.roomOpen room = true := by simp [State.roomOpen, absent, turnover]
  simp only [exec, execMemPromoteHeat, State.promoteHeat, State.putRoom, small, isOpen, if_pos hroom, if_neg (show ¬ v = 0 by omega),
    ne_eq, not_true_eq_false, if_false, if_true]
  rfl

/-! ## The epoch -/

/-- Of every room only the page table and the ledger change, and nothing else does. -/
def Retiered (s t : State) : Prop :=
  (∀ r, ∃ p g, t.room r = { s.room r with ledger := g, mem := { (s.room r).mem with pages := p } }) ∧ t = { s with rooms := t.rooms }

namespace Retiered

theorem refl (s : State) : Retiered s s := ⟨fun r => ⟨(s.room r).mem.pages, (s.room r).ledger, rfl⟩, rfl⟩

theorem trans {s t u : State} (h : Retiered s t) (g : Retiered t u) : Retiered s u := by
  refine ⟨fun r => ?_, by rw [g.2, h.2]⟩
  obtain ⟨_, _, ht⟩ := h.1 r
  obtain ⟨p, l, hu⟩ := g.1 r
  exact ⟨p, l, by rw [hu, ht]⟩

theorem of_pages {s t : State} (h : OnlyPages s t) : Retiered s t := by
  refine ⟨fun r => ?_, h.2⟩
  obtain ⟨p, e⟩ := h.1 r
  exact ⟨p, (s.room r).ledger, e⟩

theorem ledgerStalls (s : State) (r : Nat) : Retiered s (s.ledgerStalls r) := by
  refine ⟨fun q => ?_, rfl⟩
  unfold State.ledgerStalls State.modLedger
  by_cases e : q = r
  · subst e
    rw [modRoom_self]
    exact ⟨(s.room q).mem.pages, _, rfl⟩
  · rw [modRoom_ne _ _ e]
    exact (refl s).1 q

theorem foldl {α : Type} (f : State → α → State) (l : List α) (h : ∀ s a, Retiered s (f s a)) (s : State) : Retiered s (l.foldl f s) :=
  foldl_inv (P := Retiered) f l refl (fun _ _ _ => trans) h s

/-- The pages of one room considered for promotion. -/
theorem considered (s : State) (r : Nat) : Retiered s (if (s.room r).st ≠ .committed then s
    else [0, 1].foldl (fun s h => ((s.room r).mem.candidates h).foldl (fun s c => s.consider r c) s) s) := by
  split
  · exact refl s
  · exact foldl _ _ (fun s h => foldl _ _ (fun s c => of_pages (OnlyPages.consider s r c)) s) s

end Retiered

/-- A room at an epoch: the threshold held is in force, and the heat of its pages is halved. -/
def Room.cooled (x : Room) : Room := { x with mem := { x.mem with
  promoteHeat := x.mem.promoteNext
  pages := tmap x.mem.pages fun _ p => { p with heat := p.heat / 2 } } }

/-- Every room at an epoch. -/
def State.cooled (s : State) : State := { s with rooms := tmap s.rooms fun _ x => x.cooled }

theorem cooled_room (s : State) (r : Nat) : s.cooled.room r = (s.room r).cooled :=
  tget_tmap (Room.reset r) s.rooms (fun _ x => x.cooled) r rfl

theorem exec_migrationEpoch {s : State} {at_ : Nat} (whole : at_ % 1000000 = 0) (hnow : s.time.now ≤ at_) :
    ∃ t, exec (.migrationEpoch at_) s = .next t ∧ Retiered (s.upto at_).cooled t := by
  refine ⟨_, if_neg (not_or.mpr ⟨not_not_intro whole, Nat.not_lt.mpr hnow⟩), ?_⟩
  exact (Retiered.foldl _ _ Retiered.ledgerStalls _).trans (Retiered.foldl _ _ Retiered.considered _)

/-- Settles O42: a written threshold waits for the epoch, at which pages, heat and ledgers change and no byte of memory. -/
theorem heatThresholdTakesEffectAtTheEpoch : Obligations.HeatThresholdTakesEffectAtTheEpoch := by
  unfold Obligations.HeatThresholdTakesEffectAtTheEpoch
  refine ⟨fun s room v hroom => ⟨exec_memPromoteHeat_zero s room, exec_memPromoteHeat_open hroom,
    fun fn hfn => congrArg Host.Outcome.next (if_pos hfn)⟩, fun s at_ whole hnow => ?epoch⟩
  case epoch =>
    obtain ⟨t, ht, rooms, rest⟩ := exec_migrationEpoch whole hnow
    refine ⟨t, ht, fun r => ?_, rest⟩
    obtain ⟨p, g, e⟩ := rooms r
    exact ⟨p, g, by rw [e, cooled_room]; rfl⟩

end Sys2Proof.Machine
end

section
/-! PROOFS. The request window of a confidential room, consents and the debug window (R461, R467, R469, R470). -/

namespace Sys2Proof.Machine

open Sys2Proof Sys2Proof.Obl

/-! ## What the window's commands come to -/

/-- The commands of the window, by their CMD codes 1 to 5. -/
theorem exec_window {c : Instr} {cmd fn room : Nat} {v w : Bool} (s : State) (h : (c, cmd, w) ∈ windowCmds fn room v) :
    exec c s = .next (s.requestWindow fn room cmd w) ∧ cmd ≠ 0 ∧ cmd ≤ 5 := by
  simp only [windowCmds, List.mem_cons, Prod.mk.injEq, List.not_mem_nil, or_false] at h
  rcases h with ⟨rfl, rfl, rfl⟩ | ⟨rfl, rfl, rfl⟩ | ⟨rfl, rfl, rfl⟩ | ⟨rfl, rfl, rfl⟩ | ⟨rfl, rfl, rfl⟩
  all_goals exact ⟨rfl, by decide, by decide⟩

section
variable {s : State} {room cmd : Nat} {v : Bool} (hcmd : cmd ≠ 0) (hcmd' : cmd ≤ 5) (hroom : room < 64) (hphase : (s.room room).phase ≠ 3)
include hcmd hcmd' hroom hphase

/-- The host refuses the record of a command. -/
theorem requestWindow_unread (hread : s.hostOk 0 (s.room room).sec.rqAddr (cmdBytes cmd) false = false) :
    ((s.requestWindow 0 room cmd v).room room).sec = windowDone (s.room room).sec Code.hostRead := by
  have served : ¬ (64 ≤ room ∨ cmd = 0 ∨ 5 < cmd ∨ (s.room room).phase = 3) := by
    simp only [not_or, Nat.not_le, Nat.not_lt]
    exact ⟨hroom, hcmd, hcmd', hphase⟩
  unfold State.requestWindow
  dsimp only
  rw [if_neg (not_not_intro rfl), if_neg served, if_pos (by rw [hread]; rfl), modRoom_self, State.countRefused]
  by_cases e : room = 0
  · subst e
    rw [modRoom_self]
    rfl
  · rw [modRoom_ne _ _ e]
    rfl

/-- A command refused with a code leaves the code, and nothing else. -/
theorem requestWindow_refused {code : Nat} (hread : s.hostOk 0 (s.room room).sec.rqAddr (cmdBytes cmd) false = true) (hcode : cmd ≠ 1 ∨ code ≠ 0)
    (h : s.tenantCmd room cmd (windowBody s room cmd) v = (code, [], s)) :
    s.requestWindow 0 room cmd v = s.setRoom room { s.room room with sec := windowDone (s.room room).sec code } := by
  have served : ¬ (64 ≤ room ∨ cmd = 0 ∨ 5 < cmd ∨ (s.room room).phase = 3) := by
    simp only [not_or, Nat.not_le, Nat.not_lt]
    exact ⟨hroom, hcmd, hcmd', hphase⟩
  rw [windowBody] at h
  unfold State.requestWindow
  dsimp only
  rw [if_neg (not_not_intro rfl), if_neg served, if_neg (by rw [hread]; decide), h]
  exact if_pos hcode

/-- A command that sets fields of its room leaves a record of it in the audit log. -/
theorem requestWindow_sets {f : Room → Room} {a b c d e : Nat} {l : List Byte} (hattest : cmd ≠ 1)
    (hread : s.hostOk 0 (s.room room).sec.rqAddr (cmdBytes cmd) false = true)
    (h : s.tenantCmd room cmd (windowBody s room cmd) v = (0, [], (s.modRoom room f).audit a b c d e l)) :
    ∃ t, s.requestWindow 0 room cmd v = t ∧ t.room room = { f (s.room room) with sec := windowDone (f (s.room room)).sec 0 } ∧
      t = { s with rooms := t.rooms, sec := { s.sec with log := t.sec.log, nextSeq := t.sec.nextSeq, logLost := t.sec.logLost } } := by
  obtain ⟨x, n, k, recorded⟩ := audit_spec (s.modRoom room f) a b c d e l
  refine ⟨_, rfl, ?_⟩
  rw [requestWindow_spec s room cmd v hcmd hcmd' hroom hphase hread hattest, h, recorded]
  refine ⟨?_, rfl⟩
  rw [modRoom_self]
  exact congrArg (fun x : Room => { x with sec := windowDone x.sec 0 }) (modRoom_self s room f)

end

/-! ## Verdicts on the commands (R461, R467) -/

theorem tenantCmd_exempt {s : State} {room : Nat} (cmd : Nat) (body : List Nat) (v : Bool) (h : (s.room room).st ≠ .committed ∨ (s.room room).sec.conf = false) :
    s.tenantCmd room cmd body v = (Code.secNotConf, [], s) := by
  unfold State.tenantCmd
  exact if_pos (h.imp_right fun h => by rw [h]; rfl)

section
variable {s : State} {room : Nat} {body : List Nat} {v : Bool} (hst : (s.room room).st = .committed) (hconf : (s.room room).sec.conf = true)
include hst hconf

theorem confidential_served : ¬ ((s.room room).st ≠ .committed ∨ (!(s.room room).sec.conf) = true) := by simp [hst, hconf]

theorem tenantCmd_tenant : s.tenantCmd room 2 body v = if (s.room room).sec.tenant.isSome then (Code.secTenantSet, [], s) else
    (0, [], (s.modRoom room fun x => { x with sec := { x.sec with tenant := some (body.take 96), importGen := 0, consentNext := 0 } }).audit
      0x0A 4 0 room 0 (sha384 (toBytes (body.take 96)))) := by
  unfold State.tenantCmd
  exact if_neg (confidential_served hst hconf)

theorem tenantCmd_import {m : Memory} (hm : m = memWriteN [] 0 (toBytes body)) : ∃ key, s.tenantCmd room 3 body v =
    if (s.room room).sec.tenant.isNone then (Code.secNoTenant, [], s) else if !s.importOk room m v then (Code.secImportSig, [], s)
    else if memNat m 0 1 ≤ (s.room room).sec.importGen then (Code.secDupKey, [], s) else
    (0, [], (s.modRoom room fun x => { x with sec := { x.sec with content := some key, importGen := memNat m 0 1, exports := 0 } }).audit
      0x0A 4 0 room 0 (leBytes 1 (memNat m 0 1))) := by
  subst hm
  unfold State.tenantCmd
  exact ⟨_, if_neg (confidential_served hst hconf)⟩

/-- The room with a consent from a token (R467). -/
def Room.consented (x : Room) (m : Memory) (body : List Nat) : Room := { x with sec := { x.sec with
  consent := some (memNat m 16 4, memNat m 20 4, memNat m 24 8, body.take 256), consentNext := memNat m 16 4 + 1 } }

theorem tenantCmd_consent {m : Memory} (hm : m = memWriteN [] 0 (toBytes body)) : s.tenantCmd room 4 body v =
    if (s.room room).sec.tenant.isNone then (Code.secNoTenant, [], s) else if !s.consentOk room body v then (Code.secConsent, [], s)
    else (0, [], ((s.endConsent room).modRoom room fun x => x.consented m body).audit
      0x0B 4 0 room 0 (sha384 (toBytes (body.take 256)) ++ leBytes 4 (memNat m 20 4))) := by
  subst hm
  unfold State.tenantCmd
  exact if_neg (confidential_served hst hconf)

theorem tenantCmd_revoke : s.tenantCmd room 5 body v = (0, [], s.endConsent room) := by
  unfold State.tenantCmd
  exact if_neg (confidential_served hst hconf)

end

/-! ## Commands of a committed confidential room -/

section
variable {s : State} {room : Nat} {v : Bool} (hroom : room < 64) (hst : (s.room room).st = .committed) (hconf : (s.room room).sec.conf = true)
  (hphase : (s.room room).phase ≠ 3)
include hroom hst hconf hphase

theorem exec_tenantAttest (hread : s.hostOk 0 (s.room room).sec.rqAddr 48 false = true)
    (hwrite : s.hostOk 0 ((s.room room).sec.rqAddr + 64) (768 + s.chain.length) true = true) :
    ∃ t, exec (.tenantAttest 0 room) s = .next t ∧ (t.room room).sec = windowDone (s.room room).sec 0 ∧
      t.host = memWriteN (memWriteN (memWriteN s.host ((s.room room).sec.rqAddr + 64)
        (s.freshReport (some room) ((windowBody s room 1).take 48) (s.importPub room)).1)
        ((s.room room).sec.rqAddr + 768) (leBytes 4 s.chain.length)) ((s.room room).sec.rqAddr + 832) s.chain ∧
      t = { s with fresh := t.fresh, host := t.host, rooms := t.rooms } := by
  obtain ⟨f, e⟩ := requestWindow_attest s room hroom hphase hst hconf hread hwrite
  generalize (s.freshReport (some room) ((windowBody s room 1).take 48) (s.importPub room)).1 = report at e ⊢
  generalize s.chain = chain at e ⊢
  generalize leBytes 4 chain.length = length at e ⊢
  refine ⟨_, congrArg Host.Outcome.next e, ?_, rfl, rfl⟩
  rw [modRoom_self]
  rfl

theorem exec_tenant_again (hread : s.hostOk 0 (s.room room).sec.rqAddr 96 false = true) (h : (s.room room).sec.tenant ≠ none) :
    exec (.tenant 0 room) s = .next (s.setRoom room { s.room room with sec := windowDone (s.room room).sec Code.secTenantSet }) :=
  congrArg Host.Outcome.next (requestWindow_refused (cmd := 2) (by decide) (by decide) hroom hphase hread (.inl (by decide))
    ((tenantCmd_tenant hst hconf).trans (if_pos (Option.isSome_iff_ne_none.mpr h))))

theorem exec_tenant_first (hread : s.hostOk 0 (s.room room).sec.rqAddr 96 false = true) (h : (s.room room).sec.tenant = none) :
    ∃ t, exec (.tenant 0 room) s = .next t ∧
      t.room room = { s.room room with sec := windowDone { (s.room room).sec with tenant := some ((windowBody s room 2).take 96), importGen := 0, consentNext := 0 } 0 } ∧
      t = { s with rooms := t.rooms, sec := { s.sec with log := t.sec.log, nextSeq := t.sec.nextSeq, logLost := t.sec.logLost } } := by
  obtain ⟨t, ht, room, rest⟩ := requestWindow_sets (cmd := 2) (v := false) (by decide) (by decide) hroom hphase (by decide) hread
    ((tenantCmd_tenant hst hconf).trans (if_neg (by rw [h]; decide)))
  exact ⟨t, congrArg Host.Outcome.next ht, room, rest⟩

variable (hread : s.hostOk 0 (s.room room).sec.rqAddr 256 false = true)
include hread

omit hst hconf in
theorem exec_importKey_refused {code : Nat} (h : s.tenantCmd room 3 (windowBody s room 3) v = (code, [], s)) :
    exec (.importKey 0 room v) s = .next (s.setRoom room { s.room room with sec := windowDone (s.room room).sec code }) :=
  congrArg Host.Outcome.next (requestWindow_refused (cmd := 3) (by decide) (by decide) hroom hphase hread (.inl (by decide)) h)

omit hst hconf in
theorem exec_consent_refused {code : Nat} (h : s.tenantCmd room 4 (windowBody s room 4) v = (code, [], s)) :
    exec (.consent 0 room v) s = .next (s.setRoom room { s.room room with sec := windowDone (s.room room).sec code }) :=
  congrArg Host.Outcome.next (requestWindow_refused (cmd := 4) (by decide) (by decide) hroom hphase hread (.inl (by decide)) h)

theorem exec_window_noTenant (h : (s.room room).sec.tenant = none) :
    exec (.importKey 0 room v) s = .next (s.setRoom room { s.room room with sec := windowDone (s.room room).sec Code.secNoTenant }) ∧
    exec (.consent 0 room v) s = .next (s.setRoom room { s.room room with sec := windowDone (s.room room).sec Code.secNoTenant }) := by
  have unset : (s.room room).sec.tenant.isNone = true := by rw [h]; rfl
  obtain ⟨_, e⟩ := tenantCmd_import (body := windowBody s room 3) (v := v) hst hconf rfl
  exact ⟨exec_importKey_refused hroom hphase hread (e.trans (if_pos unset)),
    exec_consent_refused hroom hphase hread ((tenantCmd_consent hst hconf rfl).trans (if_pos unset))⟩

variable (htenant : (s.room room).sec.tenant ≠ none)
include htenant

theorem exec_importKey_unsigned {m : Memory} (hm : m = memWriteN [] 0 (toBytes (windowBody s room 3))) (h : s.importOk room m v = false) :
    exec (.importKey 0 room v) s = .next (s.setRoom room { s.room room with sec := windowDone (s.room room).sec Code.secImportSig }) := by
  obtain ⟨_, e⟩ := tenantCmd_import (v := v) hst hconf hm
  exact exec_importKey_refused hroom hphase hread (e.trans ((if_neg (by simp [htenant])).trans (if_pos (by rw [h]; rfl))))

theorem exec_importKey_old {m : Memory} (hm : m = memWriteN [] 0 (toBytes (windowBody s room 3))) (h : s.importOk room m v = true)
    (hgen : memNat m 0 1 ≤ (s.room room).sec.importGen) :
    exec (.importKey 0 room v) s = .next (s.setRoom room { s.room room with sec := windowDone (s.room room).sec Code.secDupKey }) := by
  obtain ⟨_, e⟩ := tenantCmd_import (v := v) hst hconf hm
  exact exec_importKey_refused hroom hphase hread
    (e.trans ((if_neg (by simp [htenant])).trans ((if_neg (by rw [h]; decide)).trans (if_pos hgen))))

theorem exec_importKey_new {m : Memory} (hm : m = memWriteN [] 0 (toBytes (windowBody s room 3))) (h : s.importOk room m v = true)
    (hgen : (s.room room).sec.importGen < memNat m 0 1) :
    ∃ t k, exec (.importKey 0 room v) s = .next t ∧
      t.room room = { s.room room with sec := windowDone { (s.room room).sec with content := some k, importGen := memNat m 0 1, exports := 0 } 0 } ∧
      t = { s with rooms := t.rooms, sec := { s.sec with log := t.sec.log, nextSeq := t.sec.nextSeq, logLost := t.sec.logLost } } := by
  obtain ⟨key, e⟩ := tenantCmd_import (v := v) hst hconf hm
  obtain ⟨t, ht, room, rest⟩ := requestWindow_sets (cmd := 3) (by decide) (by decide) hroom hphase (by decide) hread
    (e.trans ((if_neg (by simp [htenant])).trans ((if_neg (by rw [h]; decide)).trans (if_neg (Nat.not_le.mpr hgen)))))
  exact ⟨t, key, congrArg Host.Outcome.next ht, room, rest⟩

theorem exec_consent_bad (h : s.consentOk room (windowBody s room 4) v = false) :
    exec (.consent 0 room v) s = .next (s.setRoom room { s.room room with sec := windowDone (s.room room).sec Code.secConsent }) :=
  exec_consent_refused hroom hphase hread
    ((tenantCmd_consent hst hconf rfl).trans ((if_neg (by simp [htenant])).trans (if_pos (by rw [h]; rfl))))

theorem exec_consent_good {m : Memory} (hm : m = memWriteN [] 0 (toBytes (windowBody s room 4))) (h : s.consentOk room (windowBody s room 4) v = true) :
    ∃ t, exec (.consent 0 room v) s = .next t ∧
      t.room room = { s.room room with sec := windowDone { (s.room room).sec with
        consent := some (memNat m 16 4, memNat m 20 4, memNat m 24 8, (windowBody s room 4).take 256), consentNext := memNat m 16 4 + 1 } 0 } ∧
      t = { s with rooms := t.rooms, sec := { s.sec with log := t.sec.log, nextSeq := t.sec.nextSeq, logLost := t.sec.logLost, debug := t.sec.debug } } := by
  have e := (tenantCmd_consent (v := v) hst hconf hm).trans ((if_neg (by simp [htenant])).trans (if_neg (by rw [h]; decide)))
  obtain ⟨ended, x, n, k, d, y, parts⟩ := endConsent_room s room
  refine ⟨_, congrArg Host.Outcome.next (requestWindow_spec s room 4 v (by decide) (by decide) hroom hphase hread (by decide)), ?_⟩
  rw [e]
  obtain ⟨x', n', k', recorded⟩ := audit_spec ((s.endConsent room).modRoom room fun x => x.consented m (windowBody s room 4))
    0x0B 4 0 room 0 (sha384 (toBytes ((windowBody s room 4).take 256)) ++ leBytes 4 (memNat m 20 4))
  rw [recorded]
  constructor
  · rw [modRoom_self]
    refine (congrArg (fun x : Room => { x with sec := windowDone x.sec 0 }) (modRoom_self (s.endConsent room) room fun x => x.consented m (windowBody s room 4))).trans ?_
    rw [ended]
    rfl
  · rw [parts]
    rfl

end

theorem exec_revoke {s : State} {room : Nat} (hroom : room < 64) (hst : (s.room room).st = .committed) (hconf : (s.room room).sec.conf = true)
    (hphase : (s.room room).phase ≠ 3) (hread : s.hostOk 0 (s.room room).sec.rqAddr 0 false = true) : ∃ t, exec (.revoke 0 room) s = .next t ∧
      t.room room = { s.room room with sec := windowDone { (s.room room).sec with consent := none } 0 } ∧
      t = { s with rooms := t.rooms, sec := { s.sec with log := t.sec.log, nextSeq := t.sec.nextSeq, logLost := t.sec.logLost, debug := t.sec.debug } } := by
  obtain ⟨ended, x, n, k, d, y, parts⟩ := endConsent_room s room
  refine ⟨_, congrArg Host.Outcome.next (requestWindow_spec s room 5 false (by decide) (by decide) hroom hphase hread (by decide)), ?_⟩
  rw [tenantCmd_revoke hst hconf]
  constructor
  · rw [modRoom_self]
    dsimp only
    rw [ended]
  · rw [parts]
    rfl

/-! ## The ends of a consent and of the debug window (R469, R470) -/

theorem exec_consentExpiry_due {s : State} {room at_ : Nat} {c : Nat × Nat × Nat × List Nat} (hc : (s.room room).sec.consent = some c)
    (due : c.2.2.1 ≤ (s.upto at_).time.now) :
    ∃ t, exec (.consentExpiry room at_) s = .next t ∧ t.room room = { s.room room with sec := { (s.room room).sec with consent := none } } := by
  have ended : ((s.upto at_).room room).sec.consent.any (fun c => decide (c.2.2.1 ≤ (s.upto at_).now)) = true := by
    rw [show ((s.upto at_).room room).sec.consent = some c from hc]
    exact decide_eq_true due
  exact ⟨_, congrArg Host.Outcome.next (if_pos ended), (endConsent_room (s.upto at_) room).1⟩

theorem exec_consentExpiry_early {s : State} {room at_ : Nat} {c : Nat × Nat × Nat × List Nat} (hc : (s.room room).sec.consent = some c)
    (early : (s.upto at_).time.now < c.2.2.1) : exec (.consentExpiry room at_) s = .next (s.upto at_) := by
  have standing : ¬ ((s.upto at_).room room).sec.consent.any (fun c => decide (c.2.2.1 ≤ (s.upto at_).now)) = true := by
    rw [show ((s.upto at_).room room).sec.consent = some c from hc]
    exact fun late => Nat.not_le.mpr early (of_decide_eq_true late)
  exact congrArg Host.Outcome.next (if_neg standing)

theorem exec_debugWindowEnd_due {s : State} {at_ u : Nat} (hu : s.sec.debugUntil = some u) (due : u ≤ (s.upto at_).time.now) :
    ∃ t, exec (.debugWindowEnd at_) s = .next t ∧ t.sec.debugUntil = none ∧ t.sec.debug = none ∧ t.rooms = s.rooms := by
  have ended : (s.upto at_).sec.debugUntil.any (fun t => decide (t ≤ (s.upto at_).now)) = true := by
    rw [show (s.upto at_).sec.debugUntil = some u from hu]
    exact decide_eq_true due
  obtain ⟨_, _, _, e⟩ := closeDebug_spec { s.upto at_ with sec := { (s.upto at_).sec with debugUntil := none } }
  refine ⟨_, congrArg Host.Outcome.next (if_pos ended), ?_⟩
  rw [e]
  exact ⟨rfl, rfl, rfl⟩

theorem exec_debugWindowEnd_early {s : State} {at_ u : Nat} (hu : s.sec.debugUntil = some u) (early : (s.upto at_).time.now < u) :
    exec (.debugWindowEnd at_) s = .next (s.upto at_) := by
  have standing : ¬ (s.upto at_).sec.debugUntil.any (fun t => decide (t ≤ (s.upto at_).now)) = true := by
    rw [show (s.upto at_).sec.debugUntil = some u from hu]
    exact fun late => Nat.not_le.mpr early (of_decide_eq_true late)
  exact congrArg Host.Outcome.next (if_neg standing)

/-- Settles O43: each command of the window by its verdict, and the ends of consents and of the debug window. -/
theorem tenantWindowCommandsActOnTheirRoom : Obligations.TenantWindowCommandsActOnTheirRoom := by
  unfold Obligations.TenantWindowCommandsActOnTheirRoom
  refine ⟨fun s fn room cmd v w c hc => ?any, fun s room hroom hst hconf hphase => ?confidential,
    fun s room at_ c hc => ⟨exec_consentExpiry_due hc, exec_consentExpiry_early hc⟩,
    fun s at_ u hu => ⟨exec_debugWindowEnd_due hu, exec_debugWindowEnd_early hu⟩⟩
  case any =>
    obtain ⟨e, hcmd, hcmd'⟩ := exec_window s hc
    refine ⟨fun hfn => e.trans (congrArg Host.Outcome.next (if_pos hfn)), ?_⟩
    rintro rfl hroom hphase
    exact ⟨fun hread => ⟨_, e, requestWindow_unread hcmd hcmd' hroom hphase hread⟩, fun hread exempt =>
      e.trans (congrArg Host.Outcome.next (requestWindow_refused hcmd hcmd' hroom hphase hread (.inr (by decide)) (tenantCmd_exempt cmd _ w exempt)))⟩
  case confidential =>
    refine ⟨exec_tenantAttest hroom hst hconf hphase,
      fun hread => ⟨exec_tenant_again hroom hst hconf hphase hread, exec_tenant_first hroom hst hconf hphase hread⟩, fun hread verified =>
        ⟨exec_window_noTenant hroom hst hconf hphase hread, fun htenant m hm => ?tenant⟩, exec_revoke hroom hst hconf hphase⟩
    exact ⟨exec_importKey_unsigned hroom hst hconf hphase hread htenant hm, exec_importKey_old hroom hst hconf hphase hread htenant hm,
      exec_consent_bad hroom hst hconf hphase hread htenant, exec_importKey_new hroom hst hconf hphase hread htenant hm,
      exec_consent_good hroom hst hconf hphase hread htenant hm⟩

end Sys2Proof.Machine
end

section
/-! PROOFS. Power-up: the boot stages, the straps, the rails, the link and the fuses read again (R453, R456, R457, R510, R516 to R520). -/

namespace Sys2Proof.Machine

open Sys2Proof Sys2Proof.Obl

/-! ## Boot stages (R453, R456) -/

/-- The device with standby power. -/
def State.standbyUp (s : State) : State := { s with module := { s.module with standby := true, standbyAt := s.now } }

/-- Reads that do not agree leave records in the audit log. -/
theorem alarmWords_spec (l : List FuseReads) (s : State) : ∃ a b c, l.foldl (fun s r => s.alarmWord r) s =
    { s with sec := { s.sec with log := a, nextSeq := b, logLost := c } } :=
  audits_spec (fun (v : State) (r : FuseReads) => v.alarmWord r) l (fun v r => audit_logs v 0x09 0 0 0xFFFF 0 r.alarmData) s

section
variable {s : State} (storeOk chainOk : Bool) {reads : List FuseReads} (off : s.module.standby = false)
include off

theorem exec_standbyPowerGood_romFails (reads : List FuseReads) : exec (.standbyPowerGood false storeOk chainOk reads) s =
    .next { s.standbyUp with sec := { s.sec with stage := 0, bootCode := Code.secRomTest } } :=
  congrArg Host.Outcome.next (if_neg (by rw [off]; decide))

theorem exec_standbyPowerGood_margin (h : ∃ r ∈ reads, r.resolve = none) : ∃ a b c, exec (.standbyPowerGood true storeOk chainOk reads) s =
    .next { s.standbyUp with sec := { s.sec with log := a, nextSeq := b, logLost := c, stage := 1, bootCode := Code.fuseMargin } } := by
  obtain ⟨r, hr, hnone⟩ := h
  have unresolved : (reads.any fun r => r.resolve.isNone) = true := List.any_eq_true.mpr ⟨r, hr, by rw [hnone]; rfl⟩
  obtain ⟨a, b, c, e⟩ := alarmWords_spec (reads.filter fun r => !r.agree) s.standbyUp
  refine ⟨a, b, c, (congrArg Host.Outcome.next (if_neg (by rw [off]; decide))).trans ?_⟩
  refine congrArg Host.Outcome.next ((if_pos unresolved).trans ?_)
  rw [State.standbyUp] at e
  rw [e]
  rfl

theorem exec_standbyPowerGood_resolved (h : ∀ r ∈ reads, r.resolve ≠ none) : ∃ a b c, exec (.standbyPowerGood true storeOk chainOk reads) s =
    .next (State.bootOn { s.standbyUp with sec := { s.sec with log := a, nextSeq := b, logLost := c, shadow := bootShadow s.sec.fuses reads } } storeOk chainOk) := by
  have resolved : ¬ (reads.any fun r => r.resolve.isNone) = true := by
    simp only [List.any_eq_true, Option.isNone_iff_eq_none, not_exists, not_and]
    exact h
  obtain ⟨a, b, c, e⟩ := alarmWords_spec (reads.filter fun r => !r.agree) s.standbyUp
  refine ⟨a, b, c, (congrArg Host.Outcome.next (if_neg (by rw [off]; decide))).trans ?_⟩
  refine congrArg Host.Outcome.next ((if_neg resolved).trans ?_)
  rw [State.standbyUp] at e
  rw [e]
  rfl

end

/-! ## The rails (R516 to R518) -/

section
variable {s : State} {at_ : Nat}

theorem exec_mainStart_starts {millivolts : Nat} (hstandby : s.module.standby = true) (hrail : s.module.rail = 0) (hfails : s.module.fails = 0)
    (hheld : s.module.heldOff = false) (hsettled : s.module.settled = true ∨ s.module.standbyAt + 500000000 ≤ (s.upto at_).time.now) (hmv : 43000 ≤ millivolts) :
    exec (.mainStart millivolts at_) s = .next { s.upto at_ with
      module := { s.module with rail := 1, settled := true }
      power := { s.power with vin := millivolts / 10 } } :=
  congrArg Host.Outcome.next (if_pos ⟨hstandby, hrail, hfails, by rw [State.upto_module, hheld]; rfl,
    by rw [Bool.or_eq_true, decide_eq_true_eq]; exact hsettled, hmv⟩)

theorem exec_mainStart_waits {millivolts : Nat} (h : s.module.standby = false ∨ s.module.rail ≠ 0 ∨ s.module.fails ≠ 0 ∨ s.module.heldOff = true ∨ millivolts < 43000 ∨
    (s.module.settled = false ∧ (s.upto at_).time.now < s.module.standbyAt + 500000000)) : exec (.mainStart millivolts at_) s = .next (s.upto at_) := by
  refine congrArg Host.Outcome.next (if_neg ?_)
  rintro ⟨hstandby, hrail, hfails, hheld, hsettled, hmv⟩
  rw [State.upto_module] at hstandby hrail hfails hheld hsettled
  rw [Bool.or_eq_true, decide_eq_true_eq] at hsettled
  rcases h with h | h | h | h | h | ⟨unsettled, early⟩
  · rw [h] at hstandby
    cases hstandby
  · exact h hrail
  · exact h hfails
  · rw [h] at hheld
    cases hheld
  · exact Nat.not_le.mpr h hmv
  · rw [unsettled] at hsettled
    exact Nat.not_le.mpr early (hsettled.resolve_left Bool.noConfusion)

theorem exec_rail_idle (h : s.module.rail = 0 ∨ 6 ≤ s.module.rail) :
    exec (.railStep at_) s = .next (s.upto at_) ∧ exec (.railFail at_) s = .next (s.upto at_) :=
  ⟨congrArg Host.Outcome.next (if_pos h), congrArg Host.Outcome.next (if_pos h)⟩

theorem exec_railStep_next (hup : 0 < s.module.rail) (h : s.module.rail < 5) :
    exec (.railStep at_) s = .next { s.upto at_ with module := { s.module with rail := s.module.rail + 1 } } :=
  congrArg Host.Outcome.next ((if_neg (by rw [State.upto_module]; omega)).trans (if_pos h))

theorem exec_railStep_last (h : s.module.rail = 5) : exec (.railStep at_) s =
    .next (State.comeUp { s.upto at_ with module := { s.module with rail := 6, pwrGood := true, pwrGoodAt := (s.upto at_).time.now, fails := 0 } }) :=
  congrArg Host.Outcome.next ((if_neg (by rw [State.upto_module]; omega)).trans (if_neg (by rw [State.upto_module]; omega)))

theorem exec_railFail_cut (hup : 0 < s.module.rail) (h : s.module.rail < 6) : exec (.railFail at_) s = .next { s.upto at_ with module := { s.module with
    rail := 0, fails := s.module.fails + 1, heldOff := s.module.heldOff || decide (1 ≤ s.module.fails), cutAt := (s.upto at_).time.now,
    railCode := Code.pwrRailFail } } :=
  congrArg Host.Outcome.next (if_neg (by rw [State.upto_module]; omega))

theorem exec_railRetry (s : State) (at_ : Nat) : exec (.railRetry at_) s =
    .next (if s.module.rail = 0 ∧ s.module.fails ≠ 0 ∧ s.module.heldOff = false ∧ s.module.cutAt + 1000000000 ≤ (s.upto at_).time.now
      then { s.upto at_ with module := { s.module with rail := 1 } } else s.upto at_) := by
  refine congrArg Host.Outcome.next ?_
  dsimp only
  refine ite_congr (propext (and_congr Iff.rfl (and_congr Iff.rfl (and_congr ?_ Iff.rfl)))) (fun _ => rfl) (fun _ => rfl)
  rw [State.upto_module, Bool.not_eq_true']

/-! ## The link (R519) -/

theorem exec_linkTraining_up {width speed : Nat} (hgood : s.module.pwrGood = true) (hreset : s.module.resetActive = false)
    (hsince : s.module.pwrGoodAt + 100000000 ≤ (s.upto at_).time.now) (hend : s.module.resetEndAt = 0 ∨ s.module.resetEndAt + 100000000 ≤ (s.upto at_).time.now)
    (hwidth : width ∈ [1, 2, 4, 8, 16]) (hspeed : 1 ≤ speed) (hspeed' : speed ≤ 6) : exec (.linkTraining width speed at_) s =
      .next { s.upto at_ with module := { s.module with perst := false, modrst := false, linkUp := true, width := width, speed := speed } } :=
  congrArg Host.Outcome.next (if_pos ⟨hgood, by rw [State.upto_module, hreset]; rfl, hsince, hend, List.contains_iff_mem.mpr hwidth, hspeed, hspeed'⟩)

theorem exec_linkTraining_waits {width speed : Nat} (h : s.module.pwrGood = false ∨ s.module.resetActive = true ∨
    (s.upto at_).time.now < s.module.pwrGoodAt + 100000000) : exec (.linkTraining width speed at_) s = .next (s.upto at_) := by
  refine congrArg Host.Outcome.next (if_neg ?_)
  rintro ⟨hgood, hreset, hsince, -⟩
  rw [State.upto_module] at hgood hreset hsince
  rcases h with h | h | h
  · rw [h] at hgood
    cases hgood
  · rw [h] at hreset
    cases hreset
  · exact Nat.not_le.mpr h hsince

end

/-- Settles O55: the boot stage by stage, the straps, the rails one by one, the link, and the fuses read again. -/
theorem powerUpRunsItsStagesAndRails : Obligations.PowerUpRunsItsStagesAndRails := by
  unfold Obligations.PowerUpRunsItsStagesAndRails
  refine ⟨fun s romOk storeOk chainOk reads => ⟨fun on => congrArg Host.Outcome.next (if_pos on), fun off => ?boot⟩, fun s straps => ?straps, ?start, ?rails, ?link,
    fun s reads => ?fuses⟩
  case boot =>
    cases romOk with
    | false => exact ⟨_, exec_standbyPowerGood_romFails storeOk chainOk off reads, rfl, rfl, rfl, fun _ => ⟨rfl, rfl, rfl⟩, Bool.noConfusion, Bool.noConfusion⟩
    | true =>
      by_cases h : ∃ r ∈ reads, r.resolve = none
      · obtain ⟨_, _, _, e⟩ := exec_standbyPowerGood_margin storeOk chainOk off h
        obtain ⟨r, hr, hnone⟩ := h
        exact ⟨_, e, rfl, rfl, rfl, Bool.noConfusion, fun _ _ => ⟨rfl, rfl, rfl⟩, fun _ all => absurd hnone (all r hr)⟩
      · have all : ∀ r ∈ reads, r.resolve ≠ none := fun r hr hnone => h ⟨r, hr, hnone⟩
        obtain ⟨_, _, _, e⟩ := exec_standbyPowerGood_resolved storeOk chainOk off all
        obtain ⟨t, ht, standby, standbyAt, rooms, shadow, retired, booted⟩ := bootOn_spec
          { s.standbyUp with sec := { s.sec with log := _, nextSeq := _, logLost := _, shadow := bootShadow s.sec.fuses reads } } storeOk chainOk
        exact ⟨t, e.trans (congrArg Host.Outcome.next ht), standby, standbyAt, rooms, Bool.noConfusion, fun _ some => absurd some h, fun _ _ => ⟨shadow, retired, booted⟩⟩
  case straps =>
    refine congrArg Host.Outcome.next (ite_congr (propext (and_congr Iff.rfl ?_)) (fun _ => rfl) (fun _ => rfl))
    rw [Bool.not_eq_true']
  case start =>
    rintro s _ millivolts at_ rfl
    exact ⟨exec_mainStart_starts, exec_mainStart_waits⟩
  case rails =>
    rintro s _ at_ rfl
    exact ⟨exec_rail_idle, exec_railStep_next, exec_railStep_last, exec_railFail_cut, exec_railRetry s at_⟩
  case link =>
    rintro s _ width speed at_ rfl
    exact ⟨exec_linkTraining_up, exec_linkTraining_waits⟩
  case fuses =>
    obtain ⟨shadow, rooms, agree, alarm, -⟩ := reread_spec reads s
    exact ⟨_, rfl, shadow, rooms, agree, alarm⟩

end Sys2Proof.Machine
end

section
/-! PROOFS. Resets and what they keep, and the board bus (R472, R486, R511, R512, R520, R522, R524). -/

namespace Sys2Proof.Machine

open Sys2Proof Sys2Proof.Obl

/-! ## HOST_RESET (R520) -/

section
variable {s : State} {perst modrst : Bool} {at_ : Nat}

/-- The device with what the two reset inputs show. -/
def State.resetPins (s : State) (perst modrst : Bool) : State :=
  { s with module := { s.module with perst := s.module.perst || perst, modrst := s.module.modrst || modrst } }

theorem exec_hostReset_resets (hgood : s.module.pwrGood = true) (hreset : s.module.resetActive = false) (hpin : perst = true ∨ modrst = true) :
    ∃ v, v = (((s.upto at_).resetPins perst modrst).leave 0).wipe false 3 ∧
      exec (.hostReset perst modrst at_) s = .next { v with module := { v.module with resetActive := true } } := by
  refine ⟨_, rfl, congrArg Host.Outcome.next (if_neg ?_)⟩
  dsimp only
  rw [State.upto_module, hgood, hreset]
  rcases hpin with rfl | rfl <;> simp

theorem exec_hostReset_latches (h : s.module.pwrGood = false ∨ s.module.resetActive = true ∨ (perst = false ∧ modrst = false)) :
    exec (.hostReset perst modrst at_) s = .next ((s.upto at_).resetPins perst modrst) := by
  refine congrArg Host.Outcome.next (if_pos ?_)
  dsimp only
  rw [State.upto_module]
  refine h.imp (fun h => by rw [h]; rfl) (.imp_right ?_)
  rintro ⟨rfl, rfl⟩
  rfl

/-- What a host reset clears and what it keeps (Table 22.2). -/
theorem leave_wipe_spec (s : State) (code : Nat) : ∃ v, v = (s.leave code).wipe false 3 ∧ v.rooms = [] ∧ v.rings = [] ∧ v.cores = [] ∧ v.net = Net.reset ∧
    v.ingest = Ingest.reset ∧ v.time = s.time ∧ v.health = s.health.flash false ∧ (∃ a b c, v.sec = { s.sec with
      log := a, nextSeq := b, logLost := c, stage := Nat.min s.sec.stage 6, alias_ := false, stagingKey := none, debug := none, deniedAt := [], authFailAt := none }) ∧
    v.host = s.host ∧ v.power.lastReset = 3 ∧ v.module = { s.module with linkUp := false, width := 0, speed := 0 } ∧ v.caravan.record = s.caravan.record := by
  obtain ⟨_, _, _, _, left⟩ := leave_spec s code
  obtain ⟨a, b, c, wiped⟩ := wipe_spec (s.leave code) false 3
  refine ⟨_, rfl, ?_⟩
  rw [wiped, left]
  exact ⟨rfl, rfl, rfl, rfl, rfl, rfl, rfl, ⟨a, b, c, rfl⟩, rfl, rfl, rfl, rfl⟩

theorem exec_hostResetEnd_ends (h : s.module.resetActive = true) : exec (.hostResetEnd at_) s = .next
    (State.comeUp { s.upto at_ with module := { s.module with perst := false, modrst := false, resetActive := false, resetEndAt := (s.upto at_).time.now } }) := by
  refine congrArg Host.Outcome.next ?_
  dsimp only
  rw [State.upto_module, h]
  rfl

theorem exec_hostResetEnd_idle (h : s.module.resetActive = false) : exec (.hostResetEnd at_) s = .next
    { s.upto at_ with module := { s.module with perst := false, modrst := false } } := by
  refine congrArg Host.Outcome.next ?_
  dsimp only
  rw [State.upto_module, h]
  rfl

/-! ## MAIN_RESET (R486, R522) -/

theorem healthRecord_marks (s : State) (kind code unit room value : Nat) : (s.healthRecord kind code unit room value).health.marks = s.health.marks := by
  obtain ⟨_, _, _, e⟩ := healthRecord_eq s kind code unit room value
  rw [e]

theorem exec_mainReset_resets {surge : Bool} (hrail : s.module.rail ≠ 0) : ∃ t, exec (.mainReset surge at_) s = .next t ∧ t.rooms = [] ∧ t.rings = [] ∧ t.cores = [] ∧
    t.time = Timebase.reset ∧ t.health.counts = [] ∧ t.health.marks = s.health.marks ∧
    (s.module.resetActive = false → t.health.held.reverse ++ t.health.records =
      ⟨(s.upto at_).time.now, 5, Code.pwrReset, noUnit, 0xFFFF, if surge = true then 2 else 1⟩ :: (s.health.held.reverse ++ s.health.records) ∧
      t.power.lastReset = if surge = true then 2 else 1) ∧
    t.sec.fuses = s.sec.fuses ∧ t.sec.installers = s.sec.installers ∧ t.host = s.host ∧ t.module.rail = 0 ∧ t.module.pwrGood = false ∧
    t.module.standby = s.module.standby := by
  refine ⟨_, congrArg Host.Outcome.next (if_neg hrail), ?_⟩
  dsimp only
  rw [State.upto_module, State.upto_power]
  generalize hcause : (if s.module.resetActive = true then s.power.lastReset else if surge = true then 2 else 1) = cause
  obtain ⟨a, b, c, wiped⟩ := wipe_spec ((s.upto at_).healthRecord 5 Code.pwrReset noUnit 0xFFFF cause) true cause
  rw [wiped]
  refine ⟨rfl, rfl, rfl, rfl, rfl, healthRecord_marks .., fun idle => ?_, rfl, rfl, rfl, rfl, rfl, rfl⟩
  rw [idle] at hcause
  obtain rfl : (if surge = true then 2 else 1) = cause := hcause
  exact ⟨healthRecord_log .., rfl⟩

/-! ## STANDBY_LOSS (R472, R524) -/

theorem exec_standbyLoss_lost {millivolts : Nat} (hmv : millivolts < 11000) (hstandby : s.module.standby = true) : ∃ t, exec (.standbyLoss millivolts) s = .next t ∧
    t.module.standby = false ∧ t.module.pwrGood = false ∧ t.module.rail = 0 ∧ t.rooms = [] ∧ t.rings = [] ∧
    t.time = Timebase.reset ∧ t.net = Net.reset ∧ t.sec.fuses = s.sec.fuses ∧ t.sec.shadow = s.sec.fuses ∧ t.sec.installers = s.sec.installers ∧
    t.sec.operators = s.sec.operators ∧ t.sec.servers = s.sec.servers ∧ t.host = s.host ∧ t.caravan.record = s.caravan.record ∧ t.sec.log = s.sec.log := by
  refine ⟨_, congrArg Host.Outcome.next (if_neg (not_or.mpr ⟨Nat.not_le.mpr hmv, by rw [hstandby]; decide⟩)), ?_⟩
  obtain ⟨_, _, _, wiped⟩ := wipe_spec s true 0
  rw [wiped]
  exact ⟨rfl, rfl, rfl, rfl, rfl, rfl, rfl, rfl, rfl, rfl, rfl, rfl, rfl, rfl, rfl⟩

/-! ## The board bus (R511, R512) -/

theorem bmb_of_standby {b : List Byte} (h : s.module.standby = true) : s.bmb b = { s with out := s.out ++ [.bmb b] } := if_pos h

theorem bmb_of_off {b : List Byte} (h : s.module.standby = false) : s.bmb b = s := if_neg (by rw [h]; decide)

theorem exec_bmb_answers {c : Instr} (hc : c ∈ [Instr.bmbIdent, .bmbStatus, .bmbPower, .bmbThermal]) (h : s.module.standby = true) :
    ∃ t b, exec c s = .next t ∧ t = { s with out := s.out ++ [.bmb b], fresh := t.fresh } := by
  simp only [List.mem_cons, List.not_mem_nil, or_false] at hc
  rcases hc with rfl | rfl | rfl | rfl
  · exact ⟨_, _, congrArg Host.Outcome.next (bmb_of_standby h), rfl⟩
  · exact ⟨_, _, congrArg Host.Outcome.next (bmb_of_standby h), rfl⟩
  · exact ⟨_, _, congrArg Host.Outcome.next ((if_neg (by rw [h]; decide)).trans (bmb_of_standby (s := s.draw.2) h)), rfl⟩
  · exact ⟨_, _, congrArg Host.Outcome.next (bmb_of_standby h), rfl⟩

theorem exec_bmb_off {c : Instr} (hc : c ∈ [Instr.bmbIdent, .bmbStatus, .bmbPower, .bmbThermal]) (h : s.module.standby = false) : exec c s = .next s := by
  simp only [List.mem_cons, List.not_mem_nil, or_false] at hc
  rcases hc with rfl | rfl | rfl | rfl
  · exact congrArg Host.Outcome.next (bmb_of_off h)
  · exact congrArg Host.Outcome.next (bmb_of_off h)
  · exact congrArg Host.Outcome.next (if_pos (by rw [h]; rfl))
  · exact congrArg Host.Outcome.next (bmb_of_off h)

end

/-- Settles O56: each reset by what it clears and keeps, the board-bus reads, and the alert response. -/
theorem resetsKeepWhatTheyMustAndBusReadsChangeNothing : Obligations.ResetsKeepWhatTheyMustAndBusReadsChangeNothing := by
  unfold Obligations.ResetsKeepWhatTheyMustAndBusReadsChangeNothing
  refine ⟨?host, ?main, fun s millivolts => ⟨fun h => congrArg Host.Outcome.next (if_pos (h.imp_right fun h => by rw [h]; rfl)), exec_standbyLoss_lost⟩,
    fun s c hc => ⟨exec_bmb_answers hc, exec_bmb_off hc⟩, fun s => ⟨fun hstandby halert => ?alert, fun h => ?quiet⟩⟩
  case host =>
    rintro s _ perst modrst at_ rfl
    refine ⟨fun hgood hreset hpin => ?_, exec_hostReset_latches, exec_hostResetEnd_ends, exec_hostResetEnd_idle⟩
    obtain ⟨v, hv, e⟩ := exec_hostReset_resets hgood hreset hpin
    obtain ⟨_, hw, rooms, rings, cores, net, ingest, time, health, ⟨_, _, _, sec⟩, host, cause, module, record⟩ :=
      leave_wipe_spec ((s.upto at_).resetPins perst modrst) 0
    obtain rfl := hv.trans hw.symm
    exact ⟨_, e, rooms, rings, cores, net, ingest, time, (congrArg Health.counts health :), (congrArg Health.marks health :), (congrArg Health.oos health :),
      (congrArg Health.records health :), (congrArg Strongroom.fuses sec :), (congrArg Strongroom.installers sec :), (congrArg Strongroom.operators sec :),
      (congrArg Strongroom.stage sec :), host, cause, rfl, (congrArg Module.linkUp module :), (congrArg Module.rail module :), record⟩
  case main =>
    rintro s _ surge at_ rfl
    exact ⟨fun hrail => congrArg Host.Outcome.next (if_pos hrail), exec_mainReset_resets⟩
  case alert => exact congrArg Host.Outcome.next (if_neg (by rw [hstandby, halert]; decide))
  case quiet => exact congrArg Host.Outcome.next (if_pos (by rcases h with h | h <;> simp [h]))

end Sys2Proof.Machine
end

section
/-! PROOFS. The timebase: device time moved on, references, corrections and the IEEE 1588 messages (R432 to R442). -/

namespace Sys2Proof.Machine

open Sys2Proof Sys2Proof.Obl

/-! ## A phase correction (R433) -/

/-- A correction slews, or waits for its whole second where the time may be stepped. -/
theorem correct_time (s : State) (d : Int) : ∃ alarms, (s.correct d).time =
    ({ s.time with
      alarms := alarms, slew := d,
      stepAt := if s.maySteps && decide (0 ≤ d) then some (wholeAfter s.time.now d.toNat) else none } : Timebase).advance s.maySteps s.time.now := by
  unfold State.correct
  split
  · exact ⟨_, rfl⟩
  · exact ⟨s.time.alarms, rfl⟩

theorem slewed_zero (d : Int) : slewed d 0 = d := by
  unfold slewed
  split <;> simp <;> omega

section
variable {s : State} {d : Int}

theorem correct_slews (h : s.maySteps = false) : (s.correct d).time.now = s.time.now ∧ (s.correct d).time.slew = d ∧ (s.correct d).time.stepAt = none := by
  obtain ⟨_, e⟩ := correct_time s d
  rw [e, advance_of_none _ _ (by rw [h]; rfl)]
  refine ⟨Nat.max_self _, ?_, by rw [h]; rfl⟩
  dsimp only
  rw [show Nat.max s.time.now s.time.now = s.time.now from Nat.max_self _, Nat.sub_self, slewed_zero]

theorem correct_waits (h : s.maySteps = true) (hd : 0 ≤ d) (later : s.time.now < wholeAfter s.time.now d.toNat) :
    (s.correct d).time.now = s.time.now ∧ (s.correct d).time.stepAt = some (wholeAfter s.time.now d.toNat) := by
  have steps : (if (s.maySteps && decide (0 ≤ d)) = true then some (wholeAfter s.time.now d.toNat) else none) = some (wholeAfter s.time.now d.toNat) :=
    if_pos (by rw [h, decide_eq_true hd]; rfl)
  obtain ⟨_, e⟩ := correct_time s d
  rw [e, advance_of_before _ steps (by simpa using later)]
  exact ⟨Nat.max_self _, steps⟩

theorem correct_steps (h : s.maySteps = true) (hd : 0 ≤ d) (whole : wholeAfter s.time.now d.toNat = s.time.now) :
    (s.correct d).time.now = s.time.now + d.toNat := by
  have steps : (if (s.maySteps && decide (0 ≤ d)) = true then some (wholeAfter s.time.now d.toNat) else none) = some (wholeAfter s.time.now d.toNat) :=
    if_pos (by rw [h, decide_eq_true hd]; rfl)
  obtain ⟨_, e⟩ := correct_time s d
  rw [e, h, advance_of_due (h ▸ steps) (by simp [whole])]
  simp [whole]

theorem correct_now_le (s : State) (d : Int) : s.time.now ≤ (s.correct d).time.now := by
  obtain ⟨_, e⟩ := correct_time s d
  rw [e]
  exact le_advance_now ..

end

/-! ## References gained and lost (R435, R441, R442) -/

section
variable (s : State) (ref at_ : Nat)

theorem exec_referenceQualified : exec (.referenceQualified ref at_) s = .next (
    if 2 ≤ ref ∨ s.time.present.contains ref = true ∨ (ref = 1 ∧ (s.caravan.isHead = true ∨ s.time.ptpFit = false)) then s.upto at_
    else (if ref = 1 then ((s.upto at_).qualify ref).ptpTime else (s.upto at_).qualify ref).reselect) := by
  rw [← upto_keeps Timebase.present s at_, ← upto_keeps Timebase.ptpFit s at_]
  refine congrArg Host.Outcome.next ?_
  refine ite_congr (propext (or_congr Iff.rfl (or_congr Iff.rfl (and_congr Iff.rfl ?_)))) (fun _ => rfl) (fun _ => rfl)
  rw [State.mayPtp]
  cases hhead : s.caravan.isHead <;> cases s.time.ptpFit <;> simp [hhead]

theorem exec_referenceLoss : exec (.referenceLoss ref at_) s = .next (
    if ref = 1 ∧ (s.upto at_).time.now < s.time.lastSync + 3000000000 then s.upto at_ else (s.upto at_).loseReference ref) := by
  rw [← upto_keeps Timebase.lastSync s at_]
  rfl

variable {s ref at_}

theorem exec_ptpQualified (habsent : s.time.present.contains 1 = false) (hhead : s.caravan.isHead = false) (hfit : s.time.ptpFit = true) :
    ∃ t, exec (.referenceQualified 1 at_) s = .next t ∧ t.time.present = 1 :: s.time.present ∧ t.time.isSet = true ∧ t.time.todPending = none ∧ t.rooms = s.rooms := by
  refine ⟨_, (exec_referenceQualified s 1 at_).trans (congrArg Host.Outcome.next (if_neg ?_)), ?_⟩
  · rw [habsent, hhead, hfit]
    decide
  obtain ⟨selPresent, selSet, selTod, selRooms⟩ := reselect_keeps ((s.upto at_).qualify 1).ptpTime
  obtain ⟨phPresent, phSet, phTod, phRooms⟩ := correct_keeps { ((s.upto at_).qualify 1).dropTod with time := { ((s.upto at_).qualify 1).dropTod.time with isSet := true } }
    (-((s.upto at_).qualify 1).time.ptpOffset)
  obtain ⟨todPresent, todRooms, tod⟩ := dropTod_keeps ((s.upto at_).qualify 1)
  refine ⟨selPresent.trans (phPresent.trans (todPresent.trans ?_)), selSet.trans phSet, selTod.trans (phTod.trans tod), selRooms.trans (phRooms.trans todRooms)⟩
  exact congrArg (List.cons 1) (upto_keeps Timebase.present s at_)

theorem exec_referenceLoss_kept (h : 2 ≤ ref ∨ s.time.present.contains ref = false ∨ (ref = 1 ∧ (s.upto at_).time.now < s.time.lastSync + 3000000000)) :
    exec (.referenceLoss ref at_) s = .next (s.upto at_) := by
  rw [exec_referenceLoss]
  by_cases fresh : ref = 1 ∧ (s.upto at_).time.now < s.time.lastSync + 3000000000
  · rw [if_pos fresh]
  · rw [if_neg fresh]
    refine congrArg Host.Outcome.next (if_pos ?_)
    rw [upto_keeps Timebase.present]
    exact h.imp_right fun h => by rw [h.resolve_right fresh]; rfl

theorem exec_referenceLoss_lost (href : ref < 2) (hpresent : s.time.present.contains ref = true)
    (hold : ref = 0 ∨ s.time.lastSync + 3000000000 ≤ (s.upto at_).time.now) : ∃ t, exec (.referenceLoss ref at_) s = .next t ∧
      t.time.present = s.time.present.filter (· ≠ ref) ∧ t.time.sel ≠ ref ∧ (s.time.sel = ref → t.time.alarms = s.time.alarms ||| 4) ∧ t.rooms = s.rooms := by
  obtain ⟨present, sel, alarms, rooms⟩ := loseReference_spec (s.upto at_) ref href (by rw [upto_keeps Timebase.present]; exact hpresent)
  rw [upto_keeps Timebase.present] at present
  rw [upto_keeps Timebase.sel, upto_keeps Timebase.alarms] at alarms
  exact ⟨_, (exec_referenceLoss s ref at_).trans (congrArg Host.Outcome.next (if_neg (by omega))), present, sel, alarms, rooms⟩

end

/-! ## The comparison of a second, lock and the time of day (R434, R437) -/

theorem exec_referenceComparison (s : State) (a b c offset : Int) (at_ : Nat) : exec (.referenceComparison a b c offset at_) s = .next (
    if (s.upto at_).time.now < s.time.compared + 1000000000 then s.upto at_
    else (({ s.upto at_ with time := { (s.upto at_).time with offset := offset, compared := (s.upto at_).time.now } } : State).compareRefs ⟨a, b, c⟩).correctPhase
      s.time.sel offset) := by
  rw [← upto_keeps Timebase.compared s at_, ← upto_keeps Timebase.sel s at_]
  rfl

theorem correctPhase_of_same {s : State} {was : Nat} {offset : Int} (hsel : s.time.sel = was) (hwas : was ≠ 2) (hoffset : offset ≠ 0) :
    s.correctPhase was offset = s.correct (-offset) := by
  unfold State.correctPhase
  dsimp only
  rw [if_pos hsel, if_neg (by rw [hsel]; exact not_or.mpr ⟨hwas, hoffset⟩)]

theorem correctPhase_of_ptp {s : State} {was : Nat} (offset : Int) (hsel : s.time.sel = 1) (hwas : was ≠ 1) (hoffset : s.time.ptpOffset ≠ 0) :
    s.correctPhase was offset = s.correct (-s.time.ptpOffset) := by
  unfold State.correctPhase
  dsimp only
  rw [hsel, if_neg hwas.symm, if_pos rfl, if_neg (not_or.mpr ⟨by decide, hoffset⟩)]

theorem exec_lockAcquired (s : State) (at_ : Nat) : exec (.lockAcquired at_) s = .next (
    if s.time.st = .acquiring ∧ s.time.since + 64000000000 ≤ (s.upto at_).time.now ∧ s.time.offset.natAbs ≤ 50
    then { s.upto at_ with time := { (s.upto at_).time with st := .locked, slew := 0 } } else s.upto at_) := by
  rw [← upto_keeps Timebase.st s at_, ← upto_keeps Timebase.since s at_, ← upto_keeps Timebase.offset s at_]
  rfl

section
variable (s : State) (at_ : Nat)

theorem exec_ppsEdge : exec (.ppsEdge at_) s = .next (
    if !s.time.present.contains 0 ∧ (s.upto at_).time.now % 1000000000 ≠ 0 then s.upto at_
    else match s.time.todPending with
      | none => (s.upto at_).ppsPhase
      | some v => (s.upto at_).ppsPhase.takeTod v) := by
  rw [← upto_keeps Timebase.present s at_, ← upto_keeps Timebase.todPending s at_]
  rfl

variable {s at_}

theorem exec_ppsEdge_phase (hext : s.time.present.contains 0 = true) (htod : s.time.todPending = none) : ∃ t, exec (.ppsEdge at_) s = .next t ∧
    t.time.now = (s.upto at_).time.now ∧
    t.time.offset = (if (s.upto at_).time.now % 1000000000 < 500000000 then (((s.upto at_).time.now % 1000000000 : Nat) : Int)
      else (((s.upto at_).time.now % 1000000000 : Nat) : Int) - 1000000000) ∧ t.rooms = s.rooms := by
  refine ⟨_, (exec_ppsEdge s at_).trans (congrArg Host.Outcome.next (if_neg (by rw [hext]; simp))), ?_⟩
  rw [htod]
  dsimp only [State.ppsPhase]
  rw [upto_keeps Timebase.present, if_pos hext]
  exact ⟨rfl, rfl, rfl⟩

theorem exec_ppsEdge_tod {v : Nat} (hedge : s.time.present.contains 0 = true ∨ (s.upto at_).time.now % 1000000000 = 0) (htod : s.time.todPending = some v) :
    ∃ t, exec (.ppsEdge at_) s = .next t ∧ t.time.todPending = none ∧ t.time.isSet = true ∧ t.rooms = s.rooms := by
  refine ⟨_, (exec_ppsEdge s at_).trans (congrArg Host.Outcome.next (if_neg ?_)), ?_⟩
  · rintro ⟨hext, hwhole⟩
    exact hedge.elim (fun h => by rw [h] at hext; cases hext) hwhole
  rw [htod]
  have phase : (s.upto at_).ppsPhase.rooms = s.rooms := by
    unfold State.ppsPhase
    dsimp only
    split <;> rfl
  obtain ⟨-, isSet, waits, rooms⟩ := correct_keeps { (s.upto at_).ppsPhase with time := { (s.upto at_).ppsPhase.time with todPending := none, isSet := true } }
    (((v * 1000000000 : Nat) : Int) - ((s.upto at_).ppsPhase.now : Int))
  exact ⟨waits, isSet, rooms.trans phase⟩

end

/-! ## The messages of IEEE 1588 (R441, R442) -/

theorem ptpOk_upto (s : State) (m : PtpMsg) (n : Nat) : (s.upto n).ptpOk m = s.ptpOk m := by
  unfold State.ptpOk State.fromParent
  rw [upto_keeps Timebase.gm, upto_keeps Timebase.ptp]
  rfl

section
variable {s : State} {m : PtpMsg}

theorem exec_ptp_dropped (h : s.ptpOk m = false) : exec (.sync m) s = .next (s.upto m.received).ptpDrop ∧ exec (.followUp m) s = .next s.ptpDrop ∧
    exec (.delayResp m) s = .next s.ptpDrop :=
  ⟨congrArg Host.Outcome.next (if_pos (by rw [ptpOk_upto, h]; rfl)), congrArg Host.Outcome.next (if_pos (by rw [h]; rfl)),
    congrArg Host.Outcome.next (if_pos (by rw [h]; rfl))⟩

theorem exec_sync_taken (h : s.ptpOk m = true) : exec (.sync m) s = .next (
    if m.twoStep = true then { s.upto m.received with time := { (s.upto m.received).time with syncRecv := some (m.seq, m.received) } }
    else (s.upto m.received).synced m.received m.stamp) :=
  congrArg Host.Outcome.next (if_neg (by rw [ptpOk_upto, h]; decide))

theorem exec_followUp_taken {q t : Nat} (h : s.ptpOk m = true) (hsync : s.time.syncRecv = some (q, t)) :
    exec (.followUp m) s = .next (if q = m.seq then s.synced t m.stamp else s) := by
  refine (congrArg Host.Outcome.next (if_neg (by rw [h]; decide))).trans ?_
  rw [hsync]

theorem exec_delayResp_taken {t : Nat} (h : s.ptpOk m = true) (hreq : s.time.delayReqAt = some t) (hseq : m.seq + 1 = s.time.delaySeq) :
    ∃ v, exec (.delayResp m) s = .next v ∧ v.time.delayReqAt = none ∧
      v.time.ptpDelay = (s.time.syncDiff + ((m.stamp : Int) - (t : Int))) / 2 ∧ v.time.ptpOffset = s.time.syncDiff - v.time.ptpDelay := by
  refine ⟨_, congrArg Host.Outcome.next (if_neg (by rw [h]; decide)), ?_⟩
  rw [hreq]
  dsimp only
  rw [if_neg (not_not_intro hseq)]
  exact ⟨rfl, rfl, rfl⟩

theorem exec_announce_parent (h : s.fromParent m = true) (hdomain : m.domain = s.time.ptp % 256) : exec (.announce m) s =
    .next (if 248 ≤ m.clockClass then ({ s with time := { s.time with parentClass := m.clockClass } } : State).loseReference 1
      else { s with time := { s.time with parentClass := m.clockClass } }) :=
  congrArg Host.Outcome.next (if_neg (not_or.mpr ⟨by rw [h]; decide, not_not_intro hdomain⟩))

theorem exec_announce_other (h : s.fromParent m = false ∨ m.domain ≠ s.time.ptp % 256) : exec (.announce m) s = .next s :=
  congrArg Host.Outcome.next (if_pos (h.imp_left fun h => by rw [h]; rfl))

theorem exec_delayReq_answered (h : s.caravan.isManager = true) (hdomain : m.domain = s.time.ptp % 256) :
    exec (.delayReq m) s = .next { s with out := s.out ++ [.ptp 4 m.port m.seq m.received] } :=
  congrArg Host.Outcome.next (if_pos (by rw [h, hdomain]; simp))

theorem exec_delayReq_other (h : s.caravan.isManager = false ∨ m.domain ≠ s.time.ptp % 256) : exec (.delayReq m) s = .next s := by
  refine congrArg Host.Outcome.next (if_neg ?_)
  simp only [Bool.and_eq_true, beq_iff_eq, not_and]
  exact fun hman => h.resolve_left (by rw [hman]; decide)

end

/-! ## The interval timers (R441) -/

section
variable {s : State} {at_ : Nat}

theorem exec_ptpSyncInterval_early (h : s.caravan.isManager = false ∨ (s.upto at_).time.now < s.time.syncSent + 62500000) :
    exec (.ptpSyncInterval at_) s = .next (s.upto at_) := by
  rw [← upto_keeps Timebase.syncSent s at_] at h
  exact congrArg Host.Outcome.next (if_pos (h.imp_left fun h => by rw [State.upto_caravan, h]; rfl))

theorem exec_ptpSyncInterval_due (hman : s.caravan.isManager = true) (due : s.time.syncSent + 62500000 ≤ (s.upto at_).time.now) :
    exec (.ptpSyncInterval at_) s = .next { s.upto at_ with
      time := { (s.upto at_).time with ptpSeq := (s.time.ptpSeq + 1) % 65536, syncSent := (s.upto at_).time.now }
      out := s.out ++ (s.upto at_).activePorts.flatMap fun q => [.ptp 1 q s.time.ptpSeq 0, .ptp 2 q s.time.ptpSeq (s.upto at_).time.now] } := by
  rw [← upto_keeps Timebase.syncSent s at_] at due
  rw [← upto_keeps Timebase.ptpSeq s at_]
  refine congrArg Host.Outcome.next ((if_neg (not_or.mpr ⟨by rw [State.upto_caravan, hman]; decide, Nat.not_lt.mpr due⟩)).trans ?_)
  dsimp only
  rw [emits2_spec]
  rfl

theorem exec_ptpAnnounceInterval_early (h : (s.upto at_).time.now < s.time.announced + 1000000000) : exec (.ptpAnnounceInterval at_) s = .next (s.upto at_) := by
  rw [← upto_keeps Timebase.announced s at_] at h
  exact congrArg Host.Outcome.next (if_pos h)

theorem exec_ptpAnnounceInterval_due (due : s.time.announced + 1000000000 ≤ (s.upto at_).time.now) : exec (.ptpAnnounceInterval at_) s = .next { s.upto at_ with
    time := { (s.upto at_).time with ptpSeq := (s.time.ptpSeq + 1) % 65536, announced := (s.upto at_).time.now }
    out := s.out ++ (s.upto at_).activePorts.map fun q => .ptp 5 q s.time.ptpSeq (s.upto at_).clockClass } := by
  rw [← upto_keeps Timebase.announced s at_] at due
  rw [← upto_keeps Timebase.ptpSeq s at_]
  refine congrArg Host.Outcome.next ((if_neg (Nat.not_lt.mpr due)).trans ?_)
  dsimp only
  rw [announces_spec]
  rfl

theorem exec_ptpDelayReqInterval_early (h : (s.upto at_).activePorts = [] ∨ (s.upto at_).hasParent = false ∨
    (s.upto at_).time.now < s.time.delayAsked + 62500000) : exec (.ptpDelayReqInterval at_) s = .next (s.upto at_) := by
  rw [← upto_keeps Timebase.delayAsked s at_] at h
  refine congrArg Host.Outcome.next ?_
  dsimp only
  split
  · rfl
  next ports =>
    refine if_pos ((h.resolve_left ?_).imp_left fun h => by rw [h]; rfl)
    rw [ports]
    exact List.cons_ne_nil _ _

theorem exec_ptpDelayReqInterval_due {q : Nat} {l : List Nat} (hports : (s.upto at_).activePorts = q :: l) (hparent : (s.upto at_).hasParent = true)
    (due : s.time.delayAsked + 62500000 ≤ (s.upto at_).time.now) : exec (.ptpDelayReqInterval at_) s = .next { s.upto at_ with
      time := { (s.upto at_).time with delayReqAt := some (s.upto at_).time.now, delayAsked := (s.upto at_).time.now, delaySeq := s.time.delaySeq + 1 }
      out := s.out ++ [.ptp 3 q s.time.delaySeq (s.upto at_).time.now] } := by
  rw [← upto_keeps Timebase.delayAsked s at_] at due
  rw [← upto_keeps Timebase.delaySeq s at_]
  refine congrArg Host.Outcome.next ?_
  dsimp only
  rw [hports]
  exact if_neg (not_or.mpr ⟨by rw [hparent]; decide, Nat.not_lt.mpr due⟩)

end

/-- Settles O60: references, corrections, messages and timers of the timebase, case by case. -/
theorem theTimebaseFollowsItsReferences : Obligations.TheTimebaseFollowsItsReferences := by
  unfold Obligations.TheTimebaseFollowsItsReferences
  refine ⟨?references, ?comparison, ?phase, fun s f => compareRefs_spec s f, ?correction, ?edges, ?messages, ?synced, ?timers⟩
  case references =>
    rintro s _ ref at_ rfl
    refine ⟨fun h => ?_, fun habsent => ?_, exec_ptpQualified, exec_referenceLoss_kept, exec_referenceLoss_lost⟩
    · rw [exec_referenceQualified, if_pos h]
    · rw [exec_referenceQualified, habsent]
      rfl
  case comparison =>
    rintro s _ a b c offset at_ rfl
    exact ⟨fun early => (exec_referenceComparison ..).trans (congrArg Host.Outcome.next (if_pos early)),
      fun due => (exec_referenceComparison ..).trans (congrArg Host.Outcome.next (if_neg (Nat.not_lt.mpr due)))⟩
  case phase =>
    exact fun s was offset => ⟨fun hsel => if_pos (.inl hsel), correctPhase_of_same, correctPhase_of_ptp offset⟩
  case correction =>
    exact fun s d => ⟨correct_now_le s d, (correct_keeps s d).2.2.2, correct_slews, correct_waits, correct_steps⟩
  case edges =>
    rintro s _ at_ rfl
    refine ⟨exec_lockAcquired s at_, fun hext hwhole => ?_, exec_ppsEdge_phase, fun v => exec_ppsEdge_tod⟩
    rw [exec_ppsEdge, if_pos ⟨by rw [hext]; rfl, hwhole⟩]
  case messages =>
    rintro s _ m rfl
    exact ⟨exec_ptp_dropped, exec_sync_taken, fun _ _ => exec_followUp_taken, fun _ => exec_delayResp_taken, exec_announce_parent, exec_announce_other,
      exec_delayReq_answered, exec_delayReq_other⟩
  case synced => exact fun s received origin => ⟨rfl, rfl, rfl, List.length_take_le ..⟩
  case timers =>
    rintro s _ at_ rfl
    exact ⟨exec_ptpSyncInterval_early, exec_ptpSyncInterval_due, exec_ptpAnnounceInterval_early, exec_ptpAnnounceInterval_due,
      exec_ptpDelayReqInterval_early, fun _ _ => exec_ptpDelayReqInterval_due⟩

end Sys2Proof.Machine
end

section
/-! PROOFS. The link agreement, the firmware image fetched, and pairs that crash, restart and fail (R367 to R376, R463). -/

namespace Sys2Proof.Machine

open Sys2Proof Sys2Proof.Obl

/-! ## The link agreement (R463) -/

section
variable {s : State} {mid : Nat}

theorem exec_linkNonce_elsewhere {nonce : List Nat} (h : s.gives mid = false ∨ s.stewards.ready = false) : exec (.linkNonce mid nonce) s = .next s :=
  congrArg Host.Outcome.next (if_pos (h.imp (fun h => by rw [h]; rfl) fun h => by rw [h]; rfl))

theorem exec_linkNonce_answered {nonce : List Nat} (hgives : s.gives mid = true) (hready : s.stewards.ready = true) :
    ∃ t x, exec (.linkNonce mid nonce) s = .next t ∧ tfind t.caravan.tries mid = some x ∧ x.starter = false ∧ x.stage = 2 ∧
      x.nonceA = nonce ∧ x.sends = 1 ∧ x.last = s.time.now ∧ t.out = s.out ++ [.link mid 2 x.gram] ∧ t.caravan.links = s.caravan.links ∧ t.rooms = s.rooms := by
  have served : ¬ ((!s.gives mid) = true ∨ (!s.stewards.ready) = true) := by rw [hgives, hready]; decide
  have answered : ∃ f nb e gram, exec (.linkNonce mid nonce) s = .next { s with
      fresh := f
      caravan := { s.caravan with tries := tset s.caravan.tries mid ⟨false, nonce, nb, 2, 1, s.time.now, e, gram⟩ }
      out := s.out ++ [.link mid 2 gram] } := ⟨_, _, _, _, congrArg Host.Outcome.next (if_neg served)⟩
  obtain ⟨f, nb, e, gram, h⟩ := answered
  exact ⟨_, _, h, tfind_tset_self .., rfl, rfl, rfl, rfl, rfl, rfl, rfl, rfl⟩

variable {x : LinkTry} (hx : tfind s.caravan.tries mid = some x)
include hx

/-- A report taken by the agreement that waits for it. -/
theorem exec_linkReport_taken (report : List Nat) (verified : Bool) : exec (.linkReport mid report verified) s = .next (
    if x.starter && x.stage == 1 then s.starterReport mid x (memWriteN [] 0 (toBytes report)) verified
    else if x.starter && x.stage == 3 then s.emit (.link mid 3 x.gram)
    else if !x.starter && x.stage == 2 then s.giverReport mid x (memWriteN [] 0 (toBytes report)) verified
    else s) := by
  refine congrArg Host.Outcome.next ?_
  dsimp only
  rw [hx]

theorem exec_linkReport_giver (report : List Nat) (verified : Bool) (hstarter : x.starter = false) (hstage : x.stage = 2) :
    exec (.linkReport mid report verified) s = .next (s.giverReport mid x (memWriteN [] 0 (toBytes report)) verified) := by
  rw [exec_linkReport_taken hx, hstarter, hstage]
  rfl

theorem exec_linkResend_timed (at_ : Nat) : exec (.linkResend mid at_) s = .next (
    if 3 ≤ x.stage ∨ (s.upto at_).time.now < x.last + 1000000000 then s.upto at_
    else if x.sends ≤ 5 then
      { s.upto at_ with
        caravan := { s.caravan with tries := tset s.caravan.tries mid { x with sends := x.sends + 1, last := (s.upto at_).time.now } }
        out := s.out ++ [.link mid x.stage x.gram] }
    else
      { s.upto at_ with caravan := { s.caravan with
        tries := tdel s.caravan.tries mid
        retryAt := if x.starter then some (s.upto at_).time.now else s.caravan.retryAt } }) := by
  refine congrArg Host.Outcome.next ?_
  dsimp only
  rw [State.upto_caravan, hx]
  rfl

end

section
variable {s : State} {m : Memory} {mid : Nat} {x : LinkTry} {verified : Bool}

theorem starterReport_fails (h : s.peerOk m x.nonceA verified = false) : s.starterReport mid x m verified =
    { s with caravan := { s.caravan with tries := tdel s.caravan.tries mid, retryAt := some s.time.now } } := if_pos (by rw [h]; rfl)

/-- The report of the giver passed: the key of the link is installed, the own report sent, and ADMIT after it. -/
theorem starterReport_passes (h : s.peerOk m x.nonceA verified = true) : ∃ y key, tfind (s.starterReport mid x m verified).caravan.tries mid = some y ∧ y.stage = 3 ∧
    (s.starterReport mid x m verified).caravan.links = tset s.caravan.links mid ⟨[0], s.time.now, [key]⟩ ∧ (s.starterReport mid x m verified).rooms = s.rooms := by
  have sent : ∃ (u : State) (y : LinkTry) (key : List Nat), s.starterReport mid x m verified = u.sendAdmit ∧ y.stage = 3 ∧ u.rooms = s.rooms ∧
      u.caravan = { s.caravan with tries := tset s.caravan.tries mid y, links := tset s.caravan.links mid ⟨[0], s.time.now, [key]⟩ } :=
    ⟨_, { x with nonceB := _, stage := 3, eph := _, gram := _, last := _ }, _, if_neg (by rw [h]; decide), rfl, rfl, rfl⟩
  obtain ⟨u, y, key, e, stage, rooms, caravan⟩ := sent
  obtain ⟨_, _, asked⟩ := ctrlSend_spec u u.caravan.giver u.caravan.mid 0x01 0 0 none
    (leBytes 1 u.variant ++ leBytes 1 u.caravan.role ++ leBytes 2 u.caravan.memberNo ++ leBytes 4 u.portMask ++ u.fwDigest)
  refine ⟨y, key, ?_⟩
  rw [e, State.sendAdmit, asked]
  dsimp only
  rw [caravan]
  exact ⟨tfind_tset_self .., stage, rfl, rooms⟩

theorem giverReport_fails (h : s.peerOk m x.nonceB verified = false ∨ memReadN m 112 48 ≠ fitBytes 48 (toBytes x.nonceA)) :
    s.giverReport mid x m verified = { s with caravan := { s.caravan with tries := tset s.caravan.tries mid { x with stage := 9 } } } := by
  refine if_pos ?_
  rw [Bool.or_eq_true, bne_iff_ne]
  exact h.imp_left fun h => by rw [h]; rfl

theorem giverReport_passes (h : s.peerOk m x.nonceB verified = true) (hnonce : memReadN m 112 48 = fitBytes 48 (toBytes x.nonceA)) :
    s.giverReport mid x m verified = { s with caravan := { s.caravan with
      tries := tdel s.caravan.tries mid
      links := tset s.caravan.links mid ⟨[0], s.time.now, [linkKeyOf s.caravan.mid mid x.nonceA x.nonceB ((memReadN m 400 96).map BitVec.toNat) x.eph]⟩ } } := by
  refine if_neg ?_
  rw [h, hnonce]
  simp

end

/-! ## The image fetched (R371 to R374) -/

section
variable {s : State} {a : Served}

theorem exec_imageFetch_cons {u : State} (served : List Served) (h : exec (.imageFetch [a]) s = .next u) :
    exec (.imageFetch (a :: served)) s = exec (.imageFetch served) u := by
  obtain rfl : s.serverAnswer a = u := Host.Outcome.next.inj h
  rfl

theorem serverAnswer_idle (h : s.stewards.fetching = false) (a : Served) : s.serverAnswer a = s := if_pos (by rw [h]; rfl)

theorem exec_imageFetch_idle (h : s.stewards.fetching = false) (served : List Served) : exec (.imageFetch served) s = .next s := by
  refine congrArg Host.Outcome.next ?_
  induction served with
  | nil => rfl
  | cons a served ih => rw [List.foldl_cons, serverAnswer_idle h, ih]

theorem nextServer_next (h : s.stewards.server + 1 < s.sec.servers.length) : s.nextServer = { s with
    stewards := { s.stewards with server := s.stewards.server + 1, tries := 0, part := [], asked := s.time.now }
    out := s.out ++ [.fetch (s.stewards.server + 1)] } := if_pos h

theorem nextServer_failed (h : s.sec.servers.length ≤ s.stewards.server + 1) : s.nextServer = s.fetchFailed s.stewards.failCode := if_neg (Nat.not_lt.mpr h)

theorem tryImage_refused {bs : List Byte} {verified : List Bool} {c : Nat} (h : s.imageRefusal bs verified = some c) : s.tryImage bs verified =
    State.nextServer { s.audit 0x07 0 0 0xFFFF c (leBytes 2 c ++ leBytes 1 s.stewards.server) with stewards := { s.stewards with failCode := c } } := by
  obtain ⟨_, _, _, e⟩ := audit_spec s 0x07 0 0 0xFFFF c (leBytes 2 c ++ leBytes 1 s.stewards.server)
  rw [State.tryImage, h]
  dsimp only
  rw [e]

theorem tryImage_accepted {bs : List Byte} {verified : List Bool} (h : s.imageRefusal bs verified = none) : s.tryImage bs verified = s.acceptImage bs := by
  rw [State.tryImage, h]

variable (hfetch : s.stewards.fetching = true)
include hfetch

theorem serverAnswer_left (h : a = .silent ∨ a = .unproven) : s.serverAnswer a = s.nextServer := by
  rcases h with rfl | rfl
  all_goals exact if_neg (by rw [hfetch]; decide)

theorem serverAnswer_file (bytes : List Nat) (verified : List Bool) : s.serverAnswer (.file bytes verified) = s.tryImage (bytes.map (BitVec.ofNat 8)) verified :=
  if_neg (by rw [hfetch]; decide)

theorem serverAnswer_block {x : Server} {bytes : List Nat} (verified : List Bool) (hserver : s.sec.servers[s.stewards.server]? = some x) (htftp : x.https = false)
    (hlen : bytes.length ≤ 512) : s.serverAnswer (.block bytes verified) =
      let part := s.stewards.part ++ bytes.map (BitVec.ofNat 8)
      let u : State := { s with stewards := { s.stewards with part := part, tries := 0, asked := s.time.now } }
      if bytes.length < 512 ∨ 25165824 < part.length then u.tryImage part verified else u.emit (.fetch s.stewards.server) := by
  refine (if_neg (by rw [hfetch]; decide)).trans (if_neg ?_)
  rw [hserver, Option.any_some, htftp]
  exact not_or.mpr ⟨Bool.false_ne_true, Nat.not_lt.mpr hlen⟩

end

theorem imageRefusal_size {s : State} {bytes : List Byte} (verified : List Bool) (h : 25165824 < bytes.length) : s.imageRefusal bytes verified = some Code.fwSize := by
  unfold State.imageRefusal
  simp only [firstSome, decide_eq_true h, Bool.true_or, if_true]

theorem beginAdmission_stewards (s : State) : s.beginAdmission.stewards = s.stewards := by
  unfold State.beginAdmission
  split
  · rfl
  · split <;> rfl

/-- The stewards run an image, and none is fetched. -/
def Stewards.loaded (w : Stewards) : Prop := w.ready = true ∧ w.fetching = false ∧ w.bootCode = 0

theorem SameService.loaded {s t : State} (h : SameService s t) (l : s.stewards.loaded) : t.stewards.loaded := by
  rw [h.stewards]
  exact l

theorem acceptImage_loaded (s : State) (bytes : List Byte) : (s.acceptImage bytes).stewards.loaded := by
  unfold State.acceptImage
  dsimp only
  rw [beginAdmission_stewards]
  refine SameService.loaded (.foldl _ _ (fun v r => (Undisturbed.resumeRoom v r).service) _) ?_
  exact ⟨rfl, rfl, rfl⟩

section
variable {s : State} {at_ : Nat}

theorem exec_tftpRetransmit {v : Server} (hfetch : s.stewards.fetching = true) (hserver : s.sec.servers[s.stewards.server]? = some v) (htftp : v.https = false) :
    exec (.tftpRetransmit at_) s = .next (
      if (s.upto at_).time.now < s.stewards.asked + 1000000000 then s.upto at_
      else if s.stewards.tries < 5 then
        { s.upto at_ with
          stewards := { s.stewards with tries := s.stewards.tries + 1, asked := (s.upto at_).time.now }
          out := s.out ++ [.fetch s.stewards.server] }
      else (s.upto at_).nextServer) := by
  have tftp : ((s.sec.servers[s.stewards.server]?).any fun x => !x.https) = true := by rw [hserver, Option.any_some, htftp]; rfl
  refine congrArg Host.Outcome.next (ite_congr (propext ?_) (fun _ => rfl) (fun _ => rfl))
  rw [State.upto_stewards, State.upto_sec, hfetch, tftp]
  simp [State.now]

theorem exec_fetchRetry_due {t : Nat} (hwait : s.stewards.waitSince = some t) (hstage : s.sec.stage = 7) (due : t + 10000000000 ≤ (s.upto at_).time.now) :
    exec (.fetchRetry at_) s = .next (s.upto at_).beginFetch := by
  refine congrArg Host.Outcome.next (if_pos ⟨hstage, ?_⟩)
  rw [State.upto_stewards, hwait, Option.any_some]
  exact decide_eq_true due

theorem exec_fetchRetry_early {t : Nat} (hwait : s.stewards.waitSince = some t) (h : s.sec.stage ≠ 7 ∨ (s.upto at_).time.now < t + 10000000000) :
    exec (.fetchRetry at_) s = .next (s.upto at_) := by
  refine congrArg Host.Outcome.next (if_neg ?_)
  rintro ⟨hstage, waited⟩
  rw [State.upto_stewards, hwait, Option.any_some] at waited
  exact h.elim (fun h => h hstage) fun early => Nat.not_le.mpr early (of_decide_eq_true waited)

end

/-! ## Crashes and restarts (R367, R370, R375, R376) -/

theorem crashPair_other {w : State} {p : Nat} (h1 : (w.pair p).st ≠ 1) (h2 : (w.pair p).st ≠ 2) : w.crashPair p = w :=
  (if_neg h2).trans (if_pos h1)

theorem crashPair_first {w : State} {p : Nat} (h : (w.pair p).st = 1) (fresh : (w.pair p).crashes = []) :
    w.crashPair p = (w.stopPair p).healthRecord 7 0 (stewardUnit p) 0xFFFF (w.pair p).restarts := by
  refine (if_neg (by rw [h]; decide)).trans ((if_neg (not_not_intro h)).trans ?_)
  rw [fresh]
  rfl

theorem SameService.runs {s t : State} {p : Nat} (h : SameService s t) (runs : (s.pair p).st = 1) : (t.pair p).st = 1 := by
  rw [h.pair, runs]

/-- A pair that resumes runs, whatever its duties lead to. -/
theorem resumePair_st (w : State) (p : Nat) : ((w.resumePair p).pair p).st = 1 := by
  unfold State.resumePair
  dsimp only
  refine SameService.runs (.ite (.trans (.passDuties _) (.takeOver _)) (.trans (.trans ?handed (.passDuties _)) (.takeOver _))) ?_
  case handed => exact ⟨rfl, rfl, rfl⟩
  refine SameService.runs (.foldl _ _ (fun v r => (Undisturbed.resumeRoom v r).service) _) ?_
  refine SameService.runs (.foldl _ _ (fun v q => .of_posts (Posts.reread v q)) _) ?_
  refine SameService.runs (Undisturbed.thawRings ..).service ?_
  rw [State.modPair_pair]

section
variable {s : State} {pair at_ : Nat} (hpair : pair < 4)
include hpair

theorem exec_stewardCrash (sram : Bool) (n : Nat) : exec (.stewardCrash ⟨pair, sram, n⟩ at_) s = .next (State.crashPair (
    if sram then ((s.upto at_).corrected (stewardUnit pair) (stewardUnit pair) n).count (stewardUnit pair) 1 1
    else (s.upto at_).corrected (stewardUnit pair) (stewardUnit pair) n) pair) :=
  congrArg Host.Outcome.next (if_neg (Nat.not_le.mpr hpair))

theorem exec_stewardWatchdog_bites (hst : (s.pair pair).st = 1) (due : (s.pair pair).visited + 5000000 ≤ (s.upto at_).time.now) :
    exec (.stewardWatchdog pair at_) s = .next (((s.upto at_).count (stewardUnit pair) 15 1).crashPair pair) :=
  congrArg Host.Outcome.next (if_neg (not_or.mpr ⟨Nat.not_le.mpr hpair, not_or.mpr ⟨not_not_intro hst, Nat.not_lt.mpr due⟩⟩))

theorem exec_stewardRestartDone {y : ImageStore} {intact : Bool} (hst : (s.pair pair).st = 2) (hgate : (s.pair pair).gated = false)
    (htrip : s.power.trip.contains (pair / 2) = false) (hstore : tfind s.stewards.stores (pair / 2) = some y) :
    exec (.stewardRestartDone ⟨pair, intact⟩ at_) s = .next (
      if intact && y.ok then ((s.upto at_).slowPair pair).resumePair pair else (s.upto at_).failPair pair) := by
  refine congrArg Host.Outcome.next ((if_neg ?_).trans ?_)
  · dsimp only
    rw [State.upto_pair, State.upto_power, hst, hgate, htrip]
    simpa using hpair
  · dsimp only
    rw [State.upto_stewards, hstore]

omit hpair in
theorem exec_stewardRestartDone_waits {intact : Bool} (h : (s.pair pair).st ≠ 2 ∨ (s.pair pair).gated = true ∨ tfind s.stewards.stores (pair / 2) = none ∨
    s.power.trip.contains (pair / 2) = true) : exec (.stewardRestartDone ⟨pair, intact⟩ at_) s = .next (s.upto at_) := by
  refine congrArg Host.Outcome.next ?_
  dsimp only
  split
  · rfl
  next go =>
    simp only [State.upto_pair, State.upto_power, not_or] at go
    obtain ⟨-, hst, hgate, htrip⟩ := go
    rw [State.upto_stewards, ((h.resolve_left hst).resolve_left hgate).resolve_right htrip]

theorem exec_stewardSlow : exec (.stewardSlow pair at_) s = .next ((s.upto at_).slowPair pair) :=
  congrArg Host.Outcome.next (if_neg (Nat.not_le.mpr hpair))

omit hpair

theorem slowPair_quiet {u : State} {t : Nat} (hcrash : (u.pair pair).crashAt = some t)
    (h : (u.pair pair).slow = true ∨ u.time.now < t + 250000000) : u.slowPair pair = u := by
  refine if_pos (.inr (h.imp_right fun h => ?_))
  rw [hcrash]
  exact h

theorem slowPair_slow {u : State} {t : Nat} (hst : (u.pair pair).st = 2) (hcrash : (u.pair pair).crashAt = some t) (hslow : (u.pair pair).slow = false)
    (due : t + 250000000 ≤ u.time.now) : u.slowPair pair =
      ((u.modPair pair fun y => { y with slow := true }).healthRecord 7 Code.stewardSlow (stewardUnit pair) 0xFFFF pair).pairFault pair Code.stewardSlow := by
  refine if_neg ?_
  rw [hst, hslow, hcrash]
  simpa [State.now] using due

end

/-- Settles O54: the link agreement, the image fetch with its servers and timers, and the crashes and restarts of pairs. -/
theorem linksAreAgreedImagesFetchedAndStewardsRestart : Obligations.LinksAreAgreedImagesFetchedAndStewardsRestart := by
  unfold Obligations.LinksAreAgreedImagesFetchedAndStewardsRestart
  refine ⟨fun s mid nonce => ⟨exec_linkNonce_elsewhere, exec_linkNonce_answered⟩, ?report, fun s mid at_ x hx => ?resend, ?fetch,
    fun s bytes verified => imageRefusal_size verified, fun s at_ v hfetch hserver htftp => ?retransmit,
    fun s at_ t hwait => ⟨exec_fetchRetry_due hwait, exec_fetchRetry_early hwait⟩, ?crash, ?restart⟩
  case report =>
    rintro s mid report verified _ rfl
    refine ⟨fun unknown => ?_, fun x hx hstarter hstage => ⟨fun h => ?_, fun h => ?_⟩, fun x hx hstarter hstage => ?_, fun x hx hstarter hstage => ⟨fun h => ?_, fun h hnonce => ?_⟩⟩
    · refine congrArg Host.Outcome.next ?_
      dsimp only
      rw [unknown]
    · rw [exec_linkReport_taken hx, hstarter, hstage]
      exact congrArg Host.Outcome.next (starterReport_fails h)
    · obtain ⟨y, key, found, stage, links, rooms⟩ := starterReport_passes (mid := mid) h
      refine ⟨_, y, key, ?_, found, stage, links, rooms⟩
      rw [exec_linkReport_taken hx, hstarter, hstage]
      rfl
    · rw [exec_linkReport_taken hx, hstarter, hstage]
      rfl
    · rw [exec_linkReport_giver hx report verified hstarter hstage, giverReport_fails h]
    · rw [exec_linkReport_giver hx report verified hstarter hstage, giverReport_passes h hnonce]
  case resend =>
    rw [exec_linkResend_timed hx]
    refine ⟨fun h => by rw [if_pos h], fun hstage due => ?_⟩
    rw [if_neg (not_or.mpr ⟨Nat.not_le.mpr hstage, Nat.not_lt.mpr due⟩)]
    exact ⟨fun hsends => ⟨_, congrArg Host.Outcome.next (if_pos hsends), tfind_tset_self .., rfl⟩, fun hsends => ⟨_, congrArg Host.Outcome.next (if_neg (Nat.not_le.mpr hsends)), rfl, rfl, rfl⟩⟩
  case fetch =>
    refine fun s u served a => ⟨fun h => exec_imageFetch_idle h served, exec_imageFetch_cons served, fun hfetch => ⟨fun ha hnext => ?_, fun ha hlast => ?_, ?_, ?_⟩⟩
    · exact congrArg Host.Outcome.next ((serverAnswer_left hfetch ha).trans (nextServer_next hnext))
    · exact congrArg Host.Outcome.next ((serverAnswer_left hfetch ha).trans (nextServer_failed hlast))
    · rintro bytes verified _ rfl rfl
      refine ⟨?_, fun h => ⟨congrArg Host.Outcome.next ((serverAnswer_file hfetch ..).trans (tryImage_accepted h)), acceptImage_loaded s _⟩⟩
      rintro c h rfl
      exact congrArg Host.Outcome.next ((serverAnswer_file hfetch ..).trans (tryImage_refused h))
    · rintro bytes verified x _ rfl hserver htftp hlen rfl rfl
      have e := serverAnswer_block hfetch verified hserver htftp hlen
      refine ⟨fun hfull hsize => congrArg Host.Outcome.next (e.trans (if_neg ?_)), fun h => congrArg Host.Outcome.next (e.trans (if_pos h))⟩
      exact not_or.mpr ⟨Nat.not_lt.mpr (Nat.le_of_eq hfull.symm), Nat.not_lt.mpr hsize⟩
  case retransmit =>
    rw [exec_tftpRetransmit hfetch hserver htftp]
    refine ⟨fun early => by rw [if_pos early], fun due => ?_⟩
    rw [if_neg (Nat.not_lt.mpr due)]
    exact ⟨fun htries => by rw [if_pos htries], fun htries hnext => by rw [if_neg (Nat.not_lt.mpr htries), nextServer_next (s := s.upto at_) hnext]; rfl,
      fun htries hlast => by rw [if_neg (Nat.not_lt.mpr htries), nextServer_failed (s := s.upto at_) hlast]; rfl⟩
  case crash =>
    rintro w pair _ - rfl
    exact ⟨fun h => if_pos h, crashPair_other, crashPair_first, resumePair_st w pair⟩
  case restart =>
    rintro s _ v pair at_ _ hpair rfl rfl
    refine ⟨?_, exec_stewardWatchdog_bites hpair, fun h => ?_, fun y intact hst hgate htrip hstore => ?_, fun intact h => exec_stewardRestartDone_waits h,
      fun t hst hcrash h => ?_, fun t hst hcrash hslow due => ?_⟩
    · rintro sram n rfl
      exact exec_stewardCrash hpair sram n
    · exact congrArg Host.Outcome.next (if_pos (.inr h))
    · rw [exec_stewardRestartDone hpair hst hgate htrip hstore]
      refine ⟨fun hintact hok => by rw [hintact, hok]; rfl, fun h => ?_⟩
      rw [if_neg (by rcases h with h | h <;> simp [h])]
    · have quiet := slowPair_quiet (u := s.upto at_) hcrash h
      exact ⟨quiet, (exec_stewardSlow hpair).trans (congrArg Host.Outcome.next quiet)⟩
    · exact (exec_stewardSlow hpair).trans (congrArg Host.Outcome.next (slowPair_slow (u := s.upto at_) hst hcrash hslow due))

end Sys2Proof.Machine
end

section
/-! PROOFS. Input power, heat, trips and droop (R481 to R490). -/

namespace Sys2Proof.Machine

open Sys2Proof Sys2Proof.Obl

/-! ## Steps of the controllers (R481) -/

theorem stepDown_le {k : Nat} (plan : Nat) (slots : Bool) : stepDown plan slots k ≤ 55 := by
  unfold stepDown
  dsimp only
  split
  · omega
  · split
    next h =>
      simp only [Bool.and_eq_true, decide_eq_true_eq] at h
      omega
    · omega

theorem lt_stepDown {k : Nat} (plan : Nat) (slots : Bool) (h : k < 55) : k < stepDown plan slots k := by
  unfold stepDown
  dsimp only
  split
  · exact Nat.lt_succ_of_le (Nat.le_max_left ..)
  · split
    · exact Nat.lt_succ_of_le ((Nat.le_max_left k 40).trans (Nat.le_max_left ..))
    · exact h

/-- A step up goes to the step before, to 40 where the slot cores need none, or to 0 where the rest lower nothing. -/
theorem stepUp_le_pred (plan : Nat) (slots : Bool) (k : Nat) : stepUp plan slots k ≤ k - 1 := by
  unfold stepUp
  dsimp only
  split
  next h =>
    split
    · exact Nat.zero_le _
    · exact h.1.le
  next =>
    split
    · exact Nat.zero_le _
    · exact Nat.le_refl _

/-! ## The power controller (R485) -/

section
variable {s : State} {input : InputRead} {milliamps at_ : Nat}

theorem exec_powerControl_due (due : s.power.controlAt + 100000 ≤ (s.upto at_).time.now) : exec (.powerControl input milliamps at_) s = .next (
    let u := (s.upto at_).chargeThrottle.powerReading input milliamps
    if u.overloaded then u.overloadFault else u) := congrArg Host.Outcome.next (if_neg (Nat.not_lt.mpr due))

/-- The reading kept by a comparison that is due: the controller's words of the state at the time of the event. -/
theorem powerReading_charged (s : State) (input : InputRead) (milliamps at_ : Nat) : ∃ c, (s.upto at_).chargeThrottle.powerReading input milliamps = { s.upto at_ with
    health := { s.health with counts := c }
    power := { s.power with
      chargedAt := (s.upto at_).time.now
      pin := input.watts
      iin := milliamps / 10
      vin := input.millivolts / 10
      powerSteps := s.nextPowerSteps input.watts milliamps
      overSince := (s.upto at_).nextOverSince input.watts
      controlAt := (s.upto at_).time.now } } := by
  obtain ⟨c, e⟩ := heat_charge s at_
  exact ⟨c, by rw [e]; rfl⟩

theorem nextOverSince_some {watts b : Nat} (h : s.nextOverSince watts = some b) :
    105 * powerLimit s.variant < 100 * watts ∧ s.power.powerSteps = 55 ∧ b = s.power.overSince.getD s.time.now := by
  unfold State.nextOverSince at h
  split at h
  next c => exact ⟨c.1, c.2, (Option.some.inj h).symm⟩
  · cases h

theorem not_overloaded_of_reading (h : 100 * input.watts ≤ 105 * powerLimit s.variant ∨ s.power.powerSteps ≠ 55 ∨
      ∀ b, s.power.overSince = some b → (s.upto at_).time.now < b + 100000000) :
    ((s.upto at_).chargeThrottle.powerReading input milliamps).overloaded = false := by
  obtain ⟨c, e⟩ := powerReading_charged s input milliamps at_
  rw [e]
  refine overloaded_false _ fun b hb => ?_
  obtain ⟨hwatts, hsteps, rfl⟩ := nextOverSince_some hb
  rcases h with h | h | h
  · exact absurd hwatts (Nat.not_lt.mpr h)
  · exact absurd hsteps h
  · rw [State.upto_power]
    cases hx : s.power.overSince with
    | none => exact Nat.lt_add_of_pos_right (by decide)
    | some b => exact h b hx

theorem nextPowerSteps_lowers (s : State) {watts : Nat} (h : Nat.min s.power.cap (powerLimit s.variant) < watts ∨ 72000 < milliamps) : s.nextPowerSteps watts milliamps =
    stepDown (Nat.max s.power.plan0 s.power.plan1) (s.slotMask 0 != 0 || s.slotMask 1 != 0) s.power.powerSteps := if_pos h

theorem nextPowerSteps_raises (s : State) {watts : Nat} (hcap : watts ≤ Nat.min s.power.cap (powerLimit s.variant))
    (hlow : 100 * watts < 97 * Nat.min s.power.cap (powerLimit s.variant)) (hma : milliamps < 69800) : s.nextPowerSteps watts milliamps =
    stepUp (Nat.max s.power.plan0 s.power.plan1) (s.slotMask 0 != 0 || s.slotMask 1 != 0) s.power.powerSteps :=
  (if_neg (by omega)).trans (if_pos ⟨hlow, hma⟩)

theorem nextPowerSteps_holds (s : State) {watts : Nat} (hcap : watts ≤ Nat.min s.power.cap (powerLimit s.variant)) (hma : milliamps ≤ 72000)
    (h : 97 * Nat.min s.power.cap (powerLimit s.variant) ≤ 100 * watts ∨ 69800 ≤ milliamps) : s.nextPowerSteps watts milliamps = s.power.powerSteps :=
  (if_neg (by omega)).trans (if_neg (by omega))

end

/-! ## Thermal control (R487, R490) -/

section
variable {s : State} {die hottest : Nat}

/-- The state that thermal control compares: its readings kept, the throttled time charged. -/
def State.heatRead (s : State) (die : Nat) (heat : HeatRead) (at_ : Nat) : State :=
  (((s.upto at_).chargeThrottle).coolant heat.inlet heat.outlet).heatReading die heat.hottest

theorem exec_thermalControl (heat : HeatRead) (at_ : Nat) (h : die < 2) : exec (.thermalControl die heat at_) s =
    .next ((s.heatRead die heat at_).thermStep die heat.hottest) := congrArg Host.Outcome.next (if_neg (Nat.not_le.mpr h))

theorem heatRead_spec (s : State) (die : Nat) (heat : HeatRead) (at_ : Nat) : ∃ c cool, s.heatRead die heat at_ = { s.upto at_ with
    health := { s.health with counts := c }
    power := { s.power with
      chargedAt := (s.upto at_).time.now
      coolIn := heat.inlet
      coolOut := heat.outlet
      tj0 := if die = 0 then heat.hottest else s.power.tj0
      tj1 := if die = 0 then s.power.tj1 else heat.hottest
      tripCool := cool } } := by
  obtain ⟨c, e⟩ := heat_charge s at_
  exact ⟨c, _, by rw [State.heatRead, e]; rfl⟩

/-- What a step of thermal control leaves: the readings and the rooms. -/
structure KeepsReadings (s t : State) : Prop where
  rooms : t.rooms = s.rooms
  coolIn : t.power.coolIn = s.power.coolIn
  coolOut : t.power.coolOut = s.power.coolOut
  tj0 : t.power.tj0 = s.power.tj0
  tj1 : t.power.tj1 = s.power.tj1

theorem KeepsReadings.refl (s : State) : KeepsReadings s s := ⟨rfl, rfl, rfl, rfl, rfl⟩

theorem startThrottle_spec (s : State) (die : Nat) : ∃ m o, s.startThrottle die = { s with
    power := { s.power with throttle := die :: s.power.throttle, events := s.power.events ||| 2 ^ 2 }
    msix := m
    out := o } := by
  obtain ⟨m, o, e⟩ := powerEvent_spec { s with power := { s.power with throttle := die :: s.power.throttle } } 2
  exact ⟨m, o, e⟩

theorem thermStep_keeps (s : State) (die hottest : Nat) : KeepsReadings s (s.thermStep die hottest) := by
  unfold State.thermStep
  split
  · exact .refl s
  · split
    · split
      · obtain ⟨m, o, e⟩ := startThrottle_spec s die
        rw [e]
        exact ⟨rfl, rfl, rfl, rfl, rfl⟩
      · split
        · exact ⟨rfl, rfl, rfl, rfl, rfl⟩
        · exact .refl s
    · split
      · split <;> exact ⟨rfl, rfl, rfl, rfl, rfl⟩
      · exact .refl s

theorem setTherm_thermSteps (s : State) (k : Nat) (h : die < 2) : (s.setTherm die k).power.thermSteps die = k := by
  rcases die with _ | _ | d
  · rfl
  · rfl
  · omega

theorem thermDown_thermSteps (s : State) (h : die < 2) : (s.thermDown die).power.thermSteps die = stepDown (s.power.plan die) (s.slotMask die != 0) (s.power.thermSteps die) :=
  setTherm_thermSteps s _ h

theorem thermUp_thermSteps (s : State) (h : die < 2) : (s.thermUp die).power.thermSteps die = stepUp (s.power.plan die) (s.slotMask die != 0) (s.power.thermSteps die) :=
  setTherm_thermSteps s _ h

theorem thermDue_iff {l : Nat} (n : Nat) (h : tfind s.power.thermAt die = some l) : s.thermDue die n = true ↔ ¬ s.time.now < l + n := by
  rw [State.thermDue, h, Option.any_some, Bool.not_eq_true', decide_eq_false_iff_not]
  rfl

theorem thermStep_tripped (h : s.power.trip.contains die = true) (hottest : Nat) : s.thermStep die hottest = s := if_pos h

variable (hdie : die < 2) (htrip : s.power.trip.contains die = false)
include htrip

theorem thermStep_between (hlow : 98 ≤ hottest) (hhigh : hottest < 100) : s.thermStep die hottest = s :=
  (if_neg (by rw [htrip]; decide)).trans ((if_neg (Nat.not_le.mpr hhigh)).trans (if_neg (Nat.not_lt.mpr hlow)))

include hdie

theorem thermStep_begins (h : 100 ≤ hottest) (hthrottle : s.power.throttle.contains die = false) :
    (s.thermStep die hottest).power.throttle = die :: s.power.throttle ∧
    (s.thermStep die hottest).power.thermSteps die = stepDown (s.power.plan die) (s.slotMask die != 0) (s.power.thermSteps die) := by
  have e : s.thermStep die hottest = (s.startThrottle die).thermDown die :=
    (if_neg (by rw [htrip]; decide)).trans ((if_pos h).trans (if_pos (by rw [hthrottle]; rfl)))
  obtain ⟨m, o, e'⟩ := startThrottle_spec s die
  rw [e, thermDown_thermSteps _ hdie, e']
  exact ⟨rfl, rfl⟩

theorem thermStep_hot {l : Nat} (h : 100 ≤ hottest) (hthrottle : s.power.throttle.contains die = true) (hl : tfind s.power.thermAt die = some l) :
    (s.thermStep die hottest).power.thermSteps die = if s.time.now < l + 100000 then s.power.thermSteps die
      else stepDown (s.power.plan die) (s.slotMask die != 0) (s.power.thermSteps die) := by
  have e : s.thermStep die hottest = if s.thermDue die 100000 then s.thermDown die else s :=
    (if_neg (by rw [htrip]; decide)).trans ((if_pos h).trans (if_neg (by rw [hthrottle]; decide)))
  rw [e]
  by_cases early : s.time.now < l + 100000
  · rw [if_pos early, if_neg (mt (thermDue_iff 100000 hl).mp (not_not_intro early))]
  · rw [if_neg early, if_pos ((thermDue_iff 100000 hl).mpr early), thermDown_thermSteps s hdie]

theorem thermStep_cool {l : Nat} (h : hottest < 98) (hl : tfind s.power.thermAt die = some l) : die ∉ (s.thermStep die hottest).power.throttle ∧
    (s.thermStep die hottest).power.thermSteps die = if s.power.thermSteps die = 0 ∨ s.time.now < l + 1000000 then s.power.thermSteps die
      else stepUp (s.power.plan die) (s.slotMask die != 0) (s.power.thermSteps die) := by
  have e : s.thermStep die hottest = if s.power.thermSteps die ≠ 0 ∧ s.thermDue die 1000000 then (s.endThrottle die).thermUp die else s.endThrottle die :=
    (if_neg (by rw [htrip]; decide)).trans ((if_neg (by omega)).trans (if_pos h))
  have ended : die ∉ (s.endThrottle die).power.throttle := by simp [State.endThrottle]
  rw [e]
  by_cases waits : s.power.thermSteps die = 0 ∨ s.time.now < l + 1000000
  · rw [if_pos waits, if_neg]
    · exact ⟨ended, rfl⟩
    · rintro ⟨steps, due⟩
      exact waits.elim steps ((thermDue_iff 1000000 hl).mp due)
  · rw [if_neg waits, if_pos ⟨mt Or.inl waits, (thermDue_iff 1000000 hl).mpr (mt Or.inr waits)⟩]
    exact ⟨ended, thermUp_thermSteps _ hdie⟩

end

/-! ## Trips (R487, R488) -/

section
variable {s : State} {die at_ : Nat}

theorem exec_junctionTrip_idle {hottest : Nat} (h : 2 ≤ die ∨ hottest < 110 ∨ s.power.trip.contains die = true) :
    exec (.junctionTrip die hottest at_) s = .next (s.upto at_) := congrArg Host.Outcome.next (if_pos h)

theorem exec_junctionTrip_trips {hottest : Nat} (hdie : die < 2) (hhot : 110 ≤ hottest) (htrip : s.power.trip.contains die = false) :
    ∃ t, exec (.junctionTrip die hottest at_) s = .next t ∧ t.health.oosCode = Code.thermTrip ∧ tripReason die ∈ t.health.waiting ∧
      (∀ c ∈ t.cores, coreDie c.1 ≠ die) := by
  have ends : ∃ v : State, exec (.junctionTrip die hottest at_) s =
      .next ((((v.loseDie die).dropPairs die).healthRecord 5 Code.thermTrip noUnit 0xFFFF die).setWaiting (tripReason die) Code.thermTrip) := by
    refine ⟨_, congrArg Host.Outcome.next (if_neg ?_)⟩
    rw [State.upto_power, htrip]
    exact not_or.mpr ⟨Nat.not_le.mpr hdie, not_or.mpr ⟨Nat.not_lt.mpr hhot, Bool.false_ne_true⟩⟩
  obtain ⟨v, e⟩ := ends
  refine ⟨_, e, rfl, mem_setWaiting .., fun c hc => ?_⟩
  rw [setWaiting_cores, healthRecord_cores, dropPairs_cores] at hc
  exact of_decide_eq_true (List.mem_filter.mp hc).2

theorem exec_tripRecovery_untripped (h : s.power.trip.contains die = false) : exec (.tripRecovery die at_) s = .next (s.upto at_) := by
  refine congrArg Host.Outcome.next (if_pos (Or.inl ?_))
  rw [State.upto_power, h]
  rfl

variable {l : Nat} (htrip : s.power.trip.contains die = true) (hl : tfind s.power.tripCool die = some l)
include hl

theorem exec_tripRecovery_early (early : (s.upto at_).time.now < l + 60000000000) : exec (.tripRecovery die at_) s = .next (s.upto at_) := by
  refine congrArg Host.Outcome.next (if_pos (Or.inr ?_))
  rw [State.upto_power, hl, Option.any_some]
  exact congrArg not (decide_eq_false (Nat.not_le.mpr early))

include htrip

theorem exec_tripRecovery_due (due : l + 60000000000 ≤ (s.upto at_).time.now) : ∃ v : State, exec (.tripRecovery die at_) s = .next (v.refill die) ∧
    v.power.trip = s.power.trip.filter (· ≠ die) ∧ tripReason die ∉ v.health.waiting ∧ v.rooms = s.rooms := by
  obtain ⟨n, e⟩ := endTrip_spec (s.upto at_) die
  refine ⟨(((s.upto at_).endTrip die).healthRecord 5 0 noUnit 0xFFFF die).clearWaiting (tripReason die), congrArg Host.Outcome.next (if_neg ?_), ?_, not_mem_clearWaiting _ (tripReason die), ?_⟩
  · rw [State.upto_power, htrip, hl, Option.any_some]
    exact not_or.mpr ⟨Bool.false_ne_true, fun h => Bool.false_ne_true ((congrArg not (decide_eq_true due)).symm.trans h)⟩
  all_goals
    rw [e]
    rfl

end

/-! ## Droop (R482, R483) -/

section
variable {s : State} {unit cycles : Nat} {long : Bool}

theorem exec_droopRecovery_idle (h : s.power.stretched.contains unit = false) : exec (.droopRecovery unit cycles long) s = .next s :=
  congrArg Host.Outcome.next (if_pos (by rw [h]; rfl))

theorem exec_droopRecovery_ends (h : s.power.stretched.contains unit = true) : exec (.droopRecovery unit cycles long) s = .next (
    let u := { s with power := { s.power with stretched := s.power.stretched.filter (· ≠ unit) } }.count unit 8 cycles
    if long && decide (unit < 136) then (u.count unit 9 1).healthRecord 8 Code.droopLong unit 0xFFFF (tget 0 u.health.counts (unit * 32 + 9) + 1) else u) :=
  congrArg Host.Outcome.next (if_neg (by rw [h]; decide))

end

/-- Settles O57: input power, heat, trips and droop act at their thresholds. -/
theorem powerAndHeatControlStepTripAndRecover : Obligations.PowerAndHeatControlStepTripAndRecover := by
  unfold Obligations.PowerAndHeatControlStepTripAndRecover
  refine ⟨fun s mv => ⟨?sag, ?clear⟩, fun s input ma at_ early => congrArg Host.Outcome.next (if_pos early), ?control, ?overload,
    fun plan k slots _ => ⟨stepDown_le .., lt_stepDown plan slots, (stepUp_le_pred ..).trans (Nat.sub_le ..), fun h => (stepUp_le_pred ..).trans_lt (Nat.sub_lt h Nat.one_pos)⟩,
    ?thermal, fun s die hottest at_ => ⟨exec_junctionTrip_idle, exec_junctionTrip_trips, fun l => exec_tripRecovery_due, fun l _ => exec_tripRecovery_early, exec_tripRecovery_untripped⟩,
    fun s unit cycles long => ⟨rfl, exec_droopRecovery_idle, ?droop⟩⟩
  case sag => exact congrArg Host.Outcome.next (ite_congr (by simp) (fun _ => rfl) fun _ => rfl)
  case clear => rfl
  case control =>
    rintro s _ input ma at_ _ _ _ _ rfl rfl rfl rfl rfl due h
    obtain ⟨c, e⟩ := powerReading_charged s input ma at_
    refine ⟨_, (exec_powerControl_due due).trans (congrArg Host.Outcome.next (if_neg (by rw [not_overloaded_of_reading h]; decide))), ?_, ?_⟩
    · obtain ⟨_, charged⟩ := heat_charge s at_
      rw [charged]
      rfl
    rw [e]
    exact ⟨nextPowerSteps_lowers s, nextPowerSteps_raises s, nextPowerSteps_holds s⟩
  case overload =>
    intro s input ma at_ since hwatts hsteps hsince hdue due
    obtain ⟨c, e⟩ := powerReading_charged s input ma at_
    have lasted : ((s.upto at_).chargeThrottle.powerReading input ma).overloaded = true := by
      rw [e]
      refine overloaded_true _ (b := since) ((if_pos ⟨hwatts, hsteps⟩).trans ?_) hdue
      rw [State.upto_power, hsince]
      rfl
    refine ⟨_, (exec_powerControl_due due).trans (congrArg Host.Outcome.next (if_pos lasted)), ?_, ?_⟩
    · rw [powerEvent_rooms, e]
      rfl
    · rw [powerEvent_pin, e]
  case thermal =>
    intro s die hottest inlet outlet at_ hdie
    obtain ⟨c, cool, e⟩ := heatRead_spec s die ⟨hottest, inlet, outlet⟩ at_
    obtain ⟨rooms, coolIn, coolOut, tj0, tj1⟩ := thermStep_keeps (s.heatRead die ⟨hottest, inlet, outlet⟩ at_) die hottest
    refine ⟨_, exec_thermalControl _ at_ hdie, ?_⟩
    have begins := thermStep_begins (s := s.heatRead die ⟨hottest, inlet, outlet⟩ at_) (hottest := hottest) hdie
    have hot := @thermStep_hot (s.heatRead die ⟨hottest, inlet, outlet⟩ at_) die hottest hdie
    have tripped := @thermStep_tripped (s.heatRead die ⟨hottest, inlet, outlet⟩ at_) die
    have between := @thermStep_between (s.heatRead die ⟨hottest, inlet, outlet⟩ at_) die hottest
    have cooled := @thermStep_cool (s.heatRead die ⟨hottest, inlet, outlet⟩ at_) die hottest hdie
    dsimp only
    rw [rooms, coolIn, coolOut, tj0, tj1]
    rw [e] at begins hot tripped between cooled ⊢
    refine ⟨rfl, rfl, rfl, fun h => if_pos h, fun h => if_neg (by rw [h]; decide), fun h => ?_, fun htrip hlow hhigh => ?_, begins,
      fun htrip hhot hthrottle l => hot htrip hhot hthrottle, fun htrip hcool l => cooled htrip hcool⟩
    · rw [tripped h]
      rfl
    · rw [between htrip hlow hhigh]
      rfl
  case droop =>
    intro h
    rw [exec_droopRecovery_ends h]
    cases hl : long && decide (unit < 136) with
    | true =>
      simp only [Bool.and_eq_true, decide_eq_true_eq] at hl
      refine ⟨_, rfl, rfl, rfl, fun _ _ => ⟨_, healthRecord_log ..⟩, fun short => ?_⟩
      exact absurd hl (by rintro ⟨h1, h2⟩; exact short.elim (by rw [h1]; decide) (Nat.not_le.mpr h2))
    | false =>
      refine ⟨_, rfl, rfl, rfl, fun hlong hunit => ?_, fun _ => rfl⟩
      rw [hlong, decide_eq_true hunit] at hl
      cases hl

end Sys2Proof.Machine
end

section
/-! PROOFS. Requests of the management port: checked, then served (R410, R417, R448 to R454, R458, R469). -/

namespace Sys2Proof.Machine

open Sys2Proof Sys2Proof.Obl

/-! ## The checks before a request is served (R448 to R452) -/

section
variable {s : State} {w : Who} {roles : List Nat} {reads : Bool} {f : State → Nat → Nat → State}

theorem exec_of_requestOf {c : Instr} (h : requestOf c = some (w, roles, reads)) : ∃ f, ∀ s, exec c s = .next (s.request w roles reads f) := by
  unfold requestOf at h
  split at h
  all_goals cases h
  all_goals exact ⟨_, fun _ => rfl⟩

theorem next_of_served {c : Instr} (h : RequestServed s c w) (hc : requestOf c = some (w, roles, reads)) :
    (.next (s.request w roles reads f) : Host.Outcome State Fault Refusal) = .next (f s (s.roleOf w).1 (s.roleOf w).2) :=
  congrArg Host.Outcome.next (served_request h hc)

theorem request_off (h : s.module.standby = false) : s.request w roles reads f = s := if_pos (by rw [h]; rfl)

variable (hstandby : s.module.standby = true)
include hstandby

theorem request_denied (h : s.sec.installers = [] ∨ (s.roleOf w).1 ∉ roles) : s.request w roles reads f = s.authFail w := by
  have denied : (s.sec.installers.isEmpty || !roles.contains (s.roleOf w).1) = true := by simpa using h
  exact (if_neg (by rw [hstandby]; decide)).trans (if_pos denied)

theorem request_full (hclaimed : s.sec.installers ≠ []) (hrole : (s.roleOf w).1 ∈ roles) (hfull : s.sec.logFull = true) (hreads : reads = false) :
    s.request w roles reads f = s.respond Code.secLogFull [] := by
  have may : ¬ (s.sec.installers.isEmpty || !roles.contains (s.roleOf w).1) = true := by simpa [hclaimed] using hrole
  exact (if_neg (by rw [hstandby]; decide)).trans ((if_neg may).trans (if_pos (by rw [hfull, hreads]; rfl)))

end

/-! ## A record in the log and the answer (R449, R451) -/

section
variable (s : State) (a b c d e code : Nat) (l body : List Byte)

/-- An audit record, then the answer: nothing else but the record's place in the log. -/
theorem respond_audit : ∃ x n k, (s.audit a b c d e l).respond code body =
    { s with sec := { s.sec with log := x, nextSeq := n, logLost := k }, out := s.out ++ [.response code body] } := by
  obtain ⟨x, n, k, h⟩ := audit_spec s a b c d e l
  exact ⟨x, n, k, by rw [h]; rfl⟩

theorem respond_keyChange (role slot : Nat) (key : List Nat) (list index : Nat) : ∃ x n k, (s.keyChange role slot key list index).respond code body = { s with
    sec := { s.sec with version := s.sec.version + 1, versionReg := s.sec.version + 1, log := x, nextSeq := n, logLost := k }
    out := s.out ++ [.response code body] } := by
  obtain ⟨x, n, k, h⟩ := keyChange_spec s role slot key list index
  exact ⟨x, n, k, by rw [h]; rfl⟩

end

/-! ## The log, the rooms and the caravan (R416, R417, R426, R451) -/

section
variable {s : State} {w : Who}

/-- What a device that comes up again starts beside its cellar and its firmware. -/
theorem comeUp_parts (s : State) : s.comeUp.rooms = s.rooms ∧ s.comeUp.rings = s.rings ∧ s.comeUp.cores = s.cores ∧ s.comeUp.power = s.power ∧
    s.comeUp.time = s.time ∧ s.comeUp.sec.installers = s.sec.installers := by
  obtain ⟨n, v, o, e⟩ := tryFetch_spec s.cellarUp
  rw [State.comeUp, e]
  exact ⟨rfl, rfl, rfl, rfl, rfl, rfl⟩

theorem exec_reboot (h : RequestServed s (.reboot w) w) : ∃ t, exec (.reboot w) s = .next t ∧ t.rooms = [] ∧ t.rings = [] ∧ t.cores = [] ∧
    t.power.lastReset = 4 ∧ t.time = s.time ∧ t.sec.installers = s.sec.installers := by
  obtain ⟨_, _, _, _, left⟩ := leave_spec (s.respond 0 []) 0
  obtain ⟨_, _, _, wiped⟩ := wipe_spec ((s.respond 0 []).leave 0) false 4
  obtain ⟨rooms, rings, cores, power, time, sec⟩ := comeUp_parts (((s.respond 0 []).leave 0).wipe false 4)
  refine ⟨_, congrArg Host.Outcome.next (served_request h rfl), ?_⟩
  dsimp only
  cases s.module.pwrGood && !s.module.resetActive with
  | true =>
    rw [if_pos rfl, rooms, rings, cores, power, time, sec, wiped, left]
    exact ⟨rfl, rfl, rfl, rfl, rfl, rfl⟩
  | false =>
    rw [if_neg Bool.false_ne_true, wiped, left]
    exact ⟨rfl, rfl, rfl, rfl, rfl, rfl⟩

theorem exec_auditAck {n : Nat} (h : RequestServed s (.auditAck w n) w) : ∃ t, exec (.auditAck w n) s = .next t ∧ Answered s t 0 [] ∧
    t.sec.acked = Nat.max s.sec.acked (Nat.min (n + 1) s.sec.nextSeq) := by
  obtain ⟨_, _, _, e⟩ := respond_audit { s with sec := { s.sec with acked := Nat.max s.sec.acked (Nat.min (n + 1) s.sec.nextSeq) } } 0x11 (s.roleOf w).1 (s.roleOf w).2 0xFFFF 0 0
    (leBytes 8 n) []
  exact ⟨_, congrArg Host.Outcome.next ((served_request h rfl).trans e), ⟨rfl, rfl⟩, rfl⟩

theorem exec_clearLaggard {n : Nat} (h : RequestServed s (.clearLaggard w n) w) : ∃ t, exec (.clearLaggard w n) s = .next t ∧ Answered s t 0 [] ∧
    n ∉ t.caravan.marked ∧ n ∉ t.caravan.reported := by
  obtain ⟨_, _, _, e⟩ := respond_audit { s with caravan := { s.caravan with marked := s.caravan.marked.filter (· ≠ n), reported := s.caravan.reported.filter (· ≠ n) } }
    0x05 (s.roleOf w).1 (s.roleOf w).2 0xFFFF 0 0 (sha384 (leBytes 4 n)) []
  refine ⟨_, congrArg Host.Outcome.next ((served_request h rfl).trans e), ⟨rfl, rfl⟩, ?_⟩
  simp

theorem exec_roomSec_served {room cmd : Nat} {body : List Nat} {verified : Bool} (h : RequestServed s (.roomSec w room cmd body verified) w)
    (hroom : room < 64) (hlow : 0 < cmd) (hhigh : cmd ≤ 5) : exec (.roomSec w room cmd body verified) s = .next ((s.tenantCmd room cmd body verified).2.2.respond (s.tenantCmd room cmd body verified).1
      (if cmd = 1 ∧ (s.tenantCmd room cmd body verified).1 = 0 then (s.tenantCmd room cmd body verified).2.1 ++ (s.tenantCmd room cmd body verified).2.2.chain else (s.tenantCmd room cmd body verified).2.1)) :=
  congrArg Host.Outcome.next ((served_request h rfl).trans (if_neg (by omega)))

theorem exec_roomSec_refused {room cmd : Nat} {body : List Nat} {verified : Bool} (h : RequestServed s (.roomSec w room cmd body verified) w)
    (bad : 64 ≤ room ∨ cmd = 0 ∨ 5 < cmd) : exec (.roomSec w room cmd body verified) s = .next s.refuseFree :=
  congrArg Host.Outcome.next ((served_request h rfl).trans (if_pos bad))

/-! ## Configuration (R410, R449) -/

theorem exec_setNet {l : List Nat} (h : RequestServed s (.setNet w l) w) : ∃ t, exec (.setNet w l) s = .next t ∧ Answered s t 0 [] ∧ t.sec.mgmtAddr = l := by
  obtain ⟨_, _, _, e⟩ := respond_audit { s with sec := { s.sec with mgmtAddr := l } } 0x05 (s.roleOf w).1 (s.roleOf w).2 0xFFFF 0 0 (sha384 (toBytes l)) []
  exact ⟨_, congrArg Host.Outcome.next ((served_request h rfl).trans e), ⟨rfl, rfl⟩, rfl⟩

theorem exec_setServers {servers : List Server} (h : RequestServed s (.setServers w servers) w) : ∃ t, exec (.setServers w servers) s = .next t ∧
    t.sec.servers = servers.take 4 ∧ t.rooms = s.rooms := by
  obtain ⟨_, _, _, e⟩ := respond_audit { s with sec := { s.sec with servers := servers.take 4 } } 0x05 (s.roleOf w).1 (s.roleOf w).2 0xFFFF 0 0 (sha384 ((servers.take 4).flatMap serverBytes)) []
  obtain ⟨_, _, _, fetched⟩ := tryFetch_spec (({ s with sec := { s.sec with servers := servers.take 4 } }.config (s.roleOf w).1 (s.roleOf w).2 ((servers.take 4).flatMap serverBytes)).respond 0 [])
  refine ⟨_, congrArg Host.Outcome.next ((served_request h rfl).trans fetched), ?_⟩
  rw [State.config, e]
  exact ⟨rfl, rfl⟩

theorem exec_setCa_repeats {certs : List (List Nat)} (h : RequestServed s (.setCa w certs) w) (again : repeats (certs.take 4) = true) :
    exec (.setCa w certs) s = .next (s.respond Code.secDupKey []) := congrArg Host.Outcome.next ((served_request h rfl).trans (if_pos again))

theorem exec_setCa {certs : List (List Nat)} (h : RequestServed s (.setCa w certs) w) (once : repeats (certs.take 4) = false) : ∃ t, exec (.setCa w certs) s = .next t ∧
    Answered s t 0 [] ∧ t.sec.cas = certs.take 4 ∧ t.sec.version = s.sec.version + 1 ∧ t.sec.versionReg = s.sec.version + 1 := by
  obtain ⟨_, _, _, e⟩ := respond_audit { s with sec := { s.sec with cas := certs.take 4 } }.storeWritten 0x05 (s.roleOf w).1 (s.roleOf w).2 0xFFFF 0 0 (sha384 ((certs.take 4).flatMap toBytes)) []
  exact ⟨_, congrArg Host.Outcome.next ((served_request h rfl).trans ((if_neg (by rw [once]; decide)).trans e)), ⟨rfl, rfl⟩, rfl, rfl, rfl⟩

theorem exec_setCaravan {l : List Nat} (h : RequestServed s (.setCaravan w l) w) : ∃ t, exec (.setCaravan w l) s = .next t ∧
    t.caravan.record = leNat ((toBytes l).take 64) ∧ (s.caravan.member = true → t.caravan.member = false ∧ t.caravan.links = []) := by
  refine ⟨_, congrArg Host.Outcome.next (served_request h rfl), ?_⟩
  dsimp only
  cases s.caravan.member with
  | true =>
    rw [if_pos rfl, if_pos rfl]
    obtain ⟨-, member, links⟩ := SameService.takeOver ((s.leave 0).fenceOff Code.fenceEvicted)
    generalize ((s.leave 0).fenceOff Code.fenceEvicted).takeOver = u at member links
    obtain ⟨_, _, _, e⟩ := respond_audit { u with caravan := { u.caravan with record := leNat ((toBytes l).take 64) } } 0x05 (s.roleOf w).1 (s.roleOf w).2 0xFFFF 0 0 (sha384 (toBytes l)) []
    rw [State.config, e]
    exact ⟨rfl, fun _ => ⟨member, links⟩⟩
  | false =>
    obtain ⟨_, _, _, e⟩ := respond_audit { s with caravan := { s.caravan with record := leNat ((toBytes l).take 64) } } 0x05 (s.roleOf w).1 (s.roleOf w).2 0xFFFF 0 0 (sha384 (toBytes l)) []
    rw [if_neg Bool.false_ne_true, if_neg Bool.false_ne_true, beginAdmission_record, State.config, e]
    exact ⟨rfl, fun h => absurd h Bool.false_ne_true⟩

/-! ## Keys of the roles (R449) -/

section
variable {k : List Nat}

theorem exec_addOperator_again (h : RequestServed s (.addOperator w k) w) (held : s.sec.operators.contains k = true) :
    exec (.addOperator w k) s = .next (s.respond Code.secDupKey []) := congrArg Host.Outcome.next ((served_request h rfl).trans (if_pos held))

theorem exec_addOperator_full (h : RequestServed s (.addOperator w k) w) (new : s.sec.operators.contains k = false) (full : 8 ≤ s.sec.operators.length) :
    exec (.addOperator w k) s = .next s.refuseFree :=
  congrArg Host.Outcome.next ((served_request h rfl).trans ((if_neg (by rw [new]; decide)).trans (if_pos full)))

theorem exec_addOperator (h : RequestServed s (.addOperator w k) w) (new : s.sec.operators.contains k = false) (room : s.sec.operators.length < 8) :
    ∃ t, exec (.addOperator w k) s = .next t ∧ Answered s t 0 [] ∧ t.sec.operators = s.sec.operators ++ [k] ∧ t.sec.version = s.sec.version + 1 := by
  obtain ⟨_, _, _, e⟩ := respond_keyChange { s with sec := { s.sec with operators := s.sec.operators ++ [k] } } 0 [] (s.roleOf w).1 (s.roleOf w).2 k 1 s.sec.operators.length
  exact ⟨_, congrArg Host.Outcome.next ((served_request h rfl).trans ((if_neg (by rw [new]; decide)).trans ((if_neg (Nat.not_le.mpr room)).trans e))), ⟨rfl, rfl⟩, rfl, rfl⟩

theorem exec_addInstaller_again (h : RequestServed s (.addInstaller w k) w) (held : s.sec.installers.contains k = true) :
    exec (.addInstaller w k) s = .next (s.respond Code.secDupKey []) := congrArg Host.Outcome.next ((served_request h rfl).trans (if_pos held))

theorem exec_addInstaller_full (h : RequestServed s (.addInstaller w k) w) (new : s.sec.installers.contains k = false) (full : 4 ≤ s.sec.installers.length) :
    exec (.addInstaller w k) s = .next s.refuseFree :=
  congrArg Host.Outcome.next ((served_request h rfl).trans ((if_neg (by rw [new]; decide)).trans (if_pos full)))

theorem exec_addInstaller (h : RequestServed s (.addInstaller w k) w) (new : s.sec.installers.contains k = false) (room : s.sec.installers.length < 4) :
    ∃ t, exec (.addInstaller w k) s = .next t ∧ Answered s t 0 [] ∧ t.sec.installers = s.sec.installers ++ [k] ∧ t.sec.version = s.sec.version + 1 := by
  obtain ⟨_, _, _, e⟩ := respond_keyChange { s with sec := { s.sec with installers := s.sec.installers ++ [k] } } 0 [] (s.roleOf w).1 (s.roleOf w).2 k 2 s.sec.installers.length
  exact ⟨_, congrArg Host.Outcome.next ((served_request h rfl).trans ((if_neg (by rw [new]; decide)).trans ((if_neg (Nat.not_le.mpr room)).trans e))), ⟨rfl, rfl⟩, rfl, rfl⟩

end

section
variable {i : Nat}

theorem exec_delOperator_none (h : RequestServed s (.delOperator w i) w) (past : s.sec.operators.length ≤ i) : exec (.delOperator w i) s = .next s.refuseFree := by
  refine congrArg Host.Outcome.next ((served_request h rfl).trans ?_)
  dsimp only
  rw [List.getElem?_eq_none past]

theorem exec_delOperator (h : RequestServed s (.delOperator w i) w) (held : i < s.sec.operators.length) :
    ∃ t, exec (.delOperator w i) s = .next t ∧ Answered s t 0 [] ∧ t.sec.operators = s.sec.operators.eraseIdx i := by
  obtain ⟨_, _, _, e⟩ := respond_keyChange { s with sec := { s.sec with operators := s.sec.operators.eraseIdx i } } 0 [] (s.roleOf w).1 (s.roleOf w).2 s.sec.operators[i] 1 i
  refine ⟨_, congrArg Host.Outcome.next ((served_request h rfl).trans (Eq.trans ?_ e)), ⟨rfl, rfl⟩, rfl⟩
  dsimp only
  rw [List.getElem?_eq_getElem held]

/-- DEL_INSTALLER of a key that is held. -/
theorem exec_delInstaller_held (h : RequestServed s (.delInstaller w i) w) (held : i < s.sec.installers.length) : exec (.delInstaller w i) s = .next (
    if s.sec.installers.length ≤ 1 then s.respond Code.secLastKey []
    else ({ s with sec := { s.sec with installers := s.sec.installers.eraseIdx i } }.keyChange (s.roleOf w).1 (s.roleOf w).2 s.sec.installers[i] 2 i).respond 0 []) := by
  refine congrArg Host.Outcome.next ((served_request h rfl).trans ?_)
  dsimp only
  rw [List.getElem?_eq_getElem held]

theorem exec_delInstaller (h : RequestServed s (.delInstaller w i) w) (held : i < s.sec.installers.length) (more : 1 < s.sec.installers.length) :
    ∃ t, exec (.delInstaller w i) s = .next t ∧ Answered s t 0 [] ∧ t.sec.installers = s.sec.installers.eraseIdx i := by
  obtain ⟨_, _, _, e⟩ := respond_keyChange { s with sec := { s.sec with installers := s.sec.installers.eraseIdx i } } 0 [] (s.roleOf w).1 (s.roleOf w).2 s.sec.installers[i] 2 i
  exact ⟨_, (exec_delInstaller_held h held).trans (congrArg Host.Outcome.next ((if_neg (Nat.not_le.mpr more)).trans e)), ⟨rfl, rfl⟩, rfl⟩

end

theorem exec_releaseClaim (h : RequestServed s (.releaseClaim w) w) : ∃ t, exec (.releaseClaim w) s = .next t ∧ Answered s t 0 [] ∧
    t.sec.installers = [] ∧ t.sec.operators = [] ∧ t.sec.cas = [] := by
  obtain ⟨_, _, _, e⟩ := audit_spec { s with sec := { s.sec with installers := [], operators := [], cas := [] } }.storeWritten 0x03 (s.roleOf w).1 (s.roleOf w).2 0xFFFF 0 []
  refine ⟨_, congrArg Host.Outcome.next (served_request h rfl), ?_⟩
  dsimp only
  rw [e]
  split
  · exact ⟨⟨rfl, rfl⟩, rfl, rfl, rfl⟩
  · exact ⟨⟨rfl, rfl⟩, rfl, rfl, rfl⟩

/-! ## Fuses (R454, R458) -/

section
variable {reads : List FuseReads}

theorem fuseRequest_busy {f : State → State} (h : s.anyJob = true) : s.fuseRequest f = s.respond Code.secBusy [] := if_pos h

theorem fuseRequest_idle {f : State → State} (h : s.anyJob = false) : s.fuseRequest f = f s := if_neg (by rw [h]; decide)

theorem exec_svnCommit {f : Firmware} (h : RequestServed s (.svnCommit w reads) w) (idle : s.anyJob = false) (hfw : s.stewards.fw = some f) (hsvn : f.svn ≤ 384) :
    exec (.svnCommit w reads) s =
      .next (s.programFuses (s.roleOf w).1 (s.roleOf w).2 ((List.range 6).map fun i => (2 + i, 2 ^ Nat.min 64 (f.svn - 64 * i) - 1)) reads) := by
  refine congrArg Host.Outcome.next ((served_request h rfl).trans ((fuseRequest_idle idle).trans ?_))
  rw [hfw]
  exact if_neg (Nat.not_lt.mpr hsvn)

theorem exec_repairFuse_closed {words : List (Nat × Nat)} (h : RequestServed s (.repairFuse w words reads) w) (idle : s.anyJob = false) (closed : s.windowOpen = false) :
    exec (.repairFuse w words reads) s = .next (s.respond Code.secDebugDenied []) :=
  congrArg Host.Outcome.next ((served_request h rfl).trans ((fuseRequest_idle idle).trans (if_pos (by rw [closed]; rfl))))

theorem exec_repairFuse {words : List (Nat × Nat)} (h : RequestServed s (.repairFuse w words reads) w) (idle : s.anyJob = false) (opened : s.windowOpen = true)
    (free : ∀ p ∈ s.rooms, p.2.holds = false) (nonempty : words ≠ []) (repairs : ∀ p ∈ words, fuseRepair p.1 = true ∨ p.1 = 1) :
    exec (.repairFuse w words reads) s = .next (s.programFuses (s.roleOf w).1 (s.roleOf w).2 words reads) := by
  refine congrArg Host.Outcome.next ((served_request h rfl).trans ((fuseRequest_idle idle).trans
    ((if_neg (by rw [opened]; decide)).trans ((if_neg ?_).trans (if_neg ?_)))))
  · simpa using fun r x hr => free (r, x) hr
  · simpa [nonempty, or_iff_not_imp_left] using repairs

theorem exec_makerRevoke {g generation : Nat} {pub : List Nat} (hstandby : s.module.standby = true) (hclaimed : s.sec.installers ≠ []) (hlive : s.makerLive g = true)
    (hg : g < 4) (hlater : generation < g) (hlog : s.sec.logFull = false) (idle : s.anyJob = false) :
    exec (.makerRevoke (.maker g pub) generation reads) s = .next (s.programFuses 3 0 [(8, 2 ^ generation)] reads) := by
  have another : ([0, 1, 2, 3].any fun k => k != generation && s.makerLive k) = true :=
    List.any_eq_true.mpr ⟨g, by simp; omega, by simp [hlive]; omega⟩
  refine congrArg Host.Outcome.next ((if_neg (by rw [hstandby]; decide)).trans ((if_neg ?_).trans ((if_neg (by rw [hlog]; decide)).trans
    ((fuseRequest_idle idle).trans (if_neg (by rw [another]; decide))))))
  simp [hclaimed, hlive, hg, hlater]

theorem exec_makerRevoke_denied {g generation : Nat} {pub : List Nat} (hstandby : s.module.standby = true) (h : s.makerLive g = false ∨ g ≤ generation) :
    exec (.makerRevoke (.maker g pub) generation reads) s = .next (s.authFail (.maker g pub)) := by
  refine congrArg Host.Outcome.next ((if_neg (by rw [hstandby]; decide)).trans (if_pos ?_))
  rcases h with h | h
  · simp [h]
  · simp [h]

/-- A word programmed: bits of its cells are set and none cleared; its shadow holds the cells where no reads speak against it. -/
theorem programWord_spec (s : State) (reads : List FuseReads) (v x : Nat) :
    (s.programWord reads v x).2.sec.fuses = tset s.sec.fuses v (tget 0 s.sec.fuses v ||| x) ∧ (s.programWord reads v x).2.rooms = s.rooms ∧
    (reads = [] → (s.programWord reads v x).1 = true ∧ (s.programWord reads v x).2.sec.shadow = tset s.sec.shadow v (tget 0 s.sec.fuses v ||| x)) := by
  unfold State.programWord
  dsimp only
  split
  · exact ⟨rfl, rfl, fun _ => ⟨rfl, rfl⟩⟩
  next r found =>
    have alarmed (u : State) : ∃ a n k, (if r.agree = true then u else u.alarmWord r) = { u with sec := { u.sec with log := a, nextSeq := n, logLost := k } } := by
      split
      · exact ⟨_, _, _, rfl⟩
      · exact audit_spec ..
    obtain ⟨a, n, k, e⟩ := alarmed { s with sec := { s.sec with fuses := tset s.sec.fuses v (tget 0 s.sec.fuses v ||| x) } }
    rw [e]
    have read : reads ≠ [] := by
      rintro rfl
      cases found
    split
    · exact ⟨rfl, rfl, fun h => absurd h read⟩
    · exact ⟨rfl, rfl, fun h => absurd h read⟩

end

/-! ## Debug (R469) -/

section
variable {g scope : Nat} {pub : List Nat} {rooms : List Nat}

theorem exec_debug_denied (h : RequestServed s (.debug (.maker g pub) rooms scope) (.maker g pub))
    (closed : s.windowOpen = false ∨ bit (s.fuse 1) 0 = true ∨ ∃ r ∈ rooms, s.debugRoomOk pub scope r = false) :
    exec (.debug (.maker g pub) rooms scope) s = .next (s.respond Code.secDebugDenied []) := by
  refine (debug_go h).trans (congrArg Host.Outcome.next (if_pos ?_))
  rcases closed with h | h | ⟨r, hr, h⟩
  · simp [h]
  · simp [h]
  · have : (rooms.all fun r => s.debugRoomOk pub scope r) = false := List.all_eq_false.mpr ⟨r, hr, by rw [h]; decide⟩
    rw [this]
    simp

theorem exec_debug_opens (h : RequestServed s (.debug (.maker g pub) rooms scope) (.maker g pub)) (opened : s.windowOpen = true) (fuse : bit (s.fuse 1) 0 = false)
    (ok : ∀ r ∈ rooms, s.debugRoomOk pub scope r = true) :
    ∃ t, exec (.debug (.maker g pub) rooms scope) s = .next t ∧ Answered s t 0 [] ∧ t.sec.debug = some (rooms, scope) := by
  obtain ⟨_, _, _, e⟩ := respond_audit { s.closeDebug with sec := { s.closeDebug.sec with debug := some (rooms, scope) } } 0x0C (s.roleOf (.maker g pub)).1 (s.roleOf (.maker g pub)).2
    (rooms.headD 0xFFFF) 0 0 (leBytes 4 scope ++ leBytes 2 (rooms.headD 0xFFFF)) []
  obtain ⟨_, _, _, _, closed⟩ := closeDebug_logs s
  refine ⟨_, (debug_go h).trans (congrArg Host.Outcome.next ((if_neg ?_).trans e)), ?_⟩
  · rw [opened, fuse, List.all_eq_true.mpr ok]
    decide
  · rw [closed]
    exact ⟨⟨rfl, rfl⟩, rfl⟩

end

/-! ## Requests of everyone (R449, R450) -/

section
variable {nonce token pub : List Nat} {verified : Bool}

theorem exec_attest (hstandby : s.module.standby = true) : ∃ n f, exec (.attest w nonce) s = .next ({ s with fresh := f }.respond 0 (s.report none nonce n [] ++ s.chain)) := by
  refine ⟨(s.drawBytes 48).1, (s.drawBytes 48).2.fresh, congrArg Host.Outcome.next ((if_neg (by rw [hstandby]; decide)).trans ?_)⟩
  have drawn := drawBytes_spec s 48
  dsimp only [State.freshReport]
  rw [drawn]
  rfl

theorem exec_claim_bad (hstandby : s.module.standby = true) (hlog : s.sec.logFull = false) (bad : s.claimOk token pub verified = false) :
    exec (.claim token pub verified) s = .next (s.respond Code.secClaim []) :=
  congrArg Host.Outcome.next ((if_neg (by rw [hstandby]; decide)).trans ((if_neg (by rw [hlog]; decide)).trans (if_pos (by rw [bad]; rfl))))

theorem exec_claim (hstandby : s.module.standby = true) (hlog : s.sec.logFull = false) (good : s.claimOk token pub verified = true) :
    ∃ t, exec (.claim token pub verified) s = .next t ∧ t.sec.installers = [pub] ∧ t.sec.version = s.sec.version + 1 ∧ t.rooms = s.rooms := by
  have claimed : exec (.claim token pub verified) s = .next ((({ s with sec := { s.sec with installers := [pub] } }.storeWritten.audit 0x02 2 0 0xFFFF 0 (sha384 (toBytes pub))).respond 0 []).tryFetch) :=
    congrArg Host.Outcome.next ((if_neg (by rw [hstandby]; decide)).trans ((if_neg (by rw [hlog]; decide)).trans (if_neg (by rw [good]; decide))))
  obtain ⟨_, _, _, e⟩ := respond_audit { s with sec := { s.sec with installers := [pub] } }.storeWritten 0x02 2 0 0xFFFF 0 0 (sha384 (toBytes pub)) []
  rw [e] at claimed
  obtain ⟨_, _, _, fetched⟩ := tryFetch_spec _
  exact ⟨_, claimed.trans (congrArg Host.Outcome.next fetched), rfl, rfl, rfl⟩

end

end

/-- Settles O59: a management request is checked for power, role and log space, and then served. -/
theorem managementRequestsAreCheckedThenServed : Obligations.ManagementRequestsAreCheckedThenServed := by
  unfold Obligations.ManagementRequestsAreCheckedThenServed
  refine ⟨fun s c w roles reads hc => ?checks,
    fun s w n => ⟨fun h => next_of_served h rfl, fun h => next_of_served h rfl, exec_auditAck, exec_reboot, exec_clearLaggard, fun h => next_of_served h rfl, fun h => next_of_served h rfl⟩,
    fun s w room cmd body verified h => ⟨exec_roomSec_served h, exec_roomSec_refused h⟩,
    fun s w l certs servers => ⟨exec_setNet, exec_setServers, fun h => ⟨exec_setCa_repeats h, exec_setCa h⟩, exec_setCaravan⟩,
    fun s w k i => ⟨fun h => ⟨exec_addOperator_again h, exec_addOperator_full h, exec_addOperator h⟩,
      fun h => ⟨exec_addInstaller_again h, exec_addInstaller_full h, exec_addInstaller h⟩, fun h => ⟨exec_delOperator h, exec_delOperator_none h⟩,
      fun h => ⟨fun held last => (exec_delInstaller_held h held).trans (congrArg Host.Outcome.next (if_pos last)), exec_delInstaller h⟩, exec_releaseClaim⟩,
    fun s w reads words g generation pub => ⟨fun h => ⟨fun busy => (next_of_served h rfl).trans (congrArg Host.Outcome.next (fuseRequest_busy busy)), fun f => exec_svnCommit h⟩,
      fun h => ⟨fun busy => (next_of_served h rfl).trans (congrArg Host.Outcome.next (fuseRequest_busy busy)), exec_repairFuse_closed h, exec_repairFuse h⟩,
      fun h => ⟨fun busy => (next_of_served h rfl).trans (congrArg Host.Outcome.next (fuseRequest_busy busy)), fun idle => (next_of_served h rfl).trans (congrArg Host.Outcome.next (fuseRequest_idle idle))⟩,
      exec_makerRevoke, exec_makerRevoke_denied⟩,
    programWord_spec, fun s g scope pub rooms h => ⟨exec_debug_denied h, exec_debug_opens h⟩, fun s w nonce token pub verified => ⟨fun off => ?off, fun on => ⟨?identity, exec_attest on, exec_claim_bad on, exec_claim on⟩⟩⟩
  case checks =>
    obtain ⟨f, e⟩ := exec_of_requestOf hc
    rw [e]
    exact ⟨fun h => congrArg Host.Outcome.next (request_off h), fun on h => congrArg Host.Outcome.next (request_denied on h),
      fun on claimed role full reads => congrArg Host.Outcome.next (request_full on claimed role full reads)⟩
  case off =>
    have unpowered : (!s.module.standby) = true := by rw [off]; rfl
    exact ⟨congrArg Host.Outcome.next (if_neg (by rw [off]; decide)), congrArg Host.Outcome.next (if_pos unpowered), congrArg Host.Outcome.next (if_pos unpowered)⟩
  case identity => exact congrArg Host.Outcome.next (if_pos on)

end Sys2Proof.Machine
end

section
/-! PROOFS. A member's side of its lease: admission, renewal, fencing, keys and generations (R404, R413 to R418, R421, R463). -/

namespace Sys2Proof.Machine

open Sys2Proof Sys2Proof.Obl

/-! ## Messages that fail their first checks (R390, R413) -/

section
variable {s : State} {p : Pkt} {k : Nat}

theorem exec_of_ctrlRows {c : Instr} (h : (c, k) ∈ ctrlRows p) : ∃ f, ∀ s, exec c s = .next (s.ctrlRow p k f) := by
  simp only [ctrlRows, List.mem_cons, Prod.mk.injEq, List.not_mem_nil, or_false] at h
  rcases h with ⟨rfl, rfl⟩ | ⟨rfl, rfl⟩ | ⟨rfl, rfl⟩ | ⟨rfl, rfl⟩ | ⟨rfl, rfl⟩ | ⟨rfl, rfl⟩ | ⟨rfl, rfl⟩ | ⟨rfl, rfl⟩ | ⟨rfl, rfl⟩ | ⟨rfl, rfl⟩ |
    ⟨rfl, rfl⟩ | ⟨rfl, rfl⟩ | ⟨rfl, rfl⟩ | ⟨rfl, rfl⟩ | ⟨rfl, rfl⟩ | ⟨rfl, rfl⟩ | ⟨rfl, rfl⟩ | ⟨rfl, rfl⟩ | ⟨rfl, rfl⟩ | ⟨rfl, rfl⟩
  all_goals exact ⟨_, fun _ => rfl⟩

theorem ctrlRow_of_ctrlCheck {u : State} (f : State → State) (h : s.ctrlCheck p = (u, false)) : s.ctrlRow p k f = u := by
  rw [State.ctrlRow, h]
  rfl

theorem ctrlCheck_malformed (h : p.proto ≠ 1 ∨ p.plen ≠ p.udp ∨ ptypeOk p.ptype = false) : s.ctrlCheck p = (netCounted s 0, false) := by
  have bad : p.proto ≠ 1 ∨ p.plen ≠ p.udp ∨ (!ptypeOk p.ptype) = true := h.imp_right (.imp_right fun h => by rw [h]; rfl)
  exact if_pos bad

theorem ctrlCheck_unlinked (hproto : p.proto = 1) (hlen : p.plen = p.udp) (htype : p.ptype = 8) (hlink : tfind s.caravan.links p.src = none) :
    s.ctrlCheck p = (netCounted s 1, false) := by
  have good : ¬ (p.proto ≠ 1 ∨ p.plen ≠ p.udp ∨ (!ptypeOk p.ptype) = true) :=
    not_or.mpr ⟨not_not_intro hproto, not_or.mpr ⟨not_not_intro hlen, by rw [htype]; decide⟩⟩
  exact (if_neg good).trans ((if_neg (not_not_intro htype)).trans (if_pos (Or.inr (by rw [hlink]; rfl))))

end

/-! ## Messages of the lease giver (R415 to R418, R421) -/

section
variable {s : State} {p : Pkt}

theorem not_above {k : Nat} (h : FromGiver s p k) : ¬ ((ctrlSeen s p).caravan.isHead = true ∨ p.src ≠ (ctrlSeen s p).caravan.giver) := by
  obtain ⟨-, head, giver, -⟩ := h
  rw [ctrlSeen_caravan, head]
  exact not_or.mpr ⟨Bool.false_ne_true, not_not_intro giver⟩

theorem ctrlRow_giver {k : Nat} (h : FromGiver s p k) (f : State → State) :
    s.ctrlRow p k (fun v => if v.caravan.isHead ∨ p.src ≠ v.caravan.giver then v else f v) = f (ctrlSeen s p) :=
  (ctrlRow_pass h.1 _).trans (if_neg (not_above h))

theorem exec_admitted (h : FromGiver s p 0x02) : exec (.admitted p) s = .next (if s.caravan.member = true then ctrlSeen s p else { ctrlSeen s p with
    caravan := { s.caravan with member := true, generation := p.arg 0 4, expiry := s.time.now + 2000000000, renewAt := s.time.now, retryAt := none } }) := by
  refine congrArg Host.Outcome.next ((ctrlRow_pass h.1 _).trans (ite_congr (propext ?_) (fun _ => rfl) fun _ => rfl))
  rw [← or_assoc]
  exact or_iff_right (not_above h)

theorem exec_refused_admission (h : FromGiver s p 0x03) (hmember : s.caravan.member = false)
    (unbound : ∀ r j, r < 64 → (s.room r).job = some j → ¬ (1 < j.devices ∧ j.phase = 0 ∧ j.tag = 0 ∧ j.joinSeq = p.cseq)) :
    exec (.refused p) s = .next { ctrlSeen s p with caravan := { s.caravan with retryAt := some s.time.now } } := by
  have starts : (allRooms.find? fun r => ((ctrlSeen s p).room r).job.any fun j => decide (1 < j.devices) && j.phase = 0 && j.tag = 0 && j.joinSeq = p.cseq) = none := by
    refine List.find?_eq_none.mpr fun r hr found => ?_
    obtain ⟨j, hj, waits⟩ := (Option.any_eq_true _ _).mp found
    refine unbound r j (by simpa [allRooms] using hr) hj ?_
    simpa [and_assoc] using waits
  refine congrArg Host.Outcome.next ((fromAbove_giver h _).trans ?_)
  dsimp only
  rw [starts]
  exact if_neg (by rw [ctrlSeen_caravan, hmember]; decide)

theorem exec_grant (h : FromGiver s p 0x05) (hmember : s.caravan.member = true) : exec (.grant p) s = .next (
    if s.caravan.expiry ≤ s.time.now then (ctrlSeen s p).fenceOff Code.fenceLease
    else { ctrlSeen s p with caravan := { s.caravan with expiry := Nat.max s.caravan.expiry (p.arg 4 8) } }) := by
  refine congrArg Host.Outcome.next ((ctrlRow_pass h.1 _).trans (if_neg ?_))
  rw [← or_assoc, ctrlSeen_caravan, hmember]
  exact not_or.mpr ⟨not_above h, by decide⟩

theorem exec_key (h : FromGiver s p 0x06) : exec (.key p) s =
    .next ((ctrlSeen s p).installJobKey p.cjob (p.arg 0 1) (unwrapKey (s.linkKey p.src) ((p.body.drop 8).take 40))) := by
  refine congrArg Host.Outcome.next ((ctrlRow_giver h _).trans (if_neg ?_))
  rw [ctrlSeen_caravan, own_of_fromGiver h]
  decide

theorem exec_probe (h : FromGiver s p 0x09) : exec (.probe p) s = .next ((ctrlSeen s p).ctrlSend p.src s.caravan.mid 0x0A 0 0 (some p.cseq) (p.body.take 8)) := by
  refine congrArg Host.Outcome.next ((ctrlRow_pass h.1 _).trans (if_neg ?_))
  rw [or_comm]
  exact not_above h

end

/-! ## Fencing (R418) -/

theorem fenceOff_jobs {u : State} (code : Nat) (h : u.caravan.jobs = []) : (u.fenceOff code).caravan.jobs = [] := by
  unfold State.fenceOff
  dsimp only
  exact (Undisturbed.foldl _ _ (fun _ _ => .endJob ..) u).jobs h

/-- With no barrier counted here, duties taken over act on rings alone. -/
theorem takeOver_posts {u : State} (jobs : u.caravan.jobs = []) (bars : u.caravan.bars = []) :
    ∃ h, Posts { u with stewards := { u.stewards with handed := h } } u.takeOver := by
  refine ⟨if u.dutyServed then [] else u.stewards.handed.filter (· = 4), ?_⟩
  have rebuilt := Posts.foldl (fun v q => v.reread q) Posts.reread ((u.rings.filter fun q => u.stewards.handed.contains (q.2.room % 4)).map (·.1))
    { u with stewards := { u.stewards with handed := if u.dutyServed then [] else u.stewards.handed.filter (· = 4) } }
  unfold State.takeOver
  dsimp only
  refine .ite rebuilt ?_
  rw [rebuilt.rest]
  dsimp only
  rw [jobs, List.foldl_nil]
  dsimp only
  rw [bars, List.foldl_nil, ← rebuilt.rest]
  exact rebuilt

theorem fenced_of_posts {s t : State} {n : Nat} (g : Posts s t) (h : Fenced s n) : Fenced t n := by
  obtain ⟨keys, flows, links, member, members, maps, bars, retry, jobs⟩ := h
  refine ⟨?_, ?_, ?_, ?_, ?_, ?_, ?_, ?_, fun r j hr hj => ?_⟩
  case refine_9 =>
    obtain ⟨_, _, e⟩ := g.rooms r
    rw [e] at hj
    exact jobs r j hr hj
  all_goals rw [g.rest]
  all_goals assumption

theorem fenceOff_takeOver_fenced {u : State} (code : Nat) (h : u.caravan.jobs = []) : Fenced (u.fenceOff code).takeOver (u.fenceOff code).takeOver.time.now := by
  obtain ⟨l, posts⟩ := takeOver_posts (fenceOff_jobs code h) rfl
  have now : (u.fenceOff code).takeOver.time.now = (u.fenceOff code).time.now := by rw [posts.rest]
  rw [now]
  exact fenced_of_posts posts (fenceOff_fenced u code)

/-! ## A member's timers (R404, R415, R416) -/

section
variable {s : State} {at_ : Nat}

section
variable (hhead : s.caravan.isHead = false) (hmember : s.caravan.member = true)
include hhead hmember

theorem exec_leaseExpiry_due (hexpiry : s.caravan.expiry ≠ 0) (due : s.caravan.expiry ≤ (s.upto at_).time.now) :
    exec (.leaseExpiry at_) s = .next ((s.upto at_).fenceOff Code.fenceLease).takeOver := by
  refine congrArg Host.Outcome.next (if_pos ?_)
  rw [State.upto_caravan, hhead, hmember, bne_iff_ne.mpr hexpiry]
  exact decide_eq_true due

theorem exec_renewTimer_due (due : s.caravan.renewAt + 250000000 ≤ (s.upto at_).time.now) : ∃ t, exec (.renewTimer at_) s = .next t ∧
    t.caravan.renewAt = (s.upto at_).time.now ∧ t.caravan.cseq = (s.caravan.cseq + 1) % 2 ^ 32 ∧ t.rooms = s.rooms := by
  obtain ⟨_, _, e⟩ := ctrlSend_spec (s.upto at_) (s.upto at_).caravan.giver (s.upto at_).caravan.mid 0x04 0 0 none
    (leBytes 4 (s.upto at_).caravan.generation ++ leBytes 8 (s.upto at_).now)
  refine ⟨_, congrArg Host.Outcome.next ((if_pos due).trans (if_pos ?_)), ?_⟩
  · rw [State.upto_caravan, hhead, hmember]
    rfl
  · rw [e]
    exact ⟨rfl, rfl, rfl⟩

end

theorem exec_leaseExpiry_early (early : (s.upto at_).time.now < s.caravan.expiry) : exec (.leaseExpiry at_) s = .next (s.upto at_) := by
  refine congrArg Host.Outcome.next (if_neg fun h => ?_)
  exact Nat.not_le.mpr early (of_decide_eq_true (Bool.and_eq_true_iff.mp h).2)

section
variable {t : Nat} (hretry : s.caravan.retryAt = some t)
include hretry

theorem exec_admitRetry_timed : exec (.admitRetry at_) s = .next (if t + 10000000000 ≤ (s.upto at_).time.now then (s.upto at_).beginAdmission else s.upto at_) := by
  refine congrArg Host.Outcome.next ?_
  rw [State.upto_caravan, hretry]
  rfl

theorem exec_admitRetry_due (hrole : s.caravan.role = 1 ∨ s.caravan.role = 2) (hhead : s.caravan.isHead = false) (hmember : s.caravan.member = false)
    (hready : s.stewards.ready = true) (hoos : s.health.oos = false) (due : t + 10000000000 ≤ (s.upto at_).time.now) :
    ∃ v n x, exec (.admitRetry at_) s = .next v ∧ v.caravan.retryAt = none ∧ tfind v.caravan.tries s.caravan.giver = some x ∧
      x.starter = true ∧ x.stage = 1 ∧ v.out = s.out ++ [.link s.caravan.giver 1 n] := by
  obtain ⟨n, f, e⟩ := beginAdmission_spec (s := s.upto at_) hrole hhead hmember hready hoos
  exact ⟨_, n, _, (exec_admitRetry_timed hretry).trans (congrArg Host.Outcome.next ((if_pos due).trans e)), rfl, tfind_tset_self .., rfl, rfl, rfl⟩

end

variable {tag : Nat} {k : Keys}

theorem exec_keyOverlapEnd_link (h : tfind s.caravan.links tag = some k) : ∃ t, exec (.keyOverlapEnd true tag at_) s = .next t ∧
    tfind t.caravan.links tag = some (k.overlapEnd (s.upto at_).time.now) := by
  refine ⟨{ s.upto at_ with caravan := { s.caravan with links := tset s.caravan.links tag (k.overlapEnd (s.upto at_).time.now) } }, congrArg Host.Outcome.next ((if_pos rfl).trans ?_), tfind_tset_self ..⟩
  rw [State.upto_caravan, h]
  rfl

theorem exec_keyOverlapEnd_job (h : tfind s.net.jobKeys tag = some k) : ∃ t, exec (.keyOverlapEnd false tag at_) s = .next t ∧
    tfind t.net.jobKeys tag = some (k.overlapEnd (s.upto at_).time.now) := by
  refine ⟨{ s.upto at_ with net := { s.net with jobKeys := tset s.net.jobKeys tag (k.overlapEnd (s.upto at_).time.now) } }, congrArg Host.Outcome.next ((if_neg Bool.false_ne_true).trans ?_), tfind_tset_self ..⟩
  rw [State.upto_net, h]
  rfl

end

/-- Settles O50: a member's admission, renewal, keys, generations and fencing. -/
theorem membersJoinRenewAndFence : Obligations.MembersJoinRenewAndFence := by
  unfold Obligations.MembersJoinRenewAndFence
  refine ⟨fun s p c k hc => ?checks, ?rows, fun s at_ hhead hmember => ⟨fun hexpiry due => ⟨_, exec_leaseExpiry_due hhead hmember hexpiry due, rfl, fenceOff_takeOver_fenced (u := s.upto at_) _⟩,
      exec_leaseExpiry_early, exec_renewTimer_due hhead hmember, fun early => congrArg Host.Outcome.next (if_neg (Nat.not_le.mpr early))⟩,
    fun s at_ t hretry hrole hhead hmember hready hoos => ⟨exec_admitRetry_due hretry hrole hhead hmember hready hoos, fun early =>
      (exec_admitRetry_timed hretry).trans (congrArg Host.Outcome.next (if_neg (Nat.not_le.mpr early)))⟩,
    fun _ _ _ => rfl, fun s tag at_ k => ⟨exec_keyOverlapEnd_link, exec_keyOverlapEnd_job⟩⟩
  case checks =>
    obtain ⟨f, e⟩ := exec_of_ctrlRows hc
    rw [e]
    exact ⟨fun h => congrArg Host.Outcome.next (ctrlRow_of_ctrlCheck f (ctrlCheck_malformed h)),
      fun hproto hlen htype hlink => congrArg Host.Outcome.next (ctrlRow_of_ctrlCheck f (ctrlCheck_unlinked hproto hlen htype hlink))⟩
  case rows =>
    rintro s _ p rfl
    refine ⟨fun h hmember => (exec_admitted h).trans (congrArg Host.Outcome.next (if_neg (by rw [hmember]; decide))), fun h hmember => (exec_admitted h).trans (congrArg Host.Outcome.next (if_pos hmember)),
      fun h unbound hmember => exec_refused_admission h hmember unbound, fun h hmember => ⟨fun early => ?_, fun late => ?_⟩, exec_key, gen_pass, fun h => ?_, exec_probe⟩
    · exact (exec_grant h hmember).trans (congrArg Host.Outcome.next (if_neg (Nat.not_le.mpr early)))
    · exact ⟨_, (exec_grant h hmember).trans (congrArg Host.Outcome.next (if_pos late)), fenceOff_fenced ..⟩
    · exact ⟨_, congrArg Host.Outcome.next (ctrlRow_giver h _), rfl, fenceOff_takeOver_fenced (u := ctrlSeen s p) _⟩

end Sys2Proof.Machine
end

section
/-! PROOFS. The lease giver's side: admission, leases, probes, evictions, generations and reports (R404, R413, R415 to R417, R421). -/

namespace Sys2Proof.Machine

open Sys2Proof Sys2Proof.Obl

/-! ## Messages of members (R415 to R417) -/

section
variable {s : State} {p : Pkt}

/-- A message of a member to its lease giver acts on the state that has seen it. -/
theorem ctrlRow_member {k : Nat} (h : FromMember s p k) (f : State → State) :
    s.ctrlRow p k (fun v => if !v.gives p.src then v else f v) = f (ctrlSeen s p) := by
  have gives : (ctrlSeen s p).gives p.src = true := h.2
  refine (ctrlRow_pass h.1 _).trans (if_neg ?_)
  rw [gives]
  decide

theorem ctrlSend_caravan (s : State) (hop far ctype cjob cinc : Nat) (cseq : Option Nat) (body : List Byte) : (s.ctrlSend hop far ctype cjob cinc cseq body).caravan =
    { s.caravan with cseq := if cseq.isSome then s.caravan.cseq else (s.caravan.cseq + 1) % 2 ^ 32 } := by
  obtain ⟨_, _, e⟩ := ctrlSend_spec s hop far ctype cjob cinc cseq body
  rw [e]

theorem ctrlSend_rooms (s : State) (hop far ctype cjob cinc : Nat) (cseq : Option Nat) (body : List Byte) :
    (s.ctrlSend hop far ctype cjob cinc cseq body).rooms = s.rooms := by
  obtain ⟨_, _, e⟩ := ctrlSend_spec s hop far ctype cjob cinc cseq body
  rw [e]

theorem ctrlSeen_admitRefusal (s : State) (p : Pkt) : (ctrlSeen s p).admitRefusal p = s.admitRefusal p := rfl

theorem exec_admitMember_refused {c : Nat} (h : FromMember s p 0x01) (hc : s.admitRefusal p = some c) :
    exec (.admitMember p) s = .next ((ctrlSeen s p).ctrlSend p.src p.src 0x03 0 0 (some p.cseq) (leBytes 2 c)) := by
  refine congrArg Host.Outcome.next ((ctrlRow_member h _).trans ?_)
  rw [ctrlSeen_admitRefusal, hc]

theorem exec_admitMember_admitted (h : FromMember s p 0x01) (hc : s.admitRefusal p = none) : ∃ t, exec (.admitMember p) s = .next t ∧
    tfind t.caravan.members p.src = some ⟨s.time.now + 2000000000, 0, 0, 0, []⟩ ∧ p.src ∉ t.caravan.evicted ∧ t.caravan.generation = s.caravan.generation ∧
    (∀ m, m ≠ p.src → tfind t.caravan.members m = tfind s.caravan.members m) ∧ t.rooms = s.rooms := by
  refine ⟨_, congrArg Host.Outcome.next (ctrlRow_member h _), ?_⟩
  rw [ctrlSeen_admitRefusal, hc]
  dsimp only
  rw [ctrlSend_caravan, ctrlSend_rooms]
  exact ⟨tfind_tset_self .., by simp, rfl, fun m hm => tfind_tset_ne _ _ hm, rfl⟩

theorem exec_renew_unknown (h : FromMember s p 0x04) (hm : tfind s.caravan.members p.src = none) : ∃ t, exec (.renew p) s = .next t ∧
    t.caravan.links = tdel s.caravan.links p.src ∧ t.caravan.members = s.caravan.members ∧ t.rooms = s.rooms := by
  refine ⟨_, congrArg Host.Outcome.next (ctrlRow_member h _), ?_⟩
  rw [ctrlSeen_caravan, hm]
  dsimp only
  rw [ctrlSend_caravan, ctrlSend_rooms]
  exact ⟨rfl, rfl, rfl⟩

theorem exec_renew_current {m : Member} (h : FromMember s p 0x04) (hm : tfind s.caravan.members p.src = some m) (hgen : p.arg 0 4 = s.caravan.generation) :
    ∃ t, exec (.renew p) s = .next t ∧ tfind t.caravan.members p.src = some { m with expiry := Nat.max m.expiry (p.arg 4 8 + 2000000000) } ∧
      (∀ k, k ≠ p.src → tfind t.caravan.members k = tfind s.caravan.members k) ∧ t.caravan.generation = s.caravan.generation ∧ t.rooms = s.rooms := by
  refine ⟨_, congrArg Host.Outcome.next (ctrlRow_member h _), ?_⟩
  rw [ctrlSeen_caravan, hm]
  dsimp only
  rw [if_pos hgen, ctrlSend_caravan, ctrlSend_rooms]
  exact ⟨tfind_tset_self .., fun k hk => tfind_tset_ne _ _ hk, rfl, rfl⟩

theorem exec_renew_other {m : Member} (h : FromMember s p 0x04) (hm : tfind s.caravan.members p.src = some m) (hgen : p.arg 0 4 ≠ s.caravan.generation) :
    exec (.renew p) s = .next ((ctrlSeen s p).sendGen p.src (some p.cseq) s.caravan.evicted) := by
  refine congrArg Host.Outcome.next ((ctrlRow_member h _).trans ?_)
  rw [ctrlSeen_caravan, hm]
  exact if_neg hgen

theorem exec_leave (h : CtrlPasses s p 0x0C) (gives : s.gives (s.originOf p) = true) : exec (.leave p) s = .next ((ctrlSeen s p).evict (s.originOf p)) :=
  congrArg Host.Outcome.next ((ctrlRow_pass h _).trans (if_pos gives))

theorem modMember_of_some {m : Member} {mid : Nat} (hm : tfind s.caravan.members mid = some m) (f : Member → Member) :
    s.modMember mid f = { s with caravan := { s.caravan with members := tset s.caravan.members mid (f m) } } := by
  rw [State.modMember, hm]

theorem exec_probeAck {m : Member} (h : CtrlPasses s p 0x0A) (hm : tfind s.caravan.members p.src = some m) : exec (.probeAck p) s = .next (
    if m.probes = 0 then ctrlSeen s p
    else State.healthRecord { ctrlSeen s p with caravan := { s.caravan with members := tset s.caravan.members p.src { m with probes := 0 } } }
      8 Code.netPeerLost 0xFFFF 0xFFFF p.src) := by
  refine congrArg Host.Outcome.next ((ctrlRow_pass h _).trans ?_)
  have known : tfind (ctrlSeen s p).caravan.members p.src = some m := hm
  rw [known]
  dsimp only
  rw [modMember_of_some known]
  rfl

theorem exec_rekey {x : HeadJob} (h : CtrlPasses s p 0x0D) (hhead : s.caravan.isHead = true) (hx : tfind s.caravan.jobs p.cjob = some x) :
    exec (.rekey p) s = .next (if x.kgen = p.arg 0 1 then (ctrlSeen s p).newJobKey p.cjob else ctrlSeen s p) := by
  refine congrArg Host.Outcome.next ((toHead_head h hhead _).trans (ite_congr (propext ?_) (fun _ => rfl) fun _ => rfl))
  rw [ctrlSeen_caravan, hx, Option.any_some]
  exact decide_eq_true_iff

theorem exec_report (h : CtrlPasses s p 0x0B) : exec (.report p) s = .next (
    if s.caravan.isManager = true then (ctrlSeen s p).routeReport p.cjob (s.originOf p) (p.arg 0 4) (p.arg 4 2) (p.arg 6 2) else ctrlSeen s p) :=
  congrArg Host.Outcome.next (ctrlRow_pass h _)

end

/-! ## A lease giver's timers (R416, R417) -/

section
variable {s : State} {mid at_ : Nat} {m : Member} (hm : tfind s.caravan.members mid = some m)
include hm

theorem exec_leaseLapse : exec (.leaseLapse mid at_) s = .next (
    if m.expiry + 250000000 ≤ (s.upto at_).time.now then (s.upto at_).evict mid else s.upto at_) := by
  refine congrArg Host.Outcome.next (ite_congr (propext ?_) (fun _ => rfl) fun _ => rfl)
  rw [State.upto_caravan, hm, Option.any_some]
  exact decide_eq_true_iff

theorem exec_probeTimeout : exec (.probeTimeout mid at_) s = .next (
    if m.probes ≠ 0 ∧ m.probeFirst + 30000000 ≤ (s.upto at_).time.now then (s.upto at_).evict mid else s.upto at_) := by
  refine congrArg Host.Outcome.next (ite_congr (propext ?_) (fun _ => rfl) fun _ => rfl)
  rw [State.upto_caravan, hm, Option.any_some, Bool.and_eq_true]
  exact and_congr decide_eq_true_iff decide_eq_true_iff

theorem exec_probeResend : exec (.probeResend mid at_) s = .next (
    if (m.probes = 1 ∨ m.probes = 2) ∧ m.probeLast + 10000000 ≤ (s.upto at_).time.now then (s.upto at_).sendProbe mid else s.upto at_) := by
  refine congrArg Host.Outcome.next (ite_congr (propext ?_) (fun _ => rfl) fun _ => rfl)
  rw [State.upto_caravan, hm, Option.any_some, Bool.and_eq_true, Bool.or_eq_true]
  exact and_congr (or_congr decide_eq_true_iff decide_eq_true_iff) decide_eq_true_iff

/-- A PROBE sent again is counted, and leaves the time of the first. -/
theorem sendProbe_again (hprobes : m.probes ≠ 0) : ∃ fl o n, s.sendProbe mid = { s with
    net := { s.net with flows := fl }
    caravan := { s.caravan with cseq := n, members := tset s.caravan.members mid { m with probes := m.probes + 1, probeLast := s.time.now } }
    out := o } := by
  obtain ⟨fl, o, e⟩ := ctrlSend_spec s mid mid 0x09 0 0 none (leBytes 8 s.now)
  refine ⟨fl, o, (s.caravan.cseq + 1) % 2 ^ 32, ?_⟩
  rw [State.sendProbe, e]
  refine (modMember_of_some (m := m) (by exact hm) _).trans ?_
  rw [if_neg hprobes]
  rfl

theorem exec_probeResend_sends (hprobes : m.probes = 1 ∨ m.probes = 2) (due : m.probeLast + 10000000 ≤ (s.upto at_).time.now) :
    ∃ t, exec (.probeResend mid at_) s = .next t ∧ tfind t.caravan.members mid = some { m with probes := m.probes + 1, probeLast := (s.upto at_).time.now } ∧
      t.rooms = s.rooms := by
  obtain ⟨_, _, _, e⟩ := sendProbe_again (s := s.upto at_) hm (by omega)
  exact ⟨_, (exec_probeResend hm).trans (congrArg Host.Outcome.next ((if_pos ⟨hprobes, due⟩).trans e)), tfind_tset_self .., rfl⟩

/-! ## Evictions (R417) -/

theorem evict_below (hhead : s.caravan.isHead = false) : ∃ fl o n, s.evict mid = { s with
    net := { s.net with flows := fl }
    caravan := { s.caravan with cseq := n, members := tdel s.caravan.members mid, lags := tdel s.caravan.lags mid }
    out := o } := by
  obtain ⟨fl, o, e⟩ := ctrlSend_spec { s with caravan := { s.caravan with members := tdel s.caravan.members mid, lags := tdel s.caravan.lags mid } } 0 mid 0x0C 0 0 none
    (leBytes 2 Code.fenceEvicted)
  have below : ¬ s.caravan.isHead = true := by rw [hhead]; decide
  exact ⟨fl, o, _, (if_neg (by rw [hm]; exact Bool.false_ne_true)).trans ((if_neg below).trans e)⟩

theorem evict_head (hhead : s.caravan.isHead = true) : s.evict mid =
    State.headEvict { s with caravan := { s.caravan with members := tdel s.caravan.members mid, lags := tdel s.caravan.lags mid } }
      (if mid % 16384 = 0 then span mid 16384 else [mid]) :=
  (if_neg (by rw [hm]; exact Bool.false_ne_true)).trans (if_pos hhead)

end

/-- The head's order on an eviction while it counts no job: the next generation, with its list, to every member. -/
theorem headEvict_jobless {s : State} (mids : List Nat) (h : s.caravan.jobs = []) : ∃ fl o n, s.headEvict mids = { s with
    net := { s.net with flows := fl }
    caravan := { s.caravan with
      cseq := n
      jobs := []
      generation := (s.caravan.generation + 1) % 2 ^ 32
      evicted := dedup (s.caravan.evicted ++ mids) }
    out := o } := by
  unfold State.headEvict
  dsimp only
  rw [h]
  dsimp only [List.filterMap_nil, List.foldl_nil]
  rw [h]
  have sent (l : List (Nat × Member)) (v : State) := ctrlSends_spec (fun v (m : Nat × Member) => v.sendGen m.1 none mids) l (fun v m => sendGen_spec v m.1 none mids) v
  obtain ⟨fl, o, n, e⟩ := sent s.caravan.members { s with caravan := { s.caravan with
    jobs := [], generation := (s.caravan.generation + 1) % 2 ^ 32, evicted := dedup (s.caravan.evicted ++ mids) } }
  exact ⟨fl, o, n, e⟩

/-- Settles O51: a lease giver admits, renews, probes and evicts. -/
theorem leaseGiversAdmitRenewProbeAndEvict : Obligations.LeaseGiversAdmitRenewProbeAndEvict := by
  unfold Obligations.LeaseGiversAdmitRenewProbeAndEvict
  refine ⟨?rows, fun s mid at_ m hm => ⟨exec_leaseLapse hm, exec_probeTimeout hm, exec_probeResend_sends hm, fun h => (exec_probeResend hm).trans (congrArg Host.Outcome.next (if_neg h))⟩,
    fun s mid m hm => ⟨fun hhead => ?below, fun hhead hjobs => ?head⟩⟩
  case rows =>
    rintro s _ p rfl
    refine ⟨fun h => ⟨fun c => exec_admitMember_refused h, exec_admitMember_admitted h⟩, fun h => ⟨exec_renew_unknown h, fun m hm => ⟨exec_renew_current h hm, exec_renew_other h hm⟩⟩,
      exec_leave, fun h m hm => ⟨fun unprobed => (exec_probeAck h hm).trans (congrArg Host.Outcome.next (if_pos unprobed)),
        fun probed => (exec_probeAck h hm).trans (congrArg Host.Outcome.next (if_neg probed))⟩,
      fun h hhead x hx => exec_rekey h hhead hx, exec_report⟩
  case below =>
    obtain ⟨_, _, _, e⟩ := evict_below hm hhead
    rw [e]
    exact ⟨rfl, rfl, rfl⟩
  case head =>
    obtain ⟨_, _, _, e⟩ := headEvict_jobless (s := { s with caravan := { s.caravan with members := tdel s.caravan.members mid, lags := tdel s.caravan.lags mid } })
      (if mid % 16384 = 0 then span mid 16384 else [mid]) hjobs
    rw [evict_head hm hhead, e]
    refine ⟨_, ?_, rfl, rfl, rfl, rfl⟩
    split
    · exact mem_span.mpr (by omega)
    · exact List.mem_singleton_self _

end Sys2Proof.Machine
end

section
/-! PROOFS. Packets of the transport checked and served, and what a port answers (R387, R390 to R393, R395, R398, R508). -/

namespace Sys2Proof.Machine

open Sys2Proof Sys2Proof.Obl

theorem State.modFlow_flow (s : State) (k : Nat) (g : Flow → Flow) : (s.modFlow k g).flow k = g (s.flow k) := tget_tset_self ..

/-! ## The checks of Table 16.5 (R390) -/

section
variable {s : State} {p : Pkt} {k : Nat}

theorem exec_of_packetRows {c : Instr} (h : (c, k) ∈ packetRows p) : ∃ f, ∀ s, exec c s = .next (s.pktRow p k f) := by
  simp only [packetRows, List.mem_cons, Prod.mk.injEq, List.not_mem_nil, or_false] at h
  rcases h with ⟨rfl, rfl⟩ | ⟨rfl, rfl⟩ | ⟨rfl, rfl⟩ | ⟨rfl, rfl⟩ | ⟨rfl, rfl⟩ | ⟨rfl, rfl⟩
  all_goals exact ⟨_, fun _ => rfl⟩

theorem pktRow_of_dropped {u : State} (f : State → Nat → Job → State) (h : s.pktCheck p k = (u, none)) : s.pktRow p k f = u := by
  rw [State.pktRow, h]

theorem pktCheck_malformed (h : p.proto ≠ 1 ∨ p.plen ≠ p.udp ∨ ptypeOk p.ptype = false) : s.pktCheck p k = (netCounted s 0, none) := by
  have bad : p.proto ≠ 1 ∨ p.plen ≠ p.udp ∨ (!ptypeOk p.ptype) = true := h.imp_right (.imp_right fun h => by rw [h]; rfl)
  exact if_pos bad

/-- A packet of its row's type with a good header: the room of its job decides. -/
theorem pktCheck_headed (hproto : p.proto = 1) (hlen : p.plen = p.udp) (hok : ptypeOk p.ptype = true) (htype : p.ptype = k) : s.pktCheck p k =
    match s.roomOfTag p.job with
    | none => (if k = 4 ∧ p.flow = 0xFFF0 then s.onLeft p else s.netCount 1, none)
    | some (r, j) =>
      if !((tget noKeys s.net.jobKeys p.job).gens.contains p.kgen) then (s.netCount 2, none)
      else if !p.auth then
        let s := s.netCount 3
        let k := r * 2 ^ 18 + p.src
        let c := countSecond s.now (tget (s.now, 0) s.net.hostile k)
        let s := { s with net := { s.net with hostile := tset s.net.hostile k c } }
        (if c.2 = 1001 then s.reportPeer j.tag p.src 3 p.flow else s, none)
      else if rsvdSet p ∨ p.dst ≠ j.rank ∨ p.payload.length < payloadNeed p.ptype ∨ 8192 < p.plen ∨ p.off % 8192 ≠ 0 ∨ !flowOk p.flow then
        (s.malformed r j p, none)
      else if !((tfind j.ranks p.src).any fun m => (List.range 24).any fun q => s.caravan.addrOf m q = p.ip) then (s.netCount 4, none)
      else if p.mgen ≠ s.caravan.generation then
        let s := s.netCount 5
        (if newer p.mgen s.caravan.generation then s.sendRenew else s, none)
      else if p.incarn ≠ j.incarn ∨ j.faulted then (s.netCount 6, none)
      else (s, some (r, j)) := by
  have good : ¬ (p.proto ≠ 1 ∨ p.plen ≠ p.udp ∨ (!ptypeOk p.ptype) = true) :=
    not_or.mpr ⟨not_not_intro hproto, not_or.mpr ⟨not_not_intro hlen, by rw [hok]; decide⟩⟩
  exact (if_neg good).trans (if_neg (not_not_intro htype))

theorem pktCheck_jobless (hproto : p.proto = 1) (hlen : p.plen = p.udp) (hok : ptypeOk p.ptype = true) (htype : p.ptype = k) (hjob : s.roomOfTag p.job = none)
    (hleft : k = 4 → p.flow = 0xFFF0 → tfind s.net.left p.job = none) : s.pktCheck p k = (netCounted s 1, none) := by
  rw [pktCheck_headed hproto hlen hok htype, hjob]
  dsimp only
  split
  next h =>
    rw [State.onLeft, hleft h.1 h.2]
    rfl
  · rfl

theorem pktCheck_keyless {r : Nat} {j : Job} (hproto : p.proto = 1) (hlen : p.plen = p.udp) (hok : ptypeOk p.ptype = true) (htype : p.ptype = k)
    (hjob : s.roomOfTag p.job = some (r, j)) (hkey : (tget noKeys s.net.jobKeys p.job).gens.contains p.kgen = false) : s.pktCheck p k = (netCounted s 2, none) := by
  rw [pktCheck_headed hproto hlen hok htype, hjob]
  exact if_pos (by rw [hkey]; rfl)

variable {r : Nat} {j : Job} (h : PacketPasses s p k r j)
include h

theorem pktCheck_passes : s.pktCheck p k = (s, some (r, j)) := by
  obtain ⟨hproto, hlen, hok, htype, hjob, hkey, hauth, hrsvd, hdst, hneed, hsize, hoff, hflow, ⟨m, hm, q, hq, haddr⟩, hgen, hincarn, hfault⟩ := h
  have body : ¬ (rsvdSet p = true ∨ p.dst ≠ j.rank ∨ p.payload.length < payloadNeed p.ptype ∨ 8192 < p.plen ∨ p.off % 8192 ≠ 0 ∨ (!flowOk p.flow) = true) := by
    rw [hrsvd, hflow]
    simp [hdst, hoff, hneed, hsize]
  have from_ : ((tfind j.ranks p.src).any fun m => (List.range 24).any fun q => s.caravan.addrOf m q = p.ip) = true := by
    rw [hm, Option.any_some]
    exact List.any_eq_true.mpr ⟨q, List.mem_range.mpr hq, decide_eq_true haddr⟩
  rw [pktCheck_headed hproto hlen hok htype, hjob]
  dsimp only
  rw [hkey, if_neg (by decide), hauth, if_neg (by decide), if_neg body, from_, if_neg (by decide), if_neg (not_not_intro hgen),
    if_neg (not_or.mpr ⟨not_not_intro hincarn, by rw [hfault]; decide⟩)]

theorem pktRow_passes (f : State → Nat → Job → State) : s.pktRow p k f = f s r j := by
  rw [State.pktRow, pktCheck_passes h]

end

/-! ## DATA (R391, R392) -/

section
variable {s : State} {p : Pkt} {r : Nat} {j : Job} (h : PacketPasses s p 1 r j)
include h

theorem exec_data_far (far : (s.flow (flowKey r p.src p.flow)).cum + 4096 ≤ p.psn) :
    exec (.data p) s = .next (netCounted (if p.ce then netCounted s 10 else s) 7) :=
  congrArg Host.Outcome.next ((pktRow_passes h _).trans (if_pos far))

end

theorem gotPsn_kept (f : Flow) (now psn plen : Nat) (ce : Bool) : (f.gotPsn now psn plen ce).since = f.since + 1 ∧ (f.gotPsn now psn plen ce).recvs = f.recvs :=
  ⟨rfl, rfl⟩

/-- The bytes of a PUT placed where the room may write. -/
theorem placeData_put {s : State} {r : Nat} {p : Pkt} (hflow : p.flow < 0x8000) (hmsg : p.msg < 2 ^ 31) (hrange : s.checkRange r (p.remote + p.off) p.payload.length true = none) :
    s.placeData r p = ((s.chargeNormal r (p.remote + p.off) p.payload.length).writeVa r (p.remote + p.off) (p.payload.map (BitVec.ofNat 8)), none) := by
  refine (if_pos hflow).trans ((if_neg (Nat.not_le.mpr hmsg)).trans ?_)
  rw [List.length_map, hrange]

theorem exec_data_put {s u : State} {p : Pkt} {r k : Nat} {j : Job} (h : PacketPasses s p 1 r j) (hk : k = flowKey r p.src p.flow)
    (hu : u = (if p.ce then netCounted s 10 else s)) (near : p.psn < (s.flow k).cum + 4096) (hsince : (s.flow k).since ≠ 0) (hfew : (s.flow k).since < 15)
    (hflow : p.flow < 0x8000) (hmsg : p.msg < 2 ^ 31) (hlast : bit p.pflags 0 = false) (hrecv : (s.flow k).recv p.msg = ⟨p.msg, [], none, false, []⟩) {v w : State}
    (hv : v = (u.modFlow k fun f => f.gotPsn s.time.now p.psn p.plen p.ce).charge r 13 p.plen) (hrange : v.checkRange r (p.remote + p.off) p.payload.length true = none)
    (hw : w = (v.chargeNormal r (p.remote + p.off) p.payload.length).writeVa r (p.remote + p.off) (p.payload.map (BitVec.ofNat 8))) (hflows : w.flow k = v.flow k) :
    exec (.data p) s = .next (w.modFlow k fun f => f.setRecv ⟨p.msg, [p.off], none, false, []⟩) := by
  subst hk
  have seen : (if p.ce = true then s.netCount 10 else s) = u := hu.symm
  have now : u.now = s.time.now := by
    rw [hu]
    split <;> rfl
  have flow : v.flow (flowKey r p.src p.flow) = (s.flow (flowKey r p.src p.flow)).gotPsn s.time.now p.psn p.plen p.ce := by
    have counted : u.flow (flowKey r p.src p.flow) = s.flow (flowKey r p.src p.flow) := by
      rw [hu]
      split <;> rfl
    rw [hv, ← counted]
    exact State.modFlow_flow u (flowKey r p.src p.flow) fun f => f.gotPsn s.time.now p.psn p.plen p.ce
  have record : (w.flow (flowKey r p.src p.flow)).recv p.msg = ⟨p.msg, [], none, false, []⟩ := by
    rw [hflows, flow, Flow.recv, (gotPsn_kept ..).2]
    exact hrecv
  have few : ¬ 16 ≤ ((w.modFlow (flowKey r p.src p.flow) fun f => f.setRecv ⟨p.msg, [p.off], none, false, []⟩).flow (flowKey r p.src p.flow)).since := by
    have since : (w.flow (flowKey r p.src p.flow)).since = (s.flow (flowKey r p.src p.flow)).since + 1 := by rw [hflows, flow, (gotPsn_kept ..).1]
    rw [State.modFlow_flow]
    exact Nat.not_le.mpr (since.trans_lt (Nat.succ_lt_succ hfew))
  refine congrArg Host.Outcome.next ((pktRow_passes h _).trans ((if_neg (Nat.not_le.mpr near)).trans ((if_neg fun idle => hsince idle.1).trans ?_)))
  dsimp only
  rw [seen, now, ← hv, hrecv, placeData_put hflow hmsg hrange, ← hw]
  refine (if_neg (by simp)).trans ((if_neg fun high => Nat.not_le.mpr hflow high.1).trans ((if_neg fun mirror => ?_).trans ?_))
  · rw [mirror.1] at hflow
    exact absurd hflow (by decide)
  · dsimp only
    rw [record, hlast]
    exact (if_neg Bool.false_ne_true).trans (if_neg few)

/-! ## ACK and NACK (R393, R395) -/

theorem exec_ack {s : State} {p : Pkt} {r k ptype : Nat} {j : Job} {c : Instr} {shown : Nat → Bool} {f : Flow} (hc : (c, ptype) ∈ [(Instr.ack p, 2), (.nack p, 3)])
    (h : PacketPasses s p ptype r j) (hk : k = flowKey r p.src p.flow) (hf : f = s.flow k)
    (hshown : shown = (fun n => decide (n < p.num 0 8) || (decide (p.num 0 8 < n) && bit (p.num 8 16) (n - p.num 0 8 - 1))))
    (kept : ∀ u ∈ f.unacked, shown u.psn = false → p.num 8 16 = 0 ∨ p.num 0 8 + 1 + (p.num 8 16).log2 ≤ u.psn) :
    exec c s = .next (((s.setFlow k (Flow.onAckRate { f with unacked := f.unacked.filter fun u => !shown u.psn } s.time.now (p.num 24 4)
      (sumNat ((f.unacked.filter fun u => shown u.psn).map (·.bytes))))).finishSends r p.src p.flow).pump r p.src p.flow 4096) := by
  have acked : exec c s = .next (s.onAck r j p) := by
    simp only [List.mem_cons, Prod.mk.injEq, List.not_mem_nil, or_false] at hc
    rcases hc with ⟨rfl, rfl⟩ | ⟨rfl, rfl⟩
    · exact congrArg Host.Outcome.next (pktRow_passes h _)
    · exact congrArg Host.Outcome.next (pktRow_passes h _)
  have lost : (f.unacked.filter fun u => !shown u.psn && p.num 8 16 != 0 && decide (u.psn < p.num 0 8 + 1 + (p.num 8 16).log2)) = [] := by
    refine List.filter_eq_nil_iff.mpr fun u hu missing => ?_
    simp only [Bool.and_eq_true, Bool.not_eq_true', bne_iff_ne, decide_eq_true_eq] at missing
    obtain ⟨⟨unshown, map⟩, below⟩ := missing
    exact (kept u hu unshown).elim map (Nat.not_le.mpr below)
  rw [acked]
  subst hk hf hshown
  unfold State.onAck
  dsimp only
  rw [lost]
  rfl

/-! ## GETREQ, REFUSE and BUSY (R391, R393, R398) -/

section
variable {s : State} {p : Pkt} {r : Nat} {j : Job}

section
variable (h : PacketPasses s p 4 r j)
include h

theorem exec_getreq_served (served : ∃ m ∈ (s.flow (flowKey r p.src p.flow)).sends, m.msg = p.msg) : exec (.getreq p) s = .next s := by
  obtain ⟨m, hm, hmsg⟩ := served
  exact congrArg Host.Outcome.next ((pktRow_passes h _).trans (if_pos (List.any_eq_true.mpr ⟨m, hm, decide_eq_true hmsg⟩)))

variable (new : ∀ m ∈ (s.flow (flowKey r p.src p.flow)).sends, m.msg ≠ p.msg)
include new

theorem exec_getreq_new : exec (.getreq p) s = .next (
    if 16 ≤ s.servedGets r p.src then s.sendJob (flowKey r p.src p.flow) j { s.jobPkt j p.src p.flow 6 [] with msg := p.msg }
    else if p.flow = 0xFFF0 then
      match (s.room r).mem.snap.held.find? fun h => h.rank = p.src && h.snap.step = p.num 0 8 with
      | none => s.sendRefuse r j p Code.snapNone
      | some h => s.sendMsg r p.src p.flow ⟨p.msg, p.num 0 8, 0, h.snap.bytes, 0, 1, 0, false, none⟩
    else
      match s.checkRange r (p.num 0 8) (p.num 8 8) false with
      | some c => s.sendRefuse r j p c
      | none => if p.num 8 8 = 0 then s else s.sendMsg r p.src p.flow ⟨p.msg, p.num 0 8, 0, p.num 8 8, 0, 0, 0, false, none⟩) := by
  refine congrArg Host.Outcome.next ((pktRow_passes h _).trans (if_neg fun served => ?_))
  obtain ⟨m, hm, hmsg⟩ := List.any_eq_true.mp served
  exact new m hm (of_decide_eq_true hmsg)

variable (few : s.servedGets r p.src < 16) (hflow : p.flow ≠ 0xFFF0)
include few hflow

theorem exec_getreq_unreadable {c : Nat} (hc : s.checkRange r (p.num 0 8) (p.num 8 8) false = some c) : exec (.getreq p) s = .next (s.sendRefuse r j p c) := by
  rw [exec_getreq_new h new, if_neg (Nat.not_le.mpr few), if_neg hflow, hc]

theorem exec_getreq_sends (hc : s.checkRange r (p.num 0 8) (p.num 8 8) false = none) (hbytes : p.num 8 8 ≠ 0) :
    exec (.getreq p) s = .next (s.sendMsg r p.src p.flow ⟨p.msg, p.num 0 8, 0, p.num 8 8, 0, 0, 0, false, none⟩) := by
  rw [exec_getreq_new h new, if_neg (Nat.not_le.mpr few), if_neg hflow, hc]
  exact congrArg Host.Outcome.next (if_neg hbytes)

end

variable {g : GetReq} (hg : (s.flow (flowKey r p.src p.flow)).gets.find? (fun g => g.msg = p.msg) = some g)
include hg

theorem exec_refuse_get (h : PacketPasses s p 5 r j) {q n : Nat} (hdesc : g.desc = some (q, n)) : exec (.refuse p) s = .next
    ((s.modFlow (flowKey r p.src p.flow) fun f => { f with gets := f.gets.filter fun x => x.msg ≠ g.msg }).complete q n stAccessFault (p.num 0 2) 0 0 0) := by
  refine congrArg Host.Outcome.next ((pktRow_passes h _).trans ?_)
  unfold State.onRefuse
  dsimp only
  rw [hg]
  dsimp only
  rw [hdesc]

theorem exec_busy (h : PacketPasses s p 6 r j) : exec (.busy p) s = .next (
    if g.busySince.getD s.time.now + 2000000000 ≤ s.time.now then s.unreachable r p.src p.flow
    else s.modFlow (flowKey r p.src p.flow) fun f => { f with
      gets := f.gets.map fun x => if x.msg = g.msg then { x with busySince := some (g.busySince.getD s.time.now), busyAt := some s.time.now, tries := 0 } else x }) := by
  refine congrArg Host.Outcome.next ((pktRow_passes h _).trans ?_)
  unfold State.onBusy
  dsimp only
  rw [hg]
  rfl

end

/-! ## What the ports answer (R387, R508) -/

section
variable {s : State} {port addr : Nat} (hport : port ∈ s.netPorts)
include hport

theorem exec_otherFrame : exec (.otherFrame port) s = .next (netCounted s 8) := congrArg Host.Outcome.next (if_pos (List.contains_iff_mem.mpr hport))

theorem exec_portLink (up : Bool) : exec (.portLink port up) s =
    .next { s with net := { s.net with ports := tset s.net.ports port { s.port port with link := up && bit (s.port port).cfg 31 } } } :=
  congrArg Host.Outcome.next (if_pos (List.contains_iff_mem.mpr hport))

variable (henabled : bit (s.port port).cfg 31 = true) (haddr : addr ≠ 0)
include henabled haddr

theorem exec_arp_own (own : (s.port port).ip4 = addr) : exec (.arp port addr) s = .next (s.emit (.answer 1 port addr)) :=
  congrArg Host.Outcome.next (if_pos ⟨List.contains_iff_mem.mpr hport, henabled, own, haddr⟩)

theorem exec_neighbourDiscovery_own (own : (s.port port).ip6 = addr) : exec (.neighbourDiscovery port addr) s = .next (s.emit (.answer 2 port addr)) :=
  congrArg Host.Outcome.next (if_pos ⟨List.contains_iff_mem.mpr hport, henabled, own, haddr⟩)

theorem exec_icmpEcho {at_ : Nat} {n : Nat × Nat} (own : (s.port port).ip4 = addr ∨ (s.port port).ip6 = addr) (hn : n = countSecond ((s.upto at_).time.now) (s.port port).echo) :
    ∃ t, exec (.icmpEcho port addr at_) s = .next t ∧ (t.port port).echo = n ∧ t.out = (if n.2 ≤ 100 then s.out ++ [.answer 3 port addr] else s.out) := by
  have answers : ¬ ((!s.netPorts.contains port) = true ∨ (!bit (s.port port).cfg 31) = true ∨ addr = 0 ∨ ((s.port port).ip4 ≠ addr ∧ (s.port port).ip6 ≠ addr)) := by
    rw [List.contains_iff_mem.mpr hport, henabled]
    simp only [Bool.not_true, Bool.false_eq_true, haddr, false_or, not_and_or, not_not]
    exact own
  have echoed : countSecond (s.upto at_).now ((s.upto at_).port port).echo = n := hn.symm
  have counted (x : Port) (hx : x.echo = n) : (tget Port.reset (tset s.net.ports port x) port).echo = n := by rw [tget_tset_self, hx]
  refine ⟨_, congrArg Host.Outcome.next (if_neg answers), ?_⟩
  dsimp only
  rw [echoed]
  split
  · exact ⟨counted _ rfl, rfl⟩
  · exact ⟨counted _ rfl, rfl⟩

end

/-- Settles O48: packets are checked and served by their type, and a port answers for its own addresses. -/
theorem packetsAreCheckedThenServed : Obligations.PacketsAreCheckedThenServed := by
  unfold Obligations.PacketsAreCheckedThenServed
  refine ⟨fun s p c k hc => ?checks, ?data, fun s p r k ptype j c shown f => exec_ack, ?getreq, ?answers, fun s port addr hport => ⟨fun henabled haddr => ⟨exec_arp_own hport henabled haddr, ?arp,
    exec_neighbourDiscovery_own hport henabled haddr, ?nd, fun at_ n => exec_icmpEcho hport henabled haddr⟩, exec_otherFrame hport, exec_portLink hport⟩⟩
  case checks =>
    obtain ⟨f, e⟩ := exec_of_packetRows hc
    rw [e]
    refine ⟨fun h => congrArg Host.Outcome.next (pktRow_of_dropped f (pktCheck_malformed h)), fun hproto hlen hok htype => ⟨fun hjob hleft => ?_, fun r j hjob hkey => ?_⟩⟩
    · exact congrArg Host.Outcome.next (pktRow_of_dropped f (pktCheck_jobless hproto hlen hok htype hjob hleft))
    · exact congrArg Host.Outcome.next (pktRow_of_dropped f (pktCheck_keyless hproto hlen hok htype hjob hkey))
  case data =>
    rintro s u p r k j h hk hu
    refine ⟨fun far => ?_, fun near hsince hfew hflow hmsg hlast hrecv v hv hrange w hw hflows => exec_data_put h hk hu near hsince hfew hflow hmsg hlast hrecv hv hrange hw hflows⟩
    subst hk hu
    exact exec_data_far h far
  case getreq =>
    rintro s p r _ j h rfl
    refine ⟨exec_getreq_served h, fun new => ⟨fun full => ?_, fun few hflow => ⟨fun c => exec_getreq_unreadable h new few hflow, exec_getreq_sends h new few hflow⟩⟩⟩
    exact (exec_getreq_new h new).trans (congrArg Host.Outcome.next (if_pos full))
  case answers =>
    rintro s p r _ j g rfl hg
    exact ⟨fun h q n => exec_refuse_get hg h, fun h => ⟨fun late => (exec_busy hg h).trans (congrArg Host.Outcome.next (if_pos late)),
      fun early => (exec_busy hg h).trans (congrArg Host.Outcome.next (if_neg (Nat.not_le.mpr early)))⟩⟩
  case arp => exact fun other => congrArg Host.Outcome.next (if_neg fun h => other h.2.2.1)
  case nd => exact fun other => congrArg Host.Outcome.next (if_neg fun h => other h.2.2.1)

end Sys2Proof.Machine
end

section
/-! PROOFS. The timers of the transport: acknowledgements, retransmission, rates and paths (R392, R393, R395). -/

namespace Sys2Proof.Machine

open Sys2Proof Sys2Proof.Obl

/-! ## Device time beside what is sent (R389, R392, R421) -/

/-- Steps that leave device time as it is leave it so one after another. -/
theorem foldl_time {α : Type} (f : State → α → State) (l : List α) (h : ∀ s x, (f s x).time = s.time) (s : State) : (l.foldl f s).time = s.time :=
  foldl_inv (P := fun s t => t.time = s.time) f l (fun _ => rfl) (fun _ _ _ h g => g.trans h) h s

theorem installJobKey_time (s : State) (tag gen : Nat) (key : List Nat) : (s.installJobKey tag gen key).time = s.time := by
  unfold State.installJobKey
  split
  · rfl
  · refine foldl_time _ _ (fun _ _ => ?_) _
    rfl

theorem ctrlSend_time (s : State) (hop far ctype cjob cinc : Nat) (cseq : Option Nat) (body : List Byte) : (s.ctrlSend hop far ctype cjob cinc cseq body).time = s.time := by
  obtain ⟨_, _, e⟩ := ctrlSend_spec s hop far ctype cjob cinc cseq body
  rw [e]

theorem newJobKey_time (s : State) (tag : Nat) : (s.newJobKey tag).time = s.time := by
  unfold State.newJobKey
  split
  · rfl
  · refine foldl_time _ _ (fun v mid => ?_) _
    split
    · exact installJobKey_time ..
    · exact ctrlSend_time ..

theorem askRekey_time (s : State) (k : Nat) (j : Job) : (s.askRekey k j).time = s.time := by
  unfold State.askRekey
  dsimp only
  split
  · rfl
  · split
    · exact newJobKey_time ..
    · exact ctrlSend_time ..

theorem sendJob_time (s : State) (k : Nat) (j : Job) (p : Pkt) : (s.sendJob k j p).time = s.time := by
  refine (askRekey_time ..).trans ?_
  split
  · rfl
  · obtain ⟨_, _, e⟩ := sendOut_spec s k p
    rw [e]

/-- An ACK leaves no packet unacknowledged on its flow; a NACK leaves its time. -/
theorem sendAck_flow (s : State) (r : Nat) (j : Job) (peer flow ptype : Nat) : ∃ f : Flow, (s.sendAck r j peer flow ptype).flow (flowKey r peer flow) = { f with
    since := if ptype = 2 then 0 else f.since
    firstUn := if ptype = 2 then none else f.firstUn
    ceBytes := 0
    nackAt := if ptype = 3 then some s.time.now else f.nackAt } := by
  have sent : ∃ v : State, v.time = s.time ∧ s.sendAck r j peer flow ptype = v.modFlow (flowKey r peer flow) fun f => { f with
      since := if ptype = 2 then 0 else f.since
      firstUn := if ptype = 2 then none else f.firstUn
      ceBytes := 0
      nackAt := if ptype = 3 then some v.time.now else f.nackAt } := ⟨_, sendJob_time .., rfl⟩
  obtain ⟨v, time, e⟩ := sent
  exact ⟨v.flow (flowKey r peer flow), by rw [e, State.modFlow_flow, time]⟩

section
variable {s : State} {room peer flow at_ : Nat} {j : Job} (hjob : (s.room room).job = some j)

/-! ## Acknowledging (R392) -/

include hjob

theorem exec_ackTimer {t : Nat} (ht : (s.flow (flowKey room peer flow)).firstUn = some t) : exec (.ackTimer room peer flow at_) s = .next (
    if t + 4000 ≤ (s.upto at_).time.now then (s.upto at_).sendAck room j peer flow 2 else s.upto at_) := by
  refine congrArg Host.Outcome.next ?_
  rw [State.upto_room, hjob, State.upto_flow, ht]
  exact ite_congr (propext decide_eq_true_iff) (fun _ => rfl) fun _ => rfl

theorem exec_nackTimer_due {t : Nat} (ht : (s.flow (flowKey room peer flow)).missing = some t) (due : t + 20000 ≤ (s.upto at_).time.now)
    (hnack : ∀ n, (s.flow (flowKey room peer flow)).nackAt = some n → n + 20000 ≤ (s.upto at_).time.now) :
    exec (.nackTimer room peer flow at_) s = .next ((s.upto at_).sendAck room j peer flow 3) := by
  refine congrArg Host.Outcome.next ?_
  dsimp only
  rw [State.upto_room, hjob, State.upto_flow, ht]
  refine if_pos (Bool.and_eq_true_iff.mpr ⟨decide_eq_true due, ?_⟩)
  exact Option.all_eq_true _ _ |>.mpr fun n hn => decide_eq_true (hnack n hn)

theorem exec_nackTimer_early {t : Nat} (ht : (s.flow (flowKey room peer flow)).missing = some t)
    (early : (s.upto at_).time.now < t + 20000 ∨ ∃ n, (s.flow (flowKey room peer flow)).nackAt = some n ∧ (s.upto at_).time.now < n + 20000) :
    exec (.nackTimer room peer flow at_) s = .next (s.upto at_) := by
  refine congrArg Host.Outcome.next ?_
  dsimp only
  rw [State.upto_room, hjob, State.upto_flow, ht]
  refine if_neg fun h => ?_
  obtain ⟨due, nacked⟩ := Bool.and_eq_true_iff.mp h
  rcases early with early | ⟨n, hn, early⟩
  · exact Nat.not_le.mpr early (of_decide_eq_true due)
  · rw [hn] at nacked
    exact Nat.not_le.mpr early (of_decide_eq_true nacked)

/-! ## Sent again (R393) -/

section
variable {psn : Nat}

theorem exec_retransmitTimer_payload {x : Unacked}
    (hx : (s.flow (flowKey room peer flow)).unacked.find? (fun x => x.psn = psn && decide (x.sent + ladder x.tries ≤ (s.upto at_).time.now)) = some x) :
    exec (.retransmitTimer room peer flow psn at_) s = .next (
      if 7 ≤ x.tries then (s.upto at_).unreachable room peer flow
      else ((s.upto at_).modFlow (flowKey room peer flow) fun f => { f with rate := Nat.max (f.rate / 2) 125000000 }).resend room j peer flow x) := by
  refine congrArg Host.Outcome.next ?_
  dsimp only
  rw [State.upto_room, hjob, State.upto_flow]
  dsimp only
  rw [show (s.upto at_).now = (s.upto at_).time.now from rfl, hx]

theorem exec_retransmitTimer_request {g : GetReq} (settled : ∀ x ∈ (s.flow (flowKey room peer flow)).unacked, x.psn ≠ psn)
    (hg : (s.flow (flowKey room peer flow)).gets.find? (fun g => g.psn = psn && !g.answered && g.busyAt.isNone && decide (g.sent + ladder g.tries ≤ (s.upto at_).time.now)) = some g) :
    exec (.retransmitTimer room peer flow psn at_) s = .next (
      if 7 ≤ g.tries then (s.upto at_).unreachable room peer flow
      else (((s.upto at_).modFlow (flowKey room peer flow) fun f => { f with rate := Nat.max (f.rate / 2) 125000000 }).netCount 9).sendGet room j peer flow
        { g with tries := g.tries + 1 }) := by
  have payloads : (s.flow (flowKey room peer flow)).unacked.find? (fun x => x.psn = psn && decide (x.sent + ladder x.tries ≤ (s.upto at_).time.now)) = none :=
    List.find?_eq_none.mpr fun x hx found => settled x hx (of_decide_eq_true (Bool.and_eq_true_iff.mp found).1)
  refine congrArg Host.Outcome.next ?_
  dsimp only
  rw [State.upto_room, hjob, State.upto_flow]
  dsimp only
  rw [show (s.upto at_).now = (s.upto at_).time.now from rfl, payloads, hg]

end

theorem exec_getreqRetry {g : GetReq} (hg : (s.flow (flowKey room peer flow)).gets.find? (fun g => g.busyAt.any fun t => decide (t + 100000 ≤ (s.upto at_).time.now)) = some g) :
    exec (.getreqRetry room peer flow at_) s = .next ((s.upto at_).sendGet room j peer flow { g with busyAt := none }) := by
  refine congrArg Host.Outcome.next ?_
  rw [State.upto_room, hjob, State.upto_flow, show (s.upto at_).now = (s.upto at_).time.now from rfl, hg]

end

/-! ## Rates and paths (R395) -/

theorem exec_rateIncrease {s : State} {room peer flow at_ : Nat} {f : Flow} (hf : tfind s.net.flows (flowKey room peer flow) = some f) :
    exec (.rateIncrease room peer flow at_) s = .next (
      if f.rate = 0 ∨ (s.upto at_).time.now < Nat.max f.tInc f.tDec + 20000 then s.upto at_
      else (s.upto at_).setFlow (flowKey room peer flow) { f with rate := Nat.min (f.rate + 625000000) s.lineRate, tInc := (s.upto at_).time.now }) := by
  refine congrArg Host.Outcome.next ?_
  rw [State.upto_net, hf]
  rfl

section
variable {s : State} {port path at_ t : Nat} (hout : tfind (s.port port).out path = some t)
include hout

theorem exec_pathReturn_due (due : t ≤ (s.upto at_).time.now) : exec (.pathReturn port path at_) s = .next { s.upto at_ with
    net := { s.net with ports := tset s.net.ports port { s.port port with out := tdel (s.port port).out path } } } := by
  have returned : ((tfind ((s.upto at_).port port).out path).any fun t => decide (t ≤ (s.upto at_).now)) = true := by
    rw [show (s.upto at_).port port = s.port port from rfl, hout]
    exact decide_eq_true due
  exact congrArg Host.Outcome.next (if_pos returned)

theorem exec_pathReturn_early (early : (s.upto at_).time.now < t) : exec (.pathReturn port path at_) s = .next (s.upto at_) := by
  have waits : ¬ ((tfind ((s.upto at_).port port).out path).any fun t => decide (t ≤ (s.upto at_).now)) = true := by
    rw [show (s.upto at_).port port = s.port port from rfl, hout]
    exact fun h => Nat.not_le.mpr early (of_decide_eq_true h)
  exact congrArg Host.Outcome.next (if_neg waits)

end

/-- Settles O49: each timer of the transport at its time, and not before. -/
theorem transportTimersFire : Obligations.TransportTimersFire := by
  unfold Obligations.TransportTimersFire
  refine ⟨?flows, fun s room peer flow at_ _ f hk hf => ?rate, fun s port path at_ t hout => ⟨fun due => ⟨_, exec_pathReturn_due hout due, tget_tset_self .., rfl⟩, exec_pathReturn_early hout⟩⟩
  case flows =>
    rintro s _ room peer flow at_ _ j hjob rfl rfl
    refine ⟨fun t ht => ⟨fun due => ⟨(exec_ackTimer hjob ht).trans (congrArg Host.Outcome.next (if_pos due)), ?_⟩, fun early => ?_⟩,
      fun t ht => ⟨fun due nacked => ⟨exec_nackTimer_due hjob ht due nacked, ?_⟩, exec_nackTimer_early hjob ht⟩,
      fun psn x hx => ⟨fun spent => ?_, fun more => ?_⟩, fun psn g settled hg => ⟨fun spent => ?_, fun more => ?_⟩, fun g => exec_getreqRetry hjob⟩
    · obtain ⟨_, e⟩ := sendAck_flow (s.upto at_) room j peer flow 2
      rw [e]
      exact ⟨rfl, rfl⟩
    · exact (exec_ackTimer hjob ht).trans (congrArg Host.Outcome.next (if_neg (Nat.not_le.mpr early)))
    · obtain ⟨_, e⟩ := sendAck_flow (s.upto at_) room j peer flow 3
      rw [e]
      rfl
    · exact (exec_retransmitTimer_payload hjob hx).trans (congrArg Host.Outcome.next (if_pos spent))
    · exact (exec_retransmitTimer_payload hjob hx).trans (congrArg Host.Outcome.next (if_neg (Nat.not_le.mpr more)))
    · exact (exec_retransmitTimer_request hjob settled hg).trans (congrArg Host.Outcome.next (if_pos spent))
    · exact (exec_retransmitTimer_request hjob settled hg).trans (congrArg Host.Outcome.next (if_neg (Nat.not_le.mpr more)))
  case rate =>
    subst hk
    exact ⟨fun known due => (exec_rateIncrease hf).trans (congrArg Host.Outcome.next (if_neg (not_or.mpr ⟨known, Nat.not_lt.mpr due⟩))),
      fun h => (exec_rateIncrease hf).trans (congrArg Host.Outcome.next (if_pos h))⟩

end Sys2Proof.Machine
end
